-- ==== Sys2Proof/Word.lean ====
section
/-! DEFINITION. The word types of the part: bytes, 32-bit instruction words, 64-bit machine words (R10, R23). -/

namespace Sys2Proof

/-- One byte of memory. -/
abbrev Byte := BitVec 8
/-- One 32-bit instruction word (R49). -/
abbrev Word32 := BitVec 32
/-- One 64-bit word: a general register, a control word, a virtual address. -/
abbrev Word := BitVec 64

end Sys2Proof
end

