-- ==== Sys2Proof/Config.lean ====
section
/-! DEFINITION. What the spec leaves to the implementation or leaves open, as constants without a body. No proof can see a
value of any of them. -/

namespace Sys2Proof.Config

/-- The free values: a word for each reading of State.fresh, where the spec states an effect and not the value
(notes/assumptions/6.md). -/
opaque freeWord : Nat → Word

/-- What the peer's side of port `p` answers for the byte at `a`; the peer lies outside the manual (R271). The third
argument is State.fresh at the read. -/
opaque peerByte : Nat → Nat → Nat → Byte

/-- The second key of the pair under which a session's memory key encrypts lines of its ranges (R419, R422). -/
opaque tweakKey : List Byte → List Byte
/-- The ephemeral X25519 secret drawn at the n-th draw (R419, R428). -/
opaque ephemeralSecret : Nat → List Byte
/-- The seed of the part's fused Ed25519 identity key (R416, R419). -/
opaque identitySeed : List Byte
/-- Dalver's fused Ed25519 public key (R446). -/
opaque vendorPublic : List Byte

end Sys2Proof.Config
end

