-- ==== Sys2Proof/Machine/Bits.lean ====
section
/-! DEFINITION. Bit fields, sign extension and byte order: the helper procedures Bits, SignExt, ZeroExt of R31 and the
little-endian rule of R23. -/

namespace Sys2Proof.Machine

/-- `Bits(x, lo + len - 1, lo)` of a natural number (R31). -/
def natField (x lo len : Nat) : Nat := (x >>> lo) % 2 ^ len

/-- Bits `lo + len - 1` down to `lo` of a bit vector, as a number. -/
def field {n : Nat} (w : BitVec n) (lo len : Nat) : Nat := natField w.toNat lo len

/-- One bit of a bit vector. -/
def bit {n : Nat} (w : BitVec n) (i : Nat) : Bool := w.getLsbD i

/-- A bit vector of width `n` with `len` ones from bit `lo`. -/
def maskAt (n lo len : Nat) : BitVec n := BitVec.ofNat n ((2 ^ len - 1) <<< lo)

/-- `w` with the field of `len` bits at `lo` replaced by the low bits of `v`. -/
def setField {n : Nat} (w : BitVec n) (lo len v : Nat) : BitVec n :=
  (w &&& ~~~ (maskAt n lo len)) ||| BitVec.ofNat n ((v % 2 ^ len) <<< lo)

/-- A field value placed at bit `lo` of a fresh word. -/
def at_ (n v lo : Nat) : BitVec n := BitVec.ofNat n (v <<< lo)

/-- 1 for true and 0 for false. -/
def b2n (b : Bool) : Nat := if b then 1 else 0

/-- `SignExt(x, n)` of R31: the low `n` bits of `x` read as a two's-complement integer. -/
def signExt (x : Int) (n : Nat) : Int := Int.bmod x (2 ^ n)

/-- `ZeroExt(x, n)` of R31: the low `n` bits of `x` read as an unsigned integer. -/
def zeroExt (x : Int) (n : Nat) : Int := x % (2 ^ n : Nat)

/-- A word of the part from an exact integer: its low 64 bits. -/
def wordOf (x : Int) : Word := BitVec.ofInt 64 x

/-- The value of a word as an unsigned integer. -/
def uint {n : Nat} (w : BitVec n) : Int := Int.ofNat w.toNat

/-- The value of a bit vector as a two's-complement integer. -/
def sint {n : Nat} (w : BitVec n) : Int := w.toInt

/-- `n` bytes of `x`, least significant first (R23). -/
def bytesOfNat : Nat → Nat → List Byte
  | 0, _ => []
  | n + 1, x => BitVec.ofNat 8 x :: bytesOfNat n (x >>> 8)

/-- The number that a list of bytes holds, least significant first (R23). -/
def natOfBytes : List Byte → Nat
  | [] => 0
  | b :: bs => b.toNat + 256 * natOfBytes bs

/-- The low `n` bytes of a word, least significant first. -/
def wordBytes (n : Nat) (w : Word) : List Byte := bytesOfNat n w.toNat

/-- A word from bytes, least significant first. -/
def wordOfBytes (bs : List Byte) : Word := BitVec.ofNat 64 (natOfBytes bs)

/-- `x` rounded down to a multiple of `m`. -/
def alignDown (x m : Nat) : Nat := x / m * m

/-- `ceil(x / m)`. -/
def ceilDiv (x m : Nat) : Nat := (x + m - 1) / m

/-- Least power of two that is at least `x`, looking at exponents below `fuel`. -/
def pow2AtLeast (x fuel : Nat) : Nat :=
  match (List.range fuel).find? (fun k => decide (x ≤ 2 ^ k)) with
  | some k => 2 ^ k
  | none => 2 ^ fuel

/-- Largest power of two not above `x` among exponents below `fuel`, or 0. -/
def pow2AtMost (x fuel : Nat) : Nat :=
  (List.range fuel).foldl (fun acc k => if 2 ^ k ≤ x then 2 ^ k else acc) 0

/-- Count of 1 bits among the low `n` bits. -/
def popCount (x : Nat) : Nat → Nat
  | 0 => 0
  | n + 1 => popCount x n + natField x n 1

/-! ### Sparse tables: association lists with rising keys, the one canonical form of the model. -/

/-- The entry under a key. -/
def lookupKey {α : Type} (k : Nat) : List (Nat × α) → Option α
  | [] => none
  | (k', v) :: rest => if k = k' then some v else lookupKey k rest

/-- The list with the entry under `k` set to `v`, keys rising. -/
def insertKey {α : Type} (k : Nat) (v : α) : List (Nat × α) → List (Nat × α)
  | [] => [(k, v)]
  | (k', v') :: rest =>
    if k < k' then (k, v) :: (k', v') :: rest
    else if k = k' then (k, v) :: rest
    else (k', v') :: insertKey k v rest

/-- The list without the entry under `k`. -/
def eraseKey {α : Type} (k : Nat) (l : List (Nat × α)) : List (Nat × α) := l.filter (fun p => p.1 != k)

/-- An element put into a list before the first that it may not follow. -/
def insertBy {α : Type} (le : α → α → Bool) (x : α) : List α → List α
  | [] => [x]
  | y :: rest => if le x y then x :: y :: rest else y :: insertBy le x rest

/-- A list in rising order, elements of equal rank in their order. -/
def sortBy {α : Type} (le : α → α → Bool) : List α → List α
  | [] => []
  | x :: rest => insertBy le x (sortBy le rest)

/-- A sorted set of numbers with `k` in it. -/
def insertNat (k : Nat) : List Nat → List Nat
  | [] => [k]
  | k' :: rest =>
    if k < k' then k :: k' :: rest
    else if k = k' then k' :: rest
    else k' :: insertNat k rest

/-- The list with the element at index `i` replaced. -/
def setAt {α : Type} (l : List α) (i : Nat) (x : α) : List α := l.set i x

/-- The list with the element at index `i` changed by `f`. -/
def modifyAt {α : Type} (l : List α) (i : Nat) (f : α → α) : List α :=
  match l[i]? with
  | some x => l.set i (f x)
  | none => l

/-- The list without the element at index `i`. -/
def removeAt {α : Type} (l : List α) (i : Nat) : List α := l.eraseIdx i

end Sys2Proof.Machine
end

