-- ==== Sys2Proof/Machine/Crypto.lean ====
section
/-! DEFINITION. The standard functions that the spec names: AES-256 with the XTS mode of IEEE 1619 (R239, R422) and the GCM mode
(R423, R425, R428, R432), SHA-512 (R416, R419, R421, R446), HMAC and HKDF over it (R419, R421), X25519 (R419, R428) and
Ed25519 (R419, R446). The spec names each and its own standard defines it (notes/assumptions/7.md). -/

namespace Sys2Proof.Machine

/-- The bytes of a list as numbers. -/
def nats (bs : List Byte) : List Nat := bs.map (·.toNat)
/-- Numbers as bytes. -/
def toBytes (ns : List Nat) : List Byte := ns.map (BitVec.ofNat 8)
/-- The number that numbers below 256 spell, most significant first. -/
def bigEndian (ns : List Nat) : Nat := ns.foldl (fun acc b => 256 * acc + b) 0
/-- `n` bytes of a number, most significant first. -/
def bigBytes (n x : Nat) : List Nat := ((List.range n).map (fun i => x / 256 ^ i % 256)).reverse
/-- Two lists combined byte by byte. -/
def xorLists (a b : List Nat) : List Nat := List.zipWith Nat.xor a b

/-! ### AES-256 -/

/-- Multiplication by x in the field of AES. -/
def xtime (a : Nat) : Nat := if a < 128 then 2 * a else Nat.xor (2 * a) 0x11B
/-- The product of two elements of the field of AES, over the low `n` bits of the second. -/
def gfMul (a b : Nat) : Nat → Nat
  | 0 => 0
  | n + 1 => Nat.xor (if b % 2 = 1 then a else 0) (gfMul (xtime a) (b / 2) n)
/-- The `n`-fold square of `a`, multiplied up: a raised to 2^(n+1) − 2, which is its inverse for n = 7, and 0 for 0. -/
def gfInv (a : Nat) : Nat → Nat
  | 0 => 1
  | n + 1 =>
    let r := gfMul (gfInv a n) a 8
    gfMul r r 8
/-- A byte turned left by `k` bits. -/
def rotByte (x k : Nat) : Nat := x * 2 ^ k % 256 + x / 2 ^ (8 - k)
/-- The substitution of AES at one byte. -/
def subByteAt (a : Nat) : Nat :=
  let i := gfInv a 7
  Nat.xor 0x63 (Nat.xor i (Nat.xor (rotByte i 1) (Nat.xor (rotByte i 2) (Nat.xor (rotByte i 3) (rotByte i 4)))))
/-- The substitution as one number, byte `a` of which is the substitute of `a`. -/
def sboxTable : Nat := (List.range 256).foldr (fun a acc => 256 * acc + subByteAt a) 0
/-- The inverse substitution in the same form. -/
def invTable : Nat := (List.range 256).foldl (fun acc a => acc + a * 256 ^ subByteAt a) 0
/-- SubBytes of one byte. -/
def subByte (a : Nat) : Nat := sboxTable / 256 ^ a % 256
/-- InvSubBytes of one byte. -/
def invSubByte (a : Nat) : Nat := invTable / 256 ^ a % 256

/-- SubWord. -/
def subWord (w : Nat) : Nat := bigEndian ((bigBytes 4 w).map subByte)
/-- RotWord. -/
def rotWord (w : Nat) : Nat := w * 256 % 2 ^ 32 + w / 2 ^ 24
/-- Words chained: each is the one eight places back with its predecessor over it. -/
def chainWords (prev : Nat) : List Nat → List Nat
  | [] => []
  | w :: ws => Nat.xor w prev :: chainWords (Nat.xor w prev) ws
/-- The eight words of the key schedule that follow eight. -/
def nextWords8 (ws : List Nat) (rcon : Nat) : List Nat :=
  let lo := chainWords (Nat.xor (subWord (rotWord (ws.getLastD 0))) (rcon * 2 ^ 24)) (ws.take 4)
  lo ++ chainWords (subWord (lo.getLastD 0)) (ws.drop 4)
/-- The key schedule from eight words on. -/
def keyWords (ws : List Nat) (rcon : Nat) : Nat → List Nat
  | 0 => []
  | n + 1 => ws ++ keyWords (nextWords8 ws rcon) (xtime rcon) n
/-- A list cut into pieces of `k`. -/
def chunks {α : Type} (k : Nat) (l : List α) : List (List α) :=
  (List.range ((l.length + k - 1) / k)).map (fun i => (l.drop (k * i)).take k)
/-- The fifteen round keys of a 32-byte key. -/
def roundKeys (key : List Nat) : List (List Nat) :=
  (chunks 16 ((keyWords ((chunks 4 key).map bigEndian) 1 8).flatMap (bigBytes 4))).take 15

/-- ShiftRows by `k` columns per row. -/
def shiftRows (k : Nat) (s : List Nat) : List Nat :=
  (List.range 16).map (fun i => s.getD ((i + 4 * k * (i % 4)) % 16) 0)
/-- One column times the circulant of four factors. -/
def mixColumn (f : List Nat) (c : List Nat) : List Nat :=
  (List.range 4).map (fun r => (List.range 4).foldl (fun acc j =>
    Nat.xor acc (gfMul (c.getD j 0) (f.getD ((j + 4 - r) % 4) 0) 4)) 0)
/-- MixColumns, or its inverse, by the factors. -/
def mixColumns (f s : List Nat) : List Nat := (chunks 4 s).flatMap (mixColumn f)

/-- The rounds of encryption after the first key. -/
def encRounds (s : List Nat) : List (List Nat) → List Nat
  | [] => s
  | [k] => xorLists (shiftRows 1 (s.map subByte)) k
  | k :: ks => encRounds (xorLists (mixColumns [2, 3, 1, 1] (shiftRows 1 (s.map subByte))) k) ks
/-- The rounds of decryption after the last key. -/
def decRounds (s : List Nat) : List (List Nat) → List Nat
  | [] => s
  | [k] => xorLists ((shiftRows 3 s).map invSubByte) k
  | k :: ks => decRounds (mixColumns [14, 11, 13, 9] (xorLists ((shiftRows 3 s).map invSubByte) k)) ks
/-- AES-256 of one block under round keys. -/
def aesEnc (ks : List (List Nat)) (b : List Nat) : List Nat := encRounds (xorLists b (ks.headD [])) (ks.drop 1)
/-- The inverse cipher. -/
def aesDec (ks : List (List Nat)) (b : List Nat) : List Nat :=
  decRounds (xorLists b (ks.getLastD [])) (ks.dropLast.reverse)

/-! ### XTS (IEEE 1619) -/

/-- The tweak of the next block: multiplication by x, bytes least significant first. -/
def xtsNext (t : Nat) : Nat := if t < 2 ^ 127 then 2 * t else Nat.xor (2 * t - 2 ^ 128) 0x87
/-- The tweak after `j` blocks. -/
def xtsTweak (t : Nat) : Nat → Nat
  | 0 => t
  | j + 1 => xtsNext (xtsTweak t j)
/-- 16 bytes of a number, least significant first. -/
def littleBytes (x : Nat) : List Nat := (bigBytes 16 x).reverse
/-- Blocks under a cipher and tweaks that follow one another. -/
def xtsBlocks (f : List Nat → List Nat) (t : Nat) : List (List Nat) → List Nat
  | [] => []
  | b :: bs => xorLists (f (xorLists b (littleBytes t))) (littleBytes t) ++ xtsBlocks f (xtsNext t) bs
/-- The first tweak of a data unit: its number under the second key of the pair. -/
def xtsStart (key : List Nat) (unit : Nat) : Nat :=
  bigEndian (aesEnc (roundKeys (key.drop 32)) (littleBytes unit)).reverse
/-- Whole blocks of a data unit from block `first` on, encrypted under a key pair of 64 bytes. -/
def xtsEncrypt (key : List Byte) (unit first : Nat) (bs : List Byte) : List Byte :=
  toBytes (xtsBlocks (aesEnc (roundKeys ((nats key).take 32))) (xtsTweak (xtsStart (nats key) unit) first)
    (chunks 16 (nats bs)))
/-- The inverse of xtsEncrypt. -/
def xtsDecrypt (key : List Byte) (unit first : Nat) (bs : List Byte) : List Byte :=
  toBytes (xtsBlocks (aesDec (roundKeys ((nats key).take 32))) (xtsTweak (xtsStart (nats key) unit) first)
    (chunks 16 (nats bs)))

/-! ### GCM -/

/-- The product of GHASH over the low `n` bits still to take of `x`, most significant first. -/
def ghMul (x v : Nat) : Nat → Nat
  | 0 => 0
  | n + 1 => Nat.xor (if x / 2 ^ n % 2 = 1 then v else 0)
      (ghMul x (if v % 2 = 1 then Nat.xor (v / 2) (0xE1 * 2 ^ 120) else v / 2) n)
/-- A list filled with zeros to whole blocks. -/
def padBlocks (l : List Nat) : List Nat := l ++ List.replicate ((16 - l.length % 16) % 16) 0
/-- GHASH of whole blocks. -/
def ghash (h : Nat) (l : List Nat) : Nat :=
  (chunks 16 l).foldl (fun y b => ghMul (Nat.xor y (bigEndian b)) h 128) 0
/-- Counter mode from a counter value on: the low 32 bits count. -/
def ctrMode (ks : List (List Nat)) (iv : List Nat) (n : Nat) : List (List Nat) → List Nat
  | [] => []
  | b :: bs => xorLists b (aesEnc ks (iv ++ bigBytes 4 (n % 2 ^ 32))) ++ ctrMode ks iv (n + 1) bs
/-- The tag of a ciphertext with associated data under a 12-byte nonce. -/
def gcmTag (ks : List (List Nat)) (iv ad ct : List Nat) : List Nat :=
  let h := bigEndian (aesEnc ks (List.replicate 16 0))
  let s := ghash h (padBlocks ad ++ padBlocks ct ++ bigBytes 8 (8 * ad.length) ++ bigBytes 8 (8 * ct.length))
  xorLists (bigBytes 16 s) (aesEnc ks (iv ++ bigBytes 4 1))
/-- AES-256-GCM sealing: key, 12-byte nonce, associated data, plaintext; ciphertext and 16-byte tag. -/
def gcmSeal (key nonce ad pt : List Byte) : List Byte × List Byte :=
  let ks := roundKeys (nats key)
  let ct := ctrMode ks (nats nonce) 2 (chunks 16 (nats pt))
  (toBytes ct, toBytes (gcmTag ks (nats nonce) (nats ad) ct))
/-- AES-256-GCM opening: none where the tag fails. -/
def gcmOpen (key nonce ad ct tag : List Byte) : Option (List Byte) :=
  let ks := roundKeys (nats key)
  if toBytes (gcmTag ks (nats nonce) (nats ad) (nats ct)) = tag then
    some (toBytes (ctrMode ks (nats nonce) 2 (chunks 16 (nats ct))))
  else none

/-! ### SHA-512, HMAC, HKDF -/

/-- The greatest r below 2^n with r^k ≤ x, the low n bits still free. -/
def rootBelow (k x r : Nat) : Nat → Nat
  | 0 => r
  | n + 1 => rootBelow k x (if (r + 2 ^ n) ^ k ≤ x then r + 2 ^ n else r) n
/-- Is a number prime? -/
def isPrime (n : Nat) : Bool := decide (2 ≤ n) && (List.range n).all (fun d => decide (d < 2) || n % d != 0)
/-- The first 80 primes. -/
def primes80 : List Nat := (List.range 410).filter isPrime
/-- The first 64 bits of the fractional part of the k-th root of a prime. -/
def rootFrac (k p : Nat) : Nat := rootBelow k (p * 2 ^ (64 * k)) 0 70 % 2 ^ 64
/-- The round constants of SHA-512. -/
def shaK : List Nat := primes80.map (rootFrac 3)
/-- The initial hash value of SHA-512. -/
def shaStart : List Nat := (primes80.take 8).map (rootFrac 2)
/-- A 64-bit word turned right. -/
def rotr (x n : Nat) : Nat := x / 2 ^ n + x * 2 ^ (64 - n) % 2 ^ 64
/-- Three rotations combined. -/
def rot3 (x a b c : Nat) : Nat := Nat.xor (rotr x a) (Nat.xor (rotr x b) (rotr x c))
/-- Two rotations and a shift combined. -/
def rot2 (x a b c : Nat) : Nat := Nat.xor (rotr x a) (Nat.xor (rotr x b) (x / 2 ^ c))
/-- The next word of the schedule, from the last sixteen, oldest first. -/
def shaNext (w : List Nat) : Nat :=
  (rot2 (w.getD 14 0) 19 61 6 + w.getD 9 0 + rot2 (w.getD 1 0) 1 8 7 + w.getD 0 0) % 2 ^ 64
/-- One round over the eight working words. -/
def shaRound (v : List Nat) (k w : Nat) : List Nat :=
  match v with
  | [a, b, c, d, e, f, g, h] =>
    let ch := Nat.xor (e &&& f) ((2 ^ 64 - 1 - e) &&& g)
    let t1 := h + rot3 e 14 18 41 + ch + k + w
    let t2 := rot3 a 28 34 39 + Nat.xor (a &&& b) (Nat.xor (a &&& c) (b &&& c))
    [(t1 + t2) % 2 ^ 64, a, b, c, (d + t1) % 2 ^ 64, e, f, g]
  | _ => v
/-- The rounds over the constants left, the schedule's last sixteen words beside them. -/
def shaRounds (v w : List Nat) : List Nat → List Nat
  | [] => v
  | k :: ks => shaRounds (shaRound v k (w.headD 0)) (w.drop 1 ++ [shaNext w]) ks
/-- One block of 128 bytes folded into the hash value. -/
def shaBlock (h : List Nat) (b : List Nat) : List Nat :=
  List.zipWith (fun x y => (x + y) % 2 ^ 64) h (shaRounds h ((chunks 8 b).map bigEndian) shaK)
/-- SHA-512 of numbers below 256. -/
def sha512Nat (m : List Nat) : List Nat :=
  let l := m.length
  let p := m ++ [128] ++ List.replicate ((239 - l % 128) % 128) 0 ++ bigBytes 16 (8 * l)
  ((chunks 128 p).foldl shaBlock shaStart).flatMap (bigBytes 8)
/-- SHA-512: 64 bytes. -/
def sha512 (m : List Byte) : List Byte := toBytes (sha512Nat (nats m))
/-- HMAC-SHA-512 of numbers. -/
def hmacNat (key m : List Nat) : List Nat :=
  let k := if 128 < key.length then sha512Nat key else key
  let k := k ++ List.replicate (128 - k.length) 0
  sha512Nat (k.map (Nat.xor 0x5C) ++ sha512Nat (k.map (Nat.xor 0x36) ++ m))
/-- HMAC-SHA-512 of a key and a message: 64 bytes. -/
def hmacSha512 (key m : List Byte) : List Byte := toBytes (hmacNat (nats key) (nats m))
/-- HKDF-SHA-512 of input key, salt and info: 32 bytes. -/
def hkdf (ikm salt info : List Byte) : List Byte :=
  toBytes ((hmacNat (hmacNat (if salt.isEmpty then List.replicate 64 0 else nats salt) (nats ikm)) (nats info ++ [1])).take 32)

/-! ### Curve25519 -/

/-- The prime 2^255 − 19. -/
def p25519 : Nat := 2 ^ 255 - 19
/-- a^e mod m over the low `n` bits of `e`. -/
def powMod (m a e : Nat) : Nat → Nat
  | 0 => 1
  | n + 1 =>
    let r := powMod m (a * a % m) (e / 2) n
    if e % 2 = 1 then r * a % m else r
/-- The inverse in the field. -/
def inv25519 (a : Nat) : Nat := powMod p25519 a (p25519 - 2) 255
/-- A difference in the field. -/
def subP (a b : Nat) : Nat := (a + p25519 - b % p25519) % p25519
/-- The number that bytes spell, least significant first. -/
def littleEndian (bs : List Byte) : Nat := bigEndian (nats bs).reverse
/-- The Montgomery ladder over the low `n` bits of a scalar, most significant first. -/
def ladder (u k : Nat) (x2 z2 x3 z3 : Nat) : Nat → Nat × Nat
  | 0 => (x2, z2)
  | n + 1 =>
    let sw := k / 2 ^ n % 2 = 1
    let (a2, b2, a3, b3) := if sw then (x3, z3, x2, z2) else (x2, z2, x3, z3)
    let a := (a2 + b2) % p25519
    let b := subP a2 b2
    let da := subP a3 b3 * a % p25519
    let cb := (a3 + b3) * b % p25519
    let aa := a * a % p25519
    let bb := b * b % p25519
    let e := subP aa bb
    let s := (da + cb) % p25519
    let t := subP da cb
    let (r2, w2) := (aa * bb % p25519, e * ((aa + 121665 * e) % p25519) % p25519)
    let (r3, w3) := (s * s % p25519, u * (t * t % p25519) % p25519)
    if sw then ladder u k r3 w3 r2 w2 n else ladder u k r2 w2 r3 w3 n
/-- A scalar with the bits that X25519 and Ed25519 fix. -/
def clamp (k : Nat) : Nat := k % 2 ^ 254 / 8 * 8 + 2 ^ 254
/-- X25519 of a secret and a public value: 32 bytes. -/
def x25519 (secret pub : List Byte) : List Byte :=
  let u := littleEndian pub % 2 ^ 255 % p25519
  let (x, z) := ladder u (clamp (littleEndian (secret.take 32))) 1 0 u 1 255
  bytesOfNat 32 (x * inv25519 z % p25519)

/-- A point of the Edwards curve in projective coordinates X, Y, Z. -/
structure EdPoint where
  x : Nat
  y : Nat
  z : Nat
  deriving DecidableEq, Repr
/-- The curve's constant d. -/
def edD : Nat := subP 0 (121665 * inv25519 121666)
/-- The neutral point. -/
def EdPoint.zero : EdPoint := { x := 0, y := 1, z := 1 }
/-- The sum of two points. -/
def edAdd (p q : EdPoint) : EdPoint :=
  let a := p.z * q.z % p25519
  let b := a * a % p25519
  let c := p.x * q.x % p25519
  let d := p.y * q.y % p25519
  let e := edD * (c * d % p25519) % p25519
  let f := subP b e
  let g := (b + e) % p25519
  let h := subP (subP ((p.x + p.y) * (q.x + q.y) % p25519) c) d
  { x := a * f % p25519 * h % p25519, y := a * g % p25519 * ((d + c) % p25519) % p25519, z := f * g % p25519 }
/-- A multiple of a point, over the low `n` bits of the scalar. -/
def edMul (p : EdPoint) (k : Nat) : Nat → EdPoint
  | 0 => EdPoint.zero
  | n + 1 =>
    let r := edMul (edAdd p p) (k / 2) n
    if k % 2 = 1 then edAdd p r else r
/-- The encoding of a point: y, and the sign of x in bit 255. -/
def edEncode (p : EdPoint) : List Byte :=
  let i := inv25519 p.z
  bytesOfNat 32 (p.y * i % p25519 + p.x * i % p25519 % 2 * 2 ^ 255)
/-- The square root of u / v in the field, where there is one. -/
def edRoot (u v : Nat) : Option Nat :=
  let w := u * inv25519 v % p25519
  let r := powMod p25519 w ((p25519 + 3) / 8) 255
  let r := if r * r % p25519 = w then r else r * powMod p25519 2 ((p25519 - 1) / 4) 255 % p25519
  if r * r % p25519 = w then some r else none
/-- The point that an encoding names. -/
def edDecode (bs : List Byte) : Option EdPoint :=
  let n := littleEndian bs
  let y := n % 2 ^ 255
  let yy := y * y % p25519
  match edRoot (subP yy 1) ((edD * yy + 1) % p25519) with
  | none => none
  | some x =>
    if p25519 ≤ y ∨ (x = 0 ∧ n / 2 ^ 255 = 1) then none
    else some { x := if x % 2 = n / 2 ^ 255 then x else subP 0 x, y := y, z := 1 }
/-- The base point: y = 4/5, x even. -/
def edBase : EdPoint := (edDecode (bytesOfNat 32 (4 * inv25519 5 % p25519))).getD EdPoint.zero
/-- The order of the base point. -/
def edOrder : Nat := 2 ^ 252 + 27742317777372353535851937790883648493
/-- The public key of a 32-byte seed. -/
def ed25519Public (seed : List Byte) : List Byte := edEncode (edMul edBase (clamp (littleEndian ((sha512 seed).take 32))) 255)
/-- An Ed25519 signature: 64 bytes. -/
def ed25519Sign (seed m : List Byte) : List Byte :=
  let h := sha512 seed
  let a := clamp (littleEndian (h.take 32))
  let r := littleEndian (sha512 (h.drop 32 ++ m)) % edOrder
  let rb := edEncode (edMul edBase r 255)
  let k := littleEndian (sha512 (rb ++ edEncode (edMul edBase a 255) ++ m)) % edOrder
  rb ++ bytesOfNat 32 ((r + k * a) % edOrder)
/-- Does an Ed25519 signature of a message hold under a public key? -/
def ed25519Verify (pub m sig : List Byte) : Bool :=
  let n := littleEndian (sig.drop 32)
  match edDecode pub with
  | none => false
  | some a =>
    let k := littleEndian (sha512 (sig.take 32 ++ pub ++ m)) % edOrder
    decide (sig.length = 64) && decide (n < edOrder) &&
      edEncode (edAdd (edMul edBase n 255) (edMul { a with x := subP 0 a.x } k 255)) == sig.take 32

end Sys2Proof.Machine
end

