-- ==== Sys2Proof/Syntax.lean ====
section
/-! DEFINITION. The syntax of every row of the opcode table: the Nymzin instructions (R65), the roustabout extension and
RV64IMAC (R71, R259), Lysyo (R385), and the part's own steps that the table lists beside them. -/

namespace Sys2Proof

/-! ### Registers and qualifiers -/

/-- Number of a general register g0 to g63 (R58). -/
abbrev GReg := Fin 64
/-- Number of a vector register v0 to v31 (R58). -/
abbrev VReg := Fin 32
/-- Number of a predicate p0 to p15 (R58). -/
abbrev PReg := Fin 16
/-- Number of a capability register c0 to c15 (R58). -/
abbrev CReg := Fin 16
/-- Number of an accumulator row a0 to a7 (R58). -/
abbrev AReg := Fin 8
/-- Number of a roustabout register x0 to x31 (R15). -/
abbrev XReg := Fin 32
/-- Number of a Lysyo register l0 to l15 (R385). -/
abbrev LReg := Fin 16
/-- The signed 21-bit immediate of word 2 (R54). -/
abbrev Imm := BitVec 21

/-- The four instruction forms (R49). -/
inductive Form where
  | base | ext | lit | extLit
  deriving DecidableEq, Repr

/-- The operand types (R62). -/
inductive Ty where
  | i64 | i32 | i16 | i8 | i4 | z64 | z32 | z16 | z8
  | f32 | bf16 | f16 | e4m3 | e5m2 | fjt8 | e2m1 | e8m0 | s8f
  deriving DecidableEq, Repr

/-- The scope field (R61): the instruction's default or a named scope. -/
inductive ScopeQ where
  | dflt | core | clu | die | pkg | sys
  deriving DecidableEq, Repr

/-- The five scopes (R12). -/
inductive Scope where
  | core | clu | die | pkg | sys
  deriving DecidableEq, Repr

/-- The rounding modes (R63). -/
inductive Rm where
  | rn | rz | rp | rm | sr
  deriving DecidableEq, Repr

/-- Conditions of CMP, BC and VCMP (R65). -/
inductive Cond where
  | eq | ne | lt | le | gt | ge
  deriving DecidableEq, Repr

/-- Conditions of VFCMP (R65). -/
inductive FCond where
  | eq | ne | lt | le | gt | ge | un | ord
  deriving DecidableEq, Repr

/-- Kinds of AMO (R125). -/
inductive AmoKind where
  | swap | add | and | or | xor | min | max | cas
  deriving DecidableEq, Repr

/-- Kinds of VRED and VSCAN (R202). -/
inductive RedKind where
  | add | fadd | min | max | fmin | fmax | and | or | xor
  deriving DecidableEq, Repr

/-- Fields that CGET reads (R82). -/
inductive CgetKind where
  | cursor | base | top | len | perm | otype | tag | exp
  deriving DecidableEq, Repr

/-- Kinds of TFENCE (R402). -/
inductive TfKind where
  | all | root | page | rpage | part | gpage
  deriving DecidableEq, Repr

/-- Block kinds of tiles and rows (R234). -/
inductive MxKind where
  | none | mx | fine
  deriving DecidableEq, Repr

/-- Scale codes of MROW and MROWA (R240). -/
inductive ScaleCode where
  | none | mx | fine | mxs | fines
  deriving DecidableEq, Repr

/-- Chain vectors that MTBL loads (R250). -/
inductive ChainVec where
  | act | bias | scale
  deriving DecidableEq, Repr

/-- Form, guards and carousel flags of an instruction (R53). -/
structure Mods where
  form : Form
  pg1 : PReg
  ng1 : Bool
  pg2 : PReg
  ng2 : Bool
  first : Bool
  last : Bool
  deriving DecidableEq, Repr

/-! ### Operand records of the control-thread instructions -/

/-- SALU instructions of two sources (R144). -/
structure SaluArgs where
  m : Mods
  ty : Ty
  sat : Bool
  d : GReg
  a : GReg
  b : GReg
  lit : Option Word
  deriving DecidableEq, Repr

/-- CLZ, CTZ and POPC (R144). -/
structure SaluUnArgs where
  m : Mods
  ty : Ty
  d : GReg
  a : GReg
  deriving DecidableEq, Repr

/-- SEL (R148). -/
structure SelArgs where
  m : Mods
  ty : Ty
  d : GReg
  a : GReg
  b : GReg
  c : GReg
  lit : Option Word
  deriving DecidableEq, Repr

/-- ADDI (R149). -/
structure AddiArgs where
  m : Mods
  ty : Ty
  sat : Bool
  d : GReg
  a : GReg
  imm : Imm
  deriving DecidableEq, Repr

/-- CMP (R151). -/
structure CmpArgs where
  m : Mods
  cond : Cond
  ty : Ty
  d : GReg
  a : GReg
  b : GReg
  lit : Option Word
  deriving DecidableEq, Repr

/-- LI (R150). -/
structure LiArgs where
  m : Mods
  d : GReg
  imm : Imm
  lit : Option Word
  deriving DecidableEq, Repr

/-- B and CALL: a signed word offset (R152). -/
structure BArgs where
  m : Mods
  off : BitVec 24
  deriving DecidableEq, Repr

/-- BC (R152). -/
structure BcArgs where
  m : Mods
  cond : Cond
  a : GReg
  off : Imm
  deriving DecidableEq, Repr

/-- Instructions of one general source register and no other operand: JMP, JMP.call. -/
structure MaArgs where
  m : Mods
  a : GReg
  deriving DecidableEq, Repr

/-- RET k (R155). -/
structure RetArgs where
  m : Mods
  k : BitVec 10
  deriving DecidableEq, Repr

/-- Instructions without operands: HALT, YIELD, IFENCE, MSWAP. -/
structure MArgs where
  m : Mods
  deriving DecidableEq, Repr

/-- CALLQ (R109). -/
structure CallqArgs where
  m : Mods
  c : CReg
  g : GReg
  deriving DecidableEq, Repr

/-- PARK (R109). -/
structure ParkArgs where
  m : Mods
  c : CReg
  x : GReg
  v : GReg
  imm : Imm
  deriving DecidableEq, Repr

/-- LD and ST (R159); `c` is the index register. -/
structure LdArgs where
  m : Mods
  ty : Ty
  scope : ScopeQ
  hint : BitVec 3
  d : GReg
  a : CReg
  c : GReg
  imm : Imm
  deriving DecidableEq, Repr

/-- LDC and STC (R85). -/
structure LdcArgs where
  m : Mods
  scope : ScopeQ
  hint : BitVec 3
  d : CReg
  a : CReg
  imm : Imm
  deriving DecidableEq, Repr

/-- AMO (R125). -/
structure AmoArgs where
  m : Mods
  kind : AmoKind
  ty : Ty
  scope : ScopeQ
  hint : BitVec 3
  d : GReg
  a : CReg
  b : GReg
  c : GReg
  imm : Imm
  deriving DecidableEq, Repr

/-- The four fences (R122). -/
structure FenceArgs where
  m : Mods
  scope : ScopeQ
  deriving DecidableEq, Repr

/-- TFENCE (R402). -/
structure TfenceArgs where
  m : Mods
  scope : ScopeQ
  kind : TfKind
  a : GReg
  b : GReg
  deriving DecidableEq, Repr

/-- CWB and IINV (R169). -/
structure CwbArgs where
  m : Mods
  scope : ScopeQ
  a : CReg
  b : GReg
  imm : Imm
  deriving DecidableEq, Repr

/-- CBOUND, CNARROW and CADDR (R78). -/
structure CapArgs where
  m : Mods
  d : CReg
  a : CReg
  b : GReg
  deriving DecidableEq, Repr

/-- CINC (R78). -/
structure CincArgs where
  m : Mods
  d : CReg
  a : CReg
  b : GReg
  imm : Imm
  deriving DecidableEq, Repr

/-- CGET (R78). -/
structure CgetArgs where
  m : Mods
  kind : CgetKind
  d : GReg
  a : CReg
  deriving DecidableEq, Repr

/-- CTEST (R78); `eq` selects .eq over .sub. -/
structure CtestArgs where
  m : Mods
  eq : Bool
  d : GReg
  a : CReg
  b : CReg
  deriving DecidableEq, Repr

/-- CMOV (R78). -/
structure CmovArgs where
  m : Mods
  d : CReg
  a : CReg
  deriving DecidableEq, Repr

/-! ### Operand records of the vector-queue instructions -/

/-- VMODE (R185). -/
structure VmodeArgs where
  m : Mods
  long : Bool
  deriving DecidableEq, Repr

/-- SETVL (R185). -/
structure SetvlArgs where
  m : Mods
  ty : Ty
  d : GReg
  a : GReg
  n : Imm
  deriving DecidableEq, Repr

/-- Integer vector instructions of two vector sources (R194). -/
structure VBinArgs where
  m : Mods
  zf : Bool
  ty : Ty
  sat : Bool
  wid : BitVec 2
  d : VReg
  a : VReg
  b : VReg
  deriving DecidableEq, Repr

/-- VABS and VNEG (R194). -/
structure VUnArgs where
  m : Mods
  zf : Bool
  ty : Ty
  sat : Bool
  d : VReg
  a : VReg
  deriving DecidableEq, Repr

/-- VSAT (R194). -/
structure VSatArgs where
  m : Mods
  zf : Bool
  ty : Ty
  d : VReg
  a : VReg
  k : BitVec 7
  deriving DecidableEq, Repr

/-- VSEL (R194). -/
structure VSelArgs where
  m : Mods
  zf : Bool
  ty : Ty
  d : VReg
  a : VReg
  b : VReg
  c : PReg
  deriving DecidableEq, Repr

/-- Floating-point instructions of two vector sources that round (R195). -/
structure VfBinArgs where
  m : Mods
  zf : Bool
  ty : Ty
  rm : Rm
  sat : Bool
  wid : BitVec 2
  d : VReg
  a : VReg
  b : VReg
  deriving DecidableEq, Repr

/-- Vector instructions of two vector sources without further qualifiers: VFMIN, VFMAX, VPERM, VZIP. -/
structure VTwoArgs where
  m : Mods
  zf : Bool
  ty : Ty
  d : VReg
  a : VReg
  b : VReg
  deriving DecidableEq, Repr

/-- Vector instructions of one vector source without further qualifiers: VFABS, VFNEG, VFRSQ, VFEXP2, VCOMPRESS,
VEXPAND. -/
structure VOneArgs where
  m : Mods
  zf : Bool
  ty : Ty
  d : VReg
  a : VReg
  deriving DecidableEq, Repr

/-- VFSQRT (R195). -/
structure VfUnArgs where
  m : Mods
  zf : Bool
  ty : Ty
  rm : Rm
  sat : Bool
  d : VReg
  a : VReg
  deriving DecidableEq, Repr

/-- VFMA, VFMS, VFNMA and VFNMS (R195). -/
structure VfmaArgs where
  m : Mods
  zf : Bool
  ty : Ty
  rm : Rm
  sat : Bool
  wid : BitVec 2
  d : VReg
  a : VReg
  b : VReg
  c : VReg
  deriving DecidableEq, Repr

/-- VCMP (R198). -/
structure VcmpArgs where
  m : Mods
  zf : Bool
  ty : Ty
  cond : Cond
  d : PReg
  a : VReg
  b : VReg
  deriving DecidableEq, Repr

/-- VFCMP (R198). -/
structure VfcmpArgs where
  m : Mods
  zf : Bool
  ty : Ty
  cond : FCond
  d : PReg
  a : VReg
  b : VReg
  deriving DecidableEq, Repr

/-- PAND, POR and PXOR (R199). -/
structure PTwoArgs where
  m : Mods
  zf : Bool
  d : PReg
  a : PReg
  b : PReg
  deriving DecidableEq, Repr

/-- PNOT, PFIRST and VEXIT (R199). -/
structure POneArgs where
  m : Mods
  zf : Bool
  d : PReg
  a : PReg
  deriving DecidableEq, Repr

/-- PCOUNT (R199). -/
structure PcountArgs where
  m : Mods
  d : GReg
  a : PReg
  deriving DecidableEq, Repr

/-- VSLIDE.up, VSLIDE.dn, VSHLW and VSHRW (R200, R205). -/
structure VSlideArgs where
  m : Mods
  zf : Bool
  ty : Ty
  d : VReg
  a : VReg
  g : GReg
  k : Imm
  deriving DecidableEq, Repr

/-- VBCAST (R200). -/
structure VBcastArgs where
  m : Mods
  zf : Bool
  ty : Ty
  d : VReg
  g : GReg
  deriving DecidableEq, Repr

/-- VUNZIP (R200). -/
structure VUnzipArgs where
  m : Mods
  zf : Bool
  ty : Ty
  d : VReg
  a : VReg
  b : VReg
  k : Bool
  deriving DecidableEq, Repr

/-- VRED (R202, R203). -/
structure VRedArgs where
  m : Mods
  kind : RedKind
  ty : Ty
  rm : Rm
  sat : Bool
  wid : BitVec 2
  d : VReg
  a : VReg
  deriving DecidableEq, Repr

/-- VSCAN (R202, R204). -/
structure VScanArgs where
  m : Mods
  zf : Bool
  kind : RedKind
  ty : Ty
  rm : Rm
  sat : Bool
  wid : BitVec 2
  d : VReg
  a : VReg
  excl : Bool
  carry : Bool
  deriving DecidableEq, Repr

/-- VFSHLW and VFSHRW (R205). -/
structure VFshArgs where
  m : Mods
  zf : Bool
  ty : Ty
  d : VReg
  a : VReg
  b : VReg
  g : GReg
  k : Imm
  deriving DecidableEq, Repr

/-- VLD, VLDS, VLDFF, VST and VSTS (R206). -/
structure VMemArgs where
  m : Mods
  zf : Bool
  ty : Ty
  scope : ScopeQ
  hint : BitVec 3
  d : VReg
  a : CReg
  b : GReg
  imm : Imm
  deriving DecidableEq, Repr

/-- VLDX and VSTX (R206). -/
structure VMemXArgs where
  m : Mods
  zf : Bool
  ty : Ty
  scope : ScopeQ
  hint : BitVec 3
  d : VReg
  a : CReg
  b : VReg
  deriving DecidableEq, Repr

/-- VLDSEG and VSTSEG (R211). -/
structure VSegArgs where
  m : Mods
  zf : Bool
  fine : Bool
  ty : Ty
  scope : ScopeQ
  hint : BitVec 3
  d : VReg
  a : CReg
  b : GReg
  c : VReg
  dist : BitVec 20
  deriving DecidableEq, Repr

/-- VCVT (R229): `dt` destination, `st` source. -/
structure VcvtArgs where
  m : Mods
  dt : Ty
  st : Ty
  rm : Rm
  sat : Bool
  d : VReg
  a : VReg
  b : GReg
  off : BitVec 20
  deriving DecidableEq, Repr

/-- VQUANT and VDEQUANT (R230, R231); `c` is the scale operand vS. -/
structure VquantArgs where
  m : Mods
  fine : Bool
  dt : Ty
  st : Ty
  rm : Rm
  sat : Bool
  d : VReg
  a : VReg
  b : GReg
  c : VReg
  off : BitVec 20
  deriving DecidableEq, Repr

/-- VBIND (R283); `d` counts from v24. -/
structure VbindArgs where
  m : Mods
  hint : BitVec 3
  d : Fin 8
  a : CReg
  b : GReg
  imm : Imm
  deriving DecidableEq, Repr

/-- VUNBIND (R283); `d` counts from v24. -/
structure VunbindArgs where
  m : Mods
  d : Fin 8
  deriving DecidableEq, Repr

/-- MLDT and MLDT.t (R240). -/
structure MldtArgs where
  m : Mods
  hint : BitVec 3
  kind : MxKind
  ty : Ty
  a : CReg
  b : GReg
  imm : Imm
  deriving DecidableEq, Repr

/-- MROW and MROWA (R240). -/
structure MrowArgs where
  m : Mods
  ty : Ty
  sat : Bool
  sk : ScaleCode
  d : AReg
  a : VReg
  c : VReg
  deriving DecidableEq, Repr

/-- MZERO (R246); `int` selects .i32 over .f32. -/
structure MzeroArgs where
  m : Mods
  int : Bool
  mask : BitVec 8
  deriving DecidableEq, Repr

/-- MCHAIN (R249). -/
structure MchainArgs where
  m : Mods
  b : GReg
  lit : Option Word
  deriving DecidableEq, Repr

/-- MTBL (R250). -/
structure MtblArgs where
  m : Mods
  which : ChainVec
  a : CReg
  b : GReg
  imm : Imm
  deriving DecidableEq, Repr

/-- MDRAIN (R252). -/
structure MdrainArgs where
  m : Mods
  zf : Bool
  ty : Ty
  rm : Rm
  sat : Bool
  d : VReg
  a : AReg
  b : GReg
  deriving DecidableEq, Repr

/-- VDEFER (R303). -/
structure VdeferArgs where
  m : Mods
  ty : Ty
  p : BitVec 3
  k : Fin 5
  a : VReg
  b : GReg
  deriving DecidableEq, Repr

/-- VDRAIN (R303). -/
structure VdrainArgs where
  m : Mods
  ty : Ty
  p : BitVec 3
  k : Fin 5
  d : GReg
  a : VReg
  b : VReg
  deriving DecidableEq, Repr

/-! ### Engines, tasks, troupes, speculation, loops -/

/-- EPUSH (R284). -/
structure EpushArgs where
  m : Mods
  d : CReg
  a : CReg
  b : GReg
  c : CReg
  stride : Imm
  lit : Option Word
  deriving DecidableEq, Repr

/-- EPOP, EPOP.nw and EQSTAT (R284); `port` is a port number. -/
structure EpopArgs where
  m : Mods
  d : GReg
  port : Fin 64
  deriving DecidableEq, Repr

/-- Instructions of one general destination register: EVPOP, EVPOP.nw, DPOP, TBAR, SLK. -/
structure MdArgs where
  m : Mods
  d : GReg
  deriving DecidableEq, Repr

/-- DPUSH (R318). -/
structure DpushArgs where
  m : Mods
  d : GReg
  a : GReg
  b : GReg
  k : Imm
  deriving DecidableEq, Repr

/-- DSTEAL, TREWARD and SLK.seg: a destination and one source. -/
structure MdaArgs where
  m : Mods
  d : GReg
  a : GReg
  deriving DecidableEq, Repr

/-- LPATCH (R318). -/
structure LpatchArgs where
  m : Mods
  d : GReg
  a : GReg
  b : GReg
  k : Imm
  lit : Option Word
  deriving DecidableEq, Repr

/-- LARM (R318). -/
structure LarmArgs where
  m : Mods
  d : GReg
  a : GReg
  k : Imm
  deriving DecidableEq, Repr

/-- TFORK (R336). -/
structure TforkArgs where
  m : Mods
  d : GReg
  a : GReg
  b : CReg
  off : Imm
  deriving DecidableEq, Repr

/-- TCANCEL, TADV and TADV.nw (R336). -/
structure MdabArgs where
  m : Mods
  d : GReg
  a : GReg
  b : GReg
  deriving DecidableEq, Repr

/-- SSPAWN (R358); `side` is S of .s0 and .s1. -/
structure SspawnArgs where
  m : Mods
  side : Bool
  d : GReg
  cond : Fin 64
  b : GReg
  off : Imm
  deriving DecidableEq, Repr

/-- SRESOLVE (R358). -/
structure SresolveArgs where
  m : Mods
  d : GReg
  cond : Fin 64
  b : GReg
  deriving DecidableEq, Repr

/-- SRESOLVE.free and SLK.cond (R358). -/
structure SCondArgs where
  m : Mods
  d : GReg
  cond : Fin 64
  deriving DecidableEq, Repr

/-- CLSET (R291). -/
structure ClsetArgs where
  m : Mods
  level : Fin 6
  d : GReg
  a : GReg
  b : GReg
  cnt : BitVec 12
  str : BitVec 9
  lit : Option Word
  deriving DecidableEq, Repr

/-- CLRUN (R291). -/
structure ClrunArgs where
  m : Mods
  n : BitVec 8
  deriving DecidableEq, Repr

/-! ### Roustabouts -/

/-- The R-type fields of a roustabout extension instruction (R71). -/
structure QArgs where
  rd : XReg
  rs1 : XReg
  rs2 : XReg
  deriving DecidableEq, Repr

/-- The RV64I FENCE on a roustabout (R136). -/
structure RvFenceArgs where
  fm : BitVec 4
  pred : BitVec 4
  succ : BitVec 4
  rd : XReg
  rs1 : XReg
  deriving DecidableEq, Repr

/-- The A-extension operations (R260). -/
inductive RvAmoOp where
  | lr | sc | swap | add | xor | and | or | min | max | minu | maxu
  deriving DecidableEq, Repr

/-- An A-extension instruction (R260). -/
structure RvAmoArgs where
  op : RvAmoOp
  dbl : Bool
  aq : Bool
  rl : Bool
  rd : XReg
  rs1 : XReg
  rs2 : XReg
  deriving DecidableEq, Repr

/-- Branch conditions of RV64I. -/
inductive RvCond where
  | eq | ne | lt | ge | ltu | geu
  deriving DecidableEq, Repr

/-- Load kinds of RV64I. -/
inductive RvLoad where
  | lb | lh | lw | ld | lbu | lhu | lwu
  deriving DecidableEq, Repr

/-- Store kinds of RV64I. -/
inductive RvStore where
  | sb | sh | sw | sd
  deriving DecidableEq, Repr

/-- Register and immediate operations of RV64I. -/
inductive RvAlu where
  | add | sub | sll | slt | sltu | xor | srl | sra | or | and
  deriving DecidableEq, Repr

/-- The 32-bit operations of RV64I. -/
inductive RvAluW where
  | addw | subw | sllw | srlw | sraw
  deriving DecidableEq, Repr

/-- The M extension. -/
inductive RvMul where
  | mul | mulh | mulhsu | mulhu | div | divu | rem | remu
  deriving DecidableEq, Repr

/-- The 32-bit operations of the M extension. -/
inductive RvMulW where
  | mulw | divw | divuw | remw | remuw
  deriving DecidableEq, Repr

/-- An RV64IMC operation other than FENCE and the A extension. Compressed instructions stand as what they expand to. -/
inductive RvOp where
  | lui (rd : XReg) (imm : BitVec 20)
  | auipc (rd : XReg) (imm : BitVec 20)
  | jal (rd : XReg) (off : BitVec 21)
  | jalr (rd rs1 : XReg) (imm : BitVec 12)
  | branch (c : RvCond) (rs1 rs2 : XReg) (off : BitVec 13)
  | load (k : RvLoad) (rd rs1 : XReg) (imm : BitVec 12)
  | store (k : RvStore) (rs1 rs2 : XReg) (imm : BitVec 12)
  | opImm (k : RvAlu) (rd rs1 : XReg) (imm : BitVec 12)
  | op (k : RvAlu) (rd rs1 rs2 : XReg)
  | opImmW (k : RvAluW) (rd rs1 : XReg) (imm : BitVec 12)
  | opW (k : RvAluW) (rd rs1 rs2 : XReg)
  | mul (k : RvMul) (rd rs1 rs2 : XReg)
  | mulW (k : RvMulW) (rd rs1 rs2 : XReg)
  | fenceI
  deriving DecidableEq, Repr

/-- A roustabout instruction of RV64IMC; `compressed` gives its length of 2 bytes (R259). -/
structure RvArgs where
  compressed : Bool
  op : RvOp
  deriving DecidableEq, Repr

/-! ### Lysyo -/

/-- Lysyo R form (R385). -/
structure LyRArgs where
  rd : LReg
  ra : LReg
  rb : LReg
  deriving DecidableEq, Repr

/-- Lysyo I form (R385). -/
structure LyIArgs where
  rd : LReg
  ra : LReg
  imm : BitVec 16
  deriving DecidableEq, Repr

/-! ### The part's own steps -/

/-- Who makes a control access: the thread of a context, or the host over the Agore link (R89). -/
inductive Who where
  | thread (slot : Nat)
  | host
  deriving DecidableEq, Repr

/-- The parties of a core (R37). -/
inductive Party where
  | control | vector | loader | storer
  deriving DecidableEq, Repr

/-- Units that a switch or a power-up zeroes (R427). -/
inductive Unit_ where
  | core (k : Nat)
  | cluster (c : Nat)
  deriving DecidableEq, Repr

/-- A step of one party of one core on one access of its queues: the place of the access in the queue. -/
structure AccArgs where
  core : Nat
  party : Party
  idx : Nat
  deriving DecidableEq, Repr

/-- A step of engine `eng` (the control-page number of R86) on the command at place `idx` of its command list. -/
structure EngArgs where
  eng : Nat
  idx : Nat
  deriving DecidableEq, Repr

/-- A control store by `by_`: the object it names and the value stored. -/
structure StoreArgs where
  by_ : Who
  num : Nat
  value : Word
  deriving DecidableEq, Repr

/-- A command store that names only its object. -/
structure CmdArgs where
  by_ : Who
  num : Nat
  deriving DecidableEq, Repr

/-- A host or peer access. -/
structure BusArgs where
  port : Nat
  write : Bool
  addr : Nat
  size : Nat
  value : Word
  deriving DecidableEq, Repr

/-- A queue-mapping store: front end, slot, queue (R388). -/
structure MapArgs where
  by_ : Who
  fe : Nat
  slot : Nat
  queue : Nat
  deriving DecidableEq, Repr

/-- A page that migrates: the frame it leaves, the frame it takes, its bytes, and the address of the leaf entry that is its
translation (R135). -/
structure MigArgs where
  old : Nat
  new : Nat
  size : Nat
  leaf : Nat
  /-- The virtual page, and the interleave code of the new mapping (R400). -/
  va : Nat
  code : BitVec 2
  deriving DecidableEq, Repr

/-! ### The instructions: one constructor per row of the opcode table -/

/-- Every row of the opcode table. -/
inductive Instr where
  -- SALU, ADDI, CMP, LI
  | add (x : SaluArgs) | sub (x : SaluArgs) | mul (x : SaluArgs) | mulh (x : SaluArgs)
  | div (x : SaluArgs) | rem (x : SaluArgs) | and (x : SaluArgs) | or (x : SaluArgs)
  | xor (x : SaluArgs) | andn (x : SaluArgs) | shl (x : SaluArgs) | shr (x : SaluArgs)
  | sar (x : SaluArgs) | rot (x : SaluArgs) | min (x : SaluArgs) | max (x : SaluArgs)
  | clz (x : SaluUnArgs) | ctz (x : SaluUnArgs) | popc (x : SaluUnArgs)
  | bext (x : SaluArgs) | bdep (x : SaluArgs) | sel (x : SelArgs)
  | addi (x : AddiArgs) | cmp (x : CmpArgs) | li (x : LiArgs)
  -- control flow
  | b (x : BArgs) | bc (x : BcArgs) | call (x : BArgs) | jmp (x : MaArgs) | jmpCall (x : MaArgs)
  | ret (x : RetArgs) | callq (x : CallqArgs) | park (x : ParkArgs) | halt (x : MArgs) | yieldCore (x : MArgs)
  -- scalar memory
  | ld (x : LdArgs) | st (x : LdArgs) | ldc (x : LdcArgs) | stc (x : LdcArgs) | amo (x : AmoArgs)
  -- fences and code
  | fenceSv (x : FenceArgs) | fenceVs (x : FenceArgs) | fenceVv (x : FenceArgs) | fenceAll (x : FenceArgs)
  | tfence (x : TfenceArgs) | cwb (x : CwbArgs) | iinv (x : CwbArgs) | ifence (x : MArgs)
  -- capabilities
  | cbound (x : CapArgs) | cnarrow (x : CapArgs) | caddr (x : CapArgs) | cinc (x : CincArgs)
  | cget (x : CgetArgs) | ctest (x : CtestArgs) | cmov (x : CmovArgs)
  -- vector configuration and integers
  | vmode (x : VmodeArgs) | setvl (x : SetvlArgs)
  | vadd (x : VBinArgs) | vsub (x : VBinArgs) | vmul (x : VBinArgs) | vmulh (x : VBinArgs)
  | vand (x : VBinArgs) | vor (x : VBinArgs) | vxor (x : VBinArgs) | vandn (x : VBinArgs)
  | vshl (x : VBinArgs) | vshr (x : VBinArgs) | vsar (x : VBinArgs) | vmin (x : VBinArgs)
  | vmax (x : VBinArgs) | vabs (x : VUnArgs) | vneg (x : VUnArgs) | vmacc (x : VBinArgs)
  | vsat (x : VSatArgs) | vsel (x : VSelArgs)
  -- vector floating point
  | vfadd (x : VfBinArgs) | vfsub (x : VfBinArgs) | vfmul (x : VfBinArgs) | vfmin (x : VTwoArgs)
  | vfmax (x : VTwoArgs) | vfabs (x : VOneArgs) | vfneg (x : VOneArgs) | vfdiv (x : VfBinArgs)
  | vfsqrt (x : VfUnArgs) | vfrsq (x : VOneArgs) | vfexp2 (x : VOneArgs)
  | vfma (x : VfmaArgs) | vfms (x : VfmaArgs) | vfnma (x : VfmaArgs) | vfnms (x : VfmaArgs)
  | vcmp (x : VcmpArgs) | vfcmp (x : VfcmpArgs)
  -- predicates
  | pand (x : PTwoArgs) | por (x : PTwoArgs) | pxor (x : PTwoArgs) | pnot (x : POneArgs)
  | pfirst (x : POneArgs) | pcount (x : PcountArgs) | vexit (x : POneArgs)
  -- permutes, reductions, whole-register shifts
  | vperm (x : VTwoArgs) | vslideUp (x : VSlideArgs) | vslideDn (x : VSlideArgs) | vbcast (x : VBcastArgs)
  | vcompress (x : VOneArgs) | vexpand (x : VOneArgs) | vzip (x : VTwoArgs) | vunzip (x : VUnzipArgs)
  | vred (x : VRedArgs) | vscan (x : VScanArgs)
  | vshlw (x : VSlideArgs) | vshrw (x : VSlideArgs) | vfshlw (x : VFshArgs) | vfshrw (x : VFshArgs)
  -- vector memory
  | vld (x : VMemArgs) | vlds (x : VMemArgs) | vldx (x : VMemXArgs) | vldff (x : VMemArgs) | vldseg (x : VSegArgs)
  | vst (x : VMemArgs) | vsts (x : VMemArgs) | vstx (x : VMemXArgs) | vstseg (x : VSegArgs)
  -- conversions, streams, matrix
  | vcvt (x : VcvtArgs) | vquant (x : VquantArgs) | vdequant (x : VquantArgs)
  | vbind (x : VbindArgs) | vunbind (x : VunbindArgs)
  | mldt (x : MldtArgs) | mldtT (x : MldtArgs) | mrow (x : MrowArgs) | mrowa (x : MrowArgs)
  | mzero (x : MzeroArgs) | mswap (x : MArgs) | mchain (x : MchainArgs) | mtbl (x : MtblArgs) | mdrain (x : MdrainArgs)
  -- engines
  | epush (x : EpushArgs) | epop (x : EpopArgs) | epopNw (x : EpopArgs) | eqstat (x : EpopArgs)
  | evpop (x : MdArgs) | evpopNw (x : MdArgs)
  -- tasks, troupes, speculation, loops, deferral
  | dpush (x : DpushArgs) | dpop (x : MdArgs) | dsteal (x : MdaArgs) | lpatch (x : LpatchArgs)
  | larmPlace (x : LarmArgs) | larmArm (x : LarmArgs) | larmDisarm (x : LarmArgs)
  | tfork (x : TforkArgs) | treward (x : MdaArgs) | tbar (x : MdArgs) | tcancel (x : MdabArgs)
  | tadv (x : MdabArgs) | tadvNw (x : MdabArgs)
  | sspawn (x : SspawnArgs) | sresolve (x : SresolveArgs) | sresolveFree (x : SCondArgs)
  | slk (x : MdArgs) | slkSeg (x : MdaArgs) | slkCond (x : SCondArgs)
  | clset (x : ClsetArgs) | clrun (x : ClrunArgs) | vdefer (x : VdeferArgs) | vdrain (x : VdrainArgs)
  -- roustabouts
  | qePush (x : QArgs) | qePop (x : QArgs) | qeStat (x : QArgs) | qeWait (x : QArgs)
  | qaPush (x : QArgs) | qaStat (x : QArgs) | qbPush (x : QArgs) | qbStat (x : QArgs)
  | qdPop (x : QArgs) | qdStat (x : QArgs) | qsStrip (x : QArgs) | qsScale (x : QArgs) | qsEnd (x : QArgs)
  | qvFence (x : QArgs) | qvEvent (x : QArgs) | qvWait (x : QArgs)
  | roustaboutFence (x : RvFenceArgs) | roustaboutAmo (x : RvAmoArgs) | roustaboutInstruction (x : RvArgs)
  -- Lysyo
  | lysyoEnd (x : LyIArgs) | lysyoLi (x : LyIArgs) | lysyoLih (x : LyIArgs) | lysyoAddi (x : LyIArgs)
  | lysyoAdd (x : LyRArgs) | lysyoSub (x : LyRArgs) | lysyoAnd (x : LyRArgs) | lysyoOr (x : LyRArgs)
  | lysyoXor (x : LyRArgs) | lysyoShl (x : LyRArgs) | lysyoShr (x : LyRArgs) | lysyoMinu (x : LyRArgs)
  | lysyoMaxu (x : LyRArgs) | ldpk (x : LyIArgs) | stpk (x : LyIArgs) | ldrg (x : LyIArgs)
  | ldwn (x : LyIArgs) | stwn (x : LyIArgs) | beq (x : LyIArgs) | bne (x : LyIArgs) | bltu (x : LyIArgs)
  | lysyoLoop (x : LyIArgs) | time (x : LyIArgs) | qinfo (x : LyIArgs)
  -- steps of a core
  | illegalInstruction (core : Nat) | vectorPush (core : Nat)
  | issue (x : AccArgs) | performLoad (x : AccArgs) | performStore (x : AccArgs)
  | evict1 (core line : Nat) | evict2 (die line : Nat) | commit (core : Nat) | haltStep (slot : Nat)
  | trap (slot : Nat) | trapRecordPost (queue : Nat) | parkWake (slot : Nat)
  | idleSearch (core : Nat) | preemptHalt (slot : Nat)
  -- control stores
  | runStop (x : CmdArgs) | runRun (x : CmdArgs) | runStep (x : CmdArgs)
  | commitRootcap (x : CmdArgs) | commitVlcap (x : CmdArgs) | commitAtp (x : CmdArgs) | commitApply (slot : Nat)
  | controlStore (x : StoreArgs) | sscfgStore (x : StoreArgs) | hostAccess (x : BusArgs)
  -- engine steps
  | engineRefuse (x : EngArgs) | enginePerform (x : EngArgs) | enginePost (x : EngArgs)
  | linkCommandStart (x : EngArgs) | linkCommandPause (x : EngArgs)
  | enginePause (x : CmdArgs) | engineUnpause (x : CmdArgs)
  | mldtReadDone (core : Nat) | tileReload (core tile : Nat) | laneGrant (cluster : Nat)
  -- placement
  | idleSearchTimeout (core : Nat) | placementAim (die region : Nat)
  | placementWithdraw (gang : Nat) | gangStart (gang : Nat) | gangEnd (gang : Nat)
  | preemptRequest (die region : Nat) | scrub (core : Nat)
  -- troupes and segments
  | troupeTimeout (t : Nat) | troupeRelease (t : Nat) | hold (x : CmdArgs) | resume (x : CmdArgs)
  | release (x : CmdArgs) | cancel (x : CmdArgs) | siblingEnd (slot : Nat) | prunedSegmentEnd (slot : Nat)
  | segmentPark (core : Nat)
  -- migration and page requests
  | migrateStall (x : MigArgs) | migrateDrain (old : Nat) | migrateCopy (old : Nat) | migrateSwitch (old : Nat)
  | migrateRelease (old : Nat)
  | pageRequestPost (part : Nat) | prqhead (x : StoreArgs) | prreply (x : StoreArgs) | replyRecordJoin (slot : Nat)
  -- front ends
  | notify (x : StoreArgs) | head (x : StoreArgs) | queueScan (queue : Nat) | waitSignalWake (queue : Nat)
  | arbitrationStep (fe : Nat) | holdRelease (fe queue : Nat) | holdTimeout (fe queue : Nat)
  | launchStep (fe queue : Nat) | packetCompletion (queue index : Nat) | map (x : MapArgs) | unmap (x : MapArgs)
  -- power, snapshots, sealing, sessions
  | periodEnd (pmeas : BitVec 13) | backgroundUnit (activity unit : Nat)
  | snapcut (mask : BitVec 4) | snapForcedCopy (die page : Nat) | snapBackgroundCopy (die : Nat)
  | pseal (x : EngArgs) | punseal (x : EngArgs)
  | openSession (x : CmdArgs) | report (x : CmdArgs) | close (x : CmdArgs) | kload (x : CmdArgs)
  | hprep (x : CmdArgs) | hoffer (x : CmdArgs) | erase (x : CmdArgs) | haccept (x : CmdArgs) | tgo (x : CmdArgs)
  -- errors and start-up
  | uncorrectableEviction (level unit line : Nat) | eccPatrol (line : Nat) (uncorrectable : Bool)
  | frontEndTableError (fe : Nat) | calliopeFailure (fe : Nat) | ferestart (x : CmdArgs)
  | powerUp (reason : BitVec 8) | imggo (x : CmdArgs) | peerPortAccess (x : BusArgs)
  | peerLinkChange (port : Nat) (up : Bool) | unitPowerGate (u : Unit_) | unitPowerUp (u : Unit_)
  deriving DecidableEq, Repr

end Sys2Proof
end

