-- ==== Sys2Proof/Machine/State.lean ====
section
/-! DEFINITION. The state of the part, as plain data: contexts, cores, caches, engines, regions, troupes, queues, front
ends, translation, sessions, snapshots, power and start-up; the state after reset; the reasons a step can stop. -/

namespace Sys2Proof.Machine

/-! ### Reasons a step can stop -/

/-- Faults of the machine itself, apart from the traps of the part, which are next states. -/
inductive Fault where
  /-- Raised by the step when the turn names a core that the grade does not have (R6, R9): nothing stands there to move.
  Safe: the step does nothing where the part has nothing. -/
  | noSuchCore
  /-- Raised by the step when the turn names a front end outside 0 to 7 (R41). Safe, as noSuchCore. -/
  | noSuchFrontEnd
  deriving DecidableEq, Repr

/-- Refusals. -/
inductive Refusal where
  /-- Raised by the dispatcher for an instruction without a meaning in the model. Safe: no claim is made of it. -/
  | notModelled (mnemonic : String)
  deriving DecidableEq, Repr

/-! ### Capabilities, memory -/

/-- A capability: 128 bits and a tag (R73). -/
structure Cap where
  bits : BitVec 128
  tag : Bool
  deriving DecidableEq, Repr

/-- The untagged zero capability. -/
def Cap.zero : Cap := { bits := 0, tag := false }

/-- Bytes by address, addresses rising, no entry equal to 0, which an unlisted address reads as
(notes/assumptions/2.md). -/
abbrev Bytes := List Host.Cell

/-- A line of a level one (R43, R114): bytes, dirty mask, granule tags (R76), recorded scope; the cores whose agents wrote its
dirty bytes (R462), the region of the last of them (R442), and the interleave code of the last write (R400). -/
structure L1Line where
  data : BitVec 512
  dirty : BitVec 64
  tags : BitVec 4
  scope : Scope
  writers : List Nat
  owner : Nat
  code : BitVec 2
  deriving DecidableEq, Repr

/-- A line of a level two: bytes, the bytes not yet at .pkg, granule tags, the cores whose pending bytes it holds (R462),
the owner tag (R442), the interleave code of the last write (R400). -/
structure L2Line where
  data : BitVec 512
  dirty : BitVec 64
  tags : BitVec 4
  writers : List Nat
  owner : Nat
  code : BitVec 2
  deriving DecidableEq, Repr

/-- What the memory side of a line of HBM4E holds besides its bytes (R400): whether the memory-side cache holds the line, the
code of its last write, and the bytes and tags last written back to the locations of other codes. A line that is not listed
is held, was written through code 0, and every location of it holds zeros. -/
structure SideLine where
  held : Bool
  code : BitVec 2
  locs : List (Nat × BitVec 512 × BitVec 4)
  deriving DecidableEq, Repr

/-- An element store that has passed its checks (R209): address, bits, width, high nibble, the frame's code. -/
structure ElemStore where
  pa : Nat
  val : Nat
  w : Nat
  high : Bool
  code : BitVec 2
  deriving DecidableEq, Repr

/-- An element load that has passed its checks (R207): address, destination group, width, index, high nibble, the frame's
code. -/
structure ElemLoad where
  pa : Nat
  d : VReg
  w : Nat
  e : Nat
  high : Bool
  code : BitVec 2
  deriving DecidableEq, Repr

/-- What an access does with its bytes when it performs (R116). -/
inductive AccKind where
  /-- A scalar load into a g register: type, destination. -/
  | loadG (ty : Ty) (d : GReg)
  /-- A load of a capability: destination. -/
  | loadC (d : CReg)
  /-- A roustabout's load into an x register: whether it is signed. -/
  | loadX (signed : Bool) (d : XReg)
  /-- Element loads that perform together: one element, or a segment (R119, R133). -/
  | loadV (xs : List ElemLoad)
  /-- A store of the low `size` bytes of a value. -/
  | store (value : Word)
  /-- A store of a capability with its tag. -/
  | storeC (c : Cap)
  /-- Element stores that perform together: one element, or a segment (R119, R133). -/
  | storeV (xs : List ElemStore)
  /-- An atomic of the control thread (R126): kind, type, destination, the two operands. -/
  | amoG (k : AmoKind) (ty : Ty) (d : GReg) (b c : Word)
  /-- An atomic of a roustabout (R260): operation, whether it acquires, destination, operand. -/
  | amoX (op : RvAmoOp) (aq : Bool) (d : XReg) (b : Word)
  deriving DecidableEq, Repr

/-- An access in a party's queues (R114): what it waits behind, kind, physical address, size, scope, hint, the frame's code.
`n` counts, for the control thread, the FENCE.SV entries pushed after the access and not committed (R123); for the vector
agent, the entries of the queue up to its own that have not committed (R119). -/
structure Access where
  n : Nat
  kind : AccKind
  pa : Nat
  size : Nat
  scope : Scope
  hint : Nat
  code : BitVec 2
  deriving DecidableEq, Repr

/-- Queues of one party (R114): not yet issued, pending loads, store buffer; oldest first. -/
structure PartyQ where
  issue : List Access
  pending : List Access
  stores : List Access
  deriving DecidableEq, Repr

/-! ### Pieces of a context -/

/-- An entry of the vector queue and of its images (R163, R164): instruction words, address, captured values. -/
structure VqEntry where
  words : BitVec 256
  addr : Word
  capC : Cap
  capG : Word
  deriving DecidableEq, Repr

/-- A level of the carousel (R290). -/
structure Level where
  count : BitVec 32
  index : BitVec 32
  stride : Word
  reg : GReg
  deriving DecidableEq, Repr

/-- The carousel (R290, R297): levels, body address, length, position, buffer, and the CLRUN's address. -/
structure Carousel where
  levels : Vector Level 6
  body : Word
  cln : Nat
  pos : Nat
  buffer : List (List Word32)
  runAt : Word
  deriving DecidableEq, Repr

/-- A tile slot of the matrix array (R232, R256): its bytes as memory held them, `tr` giving their layout (R241). `pend` asks
for the reload of R255. -/
structure Tile where
  valid : Bool
  pend : Bool
  scratch : Bool
  tr : Bool
  kind : MxKind
  ty : Ty
  reload : Bool
  offset : Nat
  elems : BitVec 262144
  scales : BitVec 32768
  deriving DecidableEq, Repr

/-- The matrix state of a context (R232, R235, R256); `load` is the tile that a committed MLDT is reading into the shadow
slot, `got` the granules of it read so far (R242). -/
structure Matrix where
  load : Option Tile
  got : List Nat
  acc : Vector (BitVec 8192) 8
  accInt : BitVec 8
  slot0 : Tile
  slot1 : Tile
  act : Bool
  chain : Word
  tblAct : BitVec 8192
  tblBias : BitVec 8192
  tblScale : BitVec 8192
  deriving DecidableEq, Repr

/-- A binding of v24 to v31 (R282). -/
structure Binding where
  word0 : Word
  stride : Word
  base : Cap
  scale : Cap
  sstride : Word
  bound : Bool
  deriving DecidableEq, Repr

/-- The default loader (R281): the records of the launch in binding order, strips done of each; the bindings that this
pass has still to serve. Of the first of those: whether its turn has begun, the commands still to push (true for scales),
whether the strip and its scales are announced, the results outstanding, the bytes moved of the strip and of its scales;
then the end marks still to append. -/
structure DefaultLoader where
  recs : List Binding
  ks : List Nat
  pass : List Nat
  began : Bool
  todo : List Bool
  announced : Nat
  outstanding : Nat
  moved : Nat
  smoved : Nat
  marks : Option (List Nat)
  deriving DecidableEq, Repr

/-- A roustabout (R259 to R263). -/
structure Roustabout where
  x : Vector Word 32
  pc : Word
  idle : Bool
  kc : Vector Cap 8
  istore : Bytes
  dstore : Bytes
  reserved : Option Nat
  dflt : Option DefaultLoader
  deriving DecidableEq, Repr

/-- An entry of a strip queue (R279): a strip with its stage, bytes and address, and its scales; or an end mark. -/
inductive StripEntry where
  | strip (stage : Fin 16) (n : Nat) (addr : Nat) (scale : Option (Fin 16 × Nat × Nat))
  | endMark
  deriving DecidableEq, Repr

/-- A stage word (R278): pending strips and credit in bytes. -/
structure Stage where
  pending : BitVec 8
  credit : BitVec 24
  deriving DecidableEq, Repr

/-- A result element (R277): word 0 and word 1 of the record, and the destination ranges that its pop acquires (R132). -/
structure ResElem where
  w0 : Word
  w1 : Word
  ranges : List (Nat × Nat)
  deriving DecidableEq, Repr

/-- A record of the event queue (R276). -/
structure EvRec where
  w0 : Word
  w1 : Word
  w2 : Word
  w3 : Word
  ranges : List (Nat × Nat)
  deriving DecidableEq, Repr

/-- A translation fault: cause, level, stage, entry with V = 0, guest physical address, request identifier (R405). -/
structure XFault where
  cause : BitVec 16
  level : Nat
  gstage : Bool
  entry : Nat
  gpa : Nat
  req : BitVec 32
  deriving DecidableEq, Repr

/-- A command as an engine holds it (R268): the word, the captured capabilities, stride, sequence number, pusher, the
root it uses (R394), its place in its core's order of pushes, the scratchpad bytes that the range checker found for it and
whether a page did not translate (R274); then its progress: elements performed (R273), the first fault, the status once it
has ended, whether a link command pauses (R328), and the bytes it has written (R132); the bytes that a sealing has made or
opened, the version that it captured, and the physical pieces of the session's page that it keeps stalled (R425); the queue and index of a packet that it
serves (R426); the packet whose gang pushed it and that waits for its record (R384); a miss that a walk has met and not yet
reported, with its virtual address and whether for a write (R406). -/
structure Cmd where
  word : Word
  src : Cap
  dst : Cap
  idx : Cap
  stride : Int
  seq : Nat
  slot : Nat
  region : Nat
  core : Nat
  party : Party
  atp : Word
  stamp : Nat
  spad : List (Nat × Nat)
  spadAll : Bool
  started : Bool
  pos : Nat
  done : Nat
  mask : List Bool
  fault : Option (BitVec 16 × Word)
  status : Option (BitVec 3)
  paused : Bool
  ranges : List (Nat × Nat)
  buf : List Byte
  ver : Word
  stalls : List (Nat × Nat)
  packet : Option (Nat × Nat)
  owes : Option (Nat × Nat)
  miss : Option (XFault × Nat × Bool)
  deriving DecidableEq, Repr

/-- A kept done mask of a gather command (R273): the command and its mask; newest last in a list. -/
structure DoneMask where
  port : Nat
  cmd : Cmd
  deriving DecidableEq, Repr

/-- The queues of a context (R264, R265, R287). -/
structure Queues where
  qa : List Word
  qb : List Word
  qd : List Word
  strips : Vector (List StripEntry) 8
  stages : Vector Stage 16
  binds : Vector Binding 8
  results : List (Nat × List ResElem)
  events : List EvRec
  late : List EvRec
  seqs : List (Nat × Nat)
  masks : List DoneMask
  deriving DecidableEq, Repr

/-- The sideshow (R301). -/
structure Sideshow where
  base : Nat
  slots : Nat
  lp : Nat
  heads : Vector Nat 8
  counts : Vector Nat 8
  deriving DecidableEq, Repr

/-- The last load of an iteration that the spin detector compares (R299): address, size, scope, value, tag. -/
structure SpinLoad where
  pa : Nat
  size : Nat
  scope : Scope
  value : BitVec 128
  tag : Bool
  deriving DecidableEq, Repr

/-- What the spin detector keeps of the last taken execution of a backward branch (R299): the registers there, and the last
load of the iteration that it closed. -/
structure SpinSeen where
  g : Vector Word 64
  gp : BitVec 64
  caps : Vector Cap 16
  last : Option SpinLoad
  deriving DecidableEq, Repr

/-- The spin detector (R299): the branch taken last and its consecutive qualifying iterations, what it keeps of each backward
branch by its address; for each address executed since the last instruction that no qualifying iteration holds, the last load
since its latest execution; and whether the instruction at hand has noted its load there. -/
structure Spin where
  branch : Option Word
  count : Nat
  seen : List (Word × SpinSeen)
  runs : List (Word × Option SpinLoad)
  noted : Bool
  deriving DecidableEq, Repr

/-- Vector registers and lanes of a context (R143, R173, R184, R190). -/
structure Vregs where
  vl : BitVec 13
  long : Bool
  wlog : Nat
  lanes : Nat
  held : Nat
  /-- The length up to which bits have been lost by a shortening since they were last zeroed; what a longer register then
  holds there is a free value (R182). -/
  lost : Nat
  p : Vector (BitVec 1024) 16
  v : Vector (BitVec 4096) 32
  vp : Vector (BitVec 512) 32
  vo : Vector Word 32
  /-- The cause that poisoned an element of each register last (R415). -/
  vc : Vector (BitVec 16) 32
  deriving DecidableEq, Repr

/-- General and capability registers with poison and origins (R140, R141). -/
structure Gregs where
  g : Vector Word 64
  gp : BitVec 64
  oaddr : Vector Word 64
  ocause : Vector (BitVec 16) 64
  c : Vector Cap 16
  deriving DecidableEq, Repr

/-- The words of the frame's header page (R94). -/
structure Header where
  run : BitVec 2
  cause : BitVec 16
  party : BitVec 4
  pend : Bool
  pc : Word
  vcp : Word
  poisonPc : Word
  detail0 : Word
  detail1 : Word
  rootcap : Cap
  pcap : Cap
  vlcap : Word
  srseed : Word
  srbase : Word
  region : Nat
  atp : Word
  rasSpill : Word
  rasEnd : Word
  rasBase : Word
  spinpark : Word
  imgbase : Word
  trapseq : BitVec 16
  reqRoot : Bool
  reqVl : Bool
  reqAtp : Bool
  shRootcap : Cap
  shVlcap : Word
  shAtp : Word
  deriving DecidableEq, Repr

/-- A trap that waits for the context's halt (R106, R108, R166). -/
structure Trap where
  cause : BitVec 16
  party : Nat
  detail0 : Word
  detail1 : Word
  poisonPc : Word
  deriving DecidableEq, Repr

/-- Halts asked of a context and not yet taken (R129); `away` has halted for a pre-emption and still lies on its core
(R324). -/
inductive HaltReq where
  | stop | step | preempt | away
  deriving DecidableEq, Repr

/-- A context (R93, R100): its frame words, registers, queues and membership. -/
structure Ctx where
  h : Header
  r : Gregs
  vr : Vregs
  lk : BitVec 16
  tsib : BitVec 6
  /-- The return-address store (R154, R156): its entries, and how many of them it holds. -/
  ras : Vector Word 16
  rasN : Nat
  vqn : Nat
  vq : List VqEntry
  /-- The entries at the head of the queue that the vector agent has executed and that have not committed, since loads of the
  first of them still wait (R116). -/
  vlive : Nat
  mx : Matrix
  car : Carousel
  loader : Roustabout
  storer : Roustabout
  q : Queues
  ss : Sideshow
  member : Option (Nat × Nat)
  seg : Bool
  spec : Bool
  depth : Nat
  segId : Nat
  core : Option Nat
  gang : Nat
  /-- The die that the context's core lay on when it left it (R323, R414). -/
  home : Nat
  spsize : Nat
  allot : Bytes
  allotTags : List Nat
  /-- Do the register images and the allotment stand in the save area (R100, R312)? -/
  saved : Bool
  /-- Do the long registers and the predicates stand there, the lanes returned (R180)? -/
  vsaved : Bool
  parked : Option Nat
  hit : Bool
  regrant : Bool
  spin : Spin
  trap : Option Trap
  halt : Option HaltReq
  halting : Bool
  /-- The status of a TCANCEL or SRESOLVE that has taken its step and waits for endings (R344, R363), which a halt does not
  undo (R139). -/
  cancelled : Option Nat
  /-- The slots whose endings that instruction still awaits. -/
  awaits : List Nat
  /-- The slots whose halts the control store at PC still awaits (R101, R334). -/
  awaitHalts : List Nat
  /-- The slots whose stores to RUN have asked this context for a halt that has not taken place, with the values stored (R101). -/
  askers : List (Nat × BitVec 2)
  /-- The troupe and sibling whose record a TBAR or TADV waits for (R344). -/
  awaitClose : Option (Nat × Nat)
  /-- What that instruction is given, kept where the troupe's page has been released since (R347). -/
  delivered : Option (Word × Word)
  firstAcq : Option Scope
  /-- The party whose instruction parks a speculative segment (R368). -/
  segPark : Option Party
  /-- A prune or a cancel has stopped the context for good (R344, R364). -/
  ending : Bool
  /-- A prune has: the context ends by PRUNED_SEGMENT_END alone (R364). -/
  pruned : Bool
  deriving DecidableEq, Repr

/-! ### Cores, clusters, engines -/

/-- A deque entry's dirty set (R134), by its place. -/
structure DirtySet where
  place : Nat
  lines : List Nat
  deriving DecidableEq, Repr

/-- A load of the control thread that has performed before older branches have resolved (R118): where the load stands, the
registers of its address, its physical address, size and scope, and what it read. -/
structure EarlyLoad where
  pc : Word
  a : CReg
  c : GReg
  pa : Nat
  size : Nat
  scope : Scope
  value : BitVec 128
  tag : Bool
  deriving DecidableEq, Repr

/-- A core (R37 to R48, R316): the resident context, the region served, deque registers and dirty sets, the placements
aimed at it, oldest first, and the one that it has accepted, idle parking and the cluster clock at its last search, level one,
instruction cache, lines whose words its thread has fetched ahead (R171), party queues, loads performed early (R118). -/
structure Core where
  slot : Option Nat
  region : Nat
  dqcfg : Word
  top : BitVec 32
  bottom : BitVec 32
  dirty : List DirtySet
  aims : List Nat
  accepted : Option Nat
  /-- Commands pushed from the core, the order of R131. -/
  pushes : Nat
  /-- The session whose traces still stand on the core (R427); 16 for one that has been closed or erased. -/
  traces : Option Nat
  idle : Bool
  searched : Nat
  l1 : List (Nat × L1Line)
  icache : List (Nat × BitVec 512)
  ahead : List (Nat × BitVec 512)
  pq : Vector PartyQ 4
  early : List EarlyLoad
  deriving DecidableEq, Repr

/-- A request in a cluster's lane queue (R179): slot, core, region priority, and whole for a re-grant. -/
structure LaneReq where
  slot : Nat
  core : Nat
  prio : Nat
  want : Nat
  regrant : Bool
  deriving DecidableEq, Repr

/-- A cluster: its clock, its lane queue, the gang that fuses its level one (R44). -/
structure Cluster where
  clock : Nat
  lanes : List LaneReq
  fused : Option Nat
  deriving DecidableEq, Repr

/-- An engine with its control page's words (R275) and its commands, oldest first. -/
structure Engine where
  pause : Bool
  gran : Word
  memerr : Word
  cmds : List Cmd
  deriving DecidableEq, Repr

/-- A snapshot engine's page (R430); whether it has taken a cut; and the pages copied since the last one, which are not copied
again before the next (R432). -/
structure Snap where
  ctl : Word
  base : Word
  len : Word
  dst : Word
  map : Word
  tag : Word
  seq : Word
  complete : Bool
  copied : BitVec 32
  sig : Word
  cut : Bool
  pages : List Nat
  deriving DecidableEq, Repr

/-! ### Regions, records, gangs, troupes -/

/-- A region control block (R308 to R310, R440). -/
structure Region where
  valid : Bool
  parent : Nat
  ovr : BitVec 10
  selfauth : Bool
  prio : Nat
  faultq : Word
  dqcfg : Word
  pool : Word
  pooln : Nat
  slotN : Nat
  slot0 : Nat
  savebase : Word
  limit : Vector Nat 6
  inuse : Vector Nat 6
  shares : Vector Word 6
  placeq : List Nat
  deriving DecidableEq, Repr

/-- The part's own fields of a launch record's RSTATE (R314), by the record's physical address. -/
structure RecState where
  state : Nat
  inq : Bool
  deriving DecidableEq, Repr

/-- What a gang places: a launch record, a troupe sibling or segment already made, or a context that returns to a core
(R323, R338, R361, R414). -/
inductive GangKind where
  | record (pa : Nat)
  | contexts (slots : List Nat)
  deriving DecidableEq, Repr

/-- A gang: waiting for placement, aimed, or running (R320 to R324). -/
structure Gang where
  kind : GangKind
  region : Nat
  n : Nat
  anydie : Bool
  die : Nat
  cosched : Bool
  fuse : Bool
  arg : Option Word
  packet : Option (Nat × Nat)
  cores : List Nat
  slots : List Nat
  running : Bool
  deriving DecidableEq, Repr

/-- A link of a pipeline (R326). -/
structure Link where
  producer : Nat
  consumer : Nat
  cstage : Fin 16
  pstage : Fin 16
  off : Nat
  size : Nat
  deriving DecidableEq, Repr

/-- A sibling of a troupe (R333); in a segment, its descriptor, until that is free (R372). -/
structure Sib where
  slot : Nat
  desc : Option Nat
  posted : Bool
  reward : Word32
  sstat : Nat
  adv : Word32
  ended : Bool
  deriving DecidableEq, Repr

/-- A troupe control page (R331, R332). -/
structure Troupe where
  owner : Nat
  region : Nat
  home : Nat
  eps : Word32
  quorum : Nat
  timeout : BitVec 32
  counted : BitVec 32
  counting : Bool
  held : Bool
  relreq : Bool
  ownerEnded : Bool
  tstat : Nat
  m : Nat
  mu : Word32
  var : Word32
  sig : Word32
  theld : BitVec 64
  sibs : List Sib
  deriving DecidableEq, Repr

/-! ### Front ends and queues -/

/-- Where a packet taken by a front end stands (R382, R384): in Lysyo, in a hold, at its launch step, launched, ended and to be
completed, its status written, HEAD and the counters moved, completed in place. -/
inductive PktStage where
  | lysyo | held (since : BitVec 48) | launch | launched | completed | written | counted | done
  deriving DecidableEq, Repr

/-- A packet taken: its ring index, the calliope's copy of its eight words, its stage, its status, and whether it counts as
launched for INFLIGHT. -/
structure Pkt where
  index : BitVec 32
  copy : Vector Word 8
  stage : PktStage
  status : Nat
  launched : Bool
  deriving DecidableEq, Repr

/-- A queue head page (R375, R376) and the front end's view of the ring (R380, R381). -/
structure Queue where
  valid : Bool
  mapped : Option (Nat × Nat)
  kind : Nat
  scope : BitVec 3
  home : BitVec 8
  drop : Bool
  fe : Nat
  failed : Bool
  region : Nat
  lg : Nat
  ringbase : Word
  head : BitVec 32
  tail : BitVec 32
  misscnt : Word
  dropcnt : Word
  pwake : BitVec 2
  prog : Word
  pstat : Word
  win : Vector Word 4
  wlen : Vector Word 4
  qerr : Word
  inflight : BitVec 16
  next : BitVec 32
  read : List (BitVec 32 × Vector Word 8)
  taken : List Pkt
  waitZero : Bool
  sigHit : Bool
  wake : Bool
  deriving DecidableEq, Repr

/-- A run of a queue's Lysyo program (R385, R386). -/
structure LyRun where
  queue : Nat
  regs : Vector Word 16
  index : Nat
  steps : Nat
  loops : List (Nat × Nat × Nat)
  deriving DecidableEq, Repr

/-- A front end (R374, R388, R445), with the classes that it asks of the arbiter and the periods that each request still stands
once no packet of it is held (R436). -/
structure FrontEnd where
  time : BitVec 48
  qmap : List (Nat × Nat)
  busy : List Nat
  progs : List (Nat × List Word32)
  run : Option LyRun
  state : Nat
  fails : BitVec 8
  reason : Nat
  pwsum : List Nat
  reqs : List (Nat × Nat)
  deriving DecidableEq, Repr

/-! ### Translation -/

/-- A translation-root page (R392). -/
structure Root where
  rtcfg : Word
  vsatp : Word
  hgatp : Word
  prqbase : Word
  prqctl : Word
  prqhead : BitVec 32
  prqtail : BitVec 32
  prnext : BitVec 32
  deriving DecidableEq, Repr

/-- A waiter of a page request (R408). -/
structure Waiter where
  slot : Nat
  port : Nat
  word0 : Word
  seq : Nat
  cause : BitVec 16
  va : Word
  deriving DecidableEq, Repr

/-- An outstanding page request (R406): partition, identifier, key, record words, posted, waiters. -/
structure Request where
  part : Nat
  id : BitVec 32
  guest : Bool
  space : Nat
  page : Nat
  record : List Word
  posted : Bool
  waiters : List Waiter
  deriving DecidableEq, Repr

/-- A held translation (R401): root, partition, whether a guest's, virtual page base and size, guest page base, frame
base, what it may do, skew, and the guest pages of the tables it was made with (R402). -/
structure Tlb where
  root : Nat
  part : Nat
  guest : Bool
  va : Nat
  size : Nat
  gpa : Nat
  gsize : Nat
  tables : List (Nat × Nat)
  frame : Nat
  r : Bool
  w : Bool
  x : Bool
  d : Bool
  skew : BitVec 2
  deriving DecidableEq, Repr

/-- A migration or a sealing that stalls a page (R135, R425); the steps taken: 1 stalled, 2 drained, 3 copied, 4 switched, or 0
for a sealing. -/
structure Migration where
  old : Nat
  new : Nat
  size : Nat
  leaf : Nat
  /-- The virtual page, and the interleave code of the new mapping (R400). -/
  va : Nat
  code : BitVec 2
  phase : Nat
  deriving DecidableEq, Repr

/-! ### Sessions, keys -/

/-- A session block of the root of trust (R417, R418) with its keys (R419) and handover key (R428); whether a CLOSE bars the
contexts of its region from running (R419); whether a TGO whose inner store has not completed runs (R421). -/
structure Session where
  state : Nat
  region : Nat
  sgen : Word
  sarg : Word
  done : Bool
  res : BitVec 8
  taddr : Word
  tval : Word
  tok0 : Word
  tok1 : Word
  vtbase : Word
  vtlen : Word
  sroots : Word
  ranges : Vector (Word × Word) 4
  smeas : List Byte
  keys : List (List Byte)
  handover : Option (List Byte)
  expiry : Nat
  barred : Bool
  staging : Bool
  deriving DecidableEq, Repr

/-- A loaded key slot (R423). -/
structure KeySlot where
  sess : Nat
  region : Nat
  key : List Byte
  deriving DecidableEq, Repr

/-! ### Power, errors, start-up -/

/-- A budget page (R438), and the bytes that each region has been served in the period (R440). -/
structure Budget where
  limit : Word
  used : Word
  debt : Word
  served : List (Nat × Nat)
  deriving DecidableEq, Repr

/-- The power arbiter's page (R435), the limit in force (R437), the boot words (R446) and the flash. -/
structure Arbiter where
  plimit : BitVec 13
  limitNow : BitVec 13
  pmeas : BitVec 13
  periods : Word
  point : Nat
  memlost : Word
  boot : Nat
  /-- The cores that the power-up has still to zero before the boot ROM reads the flash (R446). -/
  unzeroed : List Nat
  /-- Does the flash read? Asked while the power-up goes on (R446). -/
  flashBad : Bool
  reason : BitVec 8
  imgaddr : Word
  imglen : Word
  flash : List Byte
  fwdigest : List Byte
  idReady : Bool
  deriving DecidableEq, Repr

/-- A waiting error report (R442): owner region, line address, level. -/
structure Report where
  region : Nat
  line : Nat
  level : Nat
  deriving DecidableEq, Repr

/-- A LAUNCH record that waits for space in a queue (R107, R322): the slot that it names, its region, its words. -/
structure LaunchRec where
  slot : Nat
  region : Nat
  words : List Word
  deriving DecidableEq, Repr

/-- The fuses (R5 to R7): present clusters and stacks, the grade's number, the bytes of host memory provided (R390), peer
ports present. -/
structure Fuses where
  clumask : BitVec 36
  stackmask : BitVec 12
  grade : Nat
  hostBytes : Nat
  ports : BitVec 16
  deriving DecidableEq, Repr

/-- What the part tells the host over the Agore link (R107, R445). -/
inductive HostNote where
  | trapPending (slot : Nat)
  | reportPending (line : Nat)
  | frontEndFailed (fe : Nat) (festat : Word)
  deriving DecidableEq, Repr

/-! ### Turns -/

/-- Who moves next. The order of moves is data, since the ordering machine may take any enabled step (R113). -/
inductive Turn where
  /-- The control thread of a core executes one instruction, or its core searches for work. -/
  | thread (core : Nat)
  /-- A roustabout of a core executes one instruction: false the loader, true the storer. -/
  | roustabout (core : Nat) (storer : Bool)
  /-- The calliope of a front end executes one Lysyo instruction. -/
  | calliope (fe : Nat)
  /-- A step of the part that the opcode table lists. -/
  | event (i : Instr)
  /-- A line leaves the instruction cache of a core, which may happen at any time (R70). -/
  | dropFetched (core line : Nat)
  /-- The control thread of a core fetches the words of a line ahead (R171). -/
  | fetchAhead (core line : Nat)
  /-- A load of a core's control thread that stands at an address on some path performs before the branches older than it
  resolve (R118). -/
  | earlyLoad (core : Nat) (pc : Word)
  /-- A granule of the tile that a core's vector agent loads is read (R242). -/
  | tileGranule (core idx : Nat)
  /-- A line leaves the memory-side cache (R400). -/
  | evictSide (line : Nat)
  /-- A line of memory, a scratchpad or a pewter slice becomes uncorrectable (R443). -/
  | lineError (line : Nat)
  /-- An engine finds an uncorrectable error in its own buffers (R275). -/
  | engineError (eng : Nat)
  /-- One clock of a cluster (R342, R413). -/
  | clusterClock (c : Nat)
  /-- One clock of a front end (R374). -/
  | frontEndClock (fe : Nat)
  deriving DecidableEq, Repr

/-! ### The state -/

/-- The state of the part. -/
structure State where
  /-- The core that acts. -/
  core : Nat
  /-- The party of that core that acts. -/
  party : Party
  /-- The front end that acts. -/
  fe : Nat
  /-- Who moves next, first the next. -/
  agenda : List Turn
  /-- Whether loads and stores of memory wait in their issue queue (R116); a free choice of the ordering machine
  (notes/assumptions/4.md). -/
  hold : Bool
  /-- Readings taken of the free values; the model's own field. -/
  fresh : Nat
  fuses : Fuses
  /-- The package point, scratchpads and pewter slices, by physical address (R115, R311, R237). -/
  mem : Bytes
  /-- Tagged granules of memory (R76), rising. -/
  tags : List Nat
  /-- Poisoned lines of memory (R443), rising. -/
  poison : List Nat
  /-- Weight attributes of pewter units (R238), by the unit's address. -/
  attrs : List (Nat × Word)
  ctxs : List (Nat × Ctx)
  cores : List (Nat × Core)
  clusters : List (Nat × Cluster)
  /-- Level two of each die. -/
  l2 : List (Nat × List (Nat × L2Line))
  /-- What memory sides hold of lines of HBM4E, by line (R400). -/
  side : List (Nat × SideLine)
  /-- The lines that one VSTSEG segment wrote, for each segment whose bytes still move (R133). -/
  ties : List (List Nat)
  /-- The same for each segment that no other store has written since (R133): what engine granules move together. -/
  segs : List (List Nat)
  /-- The interleave code of the leaf that translated the acting agent's last access (R399). -/
  code : BitVec 2
  /-- Write sets (R134, R365), by region × 256 + descriptor: bytes written by line. -/
  wsets : List (Nat × List (Nat × L1Line))
  engines : List (Nat × Engine)
  snaps : List (Nat × Snap)
  regions : List (Nat × Region)
  recs : List (Nat × RecState)
  gangs : List (Nat × Gang)
  gangNext : Nat
  links : List (Nat × List Link)
  troupes : List (Nat × Troupe)
  queues : List (Nat × Queue)
  fes : List (Nat × FrontEnd)
  roots : List (Nat × Root)
  requests : List Request
  /-- Translations held by each agent (R401): core k at k, engine e at 256 + e, front end f at 512 + f. -/
  tlbs : List (Nat × List Tlb)
  migs : List Migration
  sessions : List (Nat × Session)
  keys : List (Nat × KeySlot)
  arb : Arbiter
  budgets : Vector Budget 6
  reports : List Report
  /-- LAUNCH records not yet posted, oldest first. -/
  launchRecs : List LaunchRec
  links16 : BitVec 16
  notes : List HostNote
  /-- Power-gated units (R427). -/
  gated : List Unit_
  /-- The link's last answer to a host access: error completion, value. -/
  answer : Bool × Word
  /-- The control store of the host that has not completed (R101, R92): address, value, the slots whose halts it awaits. -/
  hostStore : Option (Nat × Word × List Nat)
  /-- Draws of ephemeral secrets (R419). -/
  draws : Nat
  deriving DecidableEq, Repr

/-! ### Values at reset and at start -/

/-- Every g and c register zero and unpoisoned. -/
def Gregs.zero : Gregs where
  g := Vector.replicate 64 0
  gp := 0
  oaddr := Vector.replicate 64 0
  ocause := Vector.replicate 64 0
  c := Vector.replicate 16 Cap.zero

/-- Short mode, vl 0, wlog 5 (R184), registers zero. -/
def Vregs.zero : Vregs where
  vl := 0
  long := false
  wlog := 5
  lanes := 0
  held := 0
  lost := 0
  p := Vector.replicate 16 0
  v := Vector.replicate 32 0
  vp := Vector.replicate 32 0
  vo := Vector.replicate 32 0
  vc := Vector.replicate 32 0

/-- An invalid tile slot; its type code reads 0 (R256). -/
def Tile.invalid : Tile where
  valid := false
  pend := false
  scratch := false
  tr := false
  kind := .none
  ty := .i64
  reload := false
  offset := 0
  elems := 0
  scales := 0

/-- The matrix values with which a context starts (R235). -/
def Matrix.start : Matrix where
  load := none
  got := []
  acc := Vector.replicate 8 0
  accInt := 0
  slot0 := Tile.invalid
  slot1 := Tile.invalid
  act := false
  chain := 0
  tblAct := 0
  tblBias := 0
  tblScale := 0

/-- Every level unset, no run (R290). -/
def Carousel.unset : Carousel where
  levels := Vector.replicate 6 { count := 0, index := 0, stride := 0, reg := 0 }
  body := 0
  cln := 0
  pos := 0
  buffer := []
  runAt := 0

/-- A roustabout with empty stores. -/
def Roustabout.zero : Roustabout where
  x := Vector.replicate 32 0
  pc := 0
  idle := false
  kc := Vector.replicate 8 Cap.zero
  istore := []
  dstore := []
  reserved := none
  dflt := none

/-- No binding. -/
def Binding.none : Binding where
  word0 := 0
  stride := 0
  base := Cap.zero
  scale := Cap.zero
  sstride := 0
  bound := false

/-- Empty queues, stage words zero. -/
def Queues.empty : Queues where
  qa := []
  qb := []
  qd := []
  strips := Vector.replicate 8 []
  stages := Vector.replicate 16 { pending := 0, credit := 0 }
  binds := Vector.replicate 8 Binding.none
  results := []
  events := []
  late := []
  seqs := []
  masks := []

/-- The sideshow disabled. -/
def Sideshow.off : Sideshow where
  base := 0
  slots := 0
  lp := 0
  heads := Vector.replicate 8 0
  counts := Vector.replicate 8 0

/-- The spin detector watching nothing. -/
def Spin.none : Spin where
  branch := Option.none
  count := 0
  seen := []
  runs := []
  noted := false

/-- Header words all zero. -/
def Header.zero : Header where
  run := 0
  cause := 0
  party := 0
  pend := false
  pc := 0
  vcp := 0
  poisonPc := 0
  detail0 := 0
  detail1 := 0
  rootcap := Cap.zero
  pcap := Cap.zero
  vlcap := 0
  srseed := 0
  srbase := 0
  region := 0
  atp := 0
  rasSpill := 0
  rasEnd := 0
  rasBase := 0
  spinpark := 0
  imgbase := 0
  trapseq := 0
  reqRoot := false
  reqVl := false
  reqAtp := false
  shRootcap := Cap.zero
  shVlcap := 0
  shAtp := 0

/-- A context with every word at its reset value (R94 and the words' owners). -/
def Ctx.zero : Ctx where
  h := Header.zero
  r := Gregs.zero
  vr := Vregs.zero
  lk := 0
  tsib := 0
  ras := Vector.replicate 16 0
  rasN := 0
  vqn := 0
  vq := []
  vlive := 0
  mx := Matrix.start
  car := Carousel.unset
  loader := Roustabout.zero
  storer := Roustabout.zero
  q := Queues.empty
  ss := Sideshow.off
  member := none
  seg := false
  spec := false
  depth := 0
  segId := 0
  core := none
  gang := 0
  home := 0
  spsize := 0
  allot := []
  allotTags := []
  saved := false
  vsaved := false
  parked := none
  hit := false
  regrant := false
  spin := Spin.none
  trap := none
  halt := none
  halting := false
  cancelled := none
  awaits := []
  awaitHalts := []
  askers := []
  awaitClose := none
  delivered := none
  firstAcq := none
  segPark := none
  ending := false
  pruned := false

/-- The root capability of the link context at reset (R89): all six permissions, e = 35, lm = 0x20_0000. -/
def linkRootcap : Cap :=
  { bits := BitVec.ofNat 128 (63 <<< 122 ||| 35 <<< 108 ||| 0x200000 <<< 64), tag := true }

/-- The link context at reset (R89). -/
def linkCtx : Ctx := { Ctx.zero with h := { Header.zero with rootcap := linkRootcap } }

/-- A core with nothing on it. -/
def Core.empty : Core where
  slot := none
  region := 0
  dqcfg := 0
  top := 0
  bottom := 0
  dirty := []
  aims := []
  accepted := none
  pushes := 0
  traces := none
  idle := false
  searched := 0
  l1 := []
  icache := []
  ahead := []
  pq := Vector.replicate 4 { issue := [], pending := [], stores := [] }
  early := []

/-- A cluster with nothing waiting. -/
def Cluster.empty : Cluster where
  clock := 0
  lanes := []
  fused := none

/-- An engine with nothing to do. -/
def Engine.empty : Engine where
  pause := false
  gran := 0
  memerr := 0
  cmds := []

/-- A snapshot engine's page at reset; no cut has been taken. -/
def Snap.empty : Snap where
  ctl := 0
  base := 0
  len := 0
  dst := 0
  map := 0
  tag := 0
  seq := 0
  complete := false
  copied := 0
  sig := 0
  cut := false
  pages := []

/-- A region control block of zeros (R309). -/
def Region.zero : Region where
  valid := false
  parent := 0
  ovr := 0
  selfauth := false
  prio := 0
  faultq := 0
  dqcfg := 0
  pool := 0
  pooln := 0
  slotN := 0
  slot0 := 0
  savebase := 0
  limit := Vector.replicate 6 0
  inuse := Vector.replicate 6 0
  shares := Vector.replicate 6 0
  placeq := []

/-- Region 0 at reset (R309, R441) on a part of `nclu` clusters. -/
def rootRegion (nclu : Nat) : Region :=
  { Region.zero with
    valid := true
    selfauth := true
    limit := #v[4 * nclu, 64 * nclu, 4096 * nclu, 0xFFFFFFFF, 0xFFFFFFFF, 0xFFFFFFFF] }

/-- A queue head page of zeros. -/
def Queue.zero : Queue where
  valid := false
  mapped := none
  kind := 0
  scope := 0
  home := 0
  drop := false
  fe := 0
  failed := false
  region := 0
  lg := 0
  ringbase := 0
  head := 0
  tail := 0
  misscnt := 0
  dropcnt := 0
  pwake := 0
  prog := 0
  pstat := 0
  win := Vector.replicate 4 0
  wlen := Vector.replicate 4 0
  qerr := 0
  inflight := 0
  next := 0
  read := []
  taken := []
  waitZero := false
  sigHit := false
  wake := false

/-- A front end at reset. -/
def FrontEnd.zero : FrontEnd where
  time := 0
  qmap := []
  busy := []
  progs := []
  run := none
  state := 0
  fails := 0
  reason := 0
  pwsum := []
  reqs := []

/-- A translation-root page of zeros. -/
def Root.zero : Root where
  rtcfg := 0
  vsatp := 0
  hgatp := 0
  prqbase := 0
  prqctl := 0
  prqhead := 0
  prqtail := 0
  prnext := 0

/-- A FREE session block. -/
def Session.zero : Session where
  state := 0
  region := 0
  sgen := 0
  sarg := 0
  done := false
  res := 0
  taddr := 0
  tval := 0
  tok0 := 0
  tok1 := 0
  vtbase := 0
  vtlen := 0
  sroots := 0
  ranges := Vector.replicate 4 (0, 0)
  smeas := []
  keys := []
  handover := none
  expiry := 0
  barred := false
  staging := false

/-- The fuses of a whole FN144 (R5); the host provides 2^40 bytes (notes/assumptions/3.md). -/
def Fuses.fn144 : Fuses where
  clumask := BitVec.allOnes 36
  stackmask := BitVec.allOnes 12
  grade := 144
  hostBytes := 2 ^ 40
  ports := BitVec.allOnes 16

/-- The machine right after reset. -/
def State.reset : State where
  core := 0
  party := .control
  fe := 0
  agenda := []
  hold := false
  fresh := 0
  fuses := Fuses.fn144
  mem := []
  tags := []
  poison := []
  attrs := []
  ctxs := [(0, linkCtx)]
  cores := []
  clusters := []
  l2 := []
  side := []
  ties := []
  segs := []
  code := 0
  wsets := []
  engines := []
  snaps := []
  regions := [(0, rootRegion 36)]
  recs := []
  gangs := []
  gangNext := 1
  links := []
  troupes := []
  queues := []
  fes := []
  roots := []
  requests := []
  tlbs := []
  migs := []
  sessions := []
  keys := []
  arb := { plimit := 4600, limitNow := 4600, pmeas := 0, periods := 0, point := 1, memlost := 0, boot := 0, unzeroed := [],
           flashBad := false, reason := 0, imgaddr := 0, imglen := 0, flash := [], fwdigest := [], idReady := false }
  budgets := Vector.replicate 6 { limit := 0x100000, used := 0, debt := 0, served := [] }
  reports := []
  launchRecs := []
  links16 := BitVec.allOnes 16
  notes := []
  gated := []
  answer := (false, 0)
  hostStore := none
  draws := 0

end Sys2Proof.Machine
end

