-- ==== Sys2Proof/Machine/Mem.lean ====
section
/-! DEFINITION. Memory and the cache levels: the bytes of the points of each scope (R114, R115), and the steps Fill,
Propagate, Evict1, Evict2, Invalidate, Release and Acquire (R116, R121, R462). -/

namespace Sys2Proof.Machine

/-! ### Bytes in canonical form -/

/-- The byte at an address; an unlisted address reads as 0 (notes/assumptions/2.md). -/
def memGet (m : Bytes) (a : Nat) : Byte := (lookupKey a m).getD 0

/-- The bytes with one byte written; a byte 0 is unlisted. -/
def memPut (m : Bytes) (a : Nat) (b : Byte) : Bytes := if b = 0 then eraseKey a m else insertKey a b m

/-- `n` bytes from an address. -/
def memRead (m : Bytes) (a : Nat) : Nat → List Byte
  | 0 => []
  | n + 1 => memGet m a :: memRead m (a + 1) n

/-- Consecutive bytes written from an address. -/
def memWrite (m : Bytes) (a : Nat) : List Byte → Bytes
  | [] => m
  | b :: bs => memWrite (memPut m a b) (a + 1) bs

/-- The canonical form: addresses rising, no listed byte 0. -/
def memWfFrom (lo : Nat) : Bytes → Bool
  | [] => true
  | (a, b) :: rest => decide (lo ≤ a) && decide (b ≠ 0) && memWfFrom (a + 1) rest

/-- The canonical form of a memory. -/
def Memory.wf (m : Bytes) : Bool := memWfFrom 0 m

/-- The bytes outside `[lo, lo + n)`. -/
def memErase (m : Bytes) (lo n : Nat) : Bytes := m.filter (fun c => decide (c.1 < lo) || decide (lo + n ≤ c.1))

/-- The bytes inside `[lo, lo + n)`, counted from `lo`. -/
def memSlice (m : Bytes) (lo n : Nat) : Bytes :=
  (m.filter (fun c => decide (lo ≤ c.1) && decide (c.1 < lo + n))).map (fun c => (c.1 - lo, c.2))

/-- A sorted set without a number. -/
def eraseNat (k : Nat) (l : List Nat) : List Nat := l.filter (fun x => x != k)

/-! ### Positions (R1, R12) -/

/-- The die of a core (R1). -/
def dieOf (core : Nat) : Nat := core / 36
/-- The row and column of a core in its die (R1). -/
def rowOf (core : Nat) : Nat := core % 36 / 6
/-- The column of a core in its die (R1). -/
def colOf (core : Nat) : Nat := core % 6
/-- The cluster of a core (R1). -/
def clusterOf (core : Nat) : Nat := 9 * dieOf core + 3 * (rowOf core / 2) + colOf core / 2
/-- The four cores of a cluster in increasing number (R1). -/
def coresOf (c : Nat) : List Nat :=
  let o := 36 * (c / 9) + 12 * (c % 9 / 3) + 2 * (c % 3)
  [o, o + 1, o + 6, o + 7]
/-- Is the cluster present (R7)? -/
def clusterPresent (s : State) (c : Nat) : Bool := decide (c < 36) && s.fuses.clumask.getLsbD c
/-- Is the core present (R6)? -/
def corePresent (s : State) (k : Nat) : Bool := decide (k < 144) && clusterPresent s (clusterOf k)
/-- HBM4E stacks present (R7). -/
def nstacks (s : State) : Nat := popCount s.fuses.stackmask.toNat 12
/-- Clusters present (R7). -/
def nclu (s : State) : Nat := popCount s.fuses.clumask.toNat 36

/-- Width of a scope: wider scopes have greater numbers (R12). -/
def scopeRank : Scope → Nat
  | .core => 0 | .clu => 1 | .die => 2 | .pkg => 3 | .sys => 4

/-- Is the first scope narrower than the second? -/
def narrower (a b : Scope) : Bool := decide (scopeRank a < scopeRank b)

/-- The scope a qualifier names, given the instruction's default (R61). -/
def scopeGet (q : ScopeQ) (dflt : Scope) : Scope :=
  match q with
  | .dflt => dflt | .core => .core | .clu => .clu | .die => .die | .pkg => .pkg | .sys => .sys

/-- The scope of an R61 code; 000, 110 and 111 give the default. -/
def scopeOfCode (c : Nat) (dflt : Scope) : Scope :=
  match c with
  | 1 => .core | 2 => .clu | 3 => .die | 4 => .pkg | 5 => .sys | _ => dflt

/-! ### The physical address space (R390) -/

/-- The start of the scratchpads (R311). -/
def spadBase : Nat := 0x00BE000000000000
/-- The start of the pewter windows (R236). -/
def pewterBase : Nat := 0x00BF000000000000
/-- The start of device control space (R11). -/
def ctlBase : Nat := 0x00C0000000000000
/-- The start of the peer windows (R271). -/
def peerBase : Nat := 0x00D0000000000000
/-- The start of second-tier memory (R390). -/
def secondBase : Nat := 0x0000100000000000
/-- The start of host memory (R390). -/
def hostBase : Nat := 0x0080000000000000

/-- HBM4E of the present stacks. -/
def inHbm (s : State) (pa : Nat) : Bool := decide (pa < 2 ^ 36 * nstacks s)
/-- Second-tier memory, 1,536 GiB. -/
def inSecond (pa : Nat) : Bool := decide (secondBase ≤ pa) && decide (pa < secondBase + 1536 * 2 ^ 30)
/-- Host memory, as much as the host provides. -/
def inHost (s : State) (pa : Nat) : Bool := decide (hostBase ≤ pa) && decide (pa < hostBase + s.fuses.hostBytes) &&
  decide (pa < spadBase)
/-- The scratchpads. -/
def inSpad (pa : Nat) : Bool := decide (spadBase ≤ pa) && decide (pa < spadBase + 144 * 2 ^ 20)
/-- The pewter windows. -/
def inPewter (pa : Nat) : Bool := decide (pewterBase ≤ pa) && decide (pa < pewterBase + 144 * 2 ^ 23)
/-- Device control space. -/
def inCtl (pa : Nat) : Bool := decide (ctlBase ≤ pa) && decide (pa < ctlBase + 2 ^ 40)
/-- The peer windows. -/
def inPeer (pa : Nat) : Bool := decide (peerBase ≤ pa) && decide (pa < peerBase + 2 ^ 44)
/-- Ordinary memory: HBM4E, second tier, host. -/
def inMemory (s : State) (pa : Nat) : Bool := inHbm s pa || inSecond pa || inHost s pa
/-- A byte of a present core's pewter slice (R236). -/
def inSlice (s : State) (pa : Nat) : Bool :=
  inPewter pa && corePresent s ((pa - pewterBase) / 2 ^ 23) && decide ((pa - pewterBase) % 2 ^ 23 < 6 * 2 ^ 20)
/-- The scratchpad of core `k`. -/
def spadOf (k : Nat) : Nat := spadBase + k * 2 ^ 20
/-- The pewter slice of core `k`. -/
def pewterOf (k : Nat) : Nat := pewterBase + k * 2 ^ 23

/-! ### Parts of the state by number -/

/-- A core. -/
def State.coreAt (s : State) (k : Nat) : Core := (lookupKey k s.cores).getD Core.empty
/-- The state with one core changed. -/
def State.modCore (s : State) (k : Nat) (f : Core → Core) : State :=
  { s with cores := insertKey k (f (s.coreAt k)) s.cores }
/-- A cluster. -/
def State.clusterAt (s : State) (c : Nat) : Cluster := (lookupKey c s.clusters).getD Cluster.empty
/-- The state with one cluster changed. -/
def State.modCluster (s : State) (c : Nat) (f : Cluster → Cluster) : State :=
  { s with clusters := insertKey c (f (s.clusterAt c)) s.clusters }
/-- The context in a slot, if the slot holds one. -/
def State.ctx? (s : State) (slot : Nat) : Option Ctx := lookupKey slot s.ctxs
/-- The context in a slot. -/
def State.ctxAt (s : State) (slot : Nat) : Ctx := (s.ctx? slot).getD Ctx.zero
/-- The state with one slot's context set. -/
def State.setCtx (s : State) (slot : Nat) (c : Ctx) : State := { s with ctxs := insertKey slot c s.ctxs }
/-- The state with one slot's context changed. -/
def State.modCtx (s : State) (slot : Nat) (f : Ctx → Ctx) : State := s.setCtx slot (f (s.ctxAt slot))
/-- A region control block. -/
def State.regionAt (s : State) (r : Nat) : Region := (lookupKey r s.regions).getD Region.zero
/-- The state with one region control block changed. -/
def State.modRegion (s : State) (r : Nat) (f : Region → Region) : State :=
  { s with regions := insertKey r (f (s.regionAt r)) s.regions }
/-- A queue head page. -/
def State.queueAt (s : State) (q : Nat) : Queue := (lookupKey q s.queues).getD Queue.zero
/-- The state with one queue changed. -/
def State.modQueue (s : State) (q : Nat) (f : Queue → Queue) : State :=
  { s with queues := insertKey q (f (s.queueAt q)) s.queues }
/-- An engine, by its control-page number (R86). -/
def State.engineAt (s : State) (e : Nat) : Engine := (lookupKey e s.engines).getD Engine.empty
/-- The state with one engine changed. -/
def State.modEngine (s : State) (e : Nat) (f : Engine → Engine) : State :=
  { s with engines := insertKey e (f (s.engineAt e)) s.engines }
/-- A snapshot engine's page. -/
def State.snapAt (s : State) (d : Nat) : Snap := (lookupKey d s.snaps).getD Snap.empty
/-- The state with one snapshot engine changed. -/
def State.modSnap (s : State) (d : Nat) (f : Snap → Snap) : State :=
  { s with snaps := insertKey d (f (s.snapAt d)) s.snaps }
/-- A front end. -/
def State.feAt (s : State) (f : Nat) : FrontEnd := (lookupKey f s.fes).getD FrontEnd.zero
/-- The state with one front end changed. -/
def State.modFe (s : State) (f : Nat) (g : FrontEnd → FrontEnd) : State :=
  { s with fes := insertKey f (g (s.feAt f)) s.fes }
/-- A translation-root page. -/
def State.rootAt (s : State) (r : Nat) : Root := (lookupKey r s.roots).getD Root.zero
/-- The state with one root page changed. -/
def State.modRoot (s : State) (r : Nat) (f : Root → Root) : State :=
  { s with roots := insertKey r (f (s.rootAt r)) s.roots }
/-- A session block. -/
def State.sessionAt (s : State) (j : Nat) : Session := (lookupKey j s.sessions).getD Session.zero
/-- The state with one session block changed. -/
def State.modSession (s : State) (j : Nat) (f : Session → Session) : State :=
  { s with sessions := insertKey j (f (s.sessionAt j)) s.sessions }
/-- The state with every context changed. -/
def State.mapCtxs (s : State) (f : Nat → Ctx → Ctx) : State :=
  { s with ctxs := s.ctxs.map (fun p => (p.1, f p.1 p.2)) }

/-- The slot of the context on the acting core. -/
def State.slot (s : State) : Nat := ((s.coreAt s.core).slot).getD 0
/-- The context on the acting core. -/
def State.cur (s : State) : Ctx := s.ctxAt s.slot
/-- The state with the acting context changed. -/
def State.modCur (s : State) (f : Ctx → Ctx) : State := s.modCtx s.slot f

/-! ### Lines -/

/-- The line of a physical address. -/
def lineOf (pa : Nat) : Nat := pa / 64
/-- 64 mask bits expanded to 512, eight for each. -/
def expandMask (m : BitVec 64) : BitVec 512 :=
  BitVec.ofNat 512 ((List.range 64).foldl (fun acc i => if m.getLsbD i then acc ||| (255 <<< (8 * i)) else acc) 0)
/-- A byte mask of `n` ones from byte `lo`. -/
def byteMask (lo n : Nat) : BitVec 64 := maskAt 64 lo n
/-- The granules of a line with a masked byte (R76). -/
def granulesOf (m : BitVec 64) : BitVec 4 :=
  BitVec.ofNat 4 ((List.range 4).foldl (fun acc g => if field m (16 * g) 16 = 0 then acc else acc ||| (1 <<< g)) 0)
/-- `new` where the mask is set, `old` elsewhere. -/
def mergeData (old new : BitVec 512) (m : BitVec 64) : BitVec 512 :=
  let e := expandMask m
  (old &&& ~~~ e) ||| (new &&& e)
/-- Tags after a merge: those of `new` for each granule with a masked byte. -/
def mergeTags (old new : BitVec 4) (m : BitVec 64) : BitVec 4 :=
  let g := granulesOf m
  (old &&& ~~~ g) ||| (new &&& g)

/-- The bytes of a line at the package point. -/
def pkgData (s : State) (l : Nat) : BitVec 512 := BitVec.ofNat 512 (natOfBytes (memRead s.mem (64 * l) 64))
/-- The tags of a line at the package point. -/
def pkgTags (s : State) (l : Nat) : BitVec 4 :=
  BitVec.ofNat 4 ((List.range 4).foldl (fun acc g => if s.tags.contains (4 * l + g) then acc ||| (1 <<< g) else acc) 0)

/-- The bytes of a line reach a wider point: the threads that monitor it wake (R111), and front ends read a wait signal again
(R381); a packet that names no wait signal has none to read. -/
def spread (s : State) (l : Nat) : State :=
  let s := s.mapCtxs (fun _ c => if c.parked = some l then { c with hit := true } else c)
  let hit (q : Queue) : Bool := match q.read.head? with
    | some p =>
      let a := (p.2.toList.getD 3 0).toNat
      a != 0 && a / 64 == l
    | none => false
  { s with queues := s.queues.map (fun p => if hit p.2 then (p.1, { p.2 with sigHit := true }) else p) }

/-- A roustabout without its reservation of a line. -/
def unreserve (l : Nat) (r : Roustabout) : Roustabout := if r.reserved = some l then { r with reserved := none } else r

/-- An agent writes a line: reservations of it end (R260), segments in it are no longer whole (R133), and whoever watches it is
told. -/
def touch (s : State) (l : Nat) : State :=
  spread { s.mapCtxs (fun _ c => { c with loader := unreserve l c.loader, storer := unreserve l c.storer }) with
    segs := s.segs.filter (fun t => !t.contains l) } l

/-- The bytes and tags of a line set at the package point. -/
def pkgSet (s : State) (l : Nat) (data : BitVec 512) (tags : BitVec 4) : State :=
  { s with
    mem := memWrite s.mem (64 * l) (bytesOfNat 64 data.toNat)
    tags := (List.range 4).foldl
      (fun acc g => if tags.getLsbD g then insertNat (4 * l + g) acc else eraseNat (4 * l + g) acc) s.tags }

/-! ### The memory side of HBM4E (R399, R400) -/

/-- The largest prime not above the channel count (R399). -/
def primeChannels (c : Nat) : Nat := ((List.range (c + 1)).reverse.find? isPrime).getD 1

/-- The pseudo-channel of a granule under an interleave code (R399); code 11 acts as 00. -/
def channelOf (s : State) (code : BitVec 2) (g : Nat) : Nat :=
  let c := 32 * nstacks s
  if code = 1 then Nat.xor g (g / 2 ^ 12) % c
  else if code = 2 then g % primeChannels c
  else Nat.xor (Nat.xor (Nat.xor (Nat.xor g (g / 2 ^ 9)) (g / 2 ^ 18)) (g / 2 ^ 27)) (g / 2 ^ 36) % c

/-- The base die that a physical address belongs to, under an interleave code (R399, R115); the link half of a line of host
memory (R41). -/
def homeDie (s : State) (code : BitVec 2) (pa : Nat) : Nat :=
  let g := pa / 256
  if inHbm s pa then
    let present := (List.range 12).filter (fun i => s.fuses.stackmask.getLsbD i)
    present.getD (channelOf s code g / 32) 0 / 3
  else if inSecond pa then g % 32 / 8
  else if pa / 256 % 2 = 0 then 0 else 1

/-- A line's side as no record shows it: held, last written through code 0. -/
def SideLine.plain : SideLine := { held := true, code := 0, locs := [] }
/-- What the memory side holds of a line (R400). -/
def State.sideAt (s : State) (l : Nat) : SideLine := (lookupKey l s.side).getD SideLine.plain
/-- The state with the side of a line set. -/
def State.setSide (s : State) (l : Nat) (x : SideLine) : State :=
  { s with side := if x = SideLine.plain then eraseKey l s.side else insertKey l x s.side }

/-- The code that an interleave code executes as: code 11 as code 00 (R399). -/
def codeOf (code : BitVec 2) : BitVec 2 := if code = 3 then 0 else code

/-- What the location of a code holds of a line that has left the memory-side cache (R400). -/
def SideLine.locOf (x : SideLine) (code : BitVec 2) : BitVec 512 × BitVec 4 := (lookupKey (codeOf code).toNat x.locs).getD (0, 0)

/-- A line of HBM4E that the memory-side cache does not hold is filled from the location of a code (R400). -/
def sideFill (s : State) (l : Nat) (code : BitVec 2) : State :=
  let x := s.sideAt l
  if x.held || !inHbm s (64 * l) then s
  else (pkgSet s l (x.locOf code).1 (x.locOf code).2).setSide l { x with held := true, code := codeOf code }

/-- A line of HBM4E written through a code: its next write-back goes to that code's location (R400). -/
def sideMark (s : State) (l : Nat) (code : BitVec 2) : State :=
  if inHbm s (64 * l) then s.setSide l { s.sideAt l with code := codeOf code } else s

/-- A line leaves the memory-side cache for the location of its last write's code (R400). -/
def evictSide (s : State) (l : Nat) : State :=
  let x := s.sideAt l
  if x.held && inHbm s (64 * l) then
    s.setSide l { x with held := false, locs := insertKey x.code.toNat (pkgData s l, pkgTags s l) x.locs }
  else s

/-! ### Budgets of background work (R438, R439) -/

/-- The bytes of an activity charged: up to the limit to BUSED, beyond it to BDEBT (R439). -/
def chargeBudget (b : Budget) (n : Nat) : Budget :=
  let room := b.limit.toNat - b.used.toNat
  { b with used := b.used + BitVec.ofNat 64 (min n room), debt := b.debt + BitVec.ofNat 64 (n - min n room) }

/-- Bytes charged to activity `a`. -/
def chargeWork (s : State) (a : Fin 6) (n : Nat) : State :=
  { s with budgets := s.budgets.set a (chargeBudget s.budgets[a] n) }

/-! ### Level two -/

/-- The lines of a die's level two. -/
def State.l2Of (s : State) (d : Nat) : List (Nat × L2Line) := (lookupKey d s.l2).getD []
/-- A line of a die's level two. -/
def State.l2Line (s : State) (d l : Nat) : Option L2Line := lookupKey l (s.l2Of d)
/-- A line put into a die's level two. -/
def State.l2Put (s : State) (d l : Nat) (x : L2Line) : State :=
  { s with l2 := insertKey d (insertKey l x (s.l2Of d)) s.l2 }
/-- A line removed from a die's level two. -/
def State.l2Del (s : State) (d l : Nat) : State := { s with l2 := insertKey d (eraseKey l (s.l2Of d)) s.l2 }

/-! ### Writes at the package point, and snapshots (R432) -/

/-- Masked bytes merged into a line at the package point, with tags; a whole line clears its poison (R443). -/
def rawMerge (s : State) (l : Nat) (data : BitVec 512) (m : BitVec 64) (tags : BitVec 4) (code : BitVec 2) : State :=
  if m = 0 then s
  else
    let s := sideFill s l code
    let s := if m = BitVec.allOnes 64 then { s with poison := eraseNat l s.poison } else s
    spread (sideMark (pkgSet s l (mergeData (pkgData s l) data m) (mergeTags (pkgTags s l) tags m)) l code) l

/-- Every level two's copy of a line dropped, its pending bytes at the package point (R115, R462). -/
def rawSettle (s : State) (l : Nat) : State :=
  (List.range 4).foldl (fun s d => match s.l2Line d l with
    | none => s
    | some x => (rawMerge s l x.data x.dirty x.tags x.code).l2Del d l) s

/-! ### RSTATE words (R314) -/

/-- Does a record word RSTATE of a region's pool lie at the address (R314)? -/
def isRstate (s : State) (pa : Nat) : Bool :=
  s.regions.any (fun p =>
    let b := p.2.pool.toNat
    p.2.valid && decide (b ≤ pa) && decide (pa < b + 256 * p.2.pooln) && decide ((pa - b) % 256 < 8))

/-- The part's own fields of a record. -/
def State.recAt (s : State) (pa : Nat) : RecState := (lookupKey pa s.recs).getD { state := 0, inq := false }
/-- The state with the part's own fields of a record set. -/
def State.setRec (s : State) (pa : Nat) (r : RecState) : State :=
  { s with recs := if r.state = 0 && !r.inq then eraseKey pa s.recs else insertKey pa r s.recs }

/-- An RSTATE word as a load returns it (R314). -/
def rstateWord (s : State) (pa : Nat) : Word :=
  let w : Word := wordOfBytes (memRead s.mem pa 8)
  let r := s.recAt pa
  setField (setField w 0 3 r.state) 5 1 (b2n r.inq)

/-- The RSTATE words of records that are not IDLE inside `[lo, lo + n)`: no write changes them (R314). -/
def heldWords (s : State) (lo n : Nat) : List Nat :=
  (s.recs.filter (fun r => r.2.state != 0 && decide (lo ≤ r.1) && decide (r.1 + 8 ≤ lo + n) && isRstate s r.1)).map (·.1)

/-- The bytes of `[lo, lo + n)`, counted from `lo`, as loads find them: the fields of RSTATE words that the part keeps stand in
them (R314). -/
def bulkRead (s : State) (lo n : Nat) : Bytes :=
  memSlice (s.recs.foldl (fun (m : Bytes) r =>
    if decide (lo < r.1 + 8) && decide (r.1 < lo + n) && isRstate s r.1 then
      memWrite m r.1 (bytesOfNat 8 (rstateWord s r.1).toNat)
    else m) s.mem) lo n

/-- The memory in which the bytes of `[lo, lo + n)` are those listed, others zero, but for the RSTATE words that keep theirs. -/
def bulkMem (s : State) (lo n : Nat) (bs : Bytes) : Bytes :=
  let mem : Bytes := bs.foldl (fun (m : Bytes) (c : Nat × Byte) => memPut m c.1 c.2) (memErase s.mem lo n)
  (heldWords s lo n).foldl (fun (m : Bytes) a => memWrite m a (memRead s.mem a 8)) mem

/-- What watches a line of `[lo, lo + n)`, as a write of the range reaches it: reservations and segments end, and the parked threads
and signals of its lines are seen to change. -/
def bulkSeen (s : State) (lo n : Nat) : State :=
  let near (l : Nat) : Bool := decide (lo < 64 * l + 64) && decide (64 * l < lo + n)
  let gone (r : Roustabout) : Roustabout := match r.reserved with
    | some l => if near l then { r with reserved := none } else r
    | none => r
  let s := { s with segs := s.segs.filter (fun t => !t.any near) }.mapCtxs
    (fun _ c => { c with loader := gone c.loader, storer := gone c.storer })
  let signals := s.queues.filterMap (fun p => p.2.read.head?.map (fun r => (r.2.toList.getD 3 0).toNat / 64))
  ((s.ctxs.filterMap (fun p => p.2.parked) ++ signals).filter near).foldl spread s

/-- The bytes of `[lo, lo + n)` placed: whole lines lose their poison and their copies in level two. -/
def bulkPlace (s : State) (lo n : Nat) (bs : Bytes) : State :=
  let inside (l : Nat) : Bool := decide (lo ≤ 64 * l) && decide (64 * l + 64 ≤ lo + n)
  bulkSeen { s with
    mem := bulkMem s lo n bs
    tags := s.tags.filter (fun g => decide (16 * g + 16 ≤ lo) || decide (lo + n ≤ 16 * g))
    poison := s.poison.filter (fun l => !inside l)
    l2 := s.l2.map (fun d => (d.1, d.2.filter (fun x => !inside x.1)))
    side := s.side.map (fun x => if inside x.1 then (x.1, { x.2 with held := true, code := 0 }) else x) } lo n

/-- The bytes of `[lo, lo + n)` replaced at the package point by those listed, others zero; lines that they fill in part are
brought there first. -/
def bulkSet (s : State) (lo n : Nat) (bs : Bytes) : State :=
  let s := rawSettle (rawSettle s (lo / 64)) ((lo + n - 1) / 64)
  bulkPlace (sideFill (sideFill s (lo / 64) 0) ((lo + n - 1) / 64) 0) lo n bs

/-- The lines of a list poisoned (R443). -/
def spoilLines (s : State) (ls : List Nat) : State := { s with poison := ls.foldl (fun t l => insertNat l t) s.poison }

/-- Does bit `i` of a snapshot engine's bitmap stand (R430)? -/
def snapBit (s : State) (sn : Snap) (i : Nat) : Bool := (memGet s.mem (sn.map.toNat + i / 8)).getLsbD (i % 8)

/-- The pages of a snapshot engine's covered range (R430). -/
def snapPages (sn : Snap) : Nat := ceilDiv sn.len.toNat 65536

/-- Has the engine page `i` still to copy since its cut (R432)? -/
def snapLeft (sn : Snap) (i : Nat) : Bool := sn.cut && !sn.complete && decide (i < snapPages sn) && !sn.pages.contains i

/-- The page that the snapshot engine of die `d` must copy before a write to line `l`, if any: its bit is 1 (R432). -/
def snapPage (s : State) (d l : Nat) : Option Nat :=
  let sn := s.snapAt d
  let b := sn.base.toNat
  if decide (b ≤ 64 * l) && decide (64 * l < b + sn.len.toNat) then
    let i := (64 * l - b) / 65536
    if snapLeft sn i && snapBit s sn i then some i else none
  else none

/-- The page that the background copy of die `d` takes next: the lowest whose bit is 1, and at last those whose bits a store of
another agent has cleared (R430, R432). -/
def snapNext (s : State) (d : Nat) : Option Nat :=
  let sn := s.snapAt d
  let left := (List.range (snapPages sn)).filter (snapLeft sn)
  (left.find? (snapBit s sn)).or left.head?

/-- The session key number `k` of session `j`, empty when the session holds none (R419). -/
def sessionKey (s : State) (j k : Nat) : List Byte := ((s.sessionAt j).keys)[k]?.getD []

/-- The session whose protected ranges meet `[lo, lo + n)`, if any (R422). -/
def protectorIn (s : State) (lo n : Nat) : Option Nat :=
  (s.sessions.find? (fun p =>
    decide (1 ≤ p.2.state) && decide (p.2.state ≤ 3) &&
    p.2.ranges.toList.any (fun r => decide (r.1.toNat < lo + n) && decide (lo < r.1.toNat + r.2.toNat)))).map (·.1)

/-- Does any protected range of a session hold the address (R422)? -/
def protectedBy (s : State) (pa : Nat) : Option Nat :=
  (s.sessions.find? (fun p =>
    decide (1 ≤ p.2.state) && decide (p.2.state ≤ 3) &&
    p.2.ranges.toList.any (fun r => decide (r.1.toNat ≤ pa) && decide (pa < r.1.toNat + r.2.toNat)))).map (·.1)

/-- The bytes of a line as the memory device that holds it stores them (R422): those of a protected range in second-tier or host
memory stand encrypted under the session's memory key, the tweak the address of the 4 KiB unit. Under which second key the tweak
is encrypted the spec leaves open. State.mem holds what the base die delivers (notes/assumptions/7.md). -/
def deviceLine (s : State) (l : Nat) : List Byte :=
  let pa := 64 * l
  let bs := memRead s.mem pa 64
  match protectedBy s pa with
  | some j =>
    let k := sessionKey s j 1
    if inSecond pa || inHost s pa then xtsEncrypt (k ++ Config.tweakKey k) (alignDown pa 4096) (pa % 4096 / 16) bs else bs
  | none => bs

/-- Page `i` of a snapshot's covered range written to its destination, sealed where CTL asks and the session that it names protects
the page (R432). A protected page that is not sealed so, or a destination in a protected range, is refused to the engine, and
nothing is written (R422); poisoned lines stay poisoned in the copy (notes/assumptions/28.md). -/
def snapOut (s : State) (d i : Nat) : State :=
  let sn := s.snapAt d
  let src := sn.base.toNat + 65536 * i
  let dst := sn.dst.toNat + 65536 * i
  let tag := sn.tag.toNat + 16 * i
  let s := (List.range 1024).foldl (fun s j => if (lookupKey (src / 64 + j) s.side).isSome then sideFill s (src / 64 + j) 0 else s) s
  let bad := (s.poison.filter (fun l => decide (src ≤ 64 * l) && decide (64 * l < src + 65536))).map
    (fun l => dst / 64 + l - src / 64)
  if (protectorIn s dst 65536).isSome then s
  else
    match protectorIn s src 65536 with
    | none => spoilLines (bulkSet s dst 65536 ((bulkRead s src 65536).map (fun c => (dst + c.1, c.2)))) bad
    | some j =>
      if bit sn.ctl 51 && field sn.ctl 52 4 == j && (protectorIn s tag 16).isNone then
        let (ct, t) := gcmSeal (sessionKey s j 4) (bytesOfNat 4 sn.seq.toNat ++ bytesOfNat 8 i) []
          (memRead (bulkRead s src 65536) 0 65536)
        spoilLines (bulkSet (bulkSet s dst 65536 (memWrite [] dst ct)) tag 16 (memWrite [] tag t)) bad
      else s

/-- A byte of a snapshot's bitmap with bit `i` cleared. -/
def snapClear (s : State) (sn : Snap) (i : Nat) : State :=
  let a := sn.map.toNat + i / 8
  let s := rawSettle s (lineOf a)
  let x : Byte := memGet s.mem a
  bulkSet s a 1 [(a, x &&& ~~~ (maskAt 8 (i % 8) 1))]

/-- The count of a signal stepped down, as R379 gives, at the package point. -/
def signalStep (s : State) (a : Nat) : State :=
  let s := rawSettle s (lineOf a)
  let w := natOfBytes (memRead s.mem a 8)
  let w' := w / 2 ^ 48 * 2 ^ 48 + (w + 2 ^ 48 - 1) % 2 ^ 48
  touch (bulkSet s a 8 (memWrite [] a (bytesOfNat 8 w'))) (lineOf a)

/-- Page `i` of the covered range copied to the destination, its bit cleared and counted, its bytes charged (R439); the last one
completes the snapshot and steps its signal (R432). A page of another engine's range that these writes meet is copied
before them. -/
def snapCopyN : Nat → State → Nat → Nat → State
  | 0, s, _, _ => s
  | fuel + 1, s, d, i =>
    let sn := s.snapAt d
    let dst := sn.dst.toNat + 65536 * i
    let map := sn.map.toNat + i / 8
    let tag := sn.tag.toNat + 16 * i
    let first (s : State) (a : Nat) : State := (List.range 4).foldl (fun s e =>
      if e = d then s else match snapPage s e (lineOf a) with
        | some j => snapCopyN fuel s e j
        | none => s) s
    let s := [dst, dst + 65535, map, tag, tag + 15].foldl first s
    let s := snapClear (chargeWork (snapOut s d i) 0 65536) sn i
    let s := s.modSnap d (fun sn => { sn with copied := sn.copied + 1, pages := insertNat i sn.pages })
    if (List.range (snapPages sn)).any (snapLeft (s.snapAt d)) then s
    else
      let s := s.modSnap d (fun sn => { sn with complete := true })
      if sn.sig = 0 then s else signalStep (first s sn.sig.toNat) sn.sig.toNat

/-- A page copied by the snapshot engine of die `d`; there are four engines. -/
def snapCopy (s : State) (d i : Nat) : State := snapCopyN 4 s d i

/-- Every snapshot engine copies the page of a line that is about to be written at the package point (R432). -/
def snapBefore (s : State) (l : Nat) : State :=
  (List.range 4).foldl (fun s d => match snapPage s d l with
    | some i => snapCopy s d i
    | none => s) s

/-- Masked bytes merged into a line at the package point by a step of memory traffic (R432). -/
def pkgMerge (s : State) (l : Nat) (data : BitVec 512) (m : BitVec 64) (tags : BitVec 4) (code : BitVec 2) : State :=
  if m = 0 then s else rawMerge (snapBefore s l) l data m tags code

/-! ### Segments (R133) -/

/-- Does any cache hold pending bytes of a line? -/
def linePending (s : State) (l : Nat) : Bool :=
  s.cores.any (fun k => match lookupKey l k.2.l1 with
    | some x => x.dirty != 0
    | none => false) ||
  s.l2.any (fun d => match lookupKey l d.2 with
    | some x => x.dirty != 0
    | none => false)

/-- The lines that move with the lines of a list, through segments that still move, over `fuel` joins. -/
def tiedWith (s : State) (ls : List Nat) : Nat → List Nat
  | 0 => ls
  | fuel + 1 =>
    match s.ties.find? (fun t => t.any ls.contains && t.any (fun l => !ls.contains l) && t.any (linePending s)) with
    | none => ls
    | some t => tiedWith s (ls ++ t.filter (fun l => !ls.contains l)) fuel

/-- The lines that a step moves together with a line (R133). -/
def tied (s : State) (l : Nat) : List Nat := tiedWith s [l] s.ties.length

/-- The lines of a segment tied, and known to an engine that reads them whole; ties whose bytes have all arrived are
forgotten. -/
def tieLines (s : State) (ls : List Nat) : State :=
  let old := s.ties.filter (fun t => t.any (linePending s))
  if ls.length < 2 then { s with ties := old }
  else
    { s with
      ties := if old.contains ls then old else ls :: old
      segs := if s.segs.contains ls then s.segs else ls :: s.segs }

/-! ### Level two and level one: one line -/

/-- A line of a level two leaves it, its pending bytes at the package point; the copies of other dies are invalidated, theirs
carried out first (R115, R462). -/
def evict2One (s : State) (d l : Nat) : State :=
  match s.l2Line d l with
  | none => s
  | some x =>
    if x.dirty = 0 then s.l2Del d l
    else
      let far := (List.range 4).filter (fun e => e != d)
      let s := far.foldl (fun s e => match s.l2Line e l with
        | none => s
        | some y => (pkgMerge s l y.data y.dirty y.tags y.code).l2Del e l) s
      (pkgMerge s l x.data x.dirty x.tags x.code).l2Del d l

/-- Dirty bytes of a level-one line merged into its die's level two, which records whose they are (R462). -/
def l2Merge (s : State) (d l : Nat) (y : L1Line) : State :=
  if y.dirty = 0 then s
  else
    let (s, x) := match s.l2Line d l with
      | some x => (s, x)
      | none =>
        let s := sideFill s l y.code
        (s, { data := pkgData s l, dirty := 0, tags := pkgTags s l, writers := [], owner := 0, code := 0 })
    s.l2Put d l { data := mergeData x.data y.data y.dirty, dirty := x.dirty ||| y.dirty,
                  tags := mergeTags x.tags y.tags y.dirty, writers := y.writers.foldl (fun acc k => insertNat k acc) x.writers,
                  owner := y.owner, code := y.code }

/-- The core whose level one holds a line used by core `k`: another core's while the cluster is fused (R43, R44). -/
def l1Home (s : State) (k l : Nat) : Nat :=
  match (s.clusterAt (clusterOf k)).fused with
  | none => k
  | some _ => (coresOf (clusterOf k)).getD (l % 4) k

/-- A line of the level one that core `k` uses. -/
def State.l1Line (s : State) (k l : Nat) : Option L1Line := lookupKey l (s.coreAt (l1Home s k l)).l1
/-- A line put into the level one that core `k` uses. -/
def State.l1Put (s : State) (k l : Nat) (x : L1Line) : State :=
  s.modCore (l1Home s k l) (fun c => { c with l1 := insertKey l x c.l1 })
/-- A line removed from the level one that core `k` uses. -/
def State.l1Del (s : State) (k l : Nat) : State :=
  s.modCore (l1Home s k l) (fun c => { c with l1 := eraseKey l c.l1 })

/-- The region of the context on a core, the owner tag of its writes (R442). -/
def ownerOf (s : State) (k : Nat) : Nat :=
  match (s.coreAt k).slot with
  | some sl => (s.ctxAt sl).h.region
  | none => (s.coreAt k).region

/-- The level ones that the snoop keeps coherent with that of core `k` (R115): none of a fused cluster's are apart. -/
def siblings (s : State) (k : Nat) : List Nat :=
  if (s.clusterAt (clusterOf k)).fused.isSome then [] else (coresOf (clusterOf k)).filter (fun j => j != k)

/-- A copy in the level one of core `j` is dropped, its dirty bytes at .die (R462). -/
def carry1 (s : State) (j l : Nat) : State :=
  match lookupKey l (s.coreAt j).l1 with
  | none => s
  | some x => (l2Merge s (dieOf j) l x).modCore j (fun c => { c with l1 := eraseKey l c.l1 })

/-- A line with the bytes that another copy holds dirty and it does not (R462). -/
def withDirty (x y : L1Line) : L1Line :=
  let m := y.dirty &&& ~~~ x.dirty
  { x with data := mergeData x.data y.data m, tags := mergeTags x.tags y.tags m }

/-- The copies of a line in sibling level ones invalidated, their bytes carried to .die and merged under the line's own
(R116, R462): the line that survives. -/
def claimLine (s : State) (k l : Nat) (x : L1Line) : State × L1Line :=
  (siblings s k).foldl (fun (acc : State × L1Line) j => match lookupKey l (s.coreAt j).l1 with
    | none => acc
    | some y => (carry1 acc.1 j l, withDirty acc.2 y)) (s, x)

/-- Propagate(l, S) of one line of the level one that core `k` uses (R116, R462). -/
def propagateOne (s : State) (k l : Nat) (sc : Scope) : State :=
  match s.l1Line k l with
  | none => s
  | some x =>
    if narrower x.scope sc then
      let (s, x) := claimLine s k l x
      match sc with
      | .core => s
      | .clu => s.l1Put k l { x with scope := .clu }
      | .die => (l2Merge s (dieOf k) l x).l1Put k l { x with dirty := 0, writers := [], scope := .die }
      | .pkg | .sys =>
        let far := (List.range 4).filter (fun d => d != dieOf k)
        let s := far.foldl (fun s d => evict2One s d l) s
        let s := evict2One s (dieOf k) l
        let s := pkgMerge s l x.data x.dirty x.tags x.code
        s.l1Put k l { x with dirty := 0, writers := [], scope := sc }
    else s

/-- A line of the level one that core `k` uses leaves it; dirty bytes propagate to .die (R116). -/
def evict1One (s : State) (k l : Nat) : State :=
  match s.l1Line k l with
  | none => s
  | some x => (if x.dirty = 0 then s else propagateOne s k l .die).l1Del k l

/-! ### The steps, with the lines of a segment moved together (R133) -/

/-- Evict2(l) (R116). -/
def evict2 (s : State) (d l : Nat) : State := (tied s l).foldl (fun s l => evict2One s d l) s

/-- Does the Propagate of a line of core `k` move anything (R116)? -/
def propagates (s : State) (k l : Nat) (sc : Scope) : Bool :=
  match s.l1Line k l with
  | some x => narrower x.scope sc
  | none => false

/-- A line moved out to a scope because it is tied to one that moves: by the Propagate of the core's own line, or else by those of
the siblings that hold bytes of it, from whose level ones it leaves (R133, R462). -/
def followOne (s : State) (k l : Nat) (sc : Scope) : State :=
  if propagates s k l sc then propagateOne s k l sc
  else
    let s := ((siblings s k).foldl (fun s j => carry1 s j l) s)
    let s := match s.l1Line k l with
      | some x => (if x.dirty = 0 then s else l2Merge s (dieOf k) l x).l1Del k l
      | none => s
    match sc with
    | .pkg | .sys => evict2One s (dieOf k) l
    | _ => s

/-- Propagate(l, S) (R116). -/
def propagate (s : State) (k l : Nat) (sc : Scope) : State :=
  if propagates s k l sc then
    ((tied s l).filter (fun t => t != l)).foldl (fun s t => followOne s k t sc) (propagateOne s k l sc)
  else s

/-- Evict1(l) (R116). -/
def evict1 (s : State) (k l : Nat) : State := (tied s l).foldl (fun s l => evict1One s k l) s

/-- The sibling copies of a line that the snoop may supply (R116). -/
def snooped (s : State) (k l : Nat) : List L1Line :=
  (siblings s k).filterMap (fun j => (lookupKey l (s.coreAt j).l1).bind (fun x =>
    if scopeRank x.scope = 0 then none else some x))

/-- Fill(k, l) (R116): the line from the narrowest point that holds it, and whether that is the package point. -/
def fillLine (s : State) (k l : Nat) : L1Line × Bool :=
  match snooped s k l with
  | x :: _ => ({ x with dirty := 0, writers := [], scope := .clu }, false)
  | [] =>
    match s.l2Line (dieOf k) l with
    | some x => ({ data := x.data, dirty := 0, tags := x.tags, scope := .die, writers := [], owner := x.owner, code := s.code }, false)
    | none =>
      ({ data := pkgData s l, dirty := 0, tags := pkgTags s l, scope := .pkg, writers := [], owner := 0, code := s.code }, true)

/-- Does a line allocate in level one, and in level two, on a miss under a hint (R60)? -/
def allocates (hint : Nat) : Bool × Bool :=
  if hint = 1 then (false, true) else if hint = 4 then (false, false) else (true, true)

/-- The memory side filled where a fill of core `k` would reach it (R400). -/
def readySide (s : State) (k l : Nat) : State :=
  if (snooped s k l).isEmpty && (s.l2Line (dieOf k) l).isNone then sideFill s l s.code else s

/-- The level one's line, filled if it misses; it is allocated where its hint says (R60). -/
def withFill (s : State) (k l hint : Nat) : State × L1Line :=
  match s.l1Line k l with
  | some x => (s, x)
  | none =>
    let s := readySide s k l
    let (x, far) := fillLine s k l
    let s := if far && (allocates hint).2 then
        s.l2Put (dieOf k) l { data := x.data, dirty := 0, tags := x.tags, writers := [], owner := 0, code := x.code }
      else s
    (if (allocates hint).1 then s.l1Put k l x else s, x)

/-- A store's bytes into the level one: the dirty mask gains them, the scope becomes .core, and a Propagate to the
store's scope follows (PerformStore, R116). A streaming store leaves level one, and one that allocates nowhere level two
(R60). -/
def l1Write (s : State) (k l : Nat) (data : BitVec 512) (m : BitVec 64) (tags : BitVec 4) (sc : Scope) (hint : Nat) : State :=
  let (s, x) := withFill s k l hint
  let s := s.l1Put k l { data := mergeData x.data data m, dirty := x.dirty ||| m, tags := mergeTags x.tags tags m,
                         scope := .core, writers := insertNat k x.writers, owner := ownerOf s k, code := s.code }
  let s := touch (propagate s k l sc) l
  let s := if (allocates hint).1 then s else evict1 s k l
  if (allocates hint).2 then s else evict2 s (dieOf k) l

/-- The core's pending bytes of a line carried to a scope and its level-one copy dropped (R116, R462). -/
def scopedDrop (s : State) (k l : Nat) (sc : Scope) : State :=
  let s := propagate s k l sc
  let s := evict1 s k l
  match sc with
  | .pkg | .sys =>
    match s.l2Line (dieOf k) l with
    | some x => if x.writers.contains k then evict2 s (dieOf k) l else s
    | none => s
  | _ => s

/-- What an AMO of a scope wider than .core meets first (R127): the copies of its line in the level ones of its cluster leave them,
and at a scope wider than .die the copy of its level two, as their evictions may at any time. Bytes that an AMO of a sibling has
brought to a scope stand in a line whose recorded scope a later store of that core may have narrowed. -/
def gatherLine (s : State) (k l : Nat) (sc : Scope) : State :=
  let s := if narrower .core sc then evict1 ((siblings s k).foldl (fun s j => evict1 s j l) s) k l else s
  if narrower .die sc then evict2 s (dieOf k) l else s

/-- The bytes and tags of a line as a load of a scope sees them (PerformLoad, R116). -/
def l1Load (s : State) (k l : Nat) (sc : Scope) (hint : Nat) : State × BitVec 512 × BitVec 4 :=
  match sc with
  | .core | .clu =>
    let (s, x) := withFill s k l hint
    (s, x.data, x.tags)
  | .die =>
    let s := scopedDrop s k l sc
    match s.l2Line (dieOf k) l with
    | some x => (s, x.data, x.tags)
    | none =>
      let s := sideFill s l s.code
      (s, pkgData s l, pkgTags s l)
  | .pkg | .sys =>
    let s := sideFill (scopedDrop s k l sc) l s.code
    (s, pkgData s l, pkgTags s l)

/-! ### Release and acquire (R121) -/

/-- The level ones that core `k` uses: all four of a fused cluster. -/
def homesOf (s : State) (k : Nat) : List Nat :=
  if (s.clusterAt (clusterOf k)).fused.isSome then coresOf (clusterOf k) else [k]

/-- The Propagate steps of a release of a core's lines at a scope. -/
def release (s : State) (k : Nat) (sc : Scope) : State :=
  let lines := ((homesOf s k).map (fun j => (s.coreAt j).l1.filterMap
    (fun p => if narrower p.2.scope sc then some p.1 else none))).flatten
  let s := lines.foldl (fun s l => propagate s k l sc) s
  match sc with
  | .pkg | .sys =>
    let pend := (s.l2Of (dieOf k)).filterMap
      (fun p => if p.2.writers.contains k && p.2.dirty != 0 then some p.1 else none)
    pend.foldl (fun s l => evict2 s (dieOf k) l) s
  | _ => s

/-- An acquire of a core at a scope: at .die and wider every line of its level one is carried out and dropped. -/
def acquire (s : State) (k : Nat) (sc : Scope) : State :=
  match sc with
  | .core | .clu => s
  | _ =>
    let homes := homesOf s k
    let lines := (homes.map (fun j => (s.coreAt j).l1.map (·.1))).flatten
    let s := lines.foldl (fun s l => propagate s k l sc) s
    homes.foldl (fun s j => s.modCore j (fun c => { c with l1 := [] })) s

/-- Every dirty byte of `[lo, lo + n)` in every cache carried to the package point, and the copies dropped (R135, R431). -/
def flushRange (s : State) (lo n : Nat) : State :=
  let hit (l : Nat) : Bool := decide (lo ≤ 64 * l + 63) && decide (64 * l < lo + n)
  let s := s.cores.foldl (fun (s : State) k =>
    ((k.2.l1.map (·.1)).filter hit).foldl (fun s l => (tied s l).foldl (fun s l => carry1 s k.1 l) s) s) s
  s.l2.foldl (fun (s : State) d => ((((s.l2Of d.1).map (·.1)).filter hit)).foldl (fun s l => evict2 s d.1 l) s) s

/-- Does a line lie outside a range? -/
def lineOutside (lo n l : Nat) : Bool := decide (64 * l + 63 < lo) || decide (lo + n ≤ 64 * l)

/-- Every page of a range that a snapshot has still to copy is copied first (R432). -/
def snapRange (s : State) (lo n : Nat) : State :=
  (List.range 4).foldl (fun s d =>
    let sn := s.snapAt d
    ((List.range (snapPages sn)).filter (fun i =>
      decide (sn.base.toNat + 65536 * i < lo + n) && decide (lo < sn.base.toNat + 65536 * (i + 1)))).foldl
      (fun s i => if snapLeft (s.snapAt d) i then snapCopy s d i else s) s) s

/-- Bytes replaced as a whole by the part: what a snapshot has still to copy is copied, and no cache keeps a copy. -/
def bulkStore (s : State) (lo n : Nat) (bs : Bytes) : State :=
  if n = 0 then s else bulkSet (flushRange (snapRange s lo n) lo n) lo n bs

/-- The tags inside `[lo, lo + n)`, counted from `lo`. -/
def tagSlice (t : List Nat) (lo n : Nat) : List Nat :=
  (t.filter (fun g => decide (lo ≤ 16 * g) && decide (16 * g < lo + n))).map (fun g => g - lo / 16)
/-- Bytes, tags and poison of a range copied elsewhere, read through an interleave code and written through another (R400). -/
def copyBulk (s : State) (src dst n : Nat) (code dcode : BitVec 2) : State :=
  let near (l : Nat) : Bool := !lineOutside src n l
  let s := ((s.side.map (·.1)).filter near).foldl (fun s l => sideFill s l code) s
  let tags := tagSlice s.tags src n
  let now := bulkRead s src n
  let bad := (s.poison.filter near).map (fun l => dst / 64 + l - src / 64)
  let s := spoilLines (bulkStore s dst n (now.map (fun x => (dst + x.1, x.2)))) bad
  let s := { s with tags := tags.foldl (fun t g => insertNat (dst / 16 + g) t) s.tags }
  if dcode = 0 then s else (List.range (n / 64)).foldl (fun s i => sideMark s (dst / 64 + i) dcode) s

/-- The bytes of a value that are not zero, at an address. -/
def sparseBytes (a n v : Nat) : Bytes :=
  if v = 0 then []
  else (List.range n).filterMap (fun i =>
    let b : Byte := BitVec.ofNat 8 (v / 256 ^ i)
    if b = 0 then none else some (a + i, b))

/-- Does a range lie wholly in HBM4E, in second-tier memory or in host memory? -/
def inOneMemory (s : State) (b n : Nat) : Bool :=
  (inHbm s b && inHbm s (b + n - 1)) || (inSecond b && inSecond (b + n - 1)) || (inHost s b && inHost s (b + n - 1))

/-- How many of the bytes from an address belong to the RSTATE word that it lies in: none elsewhere (R314). -/
def rstateHead (s : State) (pa : Nat) : Nat := if isRstate s pa then 8 - pa % 8 else 0

/-- The granule tags of a store without that of the granule in which a record's RSTATE word stands: its bytes are not those of
the capability stored (notes/assumptions/66.md). -/
def untagFirst (pa : Nat) (tags : BitVec 4) : BitVec 4 := tags &&& ~~~ (maskAt 4 (pa % 64 / 16) 1)

/-- A write of bytes of an RSTATE word (R314): only while state reads IDLE, and never of state and inq; its granule's tag clears
(R76), and a snapshot's page is copied before it (R432). -/
def rstateStore (s : State) (pa : Nat) (bs : List Byte) : State :=
  let base := pa / 8 * 8
  if (s.recAt base).state = 0 then
    let s := sideMark (sideFill (snapBefore s (lineOf pa)) (lineOf pa) 0) (lineOf pa) 0
    let m := memWrite s.mem pa bs
    let w : Word := setField (setField (wordOfBytes (memRead m base 8)) 0 3 0) 5 1 0
    touch { s with mem := memWrite s.mem base (wordBytes 8 w), tags := eraseNat (base / 16) s.tags } (lineOf pa)
  else s

/-- A write of bytes outside every RSTATE word at the package point through an interleave code, or to a scratchpad or pewter
slice: every level two's copy is carried out and dropped (R137). A whole line clears its poison (R443). -/
def lineStore (s : State) (pa : Nat) (bs : List Byte) (tags : BitVec 4) (code : BitVec 2) : State :=
  let l := lineOf pa
  let m := byteMask (pa % 64) bs.length
  if inMemory s pa then
    let s := (List.range 4).foldl (fun s d => evict2 s d l) s
    touch (pkgMerge s l (BitVec.ofNat 512 (natOfBytes bs <<< (8 * (pa % 64)))) m tags code) l
  else
    touch { s with mem := memWrite s.mem pa bs,
                   tags := (List.range 4).foldl (fun acc g =>
                     if (granulesOf m).getLsbD g then
                       (if tags.getLsbD g then insertNat (4 * l + g) acc else eraseNat (4 * l + g) acc)
                     else acc) s.tags,
                   poison := if m = BitVec.allOnes 64 then eraseNat l s.poison else s.poison } l

/-- A write of bytes of one line to memory at the package point, through an interleave code, by an agent without caches: the
host, an engine, a front end. RSTATE words keep their rules (R314). -/
def codeStore (s : State) (code : BitVec 2) (pa : Nat) (bs : List Byte) (tags : BitVec 4) : State :=
  let h := rstateHead s pa
  if h = 0 then lineStore s pa bs tags code
  else
    let s := rstateStore s pa (bs.take h)
    if bs.length ≤ h then s else lineStore s (pa + h) (bs.drop h) (untagFirst pa tags) code

/-- A write by physical address, which goes through no leaf and so through code 00 (notes/assumptions/68.md). -/
def pkgStore (s : State) (pa : Nat) (bs : List Byte) (tags : BitVec 4) : State := codeStore s 0 pa bs tags

/-- The bytes of an RSTATE word from an address (R314). -/
def rstateLoad (s : State) (pa n : Nat) : List Byte := ((wordBytes 8 (rstateWord s (pa / 8 * 8))).drop (pa % 8)).take n

/-- A byte as a fill through a code would deliver it (R400). -/
def sideByte (s : State) (code : BitVec 2) (a : Nat) : Byte :=
  let x := s.sideAt (lineOf a)
  if x.held || !inHbm s a then memGet s.mem a
  else (x.locOf code).1.extractLsb' (8 * (a % 64)) 8

/-- The tags of a line as a fill through a code would deliver them. -/
def sideTags (s : State) (code : BitVec 2) (l : Nat) : BitVec 4 :=
  let x := s.sideAt l
  if x.held || !inHbm s (64 * l) then pkgTags s l else (x.locOf code).2

/-- A read of bytes outside every RSTATE word at the package point through an interleave code, or of a scratchpad or pewter
slice. -/
def sideRead (s : State) (code : BitVec 2) (pa n : Nat) : List Byte :=
  if s.side.isEmpty then memRead s.mem pa n else (List.range n).map (fun i => sideByte s code (pa + i))

/-- A read of bytes at the package point through an interleave code. -/
def codeLoad (s : State) (code : BitVec 2) (pa n : Nat) : List Byte :=
  let h := min n (rstateHead s pa)
  (if h = 0 then [] else rstateLoad s pa h) ++ sideRead s code (pa + h) (n - h)

/-- A read by physical address, through code 00. -/
def pkgLoad (s : State) (pa n : Nat) : List Byte := codeLoad s 0 pa n

/-- An 8-byte word at the package point. -/
def pkgWord (s : State) (pa : Nat) : Word := wordOfBytes (pkgLoad s pa 8)

/-- A word written at the package point with its granule's tag cleared. -/
def pkgPut (s : State) (pa : Nat) (w : Word) : State := pkgStore s pa (wordBytes 8 w) 0

/-- Pieces of an access of `n` bytes at `pa`, one for each line: address and length. -/
def pieces (pa n : Nat) : Nat → List (Nat × Nat)
  | 0 => []
  | fuel + 1 =>
    if n = 0 then []
    else
      let k := min n (64 - pa % 64)
      (pa, k) :: pieces (pa + k) (n - k) fuel

/-- Bytes written at the package point across lines. -/
def pkgStoreAll (s : State) (pa : Nat) (bs : List Byte) : State :=
  ((pieces pa bs.length (bs.length / 64 + 2)).foldl
    (fun (acc : State × List Byte) p => (pkgStore acc.1 p.1 (acc.2.take p.2) 0, acc.2.drop p.2)) (s, bs)).1

end Sys2Proof.Machine
end

