-- ==== Sys2Proof/Machine/Budgets.lean ====
section
/-! DEFINITION. The budgets of background work (R438 to R440). -/

namespace Sys2Proof.Machine

/-- May a unit of an activity's own work run (R439)? -/
def workReady (s : State) (a : Fin 6) : Bool :=
  decide (s.budgets[a].used < s.budgets[a].limit) && s.budgets[a].debt == 0

/-- The bytes of an activity served to a region in the period. -/
def servedTo (b : Budget) (r : Nat) : Nat := (lookupKey r b.served).getD 0

/-- Bytes charged to activity `a` for a region's work. -/
def chargeFor (s : State) (a : Fin 6) (r n : Nat) : State :=
  let s := chargeWork s a n
  let b := s.budgets[a]
  { s with budgets := s.budgets.set a { b with served := insertKey r (servedTo b r + n) b.served } }

/-- May a region with a unit of work pending be served, by the pending regions with their shares (R440)? It may while its own
part of the limit is not used up; of what the parts of the others leave, the lowest region is served. -/
def shareAllows (b : Budget) (pending : List (Nat × Nat)) (r : Nat) : Bool :=
  let total := (pending.map (·.2)).sum
  let part (p : Nat × Nat) : Nat := b.limit.toNat * p.2 / total - servedTo b p.1
  let own := (pending.filter (fun p => p.1 == r)).map part
  own.any (0 < ·) ||
    (decide (b.used.toNat + ((pending.filter (fun p => p.1 != r)).map part).sum < b.limit.toNat) &&
      pending.all (fun p => decide (r ≤ p.1)))

end Sys2Proof.Machine
end

