-- ==== Sys2Proof/Decode.lean ====
section
/-! DEFINITION. Decoding of instruction words, total and refusing by none, and the encoder from the same tables: Nymzin
(R49 to R66 and the encoding table of each family), the roustabout extension (R71), RV64IMAC (R259), Lysyo (R385). -/

namespace Sys2Proof

open Sys2Proof.Machine

/-! ### The fields of a Nymzin instruction (R51, R53, R54, R56) -/

/-- All the fields of one instruction, words 1 and 2 and the literal zero where the form has none. -/
structure Fields where
  form : Form
  func : BitVec 6
  b : BitVec 6
  a : BitVec 6
  d : BitVec 6
  major : BitVec 6
  e : BitVec 6
  c : BitVec 6
  ng2 : BitVec 1
  pg2 : BitVec 4
  ng1 : BitVec 1
  pg1 : BitVec 4
  hint : BitVec 3
  scope : BitVec 3
  first : BitVec 1
  last : BitVec 1
  r : BitVec 2
  ty : BitVec 5
  rm : BitVec 3
  sat : BitVec 1
  wid : BitVec 2
  imm : BitVec 21
  lit : BitVec 64
  deriving DecidableEq, Repr

/-- The len field of the first word (R49). -/
def formOfLen (l : BitVec 2) : Form :=
  match l with
  | 0 => .base
  | 1 => .ext
  | 2 => .lit
  | _ => .extLit

/-- The len code of a form (R49). -/
def lenOfForm : Form → BitVec 2
  | .base => 0
  | .ext => 1
  | .lit => 2
  | .extLit => 3

/-- Words of an instruction of a form (R49). -/
def formWords : Form → Nat
  | .base => 1
  | .ext => 3
  | .lit => 3
  | .extLit => 5

/-- Length in bytes of an instruction whose first word is `w` (R49). -/
def instrLength (w : Word32) : Nat := 4 * formWords (formOfLen (w.extractLsb' 0 2))

/-- Word 0 of the fields (R51). -/
def Fields.word0 (f : Fields) : Word32 := f.func ++ f.b ++ f.a ++ f.d ++ f.major ++ lenOfForm f.form
/-- Word 1 of the fields (R53). -/
def Fields.word1 (f : Fields) : Word32 :=
  f.e ++ f.c ++ f.ng2 ++ f.pg2 ++ f.ng1 ++ f.pg1 ++ f.hint ++ f.scope ++ f.first ++ f.last ++ f.r
/-- Word 2 of the fields (R54). -/
def Fields.word2 (f : Fields) : Word32 := f.ty ++ f.rm ++ f.sat ++ f.wid ++ f.imm

/-- The words of the fields, in address order (R49, R56). -/
def Fields.words (f : Fields) : List Word32 :=
  let lits := [f.lit.extractLsb' 0 32, f.lit.extractLsb' 32 32]
  match f.form with
  | .base => [f.word0]
  | .ext => [f.word0, f.word1, f.word2]
  | .lit => f.word0 :: lits
  | .extLit => f.word0 :: f.word1 :: f.word2 :: lits

/-- The fields read from words 0, 1 and 2 and the literal. -/
def Fields.read (w0 w1 w2 : Word32) (lit : Word) : Fields where
  form := formOfLen (w0.extractLsb' 0 2)
  func := w0.extractLsb' 26 6
  b := w0.extractLsb' 20 6
  a := w0.extractLsb' 14 6
  d := w0.extractLsb' 8 6
  major := w0.extractLsb' 2 6
  e := w1.extractLsb' 26 6
  c := w1.extractLsb' 20 6
  ng2 := w1.extractLsb' 19 1
  pg2 := w1.extractLsb' 15 4
  ng1 := w1.extractLsb' 14 1
  pg1 := w1.extractLsb' 10 4
  hint := w1.extractLsb' 7 3
  scope := w1.extractLsb' 4 3
  first := w1.extractLsb' 3 1
  last := w1.extractLsb' 2 1
  r := w1.extractLsb' 0 2
  ty := w2.extractLsb' 27 5
  rm := w2.extractLsb' 24 3
  sat := w2.extractLsb' 23 1
  wid := w2.extractLsb' 21 2
  imm := w2.extractLsb' 0 21
  lit := lit

/-- The fields of the instruction at the head of a list of words; none if words are missing. -/
def Fields.ofWords (ws : List Word32) : Option Fields :=
  match ws with
  | [] => none
  | w0 :: rest =>
    match formOfLen (w0.extractLsb' 0 2), rest with
    | .base, _ => some (Fields.read w0 0 0 0)
    | .ext, w1 :: w2 :: _ => some (Fields.read w0 w1 w2 0)
    | .lit, l0 :: l1 :: _ => some (Fields.read w0 0 0 (l1 ++ l0))
    | .extLit, w1 :: w2 :: l0 :: l1 :: _ => some (Fields.read w0 w1 w2 (l1 ++ l0))
    | _, _ => none

/-! ### Codes -/

/-- A Bool from a one-bit field. -/
def bitOf (x : BitVec 1) : Bool := x == 1#1
/-- A one-bit field from a Bool. -/
def ofBit (x : Bool) : BitVec 1 := if x then 1#1 else 0#1

/-- The type codes of R62. -/
def Ty.ofCode (c : BitVec 5) : Option Ty :=
  match c.toNat with
  | 0 => some .i64 | 1 => some .i32 | 2 => some .i16 | 3 => some .i8 | 4 => some .i4
  | 5 => some .z64 | 6 => some .z32 | 7 => some .z16 | 8 => some .z8 | 9 => some .f32
  | 10 => some .bf16 | 11 => some .f16 | 12 => some .e4m3 | 13 => some .e5m2 | 14 => some .fjt8
  | 15 => some .e2m1 | 16 => some .e8m0 | 17 => some .s8f
  | _ => none

/-- The code of a type (R62). -/
def Ty.code : Ty → BitVec 5
  | .i64 => 0 | .i32 => 1 | .i16 => 2 | .i8 => 3 | .i4 => 4 | .z64 => 5 | .z32 => 6 | .z16 => 7 | .z8 => 8
  | .f32 => 9 | .bf16 => 10 | .f16 => 11 | .e4m3 => 12 | .e5m2 => 13 | .fjt8 => 14 | .e2m1 => 15 | .e8m0 => 16
  | .s8f => 17

/-- Width of an element of a type in bits (R62, R174). -/
def Ty.width : Ty → Nat
  | .i64 => 64 | .i32 => 32 | .i16 => 16 | .i8 => 8 | .i4 => 4 | .z64 => 64 | .z32 => 32 | .z16 => 16 | .z8 => 8
  | .f32 => 32 | .bf16 => 16 | .f16 => 16 | .e4m3 => 8 | .e5m2 => 8 | .fjt8 => 8 | .e2m1 => 4 | .e8m0 => 8
  | .s8f => 8

/-- The signed integer types (R220). -/
def Ty.signed : Ty → Bool
  | .i64 | .i32 | .i16 | .i8 | .i4 => true
  | _ => false

/-- The integer types of SALU (R144), of VIALU (R194) without .i4. -/
def Ty.isInt8to64 : Ty → Bool
  | .i64 | .i32 | .i16 | .i8 | .z64 | .z32 | .z16 | .z8 => true
  | _ => false

/-- All integer types (R220). -/
def Ty.isInt : Ty → Bool
  | .i64 | .i32 | .i16 | .i8 | .i4 | .z64 | .z32 | .z16 | .z8 => true
  | _ => false

/-- The types of VFALU without widening (R195). -/
def Ty.isFp : Ty → Bool
  | .f32 | .bf16 | .f16 => true
  | _ => false

/-- The two scale types (R221, R222). -/
def Ty.isScale : Ty → Bool
  | .e8m0 | .s8f => true
  | _ => false

/-- The types of AMO (R125). -/
def Ty.isAmo : Ty → Bool
  | .i32 | .i64 | .z32 | .z64 => true
  | _ => false

/-- Element types of an MX block of a kind (R223). -/
def Ty.isMxOf (fine : Bool) (t : Ty) : Bool :=
  match fine, t with
  | false, .e4m3 | false, .e5m2 | false, .e2m1 | false, .i8 => true
  | true, .e2m1 | true, .e4m3 | true, .e5m2 => true
  | _, _ => false

/-- Tile and A-row types (R233). -/
def Ty.isTile : Ty → Bool
  | .e4m3 | .e5m2 | .fjt8 | .i8 | .e2m1 | .i4 | .bf16 | .f16 => true
  | _ => false

/-- Destination types of MDRAIN (R253). -/
def Ty.isDrain : Ty → Bool
  | .f32 | .bf16 | .f16 | .e4m3 | .e5m2 | .fjt8 | .e2m1 | .i32 | .i16 | .i8 | .i4 => true
  | _ => false

/-- May `t` widen by code `wid` in an integer instruction that accepts codes up to `maxw` (R64, R194)? -/
def Ty.widInt (maxw : Nat) (wid : BitVec 2) (t : Ty) : Bool :=
  t.isInt8to64 && decide (wid.toNat ≤ maxw) && decide (t.width * 2 ^ wid.toNat ≤ 64)

/-- The source types and widening codes of the floating-point families (R64, R195). -/
def Ty.widFp (wid : BitVec 2) (t : Ty) : Bool :=
  match wid.toNat, t with
  | 0, .f32 | 0, .bf16 | 0, .f16 => true
  | 1, .bf16 | 1, .f16 => true
  | 2, .e4m3 | 2, .e5m2 | 2, .fjt8 => true
  | 3, .e2m1 => true
  | _, _ => false

/-- The type and widening code that a reduction of a kind accepts (R202). -/
def RedKind.accepts (k : RedKind) (t : Ty) (wid : BitVec 2) : Bool :=
  match k with
  | .add => t.widInt 2 wid
  | .fadd => t.widFp wid
  | .fmin | .fmax => t.isFp && wid == 0
  | .min | .max | .and | .or | .xor => t.isInt8to64 && wid == 0

/-- Does a reduction kind round (R202)? -/
def RedKind.rounds : RedKind → Bool
  | .fadd => true
  | _ => false

/-- Does a reduction kind accept .sat (R202)? -/
def RedKind.sats : RedKind → Bool
  | .add | .fadd => true
  | _ => false

/-- The type pairs of VCVT (R229), destination first. -/
def cvtPair (dt st : Ty) : Bool :=
  if dt.isScale then st == .f32
  else if st.isScale then dt == .f32
  else dt != st

/-- Scope codes (R61). -/
def ScopeQ.ofCode (c : BitVec 3) : Option ScopeQ :=
  match c.toNat with
  | 0 => some .dflt | 1 => some .core | 2 => some .clu | 3 => some .die | 4 => some .pkg | 5 => some .sys
  | _ => none

/-- The code of a scope (R61). -/
def ScopeQ.code : ScopeQ → BitVec 3
  | .dflt => 0 | .core => 1 | .clu => 2 | .die => 3 | .pkg => 4 | .sys => 5

/-- Rounding codes (R63). -/
def Rm.ofCode (c : BitVec 3) : Option Rm :=
  match c.toNat with
  | 0 => some .rn | 1 => some .rz | 2 => some .rp | 3 => some .rm | 4 => some .sr
  | _ => none

/-- The code of a rounding mode (R63). -/
def Rm.code : Rm → BitVec 3
  | .rn => 0 | .rz => 1 | .rp => 2 | .rm => 3 | .sr => 4

/-- Condition codes (R65). -/
def Cond.ofCode (c : BitVec 6) : Option Cond :=
  match c.toNat with
  | 0 => some .eq | 1 => some .ne | 2 => some .lt | 3 => some .le | 4 => some .gt | 5 => some .ge
  | _ => none

/-- The code of a condition. -/
def Cond.code : Cond → BitVec 6
  | .eq => 0 | .ne => 1 | .lt => 2 | .le => 3 | .gt => 4 | .ge => 5

/-- VFCMP condition codes (R65). -/
def FCond.ofCode (c : BitVec 6) : Option FCond :=
  match c.toNat with
  | 0 => some .eq | 1 => some .ne | 2 => some .lt | 3 => some .le | 4 => some .gt | 5 => some .ge
  | 6 => some .un | 7 => some .ord
  | _ => none

/-- The code of a VFCMP condition. -/
def FCond.code : FCond → BitVec 6
  | .eq => 0 | .ne => 1 | .lt => 2 | .le => 3 | .gt => 4 | .ge => 5 | .un => 6 | .ord => 7

/-- AMO kind codes (R125). -/
def AmoKind.ofCode (c : BitVec 6) : Option AmoKind :=
  match c.toNat with
  | 0 => some .swap | 1 => some .add | 2 => some .and | 3 => some .or | 4 => some .xor | 5 => some .min
  | 6 => some .max | 7 => some .cas
  | _ => none

/-- The code of an AMO kind. -/
def AmoKind.code : AmoKind → BitVec 6
  | .swap => 0 | .add => 1 | .and => 2 | .or => 3 | .xor => 4 | .min => 5 | .max => 6 | .cas => 7

/-- Reduction kind codes (R202). -/
def RedKind.ofCode (c : BitVec 6) : Option RedKind :=
  match c.toNat with
  | 0 => some .add | 1 => some .fadd | 2 => some .min | 3 => some .max | 4 => some .fmin | 5 => some .fmax
  | 6 => some .and | 7 => some .or | 8 => some .xor
  | _ => none

/-- The code of a reduction kind. -/
def RedKind.code : RedKind → BitVec 6
  | .add => 0 | .fadd => 1 | .min => 2 | .max => 3 | .fmin => 4 | .fmax => 5 | .and => 6 | .or => 7 | .xor => 8

/-- CGET kinds (R78). -/
def CgetKind.ofCode (c : BitVec 21) : Option CgetKind :=
  match c.toNat with
  | 0 => some .cursor | 1 => some .base | 2 => some .top | 3 => some .len | 4 => some .perm | 5 => some .otype
  | 6 => some .tag | 7 => some .exp
  | _ => none

/-- The code of a CGET kind. -/
def CgetKind.code : CgetKind → BitVec 21
  | .cursor => 0 | .base => 1 | .top => 2 | .len => 3 | .perm => 4 | .otype => 5 | .tag => 6 | .exp => 7

/-- TFENCE kinds (R402). -/
def TfKind.ofCode (c : BitVec 21) : Option TfKind :=
  match c.toNat with
  | 0 => some .all | 1 => some .root | 2 => some .page | 3 => some .rpage | 4 => some .part | 6 => some .gpage
  | _ => none

/-- The code of a TFENCE kind. -/
def TfKind.code : TfKind → BitVec 21
  | .all => 0 | .root => 1 | .page => 2 | .rpage => 3 | .part => 4 | .gpage => 6

/-- Does the kind read operand a (R402)? -/
def TfKind.usesA : TfKind → Bool
  | .root | .rpage | .part | .gpage => true
  | .all | .page => false

/-- Does the kind read operand b (R402)? -/
def TfKind.usesB : TfKind → Bool
  | .page | .rpage | .gpage => true
  | .all | .root | .part => false

/-- Tile kinds (R240). -/
def MxKind.ofCode (c : BitVec 6) : Option MxKind :=
  match c.toNat with
  | 0 => some .none | 1 => some .mx | 2 => some .fine
  | _ => Option.none

/-- The code of a tile kind. -/
def MxKind.code : MxKind → BitVec 6
  | .none => 0 | .mx => 1 | .fine => 2

/-- May elements of type `t` be blocks of the kind (R223, R234)? -/
def MxKind.allows : MxKind → Ty → Bool
  | .none, _ => true
  | .mx, t => t.isMxOf false
  | .fine, t => t.isMxOf true

/-- Scale codes of MROW (R240). -/
def ScaleCode.ofCode (c : BitVec 6) : Option ScaleCode :=
  match c.toNat with
  | 0 => some .none | 1 => some .mx | 2 => some .fine | 3 => some .mxs | 4 => some .fines
  | _ => Option.none

/-- The code of a scale code. -/
def ScaleCode.code : ScaleCode → BitVec 6
  | .none => 0 | .mx => 1 | .fine => 2 | .mxs => 3 | .fines => 4

/-- The block kind of a scale code (R240). -/
def ScaleCode.kind : ScaleCode → MxKind
  | .none => .none
  | .mx | .mxs => .mx
  | .fine | .fines => .fine

/-- Does the scale code name a vS operand (R240)? -/
def ScaleCode.usesVs : ScaleCode → Bool
  | .mx | .fine => true
  | .none | .mxs | .fines => false

/-- Chain-vector codes (R240). -/
def ChainVec.ofCode (c : BitVec 6) : Option ChainVec :=
  match c.toNat with
  | 0 => some .act | 1 => some .bias | 2 => some .scale
  | _ => none

/-- The code of a chain vector. -/
def ChainVec.code : ChainVec → BitVec 6
  | .act => 0 | .bias => 1 | .scale => 2

/-- Ports that EPOP accepts (R264). -/
def popPort (p : Nat) : Bool := p ≤ 2 || (4 ≤ p && p ≤ 11) || p == 16 || p == 17
/-- Ports that EQSTAT accepts (R264). -/
def statPort (p : Nat) : Bool := popPort p || p == 18 || p == 63

/-- A 6-bit field as a v register (R58). -/
def vReg? (x : BitVec 6) : Option VReg := if h : x.toNat < 32 then some ⟨x.toNat, h⟩ else none
/-- A 6-bit field as a p register (R58). -/
def pReg? (x : BitVec 6) : Option PReg := if h : x.toNat < 16 then some ⟨x.toNat, h⟩ else none
/-- A 6-bit field as a c register (R58). -/
def cReg? (x : BitVec 6) : Option CReg := if h : x.toNat < 16 then some ⟨x.toNat, h⟩ else none
/-- A 6-bit field as an accumulator row (R58). -/
def aReg? (x : BitVec 6) : Option AReg := if h : x.toNat < 8 then some ⟨x.toNat, h⟩ else none
/-- A 6-bit field as a g register (R58). -/
def gReg (x : BitVec 6) : GReg := x.toFin
/-- The 6-bit field of a register number. -/
def regField {n : Nat} (x : Fin n) : BitVec 6 := BitVec.ofNat 6 x.val

/-! ### Checks shared by the decoders -/

/-- Which fields an instruction uses: every other field must be zero (R58, R60 to R64, R66). -/
structure Uses where
  a : Bool := true
  b : Bool := true
  d : Bool := true
  func : Bool := true
  e : Bool := false
  c : Bool := false
  hint : Bool := false
  scope : Bool := false
  ty : Bool := false
  rm : Bool := false
  sat : Bool := false
  wid : Bool := false
  imm : Bool := false

/-- Is every unused field zero (R66)? -/
def Fields.clear (f : Fields) (u : Uses) : Bool :=
  (u.a || f.a == 0) && (u.b || f.b == 0) && (u.d || f.d == 0) && (u.func || f.func == 0) &&
  (u.e || f.e == 0) && (u.c || f.c == 0) && (u.hint || f.hint == 0) && (u.scope || f.scope == 0) &&
  (u.ty || f.ty == 0) && (u.rm || f.rm == 0) && (u.sat || f.sat == 0) && (u.wid || f.wid == 0) &&
  (u.imm || f.imm == 0) && f.r == 0

/-- The form, guards and carousel flags. -/
def Fields.mods (f : Fields) : Mods where
  form := f.form
  pg1 := f.pg1.toFin
  ng1 := bitOf f.ng1
  pg2 := f.pg2.toFin
  ng2 := bitOf f.ng2
  first := bitOf f.first
  last := bitOf f.last

/-- Forms without a literal. -/
def Form.plain : Form → Bool
  | .base | .ext => true
  | .lit | .extLit => false
/-- Forms with a literal. -/
def Form.hasLit : Form → Bool
  | .lit | .extLit => true
  | .base | .ext => false
/-- Forms with words 1 and 2. -/
def Form.isExt : Form → Bool
  | .ext | .extLit => true
  | .base | .lit => false

/-- The literal where the form has one (R56). -/
def Fields.literal (f : Fields) : Option Word := if f.form.hasLit then some f.lit else none

/-- Is operand b zero where a literal replaces it (R56)? -/
def Fields.litB (f : Fields) : Bool := !f.form.hasLit || f.b == 0

/-- The zeroing form (R55): fx 0 or 1, or none. -/
def Fields.zf (f : Fields) : Option Bool :=
  if f.e == 0 then some false else if f.e == 1 then some true else none

/-! ### The decoders of the majors -/

/-- SALU, major 1 (R144). -/
def decodeSalu (f : Fields) : Option Instr := do
  let t ← Ty.ofCode f.ty
  guard t.isInt8to64
  let x : SaluArgs := { m := f.mods, ty := t, sat := bitOf f.sat, d := gReg f.d, a := gReg f.a, b := gReg f.b,
                        lit := f.literal }
  let un : SaluUnArgs := { m := f.mods, ty := t, d := gReg f.d, a := gReg f.a }
  let two : Bool := f.clear { ty := true } && f.litB
  let twoSat : Bool := f.clear { ty := true, sat := true } && f.litB
  let one : Bool := f.clear { ty := true, b := false } && f.form.plain
  match f.func.toNat with
  | 0 => if twoSat then some (.add x) else none
  | 1 => if twoSat then some (.sub x) else none
  | 2 => if twoSat then some (.mul x) else none
  | 3 => if two then some (.mulh x) else none
  | 4 => if twoSat then some (.div x) else none
  | 5 => if two then some (.rem x) else none
  | 6 => if two then some (.and x) else none
  | 7 => if two then some (.or x) else none
  | 8 => if two then some (.xor x) else none
  | 9 => if two then some (.andn x) else none
  | 10 => if twoSat then some (.shl x) else none
  | 11 => if two then some (.shr x) else none
  | 12 => if two then some (.sar x) else none
  | 13 => if two then some (.rot x) else none
  | 14 => if two then some (.min x) else none
  | 15 => if two then some (.max x) else none
  | 16 => if one then some (.clz un) else none
  | 17 => if one then some (.ctz un) else none
  | 18 => if one then some (.popc un) else none
  | 19 => if two then some (.bext x) else none
  | 20 => if two then some (.bdep x) else none
  | 21 =>
    if f.form.isExt && f.litB && f.clear { ty := true, c := true } then
      some (.sel { m := f.mods, ty := t, d := gReg f.d, a := gReg f.a, b := gReg f.b, c := gReg f.c, lit := f.literal })
    else none
  | _ => none

/-- ADDI, major 2 (R52, R149). -/
def decodeAddi (f : Fields) : Option Instr := do
  let t ← Ty.ofCode f.ty
  guard t.isInt8to64
  guard f.form.plain
  let mk (i : Imm) : Instr := .addi { m := f.mods, ty := t, sat := bitOf f.sat, d := gReg f.d, a := gReg f.a, imm := i }
  if f.form == .base then some (mk ((f.func ++ f.b).signExtend 21))
  else
    guard (f.clear { func := false, b := false, ty := true, sat := true, imm := true })
    some (mk f.imm)

/-- CMP, major 3 (R151). -/
def decodeCmp (f : Fields) : Option Instr := do
  let t ← Ty.ofCode f.ty
  guard t.isInt8to64
  let cond ← Cond.ofCode f.func
  guard (f.clear { ty := true } && f.litB)
  some (.cmp { m := f.mods, cond := cond, ty := t, d := gReg f.d, a := gReg f.a, b := gReg f.b, lit := f.literal })

/-- LI, major 4 (R52, R56, R150). -/
def decodeLi (f : Fields) : Option Instr := do
  let mk (i : Imm) : Instr := .li { m := f.mods, d := gReg f.d, imm := i, lit := f.literal }
  match f.form with
  | .base => some (mk ((f.func ++ f.b ++ f.a).signExtend 21))
  | .ext => if f.clear { func := false, b := false, a := false, imm := true } then some (mk f.imm) else none
  | .lit | .extLit => if f.clear { func := false, b := false, a := false } then some (mk 0) else none

/-- B and CALL, majors 5 and 7 (R52, R152). -/
def decodeB (f : Fields) : Option BArgs :=
  match f.form with
  | .base => some { m := f.mods, off := f.func ++ f.b ++ f.a ++ f.d }
  | .ext =>
    if f.clear { func := false, b := false, a := false, d := false, imm := true } then
      some { m := f.mods, off := f.imm.signExtend 24 } else none
  | .lit | .extLit => none

/-- BC, major 6 (R52, R152). -/
def decodeBc (f : Fields) : Option Instr := do
  let cond ← Cond.ofCode f.func
  let mk (i : Imm) : Instr := .bc { m := f.mods, cond := cond, a := gReg f.a, off := i }
  match f.form with
  | .base => some (mk ((f.b ++ f.d).signExtend 21))
  | .ext => if f.clear { b := false, d := false, imm := true } then some (mk f.imm) else none
  | .lit | .extLit => none

/-- CTL, major 8 (R109, R152). -/
def decodeCtl (f : Fields) : Option Instr := do
  guard f.form.plain
  match f.func.toNat with
  | 0 =>
    guard (f.clear { d := false })
    match f.b.toNat with
    | 0 => some (.jmp { m := f.mods, a := gReg f.a })
    | 1 => some (.jmpCall { m := f.mods, a := gReg f.a })
    | _ => none
  | 1 =>
    guard (f.clear { a := false, b := false, d := false, imm := true } && decide (f.imm.toNat < 1024))
    some (.ret { m := f.mods, k := f.imm.setWidth 10 })
  | 2 =>
    let c ← cReg? f.a
    guard (f.clear { b := false })
    some (.callq { m := f.mods, c := c, g := gReg f.d })
  | 3 =>
    let c ← cReg? f.a
    guard (f.clear { imm := true })
    some (.park { m := f.mods, c := c, x := gReg f.b, v := gReg f.d, imm := f.imm })
  | 4 => if f.clear { a := false, b := false, d := false } then some (.halt { m := f.mods }) else none
  | 5 => if f.clear { a := false, b := false, d := false } then some (.yieldCore { m := f.mods }) else none
  | _ => none

/-- LD and ST, majors 9 and 10 (R52, R159). -/
def decodeLd (f : Fields) : Option LdArgs := do
  let t ← Ty.ofCode f.ty
  guard t.isInt8to64
  let a ← cReg? f.a
  let s ← ScopeQ.ofCode f.scope
  let mk (i : Imm) : LdArgs := { m := f.mods, ty := t, scope := s, hint := f.hint, d := gReg f.d, a := a, c := gReg f.c,
                                 imm := i }
  match f.form with
  | .base => some (mk ((f.func ++ f.b).signExtend 21))
  | .ext =>
    if f.clear { func := false, b := false, c := true, hint := true, scope := true, ty := true, imm := true } then
      some (mk f.imm) else none
  | .lit | .extLit => none

/-- LDC and STC, major 11 (R52, R85). -/
def decodeCapmem (f : Fields) : Option Instr := do
  let d ← cReg? f.d
  let a ← cReg? f.a
  let s ← ScopeQ.ofCode f.scope
  let mk (i : Imm) : LdcArgs := { m := f.mods, scope := s, hint := f.hint, d := d, a := a, imm := i }
  let x ← match f.form with
    | .base => some (mk ((f.b ++ 0#4).signExtend 21))
    | .ext => if f.clear { b := false, hint := true, scope := true, imm := true } then some (mk f.imm) else none
    | .lit | .extLit => none
  match f.func.toNat with
  | 0 => some (.ldc x)
  | 1 => some (.stc x)
  | _ => none

/-- AMO, major 12 (R125). -/
def decodeAmo (f : Fields) : Option Instr := do
  guard f.form.plain
  let k ← AmoKind.ofCode f.func
  let t ← Ty.ofCode f.ty
  guard t.isAmo
  let a ← cReg? f.a
  let s ← ScopeQ.ofCode f.scope
  guard (f.clear { c := k == .cas, hint := true, scope := true, ty := true, imm := true })
  some (.amo { m := f.mods, kind := k, ty := t, scope := s, hint := f.hint, d := gReg f.d, a := a, b := gReg f.b,
               c := gReg f.c, imm := f.imm })

/-- The scope of a FENCE-major instruction: bits [2:0] of d in base form, word 1 in the extended form (R61). -/
def fenceScope (f : Fields) : Option ScopeQ :=
  match f.form with
  | .base => if f.d.extractLsb' 3 3 == 0 then ScopeQ.ofCode (f.d.extractLsb' 0 3) else none
  | .ext => if f.d == 0 then ScopeQ.ofCode f.scope else none
  | .lit | .extLit => none

/-- FENCE, TFENCE, CWB, IINV and IFENCE, major 13 (R122, R169, R402). -/
def decodeFence (f : Fields) : Option Instr := do
  let s ← fenceScope f
  let x : FenceArgs := { m := f.mods, scope := s }
  let bare : Bool := f.clear { a := false, b := false, scope := true }
  match f.func.toNat with
  | 0 => if bare then some (.fenceSv x) else none
  | 1 => if bare then some (.fenceVs x) else none
  | 2 => if bare then some (.fenceVv x) else none
  | 3 => if bare then some (.fenceAll x) else none
  | 4 =>
    let k ← TfKind.ofCode f.imm
    guard (f.clear { a := k.usesA, b := k.usesB, scope := true, imm := true })
    some (.tfence { m := f.mods, scope := s, kind := k, a := gReg f.a, b := gReg f.b })
  | 5 =>
    let a ← cReg? f.a
    guard (f.clear { scope := true, imm := true })
    some (.cwb { m := f.mods, scope := s, a := a, b := gReg f.b, imm := f.imm })
  | 6 =>
    let a ← cReg? f.a
    guard (f.clear { scope := true, imm := true } && s != .sys)
    some (.iinv { m := f.mods, scope := s, a := a, b := gReg f.b, imm := f.imm })
  | 7 => if f.clear { a := false, b := false, d := false } then some (.ifence { m := f.mods }) else none
  | _ => none

/-- CAP, major 14 (R78). -/
def decodeCap (f : Fields) : Option Instr := do
  guard f.form.plain
  let a ← cReg? f.a
  match f.func.toNat with
  | 0 =>
    let d ← cReg? f.d
    guard (f.clear {})
    some (.cbound { m := f.mods, d := d, a := a, b := gReg f.b })
  | 1 =>
    let d ← cReg? f.d
    guard (f.clear {})
    some (.cnarrow { m := f.mods, d := d, a := a, b := gReg f.b })
  | 2 =>
    let d ← cReg? f.d
    guard (f.clear {})
    some (.caddr { m := f.mods, d := d, a := a, b := gReg f.b })
  | 3 =>
    let d ← cReg? f.d
    guard (f.clear { imm := true })
    some (.cinc { m := f.mods, d := d, a := a, b := gReg f.b, imm := f.imm })
  | 4 =>
    let k ← CgetKind.ofCode f.imm
    guard (f.clear { b := false, imm := true })
    some (.cget { m := f.mods, kind := k, d := gReg f.d, a := a })
  | 5 =>
    let b ← cReg? f.b
    guard (f.clear { imm := true } && decide (f.imm.toNat < 2))
    some (.ctest { m := f.mods, eq := f.imm == 1, d := gReg f.d, a := a, b := b })
  | 6 =>
    let d ← cReg? f.d
    guard (f.clear { b := false })
    some (.cmov { m := f.mods, d := d, a := a })
  | _ => none

/-- VCFG, major 15 (R185). -/
def decodeVcfg (f : Fields) : Option Instr := do
  guard (f.form == .ext)
  match f.func.toNat with
  | 0 =>
    guard (f.clear { a := false, b := false, d := false, imm := true } && decide (f.imm.toNat < 2))
    some (.vmode { m := f.mods, long := f.imm == 1 })
  | 1 =>
    let t ← Ty.ofCode f.ty
    guard (!t.isScale && f.clear { b := false, ty := true, imm := true })
    some (.setvl { m := f.mods, ty := t, d := gReg f.d, a := gReg f.a, n := f.imm })
  | _ => none

/-- VIALU, major 16 (R194). -/
def decodeVialu (f : Fields) : Option Instr := do
  guard (f.form == .ext)
  let t ← Ty.ofCode f.ty
  let z ← f.zf
  let d ← vReg? f.d
  let a ← vReg? f.a
  let two (maxw : Nat) (sat : Bool) : Option VBinArgs := do
    let b ← vReg? f.b
    guard (f.clear { e := true, ty := true, sat := sat, wid := true } && t.widInt maxw f.wid)
    some { m := f.mods, zf := z, ty := t, sat := bitOf f.sat, wid := f.wid, d := d, a := a, b := b }
  let one : Option VUnArgs := do
    guard (f.clear { b := false, e := true, ty := true, sat := true } && t.isInt8to64)
    some { m := f.mods, zf := z, ty := t, sat := bitOf f.sat, d := d, a := a }
  match f.func.toNat with
  | 0 => (two 1 true).map .vadd
  | 1 => (two 1 true).map .vsub
  | 2 => (two 1 true).map .vmul
  | 3 => (two 0 false).map .vmulh
  | 4 => (two 0 false).map .vand
  | 5 => (two 0 false).map .vor
  | 6 => (two 0 false).map .vxor
  | 7 => (two 0 false).map .vandn
  | 8 => (two 0 true).map .vshl
  | 9 => (two 0 false).map .vshr
  | 10 => (two 0 false).map .vsar
  | 11 => (two 0 false).map .vmin
  | 12 => (two 0 false).map .vmax
  | 13 => one.map .vabs
  | 14 => one.map .vneg
  | 15 =>
    let b ← vReg? f.b
    guard (f.clear { e := true, ty := true, sat := true, wid := true } &&
      (t.widInt 3 f.wid || (t == .i4 && f.wid == 3)))
    some (.vmacc { m := f.mods, zf := z, ty := t, sat := bitOf f.sat, wid := f.wid, d := d, a := a, b := b })
  | 16 =>
    guard (f.clear { b := false, e := true, ty := true, imm := true } && t.isInt8to64 &&
      decide (1 ≤ f.imm.toNat) && decide (f.imm.toNat ≤ t.width))
    some (.vsat { m := f.mods, zf := z, ty := t, d := d, a := a, k := f.imm.setWidth 7 })
  | 17 =>
    let b ← vReg? f.b
    let c ← pReg? f.c
    guard (f.clear { e := true, c := true, ty := true } && t.isInt8to64)
    some (.vsel { m := f.mods, zf := z, ty := t, d := d, a := a, b := b, c := c })
  | _ => none

/-- VFALU, major 17 (R195). -/
def decodeVfalu (f : Fields) : Option Instr := do
  guard (f.form == .ext)
  let t ← Ty.ofCode f.ty
  let r ← Rm.ofCode f.rm
  let z ← f.zf
  let d ← vReg? f.d
  let a ← vReg? f.a
  let two (wide : Bool) : Option VfBinArgs := do
    let b ← vReg? f.b
    guard (f.clear { e := true, ty := true, rm := true, sat := true, wid := wide } && t.widFp f.wid)
    some { m := f.mods, zf := z, ty := t, rm := r, sat := bitOf f.sat, wid := f.wid, d := d, a := a, b := b }
  let mm : Option VTwoArgs := do
    let b ← vReg? f.b
    guard (f.clear { e := true, ty := true } && t.isFp)
    some { m := f.mods, zf := z, ty := t, d := d, a := a, b := b }
  let one (only32 : Bool) : Option VOneArgs := do
    guard (f.clear { b := false, e := true, ty := true } && t.isFp && (!only32 || t == .f32))
    some { m := f.mods, zf := z, ty := t, d := d, a := a }
  match f.func.toNat with
  | 0 => (two true).map .vfadd
  | 1 => (two true).map .vfsub
  | 2 => (two true).map .vfmul
  | 3 => mm.map .vfmin
  | 4 => mm.map .vfmax
  | 5 => (one false).map .vfabs
  | 6 => (one false).map .vfneg
  | 7 => (two false).map .vfdiv
  | 8 =>
    guard (f.clear { b := false, e := true, ty := true, rm := true, sat := true } && t.isFp)
    some (.vfsqrt { m := f.mods, zf := z, ty := t, rm := r, sat := bitOf f.sat, d := d, a := a })
  | 9 => (one true).map .vfrsq
  | 10 => (one true).map .vfexp2
  | _ => none

/-- VFMA, major 18 (R195). -/
def decodeVfma (f : Fields) : Option Instr := do
  guard (f.form == .ext)
  let t ← Ty.ofCode f.ty
  let r ← Rm.ofCode f.rm
  let z ← f.zf
  let d ← vReg? f.d
  let a ← vReg? f.a
  let b ← vReg? f.b
  let c ← vReg? f.c
  guard (f.clear { e := true, c := true, ty := true, rm := true, sat := true, wid := true } && t.widFp f.wid)
  let x : VfmaArgs := { m := f.mods, zf := z, ty := t, rm := r, sat := bitOf f.sat, wid := f.wid, d := d, a := a, b := b,
                        c := c }
  match f.func.toNat with
  | 0 => some (.vfma x)
  | 1 => some (.vfms x)
  | 2 => some (.vfnma x)
  | 3 => some (.vfnms x)
  | _ => none

/-- VCMP, major 19 (R198). -/
def decodeVcmp (f : Fields) : Option Instr := do
  guard (f.form == .ext)
  let t ← Ty.ofCode f.ty
  let k ← Cond.ofCode f.func
  let z ← f.zf
  let d ← pReg? f.d
  let a ← vReg? f.a
  let b ← vReg? f.b
  guard (f.clear { e := true, ty := true } && t.isInt8to64)
  some (.vcmp { m := f.mods, zf := z, ty := t, cond := k, d := d, a := a, b := b })

/-- VFCMP, major 20 (R198). -/
def decodeVfcmp (f : Fields) : Option Instr := do
  guard (f.form == .ext)
  let t ← Ty.ofCode f.ty
  let k ← FCond.ofCode f.func
  let z ← f.zf
  let d ← pReg? f.d
  let a ← vReg? f.a
  let b ← vReg? f.b
  guard (f.clear { e := true, ty := true } && t.isFp)
  some (.vfcmp { m := f.mods, zf := z, ty := t, cond := k, d := d, a := a, b := b })

/-- PRED, major 21 (R199). -/
def decodePred (f : Fields) : Option Instr := do
  guard (f.form == .ext)
  let a ← pReg? f.a
  let two : Option PTwoArgs := do
    let z ← f.zf
    let d ← pReg? f.d
    let b ← pReg? f.b
    guard (f.clear { e := true })
    some { m := f.mods, zf := z, d := d, a := a, b := b }
  let one : Option POneArgs := do
    let z ← f.zf
    let d ← pReg? f.d
    guard (f.clear { b := false, e := true })
    some { m := f.mods, zf := z, d := d, a := a }
  match f.func.toNat with
  | 0 => two.map .pand
  | 1 => two.map .por
  | 2 => two.map .pxor
  | 3 => one.map .pnot
  | 4 => one.map .pfirst
  | 5 => if f.clear { b := false } then some (.pcount { m := f.mods, d := gReg f.d, a := a }) else none
  | 6 => one.map .vexit
  | _ => none

/-- PERM, major 22 (R200). -/
def decodePerm (f : Fields) : Option Instr := do
  guard (f.form == .ext)
  let t ← Ty.ofCode f.ty
  guard (!t.isScale)
  let z ← f.zf
  let d ← vReg? f.d
  let two : Option VTwoArgs := do
    let a ← vReg? f.a
    let b ← vReg? f.b
    guard (f.clear { e := true, ty := true })
    some { m := f.mods, zf := z, ty := t, d := d, a := a, b := b }
  let slide : Option VSlideArgs := do
    let a ← vReg? f.a
    guard (f.clear { e := true, ty := true, imm := true })
    some { m := f.mods, zf := z, ty := t, d := d, a := a, g := gReg f.b, k := f.imm }
  let one : Option VOneArgs := do
    let a ← vReg? f.a
    guard (f.clear { b := false, e := true, ty := true })
    some { m := f.mods, zf := z, ty := t, d := d, a := a }
  match f.func.toNat with
  | 0 => two.map .vperm
  | 1 => slide.map .vslideUp
  | 2 => slide.map .vslideDn
  | 3 =>
    guard (f.clear { b := false, e := true, ty := true })
    some (.vbcast { m := f.mods, zf := z, ty := t, d := d, g := gReg f.a })
  | 4 => one.map .vcompress
  | 5 => one.map .vexpand
  | 6 => two.map .vzip
  | 7 =>
    let a ← vReg? f.a
    let b ← vReg? f.b
    guard (f.clear { e := true, ty := true, imm := true } && decide (f.imm.toNat < 2))
    some (.vunzip { m := f.mods, zf := z, ty := t, d := d, a := a, b := b, k := f.imm == 1 })
  | _ => none

/-- VRED, major 23 (R202, R203). -/
def decodeVred (f : Fields) : Option Instr := do
  guard (f.form == .ext)
  let t ← Ty.ofCode f.ty
  let k ← RedKind.ofCode f.func
  let r ← Rm.ofCode f.rm
  let d ← vReg? f.d
  let a ← vReg? f.a
  guard (f.clear { b := false, ty := true, rm := k.rounds, sat := k.sats, wid := true } && k.accepts t f.wid)
  some (.vred { m := f.mods, kind := k, ty := t, rm := r, sat := bitOf f.sat, wid := f.wid, d := d, a := a })

/-- VSCAN, major 24 (R202, R204). -/
def decodeVscan (f : Fields) : Option Instr := do
  guard (f.form == .ext)
  let t ← Ty.ofCode f.ty
  let k ← RedKind.ofCode f.func
  let r ← Rm.ofCode f.rm
  let z ← f.zf
  let d ← vReg? f.d
  let a ← vReg? f.a
  guard (f.clear { b := false, e := true, ty := true, rm := k.rounds, sat := k.sats, wid := true, imm := true } &&
    k.accepts t f.wid && decide (f.imm.toNat < 4))
  some (.vscan { m := f.mods, zf := z, kind := k, ty := t, rm := r, sat := bitOf f.sat, wid := f.wid, d := d, a := a,
                 excl := f.imm.getLsbD 0, carry := f.imm.getLsbD 1 })

/-- WSHIFT, major 25 (R205). -/
def decodeWshift (f : Fields) : Option Instr := do
  guard (f.form == .ext)
  let t ← Ty.ofCode f.ty
  guard t.isInt8to64
  let z ← f.zf
  let d ← vReg? f.d
  let a ← vReg? f.a
  let one : Option VSlideArgs := do
    guard (f.clear { e := true, ty := true, imm := true })
    some { m := f.mods, zf := z, ty := t, d := d, a := a, g := gReg f.b, k := f.imm }
  let two : Option VFshArgs := do
    let b ← vReg? f.b
    guard (f.clear { e := true, c := true, ty := true, imm := true })
    some { m := f.mods, zf := z, ty := t, d := d, a := a, b := b, g := gReg f.c, k := f.imm }
  match f.func.toNat with
  | 0 => one.map .vshlw
  | 1 => one.map .vshrw
  | 2 => two.map .vfshlw
  | 3 => two.map .vfshrw
  | _ => none

/-- The three shapes of vector memory instructions (R206); a store has no zeroing form (R55). -/
def decodeVmem (f : Fields) (load : Bool) : Option VMemArgs := do
  let t ← Ty.ofCode f.ty
  guard (!t.isScale)
  let s ← ScopeQ.ofCode f.scope
  let z ← f.zf
  let d ← vReg? f.d
  let a ← cReg? f.a
  guard (f.clear { e := load, hint := true, scope := true, ty := true, imm := true })
  some { m := f.mods, zf := z, ty := t, scope := s, hint := f.hint, d := d, a := a, b := gReg f.b, imm := f.imm }

/-- VLDX and VSTX (R206). -/
def decodeVmemX (f : Fields) (load : Bool) : Option VMemXArgs := do
  let t ← Ty.ofCode f.ty
  guard (!t.isScale)
  let s ← ScopeQ.ofCode f.scope
  let z ← f.zf
  let d ← vReg? f.d
  let a ← cReg? f.a
  let b ← vReg? f.b
  guard (f.clear { e := load, hint := true, scope := true, ty := true })
  some { m := f.mods, zf := z, ty := t, scope := s, hint := f.hint, d := d, a := a, b := b }

/-- VLDSEG and VSTSEG (R211). -/
def decodeVseg (f : Fields) (load : Bool) : Option VSegArgs := do
  let t ← Ty.ofCode f.ty
  let s ← ScopeQ.ofCode f.scope
  let z ← f.zf
  let d ← vReg? f.d
  let a ← cReg? f.a
  let c ← vReg? f.c
  guard (t.isMxOf (f.imm.getLsbD 20) &&
    f.clear { e := load, c := true, hint := true, scope := true, ty := true, imm := true })
  some { m := f.mods, zf := z, fine := f.imm.getLsbD 20, ty := t, scope := s, hint := f.hint, d := d, a := a,
         b := gReg f.b, c := c, dist := f.imm.extractLsb' 0 20 }

/-- VLOAD, major 26 (R206). -/
def decodeVload (f : Fields) : Option Instr := do
  guard (f.form == .ext)
  match f.func.toNat with
  | 0 => (decodeVmem f true).map .vld
  | 1 => (decodeVmem f true).map .vlds
  | 2 => (decodeVmemX f true).map .vldx
  | 3 => (decodeVmem f true).map .vldff
  | 4 => (decodeVseg f true).map .vldseg
  | _ => none

/-- VSTORE, major 27 (R206). -/
def decodeVstore (f : Fields) : Option Instr := do
  guard (f.form == .ext)
  match f.func.toNat with
  | 0 => (decodeVmem f false).map .vst
  | 1 => (decodeVmem f false).map .vsts
  | 2 => (decodeVmemX f false).map .vstx
  | 3 => (decodeVseg f false).map .vstseg
  | _ => none

/-- VCONV, major 28 (R228 to R231). -/
def decodeVconv (f : Fields) : Option Instr := do
  guard (f.form == .ext)
  let st ← Ty.ofCode f.ty
  let dt ← if f.e.getLsbD 5 then none else Ty.ofCode (f.e.extractLsb' 0 5)
  let r ← Rm.ofCode f.rm
  let d ← vReg? f.d
  let a ← vReg? f.a
  let off : BitVec 20 := f.imm.extractLsb' 0 20
  let fine : Bool := f.imm.getLsbD 20
  guard (r == .sr || (f.b == 0 && off == 0))
  match f.func.toNat with
  | 0 =>
    guard (f.clear { e := true, ty := true, rm := true, sat := true, imm := true } && !fine && cvtPair dt st &&
      (r == .rn || !(dt.isInt && st.isInt)))
    some (.vcvt { m := f.mods, dt := dt, st := st, rm := r, sat := bitOf f.sat, d := d, a := a, b := gReg f.b,
                  off := off })
  | 1 =>
    let c ← vReg? f.c
    guard (f.clear { e := true, c := true, ty := true, rm := true, imm := true } && dt.isMxOf fine &&
      (st == .f32 || st == .bf16))
    some (.vquant { m := f.mods, fine := fine, dt := dt, st := st, rm := r, sat := false, d := d, a := a, b := gReg f.b,
                    c := c, off := off })
  | 2 =>
    let c ← vReg? f.c
    guard (f.clear { e := true, c := true, ty := true, rm := true, sat := true, imm := true } && st.isMxOf fine &&
      (dt == .f32 || dt == .bf16))
    some (.vdequant { m := f.mods, fine := fine, dt := dt, st := st, rm := r, sat := bitOf f.sat, d := d, a := a,
                      b := gReg f.b, c := c, off := off })
  | _ => none

/-- The bound registers v24 to v31, counted from v24 (R283). -/
def bindReg? (x : BitVec 6) : Option (Fin 8) :=
  if h : 24 ≤ x.toNat ∧ x.toNat < 32 then some ⟨x.toNat - 24, by omega⟩ else none

/-- STREAM, major 29 (R283). -/
def decodeStream (f : Fields) : Option Instr := do
  guard (f.form == .ext)
  let d ← bindReg? f.d
  match f.func.toNat with
  | 0 =>
    let a ← cReg? f.a
    guard (f.clear { hint := true, imm := true })
    some (.vbind { m := f.mods, hint := f.hint, d := d, a := a, b := gReg f.b, imm := f.imm })
  | 1 => if f.clear { a := false, b := false } then some (.vunbind { m := f.mods, d := d }) else none
  | _ => none

/-- MLDT and MLDT.t (R240). -/
def decodeMldt (f : Fields) : Option MldtArgs := do
  guard (f.form == .ext)
  let k ← MxKind.ofCode f.d
  let t ← Ty.ofCode f.ty
  let a ← cReg? f.a
  guard (t.isTile && k.allows t && f.clear { hint := true, ty := true, imm := true })
  some { m := f.mods, hint := f.hint, kind := k, ty := t, a := a, b := gReg f.b, imm := f.imm }

/-- MROW and MROWA (R240): `acc` allows .sat on the integer paths. -/
def decodeMrow (f : Fields) (acc : Bool) : Option MrowArgs := do
  guard (f.form == .ext)
  let k ← ScaleCode.ofCode f.b
  let t ← Ty.ofCode f.ty
  let d ← aReg? f.d
  let a ← vReg? f.a
  let c ← vReg? f.c
  guard (t.isTile && k.kind.allows t &&
    f.clear { c := k.usesVs, ty := true, sat := acc && t.isInt && k == .none })
  some { m := f.mods, ty := t, sat := bitOf f.sat, sk := k, d := d, a := a, c := c }

/-- MATRIX, major 30 (R240). -/
def decodeMatrix (f : Fields) : Option Instr := do
  match f.func.toNat with
  | 0 => (decodeMldt f).map .mldt
  | 1 => (decodeMldt f).map .mldtT
  | 2 => (decodeMrow f false).map .mrow
  | 3 => (decodeMrow f true).map .mrowa
  | 4 =>
    let t ← Ty.ofCode f.ty
    guard (f.form == .ext && (t == .f32 || t == .i32) &&
      f.clear { a := false, b := false, d := false, ty := true, imm := true } && decide (f.imm.toNat < 256))
    some (.mzero { m := f.mods, int := t == .i32, mask := f.imm.setWidth 8 })
  | 5 =>
    if f.form == .ext && f.clear { a := false, b := false, d := false } then some (.mswap { m := f.mods }) else none
  | 6 =>
    if f.form.isExt && f.litB && f.clear { a := false, d := false } then
      some (.mchain { m := f.mods, b := gReg f.b, lit := f.literal }) else none
  | 7 =>
    let k ← ChainVec.ofCode f.d
    let a ← cReg? f.a
    guard (f.form == .ext && f.clear { imm := true })
    some (.mtbl { m := f.mods, which := k, a := a, b := gReg f.b, imm := f.imm })
  | 8 =>
    let t ← Ty.ofCode f.ty
    let r ← Rm.ofCode f.rm
    let z ← f.zf
    let d ← vReg? f.d
    let a ← aReg? f.a
    guard (f.form == .ext && t.isDrain && f.clear { e := true, ty := true, rm := true, sat := true })
    some (.mdrain { m := f.mods, zf := z, ty := t, rm := r, sat := bitOf f.sat, d := d, a := a, b := gReg f.b })
  | _ => none

/-- ENGINE, major 31 (R284). -/
def decodeEngine (f : Fields) : Option Instr := do
  match f.func.toNat with
  | 0 =>
    let d ← cReg? f.d
    let a ← cReg? f.a
    let c ← cReg? f.c
    guard (f.litB && f.clear { c := true, imm := true })
    some (.epush { m := f.mods, d := d, a := a, b := gReg f.b, c := c, stride := f.imm, lit := f.literal })
  | 1 =>
    guard (f.form.plain && f.clear {} && popPort f.a.toNat)
    match f.b.toNat with
    | 0 => some (.epop { m := f.mods, d := gReg f.d, port := f.a.toFin })
    | 1 => some (.epopNw { m := f.mods, d := gReg f.d, port := f.a.toFin })
    | _ => none
  | 2 =>
    guard (f.form.plain && f.clear { b := false } && statPort f.a.toNat)
    some (.eqstat { m := f.mods, d := gReg f.d, port := f.a.toFin })
  | 3 =>
    guard (f.form.plain && f.clear { a := false } && decide (1 ≤ f.d.toNat) && decide (f.d.toNat ≤ 60))
    match f.b.toNat with
    | 0 => some (.evpop { m := f.mods, d := gReg f.d })
    | 1 => some (.evpopNw { m := f.mods, d := gReg f.d })
    | _ => none
  | _ => none

/-- TASK, major 32 (R318). -/
def decodeTask (f : Fields) : Option Instr := do
  match f.func.toNat with
  | 0 =>
    guard (f.form.plain && f.clear { imm := true })
    some (.dpush { m := f.mods, d := gReg f.d, a := gReg f.a, b := gReg f.b, k := f.imm })
  | 1 =>
    guard (f.form.plain && f.clear { a := false, b := false } && decide (1 ≤ f.d.toNat) && decide (f.d.toNat ≤ 61))
    some (.dpop { m := f.mods, d := gReg f.d })
  | 2 =>
    guard (f.form.plain && f.clear { b := false } && decide (1 ≤ f.d.toNat) && decide (f.d.toNat ≤ 61))
    some (.dsteal { m := f.mods, d := gReg f.d, a := gReg f.a })
  | 3 =>
    guard (f.litB && f.clear { imm := true })
    some (.lpatch { m := f.mods, d := gReg f.d, a := gReg f.a, b := gReg f.b, k := f.imm, lit := f.literal })
  | 4 =>
    guard (f.form.plain && f.clear { imm := true })
    let x : LarmArgs := { m := f.mods, d := gReg f.d, a := gReg f.a, k := f.imm }
    match f.b.toNat with
    | 0 => some (.larmPlace x)
    | 1 => some (.larmArm x)
    | 2 => some (.larmDisarm x)
    | _ => none
  | _ => none

/-- TROUPE, major 33 (R336). -/
def decodeTroupe (f : Fields) : Option Instr := do
  let x : MdabArgs := { m := f.mods, d := gReg f.d, a := gReg f.a, b := gReg f.b }
  match f.func.toNat with
  | 0 =>
    let b ← cReg? f.b
    guard (f.form == .ext && f.clear { imm := true } && decide (1 ≤ f.d.toNat) && decide (f.d.toNat ≤ 61))
    some (.tfork { m := f.mods, d := gReg f.d, a := gReg f.a, b := b, off := f.imm })
  | 1 =>
    if f.form.plain && f.clear { b := false } then some (.treward { m := f.mods, d := gReg f.d, a := gReg f.a })
    else none
  | 2 =>
    guard (f.form.plain && f.clear { a := false, b := false } && decide (1 ≤ f.d.toNat) && decide (f.d.toNat ≤ 62))
    some (.tbar { m := f.mods, d := gReg f.d })
  | 3 => if f.form.plain && f.clear {} then some (.tcancel x) else none
  | 4 =>
    guard (f.form.plain && f.clear { imm := true } && decide (1 ≤ f.d.toNat) && decide (f.d.toNat ≤ 62))
    match f.imm.toNat with
    | 0 => some (.tadv x)
    | 1 => some (.tadvNw x)
    | _ => none
  | _ => none

/-- SPEC, major 34 (R358). -/
def decodeSpec (f : Fields) : Option Instr := do
  match f.func.toNat with
  | 0 =>
    guard (f.form == .ext && f.clear { c := true, imm := true } && decide (1 ≤ f.d.toNat) && decide (f.d.toNat ≤ 61) &&
      decide (f.c.toNat < 2))
    some (.sspawn { m := f.mods, side := f.c == 1, d := gReg f.d, cond := f.a.toFin, b := gReg f.b, off := f.imm })
  | 1 =>
    guard (f.form.plain && f.clear { imm := true })
    match f.imm.toNat with
    | 0 => some (.sresolve { m := f.mods, d := gReg f.d, cond := f.a.toFin, b := gReg f.b })
    | 1 => if f.b == 0 then some (.sresolveFree { m := f.mods, d := gReg f.d, cond := f.a.toFin }) else none
    | _ => none
  | 2 =>
    guard (f.form.plain && f.clear {})
    match f.b.toNat with
    | 0 => if f.a == 0 then some (.slk { m := f.mods, d := gReg f.d }) else none
    | 1 => some (.slkSeg { m := f.mods, d := gReg f.d, a := gReg f.a })
    | 2 => some (.slkCond { m := f.mods, d := gReg f.d, cond := f.a.toFin })
    | _ => none
  | _ => none

/-- LOOP, major 35 (R291). -/
def decodeLoop (f : Fields) : Option Instr := do
  match f.func.toNat with
  | 0 =>
    guard (f.litB && f.clear { c := true, imm := true } && (!f.form.hasLit || f.imm.extractLsb' 12 9 == 0))
    let level ← if h : f.c.toNat < 6 then some (⟨f.c.toNat, h⟩ : Fin 6) else none
    some (.clset { m := f.mods, level := level, d := gReg f.d, a := gReg f.a, b := gReg f.b,
                   cnt := f.imm.extractLsb' 0 12, str := f.imm.extractLsb' 12 9, lit := f.literal })
  | 1 =>
    let n : Nat ← match f.form with
      | .base => if f.clear { b := false } then some (f.a ++ f.d).toNat else none
      | .ext => if f.clear { a := false, b := false, d := false, imm := true } then some f.imm.toNat else none
      | .lit | .extLit => none
    if 1 ≤ n ∧ n ≤ 128 then some (.clrun { m := f.mods, n := BitVec.ofNat 8 n }) else none
  | _ => none

/-- DEFER, major 36 (R303). -/
def decodeDefer (f : Fields) : Option Instr := do
  guard (f.form == .ext)
  let t ← Ty.ofCode f.ty
  guard (!t.isScale && f.imm.extractLsb' 6 15 == 0)
  let a ← vReg? f.a
  let k ← if h : (f.imm.extractLsb' 0 3).toNat < 5 then some (⟨(f.imm.extractLsb' 0 3).toNat, h⟩ : Fin 5) else none
  let p : BitVec 3 := f.imm.extractLsb' 3 3
  match f.func.toNat with
  | 0 =>
    guard (f.clear { d := false, ty := true, imm := true })
    some (.vdefer { m := f.mods, ty := t, p := p, k := k, a := a, b := gReg f.b })
  | 1 =>
    let b ← vReg? f.b
    guard (f.clear { ty := true, imm := true })
    some (.vdrain { m := f.mods, ty := t, p := p, k := k, d := gReg f.d, a := a, b := b })
  | _ => none

/-- The opcode map (R65): the instruction of a set of fields, or none for an illegal encoding (R66). -/
def decodeFields (f : Fields) : Option Instr :=
  match f.major.toNat with
  | 1 => decodeSalu f
  | 2 => decodeAddi f
  | 3 => decodeCmp f
  | 4 => decodeLi f
  | 5 => (decodeB f).map .b
  | 6 => decodeBc f
  | 7 => (decodeB f).map .call
  | 8 => decodeCtl f
  | 9 => (decodeLd f).map .ld
  | 10 => (decodeLd f).map .st
  | 11 => decodeCapmem f
  | 12 => decodeAmo f
  | 13 => decodeFence f
  | 14 => decodeCap f
  | 15 => decodeVcfg f
  | 16 => decodeVialu f
  | 17 => decodeVfalu f
  | 18 => decodeVfma f
  | 19 => decodeVcmp f
  | 20 => decodeVfcmp f
  | 21 => decodePred f
  | 22 => decodePerm f
  | 23 => decodeVred f
  | 24 => decodeVscan f
  | 25 => decodeWshift f
  | 26 => decodeVload f
  | 27 => decodeVstore f
  | 28 => decodeVconv f
  | 29 => decodeStream f
  | 30 => decodeMatrix f
  | 31 => decodeEngine f
  | 32 => decodeTask f
  | 33 => decodeTroupe f
  | 34 => decodeSpec f
  | 35 => decodeLoop f
  | 36 => decodeDefer f
  | _ => none

/-- The Nymzin instruction at the head of a list of words (R49, R66). -/
def decodeWords (ws : List Word32) : Option Instr :=
  match Fields.ofWords ws with
  | some f => decodeFields f
  | none => none

/-! ### Roustabout instructions -/

/-- The register in a 5-bit field. -/
def xReg (w : Word32) (lo : Nat) : XReg := (w.extractLsb' lo 5).toFin

/-- The roustabout extension (R71, R72): unused fields must be zero. -/
def decodeQ (w : Word32) : Option Instr :=
  let x : QArgs := { rd := xReg w 7, rs1 := xReg w 15, rs2 := xReg w 20 }
  let op := (w.extractLsb' 0 7).toNat
  let f3 := (w.extractLsb' 12 3).toNat
  let f7 := (w.extractLsb' 25 7).toNat
  let z2 : Bool := x.rs2 == 0
  let z1 : Bool := x.rs1 == 0
  let zd : Bool := x.rd == 0
  let pick (ok : Bool) (i : Instr) : Option Instr := if ok then some i else none
  match op, f3, f7 with
  | 0b0001011, 0, 0 => pick z2 (.qePush x)
  | 0b0001011, 0, 1 => pick z2 (.qePop x)
  | 0b0001011, 0, 2 => pick z2 (.qeStat x)
  | 0b0001011, 0, 3 => pick (z2 && zd) (.qeWait x)
  | 0b0001011, 1, 0 => pick (z2 && zd) (.qaPush x)
  | 0b0001011, 1, 1 => pick (z2 && z1) (.qaStat x)
  | 0b0001011, 2, 0 => pick (z2 && zd) (.qbPush x)
  | 0b0001011, 2, 1 => pick (z2 && z1) (.qbStat x)
  | 0b0001011, 3, 0 => pick (z2 && z1) (.qdPop x)
  | 0b0001011, 3, 1 => pick (z2 && z1) (.qdStat x)
  | 0b0101011, 0, 0 => pick zd (.qsStrip x)
  | 0b0101011, 0, 1 => pick zd (.qsScale x)
  | 0b0101011, 0, 2 => pick (z2 && zd) (.qsEnd x)
  | 0b0101011, 1, 0 => pick (z2 && zd) (.qvFence x)
  | 0b0101011, 1, 1 => pick zd (.qvEvent x)
  | 0b0101011, 1, 2 => pick z2 (.qvWait x)
  | _, _, _ => none

/-- RV64I register and immediate operations, by funct3 and the shift's upper bits. -/
def decodeOpImm (w : Word32) : Option RvOp :=
  let rd := xReg w 7
  let rs1 := xReg w 15
  let imm : BitVec 12 := w.extractLsb' 20 12
  let hi6 := (w.extractLsb' 26 6).toNat
  let sh : BitVec 12 := (w.extractLsb' 20 6).setWidth 12
  match (w.extractLsb' 12 3).toNat with
  | 0 => some (.opImm .add rd rs1 imm)
  | 1 => if hi6 = 0 then some (.opImm .sll rd rs1 sh) else none
  | 2 => some (.opImm .slt rd rs1 imm)
  | 3 => some (.opImm .sltu rd rs1 imm)
  | 4 => some (.opImm .xor rd rs1 imm)
  | 5 => if hi6 = 0 then some (.opImm .srl rd rs1 sh) else if hi6 = 16 then some (.opImm .sra rd rs1 sh) else none
  | 6 => some (.opImm .or rd rs1 imm)
  | _ => some (.opImm .and rd rs1 imm)

/-- RV64I and M register operations. -/
def decodeOp (w : Word32) : Option RvOp :=
  let rd := xReg w 7
  let rs1 := xReg w 15
  let rs2 := xReg w 20
  match (w.extractLsb' 25 7).toNat, (w.extractLsb' 12 3).toNat with
  | 0, 0 => some (.op .add rd rs1 rs2)
  | 0, 1 => some (.op .sll rd rs1 rs2)
  | 0, 2 => some (.op .slt rd rs1 rs2)
  | 0, 3 => some (.op .sltu rd rs1 rs2)
  | 0, 4 => some (.op .xor rd rs1 rs2)
  | 0, 5 => some (.op .srl rd rs1 rs2)
  | 0, 6 => some (.op .or rd rs1 rs2)
  | 0, 7 => some (.op .and rd rs1 rs2)
  | 32, 0 => some (.op .sub rd rs1 rs2)
  | 32, 5 => some (.op .sra rd rs1 rs2)
  | 1, 0 => some (.mul .mul rd rs1 rs2)
  | 1, 1 => some (.mul .mulh rd rs1 rs2)
  | 1, 2 => some (.mul .mulhsu rd rs1 rs2)
  | 1, 3 => some (.mul .mulhu rd rs1 rs2)
  | 1, 4 => some (.mul .div rd rs1 rs2)
  | 1, 5 => some (.mul .divu rd rs1 rs2)
  | 1, 6 => some (.mul .rem rd rs1 rs2)
  | 1, 7 => some (.mul .remu rd rs1 rs2)
  | _, _ => none

/-- RV64I and M 32-bit register operations. -/
def decodeOpW (w : Word32) : Option RvOp :=
  let rd := xReg w 7
  let rs1 := xReg w 15
  let rs2 := xReg w 20
  match (w.extractLsb' 25 7).toNat, (w.extractLsb' 12 3).toNat with
  | 0, 0 => some (.opW .addw rd rs1 rs2)
  | 0, 1 => some (.opW .sllw rd rs1 rs2)
  | 0, 5 => some (.opW .srlw rd rs1 rs2)
  | 32, 0 => some (.opW .subw rd rs1 rs2)
  | 32, 5 => some (.opW .sraw rd rs1 rs2)
  | 1, 0 => some (.mulW .mulw rd rs1 rs2)
  | 1, 4 => some (.mulW .divw rd rs1 rs2)
  | 1, 5 => some (.mulW .divuw rd rs1 rs2)
  | 1, 6 => some (.mulW .remw rd rs1 rs2)
  | 1, 7 => some (.mulW .remuw rd rs1 rs2)
  | _, _ => none

/-- RV64I 32-bit immediate operations. -/
def decodeOpImmW (w : Word32) : Option RvOp :=
  let rd := xReg w 7
  let rs1 := xReg w 15
  let sh : BitVec 12 := (w.extractLsb' 20 5).setWidth 12
  match (w.extractLsb' 12 3).toNat, (w.extractLsb' 25 7).toNat with
  | 0, _ => some (.opImmW .addw rd rs1 (w.extractLsb' 20 12))
  | 1, 0 => some (.opImmW .sllw rd rs1 sh)
  | 5, 0 => some (.opImmW .srlw rd rs1 sh)
  | 5, 32 => some (.opImmW .sraw rd rs1 sh)
  | _, _ => none

/-- The A extension (R260). -/
def decodeAmoRv (w : Word32) : Option Instr :=
  let dbl : Option Bool := match (w.extractLsb' 12 3).toNat with
    | 2 => some false
    | 3 => some true
    | _ => none
  let rs2 := xReg w 20
  let op : Option RvAmoOp := match (w.extractLsb' 27 5).toNat with
    | 2 => if rs2 == 0 then some .lr else none
    | 3 => some .sc | 1 => some .swap | 0 => some .add | 4 => some .xor | 12 => some .and | 8 => some .or
    | 16 => some .min | 20 => some .max | 24 => some .minu | 28 => some .maxu
    | _ => none
  match dbl, op with
  | some dbl, some op =>
    some (.roustaboutAmo { op := op, dbl := dbl, aq := w.getLsbD 26, rl := w.getLsbD 25, rd := xReg w 7,
                           rs1 := xReg w 15, rs2 := rs2 })
  | _, _ => none

/-- A 32-bit roustabout instruction: RV64IMA and the extension (R71, R72, R259). -/
def decodeRv32 (w : Word32) : Option Instr :=
  let mk (o : Option RvOp) : Option Instr := o.map (fun op => .roustaboutInstruction { compressed := false, op := op })
  let rd := xReg w 7
  let rs1 := xReg w 15
  let rs2 := xReg w 20
  let f3 := (w.extractLsb' 12 3).toNat
  match (w.extractLsb' 0 7).toNat with
  | 0b0110111 => mk (some (.lui rd (w.extractLsb' 12 20)))
  | 0b0010111 => mk (some (.auipc rd (w.extractLsb' 12 20)))
  | 0b1101111 =>
    mk (some (.jal rd (w.extractLsb' 31 1 ++ w.extractLsb' 12 8 ++ w.extractLsb' 20 1 ++ w.extractLsb' 21 10 ++ 0#1)))
  | 0b1100111 => mk (if f3 = 0 then some (.jalr rd rs1 (w.extractLsb' 20 12)) else none)
  | 0b1100011 =>
    let off : BitVec 13 := w.extractLsb' 31 1 ++ w.extractLsb' 7 1 ++ w.extractLsb' 25 6 ++ w.extractLsb' 8 4 ++ 0#1
    let c : Option RvCond := match f3 with
      | 0 => some .eq | 1 => some .ne | 4 => some .lt | 5 => some .ge | 6 => some .ltu | 7 => some .geu
      | _ => none
    mk (c.map (fun c => .branch c rs1 rs2 off))
  | 0b0000011 =>
    let k : Option RvLoad := match f3 with
      | 0 => some .lb | 1 => some .lh | 2 => some .lw | 3 => some .ld | 4 => some .lbu | 5 => some .lhu | 6 => some .lwu
      | _ => none
    mk (k.map (fun k => .load k rd rs1 (w.extractLsb' 20 12)))
  | 0b0100011 =>
    let k : Option RvStore := match f3 with
      | 0 => some .sb | 1 => some .sh | 2 => some .sw | 3 => some .sd
      | _ => none
    mk (k.map (fun k => .store k rs1 rs2 (w.extractLsb' 25 7 ++ w.extractLsb' 7 5)))
  | 0b0010011 => mk (decodeOpImm w)
  | 0b0110011 => mk (decodeOp w)
  | 0b0011011 => mk (decodeOpImmW w)
  | 0b0111011 => mk (decodeOpW w)
  | 0b0101111 => decodeAmoRv w
  | 0b0001111 =>
    if f3 = 0 then
      some (.roustaboutFence { fm := w.extractLsb' 28 4, pred := w.extractLsb' 24 4, succ := w.extractLsb' 20 4,
                               rd := rd, rs1 := rs1 })
    else mk (if f3 = 1 then some .fenceI else none)
  | 0b0001011 => decodeQ w
  | 0b0101011 => decodeQ w
  | _ => none

/-- A register x8 to x15 of a compressed instruction. -/
def cX (h : BitVec 16) (lo : Nat) : XReg := (0b01#2 ++ h.extractLsb' lo 3).toFin

/-- Quadrant 0 of the C extension. -/
def decodeC0 (h : BitVec 16) : Option RvOp :=
  let rdp := cX h 2
  let rs1p := cX h 7
  let offW : BitVec 12 := (h.extractLsb' 5 1 ++ h.extractLsb' 10 3 ++ h.extractLsb' 6 1 ++ 0#2).setWidth 12
  let offD : BitVec 12 := (h.extractLsb' 5 2 ++ h.extractLsb' 10 3 ++ 0#3).setWidth 12
  match (h.extractLsb' 13 3).toNat with
  | 0 =>
    let imm : BitVec 10 := h.extractLsb' 7 4 ++ h.extractLsb' 11 2 ++ h.extractLsb' 5 1 ++ h.extractLsb' 6 1 ++ 0#2
    if imm == 0 then none else some (.opImm .add rdp 2 (imm.setWidth 12))
  | 2 => some (.load .lw rdp rs1p offW)
  | 3 => some (.load .ld rdp rs1p offD)
  | 6 => some (.store .sw rs1p rdp offW)
  | 7 => some (.store .sd rs1p rdp offD)
  | _ => none

/-- The arithmetic group of quadrant 1 of the C extension. -/
def decodeC1Alu (h : BitVec 16) : Option RvOp :=
  let rdp := cX h 7
  let rs2p := cX h 2
  let imm6 : BitVec 6 := h.extractLsb' 12 1 ++ h.extractLsb' 2 5
  match (h.extractLsb' 10 2).toNat with
  | 0 => some (.opImm .srl rdp rdp (imm6.setWidth 12))
  | 1 => some (.opImm .sra rdp rdp (imm6.setWidth 12))
  | 2 => some (.opImm .and rdp rdp (imm6.signExtend 12))
  | _ =>
    match (h.extractLsb' 12 1).toNat, (h.extractLsb' 5 2).toNat with
    | 0, 0 => some (.op .sub rdp rdp rs2p)
    | 0, 1 => some (.op .xor rdp rdp rs2p)
    | 0, 2 => some (.op .or rdp rdp rs2p)
    | 0, 3 => some (.op .and rdp rdp rs2p)
    | 1, 0 => some (.opW .subw rdp rdp rs2p)
    | 1, 1 => some (.opW .addw rdp rdp rs2p)
    | _, _ => none

/-- Quadrant 1 of the C extension. -/
def decodeC1 (h : BitVec 16) : Option RvOp :=
  let rd : XReg := (h.extractLsb' 7 5).toFin
  let imm6 : BitVec 6 := h.extractLsb' 12 1 ++ h.extractLsb' 2 5
  let offB : BitVec 9 := h.extractLsb' 12 1 ++ h.extractLsb' 5 2 ++ h.extractLsb' 2 1 ++ h.extractLsb' 10 2 ++
    h.extractLsb' 3 2 ++ 0#1
  match (h.extractLsb' 13 3).toNat with
  | 0 => some (.opImm .add rd rd (imm6.signExtend 12))
  | 1 => if rd == 0 then none else some (.opImmW .addw rd rd (imm6.signExtend 12))
  | 2 => some (.opImm .add rd 0 (imm6.signExtend 12))
  | 3 =>
    if rd == 2 then
      let imm : BitVec 10 := h.extractLsb' 12 1 ++ h.extractLsb' 3 2 ++ h.extractLsb' 5 1 ++ h.extractLsb' 2 1 ++
        h.extractLsb' 6 1 ++ 0#4
      if imm == 0 then none else some (.opImm .add 2 2 (imm.signExtend 12))
    else if imm6 == 0 then none else some (.lui rd (imm6.signExtend 20))
  | 4 => decodeC1Alu h
  | 5 =>
    let off : BitVec 12 := h.extractLsb' 12 1 ++ h.extractLsb' 8 1 ++ h.extractLsb' 9 2 ++ h.extractLsb' 6 1 ++
      h.extractLsb' 7 1 ++ h.extractLsb' 2 1 ++ h.extractLsb' 11 1 ++ h.extractLsb' 3 3 ++ 0#1
    some (.jal 0 (off.signExtend 21))
  | 6 => some (.branch .eq (cX h 7) 0 (offB.signExtend 13))
  | _ => some (.branch .ne (cX h 7) 0 (offB.signExtend 13))

/-- Quadrant 2 of the C extension; C.EBREAK is none (R72). -/
def decodeC2 (h : BitVec 16) : Option RvOp :=
  let rd : XReg := (h.extractLsb' 7 5).toFin
  let rs2 : XReg := (h.extractLsb' 2 5).toFin
  let sh : BitVec 6 := h.extractLsb' 12 1 ++ h.extractLsb' 2 5
  match (h.extractLsb' 13 3).toNat with
  | 0 => some (.opImm .sll rd rd (sh.setWidth 12))
  | 2 =>
    if rd == 0 then none
    else some (.load .lw rd 2 ((h.extractLsb' 2 2 ++ h.extractLsb' 12 1 ++ h.extractLsb' 4 3 ++ 0#2).setWidth 12))
  | 3 =>
    if rd == 0 then none
    else some (.load .ld rd 2 ((h.extractLsb' 2 3 ++ h.extractLsb' 12 1 ++ h.extractLsb' 5 2 ++ 0#3).setWidth 12))
  | 4 =>
    if (h.extractLsb' 12 1).toNat = 0 then
      if rs2 == 0 then (if rd == 0 then none else some (.jalr 0 rd 0))
      else some (.op .add rd 0 rs2)
    else if rs2 == 0 then (if rd == 0 then none else some (.jalr 1 rd 0))
    else some (.op .add rd rd rs2)
  | 6 => some (.store .sw 2 rs2 ((h.extractLsb' 7 2 ++ h.extractLsb' 9 4 ++ 0#2).setWidth 12))
  | 7 => some (.store .sd 2 rs2 ((h.extractLsb' 7 3 ++ h.extractLsb' 10 3 ++ 0#3).setWidth 12))
  | _ => none

/-- A compressed roustabout instruction (R259). -/
def decodeRvC (h : BitVec 16) : Option Instr :=
  let o : Option RvOp := match (h.extractLsb' 0 2).toNat with
    | 0 => decodeC0 h
    | 1 => decodeC1 h
    | 2 => decodeC2 h
    | _ => none
  o.map (fun op => .roustaboutInstruction { compressed := true, op := op })

/-- The roustabout instruction whose first 32 bits are `w`: 16 bits long unless bits [1:0] are 11. -/
def decodeRoustabout (w : Word32) : Option Instr :=
  if w.extractLsb' 0 2 == 3 then decodeRv32 w else decodeRvC (w.extractLsb' 0 16)

/-! ### Lysyo -/

/-- One Lysyo instruction (R385): none for an op that is not listed or a field that its row fixes otherwise (R387,
codes 1 and 2). -/
def decodeLysyo (w : Word32) : Option Instr :=
  let x : LyIArgs := { rd := (w.extractLsb' 22 4).toFin, ra := (w.extractLsb' 18 4).toFin, imm := w.extractLsb' 0 16 }
  let y : LyRArgs := { rd := (w.extractLsb' 22 4).toFin, ra := (w.extractLsb' 18 4).toFin,
                       rb := (w.extractLsb' 14 4).toFin }
  let i : Bool := w.extractLsb' 16 2 == 0
  let r : Bool := w.extractLsb' 0 14 == 0
  let pick (ok : Bool) (z : Instr) : Option Instr := if ok then some z else none
  match (w.extractLsb' 26 6).toNat with
  | 0b000001 => pick (i && x.rd == 0 && x.ra == 0 && decide (x.imm.toNat ≤ 2)) (.lysyoEnd x)
  | 0b000010 => pick (i && x.ra == 0) (.lysyoLi x)
  | 0b000011 => pick (i && x.ra == 0) (.lysyoLih x)
  | 0b000100 => pick i (.lysyoAddi x)
  | 0b001000 => pick r (.lysyoAdd y)
  | 0b001001 => pick r (.lysyoSub y)
  | 0b001010 => pick r (.lysyoAnd y)
  | 0b001011 => pick r (.lysyoOr y)
  | 0b001100 => pick r (.lysyoXor y)
  | 0b001101 => pick r (.lysyoShl y)
  | 0b001110 => pick r (.lysyoShr y)
  | 0b001111 => pick r (.lysyoMinu y)
  | 0b010000 => pick r (.lysyoMaxu y)
  | 0b010100 => pick i (.ldpk x)
  | 0b010101 => pick i (.stpk x)
  | 0b010110 => pick i (.ldrg x)
  | 0b010111 => pick i (.ldwn x)
  | 0b011000 => pick i (.stwn x)
  | 0b011100 => pick i (.beq x)
  | 0b011101 => pick i (.bne x)
  | 0b011110 => pick i (.bltu x)
  | 0b100000 => pick (i && x.rd == 0 && x.ra == 0) (.lysyoLoop x)
  | 0b100100 => pick (i && x.ra == 0 && x.imm == 0) (.time x)
  | 0b100101 => pick (i && x.ra == 0 && decide (x.imm.toNat ≤ 3)) (.qinfo x)
  | _ => none

/-- Is the op of a Lysyo word listed (R387, code 1)? -/
def lysyoOpListed (w : Word32) : Bool :=
  [1, 2, 3, 4, 8, 9, 10, 11, 12, 13, 14, 15, 16, 20, 21, 22, 23, 24, 28, 29, 30, 32, 36, 37].contains
    (w.extractLsb' 26 6).toNat

/-! ### The encoder -/

/-- The fields of an instruction without operands: form, guards and carousel flags (R51, R53). -/
def fieldsOf (m : Mods) (major func : Nat) : Fields where
  form := m.form
  func := BitVec.ofNat 6 func
  b := 0
  a := 0
  d := 0
  major := BitVec.ofNat 6 major
  e := 0
  c := 0
  ng2 := ofBit m.ng2
  pg2 := BitVec.ofFin m.pg2
  ng1 := ofBit m.ng1
  pg1 := BitVec.ofFin m.pg1
  hint := 0
  scope := 0
  first := ofBit m.first
  last := ofBit m.last
  r := 0
  ty := 0
  rm := 0
  sat := 0
  wid := 0
  imm := 0
  lit := 0

/-- SALU (R144). -/
def encSalu (func : Nat) (x : SaluArgs) : Fields :=
  { fieldsOf x.m 1 func with d := regField x.d, a := regField x.a, b := if x.lit.isSome then 0 else regField x.b,
                             ty := x.ty.code, sat := ofBit x.sat, lit := x.lit.getD 0 }
/-- CLZ, CTZ, POPC (R144). -/
def encSaluUn (func : Nat) (x : SaluUnArgs) : Fields :=
  { fieldsOf x.m 1 func with d := regField x.d, a := regField x.a, ty := x.ty.code }
/-- B and CALL (R152). -/
def encB (major : Nat) (x : BArgs) : Fields :=
  let f := fieldsOf x.m major 0
  if x.m.form = .base then
    { f with func := x.off.extractLsb' 18 6, b := x.off.extractLsb' 12 6, a := x.off.extractLsb' 6 6,
             d := x.off.extractLsb' 0 6 }
  else { f with imm := x.off.extractLsb' 0 21 }
/-- An immediate of 12 bits in func and b in the base form, in word 2 otherwise (R52). -/
def encImm12 (base : Bool) (i : Imm) (f : Fields) : Fields :=
  if base then { f with func := i.extractLsb' 6 6, b := i.extractLsb' 0 6 } else { f with imm := i }
/-- LD and ST (R159). -/
def encLd (major : Nat) (x : LdArgs) : Fields :=
  encImm12 (x.m.form = .base) x.imm
    { fieldsOf x.m major 0 with d := regField x.d, a := regField x.a, c := regField x.c, ty := x.ty.code,
                                scope := x.scope.code, hint := x.hint }
/-- LDC and STC (R85). -/
def encLdc (func : Nat) (x : LdcArgs) : Fields :=
  let f : Fields := { fieldsOf x.m 11 func with d := regField x.d, a := regField x.a, scope := x.scope.code,
                                                hint := x.hint }
  if x.m.form = .base then { f with b := x.imm.extractLsb' 4 6 } else { f with imm := x.imm }
/-- The scope of a FENCE-major instruction (R61). -/
def encScope (s : ScopeQ) (f : Fields) : Fields :=
  if f.form = .base then { f with d := s.code.setWidth 6 } else { f with scope := s.code }
/-- CWB and IINV (R169). -/
def encCwb (func : Nat) (x : CwbArgs) : Fields :=
  encScope x.scope { fieldsOf x.m 13 func with a := regField x.a, b := regField x.b, imm := x.imm }
/-- CBOUND, CNARROW and CADDR (R78). -/
def encCap (func : Nat) (x : CapArgs) : Fields :=
  { fieldsOf x.m 14 func with d := regField x.d, a := regField x.a, b := regField x.b }
/-- The zeroing form's fx (R55). -/
def encZf (z : Bool) : BitVec 6 := if z then 1 else 0
/-- VIALU of two sources (R194). -/
def encVBin (func : Nat) (x : VBinArgs) : Fields :=
  { fieldsOf x.m 16 func with e := encZf x.zf, ty := x.ty.code, sat := ofBit x.sat, wid := x.wid, d := regField x.d,
                              a := regField x.a, b := regField x.b }
/-- VABS and VNEG (R194). -/
def encVUn (func : Nat) (x : VUnArgs) : Fields :=
  { fieldsOf x.m 16 func with e := encZf x.zf, ty := x.ty.code, sat := ofBit x.sat, d := regField x.d, a := regField x.a }
/-- VFALU of two sources (R195). -/
def encVfBin (func : Nat) (x : VfBinArgs) : Fields :=
  { fieldsOf x.m 17 func with e := encZf x.zf, ty := x.ty.code, rm := x.rm.code, sat := ofBit x.sat, wid := x.wid,
                              d := regField x.d, a := regField x.a, b := regField x.b }
/-- Two vector sources and a type. -/
def encVTwo (major func : Nat) (x : VTwoArgs) : Fields :=
  { fieldsOf x.m major func with e := encZf x.zf, ty := x.ty.code, d := regField x.d, a := regField x.a, b := regField x.b }
/-- One vector source and a type. -/
def encVOne (major func : Nat) (x : VOneArgs) : Fields :=
  { fieldsOf x.m major func with e := encZf x.zf, ty := x.ty.code, d := regField x.d, a := regField x.a }
/-- VFMA and its relatives (R195). -/
def encVfma (func : Nat) (x : VfmaArgs) : Fields :=
  { fieldsOf x.m 18 func with e := encZf x.zf, ty := x.ty.code, rm := x.rm.code, sat := ofBit x.sat, wid := x.wid,
                              d := regField x.d, a := regField x.a, b := regField x.b, c := regField x.c }
/-- PAND, POR, PXOR (R199). -/
def encPTwo (func : Nat) (x : PTwoArgs) : Fields :=
  { fieldsOf x.m 21 func with e := encZf x.zf, d := regField x.d, a := regField x.a, b := regField x.b }
/-- PNOT, PFIRST, VEXIT (R199). -/
def encPOne (func : Nat) (x : POneArgs) : Fields :=
  { fieldsOf x.m 21 func with e := encZf x.zf, d := regField x.d, a := regField x.a }
/-- Slides and whole-register shifts (R200, R205). -/
def encVSlide (major func : Nat) (x : VSlideArgs) : Fields :=
  { fieldsOf x.m major func with e := encZf x.zf, ty := x.ty.code, d := regField x.d, a := regField x.a, b := regField x.g,
                                 imm := x.k }
/-- VFSHLW and VFSHRW (R205). -/
def encVFsh (func : Nat) (x : VFshArgs) : Fields :=
  { fieldsOf x.m 25 func with e := encZf x.zf, ty := x.ty.code, d := regField x.d, a := regField x.a, b := regField x.b,
                              c := regField x.g, imm := x.k }
/-- Vector loads and stores with an offset (R206). -/
def encVMem (major func : Nat) (x : VMemArgs) : Fields :=
  { fieldsOf x.m major func with e := encZf x.zf, ty := x.ty.code, scope := x.scope.code, hint := x.hint, d := regField x.d,
                                 a := regField x.a, b := regField x.b, imm := x.imm }
/-- VLDX and VSTX (R206). -/
def encVMemX (major func : Nat) (x : VMemXArgs) : Fields :=
  { fieldsOf x.m major func with e := encZf x.zf, ty := x.ty.code, scope := x.scope.code, hint := x.hint, d := regField x.d,
                                 a := regField x.a, b := regField x.b }
/-- VLDSEG and VSTSEG (R211). -/
def encVSeg (major func : Nat) (x : VSegArgs) : Fields :=
  { fieldsOf x.m major func with e := encZf x.zf, ty := x.ty.code, scope := x.scope.code, hint := x.hint, d := regField x.d,
                                 a := regField x.a, b := regField x.b, c := regField x.c, imm := ofBit x.fine ++ x.dist }
/-- VQUANT and VDEQUANT (R230, R231). -/
def encVquant (func : Nat) (x : VquantArgs) : Fields :=
  { fieldsOf x.m 28 func with e := x.dt.code.setWidth 6, ty := x.st.code, rm := x.rm.code, sat := ofBit x.sat,
                              d := regField x.d, a := regField x.a, b := regField x.b, c := regField x.c,
                              imm := ofBit x.fine ++ x.off }
/-- MLDT and MLDT.t (R240). -/
def encMldt (func : Nat) (x : MldtArgs) : Fields :=
  { fieldsOf x.m 30 func with d := x.kind.code, ty := x.ty.code, hint := x.hint, a := regField x.a, b := regField x.b,
                              imm := x.imm }
/-- MROW and MROWA (R240). -/
def encMrow (func : Nat) (x : MrowArgs) : Fields :=
  { fieldsOf x.m 30 func with ty := x.ty.code, sat := ofBit x.sat, b := x.sk.code, d := regField x.d, a := regField x.a,
                              c := regField x.c }
/-- EPOP, EPOP.nw and EQSTAT (R284). -/
def encEpop (func b : Nat) (x : EpopArgs) : Fields :=
  { fieldsOf x.m 31 func with d := regField x.d, a := regField x.port, b := BitVec.ofNat 6 b }
/-- A destination only. -/
def encMd (major func b : Nat) (x : MdArgs) : Fields :=
  { fieldsOf x.m major func with d := regField x.d, b := BitVec.ofNat 6 b }
/-- A destination and one source. -/
def encMda (major func b : Nat) (x : MdaArgs) : Fields :=
  { fieldsOf x.m major func with d := regField x.d, a := regField x.a, b := BitVec.ofNat 6 b }
/-- LARM (R318). -/
def encLarm (b : Nat) (x : LarmArgs) : Fields :=
  { fieldsOf x.m 32 4 with d := regField x.d, a := regField x.a, b := BitVec.ofNat 6 b, imm := x.k }
/-- A destination and two sources of major 33. -/
def encMdab (func imm : Nat) (x : MdabArgs) : Fields :=
  { fieldsOf x.m 33 func with d := regField x.d, a := regField x.a, b := regField x.b, imm := BitVec.ofNat 21 imm }
/-- VDEFER and VDRAIN's immediate (R303). -/
def encDefer (p : BitVec 3) (k : Fin 5) : Imm := 0#15 ++ p ++ BitVec.ofNat 3 k

/-- The fields of a Nymzin instruction; none for every other row. -/
def toFields : Instr → Option Fields
  | .add x => some (encSalu 0 x)
  | .sub x => some (encSalu 1 x)
  | .mul x => some (encSalu 2 x)
  | .mulh x => some (encSalu 3 x)
  | .div x => some (encSalu 4 x)
  | .rem x => some (encSalu 5 x)
  | .and x => some (encSalu 6 x)
  | .or x => some (encSalu 7 x)
  | .xor x => some (encSalu 8 x)
  | .andn x => some (encSalu 9 x)
  | .shl x => some (encSalu 10 x)
  | .shr x => some (encSalu 11 x)
  | .sar x => some (encSalu 12 x)
  | .rot x => some (encSalu 13 x)
  | .min x => some (encSalu 14 x)
  | .max x => some (encSalu 15 x)
  | .clz x => some (encSaluUn 16 x)
  | .ctz x => some (encSaluUn 17 x)
  | .popc x => some (encSaluUn 18 x)
  | .bext x => some (encSalu 19 x)
  | .bdep x => some (encSalu 20 x)
  | .sel x => some { fieldsOf x.m 1 21 with d := regField x.d, a := regField x.a,
                                            b := if x.lit.isSome then 0 else regField x.b, c := regField x.c,
                                            ty := x.ty.code, lit := x.lit.getD 0 }
  | .addi x => some (encImm12 (x.m.form = .base) x.imm
      { fieldsOf x.m 2 0 with d := regField x.d, a := regField x.a, ty := x.ty.code, sat := ofBit x.sat })
  | .cmp x => some { fieldsOf x.m 3 x.cond.code.toNat with
      d := regField x.d, a := regField x.a, b := if x.lit.isSome then 0 else regField x.b, ty := x.ty.code,
      lit := x.lit.getD 0 }
  | .li x =>
    let f : Fields := { fieldsOf x.m 4 0 with d := regField x.d, lit := x.lit.getD 0 }
    some (match x.m.form with
      | .base => { f with func := x.imm.extractLsb' 12 6, b := x.imm.extractLsb' 6 6, a := x.imm.extractLsb' 0 6 }
      | .ext => { f with imm := x.imm }
      | .lit | .extLit => f)
  | .b x => some (encB 5 x)
  | .bc x =>
    let f : Fields := { fieldsOf x.m 6 x.cond.code.toNat with a := regField x.a }
    some (if x.m.form = .base then { f with b := x.off.extractLsb' 6 6, d := x.off.extractLsb' 0 6 }
      else { f with imm := x.off })
  | .call x => some (encB 7 x)
  | .jmp x => some { fieldsOf x.m 8 0 with a := regField x.a }
  | .jmpCall x => some { fieldsOf x.m 8 0 with a := regField x.a, b := 1 }
  | .ret x => some { fieldsOf x.m 8 1 with imm := x.k.setWidth 21 }
  | .callq x => some { fieldsOf x.m 8 2 with a := regField x.c, d := regField x.g }
  | .park x => some { fieldsOf x.m 8 3 with a := regField x.c, b := regField x.x, d := regField x.v, imm := x.imm }
  | .halt x => some (fieldsOf x.m 8 4)
  | .yieldCore x => some (fieldsOf x.m 8 5)
  | .ld x => some (encLd 9 x)
  | .st x => some (encLd 10 x)
  | .ldc x => some (encLdc 0 x)
  | .stc x => some (encLdc 1 x)
  | .amo x => some { fieldsOf x.m 12 x.kind.code.toNat with
      ty := x.ty.code, scope := x.scope.code, hint := x.hint, d := regField x.d, a := regField x.a, b := regField x.b,
      c := regField x.c, imm := x.imm }
  | .fenceSv x => some (encScope x.scope (fieldsOf x.m 13 0))
  | .fenceVs x => some (encScope x.scope (fieldsOf x.m 13 1))
  | .fenceVv x => some (encScope x.scope (fieldsOf x.m 13 2))
  | .fenceAll x => some (encScope x.scope (fieldsOf x.m 13 3))
  | .tfence x => some (encScope x.scope
      { fieldsOf x.m 13 4 with a := regField x.a, b := regField x.b, imm := x.kind.code })
  | .cwb x => some (encCwb 5 x)
  | .iinv x => some (encCwb 6 x)
  | .ifence x => some (fieldsOf x.m 13 7)
  | .cbound x => some (encCap 0 x)
  | .cnarrow x => some (encCap 1 x)
  | .caddr x => some (encCap 2 x)
  | .cinc x => some { fieldsOf x.m 14 3 with d := regField x.d, a := regField x.a, b := regField x.b, imm := x.imm }
  | .cget x => some { fieldsOf x.m 14 4 with d := regField x.d, a := regField x.a, imm := x.kind.code }
  | .ctest x => some { fieldsOf x.m 14 5 with d := regField x.d, a := regField x.a, b := regField x.b,
                                              imm := if x.eq then 1 else 0 }
  | .cmov x => some { fieldsOf x.m 14 6 with d := regField x.d, a := regField x.a }
  | .vmode x => some { fieldsOf x.m 15 0 with imm := if x.long then 1 else 0 }
  | .setvl x => some { fieldsOf x.m 15 1 with ty := x.ty.code, d := regField x.d, a := regField x.a, imm := x.n }
  | .vadd x => some (encVBin 0 x)
  | .vsub x => some (encVBin 1 x)
  | .vmul x => some (encVBin 2 x)
  | .vmulh x => some (encVBin 3 x)
  | .vand x => some (encVBin 4 x)
  | .vor x => some (encVBin 5 x)
  | .vxor x => some (encVBin 6 x)
  | .vandn x => some (encVBin 7 x)
  | .vshl x => some (encVBin 8 x)
  | .vshr x => some (encVBin 9 x)
  | .vsar x => some (encVBin 10 x)
  | .vmin x => some (encVBin 11 x)
  | .vmax x => some (encVBin 12 x)
  | .vabs x => some (encVUn 13 x)
  | .vneg x => some (encVUn 14 x)
  | .vmacc x => some (encVBin 15 x)
  | .vsat x => some { fieldsOf x.m 16 16 with e := encZf x.zf, ty := x.ty.code, d := regField x.d, a := regField x.a,
                                              imm := x.k.setWidth 21 }
  | .vsel x => some { fieldsOf x.m 16 17 with e := encZf x.zf, ty := x.ty.code, d := regField x.d, a := regField x.a,
                                              b := regField x.b, c := regField x.c }
  | .vfadd x => some (encVfBin 0 x)
  | .vfsub x => some (encVfBin 1 x)
  | .vfmul x => some (encVfBin 2 x)
  | .vfmin x => some (encVTwo 17 3 x)
  | .vfmax x => some (encVTwo 17 4 x)
  | .vfabs x => some (encVOne 17 5 x)
  | .vfneg x => some (encVOne 17 6 x)
  | .vfdiv x => some (encVfBin 7 x)
  | .vfsqrt x => some { fieldsOf x.m 17 8 with e := encZf x.zf, ty := x.ty.code, rm := x.rm.code, sat := ofBit x.sat,
                                               d := regField x.d, a := regField x.a }
  | .vfrsq x => some (encVOne 17 9 x)
  | .vfexp2 x => some (encVOne 17 10 x)
  | .vfma x => some (encVfma 0 x)
  | .vfms x => some (encVfma 1 x)
  | .vfnma x => some (encVfma 2 x)
  | .vfnms x => some (encVfma 3 x)
  | .vcmp x => some { fieldsOf x.m 19 x.cond.code.toNat with
      e := encZf x.zf, ty := x.ty.code, d := regField x.d, a := regField x.a, b := regField x.b }
  | .vfcmp x => some { fieldsOf x.m 20 x.cond.code.toNat with
      e := encZf x.zf, ty := x.ty.code, d := regField x.d, a := regField x.a, b := regField x.b }
  | .pand x => some (encPTwo 0 x)
  | .por x => some (encPTwo 1 x)
  | .pxor x => some (encPTwo 2 x)
  | .pnot x => some (encPOne 3 x)
  | .pfirst x => some (encPOne 4 x)
  | .pcount x => some { fieldsOf x.m 21 5 with d := regField x.d, a := regField x.a }
  | .vexit x => some (encPOne 6 x)
  | .vperm x => some (encVTwo 22 0 x)
  | .vslideUp x => some (encVSlide 22 1 x)
  | .vslideDn x => some (encVSlide 22 2 x)
  | .vbcast x => some { fieldsOf x.m 22 3 with e := encZf x.zf, ty := x.ty.code, d := regField x.d, a := regField x.g }
  | .vcompress x => some (encVOne 22 4 x)
  | .vexpand x => some (encVOne 22 5 x)
  | .vzip x => some (encVTwo 22 6 x)
  | .vunzip x => some { fieldsOf x.m 22 7 with e := encZf x.zf, ty := x.ty.code, d := regField x.d, a := regField x.a,
                                               b := regField x.b, imm := if x.k then 1 else 0 }
  | .vred x => some { fieldsOf x.m 23 x.kind.code.toNat with
      ty := x.ty.code, rm := x.rm.code, sat := ofBit x.sat, wid := x.wid, d := regField x.d, a := regField x.a }
  | .vscan x => some { fieldsOf x.m 24 x.kind.code.toNat with
      e := encZf x.zf, ty := x.ty.code, rm := x.rm.code, sat := ofBit x.sat, wid := x.wid, d := regField x.d,
      a := regField x.a, imm := 0#19 ++ ofBit x.carry ++ ofBit x.excl }
  | .vshlw x => some (encVSlide 25 0 x)
  | .vshrw x => some (encVSlide 25 1 x)
  | .vfshlw x => some (encVFsh 2 x)
  | .vfshrw x => some (encVFsh 3 x)
  | .vld x => some (encVMem 26 0 x)
  | .vlds x => some (encVMem 26 1 x)
  | .vldx x => some (encVMemX 26 2 x)
  | .vldff x => some (encVMem 26 3 x)
  | .vldseg x => some (encVSeg 26 4 x)
  | .vst x => some (encVMem 27 0 x)
  | .vsts x => some (encVMem 27 1 x)
  | .vstx x => some (encVMemX 27 2 x)
  | .vstseg x => some (encVSeg 27 3 x)
  | .vcvt x => some { fieldsOf x.m 28 0 with e := x.dt.code.setWidth 6, ty := x.st.code, rm := x.rm.code,
                                             sat := ofBit x.sat, d := regField x.d, a := regField x.a, b := regField x.b,
                                             imm := 0#1 ++ x.off }
  | .vquant x => some (encVquant 1 x)
  | .vdequant x => some (encVquant 2 x)
  | .vbind x => some { fieldsOf x.m 29 0 with d := BitVec.ofNat 6 (x.d + 24), a := regField x.a, b := regField x.b,
                                              hint := x.hint, imm := x.imm }
  | .vunbind x => some { fieldsOf x.m 29 1 with d := BitVec.ofNat 6 (x.d + 24) }
  | .mldt x => some (encMldt 0 x)
  | .mldtT x => some (encMldt 1 x)
  | .mrow x => some (encMrow 2 x)
  | .mrowa x => some (encMrow 3 x)
  | .mzero x => some { fieldsOf x.m 30 4 with ty := if x.int then Ty.i32.code else Ty.f32.code, imm := x.mask.setWidth 21 }
  | .mswap x => some (fieldsOf x.m 30 5)
  | .mchain x => some { fieldsOf x.m 30 6 with b := if x.lit.isSome then 0 else regField x.b, lit := x.lit.getD 0 }
  | .mtbl x => some { fieldsOf x.m 30 7 with d := x.which.code, a := regField x.a, b := regField x.b, imm := x.imm }
  | .mdrain x => some { fieldsOf x.m 30 8 with e := encZf x.zf, ty := x.ty.code, rm := x.rm.code, sat := ofBit x.sat,
                                               d := regField x.d, a := regField x.a, b := regField x.b }
  | .epush x => some { fieldsOf x.m 31 0 with d := regField x.d, a := regField x.a,
                                              b := if x.lit.isSome then 0 else regField x.b, c := regField x.c,
                                              imm := x.stride, lit := x.lit.getD 0 }
  | .epop x => some (encEpop 1 0 x)
  | .epopNw x => some (encEpop 1 1 x)
  | .eqstat x => some (encEpop 2 0 x)
  | .evpop x => some (encMd 31 3 0 x)
  | .evpopNw x => some (encMd 31 3 1 x)
  | .dpush x => some { fieldsOf x.m 32 0 with d := regField x.d, a := regField x.a, b := regField x.b, imm := x.k }
  | .dpop x => some (encMd 32 1 0 x)
  | .dsteal x => some (encMda 32 2 0 x)
  | .lpatch x => some { fieldsOf x.m 32 3 with d := regField x.d, a := regField x.a,
                                               b := if x.lit.isSome then 0 else regField x.b, imm := x.k,
                                               lit := x.lit.getD 0 }
  | .larmPlace x => some (encLarm 0 x)
  | .larmArm x => some (encLarm 1 x)
  | .larmDisarm x => some (encLarm 2 x)
  | .tfork x => some { fieldsOf x.m 33 0 with d := regField x.d, a := regField x.a, b := regField x.b, imm := x.off }
  | .treward x => some (encMda 33 1 0 x)
  | .tbar x => some (encMd 33 2 0 x)
  | .tcancel x => some (encMdab 3 0 x)
  | .tadv x => some (encMdab 4 0 x)
  | .tadvNw x => some (encMdab 4 1 x)
  | .sspawn x => some { fieldsOf x.m 34 0 with d := regField x.d, a := regField x.cond, b := regField x.b,
                                               c := if x.side then 1 else 0, imm := x.off }
  | .sresolve x => some { fieldsOf x.m 34 1 with d := regField x.d, a := regField x.cond, b := regField x.b }
  | .sresolveFree x => some { fieldsOf x.m 34 1 with d := regField x.d, a := regField x.cond, imm := 1 }
  | .slk x => some (encMd 34 2 0 x)
  | .slkSeg x => some (encMda 34 2 1 x)
  | .slkCond x => some { fieldsOf x.m 34 2 with d := regField x.d, a := regField x.cond, b := 2 }
  | .clset x => some { fieldsOf x.m 35 0 with d := regField x.d, a := regField x.a,
                                              b := if x.lit.isSome then 0 else regField x.b, c := regField x.level,
                                              imm := x.str ++ x.cnt, lit := x.lit.getD 0 }
  | .clrun x =>
    let f := fieldsOf x.m 35 1
    some (if x.m.form = .base then { f with a := (x.n.extractLsb' 6 2).setWidth 6, d := x.n.extractLsb' 0 6 }
      else { f with imm := x.n.setWidth 21 })
  | .vdefer x => some { fieldsOf x.m 36 0 with ty := x.ty.code, a := regField x.a, b := regField x.b,
                                               imm := encDefer x.p x.k }
  | .vdrain x => some { fieldsOf x.m 36 1 with ty := x.ty.code, d := regField x.d, a := regField x.a, b := regField x.b,
                                               imm := encDefer x.p x.k }
  | _ => none

/-- The 5-bit field of a roustabout register. -/
def xField (x : XReg) : BitVec 5 := BitVec.ofFin x

/-- A word of the roustabout extension (R71). -/
def encQ (op f3 f7 : Nat) (x : QArgs) : Word32 :=
  BitVec.ofNat 7 f7 ++ xField x.rs2 ++ xField x.rs1 ++ BitVec.ofNat 3 f3 ++ xField x.rd ++ BitVec.ofNat 7 op

/-- An RV64 word of I format. -/
def encRvI (op f3 : Nat) (rd rs1 : XReg) (imm : BitVec 12) : Word32 :=
  imm ++ xField rs1 ++ BitVec.ofNat 3 f3 ++ xField rd ++ BitVec.ofNat 7 op
/-- An RV64 word of R format. -/
def encRvR (op f3 f7 : Nat) (rd rs1 rs2 : XReg) : Word32 :=
  BitVec.ofNat 7 f7 ++ xField rs2 ++ xField rs1 ++ BitVec.ofNat 3 f3 ++ xField rd ++ BitVec.ofNat 7 op

/-- The funct3 of a register or immediate operation. -/
def RvAlu.f3 : RvAlu → Nat
  | .add | .sub => 0
  | .sll => 1 | .slt => 2 | .sltu => 3 | .xor => 4
  | .srl | .sra => 5
  | .or => 6 | .and => 7
/-- The funct3 of a 32-bit operation. -/
def RvAluW.f3 : RvAluW → Nat
  | .addw | .subw => 0
  | .sllw => 1
  | .srlw | .sraw => 5

/-- The 32-bit word of an RV64IM operation (R259). -/
def encRv : RvOp → Word32
  | .lui rd imm => imm ++ xField rd ++ 0b0110111#7
  | .auipc rd imm => imm ++ xField rd ++ 0b0010111#7
  | .jal rd off => off.extractLsb' 20 1 ++ off.extractLsb' 1 10 ++ off.extractLsb' 11 1 ++ off.extractLsb' 12 8 ++
      xField rd ++ 0b1101111#7
  | .jalr rd rs1 imm => encRvI 0b1100111 0 rd rs1 imm
  | .branch c rs1 rs2 off =>
    let f3 : Nat := match c with
      | .eq => 0 | .ne => 1 | .lt => 4 | .ge => 5 | .ltu => 6 | .geu => 7
    off.extractLsb' 12 1 ++ off.extractLsb' 5 6 ++ xField rs2 ++ xField rs1 ++ BitVec.ofNat 3 f3 ++
      off.extractLsb' 1 4 ++ off.extractLsb' 11 1 ++ 0b1100011#7
  | .load k rd rs1 imm =>
    let f3 : Nat := match k with
      | .lb => 0 | .lh => 1 | .lw => 2 | .ld => 3 | .lbu => 4 | .lhu => 5 | .lwu => 6
    encRvI 0b0000011 f3 rd rs1 imm
  | .store k rs1 rs2 imm =>
    let f3 : Nat := match k with
      | .sb => 0 | .sh => 1 | .sw => 2 | .sd => 3
    imm.extractLsb' 5 7 ++ xField rs2 ++ xField rs1 ++ BitVec.ofNat 3 f3 ++ imm.extractLsb' 0 5 ++ 0b0100011#7
  | .opImm k rd rs1 imm => encRvI 0b0010011 k.f3 rd rs1 (if k = .sra then imm ||| 0x400 else imm)
  | .op k rd rs1 rs2 => encRvR 0b0110011 k.f3 (if k = .sub ∨ k = .sra then 32 else 0) rd rs1 rs2
  | .opImmW k rd rs1 imm => encRvI 0b0011011 k.f3 rd rs1 (if k = .sraw then imm ||| 0x400 else imm)
  | .opW k rd rs1 rs2 => encRvR 0b0111011 k.f3 (if k = .subw ∨ k = .sraw then 32 else 0) rd rs1 rs2
  | .mul k rd rs1 rs2 =>
    let f3 : Nat := match k with
      | .mul => 0 | .mulh => 1 | .mulhsu => 2 | .mulhu => 3 | .div => 4 | .divu => 5 | .rem => 6 | .remu => 7
    encRvR 0b0110011 f3 1 rd rs1 rs2
  | .mulW k rd rs1 rs2 =>
    let f3 : Nat := match k with
      | .mulw => 0 | .divw => 4 | .divuw => 5 | .remw => 6 | .remuw => 7
    encRvR 0b0111011 f3 1 rd rs1 rs2
  | .fenceI => 0b00000000000000000001000000001111#32

/-- The funct5 of an A-extension operation. -/
def RvAmoOp.f5 : RvAmoOp → BitVec 5
  | .lr => 2 | .sc => 3 | .swap => 1 | .add => 0 | .xor => 4 | .and => 12 | .or => 8 | .min => 16 | .max => 20
  | .minu => 24 | .maxu => 28

/-- The 4-bit field of a Lysyo register. -/
def lField (x : LReg) : BitVec 4 := BitVec.ofFin x

/-- A Lysyo word of I form (R385). -/
def encLyI (op : Nat) (x : LyIArgs) : Word32 :=
  BitVec.ofNat 6 op ++ lField x.rd ++ lField x.ra ++ 0#2 ++ x.imm
/-- A Lysyo word of R form (R385). -/
def encLyR (op : Nat) (x : LyRArgs) : Word32 :=
  BitVec.ofNat 6 op ++ lField x.rd ++ lField x.ra ++ lField x.rb ++ 0#14

/-- The one word of an instruction of a roustabout or a calliope; a compressed roustabout instruction is given as the
32-bit word of the operation it stands for. -/
def encodeOther : Instr → Option Word32
  | .qePush x => some (encQ 0x0B 0 0 x)
  | .qePop x => some (encQ 0x0B 0 1 x)
  | .qeStat x => some (encQ 0x0B 0 2 x)
  | .qeWait x => some (encQ 0x0B 0 3 x)
  | .qaPush x => some (encQ 0x0B 1 0 x)
  | .qaStat x => some (encQ 0x0B 1 1 x)
  | .qbPush x => some (encQ 0x0B 2 0 x)
  | .qbStat x => some (encQ 0x0B 2 1 x)
  | .qdPop x => some (encQ 0x0B 3 0 x)
  | .qdStat x => some (encQ 0x0B 3 1 x)
  | .qsStrip x => some (encQ 0x2B 0 0 x)
  | .qsScale x => some (encQ 0x2B 0 1 x)
  | .qsEnd x => some (encQ 0x2B 0 2 x)
  | .qvFence x => some (encQ 0x2B 1 0 x)
  | .qvEvent x => some (encQ 0x2B 1 1 x)
  | .qvWait x => some (encQ 0x2B 1 2 x)
  | .roustaboutFence x => some (x.fm ++ x.pred ++ x.succ ++ xField x.rs1 ++ 0#3 ++ xField x.rd ++ 0b0001111#7)
  | .roustaboutAmo x => some (x.op.f5 ++ ofBit x.aq ++ ofBit x.rl ++ xField x.rs2 ++ xField x.rs1 ++
      (if x.dbl then 3#3 else 2#3) ++ xField x.rd ++ 0b0101111#7)
  | .roustaboutInstruction x => some (encRv x.op)
  | .lysyoEnd x => some (encLyI 0b000001 x)
  | .lysyoLi x => some (encLyI 0b000010 x)
  | .lysyoLih x => some (encLyI 0b000011 x)
  | .lysyoAddi x => some (encLyI 0b000100 x)
  | .lysyoAdd x => some (encLyR 0b001000 x)
  | .lysyoSub x => some (encLyR 0b001001 x)
  | .lysyoAnd x => some (encLyR 0b001010 x)
  | .lysyoOr x => some (encLyR 0b001011 x)
  | .lysyoXor x => some (encLyR 0b001100 x)
  | .lysyoShl x => some (encLyR 0b001101 x)
  | .lysyoShr x => some (encLyR 0b001110 x)
  | .lysyoMinu x => some (encLyR 0b001111 x)
  | .lysyoMaxu x => some (encLyR 0b010000 x)
  | .ldpk x => some (encLyI 0b010100 x)
  | .stpk x => some (encLyI 0b010101 x)
  | .ldrg x => some (encLyI 0b010110 x)
  | .ldwn x => some (encLyI 0b010111 x)
  | .stwn x => some (encLyI 0b011000 x)
  | .beq x => some (encLyI 0b011100 x)
  | .bne x => some (encLyI 0b011101 x)
  | .bltu x => some (encLyI 0b011110 x)
  | .lysyoLoop x => some (encLyI 0b100000 x)
  | .time x => some (encLyI 0b100100 x)
  | .qinfo x => some (encLyI 0b100101 x)
  | _ => none

/-- The words of an instruction, in address order; a step of the part has none. -/
def encode (i : Instr) : List Word32 :=
  match toFields i with
  | some f => f.words
  | none => (encodeOther i).toList

/-! ### The host's reading of a table word -/

/-- The words of an instruction whose bits are `w`, word 0 lowest; the bits above are zero. -/
def tableWords (w : Nat) : List Word32 :=
  [BitVec.ofNat 32 w, BitVec.ofNat 32 (w >>> 32), BitVec.ofNat 32 (w >>> 64), BitVec.ofNat 32 (w >>> 96),
   BitVec.ofNat 32 (w >>> 128)]

/-- The instruction that the decoders read from a word of the opcode table. Three kinds of agent fetch instructions: a
word of opcode 0001011 or 0101011 is the roustabout extension's where that decodes, else the word is Nymzin's where that
decodes, else Lysyo's (notes/assumptions/9.md). -/
def decodeTableWord (nbits w : Nat) : Option Instr :=
  let w := w % 2 ^ nbits
  match decodeQ (BitVec.ofNat 32 w) with
  | some i => some i
  | none =>
    match decodeWords (tableWords w) with
    | some i => some i
    | none => decodeLysyo (BitVec.ofNat 32 w)

end Sys2Proof
end

