-- ==== Sys2Proof/Machine/Flags.lean ====
section
/-! DEFINITION. The conditions that comparisons, branches and predicates compute (R65, R151, R153, R198), and the ranges of
the integer types with Wrap and Sat (R31, R145). The part has no arithmetic flags: a condition is a value. -/

namespace Sys2Proof.Machine

/-- A condition between two integers (R65). -/
def condHolds (c : Cond) (x y : Int) : Bool :=
  match c with
  | .eq => decide (x = y)
  | .ne => decide (x ≠ y)
  | .lt => decide (x < y)
  | .le => decide (x ≤ y)
  | .gt => decide (y < x)
  | .ge => decide (y ≤ x)

/-- Ext of R145: a value read at an integer type. -/
def extTy (t : Ty) (x : Int) : Int := if t.signed then signExt x t.width else zeroExt x t.width

/-- The least value of an integer type. -/
def tyMin (t : Ty) : Int := if t.signed then -(2 ^ (t.width - 1) : Nat) else 0
/-- The greatest value of an integer type. -/
def tyMax (t : Ty) : Int := if t.signed then (2 ^ (t.width - 1) : Nat) - 1 else (2 ^ t.width : Nat) - 1

/-- Sat(z, t) (R31). -/
def satTy (t : Ty) (z : Int) : Int := if z < tyMin t then tyMin t else if tyMax t < z then tyMax t else z

/-- Wrap(z, n) as a general register holds it: the low n bits, read in the type's signedness (R145). -/
def wrapTy (t : Ty) (z : Int) : Word := wordOf (extTy t z)

/-- A result of an integer instruction: saturated if asked, then wrapped (R145). -/
def intResult (t : Ty) (sat : Bool) (z : Int) : Word := wrapTy t (if sat then satTy t z else z)

end Sys2Proof.Machine
end

