-- ==== Sys2Proof/Machine/TileLoad.lean ====
section
/-! DEFINITION. What the stationary-operand load port reads (R239, R241, R242): a tile's bytes from the core's pewter slice,
decrypted, or from its scratchpad; and the end of a load in flight (R242, R254). -/

namespace Sys2Proof.Machine

/-- Bytes of a tile's scales (R241): K / bl rows of 256. -/
def tileScales (kind : MxKind) (k : Nat) : Nat :=
  match kind with
  | .none => 0
  | .mx => k / 32 * 256
  | .fine => k / 16 * 256

/-- The weight attribute of the unit that holds a pewter address (R238). -/
def unitAttr (s : State) (pa : Nat) : Word := (lookupKey (alignDown pa 4096) s.attrs).getD 0

/-- The units that `[pa, pa + n)` meets. -/
def unitsOf (pa n : Nat) : List Nat :=
  (List.range ((pa + n - 1) / 4096 - pa / 4096 + 1)).map (fun i => alignDown pa 4096 + 4096 * i)

/-- A unit's bytes as the port delivers them (R239). -/
def portUnit (s : State) (u : Nat) : List Byte :=
  let a := unitAttr s u
  let bs := memRead s.mem u 4096
  match lookupKey (field a 48 8) s.keys with
  | some k => if field a 48 8 = 0 then bs else xtsDecrypt k.key (field a 0 48) 0 bs
  | none => bs

/-- `n` bytes through the port from a pewter slice. -/
def portRead (s : State) (pa n : Nat) : List Byte :=
  (((unitsOf pa n).map (portUnit s)).flatten.drop (pa % 4096)).take n

/-- The bytes that a descriptor names: the address on core `k`, and how many. -/
def tileRange (k depth : Nat) (t : Tile) : Nat × Nat :=
  ((if t.scratch then spadOf k else pewterOf k) + t.offset, 32768 + tileScales t.kind depth)

/-- The tile that a descriptor names, read now by core `k`. -/
def readTile (s : State) (k : Nat) (depth : Nat) (t : Tile) : Tile :=
  let r := tileRange k depth t
  let bs := if t.scratch then memRead s.mem r.1 r.2 else portRead s r.1 r.2
  { t with
    valid := true
    pend := false
    elems := BitVec.ofNat 262144 (natOfBytes (bs.take 32768))
    scales := BitVec.ofNat 32768 (natOfBytes (bs.drop 32768)) }

/-- K of a tile type (R233). -/
def tileK : Ty → Nat
  | .e2m1 | .i4 => 256
  | .bf16 | .f16 => 64
  | _ => 128

/-- The shadow slot set (R232). -/
def setShadow (m : Matrix) (t : Tile) : Matrix := if m.act then { m with slot0 := t } else { m with slot1 := t }

/-- Granule `i` of a tile's bytes set: its elements come first, then its scales. -/
def setGranule (t : Tile) (i : Nat) (v : Nat) : Tile :=
  if i < 512 then { t with elems := setField t.elems (512 * i) 512 v }
  else { t with scales := setField t.scales (512 * (i - 512)) 512 v }

/-- Granule `i` of a tile's bytes. -/
def granuleOf (t : Tile) (i : Nat) : Nat :=
  if i < 512 then field t.elems (512 * i) 512 else field t.scales (512 * (i - 512)) 512

/-- The PerformLoad step of one 64-byte granule of the load in flight of a slot (R242). -/
def tileGranule (s : State) (slot i : Nat) : State :=
  let c := s.ctxAt slot
  match c.mx.load, c.core with
  | some t, some k =>
    let r := tileRange k (tileK t.ty) t
    if r.2 ≤ 64 * i || c.mx.got.contains i then s
    else
      let bs := if t.scratch then memRead s.mem (r.1 + 64 * i) 64 else portRead s (r.1 + 64 * i) 64
      s.modCtx slot (fun c => { c with mx := { c.mx with load := some (setGranule t i (natOfBytes bs)), got := i :: c.mx.got } })
  | _, _ => s

/-- A load in flight completes (R242): the granules that have not been read are read. -/
def finishTile (s : State) (slot : Nat) : State :=
  let c := s.ctxAt slot
  match c.mx.load, c.core with
  | some t, some k =>
    let all := readTile s k (tileK t.ty) t
    let full := c.mx.got.foldl (fun x i => setGranule x i (granuleOf t i)) all
    s.modCtx slot (fun c => { c with mx := { setShadow c.mx full with load := none, got := [] } })
  | _, _ => s

end Sys2Proof.Machine
end

