-- ==== Sys2Proof/Machine/Caps.lean ====
section
/-! DEFINITION. Capabilities as values: fields, bounds, representability (R73 to R75), and the derivations of CBOUND,
CNARROW, CADDR and CINC (R79 to R81) that instructions, launches and the default loader share. -/

namespace Sys2Proof.Machine

/-- perms, in the order of R74: bit 0 load to bit 5 ctl. -/
def capPerms (c : Cap) : BitVec 6 := c.bits.extractLsb' 122 6
/-- otype (R73). -/
def capOtype (c : Cap) : BitVec 8 := c.bits.extractLsb' 114 8
/-- e (R73). -/
def capE (c : Cap) : Nat := field c.bits 108 6
/-- bm (R73). -/
def capBm (c : Cap) : Nat := field c.bits 86 22
/-- lm (R73). -/
def capLm (c : Cap) : Nat := field c.bits 64 22
/-- The cursor (R73). -/
def capCursor (c : Cap) : Word := c.bits.extractLsb' 0 64

/-- Bit of a permission in perms (R74). -/
inductive CapPerm where
  | load | store | lcap | scap | exec | ctl
  deriving DecidableEq, Repr

/-- The bit of a permission (R74). -/
def permBit : CapPerm → Nat
  | .load => 0 | .store => 1 | .lcap => 2 | .scap => 3 | .exec => 4 | .ctl => 5

/-- Does the capability carry the permission? -/
def capHas (c : Cap) (p : CapPerm) : Bool := (capPerms c).getLsbD (permBit p)

/-- Decode (R75): base and exclusive top. -/
def capBounds (c : Cap) : Nat × Nat :=
  let e := capE c
  let w := e + 22
  let cur := (capCursor c).toNat
  let hi := cur >>> w
  let hi := if natField cur e 22 < capBm c then (hi + 2 ^ (64 - w) - 1) % 2 ^ (64 - w) else hi
  let base := hi * 2 ^ w + capBm c * 2 ^ e
  (base, base + capLm c * 2 ^ e)

/-- The capability with another cursor, tag as it stands. -/
def withCursor (c : Cap) (x : Word) : Cap := { c with bits := setField c.bits 0 64 x.toNat }

/-- Representable (R75). -/
def representable (c : Cap) (x : Word) : Bool := capBounds (withCursor c x) == capBounds c

/-- The capability with the cursor moved to `x`, its tag kept where representable (R81). -/
def setCursor (c : Cap) (x : Word) : Cap := { withCursor c x with tag := c.tag && representable c x }

/-- CBOUND's result (R79) for a length. -/
def boundCap (c : Cap) (len : Word) : Cap :=
  let (sb, st) := capBounds c
  let lo := (capCursor c).toNat
  let hi := lo + len.toNat
  match (List.range 42).find? (fun k => decide (ceilDiv hi (2 ^ k) - lo / 2 ^ k ≤ 2 ^ 22 - 1)) with
  | none => { c with tag := false }
  | some e =>
    let nb := alignDown lo (2 ^ e)
    let nt := ceilDiv hi (2 ^ e) * 2 ^ e
    let ok := decide (sb ≤ nb) && decide (nt ≤ st) && decide (nt ≤ 2 ^ 64 - 1)
    let b := setField (setField (setField c.bits 108 6 e) 86 22 (natField nb e 22)) 64 22 ((nt - nb) / 2 ^ e)
    { bits := b, tag := c.tag && ok }

/-- CNARROW's permissions (R80). -/
def maskPerms (c : Cap) (mask : BitVec 6) : Cap :=
  { c with bits := setField c.bits 122 6 (capPerms c &&& mask).toNat }

/-- The capability with an object type set. -/
def withOtype (c : Cap) (t : BitVec 8) : Cap := { c with bits := setField c.bits 114 8 t.toNat }

/-- A capability derived from a root by CADDR, CBOUND and CNARROW (R313): base, length, permission mask. -/
def deriveCap (root : Cap) (base len : Word) (mask : BitVec 6) : Cap :=
  let c := if capOtype root = 0 then root else { root with tag := false }
  maskPerms (boundCap (setCursor c base) len) mask

/-- Did a derivation yield a tagged capability with exactly the asked permissions (R315)? -/
def derivedOk (c : Cap) (mask : BitVec 6) : Bool := c.tag && capPerms c == mask

/-! ### The faults of CapAccess (R33), before translation -/

/-- Cause codes (R105). -/
def cCapTag : BitVec 16 := 0x20
/-- Cause CAPPERM. -/
def cCapPerm : BitVec 16 := 0x21
/-- Cause CAPBOUND. -/
def cCapBound : BitVec 16 := 0x22
/-- Cause CAPSEAL. -/
def cCapSeal : BitVec 16 := 0x23
/-- Cause ALIGN. -/
def cAlign : BitVec 16 := 0x24

/-- The checks of CapAccess in their order (R33): the fault, or the virtual address. -/
def capCheck (c : Cap) (off : Int) (size : Nat) (p : CapPerm) : Except (BitVec 16) Nat :=
  if !c.tag then .error cCapTag
  else if capOtype c != 0 then .error cCapSeal
  else if !capHas c p then .error cCapPerm
  else
    let va : Int := uint (capCursor c) + off
    let (b, t) := capBounds c
    if va < b || (t : Int) < va + size then .error cCapBound
    else .ok va.toNat

end Sys2Proof.Machine
end

