-- ==== Sys2Proof/Machine/Translate.lean ====
section
/-! DEFINITION. Translation (R390 to R409): Translate, Walk, GTrans, A and D updates, held translations, page requests and
their records. -/

namespace Sys2Proof.Machine

/-- Cause PAGEMISS (R415). -/
def cPageMiss : BitVec 16 := 0x300
/-- Cause PAGEPERM. -/
def cPagePerm : BitVec 16 := 0x301
/-- Cause GPAGEMISS. -/
def cGPageMiss : BitVec 16 := 0x302
/-- Cause GPAGEPERM. -/
def cGPagePerm : BitVec 16 := 0x303
/-- Cause ADDRFMT. -/
def cAddrFmt : BitVec 16 := 0x304
/-- Cause ROOTBAD. -/
def cRootBad : BitVec 16 := 0x305
/-- Cause NOMEM. -/
def cNoMem : BitVec 16 := 0x306

/-- Cause MEMERR (R443). -/
def cMemErr : BitVec 16 := 0xB00
/-- Cause PROTECTED (R434). -/
def cProtected : BitVec 16 := 0xA01

/-- What an access asks of translation (R394): read, write, both for atomics, fetch, nothing for the walk of sealing
(R80). -/
inductive Perm where
  | read | write | both | exec | none
  deriving DecidableEq, Repr

/-- Does the access need R? -/
def needR : Perm → Bool
  | .read | .both => true | _ => false
/-- Does the access need W? -/
def needW : Perm → Bool
  | .write | .both => true | _ => false
/-- Does the access need X? -/
def needX : Perm → Bool
  | .exec => true | _ => false

/-- A fault without a request. -/
def xfault (cause : BitVec 16) (level : Nat) (g : Bool) (entry gpa : Nat) : XFault :=
  { cause := cause, level := level, gstage := g, entry := entry, gpa := gpa, req := 0xFFFFFFFF }

/-- A fault of no level (R405). -/
def xfault15 (cause : BitVec 16) : XFault := xfault cause 15 false 0 0

/-- The upper fields of DETAIL1 of a translation fault (R405). -/
def xdetail (f : XFault) (p : Perm) : Word :=
  let acc : Nat := match p with
    | .read => 1 | .write => 2 | .both => 3 | .exec => 4 | .none => 0
  BitVec.ofNat 64 (f.req.toNat <<< 32 ||| f.level <<< 28 ||| (b2n f.gstage) <<< 27 ||| acc <<< 24)

/-- Who translates: the agent whose held translations serve (see State.tlbs), the context slot or 0xFFFF, the core whose
windows count, and the root word. -/
structure Xer where
  agent : Nat
  slot : Nat
  core : Nat
  atp : Word
  deriving DecidableEq, Repr

/-- A leaf found by a walk: the address, the entry, the page's size, the page's base in the walked space. -/
structure Leaf where
  pa : Nat
  pte : Nat
  size : Nat
  deriving DecidableEq, Repr

/-- A and D set in an entry where the access asks (R396), by one compare-and-swap at the system point: a write there, which no
level two's copy outlives (R115). -/
def setAd (s : State) (ea pte : Nat) (p : Perm) : State × Nat :=
  match p with
  | .none => (s, pte)
  | _ =>
    let pte' := pte ||| 0x40 ||| (if needW p then 0x80 else 0)
    if pte' = pte then (s, pte)
    else
      let l := lineOf ea
      let s := (List.range 4).foldl (fun s d => evict2 s d l) s
      (touch (pkgMerge s l (BitVec.ofNat 512 (pte' <<< (8 * (ea % 64)))) (byteMask (ea % 64) 8) 0 0) l, pte')

/-- Is a table entry at an address refused to the walks of a root (R422): it lies in a session's range, and the root is none of
the session's? -/
def walkRefused (s : State) (root ea : Nat) : Option Nat :=
  match protectedBy s ea with
  | none => none
  | some j =>
    let x := s.sessionAt j
    let lo := field x.sroots 0 14
    if decide (lo ≤ root) && decide (root < lo + field x.sroots 16 14) then none else some j

/-- Walk (R395) for a root from level `lv - 1` down. `g` marks the G stage; `tbl` gives the physical address of a table entry.
A refused table is a fault PROTECTED whose session takes the place of the guest address; a poisoned entry meets the walk as MEMERR
(R443). -/
def walk (g : Bool) (root : Nat) (tbl : State → Nat → State × Except XFault Nat) (a wtop : Nat) (p : Perm) :
    Nat → State → Nat → State × Except XFault Leaf
  | 0, s, _ => (s, .error (xfault (if g then cGPagePerm else cPagePerm) 0 g 0 a))
  | lv + 1, s, t =>
    let w := if lv = 4 then wtop else 9
    let ga := t + 8 * natField a (12 + 9 * lv) w
    match tbl s ga with
    | (s, .error f) => (s, .error f)
    | (s, .ok ea) =>
      let perm : XFault := xfault (if g then cGPagePerm else cPagePerm) lv g 0 a
      if !inMemory s ea then (s, .error perm)
      else if (walkRefused s root ea).isSome then
        (s, .error (xfault cProtected lv g ea ((walkRefused s root ea).getD 0)))
      else if s.poison.contains (lineOf ea) then (s, .error (xfault cMemErr lv g ga a))
      else
        let pte := natOfBytes (pkgLoad s ea 8)
        let bitp (i : Nat) : Bool := natField pte i 1 = 1
        if !bitp 0 then (s, .error (xfault (if g then cGPageMiss else cPageMiss) lv g ga a))
        else if natField pte 54 7 != 0 || natField pte 61 2 != 0 || (bitp 2 && !bitp 1) then (s, .error perm)
        else if !bitp 1 && !bitp 3 then
          if natField pte 4 4 != 0 || bitp 63 then (s, .error perm)
          else walk g root tbl a wtop p lv s (natField pte 10 44 * 4096)
        else if !bitp 4 then (s, .error perm)
        else if decide (0 < lv) && natField pte 10 (9 * lv) != 0 then (s, .error perm)
        else if bitp 63 && (decide (0 < lv) || natField pte 10 4 != 8) then (s, .error perm)
        else
          let size := if bitp 63 then 65536 else 2 ^ (12 + 9 * lv)
          if (needR p && !bitp 1) || (needW p && !bitp 2) || (needX p && !bitp 3) then (s, .error perm)
          else
            let (s, pte) := setAd s ea pte p
            (s, .ok { pa := alignDown (natField pte 10 44 * 4096) size + a % size, pte := pte, size := size })

/-- A table address that needs no second stage. -/
def tblPhys (s : State) (a : Nat) : State × Except XFault Nat := (s, .ok a)

/-- GTrans (R398): a guest physical address through the G stage. -/
def gtrans (root : Nat) (rt : Root) (p : Perm) (s : State) (gpa : Nat) : State × Except XFault Leaf :=
  if natField gpa 59 5 != 0 then (s, .error (xfault cGPagePerm 4 true 0 gpa))
  else walk true root tblPhys gpa 11 p 5 s (field rt.hgatp 0 44 * 4096)

/-- A first-stage table address in a guest (R395). -/
def tblGuest (root : Nat) (rt : Root) (s : State) (a : Nat) : State × Except XFault Nat :=
  match gtrans root rt .read s a with
  | (s, .ok l) => (s, .ok l.pa)
  | (s, .error f) => (s, .error f)

/-- Is a root page inconsistent (R392)? -/
def rootBad (rt : Root) : Bool :=
  !(bit rt.rtcfg 63) || field rt.vsatp 60 4 != 10 ||
    (if bit rt.rtcfg 62 then field rt.hgatp 60 4 != 10 else field rt.hgatp 60 4 != 0)

/-- Phys (R390, R394, R311): NOMEM outside every range, CAPBOUND in the scratchpad window of an absent core. -/
def phys (s : State) (pa : Nat) : Except XFault Nat :=
  if inSpad pa then
    if corePresent s ((pa - spadBase) / 2 ^ 20) then .ok pa else .error (xfault15 cCapBound)
  else if inMemory s pa || inPewter pa || inCtl pa || inPeer pa then .ok pa
  else .error (xfault15 cNoMem)

/-- The local window (R311): virtual addresses that reach the own core's scratchpad. -/
def localWindow : Nat := 0x00FFFFFFFFF00000
/-- The first link window (R326). -/
def linkWindow : Nat := 0x00FFFFFFE0000000

/-- The scratchpad address of an address in the local window or in a link's window (R311, R326). -/
def windowPa (s : State) (x : Xer) (va : Nat) : Option (Except XFault Nat) :=
  if localWindow ≤ va ∧ va < localWindow + 2 ^ 20 then some (.ok (spadOf x.core + (va - localWindow)))
  else if linkWindow ≤ va ∧ va < linkWindow + 15 * 2 ^ 20 then
    let gid := (s.ctxAt x.slot).gang
    match ((lookupKey gid s.links).getD [])[(va - linkWindow) / 2 ^ 20]? with
    | none => none
    | some lk =>
      let slot := (((lookupKey gid s.gangs).map (·.slots)).getD []).getD lk.consumer 0
      match (s.ctxAt slot).core with
      | some k => some (.ok (spadOf k + (va - linkWindow) % 2 ^ 20))
      | none => some (.error (xfault15 cNoMem))
  else none

/-- A held translation that serves the access (R401). -/
def tlbHit (s : State) (x : Xer) (va : Nat) (p : Perm) : Option Tlb :=
  ((lookupKey x.agent s.tlbs).getD []).find? (fun t =>
    decide (t.root = field x.atp 0 14) && decide (t.va ≤ va) && decide (va < t.va + t.size) &&
    (!needR p || t.r) && (!needW p || (t.w && t.d)) && (!needX p || t.x))

/-- A translation kept by an agent (R401). -/
def tlbKeep (s : State) (agent : Nat) (t : Tlb) : State :=
  let l := ((lookupKey agent s.tlbs).getD []).filter (fun u => u.root != t.root || u.va != t.va || u.size != t.size)
  { s with tlbs := insertKey agent (t :: l) s.tlbs }

/-- The guest pages, with their sizes, that the first-stage tables of a walk lie in: the G-stage translations that a combined
translation was made with (R398, R402). -/
def tablePages (root : Nat) (rt : Root) (s : State) (va : Nat) : Nat → Nat → List (Nat × Nat)
  | 0, _ => []
  | lv + 1, t =>
    let ga := t + 8 * natField va (12 + 9 * lv) 9
    match (gtrans root rt .none s ga).2 with
    | .error _ => []
    | .ok l =>
      let pte := natOfBytes (pkgLoad s l.pa 8)
      (alignDown ga l.size, l.size) ::
        (if natField pte 0 4 = 1 then tablePages root rt s va lv (natField pte 10 44 * 4096) else [])

/-- The kept form of a leaf of one stage, or of the two leaves of a guest (R397, R398). -/
def tlbOf (root : Nat) (rt : Root) (va : Nat) (l1 : Leaf) (l2 : Option Leaf) (tables : List (Nat × Nat)) : Tlb :=
  let b (l : Leaf) (i : Nat) : Bool := natField l.pte i 1 = 1
  let pg := match l2 with
    | some l => min l1.size l.size
    | none => l1.size
  let pa := match l2 with
    | some l => l.pa
    | none => l1.pa
  let both (i : Nat) : Bool := b l1 i && (match l2 with
    | some l => b l i
    | none => true)
  { root := root, part := field rt.rtcfg 0 14, guest := l2.isSome, va := alignDown va pg, size := pg,
    gpa := match l2 with
      | some _ => alignDown l1.pa ((l2.map (·.size)).getD 1)
      | none => 0,
    gsize := (l2.map (·.size)).getD 0,
    tables := tables,
    frame := alignDown pa pg, r := both 1, w := both 2, x := both 3, d := both 7,
    skew := BitVec.ofNat 2 (natField ((l2.getD l1).pte) 8 2) }

/-! ### Page requests (R406, R407) -/

/-- Waiting request records of a partition posted, in identifier order, while its ring has room (R407). -/
def postRequests (part : Nat) : Nat → State → State
  | 0, s => s
  | fuel + 1, s =>
    let rt := s.rootAt part
    let lg := field rt.prqctl 0 5
    if (rt.prqtail - rt.prqhead).toNat ≥ 2 ^ lg then s
    else
      match s.requests.find? (fun (r : Request) => decide (r.part = part) && !r.posted) with
      | none => s
      | some r =>
        let a := rt.prqbase.toNat + 64 * (rt.prqtail.toNat % 2 ^ lg)
        let s := pkgStoreAll s a (r.record.map (wordBytes 8)).flatten
        let s := { s with requests := s.requests.map (fun (q : Request) =>
          if q.part = part ∧ q.id = r.id then { q with posted := true } else q) }
        postRequests part fuel (touch (s.modRoot part (fun rt => { rt with prqtail := rt.prqtail + 1 }))
          (lineOf (ctlBase + 2 ^ 32 + 4096 * part + 0x30)))

/-- The key of a miss of a root of a partition (R406): the partition and the guest page, or the root and the virtual page. -/
def missKey (part root va : Nat) (f : XFault) : Bool × Nat × Nat :=
  if f.gstage then (true, part, f.gpa / 4096) else (false, root, va / 4096)

/-- The key of a request (R406). -/
def reqKey (r : Request) : Bool × Nat × Nat := (r.guest, r.space, r.page)

/-- A miss makes or joins a page request (R406): the identifier, or 0xFFFF_FFFF for none. -/
def makeRequest (s : State) (x : Xer) (rt : Root) (va : Nat) (p : Perm) (f : XFault) : State × BitVec 32 :=
  let part := field rt.rtcfg 0 14
  let root := field x.atp 0 14
  let key := missKey part root va f
  match s.requests.find? (fun r => reqKey r == key) with
  | some r => (s, r.id)
  | none =>
    let pr := s.rootAt part
    if 1024 ≤ s.requests.length || !(bit pr.prqctl 63) then (s, 0xFFFFFFFF)
    else
      let id := pr.prnext
      let acc := field (xdetail f p) 24 3
      let rec_ : List Word :=
        [BitVec.ofNat 64 (id.toNat <<< 32 ||| (if x.agent < 256 then x.slot else 0xFFFF) <<< 16 ||| f.cause.toNat),
         BitVec.ofNat 64 va,
         if f.gstage then BitVec.ofNat 64 f.gpa else 0,
         BitVec.ofNat 64 (acc <<< 24 ||| f.level <<< 16 ||| (b2n f.gstage) <<< 15 ||| root),
         BitVec.ofNat 64 f.entry, 0, 0, 0]
      let s := s.modRoot part (fun r => { r with prnext := r.prnext + 1 })
      let s := { s with requests := s.requests ++ [{ part := part, id := id, guest := key.1, space := key.2.1,
                                                     page := key.2.2, record := rec_, posted := false, waiters := [] }] }
      (postRequests part 1 s, id)

/-- A translated address judged (R390), the leaf's interleave code beside it (R399); what gave no fault is held (R401). -/
def settleLeaf (s : State) (x : Xer) (pa : Nat) (held : Tlb) (p : Perm) : State × Except XFault Nat :=
  match phys s pa with
  | .error f => (s, .error f)
  | .ok pa => ((if p = .none then s else { tlbKeep s x.agent held with code := held.skew }), .ok pa)

/-- Translate (R394) up to a miss, which has made no request yet. -/
def walkFor (s : State) (x : Xer) (va : Nat) (p : Perm) : State × Except XFault Nat :=
  let s := { s with code := 0 }
  match windowPa s x va with
  | some r => (s, r)
  | none =>
    if field x.atp 60 4 = 0 then
      if 2 ^ 56 ≤ va then (s, .error (xfault15 cAddrFmt)) else (s, phys s va)
    else
      let root := field x.atp 0 14
      match tlbHit s x va p with
      | some t => ({ s with code := t.skew }, phys s (t.frame + (va - t.va)))
      | none =>
        let rt := s.rootAt root
        if rootBad rt then (s, .error (xfault15 cRootBad))
        else if natField va 57 7 != (if natField va 56 1 = 1 then 127 else 0) then (s, .error (xfault15 cAddrFmt))
        else if bit rt.rtcfg 62 then
          match walk false root (tblGuest root rt) va 9 p 5 s (field rt.vsatp 0 44 * 4096) with
          | (s, .error f) => (s, .error f)
          | (s, .ok l1) =>
            match gtrans root rt p s l1.pa with
            | (s, .error f) => (s, .error f)
            | (s, .ok l2) =>
              settleLeaf s x l2.pa (tlbOf root rt va l1 (some l2) (tablePages root rt s va 5 (field rt.vsatp 0 44 * 4096))) p
        else
          match walk false root tblPhys va 9 p 5 s (field rt.vsatp 0 44 * 4096) with
          | (s, .error f) => (s, .error f)
          | (s, .ok l1) => settleLeaf s x l1.pa (tlbOf root rt va l1 none []) p

/-- Does a fault make or join a page request (R406)? -/
def missed (f : XFault) (p : Perm) : Bool := (f.cause == cPageMiss || f.cause == cGPageMiss) && p != .none

/-- The request of a miss; other faults stand as they are (R406). -/
def reportMiss (s : State) (x : Xer) (va : Nat) (p : Perm) (f : XFault) : State × XFault :=
  if missed f p then
    let (s, id) := makeRequest s x (s.rootAt (field x.atp 0 14)) va p f
    (s, { f with req := id })
  else (s, f)

/-- Translate (R394). -/
def translate (s : State) (x : Xer) (va : Nat) (p : Perm) : State × Except XFault Nat :=
  match walkFor s x va p with
  | (s, .error f) =>
    let (s, f) := reportMiss s x va p f
    (s, .error f)
  | r => r

/-- Is a held translation of a root of a partition, as the root stands or stood when it was made (R393, R402)? -/
def ofPart (s : State) (part : Nat) (t : Tlb) : Bool :=
  decide (t.part = part) || decide (field (s.rootAt t.root).rtcfg 0 14 = part)

/-- The kinds of held translations that a TFENCE drops (R402). -/
def tlbSelected (s : State) (k : TfKind) (a b : Word) (t : Tlb) : Bool :=
  match k with
  | .all => true
  | .root => decide (t.root = field a 0 14)
  | .page => decide (t.va ≤ b.toNat) && decide (b.toNat < t.va + t.size)
  | .rpage => decide (t.root = field a 0 14) && decide (t.va ≤ b.toNat) && decide (b.toNat < t.va + t.size)
  | .part => ofPart s (field a 0 14) t
  | .gpage => t.guest && ofPart s (field a 0 14) t &&
      ((t.gpa, t.gsize) :: t.tables).any (fun g => decide (g.1 ≤ b.toNat) && decide (b.toNat < g.1 + g.2))

/-- The agents that a TFENCE of a scope covers (R402), by their number in State.tlbs. -/
def tfenceCovers (core : Nat) (sc : Scope) (agent : Nat) : Bool :=
  let cl := clusterOf core
  let d := dieOf core
  match sc with
  | .core => decide (agent = core)
  | .clu => (decide (agent < 144) && decide (clusterOf agent = cl)) || decide (agent = 256 + cl) ||
      decide (agent = 256 + 36 + cl)
  | .die => (decide (agent < 144) && decide (dieOf agent = d)) ||
      (decide (256 ≤ agent) && decide (agent < 256 + 72) && decide ((agent - 256) % 36 / 9 = d)) ||
      decide (agent = 256 + 72 + d) || decide (agent = 256 + 76 + d) || decide (agent = 256 + 80 + d) ||
      (decide (512 ≤ agent) && decide ((agent - 512) / 4 = d))
  | .pkg | .sys => true

/-- The translations that a TFENCE selects dropped at every agent it covers (R403). -/
def tlbDrop (s : State) (core : Nat) (sc : Scope) (k : TfKind) (a b : Word) : State :=
  { s with tlbs := s.tlbs.map (fun p =>
      if tfenceCovers core sc p.1 then (p.1, p.2.filter (fun t => !tlbSelected s k a b t)) else p) }

end Sys2Proof.Machine
end

