-- ==== Sys2Proof/Machine/Ops.lean ====
section
/-! DEFINITION. The operations that instructions share: registers with poison (R31, R140, R141), guards (R32), memory
accesses with their checks (R33, R88, R116), budgets (R310), lanes (R176 to R182), records (R106, R377), and taking a
trap, halting and resuming (R101, R106, R129). -/

namespace Sys2Proof.Machine

/-- What a step of the machine answers. -/
abbrev Out := Host.Outcome State Fault Refusal

/-- Why a meaning does not complete: it traps, or it waits and has no effect. -/
inductive Stop where
  | trap (t : Trap)
  | wait
  deriving DecidableEq, Repr

/-- Meanings as state transformers that may stop. -/
abbrev M := EStateM Stop State

/-! ### Registers -/

/-- ReadG (R31): value and poison of a general register. -/
def readG (c : Ctx) (n : GReg) : Word × Bool := if n = 0 then (0, false) else (c.r.g[n], c.r.gp.getLsbD n)
/-- The value of a general register. -/
def gVal (c : Ctx) (n : GReg) : Word := (readG c n).1
/-- The poison of a general register. -/
def gPoison (c : Ctx) (n : GReg) : Bool := (readG c n).2
/-- The origin of a general register (R141): address and cause. -/
def gOrigin (c : Ctx) (n : GReg) : Word × BitVec 16 := (c.r.oaddr[n], c.r.ocause[n])

/-- WriteG (R31, R141): value, poison and origin; a write to g0 has no effect. -/
def writeGq (c : Ctx) (n : GReg) (v : Word) (q : Bool) (o : Word × BitVec 16) : Ctx :=
  if n = 0 then c
  else { c with r := { c.r with
    g := c.r.g.set n v
    gp := if q then c.r.gp ||| maskAt 64 n 1 else c.r.gp &&& ~~~ (maskAt 64 n 1)
    oaddr := c.r.oaddr.set n (if q then o.1 else 0)
    ocause := c.r.ocause.set n (if q then o.2 else 0) } }

/-- WriteG of an unpoisoned value. -/
def writeG (c : Ctx) (n : GReg) (v : Word) : Ctx := writeGq c n v false (0, 0)

/-- A capability register (R58). -/
def readC (c : Ctx) (n : CReg) : Cap := c.r.c[n]
/-- A write of a capability register. -/
def writeC (c : Ctx) (n : CReg) (x : Cap) : Ctx := { c with r := { c.r with c := c.r.c.set n x } }

/-- Bit `e` of a predicate; p0 reads as all ones (R175). -/
def predBit (c : Ctx) (n : PReg) (e : Nat) : Bool := if n = 0 then true else (c.vr.p[n]).getLsbD e

/-- Active (R32). -/
def active (m : Mods) (c : Ctx) (e : Nat) : Bool :=
  Bool.xor (predBit c m.pg1 e) m.ng1 && Bool.xor (predBit c m.pg2 e) m.ng2

/-- A guard that never passes: p0 with inverted polarity (R59, R163). -/
def neverPasses (m : Mods) : Bool := (m.pg1 == 0 && m.ng1) || (m.pg2 == 0 && m.ng2)

/-- The address after an instruction (R49). -/
def nextPc (c : Ctx) (m : Mods) : Word := c.h.pc + BitVec.ofNat 64 (4 * (match m.form with
  | .base => 1 | .ext => 3 | .lit => 3 | .extLit => 5))

/-- The program counter set. -/
def setPc (c : Ctx) (pc : Word) : Ctx := { c with h := { c.h with pc := pc } }

/-! ### The monad's primitives -/

/-- The acting context. -/
def getCur : M Ctx := do return (← get).cur
/-- The acting context changed. -/
def modifyCur (f : Ctx → Ctx) : M Unit := modify (fun s => s.modCur f)
/-- A trap of the control thread with two detail words (R36, R106). -/
def trapD {α : Type} (cause : BitVec 16) (d0 d1 : Word) : M α :=
  throw (.trap { cause := cause, party := 0, detail0 := d0, detail1 := d1, poisonPc := 0 })
/-- The instruction waits and has no effect. -/
def waits {α : Type} : M α := throw .wait

/-- Cause POISON (R105). -/
def cPoison : BitVec 16 := 0x40

/-- The trap of a poisoned g register (R142). -/
def poisonTrap (c : Ctx) (n : GReg) : Trap :=
  { cause := cPoison, party := 0, detail0 := BitVec.ofNat 64 n, detail1 := ((gOrigin c n).2).setWidth 64,
    poisonPc := (gOrigin c n).1 }

/-- The value of a g register that an instruction consumes (R142). -/
def consumeG (n : GReg) : M Word := do
  let c ← getCur
  if gPoison c n then throw (.trap (poisonTrap c n)) else return gVal c n

/-- A free value (notes/assumptions/6.md): the next reading of Config.freeWord. -/
def freeVal : M Word := do
  let s ← get
  set { s with fresh := s.fresh + 1 }
  return Config.freeWord s.fresh

/-- An EStateM run from the state, with what it answers. -/
def runM {α : Type} (m : M α) (s : State) : EStateM.Result Stop State α := m s

/-! ### Regions and budgets -/

/-- The region whose own field is the effective one, for an override bit (R309). -/
def effRegion (s : State) (b : Nat) : Nat → Nat → Nat
  | 0, _ => 0
  | fuel + 1, r =>
    if r = 0 || (s.regionAt r).ovr.getLsbD b then r else effRegion s b fuel (s.regionAt r).parent

/-- Nodes that a walk of the region tree may meet: there are 4,096 regions. -/
def treeFuel : Nat := 4096

/-- The effective priority of a region. -/
def effPrio (s : State) (r : Nat) : Nat := (s.regionAt (effRegion s 0 treeFuel r)).prio
/-- The effective FAULTQ. -/
def effFaultq (s : State) (r : Nat) : Word := (s.regionAt (effRegion s 1 treeFuel r)).faultq
/-- The effective DQCFG. -/
def effDqcfg (s : State) (r : Nat) : Word := (s.regionAt (effRegion s 2 treeFuel r)).dqcfg
/-- The effective limit of budget `b`. -/
def effLimit (s : State) (b : Fin 6) (r : Nat) : Nat := (s.regionAt (effRegion s (3 + b) treeFuel r)).limit[b]

/-- The effective share of a region in the time budget of activity `a`: 0 acts as 1 (R440). -/
def effShare (s : State) (a : Fin 6) (r : Nat) : Nat :=
  max 1 (field (s.regionAt (effRegion s 9 treeFuel r)).shares[a] 0 8)

/-- A region and its ancestors. -/
def regionChain (s : State) : Nat → Nat → List Nat
  | 0, _ => []
  | fuel + 1, r => if r = 0 then [0] else r :: regionChain s fuel (s.regionAt r).parent

/-- Is the first region the second or a descendant of it? -/
def regionUnder (s : State) (r top : Nat) : Bool := (regionChain s treeFuel r).contains top

/-- May an amount of a resource be granted to a region (R310)? -/
def budgetRoom (s : State) (r : Nat) (b : Fin 6) (n : Nat) : Bool :=
  (regionChain s treeFuel r).all (fun q => decide ((s.regionAt q).inuse[b] + n ≤ effLimit s b q))

/-- The in-use fields of a region and its ancestors changed in one step (R310). -/
def budgetMod (s : State) (r : Nat) (b : Fin 6) (f : Nat → Nat) : State :=
  (regionChain s treeFuel r).foldl
    (fun s q => s.modRegion q (fun g => { g with inuse := g.inuse.set b (f g.inuse[b]) })) s
/-- A grant taken. -/
def budgetTake (s : State) (r : Nat) (b : Fin 6) (n : Nat) : State := budgetMod s r b (· + n)
/-- A grant returned. -/
def budgetGive (s : State) (r : Nat) (b : Fin 6) (n : Nat) : State := budgetMod s r b (· - n)

/-! ### Lanes -/

/-- The register length in bits (R173). -/
def lbits (v : Vregs) : Nat := if v.long then 64 * v.lanes else 256

/-- The lane count that a VLCAP value allows (R177). -/
def vlcapLanes (w : Word) : Nat :=
  let c := field w 0 7
  if c = 0 then 64 else if c < 16 then 8 else if c < 32 then 16 else if c < 64 then 32 else 64

/-- The largest of 0, 8, 16, 32 and 64 that is not above `x`. -/
def laneFloor (x : Nat) : Nat := if x < 8 then 0 else if x < 16 then 8 else if x < 32 then 16 else if x < 64 then 32 else 64

/-- The lane cap C (R177). -/
def laneCap (s : State) (c : Ctx) : Nat :=
  min (vlcapLanes c.h.vlcap) (min 64 (pow2AtMost (effLimit s 1 c.h.region) 33))

/-- Lanes of a cluster's pool held by its cores. -/
def lanesHeld (s : State) (cl : Nat) : Nat :=
  (coresOf cl).foldl (fun acc k => acc + (match (s.coreAt k).slot with
    | some sl => (s.ctxAt sl).vr.held
    | none => 0)) 0

/-- Does the save area of a context lie in ordinary memory (R94, R308)? What has no such area stays with the context
(notes/assumptions/8.md). -/
def saveFits (s : State) (c : Ctx) : Bool := inOneMemory s c.h.imgbase.toNat (2 ^ 21)

/-- The places in the save area of the predicates, the long registers and their poison masks: offset, bytes, value
(R93, R190). -/
def vecBlocks (v : Vregs) : List (Nat × Nat × Nat) :=
  (List.range 15).map (fun i => (0x1880 + 128 * i, 128, (v.p.toList.getD (i + 1) 0).toNat)) ++
  (List.range 32).map (fun i => (0x2000 + 512 * i, 512, (v.v.toList.getD i 0 &&& maskAt 4096 0 (lbits v)).toNat)) ++
  (List.range 32).map (fun i => (0x9400 + 64 * i, 64, (v.vp.toList.getD i 0 &&& maskAt 512 0 (lbits v / 8)).toNat))

/-- The long registers, poison masks and predicates of a context moved to its save area (R180). -/
def vecOut (s : State) (slot : Nat) : State :=
  let c := s.ctxAt slot
  if !c.vr.long || c.vsaved || !saveFits s c then s
  else
    let b := c.h.imgbase.toNat
    let bs := (vecBlocks c.vr).flatMap (fun x => sparseBytes (b + x.1) x.2.1 x.2.2)
    let s := bulkStore (bulkStore s (b + 0x1880) 0x4780 (bs.filter (fun x => decide (x.1 < b + 0x9400))))
      (b + 0x9400) 0x800 (bs.filter (fun x => decide (b + 0x9400 ≤ x.1)))
    s.modCtx slot (fun c => { c with vsaved := true })

/-- Bytes of the save area of a context as a number. -/
def saveValue (s : State) (c : Ctx) (o n : Nat) : Nat := natOfBytes (pkgLoad s (c.h.imgbase.toNat + o) n)

/-- The long registers, poison masks and predicates of a context as its save area holds them (R180). -/
def vecIn (s : State) (c : Ctx) : Ctx :=
  if !c.vsaved then c
  else { c with
    vsaved := false
    vr := { c.vr with
      p := c.vr.p.mapIdx (fun i x => if i = 0 then x else BitVec.ofNat 1024 (saveValue s c (0x1800 + 128 * i) 128))
      v := c.vr.v.mapIdx (fun i _ => BitVec.ofNat 4096 (saveValue s c (0x2000 + 512 * i) 512) &&& maskAt 4096 0 (lbits c.vr))
      vp := c.vr.vp.mapIdx (fun i _ =>
        BitVec.ofNat 512 (saveValue s c (0x9400 + 64 * i) 64) &&& maskAt 512 0 (lbits c.vr / 8)) } }

/-- A context's held lanes given back to the pool. -/
def laneGive (s : State) (slot : Nat) : State :=
  let c := s.ctxAt slot
  if c.vr.held = 0 then s
  else (budgetGive s c.h.region 1 c.vr.held).modCtx slot (fun c => { c with vr := { c.vr with held := 0 } })

/-- The lanes of a context that waits or halts return to the pool; its registers keep their length, their values in its save
area (R180). -/
def laneReturn (s : State) (slot : Nat) : State :=
  if (s.ctxAt slot).vr.held = 0 then s else laneGive (vecOut s slot) slot

/-- Shortening to a smaller length (R182). -/
def shorten (v : Vregs) (bits : Nat) : Vregs :=
  { v with
    v := v.v.map (fun x => x &&& maskAt 4096 0 bits)
    vp := v.vp.map (fun x => x &&& maskAt 512 0 (bits / 8))
    lost := max v.lost (lbits v)
    vl := BitVec.ofNat 13 (min v.vl.toNat (bits / 2 ^ v.wlog)) }

/-- Lanes set to a count, shortening where it is less (R182). -/
def setLanes (v : Vregs) (n : Nat) : Vregs :=
  let v := if n < v.lanes then shorten v (64 * n) else v
  { v with lanes := n, held := n }

/-- A request inserted in a lane queue: by priority, highest first, then arrival (R179). The priority is the one that the region
had when the request came (notes/assumptions/77.md). -/
def laneInsert (r : LaneReq) : List LaneReq → List LaneReq
  | [] => [r]
  | q :: rest => if q.prio < r.prio then r :: q :: rest else q :: laneInsert r rest

/-- A context that wakes or resumes asks for its lanes again (R181). -/
def laneRegrant (s : State) (slot : Nat) : State :=
  let c := s.ctxAt slot
  match c.core with
  | none => s
  | some k =>
    if c.vr.long && decide (0 < c.vr.lanes) && decide (c.vr.held = 0) && !c.regrant then
      let t := laneFloor (min c.vr.lanes (laneCap s c))
      if t = 0 then
        s.modCtx slot (fun c =>
          let c := vecIn s c
          { c with vr := { shorten c.vr 0 with vl := 0, lanes := 0 } })
      else
        let s := s.modCtx slot (fun c => { c with regrant := true })
        let r : LaneReq := { slot := slot, core := k, prio := effPrio s c.h.region, want := t, regrant := true }
        s.modCluster (clusterOf k) (fun cl => { cl with lanes := laneInsert r cl.lanes })
    else if c.regrant then s
    else s.modCtx slot (vecIn s)

/-- A context's requests leave its cluster's lane queue. -/
def laneWithdraw (s : State) (slot : Nat) : State :=
  match (s.ctxAt slot).core with
  | none => s
  | some k =>
    (s.modCtx slot (fun c => { c with regrant := false })).modCluster (clusterOf k)
      (fun cl => { cl with lanes := cl.lanes.filter (fun r => r.slot != slot) })

/-- A context that waits returns its lanes, once its vector agent has completed every older entry (R176, R180); in a segment that
one of its vector entries parks, once those that the agent has executed have committed (R368). -/
def restLanes (s : State) (slot : Nat) : State :=
  let c := s.ctxAt slot
  if c.vqn = 0 || (c.vlive = 0 && c.segPark == some .vector) then laneReturn (laneWithdraw s slot) slot else s

/-! ### Records (R106, R107, R377) -/

/-- The physical address of a queue head page (R375). -/
def queuePage (q : Nat) : Nat := ctlBase + 0x40000000 + 4096 * q
/-- The queue whose head page starts at a physical address. -/
def queueOfPage (pa : Nat) : Option Nat :=
  let b := ctlBase + 0x40000000
  if b ≤ pa ∧ pa < b + 4096 * 65536 ∧ (pa - b) % 4096 = 0 then some ((pa - b) / 4096) else none

/-- Is the queue full (R377)? -/
def queueFull (q : Queue) : Bool := decide ((q.tail - q.head).toNat = 2 ^ q.lg)

/-- A 64-byte record appended at a queue's tail, performed at .sys (R377); whoever parks on the tail word wakes. -/
def postRecord (s : State) (q : Nat) (ws : List Word) : State :=
  let h := s.queueAt q
  let a := h.ringbase.toNat + 64 * (h.tail.toNat % 2 ^ h.lg)
  let s := pkgStoreAll s a (ws.map (wordBytes 8)).flatten
  touch (s.modQueue q (fun h => { h with tail := h.tail + 1 })) (lineOf (queuePage q))

/-- The queue that a fault domain names at this moment (R107), from a region upward. -/
def faultQueue (s : State) : Nat → Nat → Option Nat
  | 0, _ => none
  | fuel + 1, r =>
    let own := match queueOfPage (effFaultq s r).toNat with
      | some q => if (s.queueAt q).valid && (s.queueAt q).kind == 1 then some q else none
      | none => none
    match own with
    | some q => some q
    | none => if r = 0 then none else faultQueue s fuel (s.regionAt r).parent

/-- The words of a trap record (R106). -/
def trapRecord (slot : Nat) (c : Ctx) : List Word :=
  [BitVec.ofNat 64 (c.h.trapseq.toNat <<< 48 ||| c.h.region <<< 32 ||| slot <<< 16 ||| c.h.cause.toNat),
   c.h.pc, c.h.vcp, c.h.detail0, c.h.detail1, c.h.poisonPc, BitVec.ofNat 64 c.vqn, c.h.party.setWidth 64]

/-- A context's trap record posted, or left pending when no queue takes it (R107). Its words are those that the frame holds when it
is posted (notes/assumptions/69.md). -/
def postTrap (s : State) (slot : Nat) : State :=
  let c := s.ctxAt slot
  match faultQueue s treeFuel c.h.region with
  | none =>
    { s.modCtx slot (fun c => { c with h := { c.h with pend := true } }) with notes := s.notes ++ [.trapPending slot] }
  | some q =>
    if queueFull (s.queueAt q) then s.modCtx slot (fun c => { c with h := { c.h with pend := true } })
    else (postRecord s q (trapRecord slot c)).modCtx slot (fun c => { c with h := { c.h with pend := false } })

/-! ### Write sets (R365) -/

/-- The speculation area of a region (R352). -/
def specArea (s : State) (r : Nat) : Nat := (s.regionAt r).savebase.toNat + 2 ^ 21 * (s.regionAt r).slotN
/-- The address of a descriptor (R352). -/
def descAt (s : State) (r id : Nat) : Nat := specArea s r + 0x1000 + 0x400 * id
/-- DSTATE of a descriptor (R355). -/
def dstate (s : State) (r id : Nat) : Word := pkgWord s (descAt s r id)

/-- The keys of a segment's write set and its speculative ancestors', nearest first; depth is at most 8. -/
def wsChain (s : State) (r : Nat) : Nat → Nat → List Nat
  | 0, _ => []
  | fuel + 1, id =>
    let d := dstate s r id
    (256 * r + id) :: (if bit d 15 then wsChain s r fuel (field d 16 8) else [])

/-- The write-set keys that a context's loads read, nearest first. -/
def ctxWsets (s : State) (c : Ctx) : List Nat := if c.spec then wsChain s c.h.region 8 c.segId else []

/-- The lines of a write set. -/
def wsetOf (s : State) (key : Nat) : List (Nat × L1Line) := (lookupKey key s.wsets).getD []

/-- A line's bytes and tags with the write sets' bytes over them, nearest last. -/
def overlay (s : State) (keys : List Nat) (l : Nat) (d : BitVec 512) (t : BitVec 4) : BitVec 512 × BitVec 4 :=
  keys.reverse.foldl (fun acc k => match lookupKey l (wsetOf s k) with
    | some x => (mergeData acc.1 x.data x.dirty, mergeTags acc.2 x.tags x.dirty)
    | none => acc) (d, t)

/-- The home die of a segment, where its write set lies (R355, R365, R366). -/
def wsetDie (s : State) (key : Nat) : Nat := field (dstate s (key / 256) (key % 256)) 46 2

/-- Have a segment's write set and its die's sets room for the lines of a list (R366)? -/
def wsetRoom (s : State) (key : Nat) (lines : List Nat) : Bool :=
  let new := (lines.dedup.filter (fun l => (lookupKey l (wsetOf s key)).isNone)).length
  let d := wsetDie s key
  let held := ((s.wsets.filter (fun p => wsetDie s p.1 == d)).map (fun p => p.2.length)).sum
  decide (new = 0) || (decide ((wsetOf s key).length + new ≤ 4096) && decide (held + new ≤ 32768))

/-- Bytes stored into a write set; a monitor of its own segment or of a descendant wakes (R368). -/
def wsetStore (s : State) (key l : Nat) (d : BitVec 512) (m : BitVec 64) (t : BitVec 4) : State :=
  let x := (lookupKey l (wsetOf s key)).getD
    { data := 0, dirty := 0, tags := 0, scope := .core, writers := [], owner := 0, code := 0 }
  let x := { x with data := mergeData x.data d m, dirty := x.dirty ||| m, tags := mergeTags x.tags t m, code := s.code }
  let s := { s with wsets := insertKey key (insertKey l x (wsetOf s key)) s.wsets }
  s.mapCtxs (fun _ c => if c.parked = some l ∧ (ctxWsets s c).contains key then { c with hit := true } else c)

/-- The first byte of an allotment of `kib` KiB in the scratchpad of core `k` (R312). -/
def allotBase (k kib : Nat) : Nat := spadOf k + 2 ^ 20 - 1024 * kib

/-- Does an address lie in the allotment of the context on a core (R312)? -/
def inAllot (s : State) (k pa : Nat) : Bool :=
  match (s.coreAt k).slot with
  | some sl =>
    let n := (s.ctxAt sl).spsize
    decide (allotBase k n ≤ pa) && decide (pa < allotBase k n + 1024 * n)
  | none => false

/-! ### Performing accesses (R116, R138, R162) -/

/-- Bytes with those that write sets hold of their line over them, nearest last, and the granule tags (R365). -/
def setsOver (s : State) (ws : List Nat) (pa : Nat) (bs : List Byte) (t : BitVec 4) : List Byte × BitVec 4 :=
  if ws.isEmpty then (bs, t)
  else
    let (d, t) := overlay s ws (lineOf pa) (BitVec.ofNat 512 (natOfBytes bs <<< (8 * (pa % 64)))) t
    (((bytesOfNat 64 d.toNat).drop (pa % 64)).take bs.length, t)

/-- The bytes and granule tags of part of one line outside every RSTATE word, loaded by core `k` at a scope under a hint. -/
def plainPiece (s : State) (k : Nat) (ws : List Nat) (pa n : Nat) (sc : Scope) (hint : Nat) :
    State × List Byte × BitVec 4 :=
  if inMemory s pa then
    let (s, d, t) := l1Load s k (lineOf pa) sc hint
    let (d, t) := overlay s ws (lineOf pa) d t
    (s, ((bytesOfNat 64 d.toNat).drop (pa % 64)).take n, t)
  else (s, setsOver s ws pa (memRead s.mem pa n) (pkgTags s (lineOf pa)))

/-- Does an RSTATE word read as the bytes that stores left there? Where the part's own fields stand in it, its granule holds no
capability that was stored (R77, R314). -/
def rstateRaw (s : State) (pa : Nat) : Bool := rstateWord s (pa / 8 * 8) == wordOfBytes (memRead s.mem (pa / 8 * 8) 8)

/-- The bytes and granule tags of part of one line, loaded by core `k` at a scope; an RSTATE word bypasses every cache
(R314). -/
def loadPiece (s : State) (k : Nat) (ws : List Nat) (pa n : Nat) (sc : Scope) (hint : Nat) :
    State × List Byte × BitVec 4 :=
  let h := min n (rstateHead s pa)
  if h = 0 then plainPiece s k ws pa n sc hint
  else
    let keep (t : BitVec 4) : BitVec 4 := if rstateRaw s pa then t else untagFirst pa t
    let own := setsOver s ws pa (rstateLoad s pa h) (keep (pkgTags s (lineOf pa)))
    if n ≤ h then (s, own)
    else
      let r := plainPiece s k ws (pa + h) (n - h) sc hint
      let m := maskAt 4 (pa % 64 / 16) 1
      (r.1, own.1 ++ r.2.1, r.2.2 &&& ~~~ m ||| own.2 &&& m)

/-- `n` bytes loaded by core `k` at a scope, line by line. -/
def loadBytes (s : State) (k : Nat) (ws : List Nat) (pa n : Nat) (sc : Scope) (hint : Nat) : State × List Byte :=
  (pieces pa n (n / 64 + 2)).foldl (fun acc p =>
    let (s, bs, _) := loadPiece acc.1 k ws p.1 p.2 sc hint
    (s, acc.2 ++ bs)) (s, [])

/-- Bytes of part of one line outside every RSTATE word stored by core `k` at a scope with granule tags. -/
def plainPut (s : State) (k : Nat) (pa : Nat) (bs : List Byte) (tags : BitVec 4) (sc : Scope) (hint : Nat) : State :=
  if inMemory s pa then
    l1Write s k (lineOf pa) (BitVec.ofNat 512 (natOfBytes bs <<< (8 * (pa % 64)))) (byteMask (pa % 64) bs.length) tags sc hint
  else lineStore s pa bs tags s.code

/-- Bytes of part of one line stored by core `k` at a scope with granule tags; an RSTATE word bypasses every cache (R314). A
speculative context's stores go to its write set, but for those to its own allotment (R365). -/
def storePiece (s : State) (k : Nat) (wkey : Option Nat) (pa : Nat) (bs : List Byte) (tags : BitVec 4) (sc : Scope)
    (hint : Nat) : State :=
  match (if inAllot s k pa then none else wkey) with
  | some key =>
    wsetStore s key (lineOf pa) (BitVec.ofNat 512 (natOfBytes bs <<< (8 * (pa % 64)))) (byteMask (pa % 64) bs.length) tags
  | none =>
    let h := rstateHead s pa
    if h = 0 then plainPut s k pa bs tags sc hint
    else
      let s := rstateStore s pa (bs.take h)
      if bs.length ≤ h then s else plainPut s k (pa + h) (bs.drop h) (untagFirst pa tags) sc hint

/-- Bytes stored by core `k` at a scope, line by line, the granules' tags cleared (R76). -/
def storeBytes (s : State) (k : Nat) (wkey : Option Nat) (pa : Nat) (bs : List Byte) (sc : Scope) (hint : Nat) : State :=
  ((pieces pa bs.length (bs.length / 64 + 2)).foldl (fun (acc : State × List Byte) p =>
    (storePiece acc.1 k wkey p.1 (acc.2.take p.2) 0 sc hint, acc.2.drop p.2)) (s, bs)).1

/-- The write-set key of a context's stores. -/
def ctxWkey (c : Ctx) : Option Nat := if c.spec then some (256 * c.h.region + c.segId) else none

/-- A load of a context's agent on core `k`. -/
def ctxLoad (s : State) (k : Nat) (pa n : Nat) (sc : Scope) (hint : Nat) : State × List Byte :=
  loadBytes s k (ctxWsets s s.cur) pa n sc hint
/-- A store of a context's agent on core `k`. -/
def ctxStore (s : State) (k : Nat) (pa : Nat) (bs : List Byte) (sc : Scope) (hint : Nat) : State :=
  storeBytes s k (ctxWkey s.cur) pa bs sc hint

/-- The bytes of a capability (R73). -/
def capBytes (c : Cap) : List Byte := bytesOfNat 16 c.bits.toNat
/-- A capability from its bytes and its tag. -/
def capOfBytes (bs : List Byte) (tag : Bool) : Cap := { bits := BitVec.ofNat 128 (natOfBytes bs), tag := tag }
/-- A capability stored by a context's agent on core `k` (R76, R77). -/
def capPut (s : State) (k : Nat) (pa : Nat) (c : Cap) (sc : Scope) (hint : Nat) : State :=
  storePiece s k (ctxWkey s.cur) pa (capBytes c) (if c.tag then maskAt 4 (pa % 64 / 16) 1 else 0) sc hint

/-! ### The queues of a core's parties (R114, R116, R118, R119) -/

/-- The queues of a party. -/
def partyIdx : Party → Fin 4
  | .control => 0 | .vector => 1 | .loader => 2 | .storer => 3

/-- The value that a load of a type writes (R160). -/
def loadValue (ty : Ty) (bs : List Byte) : Word :=
  let n := ty.width
  if ty.signed then wordOf (signExt (natOfBytes bs) n) else wordOf (zeroExt (natOfBytes bs) n)

/-- Bytes of an element's access (R206). -/
def placeSize (w : Nat) : Nat := max 1 (w / 8)

/-- The byte ranges of an access. -/
def accRanges (a : Access) : List (Nat × Nat) :=
  match a.kind with
  | .loadV xs => xs.map (fun x => (x.pa, placeSize x.w))
  | .storeV xs => xs.map (fun x => (x.pa, placeSize x.w))
  | _ => [(a.pa, a.size)]

/-- Do two byte ranges meet? -/
def rangeMeets (a b : Nat × Nat) : Bool := decide (a.1 < b.1 + b.2) && decide (b.1 < a.1 + a.2)

/-- Does one access's bytes meet another's? -/
def overlaps (a b : Access) : Bool := (accRanges a).any (fun r => (accRanges b).any (rangeMeets r))

/-- Is an access an atomic, ordered with every other access of its party (R116, R127, R260)? -/
def isAmo (a : Access) : Bool := match a.kind with
  | .amoG _ _ _ _ _ | .amoX _ _ _ _ => true
  | _ => false

/-- Must two accesses of one party keep their order: their bytes meet (R118), or one is an AMO? Loads of one vector
instruction keep none among themselves (R119). -/
def keepOrder (a b : Access) : Bool :=
  isAmo a || isAmo b || (overlaps a b && !(match a.kind, b.kind with
    | .loadV _, .loadV _ => a.n == b.n
    | _, _ => false))

/-- Is an access a store? -/
def isStore (a : Access) : Bool := match a.kind with
  | .store _ | .storeC _ | .storeV _ => true
  | _ => false

/-- A deferred load's value noted by the spin detector wherever it is an iteration's last load (R299). -/
def spinSeen (c : Ctx) (pa size : Nat) (v : BitVec 128) (tag : Bool) : Ctx :=
  { c with spin := { c.spin with runs := c.spin.runs.map (fun r => (r.1, r.2.map (fun l =>
      if l.pa = pa ∧ l.size = size then { l with value := v, tag := tag } else l))) } }

/-- Wrap at an AMO's type of a word's low bits, as an integer (R31). -/
def amoInt (ty : Ty) (w : Word) : Int := extTy ty (uint w)

/-- The value that an AMO writes (R125), from the old value and the operands. -/
def amoNew (k : AmoKind) (ty : Ty) (old b c : Word) : Word :=
  match k with
  | .swap => b
  | .add => old + b
  | .and => old &&& b
  | .or => old ||| b
  | .xor => old ^^^ b
  | .min => if amoInt ty b < amoInt ty old then b else old
  | .max => if amoInt ty old < amoInt ty b then b else old
  | .cas => if amoInt ty old = amoInt ty c then b else old

/-- The word that an A-extension operation writes, at a width of `n` bits. -/
def rvAmoNew (op : RvAmoOp) (n : Nat) (old b : Word) : Word :=
  let so := signExt (uint old) n
  let sb := signExt (uint b) n
  let uo := zeroExt (uint old) n
  let ub := zeroExt (uint b) n
  match op with
  | .swap => b
  | .add => old + b
  | .xor => old ^^^ b
  | .and => old &&& b
  | .or => old ||| b
  | .min => if sb < so then b else old
  | .max => if so < sb then b else old
  | .minu => if ub < uo then b else old
  | .maxu => if uo < ub then b else old
  | .lr => old
  | .sc => b

/-- The value of a roustabout's load, sign-extended or not. -/
def roustValue (signed : Bool) (bs : List Byte) : Word :=
  let v : Int := natOfBytes bs
  wordOf (if signed then signExt v (8 * bs.length) else v)

/-- A roustabout of a context. -/
def roustOf (c : Ctx) (storer : Bool) : Roustabout := if storer then c.storer else c.loader
/-- A roustabout of a context changed. -/
def modRoust (c : Ctx) (storer : Bool) (f : Roustabout → Roustabout) : Ctx :=
  if storer then { c with storer := f c.storer } else { c with loader := f c.loader }

/-- A list's word at an index set, in a vector. -/
def vset {α : Type} {n : Nat} (v : Vector α n) (i : Nat) (x : α) : Vector α n := v.setIfInBounds i x

/-- The register that holds element `e` of a group, and the place of its lowest bit (R174). -/
def elemAt (v : Vregs) (n : VReg) (w e : Nat) : Nat × Nat :=
  let l := max 1 (lbits v)
  (n.val + w * e / l, w * e % l)

/-- The bits of an element set; registers of no length hold nothing. -/
def setElemBits (v : Vregs) (n : VReg) (w e val : Nat) : Vregs :=
  let (r, b) := elemAt v n w e
  if lbits v = 0 then v else { v with v := vset v.v r (setField (v.v.toList.getD r 0) b w val) }

/-- The bits of an element in the bytes of its access (R206). -/
def elemBits (w : Nat) (high : Bool) (bs : List Byte) : Nat :=
  let x := natOfBytes bs
  if w = 4 then natField x (if high then 4 else 0) 4 else x % 2 ^ w

/-- One byte of memory under an element store: a 4-bit element leaves the other nibble (R206). -/
def elemByte (x : ElemStore) (a : Nat) (b : Byte) : Byte :=
  if x.w = 4 then
    if a ≠ x.pa then b
    else if x.high then BitVec.ofNat 8 (natField b.toNat 0 4 ||| x.val <<< 4)
    else BitVec.ofNat 8 (natField b.toNat 4 4 <<< 4 ||| x.val)
  else if x.pa ≤ a ∧ a < x.pa + x.w / 8 then BitVec.ofNat 8 (x.val / 256 ^ (a - x.pa)) else b

/-- One byte of memory under a buffered store (R116). -/
def storedByte (st : Access) (a : Nat) (b : Byte) : Byte :=
  let of (bs : List Byte) : Byte := if st.pa ≤ a ∧ a < st.pa + st.size then bs.getD (a - st.pa) b else b
  match st.kind with
  | .store v => of (wordBytes 8 v)
  | .storeC c => of (capBytes c)
  | .storeV xs => xs.foldl (fun b x => elemByte x a b) b
  | _ => b

/-- The bytes of a load with those of its agent's buffered stores over them, the youngest last (R116). -/
def forwarded (stores : List Access) (pa : Nat) (bs : List Byte) : List Byte :=
  bs.zipIdx.map (fun p => stores.foldl (fun b st => storedByte st (pa + p.2) b) p.1)

/-- The tag of a granule under buffered stores (R76). -/
def forwardedTag (stores : List Access) (pa : Nat) (t : Bool) : Bool :=
  stores.foldl (fun t st =>
    if (accRanges st).any (rangeMeets (pa, 16)) then
      match st.kind with
      | .storeC c => c.tag
      | _ => false
    else t) t

/-- An element store performed by core `k`. -/
def storeElem (s : State) (k : Nat) (sc : Scope) (hint : Nat) (x : ElemStore) : State :=
  let s := { s with code := x.code }
  if x.w = 4 then
    let (s, bs) := ctxLoad s k x.pa 1 .core hint
    ctxStore s k x.pa [elemByte x x.pa (bs.headD 0)] sc hint
  else ctxStore s k x.pa (bytesOfNat (x.w / 8) x.val) sc hint

/-- Element stores that perform together: the lines of a segment stay together from then on (R133). -/
def storeElems (s : State) (k : Nat) (sc : Scope) (hint : Nat) (xs : List ElemStore) : State :=
  let s := xs.foldl (fun s x => storeElem s k sc hint x) s
  let ls := ((xs.filter (fun x => inMemory s x.pa)).map (fun x => lineOf x.pa)).dedup
  if 2 ≤ ls.length then tieLines s ls else s

/-- An element load performed by core `k`: the bits it reads, with buffered stores over them. -/
def readElem (s : State) (k : Nat) (stores : List Access) (sc : Scope) (hint : Nat) (x : ElemLoad) : State × Nat :=
  let (s, bs) := ctxLoad { s with code := x.code } k x.pa (placeSize x.w) sc hint
  (s, elemBits x.w x.high (forwarded stores x.pa bs))

/-- The level-one copies of a segment's lines dropped in a cluster, so that its bytes come from one point (R133). -/
def freshLines (s : State) (k : Nat) (xs : List ElemLoad) : State :=
  let ls := ((xs.filter (fun x => inMemory s x.pa)).map (fun x => lineOf x.pa)).dedup
  if ls.length < 2 then s
  else (coresOf (clusterOf k)).foldl (fun s j => ls.foldl (fun s l => evict1 s j l) s) s

/-- Element loads that perform together, written into the registers of the acting context (R207, R133). -/
def loadElems (s : State) (k : Nat) (stores : List Access) (sc : Scope) (hint : Nat) (xs : List ElemLoad) : State :=
  xs.foldl (fun s x =>
    let (s, v) := readElem s k stores sc hint x
    s.modCur (fun c => { c with vr := setElemBits c.vr x.d x.w x.e v })) (freshLines s k xs)

/-- The step of an atomic of core `k` at its access's scope (R126, R127): the release, then the read and the write, whose value
`new` gives, as one step. Answers the bytes read. -/
def amoStep (s : State) (k : Nat) (a : Access) (new : List Byte → Word) : State × List Byte :=
  let s := gatherLine (release s k a.scope) k (lineOf a.pa) a.scope
  let (s, bs) := ctxLoad s k a.pa a.size a.scope a.hint
  (ctxStore s k a.pa ((wordBytes 8 (new bs)).take a.size) a.scope a.hint, bs)

/-- An AMO of the control thread performed by core `k` (R126, R127): its step, the old value written, the acquire. -/
def performAmo (s : State) (k : Nat) (a : Access) (kind : AmoKind) (ty : Ty) (d : GReg) (b c : Word) : State :=
  let (s, bs) := amoStep s k a (fun bs => amoNew kind ty (loadValue ty bs) b c)
  acquire (s.modCur (fun x => writeG x d (loadValue ty bs))) k a.scope

/-- An x register of a roustabout written (R259). -/
def putX (d : XReg) (v : Word) (r : Roustabout) : Roustabout := if d = 0 then r else { r with x := r.x.set d v }

/-- An atomic of context memory of a roustabout performed by core `k` (R260, R126): LR and SC are accesses at .core (R136), an AMO
is one step at .sys with its acquire; aq acquires. -/
def performAmoX (s : State) (k : Nat) (a : Access) (op : RvAmoOp) (aq : Bool) (d : XReg) (b : Word) : State :=
  let mine (s : State) (f : Roustabout → Roustabout) : State := s.modCur (fun c => modRoust c (s.party == .storer) f)
  let line := lineOf a.pa
  match op with
  | .lr =>
    let (s, bs) := ctxLoad s k a.pa a.size a.scope a.hint
    let s := mine s (fun r => { putX d (roustValue true bs) r with reserved := some line })
    if aq then acquire s k .sys else s
  | .sc =>
    let ok := (roustOf s.cur (s.party == .storer)).reserved == some line
    let s := if ok then ctxStore s k a.pa ((wordBytes 8 b).take a.size) a.scope a.hint else s
    let s := mine s (fun r => { putX d (if ok then 0 else 1) r with reserved := none })
    if aq then acquire s k .sys else s
  | op =>
    let (s, bs) := amoStep s k a (fun bs => rvAmoNew op (8 * a.size) (wordOfBytes bs) b)
    acquire (mine s (putX d (roustValue true bs))) k .sys

/-- An access performed by the acting party of core `k` (PerformLoad, PerformStore), with the older stores that are still
buffered. -/
def performAccess (s : State) (k : Nat) (stores : List Access) (a : Access) : State :=
  let s := { s with code := a.code }
  match a.kind with
  | .store v => ctxStore s k a.pa ((wordBytes 8 v).take a.size) a.scope a.hint
  | .storeC c => capPut s k a.pa c a.scope a.hint
  | .storeV xs => storeElems s k a.scope a.hint xs
  | .loadG ty d =>
    let (s, bs) := ctxLoad s k a.pa a.size a.scope a.hint
    let bs := forwarded stores a.pa bs
    s.modCur (fun c => spinSeen (writeG c d (loadValue ty bs)) a.pa a.size (BitVec.ofNat 128 (natOfBytes bs)) false)
  | .loadC d =>
    let (s, bs, t) := loadPiece s k (ctxWsets s s.cur) a.pa 16 a.scope a.hint
    let bs := forwarded stores a.pa bs
    let tag := forwardedTag stores a.pa (t.getLsbD (a.pa % 64 / 16))
    s.modCur (fun c => spinSeen (writeC c d (capOfBytes bs tag)) a.pa 16 (BitVec.ofNat 128 (natOfBytes bs)) tag)
  | .loadX signed d =>
    let (s, bs) := ctxLoad s k a.pa a.size a.scope a.hint
    s.modCur (fun c => modRoust c (s.party == .storer) (putX d (roustValue signed (forwarded stores a.pa bs))))
  | .loadV xs => loadElems s k stores a.scope a.hint xs
  | .amoG kind ty d b c => performAmo s k a kind ty d b c
  | .amoX op aq d b => performAmoX s k a op aq d b

/-- The queues of a party of a core changed. -/
def modPq (s : State) (k : Nat) (p : Party) (f : PartyQ → PartyQ) : State :=
  s.modCore k (fun c => { c with pq := c.pq.set (partyIdx p) (f c.pq[partyIdx p]) })
/-- The queues of a party of a core. -/
def pqOf (s : State) (k : Nat) (p : Party) : PartyQ := (s.coreAt k).pq[partyIdx p]
/-- Every access of a party that has not performed. -/
def waitingOf (s : State) (k : Nat) (p : Party) : List Access :=
  (pqOf s k p).stores ++ (pqOf s k p).pending ++ (pqOf s k p).issue

/-- Is the page of a physical address migrating (R135)? -/
def migrating (s : State) (pa : Nat) : Bool :=
  s.migs.any (fun m => decide (m.old ≤ pa) && decide (pa < m.old + m.size))

/-- Do the bytes of an access lie on a page that stalls (R135)? -/
def accStalls (s : State) (a : Access) : Bool := (accRanges a).any (fun r => migrating s r.1)

/-- Must a load of some ranges wait for buffered stores to its bytes? The RSTATE word of a record is accessed at the package point
alone, so no store gives a load its bytes before it performs (R314). -/
def behindRstate (s : State) (stores : List Access) (rs : List (Nat × Nat)) : Bool :=
  stores.any (fun st => (accRanges st).any (fun r => rs.any (rangeMeets r))) &&
    rs.any (fun r => (List.range r.2).any (fun i => isRstate s (r.1 + i)))

/-! ### The vector queue's entries (R163, R164, R116) -/

/-- The entries of the vector-queue image: VQN of them, zero where nothing was stored (R163). -/
def vqEntries (c : Ctx) : List VqEntry :=
  (List.range c.vqn).map (fun i => c.vq.getD i { words := 0, addr := 0, capC := Cap.zero, capG := 0 })
/-- Entry `i` of the image. -/
def vqAt (c : Ctx) (i : Nat) : VqEntry := c.vq.getD i { words := 0, addr := 0, capC := Cap.zero, capG := 0 }
/-- The entry that the vector agent takes next: the oldest that it has not executed. -/
def vqHead (c : Ctx) : VqEntry := vqAt c c.vlive

/-- Entry 0 leaves the queue: it has committed (R116). -/
def popEntry (c : Ctx) : Ctx := { c with vq := (vqEntries c).drop 1, vqn := c.vqn - 1 }

/-- The executed entries at the head of the queue of core `k` whose loads have all performed leave it, oldest first; the
stores of each may perform from then on (R119). -/
def retire (k : Nat) : Nat → State → State
  | 0, s => s
  | fuel + 1, s =>
    let s' := { s with core := k }
    let q := pqOf s k .vector
    if s'.cur.vlive = 0 || (q.pending ++ q.issue).any (fun a => !isStore a && a.n == 1) then s
    else
      let s := { (s'.modCur (fun c => popEntry { c with vlive := c.vlive - 1 })) with core := s.core }
      let down (a : Access) : Access := { a with n := a.n - 1 }
      retire k fuel (modPq s k .vector (fun q =>
        { issue := q.issue.map down, pending := q.pending.map down, stores := q.stores.map down }))

/-- Accesses in order, cut into those that stay and those that go: one goes where a test lets it and no older one that stays,
of `left` or of the list, must come first (R118). -/
def splitGo (ok : Access → Bool) (left : List Access) : List Access → List Access × List Access
  | [] => ([], [])
  | a :: rest =>
    if ok a && !left.any (keepOrder a) then
      let r := splitGo ok left rest
      (r.1, a :: r.2)
    else
      let r := splitGo ok (left ++ [a]) rest
      (a :: r.1, r.2)

/-- The accesses of a party of core `k` that a test picks performed, but for those that a migration stalls: buffered stores, then
pending loads, then those not issued, each in program order. A vector store whose instruction has not committed waits where
anything stalls (R119). They are the resident context's, whichever core acts. -/
def drainSome (s : State) (k : Nat) (p : Party) (pick : Access → Bool) : State :=
  let q := pqOf s k p
  let stalled := (waitingOf s k p).any (accStalls s)
  let ok (a : Access) : Bool := pick a && !accStalls s a && !(stalled && p == .vector && isStore a && a.n != 0)
  let (ks, gs) := splitGo ok [] q.stores
  let (kp, gp) := splitGo ok ks q.pending
  let (ki, gi) := splitGo ok (ks ++ kp) q.issue
  let go := gs ++ gp ++ gi
  if go.isEmpty then s
  else
    let t := modPq { s with core := k, party := p } k p (fun _ => { issue := ki, pending := kp, stores := ks })
    let t := go.foldl (fun t a => performAccess t k [] a) t
    let t := if p = .vector then retire k 64 t else t
    { t with core := s.core, party := s.party, code := s.code }

/-- Must the first of two waiting accesses of a party, `i` places from the oldest, have performed before the second can,
`j` places from it: it is older and they keep their order (R118), or it is a load of a vector instruction whose stores the
second is among, or of an older one (R119)? -/
def before (a : Access) (i : Nat) (b : Access) (j : Nat) : Bool :=
  (decide (i < j) && keepOrder b a) || (isStore b && b.n != 0 && !isStore a && decide (a.n ≤ b.n))

/-- Places of a list closed under `before`: those chosen, with all that must have performed before them. -/
def closeOver (l : List (Access × Nat)) : Nat → List Nat → List Nat
  | 0, ps => ps
  | fuel + 1, ps =>
    let qs := (l.filter (fun x => ps.contains x.2 || l.any (fun y => ps.contains y.2 && before x.1 x.2 y.1 y.2))).map (·.2)
    if qs.length = ps.length then ps else closeOver l fuel qs

/-- The waiting accesses of a party of core `k` that a test asks for performed, and those that must come before them. -/
def drainFor (s : State) (k : Nat) (p : Party) (asked : Access → Bool) : State :=
  let l := (waitingOf s k p).zipIdx
  let seed := (l.filter (fun x => asked x.1)).map (·.2)
  if seed.isEmpty then s
  else
    let ps := closeOver l l.length seed
    let go := (l.filter (fun x => ps.contains x.2)).map (·.1)
    drainSome s k p go.contains

/-- Every access of a party of core `k` performed that can be. -/
def drain (s : State) (k : Nat) (p : Party) : State := drainSome s k p (fun _ => true)

/-- Every access of a core performed that can be. -/
def drainCore (s : State) (k : Nat) : State :=
  [Party.control, .vector, .loader, .storer].foldl (fun s p => drain s k p) s

/-- Does some access of a core stay behind a migration (R135)? -/
def coreStalls (s : State) (k : Nat) : Bool :=
  [Party.control, .vector, .loader, .storer].any (fun p => (waitingOf s k p).any (accStalls s))

/-! ### Halting, trapping, resuming (R101, R106, R129, R165) -/

/-- The physical address of the frame of a slot (R86). -/
def framePage (slot : Nat) : Nat := ctlBase + 0x8000000000 + 0x10000 * slot

/-- Is a commit request pending (R97)? -/
def commitPending (c : Ctx) : Bool := c.h.reqRoot || c.h.reqVl || c.h.reqAtp

/-- The vector point: the oldest uncommitted entry, or PC when none is held (R165). -/
def vcpOf (c : Ctx) : Word := if c.vqn = 0 then c.h.pc else (c.vq.head?.map (·.addr)).getD c.h.pc

/-- The requested copies of COMMIT made (R97), each a write of its line (R111); a VLCAP below the lanes held shortens (R183). -/
def applyCommit (s : State) (slot : Nat) : State :=
  let c := s.ctxAt slot
  let vl := c.h.reqVl
  let lines := (if c.h.reqRoot || vl then [1] else []) ++ (if c.h.reqAtp then [2] else []) ++ (if commitPending c then [3] else [])
  let s := (lines.map (fun i => framePage slot / 64 + i)).foldl touch s
  let s := s.modCtx slot (fun c => { c with h := { c.h with
    rootcap := if c.h.reqRoot then c.h.shRootcap else c.h.rootcap
    vlcap := if c.h.reqVl then c.h.shVlcap else c.h.vlcap
    atp := if c.h.reqAtp then c.h.shAtp else c.h.atp
    reqRoot := false, reqVl := false, reqAtp := false } })
  let c := s.ctxAt slot
  let n := laneFloor (laneCap s c)
  if vl && c.vr.long && decide (n < c.vr.held) then
    (budgetGive s c.h.region 1 (c.vr.held - n)).modCtx slot (fun c => { c with vr := setLanes c.vr n })
  else s

/-- Does the halt of a context wait, since an access of its agents stays behind a migration (R129, R135)? -/
def haltWaits (s : State) (slot : Nat) : Bool :=
  match (s.ctxAt slot).core with
  | some k => coreStalls s k
  | none => false

/-- Halt(T) (R129): older accesses perform at .sys, a tile load in flight completes (R254) and requested copies take place (R97);
lanes return (R180), reservations end (R260), both points stand. The spin detector's count starts again (R299), loads performed
early and words fetched ahead are forgotten, and its core searches from here on (R46). A control store that waits for its
completion keeps waiting, or is withdrawn (R139, notes/assumptions/78.md). -/
def haltStep (s : State) (slot : Nat) : State :=
  let c := s.ctxAt slot
  let s := match c.core with
    | some k => (release (drainCore s k) k .sys).modCore k (fun x => { x with idle := false, early := [], ahead := [] })
    | none => s
  let s := applyCommit (finishTile s slot) slot
  let s := laneWithdraw s slot
  let s := laneReturn s slot
  s.modCtx slot (fun c =>
    { c with
      h := { c.h with vcp := vcpOf c }
      loader := { c.loader with reserved := none }
      storer := { c.storer with reserved := none }
      spin := { c.spin with count := 0 }
      segPark := none
      awaitClose := none, delivered := none })

/-- Taking a trap (R106), once nothing keeps the halt back: the halt, RUN := 0, cause and details, the sequence number, the
record; in a speculative segment the record waits for the commit (R369). -/
def takeTrap (slot : Nat) (t : Trap) (s : State) : State :=
  if haltWaits s slot then s.modCtx slot (fun c => { c with trap := some t }) else
  let s := haltStep s slot
  let s := s.modCtx slot (fun c => { c with
    h := { c.h with run := 0, cause := t.cause, party := BitVec.ofNat 4 t.party, detail0 := t.detail0,
                    detail1 := t.detail1, poisonPc := t.poisonPc, trapseq := c.h.trapseq + 1 }
    halt := none
    trap := if c.spec then some t else none })
  if (s.ctxAt slot).spec then s else postTrap s slot

/-- A halt without a record: stop, end of a step, HALT, CALLQ (R101, R110, R112). -/
def haltWith (slot : Nat) (cause : BitVec 16) (s : State) : State :=
  let s := haltStep s slot
  s.modCtx slot (fun c => { c with
    h := { c.h with run := 0, cause := cause, party := 0 }
    halt := none, trap := none, parked := none, hit := false })

/-- The words of a vector-queue entry. -/
def entryWords (e : VqEntry) : List Word32 := (List.range 8).map (fun i => e.words.extractLsb' (32 * i) 32)

/-- The instruction that an entry's words encode (R101). -/
def entryInstr (e : VqEntry) : Option Instr := decodeWords (entryWords e)

/-- Is a first word one of an instruction that the control thread pushes into the vector queue: a major that R65 marks V,
FENCE.SV or FENCE.VV (R101)? -/
def pushedWord (w : Word32) : Bool :=
  let j := field w 2 6
  (decide (15 ≤ j) && decide (j ≤ 30)) || j == 36 || (j == 13 && (field w 26 6 == 0 || field w 26 6 == 2))

/-- Does an entry of the image encode no instruction, or one that is not pushed (R101)? -/
def entryBad (e : VqEntry) : Bool := (entryInstr e).isNone || !pushedWord ((entryWords e).headD 0)

/-- Cause ILLEGAL (R105). -/
def cIllegal : BitVec 16 := 0x10

/-- The detail words of an illegal instruction: its first word and its length in bytes (R67). -/
def illegalDetail (ws : List Word32) : Word × Word :=
  let w := ws.headD 0
  (w.setWidth 64, BitVec.ofNat 64 (instrLength w))

/-- A resume decodes the entries of the image again (R101, R168): the first that is no instruction of the vector queue
leaves PC on its place in the image, and the trap ILLEGAL. -/
def replayCheck (slot : Nat) (c : Ctx) : Ctx :=
  let es := (List.range c.vqn).map (fun i => c.vq.getD i { words := 0, addr := 0, capC := Cap.zero, capG := 0 })
  match es.zipIdx.find? (fun p => entryBad p.1) with
  | none => c
  | some (e, i) =>
    let d := illegalDetail (entryWords e)
    { setPc c (BitVec.ofNat 64 (framePage slot + 0x8000 + 32 * i)) with
      trap := some { cause := cIllegal, party := 0, detail0 := d.1, detail1 := d.2, poisonPc := 0 } }

/-- The resume of a stopped context (R101), but for one that a prune has stopped for good (R364): a pending record is withdrawn
(R107), CAUSE := 0, RUN takes the value, the uncommitted entries stay for replay (R168), the carousel's body is loaded again
at its next step (R296), and an acquire at .sys comes before the first instruction (R110). -/
def resumeCtx (slot : Nat) (run : BitVec 2) (s : State) : State :=
  if (s.ctxAt slot).ending then s
  else
    let s := s.modCtx slot (fun c => replayCheck slot { c with
      h := { c.h with run := run, cause := 0, party := 0, pend := false }
      car := { c.car with buffer := [] }
      trap := none, parked := none, hit := false
      halt := none
      firstAcq := some .sys })
    laneRegrant s slot

/-- A parked thread wakes (R111, R181). -/
def wakeCtx (slot : Nat) (s : State) : State :=
  laneRegrant (s.modCtx slot (fun c => { c with parked := none, hit := false })) slot

/-! ### Running a meaning -/

/-- A meaning of the control thread as a step: a trap is taken, a wait changes nothing (R267). -/
def runThread (m : M Unit) (s : State) : Out :=
  match m s with
  | .ok _ s' => .next s'
  | .error (.trap t) s' => .next (takeTrap s'.slot t s')
  | .error .wait s' => .next s'

/-- A scalar instruction under its guard (R32, R145): a failing guard only advances the pc. -/
def guarded (md : Mods) (m : M Unit) : M Unit := do
  let c ← getCur
  if active md c 0 then m else modifyCur (fun c => setPc c (nextPc c md))

/-- The advance past an instruction (R139). -/
def advance (md : Mods) : M Unit := modifyCur (fun c => setPc c (nextPc c md))

/-- A guarded scalar instruction as a step. -/
def scalarStep (md : Mods) (m : M Unit) (s : State) : Out := runThread (guarded md m) s

/-! ### Checked accesses -/

/-- A fault of an access: cause, virtual address, the upper fields of DETAIL1 (R405). -/
structure AccFault where
  cause : BitVec 16
  va : Word
  hi : Word
  /-- DETAIL1 where the cause's own chapter gives it: the session of PROTECTED (R434). -/
  det : Option Word := none
  deriving DecidableEq, Repr

/-- Cause CTLALIGN (R105). -/
def cCtlAlign : BitVec 16 := 0x30
/-- Cause CTLACCESS. -/
def cCtlAccess : BitVec 16 := 0x31
/-- Cause BUSYIMAGE. -/
def cBusyImage : BitVec 16 := 0x32
/-- Cause SELFAUTH. -/
def cSelfAuth : BitVec 16 := 0x33
/-- Cause MSOURCE (R258). -/
def cMSource : BitVec 16 := 0x900
/-- Cause PEERWIN (R289). -/
def cPeerWin : BitVec 16 := 0x407
/-- Cause LOCKED (R434). -/
def cLocked : BitVec 16 := 0xA00

/-- Is a range refused to a region by a session's protection (R422)? -/
def refusedTo (s : State) (region pa : Nat) : Bool :=
  match protectedBy s pa with
  | some j => !regionUnder s region (s.sessionAt j).region
  | none => false

/-- Does core `k` at a scope read a line from a copy short of its home (R116)? -/
def cachedFor (s : State) (k : Nat) (sc : Scope) (l : Nat) : Bool :=
  let own : BitVec 64 := ((s.l1Line k l).map (·.dirty)).getD 0
  match sc with
  | .core | .clu => (s.l1Line k l).isSome || !(snooped s k l).isEmpty || (s.l2Line (dieOf k) l).isSome
  | .die => (s.l2Line (dieOf k) l).isSome || own == BitVec.allOnes 64
  | .pkg | .sys =>
    let two : BitVec 64 := match s.l2Line (dieOf k) l with
      | some x => if x.writers.contains k then x.dirty else 0
      | none => 0
    own ||| two == BitVec.allOnes 64

/-- Does a range of an access at a scope meet a poisoned line at its home (R443)? -/
def memErrAt (s : State) (k : Nat) (sc : Scope) (pa n : Nat) : Bool :=
  !s.poison.isEmpty &&
  (pieces pa n (n / 64 + 2)).any (fun p => s.poison.contains (lineOf p.1) && !cachedFor s k sc (lineOf p.1))

/-- The agent of the acting context's accesses. -/
def ctxXer (s : State) : Xer := { agent := s.core, slot := s.slot, core := s.core, atp := s.cur.h.atp }

/-- The checks that follow translation for an ordinary access of the acting context: stall by migration, pewter windows
(R236), peer windows (R271), protection (R422), poisoned lines (R443). -/
def afterTranslate (pa size : Nat) (sources : Bool) (sc : Scope := .core) : M (Option (BitVec 16 × Option Word)) := do
  let s ← get
  if migrating s pa then waits
  else if inPewter pa && !sources then return some (cMSource, none)
  else if inPeer pa then return some (cPeerWin, none)
  else if refusedTo s s.cur.h.region pa then
    return some (cProtected, (protectedBy s pa).map (BitVec.ofNat 64))
  else if memErrAt s s.core sc pa size then return some (cMemErr, none)
  else return none

/-- CapAccess (R33) for the acting context through a capability: the fault, or the physical address. `sources` lets
pewter windows pass, for MLDT alone. -/
def capAccessS (cap : Cap) (off : Int) (size : Nat) (p : CapPerm) (tp : Perm) (sources : Bool) (sc : Scope := .core) :
    M (Except AccFault Nat) := do
  let va : Word := capCursor cap + wordOf off
  match capCheck cap off size p with
  | .error cause => return .error { cause := cause, va := va, hi := 0 }
  | .ok a =>
    let s ← get
    let (s, r) := translate s (ctxXer s) a tp
    set s
    match r with
    | .error f =>
      return .error { cause := f.cause, va := va, hi := xdetail f tp
                      det := if f.cause = cProtected then some f.gpa else none }
    | .ok pa =>
      match ← afterTranslate pa size sources sc with
      | some (cause, det) => return .error { cause := cause, va := va, hi := 0, det := det }
      | none => return .ok pa

/-- CapAccess for an ordinary access. -/
def capAccess (cap : Cap) (off : Int) (size : Nat) (p : CapPerm) (tp : Perm) (sc : Scope := .core) : M (Except AccFault Nat) :=
  capAccessS cap off size p tp false sc

/-- CtlCheck (R88). -/
def ctlCheck (cap : Cap) (off : Int) (size : Nat) (p : CapPerm) (tp : Perm) (sc : Scope := .core) : M (Except AccFault Nat) := do
  match ← capAccess cap off size p tp sc with
  | .error f => return .error f
  | .ok pa =>
    if inCtl pa && !capHas cap .ctl then
      return .error { cause := cCapPerm, va := capCursor cap + wordOf off, hi := 0 }
    else return .ok pa

/-- The trap of a faulting scalar access: DETAIL0 the virtual address, DETAIL1 the capability number under the
translation fields (R161, R405). -/
def accTrap {α : Type} (f : AccFault) (capNo : Nat) : M α :=
  trapD f.cause f.va (f.det.getD (f.hi ||| BitVec.ofNat 64 capNo))

/-- A checked access whose faults trap. -/
def orTrap (r : Except AccFault Nat) (capNo : Nat) : M Nat :=
  match r with
  | .ok pa => return pa
  | .error f => accTrap f capNo

/-- The instructions that park a speculative segment (R368): the whole segment waits, its lanes returned. -/
def parkIfSpec : M Unit := do
  let c ← getCur
  if c.spec then
    modify (fun s => restLanes (s.modCur (fun c => { c with segPark := some s.party })) s.slot)
    waits
  else pure ()

/-- The accesses of a party of the acting core have performed, or the instruction waits for a migration (R116, R135). -/
def drainParty (p : Party) : M Unit := do
  modify (fun s => drain s s.core p)
  let s ← get
  if (waitingOf s s.core p).isEmpty then pure () else waits

/-- Release (R121) of the acting party at a scope. -/
def releaseOwn (sc : Scope) : M Unit := do
  drainParty (← get).party
  modify (fun s => release s s.core sc)

/-- The vector agent has committed every older entry (R110, R112, R122), or the instruction waits. -/
def waitVector : M Unit := do
  let c ← getCur
  if c.vqn = 0 then return ()
  else if c.vlive < c.vqn then waits
  else
    drainParty .vector
    if (← getCur).vqn = 0 then return () else waits

/-- Every access of the acting core's agents has performed, as before a halt (R129). -/
def quiet : M Unit := do
  drainParty .control
  drainParty .vector
  drainParty .loader
  drainParty .storer

end Sys2Proof.Machine
end

