-- ==== Sys2Proof/Machine/Frames.lean ====
section
/-! DEFINITION. The words of a context frame as loads see them and as stores change them (R93 to R100, R141, R156, R163,
R175, R184, R190, R256, R288, R297, R301, R340, R356, R463). -/

namespace Sys2Proof.Machine

/-- A 64-bit piece of a bit vector. -/
def word64 {n : Nat} (v : BitVec n) (i : Nat) : Word := v.extractLsb' (64 * i) 64
/-- A 64-bit piece of a bit vector replaced. -/
def setWord64 {n : Nat} (v : BitVec n) (i : Nat) (w : Word) : BitVec n := setField v (64 * i) 64 w.toNat

/-- A half of a capability's bits: false the low. -/
def capHalf (c : Cap) (hi : Bool) : Word := word64 c.bits (b2n hi)
/-- A plain store to a half of a capability word: the tag clears (R85). -/
def setCapHalf (c : Cap) (hi : Bool) (w : Word) : Cap := { bits := setWord64 c.bits (b2n hi) w, tag := false }

/-- Tags of a list of capabilities, one bit each. -/
def tagWord (l : List Cap) : Word :=
  BitVec.ofNat 64 (l.foldr (fun c acc => 2 * acc + b2n c.tag) 0)

/-- A store to a tag word clears tags and never sets one (R463). -/
def clearTags {n : Nat} (v : Vector Cap n) (w : Word) : Vector Cap n :=
  v.mapIdx (fun i c => { c with tag := c.tag && w.getLsbD i })

/-- Entry `i` of the image changed. The address that VCP would name for it is not in the image and stays as the push left it
(notes/assumptions/79.md). -/
def vqSet (c : Ctx) (i : Nat) (f : VqEntry → VqEntry) : Ctx :=
  let l := (List.range (max c.vq.length (i + 1))).map (fun j => vqAt c j)
  { c with vq := modifyAt l i f }

/-- evq (R277). -/
def evqWord (c : Ctx) : Word := BitVec.ofNat 64 (c.q.events.length ||| c.q.qb.length <<< 8)
/-- The lane word (R184). -/
def laneWord (c : Ctx) : Word := BitVec.ofNat 64 (c.vr.lanes ||| c.vr.wlog <<< 8)
/-- TMEMB (R340). -/
def tmembWord (c : Ctx) : Word :=
  match c.member with
  | some (t, i) => BitVec.ofNat 64 (1 <<< 63 ||| t <<< 16 ||| i)
  | none => 0
/-- SEGW (R356). -/
def segWord (c : Ctx) : Word :=
  BitVec.ofNat 64 (b2n c.seg <<< 63 ||| b2n c.spec <<< 62 ||| c.depth <<< 8 ||| c.segId)

/-- RUN (R95). -/
def runWord (c : Ctx) : Word := c.h.run.setWidth 64 ||| (if c.core.isSome then 0x100 else 0)
/-- CAUSE (R96). -/
def causeWord (c : Ctx) : Word :=
  BitVec.ofNat 64 (c.h.cause.toNat ||| b2n c.h.pend <<< 16 ||| c.h.party.toNat <<< 20)

/-- A header word (R94). -/
def headerRead (slot : Nat) (c : Ctx) (o : Nat) : Word :=
  match o with
  | 0x000 => runWord c
  | 0x008 => causeWord c
  | 0x010 => c.h.pc
  | 0x018 => if c.h.run = 0 then c.h.vcp else vcpOf c
  | 0x020 => BitVec.ofNat 64 c.vqn
  | 0x028 => c.h.poisonPc
  | 0x030 => c.h.detail0
  | 0x038 => c.h.detail1
  | 0x040 => capHalf c.h.rootcap false
  | 0x048 => capHalf c.h.rootcap true
  | 0x050 => capHalf c.h.pcap false
  | 0x058 => capHalf c.h.pcap true
  | 0x060 => c.h.vlcap
  | 0x068 => c.h.srseed
  | 0x070 => c.h.srbase
  | 0x078 => BitVec.ofNat 64 c.h.region
  | 0x080 => c.h.atp
  | 0x088 => c.h.rasSpill
  | 0x090 => c.h.rasEnd
  | 0x098 => c.h.spinpark
  | 0x0A0 => c.h.imgbase
  | 0x0A8 => BitVec.ofNat 64 slot
  | 0x0B0 => c.h.trapseq.setWidth 64
  | 0x0C0 => BitVec.ofNat 64 (b2n c.h.reqRoot ||| b2n c.h.reqVl <<< 1 ||| b2n c.h.reqAtp <<< 2)
  | 0x0D0 => capHalf c.h.shRootcap false
  | 0x0D8 => capHalf c.h.shRootcap true
  | 0x0E0 => c.h.shVlcap
  | 0x0E8 => c.h.shAtp
  | _ => 0

/-- A word of the page at 0x1000 (R93, R141, R143). The origin causes of g0 to g63 follow R141's formula to 0x2FF, past the 0x29F
that its table prints (notes/assumptions/70.md). -/
def gpageRead (c : Ctx) (o : Nat) : Word :=
  let i := o / 8
  if o < 0x200 then gVal c (Fin.ofNat 64 i)
  else if o = 0x200 then c.r.gp
  else if 0x280 ≤ o ∧ o < 0x300 then
    let k := 4 * ((o - 0x280) / 8)
    BitVec.ofNat 64 ((List.range 4).foldr (fun j acc => acc * 65536 + (c.r.ocause.toList.getD (k + j) 0).toNat) 0)
  else if 0x400 ≤ o ∧ o < 0x500 then capHalf (c.r.c.toList.getD ((o - 0x400) / 16) Cap.zero) (o / 8 % 2 == 1)
  else if o = 0x500 then tagWord c.r.c.toList
  else if o = 0x580 then c.vr.vl.setWidth 64
  else if o = 0x588 then BitVec.ofNat 64 (b2n c.vr.long)
  else if o = 0x590 then c.lk.setWidth 64
  else if o = 0x598 then c.tsib.setWidth 64
  else if o = 0x5A0 then evqWord c
  else if o = 0x5A8 then laneWord c
  else if o = 0x5B0 then tmembWord c
  else if o = 0x5B8 then segWord c
  else if 0x600 ≤ o ∧ o < 0x800 then c.r.oaddr.toList.getD ((o - 0x600) / 8) 0
  else if 0x800 ≤ o then
    if (o - 0x800) / 128 = 0 then BitVec.allOnes 64
    else word64 (c.vr.p.toList.getD ((o - 0x800) / 128) 0) (o / 8 % 16)
  else 0

/-- A roustabout's words (R288), at the offset in its 0x200 bytes. -/
def roustRead (r : Roustabout) (o : Nat) : Word :=
  if o < 0x100 then (if o = 0 then 0 else r.x.toList.getD (o / 8) 0)
  else if o = 0x100 then r.pc &&& 0x3FFF
  else if o = 0x108 then BitVec.ofNat 64 (b2n r.idle)
  else if 0x110 ≤ o ∧ o < 0x190 then capHalf (r.kc.toList.getD ((o - 0x110) / 16) Cap.zero) (o / 8 % 2 == 1)
  else if o = 0x190 then tagWord r.kc.toList
  else 0

/-- A tile slot's descriptor (R256); `pend` where a load into it is in flight. -/
def mslotWord (t : Tile) (pend : Bool) : Word :=
  BitVec.ofNat 64 (b2n t.valid <<< 63 ||| b2n (t.pend || pend) <<< 62 ||| b2n t.scratch <<< 61 ||| b2n t.tr <<< 60 |||
    t.kind.code.toNat <<< 58 ||| t.ty.code.toNat <<< 53 ||| b2n t.reload <<< 52 ||| t.offset)

/-- Word 0 of a binding with its bound bit (R282). -/
def bindWord (b : Binding) : Word := setField b.word0 7 1 (b2n b.bound)

/-- QSTATE of a strip queue (R288). -/
def qstateWord (l : List StripEntry) : Word :=
  let marks := (l.filter (fun e => match e with
    | .endMark => true
    | .strip _ _ _ _ => false)).length
  BitVec.ofNat 64 ((l.length - marks) ||| marks <<< 4)

/-- SSCFG (R301). -/
def sscfgWord (x : Sideshow) : Word := BitVec.ofNat 64 (x.base ||| x.slots <<< 20 ||| x.lp <<< 32)

/-- A word of the pages 0x8000 and 0x9000 (R93, R156, R164, R190, R256, R288, R297, R301). Entries at or past VQN read as 0
(notes/assumptions/79.md). -/
def queuePageRead (c : Ctx) (o : Nat) : Word :=
  if o < 0x8800 then word64 (if (o - 0x8000) / 32 < c.vqn then (vqAt c ((o - 0x8000) / 32)).words else 0) (o / 8 % 4)
  else if o < 0x8880 then (if (o - 0x8800) / 8 < c.rasN then c.ras.toList.getD ((o - 0x8800) / 8) 0 else 0)
  else if o = 0x8880 then BitVec.ofNat 64 c.rasN
  else if o = 0x8888 then c.h.rasBase
  else if o = 0x8890 then tagWord ((List.range 64).map (fun i => (vqAt c i).capC))
  else if 0x8900 ≤ o ∧ o < 0x8960 then
    match c.car.levels.toList[(o - 0x8900) / 16]? with
    | some l => if o / 8 % 2 = 0 then l.count ++ l.index else l.stride
    | none => 0
  else if o = 0x8960 then
    BitVec.ofNat 64 (c.car.levels.toList.foldr (fun l acc => acc * 64 + l.reg.val) 0)
  else if o = 0x8968 then BitVec.ofNat 64 (c.car.cln ||| c.car.pos <<< 8)
  else if o = 0x8970 then c.car.body
  else if 0x8A00 ≤ o ∧ o < 0x8E00 then capHalf (vqAt c ((o - 0x8A00) / 16)).capC (o / 8 % 2 == 1)
  else if 0x8E00 ≤ o ∧ o < 0x9000 then (vqAt c ((o - 0x8E00) / 8)).capG
  else if 0x9000 ≤ o ∧ o < 0x9200 then roustRead c.loader (o - 0x9000)
  else if 0x9200 ≤ o ∧ o < 0x9400 then roustRead c.storer (o - 0x9200)
  else if 0x9400 ≤ o ∧ o < 0x9C00 then
    word64 (c.vr.vp.toList.getD ((o - 0x9400) / 64) 0 &&& maskAt 512 0 (lbits c.vr / 8)) (o / 8 % 8)
  else if 0x9C00 ≤ o ∧ o < 0x9D00 then c.vr.vo.toList.getD ((o - 0x9C00) / 8) 0
  else if 0x9D00 ≤ o ∧ o < 0x9D40 then bindWord (c.q.binds.toList.getD ((o - 0x9D00) / 8) Binding.none)
  else if 0x9D40 ≤ o ∧ o < 0x9D80 then qstateWord (c.q.strips.toList.getD ((o - 0x9D40) / 8) [])
  else if o = 0x9E00 then mslotWord c.mx.slot0 (c.mx.load.isSome && c.mx.act)
  else if o = 0x9E08 then mslotWord c.mx.slot1 (c.mx.load.isSome && !c.mx.act)
  else if o = 0x9E10 then BitVec.ofNat 64 (c.mx.accInt.toNat ||| b2n c.mx.act <<< 8)
  else if o = 0x9E18 then c.mx.chain
  else if 0x9F00 ≤ o ∧ o < 0x9F80 then
    match c.q.stages.toList[(o - 0x9F00) / 8]? with
    | some st => (st.pending ++ st.credit).setWidth 64
    | none => 0
  else if o = 0x9F80 then sscfgWord c.ss
  else if 0x9F88 ≤ o ∧ o < 0x9FC8 then
    let p := (o - 0x9F88) / 8
    BitVec.ofNat 64 (c.ss.counts.toList.getD p 0 ||| c.ss.heads.toList.getD p 0 <<< 16)
  else 0

/-- A word of a frame (R93); `o` is a multiple of 8. -/
def frameRead (slot : Nat) (c : Ctx) (o : Nat) : Word :=
  if o < 0x1000 then headerRead slot c o
  else if o < 0x2000 then gpageRead c (o - 0x1000)
  else if o < 0x6000 then
    word64 (c.vr.v.toList.getD ((o - 0x2000) / 512) 0 &&& maskAt 4096 0 (lbits c.vr)) ((o - 0x2000) / 8 % 64)
  else if o < 0x8000 then word64 (c.mx.acc.toList.getD ((o - 0x6000) / 1024) 0) ((o - 0x6000) / 8 % 128)
  else if o < 0xA000 then queuePageRead c o
  else 0

/-- Are ATP's mode and reserved bits legal (R391)? -/
def atpLegal (w : Word) : Bool := decide (field w 60 4 ≤ 1) && decide (field w 14 46 = 0)

/-- A store to a header word (R94), apart from RUN and COMMIT. -/
def headerWrite (c : Ctx) (o : Nat) (v : Word) : Ctx :=
  let h := c.h
  match o with
  | 0x008 => { c with h := { h with cause := v.extractLsb' 0 16, party := v.extractLsb' 20 4 } }
  | 0x010 => { c with h := { h with pc := v }, cancelled := none, awaits := [], halting := false, awaitHalts := [] }
  | 0x018 => { c with h := { h with vcp := v } }
  | 0x020 => if v.toNat ≤ 64 then { c with vqn := v.toNat } else c
  | 0x028 => { c with h := { h with poisonPc := v } }
  | 0x030 => { c with h := { h with detail0 := v } }
  | 0x038 => { c with h := { h with detail1 := v } }
  | 0x040 => { c with h := { h with rootcap := setCapHalf h.rootcap false v } }
  | 0x048 => { c with h := { h with rootcap := setCapHalf h.rootcap true v } }
  | 0x050 => { c with h := { h with pcap := setCapHalf h.pcap false v } }
  | 0x058 => { c with h := { h with pcap := setCapHalf h.pcap true v } }
  | 0x060 => { c with h := { h with vlcap := v &&& maskAt 64 0 7 } }
  | 0x068 => { c with h := { h with srseed := v } }
  | 0x070 => { c with h := { h with srbase := v } }
  | 0x080 => if atpLegal v then { c with h := { h with atp := v } } else c
  | 0x088 => { c with h := { h with rasSpill := v } }
  | 0x090 => { c with h := { h with rasEnd := v } }
  | 0x098 => { c with h := { h with spinpark := v } }
  | 0x0D0 => { c with h := { h with shRootcap := setCapHalf h.shRootcap false v } }
  | 0x0D8 => { c with h := { h with shRootcap := setCapHalf h.shRootcap true v } }
  | 0x0E0 => { c with h := { h with shVlcap := v &&& maskAt 64 0 7 } }
  | 0x0E8 => if atpLegal v then { c with h := { h with shAtp := v } } else c
  | _ => c

/-- A store to a word of the page at 0x1000. Register bits above a length that a store to vmode or to the lane word shortens stay
(notes/assumptions/42.md). -/
def gpageWrite (c : Ctx) (o : Nat) (v : Word) : Ctx :=
  let i := o / 8
  if o < 0x200 then (if i = 0 then c else { c with r := { c.r with g := vset c.r.g i v } })
  else if o = 0x200 then { c with r := { c.r with gp := v &&& ~~~ 1#64 } }
  else if 0x280 ≤ o ∧ o < 0x300 then
    let k := 4 * ((o - 0x280) / 8)
    let oc := (List.range 4).foldl (fun oc j => vset oc (k + j) (BitVec.ofNat 16 (field v (16 * j) 16))) c.r.ocause
    { c with r := { c.r with ocause := oc } }
  else if 0x400 ≤ o ∧ o < 0x500 then
    let n := (o - 0x400) / 16
    { c with r := { c.r with c := vset c.r.c n (setCapHalf (c.r.c.toList.getD n Cap.zero) (o / 8 % 2 == 1) v) } }
  else if o = 0x500 then { c with r := { c.r with c := clearTags c.r.c v } }
  else if o = 0x580 then { c with vr := { c.vr with vl := v.extractLsb' 0 13 } }
  else if o = 0x588 then { c with vr := { c.vr with long := bit v 0 } }
  else if o = 0x598 then { c with tsib := v.extractLsb' 0 6 }
  else if o = 0x5A8 then
    let l := field v 0 7
    let w := field v 8 3
    if (l = 0 ∨ l = 8 ∨ l = 16 ∨ l = 32 ∨ l = 64) ∧ 2 ≤ w ∧ w ≤ 6 then
      { c with vr := { c.vr with lanes := l, wlog := w } }
    else c
  else if 0x600 ≤ o ∧ o < 0x800 then { c with r := { c.r with oaddr := vset c.r.oaddr ((o - 0x600) / 8) v } }
  else if 0x800 ≤ o then
    let n := (o - 0x800) / 128
    if n = 0 then c
    else { c with vr := { c.vr with p := vset c.vr.p n (setWord64 (c.vr.p.toList.getD n 0) (o / 8 % 16) v) } }
  else c

/-- A store to a roustabout's words (R288). -/
def roustWrite (r : Roustabout) (o : Nat) (v : Word) : Roustabout :=
  if o < 0x100 then (if o = 0 then r else { r with x := vset r.x (o / 8) v })
  else if o = 0x100 then { r with pc := v &&& 0x3FFF, idle := false }
  else if 0x110 ≤ o ∧ o < 0x190 then
    let n := (o - 0x110) / 16
    { r with kc := vset r.kc n (setCapHalf (r.kc.toList.getD n Cap.zero) (o / 8 % 2 == 1) v) }
  else if o = 0x190 then { r with kc := clearTags r.kc v }
  else r

/-- Does a chain word break R249? -/
def chainBad (w : Word) : Bool :=
  field w 16 16 != 0 || field w 3 5 != 0 || field w 55 8 == 255

/-- A store to a word of the pages 0x8000 and 0x9000, apart from SSCFG. -/
def queuePageWrite (c : Ctx) (o : Nat) (v : Word) : Ctx :=
  if o < 0x8800 then
    vqSet c ((o - 0x8000) / 32) (fun e => { e with words := setWord64 e.words (o / 8 % 4) v })
  else if o < 0x8880 then { c with ras := vset c.ras ((o - 0x8800) / 8) v }
  else if o = 0x8880 then
    let n := field v 0 5
    if 16 < n then c else { c with rasN := n }
  else if o = 0x8888 then { c with h := { c.h with rasBase := v } }
  else if o = 0x8890 then
    { c with vq := c.vq.mapIdx (fun i e => { e with capC := { e.capC with tag := e.capC.tag && v.getLsbD i } }) }
  else if 0x8900 ≤ o ∧ o < 0x8960 then
    let i := (o - 0x8900) / 16
    let l := c.car.levels.toList.getD i { count := 0, index := 0, stride := 0, reg := 0 }
    if o / 8 % 2 = 1 then { c with car := { c.car with levels := vset c.car.levels i { l with stride := v } } }
    else
      let cnt : BitVec 32 := v.extractLsb' 32 32
      let idx : BitVec 32 := v.extractLsb' 0 32
      if cnt ≠ 0 ∧ ¬ idx < cnt then c
      else { c with car := { c.car with levels := vset c.car.levels i { l with count := cnt, index := idx } } }
  else if o = 0x8960 then
    let ls := c.car.levels.mapIdx (fun i l => { l with reg := Fin.ofNat 64 (field v (6 * i) 6) })
    { c with car := { c.car with levels := ls } }
  else if o = 0x8968 then
    let n := field v 0 8
    let p := field v 8 7
    if 128 < n ∨ (n ≠ 0 ∧ n ≤ p) then c else { c with car := { c.car with cln := n, pos := p } }
  else if o = 0x8970 then { c with car := { c.car with body := v } }
  else if 0x8A00 ≤ o ∧ o < 0x8E00 then
    vqSet c ((o - 0x8A00) / 16) (fun e => { e with capC := setCapHalf e.capC (o / 8 % 2 == 1) v })
  else if 0x8E00 ≤ o ∧ o < 0x9000 then vqSet c ((o - 0x8E00) / 8) (fun e => { e with capG := v })
  else if 0x9000 ≤ o ∧ o < 0x9200 then { c with loader := roustWrite c.loader (o - 0x9000) v }
  else if 0x9200 ≤ o ∧ o < 0x9400 then { c with storer := roustWrite c.storer (o - 0x9200) v }
  else if 0x9400 ≤ o ∧ o < 0x9C00 then
    let n := (o - 0x9400) / 64
    let x := setWord64 (c.vr.vp.toList.getD n 0) (o / 8 % 8) v &&& maskAt 512 0 (lbits c.vr / 8)
    { c with vr := { c.vr with vp := vset c.vr.vp n x } }
  else if 0x9C00 ≤ o ∧ o < 0x9D00 then { c with vr := { c.vr with vo := vset c.vr.vo ((o - 0x9C00) / 8) v } }
  else if 0x9D00 ≤ o ∧ o < 0x9D40 then
    let n := (o - 0x9D00) / 8
    let w := setField (setField (setField v 30 2 0) 11 5 0) 7 1 0
    { c with q := { c.q with binds := vset c.q.binds n { c.q.binds.toList.getD n Binding.none with word0 := w } } }
  else if o = 0x9E10 then { c with mx := { c.mx with accInt := v.extractLsb' 0 8 } }
  else if o = 0x9E18 then (if chainBad v then c else { c with mx := { c.mx with chain := v } })
  else if 0x9F00 ≤ o ∧ o < 0x9F80 then
    let st : Stage := { pending := v.extractLsb' 24 8, credit := v.extractLsb' 0 24 }
    { c with q := { c.q with stages := vset c.q.stages ((o - 0x9F00) / 8) st } }
  else if 0x9F88 ≤ o ∧ o < 0x9FC8 then
    let p := (o - 0x9F88) / 8
    let hd := field v 16 12
    let n := field v 0 12
    if c.ss.slots ≤ hd ∨ c.ss.slots < n then c
    else { c with ss := { c.ss with heads := vset c.ss.heads p hd, counts := vset c.ss.counts p n } }
  else c

/-- A store to a frame word with no row of its own, past the checks of R98. -/
def frameWrite (c : Ctx) (o : Nat) (v : Word) : Ctx :=
  if o < 0x1000 then headerWrite c o v
  else if o < 0x2000 then gpageWrite c (o - 0x1000) v
  else if o < 0x6000 then
    let n := (o - 0x2000) / 512
    let x := setWord64 (c.vr.v.toList.getD n 0) ((o - 0x2000) / 8 % 64) v &&& maskAt 4096 0 (lbits c.vr)
    { c with vr := { c.vr with v := vset c.vr.v n x } }
  else if o < 0x8000 then
    let n := (o - 0x6000) / 1024
    { c with mx := { c.mx with acc := vset c.mx.acc n (setWord64 (c.mx.acc.toList.getD n 0) ((o - 0x6000) / 8 % 128) v) } }
  else if o < 0xA000 then queuePageWrite c o v
  else c

/-- Is a store to the frame word busy while RUN reads 1 or 2 (R98)? -/
def busyOffset (o : Nat) : Bool :=
  (decide (0x1000 ≤ o) && decide (o < 0xA000)) ||
  [0x008, 0x010, 0x018, 0x020, 0x028, 0x030, 0x038, 0x040, 0x048, 0x050, 0x058, 0x060, 0x068, 0x070, 0x080, 0x088,
   0x090].contains o

/-- Is it a shadow word or COMMIT (R97)? -/
def shadowOffset (o : Nat) : Bool := [0x0C0, 0x0D0, 0x0D8, 0x0E0, 0x0E8].contains o

/-- The words of its own frame that a context may not reach without the self-authority grant (R90). -/
def selfAuthOffset (o : Nat) : Bool :=
  (decide (0x040 ≤ o) && decide (o < 0x068)) || (decide (0x0D0 ≤ o) && decide (o < 0x0E8))

/-- A capability word of control space (R85). -/
inductive CapWord where
  | rootcap | pcap | shRootcap | creg (n : Nat) | captured (i : Nat) | loaderKc (n : Nat) | storerKc (n : Nat)
  deriving DecidableEq, Repr

/-- The capability word at a frame offset, if one is there (R85). -/
def capWordAt (o : Nat) : Option CapWord :=
  if o % 16 ≠ 0 then none
  else if o = 0x040 then some .rootcap
  else if o = 0x050 then some .pcap
  else if o = 0x0D0 then some .shRootcap
  else if 0x1400 ≤ o ∧ o < 0x1500 then some (.creg ((o - 0x1400) / 16))
  else if 0x8A00 ≤ o ∧ o < 0x8E00 then some (.captured ((o - 0x8A00) / 16))
  else if 0x9110 ≤ o ∧ o < 0x9190 then some (.loaderKc ((o - 0x9110) / 16))
  else if 0x9310 ≤ o ∧ o < 0x9390 then some (.storerKc ((o - 0x9310) / 16))
  else none

/-- A capability word read with its tag. -/
def capWordRead (c : Ctx) : CapWord → Cap
  | .rootcap => c.h.rootcap
  | .pcap => c.h.pcap
  | .shRootcap => c.h.shRootcap
  | .creg n => c.r.c.toList.getD n Cap.zero
  | .captured i => (vqAt c i).capC
  | .loaderKc n => c.loader.kc.toList.getD n Cap.zero
  | .storerKc n => c.storer.kc.toList.getD n Cap.zero

/-- A capability word written with a tag (R85, R463). -/
def capWordWrite (c : Ctx) (w : CapWord) (x : Cap) : Ctx :=
  match w with
  | .rootcap => { c with h := { c.h with rootcap := x } }
  | .pcap => { c with h := { c.h with pcap := x } }
  | .shRootcap => { c with h := { c.h with shRootcap := x } }
  | .creg n => { c with r := { c.r with c := vset c.r.c n x } }
  | .captured i => vqSet c i (fun e => { e with capC := x })
  | .loaderKc n => { c with loader := { c.loader with kc := vset c.loader.kc n x } }
  | .storerKc n => { c with storer := { c.storer with kc := vset c.storer.kc n x } }

/-! ### Images in the save area (R100, R180) -/

/-- Offsets of the capability words among the images. -/
def imageCaps : List Nat :=
  (List.range 16).map (0x1400 + 16 * ·) ++ (List.range 64).map (0x8A00 + 16 * ·) ++
    (List.range 8).map (0x9110 + 16 * ·) ++ (List.range 8).map (0x9310 + 16 * ·)

/-- The capability words that a tag word tells of (R463). -/
def tagWordCaps (o : Nat) : List Nat :=
  if o = 0x1500 then imageCaps.filter (fun a => decide (a < 0x1500))
  else if o = 0x8890 then imageCaps.filter (fun a => decide (0x8A00 ≤ a) && decide (a < 0x8E00))
  else if o = 0x9190 then imageCaps.filter (fun a => decide (0x9110 ≤ a) && decide (a < 0x9190))
  else if o = 0x9390 then imageCaps.filter (fun a => decide (0x9310 ≤ a))
  else []

/-- Does an image word of a context stand in its save area, at its frame offset? The tags stand there as granule tags
(notes/assumptions/8.md). -/
def inSaveArea (c : Ctx) (o : Nat) : Bool :=
  (c.saved && decide (0x1000 ≤ o) && decide (o < 0xA000) && (tagWordCaps o).isEmpty) ||
  (c.vsaved && ((decide (0x1880 ≤ o) && decide (o < 0x6000)) || (decide (0x9400 ≤ o) && decide (o < 0x9C00))))

/-- An image word as a save area holds it: entries of the vector-queue image and of the return-address store stand there whatever
VQN and RASN are (R98). -/
def imageRead (slot : Nat) (c : Ctx) (o : Nat) : Word :=
  if 0x8000 ≤ o ∧ o < 0x8880 then queuePageRead { c with vqn := 64, rasN := 16 } o else frameRead slot c o

/-- A context with an image word as its save area holds it. -/
def wordIn (s : State) (slot : Nat) (c : Ctx) (o : Nat) : Ctx :=
  if !inSaveArea c o then c
  else
    let w := pkgWord s (c.h.imgbase.toNat + o)
    if w = imageRead slot c o then c else frameWrite c o w

/-- A context with the capability word at an offset as its save area holds it, tag and all. -/
def capIn (s : State) (slot : Nat) (c : Ctx) (o : Nat) : Ctx :=
  if !inSaveArea c o then c
  else
    match capWordAt o with
    | none => c
    | some w =>
      let a := c.h.imgbase.toNat + o
      let c := wordIn s slot (wordIn s slot c o) (o + 8)
      let x := capWordRead c w
      let t := (sideTags s 0 (lineOf a)).getLsbD (a % 64 / 16)
      if x.tag = t then c else capWordWrite c w { x with tag := t }

/-- A context with every image as its save area holds it. -/
def imagesIn (s : State) (slot : Nat) (c : Ctx) : Ctx :=
  if !c.saved then vecIn s c
  else
    let c := (List.range 4608).foldl (fun c i => wordIn s slot c (0x1000 + 8 * i)) c
    { imageCaps.foldl (capIn s slot) c with saved := false, vsaved := false }

/-- A context as a load of the word at an offset finds it: the lengths first, then the word, or the tags that it tells of. -/
def frameCtx (s : State) (slot : Nat) (c : Ctx) (o : Nat) : Ctx :=
  if !c.saved && !c.vsaved then c
  else (tagWordCaps o).foldl (capIn s slot) ([0x1588, 0x15A8, 0x8880, o].foldl (wordIn s slot) c)

/-- CAUSE's pend as a load shows it: a record waits for queue space only where its fault domain names a queue (R96, R107;
notes/assumptions/67.md). -/
def pendShown (s : State) (c : Ctx) : Ctx :=
  { c with h := { c.h with pend := c.h.pend && (faultQueue s treeFuel c.h.region).isSome } }

/-- A word of the frame of a slot, which may hold no context (R87). -/
def slotRead (s : State) (slot o : Nat) : Word :=
  match s.ctx? slot with
  | some c => frameRead slot (pendShown s (frameCtx s slot c o)) o
  | none => if o = 0x0A8 then BitVec.ofNat 64 slot else 0

/-- A capability word of a context's frame. -/
def slotCap (s : State) (slot : Nat) (c : Ctx) (o : Nat) (w : CapWord) : Cap := capWordRead (capIn s slot c o) w

/-- A word stored to the frame of a context past its checks: an image that stands in the save area is written there too. A
store to a tag word clears the tags of its granules. -/
def frameStoreWord (s : State) (slot : Nat) (c : Ctx) (o : Nat) (v : Word) : State :=
  let old := frameCtx s slot c o
  let c := frameWrite old o v
  let b := c.h.imgbase.toNat
  let s := s.setCtx slot c
  if inSaveArea c o then pkgPut s (b + o) (imageRead slot c o)
  else if c.saved then
    (tagWordCaps o).foldl (fun s a => match capWordAt a with
      | some w => if (capWordRead old w).tag && !(capWordRead c w).tag then pkgStore s (b + a) (pkgLoad s (b + a) 16) 0 else s
      | none => s) s
  else s

/-- A capability stored to a capability word of the frame of a context past its checks. -/
def frameStoreCap (s : State) (slot : Nat) (c : Ctx) (o : Nat) (w : CapWord) (x : Cap) : State :=
  let a := c.h.imgbase.toNat + o
  let s := s.setCtx slot (capWordWrite c w x)
  if inSaveArea c o then pkgStore s a (capBytes x) (if x.tag then maskAt 4 (a % 64 / 16) 1 else 0) else s

/-- Where the allotment stands in a save area: after the images (notes/assumptions/8.md). -/
def allotArea (c : Ctx) : Nat := c.h.imgbase.toNat + 2 ^ 20

/-- The images of a context written to its save area (R100). -/
def imagesOut (s : State) (slot : Nat) : State :=
  let c := imagesIn s slot (s.ctxAt slot)
  let b := c.h.imgbase.toNat
  let out : Ctx := { c with saved := true }
  let words (lo n : Nat) : Bytes := (List.range n).flatMap (fun i =>
    let o := lo + 8 * i
    if inSaveArea out o then sparseBytes (b + o) 8 (imageRead slot c o).toNat else [])
  let s := bulkStore s (b + 0x1000) 0x9000 (words 0x1000 4608)
  let tagged := imageCaps.filter (fun o => match capWordAt o with
    | some w => (capWordRead c w).tag
    | none => false)
  { s with tags := tagged.foldl (fun t o => insertNat ((b + o) / 16) t) s.tags }.setCtx slot out

/-- A context that is made without a core keeps its images in its save area from the start, and an allotment of zeros there
(R100, R312); without an area in ordinary memory they stay with the context (notes/assumptions/8.md). -/
def imagesBorn (s : State) (slot : Nat) : State :=
  let c := s.ctxAt slot
  if saveFits s c then bulkStore (imagesOut s slot) (allotArea c) (1024 * c.spsize) [] else s

end Sys2Proof.Machine
end

