-- ==== Sys2Proof/Machine/Fetch.lean ====
section
/-! DEFINITION. What a turn runs: the fetch of the control thread (R49, R69, R70, R104), the carousel's body (R293 to
R296), and the choice of the step that a core's thread takes at an instruction boundary (R101, R106, R111, R129). -/

namespace Sys2Proof.Machine

/-- Cause FETCHALIGN (R50). -/
def cFetchAlign : BitVec 16 := 0x11
/-- Cause CLBODY (R307). -/
def cClBody : BitVec 16 := 0x800
/-- Cause STOP (R105). -/
def cStop : BitVec 16 := 1
/-- Cause STEP. -/
def cStep : BitVec 16 := 2
/-- Cause HALT. -/
def cHalt : BitVec 16 := 3
/-- Cause CALLQ. -/
def cCallq : BitVec 16 := 4

/-- A line of the instruction cache of core `k` (R70, R170): filled from its die's level two, or else from the package
point. A line stays as it was filled until an IINV or a DROP_FETCHED turn drops it: old or new contents, as R70 allows
(notes/assumptions/74.md). Words fetched ahead come first, until an IFENCE discards them (R171). -/
def fetchLine (s : State) (k l : Nat) : State × BitVec 512 :=
  match (lookupKey l (s.coreAt k).ahead).or (lookupKey l (s.coreAt k).icache) with
  | some d => (s, d)
  | none =>
    let s := if (s.l2Line (dieOf k) l).isSome then s else sideFill s l s.code
    let d := match s.l2Line (dieOf k) l with
      | some x => x.data
      | none => pkgData s l
    (s.modCore k (fun c => { c with icache := insertKey l d c.icache }), d)

/-- The words of a line of the instruction cache fetched ahead by the thread of a core (R171). -/
def fetchAhead (s : State) (k l : Nat) : State :=
  match lookupKey l (s.coreAt k).icache with
  | some d => s.modCore k (fun c => { c with ahead := insertKey l d c.ahead })
  | none => s

/-- A fetch trap: DETAIL0 the address with bit 63 set (R104); DETAIL1 is 0 but for the fields of R405
(notes/assumptions/69.md). -/
def fetchTrap {α : Type} (va : Word) (cause : BitVec 16) (hi : Word) : M α := trapD cause (va ||| maskAt 64 63 1) hi

/-- One instruction word, past the fetch checks (R69, R104). -/
def fetchWord (va : Word) : M Word32 := do
  let s ← get
  let c := s.cur
  match capCheck c.h.pcap (uint va - uint (capCursor c.h.pcap)) 4 .exec with
  | .error cause => fetchTrap va cause 0
  | .ok a =>
    let (s, r) := translate s (ctxXer s) a .exec
    set s
    match r with
    | .error f => fetchTrap va f.cause (if f.cause = cProtected then f.gpa else xdetail f .exec)
    | .ok pa =>
      if inCtl pa then fetchTrap va cCtlAccess 0
      else
        match ← afterTranslate pa 4 false with
        | some (cause, det) => fetchTrap va cause (det.getD 0)
        | none =>
          let s ← get
          let (s, d) := fetchLine s s.core (lineOf pa)
          set s
          return d.extractLsb' (8 * (pa % 64)) 32

/-- `n` further words in address order. -/
def fetchWords (va : Word) : Nat → M (List Word32)
  | 0 => return []
  | n + 1 => do
    let w ← fetchWord va
    let ws ← fetchWords (va + 4) n
    return w :: ws

/-- The words of the instruction at an address. -/
def fetchInstr (va : Word) : M (List Word32) := do
  let w ← fetchWord va
  let ws ← fetchWords (va + 4) (formWords (formOfLen (w.extractLsb' 0 2)) - 1)
  return w :: ws

/-- A trap inside `m` leaves PC on `va`: a failing body instruction (R68, R293). -/
def namePc {α : Type} (va : Word) (m : M α) : M α := fun s =>
  match m s with
  | .error (.trap t) s' => .error (.trap t) (s'.modCur (fun c => setPc c va))
  | r => r

/-- The majors that no body holds (R293). -/
def barredMajor (w : Word32) : Bool := [5, 6, 7, 8, 33, 34, 35].contains (field w 2 6)

/-- The body of a run read in address order from `va`, each instruction decoded under R68; PC names a failing one. -/
def fetchBody (va : Word) : Nat → M (List (List Word32))
  | 0 => return []
  | n + 1 => do
    let ws ← namePc va (do
      let ws ← fetchInstr va
      if (decodeWords ws).isNone then
        let d := illegalDetail ws
        trapD cIllegal d.1 d.2
      return ws)
    let rest ← fetchBody (va + BitVec.ofNat 64 (4 * ws.length)) n
    return ws :: rest

/-- The address of instruction `n` of a body that starts at an address. -/
def bodyAddr (va : Word) : List (List Word32) → Nat → Word
  | _, 0 => va
  | [], _ => va
  | ws :: rest, n + 1 => bodyAddr (va + BitVec.ofNat 64 (4 * ws.length)) rest n

/-- The address of the first barred instruction of a body, if one stands there. -/
def barredAt (va : Word) (body : List (List Word32)) : Option Word :=
  ((List.range body.length).find? (fun i => match body[i]? with
    | some ws => barredMajor (ws.headD 0)
    | none => false)).map (bodyAddr va body)

/-- The levels of the nest, innermost first (R290). -/
def nestLevels (c : Carousel) : List Nat := (List.range 6).filter (fun i => match c.levels.toList[i]? with
  | some l => l.count != 0
  | none => false)

/-- Does the carousel flag pair let an instruction run on this pass (R294)? -/
def flagsAllow (c : Carousel) (ws : List Word32) : Bool :=
  match ws with
  | w0 :: w1 :: _ =>
    if (formOfLen (w0.extractLsb' 0 2)).isExt then
      match (nestLevels c).head? with
      | none => true
      | some i =>
        match c.levels.toList[i]? with
        | some l => (!(bit w1 3) || l.index == 0) && (!(bit w1 2) || l.index + 1 == l.count)
        | none => true
    else true
  | _ => true

/-- Step() of R293 over the levels listed: the context after it, and whether another pass follows. -/
def carouselStep (c : Ctx) : List Nat → Ctx × Bool
  | [] => (c, false)
  | i :: rest =>
    match c.car.levels.toList[i]? with
    | none => (c, false)
    | some l =>
      let bump (c : Ctx) (v : Word) : Ctx :=
        if l.reg = 0 then c else { c with r := { c.r with g := c.r.g.set l.reg (c.r.g[l.reg] + v) } }
      let put (c : Ctx) (ix : BitVec 32) : Ctx :=
        { c with car := { c.car with levels := vset c.car.levels i { l with index := ix } } }
      if l.index + 1 < l.count then (bump (put c (l.index + 1)) l.stride, true)
      else carouselStep (bump (put c 0) (-((l.count - 1).setWidth 64 * l.stride))) rest

/-- The carousel moved past body[pos], which has completed or was excluded (R293). -/
def carouselNext (c : Ctx) : Ctx :=
  let k := c.car
  if k.pos + 1 < k.cln then
    setPc { c with car := { k with pos := k.pos + 1 } } (bodyAddr k.body k.buffer (k.pos + 1))
  else
    match carouselStep c (nestLevels k) with
    | (c, true) => setPc { c with car := { c.car with pos := 0 } } k.body
    | (c, false) =>
      setPc { c with car := { c.car with pos := 0, cln := 0, buffer := [] } } (bodyAddr k.body k.buffer k.cln)

/-- The buffer filled again after a halt (R296). -/
def carouselReload : M Unit := do
  let c ← getCur
  if c.car.buffer.isEmpty then
    let body ← fetchBody c.car.body c.car.cln
    match barredAt c.car.body body with
    | some a =>
      namePc a (trapD cClBody a 0)
    | none => modifyCur (fun c => setPc { c with car := { c.car with buffer := body } } (bodyAddr c.car.body body c.car.pos))
  else pure ()

/-- The g and c registers that an instruction of the control thread reads or writes, or captures for the vector queue. -/
def scalarRegs : Instr → List GReg × List CReg
  | .add x | .sub x | .mul x | .mulh x | .div x | .rem x | .and x | .or x | .xor x | .andn x | .shl x | .shr x | .sar x
  | .rot x | .min x | .max x | .bext x | .bdep x => ([x.d, x.a, x.b], [])
  | .clz x | .ctz x | .popc x => ([x.d, x.a], [])
  | .sel x => ([x.d, x.a, x.b, x.c], [])
  | .addi x => ([x.d, x.a], [])
  | .cmp x => ([x.d, x.a, x.b], [])
  | .li x => ([x.d], [])
  | .bc x => ([x.a], [])
  | .jmp x | .jmpCall x => ([x.a], [])
  | .callq x => ([x.g, 1, 2, 3, 4], [x.c])
  | .park x => ([x.x, x.v], [x.c])
  | .ld x | .st x => ([x.d, x.c], [x.a])
  | .ldc x | .stc x => ([], [x.d, x.a])
  | .amo x => ([x.d, x.b, x.c], [x.a])
  | .tfence x => ([x.a, x.b], [])
  | .cwb x | .iinv x => ([x.b], [x.a])
  | .cbound x | .cnarrow x | .caddr x => ([x.b], [x.d, x.a])
  | .cinc x => ([x.b], [x.d, x.a])
  | .cget x => ([x.d], [x.a])
  | .ctest x => ([x.d], [x.a, x.b])
  | .cmov x => ([], [x.d, x.a])
  | .setvl x => ([x.d, x.a], [])
  | .pcount x => ([x.d], [])
  | .vslideUp x | .vslideDn x | .vshlw x | .vshrw x => ([x.g], [])
  | .vbcast x => ([x.g], [])
  | .vfshlw x | .vfshrw x => ([x.g], [])
  | .vld x | .vlds x | .vldff x | .vst x | .vsts x => ([x.b], [x.a])
  | .vldx x | .vstx x => ([], [x.a])
  | .vldseg x | .vstseg x => ([x.b], [x.a])
  | .vcvt x => ([x.b], [])
  | .vquant x | .vdequant x => ([x.b], [])
  | .vbind x => ([x.b], [x.a])
  | .mldt x | .mldtT x => ([x.b], [x.a])
  | .mchain x => ([x.b], [])
  | .mtbl x => ([x.b], [x.a])
  | .mdrain x => ([x.b], [])
  | .vdefer x => ([x.b], [])
  | .vdrain x => ([x.d], [])
  | .epush x => ([x.b], [x.d, x.a, x.c])
  | .epop x | .epopNw x | .eqstat x => ([x.d], [])
  | .evpop x | .evpopNw x | .dpop x | .tbar x | .slk x => ([x.d], [])
  | .dpush x => ([x.d, x.a, x.b], [])
  | .dsteal x | .treward x | .slkSeg x => ([x.d, x.a], [])
  | .lpatch x => ([x.d, x.a, x.b], [])
  | .larmPlace x | .larmArm x | .larmDisarm x => ([x.d, x.a], [])
  | .tfork x => ([x.d, x.a], [x.b])
  | .tcancel x | .tadv x | .tadvNw x => ([x.d, x.a, x.b], [])
  | .sspawn x => ([x.d, x.b], [])
  | .sresolve x => ([x.d, x.b], [])
  | .sresolveFree x | .slkCond x => ([x.d], [])
  | .clset x => ([x.a, x.b], [])
  | _ => ([], [])

/-- Does an access of the control thread write a register of the lists? -/
def destIn (gs : List GReg) (cs : List CReg) (a : Access) : Bool :=
  match a.kind with
  | .loadG _ d => gs.contains d
  | .amoG _ _ d _ _ => gs.contains d
  | .loadC d => cs.contains d
  | _ => false

/-- Does a register of the lists await a load of the control thread of core `k` that has not performed? -/
def awaited (s : State) (k : Nat) (gs : List GReg) (cs : List CReg) : Bool :=
  let q := pqOf s k .control
  (q.issue ++ q.pending).any (destIn gs cs)

/-- The loads that registers await performed, with what must come before them (R118); none where a migration keeps one back. -/
def withRegs (gs : List GReg) (cs : List CReg) (s : State) : Option State :=
  if awaited s s.core gs cs then
    let s := drainFor s s.core .control (destIn gs cs)
    if awaited s s.core gs cs then none else some s
  else some s

/-- The designated registers of the carousel's nest (R290). -/
def nestRegs (c : Ctx) : List GReg := (nestLevels c.car).filterMap (fun i => (c.car.levels.toList[i]?).map (·.reg))

/-- The registers of an instruction ready for it (R118): those that it names, and the nest's at a CLRUN (R293). -/
def ready (i : Instr) (s : State) : Option State :=
  match i with
  | .clrun _ => withRegs (nestRegs s.cur) [] s
  | _ => withRegs (scalarRegs i).1 (scalarRegs i).2 s

/-- What a turn does. -/
inductive Plan where
  /-- The turn ends here. -/
  | done (s : State)
  /-- An instruction or a step of the part runs. -/
  | run (i : Instr) (s : State)
  /-- The turn names nothing that exists. -/
  | absent (f : Fault)
  deriving DecidableEq, Repr

/-- The next instruction of the control thread: from the carousel's buffer while a run is active, else from PC. None for
a body instruction that its flags exclude. Step() follows the last instruction of the body, so the loads into its registers
perform before that one (R293). A PC that is no multiple of 4 traps FETCHALIGN, DETAIL0 the PC (notes/assumptions/69.md). -/
def nextWords : M (Option (List Word32)) := do
  let c ← getCur
  if c.car.cln ≠ 0 then
    carouselReload
    let c ← getCur
    if c.car.pos + 1 = c.car.cln then
      match withRegs (nestRegs c) [] (← get) with
      | some s => set s
      | none => waits
    let c ← getCur
    let ws := c.car.buffer.getD c.car.pos []
    if flagsAllow c.car ws then return some ws
    else
      modifyCur carouselNext
      return none
  else
    let pc := c.h.pc
    if field pc 0 2 ≠ 0 then trapD cFetchAlign pc 0
    return some (← fetchInstr pc)

/-- The instruction that the thread of the acting core takes, fetched and decoded (R69). -/
def planFetch (s : State) : Plan :=
  match nextWords s with
  | .error (.trap t) s' => .done (takeTrap s'.slot t s')
  | .error .wait _ => .done s
  | .ok none s' => .done s'
  | .ok (some ws) s' =>
    match decodeWords ws with
    | some i => match ready i s' with
      | some s'' => .run i s''
      | none => .done s
    | none => .run (.illegalInstruction s.core) s'

/-- The acquire that a context's first instruction makes on its core, if it is still to come (R110, R383). -/
def withFirstAcq (s : State) : State :=
  match s.cur.firstAcq with
  | some sc => (acquire s s.core sc).modCur (fun c => { c with firstAcq := none })
  | none => s

/-- What the control thread of the acting core does at an instruction boundary: what a trap, a halt or a commit request
asks comes before the next instruction. -/
def planThread (s : State) : Plan :=
  match (s.coreAt s.core).slot with
  | none => .run (.idleSearch s.core) s
  | some slot =>
    let c := s.ctxAt slot
    if c.h.run = 0 then .run (.idleSearch s.core) s
    else if c.trap.isSome then .run (.trap slot) s
    else if c.halt = some .preempt then .run (.preemptHalt slot) s
    else if c.halt = some .away then .run (.preemptHalt slot) s
    else if c.halt.isSome then .run (.haltStep slot) s
    else if commitPending c then .run (.commitApply slot) s
    else if c.segPark.isSome then .done s
    else if c.parked.isSome then (if c.hit then .run (.parkWake slot) s else .done s)
    else planFetch (withFirstAcq s)

/-- Does a branch, call, jump or return complete without moving PC past itself? -/
def transfers (i : Instr) : Bool :=
  match i with
  | .b _ => true
  | .bc _ => true
  | .call _ => true
  | .jmp _ => true
  | .jmpCall _ => true
  | .ret _ => true
  | _ => false

/-- Is an instruction of those that a qualifying iteration holds (R299)? -/
def spinOk : Instr → Bool
  | .add _ | .sub _ | .mul _ | .mulh _ | .div _ | .rem _ | .and _ | .or _ | .xor _ | .andn _ | .shl _ | .shr _ | .sar _
  | .rot _ | .min _ | .max _ | .clz _ | .ctz _ | .popc _ | .bext _ | .bdep _ | .sel _ | .addi _ | .cmp _ | .li _
  | .b _ | .bc _ | .ld _ | .ldc _ | .cbound _ | .cnarrow _ | .caddr _ | .cinc _ | .cget _ | .ctest _ | .cmov _ => true
  | _ => false

/-- The spin detector after an instruction at `pc` has completed (R299): one that no qualifying iteration holds leaves no
address from which an iteration could start; another starts a run from its own address. -/
def spinNote (pc : Word) (i : Instr) (c : Ctx) : Ctx :=
  let p := c.spin
  let runs := if !spinOk i then [] else if p.noted || c.car.cln != 0 then p.runs
    else (pc, none) :: p.runs.filter (fun r => r.1 != pc)
  { c with spin := { p with runs := runs, noted := false } }

/-- The register that an instruction of the spin detector's list writes. -/
def plainDest (i : Instr) : Option GReg × Option CReg :=
  match i with
  | .b _ | .bc _ | .st _ | .stc _ => (none, none)
  | .ldc x => (none, some x.d)
  | .cbound x | .cnarrow x | .caddr x => (none, some x.d)
  | .cinc x => (none, some x.d)
  | .cmov x => (none, some x.d)
  | _ => ((scalarRegs i).1.head?, none)

/-- The loads performed early that an instruction of the thread leaves (R118): plain ones that do not write the registers of
their addresses leave them; every other instruction forgets them. -/
def earlyAfter (i : Instr) (l : List EarlyLoad) : List EarlyLoad :=
  let plain := spinOk i || (match i with
    | .st _ | .stc _ => true
    | _ => false)
  let d := plainDest i
  if plain then l.filter (fun e => d.1 != some e.c && d.2 != some e.a) else []

/-- What follows an instruction of the thread in `slot` that began at `pc`: the spin detector (R299), the loads performed early
(R118), the carousel moves on (R293), and a single step asks for its halt (R101). A step of HALT keeps HALT's cause
(notes/assumptions/69.md). -/
def afterThread (slot : Nat) (pc : Word) (wasRun : BitVec 2) (i : Instr) (s : State) : State :=
  let c := s.ctxAt slot
  let finished := transfers i || c.h.pc != pc
  let s := if finished then s.modCtx slot (fun c => { spinNote pc i c with halting := false }) else s
  let s := match c.core with
    | some k => if (s.coreAt k).early.isEmpty then s else s.modCore k (fun x => { x with early := earlyAfter i x.early })
    | none => s
  let s := if finished && c.car.cln != 0 && !transfers i && (match i with
      | .clrun _ => false
      | _ => true) then s.modCtx slot carouselNext else s
  let s := if finished && c.cancelled.isSome then s.modCtx slot (fun c => { c with cancelled := none, awaits := [] }) else s
  if finished && c.h.run = 2 && wasRun = 2 then s.modCtx slot (fun c => { c with halt := some .step }) else s

end Sys2Proof.Machine
end

