-- ==== Sys2Proof/Machine/Operands.lean ====
section
/-! DEFINITION. The operand forms of the control thread's instructions: general registers with poison and origin, the
literal that replaces operand b (R56), base plus offset and index (R159), and the immediate of word 2 (R54). -/

namespace Sys2Proof.Machine

/-- A general operand with its poison and origin (R141). -/
structure GOperand where
  value : Word
  poison : Bool
  origin : Word × BitVec 16
  deriving DecidableEq, Repr

/-- A g register as an operand. -/
def opG (c : Ctx) (n : GReg) : GOperand := { value := gVal c n, poison := gPoison c n, origin := gOrigin c n }

/-- Operand b, or the literal that replaces it, which is unpoisoned (R56, R144). -/
def opB (c : Ctx) (b : GReg) (lit : Option Word) : GOperand :=
  match lit with
  | some w => { value := w, poison := false, origin := (0, 0) }
  | none => opG c b

/-- An immediate as an operand, without poison. -/
def opImm (i : Word) : GOperand := { value := i, poison := false, origin := (0, 0) }

/-- The origin of the first poisoned operand of a list (R141). -/
def firstOrigin : List GOperand → Word × BitVec 16
  | [] => (0, 0)
  | o :: rest => if o.poison then o.origin else firstOrigin rest

/-- Is an operand of a list poisoned? -/
def anyPoison (l : List GOperand) : Bool := l.any (·.poison)

/-- A value written to gD with the poison and origin of its sources (R141, R142). -/
def writeFrom (c : Ctx) (d : GReg) (v : Word) (src : List GOperand) : Ctx :=
  writeGq c d v (anyPoison src) (firstOrigin src)

/-- A signed immediate as an integer. -/
def immInt {n : Nat} (i : BitVec n) : Int := i.toInt

/-- The general operands that an instruction consumes, in their order: the first poisoned one traps (R142). -/
def consumeAll : List GReg → M Unit
  | [] => return ()
  | n :: rest => do
    let _ ← consumeG n
    consumeAll rest

/-- Operand b or the literal, consumed (R142). -/
def consumeB (b : GReg) (lit : Option Word) : M Word :=
  match lit with
  | some w => return w
  | none => consumeG b

end Sys2Proof.Machine
end

