-- ==== Sys2Proof/Machine/PageRead.lean ====
section
/-! DEFINITION. Loads of device control space (R86, R87): the units page (R7), the arbiter's and budget pages (R435, R438),
front-end tables (R388, R445), engine, seal and snapshot pages (R275, R416, R417, R430), region control blocks (R308,
R440), troupe pages (R331), queue head pages (R375), root pages (R392) and context frames (R93). -/

namespace Sys2Proof.Machine

/-- The page that a control address names (R86), with the offset in it. -/
inductive CtlPage where
  | units (o : Nat)
  | arbiter (o : Nat)
  | budget (a o : Nat)
  | frontEnd (f o : Nat)
  | engine (n o : Nat)
  | region (r o : Nat)
  | troupe (t o : Nat)
  | queue (q o : Nat)
  | root (r o : Nat)
  | frame (slot o : Nat)
  | unassigned
  deriving DecidableEq, Repr

/-- Is an offset in the window of `n` pages of a size from `b`? -/
def inWindow (o b size n : Nat) : Bool := decide (b ≤ o) && decide (o < b + size * n)

/-- The page of an address of control space (R86). -/
def ctlPage (pa : Nat) : CtlPage :=
  let o := pa - ctlBase
  if o < 0x1000 then .units o
  else if inWindow o 0x1000 0x1000 1 then .arbiter (o - 0x1000)
  else if inWindow o 0x10000 0x1000 16 then .budget ((o - 0x10000) / 0x1000) (o % 0x1000)
  else if inWindow o 0x100000 0x10000 8 then .frontEnd ((o - 0x100000) / 0x10000) (o % 0x10000)
  else if inWindow o 0x1000000 0x10000 84 then .engine ((o - 0x1000000) / 0x10000) (o % 0x10000)
  else if inWindow o 0x10000000 0x1000 4096 then .region ((o - 0x10000000) / 0x1000) (o % 0x1000)
  else if inWindow o 0x20000000 0x1000 4096 then .troupe ((o - 0x20000000) / 0x1000) (o % 0x1000)
  else if inWindow o 0x40000000 0x1000 65536 then .queue ((o - 0x40000000) / 0x1000) (o % 0x1000)
  else if inWindow o 0x100000000 0x1000 16384 then .root ((o - 0x100000000) / 0x1000) (o % 0x1000)
  else if inWindow o 0x8000000000 0x10000 16384 then .frame ((o - 0x8000000000) / 0x10000) (o % 0x10000)
  else .unassigned

/-- Who makes a control access, as the session that protects something sees it (R420): the region of its context; the
host has none. -/
def regionOfWho (s : State) (w : Who) : Option Nat :=
  match w with
  | .thread slot => some (s.ctxAt slot).h.region
  | .host => none

/-- A session among the states of a list whose regions hold a region (R418): those of its region field as it stands
(notes/assumptions/40.md). -/
def sessionIn (s : State) (states : List Nat) (r : Nat) : Option Nat :=
  (s.sessions.find? (fun p => states.contains p.2.state && regionUnder s r p.2.region)).map (·.1)

/-- The OPEN or ACTIVE session whose regions hold a region: the one that locks its words (R420). -/
def sessionOfRegion (s : State) (r : Nat) : Option Nat := sessionIn s [1, 2] r

/-- The session whose regions hold a region, in any state in which it protects (R418, R420, R422). -/
def protectorOf (s : State) (r : Nat) : Option Nat := sessionIn s [1, 2, 3] r

/-- May the contexts of a region not run: a session that has offered, erased or closed it (R419, R428)? -/
def runBarred (s : State) (region : Nat) : Bool :=
  s.sessions.any (fun p => (p.2.barred || p.2.state == 3 || p.2.state == 4) && regionUnder s region p.2.region)

/-- Does an agent stand outside a session's regions? -/
def outsideOf (s : State) (j : Nat) (w : Who) : Bool :=
  match regionOfWho s w with
  | some r => !regionUnder s r (s.sessionAt j).region
  | none => true

/-- The units-present page (R7). -/
def unitsRead (s : State) (o : Nat) : Word :=
  let fu := s.fuses
  if o = 0 then BitVec.ofNat 64 fu.grade
  else if o = 8 then fu.clumask.setWidth 64
  else if o = 16 then fu.stackmask.setWidth 64
  else if o = 24 then
    BitVec.ofNat 64 (nclu s ||| nstacks s <<< 8 ||| (32 * nstacks s) <<< 16 ||| 32 <<< 32 ||| 8 <<< 40 ||| 16 <<< 48)
  else 0

/-- FEREQ of a front end (R435): the fastest class that it asks, 0 for none. -/
def fereq (f : FrontEnd) : Nat := (f.reqs.map (·.1)).foldl (fun acc c => if acc = 0 then c else min acc c) 0

/-- The arbiter's page (R435, R446). -/
def arbiterRead (s : State) (o : Nat) : Word :=
  let a := s.arb
  if o = 0 then a.plimit.setWidth 64
  else if o = 8 then a.pmeas.setWidth 64
  else if o = 0x10 then a.periods
  else if o = 0x18 then BitVec.ofNat 64 a.point
  else if 0x20 ≤ o ∧ o < 0x60 then BitVec.ofNat 64 (fereq (s.feAt ((o - 0x20) / 8)))
  else if o = 0x80 then a.memlost
  else if o = 0x100 then BitVec.ofNat 64 (a.boot <<< 62 ||| a.reason.toNat)
  else if o = 0x108 then a.imgaddr
  else if o = 0x110 then a.imglen
  else 0

/-- A budget page (R438). -/
def budgetRead (s : State) (a o : Nat) : Word :=
  match s.budgets.toList[a]? with
  | none => 0
  | some b => if o = 0 then b.limit else if o = 8 then b.used else if o = 0x10 then b.debt else 0

/-- QMAPj (R388). -/
def qmapWord (f : FrontEnd) (j : Nat) : Word :=
  match lookupKey j f.qmap with
  | some q => BitVec.ofNat 64 (1 <<< 63 ||| b2n (f.busy.contains j) <<< 62 ||| q)
  | none => 0

/-- FESTAT (R445). -/
def festat (f : FrontEnd) : Word := BitVec.ofNat 64 (f.state <<< 62 ||| f.fails.toNat <<< 8 ||| f.reason)

/-- A front-end table page (R388). -/
def frontEndRead (s : State) (f o : Nat) : Word :=
  let x := s.feAt f
  if o < 0x400 then qmapWord x (o / 8)
  else if o = 0x400 then x.time.setWidth 64
  else if o = 0x408 then festat x
  else if 0x8000 ≤ o ∧ o < 0xA000 then
    let k := (o - 0x8000) / 8
    BitVec.ofNat 64 (x.pwsum.foldl (fun acc q => if q / 64 = k then acc ||| 1 <<< (q % 64) else acc) 0)
  else 0

/-- Is the engine of a control page present (R6, R87)? Its cluster, or a cluster of its die, is. -/
def enginePresent (s : State) (n : Nat) : Bool :=
  if n < 36 then clusterPresent s n
  else if n < 72 then clusterPresent s (n - 36)
  else decide (n < 84)

/-- A copy, gather or collective engine's page (R275). -/
def copyPageRead (s : State) (n o : Nat) : Word :=
  let e := s.engineAt n
  if o = 0 then
    let waiting := (e.cmds.filter (fun c => !c.started)).length
    BitVec.ofNat 64 (1 <<< 63 ||| b2n e.pause <<< 62 ||| waiting <<< 32)
  else if o = 8 then BitVec.ofNat 64 (b2n e.pause)
  else if o = 0x10 then e.gran
  else if o = 0x18 then e.memerr
  else if 0x100 ≤ o ∧ o < 0x180 then
    (if 72 ≤ n then
      let p := (o - 0x100) / 8
      BitVec.ofNat 64 (b2n (bit s.fuses.ports p) <<< 1 ||| b2n (bit s.links16 p))
    else 0)
  else 0

/-- A snapshot engine's page (R430). -/
def snapRead (x : Snap) (o : Nat) : Word :=
  if o = 0 then x.ctl
  else if o = 8 then x.base
  else if o = 0x10 then x.len
  else if o = 0x18 then x.dst
  else if o = 0x20 then x.map
  else if o = 0x28 then x.tag
  else if o = 0x30 then x.seq
  else if o = 0x38 then BitVec.ofNat 64 (b2n x.complete <<< 63 ||| x.copied.toNat)
  else if o = 0x40 then x.sig
  else 0

/-- Eight bytes of a list, as a word. -/
def listWord (l : List Byte) (i : Nat) : Word := wordOfBytes ((l.drop (8 * i)).take 8)

/-- A session block (R417). -/
def sessionRead (x : Session) (o : Nat) : Word :=
  if o = 0 then BitVec.ofNat 64 (x.state <<< 61 ||| x.region)
  else if o = 8 then x.sgen
  else if o = 0x18 then x.sarg
  else if o = 0x20 then BitVec.ofNat 64 (b2n x.done <<< 63 ||| x.res.toNat)
  else if o = 0x28 then x.taddr
  else if o = 0x30 then x.tval
  else if o = 0x38 then x.tok0
  else if o = 0x40 then x.tok1
  else if o = 0x50 then x.vtbase
  else if o = 0x58 then x.vtlen
  else if o = 0x60 then x.sroots
  else if 0x80 ≤ o ∧ o < 0xC0 then
    let r := x.ranges.toList.getD ((o - 0x80) / 16) (0, 0)
    if o / 8 % 2 = 0 then r.1 else r.2
  else if 0xC0 ≤ o then listWord x.smeas ((o - 0xC0) / 8)
  else 0

/-- The root of trust's page (R416). -/
def trustRead (s : State) (o : Nat) : Word :=
  if o = 0 then
    BitVec.ofNat 64 (b2n s.arb.idReady <<< 63 ||| (s.sessions.filter (fun p => p.2.state != 0)).length)
  else if 0x100 ≤ o ∧ o < 0x120 then listWord (ed25519Public Config.identitySeed) ((o - 0x100) / 8)
  else if 0x140 ≤ o ∧ o < 0x180 then listWord s.arb.fwdigest ((o - 0x140) / 8)
  else if 0x1000 ≤ o ∧ o < 0x2000 then sessionRead (s.sessionAt ((o - 0x1000) / 0x100)) (o % 0x100)
  else if 0x4008 ≤ o ∧ o < 0x4800 then
    match lookupKey ((o - 0x4000) / 8) s.keys with
    | some k => BitVec.ofNat 64 (1 <<< 63 ||| k.sess <<< 52 ||| k.region)
    | none => 0
  else 0

/-- An engine control page. -/
def enginePageRead (s : State) (n o : Nat) : Word :=
  if !enginePresent s n then 0
  else if n < 76 then copyPageRead s n o
  else if n < 80 then snapRead (s.snapAt (n - 76)) o
  else if n = 80 then trustRead s o
  else if o = 0 then trustRead s 0
  else 0

/-- RCTL (R309). -/
def rctlWord (r : Region) : Word :=
  BitVec.ofNat 64 (b2n r.valid <<< 63 ||| r.parent <<< 40 ||| r.ovr.toNat <<< 16 ||| b2n r.selfauth <<< 8 ||| r.prio)

/-- A region control block (R308, R440). -/
def regionRead (s : State) (i o : Nat) : Word :=
  let r := s.regionAt i
  if o = 0 then rctlWord r
  else if o = 8 then r.faultq
  else if o = 0x10 then r.dqcfg
  else if o = 0x18 then r.pool
  else if o = 0x20 then BitVec.ofNat 64 r.pooln
  else if o = 0x28 then BitVec.ofNat 64 (r.slotN <<< 16 ||| r.slot0)
  else if o = 0x30 then r.savebase
  else if 0x40 ≤ o ∧ o < 0x70 then
    let b := (o - 0x40) / 8
    BitVec.ofNat 64 (r.inuse.toList.getD b 0 <<< 32 ||| r.limit.toList.getD b 0)
  else if 0x80 ≤ o ∧ o < 0xB0 then r.shares.toList.getD ((o - 0x80) / 8) 0
  else if o = 0xC0 then BitVec.ofNat 64 r.placeq.length
  else 0

/-- TSTATE (R332). -/
def tstateWord (t : Troupe) : Word :=
  BitVec.ofNat 64 (1 <<< 63 ||| b2n t.held <<< 62 ||| b2n t.relreq <<< 61 ||| t.tstat <<< 48 ||| t.m <<< 40 |||
    (t.sibs.filter (·.posted)).length <<< 32 ||| (t.sibs.filter (·.ended)).length <<< 24 ||| t.sibs.length <<< 16 |||
    t.quorum <<< 8)

/-- A troupe control page (R331). -/
def troupeRead (s : State) (i o : Nat) : Word :=
  match lookupKey i s.troupes with
  | none => 0
  | some t =>
    if o = 0 then tstateWord t
    else if o = 8 then BitVec.ofNat 64 (t.owner ||| t.region <<< 16 ||| t.home <<< 32)
    else if o = 0x10 then t.eps.setWidth 64
    else if o = 0x18 then t.timeout ++ t.counted
    else if o = 0x28 then t.mu.setWidth 64
    else if o = 0x30 then t.var.setWidth 64
    else if o = 0x38 then t.sig.setWidth 64
    else if o = 0x40 then t.theld
    else if 0x100 ≤ o ∧ o < 0x300 then
      match t.sibs[(o - 0x100) / 8]? with
      | some b => if b.posted then BitVec.ofNat 64 (1 <<< 63 ||| b.slot <<< 48 ||| b.reward.toNat) else 0
      | none => 0
    else if 0x400 ≤ o ∧ o < 0x600 then
      match t.sibs[(o - 0x400) / 8]? with
      | some b => BitVec.ofNat 64 (b.sstat <<< 32 ||| b.adv.toNat)
      | none => 0
    else 0

/-- QCTL (R376). -/
def qctlWord (q : Queue) : Word :=
  BitVec.ofNat 64 (b2n q.valid <<< 63 ||| b2n q.mapped.isSome <<< 62 ||| q.kind <<< 60 ||| q.scope.toNat <<< 57 |||
    q.home.toNat <<< 49 ||| b2n q.drop <<< 48 ||| q.fe <<< 45 ||| b2n q.failed <<< 44 ||| q.region <<< 28 ||| q.lg)

/-- A queue head page (R375). -/
def queueRead (s : State) (n o : Nat) : Word :=
  let q := s.queueAt n
  if o = 0 then qctlWord q
  else if o = 8 then q.ringbase
  else if o = 0x10 then q.head.setWidth 64
  else if o = 0x18 then q.tail.setWidth 64
  else if o = 0x28 then q.misscnt
  else if o = 0x30 then q.dropcnt
  else if o = 0x38 then q.pwake.setWidth 64
  else if o = 0x40 then q.prog
  else if o = 0x48 then q.pstat
  else if 0x50 ≤ o ∧ o < 0x90 then
    let w := (o - 0x50) / 16
    if o / 8 % 2 = 0 then q.win.toList.getD w 0 else q.wlen.toList.getD w 0
  else if o = 0x90 then q.qerr
  else if o = 0x98 then q.inflight.setWidth 64
  else 0

/-- A translation-root page (R392). -/
def rootRead (s : State) (n o : Nat) : Word :=
  let r := s.rootAt n
  if o = 0 then r.rtcfg
  else if o = 8 then r.vsatp
  else if o = 0x10 then r.hgatp
  else if o = 0x18 then r.prqbase
  else if o = 0x20 then r.prqctl
  else if o = 0x28 then r.prqhead.setWidth 64
  else if o = 0x30 then r.prqtail.setWidth 64
  else if o = 0x40 then r.prnext.setWidth 64
  else if o = 0x48 then BitVec.ofNat 64 (s.requests.filter (fun (x : Request) => decide (x.part = n))).length
  else 0

/-- Is a frame word one that an agent outside the session's regions reads as zero (R420)? -/
def hiddenWord (o : Nat) : Bool := !([0x000, 0x008, 0x078, 0x0A8, 0x0B0].contains o)

/-- Has the part started (R446)? -/
def started (s : State) : Bool := s.arb.boot == 1

/-- A load of the aligned 8-byte word at a control address by an agent (R87, R420, R446). -/
def ctlRead (s : State) (w : Who) (pa : Nat) : Word :=
  match ctlPage pa with
  | .units o => unitsRead s o
  | .arbiter o => arbiterRead s o
  | p =>
    if !started s then 0
    else
      match p with
      | .units o => unitsRead s o
      | .arbiter o => arbiterRead s o
      | .budget a o => budgetRead s a o
      | .frontEnd f o => frontEndRead s f o
      | .engine n o => enginePageRead s n o
      | .region r o => regionRead s r o
      | .troupe t o => troupeRead s t o
      | .queue q o => queueRead s q o
      | .root r o => rootRead s r o
      | .frame slot o =>
        match protectorOf s (s.ctxAt slot).h.region with
        | some j => if outsideOf s j w && hiddenWord o then 0 else slotRead s slot o
        | none => slotRead s slot o
      | .unassigned => 0

end Sys2Proof.Machine
end

