-- ==== Sys2Proof/Machine/Access.lean ====
section
/-! DEFINITION. The accesses of the control thread: stores and loads of memory with write sets (R116, R365, R366), loads of
control words (R90 to R92, R128), spills of the return-address store (R154), and what the spin detector records (R299). -/

namespace Sys2Proof.Machine

/-- May an access of the acting party wait in its issue queue (R116)? The choice is State.hold's. -/
def mayHold (s : State) : Bool := s.hold

/-- Loads of the control thread performed early from bytes that a younger access meets do not stand for younger loads (R118). -/
def dropEarly (s : State) (rs : List (Nat × Nat)) : State :=
  let meets (e : EarlyLoad) : Bool := rs.any (rangeMeets (e.pa, e.size))
  if s.party == .control && (s.coreAt s.core).early.any meets then
    s.modCore s.core (fun c => { c with early := c.early.filter (fun e => !meets e) })
  else s

/-- An access joins the issue queue of the acting party (R114). -/
def enqueue (a : Access) : M Unit :=
  modify (fun s => dropEarly
    (modPq s s.core s.party (fun q => { q with issue := q.issue ++ [{ a with code := s.code }] })) (accRanges a))

/-- Must a waiting access perform before an access of its party to bytes of some ranges (R116, R118)? -/
def mustPrecede (rs : List (Nat × Nat)) (a : Access) : Bool := isAmo a || (accRanges a).any (fun r => rs.any (rangeMeets r))

/-- The acting party's waiting accesses that must come before an access to bytes of some ranges perform (R118), or the
instruction waits for a migration. -/
def ownRanges (rs : List (Nat × Nat)) : M Unit := do
  modify (fun s => dropEarly (drainFor s s.core s.party (mustPrecede rs)) rs)
  let s ← get
  if (waitingOf s s.core s.party).any (mustPrecede rs) then waits else pure ()

/-- The same for one range. -/
def ownFirst (pa n : Nat) : M Unit := ownRanges [(pa, n)]

/-- The lines of `n` bytes from an address. -/
def linesOf (pa n : Nat) : List Nat := (pieces pa n (n / 64 + 2)).map (fun p => lineOf p.1)

/-- The bytes that the waiting stores of a core will store. -/
def waitingStores (s : State) (k : Nat) : List (Nat × Nat) :=
  [Party.control, .vector, .loader, .storer].flatMap (fun p => ((waitingOf s k p).filter isStore).flatMap accRanges)

/-- A speculative segment whose write set has no room for the lines that it would store to, with those of its waiting stores,
parks (R366). -/
def needRoomAll (rs : List (Nat × Nat)) : M Unit := do
  let s ← get
  match ctxWkey s.cur with
  | some key =>
    let all := (rs ++ waitingStores s s.core).filter (fun r => !inAllot s s.core r.1)
    if !wsetRoom s key (all.flatMap (fun r => linesOf r.1 r.2)) then parkIfSpec
  | none => pure ()

/-- The same for one range. -/
def needRoom (pa n : Nat) : M Unit := needRoomAll [(pa, n)]

/-- Bytes stored by the acting context at a scope, now. -/
def storeMem (pa : Nat) (bs : List Byte) (sc : Scope) (hint : Nat) : M Unit := do
  needRoom pa bs.length
  ownFirst pa bs.length
  modify (fun s => ctxStore s s.core pa bs sc hint)

/-- Bytes loaded by the acting context at a scope, now. -/
def loadMem (pa n : Nat) (sc : Scope) (hint : Nat) : M (List Byte) := do
  ownFirst pa n
  let s ← get
  let (s, bs) := ctxLoad s s.core pa n sc hint
  set s
  return bs

/-- A store of the low `n` bytes of a value: it joins the queue, or performs. -/
def issueStore (v : Word) (pa n : Nat) (sc : Scope) (hint : Nat) : M Unit := do
  if mayHold (← get) then
    needRoom pa n
    enqueue { n := 0, kind := .store v, pa := pa, size := n, scope := sc, hint := hint, code := 0 }
  else storeMem pa ((wordBytes 8 v).take n) sc hint

/-- Is a control address a word of the acting context's own frame that needs the self-authority grant (R90)? -/
def needsSelfAuth (s : State) (pa : Nat) : Bool :=
  match ctlPage pa with
  | .frame slot o => decide (slot = s.slot) && selfAuthOffset o && !(s.regionAt s.cur.h.region).selfauth
  | _ => false

/-- The release of the acting agent's older accesses at .sys that a control access makes (R128): they have performed. -/
def ctlRelease : M Unit := releaseOwn .sys

/-- The loads that the acting core's thread has performed early forgotten. -/
def forgetEarly (s : State) : State :=
  if (s.coreAt s.core).early.isEmpty then s else s.modCore s.core (fun c => { c with early := [] })

/-- The acquire that a control load makes (R128): no younger load has performed before it. -/
def ctlAcquire : M Unit := modify (fun s => acquire (forgetEarly s) s.core .sys)

/-- A load of a control word by the acting thread (R90, R92, R128). -/
def ctlLoad (pa : Nat) (va : Word) (capNo : Nat) : M Word := do
  let s ← get
  if needsSelfAuth s pa then trapD cSelfAuth va (BitVec.ofNat 64 capNo)
  ctlRelease
  let s ← get
  let v := ctlRead s (.thread s.slot) pa
  ctlAcquire
  return v

/-- The capability word of a control address, with its slot and offset, if LDC and STC reach one there (R85). -/
def ctlCapWord (pa : Nat) : Option (Nat × Nat × CapWord) :=
  match ctlPage pa with
  | .frame slot o => (capWordAt o).map (fun w => (slot, o, w))
  | _ => none

/-- A capability word of control space as LDC reads it (R85, R420). -/
def ctlCapRead (s : State) (w : Who) (pa : Nat) : Cap :=
  match ctlCapWord pa with
  | none => Cap.zero
  | some (slot, o, cw) =>
    match s.ctx? slot with
    | none => Cap.zero
    | some t =>
      let hidden := match protectorOf s t.h.region with
        | some j => outsideOf s j w
        | none => false
      if started s && !hidden then slotCap s slot t o cw else Cap.zero

/-- Cause CALLDEPTH (R172). -/
def cCallDepth : BitVec 16 := 0x100
/-- Cause RETUNDER. -/
def cRetUnder : BitVec 16 := 0x101
/-- Cause RASFAULT. -/
def cRasFault : BitVec 16 := 0x102

/-- The checks of SpillAccess (R154): the physical address, or RASFAULT. -/
def spillCheck (va : Word) (p : CapPerm) (tp : Perm) : M Nat := do
  let c ← getCur
  match ← capAccess c.h.rootcap (uint va - uint (capCursor c.h.rootcap)) 8 p tp with
  | .error f => trapD cRasFault va (f.hi ||| f.cause.setWidth 64)
  | .ok pa =>
    if field va 0 3 ≠ 0 then trapD cRasFault va (cAlign.setWidth 64)
    else if inCtl pa then trapD cRasFault va (cCtlAccess.setWidth 64)
    else return pa

/-- RasPush (R154). -/
def rasPush (ra : Word) : M Unit := do
  let c ← getCur
  if c.rasN < 16 then modifyCur (fun c => { c with ras := vset c.ras c.rasN ra, rasN := c.rasN + 1 })
  else
    if c.h.rasEnd.toNat < c.h.rasSpill.toNat + 8 then trapD cCallDepth c.h.rasSpill c.h.rasEnd
    let pa ← spillCheck c.h.rasSpill .store .write
    issueStore c.ras[0] pa 8 .core 0
    modifyCur (fun c => { c with
      h := { c.h with rasSpill := c.h.rasSpill + 8 }
      ras := Vector.ofFn (fun (i : Fin 16) => if h : i.val + 1 < 16 then c.ras[i.val + 1] else ra) })

/-- `k` times RasDrop over the count of entries held and the spill pointer (R154): what is left of them, or none on
underflow. -/
def rasDrop (n : Nat) (spill base : Word) (k : Nat) : Option (Nat × Word) :=
  if k ≤ n then some (n - k, spill)
  else
    let m := k - n
    if spill.toNat ≤ base.toNat + 8 * (m - 1) then none else some (0, spill - BitVec.ofNat 64 (8 * m))

/-- The spill pointer at which a run of RasDrop and a last RasPop underflow. -/
def rasUnder (spill base : Word) : Word :=
  if spill.toNat ≤ base.toNat then spill
  else spill - BitVec.ofNat 64 (8 * ceilDiv (spill.toNat - base.toNat) 8)

/-- RET's k drops and pop (R153, R154): the address returned to, and the count of entries and the spill pointer after it.
Nothing changes here. -/
def rasPopAfter (k : Nat) : M (Word × Nat × Word) := do
  let c ← getCur
  match rasDrop c.rasN c.h.rasSpill c.h.rasBase k with
  | none => trapD cRetUnder (rasUnder c.h.rasSpill c.h.rasBase) c.h.rasBase
  | some (n + 1, spill) => return (c.ras.toList.getD n 0, n, spill)
  | some (0, spill) =>
    if spill.toNat ≤ c.h.rasBase.toNat then trapD cRetUnder spill c.h.rasBase
    let pa ← spillCheck (spill - 8) .load .read
    let bs ← loadMem pa 8 .core 0
    return (wordOfBytes bs, 0, spill - 8)

/-- A load, or a load that faulted, is the last of every iteration that is under way, and of the one that would start with it
(R299). -/
def lastNoted (l : Option SpinLoad) (c : Ctx) : Ctx :=
  let old := (c.spin.runs.filter (fun r => r.1 != c.h.pc)).map (fun r => (r.1, l))
  { c with spin := { c.spin with runs := if c.car.cln = 0 then (c.h.pc, l) :: old else old, noted := true } }
/-- The same as a step of an instruction. -/
def noteLast (l : Option SpinLoad) : M Unit := modifyCur (lastNoted l)
/-- The load that the spin detector takes as the iteration's last (R299). -/
def noteSpin (l : SpinLoad) : M Unit := noteLast (some l)
/-- An iteration whose last load faults does not qualify (R299). -/
def noteSpinFault : M Unit := noteLast none

/-- The load that the thread performed early for the one at PC, if it stands: the same address registers, bytes and scope (R118). -/
def takeEarly (a : CReg) (c : GReg) (pa size : Nat) (sc : Scope) : M (Option EarlyLoad) := do
  let s ← get
  let pc := s.cur.h.pc
  match (if s.party == .control then (s.coreAt s.core).early.find? (fun e => e.pc == pc) else none) with
  | none => return none
  | some e =>
    set (s.modCore s.core (fun k => { k with early := k.early.filter (fun x => x.pc != pc) }))
    return (if e.a = a ∧ e.c = c ∧ e.pa = pa ∧ e.size = size ∧ e.scope = sc then some e else none)

/-- A 16-byte load with its tag by the acting context (R85), now. -/
def loadCapMem (pa : Nat) (sc : Scope) (hint : Nat) : M Cap := do
  ownFirst pa 16
  let s ← get
  let (s, bs, t) := loadPiece s s.core (ctxWsets s s.cur) pa 16 sc hint
  set s
  return capOfBytes bs (t.getLsbD (pa % 64 / 16))

/-- A 16-byte store with its tag by the acting context (R77, R85): it joins the queue, or performs. -/
def storeCapMem (pa : Nat) (c : Cap) (sc : Scope) (hint : Nat) : M Unit := do
  needRoom pa 16
  if mayHold (← get) then enqueue { n := 0, kind := .storeC c, pa := pa, size := 16, scope := sc, hint := hint, code := 0 }
  else
    ownFirst pa 16
    modify (fun s => capPut s s.core pa c sc hint)

end Sys2Proof.Machine
end

