-- ==== Sys2Proof/Machine/Turns.lean ====
section
/-! DEFINITION. The roustabouts of a context, traps of parties other than the control thread (R108, R166), and the placing of
one instruction where the next step takes it. -/

namespace Sys2Proof.Machine

/-- Cause RADDR (R289). -/
def cRaddr : BitVec 16 := 0x405

/-- A trap of a party other than the control thread, which halts at its next boundary (R108, R166); the first stands
(R167). -/
def raiseFor (slot : Nat) (t : Trap) (s : State) : State :=
  s.modCtx slot (fun c => if c.trap.isSome then c else { c with trap := some t })

/-! ### Placing one instruction for the host's question -/

/-- A capability over the whole space with every permission (R73). -/
def fullCap : Cap := linkRootcap

/-- Where a placed Nymzin instruction stands. -/
def placedAt : Nat := 0x10000

/-- A context that runs from `placedAt` in bare mode. -/
def placedCtx : Ctx :=
  { Ctx.zero with
    h := { Header.zero with run := 1, pc := BitVec.ofNat 64 placedAt, pcap := fullCap, rootcap := fullCap, vlcap := 0 }
    core := some 0 }

/-- The state in which core 0 runs slot 1's context from words at `placedAt`: that context is there if core 0 holds no
running one. -/
def placeNymzin (s : State) (ws : List Word32) : State :=
  let s := { s with core := 0, party := .control, agenda := [] }
  let s := match (s.coreAt 0).slot with
    | some slot => s.modCtx slot (fun c => { c with
        h := { c.h with run := 1, pc := BitVec.ofNat 64 placedAt, pcap := fullCap, atp := 0 }
        trap := none, halt := none, parked := none })
    | none => (s.setCtx 1 placedCtx).modCore 0 (fun c => { c with slot := some 1 })
  let bs := (ws.map (fun w => bytesOfNat 4 w.toNat)).flatten
  let s := s.modCore 0 (fun c => { c with icache := [] })
  let s := s.l2Del 0 (lineOf placedAt)
  { s with mem := memWrite s.mem placedAt bs }

/-- The state in which core 0's loader, or its storer, runs one word from its instruction store. -/
def placeRoust (s : State) (storer : Bool) (w : Word32) : State :=
  let s := placeNymzin s []
  let s := s.modCur (fun c => modRoust c storer (fun r =>
    { r with pc := 0, idle := false, dflt := none, istore := memWrite r.istore 0 (bytesOfNat 4 w.toNat) }))
  { s with agenda := [.roustabout 0 storer] }

/-- A queue that front end 0 has taken a packet from, for a placed Lysyo instruction. -/
def placedQueue : Queue :=
  { Queue.zero with
    valid := true
    mapped := some (0, 0)
    lg := 4
    taken := [{ index := 0, copy := Vector.replicate 8 0, stage := .lysyo, status := 0, launched := false }] }

/-- The state in which front end 0's calliope runs one Lysyo word for queue 0. -/
def placeLysyo (s : State) (w : Word32) : State :=
  let s := { s with queues := insertKey 0 placedQueue s.queues, agenda := [.calliope 0] }
  s.modFe 0 (fun f =>
    { f with
      progs := insertKey 0 [w] f.progs
      run := some { queue := 0, regs := Vector.replicate 16 0, index := 0, steps := 0, loops := [] } })

/-- Is the instruction one that the storer alone runs (R71)? -/
def storerOnly (i : Instr) : Bool :=
  match i with
  | .qdPop _ => true
  | .qdStat _ => true
  | _ => false

end Sys2Proof.Machine
end

