-- ==== Sys2Proof/Machine/VQueue.lean ====
section
/-! DEFINITION. The vector queue: what the control thread pushes (R163, R164), and how entry 0 commits or traps (R116, R119,
R166). -/

namespace Sys2Proof.Machine

/-- Instruction words as an image entry holds them, in address order (R93, R164). -/
def vqWords (ws : List Word32) : BitVec 256 :=
  BitVec.ofNat 256 (natOfBytes ((ws.map (fun w => bytesOfNat 4 w.toNat)).flatten))

/-- The push of an instruction by the control thread (R163): the captured operands, the wait for a free entry, the
append. A guard that never passes captures nothing. -/
def pushEntry (i : Instr) (md : Mods) (g : Option GReg) (cap : Option CReg) : M Unit := do
  let c ← getCur
  let never := neverPasses md
  let gv ← match g with
    | some n => if never then pure 0 else consumeG n
    | none => pure 0
  let cv := match cap with
    | some n => if never then Cap.zero else readC c n
    | none => Cap.zero
  if 64 ≤ c.vqn then waits
  let e : VqEntry := { words := vqWords (encode i), addr := c.h.pc, capC := cv, capG := gv }
  modifyCur (fun c => setPc { c with vq := vqEntries c ++ [e], vqn := c.vqn + 1 } (nextPc c md))

/-- The vector agent has executed the entry that it took: the entry commits, and leaves the queue, once its loads and those of
every older entry have performed (R116, R119). -/
def passEntry (s : State) : State :=
  if s.cur.vlive = 0 && (waitingOf s s.core .vector).isEmpty then s.modCur popEntry
  else retire s.core 64 (s.modCur (fun c => { c with vlive := c.vlive + 1 }))

/-- The vector agent executes the entry it takes next: it passes, or traps and stays (R119, R166), or waits. -/
def commitEntry (eff : M Unit) (s : State) : State :=
  match eff s with
  | .ok _ s' => passEntry s'
  | .error (.trap t) s' => raiseFor s'.slot { t with party := 1 } s'
  | .error .wait s' => s'

/-- An instruction of a vector major (R65): the control thread pushes it, the vector agent performs it. -/
def vectorStep (i : Instr) (md : Mods) (g : Option GReg) (cap : Option CReg) (eff : M Unit) (s : State) : Out :=
  match s.party with
  | .vector => .next (commitEntry eff s)
  | _ => runThread (pushEntry i md g cap) s

/-- The g value that the entry executed captured (R163). -/
def capturedG : M Word := do return (vqHead (← getCur)).capG
/-- The capability that the entry executed captured. -/
def capturedC : M Cap := do return (vqHead (← getCur)).capC
/-- The address of the entry executed, an origin of poison (R190, R207). -/
def entryAddr : M Word := do return (vqHead (← getCur)).addr

end Sys2Proof.Machine
end

