-- ==== Sys2Proof/Machine/ScalarMem.lean ====
section
/-! DEFINITION. LD (R159, R160), AMO (R125, R126), the fences (R122, R123), TFENCE (R402, R403), and CWB, IINV and IFENCE
(R169, R170). -/

namespace Sys2Proof.Machine

/-- The byte offset of a memory operand: the index register as a signed number, and the immediate (R19, R159). -/
def memOff {n : Nat} (x : Word) (imm : BitVec n) : Int := sint x + immInt imm

/-- Is a register one that Step() reads once the instruction at hand ends the body (R293)? A load into it does not wait. -/
def stepsNext (c : Ctx) (d : GReg) : Bool := c.car.cln != 0 && c.car.pos + 1 == c.car.cln && (nestRegs c).contains d

/-- The bytes of a load written, and the load noted (R299). -/
def gotBytes (x : LdArgs) (pa size : Nat) (sc : Scope) (bs : List Byte) : M Unit := do
  noteSpin { pa := pa, size := size, scope := sc, value := BitVec.ofNat 128 (natOfBytes bs), tag := false }
  modifyCur (fun c => writeG c x.d (loadValue x.ty bs))

/-- The value of a load at `pa`: the one that the thread read early (R118), or the one that stands there now, or the load is left
in the issue queue. -/
def loadInto (x : LdArgs) (pa size : Nat) (va : Word) (sc : Scope) : M Unit := do
  let hint := x.hint.toNat
  if inCtl pa then
    let v ← ctlLoad pa va x.a
    noteSpin { pa := pa, size := size, scope := sc, value := v.setWidth 128, tag := false }
    modifyCur (fun c => writeG c x.d (loadValue x.ty (wordBytes 8 v)))
  else
    match ← takeEarly x.a x.c pa size sc with
    | some e => gotBytes x pa size sc (bytesOfNat size e.value.toNat)
    | none =>
      if mayHold (← get) && !stepsNext (← getCur) x.d then
        noteSpin { pa := pa, size := size, scope := sc, value := 0, tag := false }
        enqueue { n := 0, kind := .loadG x.ty x.d, pa := pa, size := size, scope := sc, hint := hint, code := 0 }
      else gotBytes x pa size sc (← loadMem pa size sc hint)

/-- LD's poisoned result (R160). -/
def poisonLoad (d : GReg) (o : Word × BitVec 16) : M Unit := do
  noteSpinFault
  modifyCur (fun c => writeGq c d 0 true o)

/-- LD past its guard (R160). -/
def ldBody (x : LdArgs) : M Unit := do
  let c ← getCur
  let size := x.ty.width / 8
  if gPoison c x.c then poisonLoad x.d (gOrigin c x.c)
  else
    let cap := readC c x.a
    let off := memOff (gVal c x.c) x.imm
    let va : Word := capCursor cap + wordOf off
    let sc := scopeGet x.scope .core
    match ← ctlCheck cap off size .load .read sc with
    | .error f => poisonLoad x.d (c.h.pc, f.cause)
    | .ok pa =>
      if inCtl pa && (size != 8 || pa % 8 != 0) then trapD cCtlAlign va (BitVec.ofNat 64 x.a)
      else if pa % size ≠ 0 then poisonLoad x.d (c.h.pc, cAlign)
      else loadInto x pa size va sc
  advance x.m

/-- LD (R160). -/
def execLd (x : LdArgs) (s : State) : Out :=
  scalarStep x.m (ldBody x) s

/-- AMO past its guard (R126): it joins the issue queue, or performs. -/
def amoBody (x : AmoArgs) : M Unit := do
  parkIfSpec
  let b ← consumeG x.b
  let cv ← match x.kind with
    | .cas => consumeG x.c
    | _ => pure 0
  let c ← getCur
  let size := x.ty.width / 8
  let cap := readC c x.a
  let off := immInt x.imm
  let va : Word := capCursor cap + wordOf off
  let no : Word := BitVec.ofNat 64 x.a
  let sc := scopeGet x.scope .sys
  let pa ← orTrap (← capAccess cap off size .load .both sc) x.a
  if !capHas cap .store then trapD cCapPerm va no
  if inCtl pa then trapD cCtlAccess va no
  if pa % size ≠ 0 then trapD cAlign va no
  let acc : Access :=
    { n := 0, kind := .amoG x.kind x.ty x.d b cv, pa := pa, size := size, scope := sc, hint := x.hint.toNat, code := 0 }
  if mayHold (← get) && !stepsNext (← getCur) x.d then enqueue acc
  else
    drainParty .control
    modify (fun s => performAmo s s.core { acc with code := s.code } x.kind x.ty x.d b cv)
  advance x.m

/-- AMO (R126). -/
def execAmo (x : AmoArgs) (s : State) : Out := scalarStep x.m (amoBody x) s

/-- Release and acquire of the acting core's agents at a scope (R121). -/
def syncAt (sc : Scope) : M Unit := modify (fun s => acquire (release s s.core sc) s.core sc)

/-- The tile that a committed MLDT of the acting context still reads has been read (R121, R242). -/
def tileRead : M Unit := modify (fun s => finishTile s s.slot)

/-- A fence that holds the control thread until the vector agent has committed (R122, R123): the releasing agents' accesses
have performed, the reads of a tile among them. -/
def fenceWait (x : FenceArgs) (scalar : Bool) (s : State) : Out :=
  scalarStep x.m (do
    waitVector
    drainParty .vector
    tileRead
    if scalar then drainParty .control else pure ()
    syncAt (scopeGet x.scope .sys)
    advance x.m) s

/-- Is an entry a FENCE.SV (R122)? -/
def isFenceSv (e : VqEntry) : Bool :=
  let w := (entryWords e).headD 0
  field w 2 6 == 13 && field w 26 6 == 0

/-- The accesses of the control thread that are older than the FENCE.SV that the vector agent takes (R123): those pushed before
as many FENCE.SV entries as have not committed, it among them. -/
def olderScalar : M Unit := do
  let s ← get
  let n := ((vqEntries s.cur).filter isFenceSv).length
  modify (fun s => drainFor s s.core .control (fun a => decide (n ≤ a.n)))
  let s ← get
  if (waitingOf s s.core .control).any (fun a => decide (n ≤ a.n)) then waits else pure ()

/-- A fence that occupies a queue entry (R122, R123): as its push, `mark` changes the acting state; as an entry it commits
when older entries have. -/
def fenceEntry (i : Instr) (x : FenceArgs) (mark : State → State) (older : M Unit) (s : State) : Out :=
  match s.party with
  | .vector => .next (commitEntry (do
      if 0 < (← getCur).vlive then drainParty .vector else pure ()
      older
      syncAt (scopeGet x.scope .sys)) s)
  | _ => scalarStep x.m (do
      pushEntry i x.m none none
      modify mark) s

/-- The waiting accesses of the control thread stand before one FENCE.SV more (R123). -/
def markOlder (s : State) : State :=
  let up (a : Access) : Access := { a with n := a.n + 1 }
  modPq s s.core .control (fun q => { issue := q.issue.map up, pending := q.pending.map up, stores := q.stores.map up })

/-- FENCE.SV (R122). -/
def execFenceSv (x : FenceArgs) (s : State) : Out := fenceEntry (.fenceSv x) x markOlder olderScalar s
/-- FENCE.VV (R122). -/
def execFenceVv (x : FenceArgs) (s : State) : Out := fenceEntry (.fenceVv x) x id (do
    drainParty .vector
    tileRead) s
/-- FENCE.VS (R122). -/
def execFenceVs (x : FenceArgs) (s : State) : Out := fenceWait x false s
/-- FENCE.ALL (R122). -/
def execFenceAll (x : FenceArgs) (s : State) : Out := fenceWait x true s

/-- The operands that a TFENCE kind reads (R402). -/
def tfReads (k : TfKind) : Bool × Bool :=
  match k with
  | .all => (false, false) | .root => (true, false) | .page => (false, true) | .rpage => (true, true)
  | .part => (true, false) | .gpage => (true, true)

/-- The translations that core `k` holds and a TFENCE drops there. -/
def droppedAt (s : State) (sc : Scope) (x : TfKind) (a b : Word) (k : Nat) : List Tlb :=
  if tfenceCovers s.core sc k then ((lookupKey k s.tlbs).getD []).filter (tlbSelected s x a b) else []

/-- A tile that core `k` reads in the frames of dropped translations has been read (R242, R403). -/
def settleTileRead (s : State) (k : Nat) (ts : List Tlb) : State :=
  match (s.coreAt k).slot with
  | none => s
  | some slot => match (s.ctxAt slot).mx.load with
    | none => s
    | some t =>
      if ts.any (fun x => rangeMeets (x.frame, x.size) (tileRange k (tileK t.ty) t)) then finishTile s slot else s

/-- The accesses of core `k` that were translated through dropped translations performed (R403). -/
def settleDropped (s : State) (k : Nat) (ts : List Tlb) : State :=
  let through (a : Access) : Bool :=
    ts.any (fun t => (accRanges a).any (fun r => decide (t.frame ≤ r.1) && decide (r.1 < t.frame + t.size)))
  let s := [Party.control, .vector, .loader, .storer].foldl (fun s p => drainFor s k p through) s
  settleTileRead s k ts

/-- TFENCE (R403): the drop, then the wait for accesses of covered agents that a migration keeps back. -/
def execTfence (x : TfenceArgs) (s : State) : Out :=
  scalarStep x.m (do
    parkIfSpec
    let r := tfReads x.kind
    let a ← if r.1 then consumeG x.a else pure 0
    let b ← if r.2 then consumeG x.b else pure 0
    let sc := scopeGet x.scope .pkg
    releaseOwn .pkg
    modify (fun s =>
      let old := (s.cores.map (·.1)).map (fun k => (k, droppedAt s sc x.kind a b k))
      old.foldl (fun s o => if o.2.isEmpty then s else settleDropped s o.1 o.2) (tlbDrop s s.core sc x.kind a b))
    let s ← get
    if s.cores.any (fun p => tfenceCovers s.core sc p.1 && coreStalls s p.1) then waits
    advance x.m) s

/-- The checks of CWB and IINV: poison, CtlCheck of one byte, no control address (R170). IINV accepts load or exec as the
permission: what the load does not pass, the fetch may. -/
def lineCheck (x : CwbArgs) (code : Bool) : M Nat := do
  let g ← consumeG x.b
  let c ← getCur
  let cap := readC c x.a
  let off := memOff g x.imm
  let r ← if code && !capHas cap .load then ctlCheck cap off 1 .exec .exec else ctlCheck cap off 1 .load .read
  let r ← match r with
    | .ok pa => pure (.ok pa)
    | .error f =>
      if code && capHas cap .load && capHas cap .exec then do
        match ← ctlCheck cap off 1 .exec .exec with
        | .ok pa => pure (.ok pa)
        | .error _ => pure (.error f)
      else pure (.error f)
  let pa ← orTrap r x.a
  if inCtl pa then trapD cCtlAccess (capCursor cap + wordOf off) (BitVec.ofNat 64 x.a)
  return pa

/-- CWB (R170). -/
def execCwb (x : CwbArgs) (s : State) : Out :=
  scalarStep x.m (do
    let pa ← lineCheck x false
    ownFirst (alignDown pa 64) 64
    modify (fun s => propagate s s.core (lineOf pa) (scopeGet x.scope .die))
    advance x.m) s

/-- The cores within a scope of a core (R12). -/
def coresWithin (core : Nat) (sc : Scope) : List Nat :=
  (List.range 144).filter (fun k => match sc with
    | .core => k == core
    | .clu => clusterOf k == clusterOf core
    | .die => dieOf k == dieOf core
    | .pkg => true
    | .sys => true)

/-- A line dropped from the instruction caches of cores (R170); words fetched ahead stay with their threads (R171). -/
def dropCode (s : State) (cores : List Nat) (l : Nat) : State :=
  { s with cores := s.cores.map (fun p =>
      if cores.contains p.1 then (p.1, { p.2 with icache := eraseKey l p.2.icache }) else p) }

/-- IINV (R170). -/
def execIinv (x : CwbArgs) (s : State) : Out :=
  scalarStep x.m (do
    parkIfSpec
    let pa ← lineCheck x true
    modify (fun s => dropCode s (coresWithin s.core (scopeGet x.scope .core)) (lineOf pa))
    advance x.m) s

/-- IFENCE (R170): CWB and IINV complete within their steps; the words that the thread has fetched ahead are discarded (R171). -/
def execIfence (x : MArgs) (s : State) : Out :=
  scalarStep x.m (do
    modify (fun s => if (s.coreAt s.core).ahead.isEmpty then s else s.modCore s.core (fun c => { c with ahead := [] }))
    advance x.m) s

end Sys2Proof.Machine
end

