-- ==== Sys2Proof/Machine/Formats.lean ====
section
/-! DEFINITION. The number formats (R213 to R223), Round and Sat (R34, R35), stochastic bits (R224), exact arithmetic on
values, and the procedures of VFEXP2 and VFRSQ (R226, R227). -/

namespace Sys2Proof.Machine

/-! ### Exact values -/

/-- An exact value: NaN, an infinity, or ± m × 2^e with the sign of zero kept. `st` marks a value strictly between m and
m + 1 times 2^e, where m holds far more bits than any format. -/
inductive Val where
  | nan
  | inf (neg : Bool)
  | fin (neg : Bool) (m : Nat) (e : Int) (st : Bool)
  deriving DecidableEq, Repr

/-- Zero with a sign. -/
def Val.zero (neg : Bool) : Val := .fin neg 0 0 false
/-- An integer as a value. -/
def Val.ofInt (x : Int) : Val := .fin (decide (x < 0)) x.natAbs 0 false

/-- Is the value zero? -/
def Val.isZero : Val → Bool
  | .fin _ m _ st => m == 0 && !st
  | _ => false
/-- Is the value finite? -/
def Val.isFin : Val → Bool
  | .fin .. => true
  | _ => false
/-- The sign of a value. -/
def Val.neg : Val → Bool
  | .nan => false
  | .inf n => n
  | .fin n _ _ _ => n
/-- The value with its sign set. -/
def Val.withNeg (n : Bool) : Val → Val
  | .nan => .nan
  | .inf _ => .inf n
  | .fin _ m e st => .fin n m e st
/-- The magnitude. -/
def Val.abs (v : Val) : Val := v.withNeg false
/-- The value negated; the sign of a NaN is not kept. -/
def Val.negate (v : Val) : Val := v.withNeg (!v.neg)

/-- `m` × 2^`k` for a non-negative shift, floored for a negative one. -/
def shiftNat (m : Nat) (k : Int) : Nat := if 0 ≤ k then m <<< k.toNat else m >>> (-k).toNat

/-- Compares m1 × 2^e1 with m2 × 2^e2. -/
def cmpMag (m1 : Nat) (e1 : Int) (m2 : Nat) (e2 : Int) : Ordering :=
  let e := min e1 e2
  compare (m1 <<< (e1 - e).toNat) (m2 <<< (e2 - e).toNat)

/-- The signed integer of a finite value at a scale no finer than its own. -/
def Val.atScale (v : Val) (e0 : Int) : Int :=
  match v with
  | .fin n m e _ =>
    let x : Int := Int.ofNat (m <<< (e - e0).toNat)
    if n then -x else x
  | _ => 0

/-- The exponent of a finite value. -/
def Val.exp : Val → Int
  | .fin _ _ e _ => e
  | _ => 0

/-- The sum of two finite values, exact; a zero sum of unlike signs has the sign given. -/
def addFin (x y : Val) (zneg : Bool) : Val :=
  let e := min x.exp y.exp
  let z := x.atScale e + y.atScale e
  if z = 0 then .fin (if x.neg = y.neg then x.neg else zneg) 0 0 false
  else .fin (decide (z < 0)) z.natAbs e false

/-- The product of two values; 0 × ∞ is NaN. -/
def Val.mul (x y : Val) : Val :=
  let n := Bool.xor x.neg y.neg
  match x, y with
  | .nan, _ => .nan
  | _, .nan => .nan
  | .inf _, y => if y.isZero then .nan else .inf n
  | x, .inf _ => if x.isZero then .nan else .inf n
  | .fin _ m e _, .fin _ m' e' _ => .fin n (m * m') (e + e') false

/-- The sum of two values; ∞ − ∞ is NaN. -/
def Val.add (x y : Val) (zneg : Bool) : Val :=
  match x, y with
  | .nan, _ => .nan
  | _, .nan => .nan
  | .inf a, .inf b => if a = b then .inf a else .nan
  | .inf a, _ => .inf a
  | _, .inf b => .inf b
  | x, y => addFin x y zneg

/-- The quotient of two values, to more bits than any format holds; 0 / 0 and ∞ / ∞ are NaN, x / 0 is ∞. -/
def Val.div (x y : Val) : Val :=
  let n := Bool.xor x.neg y.neg
  match x, y with
  | .nan, _ => .nan
  | _, .nan => .nan
  | .inf _, .inf _ => .nan
  | .inf _, _ => .inf n
  | _, .inf _ => Val.zero n
  | .fin _ m e _, .fin _ m' e' _ =>
    if m' = 0 then (if m = 0 then .nan else .inf n)
    else
      let k := 160 + Nat.log2 m'
      .fin n ((m <<< k) / m') (e - e' - k) ((m <<< k) % m' != 0)

/-- Bits of the integer square root, from bit `b - 1` down. -/
def isqrtFrom (n : Nat) : Nat → Nat → Nat
  | 0, r => r
  | b + 1, r => if (r + 2 ^ b) * (r + 2 ^ b) ≤ n then isqrtFrom n b (r + 2 ^ b) else isqrtFrom n b r

/-- The integer square root. -/
def isqrt (n : Nat) : Nat := isqrtFrom n (Nat.log2 n / 2 + 1) 0

/-- The square root, to more bits than any format holds; of a negative value NaN, of −0 −0. -/
def Val.sqrt (x : Val) : Val :=
  match x with
  | .nan => .nan
  | .inf n => if n then .nan else .inf false
  | .fin n m e _ =>
    if m = 0 then x
    else if n then .nan
    else
      let k : Nat := if (e - 240) % 2 = 0 then 240 else 241
      let r := isqrt (m <<< k)
      .fin false r ((e - k) / 2) (r * r != m <<< k)

/-- Compares two values that are not NaN. -/
def Val.cmp (x y : Val) : Ordering :=
  let key : Val → Int := fun v => match v with
    | .nan => 0
    | .inf n => if n then -2 else 2
    | _ => 0
  match x, y with
  | .fin .., .fin .. =>
    let e := min x.exp y.exp
    compare (x.atScale e) (y.atScale e)
  | _, _ => compare (key x) (key y)

/-! ### Formats -/

/-- A binary format (R213, R222): exponent and fraction widths, bias, code of the largest finite magnitude, infinity,
sign. -/
structure Fmt where
  f : Nat
  bias : Int
  maxCode : Nat
  hasInf : Bool
  signBit : Option Nat
  nanCode : Nat
  deriving DecidableEq, Repr

/-- The binary formats: those of the table of R213, and S8F (R222). -/
def fmtOf : Ty → Option Fmt
  | .f32 => some { f := 23, bias := 127, maxCode := 0x7F7FFFFF, hasInf := true, signBit := some 31, nanCode := 0x7FC00000 }
  | .bf16 => some { f := 7, bias := 127, maxCode := 0x7F7F, hasInf := true, signBit := some 15, nanCode := 0x7FC0 }
  | .f16 => some { f := 10, bias := 15, maxCode := 0x7BFF, hasInf := true, signBit := some 15, nanCode := 0x7E00 }
  | .e5m2 => some { f := 2, bias := 15, maxCode := 0x7B, hasInf := true, signBit := some 7, nanCode := 0x7E }
  | .e4m3 => some { f := 3, bias := 7, maxCode := 0x7E, hasInf := false, signBit := some 7, nanCode := 0x7F }
  | .e2m1 => some { f := 1, bias := 1, maxCode := 7, hasInf := false, signBit := some 3, nanCode := 0 }
  | .s8f => some { f := 3, bias := 7, maxCode := 0x7F, hasInf := false, signBit := none, nanCode := 0xFF }
  | _ => none

/-- The NaN of a type (R214, R215). -/
def nanOf : Ty → Nat
  | .fjt8 => 0x80
  | .e8m0 => 0xFF
  | t => match fmtOf t with
    | some f => f.nanCode
    | none => 0

/-- The value of a magnitude code of a binary format. -/
def fmtMag (f : Fmt) (c : Nat) : Nat × Int :=
  let e := c / 2 ^ f.f
  let x := c % 2 ^ f.f
  if e = 0 then (x, 1 - f.bias - f.f) else (2 ^ f.f + x, e - f.bias - f.f)

/-- The magnitude of an FJT8 code from 0x00 to 0x7F, in units of 2^-11 (R217). -/
def fjtMag (c : Nat) : Nat :=
  let e2 (x : Int) (f frac : Nat) : Nat := shiftNat (2 ^ f + frac) (x - f + 11)
  if 0x40 ≤ c then e2 (natField c 4 2 - 2) 4 (natField c 0 4)
  else if 0x20 ≤ c then e2 (natField c 3 2 + 2) 3 (natField c 0 3)
  else if 0x10 ≤ c then e2 (natField c 2 2 - 6) 2 (natField c 0 2)
  else if 8 ≤ c then e2 (natField c 1 2 + 6) 1 (natField c 0 1)
  else if 4 ≤ c then e2 (natField c 0 2 - 10) 0 0
  else if 2 ≤ c then e2 (natField c 0 1 + 10) 0 0
  else if c = 1 then 1
  else 0

/-- The value of a code of a floating-point or scale type (R213 to R222). -/
def decodeFp (t : Ty) (c : Nat) : Val :=
  match t with
  | .fjt8 => if c = 0x80 then .nan else .fin (decide (128 ≤ c)) (fjtMag (c % 128)) (-11) false
  | .e8m0 => if c = 0xFF then .nan else .fin false 1 (c - 127) false
  | .s8f => if 128 ≤ c then .nan else match fmtOf .s8f with
    | some f => .fin false (fmtMag f c).1 (fmtMag f c).2 false
    | none => .nan
  | _ => match fmtOf t with
    | none => .nan
    | some f =>
      let sb := f.signBit.getD 0
      let n := natField c sb 1 == 1
      let a := c % 2 ^ sb
      if a ≤ f.maxCode then .fin n (fmtMag f a).1 (fmtMag f a).2 false
      else if f.hasInf && a == f.maxCode + 1 then .inf n
      else .nan

/-- The value of an element of any type: integers as they stand (R220). -/
def decodeVal (t : Ty) (c : Nat) : Val := if t.isInt then Val.ofInt (extTy t c) else decodeFp t c

/-! ### Round (R34) -/

/-- SRBits(i) (R224) of a seed and a base. -/
def srBits (seed base : Word) (i : Word) : Nat :=
  let step (p : Word × Word) : Word × Word :=
    let x := (p.1 ^^^ p.2) * 0xD1B54A32D192ED03
    (x ^^^ (x >>> 32), p.2 + 0x9E3779B97F4A7C15)
  let r := step (step (step (step (base + i, seed))))
  field r.1 32 32

/-- Rounding mode with the 16 random bits that SR compares (R34, R224). -/
structure RMode where
  rm : Rm
  bits : Nat
  deriving DecidableEq, Repr

/-- Round to nearest, ties to even. -/
def rnMode : RMode := { rm := .rn, bits := 0 }

/-- The choice between two adjacent codes (R34): whether the one of greater magnitude is taken. `num / den` is the
position between them, `st` a little more. -/
def roundUp (m : RMode) (neg : Bool) (loEven : Bool) (num den : Nat) (st : Bool) : Bool :=
  if num = 0 && !st then false
  else
    match m.rm with
    | .rn => if 2 * num < den then false else if 2 * num = den && !st then !loEven else true
    | .rz => false
    | .rp => !neg
    | .rm => neg
    | .sr => decide (m.bits < num * 65536 / den)

/-- Floor and position of m × 2^e within the grid 2^u. -/
def gridPos (m : Nat) (e u : Int) : Nat × Nat × Nat :=
  if u ≤ e then (m <<< (e - u).toNat, 0, 1)
  else
    let d := (u - e).toNat
    (m >>> d, m % 2 ^ d, 2 ^ d)

/-- The magnitude code to which a finite magnitude rounds in a binary format, exponents unbounded above. -/
def roundMag (f : Fmt) (r : RMode) (neg : Bool) (m : Nat) (e : Int) (st : Bool) : Nat :=
  if m = 0 && !st then 0
  else
    let k : Int := if m = 0 then e else Nat.log2 m + e
    let ex := max (k + f.bias) 1
    let (q, num, den) := gridPos m e (ex - f.bias - f.f)
    let lo := (ex - 1).toNat * 2 ^ f.f + q
    if roundUp r neg (lo % 2 == 0) num den st then lo + 1 else lo

/-- Does a mode take an overflow to infinity (R34)? -/
def overflowsToInf (r : RMode) (neg : Bool) : Bool :=
  match r.rm with
  | .rn => true
  | .sr => true
  | .rz => false
  | .rp => !neg
  | .rm => neg

/-- Round into a binary format with a sign (R34). -/
def roundFmt (f : Fmt) (r : RMode) (v : Val) : Nat :=
  match v with
  | .nan => f.nanCode
  | .inf n => (if f.hasInf then f.maxCode + 1 else f.maxCode) + (b2n n) * 2 ^ (f.signBit.getD 0)
  | .fin n m e st =>
    let c := roundMag f r n m e st
    let c := if c ≤ f.maxCode then c else if f.hasInf && overflowsToInf r n then f.maxCode + 1 else f.maxCode
    c + (b2n n) * 2 ^ (f.signBit.getD 0)

/-- FJT8 magnitude codes in rising order of magnitude (R217, R219): zero, then by value. -/
def fjtOrder : List Nat :=
  [0, 1] ++ [4, 5, 6, 7] ++ (List.range 16).map (0x10 + ·) ++ (List.range 64).map (0x40 + ·) ++
    (List.range 32).map (0x20 + ·) ++ (List.range 8).map (8 + ·) ++ [2, 3]

/-- Round into FJT8 (R219). -/
def roundFjt (r : RMode) (v : Val) : Nat :=
  match v with
  | .nan => 0x80
  | .inf n => 3 + 128 * b2n n
  | .fin n m e st =>
    let le (c : Nat) : Bool := cmpMag (fjtMag c) (-11) m e != .gt
    let lo := (fjtOrder.filter le).getLast?.getD 0
    let c := match fjtOrder.find? (fun c => !le c) with
      | none => lo
      | some hi =>
        let e0 := min e (-11)
        let at0 (c : Nat) : Nat := fjtMag c <<< (-11 - e0).toNat
        if roundUp r n (lo % 2 == 0) ((m <<< (e - e0).toNat) - at0 lo) (at0 hi - at0 lo) st then hi else lo
    if c = 0 then 0 else c + 128 * b2n n

/-- Round into E8M0 (R221). -/
def roundE8 (r : RMode) (v : Val) : Nat :=
  match v with
  | .nan => 0xFF
  | .inf n => if n then 0xFF else 0xFE
  | .fin n m e st =>
    if n || (m = 0 && !st) then 0xFF
    else
      let k : Int := Nat.log2 m + e
      if k < -127 then 0
      else
        let lo := (k + 127).toNat
        let (q, num, den) := if 0 ≤ k - e then (m >>> (k - e).toNat, m % 2 ^ (k - e).toNat, 2 ^ (k - e).toNat) else (1, 0, 1)
        let c := if roundUp r false (lo % 2 == 0) num den st && q == 1 then lo + 1 else lo
        min c 0xFE

/-- Round into S8F (R222). -/
def roundS8 (r : RMode) (v : Val) : Nat :=
  match v, fmtOf .s8f with
  | .fin n m e st, some f =>
    if m = 0 && !st then 0 else if n then 0xFF else min (roundMag f r false m e st) f.maxCode
  | .inf n, _ => if n then 0xFF else 0x7F
  | _, _ => 0xFF

/-- Round to an integer (R34), before any Wrap. NaN gives 0; an infinity has no integer and gives 0 here. -/
def roundInt (r : RMode) (v : Val) : Int :=
  match v with
  | .fin n m e st =>
    let (q, num, den) := gridPos m e 0
    let x := if roundUp r n (q % 2 == 0) num den st then q + 1 else q
    if n then -(x : Int) else x
  | _ => 0

/-- Round(v, t, m) for a floating-point or scale type: the code (R34). -/
def roundFp (t : Ty) (r : RMode) (v : Val) : Nat :=
  match t with
  | .fjt8 => roundFjt r v
  | .e8m0 => roundE8 r v
  | .s8f => roundS8 r v
  | _ => match fmtOf t with
    | some f => roundFmt f r v
    | none => 0

/-- The largest finite value of a floating-point or scale type. -/
def maxFin (t : Ty) : Val :=
  match t with
  | .fjt8 => .fin false 1 11 false
  | .e8m0 => .fin false 1 127 false
  | _ => match fmtOf t with
    | some f => .fin false (fmtMag f f.maxCode).1 (fmtMag f f.maxCode).2 false
    | none => Val.zero false

/-- Sat(v, t) for a floating-point or scale type (R35). -/
def satFp (t : Ty) (v : Val) : Val :=
  match v with
  | .nan => .nan
  | .inf n => (maxFin t).withNeg n
  | .fin n _ _ _ => if (v.abs).cmp (maxFin t) = .gt then (maxFin t).withNeg n else v

/-- Sat(v, t) for an integer type, of a value (R35). -/
def satIntVal (t : Ty) (v : Val) : Val :=
  match v with
  | .nan => Val.zero false
  | .inf n => Val.ofInt (if n then tyMin t else tyMax t)
  | .fin .. =>
    if v.cmp (Val.ofInt (tyMin t)) = .lt then Val.ofInt (tyMin t)
    else if v.cmp (Val.ofInt (tyMax t)) = .gt then Val.ofInt (tyMax t)
    else v

/-- The code of an exact integer at an integer type: its low bits. -/
def codeInt (t : Ty) (x : Int) : Nat := (x % (2 ^ t.width : Nat)).toNat

/-- A rounded floating-point result with .sat (R35). -/
def fpResult (t : Ty) (r : RMode) (sat : Bool) (v : Val) : Nat := roundFp t r (if sat then satFp t v else v)

/-- Conv of R229. -/
def convVal (dt : Ty) (r : RMode) (sat : Bool) (v : Val) : Nat :=
  if dt.isInt then
    match v with
    | .nan => 0
    | .inf n => codeInt dt (if n then tyMin dt else tyMax dt)
    | _ => codeInt dt (roundInt r (if sat then satIntVal dt v else v))
  else fpResult dt r sat v

/-- Conv of VCVT (R229) on codes. -/
def convert (dt st : Ty) (r : RMode) (sat : Bool) (c : Nat) : Nat := convVal dt r sat (decodeVal st c)

/-! ### VFEXP2 and VFRSQ -/

/-- TX[j] (R226): the integer nearest 2^(30 + j/64), by six square roots. -/
def txTable (j : Nat) : Nat :=
  (isqrt (isqrt (isqrt (isqrt (isqrt (isqrt (2 ^ (1984 + j))))))) + 1) / 2

/-- Exp2 (R226), as an FP32 code. -/
def exp2Fn (c : Nat) : Nat :=
  match decodeFp .f32 c with
  | .nan => nanOf .f32
  | .inf n => if n then 0 else 0x7F800000
  | .fin n m e st =>
    let v : Val := .fin n m e st
    if v.cmp (Val.ofInt 128) != .lt then 0x7F800000
    else if v.cmp (Val.ofInt (-160)) = .lt then 0
    else
      let t := roundInt rnMode (.fin n m (e + 16) st)
      let g := t / 65536
      let u := (t % 65536).toNat
      let j := u / 1024
      let q := u % 1024
      let y := txTable j + (txTable (j + 1) - txTable j) * q / 1024
      roundFp .f32 rnMode (.fin false y (g - 30) false)

/-- QA[j] and QB[j] (R227). -/
def rsqTable (odd : Bool) (j : Nat) : Nat := (isqrt (4 * 2 ^ (if odd then 64 else 65) / (32 + j)) + 1) / 2

/-- Rsq (R227), as an FP32 code. -/
def rsqFn (c : Nat) : Nat :=
  match decodeFp .f32 c with
  | .nan => nanOf .f32
  | .inf n => if n then nanOf .f32 else 0
  | .fin n m e _ =>
    if m = 0 then (if n then 0xFF800000 else 0x7F800000)
    else if n then nanOf .f32
    else
      let l := Nat.log2 m
      let mm := m <<< (23 - l)
      let k : Int := e + l
      let j := (mm - 2 ^ 23) / 2 ^ 18
      let q := (mm - 2 ^ 23) % 2 ^ 18
      let h := k / 2
      let odd := k % 2 == 1
      let a := rsqTable odd j
      let y := a - (a - rsqTable odd (j + 1)) * q / 2 ^ 18
      roundFp .f32 rnMode (.fin false y (-30 - h) false)

/-! ### FP32 arithmetic on codes -/

/-- FP32 rounding to nearest of a value, as a code. -/
def round32 (v : Val) : Nat := roundFp .f32 rnMode v
/-- A function of FP32 values, rounded, on codes. -/
def op32 (f : Val → Val → Val) (x y : Nat) : Nat := round32 (f (decodeFp .f32 x) (decodeFp .f32 y))
/-- Round(x + y), the Combine of R244 and R343. -/
def add32 (x y : Nat) : Nat := op32 (fun a b => a.add b false) x y
/-- Round(x − y). -/
def sub32 (x y : Nat) : Nat := op32 (fun a b => a.add b.negate false) x y
/-- Round(x / m) for an integer m. -/
def divInt32 (x m : Nat) : Nat := round32 ((decodeFp .f32 x).div (Val.ofInt m))
/-- Is an FP32 code finite? -/
def fin32 (x : Nat) : Bool := (decodeFp .f32 x).isFin

/-! ### The fixed tree of R203 -/

/-- Neighbours combined in pairs; a last one alone stays. -/
def pairUp {α : Type} (f : α → α → α) : List α → List α
  | x :: y :: rest => f x y :: pairUp f rest
  | l => l

/-- Pairs combined over and over, `fuel` times. -/
def pairAll {α : Type} (f : α → α → α) : Nat → List α → List α
  | 0, l => l
  | fuel + 1, l => pairAll f fuel (pairUp f l)

/-- Tree (R203): at most 2^13 elements, so 13 rounds leave one. -/
def treeOf {α : Type} (f : α → α → α) (empty : α) (l : List α) : α := (pairAll f 13 l).headD empty

end Sys2Proof.Machine
end

