-- ==== Sys2Proof/Machine/Lanes.lean ====
section
/-! DEFINITION. The lane pool: VMODE and SETVL (R185 to R187), the grants of R178 and R179, re-grants (R181), and what a
longer register holds (R182). -/

namespace Sys2Proof.Machine

/-- Cause LANEBUDGET (R212). -/
def cLaneBudget : BitVec 16 := 0x203

/-- `n` free words side by side, from reading `base` on. -/
def freeBits (base : Nat) : Nat → Nat
  | 0 => 0
  | n + 1 => (Config.freeWord (base + n)).toNat <<< (64 * n) ||| freeBits base n

/-- Registers that become longer: what a shortening has lost comes back as free values (notes/assumptions/42.md). -/
def reveal (v : Vregs) (old new fresh : Nat) : Vregs :=
  let hi := min new v.lost
  if hi ≤ old then v
  else { v with
    v := v.v.mapIdx (fun i x => x ||| (BitVec.ofNat 4096 (freeBits (fresh + 72 * i) 64) &&& maskAt 4096 old (hi - old)))
    vp := v.vp.mapIdx (fun i x =>
      x ||| (BitVec.ofNat 512 (freeBits (fresh + 72 * i + 64) 8) &&& maskAt 512 (old / 8) ((hi - old) / 8))) }

/-- The acting context's registers take a length of `new` bits or stay longer. -/
def revealTo (new : Nat) : M Unit := do
  let s ← get
  let v := s.cur.vr
  if min new v.lost ≤ lbits v then return ()
  else
    set { s with fresh := s.fresh + 32 * 72 }
    modifyCur (fun c => { c with vr := reveal c.vr (lbits c.vr) new s.fresh })

/-- Lanes that a region may still take at itself and at every ancestor (R178, R310). -/
def laneAllow (s : State) (r : Nat) : Nat :=
  (regionChain s treeFuel r).foldl (fun a q => min a (effLimit s 1 q - (s.regionAt q).inuse[1])) 64

/-- The wanted count n (R178). -/
def lanesWanted (req w cap : Nat) : Nat := min cap (max 8 (pow2AtLeast (ceilDiv (req * w) 64) 20))

/-- The largest grant from `l` to `n` that takes at most `room` lanes more (R178). -/
def largestGrant (l n room : Nat) : Option Nat :=
  [64, 32, 16, 8].find? (fun g => decide (l ≤ g) && decide (g ≤ n) && decide (g - l ≤ room))

/-- The element loads of the acting core's vector agent have performed, before its registers change their length, or the
instruction waits for a migration. -/
def settleLoads : M Unit := do
  modify (fun s => drainFor s s.core .vector (fun a => !isStore a))
  let s ← get
  if (waitingOf s s.core .vector).any (fun a => !isStore a) then waits else pure ()

/-- A held count changed to `g`, registers with it. -/
def takeLanes (g : Nat) : M Unit := do
  revealTo (64 * g)
  let s ← get
  let c := s.cur
  let s := if c.vr.held ≤ g then budgetTake s c.h.region 1 (g - c.vr.held)
    else budgetGive s c.h.region 1 (c.vr.held - g)
  set (s.modCur (fun c => { c with vr := setLanes c.vr g }))

/-- The grant of a SETVL in long mode that asks for `n` lanes, or its wait in the lane queue (R178, R179). -/
def grantSetvl (n : Nat) : M Nat := do
  let s ← get
  let c := s.cur
  let l := c.vr.lanes
  let cl := clusterOf s.core
  let room := min (64 - lanesHeld s cl) (laneAllow s c.h.region)
  if n ≤ l then return n
  else if 8 ≤ l then return (largestGrant l n room).getD l
  else
    let q := (s.clusterAt cl).lanes
    let head := match q with
      | [] => true
      | r :: _ => r.slot == s.slot && !r.regrant
    match (if head then largestGrant 0 n room else none) with
    | some g =>
      modify (fun s => s.modCluster cl (fun x => { x with lanes := x.lanes.filter (fun r => r.slot != s.slot) }))
      return g
    | none =>
      if q.any (fun r => r.slot == s.slot) then waits
      else
        let r : LaneReq := { slot := s.slot, core := s.core, prio := effPrio s c.h.region, want := n, regrant := false }
        modify (fun s => s.modCluster cl (fun x => { x with lanes := laneInsert r x.lanes }))
        waits

/-- The vector agent's part of SETVL (R187). -/
def setvlEff (x : SetvlArgs) : M Unit := do
  let c ← getCur
  if !active x.m c 0 then return ()
  let g ← capturedG
  let req := min 8191 (g.toNat + x.n.toNat)
  let w := x.ty.width
  let s ← get
  let vl ← if !c.vr.long then pure (min req (256 / w))
    else if req = 0 then do
      if c.vr.lanes ≠ 0 then settleLoads
      takeLanes 0
      pure 0
    else do
      let bmax := effLimit s 1 c.h.region
      if bmax < 8 then trapD cLaneBudget (BitVec.ofNat 64 bmax) (BitVec.ofNat 64 c.h.region)
      if lanesWanted req w (laneCap s c) ≠ c.vr.lanes then settleLoads
      let g ← grantSetvl (lanesWanted req w (laneCap s c))
      takeLanes g
      pure (min req (64 * g / w))
  modifyCur (fun c => writeG { c with vr := { c.vr with vl := BitVec.ofNat 13 vl, wlog := Nat.log2 w } } x.d
    (BitVec.ofNat 64 vl))

/-- SETVL (R187): pushed by the control thread. -/
def execSetvl (x : SetvlArgs) (s : State) : Out := vectorStep (.setvl x) x.m (some x.a) none (setvlEff x) s

/-- The vector agent's part of VMODE (R186). -/
def vmodeEff (x : VmodeArgs) : M Unit := do
  let c ← getCur
  if !active x.m c 0 || x.long == c.vr.long then return ()
  settleLoads
  if x.long then
    modifyCur (fun c => { c with vr := { c.vr with
      v := Vector.replicate 32 0, p := Vector.replicate 16 0, vp := Vector.replicate 32 0
      vl := 0, lanes := 0, held := 0, long := true, lost := 0 } })
  else
    modify (fun s => laneGive s s.slot)
    revealTo 256
    modifyCur (fun c =>
      let v := if 256 < lbits c.vr then shorten c.vr 256 else c.vr
      { c with vr := { v with
        vl := BitVec.ofNat 13 (min c.vr.vl.toNat (256 / 2 ^ c.vr.wlog)), lanes := 0, held := 0, long := false } })

/-- VMODE (R186): pushed by the control thread. -/
def execVmode (x : VmodeArgs) (s : State) : Out := vectorStep (.vmode x) x.m none none (vmodeEff x) s

/-- A re-grant at the head of a lane queue: whole, or not yet (R179, R181). -/
def grantBack (s : State) (r : LaneReq) : State :=
  let cl := clusterOf r.core
  let c := s.ctxAt r.slot
  if r.want ≤ 64 - lanesHeld s cl && budgetRoom s c.h.region 1 r.want then
    (budgetTake s c.h.region 1 r.want).modCtx r.slot (fun c =>
      let c := vecIn s c
      { c with regrant := false, vr := setLanes c.vr r.want })
    |>.modCluster cl (fun x => { x with lanes := x.lanes.drop 1 })
  else s

/-- A waiting context whose last entry has committed returns its lanes (R176, R180). -/
def restAfter (s : State) (slot : Nat) : State :=
  let c := s.ctxAt slot
  if c.parked.isSome || c.segPark.isSome || c.awaitClose.isSome then restLanes s slot else s

/-- LANE_GRANT (R179): the head of a cluster's lane queue, and nothing behind it. -/
def execLaneGrant (cluster : Nat) (s : State) : Out :=
  match (s.clusterAt cluster).lanes with
  | [] => .next s
  | r :: _ =>
    if r.regrant then .next (grantBack s r)
    else
      let s := { s with core := r.core, party := .vector }
      match entryInstr (vqHead s.cur) with
      | some (.setvl x) => .next (restAfter (commitEntry (setvlEff x) s) r.slot)
      | _ => .next s

end Sys2Proof.Machine
end

