-- ==== Sys2Proof/Machine/Waits.lean ====
section
/-! DEFINITION. CALLQ, PARK and HALT (R109 to R112), and the wake of a thread that watches a control word (R111). -/

namespace Sys2Proof.Machine

/-- The words that CALLQ's service record carries (R110). -/
def callqRecord (slot : Nat) (c : Ctx) (gM : Word) (off : Word) : List Word :=
  [BitVec.ofNat 64 (c.h.trapseq.toNat <<< 48 ||| c.h.region <<< 32 ||| slot <<< 16 ||| cCallq.toNat),
   c.h.pc, gM, c.r.g[1], c.r.g[2], c.r.g[3], c.r.g[4], off]

/-- The service queue that a capability names, if it takes a record now (R110, R377). -/
def serviceQueue (s : State) (base : Nat) : Option Nat :=
  match queueOfPage base with
  | some q =>
    let h := s.queueAt q
    if h.valid && h.kind == 2 && !queueFull h then some q else none
  | none => none

/-- CALLQ (R110). -/
def execCallq (x : CallqArgs) (s : State) : Out :=
  scalarStep x.m (do
    parkIfSpec
    let c ← getCur
    let cap := readC c x.c
    if !cap.tag then trapD cCapTag (BitVec.ofNat 64 x.c) 0
    if capOtype cap ≠ 1 then trapD cCapSeal (BitVec.ofNat 64 x.c) 0
    consumeAll [x.g, 1, 2, 3, 4]
    waitVector
    quiet
    modify (fun s => release s s.core .sys)
    let s ← get
    let (b, _) := capBounds cap
    match serviceQueue s b with
    | none =>
      modify (fun s => restLanes s s.slot)
      waits
    | some q =>
      let off := capCursor cap - BitVec.ofNat 64 b
      modifyCur (fun c => { c with h := { c.h with trapseq := c.h.trapseq + 1 } })
      let c ← getCur
      let rec_ := callqRecord s.slot c (gVal c x.g) off
      modifyCur (fun c => setPc c (nextPc c x.m))
      modify (fun s => haltWith s.slot cCallq s)
      modify (fun s => postRecord s q rec_)) s

/-- Is a control address in a register image of a frame (R111)? -/
def inImage (pa : Nat) : Bool :=
  match ctlPage pa with
  | .frame _ o => decide (0x1000 ≤ o) && decide (o < 0xA000)
  | _ => false

/-- PARK (R111). -/
def execPark (x : ParkArgs) (s : State) : Out :=
  scalarStep x.m (do
    let c ← getCur
    let cap := readC c x.c
    let off := memOff (gVal c x.x) x.imm
    let va : Word := capCursor cap + wordOf off
    let pa ← orTrap (← ctlCheck cap off 8 .load .read .sys) x.c
    if pa % 8 ≠ 0 then trapD cAlign va (BitVec.ofNat 64 x.c)
    consumeAll [x.x, x.v]
    if inCtl pa && inImage pa then trapD cCtlAccess va (BitVec.ofNat 64 x.c)
    let v ← if inCtl pa then ctlLoad pa va x.c else do
      let bs ← loadMem pa 8 .sys 0
      pure (wordOfBytes bs)
    advance x.m
    if v = gVal c x.v then
      modifyCur (fun c => { c with parked := some (lineOf pa), hit := false })
      modify (fun s => restLanes s s.slot)
    else pure ()) s

/-- HALT (R112): the record of a launch's end is the step GANG_END (R323). -/
def execHalt (x : MArgs) (s : State) : Out :=
  scalarStep x.m (do
    waitVector
    quiet
    advance x.m
    modify (fun s => haltWith s.slot cHalt s)) s

/-- A thread that watches a line of control space wakes when a word of it has changed (R111). -/
def wakeWatchers (before after : State) : State :=
  after.mapCtxs (fun slot c => match c.parked with
    | some l =>
      if inCtl (64 * l) && !c.hit && (List.range 8).any (fun i =>
          ctlRead before (.thread slot) (64 * l + 8 * i) != ctlRead after (.thread slot) (64 * l + 8 * i))
      then { c with hit := true } else c
    | none => c)

end Sys2Proof.Machine
end

