-- ==== Sys2Proof/Machine/Launch.lean ====
section
/-! DEFINITION. Launch records (R313 to R315, R326), the contexts that they start (R262, R322), and the tables of shapes
(R320). -/

namespace Sys2Proof.Machine

/-! ### Reading a record -/

/-- Word `i` of a record, at the package point (R325). -/
def recW (s : State) (pa i : Nat) : Word := pkgWord s (pa + 8 * i)

/-- A capability of a record or table, with its tag. -/
def pkgCap (s : State) (pa : Nat) : Cap :=
  { bits := BitVec.ofNat 128 (natOfBytes (pkgLoad s pa 16)), tag := (pkgTags s (lineOf pa)).getLsbD (pa % 64 / 16) }

/-- The cause with which a read of a byte for a region faults, if it does (R390, R422). -/
def byteFault (s : State) (region pa : Nat) : Option (BitVec 16) :=
  match phys s pa with
  | .error f => some f.cause
  | .ok _ =>
    if inPewter pa then some cMSource
    else if inCtl pa then some cCtlAccess
    else if inPeer pa then some cPeerWin
    else if refusedTo s region pa then some cProtected
    else none

/-- The cause with which a read of a range for a region faults, if it does (R322, R443). The range is shorter than any protected
one and than any gap between the ranges of R390, so its ends tell. -/
def recFault1 (s : State) (region pa n : Nat) : Option (BitVec 16) :=
  if n = 0 then none
  else
    match (byteFault s region pa).or (byteFault s region (pa + n - 1)) with
    | some f => some f
    | none => if (pieces pa n (n / 64 + 2)).any (fun p => s.poison.contains (lineOf p.1)) then some cMemErr else none

/-- The address field of a table word of a record (R313). -/
def tabAddr (w : Word) : Nat := field w 0 56
/-- Entries of CAPTAB. -/
def capN (s : State) (pa : Nat) : Nat := field (recW s pa 14) 59 5
/-- Entries of BINDTAB. -/
def bindN (s : State) (pa : Nat) : Nat := field (recW s pa 15) 60 4
/-- Entries of LINKTAB. -/
def linkN (s : State) (pa : Nat) : Nat := field (recW s pa 19) 60 4
/-- Threads of the gang (R314). -/
def recGang (s : State) (pa : Nat) : Nat := field (recW s pa 0) 8 5
/-- spsize in KiB. -/
def recSp (s : State) (pa : Nat) : Nat := field (recW s pa 12) 0 11

/-- The lengths of a roustabout image (R262). -/
def imgLens (s : State) (a : Nat) : Nat × Nat := ((pkgWord s a).toNat, (pkgWord s (a + 8)).toNat)
/-- Do an image's lengths meet R262? -/
def imgOk (s : State) (a : Nat) : Bool :=
  a == 0 || (decide ((imgLens s a).1 ≤ 16384) && (imgLens s a).1 % 2 == 0 && decide ((imgLens s a).2 ≤ 16384))

/-- The ranges that a record and its tables occupy. -/
def recRanges (s : State) (pa : Nat) : List (Nat × Nat) :=
  let img (i : Nat) : List (Nat × Nat) :=
    let a := tabAddr (recW s pa i)
    if a = 0 then [] else [(a, 16 + (if imgOk s a then (imgLens s a).1 + (imgLens s a).2 else 0))]
  [(pa, 256), (tabAddr (recW s pa 14), 32 * capN s pa), (tabAddr (recW s pa 15), 128 * bindN s pa),
   (tabAddr (recW s pa 18), if tabAddr (recW s pa 18) = 0 then 0 else 512),
   (tabAddr (recW s pa 19), 32 * linkN s pa)] ++ img 16 ++ img 17

/-- The first fault in reading a record or its tables (R322). -/
def recFault (s : State) (region pa : Nat) : Option (BitVec 16) :=
  match recFault1 s region pa 256 with
  | some f => some f
  | none => ((recRanges s pa).filterMap (fun r => recFault1 s region r.1 r.2)).head?

/-- An entry of CAPTAB or KCTAB: register, the derived capability, whether it is as asked (R313, R315). -/
def tabCap (s : State) (root : Cap) (a : Nat) : Nat × Cap × Bool :=
  let e := pkgWord s a
  let mask : BitVec 6 := e.extractLsb' 8 6
  let c := deriveCap root (pkgWord s (a + 8)) (pkgWord s (a + 16)) mask
  (field e 0 4, c, derivedOk c mask)

/-- The root capability of a record. -/
def recRoot (s : State) (pa : Nat) : Cap := pkgCap s (pa + 0x20)
/-- The entries of CAPTAB. -/
def recCaps (s : State) (pa : Nat) : List (Nat × Cap × Bool) :=
  (List.range (capN s pa)).map (fun i => tabCap s (recRoot s pa) (tabAddr (recW s pa 14) + 32 * i))
/-- The entries of KCTAB; a record whose word is 0 has none (notes/assumptions/41.md). -/
def recKc (s : State) (pa : Nat) : List (Nat × Cap × Bool) :=
  let a := tabAddr (recW s pa 18)
  if a = 0 then [] else (List.range 16).map (fun i => tabCap s (recRoot s pa) (a + 32 * i))

/-- Does word 0 of a binding record break R282? -/
def bindBad (w : Word) : Bool :=
  let fmt := field w 0 5
  let strip := field w 16 14
  field w 30 2 != 0 || field w 11 5 != 0 || bit w 7 || field w 5 2 == 3 || decide (16 ≤ fmt) || strip == 0 ||
    decide (8192 < strip) ||
    (match Ty.ofCode (BitVec.ofNat 5 fmt) with
      | some t => decide (8 * 4096 < strip * t.width)
      | none => true)

/-- A binding record at an address (R282). -/
def bindAt (s : State) (a : Nat) : Binding :=
  { word0 := pkgWord s a, stride := pkgWord s (a + 8), base := pkgCap s (a + 16), scale := pkgCap s (a + 32),
    sstride := pkgWord s (a + 48), bound := true }

/-- The bindings of a record: register number and record. -/
def recBinds (s : State) (pa : Nat) : List (Nat × Binding) :=
  (List.range (bindN s pa)).map (fun i =>
    let a := tabAddr (recW s pa 15) + 128 * i
    (field (pkgWord s a) 0 5, bindAt s (a + 64)))

/-- Does binding record `i` of a record's table meet R282: its alignment, its reserved word, its fields? -/
def bindOk (s : State) (pa i : Nat) : Bool :=
  let a := tabAddr (recW s pa 15) + 128 * i
  a % 64 == 0 && decide (24 ≤ field (pkgWord s a) 0 5) && !bindBad (pkgWord s (a + 64)) && pkgWord s (a + 120) == 0

/-- The links of a record (R326). -/
def recLinks (s : State) (pa : Nat) : List Link :=
  (List.range (linkN s pa)).map (fun i =>
    let a := tabAddr (recW s pa 19) + 32 * i
    let w := pkgWord s a
    { producer := field w 0 4, consumer := field w 8 4, cstage := Fin.ofNat 16 (field w 16 4),
      pstage := Fin.ofNat 16 (field w 24 4), off := (pkgWord s (a + 8)).toNat, size := (pkgWord s (a + 16)).toNat })

/-- The default loader's kc0 (R464). -/
def dfltKc (root : Cap) : Cap := deriveCap root 0x00FFFFFFFFFF0000 0x10000 3

/-- Entries of all path queues that an SSCFG word asks (R301). -/
def sideEntries (w : Word) : Nat := field w 20 12 * 2 ^ field w 32 2

/-- The deque area of a DQCFG word: capacity, base, limit (R316). -/
def dqArea (w : Word) : Nat × Nat × Nat :=
  let b := field w 0 21
  let l := field w 32 21
  (if b < l ∧ l ≤ 2 ^ 20 then (l - b) / 16 else 0, b, l)

/-! ### Shapes (R320) -/

/-- The shapes of `c` clusters in a die, in the placer's order. -/
def shapes (c die : Nat) : List (List Nat) :=
  ((List.range 9).map (fun a =>
    let r := a / 3
    let q := a % 3
    let opts : List (List Nat) := match c with
      | 1 => [[0]]
      | 2 => (if q < 2 then [[0, 1]] else []) ++ (if r < 2 then [[0, 3]] else [])
      | 3 => (if q = 0 then [[0, 1, 2]] else []) ++ (if r = 0 then [[0, 3, 6]] else [])
      | _ => if q < 2 ∧ r < 2 then [[0, 1, 3, 4]] else []
    opts.map (fun o => o.map (fun x => 9 * die + a + x)))).flatten

/-- The cores that `n` threads take in a shape, if its clusters offer them. -/
def pickCores (free : Nat → Bool) : Nat → List Nat → Option (List Nat)
  | _, [] => some []
  | n, c :: rest =>
    let need := min n 4
    let cs := ((coresOf c).filter free).take need
    if cs.length < need then none else (pickCores free (n - need) rest).map (cs ++ ·)

/-- The shapes of the dies listed whose cores are free, in the placer's order, each as the cores of the threads. -/
def freeShapes (free : Nat → Bool) (dies : List Nat) (n : Nat) : List (List Nat) :=
  (dies.map (fun d => (shapes (ceilDiv n 4) d).filterMap (pickCores free n))).flatten

/-- The first shape of the dies listed whose cores are free. -/
def findCores (free : Nat → Bool) (dies : List Nat) (n : Nat) : Option (List Nat) := (freeShapes free dies n).head?

/-- The dies that a record or gang may be placed on, in order. -/
def diesOf (anydie : Bool) (die : Nat) : List Nat := if anydie then [0, 1, 2, 3] else [die]

/-! ### Validity (R315) -/

/-- Are the reserved fields of a record zero (R313, R314)? -/
def recReserved (s : State) (pa : Nat) : Bool :=
  let w := recW s pa
  (w 0 &&& ~~~ (maskAt 64 16 5 ||| maskAt 64 8 5 ||| maskAt 64 5 1 ||| maskAt 64 0 3)) == 0 &&
    field (w 12) 11 53 == 0 && w 21 == 0 && w 22 == 0 && w 23 == 0

/-- Does every link keep its ring in its consumer's allotment (R326)? -/
def linksOk (s : State) (pa : Nat) : Bool :=
  (recLinks s pa).all (fun l =>
    decide (l.producer < recGang s pa) && decide (l.consumer < recGang s pa) && l.off % 64 == 0 && l.size % 64 == 0 &&
      decide (64 ≤ l.size) && decide (l.size ≤ 256 * 1024) && decide (2 ^ 20 - 1024 * recSp s pa ≤ l.off) &&
      decide (l.off + l.size ≤ 2 ^ 20))

/-- Is a record that reads without a fault valid for a region (R315)? One whose ROOTCAP is untagged and that derives nothing from
it, with no CAPTAB entry, no KCTAB and no binding, has no derivation that fails and is valid (notes/assumptions/85.md). -/
def recValid (s : State) (region pa : Nat) : Bool :=
  let n := recGang s pa
  let sp := recSp s pa
  let lo := 2 ^ 20 - 1024 * sp
  let ss := recW s pa 13
  let (cap, _, lim) := dqArea (effDqcfg s region)
  let binds := recBinds s pa
  decide (1 ≤ n) && decide (n ≤ 16) && recReserved s pa &&
    sp % 64 == 0 && decide (64 ≤ sp) && decide (sp ≤ 1024) &&
    imgOk s (tabAddr (recW s pa 16)) && imgOk s (tabAddr (recW s pa 17)) &&
    decide (capN s pa ≤ 16) && (recCaps s pa).all (·.2.2) && (recKc s pa).all (·.2.2) &&
    decide (bindN s pa ≤ 8) && (List.range (bindN s pa)).all (bindOk s pa) &&
    (binds.isEmpty || tabAddr (recW s pa 16) != 0 || derivedOk (dfltKc (recRoot s pa)) 3) &&
    (sideEntries ss == 0 || (decide (lo ≤ field ss 0 20) && decide (field ss 0 20 + 64 * sideEntries ss ≤ 2 ^ 20))) &&
    decide (sideEntries ss ≤ effLimit s 3 region) &&
    (cap == 0 || decide (lim ≤ lo)) && linksOk s pa &&
    (bit (recW s pa 0) 20 || (findCores (corePresent s) [field (recW s pa 0) 18 2] n).isSome)

/-- Does a record read without a fault, and is it valid? -/
def recUsable (s : State) (region pa : Nat) : Bool := (recFault s region pa).isNone && recValid s region pa

/-! ### The contexts of a launch (R322) -/

/-- A roustabout that holds an image; address 0 gives the one instruction JAL x0, 0 (R262). -/
def roustImage (s : State) (a : Nat) : Roustabout :=
  if a = 0 then { Roustabout.zero with istore := memWrite [] 0 (bytesOfNat 4 0x6F) }
  else
    let (cl, dl) := imgLens s a
    { Roustabout.zero with
      istore := memWrite [] 0 (pkgLoad s (a + 16) cl)
      dstore := memWrite [] 0 (pkgLoad s (a + 16 + cl) dl) }

/-- The bindings placed into their registers, in the order of the table. -/
def placeBinds (q : Queues) (bs : List (Nat × Binding)) : Queues :=
  bs.foldl (fun q b =>
    { q with binds := q.binds.set (Fin.ofNat 8 (b.1 - 24)) b.2 }) q

/-- A sideshow laid out by an SSCFG word, every path queue empty (R301). -/
def sideOf (w : Word) : Sideshow :=
  { base := field w 0 20, slots := field w 20 12, lp := field w 32 2, heads := Vector.replicate 8 0,
    counts := Vector.replicate 8 0 }

/-- The stage words of thread `t` at the start: its links' rings as credit where it produces (R326). -/
def stageStart (links : List Link) (t : Nat) : Vector Stage 16 :=
  links.foldl (fun v l => if l.producer = t then v.set l.pstage { pending := 0, credit := BitVec.ofNat 24 l.size } else v)
    (Vector.replicate 16 { pending := 0, credit := 0 })

/-- General registers of a launched thread (R322): patch slots, index, gang size; `arg` stands in thread 0's g1. -/
def launchG (s : State) (pa t n : Nat) (arg : Option Word) : Vector Word 64 :=
  let g := (List.range 8).foldl (fun (g : Vector Word 64) i => vset g (i + 1) (recW s pa (24 + i)))
    (Vector.replicate 64 0)
  let g := match arg with
    | some a => if t = 0 then vset g 1 a else g
    | none => g
  vset (vset g 9 (BitVec.ofNat 64 t)) 10 (BitVec.ofNat 64 n)

/-- IMGBASE of a slot of a region (R308). -/
def imgBase (s : State) (region slot : Nat) : Word :=
  (s.regionAt region).savebase + BitVec.ofNat 64 (2 ^ 21 * (slot - (s.regionAt region).slot0))

/-- The context of thread `t` of a launch of `n` threads (R322). -/
def launchCtx (s : State) (region pa slot t n : Nat) (arg : Option Word) : Ctx :=
  let w := recW s pa
  let binds := recBinds s pa
  let kc := recKc s pa
  let kcOf (b : Nat) : Vector Cap 8 := Vector.ofFn (fun i => ((kc[b + i.val]?).map (·.2.1)).getD Cap.zero)
  let dflt := !binds.isEmpty && tabAddr (w 16) == 0
  let lk := if dflt then (kcOf 0).set 0 (dfltKc (recRoot s pa)) else kcOf 0
  let caps := (recCaps s pa).foldl (fun (c : Vector Cap 16) e => vset c e.1 e.2.1) (Vector.replicate 16 Cap.zero)
  let img := roustImage s (tabAddr (w 16))
  let start : DefaultLoader :=
    { recs := binds.map (·.2), ks := List.replicate binds.length 0, pass := [], began := false, todo := [],
      announced := 0, outstanding := 0, moved := 0, smoved := 0, marks := none }
  let ld : Roustabout := { img with kc := lk, dflt := if dflt then some start else none }
  { Ctx.zero with
    h := { Header.zero with
      run := 1, pc := w 1, vcp := w 1, pcap := pkgCap s (pa + 0x10), rootcap := recRoot s pa, atp := w 6,
      vlcap := w 7 &&& maskAt 64 0 7, srseed := w 8, srbase := w 9, rasBase := w 10, rasSpill := w 10, rasEnd := w 11,
      region := region, imgbase := imgBase s region slot }
    r := { Gregs.zero with g := launchG s pa t n arg, c := caps }
    loader := ld
    storer := { roustImage s (tabAddr (w 17)) with kc := kcOf 8 }
    q := { placeBinds Queues.empty binds with stages := stageStart (recLinks s pa) t }
    ss := sideOf (w 13)
    spsize := recSp s pa }

end Sys2Proof.Machine
end

