-- ==== Sys2Proof/Machine/Placement.lean ====
section
/-! DEFINITION. Placement of gangs (R320 to R324), contexts that leave and enter cores (R44, R255, R312, R323), the ends of
contexts and gangs, pre-emption (R411 to R414), and the switch of a deque to another region (R316, R317). -/

namespace Sys2Proof.Machine

/-! ### Gangs by number -/

/-- A gang, if there is one. -/
def gang? (s : State) (g : Nat) : Option Gang := lookupKey g s.gangs
/-- A gang set. -/
def setGang (s : State) (g : Nat) (x : Gang) : State := { s with gangs := insertKey g x s.gangs }
/-- A gang changed, if it is there. -/
def modGang (s : State) (g : Nat) (f : Gang → Gang) : State :=
  match gang? s g with
  | some x => setGang s g (f x)
  | none => s
/-- A gang forgotten, with its links. -/
def dropGang (s : State) (g : Nat) : State := { s with gangs := eraseKey g s.gangs, links := eraseKey g s.links }

/-- A gang made and put into its region's placement queue, at the head or the tail (R321). -/
def queueGang (s : State) (x : Gang) (atHead : Bool) : State :=
  let g := s.gangNext
  let s := setGang { s with gangNext := g + 1 } g x
  s.modRegion x.region (fun r => { r with placeq := if atHead then g :: r.placeq else r.placeq ++ [g] })

/-- A gang taken out of its region's placement queue. -/
def unqueueGang (s : State) (g : Nat) : State :=
  match gang? s g with
  | some x => s.modRegion x.region (fun r => { r with placeq := r.placeq.filter (fun h => h != g) })
  | none => s

/-- The aim of a gang taken back from every core. -/
def unaim (s : State) (g : Nat) : State :=
  { s with cores := s.cores.map (fun p =>
      if p.2.aims.contains g then
        (p.1, { p.2 with aims := p.2.aims.filter (fun h => h != g),
                         accepted := if p.2.accepted = some g then none else p.2.accepted })
      else p) }

/-- A waiting context leaves a gang of several that would place it: the others are placed without it (R324, R414). -/
def leaveGang (s : State) (slot : Nat) : State :=
  let gs := s.regions.flatMap (fun p => p.2.placeq.filter (fun g => match gang? s g with
    | some x => (match x.kind with
      | .contexts sl => sl.contains slot && decide (2 ≤ sl.length)
      | .record _ => false)
    | none => false))
  gs.foldl (fun s g =>
    modGang (unaim s g) g
      (fun x => match x.kind with
        | .contexts sl =>
          let rest := sl.filter (fun k => k != slot)
          { x with kind := .contexts rest, n := rest.length, cores := [] }
        | .record _ => x)) s

/-- The gangs that would place exactly one waiting context leave their queues: it waits for a core no more. -/
def unqueueCtx (s : State) (slot : Nat) : State :=
  let gs := s.regions.flatMap (fun p => p.2.placeq.filter (fun g => match gang? s g with
    | some x => (match x.kind with
      | .contexts sl => sl == [slot]
      | .record _ => false)
    | none => false))
  gs.foldl (fun s g =>
    let s := unqueueGang (modGang (unaim s g) g (fun x => { x with cores := [] })) g
    if (s.ctxAt slot).gang = g then s else dropGang s g) (leaveGang s slot)

/-- The gang that places contexts (R323, R338, R414). -/
def contextGang (slots : List Nat) (region die : Nat) (cosched : Bool) : Gang :=
  { kind := .contexts slots, region := region, n := slots.length, anydie := false, die := die, cosched := cosched,
    fuse := false, arg := none, packet := none, cores := [], slots := slots, running := false }

/-- The gang of a launch record, as its RSTATE asks (R314). -/
def recordGang (s : State) (region pa : Nat) (arg : Option Word) (packet : Option (Nat × Nat)) : Gang :=
  let w := recW s pa 0
  { kind := .record pa, region := region, n := max 1 (field w 8 5), anydie := bit w 20, die := field w 18 2,
    cosched := bit w 17, fuse := bit w 16, arg := arg, packet := packet, cores := [], slots := [], running := false }

/-- The free context slots of a region, lowest first (R308). -/
def freeSlots (s : State) (region : Nat) : List Nat :=
  let r := s.regionAt region
  ((List.range r.slotN).map (r.slot0 + ·)).filter (fun k => decide (k < 16384) && (s.ctx? k).isNone)

/-- The part's own state of a record set (R314), a write of its word: the granule's tag clears (R76), a snapshot's page is copied
first (R432), and whoever watches the line wakes. -/
def putRec (s : State) (pa state : Nat) (inq : Bool) : State :=
  let l := lineOf pa
  let s := sideMark (sideFill (snapBefore s l) l 0) l 0
  touch ({ s with tags := eraseNat (pa / 16) s.tags }.setRec pa { state := state, inq := inq }) l

/-! ### Leaving a core -/

/-- A tile slot as a context leaves its core with it (R255): a pewter tile will be read again. -/
def leaveTile (t : Tile) : Tile := if t.valid && !t.scratch then { t with pend := true } else t

/-- Level-one caches of a cluster written back to level two and emptied (R44, R427). -/
def flushL1 (s : State) (cores : List Nat) : State :=
  cores.foldl (fun s k =>
    let s := ((s.coreAt k).l1.map (·.1)).foldl (fun s l => evict1 s k l) s
    s.modCore k (fun c => { c with l1 := [] })) s

/-- A cluster fused by a gang, or unfused: its level-one caches are emptied first (R44). -/
def setFused (s : State) (cl : Nat) (g : Option Nat) : State :=
  (flushL1 s (coresOf cl)).modCluster cl (fun c => { c with fused := g })

/-- A cluster unfused once no thread of its fusing gang lies on it (R44). -/
def unfuseIdle (s : State) (cl : Nat) : State :=
  match (s.clusterAt cl).fused with
  | none => s
  | some g =>
    let held := (coresOf cl).any (fun k => match (s.coreAt k).slot with
      | some sl => (s.ctxAt sl).gang == g
      | none => false)
    if held then s else setFused s cl none

/-- The tags outside `[lo, lo + n)`. -/
def tagErase (t : List Nat) (lo n : Nat) : List Nat :=
  t.filter (fun g => decide (16 * g < lo) || decide (lo + n ≤ 16 * g))

/-- The started commands that a context pushed, paused or going on: of these, link commands alone heed it (R328). -/
def pauseCmds (s : State) (slot : Nat) (b : Bool) : State :=
  { s with engines := s.engines.map (fun p =>
      (p.1, { p.2 with cmds := p.2.cmds.map (fun c =>
        if c.slot = slot && c.started then { c with paused := b } else c) })) }

/-- A context leaves its core (R323): its core and scratchpad grants return; the session that protects it has left its traces
there (R427). -/
def departCore (s : State) (slot : Nat) : State :=
  let c := s.ctxAt slot
  match c.core with
  | none => s
  | some k =>
    let traces := match protectorOf s c.h.region with
      | some j => some j
      | none => (s.coreAt k).traces
    let s := pauseCmds s slot true
    let s := s.modCtx slot (fun c => { c with
      core := none, home := dieOf k
      mx := { c.mx with slot0 := leaveTile c.mx.slot0, slot1 := leaveTile c.mx.slot1 } })
    let s := s.modCore k (fun x => { x with slot := none, traces := traces })
    let s := budgetGive (budgetGive s c.h.region 0 1) c.h.region 2 c.spsize
    unfuseIdle s (clusterOf k)

/-- A resident context's images and allotment go to its save area (R100, R312); without one in ordinary memory they stay with
the context. -/
def saveCtx (s : State) (slot : Nat) : State :=
  let c := s.ctxAt slot
  match c.core with
  | none => s
  | some k =>
    let b := allotBase k c.spsize
    let n := 1024 * c.spsize
    if saveFits s c then copyBulk (imagesOut s slot) b (allotArea c) n 0 0
    else s.modCtx slot (fun c => { c with allot := memSlice s.mem b n, allotTags := tagSlice s.tags b n })

/-- A context leaves its core and lives on. -/
def leaveCore (s : State) (slot : Nat) : State := departCore (saveCtx s slot) slot

/-- A slot number that no context takes (R407). -/
def noSlot : Nat := 0xFFFF

/-- The commands of a context that is gone belong to no slot: what they post is lost (R287 keeps it with the context). -/
def orphan (s : State) (slot : Nat) : State :=
  { s with engines := s.engines.map (fun p =>
      (p.1, { p.2 with cmds := p.2.cmds.map (fun c => if c.slot = slot then { c with slot := noSlot } else c) })) }

/-- A context that is gone: every grant returned, its frame as of a slot without one (R87, R323). Page requests have no waiter
there any more (R409), and those who await its ending go on (R344, R363). -/
def endCtx (s : State) (slot : Nat) : State :=
  let c := s.ctxAt slot
  let s := laneGive (laneWithdraw s slot) slot
  let s := departCore s slot
  let s := budgetGive s c.h.region 3 (c.ss.slots * 2 ^ c.ss.lp)
  let leave (r : Request) : Request := { r with waiters := r.waiters.filter (fun w => w.slot != slot) }
  let s := { s with ctxs := eraseKey slot s.ctxs, requests := s.requests.map leave }
  let s := orphan (s.mapCtxs (fun _ c => { c with awaits := c.awaits.filter (fun k => k != slot) })) slot
  { s with troupes := s.troupes.map (fun p =>
      if p.2.owner = slot then (p.1, { p.2 with ownerEnded := true }) else p) }

/-! ### Free cores, grants -/

/-- Is a core power-gated, itself or with its cluster (R427)? -/
def gatedCore (s : State) (k : Nat) : Bool := s.gated.contains (.core k) || s.gated.contains (.cluster (clusterOf k))

/-- Is a core free for placement (R320)? A power-gated one is powered up first (R427). -/
def coreFree (s : State) (k : Nat) : Bool :=
  corePresent s k && !gatedCore s k && (match (s.coreAt k).slot with
    | none => true
    | some sl => (s.ctxAt sl).h.run == 0)

/-- What a gang asks of the core, scratchpad and sideshow budgets (R310). A record's contexts each hold their own path
queues. -/
def gangNeeds (s : State) (x : Gang) : List (Fin 6 × Nat) :=
  match x.kind with
  | .record pa => [(0, x.n), (2, x.n * recSp s pa), (3, x.n * sideEntries (recW s pa 13))]
  | .contexts slots => [(0, slots.length), (2, (slots.map (fun k => (s.ctxAt k).spsize)).sum)]

/-- Do all grants stand at a region and its ancestors? -/
def roomAll (s : State) (r : Nat) (needs : List (Fin 6 × Nat)) : Bool := needs.all (fun p => budgetRoom s r p.1 p.2)
/-- All grants taken. -/
def takeAll (s : State) (r : Nat) (needs : List (Fin 6 × Nat)) : State :=
  needs.foldl (fun s p => budgetTake s r p.1 p.2) s

/-- The stopped contexts of cores leave them (R323). -/
def clearCores (s : State) (cores : List Nat) : State :=
  cores.foldl (fun s k => match (s.coreAt k).slot with
    | some sl => leaveCore s sl
    | none => s) s

/-- Can a gang start on cores, once their stopped contexts have left (R321)? -/
def canStart (s : State) (x : Gang) (cores : List Nat) : Bool :=
  let s := clearCores s cores
  roomAll s x.region (gangNeeds s x) && (match x.kind with
    | .record _ => decide (x.n ≤ (freeSlots s x.region).length)
    | .contexts _ => true)

/-- The cores of the first free shape on which a waiting gang can start now (R321). -/
def gangPlace (s : State) (x : Gang) : Option (List Nat) :=
  (freeShapes (coreFree s) (diesOf x.anydie x.die) x.n).find? (canStart s x)

/-- Heads of the placement queues in the order in which a placer considers them (R321): priority, then arrival. -/
def placeHeads (s : State) : List (Nat × Gang) :=
  let heads := s.regions.filterMap (fun p => p.2.placeq.head?.bind (fun g => (gang? s g).map (fun x => (g, x))))
  sortBy (fun a b => decide (effPrio s b.2.region < effPrio s a.2.region) ||
    (decide (effPrio s a.2.region = effPrio s b.2.region) && decide (a.1 ≤ b.1))) heads

/-! ### Deques of cores that change their region (R45, R316, R317) -/

/-- The scratchpad address of deque entry `j` of core `k`. -/
def dqEntryAt (s : State) (k : Nat) (j : BitVec 32) : Nat :=
  let (cap, b, _) := dqArea (s.coreAt k).dqcfg
  spadOf k + b + 16 * (j.toNat % max 1 cap)

/-- A deque entry: region, record index, argument (R316). -/
def dqEntry (s : State) (k : Nat) (j : BitVec 32) : Nat × Nat × Word :=
  let a := dqEntryAt s k j
  let w := pkgWord s a
  (field w 32 12, field w 0 16, pkgWord s (a + 8))

/-- The address of a record of a region (R313). -/
def recordAt (s : State) (region i : Nat) : Nat := (s.regionAt region).pool.toNat + 256 * i

/-- Lines of a dirty set carried from core `k` to a scope (R134). -/
def pushLines (s : State) (k : Nat) (lines : List Nat) (sc : Scope) : State :=
  lines.foldl (fun s l =>
    let s := propagate s k l sc
    match sc with
    | .pkg | .sys => (match s.l2Line (dieOf k) l with
      | some x => if x.writers.contains k then evict2 s (dieOf k) l else s
      | none => s)
    | _ => s) s

/-- The dirty set kept with an entry. -/
def dirtyOf (s : State) (k : Nat) (j : BitVec 32) : List Nat :=
  (((s.coreAt k).dirty.find? (fun d => d.place == j.toNat)).map (·.lines)).getD []

/-- The entries of a core's deque, oldest first, go to the tails of their regions' placement queues (R317). -/
def drainDeque (k : Nat) : Nat → State → State
  | 0, s => s
  | fuel + 1, s =>
    let c := s.coreAt k
    if c.top = c.bottom then s
    else
      let (r, i, arg) := dqEntry s k c.top
      let pa := recordAt s r i
      let s := pushLines s k (dirtyOf s k c.top) .pkg
      let s := putRec s pa 2 false
      let s := queueGang s (recordGang s r pa (some arg) none) false
      drainDeque k fuel (s.modCore k (fun c => { c with
        top := c.top + 1
        dirty := c.dirty.filter (fun d => d.place != c.top.toNat) }))

/-- A core begins to serve a region (R45, R316): entries move away, the registers load, the counters start at 0. -/
def serveRegion (s : State) (k region : Nat) : State :=
  if (s.coreAt k).region = region then s
  else
    let c := s.coreAt k
    let s := if (dqArea c.dqcfg).1 = 0 then s else drainDeque k (c.bottom - c.top).toNat s
    let cfg := effDqcfg s region
    s.modCore k (fun c => { c with region := region, dqcfg := cfg, top := 0, bottom := 0, dirty := [] })

/-! ### Entering a core -/

/-- Scratchpad bytes and tags of a range zeroed; whole lines lose their poison (R443). -/
def zeroSpad (s : State) (lo n : Nat) : State :=
  { s with mem := memErase s.mem lo n, tags := tagErase s.tags lo n
           poison := s.poison.filter (fun l => decide (64 * l < lo) || decide (lo + n < 64 * l + 64)) }

/-- A context becomes resident on core `k` (R312): the scratchpad outside the deque area is zeroed, the allotment
returns; its lanes are asked for again (R181). Its grants have been taken. -/
def enterCore (s : State) (k slot : Nat) : State :=
  let c := s.ctxAt slot
  let s := serveRegion s k c.h.region
  let (cap, b, lim) := dqArea (s.coreAt k).dqcfg
  let s := if cap = 0 then zeroSpad s (spadOf k) (2 ^ 20)
    else zeroSpad (zeroSpad s (spadOf k) b) (spadOf k + lim) (2 ^ 20 - lim)
  let a := allotBase k c.spsize
  let n := 1024 * c.spsize
  let s := if c.saved then copyBulk s (allotArea c) a n 0 0
    else { s with
      mem := c.allot.foldl (fun (m : Bytes) (x : Nat × Byte) => memPut m (a + x.1) x.2) s.mem
      tags := c.allotTags.foldl (fun (t : List Nat) (g : Nat) => insertNat (a / 16 + g) t) s.tags }
  let s := s.modCore k (fun x => { x with
    slot := some slot, aims := [], accepted := none, idle := false, early := [], ahead := [] })
  let s := pauseCmds s slot false
  laneRegrant (s.modCtx slot (fun c => { imagesIn s slot c with core := some k, allot := [], allotTags := [] })) slot

/-! ### The start step (R321, R322) -/

/-- Has every core that a gang is aimed at accepted, and is every one still free? -/
def allAccepted (s : State) (g : Nat) (x : Gang) : Bool :=
  !x.cores.isEmpty && x.cores.all (fun k =>
    (s.coreAt k).accepted == some g && coreFree s k)

/-- Has a core declined the placement of a gang aimed at it: it has been taken, or has accepted another (R321)? -/
def declined (s : State) (g : Nat) (x : Gang) : Bool :=
  x.cores.any (fun k => !(s.coreAt k).aims.contains g || !coreFree s k || (s.coreAt k).accepted.any (fun h => h != g))

/-- A placement withdrawn from every core: the gang stands at the head of its queue again (R321). -/
def withdraw (s : State) (g : Nat) (x : Gang) : State :=
  let s := setGang (unaim s g) g { x with cores := [] }
  s.modRegion x.region (fun r =>
    if r.placeq.contains g then { r with placeq := g :: r.placeq.filter (fun h => h != g) } else r)

/-- Do traces of another session stand on a core, or will its stopped context leave some (R427)? -/
def mustScrub (s : State) (k region : Nat) : Bool :=
  let own := protectorOf s region
  let sit := match (s.coreAt k).slot with
    | some sl => protectorOf s (s.ctxAt sl).h.region
    | none => none
  let other (t : Option Nat) : Bool := t.isSome && t != own
  other (s.coreAt k).traces || other sit

/-- Bytes of a core's storage that a scrub zeroes (R427): its scratchpad, the registers and queues of the image pages, two tile
slots, three chain vectors, the stores of two roustabouts (notes/assumptions/71.md). -/
def scrubBytes : Nat := 2 ^ 20 + 0x9000 + 2 * 0x9000 + 3 * 1024 + 4 * 16384

/-- The units of a core zeroed (R427), their bytes charged to scrubbing (R438): level one written back and emptied, the deque's
entries moved away (R317), the scratchpad. The registers, queues and stores of the context that left stand in its own frame. -/
def scrubCore (s : State) (k : Nat) : State :=
  let c := s.coreAt k
  let s := if (dqArea c.dqcfg).1 = 0 then s else drainDeque k (c.bottom - c.top).toNat s
  let s := flushL1 s (homesOf s k)
  chargeWork ((zeroSpad s (spadOf k) (2 ^ 20)).modCore k (fun c => { c with traces := none })) 1 scrubBytes

/-- Cause LAUNCH (R329). -/
def cLaunch : BitVec 16 := 0x500

/-- The record of a launch that faulted (R322, R329): posted to the region's fault domain with the slot of thread 0, or left to
wait (R107). -/
def postLaunch (s : State) (region slot pa : Nat) (inner : BitVec 16) : State :=
  let ws : List Word := [BitVec.ofNat 64 (region <<< 32 ||| slot <<< 16 ||| cLaunch.toNat), 0, 0, BitVec.ofNat 64 pa,
    inner.setWidth 64, 0, 0, 0]
  let wait := { s with launchRecs := s.launchRecs ++ [{ slot := slot, region := region, words := ws }] }
  match faultQueue s treeFuel region with
  | some q => if queueFull (s.queueAt q) then wait else postRecord s q ws
  | none => { wait with notes := s.notes ++ [.trapPending slot] }

/-- A packet whose record ended: how it stands for its completion (R384). -/
def packetEnds (s : State) (p : Option (Nat × Nat)) (status : Nat) : State :=
  match p with
  | none => s
  | some (q, i) =>
    s.modQueue q (fun h => { h with taken := h.taken.map (fun k =>
      if k.index.toNat = i then { k with stage := .completed, status := status } else k) })

/-- A placement withdrawn because its record cannot be read (R322): cause LAUNCH, the record IDLE, its packet BADREC. -/
def failLaunch (s : State) (g : Nat) (x : Gang) (pa : Nat) (inner : BitVec 16) : State :=
  let slot := (freeSlots s x.region).headD 0
  let s := unqueueGang (unaim s g) g
  let s := putRec s pa 0 false
  dropGang (packetEnds (postLaunch s x.region slot pa inner) x.packet 4) g

/-- The whole clusters among a gang's cores are fused for it (R44). -/
def fuseWhole (s : State) (g : Nat) (cores : List Nat) : State :=
  (cores.map clusterOf).dedup.foldl (fun s cl =>
    if (coresOf cl).all (fun k => cores.contains k) then setFused s cl (some g) else s) s

/-- The acquire scope that a packet carries for its launch (R383). -/
def packetAcq (s : State) (x : Gang) : Option Scope :=
  match x.packet with
  | none => none
  | some (q, i) =>
    ((s.queueAt q).taken.find? (fun k => k.index.toNat == i)).map
      (fun k => scopeOfCode (field (k.copy.toList.getD 0 0) 55 3) .sys)

/-- The contexts of a record's threads made in the lowest free slots, on their cores: the record is read whole before any core's
scratchpad is zeroed (R312, R322). -/
def makeThreads (s : State) (g : Nat) (x : Gang) (pa : Nat) : State :=
  let slots := (freeSlots s x.region).take x.n
  let made := (x.cores.zip slots).zipIdx.map (fun p => (p.1, { launchCtx s x.region pa p.1.2 p.2 x.n x.arg with
    gang := g, firstAcq := if x.packet.isSome then none else some .sys }))
  let links := recLinks s pa
  let s := made.foldl (fun s p => enterCore (s.setCtx p.1.2 p.2) p.1.1 p.1.2) s
  let s := { s with links := if links.isEmpty then s.links else insertKey g links s.links }
  putRec (setGang s g { x with slots := slots, running := true }) pa 3 false

/-- The cores of threads that return, noted in the gang that they belong to. -/
def noteCores (s : State) (cores slots : List Nat) : State :=
  (cores.zip slots).foldl (fun s p =>
    modGang s (s.ctxAt p.2).gang (fun y => { y with
      running := true
      cores := if y.cores.length = y.slots.length then
          y.cores.set (y.slots.idxOf p.2) p.1 else y.slots.map (fun z => if z = p.2 then p.1 else 0) })) s

/-- The start step of a gang on the cores that accepted it (R321). -/
def startGang (s : State) (g : Nat) (x : Gang) : State :=
  let acq := packetAcq s x
  let s := clearCores s x.cores
  let s := takeAll s x.region (gangNeeds s x)
  let s := unqueueGang s g
  let s := match acq with
    | some sc => x.cores.foldl (fun s k => acquire s k sc) s
    | none => s
  match x.kind with
  | .record pa =>
    let s := if x.fuse then fuseWhole s g x.cores else s
    makeThreads s g x pa
  | .contexts slots =>
    let own := (s.ctxAt (slots.headD 0)).gang
    let s := match gang? s own with
      | some y => if y.fuse then fuseWhole s own x.cores else s
      | none => s
    let s := (x.cores.zip slots).foldl (fun s p => enterCore s p.1 p.2) s
    if own = g then setGang s g { x with running := true }
    else dropGang (noteCores s x.cores slots) g

/-- GANG_START (R321): when every core has accepted; a fault in the record withdraws it (R322), missing grants make it
wait, the scrub of other sessions' traces comes first (R427), and no context of a closed or handed-off session starts (R419,
R428). -/
def execGangStart (gang : Nat) (s : State) : Out :=
  match gang? s gang with
  | none => .next s
  | some x =>
    if x.running || runBarred s x.region || !allAccepted s gang x || x.cores.any (fun k => mustScrub s k x.region) then .next s
    else
      match x.kind with
      | .record pa =>
        match recFault s x.region pa with
        | some f => .next (failLaunch s gang x pa f)
        | none =>
          if !recValid s x.region pa then .next (failLaunch s gang x pa 0)
          else if canStart s x x.cores then .next (startGang s gang x)
          else .next (withdraw s gang x)
      | .contexts _ => if canStart s x x.cores then .next (startGang s gang x) else .next (withdraw s gang x)

/-- PLACEMENT_AIM (R321): the placer of a die aims the head gang of a region's queue, when no head that it considers
before it can be placed. -/
def execPlacementAim (die region : Nat) (s : State) : Out :=
  let heads := (placeHeads s).filter (fun h => h.2.cores.isEmpty && (diesOf h.2.anydie h.2.die).contains die)
  match heads.find? (fun h => (gangPlace s h.2).isSome) with
  | none => .next s
  | some (g, x) =>
    if x.region ≠ region then .next s
    else
      match gangPlace s x with
      | none => .next s
      | some cores =>
        let s := setGang s g { x with cores := cores }
        .next (cores.foldl (fun s k => s.modCore k (fun c => { c with aims := c.aims ++ [g] })) s)

/-- PLACEMENT_WITHDRAW (R321): a core that the gang is aimed at declines. -/
def execPlacementWithdraw (gang : Nat) (s : State) : Out :=
  match gang? s gang with
  | none => .next s
  | some x =>
    .next (if !x.running && declined s gang x then withdraw s gang x else s)

/-! ### Ends -/

/-- Have all threads of a gang halted with HALT (R323)? -/
def gangHalted (s : State) (x : Gang) : Bool :=
  !x.slots.isEmpty && x.slots.all (fun k => match s.ctx? k with
    | some c => c.h.run == 0 && c.h.cause == cHalt && c.trap.isNone
    | none => true)

/-- A completion word decremented at .sys (R323). -/
def stepDone (s : State) (a : Nat) : State := if a = 0 then s else pkgPut s a (pkgWord s a - 1)

/-- A sibling has ended: its troupe slot returns (R330, R340). -/
def siblingEnded (s : State) (c : Ctx) : State :=
  match c.member with
  | none => s
  | some (t, i) =>
    match lookupKey t s.troupes with
    | none => s
    | some x =>
      let sibs := modifyAt x.sibs i (fun b => { b with ended := true })
      budgetGive { s with troupes := insertKey t { x with sibs := sibs } s.troupes } c.h.region 4 1

/-- The descriptor state of a segment set (R355). -/
def setDstate (s : State) (r id st : Nat) : State := pkgPut s (descAt s r id) (setField (dstate s r id) 0 3 st)

/-- A sibling without the descriptor `id`, which is free (R372). -/
def forgetDesc (id : Nat) (b : Sib) : Sib := if b.desc = some id then { b with desc := none } else b

/-- A descriptor becomes FREE, and its segment slot returns (R357). -/
def freeDesc (s : State) (r id : Nat) : State :=
  let s := budgetGive (setDstate s r id 0) r 5 1
  { s with troupes := s.troupes.map (fun p =>
      if p.2.region = r then (p.1, { p.2 with sibs := p.2.sibs.map (forgetDesc id) }) else p) }

/-- The context of a gang of one that is not a record's ends: a sibling (R340), or a segment, whose descriptor becomes
HALTED (R367), or FREE when it was pruned (R364); that of an empty chain holds no descriptor any more (R362). -/
def endSingle (s : State) (slot : Nat) : State :=
  let c := s.ctxAt slot
  let s := siblingEnded s c
  let s := if c.spec then (if c.pruned then freeDesc s c.h.region c.segId else setDstate s c.h.region c.segId 3) else s
  dropGang (endCtx s slot) c.gang

/-- The commands that a packet's gang has pushed are noted for its completion (R384). -/
def oweTo (s : State) (slots : List Nat) (p : Option (Nat × Nat)) : State :=
  { s with engines := s.engines.map (fun e =>
      (e.1, { e.2 with cmds := e.2.cmds.map (fun c => if slots.contains c.slot then { c with owes := p } else c) })) }

/-- GANG_END (R323). -/
def execGangEnd (gang : Nat) (s : State) : Out :=
  match gang? s gang with
  | none => .next s
  | some x =>
    if !x.running || !gangHalted s x then .next s
    else
      match x.kind with
      | .record pa =>
        let s := oweTo s x.slots x.packet
        let s := x.slots.foldl endCtx s
        let s := stepDone s (tabAddr (recW s pa 20))
        let s := putRec s pa 0 false
        .next (packetEnds (dropGang s gang) x.packet 0)
      | .contexts slots => .next (slots.foldl (fun s k => if (s.ctx? k).isSome then endSingle s k else s) s)

/-- SIBLING_END (R340): a sibling that has halted with HALT, or that a cancel has stopped (R344), ends; a pruned one ends by
PRUNED_SEGMENT_END (R364). -/
def execSiblingEnd (slot : Nat) (s : State) : Out :=
  match s.ctx? slot with
  | none => .next s
  | some c =>
    if c.member.isSome && !c.pruned && c.h.run == 0 && (c.ending || (c.h.cause == cHalt && c.trap.isNone)) then
      .next (endSingle s slot)
    else .next s

/-! ### Pre-emption (R324, R411 to R414) -/

/-- The contexts that a pre-emption of one is requested for: a cosched gang's threads together (R324). -/
def preemptSet (s : State) (slot : Nat) : List Nat :=
  match gang? s (s.ctxAt slot).gang with
  | some x => if x.cosched then x.slots else [slot]
  | none => [slot]

/-- Pre-emption requested of a context and its cosched companions; a parked thread wakes (R413). -/
def requestPreempt (s : State) (slot : Nat) : State :=
  (preemptSet s slot).foldl (fun s k => s.modCtx k (fun c =>
    if c.core.isSome && c.h.run != 0 && c.halt.isNone then
      { c with halt := some .preempt, parked := none, hit := false } else c)) s

/-- Is there a context of the region that has RUN = 1 and waits for a core (R158)? -/
def waitingContext (s : State) (region slot : Nat) : Bool :=
  (s.regionAt region).placeq.any (fun g => match gang? s g with
    | some x => (match x.kind with
      | .contexts slots => slots.any (fun k => k != slot && (s.ctxAt k).h.run == 1 && (s.ctxAt k).core.isNone)
      | .record _ => false)
    | none => false)

/-- YIELD (R158). -/
def execYieldCore (x : MArgs) (s : State) : Out :=
  scalarStep x.m (do
    advance x.m
    let s ← get
    if waitingContext s s.cur.h.region s.slot then modify (fun s => requestPreempt s s.slot) else pure ()) s

/-- The halted threads of a pre-emption leave their cores and wait for placement (R324, R414). -/
def leavePreempted (s : State) (slots : List Nat) (region : Nat) (cosched : Bool) : State :=
  let die := match (s.ctxAt (slots.headD 0)).core with
    | some k => dieOf k
    | none => (s.ctxAt (slots.headD 0)).home
  let s := slots.foldl (fun s k => (leaveCore s k).modCtx k (fun c => { c with halt := none })) s
  queueGang s (contextGang slots region die cosched) false

/-- A context that has halted for a pre-emption leaves its core; one of a cosched gang leaves when every thread of the gang that
runs has halted so (R324, R414). -/
def leaveAway (s : State) (slot : Nat) : State :=
  let c := s.ctxAt slot
  match gang? s c.gang with
  | some x =>
    if x.cosched then
      let live := x.slots.filter (fun k => (s.ctxAt k).h.run != 0 && (s.ctxAt k).core.isSome)
      if live.all (fun k => (s.ctxAt k).halt == some .away) then leavePreempted s live c.h.region true else s
    else leavePreempted s [slot] c.h.region false
  | none => leavePreempted s [slot] c.h.region false

/-- PREEMPT_HALT (R413): the halt, CAUSE unchanged, and the leave; a halted thread of a cosched gang looks again whether the
others have halted or stopped. -/
def execPreemptHalt (slot : Nat) (s : State) : Out :=
  match s.ctx? slot with
  | none => .next s
  | some c =>
    if c.h.run == 0 || c.core.isNone then .next s
    else
      match c.halt with
      | some .preempt =>
        if haltWaits s slot then .next s
        else
          .next (leaveAway ((haltStep s slot).modCtx slot (fun c =>
            { c with halt := some .away, parked := none, hit := false, car := { c.car with buffer := [] } })) slot)
      | some .away => .next (leaveAway s slot)
      | _ => .next s

/-- Would a context be displaced for a region of a priority (R412)? -/
def displaceable (s : State) (prio : Nat) (k : Nat) : Bool :=
  match (s.coreAt k).slot with
  | some sl => decide ((s.ctxAt sl).h.run ≠ 0) && decide (effPrio s (s.ctxAt sl).h.region < prio)
  | none => false

/-- The contexts that a placement on cores would displace. -/
def displacedBy (s : State) (prio : Nat) (cores : List Nat) : List Nat :=
  (cores.filter (displaceable s prio)).filterMap (fun k => (s.coreAt k).slot)

/-- Does a shape become possible for a gang only by displacing contexts, the budgets holding then (R412)? -/
def displaces (s : State) (prio : Nat) (x : Gang) (cores : List Nat) : Bool :=
  let out := displacedBy s prio cores
  let gone := (out.map (preemptSet s)).flatten.dedup
  let after := clearCores (gone.foldl leaveCore s) cores
  !out.isEmpty && roomAll after x.region (gangNeeds after x)

/-- PREEMPT_REQUEST (R412): for the head gang of a region's queue, the contexts of strictly lower priority on the first
shape that becomes possible only so, where the budgets would then hold. -/
def execPreemptRequest (die region : Nat) (s : State) : Out :=
  match (s.regionAt region).placeq.head?.bind (fun g => gang? s g) with
  | none => .next s
  | some x =>
    let prio := effPrio s region
    let dies := (diesOf x.anydie x.die)
    if !x.cores.isEmpty || !dies.contains die || (gangPlace s x).isSome then .next s
    else
      let shapes := freeShapes (fun k => coreFree s k || (corePresent s k && displaceable s prio k)) dies x.n
      match shapes.find? (displaces s prio x) with
      | none => .next s
      | some cores => .next ((displacedBy s prio cores).foldl requestPreempt s)

end Sys2Proof.Machine
end

