-- ==== Sys2Proof/Machine/VecOps.lean ====
section
/-! DEFINITION. Elements and groups of vector operands (R173, R174), poison (R190, R191), bound registers and their strips
(R280, R327), and the element-wise forms that the vector families share (R189). -/

namespace Sys2Proof.Machine

/-- The origin of poison: an address and a cause (R190, R415). -/
abbrev Origin := Word × BitVec 16

/-- An element: its bits, and the origin of its poison where it carries any (R190). -/
structure Elem where
  val : Nat
  q : Option Origin
  deriving DecidableEq, Repr

/-- A zero without poison. -/
def Elem.zero : Elem := { val := 0, q := none }

/-- The poison of the first poisoned source (R190). -/
def firstQ : List Elem → Option Origin
  | [] => none
  | x :: rest => if x.q.isSome then x.q else firstQ rest

/-- Cause VPOISON (R212). -/
def cVPoison : BitVec 16 := 0x200
/-- Cause SEGLEN. -/
def cSegLen : BitVec 16 := 0x201
/-- Cause VGROUP. -/
def cVGroup : BitVec 16 := 0x202
/-- Cause BINDTYPE (R289). -/
def cBindType : BitVec 16 := 0x401
/-- Cause BINDWRITE. -/
def cBindWrite : BitVec 16 := 0x402
/-- Cause STREAMEND. -/
def cStreamEnd : BitVec 16 := 0x403
/-- Cause BINDREC. -/
def cBindRec : BitVec 16 := 0x404

/-! ### Groups -/

/-- The group size of an operand of `cnt` elements (R174, R228); none where the registers have no length and elements are
asked. -/
def groupSize (v : Vregs) (cnt w : Nat) : Option Nat :=
  let need := cnt * w
  if need = 0 then some 1
  else if lbits v = 0 then none
  else some (pow2AtLeast (ceilDiv need (lbits v)) 20)

/-- Does an operand's group fit (R174)? -/
def groupFits (v : Vregs) (n : VReg) (cnt w : Nat) : Bool :=
  match groupSize v cnt w with
  | some m => decide (m ≤ 8) && decide (n.val % m = 0) && decide (n.val + m ≤ 32)
  | none => false

/-- The group check of an operand (R174). -/
def checkGroup (n : VReg) (cnt w : Nat) : M Unit := do
  let c ← getCur
  if groupFits c.vr n cnt w then return ()
  else
    let m ← match groupSize c.vr cnt w with
      | some m => pure (BitVec.ofNat 64 m)
      | none => freeVal
    trapD cVGroup (BitVec.ofNat 64 n) m

/-- Bytes of the register that an element of width `w` at bit `b` touches. -/
def elemBytes (w b : Nat) : Nat × Nat := (b / 8, max 1 (w / 8))

/-- The origin of the poison of a register. -/
def originOf (v : Vregs) (r : Nat) : Origin := (v.vo.toList.getD r 0, v.vc.toList.getD r 0)

/-- An element of a register group. -/
def getElem_ (v : Vregs) (n : VReg) (w e : Nat) : Elem :=
  let (r, b) := elemAt v n w e
  let (j, k) := elemBytes w b
  { val := field (v.v.toList.getD r 0) b w
    q := if field (v.vp.toList.getD r 0) j k = 0 then none else some (originOf v r) }

/-- The first `cnt` elements of a group. -/
def groupElemsN (v : Vregs) (n : VReg) (w cnt : Nat) : List Elem := (List.range cnt).map (getElem_ v n w)
/-- The elements 0 to vl − 1 of a group. -/
def groupElems (v : Vregs) (n : VReg) (w : Nat) : List Elem := groupElemsN v n w v.vl.toNat

/-! ### Bound registers (R280) -/

/-- The index of the binding of v24 to v31. -/
def bindIdx (n : VReg) : Fin 8 := Fin.ofNat 8 (n.val - 24)
/-- The binding of a bound register. -/
def boundOf (c : Ctx) (n : VReg) : Option Binding :=
  if n.val < 24 then none
  else
    let b := c.q.binds[bindIdx n]
    if b.bound then some b else none

/-- The strip queue of a binding. -/
def bindQueue (b : Binding) : Fin 8 := Fin.ofNat 8 (field b.word0 8 3)

/-- Is a strip credited (R279)? -/
def credited (c : Ctx) : StripEntry → Bool
  | .strip s n _ sc =>
    decide (n ≤ c.q.stages[s].credit.toNat) && (match sc with
      | some (s', n', _) => decide (n' ≤ c.q.stages[s'].credit.toNat)
      | none => true)
  | .endMark => false

/-- The credited head strip of a bound register: bytes, offset, and its scales (R280). -/
def headStrip (n : VReg) (b : Binding) (code : Nat) : M (Nat × Nat × Option (Nat × Nat)) := do
  let c ← getCur
  match c.q.strips[bindQueue b] with
  | [] => waits
  | .endMark :: _ => trapD cStreamEnd (BitVec.ofNat 64 n) (BitVec.ofNat 64 (bindQueue b))
  | .strip s len a sc :: _ =>
    if !credited c (.strip s len a sc) then waits
    if field b.word0 0 5 ≠ code then trapD cBindType (BitVec.ofNat 64 n) (BitVec.ofNat 64 (field b.word0 0 5))
    return (len, a, sc.map (fun x => (x.2.1, x.2.2)))

/-- Bytes of the acting core's scratchpad from an offset. -/
def spadBytes (s : State) (off n : Nat) : List Byte := memRead s.mem (spadOf s.core + off) n

/-- Bytes of the acting core's scratchpad from an offset, read by a vector instruction in the order of its agent's accesses (R118);
a poisoned line traps MEMERR with its address and a register or path number (R443, notes/assumptions/80.md). -/
def readSpad (off n no : Nat) : M (List Byte) := do
  let pa := spadOf (← get).core + off
  ownFirst pa n
  let s ← get
  match (linesOf pa n).find? s.poison.contains with
  | some l => trapD cMemErr (BitVec.ofNat 64 (max pa (64 * l))) (BitVec.ofNat 64 no)
  | none => return spadBytes s off n

/-- The first `cnt` elements of a source operand of type `t`: its strip where it is bound, else its group. -/
def readN (n : VReg) (t : Ty) (cnt : Nat) : M (List Elem) := do
  let c ← getCur
  let w := t.width
  match boundOf c n with
  | some b =>
    let (len, a, _) ← headStrip n b t.code.toNat
    let x := natOfBytes (← readSpad a len n)
    return (List.range cnt).map (fun e =>
      { val := if e < 8 * len / w then natField x (w * e) w else 0, q := none })
  | none =>
    checkGroup n cnt w
    return groupElemsN c.vr n w cnt

/-- The elements 0 to vl − 1 of a source operand. -/
def readV (n : VReg) (t : Ty) : M (List Elem) := do readN n t (← getCur).vr.vl.toNat

/-- A stage word changed. -/
def modStage (q : Queues) (s : Fin 16) (f : Stage → Stage) : Queues := { q with stages := q.stages.set s (f q.stages[s]) }

/-- The stage word of a context, which stands in its save area while it is away (R100, R287). -/
def stageIn (s : State) (slot : Nat) (st : Fin 16) : Stage := (wordIn s slot (s.ctxAt slot) (0x9F00 + 8 * st.val)).q.stages[st]

/-- A stage word of a context changed, wherever the context is (R287). -/
def creditStage (s : State) (slot : Nat) (st : Fin 16) (f : Stage → Stage) : State :=
  let c := s.ctxAt slot
  if c.saved then
    let y := f (stageIn s slot st)
    frameStoreWord s slot c (0x9F00 + 8 * st.val) ((y.pending ++ y.credit).setWidth 64)
  else s.modCtx slot (fun c => { c with q := modStage c.q st f })

/-- Credit given to stage `u` of the producers of the links whose consumer stage gave up a strip (R327). -/
def creditLinks (s : State) (slot : Nat) (st : Fin 16) (n : Nat) : State :=
  let g := (s.ctxAt slot).gang
  match gang? s g with
  | none => s
  | some x =>
    let me := x.slots.idxOf slot
    (((lookupKey g s.links).getD []).filter (fun l => l.consumer == me && l.cstage == st)).foldl (fun s l =>
      creditStage s (x.slots.getD l.producer 0) l.pstage (fun y => { y with credit := y.credit + BitVec.ofNat 24 n })) s

/-- The head strip of a queue leaves it at the commit (R280). -/
def dropStrip (q : Fin 8) (s : State) : State :=
  match s.cur.q.strips[q] with
  | .strip st n _ sc :: rest =>
    let slot := s.slot
    let give (y : Stage) (k : Nat) : Stage := { pending := y.pending - 1, credit := y.credit - BitVec.ofNat 24 k }
    let s := s.modCur (fun c =>
      let q1 := modStage { c.q with strips := c.q.strips.set q rest } st (fun y => give y n)
      let q2 := match sc with
        | some (st', n', _) => modStage q1 st' (fun y => give y n')
        | none => q1
      { c with q := q2 })
    let s := creditLinks s slot st n
    match sc with
    | some (st', n', _) => creditLinks s slot st' n'
    | none => s
  | _ => s

/-- The strips that an instruction read leave their queues, one from each queue (R280). -/
def takeStrips (regs : List VReg) : M Unit := do
  let c ← getCur
  let qs := ((regs.filterMap (boundOf c)).map bindQueue).dedup
  modify (fun s => qs.foldl (fun s q => dropStrip q s) s)

/-! ### Destinations -/

/-- The registers of a group. -/
def groupRegs (v : Vregs) (n : VReg) (cnt w : Nat) : List VReg :=
  (List.range ((groupSize v cnt w).getD 1)).map (fun i => Fin.ofNat 32 (n.val + i))

/-- The check of a destination group: it fits (R174), and no register of it is bound (R280). -/
def checkDestN (n : VReg) (cnt w : Nat) : M Unit := do
  let c ← getCur
  if (boundOf c n).isNone then checkGroup n cnt w
  match (if (boundOf c n).isSome then [n] else groupRegs c.vr n cnt w).find? (fun r => (boundOf c r).isSome) with
  | some r => trapD cBindWrite (BitVec.ofNat 64 r) 0
  | none => pure ()

/-- The check of a destination group of vl elements. -/
def checkDest (n : VReg) (w : Nat) : M Unit := do checkDestN n (← getCur).vr.vl.toNat w

/-- The poison that a written element leaves in its bytes: a 4-bit element shares its byte with a neighbour, whose poison
stays where the instruction does not write it (R190). -/
def poisonAfter (ws : List (Nat × Elem)) (w e : Nat) (x : Elem) (old : Bool) : Bool :=
  if w = 4 then
    x.q.isSome || (match ws.find? (fun p => p.1 == Nat.xor e 1) with
      | some p => p.2.q.isSome
      | none => old)
  else x.q.isSome

/-- One element written into a group; registers of no length hold nothing. -/
def putElem (n : VReg) (w : Nat) (ws : List (Nat × Elem)) (v : Vregs) (p : Nat × Elem) : Vregs :=
  let (r, b) := elemAt v n w p.1
  let (j, k) := elemBytes w b
  let old := field (v.vp.toList.getD r 0) j k != 0
  let q := poisonAfter ws w p.1 p.2 old
  if lbits v = 0 then v else
  { v with
    v := vset v.v r (setField (v.v.toList.getD r 0) b w p.2.val)
    vp := vset v.vp r (setField (v.vp.toList.getD r 0) j k (if q then 2 ^ k - 1 else 0))
    vo := match p.2.q with
      | some o => vset v.vo r o.1
      | none => v.vo
    vc := match p.2.q with
      | some o => vset v.vc r o.2
      | none => v.vc }

/-- Elements written into a group, in index order. -/
def putElems (n : VReg) (w : Nat) (ws : List (Nat × Elem)) (v : Vregs) : Vregs := ws.foldl (putElem n w ws) v

/-- Elements written into the acting context's group. -/
def writeV (n : VReg) (w : Nat) (ws : List (Nat × Elem)) : M Unit :=
  modifyCur (fun c => { c with vr := putElems n w ws c.vr })

/-- What the guards leave of a list of results: active elements, and zeros for the others in the zeroing form (R189). -/
def guardElems (md : Mods) (zf : Bool) (c : Ctx) (xs : List Elem) : List (Nat × Elem) :=
  xs.zipIdx.filterMap (fun p =>
    if active md c p.2 then some (p.2, p.1) else if zf then some (p.2, Elem.zero) else none)

/-- A predicate written: a bit where given, the tail zero (R175, R189). -/
def writePred (d : PReg) (bits : List (Option Bool)) : M Unit :=
  modifyCur (fun c =>
    if d = 0 then c
    else
      let old := c.vr.p[d].toNat
      let x := bits.zipIdx.foldl (fun acc p =>
        let b := p.1.getD (natField old p.2 1 == 1)
        if b then acc ||| 1 <<< p.2 else acc) 0
      { c with vr := { c.vr with p := c.vr.p.set d (BitVec.ofNat 1024 x) } })

/-! ### Instructions under guards that never pass (R59) -/

/-- Can a destination group of `cnt` elements be written? Nothing traps under a guard that never passes. -/
def destOk (c : Ctx) (d : VReg) (cnt w : Nat) : Bool :=
  groupFits c.vr d cnt w && (groupRegs c.vr d cnt w).all (fun r => (boundOf c r).isNone)

/-- Zeros in the first `cnt` elements of a destination that can be written. -/
def zeroGroup (d : VReg) (cnt w : Nat) : M Unit := do
  if destOk (← getCur) d cnt w then writeV d w ((List.range cnt).map (fun e => (e, Elem.zero))) else pure ()

/-- The zeroing form under a guard that never passes: every element zero, where the destination can be written. -/
def zeroDest (zf : Bool) (d : VReg) (w : Nat) : M Unit := do
  if zf then zeroGroup d (← getCur).vr.vl.toNat w else pure ()

/-- The same for a predicate, whose tail is written 0 in either form (R175). -/
def zeroPred (zf : Bool) (d : PReg) : M Unit := do
  let c ← getCur
  writePred d (List.replicate c.vr.vl.toNat (if zf then some false else none))

/-- A vector instruction: its effect, or what a guard that never passes leaves of it. -/
def vecStep (i : Instr) (md : Mods) (g : Option GReg) (cap : Option CReg) (never eff : M Unit) (s : State) : Out :=
  vectorStep i md g cap (if neverPasses md then never else eff) s

/-! ### Element-wise forms -/

/-- Three lists side by side. -/
def zip3 (a b c : List Elem) : List (Elem × Elem × Elem) := a.zip (b.zip c)

/-- One source: d[e] := f e a[e]. -/
def map1 (md : Mods) (zf : Bool) (d : VReg) (wd : Nat) (a : VReg) (ta : Ty) (f : Nat → Elem → Elem) : M Unit := do
  let xs ← readV a ta
  checkDest d wd
  let c ← getCur
  writeV d wd (guardElems md zf c (xs.zipIdx.map (fun p => f p.2 p.1)))
  takeStrips [a]

/-- Two sources of one type: d[e] := f e a[e] b[e]. -/
def map2 (md : Mods) (zf : Bool) (d : VReg) (wd : Nat) (a b : VReg) (ta : Ty) (f : Nat → Elem → Elem → Elem) :
    M Unit := do
  let xs ← readV a ta
  let ys ← readV b ta
  checkDest d wd
  let c ← getCur
  writeV d wd (guardElems md zf c ((xs.zip ys).zipIdx.map (fun p => f p.2 p.1.1 p.1.2)))
  takeStrips [a, b]

/-- Two sources and the old destination: d[e] := f e a[e] b[e] d[e]. -/
def map2acc (md : Mods) (zf : Bool) (d : VReg) (wd : Nat) (a b : VReg) (ta : Ty)
    (f : Nat → Elem → Elem → Elem → Elem) : M Unit := do
  let xs ← readV a ta
  let ys ← readV b ta
  checkDest d wd
  let c ← getCur
  let old := groupElems c.vr d wd
  writeV d wd (guardElems md zf c ((zip3 xs ys old).zipIdx.map (fun p => f p.2 p.1.1 p.1.2.1 p.1.2.2)))
  takeStrips [a, b]

/-- Three sources, the third of its own type: d[e] := f e a[e] b[e] z[e]. -/
def map3 (md : Mods) (zf : Bool) (d : VReg) (wd : Nat) (a b z : VReg) (ta tz : Ty)
    (f : Nat → Elem → Elem → Elem → Elem) : M Unit := do
  let xs ← readV a ta
  let ys ← readV b ta
  let zs ← readV z tz
  checkDest d wd
  let c ← getCur
  writeV d wd (guardElems md zf c ((zip3 xs ys zs).zipIdx.map (fun p => f p.2 p.1.1 p.1.2.1 p.1.2.2)))
  takeStrips [a, b, z]

/-- The trap of a poisoned element consumed (R191): the register that holds it. -/
def vpoison {α : Type} (n : VReg) (w e : Nat) : M α := do
  let c ← getCur
  let (r, _) := elemAt c.vr n w e
  throw (.trap { cause := cVPoison, party := 1, detail0 := BitVec.ofNat 64 r, detail1 := BitVec.ofNat 64 e,
                 poisonPc := c.vr.vo.toList.getD r 0 })

/-- Active poisoned elements of operands trap, lowest index first, operands in order (R191). -/
def consumeV (md : Mods) (ops : List (VReg × Nat × List Elem)) : M Unit := do
  let c ← getCur
  let bad := (List.range c.vr.vl.toNat).findSome? (fun e =>
    if active md c e then
      (ops.find? (fun o => ((o.2.2[e]?).bind (·.q)).isSome)).map (fun o => (o.1, o.2.1, e))
    else none)
  match bad with
  | some (n, w, e) => vpoison n w e
  | none => pure ()

end Sys2Proof.Machine
end

