-- ==== Sys2Proof/Machine/VecInt.lean ====
section
/-! DEFINITION. The integer vector instructions, VIALU (R194). -/

namespace Sys2Proof.Machine

/-- An element read at an integer type (R145). -/
def exOf (t : Ty) (x : Elem) : Int := extTy t x.val

/-- The element of `n` bits that an exact integer leaves: clamped to the range of `n` bits of a signedness where asked, then
wrapped (R31, R194). -/
def intElem (sg : Bool) (n : Nat) (sat : Bool) (z : Int) : Nat :=
  let lo : Int := if sg then -(2 ^ (n - 1) : Nat) else 0
  let hi : Int := if sg then (2 ^ (n - 1) : Nat) - 1 else (2 ^ n : Nat) - 1
  let z := if sat then (if z < lo then lo else if hi < z then hi else z) else z
  (z % (2 ^ n : Nat)).toNat

/-- The width of a widened destination (R64, R174). -/
def widTo (t : Ty) (wid : BitVec 2) : Nat := t.width * 2 ^ wid.toNat

/-- The per-element value of a two-source instruction: exact, from X, Y, the patterns and the type. -/
abbrev IntFn := Ty → Elem → Elem → Int

/-- A two-source VIALU instruction (R194). -/
def vbin (i : Instr) (x : VBinArgs) (f : IntFn) (s : State) : Out :=
  let nd := widTo x.ty x.wid
  vecStep i x.m none none (zeroDest x.zf x.d nd)
    (map2 x.m x.zf x.d nd x.a x.b x.ty (fun _ a b =>
      { val := intElem x.ty.signed nd x.sat (f x.ty a b), q := firstQ [a, b] })) s

/-- A one-source VIALU instruction. -/
def vun (i : Instr) (x : VUnArgs) (f : Int → Int) (s : State) : Out :=
  vecStep i x.m none none (zeroDest x.zf x.d x.ty.width)
    (map1 x.m x.zf x.d x.ty.width x.a x.ty (fun _ a =>
      { val := intElem x.ty.signed x.ty.width x.sat (f (exOf x.ty a)), q := a.q })) s

/-- The shift amount s of R145 at a width. -/
def shiftOf (t : Ty) (y : Elem) : Nat := y.val % t.width

/-- X + Y. -/
def fAdd : IntFn := fun t a b => exOf t a + exOf t b
/-- X − Y. -/
def fSub : IntFn := fun t a b => exOf t a - exOf t b
/-- X × Y. -/
def fMul : IntFn := fun t a b => exOf t a * exOf t b
/-- floor(X × Y / 2^n). -/
def fMulh : IntFn := fun t a b => exOf t a * exOf t b / (2 ^ t.width : Nat)
/-- P(x) AND P(y). -/
def fAnd : IntFn := fun _ a b => Int.ofNat (a.val &&& b.val)
/-- P(x) OR P(y). -/
def fOr : IntFn := fun _ a b => Int.ofNat (a.val ||| b.val)
/-- P(x) XOR P(y). -/
def fXor : IntFn := fun _ a b => Int.ofNat (Nat.xor a.val b.val)
/-- P(x) AND NOT P(y). -/
def fAndn : IntFn := fun _ a b => Int.ofNat (a.val - (a.val &&& b.val))
/-- X × 2^s. -/
def fShl : IntFn := fun t a b => exOf t a * (2 ^ shiftOf t b : Nat)
/-- floor(P(x) / 2^s). -/
def fShr : IntFn := fun t a b => Int.ofNat (a.val >>> shiftOf t b)
/-- floor(SignExt(x, n) / 2^s). -/
def fSar : IntFn := fun t a b => signExt a.val t.width / (2 ^ shiftOf t b : Nat)
/-- The lesser of X and Y. -/
def fMin : IntFn := fun t a b => min (exOf t a) (exOf t b)
/-- The greater of X and Y. -/
def fMax : IntFn := fun t a b => max (exOf t a) (exOf t b)

/-- VADD (R194). -/
def execVadd (x : VBinArgs) (s : State) : Out := vbin (.vadd x) x fAdd s
/-- VSUB (R194). -/
def execVsub (x : VBinArgs) (s : State) : Out := vbin (.vsub x) x fSub s
/-- VMUL (R194). -/
def execVmul (x : VBinArgs) (s : State) : Out := vbin (.vmul x) x fMul s
/-- VMULH (R194). -/
def execVmulh (x : VBinArgs) (s : State) : Out := vbin (.vmulh x) x fMulh s
/-- VAND (R194). -/
def execVand (x : VBinArgs) (s : State) : Out := vbin (.vand x) x fAnd s
/-- VOR (R194). -/
def execVor (x : VBinArgs) (s : State) : Out := vbin (.vor x) x fOr s
/-- VXOR (R194). -/
def execVxor (x : VBinArgs) (s : State) : Out := vbin (.vxor x) x fXor s
/-- VANDN (R194). -/
def execVandn (x : VBinArgs) (s : State) : Out := vbin (.vandn x) x fAndn s
/-- VSHL (R194). -/
def execVshl (x : VBinArgs) (s : State) : Out := vbin (.vshl x) x fShl s
/-- VSHR (R194). -/
def execVshr (x : VBinArgs) (s : State) : Out := vbin (.vshr x) x fShr s
/-- VSAR (R194). -/
def execVsar (x : VBinArgs) (s : State) : Out := vbin (.vsar x) x fSar s
/-- VMIN (R194). -/
def execVmin (x : VBinArgs) (s : State) : Out := vbin (.vmin x) x fMin s
/-- VMAX (R194). -/
def execVmax (x : VBinArgs) (s : State) : Out := vbin (.vmax x) x fMax s

/-- VABS (R194). -/
def execVabs (x : VUnArgs) (s : State) : Out := vun (.vabs x) x (fun z => Int.ofNat z.natAbs) s
/-- VNEG (R194). -/
def execVneg (x : VUnArgs) (s : State) : Out := vun (.vneg x) x (fun z => -z) s

/-- VMACC (R194): Dold + X × Y; Dold is the third source. -/
def execVmacc (x : VBinArgs) (s : State) : Out :=
  let nd := widTo x.ty x.wid
  vecStep (.vmacc x) x.m none none (zeroDest x.zf x.d nd)
    (map2acc x.m x.zf x.d nd x.a x.b x.ty (fun _ a b o =>
      let old : Int := if x.ty.signed then signExt o.val nd else o.val
      { val := intElem x.ty.signed nd x.sat (old + fMul x.ty a b), q := firstQ [a, b, o] })) s

/-- VSAT (R194): X clamped to the k-bit range. -/
def execVsat (x : VSatArgs) (s : State) : Out :=
  vecStep (.vsat x) x.m none none (zeroDest x.zf x.d x.ty.width)
    (map1 x.m x.zf x.d x.ty.width x.a x.ty (fun _ a =>
      let k := x.k.toNat
      let lo : Int := if x.ty.signed then -(2 ^ (k - 1) : Nat) else 0
      let hi : Int := if x.ty.signed then (2 ^ (k - 1) : Nat) - 1 else (2 ^ k : Nat) - 1
      let z := exOf x.ty a
      { val := intElem x.ty.signed x.ty.width false (if z < lo then lo else if hi < z then hi else z), q := a.q })) s

/-- VSEL (R194): the operand that pC selects, with its poison alone. -/
def execVsel (x : VSelArgs) (s : State) : Out :=
  vecStep (.vsel x) x.m none none (zeroDest x.zf x.d x.ty.width) (do
    let c ← getCur
    map2 x.m x.zf x.d x.ty.width x.a x.b x.ty (fun e a b => if predBit c x.c e then a else b)) s

end Sys2Proof.Machine
end

