-- ==== Sys2Proof/Machine/VecFloat.lean ====
section
/-! DEFINITION. The floating-point vector instructions, VFALU and VFMA (R195 to R197), and the conversions VCVT, VQUANT and
VDEQUANT (R228 to R231). -/

namespace Sys2Proof.Machine

/-- The rounding of an element index: under SR with its random bits (R34, R224). -/
def rmAt (c : Ctx) (r : Rm) (i : Word) : RMode :=
  { rm := r, bits := if r = .sr then srBits c.h.srseed c.h.srbase i % 2 ^ 16 else 0 }

/-- The destination type of a widening form (R195). -/
def fpTo (t : Ty) (wid : BitVec 2) : Ty := if wid = 0 then t else .f32

/-- The value of an element. -/
def fvOf (t : Ty) (x : Elem) : Val := decodeFp t x.val

/-- A rounding VFALU instruction of two sources (R196). -/
def vfbin (i : Instr) (x : VfBinArgs) (f : Val → Val → Val) (s : State) : Out :=
  let td := fpTo x.ty x.wid
  vecStep i x.m none none (zeroDest x.zf x.d td.width) (do
    let c ← getCur
    map2 x.m x.zf x.d td.width x.a x.b x.ty (fun e a b =>
      { val := fpResult td (rmAt c x.rm (BitVec.ofNat 64 e)) x.sat (f (fvOf x.ty a) (fvOf x.ty b))
        q := firstQ [a, b] })) s

/-- VFADD (R195). -/
def execVfadd (x : VfBinArgs) (s : State) : Out := vfbin (.vfadd x) x (fun a b => a.add b (x.rm == .rm)) s
/-- VFSUB (R195). -/
def execVfsub (x : VfBinArgs) (s : State) : Out := vfbin (.vfsub x) x (fun a b => a.add b.negate (x.rm == .rm)) s
/-- VFMUL (R195). -/
def execVfmul (x : VfBinArgs) (s : State) : Out := vfbin (.vfmul x) x Val.mul s
/-- VFDIV (R195). -/
def execVfdiv (x : VfBinArgs) (s : State) : Out := vfbin (.vfdiv x) x Val.div s

/-- Is an element of a floating-point type NaN? -/
def isNan (t : Ty) (c : Nat) : Bool := decodeFp t c == .nan

/-- Is the first value below the second, −0 below +0 (R197)? -/
def fpBelow (t : Ty) (a b : Nat) : Bool :=
  match (decodeFp t a).cmp (decodeFp t b) with
  | .lt => true
  | .gt => false
  | .eq => (decodeFp t a).neg && !(decodeFp t b).neg

/-- VFMIN and VFMAX on codes (R197). -/
def fpPick (t : Ty) (max_ : Bool) (a b : Nat) : Nat :=
  if isNan t a then (if isNan t b then nanOf t else b)
  else if isNan t b then a
  else if fpBelow t b a == max_ then a else b

/-- VFMIN and VFMAX. -/
def vfpick (i : Instr) (x : VTwoArgs) (max_ : Bool) (s : State) : Out :=
  vecStep i x.m none none (zeroDest x.zf x.d x.ty.width)
    (map2 x.m x.zf x.d x.ty.width x.a x.b x.ty (fun _ a b =>
      { val := fpPick x.ty max_ a.val b.val, q := firstQ [a, b] })) s

/-- VFMIN (R197). -/
def execVfmin (x : VTwoArgs) (s : State) : Out := vfpick (.vfmin x) x false s
/-- VFMAX (R197). -/
def execVfmax (x : VTwoArgs) (s : State) : Out := vfpick (.vfmax x) x true s

/-- A one-source instruction on codes without rounding. -/
def vfone (i : Instr) (x : VOneArgs) (f : Nat → Nat) (s : State) : Out :=
  vecStep i x.m none none (zeroDest x.zf x.d x.ty.width)
    (map1 x.m x.zf x.d x.ty.width x.a x.ty (fun _ a => { val := f a.val, q := a.q })) s

/-- VFABS (R197): the sign bit cleared. -/
def execVfabs (x : VOneArgs) (s : State) : Out := vfone (.vfabs x) x (fun a => a % 2 ^ (x.ty.width - 1)) s
/-- VFNEG (R197): the sign bit inverted. -/
def execVfneg (x : VOneArgs) (s : State) : Out := vfone (.vfneg x) x (fun a => Nat.xor a (2 ^ (x.ty.width - 1))) s
/-- VFRSQ (R227). -/
def execVfrsq (x : VOneArgs) (s : State) : Out := vfone (.vfrsq x) x rsqFn s
/-- VFEXP2 (R226). -/
def execVfexp2 (x : VOneArgs) (s : State) : Out := vfone (.vfexp2 x) x exp2Fn s

/-- VFSQRT (R195). -/
def execVfsqrt (x : VfUnArgs) (s : State) : Out :=
  vecStep (.vfsqrt x) x.m none none (zeroDest x.zf x.d x.ty.width) (do
    let c ← getCur
    map1 x.m x.zf x.d x.ty.width x.a x.ty (fun e a =>
      { val := fpResult x.ty (rmAt c x.rm (BitVec.ofNat 64 e)) x.sat (fvOf x.ty a).sqrt, q := a.q })) s

/-- A VFMA instruction (R195): the product and the sum formed exactly and rounded once. -/
def vfma (i : Instr) (x : VfmaArgs) (negProd negZ : Bool) (s : State) : Out :=
  let td := fpTo x.ty x.wid
  vecStep i x.m none none (zeroDest x.zf x.d td.width) (do
    let c ← getCur
    map3 x.m x.zf x.d td.width x.a x.b x.c x.ty td (fun e a b z =>
      let p := (fvOf x.ty a).mul (fvOf x.ty b)
      let p := if negProd then p.negate else p
      let y := fvOf td z
      let y := if negZ then y.negate else y
      { val := fpResult td (rmAt c x.rm (BitVec.ofNat 64 e)) x.sat (p.add y (x.rm == .rm)), q := firstQ [a, b, z] })) s

/-- VFMA: X × Y + Z. -/
def execVfma (x : VfmaArgs) (s : State) : Out := vfma (.vfma x) x false false s
/-- VFMS: X × Y − Z. -/
def execVfms (x : VfmaArgs) (s : State) : Out := vfma (.vfms x) x false true s
/-- VFNMA: −(X × Y) + Z. -/
def execVfnma (x : VfmaArgs) (s : State) : Out := vfma (.vfnma x) x true false s
/-- VFNMS: −(X × Y) − Z. -/
def execVfnms (x : VfmaArgs) (s : State) : Out := vfma (.vfnms x) x true true s

/-! ### Conversions -/

/-- VCVT (R229). -/
def execVcvt (x : VcvtArgs) (s : State) : Out :=
  vecStep (.vcvt x) x.m (some x.b) none (return ()) (do
    let c ← getCur
    let g ← capturedG
    let o := g + x.off.setWidth 64
    map1 x.m false x.d x.dt.width x.a x.st (fun e a =>
      { val := convert x.dt x.st (rmAt c x.rm (o + BitVec.ofNat 64 e)) x.sat a.val, q := a.q })) s

/-- emax of a .mx element type (R230). -/
def emaxOf : Ty → Int
  | .e4m3 => 8
  | .e5m2 => 15
  | .e2m1 => 2
  | _ => 0
/-- vmax of a .fine element type (R230). -/
def vmaxOf : Ty → Nat
  | .e4m3 => 448
  | .e5m2 => 57344
  | _ => 6

/-- The value c × 2^k of a finite value. -/
def Val.scale2 (v : Val) (k : Int) : Val :=
  match v with
  | .fin n m e st => .fin n m (e + k) st
  | w => w

/-- The greater magnitude of two values. -/
def absMax (a b : Val) : Val := if (a.abs.cmp b.abs) == .lt then b.abs else a.abs

/-- floor(log2) of a positive finite value. -/
def floorLog2 : Val → Int
  | .fin _ m e _ => Int.ofNat (Nat.log2 m) + e
  | _ => 0

/-- The scale code of a block (R230). -/
def blockScale (fine : Bool) (te : Ty) (amax : Val) : Nat :=
  if fine then roundFp .s8f rnMode (satFp .s8f (amax.div (Val.ofInt (vmaxOf te))))
  else if amax.isZero then 0
  else (min (max (floorLog2 amax - emaxOf te) (-127)) 127 + 127).toNat

/-- An element of a block under its scale (R230). -/
def quantElem (te : Ty) (r : RMode) (scale : Val) (a : Val) : Nat :=
  if scale.isZero then codeInt te 0 + (if a.neg && !te.isInt then 2 ^ (te.width - 1) else 0)
  else if te = .i8 then codeInt te (roundInt r (satIntVal te ((a.scale2 6).div scale)))
  else fpResult te r true (a.div scale)

/-- A block of VQUANT (R230): its elements and its scale. -/
def quantBlock (fine : Bool) (te ts : Ty) (r : Nat → RMode) (first : Nat) (xs : List Elem) : List Elem × Elem :=
  let q := firstQ xs
  let vs := xs.map (fvOf ts)
  if q.isSome then (xs.map (fun _ => { val := 0, q := q }), { val := 0, q := q })
  else if !vs.all Val.isFin then (xs.map (fun _ => Elem.zero), { val := 0xFF, q := none })
  else
    let amax := vs.foldl absMax (Val.zero false)
    let k := blockScale fine te amax
    let scale := if fine then decodeFp .s8f k else (Val.ofInt 1).scale2 (Int.ofNat k - 127)
    (vs.zipIdx.map (fun p => { val := quantElem te (r (first + p.2)) scale p.1, q := none }), { val := k, q := none })

/-- A list cut into blocks of `n`. -/
def blocksOf {α : Type} (n : Nat) : Nat → List α → List (List α)
  | 0, _ => []
  | fuel + 1, l => if l.isEmpty then [] else l.take n :: blocksOf n fuel (l.drop n)

/-- Block length of a kind (R223). -/
def blockLen (fine : Bool) : Nat := if fine then 16 else 32

/-- VQUANT (R230): whole blocks, by the guard of their first element; of each its scale, then its elements. -/
def execVquant (x : VquantArgs) (s : State) : Out :=
  vecStep (.vquant x) x.m (some x.b) none (return ()) (do
    let xs ← readV x.a x.st
    let c ← getCur
    let vl := c.vr.vl.toNat
    let bl := blockLen x.fine
    checkDest x.d x.dt.width
    checkDestN x.c (ceilDiv vl bl) 8
    let g ← capturedG
    let o := g + x.off.setWidth 64
    let out := (blocksOf bl (vl + 1) xs).zipIdx.filterMap (fun p =>
      if active x.m c (p.2 * bl) then
        some (p.2, quantBlock x.fine x.dt x.st (fun j => rmAt c x.rm (o + BitVec.ofNat 64 j)) (p.2 * bl) p.1)
      else none)
    modifyCur (fun c => { c with vr := out.foldl (fun v b =>
      putElems x.d x.dt.width (b.2.1.zipIdx.map (fun p => (b.1 * bl + p.2, p.1))) (putElem x.c 8 [] v (b.1, b.2.2))) c.vr })
    takeStrips [x.a]) s

/-- An element of VDEQUANT (R231). -/
def dequantElem (fine : Bool) (td te : Ty) (r : RMode) (sat : Bool) (e sc : Nat) : Nat :=
  let v := decodeVal te e
  let v := if te = .i8 then v.scale2 (-6) else v
  let w := decodeFp (if fine then .s8f else .e8m0) sc
  if v == .nan || w == .nan then nanOf td
  else if fine && sc == 0 then (if v.isFin then roundFp td rnMode (Val.zero v.neg) else nanOf td)
  else fpResult td r sat (v.mul w)

/-- VDEQUANT (R231): the guard acts per element. -/
def execVdequant (x : VquantArgs) (s : State) : Out :=
  vecStep (.vdequant x) x.m (some x.b) none (return ()) (do
    let xs ← readV x.a x.st
    let c ← getCur
    let vl := c.vr.vl.toNat
    let bl := blockLen x.fine
    let sc ← readN x.c .z8 (ceilDiv vl bl)
    checkDest x.d x.dt.width
    let g ← capturedG
    let o := g + x.off.setWidth 64
    let out := xs.zipIdx.map (fun p =>
      let k := sc.getD (p.2 / bl) Elem.zero
      ({ val := dequantElem x.fine x.dt x.st (rmAt c x.rm (o + BitVec.ofNat 64 p.2)) x.sat p.1.val k.val
         q := firstQ [p.1, k] } : Elem))
    writeV x.d x.dt.width (guardElems x.m false c out)
    takeStrips [x.a, x.c]) s

end Sys2Proof.Machine
end

