-- ==== Sys2Proof/Machine/VecMem.lean ====
section
/-! DEFINITION. Vector loads and stores (R206 to R210), and MX block segments (R211). -/

namespace Sys2Proof.Machine

/-- Where an element lies: its byte offset from the cursor, and for a 4-bit element whether it takes the high nibble
(R206). -/
structure Place where
  off : Int
  high : Bool
  deriving DecidableEq, Repr

/-- Element `e` at consecutive places of width `w` from `off` (R206). -/
def placeSeq (off : Int) (w e : Nat) : Place :=
  if w = 4 then { off := off + (e / 2 : Nat), high := e % 2 == 1 } else { off := off + (e * (w / 8) : Nat), high := false }

/-- DETAIL1 of a vector access (R208). -/
def vmemDetail (e : Nat) (capNo : CReg) : Word := BitVec.ofNat 64 (e % 2 ^ 16 ||| capNo.val <<< 16)

/-- The check of an element's access (R206, R207): its fault, or its physical address. -/
def elemCheck (cap : Cap) (capNo : CReg) (p : CapPerm) (tp : Perm) (sc : Scope) (e : Nat) (pl : Place) (size : Nat) :
    M (Except AccFault Nat) := do
  match ← capAccess cap pl.off size p tp sc with
  | .error f => return .error f
  | .ok pa =>
    let va : Word := capCursor cap + wordOf pl.off
    if inCtl pa then trapD cCtlAccess va (vmemDetail e capNo)
    else if pa % size ≠ 0 then return .error { cause := cAlign, va := va, hi := 0 }
    else return .ok pa

/-- The trap of an element's fault (R208, R209, R258, R289, R434). -/
def elemTrap {α : Type} (f : AccFault) (e : Nat) (capNo : CReg) : M α :=
  if f.cause = cMSource ∨ f.cause = cPeerWin then trapD f.cause f.va (BitVec.ofNat 64 capNo)
  else trapD f.cause f.va (f.det.getD (f.hi ||| vmemDetail e capNo))

/-- The active elements below vl. -/
def activeElems (md : Mods) (c : Ctx) : List Nat := (List.range c.vr.vl.toNat).filter (fun e => active md c e)

/-- The inactive elements below `n`, zero in the zeroing form (R189). -/
def idleZeros (md : Mods) (zf : Bool) (c : Ctx) (n : Nat) : List (Nat × Elem) :=
  if zf then ((List.range n).filter (fun e => !active md c e)).map (fun e => (e, Elem.zero)) else []

/-- Element loads that have passed their checks, each list together (R119, R133): they join the queue, or perform. -/
def issueLoads (gs : List (List ElemLoad)) (sc : Scope) (hint : Nat) : M Unit := do
  let s ← get
  let n := s.cur.vlive + 1
  if mayHold s then
    gs.forM (fun g => enqueue { n := n, kind := .loadV g, pa := (g.head?.map (·.pa)).getD 0, size := 0, scope := sc, hint := hint, code := 0 })
  else
    ownRanges (gs.flatten.map (fun x => (x.pa, placeSize x.w)))
    modify (fun s => gs.foldl (fun s g => loadElems s s.core [] sc hint g) s)

/-- The check of element `e` of a load at a place (R207): what it becomes at a fault, or its access. -/
def loadCheck (cap : Cap) (a : CReg) (sc : Scope) (d : VReg) (w e : Nat) (at_ : Nat) (pl : Place) :
    M (Except AccFault ElemLoad) := do
  match ← elemCheck cap a .load .read sc at_ pl (placeSize w) with
  | .error f => return .error f
  | .ok pa => return .ok { pa := pa, d := d, w := w, e := e, high := pl.high, code := (← get).code }

/-- A load whose element `e` lies at `place e` (R207): faulting elements become 0 and poisoned, with the fault's cause as
their origin's (R415). -/
def vload (md : Mods) (zf : Bool) (t : Ty) (d : VReg) (a : CReg) (sc : Scope) (hint : Nat) (place : Nat → M Place) :
    M Unit := do
  let w := t.width
  checkDest d w
  let c ← getCur
  let cap ← capturedC
  let o ← entryAddr
  let got ← (activeElems md c).mapM (fun e => do return (e, ← loadCheck cap a sc d w e e (← place e)))
  writeV d w (got.map (fun x => (x.1, match x.2 with
    | .error f => { val := 0, q := some (o, f.cause) }
    | .ok _ => Elem.zero)) ++ idleZeros md zf c c.vr.vl.toNat)
  issueLoads (got.filterMap (fun x => x.2.toOption.map (fun y => [y]))) sc hint

/-- VLD (R207). -/
def execVld (x : VMemArgs) (s : State) : Out :=
  vecStep (.vld x) x.m (some x.b) (some x.a) (zeroDest x.zf x.d x.ty.width) (do
    let off := memOff (← capturedG) x.imm
    vload x.m x.zf x.ty x.d x.a (scopeGet x.scope .core) x.hint.toNat (fun e => pure (placeSeq off x.ty.width e))) s

/-- VLDS (R207). -/
def execVlds (x : VMemArgs) (s : State) : Out :=
  vecStep (.vlds x) x.m (some x.b) (some x.a) (zeroDest x.zf x.d x.ty.width) (do
    let g := sint (← capturedG)
    vload x.m x.zf x.ty x.d x.a (scopeGet x.scope .core) x.hint.toNat
      (fun e => pure { off := g + (e : Int) * immInt x.imm, high := false })) s

/-- The place of an indexed element; a poisoned index traps (R191, R206). -/
def placeIdx (b : VReg) (idx : List Elem) (e : Nat) : M Place := do
  let i := idx.getD e Elem.zero
  if i.q.isSome then vpoison b 32 e else return { off := signExt i.val 32, high := false }

/-- VLDX (R207). -/
def execVldx (x : VMemXArgs) (s : State) : Out :=
  vecStep (.vldx x) x.m none (some x.a) (zeroDest x.zf x.d x.ty.width) (do
    let idx ← readV x.b .i32
    vload x.m x.zf x.ty x.d x.a (scopeGet x.scope .core) x.hint.toNat (placeIdx x.b idx)
    takeStrips [x.b]) s

/-- The checks of the active elements of VLDFF in order, up to the first that faults: the accesses before it, and the fault
(R208). -/
def checkFirst (t : Ty) (d : VReg) (a : CReg) (cap : Cap) (sc : Scope) (off : Int) :
    List Nat → M (List ElemLoad × Option (Nat × AccFault))
  | [] => return ([], none)
  | e :: rest => do
    match ← loadCheck cap a sc d t.width e e (placeSeq off t.width e) with
    | .error f => return ([], some (e, f))
    | .ok x =>
      let (xs, f) ← checkFirst t d a cap sc off rest
      return (x :: xs, f)

/-- VLDFF (R208): it traps at a fault of its first active element, and shortens vl at a later one. -/
def execVldff (x : VMemArgs) (s : State) : Out :=
  let w := x.ty.width
  vecStep (.vldff x) x.m (some x.b) (some x.a) (zeroDest x.zf x.d w) (do
    checkDest x.d w
    let off := memOff (← capturedG) x.imm
    let cap ← capturedC
    let c ← getCur
    let sc := scopeGet x.scope .core
    let (got, f) ← checkFirst x.ty x.d x.a cap sc off (activeElems x.m c)
    let n ← match f with
      | none => pure c.vr.vl.toNat
      | some (e, flt) => if got.isEmpty then elemTrap flt e x.a else pure e
    writeV x.d w (got.map (fun y => (y.e, Elem.zero)) ++ idleZeros x.m x.zf c n)
    modifyCur (fun c => { c with vr := { c.vr with vl := BitVec.ofNat 13 n } })
    issueLoads (got.map (fun y => [y])) sc x.hint.toNat) s

/-! ### Stores -/

/-- The bytes of element stores. -/
def storeRanges (xs : List ElemStore) : List (Nat × Nat) := xs.map (fun x => (x.pa, placeSize x.w))

/-- A tile load in flight that reads bytes of some ranges completes before a store to them (R257). -/
def settleTile (rs : List (Nat × Nat)) : M Unit := do
  let s ← get
  match s.cur.mx.load with
  | some t => if rs.any (rangeMeets (tileRange s.core (tileK t.ty) t)) then set (finishTile s s.slot) else pure ()
  | none => pure ()

/-- The element stores of an instruction, each list together, all of them or none (R119, R133, R209): they join the queue behind
the instruction's commit, or perform after every older entry has committed; a segment without room for them parks (R366). -/
def issueStores (gs : List (List ElemStore)) (sc : Scope) (hint : Nat) : M Unit := do
  let rs := storeRanges gs.flatten
  needRoomAll rs
  settleTile rs
  let s ← get
  if mayHold s then
    gs.forM (fun g => enqueue { n := s.cur.vlive + 1, kind := .storeV g, pa := (g.head?.map (·.pa)).getD 0, size := 0, scope := sc,
                                hint := hint, code := 0 })
  else
    if (waitingOf s s.core s.party).isEmpty then pure () else drainParty s.party
    modify (fun s => gs.foldl (fun s g => storeElems s s.core sc hint g) s)

/-- The checks of one element of a store (R209), after its index: its address, then the poison of its data. `reg` and `e` name
the element, `at_` the index that a fault of its address gives. -/
def storeCheck (cap : Cap) (a : CReg) (sc : Scope) (reg : VReg) (w e at_ : Nat) (pl : Place) (v : Elem) : M ElemStore := do
  match ← elemCheck cap a .store .write sc at_ pl (placeSize w) with
  | .error f => elemTrap f at_ a
  | .ok pa =>
    if v.q.isSome then vpoison reg w e
    else return { pa := pa, val := v.val, w := w, high := pl.high, code := (← get).code }

/-- A store whose element `e` lies at `place e` (R209): index, address and data of each active element in turn. `streams`
are the vector operands, whose strips leave at the commit. -/
def vstore (md : Mods) (t : Ty) (d : VReg) (a : CReg) (sc : Scope) (hint : Nat) (streams : List VReg)
    (place : Nat → M Place) : M Unit := do
  let w := t.width
  let xs ← readV d t
  let c ← getCur
  let cap ← capturedC
  let out ← (activeElems md c).mapM (fun e => do storeCheck cap a sc d w e e (← place e) (xs.getD e Elem.zero))
  issueStores (out.map (fun x => [x])) sc hint
  takeStrips streams

/-- VST (R209). -/
def execVst (x : VMemArgs) (s : State) : Out :=
  vecStep (.vst x) x.m (some x.b) (some x.a) (return ()) (do
    let off := memOff (← capturedG) x.imm
    vstore x.m x.ty x.d x.a (scopeGet x.scope .core) x.hint.toNat [x.d] (fun e => pure (placeSeq off x.ty.width e))) s

/-- VSTS (R209). -/
def execVsts (x : VMemArgs) (s : State) : Out :=
  vecStep (.vsts x) x.m (some x.b) (some x.a) (return ()) (do
    let g := sint (← capturedG)
    vstore x.m x.ty x.d x.a (scopeGet x.scope .core) x.hint.toNat [x.d]
      (fun e => pure { off := g + (e : Int) * immInt x.imm, high := false })) s

/-- VSTX (R209). -/
def execVstx (x : VMemXArgs) (s : State) : Out :=
  vecStep (.vstx x) x.m none (some x.a) (return ()) (do
    let idx ← readV x.b .i32
    vstore x.m x.ty x.d x.a (scopeGet x.scope .core) x.hint.toNat [x.d, x.b] (placeIdx x.b idx)) s

/-! ### Segments of MX blocks (R211) -/

/-- The conditions of SEGLEN (R211); the block's bytes. -/
def segCheck (x : VSegArgs) : M (Nat × Int) := do
  let c ← getCur
  let g ← capturedG
  let o := sint g
  let bl := blockLen x.fine
  let vl := c.vr.vl.toNat
  let nb := bl * x.ty.width / 8
  let fits := (boundOf c x.c).isSome || groupFits c.vr x.c (ceilDiv vl bl) 8
  if vl % bl ≠ 0 || o % (nb : Int) ≠ 0 || !fits then trapD cSegLen (BitVec.ofNat 64 vl) g
  return (nb, o)

/-- The place of a segment's scale byte. -/
def scalePlace (x : VSegArgs) (nb : Nat) (o : Int) (k : Nat) : Place :=
  { off := immInt x.dist + o / (nb : Int) + (k : Int), high := false }

/-- The active segments (R211). -/
def activeSegs (x : VSegArgs) (c : Ctx) : List Nat :=
  let bl := blockLen x.fine
  (List.range (c.vr.vl.toNat / bl)).filter (fun k => active x.m c (k * bl))

/-- The checks of a segment's elements and scale: its accesses, or the first fault. -/
def segLoads (x : VSegArgs) (cap : Cap) (nb : Nat) (o : Int) (k : Nat) : M (Except AccFault (List ElemLoad)) := do
  let bl := blockLen x.fine
  let w := x.ty.width
  let sc := scopeGet x.scope .core
  let rs ← (List.range bl).mapM (fun j =>
    loadCheck cap x.a sc x.d w (k * bl + j) (k * bl + j) (placeSeq (o + (k * nb : Nat)) w j))
  let sr ← loadCheck cap x.a sc x.c 8 k k (scalePlace x nb o k)
  return (rs ++ [sr]).mapM id

/-- A segment's elements and its scale byte, each of one value. -/
def segFill (x : VSegArgs) (k : Nat) (v : Elem) : List (Nat × Elem) × (Nat × Elem) :=
  let bl := blockLen x.fine
  ((List.range bl).map (fun j => (k * bl + j, v)), (k, v))

/-- Under a guard that never passes the zeroing form of VLDSEG zeroes both destinations (R59). -/
def zeroSeg (x : VSegArgs) : M Unit := do
  let c ← getCur
  zeroDest x.zf x.d x.ty.width
  if x.zf then zeroGroup x.c (c.vr.vl.toNat / blockLen x.fine) 8 else pure ()

/-- VLDSEG (R211). -/
def execVldseg (x : VSegArgs) (s : State) : Out :=
  let w := x.ty.width
  vecStep (.vldseg x) x.m (some x.b) (some x.a) (zeroSeg x) (do
    let (nb, o) ← segCheck x
    checkDest x.d w
    let c ← getCur
    let bl := blockLen x.fine
    let nseg := c.vr.vl.toNat / bl
    checkDestN x.c nseg 8
    let cap ← capturedC
    let org ← entryAddr
    let got ← (activeSegs x c).mapM (fun k => do return (k, ← segLoads x cap nb o k))
    let idle := if x.zf then (List.range nseg).filter (fun k => !active x.m c (k * bl)) else []
    let fill := got.map (fun g => segFill x g.1 (match g.2 with
      | .error f => { val := 0, q := some (org, f.cause) }
      | .ok _ => Elem.zero)) ++ idle.map (fun k => segFill x k Elem.zero)
    writeV x.d w (fill.flatMap (·.1))
    writeV x.c 8 (fill.map (·.2))
    issueLoads (got.filterMap (fun g => g.2.toOption)) (scopeGet x.scope .core) x.hint.toNat) s

/-- The checks of one segment of VSTSEG, in the order of R209: its stores. -/
def segStores (x : VSegArgs) (cap : Cap) (nb : Nat) (o : Int) (xs ss : List Elem) (k : Nat) : M (List ElemStore) := do
  let bl := blockLen x.fine
  let w := x.ty.width
  let sc := scopeGet x.scope .core
  let es ← (List.range bl).mapM (fun j =>
    let e := k * bl + j
    storeCheck cap x.a sc x.d w e e (placeSeq (o + (k * nb : Nat)) w j) (xs.getD e Elem.zero))
  return es ++ [← storeCheck cap x.a sc x.c 8 k k (scalePlace x nb o k) (ss.getD k Elem.zero)]

/-- VSTSEG (R211). -/
def execVstseg (x : VSegArgs) (s : State) : Out :=
  vecStep (.vstseg x) x.m (some x.b) (some x.a) (return ()) (do
    let (nb, o) ← segCheck x
    let xs ← readV x.d x.ty
    let c ← getCur
    let ss ← readN x.c .z8 (c.vr.vl.toNat / blockLen x.fine)
    let cap ← capturedC
    let out ← (activeSegs x c).mapM (segStores x cap nb o xs ss)
    issueStores out (scopeGet x.scope .core) x.hint.toNat
    takeStrips [x.d, x.c]) s

end Sys2Proof.Machine
end

