-- ==== Sys2Proof/Machine/Matrix.lean ====
section
/-! DEFINITION. The matrix array: MLDT (R240 to R242), rows (R243 to R245), MZERO and MSWAP (R246, R247), the fused chain
(R248 to R252), and tiles read again (R255). -/

namespace Sys2Proof.Machine

/-- Cause MTYPE (R258). -/
def cMType : BitVec 16 := 0x901
/-- Cause MTILE. -/
def cMTile : BitVec 16 := 0x902
/-- Cause WEIGHTKEY. -/
def cWeightKey : BitVec 16 := 0x903
/-- Cause MSTRIP. -/
def cMStrip : BitVec 16 := 0x904
/-- Cause MDRAINLEN. -/
def cMDrainLen : BitVec 16 := 0x905
/-- Cause MCHAINWORD. -/
def cMChainWord : BitVec 16 := 0x906

/-! ### Tiles -/

/-- The shadow slot. -/
def shadowTile (m : Matrix) : Tile := if m.act then m.slot0 else m.slot1
/-- The active slot. -/
def activeTile (m : Matrix) : Tile := if m.act then m.slot1 else m.slot0

/-- May a region use a key handle (R423)? Handle 0 is plaintext. -/
def keyOk (s : State) (region h : Nat) : Bool :=
  h == 0 || (match lookupKey h s.keys with
    | some k => regionUnder s region k.region
    | none => false)

/-- The first unit of an extent whose key the region may not use (R239): its address and handle. -/
def badUnit (s : State) (region pa n : Nat) : Option (Nat × Nat) :=
  ((unitsOf pa n).find? (fun u => !keyOk s region (field (unitAttr s u) 48 8))).map
    (fun u => (u, field (unitAttr s u) 48 8))

/-- A translated extent of the control or vector thread that may lie in the core's own pewter slice (R242). -/
def tileAccess (a : CReg) (cap : Cap) (off : Int) (ext : Nat) : M Nat := do
  let va : Word := capCursor cap + wordOf off
  let pa ← orTrap (← capAccessS cap off ext .load .read true) a
  if inCtl pa then trapD cCtlAccess va (BitVec.ofNat 64 a)
  if pa % 64 ≠ 0 then trapD cAlign va (BitVec.ofNat 64 a)
  return pa

/-- MLDT and MLDT.t up to their commit (R242); the read goes on as the slot's load in flight. -/
def mldtEff (x : MldtArgs) (tr : Bool) : M Unit := do
  let c ← getCur
  if !active x.m c 0 then return ()
  let cap ← capturedC
  let off := memOff (← capturedG) x.imm
  let va : Word := capCursor cap + wordOf off
  let ext := 32768 + tileScales x.kind (tileK x.ty)
  let pa ← tileAccess x.a cap off ext
  let s ← get
  let inRange (lo n : Nat) : Bool := decide (lo ≤ pa) && decide (pa + ext ≤ lo + n)
  let pew := inRange (pewterOf s.core) (6 * 2 ^ 20)
  let spad := inRange (spadOf s.core) (2 ^ 20)
  if !pew && !spad then trapD cMSource va (BitVec.ofNat 64 x.a)
  if pew then
    match badUnit s c.h.region pa ext with
    | some (u, h) => trapD cWeightKey (va + BitVec.ofNat 64 u - BitVec.ofNat 64 pa) (BitVec.ofNat 64 h)
    | none => pure ()
  let c ← getCur
  if c.mx.load.isSome || ((shadowTile c.mx).valid && (shadowTile c.mx).pend) then waits
  ownFirst pa ext
  let t : Tile := { Tile.invalid with
    scratch := !pew, tr := tr, kind := x.kind, ty := x.ty
    offset := if pew then pa - pewterOf s.core else pa - spadOf s.core }
  modifyCur (fun c => { c with mx := { c.mx with load := some { t with elems := 0, scales := 0 }, got := [] } })

/-- MLDT (R242). -/
def execMldt (x : MldtArgs) (s : State) : Out :=
  vecStep (.mldt x) x.m (some x.b) (some x.a) (return ()) (mldtEff x false) s
/-- MLDT.t (R241, R242). -/
def execMldtT (x : MldtArgs) (s : State) : Out :=
  vecStep (.mldtT x) x.m (some x.b) (some x.a) (return ()) (mldtEff x true) s

/-- MLDT_READ_DONE (R242): the load in flight on a core's context completes. -/
def execMldtReadDone (core : Nat) (s : State) : Out :=
  match (s.coreAt core).slot with
  | some slot => .next (finishTile s slot)
  | none => .next s

/-- A pewter tile read again on the context's core (R255); without its keys, or where a line of it is poisoned (R443,
notes/assumptions/80.md), the slot becomes invalid. -/
def reloadTile (s : State) (k region : Nat) (t : Tile) : Tile :=
  if t.valid && t.pend then
    let n := 32768 + tileScales t.kind (tileK t.ty)
    let a := pewterOf k + t.offset
    if (badUnit s region a n).isSome || s.poison.any (fun l => !lineOutside a n l) then { t with valid := false, pend := false, reload := false }
    else { readTile s k (tileK t.ty) t with reload := true }
  else t

/-- TILE_RELOAD (R255): slot 0 or 1 of the context resident on a core. -/
def execTileReload (core tile : Nat) (s : State) : Out :=
  match (s.coreAt core).slot with
  | some slot =>
    let r := (s.ctxAt slot).h.region
    .next (s.modCtx slot (fun c => { c with mx :=
      if tile = 0 then { c.mx with slot0 := reloadTile s core r c.mx.slot0 }
      else { c.mx with slot1 := reloadTile s core r c.mx.slot1 } }))
  | none => .next s

/-! ### Rows -/

/-- The accumulator kind of a row and a tile (R234): `some true` for INT32, none where they may not be combined. -/
def rowKind (a t : Ty) (k : MxKind) : Option Bool :=
  match a with
  | .e4m3 | .e5m2 =>
    (match t with
      | .e4m3 | .e5m2 => some false
      | .fjt8 => if k = .none then some false else none
      | _ => none)
  | .fjt8 => (match t with
      | .e4m3 | .e5m2 | .fjt8 => if k = .none then some false else none
      | _ => none)
  | .e2m1 => if t = .e2m1 then some false else none
  | .bf16 | .f16 => if (t = .bf16 ∨ t = .f16) ∧ k = .none then some false else none
  | .i8 => if t = .i8 then (match k with
      | .none => some true
      | .mx => some false
      | .fine => none) else none
  | .i4 => if t = .i4 ∧ k = .none then some true else none
  | _ => none

/-- The block kind of a scale code (R240). -/
def scKind : ScaleCode → MxKind
  | .none => .none
  | .mx | .mxs => .mx
  | .fine | .fines => .fine

/-- Elements per scale of a kind (R223). -/
def kindLen : MxKind → Nat
  | .fine => 16
  | _ => 32

/-- The value of an element under its block's scale (R223). -/
def blockVal (k : MxKind) (t : Ty) (e sc : Nat) : Val :=
  match k with
  | .none => decodeVal t e
  | .mx => (if t = .i8 then (decodeVal t e).scale2 (-6) else decodeVal t e).mul (decodeFp .e8m0 sc)
  | .fine =>
    let v := decodeVal t e
    if v == .nan || decodeFp .s8f sc == .nan then .nan
    else if sc = 0 then (if v.isFin then Val.zero v.neg else .nan)
    else v.mul (decodeFp .s8f sc)

/-- Element (k, n) of a tile (R241). -/
def tileElem (t : Tile) (k n : Nat) : Nat :=
  let w := t.ty.width
  if t.tr then field t.elems (1024 * n + w * k) w else field t.elems (256 * w * k + w * n) w
/-- The scale of element (k, n) of a tile. -/
def tileScale (t : Tile) (k n : Nat) : Nat := field t.scales (8 * (256 * (k / kindLen t.kind) + n)) 8

/-- A row of A: its codes and its scales (R243). -/
structure ARow where
  codes : List Nat
  scales : List Nat
  deriving DecidableEq, Repr

/-- The codes of a row's elements from its 1024 bits. -/
def rowCodes (t : Ty) (bits : Nat) : List Nat := (List.range (tileK t)).map (fun k => natField bits (t.width * k) t.width)

/-- The scales of codes 1 and 2, from one register vS (R243). -/
def rowScales (x : MrowArgs) : M (List Nat) := do
  let n := tileK x.ty / kindLen (scKind x.sk)
  let c ← getCur
  match boundOf c x.c with
  | some b =>
    let (len, a, _) ← headStrip x.c b Ty.z8.code.toNat
    let z := natOfBytes (← readSpad a len x.c)
    return (List.range n).map (fun e => if e < len then natField z (8 * e) 8 else 0)
  | none =>
    let es := (List.range n).map (fun e => getElem_ c.vr x.c 8 e)
    match es.findIdx? (fun e => e.q.isSome) with
    | some e => vpoison x.c 8 e
    | none => return es.map (·.val)

/-- The row from a bound register (R243, R280). -/
def rowStrip (x : MrowArgs) (b : Binding) : M ARow := do
  let (len, a, sc) ← headStrip x.a b x.ty.code.toNat
  let mstrip {α : Type} : M α := trapD cMStrip (BitVec.ofNat 64 x.a) (BitVec.ofNat 64 (8 * len / x.ty.width))
  if 8 * len ≠ tileK x.ty * x.ty.width then mstrip
  let codes := rowCodes x.ty (natOfBytes (← readSpad a len x.a))
  let n := tileK x.ty / kindLen (scKind x.sk)
  let stream (skind : Nat) : M ARow := do
    match sc with
    | some (n', a') =>
      if field b.word0 5 2 ≠ skind ∨ n' ≠ n then mstrip
      else return { codes := codes, scales := (← readSpad a' n x.a).map (·.toNat) }
    | none => mstrip
  match x.sk with
  | .none => return { codes := codes, scales := [] }
  | .mx | .fine => return { codes := codes, scales := ← rowScales x }
  | .mxs => stream 1
  | .fines => stream 2

/-- The row from a register group (R243): it does not depend on vl. A scale code that asks for a bound register's scales finds none
there and traps MSTRIP with length 0 (notes/assumptions/81.md). -/
def rowGroup (x : MrowArgs) : M ARow := do
  let c ← getCur
  let l := lbits c.vr
  let m := max 1 (1024 / max 1 l)
  if l = 0 then trapD cVGroup (BitVec.ofNat 64 x.a) (← freeVal)
  if 8 < m ∨ x.a.val % m ≠ 0 ∨ 32 < x.a.val + m then trapD cVGroup (BitVec.ofNat 64 x.a) (BitVec.ofNat 64 m)
  let w := x.ty.width
  let es := (List.range (tileK x.ty)).map (getElem_ c.vr x.a w)
  match es.findIdx? (fun e => e.q.isSome) with
  | some e => vpoison x.a w e
  | none =>
    let codes := es.map (·.val)
    match x.sk with
    | .none => return { codes := codes, scales := [] }
    | .mx | .fine => return { codes := codes, scales := ← rowScales x }
    | .mxs | .fines => trapD cMStrip (BitVec.ofNat 64 x.a) 0

/-- The row of an MROW or MROWA (R243). -/
def readRow (x : MrowArgs) : M ARow := do
  match boundOf (← getCur) x.a with
  | some b => rowStrip x b
  | none => rowGroup x

/-- The exact sum of a group's products (R244). -/
def groupSum (vs : List Val) : Val :=
  match vs with
  | [] => Val.zero false
  | v :: rest => rest.foldl (fun a b => a.add b false) v

/-- The values of a row under its scales. -/
def rowVals (k : MxKind) (t : Ty) (r : ARow) : List Val :=
  r.codes.zipIdx.map (fun p => blockVal k t p.1 (r.scales.getD (p.2 / kindLen k) 0))

/-- ColumnSum on the floating-point paths (R244). -/
def columnFp (k : MxKind) (t : Tile) (row : List Val) (n : Nat) : Nat :=
  let prods := row.zipIdx.map (fun p => p.1.mul (blockVal k t.ty (tileElem t p.2 n) (tileScale t p.2 n)))
  treeOf add32 0 ((blocksOf 32 (prods.length + 1) prods).map (fun g => round32 (groupSum g)))

/-- ColumnSum on the integer paths (R244). -/
def columnInt (t : Tile) (ty : Ty) (row : List Nat) (n : Nat) : Int :=
  (row.zipIdx.map (fun p => extTy ty p.1 * extTy t.ty (tileElem t p.2 n))).sum

/-- One accumulator element after a row (R245). -/
def rowElem (acc sat : Bool) (int : Bool) (t : Tile) (ty : Ty) (k : MxKind) (row : ARow) (vals : List Val) (n old : Nat) :
    Nat :=
  if int then
    let z := columnInt t ty row.codes n
    intElem true 32 sat (if acc then signExt old 32 + z else z)
  else
    let z := columnFp k t vals n
    if acc then add32 old z else z

/-- MROW and MROWA (R245). -/
def mrowEff (x : MrowArgs) (acc : Bool) : M Unit := do
  let c ← getCur
  if !active x.m c 0 then return ()
  let t := activeTile c.mx
  let d := BitVec.ofNat 64 x.d
  if t.valid && t.pend then waits
  if !t.valid then trapD cMTile d (BitVec.ofNat 64 (b2n c.mx.act))
  let k := scKind x.sk
  let bad {α : Type} : M α := trapD cMType d (BitVec.ofNat 64 (x.ty.code.toNat ||| t.ty.code.toNat <<< 8))
  match (if t.kind = k then rowKind x.ty t.ty k else none) with
  | none => bad
  | some int =>
    if acc && c.mx.accInt.getLsbD x.d != int then bad
    let row ← readRow x
    let vals := rowVals k x.ty row
    let old := c.mx.acc[x.d]
    let new := (List.range 256).foldl (fun z n =>
      z ||| rowElem acc x.sat int t x.ty k row vals n (field old (32 * n) 32) <<< (32 * n)) 0
    modifyCur (fun c => { c with mx := { c.mx with
      acc := c.mx.acc.set x.d (BitVec.ofNat 8192 new)
      accInt := if int then c.mx.accInt ||| maskAt 8 x.d 1 else c.mx.accInt &&& ~~~ (maskAt 8 x.d 1) } })
    takeStrips (x.a :: (if x.sk = .mx ∨ x.sk = .fine then [x.c] else []))

/-- MROW (R245). -/
def execMrow (x : MrowArgs) (s : State) : Out := vecStep (.mrow x) x.m none none (return ()) (mrowEff x false) s
/-- MROWA (R245). -/
def execMrowa (x : MrowArgs) (s : State) : Out := vecStep (.mrowa x) x.m none none (return ()) (mrowEff x true) s

/-- MZERO (R246). -/
def execMzero (x : MzeroArgs) (s : State) : Out :=
  vecStep (.mzero x) x.m none none (return ()) (do
    let c ← getCur
    if active x.m c 0 then
      modifyCur (fun c => { c with mx := { c.mx with
        acc := c.mx.acc.mapIdx (fun i a => if x.mask.getLsbD i then 0 else a)
        accInt := if x.int then c.mx.accInt ||| x.mask else c.mx.accInt &&& ~~~ x.mask } })
    else pure ()) s

/-- MSWAP (R247): it waits for a load in flight into the shadow slot. -/
def execMswap (x : MArgs) (s : State) : Out :=
  vecStep (.mswap x) x.m none none (return ()) (do
    let c ← getCur
    if !active x.m c 0 then return ()
    if c.mx.load.isSome || ((shadowTile c.mx).valid && (shadowTile c.mx).pend) then waits
    modifyCur (fun c => { c with mx := { c.mx with act := !c.mx.act } })) s

/-! ### The fused chain -/

/-- MCHAIN (R249). -/
def execMchain (x : MchainArgs) (s : State) : Out :=
  vecStep (.mchain x) x.m (if x.lit.isSome then none else some x.b) none (return ()) (do
    let c ← getCur
    if !active x.m c 0 then return ()
    let g ← capturedG
    let w := x.lit.getD g
    if chainBad w then trapD cMChainWord w 0
    modifyCur (fun c => { c with mx := { c.mx with chain := w } })) s

/-- MTBL (R250). -/
def execMtbl (x : MtblArgs) (s : State) : Out :=
  vecStep (.mtbl x) x.m (some x.b) (some x.a) (return ()) (do
    let c ← getCur
    if !active x.m c 0 then return ()
    let cap ← capturedC
    let off := memOff (← capturedG) x.imm
    let va : Word := capCursor cap + wordOf off
    let pa ← orTrap (← capAccess cap off 1024 .load .read) x.a
    if inCtl pa then trapD cCtlAccess va (BitVec.ofNat 64 x.a)
    if pa % 64 ≠ 0 then trapD cAlign va (BitVec.ofNat 64 x.a)
    let bs ← loadMem pa 1024 .core 0
    let v : BitVec 8192 := BitVec.ofNat 8192 (natOfBytes bs)
    modifyCur (fun c => { c with mx := match x.which with
      | .act => { c.mx with tblAct := v }
      | .bias => { c.mx with tblBias := v }
      | .scale => { c.mx with tblScale := v } })) s

/-- Entry `j` of a chain vector. -/
def chainAt (v : BitVec 8192) (j : Nat) : Val := decodeFp .f32 (field v (32 * j) 32)

/-- The infinity, or the end entry, that the activation gives for an infinite input: the sign of `d` times `s` (R251). -/
def actEnd (d : Val) (s : Bool) (entry : Nat) : Nat :=
  match d with
  | .nan => nanOf .f32
  | v => if v.isZero then entry else round32 (.inf (v.neg != s))

/-- Act(x) (R251), on codes. -/
def activation (chain : Word) (tbl : BitVec 8192) (x : Nat) : Nat :=
  let lo := decodeFp .f32 (field chain 32 32)
  let hs := signExt (field chain 8 8) 8
  let diff (a b : Nat) : Val := (chainAt tbl a).add (chainAt tbl b).negate false
  match decodeFp .f32 x with
  | .nan => nanOf .f32
  | .inf false => actEnd (diff 255 254) false (field tbl (32 * 255) 32)
  | .inf true => actEnd (diff 1 0) true (field tbl 0 32)
  | v =>
    let t := (v.add lo.negate false).scale2 (-hs)
    let e := min t.exp 0
    let fl : Int := t.atScale e / (2 ^ (-e).toNat : Nat)
    let j := (min (max fl 0) 254).toNat
    let frac := t.add (Val.ofInt (-(j : Int))) false
    round32 ((chainAt tbl j).add ((diff (j + 1) j).mul frac) false)

/-- The chain up to its requantisation (R252): an exact value. -/
def chainVal (m : Matrix) (int : Bool) (code c : Nat) : Val :=
  let bias := bit m.chain 0
  let act := bit m.chain 1
  let x := if int then Val.ofInt (signExt code 32) else decodeFp .f32 code
  let x := if (bias || act) && int then decodeFp .f32 (round32 x) else x
  let x := if bias then decodeFp .f32 (round32 (x.add (chainAt m.tblBias c) false)) else x
  let x := if act then decodeFp .f32 (activation m.chain m.tblAct (round32 x)) else x
  if bit m.chain 2 then x.mul (chainAt m.tblScale c) else x

/-- MDRAIN (R252). -/
def execMdrain (x : MdrainArgs) (s : State) : Out :=
  vecStep (.mdrain x) x.m (some x.b) none (zeroDest x.zf x.d x.ty.width) (do
    let c ← getCur
    let g ← capturedG
    let c0 := field g 0 8
    let vl := c.vr.vl.toNat
    if 256 < c0 + vl then trapD cMDrainLen (BitVec.ofNat 64 vl) (BitVec.ofNat 64 c0)
    checkDest x.d x.ty.width
    let row := c.mx.acc[x.a]
    let int := c.mx.accInt.getLsbD x.a
    let out := (List.range vl).map (fun e =>
      ({ val := convVal x.ty (rmAt c x.rm (g + BitVec.ofNat 64 e)) x.sat
           (chainVal c.mx int (field row (32 * (c0 + e)) 32) (c0 + e))
         q := none } : Elem))
    writeV x.d x.ty.width (guardElems x.m x.zf c out)) s

end Sys2Proof.Machine
end

