-- ==== Sys2Proof/Machine/Engines.lean ====
section
/-! DEFINITION. Ports, engine commands and their queues (R264 to R268, R274, R276, R277, R287), and the engine
instructions of the control thread (R284, R285). -/

namespace Sys2Proof.Machine

/-- Cause EPORT (R289). -/
def cEport : BitVec 16 := 0x400

/-! ### Ports (R264) -/

/-- The engine, by its control-page number (R86), that a core reaches at a port. -/
def portEngine (core p : Nat) : Option Nat :=
  if p = 0 then some (clusterOf core)
  else if p = 1 then some (36 + clusterOf core)
  else if p = 2 then some (72 + dieOf core)
  else if 4 ≤ p ∧ p ≤ 7 then some (76 + (p - 4))
  else if 8 ≤ p ∧ p ≤ 11 then some (80 + (p - 8))
  else none

/-- The present engine at a port. -/
def liveEngine (s : State) (core p : Nat) : Option Nat :=
  match portEngine core p with
  | some n => if enginePresent s n then some n else none
  | none => none

/-- Has the port a result FIFO? -/
def isEnginePort (p : Nat) : Bool := (portEngine 0 p).isSome

/-- The home scope of an engine (R130). -/
def homeScope (n : Nat) : Scope := if n < 72 then .die else .pkg

/-- Cluster and die that an engine belongs to. -/
def engineDie (n : Nat) : Nat := if n < 72 then n % 36 / 9 else (n - 72) % 4

/-! ### Command words (R268) -/

/-- port. -/
def cmdPort (w : Word) : Nat := field w 58 6
/-- op. -/
def cmdOp (w : Word) : Nat := field w 54 4
/-- aux. -/
def cmdAux (w : Word) : Nat := field w 40 8
/-- len. -/
def cmdLen (w : Word) : Nat := field w 0 28
/-- stage. -/
def cmdStage (w : Word) : Fin 16 := Fin.ofNat 16 (field w 28 4)
/-- st. -/
def cmdSt (w : Word) : Bool := bit w 48
/-- Rows of a copy: aux + 1 for COPY2D. -/
def cmdRows (w : Word) : Nat := if cmdOp w = 1 then cmdAux w + 1 else 1
/-- Is the operation a GATHER or a SCATTER? -/
def isGather (w : Word) : Bool := cmdOp w == 3 || cmdOp w == 4
/-- Bytes of an element of GATHER and SCATTER. -/
def elemSize (w : Word) : Nat := 2 ^ field w 40 2

/-- The code of a pusher in a record (R276). -/
def pusherCode : Party → Nat
  | .control => 0 | .vector => 0 | .loader => 1 | .storer => 2

/-- The key of a result FIFO: a port and a pusher (R277). -/
def resKey (port : Nat) (p : Party) : Nat := 4 * port + pusherCode p

/-- The elements of a result FIFO. -/
def resFifo (c : Ctx) (port : Nat) (p : Party) : List ResElem := (lookupKey (resKey port p) c.q.results).getD []

/-- A result FIFO set. -/
def setResFifo (c : Ctx) (port : Nat) (p : Party) (l : List ResElem) : Ctx :=
  { c with q := { c.q with results := insertKey (resKey port p) l c.q.results } }

/-! ### Commands in engines -/

/-- Commands of a context in the FIFO of a port. -/
def fifoOf (s : State) (n slot port : Nat) : List Cmd :=
  (s.engineAt n).cmds.filter (fun c => decide (c.slot = slot) && decide (cmdPort c.word = port))

/-- Every command in an engine. -/
def allCmds (s : State) : List Cmd := (s.engines.map (fun p => p.2.cmds)).flatten

/-- The commands that a context pushed to a port and that have not completed: in the engine of its core, and in those that
earlier cores of it reached (R285, R286). -/
def ownCmds (s : State) (slot port : Nat) : List Cmd :=
  (allCmds s).filter (fun c => decide (c.slot = slot) && decide (cmdPort c.word = port))

/-- The commands that a core's range checker holds (R274). -/
def checker (s : State) (core : Nat) : List Cmd :=
  (allCmds s).filter (fun c => decide (c.core = core) && c.status.isNone)

/-- The pages that `n` bytes from a virtual address meet: address and bytes of each. -/
def pagePieces (va n : Nat) : Nat → List (Nat × Nat)
  | 0 => []
  | fuel + 1 =>
    if n = 0 then []
    else
      let k := min n (4096 - va % 4096)
      (va % 2 ^ 64, k) :: pagePieces (va + k) (n - k) fuel

/-- All pages of an extent. -/
def pagesOf (va n : Nat) : List (Nat × Nat) := pagePieces va n (n / 4096 + 2)

/-- The virtual address of an offset from a capability's cursor. -/
def offVa (c : Cap) (off : Int) : Nat := (capCursor c + wordOf off).toNat

/-- A page translated for a command without any effect (R270, R274). -/
def probe (s : State) (x : Xer) (va : Nat) : Option Nat :=
  match (translate s x va .none).2 with
  | .ok pa => some pa
  | .error _ => none

/-- The extents of a command other than a gather: sources and destinations, as virtual ranges (R269). A sealed page has a tag
behind it (R425); a cut has no extents. -/
def copyExtents (c : Cmd) : List (Nat × Nat) × List (Nat × Nat) :=
  let len := cmdLen c.word
  let rows := cmdRows c.word
  match cmdOp c.word with
  | 2 => ([], [(offVa c.dst 0, len)])
  | 8 => ([(offVa c.src 0, len)], [(offVa c.dst 0, len + 16)])
  | 9 => ([(offVa c.src 0, len + 16)], [(offVa c.dst 0, len)])
  | 10 => ([], [])
  | _ => ((List.range rows).map (fun j => (offVa c.src ((j : Int) * c.stride), len)), [(offVa c.dst 0, rows * len)])

/-- The dense extents of a gather or scatter: the side that is not the table, and the indices. -/
def gatherDense (c : Cmd) : Nat × Nat :=
  (offVa (if cmdOp c.word = 3 then c.dst else c.src) 0, cmdLen c.word * elemSize c.word)

/-- The virtual ranges whose scratchpad bytes the checker holds for a command (R274). -/
def checkRanges (c : Cmd) : List (Nat × Nat) :=
  if isGather c.word then
    let (b, t) := capBounds (if cmdOp c.word = 3 then c.src else c.dst)
    [gatherDense c, (offVa c.idx 0, 4 * cmdLen c.word), (b, t - b)]
  else
    let (a, b) := copyExtents c
    a ++ b

/-- The scratchpad bytes that pages reach, and whether one does not translate (R274). -/
def findSpad (s : State) (x : Xer) (pages : List (Nat × Nat)) : List (Nat × Nat) × Bool :=
  pages.foldl (fun acc p => match probe s x p.1 with
    | none => (acc.1, true)
    | some pa => if inSpad pa then ((pa, p.2) :: acc.1, acc.2) else acc) ([], false)

/-- The kept mask that a REPLAY names (R273). -/
def maskOf (c : Ctx) (seq : Nat) : Option DoneMask := c.q.masks.find? (fun m => decide (m.cmd.seq = seq))

/-- Who translates for a command (R394). -/
def cmdXer (n : Nat) (c : Cmd) : Xer := { agent := 256 + n, slot := c.slot, core := c.core, atp := c.atp }

/-- The checker's ranges of a command as it enters (R274); a REPLAY has those of the command it names. -/
def enterRanges (s : State) (n : Nat) (c : Cmd) : List (Nat × Nat) × Bool :=
  let of (d : Cmd) := findSpad s (cmdXer n c) (((checkRanges d).map (fun r => pagesOf r.1 r.2)).flatten)
  if cmdOp c.word = 7 then
    match maskOf (s.ctxAt c.slot) (cmdLen c.word) with
    | some m => of m.cmd
    | none => ([], false)
  else of c

/-- The destination extents of a pushed command, as virtual ranges. -/
def destRanges (s : State) (c : Cmd) : List (Nat × Nat) :=
  let of (d : Cmd) : List (Nat × Nat) :=
    if cmdOp d.word = 4 then
      let (b, t) := capBounds d.dst
      [(b, t - b)]
    else if cmdOp d.word = 3 then [gatherDense d]
    else (copyExtents d).2
  if cmdOp c.word = 7 then
    match maskOf (s.ctxAt c.slot) (cmdLen c.word) with
    | some m => of m.cmd
    | none => []
  else of c

/-- Does every destination byte lie in a core's own scratchpad (R285, R368)? -/
def destsInside (s : State) (n : Nat) (c : Cmd) : Bool :=
  (((destRanges s c).map (fun r => pagesOf r.1 r.2)).flatten).all (fun p =>
    match probe s (cmdXer n c) p.1 with
    | some pa => decide (spadOf c.core ≤ pa) && decide (pa + p.2 ≤ spadOf c.core + 2 ^ 20)
    | none => false)

/-- The sequence number that a context's next command of a port takes (R276). -/
def nextSeq (c : Ctx) (port : Nat) : Nat := (lookupKey port c.q.seqs).getD 0

/-- A command as it would enter the engine from the acting context. -/
def newCmd (s : State) (p : Party) (w : Word) (src dst idx : Cap) (stride : Int) : Cmd :=
  let c := s.cur
  { word := w, src := src, dst := dst, idx := idx, stride := stride, seq := nextSeq c (cmdPort w), slot := s.slot,
    region := c.h.region, core := s.core, party := p, atp := c.h.atp, stamp := (s.coreAt s.core).pushes, spad := [],
    spadAll := false, started := false, pos := 0, done := 0, mask := List.replicate (cmdLen w) false, fault := none,
    status := none, paused := false, ranges := [], buf := [], ver := 0, stalls := [], packet := none, owes := none, miss := none }

/-- Has the port's FIFO room, and the core's checker (R265)? -/
def pushRoom (s : State) (n port : Nat) : Bool :=
  decide ((fifoOf s n s.slot port).length < 16) && decide ((checker s s.core).length < 32)

/-- A command joins its engine's FIFO (R130, R274). -/
def joinEngine (s : State) (n : Nat) (c : Cmd) : State :=
  let (sp, all) := enterRanges s n c
  let s := s.modEngine n (fun e => { e with cmds := e.cmds ++ [{ c with spad := sp, spadAll := all }] })
  let s := s.modCore c.core (fun k => { k with pushes := k.pushes + 1 })
  let port := cmdPort c.word
  s.modCtx c.slot (fun x => { x with q := { x.q with seqs := insertKey port ((c.seq + 1) % 2 ^ 32) x.q.seqs } })

/-- A push of an engine command by a party of the acting core (R285): it parks in a speculative segment, waits for room,
releases, and joins the FIFO. Answers the sequence number. -/
def enginePush (p : Party) (n : Nat) (w : Word) (src dst idx : Cap) (stride : Int) : M Nat := do
  let s ← get
  let c := newCmd s p w src dst idx stride
  if s.cur.spec && !destsInside s n c then parkIfSpec
  if !pushRoom s n (cmdPort w) then waits
  releaseOwn (homeScope n)
  modify (fun s => joinEngine s n c)
  return c.seq

/-! ### Pops -/

/-- The acquire of a pop (R132): the popping core's level-one lines that meet the command's destination ranges carry their
dirty bytes to .die and are dropped. -/
def popAcquire (s : State) (k : Nat) (ranges : List (Nat × Nat)) : State :=
  let lines := ((homesOf s k).map (fun j => (s.coreAt j).l1.map (·.1))).flatten
  (lines.filter (fun l => ranges.any (rangeMeets (64 * l, 64)))).foldl (fun s l => evict1 s k l) s

/-- The head of a party's result FIFO popped with its acquire. -/
def popResult (p : Party) (port : Nat) : M ResElem := do
  let s ← get
  match resFifo s.cur port p with
  | [] => waits
  | x :: rest =>
    modifyCur (fun c => setResFifo c port p rest)
    modify (fun s => popAcquire s s.core x.ranges)
    return x

/-- Waiting reply records join an event queue that has room (R409). -/
def lateJoin (q : Queues) : Queues :=
  let k := 64 - q.events.length
  { q with events := q.events ++ q.late.take k, late := q.late.drop k }

/-- The EQSTAT word (R285); absent engines read 0 (R264). -/
def eqstatWord (s : State) (p : Party) (port : Nat) : Word :=
  let c := s.cur
  let mk (free mine waiting evq : Nat) : Word :=
    BitVec.ofNat 64 (free <<< 48 ||| mine <<< 32 ||| waiting <<< 16 ||| evq)
  match liveEngine s s.core port with
  | some n =>
    mk (16 - (fifoOf s n s.slot port).length) (ownCmds s s.slot port).length (resFifo c port p).length 0
  | none =>
    if port = 16 then mk (16 - c.q.qa.length) 0 c.q.qa.length 0
    else if port = 17 then mk (16 - c.q.qb.length) 0 c.q.qb.length 0
    else if port = 18 then mk (16 - c.q.qd.length) 0 c.q.qd.length 0
    else if port = 63 then mk (64 - c.q.events.length) 0 c.q.events.length (evqWord c).toNat
    else 0

/-! ### The instructions -/

/-- The command word of EPUSH: a register or the literal. -/
def epushWord (x : EpushArgs) : M Word :=
  match x.lit with
  | some w => return w
  | none => consumeG x.b

/-- EPUSH (R285). -/
def execEpush (x : EpushArgs) (s : State) : Out :=
  scalarStep x.m (do
    let w ← epushWord x
    let port := cmdPort w
    if port = 18 then
      let c ← getCur
      if 16 ≤ c.q.qd.length then waits
      releaseOwn .core
      modifyCur (fun c => { c with q := { c.q with qd := c.q.qd ++ [w] } })
    else
      let s ← get
      match liveEngine s s.core port with
      | none => trapD cEport w 0
      | some n =>
        let c ← getCur
        let _ ← enginePush .control n w (readC c x.a) (readC c x.d) (readC c x.c) (immInt x.stride)
    advance x.m) s

/-- The trap of a port whose engine is absent (R264). -/
def checkPort (port : Nat) : M Unit := do
  let s ← get
  if isEnginePort port && (liveEngine s s.core port).isNone then trapD cEport (BitVec.ofNat 64 port) 0

/-- EPOP's head element: a result, an outcome of QA or of QB; none where it is empty. -/
def popPort (port : Nat) : M (Option Word) := do
  let c ← getCur
  if port = 16 then
    match c.q.qa with
    | [] => return none
    | w :: rest =>
      modifyCur (fun c => { c with q := { c.q with qa := rest } })
      return some w
  else if port = 17 then
    match c.q.qb with
    | [] => return none
    | w :: rest =>
      modifyCur (fun c => { c with q := { c.q with qb := rest } })
      return some w
  else if (resFifo c port .control).isEmpty then return none
  else
    let x ← popResult .control port
    return some x.w0

/-- EPOP (R285). -/
def execEpop (x : EpopArgs) (s : State) : Out :=
  scalarStep x.m (do
    checkPort x.port
    match ← popPort x.port with
    | none => waits
    | some w => modifyCur (fun c => writeG c x.d w)
    advance x.m) s

/-- EPOP.nw (R285): an empty queue gives 0. -/
def execEpopNw (x : EpopArgs) (s : State) : Out :=
  scalarStep x.m (do
    checkPort x.port
    let w := (← popPort x.port).getD 0
    modifyCur (fun c => writeG c x.d w)
    advance x.m) s

/-- EQSTAT (R285). -/
def execEqstat (x : EpopArgs) (s : State) : Out :=
  scalarStep x.m (do
    modify (fun s => s.modCur (fun c => writeG c x.d (eqstatWord s .control x.port)))
    advance x.m) s

/-- Four words written from a register on. -/
def write4 (c : Ctx) (d : GReg) (ws : List Word) : Ctx :=
  ws.zipIdx.foldl (fun c p => writeG c (Fin.ofNat 64 (d.val + p.2)) p.1) c

/-- The head record of the event queue popped with its acquire (R132, R277). -/
def popEvent : M (Option EvRec) := do
  let c ← getCur
  match c.q.events with
  | [] => return none
  | r :: rest =>
    modifyCur (fun c => { c with q := lateJoin { c.q with events := rest } })
    modify (fun s => popAcquire s s.core r.ranges)
    return some r

/-- EVPOP (R285). -/
def execEvpop (x : MdArgs) (s : State) : Out :=
  scalarStep x.m (do
    match ← popEvent with
    | none => waits
    | some r => modifyCur (fun c => write4 c x.d [r.w0, r.w1, r.w2, r.w3])
    advance x.m) s

/-- EVPOP.nw (R285): an empty queue gives four zeros. -/
def execEvpopNw (x : MdArgs) (s : State) : Out :=
  scalarStep x.m (do
    let ws := match ← popEvent with
      | none => [0, 0, 0, 0]
      | some r => [r.w0, r.w1, r.w2, r.w3]
    modifyCur (fun c => write4 c x.d ws)
    advance x.m) s

/-! ### VBIND and VUNBIND (R283) -/

/-- The register of a binding. -/
def bindReg (d : Fin 8) : VReg := Fin.ofNat 32 (24 + d.val)

/-- VBIND (R283). -/
def execVbind (x : VbindArgs) (s : State) : Out :=
  vecStep (.vbind x) x.m (some x.b) (some x.a) (return ()) (do
    let c ← getCur
    if !active x.m c 0 then return ()
    let cap ← capturedC
    let off := memOff (← capturedG) x.imm
    let va : Word := capCursor cap + wordOf off
    let pa ← orTrap (← capAccess cap off 64 .load .read) x.a
    if !capHas cap .lcap then trapD cCapPerm va (BitVec.ofNat 64 x.a)
    if inCtl pa then trapD cCtlAccess va (BitVec.ofNat 64 x.a)
    if pa % 64 ≠ 0 then trapD cAlign va (BitVec.ofNat 64 x.a)
    ownFirst pa 64
    let s ← get
    let (s, bs, t) := loadPiece s s.core (ctxWsets s s.cur) pa 64 .core x.hint.toNat
    set s
    let word (i : Nat) : Word := wordOfBytes ((bs.drop (8 * i)).take 8)
    let capw (i : Nat) : Cap :=
      { bits := BitVec.ofNat 128 (natOfBytes ((bs.drop (16 * i)).take 16)), tag := t.getLsbD i }
    if bindBad (word 0) then trapD cBindRec (BitVec.ofNat 64 (24 + x.d.val)) (word 0)
    let b : Binding :=
      { word0 := word 0, stride := word 1, base := capw 1, scale := capw 2, sstride := word 6, bound := true }
    modifyCur (fun c => { c with q := { c.q with binds := c.q.binds.set x.d b } })) s

/-- End marks at the head of a strip queue removed. -/
def dropMarks : List StripEntry → List StripEntry
  | .endMark :: rest => dropMarks rest
  | l => l

/-- VUNBIND (R283). -/
def execVunbind (x : VunbindArgs) (s : State) : Out :=
  vecStep (.vunbind x) x.m none none (return ()) (do
    let c ← getCur
    if !active x.m c 0 then return ()
    let b := c.q.binds[x.d]
    let q := bindQueue b
    modifyCur (fun c => { c with q := { c.q with
      binds := c.q.binds.set x.d { b with bound := false }
      strips := c.q.strips.set q (dropMarks c.q.strips[q]) } })) s

end Sys2Proof.Machine
end

