-- ==== Sys2Proof/Machine/EngineSteps.lean ====
section
/-! DEFINITION. The accesses of engines (R130, R271, R422, R443), the refusals of R270, the granules and elements of
copies, gathers and reductions (R269 to R273), link commands (R327, R328), and records (R276, R277). -/

namespace Sys2Proof.Machine

/-- Cause EREFUSE (R289). -/
def cERefuse : BitVec 16 := 0x406
/-- Cause SEALTAG (R434). -/
def cSealTag : BitVec 16 := 0xA02
/-- Cause SEALSTATE. -/
def cSealState : BitVec 16 := 0xA03

/-! ### Accesses -/

/-- Is the engine a collective engine? -/
def isCollective (n : Nat) : Bool := decide (72 ≤ n) && decide (n < 76)
/-- Is the command a sealing or an unsealing? -/
def isSealing (w : Word) : Bool := cmdOp w == 8 || cmdOp w == 9

/-- The scope of an engine's writes (R268, R130). -/
def cmdScope (n : Nat) (w : Word) : Scope :=
  let s := match field w 51 3 with
    | 3 => Scope.die | 4 => .pkg | 5 => .sys | _ => .die
  if n < 72 then s else if narrower s .pkg then .pkg else s

/-- A physical piece of an access, with the interleave code of its leaf (R399): address, bytes, code. -/
abbrev Piece := Nat × Nat × BitVec 2

/-- The byte ranges of pieces. -/
def pieceRanges (ps : List Piece) : List (Nat × Nat) := ps.map (fun p => (p.1, p.2.1))

/-- Why an engine's access does not happen: it stalls (R135), its walk has met a miss that is still to be reported (R406), or it
faults with a cause at a virtual address. -/
inductive EngStop where
  | stall
  | miss (f : XFault) (va : Nat) (write : Bool)
  | fault (cause : BitVec 16) (va : Word)
  deriving DecidableEq, Repr

/-- A command that missed waits for the reply to its page request (R408); an entry holds 16 waiters. -/
def joinWaiter (s : State) (c : Cmd) (f : XFault) (va : Nat) : State :=
  let root := field c.atp 0 14
  let key := missKey (field (s.rootAt root).rtcfg 0 14) root va f
  let w : Waiter :=
    { slot := c.slot, port := cmdPort c.word, seq := c.seq, cause := f.cause, va := BitVec.ofNat 64 va
      word0 := BitVec.ofNat 64 (61 <<< 58 ||| 1 <<< 50 ||| pusherCode c.party <<< 48 ||| field c.word 32 8 <<< 40) }
  { s with requests := s.requests.map (fun (r : Request) =>
      if reqKey r = key ∧ f.req ≠ 0xFFFFFFFF ∧ r.waiters.length < 16 ∧
          !(r.waiters.any (fun u => u.slot == w.slot && u.port == w.port && u.seq == w.seq)) then
        { r with waiters := r.waiters ++ [w] }
      else r) }

/-- Pages translated in order under the command's root (R394). -/
def xlatePages (n : Nat) (c : Cmd) (write : Bool) : List (Nat × Nat) → State → State × Except EngStop (List Piece)
  | [], s => (s, .ok [])
  | (va, k) :: rest, s =>
    let p : Perm := if write then .write else .read
    match walkFor s (cmdXer n c) va p with
    | (s, .error f) =>
      (s, .error (if missed f p then .miss f va write else .fault f.cause (BitVec.ofNat 64 va)))
    | (s, .ok pa) =>
      let code := s.code
      match xlatePages n c write rest s with
      | (s, .error e) => (s, .error e)
      | (s, .ok l) => (s, .ok ((pa, k, code) :: l))

/-- Does a write of bytes leave part of a poisoned line standing (R443)? A read meets any poisoned line that the engine's
point does not cover, a write one that its own scope's point does not. -/
def engMemErr (s : State) (n : Nat) (c : Cmd) (write : Bool) (pa k : Nat) : Bool :=
  !s.poison.isEmpty && (pieces pa k (k / 64 + 2)).any (fun p =>
    s.poison.contains (lineOf p.1) && !(write && p.2 == 64) &&
      (decide (72 ≤ n) || (write && cmdScope n c.word != .die) || (s.l2Line (engineDie n) (lineOf p.1)).isNone))

/-- The session of a sealing command (R425). -/
def sealSession (c : Cmd) : Nat := field c.word 40 4

/-- Does R422 refuse an engine's access to bytes: those of a sealing are accesses of its session (R425)? -/
def engRefused (s : State) (c : Cmd) (pa : Nat) : Bool :=
  if isSealing c.word then (protectedBy s pa).any (fun j => j != sealSession c) else refusedTo s c.region pa

/-- What stops an engine's access to translated bytes (R270, R271, R422, R443). -/
def engCheck (s : State) (n : Nat) (c : Cmd) (write : Bool) (va : Word) (p : Nat × Nat) : Option EngStop :=
  let (pa, k) := p
  if migrating s pa && !isSealing c.word then some .stall
  else if inCtl pa then some (.fault cCtlAccess va)
  else if inPewter pa && !(write && cmdOp c.word == 0 && decide (n < 36) && inSlice s pa) then some (.fault cMSource va)
  else if inPeer pa && !isCollective n then some (.fault cPeerWin va)
  else if engRefused s c pa then some (.fault cProtected va)
  else if engMemErr s n c write pa k then some (.fault cMemErr va)
  else none

/-- CapAccess and Translate of an engine's access, page by page (R271): the physical pieces. -/
def engAccess (s : State) (n : Nat) (c : Cmd) (cap : Cap) (off : Int) (k : Nat) (write : Bool) :
    State × Except EngStop (List Piece) :=
  let va := offVa cap off
  match capCheck cap off k (if write then .store else .load) with
  | .error cause => (s, .error (.fault cause (BitVec.ofNat 64 va)))
  | .ok _ =>
    match xlatePages n c write (pagesOf va k) s with
    | (s, .error e) => (s, .error e)
    | (s, .ok l) =>
      match ((pieceRanges l).zip (pagesOf va k)).findSome? (fun p => engCheck s n c write (BitVec.ofNat 64 p.2.1) p.1) with
      | some e => (s, .error e)
      | none => (s, .ok l)

/-- Pieces cut at line boundaries. -/
def linePieces (ps : List Piece) : List Piece :=
  ps.flatMap (fun p => (pieces p.1 p.2.1 (p.2.1 / 64 + 2)).map (fun q => (q.1, q.2, p.2.2)))

/-- Bytes and tags of part of a line as an engine reads them: its die's point, or the package point (R130). -/
def engLine (s : State) (n : Nat) (p : Piece) : List Byte × BitVec 4 :=
  let (pa, k, code) := p
  if inPeer pa then
    ((List.range k).map (fun i => Config.peerByte ((pa - peerBase) / 2 ^ 40) ((pa - peerBase) % 2 ^ 40 + i) s.fresh), 0)
  else
    match (if n < 72 && inMemory s pa then s.l2Line (engineDie n) (lineOf pa) else none) with
    | some x =>
      let h := min k (rstateHead s pa)
      ((if h = 0 then [] else rstateLoad s pa h) ++ ((bytesOfNat 64 x.data.toNat).drop (pa % 64 + h)).take (k - h), x.tags)
    | none => (codeLoad s code pa k, sideTags s code (lineOf pa))

/-- Bytes of physical pieces as an engine reads them. -/
def engRead (s : State) (n : Nat) (ps : List Piece) : List Byte := ((linePieces ps).map (fun p => (engLine s n p).1)).flatten

/-- The tags of the granules of 16 that physical pieces hold, in order. -/
def engTags (s : State) (n : Nat) (ps : List Piece) : List Bool :=
  (ps.flatMap (fun p => (List.range (p.2.1 / 16)).map (fun i => (p.1 + 16 * i, 16, p.2.2)))).map
    (fun p => (engLine s n p).2.getLsbD (p.1 % 64 / 16))

/-- Bytes merged into a line at a die's point by an engine (R130): a line that level two does not hold is filled first. -/
def diePut (s : State) (d owner l : Nat) (code : BitVec 2) (data : BitVec 512) (m : BitVec 64) (tags : BitVec 4) : State :=
  let (s, x) := match s.l2Line d l with
    | some x => (s, x)
    | none =>
      let s := sideFill s l code
      (s, { data := pkgData s l, dirty := 0, tags := pkgTags s l, writers := [], owner := 0, code := code })
  touch (s.l2Put d l { x with
    data := mergeData x.data data m, dirty := x.dirty ||| m, tags := mergeTags x.tags tags m, owner := owner, code := code }) l

/-- Bytes written in part of a line by an engine at a scope: at its die's point, or at the package point; what goes to a
peer leaves the part (R271). -/
def engPut (s : State) (n : Nat) (sc : Scope) (owner pa : Nat) (code : BitVec 2) (bs : List Byte) (tags : BitVec 4) : State :=
  if inPeer pa then s
  else if sc = .die && inMemory s pa then
    let h := min bs.length (rstateHead s pa)
    let s := if h = 0 then s else rstateStore s pa (bs.take h)
    diePut s (engineDie n) owner (lineOf pa) code (BitVec.ofNat 512 (natOfBytes bs <<< (8 * (pa % 64))))
      (byteMask (pa % 64 + h) (bs.length - h)) (if h = 0 then tags else untagFirst pa tags)
  else codeStore s code pa bs tags

/-- A line's tag bits from those of consecutive granules at an address. -/
def tagsAt (pa : Nat) (ts : List Bool) : BitVec 4 :=
  BitVec.ofNat 4 (ts.zipIdx.foldl (fun acc p => acc ||| b2n p.1 <<< (pa % 64 / 16 + p.2)) 0)

/-- Bytes written by an engine over physical pieces, each piece within a line's bytes. -/
def engWrite (s : State) (n : Nat) (sc : Scope) (owner : Nat) (ps : List Piece) (bs : List Byte)
    (ts : List Bool) : State :=
  ((linePieces ps).foldl (fun (acc : State × List Byte × List Bool) p =>
    let k := p.2.1
    (engPut acc.1 n sc owner p.1 p.2.2 (acc.2.1.take k) (tagsAt p.1 (acc.2.2.take (k / 16))),
      acc.2.1.drop k, acc.2.2.drop (k / 16))) (s, bs, ts)).1

/-! ### Refusals (R270) -/

/-- Is an operation listed for an engine (R269)? -/
def opListed (n op : Nat) : Bool :=
  if n < 36 then [0, 1, 2, 5, 8, 9].contains op
  else if n < 72 then [3, 4, 7].contains op
  else if n < 76 then [0, 1, 2, 6].contains op
  else if n < 80 then op == 10
  else op == 8 || op == 9

/-- Is a field set that the operation leaves unused, or a scope that names nothing? A COPY uses aux for a pewter slice alone,
`pew` (R271). -/
def fieldsBad (w : Word) (pew : Bool) : Bool :=
  let aux := cmdAux w
  decide (6 ≤ field w 51 3) ||
    (match cmdOp w with
      | 0 => !pew && aux != 0
      | 2 | 5 | 6 | 7 | 10 => aux != 0
      | 3 | 4 => decide (4 ≤ aux)
      | 8 | 9 => decide (16 ≤ aux)
      | _ => false)

/-- Are the length and cursors out of what the operation takes? -/
def lengthBad (c : Cmd) : Bool :=
  let w := c.word
  let len := cmdLen w
  let off (m : Nat) : Bool := len % m != 0 || (capCursor c.src).toNat % m != 0 || (capCursor c.dst).toNat % m != 0
  match cmdOp w with
  | 3 | 4 => len == 0 || decide (4096 < len)
  | 5 => len == 0 || off 16
  | 6 => len == 0 || off 4
  | _ => len == 0

/-- A page translated for a command without any effect, with the interleave code of its leaf. -/
def probeCode (s : State) (x : Xer) (va : Nat) : Option (Nat × BitVec 2) :=
  match translate s x va .none with
  | (s, .ok pa) => some (pa, s.code)
  | (_, .error _) => none

/-- The index of element `i`, where it can be read now. -/
def probeIndex (s : State) (n : Nat) (c : Cmd) (i : Nat) : Option Int :=
  let ps := (pagesOf (offVa c.idx (4 * (i : Int))) 4).map (fun p =>
    (probeCode s (cmdXer n c) p.1).map (fun r => (r.1, p.2, r.2)))
  if ps.all (·.isSome) then some (signExt (natOfBytes (engRead s n (ps.filterMap id))) 32) else none

/-- Source and destination offsets of element `i` with an index. -/
def elemOffs (w : Word) (i : Nat) (ix : Int) : Int × Int :=
  let z : Int := elemSize w
  if cmdOp w = 3 then (ix * z, (i : Int) * z) else ((i : Int) * z, ix * z)

/-- The extents of a gather's elements: sources, destinations. -/
def gatherExtents (s : State) (n : Nat) (c : Cmd) (els : List Nat) : List (Nat × Nat) × List (Nat × Nat) :=
  let z := elemSize c.word
  let es := els.filterMap (fun i => (probeIndex s n c i).map (elemOffs c.word i))
  ((offVa c.idx 0, 4 * cmdLen c.word) :: es.map (fun e => (offVa c.src e.1, z)), es.map (fun e => (offVa c.dst e.2, z)))

/-- Elements whose bit in a done mask is clear. -/
def clearBits (m : List Bool) : List Nat := (List.range m.length).filter (fun i => !(m.getD i false))

/-- The extents of a command now: sources and destinations. -/
def extentsOf (s : State) (n : Nat) (c : Cmd) : List (Nat × Nat) × List (Nat × Nat) :=
  if isGather c.word then gatherExtents s n c (List.range (cmdLen c.word))
  else if cmdOp c.word = 7 then
    match maskOf (s.ctxAt c.slot) (cmdLen c.word) with
    | some m => gatherExtents s n m.cmd (clearBits m.cmd.mask)
    | none => ([], [])
  else copyExtents c

/-- The pages of extents that translate now. -/
def livePages (s : State) (n : Nat) (c : Cmd) (rs : List (Nat × Nat)) : List (Nat × Nat) :=
  ((rs.map (fun r => pagesOf r.1 r.2)).flatten).filterMap (fun p =>
    (probe s (cmdXer n c) p.1).map (fun pa => (pa, p.2)))

/-- The pewter slice that holds a physical address. -/
def sliceOf (pa : Nat) : Nat := (pa - pewterBase) / 2 ^ 23

/-- The refusal of a COPY into pewter (R270, R271): every destination page in one present slice, whole units, a key that the
region may use. -/
def pewterRefuse (s : State) (n : Nat) (c : Cmd) (dst : List (Nat × Nat)) : Option (BitVec 16) :=
  if !(dst.any (fun p => inPewter p.1)) then none
  else if cmdOp c.word ≠ 0 || !decide (n < 36) || !(dst.all (fun p => inSlice s p.1 && sliceOf p.1 == sliceOf (dst.headD (0, 0)).1)) then
    some cMSource
  else if cmdLen c.word % 4096 ≠ 0 || (capCursor c.dst).toNat % 4096 ≠ 0 then some cERefuse
  else if !keyOk s c.region (cmdAux c.word) then some cWeightKey
  else none

/-- The version-table entry of a sealing command, and its address. -/
def vtEntry (s : State) (c : Cmd) : Nat × Word :=
  let a := (s.sessionAt (sealSession c)).vtbase.toNat + 8 * c.stride.toNat
  (a, pkgWord s a)

/-- Does a range lie wholly in one session's ranges? -/
def inSession (s : State) (j pa n : Nat) : Bool :=
  (s.sessionAt j).ranges.toList.any (fun r => decide (r.1.toNat ≤ pa) && decide (pa + n ≤ r.1.toNat + r.2.toNat))

/-- Does the page that a seal engine works on lie, granule by granule, in the memory of its own base die (R425, R399)? -/
def homeHere (s : State) (n : Nat) (c : Cmd) : Bool :=
  (pagesOf (offVa (if cmdOp c.word = 8 then c.src else c.dst) 0) (cmdLen c.word)).all (fun p =>
    match probeCode s (cmdXer n c) p.1 with
    | some r => (List.range ((p.2 + 255) / 256)).all (fun i => homeDie s r.2 (r.1 + 256 * i) == n - 80)
    | none => true)

/-- The refusal of a sealing (R425). -/
def sealRefuse (s : State) (n : Nat) (c : Cmd) (src dst : List (Nat × Nat)) : Option (BitVec 16) :=
  let j := sealSession c
  let x := s.sessionAt j
  let len := cmdLen c.word
  let inside := if cmdOp c.word = 8 then src else dst
  let outside := if cmdOp c.word = 8 then dst else src
  if x.state ≠ 2 || c.stride < 0 || !decide (c.stride < x.vtlen.toNat) || (len != 4096 && len != 65536) ||
      !(inside.all (fun p => inSession s j p.1 p.2)) || outside.any (fun p => (protectedBy s p.1).isSome) ||
      (capCursor c.src).toNat % len != 0 || (capCursor c.dst).toNat % len != 0 ||
      (decide (80 ≤ n) && !homeHere s n c) then some cERefuse
  else if bit (vtEntry s c).2 0 != (cmdOp c.word == 9) then some cSealState
  else none

/-- Would a cut by the snapshot engine of die `d` be turned away (R431)? -/
def cutBad (s : State) (d : Nat) : Bool :=
  !(bit (s.snapAt d).ctl 63) || ((s.snapAt d).cut && !(s.snapAt d).complete)

/-- Why the engine refuses the whole command now, before its first granule (R270). -/
def refusal (s : State) (n : Nat) (c : Cmd) : Option (BitVec 16) :=
  let w := c.word
  if !opListed n (cmdOp w) || fieldsBad w true || lengthBad c then some cERefuse
  else
    let (se, de) := extentsOf s n c
    let src := livePages s n c se
    let dst := livePages s n c de
    if fieldsBad w (dst.any (fun p => inPewter p.1)) then some cERefuse
    else if (src ++ dst).any (fun p => inCtl p.1) then some cCtlAccess
    else if src.any (fun p => inPewter p.1) then some cMSource
    else
      match pewterRefuse s n c dst with
      | some e => some e
      | none =>
        if (src ++ dst).any (fun p => inPeer p.1) && !isCollective n then some cPeerWin
        else if cmdOp w = 7 && (maskOf (s.ctxAt c.slot) (cmdLen w)).isNone then some cERefuse
        else if isSealing w then sealRefuse s n c src dst
        else if cmdOp w = 10 && cutBad s (n - 76) then some cERefuse
        else none

/-! ### Commands in their places -/

/-- A command set back into its place. -/
def setCmd (s : State) (n i : Nat) (c : Cmd) : State := s.modEngine n (fun e => { e with cmds := e.cmds.set i c })

/-- A granule or element counted in EGRAN (R275). -/
def countGranule (s : State) (n : Nat) : State := s.modEngine n (fun e => { e with gran := e.gran + 1 })

/-- Does the range checker hold a command back behind an older one of its core (R131, R274)? -/
def heldBack (s : State) (c : Cmd) : Bool :=
  (checker s c.core).any (fun o =>
    decide (o.stamp < c.stamp) &&
      (o.spad.any (fun a => c.spad.any (rangeMeets a)) || (o.spadAll && !c.spad.isEmpty) ||
        (c.spadAll && !o.spad.isEmpty)))

/-- The link that a copy command feeds, with its producer's gang (R327). -/
def linkFor (s : State) (n : Nat) (c : Cmd) : Option (Link × Gang) :=
  let gid := (s.ctxAt c.slot).gang
  if !(decide (n < 36)) || !cmdSt c.word then none
  else
    match gang? s gid with
    | none => none
    | some g =>
      let ls := (lookupKey gid s.links).getD []
      let va := offVa c.dst 0
      if linkWindow ≤ va then
        match ls[(va - linkWindow) / 2 ^ 20]? with
        | some l => if g.slots.idxOf c.slot = l.producer ∧ l.pstage = cmdStage c.word then some (l, g) else none
        | none => none
      else none

/-- The slot of a link's consumer. -/
def consumerSlot (l : Link) (g : Gang) : Nat := g.slots.getD l.consumer noSlot

/-- Bytes credited to a stage by a granule (R278, R327). -/
def creditGranule (s : State) (n : Nat) (c : Cmd) (k : Nat) : State :=
  if !cmdSt c.word then s
  else
    let give (slot : Nat) (st : Fin 16) : State :=
      if (s.ctx? slot).isNone then s else creditStage s slot st (fun y => { y with credit := y.credit + BitVec.ofNat 24 k })
    match linkFor s n c with
    | some (l, g) => give (consumerSlot l g) l.cstage
    | none => give c.slot (cmdStage c.word)

/-- The work that an engine's command charges, if any (R438). -/
def cmdActivity (n : Nat) (c : Cmd) : Option (Fin 6) :=
  if isCollective n then some 4 else if isSealing c.word then some 2 else none

/-- Is a pre-emption of a context's gang under way, or the context away (R324, R328)? -/
def leaving (s : State) (slot : Nat) : Bool :=
  let c := s.ctxAt slot
  c.core.isNone || c.halt == some .preempt || c.halt == some .away

/-- Does the producer or the consumer of a link leave its core, or is it away from one (R328)? -/
def linkLeaves (s : State) (c : Cmd) (l : Link) (g : Gang) : Bool := leaving s c.slot || leaving s (consumerSlot l g)

/-- Does a link command stand still: it has paused while its gang leaves its cores, or its consumer has no core (R328)? -/
def linkHeld (s : State) (n : Nat) (c : Cmd) : Bool :=
  match linkFor s n c with
  | some (l, g) => (c.paused && linkLeaves s c l g) || (s.ctxAt (consumerSlot l g)).core.isNone
  | none => false

/-- Is a SNAPCUT behind another command of its FIFO (R431)? -/
def behind (s : State) (n : Nat) (c : Cmd) : Bool :=
  cmdOp c.word == 10 &&
    (((fifoOf s n c.slot (cmdPort c.word)).filter (fun o => o.status.isNone)).head?.map (·.seq)).any (· != c.seq)

/-- May a granule or element of a command perform now, but for its budget (R131, R275, R327, R431)? -/
def mayServe (s : State) (n : Nat) (c : Cmd) : Bool :=
  enginePresent s n && !(s.engineAt n).pause && c.status.isNone && !heldBack s c && !linkHeld s n c && !behind s n c &&
    (c.started || ((linkFor s n c).isNone && (refusal s n c).isNone))

/-- The regions with work of an activity pending in the engines, with their shares (R440). -/
def pendingShares (s : State) (a : Fin 6) : List (Nat × Nat) :=
  let rs := (s.engines.map (fun p =>
    (p.2.cmds.filter (fun c => cmdActivity p.1 c == some a && mayServe s p.1 c)).map (·.region))).flatten.dedup
  rs.map (fun r => (r, effShare s a r))

/-- Do the budget and the shares of its activity let a command of a region go on (R439, R440)? -/
def budgetServes (s : State) (a : Fin 6) (r : Nat) : Bool :=
  workReady s a && shareAllows s.budgets[a] (pendingShares s a) r

/-- May a granule or element of a command perform now? -/
def mayPerform (s : State) (n : Nat) (c : Cmd) : Bool :=
  mayServe s n c && (match cmdActivity n c with
    | some a => budgetServes s a c.region
    | none => true)

/-! ### Copies -/

/-- A command ended with a status; its stalled page goes on (R425). -/
def endCmd (s : State) (n i : Nat) (c : Cmd) (st : BitVec 3) : State :=
  let s := setCmd s n i { c with status := some st, stalls := [] }
  { s with migs := s.migs.filter (fun m => m.phase != 0 || !(c.stalls.any (fun p => p.1 == m.old))) }

/-- A copy stopped by a fault (R272): SHORT or FAULT. -/
def faultCmd (s : State) (n i : Nat) (c : Cmd) (cause : BitVec 16) (va : Word) : State :=
  endCmd s n i { c with fault := some (cause, va) } (if 0 < c.done then 1 else 2)

/-- Bytes of the granule that begins at a position of a copy (R271): to the next 64-byte boundary of the destination, the
end of the row at most. -/
def granuleLen (c : Cmd) (len : Nat) : Nat := min (64 - offVa c.dst c.pos % 64) (len - c.pos % len)

/-- The bytes of a granule and its tags: what the source holds, zeros, or the sums with the destination. -/
def granuleData (s : State) (n : Nat) (c : Cmd) (src dst : List Piece) (k : Nat) : List Byte × List Bool :=
  match cmdOp c.word with
  | 2 => (List.replicate k 0, [])
  | 5 =>
    let ok := capHas c.src .lcap && capHas c.dst .scap
    (engRead s n src, (engTags s n src).map (· && ok))
  | 6 =>
    let a := engRead s n dst
    let b := engRead s n src
    (((List.range (k / 4)).map (fun j =>
      bytesOfNat 4 (add32 (natOfBytes ((a.drop (4 * j)).take 4)) (natOfBytes ((b.drop (4 * j)).take 4))))).flatten, [])
  | _ => (engRead s n src, [])

/-- The weight attribute of a pewter unit set by the copy that writes it (R238, R271). -/
def setAttr (s : State) (c : Cmd) (dst : List Piece) : State :=
  match dst with
  | [] => s
  | (pa, _) :: _ =>
    if inPewter pa then
      let off := (capCursor c.src).toNat - (capBounds c.src).1 + c.pos / 4096 * 4096
      let a : Word := BitVec.ofNat 64 (cmdAux c.word <<< 48 ||| off % 2 ^ 48)
      { s with attrs := insertKey (alignDown pa 4096) a s.attrs }
    else s

/-- Does a granule meet a peer port without a link (R271, R275)? -/
def peerDown (s : State) (ps : List Piece) : Bool :=
  ps.any (fun p => inPeer p.1 && !(bit s.links16 ((p.1 - peerBase) / 2 ^ 40) && bit s.fuses.ports ((p.1 - peerBase) / 2 ^ 40)))

/-- A command whose walk has met a miss reports it at its next step (R406, R454). -/
def holdMiss (s : State) (n i : Nat) (c : Cmd) (m : XFault × Nat × Bool) : State := setCmd s n i { c with miss := some m }

/-- The source and destination pieces of a granule of `k` bytes at a copy's position; a FILL has no source. -/
def copyAccess (s : State) (n : Nat) (c : Cmd) (k : Nat) : State × Except EngStop (List Piece × List Piece) :=
  let len := cmdLen c.word
  let srcOff : Int := ((c.pos / len : Nat) : Int) * (if cmdOp c.word = 1 then c.stride else 0) + (c.pos % len : Nat)
  match (if cmdOp c.word = 2 then (s, .ok []) else engAccess s n c c.src srcOff k false) with
  | (s, .error e) => (s, .error e)
  | (s, .ok src) => match engAccess s n c c.dst c.pos k true with
    | (s, .error e) => (s, .error e)
    | (s, .ok dst) => (s, .ok (src, dst))

/-- One granule of a copy operation (R269, R271, R272). -/
def copyGranule (s : State) (n i : Nat) (c : Cmd) : State :=
  let len := cmdLen c.word
  let k := granuleLen c len
  let (s, rd) := copyAccess s n c k
  match rd with
  | .error .stall => s
  | .error (.miss f va write) => holdMiss s n i c (f, va, write)
  | .error (.fault cause va) => faultCmd s n i c cause va
  | .ok (src, dst) =>
    if peerDown s (src ++ dst) then endCmd s n i c 5
    else
      let (bs, ts) := granuleData s n c src dst k
      let s := engWrite { s with fresh := s.fresh + 1 } n (cmdScope n c.word) c.region dst bs ts
      let s := countGranule (creditGranule (setAttr s c dst) n c k) n
      let s := match cmdActivity n c with
        | some a => chargeFor s a c.region k
        | none => s
      let c := { c with started := true, pos := c.pos + k, done := c.done + k, ranges := c.ranges ++ pieceRanges dst }
      if c.pos = len * cmdRows c.word then endCmd s n i c 0 else setCmd s n i c

/-! ### Granules that a segment ties (R133) -/

/-- The pieces of a copy's source in the order of its positions, as they translate now: position, address, bytes. A FILL has
none. -/
def srcPlaces (s : State) (n : Nat) (c : Cmd) : List (Nat × Nat × Nat) :=
  if cmdOp c.word = 2 then []
  else
    let ps := ((copyExtents c).1.map (fun r => pagesOf r.1 r.2)).flatten
    let at_ := ps.foldl (fun (acc : List (Nat × Nat × Nat) × Nat) p => ((acc.2, p.1, p.2) :: acc.1, acc.2 + p.2)) ([], 0)
    at_.1.reverse.filterMap (fun p => (probe s (cmdXer n c) p.2.1).map (fun pa => (p.1, pa, p.2.2)))

/-- The positions of a copy at which its source holds bytes of a line: from, to. -/
def linePlaces (pl : List (Nat × Nat × Nat)) (l : Nat) : List (Nat × Nat) :=
  (pl.filter (fun p => rangeMeets (p.2.1, p.2.2) (64 * l, 64))).map (fun p =>
    (p.1 + (64 * l - p.2.1), p.1 + min p.2.2 (64 * l + 64 - p.2.1)))

/-- The segments with bytes in a copy's source at the positions from `a` to `b`. -/
def segsAt (s : State) (pl : List (Nat × Nat × Nat)) (a b : Nat) : List (List Nat) :=
  s.segs.filter (fun t => t.any (fun l => (linePlaces pl l).any (fun r => decide (r.1 < b) && decide (a < r.2))))

/-- How far the segments with bytes in the granule at a copy's position reach in its source (R133): granules up to there move
in one step. -/
def tiedUpTo (s : State) (n : Nat) (c : Cmd) : Nat :=
  let pl := srcPlaces s n c
  let ts := segsAt s pl c.pos (c.pos + granuleLen c (cmdLen c.word))
  (ts.flatten.flatMap (linePlaces pl)).foldl (fun g r => max g r.2) 0

/-- The destination lines of the positions from `a` to `b` of a copy, as they translate now. -/
def dstLines (s : State) (n : Nat) (c : Cmd) (a b : Nat) : List Nat :=
  ((pagesOf (offVa c.dst a) (b - a)).filterMap (fun p => (probe s (cmdXer n c) p.1).map (fun pa => (pa, p.2)))).flatMap
    (fun p => if inMemory s p.1 then (List.range ((p.1 % 64 + p.2 + 63) / 64)).map (fun i => lineOf p.1 + i) else [])

/-- What a copy has written of segments of its source from position `a` on stays together too (R133). -/
def tieCopied (s : State) (n : Nat) (c : Cmd) (a b : Nat) (pl : List (Nat × Nat × Nat)) (ts : List (List Nat)) : State :=
  ts.foldl (fun s t => tieLines s ((t.flatMap (linePlaces pl)).flatMap (fun r =>
    dstLines s n c (max a r.1) (min b r.2))).dedup) s

/-- The granules of one step of a copy: the one at its position, and those up to `goal` that a segment ties to them (R133). -/
def copyTied (s : State) (n i : Nat) (c : Cmd) (goal : Nat) : Nat → State
  | 0 => s
  | fuel + 1 =>
    let s' := copyGranule s n i c
    match (s'.engineAt n).cmds[i]? with
    | none => s'
    | some c' =>
      let goal := max goal (tiedUpTo s n c)
      if c'.status.isSome || c'.miss.isSome || c'.pos ≤ c.pos || goal ≤ c'.pos then s' else copyTied s' n i c' goal fuel

/-- One step of a copy (R271, R272, R133). -/
def copyStep (s : State) (n i : Nat) (c : Cmd) : State :=
  if s.segs.isEmpty then copyGranule s n i c
  else
    let pl := srcPlaces s n c
    let s' := copyTied s n i c 0 (cmdLen c.word * cmdRows c.word + 1)
    match (s'.engineAt n).cmds[i]? with
    | none => s'
    | some c' => tieCopied s' n c c.pos c'.pos pl (segsAt s pl c.pos c'.pos)

/-! ### Gathers -/

/-- A mask that joins the four newest of a context (R273). -/
def keepMask (s : State) (c : Cmd) : State :=
  if (s.ctx? c.slot).isNone then s
  else s.modCtx c.slot (fun x =>
    let l := x.q.masks ++ [{ port := cmdPort c.word, cmd := c }]
    { x with q := { x.q with masks := l.drop (l.length - 4) } })

/-- The kept mask of a command dropped. -/
def dropMask (s : State) (slot seq : Nat) : State :=
  if (s.ctx? slot).isNone then s
  else s.modCtx slot (fun x => { x with q := { x.q with masks := x.q.masks.filter (fun m => m.cmd.seq != seq) } })

/-- Element `e` of the command `g` performed for the command `c` that runs (R269, R273): whether it stalled, its fault. -/
def gatherElem (s : State) (n : Nat) (c g : Cmd) (e : Nat) :
    State × Except EngStop (List Piece) :=
  let z := elemSize g.word
  match engAccess s n c g.idx (4 * (e : Int)) 4 false with
  | (s, .error x) => (s, .error x)
  | (s, .ok ip) =>
    let offs := elemOffs g.word e (signExt (natOfBytes (engRead s n ip)) 32)
    match engAccess s n c g.src offs.1 z false with
    | (s, .error x) => (s, .error x)
    | (s, .ok sp) =>
      match engAccess s n c g.dst offs.2 z true with
      | (s, .error x) => (s, .error x)
      | (s, .ok dp) => (engWrite s n (cmdScope n c.word) c.region dp (engRead s n sp) [], .ok dp)

/-- A gather whose last element has been taken ends: OK, or PARTIAL with its mask kept (R273). -/
def endGather (s : State) (n i : Nat) (c : Cmd) : State :=
  if c.fault.isSome then keepMask (endCmd s n i c 4) c else endCmd s n i c 0

/-- The element of a GATHER or SCATTER at its position faults and is skipped (R273). -/
def gatherFault (s : State) (n i : Nat) (c : Cmd) (cause : BitVec 16) (va : Word) : State :=
  let c := { c with started := true, pos := c.pos + 1, fault := c.fault.or (some (cause, va)) }
  if c.pos = cmdLen c.word then endGather s n i c else setCmd s n i c

/-- One element of a GATHER or SCATTER (R273). -/
def gatherStep (s : State) (n i : Nat) (c : Cmd) : State :=
  let e := c.pos
  let z := elemSize c.word
  let (s, r) := gatherElem s n c c e
  match r with
  | .error .stall => s
  | .error (.miss f va write) => holdMiss s n i c (f, va, write)
  | .error (.fault cause va) => gatherFault s n i c cause va
  | .ok dp =>
    let s := countGranule (creditGranule s n c z) n
    let c := { c with started := true, pos := e + 1, done := c.done + 1, mask := c.mask.set e true, ranges := c.ranges ++ pieceRanges dp }
    if c.pos = cmdLen c.word then endGather s n i c else setCmd s n i c

/-- A REPLAY whose last clear element has been taken ends (R273): OK and the mask dropped once every bit is set, else
PARTIAL, and the mask counts as the newest. -/
def endReplay (s : State) (n i : Nat) (c g : Cmd) : State :=
  let s := dropMask s c.slot g.seq
  if g.mask.all id then endCmd s n i c 0 else keepMask (endCmd s n i c 4) g

/-- The next element of a REPLAY, from its position, whose bit is clear in the mask of the command `g`. -/
def replayNext (c g : Cmd) : Option Nat := (clearBits g.mask).find? (fun e => decide (c.pos ≤ e))

/-- Has a REPLAY that is past element `e` of the command `g` a clear element left? -/
def replayLeft (g : Cmd) (e : Nat) : Bool := (clearBits g.mask).any (fun f => decide (e < f))

/-- Element `e` of a REPLAY faults and is skipped (R273). -/
def replayFault (s : State) (n i : Nat) (c g : Cmd) (e : Nat) (cause : BitVec 16) (va : Word) : State :=
  let c := { c with started := true, pos := e + 1, fault := c.fault.or (some (cause, va)) }
  if replayLeft g e then setCmd s n i c else endReplay s n i c g

/-- One element of a REPLAY (R273): the next from its position whose bit was clear. -/
def replayStep (s : State) (n i : Nat) (c : Cmd) : State :=
  match maskOf (s.ctxAt c.slot) (cmdLen c.word) with
  | none => endCmd s n i { c with fault := some (cERefuse, 0) } 4
  | some m =>
    let g := m.cmd
    match replayNext c g with
    | none => endReplay s n i c g
    | some e =>
      let (s, r) := gatherElem s n c g e
      match r with
      | .error .stall => s
      | .error (.miss f va write) => holdMiss s n i c (f, va, write)
      | .error (.fault cause va) => replayFault s n i c g e cause va
      | .ok dp =>
        let s := countGranule (creditGranule s n c (elemSize g.word)) n
        let g := { g with mask := g.mask.set e true }
        let s := s.modCtx c.slot (fun x => { x with q := { x.q with
          masks := x.q.masks.map (fun k => if k.cmd.seq = g.seq then { k with cmd := g } else k) } })
        let c := { c with started := true, pos := e + 1, done := c.done + 1, ranges := c.ranges ++ pieceRanges dp }
        if replayLeft g e then setCmd s n i c else endReplay s n i c g

/-! ### Cuts and sealed pages -/

/-- The cut of one snapshot engine (R431): dirty bytes of the covered range reach the package point, every bit of the bitmap
becomes 1, and what an earlier cut copied counts no more. -/
def takeCut (s : State) (d : Nat) : State :=
  let x := s.snapAt d
  let s := flushRange s x.base.toNat x.len.toNat
  let n := ceilDiv (snapPages x) 8
  let map := x.map.toNat
  let s := (linesOf map n).foldl snapBefore s
  let last := map + n - 1
  let keep := snapPages x % 8
  let tail : Byte := if keep = 0 then 0xFF else (memGet s.mem last &&& ~~~ (maskAt 8 0 keep)) ||| maskAt 8 0 keep
  let s := bulkSet s map n (memPut (memWrite [] map (List.replicate n 0xFF)) last tail)
  s.modSnap d (fun x => { x with seq := x.seq + 1, complete := false, copied := 0, cut := true, pages := [] })

/-- The nonce and the associated data of a sealing with version `v` (R425): i as 4 bytes and v as 8, i and len as 4 each. -/
def sealNonce (c : Cmd) (v : Nat) : List Byte × List Byte :=
  (bytesOfNat 4 c.stride.toNat ++ bytesOfNat 8 v, bytesOfNat 4 c.stride.toNat ++ bytesOfNat 4 (cmdLen c.word))

/-- The stop of a sealing's access. -/
def sealStop (s : State) (n i : Nat) (c : Cmd) : EngStop → State
  | .stall => s
  | .miss f va write => holdMiss s n i c (f, va, write)
  | .fault cause va => faultCmd s n i c cause va

/-- PSEAL starts (R425): the pieces of its page stall and drain, and the engine makes the ciphertext and its tag. -/
def sealStart (s : State) (n i : Nat) (c : Cmd) : State :=
  let len := cmdLen c.word
  let (s, r) := engAccess s n c c.src 0 len false
  match r with
  | .error e => sealStop s n i c e
  | .ok ps =>
    let rs := pieceRanges ps
    if rs.any (fun p => migrating s p.1) then s
    else
      let s := { s with migs := s.migs ++ rs.map (fun p => { old := p.1, new := p.1, size := p.2, leaf := 0, va := 0, code := 0, phase := 0 }) }
      let s := rs.foldl (fun s p => flushRange s p.1 p.2) s
      let v := field (vtEntry s c).2 1 63 + 1
      let (nonce, ad) := sealNonce c v
      let (ct, tag) := gcmSeal (sessionKey s (sealSession c) 2) nonce ad (engRead s 80 ps)
      setCmd s n i { c with started := true, buf := ct ++ tag, ver := BitVec.ofNat 64 v, stalls := rs }

/-- PUNSEAL starts (R425): it reads and verifies the sealed copy; a tag that fails writes nothing. -/
def unsealStart (s : State) (n i : Nat) (c : Cmd) : State :=
  let len := cmdLen c.word
  let (s, r) := engAccess s n c c.src 0 (len + 16) false
  match r with
  | .error e => sealStop s n i c e
  | .ok ps =>
    let bs := engRead s n ps
    let (nonce, ad) := sealNonce c (field (vtEntry s c).2 1 63)
    match gcmOpen (sessionKey s (sealSession c) 2) nonce ad (bs.take len) (bs.drop len) with
    | some pt => setCmd s n i { c with started := true, buf := pt }
    | none => endCmd s n i { c with fault := some (cSealTag, 0) } 2

/-- The last step of a PSEAL (R425): the source zero, its entry the version that the sealing took and out, the page's accesses
released. -/
def sealFinish (s : State) (n i : Nat) (c : Cmd) : State :=
  let s := c.stalls.foldl (fun s p => bulkStore s p.1 p.2 []) s
  let s := pkgPut s (vtEntry s c).1 (BitVec.ofNat 64 (c.ver.toNat % 2 ^ 63 * 2 + 1))
  endCmd s n i c 0

/-- One granule of a sealing that has started, or its last step (R131, R425). The page's bytes are charged, not its tag's
(R438). -/
def sealGranule (s : State) (n i : Nat) (c : Cmd) : State :=
  let total := c.buf.length
  let len := cmdLen c.word
  if total ≤ c.pos then (if cmdOp c.word = 8 then sealFinish s n i c else endCmd s n i c 0)
  else
    let k := min (64 - offVa c.dst c.pos % 64) (total - c.pos)
    let (s, r) := engAccess s n c c.dst c.pos k true
    match r with
    | .error e => sealStop s n i c e
    | .ok dst =>
      let s := engWrite s n .pkg c.region dst ((c.buf.drop c.pos).take k) []
      let s := chargeFor (countGranule (creditGranule s n c k) n) 2 c.region (min (c.pos + k) len - min c.pos len)
      let c := { c with pos := c.pos + k, done := c.done + k, ranges := c.ranges ++ pieceRanges dst }
      if c.pos < total || cmdOp c.word = 8 then setCmd s n i c
      else
        let (a, e) := vtEntry s c
        endCmd (pkgPut s a (e &&& ~~~ 1#64)) n i c 0

/-- A miss reported (R406): its page request made or joined, the command a waiter for the reply (R408), and the fault delivered
to its granule or element (R272, R273). -/
def reportStep (s : State) (n i : Nat) (c : Cmd) (m : XFault × Nat × Bool) : State :=
  let (s, f) := reportMiss s (cmdXer n c) m.2.1 (if m.2.2 then .write else .read) m.1
  let s := joinWaiter s c f m.2.1
  let c := { c with miss := none }
  let va : Word := BitVec.ofNat 64 m.2.1
  if isGather c.word then gatherFault s n i c f.cause va
  else if cmdOp c.word = 7 then
    match maskOf (s.ctxAt c.slot) (cmdLen c.word) with
    | none => endCmd s n i { c with fault := some (cERefuse, 0) } 4
    | some m => match replayNext c m.cmd with
      | some e => replayFault s n i c m.cmd e f.cause va
      | none => endReplay s n i c m.cmd
  else faultCmd s n i c f.cause va

/-! ### The rows -/

/-- A command of an engine, by its place. -/
def cmdAt? (s : State) (x : EngArgs) : Option Cmd := (s.engineAt x.eng).cmds[x.idx]?

/-- ENGINE_REFUSE (R270): nothing is written; word 1 of the record holds the reason. -/
def execEngineRefuse (x : EngArgs) (s : State) : Out :=
  match cmdAt? s x with
  | none => .next s
  | some c =>
    if c.started || c.status.isSome || (s.engineAt x.eng).pause || heldBack s c then .next s
    else
      match refusal s x.eng c with
      | some cause => .next (endCmd s x.eng x.idx { c with fault := some (cause, 0) } 3)
      | none => .next s

/-- One granule or element of a command that may perform, or a cut (R271, R431). -/
def performCmd (s : State) (x : EngArgs) (c : Cmd) : State :=
  if let some m := c.miss then reportStep s x.eng x.idx c m
  else if isGather c.word then gatherStep s x.eng x.idx c
  else if cmdOp c.word = 7 then replayStep s x.eng x.idx c
  else if isSealing c.word then (if c.buf.isEmpty then s else sealGranule s x.eng x.idx c)
  else if cmdOp c.word = 10 then endCmd (takeCut s (x.eng - 76)) x.eng x.idx { c with started := true } 0
  else copyStep s x.eng x.idx c

/-- ENGINE_PERFORM (R271). -/
def execEnginePerform (x : EngArgs) (s : State) : Out :=
  match cmdAt? s x with
  | none => .next s
  | some c => .next (if mayPerform s x.eng c then performCmd s x c else s)

/-- PSEAL (R425): the start of a sealing, and its last step. -/
def execPseal (x : EngArgs) (s : State) : Out :=
  match cmdAt? s x with
  | none => .next s
  | some c =>
    if !mayPerform s x.eng c || cmdOp c.word ≠ 8 || c.miss.isSome then .next s
    else if !c.buf.isEmpty then .next (if c.buf.length ≤ c.pos then sealFinish s x.eng x.idx c else s)
    else .next (sealStart s x.eng x.idx c)

/-- PUNSEAL (R425): the start of an unsealing. -/
def execPunseal (x : EngArgs) (s : State) : Out :=
  match cmdAt? s x with
  | none => .next s
  | some c =>
    if !mayPerform s x.eng c || cmdOp c.word ≠ 9 || c.miss.isSome || !c.buf.isEmpty then .next s
    else .next (unsealStart s x.eng x.idx c)

/-- The record of a command (R276). -/
def cmdRecord (c : Cmd) : EvRec :=
  let st := (c.status.getD 0).toNat
  let f := c.fault.getD (0, 0)
  { w0 := BitVec.ofNat 64 (cmdPort c.word <<< 58 ||| cmdOp c.word <<< 54 ||| st <<< 51 ||| 1 <<< 50 |||
      pusherCode c.party <<< 48 ||| field c.word 32 8 <<< 40 ||| c.done % 2 ^ 32)
    w1 := BitVec.ofNat 64 (f.1.toNat <<< 32 ||| c.seq)
    w2 := f.2
    w3 := 0
    ranges := c.ranges }

/-- Have the context's event queue and the pusher's result FIFO room for a command's record (R265)? -/
def postRoom (c : Ctx) (k : Cmd) : Bool :=
  (!(bit k.word 50) || decide (c.q.events.length < 64)) &&
    (!(bit k.word 49) || decide ((resFifo c (cmdPort k.word) k.party).length < 16))

/-- A command's record and result element join its context's queues (R277). -/
def postCtx (c : Ctx) (k : Cmd) : Ctx :=
  let r := cmdRecord k
  let c := if bit k.word 50 then { c with q := { c.q with events := c.q.events ++ [r] } } else c
  if bit k.word 49 then
    setResFifo c (cmdPort k.word) k.party
      (resFifo c (cmdPort k.word) k.party ++ [{ w0 := r.w0, w1 := r.w1, ranges := r.ranges }])
  else c

/-- ENGINE_POST (R277): a completed command posts, unless its engine is paused (R275), and a packet that it served completes
(R426). The record of a command that ended early acquires the rest of its destination too (R132). Those of a pruned context
are dropped (R364). -/
def execEnginePost (x : EngArgs) (s : State) : Out :=
  match cmdAt? s x with
  | none => .next s
  | some k =>
    if k.status.isNone || (s.engineAt x.eng).pause then .next s
    else
      let k := if k.status = some 0 then k else { k with ranges := k.ranges ++ livePages s x.eng k (extentsOf s x.eng k).2 }
      let s' := s.modEngine x.eng (fun e => { e with cmds := e.cmds.eraseIdx x.idx })
      match k.packet with
      | some p => .next (packetEnds s' (some p) (if k.status = some 0 then 0 else 3))
      | none =>
        match s.ctx? k.slot with
        | none => .next s'
        | some c => .next (if c.pruned then s' else if postRoom c k then s'.modCtx k.slot (fun c => postCtx c k) else s)

/-- LINK_COMMAND_START (R327): the producer's stage has credit for the whole command, and its gang stands on its cores (R328). -/
def execLinkCommandStart (x : EngArgs) (s : State) : Out :=
  match cmdAt? s x with
  | none => .next s
  | some c =>
    match linkFor s x.eng c with
    | none => .next s
    | some (l, g) =>
      let len := cmdLen c.word
      if c.started || c.status.isSome || (s.engineAt x.eng).pause || heldBack s c || linkLeaves s c l g ||
          (refusal s x.eng c).isSome || (stageIn s c.slot l.pstage).credit.toNat < len then .next s
      else
        .next (setCmd (creditStage s c.slot l.pstage (fun y => { y with credit := y.credit - BitVec.ofNat 24 len }))
          x.eng x.idx { c with started := true })

/-- LINK_COMMAND_PAUSE (R328): a started link command of a gang that leaves its cores pauses; the gang's return lets it go
on. -/
def execLinkCommandPause (x : EngArgs) (s : State) : Out :=
  match cmdAt? s x with
  | none => .next s
  | some c =>
    match linkFor s x.eng c with
    | none => .next s
    | some (l, g) =>
      .next (if c.started && c.status.isNone && linkLeaves s c l g then
        setCmd s x.eng x.idx { c with paused := true } else s)

end Sys2Proof.Machine
end

