-- ==== Sys2Proof/Machine/Loops.lean ====
section
/-! DEFINITION. The carousel's instructions (R290 to R298) and the sideshow (R301 to R306). -/

namespace Sys2Proof.Machine

/-- Cause CLCOUNT (R307). -/
def cClCount : BitVec 16 := 0x801
/-- Cause SIDEFULL. -/
def cSideFull : BitVec 16 := 0x802
/-- Cause SIDECFG. -/
def cSideCfg : BitVec 16 := 0x803

/-! ### The carousel -/

/-- CLSET (R292). -/
def execClset (x : ClsetArgs) (s : State) : Out :=
  scalarStep x.m (do
    let n ← consumeG x.a
    let st ← match x.lit with
      | some v => pure v
      | none => consumeG x.b
    let cnt := n.toNat + x.cnt.toNat
    if 2 ^ 32 ≤ cnt then trapD cClCount (BitVec.ofNat 64 cnt) (BitVec.ofNat 64 x.level)
    let l : Level := { count := BitVec.ofNat 32 cnt, index := 0, stride := st + wordOf (sint x.str), reg := x.d }
    modifyCur (fun c => { c with car := { c.car with levels := c.car.levels.set x.level l } })
    advance x.m) s

/-- The first words of `n` instructions read for their lengths; a failing check leaves PC on its instruction (R293). -/
def skipBody (va : Word) : Nat → M Word
  | 0 => return va
  | n + 1 => do
    let w ← namePc va (fetchWord va)
    skipBody (va + BitVec.ofNat 64 (instrLength w)) n

/-- The first poisoned designated register of the nest (R293). -/
def poisonedLevel (c : Ctx) : Option GReg :=
  ((nestLevels c.car).filterMap (fun i => (c.car.levels.toList[i]?).map (·.reg))).find? (gPoison c)

/-- CLRUN (R293): the passes follow at the thread's next boundaries. -/
def execClrun (x : ClrunArgs) (s : State) : Out :=
  runThread (do
    let c ← getCur
    let va := nextPc c x.m
    if active x.m c 0 then
      let body ← fetchBody va x.n.toNat
      match barredAt va body with
      | some a => trapD cClBody a c.h.pc
      | none => pure ()
      match poisonedLevel c with
      | some r => throw (.trap (poisonTrap c r))
      | none => pure ()
      modifyCur (fun c => setPc { c with car := { c.car with
        levels := c.car.levels.map (fun l => { l with index := 0 })
        body := va, cln := x.n.toNat, pos := 0, buffer := body, runAt := c.h.pc } } va)
    else
      let e ← skipBody va x.n.toNat
      modifyCur (fun c => setPc c e)) s

/-! ### The sideshow -/

/-- Is a path of the sideshow configured (R304)? -/
def pathOk (ss : Sideshow) (p : Nat) : Bool := ss.slots != 0 && decide (p < 2 ^ ss.lp)

/-- The scratchpad offset of slot `j` of path `p` (R301). -/
def slotOff (ss : Sideshow) (p j : Nat) : Nat := ss.base + 64 * (p * ss.slots + j)

/-- The registers that start the k value groups; each is checked (R303). -/
def valueRegs (n : VReg) (t : Ty) (k : Nat) : M (List VReg) := do
  let c ← getCur
  let m := (groupSize c.vr c.vr.vl.toNat t.width).getD 1
  (List.range k).mapM (fun i =>
    if n.val + i * m < 32 then pure (Fin.ofNat 32 (n.val + i * m))
    else trapD cVGroup (BitVec.ofNat 64 n) (BitVec.ofNat 64 m))

/-- The bytes of an entry (R302). -/
def sideEntry (index : Nat) (vals : List Nat) (t : Ty) (k : Nat) : List Byte :=
  bytesOfNat 8 (index % 2 ^ 32) ++ ((List.range 4).map (fun i => bytesOfNat 8 (vals.getD i 0))).flatten ++
    bytesOfNat 8 (t.code.toNat ||| k <<< 8) ++ bytesOfNat 16 0

/-- The trap of a path that is not configured (R307). -/
def checkPath (p : Nat) : M Unit := do
  let c ← getCur
  if !pathOk c.ss p then trapD cSideCfg (BitVec.ofNat 64 p) (sscfgWord c.ss)

/-- VDEFER (R304). -/
def execVdefer (x : VdeferArgs) (s : State) : Out :=
  vecStep (.vdefer x) x.m (some x.b) none (return ()) (do
    let p := x.p.toNat
    checkPath p
    let g ← capturedG
    let regs ← valueRegs x.a x.ty x.k
    let ops ← regs.mapM (fun n => do
      let xs ← readV n x.ty
      pure (n, xs))
    consumeV x.m (ops.map (fun o => (o.1, x.ty.width, o.2)))
    let c ← getCur
    let act := activeElems x.m c
    let n := c.ss.counts.toList.getD p 0
    if c.ss.slots < n + act.length then trapD cSideFull (BitVec.ofNat 64 p) (BitVec.ofNat 64 n)
    let hd := c.ss.heads.toList.getD p 0
    let k := (← get).core
    let rs := act.zipIdx.map (fun q => (spadOf k + slotOff c.ss p ((hd + n + q.2) % c.ss.slots), 64))
    ownRanges rs
    settleTile rs
    modify (fun s => act.zipIdx.foldl (fun (s : State) q =>
      pkgStoreAll s (spadOf s.core + slotOff c.ss p ((hd + n + q.2) % c.ss.slots))
        (sideEntry (g.toNat + q.1) (ops.map (fun o => (o.2.getD q.1 Elem.zero).val)) x.ty x.k)) s)
    modifyCur (fun c => { c with ss := { c.ss with counts := vset c.ss.counts p (n + act.length) } })
    takeStrips regs) s

/-- Do the groups of one VDRAIN overlap (R303)? -/
def firstOverlap (gs : List (VReg × List VReg)) : Option VReg :=
  (gs.zipIdx.find? (fun p => (gs.drop (p.2 + 1)).any (fun q => p.1.2.any q.2.contains))).map (fun p => p.1.1)

/-- VDRAIN (R305). -/
def execVdrain (x : VdrainArgs) (s : State) : Out :=
  vecStep (.vdrain x) x.m none none (return ()) (do
    let c ← getCur
    if !active x.m c 0 then return ()
    let p := x.p.toNat
    checkPath p
    let w := x.ty.width
    let vl := c.vr.vl.toNat
    let regs ← valueRegs x.b x.ty x.k
    checkDest x.a 32
    regs.forM (fun n => checkDest n w)
    let gs := (x.a, groupRegs c.vr x.a vl 32) :: regs.map (fun n => (n, groupRegs c.vr n vl w))
    match firstOverlap gs with
    | some n =>
      trapD cVGroup (BitVec.ofNat 64 n)
        (BitVec.ofNat 64 ((groupSize c.vr vl (if n = x.a then 32 else w)).getD 1))
    | none => pure ()
    let n := c.ss.counts.toList.getD p 0
    let hd := c.ss.heads.toList.getD p 0
    let k := min n vl
    let ents ← (List.range k).mapM (fun e => readSpad (slotOff c.ss p ((hd + e) % c.ss.slots)) 64 p)
    let word (e i : Nat) : Nat := natOfBytes (((ents.getD e []).drop (8 * i)).take 8)
    writeV x.a 32 ((List.range k).map (fun e => (e, { val := word e 0 % 2 ^ 32, q := none })))
    regs.zipIdx.forM (fun r =>
      writeV r.1 w ((List.range k).map (fun e => (e, { val := word e (1 + r.2) % 2 ^ w, q := none }))))
    modifyCur (fun c => writeG { c with
      ss := { c.ss with heads := vset c.ss.heads p ((hd + k) % c.ss.slots), counts := vset c.ss.counts p (n - k) }
      vr := { c.vr with vl := BitVec.ofNat 13 k } } x.d (BitVec.ofNat 64 k))) s

end Sys2Proof.Machine
end

