-- ==== Sys2Proof/Machine/VecPerm.lean ====
section
/-! DEFINITION. Permutes (R200, R201), reductions and scans (R202 to R204) and whole-register shifts (R205). -/

namespace Sys2Proof.Machine

/-! ### Permutes -/

/-- A permute: the elements of a list of results under the guards; `none` leaves an element unchanged. -/
def permWrite (md : Mods) (zf : Bool) (d : VReg) (w : Nat) (out : List (Option Elem)) : M Unit := do
  let c ← getCur
  writeV d w (out.zipIdx.filterMap (fun p =>
    if active md c p.2 then p.1.map (fun x => (p.2, x)) else if zf then some (p.2, Elem.zero) else none))

/-- VPERM (R200): a poisoned active index traps (R191). -/
def execVperm (x : VTwoArgs) (s : State) : Out :=
  let w := x.ty.width
  vecStep (.vperm x) x.m none none (zeroDest x.zf x.d w) (do
    let xs ← readV x.a x.ty
    let ys ← readV x.b x.ty
    checkDest x.d w
    consumeV x.m [(x.b, w, ys)]
    permWrite x.m x.zf x.d w (ys.map (fun y => some (xs.getD y.val Elem.zero)))
    takeStrips [x.a, x.b]) s

/-- The slide amount: the captured gS plus k (R200). -/
def slideBy (k : Imm) : M Nat := do return (← capturedG).toNat + k.toNat

/-- VSLIDE.up (R200): elements below the amount stay. -/
def execVslideUp (x : VSlideArgs) (s : State) : Out :=
  let w := x.ty.width
  vecStep (.vslideUp x) x.m (some x.g) none (zeroDest x.zf x.d w) (do
    let xs ← readV x.a x.ty
    checkDest x.d w
    let n ← slideBy x.k
    permWrite x.m x.zf x.d w ((List.range xs.length).map (fun e =>
      if n ≤ e then some (xs.getD (e - n) Elem.zero) else none))
    takeStrips [x.a]) s

/-- VSLIDE.dn (R200). -/
def execVslideDn (x : VSlideArgs) (s : State) : Out :=
  let w := x.ty.width
  vecStep (.vslideDn x) x.m (some x.g) none (zeroDest x.zf x.d w) (do
    let xs ← readV x.a x.ty
    checkDest x.d w
    let n ← slideBy x.k
    permWrite x.m x.zf x.d w ((List.range xs.length).map (fun e => some (xs.getD (e + n) Elem.zero)))
    takeStrips [x.a]) s

/-- VBCAST (R200). -/
def execVbcast (x : VBcastArgs) (s : State) : Out :=
  let w := x.ty.width
  vecStep (.vbcast x) x.m (some x.g) none (zeroDest x.zf x.d w) (do
    checkDest x.d w
    let g ← capturedG
    let c ← getCur
    permWrite x.m x.zf x.d w
      (List.replicate c.vr.vl.toNat (some { val := g.toNat % 2 ^ w, q := none }))) s

/-- VCOMPRESS (R201). -/
def execVcompress (x : VOneArgs) (s : State) : Out :=
  let w := x.ty.width
  vecStep (.vcompress x) x.m none none (zeroDest x.zf x.d w) (do
    let xs ← readV x.a x.ty
    checkDest x.d w
    let c ← getCur
    let kept := (xs.zipIdx.filter (fun p => active x.m c p.2)).map (·.1)
    let out := if x.zf then kept ++ List.replicate (xs.length - kept.length) Elem.zero else kept
    writeV x.d w (out.zipIdx.map (fun p => (p.2, p.1)))
    takeStrips [x.a]) s

/-- VEXPAND (R201). -/
def execVexpand (x : VOneArgs) (s : State) : Out :=
  let w := x.ty.width
  vecStep (.vexpand x) x.m none none (zeroDest x.zf x.d w) (do
    let xs ← readV x.a x.ty
    checkDest x.d w
    let c ← getCur
    permWrite x.m x.zf x.d w ((List.range xs.length).map (fun e =>
      some (xs.getD ((List.range e).filter (fun i => active x.m c i)).length Elem.zero)))
    takeStrips [x.a]) s

/-- VZIP (R200). -/
def execVzip (x : VTwoArgs) (s : State) : Out :=
  let w := x.ty.width
  vecStep (.vzip x) x.m none none (zeroDest x.zf x.d w) (do
    let xs ← readV x.a x.ty
    let ys ← readV x.b x.ty
    checkDest x.d w
    permWrite x.m x.zf x.d w ((List.range xs.length).map (fun e =>
      some ((if e % 2 = 0 then xs else ys).getD (e / 2) Elem.zero)))
    takeStrips [x.a, x.b]) s

/-- VUNZIP (R200). -/
def execVunzip (x : VUnzipArgs) (s : State) : Out :=
  let w := x.ty.width
  vecStep (.vunzip x) x.m none none (zeroDest x.zf x.d w) (do
    let xs ← readV x.a x.ty
    let ys ← readV x.b x.ty
    checkDest x.d w
    let seq := xs ++ ys
    permWrite x.m x.zf x.d w ((List.range xs.length).map (fun e => some (seq.getD (2 * e + b2n x.k) Elem.zero)))
    takeStrips [x.a, x.b]) s

/-! ### Reductions and scans -/

/-- The width of a reduction's destination (R202). -/
def redWidth (k : RedKind) (t : Ty) (wid : BitVec 2) : Nat := match k with
  | .add => widTo t wid
  | .fadd => (fpTo t wid).width
  | _ => t.width

/-- A source code widened exactly to the destination (R202). -/
def redWiden (k : RedKind) (t : Ty) (wid : BitVec 2) (c : Nat) : Nat := match k with
  | .add => (extTy t c % (2 ^ widTo t wid : Nat)).toNat
  | .fadd => if wid = 0 then c else roundFp .f32 rnMode (decodeFp t c)
  | _ => c

/-- The empty value (R202). -/
def redEmpty (k : RedKind) (t : Ty) : Nat := match k with
  | .add | .fadd | .or | .xor => 0
  | .min => codeInt t (tyMax t)
  | .max => codeInt t (tyMin t)
  | .fmin => roundFp t rnMode (.inf false)
  | .fmax => roundFp t rnMode (.inf true)
  | .and => 2 ^ t.width - 1

/-- Combine of two codes (R202); the rounding is that of the index that the rule passes. -/
def redCombine (k : RedKind) (t : Ty) (wid : BitVec 2) (sat : Bool) (r : RMode) (a b : Nat) : Nat := match k with
  | .add =>
    let nd := widTo t wid
    let ex (c : Nat) : Int := if t.signed then signExt c nd else c
    intElem t.signed nd sat (ex a + ex b)
  | .fadd =>
    let td := fpTo t wid
    fpResult td r sat ((decodeFp td a).add (decodeFp td b) (r.rm == .rm))
  | .min => codeInt t (min (extTy t a) (extTy t b))
  | .max => codeInt t (max (extTy t a) (extTy t b))
  | .fmin => fpPick t false a b
  | .fmax => fpPick t true a b
  | .and => a &&& b
  | .or => a ||| b
  | .xor => Nat.xor a b

/-- The default NaN of the destination in place of any NaN of a floating-point reduction (R214). -/
def quietCode (k : RedKind) (t : Ty) (wid : BitVec 2) (c : Nat) : Nat :=
  let td := match k with
    | .fadd => some (fpTo t wid)
    | .fmin | .fmax => some t
    | _ => none
  match td with
  | some td => if isNan td c then nanOf td else c
  | none => c

/-- VRED (R203): element 0 alone, whatever its guard: the empty value under one that never passes, and where vl is 0
(notes/assumptions/19.md). Each value carries the index
of its first active element. -/
def execVred (x : VRedArgs) (s : State) : Out :=
  let w := redWidth x.kind x.ty x.wid
  vecStep (.vred x) x.m none none (do
    let c ← getCur
    if destOk c x.d c.vr.vl.toNat w then writeV x.d w [(0, { val := redEmpty x.kind x.ty, q := none })] else pure ()) (do
    let xs ← readV x.a x.ty
    checkDest x.d w
    let c ← getCur
    let act := xs.zipIdx.filter (fun p => active x.m c p.2)
    let leaves := act.map (fun p => (p.2, redWiden x.kind x.ty x.wid p.1.val))
    let comb (a b : Nat × Nat) : Nat × Nat :=
      (a.1, redCombine x.kind x.ty x.wid x.sat (rmAt c x.rm (BitVec.ofNat 64 b.1)) a.2 b.2)
    let r := treeOf comb (0, redEmpty x.kind x.ty) leaves
    writeV x.d w [(0, { val := quietCode x.kind x.ty x.wid r.2, q := firstQ (act.map (·.1)) })]
    takeStrips [x.a]) s

/-- One element of VSCAN (R204): the chain and the results so far. -/
def scanStep (x : VScanArgs) (c : Ctx) (acc : Elem × List (Nat × Elem)) (p : Elem × Nat) : Elem × List (Nat × Elem) :=
  let (s, out) := acc
  let (a, e) := p
  if !active x.m c e then (s, if x.zf then out ++ [(e, Elem.zero)] else out)
  else
    let t : Elem :=
      { val := redCombine x.kind x.ty x.wid x.sat (rmAt c x.rm (BitVec.ofNat 64 e)) s.val
          (redWiden x.kind x.ty x.wid a.val)
        q := firstQ [s, a] }
    (t, out ++ [(e, if x.excl then { s with val := quietCode x.kind x.ty x.wid s.val } else t)])

/-- VSCAN (R204). -/
def execVscan (x : VScanArgs) (s : State) : Out :=
  let w := redWidth x.kind x.ty x.wid
  vecStep (.vscan x) x.m none none (zeroDest x.zf x.d w) (do
    let xs ← readV x.a x.ty
    checkDest x.d w
    let c ← getCur
    let seed : Elem := if x.carry && decide (0 < c.vr.vl.toNat) then getElem_ c.vr x.d w (c.vr.vl.toNat - 1)
      else { val := redEmpty x.kind x.ty, q := none }
    let r := xs.zipIdx.foldl (scanStep x c) (seed, [])
    writeV x.d w r.2
    takeStrips [x.a]) s

/-! ### Whole-register shifts -/

/-- A source string (R205): its bits, and the poison of each byte. -/
structure WString where
  bits : Nat
  poison : List (Option Origin)
  deriving DecidableEq, Repr

/-- A string of zeros of `n` bytes. -/
def WString.zeros (n : Nat) : WString := { bits := 0, poison := List.replicate n none }

/-- The string of elements of a width that is a multiple of 8, with the poison of each byte of the group. -/
def stringOf (v : Vregs) (n : VReg) (bound : Bool) (w : Nat) (xs : List Elem) : WString :=
  { bits := xs.foldr (fun x acc => acc <<< w ||| x.val) 0
    poison := (List.range (xs.length * w / 8)).map (fun j =>
      let (r, b) := elemAt v n 8 j
      if bound || field (v.vp.toList.getD r 0) (b / 8) 1 = 0 then none else some (originOf v r)) }

/-- The bytes of `hi · 2^N + lo` that supply destination byte `j` when the low end of the destination lies at bit `k`: their
poison, in the order a, b. -/
def supply (hi lo : WString) (n8 : Nat) (k : Int) (j : Nat) : Option Origin :=
  let first := (k + 8 * j) / 8
  let last := (k + 8 * j + 7) / 8
  let at1 (i : Int) : Option Origin :=
    if i < 0 then none
    else if i.toNat < n8 then lo.poison.getD i.toNat none else hi.poison.getD (i.toNat - n8) none
  let two := if first = last then [first] else [first, last]
  let hiFirst := two.filter (fun i => decide ((n8 : Int) ≤ i)) ++ two.filter (fun i => decide (i < (n8 : Int)))
  hiFirst.findSome? at1

/-- The result of a whole-register shift: N bits of `hi · 2^N + lo` from bit `k` on, written under the guards with byte
poison. -/
def shiftWrite (md : Mods) (zf : Bool) (d : VReg) (w : Nat) (hi lo : WString) (k : Nat) : M Unit := do
  let c ← getCur
  let vl := c.vr.vl.toNat
  let n := vl * w
  let whole := (hi.bits <<< n ||| lo.bits) >>> k
  let wb := w / 8
  let v := (List.range vl).foldl (fun (v : Vregs) e =>
    if active md c e then
      let v := putElem d w [] v (e, { val := natField whole (w * e) w, q := none })
      (List.range wb).foldl (fun v i =>
        match supply hi lo (n / 8) k (wb * e + i) with
        | some o => putElem d 8 [] v (wb * e + i, { val := natField whole (w * e + 8 * i) 8, q := some o })
        | none => v) v
    else if zf then putElem d w [] v (e, Elem.zero) else v) c.vr
  modifyCur (fun c => { c with vr := v })

/-- VSHLW and VSHRW. -/
def shiftOne (x : VSlideArgs) (left : Bool) : M Unit := do
  let w := x.ty.width
  let xs ← readV x.a x.ty
  checkDest x.d w
  let c ← getCur
  let n := xs.length * w
  let k := min ((← capturedG).toNat + x.k.toNat) n
  let a := stringOf c.vr x.a (boundOf c x.a).isSome w xs
  let z := WString.zeros (n / 8)
  if left then shiftWrite x.m x.zf x.d w a z (n - k) else shiftWrite x.m x.zf x.d w z a k
  takeStrips [x.a]

/-- VSHLW (R205). -/
def execVshlw (x : VSlideArgs) (s : State) : Out :=
  vecStep (.vshlw x) x.m (some x.g) none (zeroDest x.zf x.d x.ty.width) (shiftOne x true) s
/-- VSHRW (R205). -/
def execVshrw (x : VSlideArgs) (s : State) : Out :=
  vecStep (.vshrw x) x.m (some x.g) none (zeroDest x.zf x.d x.ty.width) (shiftOne x false) s

/-- VFSHLW and VFSHRW. -/
def shiftTwo (x : VFshArgs) (left : Bool) : M Unit := do
  let w := x.ty.width
  let xs ← readV x.a x.ty
  let ys ← readV x.b x.ty
  checkDest x.d w
  let c ← getCur
  let n := xs.length * w
  let k := min ((← capturedG).toNat + x.k.toNat) n
  let a := stringOf c.vr x.a (boundOf c x.a).isSome w xs
  let b := stringOf c.vr x.b (boundOf c x.b).isSome w ys
  shiftWrite x.m x.zf x.d w a b (if left then n - k else k)
  takeStrips [x.a, x.b]

/-- VFSHLW (R205). -/
def execVfshlw (x : VFshArgs) (s : State) : Out :=
  vecStep (.vfshlw x) x.m (some x.g) none (zeroDest x.zf x.d x.ty.width) (shiftTwo x true) s
/-- VFSHRW (R205). -/
def execVfshrw (x : VFshArgs) (s : State) : Out :=
  vecStep (.vfshrw x) x.m (some x.g) none (zeroDest x.zf x.d x.ty.width) (shiftTwo x false) s

end Sys2Proof.Machine
end

