-- ==== Sys2Proof/Machine/VecPred.lean ====
section
/-! DEFINITION. Compares into predicates (R198) and the PRED family (R199). -/

namespace Sys2Proof.Machine

/-- The bits of a predicate destination: active elements' values; the others stay, or are 0 in the zeroing form (R189). -/
def guardBits (md : Mods) (zf : Bool) (c : Ctx) (xs : List Bool) : List (Option Bool) :=
  xs.zipIdx.map (fun p => if active md c p.2 then some p.1 else if zf then some false else none)

/-- A compare of two vector operands (R198): a poisoned active element traps (R191). -/
def vcompare (md : Mods) (zf : Bool) (d : PReg) (a b : VReg) (t : Ty) (f : Nat → Nat → Bool) : M Unit := do
  let xs ← readV a t
  let ys ← readV b t
  consumeV md [(a, t.width, xs), (b, t.width, ys)]
  let c ← getCur
  writePred d (guardBits md zf c ((xs.zip ys).map (fun p => f p.1.val p.2.val)))
  takeStrips [a, b]

/-- VCMP (R198). -/
def execVcmp (x : VcmpArgs) (s : State) : Out :=
  vecStep (.vcmp x) x.m none none (zeroPred x.zf x.d)
    (vcompare x.m x.zf x.d x.a x.b x.ty (fun a b => condHolds x.cond (extTy x.ty a) (extTy x.ty b))) s

/-- A condition of VFCMP between two values (R198). -/
def fcondHolds (k : FCond) (x y : Val) : Bool :=
  let un := x == .nan || y == .nan
  let o := x.cmp y
  match k with
  | .eq => !un && o == .eq
  | .ne => un || o != .eq
  | .lt => !un && o == .lt
  | .le => !un && o != .gt
  | .gt => !un && o == .gt
  | .ge => !un && o != .lt
  | .un => un
  | .ord => !un

/-- VFCMP (R198). -/
def execVfcmp (x : VfcmpArgs) (s : State) : Out :=
  vecStep (.vfcmp x) x.m none none (zeroPred x.zf x.d)
    (vcompare x.m x.zf x.d x.a x.b x.ty (fun a b => fcondHolds x.cond (decodeFp x.ty a) (decodeFp x.ty b))) s

/-- A predicate instruction of two sources (R199). -/
def ptwo (i : Instr) (x : PTwoArgs) (f : Bool → Bool → Bool) (s : State) : Out :=
  vecStep i x.m none none (zeroPred x.zf x.d) (do
    let c ← getCur
    writePred x.d (guardBits x.m x.zf c
      ((List.range c.vr.vl.toNat).map (fun e => f (predBit c x.a e) (predBit c x.b e))))) s

/-- PAND (R199). -/
def execPand (x : PTwoArgs) (s : State) : Out := ptwo (.pand x) x and s
/-- POR (R199). -/
def execPor (x : PTwoArgs) (s : State) : Out := ptwo (.por x) x or s
/-- PXOR (R199). -/
def execPxor (x : PTwoArgs) (s : State) : Out := ptwo (.pxor x) x Bool.xor s

/-- PNOT (R199). -/
def execPnot (x : POneArgs) (s : State) : Out :=
  vecStep (.pnot x) x.m none none (zeroPred x.zf x.d) (do
    let c ← getCur
    writePred x.d (guardBits x.m x.zf c ((List.range c.vr.vl.toNat).map (fun e => !predBit c x.a e)))) s

/-- The least active element with its bit of pA set (R199). -/
def firstSet (md : Mods) (c : Ctx) (a : PReg) : Option Nat :=
  (List.range c.vr.vl.toNat).find? (fun e => active md c e && predBit c a e)

/-- PFIRST (R199): every bit but f is 0, whatever its guard. -/
def execPfirst (x : POneArgs) (s : State) : Out :=
  vecStep (.pfirst x) x.m none none (zeroPred true x.d) (do
    let c ← getCur
    let f := firstSet x.m c x.a
    writePred x.d ((List.range c.vr.vl.toNat).map (fun e => some (f == some e)))) s

/-- PCOUNT (R199): under a guard that never passes the count is 0. -/
def execPcount (x : PcountArgs) (s : State) : Out :=
  vecStep (.pcount x) x.m none none (modifyCur (fun c => writeG c x.d 0)) (do
    let c ← getCur
    let n := ((List.range c.vr.vl.toNat).filter (fun e => active x.m c e && predBit c x.a e)).length
    modifyCur (fun c => writeG c x.d (BitVec.ofNat 64 n))) s

/-- VEXIT (R199): the bits from f on are 0, whatever their guards; without an f the bits below vl stand, zf or not, and under a
guard that never passes there is none (notes/assumptions/19.md). The tail is written 0 (R175). -/
def execVexit (x : POneArgs) (s : State) : Out :=
  vecStep (.vexit x) x.m none none (zeroPred false x.d) (do
    let c ← getCur
    let f := (firstSet x.m c x.a).getD c.vr.vl.toNat
    writePred x.d ((List.range c.vr.vl.toNat).map (fun e => if f ≤ e then some false else none))) s

end Sys2Proof.Machine
end

