-- ==== Sys2Proof/Machine/Order.lean ====
section
/-! DEFINITION. The steps of the ordering machine on a core (R116): accesses that issue and perform, evictions, pushes into
the vector queue (R163) and its commits; and the illegal instruction (R67). -/

namespace Sys2Proof.Machine

/-! ### Deferred accesses (R116, R118) -/

/-- Must an older access of the list come before one at a place? -/
def olderMeets (l : List Access) (i : Nat) (a : Access) : Bool := (l.take i).any (keepOrder a)

/-- The state with a core and a party acting. -/
def acting (s : State) (k : Nat) (p : Party) : State := { s with core := k, party := p }

/-- ISSUE (R116): an access leaves the issue queue, unless an older one not yet issued, or a pending load under a store,
must come before it (R118). An AMO is ordered with every other access of its party (notes/assumptions/4.md). -/
def execIssue (x : AccArgs) (s : State) : Out :=
  let q := pqOf s x.core x.party
  match q.issue[x.idx]? with
  | none => .next s
  | some a =>
    let behind :=
      if isStore a then q.pending.any (keepOrder a) else q.pending.any isAmo || (isAmo a && !(q.pending ++ q.stores).isEmpty)
    if olderMeets q.issue x.idx a || behind || accStalls s a then .next s
    else
      .next (modPq s x.core x.party (fun q =>
        let q := { q with issue := q.issue.eraseIdx x.idx }
        if isStore a then { q with stores := q.stores ++ [a] } else { q with pending := q.pending ++ [a] }))

/-- PERFORM_LOAD (R116): a load, or an AMO with its load; entries of the vector queue whose loads have all performed commit
(R119). -/
def execPerformLoad (x : AccArgs) (s : State) : Out :=
  let q := pqOf s x.core x.party
  match q.pending[x.idx]? with
  | none => .next s
  | some a =>
    if olderMeets q.pending x.idx a || accStalls s a || behindRstate s q.stores (accRanges a) then .next s
    else
      let s := modPq (acting s x.core x.party) x.core x.party (fun q => { q with pending := q.pending.eraseIdx x.idx })
      let s := performAccess s x.core q.stores a
      .next (if x.party = .vector then restAfter (retire x.core 64 s) s.slot else s)

/-- PERFORM_STORE (R116): the oldest store to its bytes in the buffer; an element store only once its instruction has committed
(R119). -/
def execPerformStore (x : AccArgs) (s : State) : Out :=
  let q := pqOf s x.core x.party
  match q.stores[x.idx]? with
  | none => .next s
  | some a =>
    if olderMeets q.stores x.idx a || accStalls s a || (x.party == .vector && a.n != 0) then .next s
    else
      let s := modPq (acting s x.core x.party) x.core x.party (fun q => { q with stores := q.stores.eraseIdx x.idx })
      .next (performAccess s x.core [] a)

/-- EVICT1 (R116): at any time. -/
def execEvict1 (core line : Nat) (s : State) : Out := .next (evict1 s core line)

/-- EVICT2 (R116): at any time. -/
def execEvict2 (die line : Nat) (s : State) : Out := .next (evict2 s die line)

/-! ### The vector queue -/

/-- The instructions that the control thread pushes (R65, R101), each by its meaning. -/
def vecDispatch (i : Instr) (s : State) : Option Out :=
  match i with
  | .fenceSv x => some (execFenceSv x s)
  | .fenceVv x => some (execFenceVv x s)
  | .vmode x => some (execVmode x s)
  | .setvl x => some (execSetvl x s)
  | .vadd x => some (execVadd x s)
  | .vsub x => some (execVsub x s)
  | .vmul x => some (execVmul x s)
  | .vmulh x => some (execVmulh x s)
  | .vand x => some (execVand x s)
  | .vor x => some (execVor x s)
  | .vxor x => some (execVxor x s)
  | .vandn x => some (execVandn x s)
  | .vshl x => some (execVshl x s)
  | .vshr x => some (execVshr x s)
  | .vsar x => some (execVsar x s)
  | .vmin x => some (execVmin x s)
  | .vmax x => some (execVmax x s)
  | .vabs x => some (execVabs x s)
  | .vneg x => some (execVneg x s)
  | .vmacc x => some (execVmacc x s)
  | .vsat x => some (execVsat x s)
  | .vsel x => some (execVsel x s)
  | .vfadd x => some (execVfadd x s)
  | .vfsub x => some (execVfsub x s)
  | .vfmul x => some (execVfmul x s)
  | .vfmin x => some (execVfmin x s)
  | .vfmax x => some (execVfmax x s)
  | .vfabs x => some (execVfabs x s)
  | .vfneg x => some (execVfneg x s)
  | .vfdiv x => some (execVfdiv x s)
  | .vfsqrt x => some (execVfsqrt x s)
  | .vfrsq x => some (execVfrsq x s)
  | .vfexp2 x => some (execVfexp2 x s)
  | .vfma x => some (execVfma x s)
  | .vfms x => some (execVfms x s)
  | .vfnma x => some (execVfnma x s)
  | .vfnms x => some (execVfnms x s)
  | .vcmp x => some (execVcmp x s)
  | .vfcmp x => some (execVfcmp x s)
  | .pand x => some (execPand x s)
  | .por x => some (execPor x s)
  | .pxor x => some (execPxor x s)
  | .pnot x => some (execPnot x s)
  | .pfirst x => some (execPfirst x s)
  | .pcount x => some (execPcount x s)
  | .vexit x => some (execVexit x s)
  | .vperm x => some (execVperm x s)
  | .vslideUp x => some (execVslideUp x s)
  | .vslideDn x => some (execVslideDn x s)
  | .vbcast x => some (execVbcast x s)
  | .vcompress x => some (execVcompress x s)
  | .vexpand x => some (execVexpand x s)
  | .vzip x => some (execVzip x s)
  | .vunzip x => some (execVunzip x s)
  | .vred x => some (execVred x s)
  | .vscan x => some (execVscan x s)
  | .vshlw x => some (execVshlw x s)
  | .vshrw x => some (execVshrw x s)
  | .vfshlw x => some (execVfshlw x s)
  | .vfshrw x => some (execVfshrw x s)
  | .vld x => some (execVld x s)
  | .vlds x => some (execVlds x s)
  | .vldx x => some (execVldx x s)
  | .vldff x => some (execVldff x s)
  | .vldseg x => some (execVldseg x s)
  | .vst x => some (execVst x s)
  | .vsts x => some (execVsts x s)
  | .vstx x => some (execVstx x s)
  | .vstseg x => some (execVstseg x s)
  | .vcvt x => some (execVcvt x s)
  | .vquant x => some (execVquant x s)
  | .vdequant x => some (execVdequant x s)
  | .vbind x => some (execVbind x s)
  | .vunbind x => some (execVunbind x s)
  | .mldt x => some (execMldt x s)
  | .mldtT x => some (execMldtT x s)
  | .mrow x => some (execMrow x s)
  | .mrowa x => some (execMrowa x s)
  | .mzero x => some (execMzero x s)
  | .mswap x => some (execMswap x s)
  | .mchain x => some (execMchain x s)
  | .mtbl x => some (execMtbl x s)
  | .mdrain x => some (execMdrain x s)
  | .vdefer x => some (execVdefer x s)
  | .vdrain x => some (execVdrain x s)
  | _ => none

/-- The groups of vl elements that an instruction of the vector queue names: the first register and the element width. -/
def vlGroups : Instr → List (VReg × Nat)
  | .vadd x | .vsub x | .vmul x | .vmulh x | .vand x | .vor x | .vxor x | .vandn x | .vshl x | .vshr x | .vsar x | .vmin x
  | .vmax x | .vmacc x => [(x.d, widTo x.ty x.wid), (x.a, x.ty.width), (x.b, x.ty.width)]
  | .vabs x | .vneg x => [(x.d, x.ty.width), (x.a, x.ty.width)]
  | .vsat x => [(x.d, x.ty.width), (x.a, x.ty.width)]
  | .vsel x => [(x.d, x.ty.width), (x.a, x.ty.width), (x.b, x.ty.width)]
  | .vfadd x | .vfsub x | .vfmul x | .vfdiv x =>
    [(x.d, (fpTo x.ty x.wid).width), (x.a, x.ty.width), (x.b, x.ty.width)]
  | .vfmin x | .vfmax x | .vperm x | .vzip x => [(x.d, x.ty.width), (x.a, x.ty.width), (x.b, x.ty.width)]
  | .vunzip x => [(x.d, x.ty.width), (x.a, x.ty.width), (x.b, x.ty.width)]
  | .vfabs x | .vfneg x | .vfrsq x | .vfexp2 x | .vcompress x | .vexpand x => [(x.d, x.ty.width), (x.a, x.ty.width)]
  | .vfsqrt x => [(x.d, x.ty.width), (x.a, x.ty.width)]
  | .vfma x | .vfms x | .vfnma x | .vfnms x =>
    let td := (fpTo x.ty x.wid).width
    [(x.d, td), (x.a, x.ty.width), (x.b, x.ty.width), (x.c, td)]
  | .vcmp x => [(x.a, x.ty.width), (x.b, x.ty.width)]
  | .vfcmp x => [(x.a, x.ty.width), (x.b, x.ty.width)]
  | .pand _ | .por _ | .pxor _ | .pnot _ | .pfirst _ | .pcount _ | .vexit _ | .fenceSv _ | .fenceVv _ => []
  | .vslideUp x | .vslideDn x | .vshlw x | .vshrw x => [(x.d, x.ty.width), (x.a, x.ty.width)]
  | .vbcast x => [(x.d, x.ty.width)]
  | .vred x => [(x.d, redWidth x.kind x.ty x.wid), (x.a, x.ty.width)]
  | .vscan x => [(x.d, redWidth x.kind x.ty x.wid), (x.a, x.ty.width)]
  | .vfshlw x | .vfshrw x => [(x.d, x.ty.width), (x.a, x.ty.width), (x.b, x.ty.width)]
  | .vld x | .vlds x | .vldff x | .vst x | .vsts x => [(x.d, x.ty.width)]
  | .vldx x | .vstx x => [(x.d, x.ty.width), (x.b, 32)]
  | .vldseg x | .vstseg x => [(x.d, x.ty.width), (x.c, 8)]
  | .vcvt x => [(x.d, x.dt.width), (x.a, x.st.width)]
  | .vquant x | .vdequant x => [(x.d, x.dt.width), (x.a, x.st.width), (x.c, 8)]
  | .mdrain x => [(x.d, x.ty.width)]
  | _ => []

/-- The registers of `n` elements of width `w` from a register on, by number: at most 32. -/
def regSpan (v : Vregs) (r : VReg) (n w : Nat) : List Nat :=
  (List.range (min 32 ((groupSize v n w).getD 1))).map (r.val + ·)

/-- The registers of `k` groups of vl elements, one after the other (R303). -/
def groupsSpan (v : Vregs) (r : VReg) (k w : Nat) : List Nat :=
  (List.range (min 32 (k * (groupSize v v.vl.toNat w).getD 1))).map (r.val + ·)

/-- The vector registers that an instruction of the vector queue reads or writes, by number. -/
def namedRegs (v : Vregs) : Instr → List Nat
  | .mrow x | .mrowa x => regSpan v x.a (tileK x.ty) x.ty.width ++ regSpan v x.c (tileK x.ty) 8
  | .vdefer x => groupsSpan v x.a x.k.val x.ty.width
  | .vdrain x => regSpan v x.a v.vl.toNat 32 ++ groupsSpan v x.b x.k.val x.ty.width
  | .vbind x => [(bindReg x.d).val]
  | .vunbind x => [(bindReg x.d).val]
  | i => (vlGroups i).flatMap (fun r => regSpan v r.1 v.vl.toNat r.2)

/-- The registers that an element load writes, by number. -/
def loadRegs (v : Vregs) (a : Access) : List Nat := match a.kind with
  | .loadV xs => xs.map (fun x => (elemAt v x.d x.w x.e).1)
  | _ => []

/-- Does an element load write a register that an instruction names? -/
def feeds (v : Vregs) (i : Instr) (a : Access) : Bool :=
  let rs := namedRegs v i
  (loadRegs v a).any rs.contains

/-- The vector agent ready for an instruction (R118): the loads into registers that it names have performed; none where a
migration keeps one back. -/
def vecReady (i : Instr) (s : State) : Option State :=
  let s := drainFor s s.core .vector (feeds s.cur.vr i)
  if (waitingOf s s.core .vector).any (feeds s.cur.vr i) then none else some s

/-- May the vector agent of a core take its next entry now? The context runs, waits for no trap, no changed root (R410),
no re-grant of lanes (R181), no first acquire (R110), is not parked by that entry (R368), and has not left. -/
def mayCommit (c : Ctx) : Bool :=
  c.h.run != 0 && c.trap.isNone && c.halt != some .away && !commitPending c && !c.regrant && c.firstAcq.isNone &&
  c.segPark != some .vector && decide (c.vlive < c.vqn)

/-- COMMIT (R116): the vector agent executes the entry that it takes next; it commits, waits, or traps. -/
def execCommit (core : Nat) (s : State) : Out :=
  match (s.coreAt core).slot with
  | none => .next s
  | some slot =>
    let s' := acting s core .vector
    if !mayCommit s'.cur then .next s
    else
      match entryInstr (vqHead s'.cur) with
      | none => .next s
      | some i =>
        match (vecReady i s').bind (vecDispatch i) with
        | some (.next s') => .next (restAfter s' slot)
        | some r => r
        | none => .next s

/-- The words that the control thread of a core takes next, if it may go on. -/
def boundaryWords (s : State) : Option (List Word32 × State) :=
  match (s.coreAt s.core).slot with
  | none => none
  | some slot =>
    let c := s.ctxAt slot
    if c.h.run = 0 || c.trap.isSome || c.halt.isSome || commitPending c || c.segPark.isSome ||
        c.parked.isSome || c.firstAcq.isSome then none
    else
      match nextWords s with
      | .ok (some ws) s' => some (ws, s')
      | _ => none

/-- VECTOR_PUSH (R163): the control thread's next instruction, where it is one of the vector queue. -/
def execVectorPush (core : Nat) (s : State) : Out :=
  match boundaryWords (acting s core .control) with
  | none => .next s
  | some (ws, s') =>
    match decodeWords ws with
    | none => .next s
    | some i =>
      match (ready i s').bind (vecDispatch i) with
      | some (.next s'') => .next (afterThread s'.slot s'.cur.h.pc s'.cur.h.run i s'')
      | some r => r
      | none => .next s

/-- ILLEGAL_INSTRUCTION (R67): the control thread's next words are no instruction. -/
def execIllegalInstruction (core : Nat) (s : State) : Out :=
  match boundaryWords (acting s core .control) with
  | none => .next s
  | some (ws, s') =>
    match decodeWords ws with
    | some _ => .next s
    | none =>
      let d := illegalDetail ws
      .next (takeTrap s'.slot { cause := cIllegal, party := 0, detail0 := d.1, detail1 := d.2, poisonPc := 0 } s')

end Sys2Proof.Machine
end

