-- ==== Sys2Proof/Machine/RunStore.lean ====
section
/-! DEFINITION. What a store to RUN does to a context (R95, R101), and the steps at an instruction boundary that complete a
stop, a trap, a commit request or a park (R97, R106, R111, R129). -/

namespace Sys2Proof.Machine

/-- A store of 0 to RUN (R101): the halt, as part of the storing step. A context that waits for a core waits no more. -/
def stopRun (s : State) (slot : Nat) : State :=
  let c := s.ctxAt slot
  if c.h.run = 0 then s
  else
    match c.halt with
    | some .away => s.modCtx slot (fun c => { c with halt := none, h := { c.h with run := 0, cause := cStop, party := 0 } })
    | _ =>
      if haltWaits s slot then s.modCtx slot (fun c => { c with halt := some .stop })
      else
        let s := haltWith slot cStop s
        if c.core.isSome then s else unqueueCtx s slot

/-- A context that runs without a core waits for one at the tail of its region's queue (R323). -/
def awaitCore (s : State) (slot : Nat) : State :=
  let c := s.ctxAt slot
  if c.core.isSome then s else queueGang s (contextGang [slot] c.h.region c.home false) false

/-- A store of 1 or 2 to RUN (R101). A store of 2 to a thread that runs or is parked makes its next instruction the last; a parked
one stays parked until it wakes (notes/assumptions/69.md). -/
def goRun (s : State) (slot : Nat) (run : BitVec 2) : State :=
  let c := s.ctxAt slot
  if c.h.run = 0 then
    if c.ending then s
    else
      let s := if c.saved then s.setCtx slot { imagesIn s slot c with saved := true } else s
      awaitCore (resumeCtx slot run s) slot
  else if run = 2 then s.modCtx slot (fun c => { c with h := { c.h with run := 2 } })
  else s

/-- A halt that a store to RUN has asked of a context which still runs, noted with the storer (R101). -/
def askHalt (s : State) (slot who : Nat) (v : BitVec 2) : State :=
  if (s.ctxAt slot).h.run = 0 then s else s.modCtx slot (fun c => { c with askers := (who, v) :: c.askers })

/-- What a storer asked of a context's RUN withdrawn: a stop that no other asks for, a single step that has not been made. -/
def unask (who : Nat) (c : Ctx) : Ctx :=
  let mine := (c.askers.filter (fun a => a.1 == who)).map (·.2)
  let rest := c.askers.filter (fun a => a.1 != who)
  let c := { c with askers := rest }
  let c := if mine.contains 0 && !rest.any (fun a => a.2 == 0) && c.halt = some .stop && !c.ending then { c with halt := none } else c
  if mine.contains 2 && !rest.any (fun a => a.2 == 2) && c.h.run = 2 && c.halt != some .step then
    { c with h := { c.h with run := 1 } }
  else c

/-- A thread that halts while a store of its to RUN has not completed: the store has no effect (R139), and is made again at the
thread's resume (notes/assumptions/78.md). -/
def withdrawStore (s : State) (me : Nat) : State :=
  let c := s.ctxAt me
  if c.halting && (c.h.run = 0 || c.halt == some .away || c.core.isNone) then
    let mine := c.awaitHalts.filter (fun t => (s.ctxAt t).askers.any (fun a => a.1 == me))
    if mine.isEmpty then s
    else (mine.foldl (fun s t => s.modCtx t (unask me)) s).modCtx me (fun c => { c with halting := false, awaitHalts := [] })
  else s

/-- The contexts of a list that have not halted. -/
def stillRun (s : State) (l : List Nat) : List Nat := l.filter (fun t => (s.ctxAt t).h.run != 0)

/-- After every turn: the halts that have taken place are awaited no more (R101), and the stores of threads that have halted
themselves are withdrawn. -/
def settleHalts (s : State) : State :=
  if s.ctxs.any (fun p => !p.2.awaitHalts.isEmpty || !p.2.askers.isEmpty) then
    let t := s.mapCtxs (fun _ c => { c with
      awaitHalts := stillRun s c.awaitHalts, askers := if c.h.run = 0 then [] else c.askers })
    (t.ctxs.map (·.1)).foldl withdrawStore t
  else s

/-- HALT_STEP (R129): a stop or the end of a single step at the boundary; a step first commits what it pushed. -/
def execHaltStep (slot : Nat) (s : State) : Out :=
  match s.ctx? slot with
  | none => .next s
  | some c =>
    if c.h.run = 0 || haltWaits s slot then .next s
    else
      match c.halt with
      | some .stop => .next (haltWith slot cStop s)
      | some .step => .next (if c.vqn ≤ c.vlive then haltWith slot cStep s else s)
      | _ => .next s

/-- TRAP (R106): the trap that waits for the boundary is taken. -/
def execTrap (slot : Nat) (s : State) : Out :=
  match s.ctx? slot with
  | none => .next s
  | some c =>
    match c.trap with
    | some t => .next (if c.h.run = 0 then s else takeTrap slot t s)
    | none => .next s

/-- The words of an error report (R442). -/
def reportWords (r : Report) : List Word :=
  [BitVec.ofNat 64 (r.region <<< 32 ||| 0xFFFF <<< 16 ||| cMemErr.toNat), BitVec.ofNat 64 (64 * r.line),
   BitVec.ofNat 64 r.level, 0, 0, 0, 0, 0]

/-- An error report posted to its region's fault domain, or left to wait, with a note to the host where no queue is named (R107);
beyond 4,096 waiting it is lost (R442, R444). -/
def postReport (s : State) (r : Report) : State :=
  let wait := if s.reports.length < 4096 then { s with reports := s.reports ++ [r] }
    else { s with arb := { s.arb with memlost := s.arb.memlost + 1 } }
  match faultQueue s treeFuel r.region with
  | some q => if queueFull (s.queueAt q) then wait else postRecord s q (reportWords r)
  | none => { wait with notes := s.notes ++ [.reportPending r.line] }

/-- TRAP_RECORD_POST (R107, R444): a record that waits for space in a queue is posted: the trap record or LAUNCH record of the
lowest slot that has one, or else the oldest error report. -/
def execTrapRecordPost (queue : Nat) (s : State) : Out :=
  if queueFull (s.queueAt queue) then .next s
  else
    let trap := s.ctxs.find? (fun p => p.2.h.pend && faultQueue s treeFuel p.2.h.region == some queue)
    let mine := s.launchRecs.filter (fun r => faultQueue s treeFuel r.region == some queue)
    let low := (mine.map (·.slot)).foldl min 0x10000
    match trap, mine.find? (fun r => r.slot == low) with
    | some p, none => .next (postTrap s p.1)
    | some p, some r =>
      .next (if p.1 < r.slot then postTrap s p.1
        else postRecord { s with launchRecs := s.launchRecs.erase r } queue r.words)
    | none, some r => .next (postRecord { s with launchRecs := s.launchRecs.erase r } queue r.words)
    | none, none =>
      match s.reports.find? (fun r => faultQueue s treeFuel r.region == some queue) with
      | some r => .next (postRecord { s with reports := s.reports.erase r } queue (reportWords r))
      | none => .next s

/-- PARK_WAKE (R111): a parked thread whose line has been written wakes. -/
def execParkWake (slot : Nat) (s : State) : Out :=
  match s.ctx? slot with
  | none => .next s
  | some c => .next (if c.parked.isSome && c.hit then wakeCtx slot s else s)

/-- The COMMIT step (R97, R410): what the context's agents issued under the old words performs first, its stores at .sys (R129). -/
def execCommitApply (slot : Nat) (s : State) : Out :=
  match s.ctx? slot with
  | none => .next s
  | some c =>
    if !commitPending c || haltWaits s slot then .next s
    else
      let s := match c.core with
        | some k => release (drainCore s k) k .sys
        | none => s
      .next (applyCommit (finishTile s slot) slot)

end Sys2Proof.Machine
end

