-- ==== Sys2Proof/Machine/Control.lean ====
section
/-! DEFINITION. Branches, calls and returns (R152 to R155) with spin detection (R299, R300), and the fetch's illegal
instruction (R67). -/

namespace Sys2Proof.Machine

/-- What the last load of an iteration would read now (R300): bytes as a number, and the tag. -/
def spinReload (l : SpinLoad) : M (BitVec 128 × Bool) := do
  let s ← get
  if inCtl l.pa then
    if l.size = 16 then
      let c := ctlCapRead s (.thread s.slot) l.pa
      return (c.bits, c.tag)
    else return ((ctlRead s (.thread s.slot) l.pa).setWidth 128, l.tag)
  else if l.size = 16 then
    let c ← loadCapMem l.pa l.scope 0
    return (c.bits, c.tag)
  else
    let bs ← loadMem l.pa l.size l.scope 0
    return (BitVec.ofNat 128 (natOfBytes bs), false)

/-- Do two iterations end in one load (R299): address, size, value and tag? -/
def sameLoad (a b : Option SpinLoad) : Bool :=
  match a, b with
  | some x, some y => x.pa == y.pa && x.size == y.size && x.value == y.value && x.tag == y.tag
  | _, _ => false

/-- The last load of the iteration from `t` to a branch (R299), where it holds nothing but what a qualifying one does, and a last
load without a fault. -/
def spinLast (c : Ctx) (t : Word) : Option SpinLoad := (c.spin.runs.lookup t).bind id

/-- The detector at a branch taken at `a` back to `t` (R299): the count of consecutive qualifying iterations after it. -/
def spinAfter (c : Ctx) (a t : Word) : Spin :=
  let p := c.spin
  let last := spinLast c t
  let same := match p.seen.lookup a with
    | some x => x.g == c.r.g && x.gp == c.r.gp && x.caps == c.r.c && sameLoad x.last last
    | none => false
  let now : SpinSeen := { g := c.r.g, gp := c.r.gp, caps := c.r.c, last := last }
  { p with
    branch := some a
    count := if same then (if p.branch = some a then p.count + 1 else 1) else 0
    seen := (a, now) :: p.seen.filter (fun x => x.1 != a) }

/-- A taken branch of B or BC from `a` (R153, R299, R300). The detector compares values, so the loads of an iteration that may
qualify have performed. -/
def takeBranch (a target : Word) : M Unit := do
  if a.toNat < target.toNat then modifyCur (fun c => setPc c target)
  else
    if (spinLast (← getCur) target).isSome then drainParty .control else pure ()
    let c ← getCur
    let sp := spinAfter c a target
    if sp.count < 64 then modifyCur (fun c => setPc { c with spin := sp } target)
    else
      match spinLast c target with
      | none => modifyCur (fun c => setPc { c with spin := { sp with count := 0 } } target)
      | some l =>
        let (v, t) ← spinReload l
        modifyCur (fun c => setPc { c with spin := { sp with count := 0 } } target)
        if v = l.value ∧ t = l.tag then
          modifyCur (fun c => { c with
            parked := some (lineOf l.pa)
            hit := false
            h := { c.h with spinpark := c.h.spinpark + 1 } })
          modify (fun s => restLanes s s.slot)
        else pure ()

/-- The target of a word offset from the first word (R152). -/
def branchTarget {n : Nat} (pc : Word) (off : BitVec n) : Word := pc + wordOf (4 * immInt off)

/-- B (R153). -/
def execB (x : BArgs) (s : State) : Out :=
  scalarStep x.m (do
    let pc := (← getCur).h.pc
    takeBranch pc (branchTarget pc x.off)) s

/-- BC (R153). -/
def execBc (x : BcArgs) (s : State) : Out :=
  scalarStep x.m (do
    let v ← consumeG x.a
    let pc := (← getCur).h.pc
    if condHolds x.cond (sint v) 0 then takeBranch pc (branchTarget pc x.off) else advance x.m) s

/-- CALL (R153). -/
def execCall (x : BArgs) (s : State) : Out :=
  scalarStep x.m (do
    let c ← getCur
    rasPush (nextPc c x.m)
    modifyCur (fun d => setPc d (branchTarget c.h.pc x.off))) s

/-- The target of JMP, aligned (R50, R153); DETAIL1 of FETCHALIGN is 0 (notes/assumptions/69.md). -/
def jumpTarget (a : GReg) : M Word := do
  let v ← consumeG a
  if field v 0 2 ≠ 0 then trapD cFetchAlign v 0
  return v

/-- JMP (R153). -/
def execJmp (x : MaArgs) (s : State) : Out :=
  scalarStep x.m (do
    let v ← jumpTarget x.a
    modifyCur (fun c => setPc c v)) s

/-- JMP.call (R153). -/
def execJmpCall (x : MaArgs) (s : State) : Out :=
  scalarStep x.m (do
    let v ← jumpTarget x.a
    let c ← getCur
    rasPush (nextPc c x.m)
    modifyCur (fun c => setPc c v)) s

/-- RET k (R153, R155). -/
def execRet (x : RetArgs) (s : State) : Out :=
  scalarStep x.m (do
    let (ra, n, spill) ← rasPopAfter x.k.toNat
    if field ra 0 2 ≠ 0 then trapD cFetchAlign ra 0
    modifyCur (fun c => setPc { c with rasN := n, h := { c.h with rasSpill := spill } } ra)) s

end Sys2Proof.Machine
end

