-- ==== Sys2Proof/Machine/Tasks.lean ====
section
/-! DEFINITION. Deques and launch records as threads use them: DPUSH, DPOP, DSTEAL, LPATCH and LARM (R318, R319, R325). -/

namespace Sys2Proof.Machine

/-! ### Statuses (R319) -/

/-- OK. -/
def stOk : Nat := 0
/-- EMPTY. -/
def stEmpty : Nat := 1
/-- FULL. -/
def stFull : Nat := 2
/-- OUT_OF_SCOPE. -/
def stOutOfScope : Nat := 3
/-- FOREIGN. -/
def stForeign : Nat := 4
/-- ABSENT. -/
def stAbsent : Nat := 5
/-- STATE. -/
def stState : Nat := 6
/-- LIMIT. -/
def stLimit : Nat := 7
/-- BADREC. -/
def stBadrec : Nat := 8
/-- BADSLOT. -/
def stBadslot : Nat := 9

/-- A status written into gD and the pc advanced. -/
def finish (md : Mods) (d : GReg) (status : Nat) : M Unit := do
  modifyCur (fun c => writeG c d (BitVec.ofNat 64 status))
  advance md

/-- The handle check of R318 for a region: the record's index, or the failing status. `patch` admits a slot. -/
def handleCheck (s : State) (region : Nat) (h : Word) (patch : Bool) : Except Nat Nat :=
  if field h 44 20 != 0 || field h 20 12 != 0 || (!patch && field h 16 4 != 0) then .error stBadrec
  else if field h 32 12 != 0 && field h 32 12 != region then .error stForeign
  else if decide ((s.regionAt region).pooln ≤ field h 0 16) then .error stBadrec
  else .ok (field h 0 16)

/-! ### Deques -/

/-- The lines of a core's level one with dirty bytes, and those of its die's level two with pending bytes of it (R134). -/
def dirtySet (s : State) (k : Nat) : List Nat :=
  let one := ((homesOf s k).map (fun j =>
    (s.coreAt j).l1.filterMap (fun p => if p.2.dirty = 0 then none else some p.1))).flatten
  let two := (s.l2Of (dieOf k)).filterMap (fun p =>
    if p.2.writers.contains k && p.2.dirty != 0 then some p.1 else none)
  (one ++ two).dedup

/-- Parked cores of a cluster search again (R48). -/
def wakeCluster (s : State) (cl : Nat) : State :=
  (coresOf cl).foldl (fun s k => if (s.coreAt k).idle then s.modCore k (fun c => { c with idle := false }) else s) s

/-- The entry pushed by DPUSH's step (R316, R319). -/
def dqPush (s : State) (k region i : Nat) (arg : Word) : State :=
  let c := s.coreAt k
  let a := dqEntryAt s k c.bottom
  let set := dirtySet s k
  let s := pkgStoreAll s a (wordBytes 8 (BitVec.ofNat 64 (region <<< 32 ||| i)) ++ wordBytes 8 arg)
  let s := s.modCore k (fun c => { c with
    bottom := c.bottom + 1
    dirty := c.dirty ++ [{ place := c.bottom.toNat, lines := set }] })
  wakeCluster (putRec s (recordAt s region i) 1 true) (clusterOf k)

/-- The entry at the owner's end taken (R319). -/
def dqPop (s : State) (k : Nat) : State × (Nat × Nat × Word) :=
  let j := (s.coreAt k).bottom - 1
  let e := dqEntry s k j
  let pa := recordAt s e.1 e.2.1
  let s := s.modCore k (fun c => { c with bottom := j, dirty := c.dirty.filter (fun d => d.place != j.toNat) })
  (putRec s pa (s.recAt pa).state false, e)

/-- The nearest scope that two cores share (R134). -/
def sharedScope (a b : Nat) : Scope :=
  if a = b then .core else if clusterOf a = clusterOf b then .clu else if dieOf a = dieOf b then .die else .pkg

/-- The entry at the thieves' end of core `k` taken by core `me`: its dirty set and an acquire at the shared scope (R134). -/
def dqSteal (s : State) (k me : Nat) : State × (Nat × Nat × Word) :=
  let j := (s.coreAt k).top
  let e := dqEntry s k j
  let pa := recordAt s e.1 e.2.1
  let lines := dirtyOf s k j
  let s := s.modCore k (fun c => { c with top := c.top + 1, dirty := c.dirty.filter (fun d => d.place != j.toNat) })
  let s := putRec s pa (s.recAt pa).state false
  let sc := sharedScope k me
  (acquire (pushLines s k lines sc) me sc, e)

/-- Is core `me` inside the fixed scope of core `k`'s deque (R316, R319)? A tracking deque has none. -/
def dqScopeOk (s : State) (k me : Nat) : Bool :=
  match field (s.coreAt k).dqcfg 61 3 with
  | 1 => me == k
  | 2 => clusterOf me == clusterOf k
  | 3 => dieOf me == dieOf k
  | _ => true

/-- DSTEAL's checks at core `k` for a thief on core `me` of a region, up to the entry's region: the failing status. -/
def stealCheck (s : State) (k me region : Nat) : Option Nat :=
  let c := s.coreAt k
  if (dqArea c.dqcfg).1 = 0 then some stEmpty
  else if !dqScopeOk s k me then some stOutOfScope
  else if c.top = c.bottom then some stEmpty
  else if (dqEntry s k c.top).1 ≠ region then some stForeign
  else none

/-- The results of DPOP and DSTEAL that took an entry. -/
def tookEntry (md : Mods) (d : GReg) (e : Nat × Nat × Word) : M Unit := do
  modifyCur (fun c => writeG (writeG (writeG c d 0) (d + 1) (BitVec.ofNat 64 (e.1 <<< 32 ||| e.2.1))) (d + 2) e.2.2)
  advance md

/-- DPUSH (R319). The thread's older stores have performed, so the dirty set holds their lines (R134). -/
def execDpush (x : DpushArgs) (s : State) : Out :=
  scalarStep x.m (do
    parkIfSpec
    let n ← consumeG x.a
    let arg ← consumeG x.b
    drainParty .control
    let s ← get
    let region := s.cur.h.region
    match handleCheck s region (n + x.k.setWidth 64) false with
    | .error st => finish x.m x.d st
    | .ok i =>
      let r := s.recAt (recordAt s region i)
      let c := s.coreAt s.core
      let cap := (dqArea c.dqcfg).1
      if r.state != 1 || r.inq then finish x.m x.d stState
      else if cap = 0 || (c.bottom - c.top).toNat = cap then finish x.m x.d stFull
      else
        set (dqPush s s.core region i arg)
        finish x.m x.d stOk) s

/-- DPOP (R319). -/
def execDpop (x : MdArgs) (s : State) : Out :=
  scalarStep x.m (do
    parkIfSpec
    let s ← get
    let c := s.coreAt s.core
    if (dqArea c.dqcfg).1 = 0 || c.top = c.bottom then finish x.m x.d stEmpty
    else
      ownFirst (dqEntryAt s s.core (c.bottom - 1)) 16
      let s ← get
      let (s, e) := dqPop s s.core
      set s
      tookEntry x.m x.d e) s

/-- DSTEAL (R319). -/
def execDsteal (x : MdaArgs) (s : State) : Out :=
  scalarStep x.m (do
    parkIfSpec
    let v ← consumeG x.a
    let s ← get
    let k := v.toNat
    if 144 ≤ k || !corePresent s k then finish x.m x.d stAbsent
    else
      ownFirst (dqEntryAt s k (s.coreAt k).top) 16
      let s ← get
      match stealCheck s k s.core s.cur.h.region with
      | some st => finish x.m x.d st
      | none =>
        let (s, e) := dqSteal s k s.core
        set s
        tookEntry x.m x.d e) s

/-! ### Records -/

/-- Does a gang's need exceed an effective limit, or can no die hold its shape (R325)? -/
def overLimit (s : State) (region : Nat) (x : Gang) : Bool :=
  !((gangNeeds s x).all (fun p => (regionChain s treeFuel region).all (fun q => decide (p.2 ≤ effLimit s p.1 q)))) ||
    (findCores (corePresent s) (diesOf x.anydie x.die) x.n).isNone

/-- LARM.place's checks and step on record `i` of a region (R325), also for packets (R382): the status and the state. -/
def placeRecord (s : State) (region i : Nat) (packet : Option (Nat × Nat)) : Nat × State :=
  let pa := recordAt s region i
  let r := s.recAt pa
  if 1 < r.state || r.inq then (stState, s)
  else if !recUsable s region pa then (stBadrec, s)
  else
    let x := recordGang s region pa none packet
    if overLimit s region x then (stLimit, s)
    else (stOk, queueGang (putRec s pa 2 false) x false)

/-- LPATCH's step on a record (R325): slot 8 is DONE. -/
def patchRecord (s : State) (pa slot : Nat) (v : Word) : State :=
  pkgPut s (if slot = 8 then pa + 0xA0 else pa + 0xC0 + 8 * slot) v

/-- LPATCH (R325): the record's words are control accesses at .sys, so what reads them releases and acquires (R128). -/
def execLpatch (x : LpatchArgs) (s : State) : Out :=
  scalarStep x.m (do
    parkIfSpec
    let n ← consumeG x.a
    let v ← consumeB x.b x.lit
    let s ← get
    let region := s.cur.h.region
    let h := n + x.k.setWidth 64
    match handleCheck s region h true with
    | .error st => finish x.m x.d st
    | .ok i =>
      let slot := field h 16 4
      let pa := recordAt s region i
      if 8 < slot then finish x.m x.d stBadslot
      else
        ctlRelease
        let s ← get
        if (s.recAt pa).state != 0 then do
          ctlAcquire
          finish x.m x.d stState
        else
          modify (fun s => patchRecord s pa slot v)
          ctlAcquire
          finish x.m x.d stOk) s

/-- What LARM does to a record: the status and the state. -/
abbrev ArmFn := State → Nat → Nat → Nat × State

/-- LARM.arm. -/
def armFn : ArmFn := fun s region i =>
  let pa := recordAt s region i
  if (s.recAt pa).state != 0 then (stState, s)
  else if !recUsable s region pa then (stBadrec, s)
  else (stOk, putRec s pa 1 false)

/-- LARM.disarm. -/
def disarmFn : ArmFn := fun s region i =>
  let pa := recordAt s region i
  if (s.recAt pa).state != 1 || (s.recAt pa).inq then (stState, s) else (stOk, putRec s pa 0 false)

/-- LARM.place. -/
def placeFn : ArmFn := fun s region i => placeRecord s region i none

/-- LARM past its guard (R325): a control access at .sys to the record's words (R128). -/
def larmBody (x : LarmArgs) (f : ArmFn) : M Unit := do
  parkIfSpec
  let n ← consumeG x.a
  let s ← get
  let region := s.cur.h.region
  match handleCheck s region (n + x.k.setWidth 64) false with
  | .error st => finish x.m x.d st
  | .ok i =>
    ctlRelease
    let s ← get
    let (st, s) := f s region i
    set s
    ctlAcquire
    finish x.m x.d st

/-- LARM.place (R325). -/
def execLarmPlace (x : LarmArgs) (s : State) : Out := scalarStep x.m (larmBody x placeFn) s
/-- LARM.arm (R325). -/
def execLarmArm (x : LarmArgs) (s : State) : Out := scalarStep x.m (larmBody x armFn) s
/-- LARM.disarm (R325). -/
def execLarmDisarm (x : LarmArgs) (s : State) : Out := scalarStep x.m (larmBody x disarmFn) s

end Sys2Proof.Machine
end

