-- ==== Sys2Proof/Machine/Segments.lean ====
section
/-! DEFINITION. Speculative segments: likelihoods and the predictor (R350, R354), descriptors (R352 to R357), SSPAWN (R360),
the barker's hand-out (R361, R362), SRESOLVE with prunes and commits (R363 to R365), SLK (R371), parked and pruned
segments (R364, R368). -/

namespace Sys2Proof.Machine

/-! ### Likelihoods and predictor -/

/-- T(q) (R350): the integer nearest 256 × (8 − log2 q). -/
def termT (q : Nat) : Nat := 2048 - (Nat.log2 (q ^ 512) + 1) / 2

/-- Site(va, c) (R354). -/
def siteOf (va : Word) (c : Nat) : Nat := Nat.xor (field va 2 10) (17 * c) % 1024

/-- The address of predictor byte `i` (R352). -/
def predAt (s : State) (r i : Nat) : Nat := specArea s r + 0x800 + i
/-- The predicted probability of side 1; a byte of 0 acts as 128 (R354). -/
def predOf (s : State) (r i : Nat) : Nat :=
  let p := natOfBytes (pkgLoad s (predAt s r i) 1)
  if p = 0 then 128 else p
/-- A predictor byte after an outcome (R354). -/
def predStep (p o : Nat) : Nat := if o = 1 then p + ceilDiv (255 - p) 8 else p - ceilDiv (p - 1) 8

/-- The address of condition word `c` (R352). -/
def condAt (s : State) (r c : Nat) : Nat := specArea s r + 0x100 + 8 * c
/-- A condition word. -/
def condWord (s : State) (r c : Nat) : Word := pkgWord s (condAt s r c)
/-- The state of a condition (R353). -/
def condState (s : State) (r c : Nat) : Nat := field (condWord s r c) 0 2

/-! ### Chains and descriptors -/

/-- A term of a chain (R351). -/
structure Term where
  cond : Nat
  side : Nat
  t : Nat
  deriving DecidableEq, Repr

/-- A chain of a descriptor (R355). -/
def chainOf (s : State) (r id : Nat) : List Term :=
  (List.range 8).filterMap (fun j =>
    let w := pkgWord s (descAt s r id + 0x3C0 + 8 * j)
    if bit w 63 then some { cond := field w 18 6, side := field w 16 1, t := field w 0 16 } else none)

/-- A chain written into a descriptor. -/
def putChain (s : State) (r id : Nat) (ch : List Term) : State :=
  (List.range 8).foldl (fun s j =>
    let w : Word := match ch[j]? with
      | some x => BitVec.ofNat 64 (1 <<< 63 ||| x.cond <<< 18 ||| x.side <<< 16 ||| x.t)
      | none => 0
    pkgPut s (descAt s r id + 0x3C0 + 8 * j) w) s

/-- The likelihood of a chain (R351). -/
def chainLk (ch : List Term) : Nat := min ((ch.map (·.t)).sum) 0xFFFF

/-- Is a descriptor's state FREE: 0, or one of the codes that act as it (R355)? -/
def descFree (s : State) (r id : Nat) : Bool :=
  let st := field (dstate s r id) 0 3
  st == 0 || decide (4 ≤ st)

/-- The lowest FREE descriptor. -/
def freeDescId (s : State) (r : Nat) : Option Nat := (List.range 256).find? (descFree s r)

/-- A capability written with its tag at the package point. -/
def pkgPutCap (s : State) (pa : Nat) (c : Cap) : State :=
  pkgStore s pa (capBytes c) (if c.tag then maskAt 4 (pa % 64 / 16) 1 else 0)

/-- The snapshot part of a descriptor (R355): entry, registers, header words, spsize. -/
def putSnapshot (s : State) (a : Nat) (entry : Word) (c : Ctx) : State :=
  let s := pkgPut s (a + 0x10) entry
  let s := (List.range 64).foldl (fun s i => pkgPut s (a + 0x40 + 8 * i) (gVal c (Fin.ofNat 64 i))) s
  let s := pkgPut s (a + 0x240) c.r.gp
  let s := (List.range 16).foldl (fun s i => pkgPutCap s (a + 0x250 + 16 * i) (c.r.c.toList.getD i Cap.zero)) s
  let s := pkgPut s (a + 0x350) (tagWord c.r.c.toList)
  let s := pkgPutCap (pkgPutCap s (a + 0x360) c.h.rootcap) (a + 0x370) c.h.pcap
  let s := pkgPut (pkgPut s (a + 0x380) c.h.atp) (a + 0x388) c.h.vlcap
  let s := pkgPut (pkgPut s (a + 0x390) c.h.srseed) (a + 0x398) c.h.srbase
  pkgPut s (a + 0x3A0) (BitVec.ofNat 64 c.spsize)

/-- A DSTATE word (R355). -/
def dstateWord (lk die slot : Nat) (parent : Option Nat) (depth : Nat) (sib : Bool) (st : Nat) : Word :=
  BitVec.ofNat 64 (lk <<< 48 ||| die <<< 46 ||| slot <<< 32 ||| (parent.getD 0) <<< 16 ||| b2n parent.isSome <<< 15 |||
    depth <<< 8 ||| b2n sib <<< 3 ||| st)

/-- The three result registers of a spawn or fork (R338, R360). -/
def spawnRegs (c : Ctx) (d : GReg) (x y z : Word) : Ctx := writeG (writeG (writeG c d x) (d + 1) y) (d + 2) z

/-- Parked cores that serve a region search again: a segment has entered its midway (R48). -/
def wakeRegion (s : State) (r : Nat) : State :=
  { s with cores := s.cores.map (fun p =>
      if p.2.region = r && p.2.idle then (p.1, { p.2 with idle := false }) else p) }

/-! ### SSPAWN (R360) -/

/-- The descriptor of the acting context as a speculative parent. -/
def specParent (c : Ctx) : Option Nat := if c.spec then some c.segId else none

/-- The checks of SSPAWN's step: the failing status, or the new chain and depth. -/
def spawnCheck (s : State) (c : Ctx) (cond side : Nat) (x : Word) : Except Nat (List Term × Nat) :=
  let r := c.h.region
  let ch := match specParent c with
    | some p => chainOf s r p
    | none => []
  let dp := match specParent c with
    | some p => field (dstate s r p) 8 4 + 1
    | none => 1
  let lost := ch.any (fun t => t.cond == cond && t.side == 1 - side)
  let won := ch.any (fun t => t.cond == cond && t.side == side)
  let st := condState s r cond
  if field x 8 56 != 0 || field x 0 8 == 0 then .error 3
  else if st == 2 + (1 - side) || lost then .error 4
  else if 8 < dp then .error 2
  else if (freeDescId s r).isNone || !budgetRoom s r 5 1 then .error 1
  else if st == 2 + side || won then .ok (ch, dp)
  else
    let q := field x 0 8
    let p := predOf s r (siteOf c.h.pc cond)
    let q := if q = 255 then (if side = 1 then p else 256 - p) else q
    .ok (ch ++ [{ cond := cond, side := side, t := termT q }], dp)

/-- The condition word as a spawn that names it leaves it (R360). -/
def condTouch (s : State) (r cond : Nat) (pc : Word) : State :=
  let w := condWord s r cond
  let w := if field w 0 2 = 0 then setField w 0 2 1 else w
  let w := if field w 0 2 = 1 then setField (setField w 16 10 (siteOf pc cond)) 26 1 1 else w
  pkgPut s (condAt s r cond) w

/-- SSPAWN's midway step past its checks: the descriptor's number and likelihood, and the state. -/
def spawnStep (s : State) (c : Ctx) (cond : Nat) (target : Word) (d : GReg) (ch : List Term) (dp : Nat) :
    State × Nat × Nat :=
  let r := c.h.region
  let s := condTouch s r cond c.h.pc
  let id := (freeDescId s r).getD 0
  let lk := chainLk ch
  let die := match specParent c with
    | some p => field (dstate s r p) 46 2
    | none => dieOf s.core
  let a := descAt s r id
  let hdr := pkgWord s (specArea s r)
  let s := budgetTake s r 5 1
  let s := pkgPut s (a + 8) (BitVec.ofNat 64 (field hdr 32 32))
  let s := pkgPut s (specArea s r) (setField hdr 32 32 (field hdr 32 32 + 1))
  let snap := spawnRegs c d 0 (BitVec.ofNat 64 id) (BitVec.ofNat 64 lk)
  let s := putSnapshot s a target snap
  let s := putChain s r id ch
  let s := pkgPut s a (dstateWord lk die 0 (specParent c) dp false 1)
  (wakeRegion s r, id, lk)

/-- SSPAWN (R360). -/
def execSspawn (x : SspawnArgs) (s : State) : Out :=
  scalarStep x.m (do
    let v ← consumeG x.b
    waitVector
    drainParty .vector
    releaseOwn .die
    let s ← get
    let c := s.cur
    match spawnCheck s c x.cond.val (b2n x.side) v with
    | .error st => finish x.m x.d st
    | .ok (ch, dp) =>
      let (s, id, lk) := spawnStep s c x.cond.val (branchTarget c.h.pc x.off) x.d ch dp
      set s
      modifyCur (fun c => spawnRegs c x.d 0 (BitVec.ofNat 64 id) (BitVec.ofNat 64 lk))
      advance x.m) s

/-! ### The barker (R361, R362) -/

/-- General registers from a descriptor. -/
def descG (s : State) (a : Nat) : Vector Word 64 := Vector.ofFn (fun i => if i = 0 then 0 else pkgWord s (a + 0x40 + 8 * i.val))
/-- Capability registers from a descriptor; the tag word gives their tags. -/
def descC (s : State) (a : Nat) : Vector Cap 16 :=
  Vector.ofFn (fun i => { pkgCap s (a + 0x250 + 16 * i.val) with
    tag := (pkgCap s (a + 0x250 + 16 * i.val)).tag && bit (pkgWord s (a + 0x350)) i.val })

/-- The context of a segment at its start (R361); one of an empty chain shows the descriptor that it was handed out from
(notes/assumptions/27.md). -/
def segCtx (s : State) (r id slot gang : Nat) : Ctx :=
  let a := descAt s r id
  let d := dstate s r id
  let ch := chainOf s r id
  let entry := pkgWord s (a + 0x10)
  { Ctx.zero with
    h := { Header.zero with
      run := 1, pc := entry, vcp := entry, pcap := pkgCap s (a + 0x370), rootcap := pkgCap s (a + 0x360),
      atp := pkgWord s (a + 0x380), vlcap := pkgWord s (a + 0x388) &&& maskAt 64 0 7, srseed := pkgWord s (a + 0x390),
      srbase := pkgWord s (a + 0x398), region := r, imgbase := imgBase s r slot }
    r := { Gregs.zero with g := descG s a, gp := pkgWord s (a + 0x240) &&& ~~~ 1#64, c := descC s a }
    lk := BitVec.ofNat 16 (field d 48 16)
    loader := roustImage s 0
    storer := roustImage s 0
    seg := true
    spec := !ch.isEmpty
    depth := field d 8 4
    segId := id
    gang := gang
    spsize := field (pkgWord s (a + 0x3A0)) 0 11
    firstAcq := some .die }

/-- The segment that the barker offers a core (R362): least likelihood, then least sequence number. -/
def barkerBest (s : State) (k : Nat) : Option Nat :=
  let r := (s.coreAt k).region
  if (s.regionAt r).slotN = 0 then none
  else
    let lim := field (pkgWord s (specArea s r)) 0 16
    let cand := (List.range 256).filter (fun id =>
      let d := dstate s r id
      field d 0 3 == 1 && !bit d 3 && field d 46 2 == dieOf k && (lim == 0 || decide (field d 48 16 ≤ lim)))
    let key (id : Nat) : Nat := field (dstate s r id) 48 16 * 2 ^ 32 + field (pkgWord s (descAt s r id + 8)) 0 32
    cand.foldl (fun best id => match best with
      | none => some id
      | some b => if key id < key b then some id else some b) none

/-- The hand-out of a segment to a core (R362), if the slot and the grants are there; the traces of another session are scrubbed
before the segment starts (R427). None while the region's session is closed or handed off (R419, R428). -/
def handOut (s : State) (k id : Nat) : Option State :=
  let r := (s.coreAt k).region
  match (freeSlots s r).head? with
  | none => none
  | some slot =>
    let g := s.gangNext
    let c := segCtx s r id slot g
    let s1 := clearCores s [k]
    let needs : List (Fin 6 × Nat) := [(0, 1), (2, c.spsize)]
    if runBarred s r || !roomAll s1 r needs then none
    else
      let s := takeAll s1 r needs
      let s := if mustScrub s k r then scrubCore s k else s
      let s := if c.spec then pkgPut s (descAt s r id) (setField (setField (dstate s r id) 32 14 slot) 0 3 2)
        else freeDesc s r id
      let s := setGang { s with gangNext := g + 1 } g
        { contextGang [slot] r (dieOf k) false with cores := [k], running := true }
      some (enterCore (s.setCtx slot c) k slot)

/-! ### SRESOLVE (R363 to R365) -/

/-- The slot of the context that runs a segment. -/
def segSlot (s : State) (r id : Nat) : Option Nat :=
  (s.ctxs.find? (fun p => p.2.spec && p.2.h.region == r && p.2.segId == id)).map (·.1)

/-- WSDiscard (R134). -/
def wsDiscard (s : State) (r id : Nat) : State := { s with wsets := eraseKey (256 * r + id) s.wsets }

/-- A write set's bytes of one line at the .die point of its home die, over what stands there (R134, R365): level-one copies of
the core that runs the segment, and of its siblings, go first, as under a Propagate to .die. Bytes of an RSTATE word keep
their rules (R314), and those of a scratchpad stand there. -/
def commitLine (s : State) (core : Option Nat) (die r l : Nat) (x : L1Line) : State :=
  if inMemory s (64 * l) then
    let s := match core with
      | some k => (homesOf s k ++ siblings s k).foldl (fun s j => carry1 s j l) s
      | none => s
    let head := isRstate s (64 * l)
    let s := if head then
        (List.range 8).foldl (fun s i =>
          if x.dirty.getLsbD i then rstateStore s (64 * l + i) [x.data.extractLsb' (8 * i) 8] else s) s
      else s
    let y := { x with
      dirty := if head then x.dirty &&& ~~~ byteMask 0 8 else x.dirty
      tags := if head then untagFirst (64 * l) x.tags else x.tags
      writers := core.toList, owner := r }
    touch (l2Merge s die l y) l
  else touch (pkgSet s l (mergeData (pkgData s l) x.data x.dirty) (mergeTags (pkgTags s l) x.tags x.dirty)) l

/-- WSCommit (R134, R365). -/
def wsCommit (s : State) (r id : Nat) : State :=
  let core := (segSlot s r id).bind (fun sl => (s.ctxAt sl).core)
  let die := field (dstate s r id) 46 2
  wsDiscard ((wsetOf s (256 * r + id)).foldl (fun s p => commitLine s core die r p.1 p.2) s) r id

/-- The troupe of a sibling whose descriptor is pruned closes as a cancel of the whole troupe closes it (R372), whether the
sibling has a context or has halted. -/
def pruneTroupe (s : State) (r id : Nat) : State :=
  { s with troupes := s.troupes.map (fun p =>
      if p.2.region = r && p.2.tstat == 0 && p.2.sibs.any (fun b => b.desc == some id) then
        (p.1, { p.2 with
          tstat := 5, counting := false, sibs := p.2.sibs.map (fun b => { b with sstat := 2, adv := 0 }) })
      else p) }

/-- A context stopped for good: it ends when its engine commands have completed (R364). -/
def stopForGood (s : State) (slot : Nat) : State :=
  let s := (haltWith slot cStop s).modCtx slot (fun c => { c with pruned := true, ending := true, trap := none })
  if (s.ctxAt slot).core.isSome then s else unqueueCtx s slot

/-- Is a descriptor that of a context which a prune has stopped already? -/
def descPruned (s : State) (r id : Nat) : Bool :=
  match segSlot s r id with
  | some slot => (s.ctxAt slot).pruned
  | none => false

/-- A descriptor pruned (R364): what its context has stored, performed or not, goes. -/
def pruneDesc (s : State) (r id : Nat) : State :=
  let st := field (dstate s r id) 0 3
  let s := pruneTroupe s r id
  match segSlot s r id with
  | some slot => wsDiscard (stopForGood s slot) r id
  | none => if st = 1 ∨ st = 3 then freeDesc (wsDiscard s r id) r id else wsDiscard s r id

/-- A context whose segment has committed goes on as an ordinary one (R365): what parked it proceeds with its lanes asked for
again (R181, R368), and a trap record that waited is posted (R369). -/
def commitCtx (s : State) (slot : Nat) : State :=
  let c := s.ctxAt slot
  let held := c.trap.isSome && c.h.run == 0
  let waits := c.parked.isSome || c.awaitClose.isSome
  let s := s.modCtx slot (fun c => { c with
    seg := false, spec := false, depth := 0, segId := 0, lk := 0, segPark := none, trap := if held then none else c.trap })
  if held then postTrap s slot
  else if c.h.run ≠ 0 && (c.segPark == some .vector || (c.segPark.isSome && !waits)) then laneRegrant s slot
  else s

/-- A segment whose chain is empty commits (R365). -/
def commitDesc (s : State) (r id : Nat) : State :=
  let st := field (dstate s r id) 0 3
  let slot := segSlot s r id
  if st ≠ 2 ∧ st ≠ 3 ∧ slot.isNone then s
  else
    let s := freeDesc (wsCommit s r id) r id
    match slot with
    | none => s
    | some sl => commitCtx s sl

/-- The nearest ancestor in a list of still speculative descriptors, along the parents (R363). -/
def nearestParent (s : State) (r : Nat) (live : List Nat) : Nat → Nat → Option Nat
  | 0, _ => none
  | fuel + 1, id =>
    let d := dstate s r id
    if !bit d 15 then none
    else if live.contains (field d 16 8) then some (field d 16 8)
    else nearestParent s r live fuel (field d 16 8)

/-- Speculative ancestors of a descriptor among those listed. -/
def ancestors (s : State) (r : Nat) (live : List Nat) : Nat → Nat → Nat
  | 0, _ => 0
  | fuel + 1, id => match nearestParent s r live 8 id with
    | none => 0
    | some p => 1 + ancestors s r live fuel p

/-- The midway step of a resolution with outcome `o` of condition `cond` (R363), and the slots of the contexts that it has
pruned. -/
def resolveStep (s : State) (r cond o : Nat) : State × List Nat :=
  let w := condWord s r cond
  let s := if bit w 26 then
      let i := field w 16 10
      pkgStore s (predAt s r i) [BitVec.ofNat 8 (predStep (predOf s r i) o)] 0
    else s
  let s := pkgPut s (condAt s r cond) (setField w 0 2 (2 + o))
  let used := (List.range 256).filter (fun id => !descFree s r id && !descPruned s r id)
  let lost := used.filter (fun id => (chainOf s r id).any (fun t => t.cond == cond && t.side == 1 - o))
  let kept := used.filter (fun id => !lost.contains id)
  let ends := lost.filterMap (segSlot s r)
  let s := lost.foldl (fun s id => pruneDesc s r id) s
  let s := kept.foldl (fun s id =>
    let ch := (chainOf s r id).filter (fun t => !(t.cond == cond && t.side == o))
    let s := putChain s r id ch
    pkgPut s (descAt s r id) (setField (dstate s r id) 48 16 (chainLk ch))) s
  let live := kept.filter (fun id => !(chainOf s r id).isEmpty)
  let plan := kept.map (fun id => (id, nearestParent s r live 8 id, 1 + ancestors s r live 8 id))
  let s := plan.foldl (fun s p =>
    let d := dstate s r p.1
    let d := setField (setField (setField d 16 8 (p.2.1.getD 0)) 15 1 (b2n p.2.1.isSome)) 8 4 p.2.2
    let s := pkgPut s (descAt s r p.1) d
    match segSlot s r p.1 with
    | some sl => s.modCtx sl (fun c => { c with lk := BitVec.ofNat 16 (field d 48 16), depth := p.2.2 })
    | none => s) s
  let seqOf (id : Nat) : Nat := field (pkgWord s (descAt s r id + 8)) 0 32
  let done := sortBy (fun a b => decide (seqOf a ≤ seqOf b)) (kept.filter (fun id => (chainOf s r id).isEmpty))
  (done.foldl (fun s id => commitDesc s r id) s, ends)

/-- SRESOLVE's end: the acquire and the status (R363). -/
def resolveEnd (md : Mods) (d : GReg) (st : Nat) : M Unit := do
  modify (fun s => acquire s s.core .die)
  modifyCur (fun c => { c with cancelled := none })
  finish md d st

/-- The end of an instruction that has taken its step with a status, once every context that it awaits has ended: it stays on
its own place until then. -/
def whenEnded (k : Nat → M Unit) (st : Nat) : M Unit := do
  modifyCur (fun c => { c with cancelled := some st })
  let c ← getCur
  if c.awaits.isEmpty then k st else pure ()

/-- SRESOLVE (R363). After its step, it waits on its own place until every segment it pruned has ended. -/
def execSresolve (x : SresolveArgs) (s : State) : Out :=
  scalarStep x.m (do
    match (← getCur).cancelled with
    | some st => whenEnded (resolveEnd x.m x.d) st
    | none =>
      let o ← consumeG x.b
      parkIfSpec
      releaseOwn .die
      let s ← get
      let r := s.cur.h.region
      let st := condState s r x.cond.val
      if 1 < o.toNat then resolveEnd x.m x.d 8
      else if st = 2 + o.toNat then resolveEnd x.m x.d 5
      else if st = 2 + (1 - o.toNat) then resolveEnd x.m x.d 6
      else
        let (s, ends) := resolveStep s r x.cond.val o.toNat
        set s
        modifyCur (fun c => { c with awaits := ends })
        whenEnded (resolveEnd x.m x.d) 0) s

/-- SRESOLVE.free (R363). -/
def execSresolveFree (x : SCondArgs) (s : State) : Out :=
  scalarStep x.m (do
    parkIfSpec
    releaseOwn .die
    let s ← get
    let r := s.cur.h.region
    let w := condWord s r x.cond.val
    if field w 0 2 = 1 then resolveEnd x.m x.d 7
    else
      set (pkgPut s (condAt s r x.cond.val) (setField (setField w 0 2 0) 26 1 0))
      resolveEnd x.m x.d 0) s

/-- PRUNED_SEGMENT_END (R364): once the engine commands that it pushed have completed. -/
def execPrunedSegmentEnd (slot : Nat) (s : State) : Out :=
  match s.ctx? slot with
  | none => .next s
  | some c =>
    if c.pruned && !(s.engines.any (fun e => e.2.cmds.any (fun m => m.slot == slot))) then
      .next (endSingle s slot)
    else .next s

/-! ### SLK (R371) and parked segments (R368) -/

/-- SLK (R371). -/
def execSlk (x : MdArgs) (s : State) : Out :=
  scalarStep x.m (do
    let c ← getCur
    let v := c.lk.toNat ||| c.depth <<< 16 ||| b2n c.spec <<< 20 ||| b2n c.seg <<< 21 ||| c.segId <<< 24
    modifyCur (fun c => writeG c x.d (BitVec.ofNat 64 v))
    advance x.m) s

/-- SLK.seg (R371). -/
def execSlkSeg (x : MdaArgs) (s : State) : Out :=
  scalarStep x.m (do
    let v ← consumeG x.a
    let s ← get
    let w := if field v 8 56 ≠ 0 then 0 else dstate s s.cur.h.region (field v 0 8)
    modifyCur (fun c => writeG c x.d w)
    advance x.m) s

/-- SLK.cond (R371). -/
def execSlkCond (x : SCondArgs) (s : State) : Out :=
  scalarStep x.m (do
    let s ← get
    let w := condWord s s.cur.h.region x.cond.val
    modifyCur (fun c => writeG c x.d w)
    advance x.m) s

/-- The instructions that park a speculative segment whatever their operands (R368). -/
def parksSegment (i : Instr) : Bool :=
  match i with
  | .amo _ | .callq _ | .sresolve _ | .sresolveFree _ | .treward _ | .tcancel _ | .dpush _ | .dpop _ | .dsteal _
  | .lpatch _ | .larmPlace _ | .larmArm _ | .larmDisarm _ | .tfence _ | .iinv _ => true
  | _ => false

/-- SEGMENT_PARK (R368): a speculative segment before a barred instruction returns its lanes and stays on it. -/
def execSegmentPark (core : Nat) (s : State) : Out :=
  match (s.coreAt core).slot with
  | none => .next s
  | some slot =>
    let c := s.ctxAt slot
    if !c.spec || c.h.run == 0 || c.segPark.isSome then .next s
    else
      match nextWords { s with core := core, party := .control } with
      | .ok (some ws) _ =>
        match decodeWords ws with
        | some i =>
          if parksSegment i && ((toFields i).map (fun f => active f.mods c 0)).getD true then
            .next (restLanes (s.modCtx slot (fun c => { c with segPark := some .control })) slot)
          else .next s
        | none => .next s
      | .ok none _ => .next s
      | .error _ _ => .next s

end Sys2Proof.Machine
end

