-- ==== Sys2Proof/Machine/Troupe.lean ====
section
/-! DEFINITION. Troupes: forking (R335 to R340, R372), rewards (R341), the close (R342, R343), TBAR, TADV and TCANCEL (R344),
the commands of TCMD (R334), time-out (R342) and release (R347). -/

namespace Sys2Proof.Machine

/-! ### The control page -/

/-- The troupe of an allotted page. -/
def troupe? (s : State) (t : Nat) : Option Troupe := lookupKey t s.troupes
/-- A troupe set. -/
def setTroupe (s : State) (t : Nat) (x : Troupe) : State := { s with troupes := insertKey t x s.troupes }
/-- The physical address of a troupe control page (R331). -/
def troupePage (t : Nat) : Nat := ctlBase + 0x20000000 + 4096 * t
/-- The lowest free page of the 4,096 (R330). -/
def freePage (s : State) : Option Nat := (List.range 4096).find? (fun t => (troupe? s t).isNone)

/-! ### The close (R343) -/

/-- What the close writes: status, μ, σ², σ, the advantages of the included siblings in their order. -/
structure Closing where
  tstat : Nat
  mu : Nat
  var : Nat
  sig : Nat
  advs : List Nat
  deriving DecidableEq, Repr

/-- The statistics of the included rewards in increasing index, at least one (R343). -/
def closeStats (eps : Nat) (rs : List Nat) : Closing :=
  let m := rs.length
  let sum := treeOf add32 0 rs
  let mu := divInt32 sum m
  let dv := rs.map (fun r => sub32 r mu)
  let sq := dv.map (fun d => op32 Val.mul d d)
  let v := treeOf add32 0 sq
  let var := divInt32 v m
  let sg := round32 (decodeFp .f32 var).sqrt
  if !([sum, mu, v, var, sg] ++ dv ++ sq).all fin32 then { tstat := 4, mu := mu, var := var, sig := sg, advs := [] }
  else if (decodeFp .f32 sg).isZero then { tstat := 3, mu := mu, var := var, sig := sg, advs := [] }
  else
    let den := add32 sg eps
    { tstat := 1, mu := mu, var := var, sig := sg, advs := dv.map (fun d => op32 Val.div d den) }

/-- Advantages written to the included siblings, in order; +0 to every other. -/
def putAdvs : List Sib → List Nat → List Sib
  | [], _ => []
  | b :: rest, advs =>
    if b.sstat = 1 then { b with adv := BitVec.ofNat 32 (advs.headD 0) } :: putAdvs rest (advs.drop 1)
    else { b with adv := 0 } :: putAdvs rest advs

/-- Close (R343). -/
def closeTroupe (x : Troupe) (cancelled : Bool) : Troupe :=
  let sibs := x.sibs.map (fun b => if b.sstat = 0 then { b with sstat := 4 } else b)
  let rs := (sibs.filter (fun b => b.sstat == 1)).map (fun b => b.reward.toNat)
  let none_ (st : Nat) : Closing := { tstat := st, mu := 0, var := 0, sig := 0, advs := [] }
  let r := if cancelled then none_ 5
    else if rs.length < x.quorum then none_ 2
    else closeStats x.eps.toNat rs
  { x with
    tstat := r.tstat, m := rs.length, mu := BitVec.ofNat 32 r.mu, var := BitVec.ofNat 32 r.var
    sig := BitVec.ofNat 32 r.sig, counting := false, sibs := putAdvs sibs r.advs }

/-- The close of R342, if every sibling has an accepted post or is cancelled. -/
def closeIfFull (x : Troupe) : Troupe :=
  if x.sibs.all (fun b => b.posted || b.sstat == 2) then closeTroupe x false else x

/-! ### Forking -/

/-- Does a template keep R335 for `n` siblings? -/
def templateOk (w0 w1 : Word) (n : Nat) : Bool :=
  let eps := field w0 0 32
  (eps == 0x80000000 || (!bit w0 31 && field w0 23 8 != 255)) && decide (1 ≤ field w0 32 7) &&
    decide (field w0 32 7 ≤ n) && field w0 39 25 == 0 && field w1 32 32 == 0

/-- The depth that siblings of a context would have as segments (R372). -/
def forkDepth (s : State) (c : Ctx) : Nat := match specParent c with
  | some p => field (dstate s c.h.region p) 8 4 + 1
  | none => 0

/-- Can R330, and R372 in a segment, be met for `n` siblings? -/
def forkRoom (s : State) (c : Ctx) (n : Nat) : Bool :=
  let r := c.h.region
  (freePage s).isSome && budgetRoom s r 4 n && decide (n ≤ (freeSlots s r).length) &&
    (!c.spec || (decide (forkDepth s c ≤ 8) && budgetRoom s r 5 n &&
      decide (n ≤ ((List.range 256).filter (descFree s r)).length)))

/-- Sibling `i` of troupe `t` at its start (R339, R346). -/
def siblingCtx (s : State) (c : Ctx) (slot t i : Nat) (d : GReg) (target : Word) (gang : Nat) : Ctx :=
  let regs := spawnRegs c d 0 (BitVec.ofNat 64 t) (BitVec.ofNat 64 i)
  { Ctx.zero with
    h := { Header.zero with
      run := 1, pc := target, vcp := target, pcap := c.h.pcap, rootcap := c.h.rootcap, atp := c.h.atp
      vlcap := c.h.vlcap, srseed := c.h.srseed, srbase := c.h.srbase, region := c.h.region
      imgbase := imgBase s c.h.region slot }
    r := regs.r
    lk := c.lk
    tsib := BitVec.ofNat 6 i
    loader := roustImage s 0
    storer := roustImage s 0
    member := some (t, i)
    gang := gang
    home := dieOf s.core
    spsize := c.spsize
    firstAcq := some .pkg }

/-- Sibling `i` made and put at the tail of the placement queue (R338); in a segment, with a descriptor of its own
(R372). -/
def forkOne (c : Ctx) (d : GReg) (target : Word) (t : Nat) (s : State) (i slot : Nat) : State :=
  let r := c.h.region
  let x := siblingCtx s c slot t i d target s.gangNext
  let (s, x) := match specParent c with
    | none => (s, x)
    | some p =>
      let id := (freeDescId s r).getD 0
      let a := descAt s r id
      let lk := field (dstate s r p) 48 16
      let die := field (dstate s r p) 46 2
      let hdr := pkgWord s (specArea s r)
      let s := budgetTake s r 5 1
      let s := pkgPut s (a + 8) (BitVec.ofNat 64 (field hdr 32 32))
      let s := pkgPut s (specArea s r) (setField hdr 32 32 (field hdr 32 32 + 1))
      let s := putChain (putSnapshot s a target x) r id (chainOf s r p)
      let s := pkgPut s a (dstateWord lk die slot (some p) (forkDepth s c) true 2)
      (s, { x with seg := true, spec := true, depth := forkDepth s c, segId := id, lk := BitVec.ofNat 16 lk })
  queueGang (imagesBorn (s.setCtx slot x) slot) (contextGang [slot] r (dieOf s.core) false) false

/-- The descriptor of sibling `i`'s segment noted in its troupe (R372). -/
def noteDesc (s : State) (t i slot : Nat) : State :=
  let x := s.ctxAt slot
  match troupe? s t with
  | some y => if x.spec then setTroupe s t { y with sibs := modifyAt y.sibs i (fun b => { b with desc := some x.segId }) } else s
  | none => s

/-- TFORK's step: the page and its siblings (R338). -/
def forkStep (s : State) (c : Ctx) (d : GReg) (target w0 w1 : Word) (n : Nat) : State × Nat :=
  let r := c.h.region
  let t := (freePage s).getD 0
  let slots := (freeSlots s r).take n
  let s := budgetTake s r 4 n
  let x : Troupe := {
    owner := s.slot, region := r, home := clusterOf s.core, eps := BitVec.ofNat 32 (field w0 0 32),
    quorum := field w0 32 7, timeout := BitVec.ofNat 32 (field w1 0 32), counted := 0, counting := false, held := false,
    relreq := false, ownerEnded := false, tstat := 0, m := 0, mu := 0, var := 0, sig := 0, theld := 0,
    sibs := slots.map (fun k =>
      { slot := k, desc := none, posted := false, reward := 0, sstat := 0, adv := 0, ended := false }) }
  let s := setTroupe s t x
  (slots.zipIdx.foldl (fun s p => noteDesc (forkOne c d target t s p.2 p.1) t p.2 p.1) s, t)

/-- TFORK (R338). -/
def execTfork (x : TforkArgs) (s : State) : Out :=
  scalarStep x.m (do
    let n ← consumeG x.a
    let c ← getCur
    let cap := readC c x.b
    let va := capCursor cap
    let pa ← orTrap (← capAccess cap 0 16 .load .read) x.b
    if inCtl pa then trapD cCtlAccess va (BitVec.ofNat 64 x.b)
    if pa % 16 ≠ 0 then trapD cAlign va (BitVec.ofNat 64 x.b)
    let bs ← loadMem pa 16 .core 0
    let w0 := wordOfBytes (bs.take 8)
    let w1 := wordOfBytes (bs.drop 8)
    let s ← get
    if n.toNat < 2 ∨ 64 < n.toNat then finish x.m x.d 5
    else if !templateOk w0 w1 n.toNat then finish x.m x.d 6
    else if !forkRoom s c n.toNat then finish x.m x.d 7
    else
      waitVector
      drainParty .vector
      releaseOwn .pkg
      let s ← get
      let c := s.cur
      let (s, t) := forkStep s c x.d (branchTarget c.h.pc x.off) w0 w1 n.toNat
      set s
      modifyCur (fun c => spawnRegs c x.d 0 (BitVec.ofNat 64 t) n)
      advance x.m) s

/-! ### Rewards -/

/-- The post of a reward by sibling `i` (R341): the status and the troupe. -/
def postReward (x : Troupe) (i : Nat) (w : Word32) : Nat × Troupe :=
  match x.sibs[i]? with
  | none => (3, x)
  | some b =>
    if x.tstat ≠ 0 then (1, x)
    else if b.posted then (2, x)
    else
      let first := !(x.sibs.any (·.posted))
      let st := if fin32 w.toNat then 1 else 3
      let x := { x with
        sibs := x.sibs.set i { b with posted := true, reward := w, sstat := st }
        counting := x.counting || first
        counted := if first then 0 else x.counted }
      (0, closeIfFull x)

/-- TREWARD (R341). -/
def execTreward (x : MdaArgs) (s : State) : Out :=
  scalarStep x.m (do
    let v ← consumeG x.a
    parkIfSpec
    let c ← getCur
    match c.member with
    | none => finish x.m x.d 3
    | some (t, i) =>
      releaseOwn .pkg
      let s ← get
      match troupe? s t with
      | none => finish x.m x.d 1
      | some y =>
        let (st, y) := postReward y i (v.setWidth 32)
        set (setTroupe s t y)
        finish x.m x.d st) s

/-! ### Waiting and reading -/

/-- The status word of TBAR and TADV (R337). -/
def statusWord (code sstat tstat m : Nat) : Word := BitVec.ofNat 64 (code ||| sstat <<< 8 ||| tstat <<< 16 ||| m <<< 24)

/-- The status of sibling `i` of a troupe; 0 where there is none. -/
def sibStat (x : Troupe) (i : Nat) : Nat := match x.sibs[i]? with
  | some b => b.sstat
  | none => 0

/-- The status word of a code for sibling `i` of a troupe. -/
def troupeWord (x : Troupe) (i code : Nat) : Word := statusWord code (sibStat x i) x.tstat x.m

/-- The two results of TBAR and TADV without a delivery. -/
def noDelivery (md : Mods) (d : GReg) (w : Word) : M Unit := do
  modifyCur (fun c => writeG (writeG c d 0) (d + 1) w)
  advance md

/-- What Deliver(i) writes (R344): the advantage and the status word. -/
def delivery (x : Troupe) (i : Nat) : Word × Word :=
  (match x.sibs[i]? with
    | some b => b.adv.setWidth 64
    | none => 0, troupeWord x i 0)

/-- Deliver (R344); the thread's lanes are asked for again (R181). -/
def deliver (md : Mods) (d : GReg) (r : Word × Word) : M Unit := do
  modifyCur (fun c => { writeG (writeG c d r.1) (d + 1) r.2 with awaitClose := none, delivered := none })
  modify (fun s => acquire s s.core .pkg)
  advance md
  modify (fun s => laneRegrant s s.slot)

/-- A wait for the close of troupe `t`, parked: the lanes return (R176). -/
def waitClose (t i : Nat) : M Unit := do
  modify (fun s => restLanes (s.modCur (fun c => { c with awaitClose := some (t, i) })) s.slot)
  waits

/-- TBAR (R344). -/
def execTbar (x : MdArgs) (s : State) : Out :=
  scalarStep x.m (do
    let s ← get
    match s.cur.member with
    | none => noDelivery x.m x.d (statusWord 3 0 0 0)
    | some (t, i) =>
      match troupe? s t with
      | none => noDelivery x.m x.d (statusWord 3 0 0 0)
      | some y =>
        if y.tstat = 0 then waitClose t i
        else deliver x.m x.d (delivery y i)) s

/-- The handle check of R344: the troupe, or the failing code with its status word (R337). `whole` admits 64. -/
def troupeCheck (s : State) (h i : Word) (whole : Bool) : Except (Nat × Word) Troupe :=
  match (if field h 12 52 = 0 then troupe? s h.toNat else none) with
  | none => .error (8, statusWord 8 0 0 0)
  | some x =>
    let mine := match s.cur.member with
      | some (t, _) => t == h.toNat
      | none => false
    if !(mine || (x.owner == s.slot && !x.ownerEnded)) then .error (4, troupeWord x i.toNat 4)
    else if i.toNat < x.sibs.length || (whole && i.toNat == 64) then .ok x
    else .error (9, troupeWord x i.toNat 9)

/-- TADV with and without .nw (R344). -/
def tadvBody (x : MdabArgs) (nw : Bool) : M Unit := do
  let h ← consumeG x.a
  let i ← consumeG x.b
  let s ← get
  match s.cur.delivered with
  | some r => deliver x.m x.d r
  | none =>
    match troupeCheck s h i false with
    | .error e => noDelivery x.m x.d e.2
    | .ok y =>
      if y.tstat = 0 then
        (if nw then noDelivery x.m x.d (troupeWord y i.toNat 11) else waitClose h.toNat i.toNat)
      else deliver x.m x.d (delivery y i.toNat)

/-- TADV (R344). -/
def execTadv (x : MdabArgs) (s : State) : Out := scalarStep x.m (tadvBody x false) s
/-- TADV.nw (R344). -/
def execTadvNw (x : MdabArgs) (s : State) : Out := scalarStep x.m (tadvBody x true) s

/-! ### Cancelling -/

/-- The targets of a cancel. -/
def cancelTargets (x : Troupe) (i : Nat) : List Nat := if i = 64 then List.range x.sibs.length else [i]

/-- The records of a cancel's targets (R344), with the close that it brings about. -/
def cancelRecords (x : Troupe) (i : Nat) : Troupe :=
  let ts := cancelTargets x i
  let x := { x with sibs := x.sibs.zipIdx.map (fun p => if ts.contains p.2 then { p.1 with sstat := 2 } else p.1) }
  if i = 64 then closeTroupe x true else closeIfFull x

/-- A cancelled sibling is stopped at its next boundary and then ends; one that stands still ends at once (R344). One that a
prune has stopped ends by itself (R364). -/
def endTarget (s : State) (slot : Nat) : State :=
  let c := s.ctxAt slot
  if c.pruned then s
  else if c.h.run = 0 || c.core.isNone || slot = s.slot || c.halt == some .away then endSingle (stopRun s slot) slot
  else s.modCtx slot (fun c => { c with ending := true, halt := some .stop, parked := none, hit := false })

/-- Every target that has not ended is stopped (R344). -/
def endTargets (s : State) (x : Troupe) (i : Nat) : State :=
  (cancelTargets x i).foldl (fun s j => match x.sibs[j]? with
    | some b => if b.ended then s else endTarget s b.slot
    | none => s) s

/-- The slots of a cancel's targets that have not ended. -/
def targetsLeft (s : State) (t i : Nat) : List Nat :=
  match troupe? s t with
  | none => []
  | some x => (cancelTargets x i).filterMap (fun j => (x.sibs[j]?).bind (fun b => if b.ended then none else some b.slot))

/-- The troupe step of a cancel and the stops that follow: the status and the state. -/
def cancelStep (s : State) (t : Nat) (x : Troupe) (i : Nat) : Nat × State :=
  let s := if x.tstat ≠ 0 then s else setTroupe s t (cancelRecords x i)
  (if x.tstat ≠ 0 then 10 else 0, endTargets s x i)

/-- The end of a TCANCEL. -/
def cancelEnd (md : Mods) (d : GReg) (st : Nat) : M Unit := do
  modifyCur (fun c => { c with cancelled := none })
  finish md d st

/-- TCANCEL (R344). After its troupe step it waits on its own place until every target has ended, and a stop in that wait does
not undo the step (R139); a sibling that names itself is gone at the step. -/
def execTcancel (x : MdabArgs) (s : State) : Out :=
  scalarStep x.m (do
    match (← getCur).cancelled with
    | some st => whenEnded (cancelEnd x.m x.d) st
    | none =>
      let h ← consumeG x.a
      let i ← consumeG x.b
      parkIfSpec
      let s ← get
      match troupeCheck s h i true with
      | .error e => finish x.m x.d e.1
      | .ok y =>
        let me := s.slot
        if (targetsLeft s h.toNat i.toNat).contains me then quiet else pure ()
        let s ← get
        let (st, s) := cancelStep s h.toNat y i.toNat
        set s
        if (s.ctx? me).isNone || (s.coreAt s.core).slot != some me then return ()
        else
          modifyCur (fun c => { c with awaits := targetsLeft s h.toNat i.toNat })
          whenEnded (cancelEnd x.m x.d) st) s

/-! ### TCMD, time-out, release -/

/-- HOLD (R334). -/
def holdTroupe (s : State) (t : Nat) : State :=
  match troupe? s t with
  | none => s
  | some x =>
    if x.held then s
    else
      let live := x.sibs.zipIdx.filter (fun p => !p.1.ended && (s.ctxAt p.1.slot).h.run != 0)
      let bits := live.foldl (fun b p => b ||| 1 <<< p.2) 0
      live.foldl (fun s p => askHalt (stopRun s p.1.slot) p.1.slot noSlot 0)
        (setTroupe s t { x with held := true, theld := x.theld ||| BitVec.ofNat 64 bits })

/-- RESUME (R334); none of a closed or handed-off session runs again (R419, R428). -/
def resumeTroupe (s : State) (t : Nat) : State :=
  match troupe? s t with
  | none => s
  | some x =>
    if !x.held then s
    else
      let back := x.sibs.zipIdx.filter (fun p => x.theld.getLsbD p.2 && !p.1.ended &&
        (s.ctxAt p.1.slot).h.run == 0 && (s.ctxAt p.1.slot).h.cause == cStop && !runBarred s (s.ctxAt p.1.slot).h.region)
      back.foldl (fun s p => goRun s p.1.slot 1) (setTroupe s t { x with held := false, theld := 0 })

/-- RELEASE (R334). -/
def releaseTroupe (s : State) (t : Nat) : State :=
  match troupe? s t with
  | none => s
  | some x => setTroupe s t { x with relreq := true }

/-- CANCEL (R334): as TCANCEL of the whole troupe. -/
def cancelTroupe (s : State) (t : Nat) : State :=
  match troupe? s t with
  | none => s
  | some x => (cancelStep s t x 64).2

/-- A store to TCMD (R334); every other value is discarded. -/
def tcmdStore (s : State) (t : Nat) (v : Word) : State :=
  match field v 0 8 with
  | 1 => holdTroupe s t
  | 2 => resumeTroupe s t
  | 3 => releaseTroupe s t
  | 4 => cancelTroupe s t
  | _ => s

/-- TROUPE_TIMEOUT (R342): the counter has reached a nonzero time-out. -/
def execTroupeTimeout (t : Nat) (s : State) : Out :=
  match troupe? s t with
  | none => .next s
  | some x =>
    if x.tstat = 0 && x.timeout != 0 && x.counting && !x.held && decide (x.timeout.toNat ≤ x.counted.toNat) then
      .next (setTroupe s t (closeTroupe x false))
    else .next s

/-- The page of a troupe freed (R347); a thread that waited for its close keeps what it is to be given (R344). -/
def freeTroupe (s : State) (t : Nat) (x : Troupe) : State :=
  let keep (c : Ctx) : Ctx := match c.awaitClose with
    | some (u, i) => if u = t && c.delivered.isNone then { c with delivered := some (delivery x i) } else c
    | none => c
  { s.mapCtxs (fun _ c => keep c) with troupes := eraseKey t s.troupes }

/-- TROUPE_RELEASE (R347). -/
def execTroupeRelease (t : Nat) (s : State) : Out :=
  match troupe? s t with
  | none => .next s
  | some x =>
    if x.tstat ≠ 0 && x.sibs.all (·.ended) && (x.relreq || x.ownerEnded) then
      .next (freeTroupe s t x)
    else .next s

end Sys2Proof.Machine
end

