-- ==== Sys2Proof/Machine/FrontEnds.lean ====
section
/-! DEFINITION. Queues and their packets in a front end: accesses of front ends (R137, R422, R443), wakes (R380, R389), scans
(R380), wait signals (R381), verified Lysyo programs (R387), mapping and unmapping (R388). -/

namespace Sys2Proof.Machine

/-! ### Accesses of a front end -/

/-- May an agent that serves no context reach `n` bytes: ordinary memory or a present core's scratchpad, outside every
protected range, unpoisoned (R390, R422, R443)? -/
def busReach (s : State) (pa n : Nat) : Bool :=
  let ends (p : Nat → Bool) : Bool := p pa && p (pa + n - 1)
  (ends (inMemory s) || (ends inSpad && corePresent s ((pa - spadBase) / 2 ^ 20) &&
      corePresent s ((pa + n - 1 - spadBase) / 2 ^ 20))) &&
    (protectedBy s pa).isNone && (protectedBy s (pa + n - 1)).isNone &&
    !((pieces pa n (n / 64 + 2)).any (fun p => s.poison.contains (lineOf p.1)))

/-- The address of a ring slot (R376). -/
def slotAddr (h : Queue) (i : BitVec 32) : Nat := h.ringbase.toNat + 64 * (i.toNat % 2 ^ h.lg)

/-- A ring slot read at the system point. -/
def readSlot (s : State) (a : Nat) : Vector Word 8 := Vector.ofFn (fun i : Fin 8 => pkgWord s (a + 8 * i))

/-- Word `i` of a packet. -/
def pktWord (v : Vector Word 8) (i : Nat) : Word := v.toList.getD i 0

/-- Does a signal address meet R378: 8-aligned, in HBM4E or second-tier memory? -/
def signalOk (s : State) (a : Word) : Bool := a.toNat % 8 == 0 && (inHbm s a.toNat || inSecond a.toNat)

/-- Has a signal the count 0 (R379)? -/
def signalZero (s : State) (a : Word) : Bool := field (pkgWord s a.toNat) 0 48 == 0

/-! ### Packets -/

/-- Packets of a queue whose stage is in Lysyo, in a hold, or at the launch step (R381, R388). -/
def underway (h : Queue) : List Pkt :=
  h.taken.filter (fun k => match k.stage with
    | .lysyo | .held _ | .launch => true
    | .launched | .completed | .written | .counted | .done => false)

/-- The packet of a queue that is under way changed. -/
def modUnderway (s : State) (q : Nat) (f : Pkt → Pkt) : State :=
  s.modQueue q (fun h => { h with taken := h.taken.map (fun k => match k.stage with
    | .lysyo | .held _ | .launch => f k
    | .launched | .completed | .written | .counted | .done => k) })

/-- The slot of a queue in the table of its front end, unless its unmap has begun. -/
def liveSlot (s : State) (h : Queue) : Option (Nat × Nat) :=
  match h.mapped with
  | some (f, j) => if (s.feAt f).busy.contains j then none else some (f, j)
  | none => none

/-- A wake of a queue (R380, R389): a mapped queue's front end reads again; any other latches the bit. -/
def wakeQueue (s : State) (q b : Nat) : State :=
  let h := s.queueAt q
  match liveSlot s h with
  | some _ => s.modQueue q (fun h => { h with wake := true })
  | none =>
    (s.modQueue q (fun h => { h with pwake := h.pwake ||| maskAt 2 b 1 })).modFe h.fe
      (fun f => { f with pwsum := insertNat q f.pwsum })

/-! ### The scan (R380) -/

/-- The valid packets of a ring from an index, in order. -/
def scanFrom (s : State) (h : Queue) : Nat → BitVec 32 → List (BitVec 32 × Vector Word 8)
  | 0, _ => []
  | fuel + 1, i =>
    if i = h.tail || 2 ^ h.lg ≤ (i - h.head).toNat || !busReach s (slotAddr h i) 64 then []
    else
      let v := readSlot s (slotAddr h i)
      if bit (pktWord v 0) 63 then (i, v) :: scanFrom s h fuel (i + 1) else []

/-- The wait signal of the oldest untaken packet read again: it stays read as 0 while that packet is the oldest (R381). -/
def readSignal (s : State) (q : Nat) : State :=
  s.modQueue q (fun h => match h.read.head? with
    | some p => { h with sigHit := false, waitZero := h.waitZero || signalZero s (pktWord p.2 3) }
    | none => { h with sigHit := false })

/-- The scan of a queue: the slots after the last packet taken are read. -/
def scanQueue (s : State) (q : Nat) : State :=
  let h := s.queueAt q
  let l := scanFrom s h (2 ^ h.lg + 1) h.next
  let same := (l.head?.map (fun p => (p.1, pktWord p.2 3))) == (h.read.head?.map (fun p => (p.1, pktWord p.2 3)))
  readSignal (s.modQueue q (fun h => { h with read := l, wake := false, waitZero := h.waitZero && same })) q

/-- QUEUE_SCAN (R380): after a wake, a remap or a completion. -/
def execQueueScan (queue : Nat) (s : State) : Out :=
  let h := s.queueAt queue
  .next (if h.wake && (liveSlot s h).isSome then scanQueue s queue else s)

/-- WAIT_SIGNAL_WAKE (R381, R389): the line of the signal has been written; a mapped queue's front end reads it again. -/
def execWaitSignalWake (queue : Nat) (s : State) : Out :=
  let h := s.queueAt queue
  if !h.sigHit then .next s
  else if (liveSlot s h).isSome then .next (readSignal s queue)
  else .next ((wakeQueue s queue 1).modQueue queue (fun h => { h with sigHit := false }))

/-! ### Programs (R387) -/

/-- The last instruction of the body of a LOOP at `i`, if a word is one. -/
def loopEnd (w : Word32) (i : Nat) : Option Nat :=
  match decodeLysyo w with
  | some (.lysyoLoop x) => some (i + field x.imm 0 8)
  | _ => none

/-- The LOOP bodies of a program: first and last index. -/
def loopBodies (p : List Word32) : List (Nat × Nat) :=
  p.zipIdx.filterMap (fun x => (loopEnd x.1 x.2).map (fun e => (x.2 + 1, e)))

/-- Does an index lie in a body? -/
def inBody (i : Nat) (b : Nat × Nat) : Bool := decide (b.1 ≤ i) && decide (i ≤ b.2)

/-- Does a LOOP at `i` with its body break check 4 in a program of `n` instructions? The bodies before it are given. -/
def loopBad (n i : Nat) (w : Word32) (before : List (Nat × Nat)) : Bool :=
  match decodeLysyo w with
  | some (.lysyoLoop x) =>
    let e := i + field x.imm 0 8
    let around := before.filter (inBody (i + 1))
    field x.imm 0 8 == 0 || field x.imm 8 8 == 0 || decide (n ≤ e) || around.any (fun b => decide (b.2 < e)) ||
      decide (4 ≤ around.length)
  | _ => false

/-- The target of a branch at `i`, if a word is one. -/
def branchTo (w : Word32) (i : Nat) : Option Nat :=
  match decodeLysyo w with
  | some (.beq x) => some (i + x.imm.toNat)
  | some (.bne x) => some (i + x.imm.toNat)
  | some (.bltu x) => some (i + x.imm.toNat)
  | _ => none

/-- The window of a window instruction, and whether it writes. -/
def windowOf (w : Word32) : Option (Nat × Bool) :=
  match decodeLysyo w with
  | some (.ldwn x) => some (field x.imm 14 2, false)
  | some (.stwn x) => some (field x.imm 14 2, true)
  | _ => none

/-- The check that instruction `i` of a program breaks, 0 for none. -/
def checkLysyo (h : Queue) (p : List Word32) (i : Nat) (w : Word32) : Nat :=
  let n := p.length
  let bodies := loopBodies p
  let win (k : Nat) : Word := h.win.toList.getD k 0
  if !lysyoOpListed w then 1
  else if (decodeLysyo w).isNone then 2
  else if (match branchTo w i with
      | some t => t == i || decide (n ≤ t)
      | none => false) then 3
  else if loopBad n i w (bodies.filter (fun b => decide (b.1 ≤ i))) then 4
  else if (match branchTo w i with
      | some t => bodies.any (fun b => inBody i b != inBody t b)
      | none => false) then 5
  else if (match windowOf w with
      | some (k, wr) => !bit (win k) 63 || (wr && !bit (win k) 62)
      | none => false) then 6
  else if i + 1 = n && (match decodeLysyo w with
      | some (.lysyoEnd _) => false
      | _ => true) then 7
  else 0

/-- PSTAT (R375) of a rejected program. -/
def rejected (code i : Nat) : Word := BitVec.ofNat 64 (2 <<< 62 ||| code <<< 8 ||| i)

/-- The program of a queue loaded and verified (R387): its instructions, and PSTAT. A word that does not read stands as an
instruction that no check of another knows. -/
def loadProgram (s : State) (h : Queue) : List Word32 × Word :=
  let n := field h.prog 56 8
  let a := field h.prog 0 56
  if h.prog = 0 then ([], 0)
  else if n = 0 then ([], rejected 7 0)
  else
    let reads (i : Nat) : Bool := busReach s (a + 4 * i) 4
    let p : List Word32 := (List.range n).map (fun i =>
      if reads i then BitVec.ofNat 32 (natOfBytes (pkgLoad s (a + 4 * i) 4)) else BitVec.allOnes 32)
    match (p.zipIdx.map (fun x => (x.2, if reads x.2 then checkLysyo h p x.2 x.1 else 7))).find? (fun x => x.2 != 0) with
    | some (i, c) => (p, rejected c i)
    | none => (p, BitVec.ofNat 64 (1 <<< 62))

/-- The program of a queue loaded into front end `f`. -/
def takeProgram (s : State) (f q : Nat) : State :=
  let (p, st) := loadProgram s (s.queueAt q)
  (s.modQueue q (fun h => { h with pstat := st })).modFe f (fun x => { x with
    progs := if p.isEmpty then eraseKey q x.progs else insertKey q p x.progs })

/-! ### Mapping (R388) -/

/-- The unmaps of a front end that have begun and whose queues have no packet in Lysyo or in a hold end. -/
def settleUnmaps (s : State) (f : Nat) : State :=
  (s.feAt f).busy.foldl (fun s j =>
    match lookupKey j (s.feAt f).qmap with
    | some q =>
      if (underway (s.queueAt q)).isEmpty then
        (s.modQueue q (fun h => { h with mapped := none })).modFe f (fun x => { x with
          qmap := eraseKey j x.qmap, busy := eraseNat j x.busy, progs := eraseKey q x.progs })
      else s
    | none => s.modFe f (fun x => { x with busy := eraseNat j x.busy })) s

/-- The unmap of slot `j` begins: a scan still due happens first, wakes latch from now, and a held packet leaves its hold to be
launched. -/
def unmapSlot (s : State) (f j : Nat) : State :=
  match lookupKey j (s.feAt f).qmap with
  | none => s
  | some q =>
    let h := s.queueAt q
    let s := if h.wake then scanQueue s q else s
    let s := s.modFe f (fun x => { x with busy := insertNat j x.busy })
    let s := modUnderway s q (fun k => match k.stage with
      | .held _ => { k with stage := .launch }
      | _ => k)
    settleUnmaps s f

/-- A queue mapped into slot `j`, if R388 lets it. -/
def mapSlot (s : State) (f j q : Nat) : State :=
  let h := s.queueAt q
  if (lookupKey j (s.feAt f).qmap).isSome || !h.valid || h.kind ≠ 0 || h.fe ≠ f || h.mapped.isSome then s
  else
    let s := s.modQueue q (fun h => { h with mapped := some (f, j) })
    let s := s.modFe f (fun x => { x with qmap := insertKey j q x.qmap })
    let s := takeProgram s f q
    let woken := h.pwake != 0
    let s := s.modQueue q (fun h => { h with pwake := 0 })
    let s := s.modFe f (fun x => { x with pwsum := eraseNat q x.pwsum })
    readSignal (if woken then scanQueue s q else s) q

/-- A store to QMAPj (R388). -/
def qmapStore (s : State) (f j : Nat) (v : Word) : State :=
  if (s.feAt f).busy.contains j then s
  else if bit v 63 then mapSlot s f j (field v 0 16)
  else unmapSlot s f j

end Sys2Proof.Machine
end

