-- ==== Sys2Proof/Machine/Sessions.lean ====
section
/-! DEFINITION. Sessions of the root of trust: protected ranges (R422), the commands of SCMD (R419, R423, R428, R429), and the
token of a staged write (R421). -/

namespace Sys2Proof.Machine

/-! ### Ranges of memory zeroed -/

/-- Every copy of a range's lines leaves the caches of cores. -/
def dropLines (s : State) (lo n : Nat) : State :=
  { s with cores := s.cores.map (fun p => (p.1, { p.2 with
      l1 := p.2.l1.filter (fun x => lineOutside lo n x.1)
      icache := p.2.icache.filter (fun x => lineOutside lo n x.1) })) }

/-- Every byte of a range zero, its tags clear, no copy of it anywhere. -/
def zeroRange (s : State) (lo n : Nat) : State :=
  if n = 0 then s else bulkSet (dropLines (snapRange s lo n) lo n) lo n []

/-! ### Protected ranges (R422) -/

/-- Does a range meet one that another session holds? -/
def meetsOther (s : State) (j b n : Nat) : Bool :=
  s.sessions.any (fun p => p.1 != j && decide (1 ≤ p.2.state) && decide (p.2.state ≤ 3) &&
    p.2.ranges.toList.any (fun r => rangeMeets (r.1.toNat, r.2.toNat) (b, n)))

/-- Is a range accepted for session `j`? An empty one is no range. -/
def rangeOk (s : State) (j b n : Nat) : Bool :=
  b % 2 ^ 21 == 0 && n % 2 ^ 21 == 0 && (n == 0 || (inOneMemory s b n && !meetsOther s j b n))

/-- The parts of a first range that lie outside a second. -/
def rangeMinus (a b : Nat × Nat) : List (Nat × Nat) :=
  let lo := max a.1 b.1
  let hi := min (a.1 + a.2) (b.1 + b.2)
  if hi ≤ lo then [a] else [(a.1, lo - a.1), (hi, a.1 + a.2 - hi)]

/-- Range `k` of a session replaced (R422): one that is shortened, moved or removed is zeroed whole, and so are the bytes that
join it. -/
def setRange (s : State) (j : Nat) (k : Fin 4) (b n : Word) : State :=
  let x := s.sessionAt j
  let old := (x.ranges[k].1.toNat, x.ranges[k].2.toNat)
  let new := (b.toNat, n.toNat)
  let grows := old.1 == new.1 && decide (old.2 ≤ new.2)
  let gone := if grows then [] else [old, new]
  let s := (gone ++ rangeMinus new old).foldl (fun s r => zeroRange s r.1 r.2) s
  s.modSession j (fun x => { x with ranges := x.ranges.set k (b, n) })

/-- Every range of a session zeroed. -/
def scrubRanges (s : State) (j : Nat) : State :=
  (s.sessionAt j).ranges.toList.foldl (fun s r => zeroRange s r.1.toNat r.2.toNat) s

/-! ### Arguments of commands -/

/-- A list of 64 bytes; SMEAS and FWDIGEST are 0 until written. -/
def pad64 (l : List Byte) : List Byte := (l ++ List.replicate 64 0).take 64

/-- Bytes that the root of trust reads at the system point, none on a fault. -/
def trustLoad (s : State) (a : Word) (n : Nat) : Option (List Byte) :=
  if busReach s a.toNat n then some (pkgLoad s a.toNat n) else none

/-- Bytes that the root of trust writes at the system point, none on a fault. -/
def trustStore (s : State) (a : Word) (bs : List Byte) : Option State :=
  if busReach s a.toNat (max 1 bs.length) then some (pkgStoreAll s a.toNat bs) else none

/-- The base point of X25519. -/
def basePoint : List Byte := 9 :: List.replicate 31 0

/-- Bytes of an ASCII string. -/
def ascii (t : String) : List Byte := t.toList.map (fun c => BitVec.ofNat 8 c.toNat)

/-- A signature under the part's identity key (R416). -/
def signed (m : List Byte) : List Byte := ed25519Sign Config.identitySeed m

/-- What a command answers: its result code and the state. -/
abbrev CmdRes := Nat × State

/-- The number of a session as one byte. -/
def oneByte (j : Nat) : List Byte := [BitVec.ofNat 8 j]

/-! ### The commands (R419) -/

/-- OPEN. -/
def cmdOpen (s : State) (j : Nat) : CmdRes :=
  let x := s.sessionAt j
  if x.state ≠ 0 then (1, s)
  else
    match trustLoad s x.sarg 64 with
    | none => (2, s)
    | some arg =>
      let tenant := arg.take 32
      let nonce := arg.drop 32
      let secret := Config.ephemeralSecret s.draws
      let pub := x25519 secret basePoint
      let shared := x25519 secret tenant
      let key (t : String) : List Byte := hkdf shared nonce (ascii t)
      let digest := sha512 (tenant ++ nonce ++ pub ++ pad64 s.arb.fwdigest ++ oneByte j)
      match trustStore { s with draws := s.draws + 1 } (x.sarg + 64) (pub ++ signed digest) with
      | none => (2, s)
      | some s => (0, s.modSession j (fun x => { x with
          state := 1
          sgen := 0
          smeas := List.replicate 64 0
          keys := [key "token", key "memory", key "paging", key "wrap", key "checkpoint"]
          handover := none
          expiry := 0 }))

/-- REPORT. -/
def cmdReport (s : State) (j : Nat) : CmdRes :=
  let x := s.sessionAt j
  if x.state ≠ 1 && x.state ≠ 2 then (1, s)
  else
    let head := bytesOfNat 8 j ++ wordBytes 8 x.sgen ++ wordBytes 8 (sessionRead x 0) ++ pad64 s.arb.fwdigest ++
      pad64 x.smeas
    match trustStore s x.sarg (head ++ signed (sha512 head)) with
    | none => (2, s)
    | some s => (0, s)

/-- Tile loads in flight read their key slots before a slot is freed (R423). -/
def finishTiles (s : State) : State := s.ctxs.foldl (fun s p => finishTile s p.1) s

/-- The key slots of a session freed, after the tile loads that have passed their check (R423). -/
def freeKeys (s : State) (j : Nat) : State :=
  let s := finishTiles s
  { s with keys := s.keys.filter (fun k => k.2.sess != j) }

/-- The contexts of a session's regions (R418, notes/assumptions/40.md). -/
def sessionSlots (s : State) (j : Nat) : List Nat :=
  (s.ctxs.filter (fun p => p.1 != 0 && regionUnder s p.2.h.region (s.sessionAt j).region)).map (·.1)

/-- The traces that a session and its contexts leave on cores, from now on those of a session that is gone (R427). -/
def strandTraces (s : State) (j : Nat) (slots : List Nat) : State :=
  { s with cores := s.cores.map (fun p =>
      if p.2.traces = some j || (match p.2.slot with
        | some k => slots.contains k
        | none => false) then (p.1, { p.2 with traces := some 16 }) else p) }

/-- CLOSE. -/
def cmdClose (s : State) (j : Nat) : CmdRes :=
  let x := s.sessionAt j
  if x.state = 0 then (1, s)
  else
    let slots := sessionSlots s j
    let s := freeKeys (strandTraces (slots.foldl stopRun s) j slots) j
    let s := if x.state ≤ 3 then scrubRanges s j else s
    (0, s.modSession j (fun y => { y with
      state := 0
      ranges := Vector.replicate 4 (0, 0)
      keys := []
      handover := none
      expiry := 0
      barred := true }))

/-- KLOAD (R423). -/
def cmdKload (s : State) (j : Nat) : CmdRes :=
  let x := s.sessionAt j
  if x.state ≠ 2 then (1, s)
  else
    match trustLoad s x.sarg 136 with
    | none => (2, s)
    | some b =>
      let hdr := (b.drop 12).take 8
      let w := wordOfBytes hdr
      let h := field w 0 8
      if field w 20 44 ≠ 0 || (b.drop 100).any (fun z => z != 0) then (2, s)
      else
        match gcmOpen (sessionKey s j 3) (b.take 12) hdr ((b.drop 20).take 64) ((b.drop 84).take 16) with
        | none => (6, s)
        | some key =>
          if h = 0 || (lookupKey h s.keys).isSome then (5, s)
          else (0, { s with keys := insertKey h { sess := j, region := field w 8 12, key := key } s.keys })

/-- HPREP (R428). -/
def cmdHprep (s : State) (j : Nat) : CmdRes :=
  let x := s.sessionAt j
  if x.state ≠ 1 then (1, s)
  else
    match trustLoad s x.sarg 8 with
    | none => (2, s)
    | some b =>
      let w := wordOfBytes b
      if w = 0 || field w 8 56 ≠ 0 then (2, s)
      else
        let secret := Config.ephemeralSecret s.draws
        let pub := x25519 secret basePoint
        match trustStore { s with draws := s.draws + 1 } (x.sarg + 8) (pub ++ signed (pub ++ oneByte j)) with
        | none => (2, s)
        | some s => (0, s.modSession j (fun y => { y with handover := some secret, expiry := w.toNat }))

/-! ### The handover blob

Its contents are R428's; their layout is the model's (notes/assumptions/45.md): a header of three words, the source's
X25519 public key, the count of bytes sealed, the sealed bytes, the tag. -/

/-- The bytes of a blob that are sealed: five keys, the key slots, the ranges, SMEAS, the version table's address and entries. -/
def blobBody (s : State) (j : Nat) : List Byte :=
  let x := s.sessionAt j
  let slots := s.keys.filter (fun k => k.2.sess == j)
  let fix (n : Nat) (l : List Byte) : List Byte := (l ++ List.replicate n 0).take n
  ((List.range 5).map (fun i => fix 32 (sessionKey s j i))).flatten ++ bytesOfNat 1 slots.length ++
    (slots.map (fun k => bytesOfNat 1 k.1 ++ bytesOfNat 2 k.2.region ++ fix 64 k.2.key)).flatten ++
    (x.ranges.toList.map (fun r => wordBytes 8 r.1 ++ wordBytes 8 r.2)).flatten ++ pad64 x.smeas ++
    wordBytes 8 x.vtbase ++ pkgLoad s x.vtbase.toNat (8 * x.vtlen.toNat)

/-- The nonce of a blob, from its identifier. -/
def blobNonce (hdr : List Byte) : List Byte := (hdr.drop 16).take 8 ++ List.replicate 4 0

/-- HOFFER (R428). -/
def cmdHoffer (s : State) (j : Nat) : CmdRes :=
  let x := s.sessionAt j
  let still := (sessionSlots s j).all (fun k => (s.ctxAt k).h.run == 0 && (s.ctxAt k).core.isNone)
  if x.state ≠ 2 || !still then (1, s)
  else
    match trustLoad s x.sarg 96 with
    | none => (2, s)
    | some arg =>
      let secret := Config.ephemeralSecret s.draws
      let pub := x25519 secret basePoint
      let key := hkdf (x25519 secret (arg.take 32)) [] (ascii "handover")
      let hdr := wordBytes 8 (Config.freeWord s.fresh) ++ wordBytes 8 x.vtlen ++ wordBytes 8 (Config.freeWord (s.fresh + 1))
      let (ct, tag) := gcmSeal key (blobNonce hdr) hdr (blobBody s j)
      let blob := hdr ++ pub ++ bytesOfNat 8 ct.length ++ ct ++ tag
      match trustStore { s with draws := s.draws + 1, fresh := s.fresh + 2 } (x.sarg + 128) blob with
      | none => (2, s)
      | some s => (0, s.modSession j (fun y => { y with state := 3 }))

/-- ERASE (R428). -/
def cmdErase (s : State) (j : Nat) : CmdRes :=
  if (s.sessionAt j).state ≠ 3 then (1, s)
  else
    let s := scrubRanges (freeKeys (strandTraces s j []) j) j
    (0, s.modSession j (fun y => { y with state := 4, keys := [] }))

/-- A blob opened with a handover secret: VTLEN of its header and the sealed bytes. -/
def openBlob (s : State) (a : Word) (secret : List Byte) : Option (Word × List Byte) :=
  match trustLoad s a 64 with
  | none => none
  | some h =>
    let hdr := h.take 24
    let n := natOfBytes ((h.drop 56).take 8)
    match trustLoad s (a + 64) (n + 16) with
    | none => none
    | some b =>
      let key := hkdf (x25519 secret ((h.drop 24).take 32)) [] (ascii "handover")
      (gcmOpen key (blobNonce hdr) hdr (b.take n) (b.drop n)).map (fun body => (listWord hdr 1, body))

/-- The key slots of a blob's sealed bytes. -/
def blobSlots (b : List Byte) : List (Nat × Nat × List Byte) :=
  (List.range (natOfBytes ((b.drop 160).take 1))).map (fun i =>
    let e := b.drop (161 + 67 * i)
    (natOfBytes (e.take 1), natOfBytes ((e.drop 1).take 2), (e.drop 3).take 64))

/-- The bytes of a blob after its key slots: the ranges, SMEAS, the version table's address and entries. -/
def blobTail (b : List Byte) : List Byte := b.drop (161 + 67 * natOfBytes ((b.drop 160).take 1))

/-- The range list of a blob. -/
def blobRanges (b : List Byte) : Vector (Word × Word) 4 :=
  Vector.ofFn (fun i : Fin 4 => (listWord (blobTail b) (2 * i), listWord (blobTail b) (2 * i + 1)))

/-- A try of HACCEPT that has failed: the count steps down, and where it reaches 0 the try expires and the key goes (R429). -/
def missedTry (s : State) (j : Nat) (r : Nat) : CmdRes :=
  if (s.sessionAt j).expiry ≤ 1 then (8, s.modSession j (fun y => { y with expiry := 0, handover := none }))
  else (r, s.modSession j (fun y => { y with expiry := y.expiry - 1 }))

/-- HACCEPT (R429). -/
def cmdHaccept (s : State) (j : Nat) : CmdRes :=
  let x := s.sessionAt j
  match x.handover with
  | none => (1, s)
  | some secret =>
    if x.state ≠ 1 then (1, s)
    else
      match openBlob s x.sarg secret with
      | none => missedTry s j 6
      | some (vtlen, b) =>
        let slots := blobSlots b
        let ranges := blobRanges b
        if slots.any (fun k => k.1 == 0 || (lookupKey k.1 s.keys).isSome) ||
            ranges.toList.any (fun r => !rangeOk s j r.1.toNat r.2.toNat) then missedTry s j 7
        else
          let table := (blobTail b).drop 128
          let vtbase := listWord table 0
          let s := (List.finRange 4).foldl (fun s k => setRange s j k ranges[k].1 ranges[k].2) s
          let s := pkgStoreAll s vtbase.toNat ((table.drop 8).take (8 * vtlen.toNat))
          let s := { s with keys := slots.foldl (fun (l : List (Nat × KeySlot)) (k : Nat × Nat × List Byte) =>
            insertKey k.1 { sess := j, region := k.2.1, key := k.2.2 } l) s.keys }
          (0, s.modSession j (fun y => { y with
            state := 2
            handover := none
            expiry := 0
            vtbase := vtbase
            vtlen := vtlen
            keys := (List.range 5).map (fun i => (b.drop (32 * i)).take 32)
            smeas := ((blobTail b).drop 64).take 64 }))

/-- A command of SCMD: the result and the state, none for a number that names no command. -/
def runCmd (s : State) (j c : Nat) : Option CmdRes :=
  match c with
  | 1 => some (cmdOpen s j)
  | 2 => some (cmdReport s j)
  | 3 => some (cmdClose s j)
  | 4 => some (cmdKload s j)
  | 5 => some (cmdHprep s j)
  | 6 => some (cmdHoffer s j)
  | 7 => some (cmdErase s j)
  | 8 => some (cmdHaccept s j)
  | _ => none

/-- A store to SCMD (R419): the command runs whole within the step. -/
def scmdStore (s : State) (j c : Nat) : State :=
  match runCmd s j c with
  | none => s
  | some (r, s) => s.modSession j (fun x => { x with done := true, res := BitVec.ofNat 8 r })

/-! ### Tokens (R421) -/

/-- token(addr, value) of a session at its generation: its bytes 0 to 7 and 8 to 15 as the words TOK0 and TOK1. -/
def tokenOf (s : State) (j : Nat) (a v : Word) : Word × Word :=
  let mac := hmacSha512 (sessionKey s j 0)
    (oneByte j ++ wordBytes 8 a ++ wordBytes 8 v ++ wordBytes 8 (s.sessionAt j).sgen)
  (wordOfBytes (mac.take 8), wordOfBytes ((mac.drop 8).take 8))

/-- The measurement after an accepted staged write. -/
def nextMeas (x : Session) (a v : Word) : List Byte :=
  sha512 (pad64 x.smeas ++ wordBytes 8 a ++ wordBytes 8 v ++ wordBytes 8 x.sgen)

end Sys2Proof.Machine
end

