-- ==== Sys2Proof/Machine/Boot.lean ====
section
/-! DEFINITION. Start-up (R446, R447), recovery, and the reload of a front end (R445). -/

namespace Sys2Proof.Machine

/-- The length of a firmware image's body, from its header (R446). -/
def imageBody (img : List Byte) : Nat := natOfBytes (img.take 8)

/-- Header and body of an image, what its signature and digest cover. -/
def imageSigned (img : List Byte) : List Byte := img.take (64 + imageBody img)

/-- Is a list of bytes an image: header, body, signature? -/
def imageWhole (img : List Byte) : Bool := decide (64 ≤ img.length) && decide (img.length = 128 + imageBody img)

/-- Does an image's signature hold under Dalver's key (R446)? -/
def imageVerified (img : List Byte) : Bool :=
  ed25519Verify Config.vendorPublic (sha512 (imageSigned img)) (img.drop (64 + imageBody img))

/-- The part runs the image in its flash: FWDIGEST, RTSTAT and BOOTSTAT (R446). -/
def bootFlash (a : Arbiter) : Arbiter :=
  { a with boot := 1, reason := 0, fwdigest := sha512 (imageSigned a.flash), idReady := true }

/-- The part waits in recovery (R447). -/
def recovery (a : Arbiter) (r : BitVec 8) : Arbiter := { a with boot := 2, reason := r }

/-- The state in which a power-up begins: as after reset, with what lies outside the units: fuses, flash, host memory, the links,
and the model's own fields. Every present core is still to be zeroed by its write pass. -/
def powerUpState (s : State) : State :=
  { State.reset with
    agenda := s.agenda
    hold := s.hold
    fresh := s.fresh
    draws := s.draws
    fuses := s.fuses
    mem := s.mem.filter (fun c => inHost s c.1)
    regions := [(0, rootRegion (nclu s))]
    arb := { State.reset.arb with flash := s.arb.flash, unzeroed := (List.range 144).filter (corePresent s) }
    links16 := s.links16
    notes := s.notes }

/-- The boot ROM's check of the image in flash (R446). -/
def romCheck (a : Arbiter) : Arbiter :=
  if a.flashBad then recovery a 2
  else if imageWhole a.flash && imageVerified a.flash then bootFlash a
  else recovery a 1

/-- POWER_UP (R446): the part boots. `reason` 2 says that the flash does not read; else what stands there decides. -/
def execPowerUp (reason : BitVec 8) (s : State) : Out :=
  let s := powerUpState s
  .next { s with arb := { s.arb with flashBad := reason == 2 } }

/-- The write pass that zeroes a core of a power-up, within the budget of scrubbing (R427, R438, R439); after the last one the boot
ROM reads the flash (R446). -/
def zeroUnit (s : State) (k : Nat) : State :=
  if s.arb.unzeroed.contains k && workReady s 1 then
    let s := chargeWork s 1 scrubBytes
    let left := s.arb.unzeroed.filter (fun j => j != k)
    { s with arb := if left.isEmpty then romCheck { s.arb with unzeroed := left } else { s.arb with unzeroed := left } }
  else s

/-- A store to IMGGO (R447). -/
def imgGo (s : State) : State :=
  let a := s.arb
  let n := a.imglen.toNat
  let p := a.imgaddr.toNat
  if a.boot ≠ 2 then s
  else if n = 0 || !inHost s p || !inHost s (p + n - 1) then { s with arb := recovery a 3 }
  else
    let img := memRead s.mem p n
    if !imageWhole img then { s with arb := recovery a 3 }
    else if !imageVerified img then { s with arb := recovery a 1 }
    else { s with arb := bootFlash { a with flash := img } }

/-- A store of 1 to FERESTARTf (R445): a halted front end reloads. Whether the digest of the section copied from flash
matches is the flash's, a free value (notes/assumptions/46.md). -/
def feRestart (s : State) (f : Nat) : State :=
  if (s.feAt f).state ≠ 1 then s
  else
    let good := bit (Config.freeWord s.fresh) 0
    let s := { s with fresh := s.fresh + 1 }
    if !good then s.modFe f (fun x => { x with reason := 2 })
    else
      let s := s.modFe f (fun x => { x with state := 0 })
      ((s.feAt f).qmap.map (·.2)).foldl (fun s q =>
        (takeProgram s f q).modQueue q (fun h => { h with failed := false })) s

end Sys2Proof.Machine
end

