-- ==== Sys2Proof/Machine/Capability.lean ====
section
/-! DEFINITION. The CAP family (R78 to R84) and LDC and STC (R85). -/

namespace Sys2Proof.Machine

/-- A capability instruction's trap names its capability operand (R79 to R81). -/
def capTrap {α : Type} (cause : BitVec 16) (a : Nat) : M α := trapD cause (BitVec.ofNat 64 a) 0

/-- The operand of a derivation: a tagged sealed one traps (R79, R81). -/
def unsealed (a : CReg) : M Cap := do
  let c := readC (← getCur) a
  if c.tag && capOtype c != 0 then capTrap cCapSeal a
  return c

/-- CBOUND (R79). -/
def execCbound (x : CapArgs) (s : State) : Out :=
  scalarStep x.m (do
    let len ← consumeG x.b
    let c ← unsealed x.a
    modifyCur (fun r => writeC r x.d (boundCap c len))
    advance x.m) s

/-- The physical capability that sealing to type 0x01 makes (R80): of the queue head page at `page`, from a capability
with permissions and type already set. -/
def queueCap (c src : Cap) (page : Nat) : Cap :=
  let base := (capBounds src).1
  let cur : Word := BitVec.ofNat 64 page + (capCursor src - BitVec.ofNat 64 base)
  let b := setField (setField (setField (setField c.bits 108 6 0) 86 22 (page % 2 ^ 22)) 64 22 4096) 0 64 cur.toNat
  let r : Cap := { bits := b, tag := true }
  { r with tag := capBounds r == (page, page + 4096) }

/-- Sealing to type 0x01 (R80): where the base falls on a queue head page the result has that page's bounds; its tag is clear
where a condition fails. The other bits of a result whose base falls elsewhere are those of the source, narrowed
(notes/assumptions/73.md). -/
def sealQueue (src sealed : Cap) : M Cap := do
  let s ← get
  let (b, t) := capBounds src
  let (_, r) := translate s (ctxXer s) (b % 2 ^ 64) .none
  match r with
  | .error _ => return { sealed with tag := false }
  | .ok pa =>
    let page := alignDown pa 4096
    if (queueOfPage page).isSome then
      let q := queueCap sealed src page
      return { q with tag := q.tag && src.tag && capHas src .ctl && decide (b % 4096 + (t - b) ≤ 4096) }
    else return { sealed with tag := false }

/-- CNARROW (R80). -/
def execCnarrow (x : CapArgs) (s : State) : Out :=
  scalarStep x.m (do
    let m ← consumeG x.b
    let c ← unsealed x.a
    let narrowed := maskPerms c (m.extractLsb' 0 6)
    let ot : BitVec 8 := m.extractLsb' 8 8
    let r ← if ot = 0 then pure narrowed
      else if ot = 1 then sealQueue c (withOtype narrowed 1)
      else pure (withOtype narrowed ot)
    modifyCur (fun w => writeC w x.d r)
    advance x.m) s

/-- CADDR (R81). -/
def execCaddr (x : CapArgs) (s : State) : Out :=
  scalarStep x.m (do
    let v ← consumeG x.b
    let c ← unsealed x.a
    modifyCur (fun r => writeC r x.d (setCursor c v))
    advance x.m) s

/-- CINC (R81). -/
def execCinc (x : CincArgs) (s : State) : Out :=
  scalarStep x.m (do
    let v ← consumeG x.b
    let c ← unsealed x.a
    modifyCur (fun r => writeC r x.d (setCursor c (capCursor c + v + wordOf (immInt x.imm))))
    advance x.m) s

/-- The value that CGET reads (R82). -/
def cgetValue (k : CgetKind) (c : Cap) : Word :=
  let (b, t) := capBounds c
  match k with
  | .cursor => capCursor c
  | .base => BitVec.ofNat 64 b
  | .top => BitVec.ofNat 64 t
  | .len => BitVec.ofNat 64 (t - b)
  | .perm => (capPerms c).setWidth 64
  | .otype => (capOtype c).setWidth 64
  | .tag => if c.tag then 1 else 0
  | .exp => BitVec.ofNat 64 (capE c)

/-- CGET (R82). -/
def execCget (x : CgetArgs) (s : State) : Out :=
  scalarStep x.m (do
    modifyCur (fun c => writeG c x.d (cgetValue x.kind (readC c x.a)))
    advance x.m) s

/-- CTEST.sub's condition (R83). -/
def capSub (a b : Cap) : Bool :=
  let (ab, at_) := capBounds a
  let (bb, bt) := capBounds b
  a.tag && b.tag && capOtype a == capOtype b && (capPerms a &&& ~~~ capPerms b) == 0 && decide (bb ≤ ab) &&
    decide (at_ ≤ bt)

/-- CTEST (R83). -/
def execCtest (x : CtestArgs) (s : State) : Out :=
  scalarStep x.m (do
    let c ← getCur
    let a := readC c x.a
    let b := readC c x.b
    let r := if x.eq then a == b else capSub a b
    modifyCur (fun c => writeG c x.d (if r then 1 else 0))
    advance x.m) s

/-- CMOV (R84). -/
def execCmov (x : CmovArgs) (s : State) : Out :=
  scalarStep x.m (do
    modifyCur (fun c => writeC c x.d (readC c x.a))
    advance x.m) s

/-- The checks that LDC and STC share after CapAccess (R85): alignment, and a control address that holds no capability. -/
def capMemCheck (pa : Nat) (va : Word) (capNo : Nat) : M Unit := do
  let no : Word := BitVec.ofNat 64 capNo
  if pa % 16 ≠ 0 then trapD (if inCtl pa then cCtlAlign else cAlign) va no
  if inCtl pa && (ctlCapWord pa).isNone then trapD cCtlAccess va no

/-- A loaded capability in its register, and the load noted (R299). -/
def gotCap (d : CReg) (pa : Nat) (sc : Scope) (v : Cap) : M Unit := do
  noteSpin { pa := pa, size := 16, scope := sc, value := v.bits, tag := v.tag }
  modifyCur (fun c => writeC c d v)

/-- LDC (R85). Of a control word that both checks refuse, CTLACCESS comes before SELFAUTH (notes/assumptions/22.md). -/
def execLdc (x : LdcArgs) (s : State) : Out :=
  scalarStep x.m (do
    let c ← getCur
    let a := readC c x.a
    let off := immInt x.imm
    let va : Word := capCursor a + wordOf off
    let sc := scopeGet x.scope .core
    let pa ← orTrap (← ctlCheck a off 16 .load .read sc) x.a
    if !capHas a .lcap then trapD cCapPerm va (BitVec.ofNat 64 x.a)
    capMemCheck pa va x.a
    if inCtl pa then
      if needsSelfAuth (← get) pa then trapD cSelfAuth va (BitVec.ofNat 64 x.a)
      ctlRelease
      ctlAcquire
      let s ← get
      gotCap x.d pa sc (ctlCapRead s (.thread s.slot) pa)
    else
      match ← takeEarly x.a 0 pa 16 sc with
      | some e => gotCap x.d pa sc { bits := e.value, tag := e.tag }
      | none =>
        if mayHold (← get) then
          noteSpin { pa := pa, size := 16, scope := sc, value := 0, tag := false }
          enqueue { n := 0, kind := .loadC x.d, pa := pa, size := 16, scope := sc, hint := x.hint.toNat, code := 0 }
        else gotCap x.d pa sc (← loadCapMem pa sc x.hint.toNat)
    advance x.m) s

end Sys2Proof.Machine
end

