-- ==== Sys2Proof/Machine/Pages.lean ====
section
/-! DEFINITION. Stores to device control space: the effect of each page's words (R87, R94 to R98, R101, R275, R301, R308 to
R310, R334, R375 to R377, R380, R388, R391, R392, R407, R409, R416 to R422, R430, R435, R438, R445 to R447), locked words
(R420) and staged writes (R421). -/

namespace Sys2Proof.Machine

/-- Why a control store is turned away: BUSYIMAGE (R97, R98), or LOCKED by a session (R420). -/
inductive StoreErr where
  | busy
  | locked (session : Nat)
  deriving DecidableEq, Repr

/-- The low `n` bits of a word. -/
def lowBits (v : Word) (n : Nat) : Word := v &&& maskAt 64 0 n

/-! ### Context frames (R94 to R101, R301) -/

/-- A store to RUN (R95, R101): 3 is discarded; slot 0 never runs (R89). A halt that it asks of a running context is noted with
the storer. -/
def runStore (s : State) (w : Who) (slot : Nat) (v : Word) : State :=
  let r := field v 0 2
  let who := match w with
    | .thread me => if (s.ctxAt slot).h.run = 0 then noSlot else me
    | .host => noSlot
  if r = 3 then s
  else if r = 0 then askHalt (stopRun s slot) slot who 0
  else if slot = 0 || runBarred s (s.ctxAt slot).h.region then s
  else if r = 1 then goRun s slot 1
  else askHalt (goRun s slot 2) slot who 2

/-- A store to COMMIT with no request pending (R97): a stopped context's copies are made at once. -/
def commitStore (s : State) (slot : Nat) (v : Word) : State :=
  let s := s.modCtx slot (fun c => { c with h := { c.h with
    reqRoot := bit v 0, reqVl := bit v 1, reqAtp := bit v 2 } })
  if (s.ctxAt slot).h.run = 0 && commitPending (s.ctxAt slot) then applyCommit s slot else s

/-- A store to SSCFG of a context (R301): discarded whole where the area or the budget does not hold it. -/
def sscfgPut (s : State) (slot : Nat) (v : Word) : State :=
  let c := s.ctxAt slot
  let base := field v 0 20
  let slots := field v 20 12
  let lp := field v 32 2
  let n := slots * 2 ^ lp
  let back := budgetGive s c.h.region 3 (c.ss.slots * 2 ^ c.ss.lp)
  if 2 ^ 20 < base + 64 * n || !budgetRoom back c.h.region 3 n then s
  else (budgetTake back c.h.region 3 n).modCtx slot (fun c => { c with
    ss := { base := base, slots := slots, lp := lp, heads := Vector.replicate 8 0, counts := Vector.replicate 8 0 } })

/-- A store to a word of a frame. -/
def frameStore (s : State) (w : Who) (slot o : Nat) (v : Word) : Except StoreErr State :=
  match s.ctx? slot with
  | none => .ok s
  | some c =>
    if o = 0 then .ok (runStore s w slot v)
    else if shadowOffset o then
      if commitPending c then .error .busy
      else if o = 0x0C0 then .ok (commitStore s slot v)
      else .ok (s.setCtx slot (frameWrite c o v))
    else if busyOffset o && c.h.run != 0 then .error .busy
    else if o = 0x9F80 then .ok (sscfgPut s slot v)
    else .ok (frameStoreWord s slot c o v)

/-! ### Regions (R308 to R310, R440) -/

/-- Does a region or a descendant of it hold a context, or a record that is not IDLE (R309)? -/
def regionHolds (s : State) (r : Nat) : Bool :=
  s.ctxs.any (fun p => regionUnder s p.2.h.region r) ||
    s.recs.any (fun p => p.2.state != 0 && s.regions.any (fun q =>
      regionUnder s q.1 r && decide (q.2.pool.toNat ≤ p.1) && decide (p.1 < q.2.pool.toNat + 256 * q.2.pooln)))

/-- A store to RCTL (R309). -/
def rctlStore (s : State) (r : Nat) (v : Word) : State :=
  let x := s.regionAt r
  let parent := field v 40 12
  let valid := bit v 63
  if ((parent ≠ x.parent || (x.valid && !valid)) && regionHolds s r) || !(s.regionAt parent).valid ||
      (r ≠ 0 && regionUnder s parent r) || (r = 0 && parent ≠ 0) then s
  else s.modRegion r (fun g => { g with
    valid := valid, parent := parent, ovr := v.extractLsb' 16 10, selfauth := bit v 8, prio := field v 0 3 })

/-- A store to a word of a region control block. -/
def regionStore (s : State) (r o : Nat) (v : Word) : State :=
  if o = 0 then rctlStore s r v
  else if o = 8 then s.modRegion r (fun g => { g with faultq := v })
  else if o = 0x10 then
    s.modRegion r (fun g => { g with dqcfg := v &&& (maskAt 64 61 3 ||| maskAt 64 32 21 ||| maskAt 64 0 21) })
  else if o = 0x18 then s.modRegion r (fun g => { g with pool := v })
  else if o = 0x20 then s.modRegion r (fun g => { g with pooln := field v 0 16 })
  else if o = 0x28 then s.modRegion r (fun g => { g with slotN := field v 16 14, slot0 := field v 0 14 })
  else if o = 0x30 then s.modRegion r (fun g => { g with savebase := v })
  else if 0x40 ≤ o ∧ o < 0x70 then
    s.modRegion r (fun g => { g with limit := vset g.limit ((o - 0x40) / 8) (field v 0 32) })
  else if 0x80 ≤ o ∧ o < 0xB0 then
    s.modRegion r (fun g => { g with shares := vset g.shares ((o - 0x80) / 8) (lowBits v 8) })
  else s

/-! ### Queue head pages (R375 to R377, R380) -/

/-- Does a home number name a unit of a fixed scope (R376)? -/
def homeOk (s : State) (scope home : Nat) : Bool :=
  match scope with
  | 1 => corePresent s home
  | 2 => clusterPresent s home
  | 3 => decide (home < 4)
  | _ => true

/-- A store to QCTL (R376); it clears failed (R445). -/
def qctlStore (s : State) (q : Nat) (v : Word) : State :=
  let scope := field v 57 3
  if (s.queueAt q).mapped.isSome || field v 60 2 = 3 || 6 ≤ scope || field v 0 5 < 1 || 16 < field v 0 5 ||
      !homeOk s scope (field v 49 8) then s
  else s.modQueue q (fun h => { h with
    valid := bit v 63, kind := field v 60 2, scope := v.extractLsb' 57 3, home := v.extractLsb' 49 8, drop := bit v 48
    fe := field v 45 3, failed := false, region := field v 28 12, lg := field v 0 5 })

/-- The core of an agent, where it has one. -/
def whoCore (s : State) (w : Who) : Option Nat :=
  match w with
  | .thread slot => (s.ctxAt slot).core
  | .host => none

/-- Does an agent lie inside a queue's fixed scope (R376, R377)? -/
def insideScope (s : State) (h : Queue) (w : Who) : Bool :=
  match h.scope.toNat, whoCore s w with
  | 0, _ => true
  | 5, _ => true
  | _, none => false
  | 1, some k => k == h.home.toNat
  | 2, some k => clusterOf k == h.home.toNat
  | 3, some k => dieOf k == h.home.toNat
  | _, some _ => true

/-- The slot that a store of an agent bears: the host's are slot 0's (R89). -/
def whoSlot (w : Who) : Nat :=
  match w with
  | .thread slot => slot
  | .host => 0

/-- HEAD of a trap or service queue moved by an agent inside its scope (R377). -/
def headMove (s : State) (q : Nat) (v : Word) : State :=
  let h := s.queueAt q
  let n : BitVec 32 := v.extractLsb' 0 32
  if h.kind = 0 || decide (h.tail - h.head < n - h.head) then s else s.modQueue q (fun h => { h with head := n })

/-- A store to HEAD (R377). -/
def headStore (s : State) (w : Who) (q : Nat) (v : Word) : State :=
  let h := s.queueAt q
  if h.kind ≠ 0 && !insideScope s h w then
    s.modQueue q (fun h => { h with qerr := BitVec.ofNat 64 (1 <<< 63 ||| whoSlot w) })
  else headMove s q v

/-- A store to NOTIFY (R380). -/
def notifyStore (s : State) (q : Nat) (v : Word) : State :=
  let h := s.queueAt q
  if h.valid && h.kind == 0 then wakeQueue (s.modQueue q (fun h => { h with tail := v.extractLsb' 0 32 })) q 0 else s

/-- A store to a word of a queue head page. -/
def queueStore (s : State) (w : Who) (q o : Nat) (v : Word) : State :=
  let still := (s.queueAt q).mapped.isSome
  if o = 0 then qctlStore s q v
  else if o = 8 then (if still then s else s.modQueue q (fun h => { h with ringbase := v }))
  else if o = 0x10 then headStore s w q v
  else if o = 0x20 then notifyStore s q v
  else if o = 0x28 then s.modQueue q (fun h => { h with misscnt := v })
  else if o = 0x30 then s.modQueue q (fun h => { h with dropcnt := v })
  else if o = 0x38 then s.modQueue q (fun h => { h with pwake := v.extractLsb' 0 2 })
  else if o = 0x40 then (if still then s else s.modQueue q (fun h => { h with prog := v }))
  else if 0x50 ≤ o ∧ o < 0x90 then
    if still then s
    else
      let i := (o - 0x50) / 16
      if o / 8 % 2 = 0 then
        s.modQueue q (fun h => { h with win := vset h.win i (v &&& (maskAt 64 62 2 ||| maskAt 64 0 56)) })
      else s.modQueue q (fun h => { h with wlen := vset h.wlen i (lowBits v 17) })
  else if o = 0x90 then s.modQueue q (fun h => { h with qerr := v &&& (maskAt 64 63 1 ||| maskAt 64 0 14) })
  else s

/-! ### Translation roots and page requests (R392, R407, R409) -/

/-- The mode of HGATP that a root's guest bit asks for. -/
def hgMode (r : Root) : Nat := if bit r.rtcfg 62 then 10 else 0

/-- A store to PRQHEAD (R407): the head moves forward by no more than the records held. -/
def prqheadStore (s : State) (r : Nat) (v : Word) : State :=
  let x := s.rootAt r
  let n : BitVec 32 := v.extractLsb' 0 32
  if x.prqtail - x.prqhead < n - x.prqhead then s else s.modRoot r (fun x => { x with prqhead := n })

/-- The record that a reply posts to a waiter (R409). -/
def replyRecord (id : BitVec 32) (ok : Bool) (w : Waiter) : EvRec :=
  let keep := w.word0 &&& (maskAt 64 48 2 ||| maskAt 64 40 8)
  { w0 := keep ||| BitVec.ofNat 64 (61 <<< 58 ||| (if ok then 0 else 2) <<< 51 ||| 1 <<< 50)
    w1 := BitVec.ofNat 64 (w.cause.toNat <<< 32 ||| w.seq)
    w2 := w.va
    w3 := id.setWidth 64
    ranges := [] }

/-- A reply's record to a waiter: into its event queue, or to wait behind a full one (R409). -/
def postReply (s : State) (id : BitVec 32) (ok : Bool) (w : Waiter) : State :=
  if (s.ctx? w.slot).isNone then s
  else s.modCtx w.slot (fun c =>
    let r := replyRecord id ok w
    if c.q.late.isEmpty && decide (c.q.events.length < 64) then { c with q := { c.q with events := c.q.events ++ [r] } }
    else { c with q := { c.q with late := c.q.late ++ [r] } })

/-- A store to PRREPLY (R409). -/
def replyStore (s : State) (part : Nat) (v : Word) : State :=
  let verdict := field v 62 2
  let id : BitVec 32 := v.extractLsb' 0 32
  if (verdict ≠ 1 && verdict ≠ 2) || field v 32 30 ≠ 0 then s
  else
    match s.requests.find? (fun (x : Request) => x.part == part && x.id == id) with
    | none => s
    | some x =>
      let s := { s with requests := s.requests.filter (fun (y : Request) => !(y.part == part && y.id == id)) }
      x.waiters.foldl (fun s w => postReply s id (verdict == 1) w) s

/-- A store to a word of a translation-root page. -/
def rootStore (s : State) (r o : Nat) (v : Word) : State :=
  let x := s.rootAt r
  if o = 0 then (if field v 14 48 ≠ 0 then s else s.modRoot r (fun x => { x with rtcfg := v }))
  else if o = 8 then (if field v 60 4 ≠ 10 then s else s.modRoot r (fun x => { x with vsatp := v }))
  else if o = 0x10 then
    (if field v 60 4 ≠ hgMode x || field v 44 16 ≠ 0 || field v 0 2 ≠ 0 then s
     else s.modRoot r (fun x => { x with hgatp := v }))
  else if o = 0x18 then s.modRoot r (fun x => { x with prqbase := lowBits v 56 })
  else if o = 0x20 then
    (if field v 0 5 < 1 || 12 < field v 0 5 then s
     else s.modRoot r (fun x => { x with prqctl := v &&& (maskAt 64 63 1 ||| maskAt 64 0 5) }))
  else if o = 0x28 then prqheadStore s r v
  else if o = 0x38 then replyStore s r v
  else s

/-! ### Arbiter, budgets, front ends, engines, snapshots -/

/-- A store to a word of the arbiter's page (R435, R446, R447). -/
def arbiterStore (s : State) (o : Nat) (v : Word) : State :=
  let a := s.arb
  if o = 0 then
    let n := field v 0 13
    if n < 2400 || 4600 < n then s else { s with arb := { a with plimit := BitVec.ofNat 13 n } }
  else if o = 0x108 then { s with arb := { a with imgaddr := v } }
  else if o = 0x110 then { s with arb := { a with imglen := v } }
  else if o = 0x118 then imgGo s
  else if 0x200 ≤ o ∧ o < 0x240 then (if v = 1 then feRestart s ((o - 0x200) / 8) else s)
  else s

/-- A store to a word of a budget page (R438). -/
def budgetStore (s : State) (a o : Nat) (v : Word) : State :=
  if o = 0 then
    match s.budgets.toList[a]? with
    | some b => { s with budgets := vset s.budgets a { b with limit := v } }
    | none => s
  else s

/-- A store to a word of a front end's table page (R388). -/
def frontEndStore (s : State) (f o : Nat) (v : Word) : State :=
  if o < 0x400 then qmapStore s f (o / 8) v
  else if 0x8000 ≤ o ∧ o < 0xA000 then
    let k := (o - 0x8000) / 8
    s.modFe f (fun x => { x with pwsum := x.pwsum.filter (fun q => !(q / 64 == k && bit v (q % 64))) })
  else s

/-- Do the words of a snapshot engine's page keep R430's limits? A destination or bitmap word of 0 names none yet, and the range of
a 64 KiB page is spread over every base die (notes/assumptions/28.md). -/
def snapFits (s : State) (x : Snap) : Bool :=
  let b := x.base.toNat
  let n := x.len.toNat
  let apart (a k : Nat) : Bool := k == 0 || (!meetsOther s 16 a k && (n == 0 || !rangeMeets (a, k) (b, n)))
  let m := x.map.toNat
  let k := ceilDiv (snapPages x) 8
  b % 65536 == 0 && n % 65536 == 0 &&
    (n == 0 || (inHbm s b && inHbm s (b + n - 1)) || (inSecond b && inSecond (b + n - 1))) &&
    (x.dst == 0 || apart x.dst.toNat (65536 * snapPages x)) &&
    (m == 0 || (m % 8 == 0 && inHbm s m && inHbm s (m + k) && apart m k))

/-- A store to a word of a snapshot engine's page (R430); one that breaks the limits is discarded. -/
def snapStore (s : State) (d o : Nat) (v : Word) : State :=
  let x := s.snapAt d
  let fit (y : Snap) : State := if snapFits s y then s.modSnap d (fun _ => y) else s
  if o = 0x40 then s.modSnap d (fun x => { x with sig := v })
  else if x.cut && !x.complete then s
  else if o = 0 then s.modSnap d (fun x => { x with ctl := v &&& (maskAt 64 63 1 ||| maskAt 64 51 5) })
  else if o = 8 then fit { x with base := v }
  else if o = 0x10 then fit { x with len := v }
  else if o = 0x18 then fit { x with dst := v }
  else if o = 0x20 then fit { x with map := v }
  else if o = 0x28 then s.modSnap d (fun x => { x with tag := v })
  else s

/-- A store to ECTL (R275): granules are whole steps, so the pause is complete at once. -/
def pauseStore (s : State) (n : Nat) (b : Bool) : State := s.modEngine n (fun e => { e with pause := b })

/-! ### Completion of a store (R101, R334, R388, R421) -/

/-- Have the siblings that a HOLD stops halted (R334)? -/
def holdDone (s : State) (t : Nat) : Bool :=
  match troupe? s t with
  | none => true
  | some x => x.sibs.zipIdx.all (fun p => !x.theld.getLsbD p.2 || p.1.ended || (s.ctxAt p.1.slot).h.run == 0)

/-- Has a store made earlier to an address completed? RUN := 0 or 2 when the target has halted; a QMAP unmap when the queue is
out; TCMD's HOLD when the siblings have halted, and its CANCEL when they have ended. -/
def plainDone (s : State) (pa : Nat) (v : Word) : Bool :=
  match ctlPage pa with
  | .frame slot o => o != 0 || field v 0 1 != 0 || (s.ctxAt slot).h.run == 0
  | .frontEnd f o => !(decide (o < 0x400)) || !((s.feAt f).busy.contains (o / 8))
  | .troupe t o => o != 0x20 || (match field v 0 8 with
      | 1 => holdDone s t
      | 4 => (targetsLeft s t 64).isEmpty
      | _ => true)
  | _ => true

/-- The slots whose endings a store to a control word awaits (R334). -/
def storeAwaits (s : State) (pa : Nat) (v : Word) : List Nat :=
  match ctlPage pa with
  | .troupe t o => if o = 0x20 && field v 0 8 == 4 then targetsLeft s t 64 else []
  | _ => []

/-- The staged writes that have completed run no more (R421). -/
def settleStaging (s : State) : State :=
  if s.sessions.any (fun p => p.2.staging) then
    { s with sessions := s.sessions.map (fun p =>
        if p.2.staging && plainDone s p.2.taddr.toNat p.2.tval then (p.1, { p.2 with staging := false }) else p) }
  else s

/-- The session block that an offset of the root of trust's page names, and the offset in it (R416). -/
def blockAt (o : Nat) : Option (Nat × Nat) :=
  if 0x1000 ≤ o ∧ o < 0x2000 then some ((o - 0x1000) / 0x100, o % 0x100) else none

/-- The contexts whose halts a store to RUN or a HOLD awaits, once it has been made (R101, R334): those that it has asked to
halt and that still run. -/
def haltTargets (s : State) (pa : Nat) (v : Word) : List Nat :=
  match ctlPage pa with
  | .frame slot o =>
    if o = 0 && (s.ctxAt slot).askers.any (fun a => a.2.toNat == field v 0 2) then stillRun s [slot] else []
  | .troupe t o =>
    if o = 0x20 && field v 0 8 == 1 then
      match troupe? s t with
      | some x => stillRun s ((x.sibs.zipIdx.filter (fun p => x.theld.getLsbD p.2 && !p.1.ended)).map (·.1.slot))
      | none => []
    else []
  | _ => []

/-- Has a store made earlier completed, but for the halts that it awaits: a TGO when its inner store has (R421), a CANCEL when those
it awaits have ended, an unmap when the queue is out? -/
def storeDone (s : State) (awaits : List Nat) (pa : Nat) (v : Word) : Bool :=
  match ctlPage pa with
  | .engine 80 o => (match blockAt o with
      | some (j, b) => b != 0x48 || !(s.sessionAt j).staging
      | none => true)
  | .frame _ _ => true
  | .troupe _ _ => awaits.isEmpty
  | _ => plainDone s pa v

/-! ### Session blocks (R417, R418, R422, R424) -/

/-- Does a version table lie wholly in one range of a session (R424)? An empty one lies anywhere. -/
def vtOk (s : State) (j : Nat) (base len : Word) : Bool :=
  len == 0 || (decide (len.toNat ≤ 2 ^ 20) && inSession s j base.toNat (8 * len.toNat))

/-- A store to SSTATE (R418): the region; the first in OPEN makes the session ACTIVE. -/
def sstateStore (s : State) (j : Nat) (v : Word) : State :=
  s.modSession j (fun x => { x with
    region := field v 0 12, state := if x.state = 1 then 2 else x.state, barred := false })

/-- A store to a range word (R422): discarded where the range is not accepted, or the session holds none. -/
def rangeStore (s : State) (j i : Nat) (v : Word) : State :=
  let x := s.sessionAt j
  let k : Fin 4 := Fin.ofNat 4 (i / 2)
  let r := x.ranges[k]
  let (b, n) := if i % 2 = 0 then (v, r.2) else (r.1, v)
  if 1 ≤ x.state && x.state ≤ 3 && rangeOk s j b.toNat n.toNat then setRange s j k b n else s

/-- A store to a word of a session block, apart from SCMD and TGO. -/
def blockStore (s : State) (j b : Nat) (v : Word) : Except StoreErr State :=
  let x := s.sessionAt j
  let mod (f : Session → Session) : Except StoreErr State := .ok (s.modSession j f)
  let stage (f : Session → Session) : Except StoreErr State := if x.staging then .ok s else mod f
  if b = 0 then .ok (sstateStore s j v)
  else if b = 0x18 then mod (fun x => { x with sarg := v })
  else if b = 0x28 then stage (fun x => { x with taddr := v })
  else if b = 0x30 then stage (fun x => { x with tval := v })
  else if b = 0x38 then stage (fun x => { x with tok0 := v })
  else if b = 0x40 then stage (fun x => { x with tok1 := v })
  else if b = 0x50 then (if vtOk s j v x.vtlen then mod (fun x => { x with vtbase := v }) else .error .busy)
  else if b = 0x58 then (if vtOk s j x.vtbase v then mod (fun x => { x with vtlen := v }) else .error .busy)
  else if b = 0x60 then mod (fun x => { x with sroots := v &&& (maskAt 64 16 14 ||| maskAt 64 0 14) })
  else if 0x80 ≤ b ∧ b < 0xC0 then .ok (rangeStore s j ((b - 0x80) / 8) v)
  else .ok s

/-! ### Locked words (R420) -/

/-- Words of a queue head page that are RW, apart from NOTIFY: HEAD is for trap and service queues. -/
def queueRW (h : Queue) (o : Nat) : Bool :=
  [0, 8, 0x28, 0x30, 0x38, 0x40, 0x90].contains o || (o == 0x10 && h.kind != 0) || (decide (0x50 ≤ o) && decide (o < 0x90))

/-- Is a word of a session's own block locked (R418, R420)? The staging words, TGO and SCMD take stores of every party
(R419, R421). -/
def blockRW (b : Nat) : Bool :=
  decide (b < 0xC0) && !([0x10, 0x28, 0x30, 0x38, 0x40, 0x48].contains b)

/-- Is the word at an address a locked word of session `j` for a store of a value (R420)? -/
def lockedWord (s : State) (j : Nat) (pa : Nat) (v : Word) : Bool :=
  let x := s.sessionAt j
  let mine (r : Nat) : Bool := regionUnder s r x.region
  if x.state ≠ 1 && x.state ≠ 2 then false
  else
    match ctlPage pa with
    | .region r o =>
      (mine r && (decide (o ≤ 0x30) || (decide (0x40 ≤ o) && decide (o < 0x70)) ||
        (decide (0x80 ≤ o) && decide (o < 0xC0)))) ||
      (o == 0 && mine (field v 40 12))
    | .frame slot _ => (s.ctx? slot).isSome && mine (s.ctxAt slot).h.region
    | .root r o =>
      decide (field x.sroots 0 14 ≤ r) && decide (r < field x.sroots 0 14 + field x.sroots 16 14) && decide (o ≤ 0x28)
    | .queue q o => mine (s.queueAt q).region && queueRW (s.queueAt q) o
    | .troupe t o => o == 0x20 && (match troupe? s t with
        | some y => mine y.region
        | none => false)
    | .engine 80 o => (match blockAt o with
        | some (i, b) => i == j && blockRW b
        | none => false)
    | _ => false

/-- Is the store of 0 to a frame's RUN, which no lock holds back (R420)? -/
def isStop (pa : Nat) (v : Word) : Bool :=
  match ctlPage pa with
  | .frame _ o => o == 0 && field v 0 2 == 0
  | _ => false

/-- Is an address one of a session block's? -/
def ownBlock (pa : Nat) : Bool :=
  match ctlPage pa with
  | .engine 80 o => (blockAt o).isSome
  | _ => false

/-- The session that locks a store against an agent of a region; none of the host's (R420). The blocks of an OPEN session take
no store but through TGO (R418, notes/assumptions/40.md). -/
def lockAgainst (s : State) (region : Option Nat) (pa : Nat) (v : Word) : Option Nat :=
  if isStop pa v then none
  else
    (s.sessions.find? (fun p => lockedWord s p.1 pa v &&
      !((p.2.state == 2 || !ownBlock pa) && (match region with
        | some r => regionUnder s r p.2.region
        | none => false)))).map (·.1)

/-! ### The store -/

/-- The effect of a store to a control word past its locks, apart from SCMD and TGO. -/
def plainStore (s : State) (w : Who) (pa : Nat) (v : Word) : Except StoreErr State :=
  match ctlPage pa with
  | .arbiter o => .ok (arbiterStore s o v)
  | .budget a o => .ok (budgetStore s a o v)
  | .frontEnd f o => .ok (frontEndStore s f o v)
  | .region r o => .ok (regionStore s r o v)
  | .troupe t o => .ok (if o = 0x20 then tcmdStore s t v else s)
  | .queue q o => .ok (queueStore s w q o v)
  | .root r o => .ok (rootStore s r o v)
  | .frame slot o => frameStore s w slot o v
  | .engine n o =>
    if !enginePresent s n then .ok s
    else if n < 76 then .ok (if o = 8 then pauseStore s n (bit v 0) else s)
    else if n < 80 then .ok (snapStore s (n - 76) o v)
    else if n = 80 then (match blockAt o with
      | some (j, b) => blockStore s j b v
      | none => .ok s)
    else .ok s
  | .units _ => .ok s
  | .unassigned => .ok s

/-- The result of a TGO in SRES (R421). -/
def tgoResult (s : State) (j : Nat) (r : BitVec 8) : State := s.modSession j (fun x => { x with done := true, res := r })

/-- The inner store of a TGO (R421), as an agent of the session's region would make it: one inside every scope of its queues. -/
def innerStore (s : State) (pa : Nat) (v : Word) : Except StoreErr State :=
  match ctlPage pa with
  | .queue q 0x10 => .ok (headMove s q v)
  | _ => plainStore s .host pa v

/-- A store to TGO (R421). -/
def tgoStore (s : State) (j : Nat) : State :=
  let x := s.sessionAt j
  let pa := x.taddr.toNat
  if !inCtl pa || pa % 8 ≠ 0 || !lockedWord s j pa x.tval then tgoResult s j 4
  else if (x.tok0, x.tok1) ≠ tokenOf s j x.taddr x.tval then tgoResult s j 3
  else if (lockAgainst s (some x.region) pa x.tval).any (fun k => k != j) then tgoResult s j 5
  else
    match innerStore s pa x.tval with
    | .error _ => tgoResult s j 5
    | .ok s' =>
      tgoResult ((touch s' (lineOf pa)).modSession j (fun y => { y with
        smeas := nextMeas x x.taddr x.tval, sgen := x.sgen + 1, staging := !plainDone s' pa x.tval })) j 0

/-- Has control space, but for the arbiter's and the units page, not yet opened (R446)? -/
def notYet (s : State) (pa : Nat) : Bool :=
  !started s && (match ctlPage pa with
    | .arbiter _ => false
    | .units _ => false
    | _ => true)

/-- The effect of a store to a control word past its locks. A store to VTBASE or VTLEN that R424 does not let stand is
discarded where no TGO makes it. -/
def openStore (s : State) (w : Who) (pa : Nat) (v : Word) : Except StoreErr State :=
  match ctlPage pa with
  | .engine 80 o =>
    match blockAt o with
    | some (j, b) =>
      if b = 0x10 then .ok (scmdStore s j v.toNat)
      else if b = 0x48 then .ok (tgoStore s j)
      else .ok ((blockStore s j b v).toOption.getD s)
    | none => plainStore s w pa v
  | _ => plainStore s w pa v

/-- A store of an aligned word to control space by an agent that has passed R88 (R87, R420, R421); whoever monitors its line
wakes (R111). -/
def ctlStore (s : State) (w : Who) (pa : Nat) (v : Word) : Except StoreErr State :=
  if notYet s pa then .ok s
  else
    match lockAgainst s (regionOfWho s w) pa v with
    | some j => .error (.locked j)
    | none => (openStore s w pa v).map (fun t => touch t (lineOf pa))

end Sys2Proof.Machine
end

