-- ==== Sys2Proof/Machine/Stores.lean ====
section
/-! DEFINITION. ST and STC (R85, R161), the stores to control words that the opcode table lists as rows of their own, and the
accesses of the host and of the peer ports (R89, R137). -/

namespace Sys2Proof.Machine

/-! ### Stores of the control thread -/

/-- Does a control store name the storing context's own RUN, itself or through TGO? Such a store completes at once. -/
def ownRun (s : State) (slot pa : Nat) : Bool :=
  match ctlPage pa with
  | .frame k o => k == slot && o == 0
  | .engine 80 o => (match blockAt o with
      | some (j, b) => b == 0x48 && (match ctlPage (s.sessionAt j).taddr.toNat with
          | .frame k i => k == slot && i == 0
          | _ => false)
      | none => false)
  | _ => false

/-- The trap of a control store that is turned away (R98, R420, R434). -/
def storeTrap {α : Type} (e : StoreErr) (pa : Nat) (va : Word) (capNo : Nat) : M α :=
  match e with
  | .busy => trapD cBusyImage va (BitVec.ofNat 64 capNo)
  | .locked j => trapD cLocked (BitVec.ofNat 64 pa) (BitVec.ofNat 64 j)

/-- A store to a control word by the acting thread (R92, R128): PC stands past the instruction when the store performs; a
store that completes later holds the thread on its place until then, the halts that it awaits being noted (R101). -/
def ctlStoreM (md : Mods) (pa : Nat) (va : Word) (capNo : Nat) (v : Word) : M Unit := do
  parkIfSpec
  let s ← get
  if needsSelfAuth s pa then trapD cSelfAuth va (BitVec.ofNat 64 capNo)
  if s.cur.halting then
    if s.cur.awaitHalts.isEmpty && storeDone s s.cur.awaits pa v then
      modifyCur (fun c => { c with halting := false })
      advance md
    else pure ()
  else
    ctlRelease
    let s ← get
    let me := s.slot
    let pc := s.cur.h.pc
    match ctlStore (s.modCur (fun c => setPc c (nextPc c md))) (.thread me) pa v with
    | .error e => storeTrap e pa va capNo
    | .ok t =>
      let awaits := storeAwaits t pa v
      let halts := haltTargets t pa v
      if !ownRun s me pa && !(halts.isEmpty && storeDone t awaits pa v) && (t.ctx? me).isSome && (t.ctxAt me).h.run != 0 then
        set (t.modCtx me (fun c => { setPc c pc with halting := true, awaits := awaits, awaitHalts := halts }))
      else set t

/-- ST past its guard (R161). -/
def stBody (x : LdArgs) : M Unit := do
  let ix ← consumeG x.c
  let v ← consumeG x.d
  let c ← getCur
  let size := x.ty.width / 8
  let cap := readC c x.a
  let off := memOff ix x.imm
  let va : Word := capCursor cap + wordOf off
  let no : Word := BitVec.ofNat 64 x.a
  let pa ← orTrap (← ctlCheck cap off size .store .write) x.a
  if inCtl pa && (size != 8 || pa % 8 != 0) then trapD cCtlAlign va no
  if pa % size ≠ 0 then trapD cAlign va no
  if inCtl pa then ctlStoreM x.m pa va x.a v
  else
    issueStore v pa size (scopeGet x.scope .core) x.hint.toNat
    advance x.m

/-- ST (R161). -/
def execSt (x : LdArgs) (s : State) : Out := scalarStep x.m (stBody x) s

/-- A store of a capability to a capability word of control space, past its locks (R85, R97, R98). -/
def capFrameStore (s : State) (slot : Nat) (w : CapWord) (o : Nat) (x : Cap) : Except StoreErr State :=
  match s.ctx? slot with
  | none => .ok s
  | some c =>
    let busy := if shadowOffset o then commitPending c else busyOffset o && c.h.run != 0
    if busy then .error .busy else .ok (frameStoreCap s slot c o w x)

/-- A capability stored to a control address by an agent; whoever monitors its line wakes (R111). -/
def capCtlStore (s : State) (w : Who) (pa : Nat) (x : Cap) : Except StoreErr State :=
  if notYet s pa then .ok s
  else
    match lockAgainst s (regionOfWho s w) pa (x.bits.setWidth 64) with
    | some j => .error (.locked j)
    | none =>
      match ctlPage pa, ctlCapWord pa with
      | .frame _ _, some (slot, o, cw) => (capFrameStore s slot cw o x).map (fun t => touch t (lineOf pa))
      | _, _ => .ok s

/-- STC (R85). Of a control word that both checks refuse, CTLACCESS comes before SELFAUTH (notes/assumptions/22.md). -/
def execStc (x : LdcArgs) (s : State) : Out :=
  scalarStep x.m (do
    let c ← getCur
    let a := readC c x.a
    let v := readC c x.d
    let off := immInt x.imm
    let va : Word := capCursor a + wordOf off
    let no : Word := BitVec.ofNat 64 x.a
    let pa ← orTrap (← ctlCheck a off 16 .store .write) x.a
    if v.tag && !capHas a .scap then trapD cCapPerm va no
    capMemCheck pa va x.a
    if inCtl pa then
      parkIfSpec
      if needsSelfAuth (← get) pa then trapD cSelfAuth va no
      ctlRelease
      let s ← get
      match capCtlStore s (.thread s.slot) pa v with
      | .error e => storeTrap e pa va x.a
      | .ok t => set t
    else storeCapMem pa v (scopeGet x.scope .core) x.hint.toNat
    advance x.m) s

/-! ### Rows of control stores

The row is the store as it performs: an agent's store that is turned away changes nothing here, and its trap is the
instruction's; the host's is answered with an error completion. -/

/-- Has a control store of the host completed, the contexts of a list being those whose halts it awaits? -/
def hostDone (s : State) (pa : Nat) (v : Word) (halts : List Nat) : Bool :=
  halts.isEmpty && storeDone s (storeAwaits s pa v) pa v

/-- The host's control store that has not completed is answered once it has (R101); meanwhile the host's next control access waits
(R92). -/
def hostAnswer (s : State) : State :=
  match s.hostStore with
  | none => s
  | some (pa, v, halts) =>
    let left := stillRun s halts
    if hostDone s pa v left then { s with hostStore := none, answer := (false, 0) }
    else { s with hostStore := some (pa, v, left) }

/-- A control store of an agent, performed. The host is answered when the store completes. -/
def performStoreRow (s : State) (w : Who) (pa : Nat) (v : Word) : State :=
  match w, ctlStore s w pa v with
  | .thread _, .ok t => t
  | .thread _, .error _ => s
  | .host, .ok t =>
    if hostDone t pa v (haltTargets t pa v) then { t with answer := (false, 0) }
    else { t with hostStore := some (pa, v, haltTargets t pa v) }
  | .host, .error _ => { s with answer := (true, 0) }

/-- The address of a word of a context frame. -/
def frameWord (slot o : Nat) : Nat := framePage slot + o
/-- The address of a word of an engine control page (R86). -/
def engineWord (n o : Nat) : Nat := ctlBase + 0x1000000 + 0x10000 * n + o
/-- The address of a word of a session block (R416). -/
def sessionWord (j o : Nat) : Nat := engineWord 80 (0x1000 + 0x100 * j + o)
/-- The address of a word of a translation-root page (R392). -/
def rootWord (r o : Nat) : Nat := ctlBase + 0x100000000 + 0x1000 * r + o
/-- The address of a word of a front end's table page (R388). -/
def frontEndWord (f o : Nat) : Nat := ctlBase + 0x100000 + 0x10000 * f + o
/-- The address of a word of the arbiter's page (R435). -/
def arbiterWord (o : Nat) : Nat := ctlBase + 0x1000 + o

/-- RUN_STOP (R101). -/
def execRunStop (x : CmdArgs) (s : State) : Out := .next (performStoreRow s x.by_ (frameWord x.num 0) 0)
/-- RUN_RUN (R101). -/
def execRunRun (x : CmdArgs) (s : State) : Out := .next (performStoreRow s x.by_ (frameWord x.num 0) 1)
/-- RUN_STEP (R101). -/
def execRunStep (x : CmdArgs) (s : State) : Out := .next (performStoreRow s x.by_ (frameWord x.num 0) 2)
/-- COMMIT_ROOTCAP (R97). -/
def execCommitRootcap (x : CmdArgs) (s : State) : Out := .next (performStoreRow s x.by_ (frameWord x.num 0xC0) 1)
/-- COMMIT_VLCAP (R97). -/
def execCommitVlcap (x : CmdArgs) (s : State) : Out := .next (performStoreRow s x.by_ (frameWord x.num 0xC0) 2)
/-- COMMIT_ATP (R97, R410). -/
def execCommitAtp (x : CmdArgs) (s : State) : Out := .next (performStoreRow s x.by_ (frameWord x.num 0xC0) 4)

/-- CONTROL_STORE (R92): a store to an aligned control word; its number is the physical address. -/
def execControlStore (x : StoreArgs) (s : State) : Out :=
  .next (if inCtl x.num && x.num % 8 == 0 then performStoreRow s x.by_ x.num x.value else s)
/-- SSCFG_STORE (R301). -/
def execSscfgStore (x : StoreArgs) (s : State) : Out :=
  .next (performStoreRow s x.by_ (frameWord x.num 0x9F80) x.value)
/-- ENGINE_PAUSE (R275). -/
def execEnginePause (x : CmdArgs) (s : State) : Out := .next (performStoreRow s x.by_ (engineWord x.num 8) 1)
/-- ENGINE_UNPAUSE (R275). -/
def execEngineUnpause (x : CmdArgs) (s : State) : Out := .next (performStoreRow s x.by_ (engineWord x.num 8) 0)
/-- NOTIFY (R380). -/
def execNotify (x : StoreArgs) (s : State) : Out := .next (performStoreRow s x.by_ (queuePage x.num + 0x20) x.value)
/-- HEAD (R377). -/
def execHead (x : StoreArgs) (s : State) : Out := .next (performStoreRow s x.by_ (queuePage x.num + 0x10) x.value)
/-- PRQHEAD (R407). -/
def execPrqhead (x : StoreArgs) (s : State) : Out := .next (performStoreRow s x.by_ (rootWord x.num 0x28) x.value)
/-- PRREPLY (R409). -/
def execPrreply (x : StoreArgs) (s : State) : Out := .next (performStoreRow s x.by_ (rootWord x.num 0x38) x.value)
/-- MAP (R388). -/
def execMap (x : MapArgs) (s : State) : Out :=
  .next (performStoreRow s x.by_ (frontEndWord x.fe (8 * x.slot)) (BitVec.ofNat 64 (1 <<< 63 ||| x.queue)))
/-- UNMAP (R388). -/
def execUnmap (x : MapArgs) (s : State) : Out :=
  .next (performStoreRow s x.by_ (frontEndWord x.fe (8 * x.slot)) (BitVec.ofNat 64 x.queue))
/-- HOLD (R334). -/
def execHold (x : CmdArgs) (s : State) : Out := .next (performStoreRow s x.by_ (troupePage x.num + 0x20) 1)
/-- RESUME (R334). -/
def execResume (x : CmdArgs) (s : State) : Out := .next (performStoreRow s x.by_ (troupePage x.num + 0x20) 2)
/-- RELEASE (R334). -/
def execRelease (x : CmdArgs) (s : State) : Out := .next (performStoreRow s x.by_ (troupePage x.num + 0x20) 3)
/-- CANCEL (R334). -/
def execCancel (x : CmdArgs) (s : State) : Out := .next (performStoreRow s x.by_ (troupePage x.num + 0x20) 4)
/-- OPEN (R419). -/
def execOpenSession (x : CmdArgs) (s : State) : Out := .next (performStoreRow s x.by_ (sessionWord x.num 0x10) 1)
/-- REPORT (R419). -/
def execReport (x : CmdArgs) (s : State) : Out := .next (performStoreRow s x.by_ (sessionWord x.num 0x10) 2)
/-- CLOSE (R419). -/
def execClose (x : CmdArgs) (s : State) : Out := .next (performStoreRow s x.by_ (sessionWord x.num 0x10) 3)
/-- KLOAD (R423). -/
def execKload (x : CmdArgs) (s : State) : Out := .next (performStoreRow s x.by_ (sessionWord x.num 0x10) 4)
/-- HPREP (R428). -/
def execHprep (x : CmdArgs) (s : State) : Out := .next (performStoreRow s x.by_ (sessionWord x.num 0x10) 5)
/-- HOFFER (R428). -/
def execHoffer (x : CmdArgs) (s : State) : Out := .next (performStoreRow s x.by_ (sessionWord x.num 0x10) 6)
/-- ERASE (R428). -/
def execErase (x : CmdArgs) (s : State) : Out := .next (performStoreRow s x.by_ (sessionWord x.num 0x10) 7)
/-- HACCEPT (R429). -/
def execHaccept (x : CmdArgs) (s : State) : Out := .next (performStoreRow s x.by_ (sessionWord x.num 0x10) 8)
/-- TGO (R421). -/
def execTgo (x : CmdArgs) (s : State) : Out := .next (performStoreRow s x.by_ (sessionWord x.num 0x48) 0)
/-- FERESTART (R445). -/
def execFerestart (x : CmdArgs) (s : State) : Out := .next (performStoreRow s x.by_ (arbiterWord (0x200 + 8 * x.num)) 1)
/-- IMGGO (R447). -/
def execImggo (x : CmdArgs) (s : State) : Out := .next (performStoreRow s x.by_ (arbiterWord 0x118) 0)

/-! ### The host and the peer ports (R89, R137) -/

/-- The agent of host accesses: a thread of slot 0 (R89). -/
def hostXer (s : State) : Xer := { agent := 512, slot := 0, core := 0, atp := (s.ctxAt 0).h.atp }

/-- Does a host access to a control address pass R88: slot 0's translation leads it to itself, and slot 0's ROOTCAP covers
it with ctl? -/
def hostMay (s : State) (pa : Nat) (write : Bool) : Bool :=
  let c := (s.ctxAt 0).h.rootcap
  let (b, t) := capBounds c
  c.tag && capOtype c == 0 && capHas c (if write then .store else .load) && capHas c .ctl &&
    decide (b ≤ pa) && decide (pa + 8 ≤ t) &&
    (match (translate s (hostXer s) pa (if write then .write else .read)).2 with
      | .ok q => q == pa
      | .error _ => false)

/-- May the host or a peer port reach `n` bytes of the part's memory (R390, R422, R443)? A write of a whole line clears
its poison. -/
def linkReach (s : State) (pa n : Nat) (write : Bool) : Bool :=
  let s := if write && pa % 64 == 0 && n == 64 then { s with poison := eraseNat (lineOf pa) s.poison } else s
  busReach s pa n

/-- Does the host reach a word of slot 0's frame that the root region's self-authority grant must open (R89, R90)? -/
def hostSelf (s : State) (pa : Nat) : Bool :=
  match ctlPage pa with
  | .frame 0 o => selfAuthOffset o && !(s.regionAt (s.ctxAt 0).h.region).selfauth
  | _ => false

/-- A host access to control space; one that comes while a control store of the host has not completed waits (R92). -/
def hostControl (s : State) (x : BusArgs) : State :=
  if s.hostStore.isSome then s
  else if x.size ≠ 8 || x.addr % 8 ≠ 0 || !hostMay s x.addr x.write || hostSelf s x.addr then { s with answer := (true, 0) }
  else if x.write then performStoreRow s .host x.addr x.value
  else { s with answer := (false, ctlRead s .host x.addr) }

/-- A read or write of the part's memory over a link, performed at .sys (R137); a page that migrates stalls it (R135). -/
def linkMemory (s : State) (x : BusArgs) (host : Bool) : State :=
  let reply (s : State) (a : Bool × Word) : State := if host then { s with answer := a } else s
  if x.size = 0 || 8 < x.size || !linkReach s x.addr x.size x.write then reply s (true, 0)
  else if migrating s x.addr || migrating s (x.addr + x.size - 1) then s
  else if x.write then reply (pkgStoreAll s x.addr (wordBytes x.size x.value)) (false, 0)
  else reply s (false, wordOfBytes (((pieces x.addr x.size 2).map (fun p => pkgLoad s p.1 p.2)).flatten))

/-- HOST_ACCESS (R89, R137). -/
def execHostAccess (x : BusArgs) (s : State) : Out :=
  .next (if inCtl x.addr then hostControl s x else linkMemory s x true)

/-- PEER_PORT_ACCESS (R137): a present port with a link. -/
def execPeerPortAccess (x : BusArgs) (s : State) : Out :=
  .next (if bit s.fuses.ports x.port && bit s.links16 x.port && !inCtl x.addr then linkMemory s x false else s)

end Sys2Proof.Machine
end

