-- ==== Sys2Proof/Machine/Lysyo.lean ====
section
/-! DEFINITION. The calliope: the instructions of Lysyo (R385, R386), and a packet's stages in its front end: arbitration
(R381), holds and launch (R382), completion (R384). -/

namespace Sys2Proof.Machine

/-! ### Ends of a packet's stages -/

/-- The packet under way of a queue completes with a status, to be written under R384. -/
def endPacket (s : State) (q status : Nat) : State :=
  modUnderway s q (fun k => { k with stage := .completed, status := status })

/-- The packet under way of a queue. -/
def pktUnderway (s : State) (q : Nat) : Option Pkt := (underway (s.queueAt q)).head?

/-- The frequency class of a header, 5 to 7 as 1 (R436). -/
def classOf (hdr : Word) : Nat := if 4 < field hdr 49 3 then 1 else field hdr 49 3

/-- Packets that a front end holds, with their classes. -/
def heldClasses (s : State) (f : Nat) : List Nat :=
  ((s.feAt f).qmap.map (fun p => (underway (s.queueAt p.2)).filterMap (fun k => match k.stage with
    | .held _ => some (classOf (pktWord k.copy 0))
    | _ => none))).flatten

/-- Stage 3 (R382): the class is asked of the arbiter, and the packet is held unless eight are, or its queue's unmap has
begun. -/
def toHold (s : State) (f q : Nat) : State :=
  match pktUnderway s q with
  | none => s
  | some k =>
    let c := classOf (pktWord k.copy 0)
    if c = 0 then modUnderway s q (fun k => { k with stage := .launch })
    else
      let t := (s.feAt f).time
      let stay := decide ((heldClasses s f).length < 8) && (liveSlot s (s.queueAt q)).isSome
      let s := s.modFe f (fun x => { x with reqs := insertKey c 64 x.reqs })
      modUnderway s q (fun k => { k with stage := if stay then .held t else .launch })

/-- The run of a front end's calliope ends. -/
def endRun (s : State) (f : Nat) : State := s.modFe f (fun x => { x with run := none })

/-- A run ends and its packet completes with a status (R382). -/
def runEnds (s : State) (f q status : Nat) : State := settleUnmaps (endPacket (endRun s f) q status) f

/-! ### Running an instruction (R386) -/

/-- What a Lysyo instruction does: it goes on with its run, it faults, or it stops with a verdict. -/
inductive LyOut where
  | goes (s : State) (r : LyRun)
  | fault
  | verdict (v : Nat)

/-- A register; l0 reads as zero. -/
def lget (r : LyRun) (k : LReg) : Word := if k = 0 then 0 else r.regs[k]
/-- A register written; l0 discards. -/
def lset (r : LyRun) (k : LReg) (v : Word) : LyRun := if k = 0 then r else { r with regs := r.regs.set k v }

/-- The open loops and the next index once the instruction at `i` has completed, with `n` the index after it: a body that
ends there runs again, or its loop closes, and the body around it may end with it. -/
def unwind : List (Nat × Nat × Nat) → Nat → Nat → List (Nat × Nat × Nat) × Nat
  | [], _, n => ([], n)
  | (st, en, left) :: rest, i, n =>
    if i ≠ en then ((st, en, left) :: rest, n)
    else if 1 < left then ((st, en, left - 1) :: rest, st)
    else
      match rest with
      | (_, en', _) :: _ => unwind rest (if en' = i then i else st - 1) n
      | [] => ([], n)

/-- The run past its instruction. -/
def lyPast (r : LyRun) : LyRun :=
  let (l, n) := unwind r.loops r.index (r.index + 1)
  { r with loops := l, index := n }

/-- One step of the acting front end's calliope (R386): the 513th has no effect. -/
def lyStep (m : State → LyRun → LyOut) (s : State) : Out :=
  let f := s.fe
  match (s.feAt f).run with
  | none => .next s
  | some r =>
    if 512 ≤ r.steps then .next (runEnds s f r.queue 2)
    else
      match m s { r with steps := r.steps + 1 } with
      | .goes s r => .next (s.modFe f (fun x => { x with run := some r }))
      | .fault => .next (runEnds s f r.queue 7)
      | .verdict 0 => .next (settleUnmaps (toHold (endRun s f) f r.queue) f)
      | .verdict 1 => .next (runEnds s f r.queue 0)
      | .verdict _ => .next (runEnds s f r.queue 6)

/-- An instruction that writes a register. -/
def lyWrite (rd : LReg) (f : State → LyRun → Word) (s : State) : Out :=
  lyStep (fun s r => .goes s (lyPast (lset r rd (f s r)))) s

/-- An instruction of the R form. -/
def lyAlu (x : LyRArgs) (f : Word → Word → Word) (s : State) : Out :=
  lyWrite x.rd (fun _ r => f (lget r x.ra) (lget r x.rb)) s

/-- A 16-bit immediate, sign-extended. -/
def lyImm (x : LyIArgs) : Word := x.imm.signExtend 64

/-- END v. -/
def execLysyoEnd (x : LyIArgs) (s : State) : Out := lyStep (fun _ _ => .verdict x.imm.toNat) s
/-- LI. -/
def execLysyoLi (x : LyIArgs) (s : State) : Out := lyWrite x.rd (fun _ _ => lyImm x) s
/-- LIH. -/
def execLysyoLih (x : LyIArgs) (s : State) : Out :=
  lyWrite x.rd (fun _ r => lget r x.rd * 0x10000 + x.imm.setWidth 64) s
/-- ADDI. -/
def execLysyoAddi (x : LyIArgs) (s : State) : Out := lyWrite x.rd (fun _ r => lget r x.ra + lyImm x) s
/-- ADD. -/
def execLysyoAdd (x : LyRArgs) (s : State) : Out := lyAlu x (· + ·) s
/-- SUB. -/
def execLysyoSub (x : LyRArgs) (s : State) : Out := lyAlu x (· - ·) s
/-- AND. -/
def execLysyoAnd (x : LyRArgs) (s : State) : Out := lyAlu x (· &&& ·) s
/-- OR. -/
def execLysyoOr (x : LyRArgs) (s : State) : Out := lyAlu x (· ||| ·) s
/-- XOR. -/
def execLysyoXor (x : LyRArgs) (s : State) : Out := lyAlu x (· ^^^ ·) s
/-- SHL. -/
def execLysyoShl (x : LyRArgs) (s : State) : Out := lyAlu x (fun a b => a <<< (b.toNat % 64)) s
/-- SHR. -/
def execLysyoShr (x : LyRArgs) (s : State) : Out := lyAlu x (fun a b => a >>> (b.toNat % 64)) s
/-- MINU. -/
def execLysyoMinu (x : LyRArgs) (s : State) : Out := lyAlu x (fun a b => if b < a then b else a) s
/-- MAXU. -/
def execLysyoMaxu (x : LyRArgs) (s : State) : Out := lyAlu x (fun a b => if a < b then b else a) s

/-- The calliope's copy of the packet that a run serves. -/
def lyPacket (s : State) (r : LyRun) : Vector Word 8 :=
  match pktUnderway s r.queue with
  | some k => k.copy
  | none => Vector.replicate 8 0

/-- LDPK. -/
def execLdpk (x : LyIArgs) (s : State) : Out :=
  lyStep (fun s r =>
    let o := (lget r x.ra + lyImm x).toNat
    if 64 ≤ o || o % 8 ≠ 0 then .fault else .goes s (lyPast (lset r x.rd (pktWord (lyPacket s r) (o / 8))))) s

/-- STPK: the calliope's copy changes, not the slot. -/
def execStpk (x : LyIArgs) (s : State) : Out :=
  lyStep (fun s r =>
    let o := (lget r x.ra + lyImm x).toNat
    if o < 16 || 64 ≤ o || o % 8 ≠ 0 then .fault
    else .goes (modUnderway s r.queue (fun k => { k with copy := vset k.copy (o / 8) (lget r x.rd) })) (lyPast r)) s

/-- LDRG. -/
def execLdrg (x : LyIArgs) (s : State) : Out :=
  lyStep (fun s r =>
    let h := s.queueAt r.queue
    let o := (lget r x.ra + lyImm x).toNat
    let a := h.ringbase.toNat + o
    if 64 * 2 ^ h.lg ≤ o || o % 8 ≠ 0 || !busReach s a 8 then .fault
    else .goes s (lyPast (lset r x.rd (pkgWord s a)))) s

/-- The address of a window access, none for an offset that breaks its row or an access that faults. -/
def windowAddr (s : State) (r : LyRun) (x : LyIArgs) : Option Nat :=
  let h := s.queueAt r.queue
  let w := field x.imm 14 2
  let o := (lget r x.ra + BitVec.ofNat 64 (field x.imm 0 14)).toNat
  let a := field (h.win.toList.getD w 0) 0 56 + o
  if (h.wlen.toList.getD w 0).toNat < o + 8 || o % 8 ≠ 0 || a % 8 ≠ 0 || !busReach s a 8 then none else some a

/-- LDWN. -/
def execLdwn (x : LyIArgs) (s : State) : Out :=
  lyStep (fun s r => match windowAddr s r x with
    | some a => .goes s (lyPast (lset r x.rd (pkgWord s a)))
    | none => .fault) s

/-- STWN. -/
def execStwn (x : LyIArgs) (s : State) : Out :=
  lyStep (fun s r => match windowAddr s r x with
    | some a => .goes (pkgPut s a (lget r x.rd)) (lyPast r)
    | none => .fault) s

/-- A branch: to the current index and imm where the comparison holds. -/
def lyBranch (x : LyIArgs) (p : Word → Word → Bool) (s : State) : Out :=
  lyStep (fun s r =>
    if p (lget r x.rd) (lget r x.ra) then .goes s { r with index := r.index + x.imm.toNat } else .goes s (lyPast r)) s

/-- BEQ. -/
def execBeq (x : LyIArgs) (s : State) : Out := lyBranch x (fun a b => a == b) s
/-- BNE. -/
def execBne (x : LyIArgs) (s : State) : Out := lyBranch x (fun a b => a != b) s
/-- BLTU. -/
def execBltu (x : LyIArgs) (s : State) : Out := lyBranch x (fun a b => decide (a < b)) s

/-- LOOP: its body opens. -/
def execLysyoLoop (x : LyIArgs) (s : State) : Out :=
  lyStep (fun s r =>
    let b := (r.index + 1, r.index + field x.imm 0 8, field x.imm 8 8)
    .goes s { r with loops := b :: r.loops, index := r.index + 1 }) s

/-- TIME. -/
def execTime (x : LyIArgs) (s : State) : Out := lyWrite x.rd (fun s _ => (s.feAt s.fe).time.setWidth 64) s

/-- QINFO. -/
def execQinfo (x : LyIArgs) (s : State) : Out :=
  lyWrite x.rd (fun s r =>
    let h := s.queueAt r.queue
    match x.imm.toNat with
    | 0 => h.head.setWidth 64
    | 1 => (match pktUnderway s r.queue with
      | some k => k.index.setWidth 64
      | none => 0)
    | 2 => h.inflight.setWidth 64
    | _ => h.misscnt) s

/-! ### Arbitration (R381) -/

/-- The deadline of a header; all ones: none. -/
def deadlineOf (hdr : Word) : BitVec 48 := hdr.extractLsb' 0 48
/-- Has a header a deadline? -/
def hasDeadline (hdr : Word) : Bool := deadlineOf hdr != BitVec.allOnes 48
/-- Is a deadline late at a time (R374)? -/
def isLate (hdr : Word) (t : BitVec 48) : Bool := hasDeadline hdr && decide ((deadlineOf hdr - t).toInt < 0)
/-- The type of a packet. -/
def pktType (hdr : Word) : Nat := field hdr 58 4

/-- Does a copy of a packet meet R378? -/
def packetOk (s : State) (v : Vector Word 8) : Bool :=
  let h := pktWord v 0
  let code (lo : Nat) : Bool := decide (field h lo 3 ≤ 5)
  let sig (i : Nat) : Bool := pktWord v i == 0 || signalOk s (pktWord v i)
  decide (pktType h ≤ 5) && !bit h 48 && code 55 && code 52 && sig 2 && sig 3

/-- Has every packet taken from a queue completed (R378)? -/
def allCompleted (h : Queue) : Bool := h.inflight == 0 && h.taken.all (fun k => k.stage == .done)

/-- Is the oldest packet of a queue a candidate of its front end? A barrier waits for every earlier packet. -/
def candidate (s : State) (h : Queue) : Option (BitVec 32 × Vector Word 8) :=
  match h.read.head? with
  | none => none
  | some p =>
    let w := pktWord p.2 0
    let bar := bit w 62 || pktType w == 4
    let sig := pktWord p.2 3
    if (liveSlot s h).isNone || h.failed || !(underway h).isEmpty || (bar && !allCompleted h) ||
        (sig != 0 && signalOk s sig && !h.waitZero) then none
    else some p

/-- Does a candidate rank before another: deadline, then slot number? -/
def ranksBefore (t : BitVec 48) (a b : Nat × Word) : Bool :=
  let key (w : Word) : Int := (deadlineOf w - t).toInt
  if hasDeadline a.2 && hasDeadline b.2 then
    decide (key a.2 < key b.2) || (key a.2 == key b.2 && decide (a.1 ≤ b.1))
  else if hasDeadline a.2 then true
  else if hasDeadline b.2 then false
  else decide (a.1 ≤ b.1)

/-- The queue that a front end selects, with the packet. -/
def selected (s : State) (f : Nat) : Option (Nat × BitVec 32 × Vector Word 8) :=
  let x := s.feAt f
  let cs := x.qmap.filterMap (fun p => (candidate s (s.queueAt p.2)).map (fun v => (p.1, p.2, v)))
  (sortBy (fun (a b : Nat × Nat × BitVec 32 × Vector Word 8) =>
    ranksBefore x.time (a.1, pktWord a.2.2.2 0) (b.1, pktWord b.2.2.2 0)) cs).head?.map (fun c => c.2)

/-- The packet taken out of its ring: the next one is the oldest untaken. -/
def takePacket (s : State) (q : Nat) (i : BitVec 32) (v : Vector Word 8) : State :=
  readSignal (s.modQueue q (fun h => { h with
    read := h.read.drop 1
    next := i + 1
    waitZero := false
    taken := h.taken ++ [{ index := i, copy := v, stage := .lysyo, status := 0, launched := false }] })) q

/-- Stages 1 and 2 (R382) of the packet under way of a queue. -/
def firstStages (s : State) (f q : Nat) (i : BitVec 32) (v : Vector Word 8) : State :=
  let h := s.queueAt q
  if !packetOk s v then endPacket s q 3
  else if field h.pstat 62 2 = 2 then endPacket s q 8
  else if h.prog = 0 then toHold s f q
  else s.modFe f (fun x => { x with run := some {
    queue := q, regs := (Vector.replicate 16 (0 : Word)).set 1 (i.setWidth 64), index := 0, steps := 0, loops := [] } })

/-- Is a front end free for an arbitration step: running, no program runs, no packet waits for its launch step? -/
def feFree (s : State) (f : Nat) : Bool :=
  let x := s.feAt f
  x.state == 0 && x.run.isNone && x.qmap.all (fun p => (underway (s.queueAt p.2)).all (fun k => match k.stage with
    | .held _ => true
    | _ => false))

/-- ARBITRATION_STEP (R381). -/
def execArbitrationStep (fe : Nat) (s : State) : Out :=
  if 8 ≤ fe || !feFree s fe then .next s
  else
    match selected s fe with
    | none => .next s
    | some (q, i, v) => .next (firstStages (takePacket s q i v) fe q i v)

/-! ### Holds (R382, R436) -/

/-- The packet that front end `f` holds for queue `q`, with the time of its request. -/
def heldPacket (s : State) (f q : Nat) : Option (Pkt × BitVec 48) :=
  match (s.queueAt q).mapped, pktUnderway s q with
  | some (g, _), some k => (match k.stage with
    | .held t => if g = f then some (k, t) else none
    | _ => none)
  | _, _ => none

/-- A hold ends: the launch step follows. -/
def leaveHold (s : State) (q : Nat) : State := modUnderway s q (fun k => { k with stage := .launch })

/-- HOLD_RELEASE (R436): the point's clock is at least the class's. -/
def execHoldRelease (fe queue : Nat) (s : State) : Out :=
  match heldPacket s fe queue with
  | some (k, _) => .next (if s.arb.point ≤ classOf (pktWord k.copy 0) then leaveHold s queue else s)
  | none => .next s

/-- HOLD_TIMEOUT (R382): 40,000 clocks of FETIME since the request. -/
def execHoldTimeout (fe queue : Nat) (s : State) : Out :=
  match heldPacket s fe queue with
  | some (_, t) => .next (if 40000 ≤ ((s.feAt fe).time - t).toNat then leaveHold s queue else s)
  | none => .next s

/-! ### The launch step (R382, R426) -/

/-- The packet under way changed to launched; `n` steps INFLIGHT. -/
def launched (s : State) (q : Nat) (n : Bool) : State :=
  (modUnderway s q (fun k => { k with stage := .launched, launched := n })).modQueue q
    (fun h => if n then { h with inflight := h.inflight + 1 } else h)

/-- DISPATCH: the record patched and placed. -/
def dispatchPacket (s : State) (q : Nat) (k : Pkt) : State :=
  let r := (s.queueAt q).region
  let i := field (pktWord k.copy 1) 0 16
  let pa := recordAt s r i
  if !(s.regionAt r).valid || (s.regionAt r).pooln ≤ i then endPacket s q 4
  else if (s.recAt pa).state ≠ 0 || (s.recAt pa).inq then endPacket s q 5
  else
    let s := (List.range 4).foldl (fun s j => patchRecord s pa j (pktWord k.copy (4 + j))) s
    let (st, s) := placeRecord s r i (some (q, k.index.toNat))
    if st = stOk then launched s q true
    else endPacket s q (if st = stLimit then 9 else 4)

/-- A sealing packet: a command of a seal engine (R425, R426). The size of its page, which the packet does not give, is a
free value (notes/assumptions/47.md). -/
def sealPacket (s : State) (q : Nat) (k : Pkt) (op : Nat) : State :=
  let src := pktWord k.copy 4
  let dst := pktWord k.copy 5
  let d := homeDie s 0 (if op = 8 then src.toNat else dst.toNat)
  let len := if bit (Config.freeWord s.fresh) 0 then 65536 else 4096
  let w : Word := BitVec.ofNat 64 ((8 + d) <<< 58 ||| op <<< 54 ||| field (pktWord k.copy 6) 0 8 <<< 40 ||| len)
  let at_ (a : Word) : Cap := { fullCap with bits := setField fullCap.bits 0 64 a.toNat }
  let c : Cmd := {
    word := w, src := at_ src, dst := at_ dst, idx := Cap.zero, stride := sint (pktWord k.copy 7), seq := 0, slot := noSlot
    region := (s.queueAt q).region, core := 36 * d, party := .control, atp := 0, stamp := 0, spad := [], spadAll := false
    started := false, pos := 0, done := 0, mask := [], fault := none, status := none, paused := false, ranges := []
    buf := [], ver := 0, stalls := [], miss := none, packet := some (q, k.index.toNat), owes := none }
  let s := { s with fresh := s.fresh + 1 }
  launched (s.modEngine (80 + d) (fun e => { e with cmds := e.cmds ++ [c] })) q false

/-- A cut by every armed engine of a mask whose previous copy has completed; was every engine of it so (R431)? -/
def cutMask (s : State) (mask : Nat) : State × Bool :=
  let ds := (List.range 4).filter (fun d => mask.testBit d)
  ((ds.filter (fun d => !cutBad s d)).foldl takeCut s, ds.all (fun d => !cutBad s d))

/-- An SCMD packet: a store of SARG and then of SCMD (R426). -/
def scmdPacket (s : State) (q : Nat) (k : Pkt) : State :=
  let j := (pktWord k.copy 4).toNat
  let locked := (lockAgainst s (some (s.queueAt q).region) (sessionWord j 0x18) 0).isSome
  if 16 ≤ j || locked then endPacket s q 3
  else endPacket (scmdStore (s.modSession j (fun x => { x with sarg := pktWord k.copy 6 })) j (pktWord k.copy 5).toNat) q 0

/-- The launch step of a packet (R382): the checks again, the deadline, then what its type asks. -/
def launchPacket (s : State) (f q : Nat) (k : Pkt) : State :=
  let hdr := pktWord k.copy 0
  let late := isLate hdr (s.feAt f).time
  if !packetOk s k.copy then endPacket s q 3
  else if late && (s.queueAt q).drop then endPacket s q 1
  else
    let s := if late then s.modQueue q (fun h => { h with misscnt := h.misscnt + 1 }) else s
    match pktType hdr with
    | 0 => endPacket s q 0
    | 1 => dispatchPacket s q k
    | 2 => sealPacket s q k 8
    | 3 => sealPacket s q k 9
    | 4 =>
      let (s, ok) := cutMask s (field (pktWord k.copy 4) 0 4)
      endPacket s q (if ok then 0 else 3)
    | _ => scmdPacket s q k

/-- LAUNCH_STEP (R382). -/
def execLaunchStep (fe queue : Nat) (s : State) : Out :=
  match (s.queueAt queue).mapped, pktUnderway s queue with
  | some (g, _), some k =>
    if g ≠ fe || k.stage != .launch then .next s
    else .next (settleUnmaps (launchPacket s fe queue k) fe)
  | _, _ => .next s

/-- SNAPCUT (R431): the cut of the armed engines of a mask. -/
def execSnapcut (mask : BitVec 4) (s : State) : Out := .next (cutMask s mask.toNat).1

/-! ### Completion (R384) -/

/-- A signal stepped for a status (R379). -/
def stepSignal (w : Word) (status : Nat) : Word :=
  let w := setField w 0 48 (field w 0 48 + 2 ^ 48 - 1)
  let w := if status = 1 then setField w 63 1 1 else w
  if status = 0 then w else setField w 56 7 status

/-- The HEAD of a queue past every completed slot at the front of a list of packets taken. -/
def headPast : List Pkt → BitVec 32 → BitVec 32
  | [], h => h
  | k :: rest, h =>
    if k.index ≠ h then headPast rest h
    else match k.stage with
      | .counted | .done => headPast rest (h + 1)
      | _ => h

/-- The packet of a ring index moved to another stage of its completion. -/
def atStage (h : Queue) (i : BitVec 32) (st : PktStage) : Queue :=
  { h with taken := h.taken.map (fun p => if p.index = i then { p with stage := st } else p) }

/-- The packets whose completion is over and that lie behind HEAD are forgotten. -/
def forgetDone (h : Queue) : Queue :=
  { h with taken := h.taken.filter (fun k => !(k.stage == .done && decide ((h.head - k.index - 1).toNat < 2 ^ 31))) }

/-- Step 2 of a completion (R384): the header with valid 0 and the status byte. -/
def completionStatus (s : State) (q : Nat) (k : Pkt) : State :=
  let a := slotAddr (s.queueAt q) k.index
  let s := if busReach s a 64 then
      pkgStore (pkgPut s a (setField (pktWord k.copy 0) 63 1 0)) (a + 15) [BitVec.ofNat 8 k.status] 0
    else s
  s.modQueue q (fun h => atStage h k.index .written)

/-- Step 3 of a completion: HEAD and the counters. -/
def completionHead (s : State) (q : Nat) (k : Pkt) : State :=
  s.modQueue q (fun h =>
    let h := atStage h k.index .counted
    { h with
      head := headPast h.taken h.head
      inflight := if k.launched then h.inflight - 1 else h.inflight
      dropcnt := if k.status = 1 then h.dropcnt + 1 else h.dropcnt })

/-- Step 4 of a completion: the signal of the calliope's copy. The completion is then an event at which the ring is read
(R380). -/
def completionSignal (s : State) (q : Nat) (k : Pkt) : State :=
  let s := s.modQueue q (fun h => forgetDone (atStage h k.index .done))
  let s := if (liveSlot s (s.queueAt q)).isSome then s.modQueue q (fun h => { h with wake := true }) else s
  let sig := pktWord k.copy 2
  if sig != 0 && signalOk s sig && busReach s sig.toNat 8 then pkgPut s sig.toNat (stepSignal (pkgWord s sig.toNat) k.status)
  else s

/-- PACKET_COMPLETION (R384): one step of the completion of a packet, each performing before the next begins. Step 1 is
over once every engine command that the packet's gang pushed has posted; a halt has carried the gang's lines to .sys (R129). -/
def execPacketCompletion (queue index : Nat) (s : State) : Out :=
  match (s.queueAt queue).taken.find? (fun k => k.index.toNat == index) with
  | none => .next s
  | some k =>
    match k.stage with
    | .completed =>
      if (allCmds s).any (fun c => c.owes == some (queue, index)) then .next s else .next (completionStatus s queue k)
    | .written => .next (completionHead s queue k)
    | .counted => .next (completionSignal s queue k)
    | _ => .next s

end Sys2Proof.Machine
end

