-- ==== Sys2Proof/Machine/PartSteps.lean ====
section
/-! DEFINITION. The part's own steps beside threads and front ends: migration (R135, R404), page requests and replies (R407,
R409), the arbiter's period and background work (R436, R439), snapshot copies (R432), errors (R442 to R445), peer links
(R275), and units that lose and regain power (R427). -/

namespace Sys2Proof.Machine

/-! ### Migration (R135, R404) -/

/-- The migration of a page that has taken `phase` steps. -/
def migAt (s : State) (old phase : Nat) : Option Migration := s.migs.find? (fun m => m.old == old && m.phase == phase)

/-- A migration's next phase. -/
def setPhase (s : State) (m : Migration) (phase : Nat) : State :=
  { s with migs := s.migs.map (fun x => if x = m then { x with phase := phase } else x) }

/-- Page sizes (R395). -/
def pageSizes : List Nat := [2 ^ 12, 2 ^ 16, 2 ^ 21, 2 ^ 30, 2 ^ 39, 2 ^ 48]

/-- The frame that a leaf entry names for a page of a size (R395). -/
def leafFrame (pte : Word) (size : Nat) : Nat := alignDown (4096 * field pte 10 44) size

/-- Can a page migrate: both frames whole pages of ordinary memory, the leaf entry naming the old one, nothing migrating
there? -/
def migOk (s : State) (x : MigArgs) : Bool :=
  pageSizes.contains x.size && x.old % x.size == 0 && x.new % x.size == 0 && x.leaf % 8 == 0 &&
    inOneMemory s x.old x.size && inOneMemory s x.new x.size && inMemory s x.leaf &&
    bit (pkgWord s x.leaf) 0 && leafFrame (pkgWord s x.leaf) x.size == x.old &&
    !(rangeMeets (x.old, x.size) (x.new, x.size)) &&
    s.migs.all (fun m => !rangeMeets (m.old, m.size) (x.old, x.size) && !rangeMeets (m.old, m.size) (x.new, x.size))

/-- MIGRATE_STALL (R135): accesses to the page that have not performed stall, and those that issue later. -/
def execMigrateStall (x : MigArgs) (s : State) : Out :=
  if !migOk s x then .next s
  else .next { s with migs := s.migs ++ [{ old := x.old, new := x.new, size := x.size, leaf := x.leaf, va := x.va, code := x.code, phase := 1 }] }

/-- MIGRATE_DRAIN (R135): dirty bytes of the page reach .sys, and its copies are dropped. -/
def execMigrateDrain (old : Nat) (s : State) : Out :=
  match migAt s old 1 with
  | none => .next s
  | some m => .next (setPhase (dropLines (flushRange s m.old m.size) m.old m.size) m 2)

/-- MIGRATE_COPY (R135): the page copied from the locations of its leaf's interleave code to those of the new mapping's (R400),
forced work of activity 3 (R439). -/
def execMigrateCopy (old : Nat) (s : State) : Out :=
  match migAt s old 2 with
  | none => .next s
  | some m =>
    let code : BitVec 2 := BitVec.ofNat 2 (field (pkgWord s m.leaf) 8 2)
    .next (setPhase (chargeWork (dropLines (copyBulk s m.old m.new m.size code m.code) m.new m.size) 3 m.size) m 3)

/-- A leaf entry naming another frame, with the new mapping's code: of a 64 KiB page, all sixteen entries (R397, R400). -/
def renameLeaf (s : State) (m : Migration) : State :=
  let rename (s : State) (a : Nat) : State :=
    let w := pkgWord s a
    let low := if m.size = 2 ^ 16 then field w 10 4 else 0
    pkgPut s a (setField (setField w 10 44 (m.new / 4096 + low)) 8 2 m.code.toNat)
  if m.size = 2 ^ 16 then (List.range 16).foldl (fun s i => rename s (alignDown m.leaf 128 + 8 * i)) s
  else rename s m.leaf

/-- A physical address of the old frame in the new one. -/
def movedPa (m : Migration) (pa : Nat) : Nat := if m.old ≤ pa ∧ pa < m.old + m.size then m.new + (pa - m.old) else pa

/-- An access that stalled translated again (R135). -/
def movedAccess (m : Migration) (a : Access) : Access :=
  { a with
    pa := movedPa m a.pa
    kind := match a.kind with
      | .storeV xs => .storeV (xs.map (fun x => { x with pa := movedPa m x.pa }))
      | .loadV xs => .loadV (xs.map (fun x => { x with pa := movedPa m x.pa }))
      | k => k }

/-- The accesses of a core's parties translated again: the translation of a context in bare mode names the old frame still. -/
def movedQueues (s : State) (m : Migration) (c : Core) : Core :=
  if c.slot.all (fun slot => field (s.ctxAt slot).h.atp 60 4 = 0) then c
  else
    let all (l : List Access) : List Access := l.map (movedAccess m)
    { c with pq := c.pq.map (fun q => { issue := all q.issue, pending := all q.pending, stores := all q.stores }) }

/-- MIGRATE_SWITCH (R135, R404): the translation names the new frame, every translation of the page drops, whatever its root or
frame, and the accesses that stall are translated again. A write set not yet committed keeps its lines at the old frame's
addresses (notes/assumptions/84.md). -/
def execMigrateSwitch (old : Nat) (s : State) : Out :=
  match migAt s old 3 with
  | none => .next s
  | some m =>
    let s := renameLeaf s m
    let s := { s with
      tlbs := s.tlbs.map (fun p =>
        (p.1, p.2.filter (fun t => !rangeMeets (t.va, t.size) (m.va, m.size) &&
          !rangeMeets (t.frame, min t.size t.gsize) (m.old, m.size) && !rangeMeets (t.frame, t.size) (m.old, m.size))))
      segs := s.segs.map (fun t => t.map (fun l => movedPa m (64 * l) / 64))
      cores := s.cores.map (fun p => (p.1, movedQueues s m p.2)) }
    .next (setPhase s m 4)

/-- MIGRATE_RELEASE (R135): stalled accesses proceed. -/
def execMigrateRelease (old : Nat) (s : State) : Out :=
  match migAt s old 4 with
  | none => .next s
  | some m => .next { s with migs := s.migs.filter (fun x => x != m) }

/-! ### Page requests and replies (R407, R409) -/

/-- PAGE_REQUEST_POST (R407): the oldest waiting record of a partition, where its ring has room. -/
def execPageRequestPost (part : Nat) (s : State) : Out := .next (postRequests part 1 s)

/-- REPLY_RECORD_JOIN (R409). -/
def execReplyRecordJoin (slot : Nat) (s : State) : Out :=
  match s.ctx? slot with
  | none => .next s
  | some _ => .next (s.modCtx slot (fun c => { c with q := lateJoin c.q }))

/-! ### The arbiter's period (R436, R437, R439) -/

/-- The fastest class that any front end asks, or 1 (R436). -/
def targetClass (s : State) : Nat :=
  let cs := (List.range 8).map (fun f => fereq (s.feAt f))
  match cs.filter (fun c => c != 0) with
  | [] => 1
  | c :: rest => rest.foldl min c

/-- POINT one class on (R436): slower over the limit, else toward the target. -/
def nextPoint (point target : Nat) (above : Bool) : Nat :=
  if above then min 4 (point + 1)
  else if target < point then point - 1
  else if point < target then point + 1
  else point

/-- A front end's requests after a period: one stands anew while a packet of its class is held. -/
def agedReqs (s : State) (f : Nat) : List (Nat × Nat) :=
  (s.feAt f).reqs.filterMap (fun p =>
    if (heldClasses s f).contains p.1 then some (p.1, 64) else if p.2 ≤ 1 then none else some (p.1, p.2 - 1))

/-- A budget at a period boundary (R439). -/
def repay (b : Budget) : Budget :=
  let r := if b.debt ≤ b.limit then b.debt else b.limit
  { b with debt := b.debt - r, used := r, served := [] }

/-- PERIOD_END (R436, R439): the power measured comes from outside. -/
def execPeriodEnd (pmeas : BitVec 13) (s : State) : Out :=
  let a := s.arb
  let p := nextPoint a.point (targetClass s) (decide (a.limitNow < pmeas))
  let s := (List.range 8).foldl (fun s f =>
    if (s.feAt f).reqs.isEmpty then s else s.modFe f (fun x => { x with reqs := agedReqs s f })) s
  .next { s with
    arb := { a with pmeas := pmeas, periods := a.periods + 1, point := p, limitNow := a.plimit }
    budgets := s.budgets.map repay }

/-! ### Snapshot copies (R432) -/

/-- SNAP_FORCED_COPY (R432): the page that a waiting merge needs. -/
def execSnapForcedCopy (die page : Nat) (s : State) : Out :=
  let x := s.snapAt die
  .next (if snapLeft x page && snapBit s x page then snapCopy s die page else s)

/-- A snapshot of no page completes. -/
def snapEmpty (s : State) (d : Nat) : State :=
  let a := (s.snapAt d).sig
  let s := s.modSnap d (fun x => { x with complete := true })
  if a = 0 then s else pkgPut s a.toNat (stepSignal (pkgWord s a.toNat) 0)

/-- The next page in ascending order, within the budget (R432, R439). -/
def snapBackground (s : State) (die : Nat) : State :=
  let x := s.snapAt die
  if !x.cut || x.complete || !workReady s 0 then s
  else
    match snapNext s die with
    | some i => snapCopy s die i
    | none => snapEmpty s die

/-- SNAP_BACKGROUND_COPY (R432). -/
def execSnapBackgroundCopy (die : Nat) (s : State) : Out := .next (snapBackground s die)

/-! ### Errors (R442 to R445) -/

/-- The bytes of a line at its home replaced by a poisoned line. -/
def poisonLine (s : State) (l : Nat) : State := { s with poison := insertNat l s.poison }

/-- A dirty line that leaves a cache with an uncorrectable error (R442): its bytes at home are poisoned, a page that a snapshot
needs is copied first (R432), no level two keeps a copy, and its owner's fault domain has a report. -/
def lostLine (s : State) (l owner level : Nat) : State :=
  postReport (poisonLine (rawSettle (snapBefore s l) l) l) { region := owner, line := l, level := level }

/-- UNCORRECTABLE_EVICTION (R442): of a line of a core's level one, or of a die's level two. -/
def execUncorrectableEviction (level unit line : Nat) (s : State) : Out :=
  if level = 1 then
    match lookupKey line (s.coreAt unit).l1 with
    | none => .next s
    | some x =>
      let t := s.modCore unit (fun c => { c with l1 := eraseKey line c.l1 })
      .next (if x.dirty = 0 then t
        else lostLine ((siblings t unit).foldl (fun t j => carry1 t j line) t) line x.owner 1)
  else if level = 2 then
    match s.l2Line unit line with
    | none => .next s
    | some x =>
      let t := s.l2Del unit line
      .next (if x.dirty = 0 then t else lostLine t line x.owner 2)
  else .next s

/-- One line of HBM4E or second-tier memory read by the patrol, within budget 5 (R444). The level that the report of a line in
memory bears is a free value (notes/assumptions/58.md). -/
def patrolLine (s : State) (line : Nat) (uncorrectable : Bool) : State :=
  if !workReady s 5 || !(inHbm s (64 * line) || inSecond (64 * line)) then s
  else
    let s := chargeWork s 5 64
    if !uncorrectable then s
    else
      let lv := field (Config.freeWord s.fresh) 0 2
      postReport (poisonLine { s with fresh := s.fresh + 1 } line) { region := 0, line := line, level := lv }

/-- ECC_PATROL (R444). -/
def execEccPatrol (line : Nat) (uncorrectable : Bool) (s : State) : Out := .next (patrolLine s line uncorrectable)

/-- A line of memory, of a scratchpad or of a pewter slice becomes uncorrectable (R443): nothing reports it until it is read. -/
def lineError (s : State) (line : Nat) : State :=
  let pa := 64 * line
  if inMemory s pa || inSpad pa || inSlice s pa then poisonLine s line else s

/-- An engine counts an uncorrectable error of its own buffers (R275). -/
def engineError (s : State) (n : Nat) : State :=
  if enginePresent s n then s.modEngine n (fun e => { e with memerr := e.memerr + 1 }) else s

/-- FRONT_END_TABLE_ERROR (R445): the tables are read again from the head pages, which hold every change (R375), and no packet
or wake is lost: the state is as it was. -/
def execFrontEndTableError (_ : Nat) (s : State) : Out := .next s

/-- The packets in Lysyo or in a hold of a front end's queues complete with FAILED (R445). -/
def failPackets (s : State) (f : Nat) : State :=
  ((s.feAt f).qmap.map (·.2)).foldl (fun s q =>
    match pktUnderway s q with
    | some k => (match k.stage with
      | .lysyo | .held _ => endPacket s q 10
      | _ => s)
    | none => s) s

/-- CALLIOPE_FAILURE (R445): the first failure halts the front end, the second takes it offline and unmaps its queues;
unmaps that had begun end with the packets that they waited for (R388). -/
def execCalliopeFailure (fe : Nat) (s : State) : Out :=
  let x := s.feAt fe
  if 8 ≤ fe || x.state = 2 then .next s
  else
    let st := if x.fails = 0 then 1 else 2
    let s := failPackets (endRun s fe) fe
    let s := s.modFe fe (fun x => { x with state := st, fails := x.fails + 1, reason := 1 })
    let s := (x.qmap.map (·.2)).foldl (fun s q => s.modQueue q (fun h => { h with failed := true })) s
    let s := settleUnmaps (if st = 2 then (x.qmap.map (·.1)).foldl (fun s j => unmapSlot s fe j) s else s) fe
    .next { s with notes := s.notes ++ [.frontEndFailed fe (festat (s.feAt fe))] }

/-- PEER_LINK_CHANGE (R275): a present port's link comes up or goes down. -/
def execPeerLinkChange (port : Nat) (up : Bool) (s : State) : Out :=
  .next (if bit s.fuses.ports port then { s with links16 := setField s.links16 port 1 (b2n up) } else s)

/-! ### Power of units (R427) -/

/-- The cores of a unit. -/
def unitCores (u : Unit_) : List Nat :=
  match u with
  | .core k => [k]
  | .cluster c => coresOf c

/-- Does a core hold nothing that its unit must keep: no context, no aim, no deque entry? -/
def coreQuiet (s : State) (k : Nat) : Bool :=
  let c := s.coreAt k
  corePresent s k && c.slot.isNone && c.aims.isEmpty && c.top == c.bottom

/-- The contents of cores gone: level one has gone back to level two, the scratchpad keeps nothing. -/
def emptyCores (s : State) (ks : List Nat) : State :=
  ks.foldl (fun s k => (zeroSpad s (spadOf k) (2 ^ 20)).modCore k (fun c => { c with
    icache := [], traces := none, idle := false, dirty := [] })) (flushL1 s ks)

/-- UNIT_POWER_GATE (R427): a unit without a context keeps nothing. -/
def execUnitPowerGate (u : Unit_) (s : State) : Out :=
  let ks := unitCores u
  if s.gated.contains u || !(ks.all (coreQuiet s)) then .next s
  else .next { emptyCores s ks with gated := s.gated ++ [u] }

/-- A gated unit powers up within the budget of scrubbing: one write pass zeroes it, charged (R427, R438, R439). -/
def powerUpUnit (s : State) (u : Unit_) : State :=
  if s.gated.contains u && workReady s 1 then
    let ks := unitCores u
    chargeWork { emptyCores s ks with gated := s.gated.filter (fun x => x != u) } 1 (scrubBytes * ks.length)
  else s

/-- UNIT_POWER_UP (R427, R446): before anything is allotted the unit. -/
def execUnitPowerUp (u : Unit_) (s : State) : Out := .next (powerUpUnit ((unitCores u).foldl zeroUnit s) u)

/-! ### A unit of background work (R439, R440) -/

/-- The first command of an engine that may perform. -/
def readyCmd (s : State) (n : Nat) : Option (EngArgs × Cmd) :=
  (((s.engineAt n).cmds.zipIdx).find? (fun p => mayPerform s n p.1)).map (fun p => ({ eng := n, idx := p.2 }, p.1))

/-- BACKGROUND_UNIT (R439): one unit of an activity's own work, where its budget lets it: `unit` names the die of a snapshot
engine, a gated core, a seal or collective engine, or a line. The Copy step of a migration is forced work and has its own
step. -/
def execBackgroundUnit (activity unit : Nat) (s : State) : Out :=
  .next (match activity with
    | 0 => snapBackground s unit
    | 1 => powerUpUnit (zeroUnit s unit) (.core unit)
    | 2 | 4 => (match readyCmd s unit with
      | some (x, c) => if (cmdActivity unit c).any (fun a => a.val == activity) then performCmd s x c else s
      | none => s)
    | 5 => patrolLine s unit false
    | _ => s)

end Sys2Proof.Machine
end

