-- ==== Sys2Proof/Machine/Roustabout.lean ====
section
/-! DEFINITION. The roustabouts (R259 to R263, R136): their address map, RV64IMAC, the extension instructions of R286, and
the default loader (R281, R464). -/

namespace Sys2Proof.Machine

/-- Cause STRIPDESC (R289). -/
def cStripDesc : BitVec 16 := 0x408

/-- The roustabout instruction that an access traps in is done for its turn: the trap waits for the context's boundary
(R108); a wait executes nothing (R267). -/
def roustStep (m : M Unit) (s : State) : Out :=
  match m s with
  | .ok _ s' => .next s'
  | .error (.trap t) s' => .next (raiseFor s'.slot { t with party := if s'.party == .storer then 3 else 2 } s')
  | .error .wait s' => .next s'

/-! ### Registers and the address map (R259) -/

/-- The acting roustabout. -/
def getR : M Roustabout := do
  let s ← get
  return roustOf s.cur (s.party == .storer)
/-- The acting roustabout changed. -/
def modR (f : Roustabout → Roustabout) : M Unit := modify (fun s => s.modCur (fun c => modRoust c (s.party == .storer) f))
/-- Register x0 reads as zero. -/
def xVal (r : Roustabout) (n : XReg) : Word := if n = 0 then 0 else r.x[n]
/-- The value of an x register. -/
def getX (n : XReg) : M Word := do return xVal (← getR) n
/-- A write of an x register; x0 discards it. -/
def setX (n : XReg) (v : Word) : M Unit := modR (putX n v)
/-- The instruction word at a roustabout's pc: 16 bits of a compressed one (R259). -/
def wordAtPc (r : Roustabout) : Nat :=
  let w := natOfBytes (memRead r.istore r.pc.toNat 4)
  if w % 4 = 3 then w else w % 65536
/-- The instruction word, for the detail of ILLEGAL (R72) and RADDR (R289). -/
def roustWord : M Word := do return BitVec.ofNat 64 (wordAtPc (← getR))
/-- The trap of an access to nothing. -/
def raddr {α : Type} (a : Word) : M α := do trapD cRaddr a (← roustWord)

/-- A binding record as the binding view shows it (R282). -/
def bindBytes (b : Binding) : List Byte :=
  wordBytes 8 (bindWord b) ++ wordBytes 8 b.stride ++ capBytes b.base ++ capBytes b.scale ++ wordBytes 8 b.sstride ++
    wordBytes 8 0

/-- A byte of a roustabout's own map below 0x8280 (R259). -/
def localByte (c : Ctx) (r : Roustabout) (a : Nat) : Option Byte :=
  if a < 0x4000 then some (memGet r.istore a)
  else if a < 0x8000 then some (memGet r.dstore (a - 0x4000))
  else if a < 0x8200 then
    (bindBytes (c.q.binds.toList.getD ((a - 0x8000) / 64) Binding.none))[(a - 0x8000) % 64]?
  else if a < 0x8280 then
    (c.q.stages.toList[(a - 0x8200) / 8]?).bind (fun st =>
      (wordBytes 8 ((st.pending ++ st.credit).setWidth 64))[a % 8]?)
  else none

/-- An access to context memory through kc0 (R259): the physical address. An AMO asks for the store permission beside that of
its load, before its place is looked at (R126). -/
def roustPlace (a : Word) (n : Nat) (p : CapPerm) (tp : Perm) (amo : Bool) : M Nat := do
  let r ← getR
  let kc := r.kc[0]
  let pa ← orTrap (← capAccess kc (uint a - uint (capCursor kc)) n p tp) 0
  if amo && !capHas kc .store then trapD cCapPerm a 0
  if inCtl pa then trapD cCtlAccess a 0
  if pa % n ≠ 0 then trapD cAlign a 0
  return pa

/-- An access to context memory that is no AMO. -/
def roustAccess (a : Word) (n : Nat) (p : CapPerm) (tp : Perm) : M Nat := roustPlace a n p tp false

/-- `n` bytes of the roustabout's own map loaded at an address. -/
def localLoad (a : Word) (n : Nat) : M (List Byte) := do
  let s ← get
  let r ← getR
  let bs := (List.range n).map (fun i => localByte s.cur r (a.toNat + i))
  if bs.all (·.isSome) then return bs.filterMap id else raddr a

/-- A load into an x register: one of context memory may stay in the roustabout's issue queue (R116). -/
def roustLoad (rd : XReg) (a : Word) (n : Nat) (signed : Bool) : M Unit := do
  if 0x10000 ≤ a.toNat then
    let pa ← roustAccess a n .load .read
    if mayHold (← get) then
      enqueue { n := 0, kind := .loadX signed rd, pa := pa, size := n, scope := .core, hint := 0, code := 0 }
    else setX rd (roustValue signed (← loadMem pa n .core 0))
  else setX rd (roustValue signed (← localLoad a n))

/-- The line that a reservation of a data-store address names: beyond every physical line (R260). -/
def dstoreLine (a : Nat) : Nat := 2 ^ 60 + a / 64

/-- Bytes written in the data store; a reservation of a line written ends (R260). -/
def dstorePut (a : Nat) (bs : List Byte) : M Unit :=
  modR (fun r => { r with
    dstore := memWrite r.dstore (a - 0x4000) bs
    reserved := if r.reserved = some (dstoreLine a) ∨ r.reserved = some (dstoreLine (a + bs.length - 1)) then none
      else r.reserved })

/-- Is `[a, a + n)` in the data store? -/
def inDstore (a n : Nat) : Bool := decide (0x4000 ≤ a) && decide (a + n ≤ 0x8000)

/-- The low `n` bytes of a value stored at an address. -/
def roustStore (a v : Word) (n : Nat) : M Unit := do
  if 0x10000 ≤ a.toNat then
    let pa ← roustAccess a n .store .write
    issueStore v pa n .core 0
  else if inDstore a.toNat n then dstorePut a.toNat ((wordBytes 8 v).take n)
  else raddr a

/-- The pc after an instruction of a length. -/
def roustNext (len : Nat) : M Unit := modR (fun r => { r with pc := r.pc + BitVec.ofNat 64 len })

/-- A jump; one to itself makes the roustabout idle (R263). -/
def roustJump (selfLoop : Bool) (target : Word) : M Unit :=
  modR (fun r => { r with pc := target, idle := selfLoop && target == r.pc })

/-! ### RV64IM -/

/-- A 32-bit result, sign-extended. -/
def sext32 (w : Word) : Word := wordOf (signExt (uint w) 32)

/-- Register and immediate operations of RV64I. -/
def rvAlu (k : RvAlu) (a b : Word) : Word :=
  match k with
  | .add => a + b
  | .sub => a - b
  | .sll => a <<< (b.toNat % 64)
  | .slt => if sint a < sint b then 1 else 0
  | .sltu => if a < b then 1 else 0
  | .xor => a ^^^ b
  | .srl => a >>> (b.toNat % 64)
  | .sra => a.sshiftRight (b.toNat % 64)
  | .or => a ||| b
  | .and => a &&& b

/-- The 32-bit operations of RV64I. -/
def rvAluW (k : RvAluW) (a b : Word) : Word :=
  let lo : Word := a &&& 0xFFFFFFFF
  match k with
  | .addw => sext32 (a + b)
  | .subw => sext32 (a - b)
  | .sllw => sext32 (lo <<< (b.toNat % 32))
  | .srlw => sext32 (lo >>> (b.toNat % 32))
  | .sraw => (sext32 lo).sshiftRight (b.toNat % 32)

/-- The M extension. -/
def rvMul (k : RvMul) (a b : Word) : Word :=
  match k with
  | .mul => a * b
  | .mulh => wordOf (sint a * sint b / 2 ^ 64)
  | .mulhsu => wordOf (sint a * uint b / 2 ^ 64)
  | .mulhu => wordOf (uint a * uint b / 2 ^ 64)
  | .div => if b = 0 then BitVec.allOnes 64 else wordOf ((sint a).tdiv (sint b))
  | .divu => if b = 0 then BitVec.allOnes 64 else wordOf (uint a / uint b)
  | .rem => if b = 0 then a else wordOf ((sint a).tmod (sint b))
  | .remu => if b = 0 then a else wordOf (uint a % uint b)

/-- The 32-bit operations of the M extension. -/
def rvMulW (k : RvMulW) (a b : Word) : Word :=
  let sa := signExt (uint a) 32
  let sb := signExt (uint b) 32
  let ua := zeroExt (uint a) 32
  let ub := zeroExt (uint b) 32
  match k with
  | .mulw => sext32 (a * b)
  | .divw => if ub = 0 then BitVec.allOnes 64 else sext32 (wordOf (sa.tdiv sb))
  | .divuw => if ub = 0 then BitVec.allOnes 64 else sext32 (wordOf (ua / ub))
  | .remw => if ub = 0 then sext32 a else sext32 (wordOf (sa.tmod sb))
  | .remuw => if ub = 0 then sext32 a else sext32 (wordOf (ua % ub))

/-- A branch's condition. -/
def rvCond (k : RvCond) (a b : Word) : Bool :=
  match k with
  | .eq => a == b
  | .ne => a != b
  | .lt => decide (sint a < sint b)
  | .ge => !decide (sint a < sint b)
  | .ltu => decide (a < b)
  | .geu => !decide (a < b)

/-- Bytes of a load, and whether it is signed. -/
def rvLoadKind : RvLoad → Nat × Bool
  | .lb => (1, true) | .lh => (2, true) | .lw => (4, true) | .ld => (8, true)
  | .lbu => (1, false) | .lhu => (2, false) | .lwu => (4, false)

/-- Bytes of a store. -/
def rvStoreSize : RvStore → Nat
  | .sb => 1 | .sh => 2 | .sw => 4 | .sd => 8

/-- A sign-extended immediate. -/
def simm {n : Nat} (x : BitVec n) : Word := wordOf (sint x)

/-- An RV64IMC operation of a length (R259). -/
def rvOp (len : Nat) (op : RvOp) : M Unit := do
  let r ← getR
  let pc := r.pc
  match op with
  | .lui rd imm =>
    setX rd (sext32 (BitVec.ofNat 64 (imm.toNat <<< 12)))
    roustNext len
  | .auipc rd imm =>
    setX rd (pc + sext32 (BitVec.ofNat 64 (imm.toNat <<< 12)))
    roustNext len
  | .jal rd off =>
    setX rd (pc + BitVec.ofNat 64 len)
    roustJump (rd == 0) (pc + simm off)
  | .jalr rd rs1 imm =>
    let t := (xVal r rs1 + simm imm) &&& ~~~ 1#64
    setX rd (pc + BitVec.ofNat 64 len)
    roustJump false t
  | .branch k a b off =>
    if rvCond k (xVal r a) (xVal r b) then roustJump false (pc + simm off) else roustNext len
  | .load k rd rs1 imm =>
    let (n, signed) := rvLoadKind k
    roustLoad rd (xVal r rs1 + simm imm) n signed
    roustNext len
  | .store k rs1 rs2 imm =>
    roustStore (xVal r rs1 + simm imm) (xVal r rs2) (rvStoreSize k)
    roustNext len
  | .opImm k rd rs1 imm =>
    setX rd (rvAlu k (xVal r rs1) (simm imm))
    roustNext len
  | .op k rd rs1 rs2 =>
    setX rd (rvAlu k (xVal r rs1) (xVal r rs2))
    roustNext len
  | .opImmW k rd rs1 imm =>
    setX rd (rvAluW k (xVal r rs1) (simm imm))
    roustNext len
  | .opW k rd rs1 rs2 =>
    setX rd (rvAluW k (xVal r rs1) (xVal r rs2))
    roustNext len
  | .mul k rd rs1 rs2 =>
    setX rd (rvMul k (xVal r rs1) (xVal r rs2))
    roustNext len
  | .mulW k rd rs1 rs2 =>
    setX rd (rvMulW k (xVal r rs1) (xVal r rs2))
    roustNext len
  | .fenceI => roustNext len

/-- ROUSTABOUT_INSTRUCTION (R259). -/
def execRoustaboutInstruction (x : RvArgs) (s : State) : Out :=
  roustStep (rvOp (if x.compressed then 2 else 4) x.op) s

/-- ROUSTABOUT_FENCE (R136): a Release and an Acquire at .sys where both sets hold a member. -/
def execRoustaboutFence (x : RvFenceArgs) (s : State) : Out :=
  roustStep (do
    if x.pred ≠ 0 ∧ x.succ ≠ 0 then
      releaseOwn .sys
      modify (fun s => acquire s s.core .sys)
    roustNext 4) s

/-- An atomic of the roustabout's own map: one step at the store (R260). LR loads, so it reaches the load-only ranges too (R259);
what is not aligned traps ALIGN (notes/assumptions/83.md). -/
def dstoreAmo (x : RvAmoArgs) (a : Word) (n : Nat) (b : Word) : M Word := do
  let r ← getR
  let bs ← localLoad a n
  match x.op with
  | .lr => pure ()
  | _ => if !inDstore a.toNat n then raddr a
  if a.toNat % n ≠ 0 then trapD cAlign a 0
  let old := wordOfBytes bs
  let put (v : Word) : M Unit := dstorePut a.toNat ((wordBytes 8 v).take n)
  match x.op with
  | .lr =>
    modR (fun r => { r with reserved := some (dstoreLine a.toNat) })
    return roustValue true bs
  | .sc =>
    let ok := r.reserved == some (dstoreLine a.toNat)
    if ok then put b
    modR (fun r => { r with reserved := none })
    return if ok then 0 else 1
  | op =>
    put (rvAmoNew op (8 * n) old b)
    return roustValue true bs

/-- An atomic of context memory (R260, R126): it joins the roustabout's issue queue, or performs. LR and SC are accesses at .core
(R136), and SC asks for reading too (R394). -/
def memAmo (x : RvAmoArgs) (a : Word) (n : Nat) (b : Word) : M Unit := do
  let pa ← match x.op with
    | .lr => roustAccess a n .load .read
    | .sc => roustAccess a n .store .both
    | _ => roustPlace a n .load .both true
  let sc : Scope := match x.op with
    | .lr | .sc => .core
    | _ => .sys
  let acc : Access := { n := 0, kind := .amoX x.op x.aq x.rd b, pa := pa, size := n, scope := sc, hint := 0, code := 0 }
  if mayHold (← get) then enqueue acc
  else
    drainParty (← get).party
    modify (fun s => performAmoX s s.core { acc with code := s.code } x.op x.aq x.rd b)

/-- ROUSTABOUT_AMO (R260): an AMO or SC parks a speculative segment first (R368); rl releases at .sys before it, aq acquires
after it. -/
def execRoustaboutAmo (x : RvAmoArgs) (s : State) : Out :=
  roustStep (do
    let a ← getX x.rs1
    let b ← getX x.rs2
    let n := if x.dbl then 8 else 4
    match x.op with
    | .lr => pure ()
    | _ => parkIfSpec
    if x.rl then releaseOwn .sys
    if 0x10000 ≤ a.toNat then memAmo x a n b
    else
      let v ← dstoreAmo x a n b
      setX x.rd v
      if x.aq then modify (fun s => acquire s s.core .sys)
    roustNext 4) s

/-! ### The extension (R286) -/

/-- The party of the acting roustabout. -/
def actingParty : M Party := do return (← get).party

/-- An extension instruction that the acting roustabout runs, or that is none for it (R71, R72). -/
def extStep (loader storer : Bool) (m : M Unit) (s : State) : Out :=
  roustStep (do
    let p ← actingParty
    let ok := if p == .storer then storer else loader
    if !ok then
      let w ← roustWord
      trapD cIllegal w (if p == .storer then 3 else 2)
    m
    roustNext 4) s

/-- The trap of a port outside the instruction's column (R264). -/
def eport {α : Type} (p : Word) : M α := trapD cEport p 0

/-- The capability that a push captures from a kc register with an offset, as CINC makes it: a tagged sealed one traps CAPSEAL
(R286, R81). -/
def pushCap (r : Roustabout) (n : Nat) (off : Word) : M Cap := do
  match r.kc.toList[n]? with
  | none => return Cap.zero
  | some c =>
    if c.tag && capOtype c != 0 then trapD cCapSeal (BitVec.ofNat 64 n) 0
    return setCursor c (capCursor c + off)

/-- QE.PUSH (R286). -/
def execQePush (x : QArgs) (s : State) : Out :=
  extStep true true (do
    let a ← getX x.rs1
    let r ← getR
    if a.toNat % 8 ≠ 0 || !inDstore a.toNat 32 then raddr a
    let word (i : Nat) : Word := wordOfBytes (memRead r.dstore (a.toNat - 0x4000 + 8 * i) 8)
    let w := word 0
    let k := word 3
    let s ← get
    match liveEngine s s.core (cmdPort w) with
    | none => eport w
    | some n =>
      let p ← actingParty
      let src ← pushCap r (field k 0 4) (word 1)
      let dst ← pushCap r (field k 4 4) (word 2)
      let idx ← pushCap r (field k 8 4) 0
      let seq ← enginePush p n w src dst idx (signExt (field k 32 32 : Nat) 32)
      setX x.rd (BitVec.ofNat 64 seq)) s

/-- The engine port that pt names, or EPORT (R264). -/
def enginePt (pt : Word) : M Nat := do
  let p := field pt 0 6
  let s ← get
  match liveEngine s s.core p with
  | some _ => return p
  | none => eport (BitVec.ofNat 64 p)

/-- QE.POP (R286). -/
def execQePop (x : QArgs) (s : State) : Out :=
  extStep true true (do
    let p ← enginePt (← getX x.rs1)
    let e ← popResult (← actingParty) p
    setX x.rd e.w0) s

/-- QE.STAT (R286): the EQSTAT word. -/
def execQeStat (x : QArgs) (s : State) : Out :=
  extStep true true (do
    let p := field (← getX x.rs1) 0 6
    if !(isEnginePort p || [16, 17, 18, 63].contains p) then eport (BitVec.ofNat 64 p)
    setX x.rd (eqstatWord (← get) (← actingParty) p)) s

/-- QE.WAIT (R286). -/
def execQeWait (x : QArgs) (s : State) : Out :=
  extStep true true (do
    let p ← enginePt (← getX x.rs1)
    let me ← actingParty
    let s ← get
    if (ownCmds s s.slot p).any (fun c => c.party == me) then waits) s

/-- The queues of the acting context changed. -/
def modQ (f : Queues → Queues) : M Unit := modifyCur (fun c => { c with q := f c.q })

/-- QA.PUSH (R286): a Release at .core (R266). -/
def execQaPush (x : QArgs) (s : State) : Out :=
  extStep true false (do
    let v ← getX x.rs1
    if 16 ≤ (← getCur).q.qa.length then waits
    releaseOwn .core
    modQ (fun q => { q with qa := q.qa ++ [v] })) s

/-- QA.STAT (R286). -/
def execQaStat (x : QArgs) (s : State) : Out :=
  extStep true false (do setX x.rd (BitVec.ofNat 64 (16 - (← getCur).q.qa.length))) s

/-- QB.PUSH (R286): a Release at .core (R266). -/
def execQbPush (x : QArgs) (s : State) : Out :=
  extStep true false (do
    let v ← getX x.rs1
    if 16 ≤ (← getCur).q.qb.length then waits
    releaseOwn .core
    modQ (fun q => { q with qb := q.qb ++ [v] })) s

/-- QB.STAT (R286). -/
def execQbStat (x : QArgs) (s : State) : Out :=
  extStep true false (do setX x.rd (BitVec.ofNat 64 (16 - (← getCur).q.qb.length))) s

/-- QD.POP (R286). -/
def execQdPop (x : QArgs) (s : State) : Out :=
  extStep false true (do
    match (← getCur).q.qd with
    | [] => waits
    | w :: rest =>
      modQ (fun q => { q with qd := rest })
      setX x.rd w) s

/-- QD.STAT (R286). -/
def execQdStat (x : QArgs) (s : State) : Out :=
  extStep false true (do setX x.rd (BitVec.ofNat 64 (← getCur).q.qd.length)) s

/-! ### Strips -/

/-- The offset in the own scratchpad of `n` bytes at a virtual address that lie wholly in it (R279). -/
def ownSpad (s : State) (va : Word) (n : Nat) : Option Nat :=
  let ps := pagesOf va.toNat n
  let pas := ps.map (fun p => (probe s (ctxXer s) p.1).map (fun pa => (pa, p.2)))
  let base := spadOf s.core
  if pas.all (fun p => match p with
      | some (pa, k) => decide (base ≤ pa) && decide (pa + k ≤ base + 2 ^ 20)
      | none => false) then
    match pas.head? with
    | some (some (pa, _)) => some (pa - base)
    | _ => none
  else none

/-- The fields of an announcement (R286): queue, stage, bytes; none where a bit stands that is not in use. -/
def stripDesc (w : Word) : Option (Fin 8 × Fin 16 × Nat) :=
  if bit w 3 || field w 8 8 ≠ 0 || field w 29 35 ≠ 0 then none
  else some (Fin.ofNat 8 (field w 0 3), Fin.ofNat 16 (field w 4 4), field w 16 13)

/-- One more pending strip at a stage. -/
def pendStage (q : Queues) (st : Fin 16) : Queues := modStage q st (fun y => { y with pending := y.pending + 1 })

/-- An announced strip joins its queue (R279). -/
def announce (q : Fin 8) (st : Fin 16) (n off : Nat) : M Unit := do
  let c ← getCur
  if 8 ≤ (c.q.strips[q]).length then waits
  modQ (fun x => pendStage { x with strips := x.strips.set q (x.strips[q] ++ [.strip st n off none]) } st)

/-- Scales attached to the newest entry that has none; none where every entry has them (R279). -/
def attachScale (sc : Fin 16 × Nat × Nat) : List StripEntry → Option (List StripEntry)
  | [] => none
  | e :: rest =>
    match attachScale sc rest with
    | some l => some (e :: l)
    | none =>
      match e with
      | .strip s n a none => some (.strip s n a (some sc) :: rest)
      | _ => none

/-- QS.STRIP (R286, R279). -/
def execQsStrip (x : QArgs) (s : State) : Out :=
  extStep true false (do
    let w ← getX x.rs1
    let a ← getX x.rs2
    match stripDesc w with
    | none => trapD cStripDesc w a
    | some (q, st, n) =>
      if n = 0 || 4096 < n then trapD cStripDesc w a
      match ownSpad (← get) a n with
      | none => trapD cStripDesc w a
      | some off => announce q st n off) s

/-- QS.SCALE (R286, R279); with no entry to attach to, the announcement is refused as one that fails its checks
(notes/assumptions/43.md). -/
def execQsScale (x : QArgs) (s : State) : Out :=
  extStep true false (do
    let w ← getX x.rs1
    let a ← getX x.rs2
    match stripDesc w with
    | none => trapD cStripDesc w a
    | some (q, st, n) =>
      if n = 0 || 256 < n then trapD cStripDesc w a
      match ownSpad (← get) a n with
      | none => trapD cStripDesc w a
      | some off =>
        match attachScale (st, n, off) (← getCur).q.strips[q] with
        | none => trapD cStripDesc w a
        | some l => modQ (fun c => pendStage { c with strips := c.strips.set q l } st)) s

/-- QS.END (R286). -/
def execQsEnd (x : QArgs) (s : State) : Out :=
  extStep true false (do
    let q : Fin 8 := Fin.ofNat 8 (field (← getX x.rs1) 0 3)
    if 8 ≤ ((← getCur).q.strips[q]).length then waits
    modQ (fun c => { c with strips := c.strips.set q (c.strips[q] ++ [.endMark]) })) s

/-- QV.FENCE (R286). -/
def execQvFence (x : QArgs) (s : State) : Out :=
  extStep true true (do
    let sc := scopeOfCode (field (← getX x.rs1) 0 3) .sys
    releaseOwn sc
    modify (fun s => acquire s s.core sc)) s

/-- QV.EVENT (R286, R276). -/
def execQvEvent (x : QArgs) (s : State) : Out :=
  extStep true true (do
    let a ← getX x.rs1
    let b ← getX x.rs2
    if 64 ≤ (← getCur).q.events.length then waits
    let p := pusherCode (← actingParty)
    let w0 : Word := setField (setField (setField a 58 6 62) 50 1 1) 48 2 p
    modQ (fun q => { q with events := q.events ++ [{ w0 := w0, w1 := 0, w2 := 0, w3 := b, ranges := [] }] })) s

/-- QV.WAIT (R286). -/
def execQvWait (x : QArgs) (s : State) : Out :=
  extStep true true (do
    let st := (← getCur).q.stages[(Fin.ofNat 16 (field (← getX x.rs1) 0 4) : Fin 16)]
    if st.pending ≠ 0 then waits
    setX x.rd (st.credit.setWidth 64)) s

/-! ### The default loader (R281, R464) -/

/-- The default loader changed. -/
def modDflt (f : DefaultLoader → DefaultLoader) : M Unit :=
  modifyCur (fun c => { c with loader := { c.loader with dflt := c.loader.dflt.map f } })

/-- count of a binding. -/
def bindCount (b : Binding) : Nat := field b.word0 32 32
/-- Bytes of a strip. -/
def stripBytes (b : Binding) : Nat :=
  field b.word0 16 14 * ((Ty.ofCode (BitVec.ofNat 5 (field b.word0 0 5))).map (·.width)).getD 8 / 8
/-- Bytes of a strip's scales, or 0 without a scale stream. -/
def scaleBytes (b : Binding) : Nat :=
  match field b.word0 5 2 with
  | 1 => field b.word0 16 14 / 32
  | 2 => field b.word0 16 14 / 16
  | _ => 0
/-- Does the binding carry a scale stream? -/
def hasScale (b : Binding) : Bool := field b.word0 5 2 != 0

/-- The bindings that a pass serves, in binding order. -/
def servedNow (d : DefaultLoader) : List Nat :=
  (List.range d.recs.length).filter (fun b =>
    let n := bindCount (d.recs.getD b Binding.none)
    n == 0 || decide (d.ks.getD b 0 < n))

/-- The stage and buffer offset of binding `b`'s strip `k`. -/
def loaderStage (b k : Nat) : Nat := 2 * b + k % 2
/-- The buffer's offset in the scratchpad. -/
def loaderBuffer (b k : Nat) : Nat := 0xF0000 + 4096 * loaderStage b k

/-- A copy of the default loader: the command word, source and destination of what is left of a strip or of its
scales. -/
def loaderCopy (c : Ctx) (d : DefaultLoader) (b : Nat) (scale : Bool) : Word × Cap × Cap :=
  let r := d.recs.getD b Binding.none
  let k := d.ks.getD b 0
  let done := if scale then d.smoved else d.moved
  let n := (if scale then scaleBytes r else stripBytes r) - done
  let src := if scale then r.scale else r.base
  let step : Word := BitVec.ofNat 64 k * (if scale then r.sstride else r.stride) + BitVec.ofNat 64 done
  let off := loaderBuffer b k + (if scale then stripBytes r else 0) + done
  let dstVa : Word := BitVec.ofNat 64 (localWindow + off)
  let w : Word := BitVec.ofNat 64 (3 <<< 48 ||| b2n scale <<< 32 ||| loaderStage b k <<< 28 ||| n)
  (w, setCursor src (capCursor src + step), setCursor c.loader.kc[0] dstVa)

/-- A result that the default loader takes (R281, R464): a miss pushes the remainder again, another fault traps. -/
def loaderResult (e : ResElem) : M Unit := do
  let st := field e.w0 51 3
  let scale : Bool := field e.w0 40 8 == 1
  let cause : BitVec 16 := e.w1.extractLsb' 32 16
  let done := field e.w0 0 32
  modDflt (fun d => { d with outstanding := d.outstanding - 1 })
  if st = 1 ∨ st = 2 then
    if cause = cPageMiss ∨ cause = cGPageMiss then
      modDflt (fun d => { d with
        todo := d.todo ++ [scale]
        moved := if scale then d.moved else d.moved + done
        smoved := if scale then d.smoved + done else d.smoved })
    else
      let d0 ← freeVal
      let d1 ← freeVal
      trapD cause d0 d1

/-- One move of the default loader on binding `b` (R281). -/
def loaderServe (d : DefaultLoader) (b : Nat) : M Unit := do
  let c ← getCur
  let r := d.recs.getD b Binding.none
  let k := d.ks.getD b 0
  let st : Fin 16 := Fin.ofNat 16 (loaderStage b k)
  let q := bindQueue r
  if !d.began then
    if (c.q.stages[st]).pending ≠ 0 then waits
    modDflt (fun d => { d with began := true, todo := if hasScale r then [false, true] else [false], announced := 0,
                               outstanding := 0, moved := 0, smoved := 0 })
  else
    match d.todo with
    | scale :: rest =>
      let (w, src, dst) := loaderCopy c d b scale
      let s ← get
      let _ ← enginePush .loader (clusterOf s.core) w src dst Cap.zero 0
      modDflt (fun d => { d with todo := rest, outstanding := d.outstanding + 1 })
    | [] =>
      if d.announced = 0 then
        let n := stripBytes r
        if n = 0 || 4096 < n then trapD cStripDesc (← freeVal) (← freeVal)
        announce q st n (loaderBuffer b k)
        modDflt (fun d => { d with announced := 1 })
      else if d.announced = 1 && hasScale r then
        let n := scaleBytes r
        if n = 0 || 256 < n then trapD cStripDesc (← freeVal) (← freeVal)
        match attachScale (st, n, loaderBuffer b k + stripBytes r) c.q.strips[q] with
        | none => pure ()
        | some l => modQ (fun x => pendStage { x with strips := x.strips.set q l } st)
        modDflt (fun d => { d with announced := 2 })
      else if d.outstanding ≠ 0 then
        let e ← popResult .loader 0
        loaderResult e
      else
        modDflt (fun d => { d with began := false, pass := d.pass.drop 1, ks := d.ks.set b (k + 1) })

/-- Is the walk over before a pass: has every binding with a count had its strips? A walk of bindings without end alone goes on
(R282, notes/assumptions/44.md). -/
def walkOver (d : DefaultLoader) : Bool :=
  let finite := (List.range d.recs.length).filter (fun b => bindCount (d.recs.getD b Binding.none) != 0)
  (servedNow d).isEmpty ||
    (!finite.isEmpty && finite.all (fun b => decide (bindCount (d.recs.getD b Binding.none) ≤ d.ks.getD b 0)))

/-- One move of the default loader (R281): it begins a pass, serves a binding, appends an end mark, or goes idle. -/
def loaderTurn : M Unit := do
  let c ← getCur
  match c.loader.dflt with
  | none => pure ()
  | some d =>
    match d.marks with
    | some [] => modifyCur (fun c => { c with loader := { c.loader with idle := true } })
    | some (b :: rest) =>
      let q := bindQueue (d.recs.getD b Binding.none)
      if 8 ≤ (c.q.strips[q]).length then waits
      modQ (fun x => { x with strips := x.strips.set q (x.strips[q] ++ [.endMark]) })
      modDflt (fun d => { d with marks := some rest })
    | none =>
      match d.pass with
      | b :: _ => loaderServe d b
      | [] =>
        if walkOver d then
          modDflt (fun d => { d with marks := some ((List.range d.recs.length).filter (fun b =>
            bindCount (d.recs.getD b Binding.none) != 0)) })
        else modDflt (fun d => { d with pass := servedNow d })

/-! ### Registers that await a load -/

/-- The x registers that an instruction of a roustabout reads or writes. -/
def xRegs : Instr → List XReg
  | .roustaboutInstruction x => (match x.op with
    | .lui rd _ | .auipc rd _ | .jal rd _ => [rd]
    | .jalr rd a _ | .load _ rd a _ | .opImm _ rd a _ | .opImmW _ rd a _ => [rd, a]
    | .branch _ a b _ | .store _ a b _ => [a, b]
    | .op _ rd a b | .opW _ rd a b | .mul _ rd a b | .mulW _ rd a b => [rd, a, b]
    | .fenceI => [])
  | .roustaboutAmo x => [x.rd, x.rs1, x.rs2]
  | .qePush x | .qePop x | .qeStat x | .qeWait x | .qaPush x | .qaStat x | .qbPush x | .qbStat x | .qdPop x | .qdStat x
  | .qsStrip x | .qsScale x | .qsEnd x | .qvFence x | .qvEvent x | .qvWait x => [x.rd, x.rs1, x.rs2]
  | _ => []

/-- Does an access of a roustabout write an x register of a list? -/
def feedsX (rs : List XReg) (a : Access) : Bool := match a.kind with
  | .loadX _ d | .amoX _ _ d _ => rs.contains d
  | _ => false

/-- The registers of an instruction of the acting roustabout ready for it (R118); none where a migration keeps a load back. -/
def xReady (i : Instr) (s : State) : Option State :=
  let s := drainFor s s.core s.party (feedsX (xRegs i))
  if (waitingOf s s.core s.party).any (feedsX (xRegs i)) then none else some s

end Sys2Proof.Machine
end

