-- ==== Sys2Proof/Machine/Scalar.lean ====
section
/-! DEFINITION. The SALU family, ADDI, CMP and LI (R144 to R151). -/

namespace Sys2Proof.Machine

/-- The value of a SALU function over the type and the two operand words (R145), exact. -/
abbrev SaluFn := Ty → Word → Word → Int

/-- P(x) of R145. -/
def pat (t : Ty) (x : Word) : Nat := x.toNat % 2 ^ t.width

/-- ADD. -/
def fnAdd : SaluFn := fun t x y => extTy t (uint x) + extTy t (uint y)
/-- SUB. -/
def fnSub : SaluFn := fun t x y => extTy t (uint x) - extTy t (uint y)
/-- MUL. -/
def fnMul : SaluFn := fun t x y => extTy t (uint x) * extTy t (uint y)
/-- MULH: floor(X × Y / 2^n). -/
def fnMulh : SaluFn := fun t x y => (extTy t (uint x) * extTy t (uint y)) / (2 ^ t.width : Nat)
/-- DIV without .sat (R146). -/
def fnDiv : SaluFn := fun t x y =>
  let d := extTy t (uint y)
  if d = 0 then -1 else Int.tdiv (extTy t (uint x)) d
/-- DIV.sat: what Sat is applied to (R146). -/
def fnDivSat : SaluFn := fun t x y =>
  let n := extTy t (uint x)
  let d := extTy t (uint y)
  if d = 0 then (if 0 ≤ n then tyMax t else tyMin t) else Int.tdiv n d
/-- REM (R146). -/
def fnRem : SaluFn := fun t x y =>
  let n := extTy t (uint x)
  let d := extTy t (uint y)
  if d = 0 then n else n - Int.tdiv n d * d
/-- AND. -/
def fnAnd : SaluFn := fun t x y => Int.ofNat (pat t x &&& pat t y)
/-- OR. -/
def fnOr : SaluFn := fun t x y => Int.ofNat (pat t x ||| pat t y)
/-- XOR. -/
def fnXor : SaluFn := fun t x y => Int.ofNat (pat t x ^^^ pat t y)
/-- ANDN. -/
def fnAndn : SaluFn := fun t x y => Int.ofNat (pat t x &&& pat t (~~~ y))
/-- The shift amount s (R145). -/
def shiftAmt (t : Ty) (y : Word) : Nat := y.toNat % t.width
/-- SHL. -/
def fnShl : SaluFn := fun t x y => extTy t (uint x) * (2 ^ shiftAmt t y : Nat)
/-- SHR. -/
def fnShr : SaluFn := fun t x y => Int.ofNat (pat t x >>> shiftAmt t y)
/-- SAR. -/
def fnSar : SaluFn := fun t x y => signExt (uint x) t.width / (2 ^ shiftAmt t y : Nat)
/-- ROT: toward bit n − 1. -/
def fnRot : SaluFn := fun t x y =>
  let s := shiftAmt t y
  let p := pat t x
  Int.ofNat (p <<< s % 2 ^ t.width ||| p >>> (t.width - s))
/-- MIN. -/
def fnMin : SaluFn := fun t x y => min (extTy t (uint x)) (extTy t (uint y))
/-- MAX. -/
def fnMax : SaluFn := fun t x y => max (extTy t (uint x)) (extTy t (uint y))

/-- Zero bits above the highest 1 among the low `n` bits. -/
def clzN (p : Nat) : Nat → Nat
  | 0 => 0
  | n + 1 => if natField p n 1 = 1 then 0 else clzN p n + 1
/-- Zero bits below the lowest 1 among `n` bits from bit `lo`. -/
def ctzFrom (p lo : Nat) : Nat → Nat
  | 0 => 0
  | n + 1 => if natField p lo 1 = 1 then 0 else ctzFrom p (lo + 1) n + 1

/-- CLZ. -/
def fnClz : SaluFn := fun t x _ => Int.ofNat (clzN (pat t x) t.width)
/-- CTZ. -/
def fnCtz : SaluFn := fun t x _ => Int.ofNat (ctzFrom (pat t x) 0 t.width)
/-- POPC. -/
def fnPopc : SaluFn := fun t x _ => Int.ofNat (popCount (pat t x) t.width)

/-- Positions below `n` where a mask holds 1, rising. -/
def onesOf (m n : Nat) : List Nat := (List.range n).filter (fun i => natField m i 1 = 1)
/-- BEXT (R147). -/
def fnBext : SaluFn := fun t x y =>
  Int.ofNat (((onesOf (pat t y) t.width).zipIdx).foldl (fun acc p => acc ||| natField (pat t x) p.1 1 <<< p.2) 0)
/-- BDEP (R147). -/
def fnBdep : SaluFn := fun t x y =>
  Int.ofNat (((onesOf (pat t y) t.width).zipIdx).foldl (fun acc p => acc ||| natField (pat t x) p.2 1 <<< p.1) 0)

/-- A SALU instruction of two sources (R145). -/
def saluStep (f : SaluFn) (x : SaluArgs) (s : State) : Out :=
  scalarStep x.m (do
    let c ← getCur
    let a := opG c x.a
    let b := opB c x.b x.lit
    modifyCur (fun c => writeFrom c x.d (intResult x.ty x.sat (f x.ty a.value b.value)) [a, b])
    advance x.m) s

/-- A SALU instruction of one source (R145). -/
def saluUnStep (f : SaluFn) (x : SaluUnArgs) (s : State) : Out :=
  scalarStep x.m (do
    let c ← getCur
    let a := opG c x.a
    modifyCur (fun c => writeFrom c x.d (intResult x.ty false (f x.ty a.value 0)) [a])
    advance x.m) s

/-- ADD. -/
def execAdd (x : SaluArgs) (s : State) : Out := saluStep fnAdd x s
/-- SUB. -/
def execSub (x : SaluArgs) (s : State) : Out := saluStep fnSub x s
/-- MUL. -/
def execMul (x : SaluArgs) (s : State) : Out := saluStep fnMul x s
/-- MULH. -/
def execMulh (x : SaluArgs) (s : State) : Out := saluStep fnMulh x s
/-- DIV (R146). -/
def execDiv (x : SaluArgs) (s : State) : Out := saluStep (if x.sat then fnDivSat else fnDiv) x s
/-- REM (R146). -/
def execRem (x : SaluArgs) (s : State) : Out := saluStep fnRem x s
/-- AND. -/
def execAnd (x : SaluArgs) (s : State) : Out := saluStep fnAnd x s
/-- OR. -/
def execOr (x : SaluArgs) (s : State) : Out := saluStep fnOr x s
/-- XOR. -/
def execXor (x : SaluArgs) (s : State) : Out := saluStep fnXor x s
/-- ANDN. -/
def execAndn (x : SaluArgs) (s : State) : Out := saluStep fnAndn x s
/-- SHL. -/
def execShl (x : SaluArgs) (s : State) : Out := saluStep fnShl x s
/-- SHR. -/
def execShr (x : SaluArgs) (s : State) : Out := saluStep fnShr x s
/-- SAR. -/
def execSar (x : SaluArgs) (s : State) : Out := saluStep fnSar x s
/-- ROT. -/
def execRot (x : SaluArgs) (s : State) : Out := saluStep fnRot x s
/-- MIN. -/
def execMin (x : SaluArgs) (s : State) : Out := saluStep fnMin x s
/-- MAX. -/
def execMax (x : SaluArgs) (s : State) : Out := saluStep fnMax x s
/-- CLZ. -/
def execClz (x : SaluUnArgs) (s : State) : Out := saluUnStep fnClz x s
/-- CTZ. -/
def execCtz (x : SaluUnArgs) (s : State) : Out := saluUnStep fnCtz x s
/-- POPC. -/
def execPopc (x : SaluUnArgs) (s : State) : Out := saluUnStep fnPopc x s
/-- BEXT (R147). -/
def execBext (x : SaluArgs) (s : State) : Out := saluStep fnBext x s
/-- BDEP (R147). -/
def execBdep (x : SaluArgs) (s : State) : Out := saluStep fnBdep x s

/-- SEL (R148): the chosen operand's poison flows with the condition's. -/
def execSel (x : SelArgs) (s : State) : Out :=
  scalarStep x.m (do
    let c ← getCur
    let k := opG c x.c
    let r : GOperand :=
      if k.poison then { value := 0, poison := true, origin := k.origin }
      else if k.value ≠ 0 then opG c x.a
      else opB c x.b x.lit
    modifyCur (fun c => writeFrom c x.d (wrapTy x.ty (uint r.value)) [r])
    advance x.m) s

/-- ADDI (R149). -/
def execAddi (x : AddiArgs) (s : State) : Out :=
  scalarStep x.m (do
    let c ← getCur
    let a := opG c x.a
    let z := extTy x.ty (uint a.value) + immInt x.imm
    modifyCur (fun c => writeFrom c x.d (intResult x.ty x.sat z) [a])
    advance x.m) s

/-- CMP (R151). -/
def execCmp (x : CmpArgs) (s : State) : Out :=
  scalarStep x.m (do
    let c ← getCur
    let a := opG c x.a
    let b := opB c x.b x.lit
    let v : Word := if condHolds x.cond (extTy x.ty (uint a.value)) (extTy x.ty (uint b.value)) then 1 else 0
    modifyCur (fun c => writeFrom c x.d v [a, b])
    advance x.m) s

/-- The value LI writes (R150). -/
def liValue (x : LiArgs) : Word :=
  match x.lit with
  | some w => w
  | none => wordOf (immInt x.imm)

/-- LI (R150). -/
def execLi (x : LiArgs) (s : State) : Out :=
  scalarStep x.m (do
    modifyCur (fun c => writeG c x.d (liValue x))
    advance x.m) s

end Sys2Proof.Machine
end

