-- ==== Sys2Proof/Machine/Search.lean ====
section
/-! DEFINITION. The idle-core search (R46 to R48) and the scrub of a core between sessions (R427). -/

namespace Sys2Proof.Machine

/-- The cores of other clusters of a die in the order of step 5 (R46): mesh distance, then number. -/
def dieVictims (k : Nat) : List Nat :=
  let dist (j : Nat) : Nat := ((rowOf j : Int) - rowOf k).natAbs + ((colOf j : Int) - colOf k).natAbs
  sortBy (fun a b => decide (dist a < dist b) || (decide (dist a = dist b) && decide (a ≤ b)))
    ((List.range 36).map (36 * dieOf k + ·) |>.filter (fun j => clusterOf j != clusterOf k))

/-- The other cores of a cluster, starting after the core's own number and wrapping (R46). -/
def clusterVictims (k : Nat) : List Nat :=
  let cs := coresOf (clusterOf k)
  cs.filter (fun j => decide (k < j)) ++ cs.filter (fun j => decide (j < k))

/-- The cores of the other dies in the order of step 6 (R46). -/
def farVictims (k : Nat) : List Nat :=
  ([1, 2, 3].map (fun i => (List.range 36).map (36 * ((dieOf k + i) % 4) + ·))).flatten

/-- May the search take an entry: its record is ARMED, stands in the deque, reads and is valid (R314, R315)? -/
def entryUsable (s : State) (e : Nat × Nat × Word) : Bool :=
  let pa := recordAt s e.1 e.2.1
  decide (e.2.1 < (s.regionAt e.1).pooln) && (s.recAt pa).state == 1 && (s.recAt pa).inq && recUsable s e.1 pa

/-- The task of an entry placed (R321): a gang of one on the taking core as if it alone had been chosen, a larger one at
the head of its region's queue. -/
def placeTask (s : State) (k : Nat) (e : Nat × Nat × Word) : State :=
  let pa := recordAt s e.1 e.2.1
  let s := putRec s pa 2 false
  let x := recordGang s e.1 pa (some e.2.2) none
  let g := s.gangNext
  let s := queueGang s x true
  if x.n = 1 && canStart s x [k] then
    let s := setGang s g { x with cores := [k] }
    s.modCore k (fun c => { c with aims := c.aims ++ [g], accepted := some g })
  else s

/-- Does the search of core `k` find work at the thieves' end of core `v`'s deque (R46, R134)? -/
def searchSteal (s : State) (k v : Nat) : Option State :=
  if !corePresent s v || (stealCheck s v k (s.coreAt k).region).isSome then none
  else if !entryUsable s (dqEntry s v (s.coreAt v).top) then none
  else
    let (s, e) := dqSteal s v k
    some (placeTask s k e)

/-- Step 2 of the search: the owner end of the core's own deque. -/
def searchOwn (s : State) (k : Nat) : Option State :=
  let c := s.coreAt k
  if (dqArea c.dqcfg).1 = 0 || c.top = c.bottom then none
  else if !entryUsable s (dqEntry s k (c.bottom - 1)) then none
  else
    let (s, e) := dqPop s k
    some (placeTask s k e)

/-- The first steal that finds work. -/
def firstSteal (s : State) (k : Nat) : List Nat → Option State
  | [] => none
  | v :: rest => match searchSteal s k v with
    | some s' => some s'
    | none => firstSteal s k rest

/-- The search of a free core in its order (R46); without work it parks idle (R48). -/
def searchCore (s : State) (k : Nat) : State :=
  let s := s.modCore k (fun c => { c with idle := false, searched := (s.clusterAt (clusterOf k)).clock })
  let found := (searchOwn s k).or ((firstSteal s k (clusterVictims k)).or
    (((barkerBest s k).bind (handOut s k)).or ((firstSteal s k (dieVictims k)).or (firstSteal s k (farVictims k)))))
  match found with
  | some s' => s'
  | none =>
    let s := match (s.coreAt k).slot with
      | some sl => laneReturn s sl
      | none => s
    s.modCore k (fun c => { c with idle := true })

/-- The search of a free core from its step 1 (R46): a placement aimed at it is accepted before any other work; a core that has
accepted one waits for its gang. -/
def searchAll (s : State) (k : Nat) : State :=
  let c := s.coreAt k
  if c.accepted.isSome then s
  else
    match c.aims with
    | g :: _ => s.modCore k (fun c => { c with accepted := some g, idle := false })
    | [] => searchCore s k

/-- IDLE_SEARCH (R46): a free core searches; a parked one does so only when it is woken, as an aimed placement wakes it. -/
def execIdleSearch (core : Nat) (s : State) : Out :=
  let c := s.coreAt core
  if !coreFree s core || (c.idle && c.aims.isEmpty) then .next s else .next (searchAll s core)

/-- IDLE_SEARCH_TIMEOUT (R48): 4,096 clocks of the cluster's clock after its last search began, a parked core searches
again. -/
def execIdleSearchTimeout (core : Nat) (s : State) : Out :=
  let c := s.coreAt core
  if coreFree s core && c.idle && decide (c.searched + 4096 ≤ (s.clusterAt (clusterOf core)).clock) then
    .next (searchAll s core)
  else .next s

/-- SCRUB (R427): the core that has accepted a gang is zeroed before a context of another session, or of none, starts on
it; a stopped context of a session leaves it first. -/
def execScrub (core : Nat) (s : State) : Out :=
  match (s.coreAt core).accepted.bind (fun g => gang? s g) with
  | none => .next s
  | some x =>
    if !coreFree s core || !mustScrub s core x.region then .next s
    else .next (scrubCore (clearCores s [core]) core)

end Sys2Proof.Machine
end

