-- ==== Sys2Proof/Machine/Dispatch.lean ====
section
/-! DEFINITION. The meaning of every instruction: one arm per constructor. -/

namespace Sys2Proof.Machine

def exec (i : Instr) (s : State) : Host.Outcome State Fault Refusal :=
  match i with
  | .add x => Sys2Proof.Machine.execAdd x s
  | .sub x => Sys2Proof.Machine.execSub x s
  | .mul x => Sys2Proof.Machine.execMul x s
  | .mulh x => Sys2Proof.Machine.execMulh x s
  | .div x => Sys2Proof.Machine.execDiv x s
  | .rem x => Sys2Proof.Machine.execRem x s
  | .and x => Sys2Proof.Machine.execAnd x s
  | .or x => Sys2Proof.Machine.execOr x s
  | .xor x => Sys2Proof.Machine.execXor x s
  | .andn x => Sys2Proof.Machine.execAndn x s
  | .shl x => Sys2Proof.Machine.execShl x s
  | .shr x => Sys2Proof.Machine.execShr x s
  | .sar x => Sys2Proof.Machine.execSar x s
  | .rot x => Sys2Proof.Machine.execRot x s
  | .min x => Sys2Proof.Machine.execMin x s
  | .max x => Sys2Proof.Machine.execMax x s
  | .clz x => Sys2Proof.Machine.execClz x s
  | .ctz x => Sys2Proof.Machine.execCtz x s
  | .popc x => Sys2Proof.Machine.execPopc x s
  | .bext x => Sys2Proof.Machine.execBext x s
  | .bdep x => Sys2Proof.Machine.execBdep x s
  | .sel x => Sys2Proof.Machine.execSel x s
  | .addi x => Sys2Proof.Machine.execAddi x s
  | .cmp x => Sys2Proof.Machine.execCmp x s
  | .li x => Sys2Proof.Machine.execLi x s
  | .b x => Sys2Proof.Machine.execB x s
  | .bc x => Sys2Proof.Machine.execBc x s
  | .call x => Sys2Proof.Machine.execCall x s
  | .jmp x => Sys2Proof.Machine.execJmp x s
  | .jmpCall x => Sys2Proof.Machine.execJmpCall x s
  | .ret x => Sys2Proof.Machine.execRet x s
  | .callq x => Sys2Proof.Machine.execCallq x s
  | .park x => Sys2Proof.Machine.execPark x s
  | .halt x => Sys2Proof.Machine.execHalt x s
  | .yieldCore x => Sys2Proof.Machine.execYieldCore x s
  | .ld x => Sys2Proof.Machine.execLd x s
  | .st x => Sys2Proof.Machine.execSt x s
  | .ldc x => Sys2Proof.Machine.execLdc x s
  | .stc x => Sys2Proof.Machine.execStc x s
  | .amo x => Sys2Proof.Machine.execAmo x s
  | .fenceSv x => Sys2Proof.Machine.execFenceSv x s
  | .fenceVs x => Sys2Proof.Machine.execFenceVs x s
  | .fenceVv x => Sys2Proof.Machine.execFenceVv x s
  | .fenceAll x => Sys2Proof.Machine.execFenceAll x s
  | .tfence x => Sys2Proof.Machine.execTfence x s
  | .cwb x => Sys2Proof.Machine.execCwb x s
  | .iinv x => Sys2Proof.Machine.execIinv x s
  | .ifence x => Sys2Proof.Machine.execIfence x s
  | .cbound x => Sys2Proof.Machine.execCbound x s
  | .cnarrow x => Sys2Proof.Machine.execCnarrow x s
  | .caddr x => Sys2Proof.Machine.execCaddr x s
  | .cinc x => Sys2Proof.Machine.execCinc x s
  | .cget x => Sys2Proof.Machine.execCget x s
  | .ctest x => Sys2Proof.Machine.execCtest x s
  | .cmov x => Sys2Proof.Machine.execCmov x s
  | .vmode x => Sys2Proof.Machine.execVmode x s
  | .setvl x => Sys2Proof.Machine.execSetvl x s
  | .vadd x => Sys2Proof.Machine.execVadd x s
  | .vsub x => Sys2Proof.Machine.execVsub x s
  | .vmul x => Sys2Proof.Machine.execVmul x s
  | .vmulh x => Sys2Proof.Machine.execVmulh x s
  | .vand x => Sys2Proof.Machine.execVand x s
  | .vor x => Sys2Proof.Machine.execVor x s
  | .vxor x => Sys2Proof.Machine.execVxor x s
  | .vandn x => Sys2Proof.Machine.execVandn x s
  | .vshl x => Sys2Proof.Machine.execVshl x s
  | .vshr x => Sys2Proof.Machine.execVshr x s
  | .vsar x => Sys2Proof.Machine.execVsar x s
  | .vmin x => Sys2Proof.Machine.execVmin x s
  | .vmax x => Sys2Proof.Machine.execVmax x s
  | .vabs x => Sys2Proof.Machine.execVabs x s
  | .vneg x => Sys2Proof.Machine.execVneg x s
  | .vmacc x => Sys2Proof.Machine.execVmacc x s
  | .vsat x => Sys2Proof.Machine.execVsat x s
  | .vsel x => Sys2Proof.Machine.execVsel x s
  | .vfadd x => Sys2Proof.Machine.execVfadd x s
  | .vfsub x => Sys2Proof.Machine.execVfsub x s
  | .vfmul x => Sys2Proof.Machine.execVfmul x s
  | .vfmin x => Sys2Proof.Machine.execVfmin x s
  | .vfmax x => Sys2Proof.Machine.execVfmax x s
  | .vfabs x => Sys2Proof.Machine.execVfabs x s
  | .vfneg x => Sys2Proof.Machine.execVfneg x s
  | .vfdiv x => Sys2Proof.Machine.execVfdiv x s
  | .vfsqrt x => Sys2Proof.Machine.execVfsqrt x s
  | .vfrsq x => Sys2Proof.Machine.execVfrsq x s
  | .vfexp2 x => Sys2Proof.Machine.execVfexp2 x s
  | .vfma x => Sys2Proof.Machine.execVfma x s
  | .vfms x => Sys2Proof.Machine.execVfms x s
  | .vfnma x => Sys2Proof.Machine.execVfnma x s
  | .vfnms x => Sys2Proof.Machine.execVfnms x s
  | .vcmp x => Sys2Proof.Machine.execVcmp x s
  | .vfcmp x => Sys2Proof.Machine.execVfcmp x s
  | .pand x => Sys2Proof.Machine.execPand x s
  | .por x => Sys2Proof.Machine.execPor x s
  | .pxor x => Sys2Proof.Machine.execPxor x s
  | .pnot x => Sys2Proof.Machine.execPnot x s
  | .pfirst x => Sys2Proof.Machine.execPfirst x s
  | .pcount x => Sys2Proof.Machine.execPcount x s
  | .vexit x => Sys2Proof.Machine.execVexit x s
  | .vperm x => Sys2Proof.Machine.execVperm x s
  | .vslideUp x => Sys2Proof.Machine.execVslideUp x s
  | .vslideDn x => Sys2Proof.Machine.execVslideDn x s
  | .vbcast x => Sys2Proof.Machine.execVbcast x s
  | .vcompress x => Sys2Proof.Machine.execVcompress x s
  | .vexpand x => Sys2Proof.Machine.execVexpand x s
  | .vzip x => Sys2Proof.Machine.execVzip x s
  | .vunzip x => Sys2Proof.Machine.execVunzip x s
  | .vred x => Sys2Proof.Machine.execVred x s
  | .vscan x => Sys2Proof.Machine.execVscan x s
  | .vshlw x => Sys2Proof.Machine.execVshlw x s
  | .vshrw x => Sys2Proof.Machine.execVshrw x s
  | .vfshlw x => Sys2Proof.Machine.execVfshlw x s
  | .vfshrw x => Sys2Proof.Machine.execVfshrw x s
  | .vld x => Sys2Proof.Machine.execVld x s
  | .vlds x => Sys2Proof.Machine.execVlds x s
  | .vldx x => Sys2Proof.Machine.execVldx x s
  | .vldff x => Sys2Proof.Machine.execVldff x s
  | .vldseg x => Sys2Proof.Machine.execVldseg x s
  | .vst x => Sys2Proof.Machine.execVst x s
  | .vsts x => Sys2Proof.Machine.execVsts x s
  | .vstx x => Sys2Proof.Machine.execVstx x s
  | .vstseg x => Sys2Proof.Machine.execVstseg x s
  | .vcvt x => Sys2Proof.Machine.execVcvt x s
  | .vquant x => Sys2Proof.Machine.execVquant x s
  | .vdequant x => Sys2Proof.Machine.execVdequant x s
  | .vbind x => Sys2Proof.Machine.execVbind x s
  | .vunbind x => Sys2Proof.Machine.execVunbind x s
  | .mldt x => Sys2Proof.Machine.execMldt x s
  | .mldtT x => Sys2Proof.Machine.execMldtT x s
  | .mrow x => Sys2Proof.Machine.execMrow x s
  | .mrowa x => Sys2Proof.Machine.execMrowa x s
  | .mzero x => Sys2Proof.Machine.execMzero x s
  | .mswap x => Sys2Proof.Machine.execMswap x s
  | .mchain x => Sys2Proof.Machine.execMchain x s
  | .mtbl x => Sys2Proof.Machine.execMtbl x s
  | .mdrain x => Sys2Proof.Machine.execMdrain x s
  | .epush x => Sys2Proof.Machine.execEpush x s
  | .epop x => Sys2Proof.Machine.execEpop x s
  | .epopNw x => Sys2Proof.Machine.execEpopNw x s
  | .eqstat x => Sys2Proof.Machine.execEqstat x s
  | .evpop x => Sys2Proof.Machine.execEvpop x s
  | .evpopNw x => Sys2Proof.Machine.execEvpopNw x s
  | .dpush x => Sys2Proof.Machine.execDpush x s
  | .dpop x => Sys2Proof.Machine.execDpop x s
  | .dsteal x => Sys2Proof.Machine.execDsteal x s
  | .lpatch x => Sys2Proof.Machine.execLpatch x s
  | .larmPlace x => Sys2Proof.Machine.execLarmPlace x s
  | .larmArm x => Sys2Proof.Machine.execLarmArm x s
  | .larmDisarm x => Sys2Proof.Machine.execLarmDisarm x s
  | .tfork x => Sys2Proof.Machine.execTfork x s
  | .treward x => Sys2Proof.Machine.execTreward x s
  | .tbar x => Sys2Proof.Machine.execTbar x s
  | .tcancel x => Sys2Proof.Machine.execTcancel x s
  | .tadv x => Sys2Proof.Machine.execTadv x s
  | .tadvNw x => Sys2Proof.Machine.execTadvNw x s
  | .sspawn x => Sys2Proof.Machine.execSspawn x s
  | .sresolve x => Sys2Proof.Machine.execSresolve x s
  | .sresolveFree x => Sys2Proof.Machine.execSresolveFree x s
  | .slk x => Sys2Proof.Machine.execSlk x s
  | .slkSeg x => Sys2Proof.Machine.execSlkSeg x s
  | .slkCond x => Sys2Proof.Machine.execSlkCond x s
  | .clset x => Sys2Proof.Machine.execClset x s
  | .clrun x => Sys2Proof.Machine.execClrun x s
  | .vdefer x => Sys2Proof.Machine.execVdefer x s
  | .vdrain x => Sys2Proof.Machine.execVdrain x s
  | .qePush x => Sys2Proof.Machine.execQePush x s
  | .qePop x => Sys2Proof.Machine.execQePop x s
  | .qeStat x => Sys2Proof.Machine.execQeStat x s
  | .qeWait x => Sys2Proof.Machine.execQeWait x s
  | .qaPush x => Sys2Proof.Machine.execQaPush x s
  | .qaStat x => Sys2Proof.Machine.execQaStat x s
  | .qbPush x => Sys2Proof.Machine.execQbPush x s
  | .qbStat x => Sys2Proof.Machine.execQbStat x s
  | .qdPop x => Sys2Proof.Machine.execQdPop x s
  | .qdStat x => Sys2Proof.Machine.execQdStat x s
  | .qsStrip x => Sys2Proof.Machine.execQsStrip x s
  | .qsScale x => Sys2Proof.Machine.execQsScale x s
  | .qsEnd x => Sys2Proof.Machine.execQsEnd x s
  | .qvFence x => Sys2Proof.Machine.execQvFence x s
  | .qvEvent x => Sys2Proof.Machine.execQvEvent x s
  | .qvWait x => Sys2Proof.Machine.execQvWait x s
  | .roustaboutFence x => Sys2Proof.Machine.execRoustaboutFence x s
  | .roustaboutAmo x => Sys2Proof.Machine.execRoustaboutAmo x s
  | .roustaboutInstruction x => Sys2Proof.Machine.execRoustaboutInstruction x s
  | .lysyoEnd x => Sys2Proof.Machine.execLysyoEnd x s
  | .lysyoLi x => Sys2Proof.Machine.execLysyoLi x s
  | .lysyoLih x => Sys2Proof.Machine.execLysyoLih x s
  | .lysyoAddi x => Sys2Proof.Machine.execLysyoAddi x s
  | .lysyoAdd x => Sys2Proof.Machine.execLysyoAdd x s
  | .lysyoSub x => Sys2Proof.Machine.execLysyoSub x s
  | .lysyoAnd x => Sys2Proof.Machine.execLysyoAnd x s
  | .lysyoOr x => Sys2Proof.Machine.execLysyoOr x s
  | .lysyoXor x => Sys2Proof.Machine.execLysyoXor x s
  | .lysyoShl x => Sys2Proof.Machine.execLysyoShl x s
  | .lysyoShr x => Sys2Proof.Machine.execLysyoShr x s
  | .lysyoMinu x => Sys2Proof.Machine.execLysyoMinu x s
  | .lysyoMaxu x => Sys2Proof.Machine.execLysyoMaxu x s
  | .ldpk x => Sys2Proof.Machine.execLdpk x s
  | .stpk x => Sys2Proof.Machine.execStpk x s
  | .ldrg x => Sys2Proof.Machine.execLdrg x s
  | .ldwn x => Sys2Proof.Machine.execLdwn x s
  | .stwn x => Sys2Proof.Machine.execStwn x s
  | .beq x => Sys2Proof.Machine.execBeq x s
  | .bne x => Sys2Proof.Machine.execBne x s
  | .bltu x => Sys2Proof.Machine.execBltu x s
  | .lysyoLoop x => Sys2Proof.Machine.execLysyoLoop x s
  | .time x => Sys2Proof.Machine.execTime x s
  | .qinfo x => Sys2Proof.Machine.execQinfo x s
  | .illegalInstruction core => Sys2Proof.Machine.execIllegalInstruction core s
  | .vectorPush core => Sys2Proof.Machine.execVectorPush core s
  | .issue x => Sys2Proof.Machine.execIssue x s
  | .performLoad x => Sys2Proof.Machine.execPerformLoad x s
  | .performStore x => Sys2Proof.Machine.execPerformStore x s
  | .evict1 core line => Sys2Proof.Machine.execEvict1 core line s
  | .evict2 die line => Sys2Proof.Machine.execEvict2 die line s
  | .commit core => Sys2Proof.Machine.execCommit core s
  | .haltStep slot => Sys2Proof.Machine.execHaltStep slot s
  | .trap slot => Sys2Proof.Machine.execTrap slot s
  | .trapRecordPost queue => Sys2Proof.Machine.execTrapRecordPost queue s
  | .parkWake slot => Sys2Proof.Machine.execParkWake slot s
  | .runStop x => Sys2Proof.Machine.execRunStop x s
  | .runRun x => Sys2Proof.Machine.execRunRun x s
  | .runStep x => Sys2Proof.Machine.execRunStep x s
  | .commitRootcap x => Sys2Proof.Machine.execCommitRootcap x s
  | .commitVlcap x => Sys2Proof.Machine.execCommitVlcap x s
  | .commitAtp x => Sys2Proof.Machine.execCommitAtp x s
  | .commitApply slot => Sys2Proof.Machine.execCommitApply slot s
  | .controlStore x => Sys2Proof.Machine.execControlStore x s
  | .sscfgStore x => Sys2Proof.Machine.execSscfgStore x s
  | .hostAccess x => Sys2Proof.Machine.execHostAccess x s
  | .engineRefuse x => Sys2Proof.Machine.execEngineRefuse x s
  | .enginePerform x => Sys2Proof.Machine.execEnginePerform x s
  | .enginePost x => Sys2Proof.Machine.execEnginePost x s
  | .linkCommandStart x => Sys2Proof.Machine.execLinkCommandStart x s
  | .linkCommandPause x => Sys2Proof.Machine.execLinkCommandPause x s
  | .enginePause x => Sys2Proof.Machine.execEnginePause x s
  | .engineUnpause x => Sys2Proof.Machine.execEngineUnpause x s
  | .mldtReadDone core => Sys2Proof.Machine.execMldtReadDone core s
  | .tileReload core tile => Sys2Proof.Machine.execTileReload core tile s
  | .laneGrant cluster => Sys2Proof.Machine.execLaneGrant cluster s
  | .idleSearch core => Sys2Proof.Machine.execIdleSearch core s
  | .idleSearchTimeout core => Sys2Proof.Machine.execIdleSearchTimeout core s
  | .placementAim die region => Sys2Proof.Machine.execPlacementAim die region s
  | .placementWithdraw gang => Sys2Proof.Machine.execPlacementWithdraw gang s
  | .gangStart gang => Sys2Proof.Machine.execGangStart gang s
  | .gangEnd gang => Sys2Proof.Machine.execGangEnd gang s
  | .preemptRequest die region => Sys2Proof.Machine.execPreemptRequest die region s
  | .preemptHalt slot => Sys2Proof.Machine.execPreemptHalt slot s
  | .scrub core => Sys2Proof.Machine.execScrub core s
  | .troupeTimeout t => Sys2Proof.Machine.execTroupeTimeout t s
  | .troupeRelease t => Sys2Proof.Machine.execTroupeRelease t s
  | .hold x => Sys2Proof.Machine.execHold x s
  | .resume x => Sys2Proof.Machine.execResume x s
  | .release x => Sys2Proof.Machine.execRelease x s
  | .cancel x => Sys2Proof.Machine.execCancel x s
  | .siblingEnd slot => Sys2Proof.Machine.execSiblingEnd slot s
  | .prunedSegmentEnd slot => Sys2Proof.Machine.execPrunedSegmentEnd slot s
  | .segmentPark core => Sys2Proof.Machine.execSegmentPark core s
  | .migrateStall x => Sys2Proof.Machine.execMigrateStall x s
  | .migrateDrain old => Sys2Proof.Machine.execMigrateDrain old s
  | .migrateCopy old => Sys2Proof.Machine.execMigrateCopy old s
  | .migrateSwitch old => Sys2Proof.Machine.execMigrateSwitch old s
  | .migrateRelease old => Sys2Proof.Machine.execMigrateRelease old s
  | .pageRequestPost part => Sys2Proof.Machine.execPageRequestPost part s
  | .prqhead x => Sys2Proof.Machine.execPrqhead x s
  | .prreply x => Sys2Proof.Machine.execPrreply x s
  | .replyRecordJoin slot => Sys2Proof.Machine.execReplyRecordJoin slot s
  | .notify x => Sys2Proof.Machine.execNotify x s
  | .head x => Sys2Proof.Machine.execHead x s
  | .queueScan queue => Sys2Proof.Machine.execQueueScan queue s
  | .waitSignalWake queue => Sys2Proof.Machine.execWaitSignalWake queue s
  | .arbitrationStep fe => Sys2Proof.Machine.execArbitrationStep fe s
  | .holdRelease fe queue => Sys2Proof.Machine.execHoldRelease fe queue s
  | .holdTimeout fe queue => Sys2Proof.Machine.execHoldTimeout fe queue s
  | .launchStep fe queue => Sys2Proof.Machine.execLaunchStep fe queue s
  | .packetCompletion queue index => Sys2Proof.Machine.execPacketCompletion queue index s
  | .map x => Sys2Proof.Machine.execMap x s
  | .unmap x => Sys2Proof.Machine.execUnmap x s
  | .periodEnd pmeas => Sys2Proof.Machine.execPeriodEnd pmeas s
  | .backgroundUnit activity unit => Sys2Proof.Machine.execBackgroundUnit activity unit s
  | .snapcut mask => Sys2Proof.Machine.execSnapcut mask s
  | .snapForcedCopy die page => Sys2Proof.Machine.execSnapForcedCopy die page s
  | .snapBackgroundCopy die => Sys2Proof.Machine.execSnapBackgroundCopy die s
  | .pseal x => Sys2Proof.Machine.execPseal x s
  | .punseal x => Sys2Proof.Machine.execPunseal x s
  | .openSession x => Sys2Proof.Machine.execOpenSession x s
  | .report x => Sys2Proof.Machine.execReport x s
  | .close x => Sys2Proof.Machine.execClose x s
  | .kload x => Sys2Proof.Machine.execKload x s
  | .hprep x => Sys2Proof.Machine.execHprep x s
  | .hoffer x => Sys2Proof.Machine.execHoffer x s
  | .erase x => Sys2Proof.Machine.execErase x s
  | .haccept x => Sys2Proof.Machine.execHaccept x s
  | .tgo x => Sys2Proof.Machine.execTgo x s
  | .uncorrectableEviction level unit line => Sys2Proof.Machine.execUncorrectableEviction level unit line s
  | .eccPatrol line uncorrectable => Sys2Proof.Machine.execEccPatrol line uncorrectable s
  | .frontEndTableError fe => Sys2Proof.Machine.execFrontEndTableError fe s
  | .calliopeFailure fe => Sys2Proof.Machine.execCalliopeFailure fe s
  | .ferestart x => Sys2Proof.Machine.execFerestart x s
  | .powerUp reason => Sys2Proof.Machine.execPowerUp reason s
  | .imggo x => Sys2Proof.Machine.execImggo x s
  | .peerPortAccess x => Sys2Proof.Machine.execPeerPortAccess x s
  | .peerLinkChange port up => Sys2Proof.Machine.execPeerLinkChange port up s
  | .unitPowerGate u => Sys2Proof.Machine.execUnitPowerGate u s
  | .unitPowerUp u => Sys2Proof.Machine.execUnitPowerUp u s

end Sys2Proof.Machine
end

