-- ==== Sys2Proof/Machine/Early.lean ====
section
/-! DEFINITION. Loads of the control thread that perform before older branches have resolved (R118). -/

namespace Sys2Proof.Machine

/-- What an LD or an LDC asks for (R85, R160): its modifiers, the registers and the offset of its address, its bytes, scope and
hint, and whether it is an LDC. -/
structure EarlyReq where
  m : Mods
  a : CReg
  c : GReg
  off : Int
  size : Nat
  scope : Scope
  hint : Nat
  cap : Bool
  deriving DecidableEq, Repr

/-- The load that an instruction asks for with the registers as they stand; none of another instruction, or of a poisoned index. -/
def earlyReq (c : Ctx) : Instr → Option EarlyReq
  | .ld x =>
    if gPoison c x.c then none
    else some { m := x.m, a := x.a, c := x.c, off := memOff (gVal c x.c) x.imm, size := x.ty.width / 8,
                scope := scopeGet x.scope .core, hint := x.hint.toNat, cap := false }
  | .ldc x =>
    some { m := x.m, a := x.a, c := 0, off := immInt x.imm, size := 16, scope := scopeGet x.scope .core, hint := x.hint.toNat,
           cap := true }
  | _ => none

/-- May the thread of the acting core run ahead at all: it runs, and nothing that comes before its next instruction is due? -/
def mayRunAhead (s : State) : Bool :=
  let c := s.cur
  s.hold && (s.coreAt s.core).slot.isSome && c.h.run != 0 && c.trap.isNone && c.halt.isNone && !commitPending c &&
    c.segPark.isNone && c.parked.isNone && c.firstAcq.isNone && c.car.cln == 0

/-- Must bytes of the acting core's thread not be read early: an access that waits, or a load already performed early, comes first
(R118), or their page migrates (R135)? Waiting stores give their bytes, but for those of an RSTATE word (R314). -/
def earlyBarred (s : State) (pa n : Nat) : Bool :=
  let ws := waitingOf s s.core .control
  migrating s pa || behindRstate s (ws.filter isStore) [(pa, n)] ||
    (s.coreAt s.core).early.any (fun e => rangeMeets (e.pa, e.size) (pa, n)) ||
    ws.any (fun a => isAmo a || (!isStore a && (accRanges a).any (rangeMeets (pa, n))))

/-- The load that the acting core's thread would make at an address, with the physical address where it passes its checks: no
control address, aligned, its address registers known. The checks leave no trace: they are made again when the load executes. -/
def earlyPlace (s : State) (pc : Word) : Option (EarlyReq × Nat × BitVec 2) :=
  match fetchInstr pc s with
  | .error _ _ => none
  | .ok ws _ =>
    match (decodeWords ws).bind (earlyReq s.cur) with
    | none => none
    | some r =>
      let cap := readC s.cur r.a
      if !active r.m s.cur 0 || awaited s s.core (if r.cap then [] else [r.c]) [r.a] || (r.cap && !capHas cap .lcap) then none
      else
        match ctlCheck cap r.off r.size .load .read r.scope s with
        | .ok (.ok pa) s' =>
          if inCtl pa || pa % r.size != 0 || earlyBarred s pa r.size then none else some (r, pa, s'.code)
        | _ => none

/-- PerformLoad (R116, R118) of the load at an address that the thread of core `k` has not reached: its value stands for the load
until an instruction comes between that it depends on (notes/assumptions/82.md). -/
def earlyLoad (s : State) (k : Nat) (pc : Word) : State :=
  let t := { s with core := k, party := .control }
  if !mayRunAhead t || (t.coreAt k).early.any (fun e => e.pc == pc) then s
  else
    match earlyPlace t pc with
    | none => s
    | some (r, pa, code) =>
      let stores := (waitingOf t k .control).filter isStore
      let (u, bs, tag) :=
        if r.cap then
          let (u, bs, g) := loadPiece { t with code := code } k (ctxWsets t t.cur) pa 16 r.scope r.hint
          (u, bs, forwardedTag stores pa (g.getLsbD (pa % 64 / 16)))
        else
          let (u, bs) := ctxLoad { t with code := code } k pa r.size r.scope r.hint
          (u, bs, false)
      let e : EarlyLoad := { pc := pc, a := r.a, c := r.c, pa := pa, size := r.size, scope := r.scope,
                             value := BitVec.ofNat 128 (natOfBytes (forwarded stores pa bs)), tag := tag }
      { u.modCore k (fun x => { x with early := x.early ++ [e] }) with core := s.core, party := s.party, code := s.code }

end Sys2Proof.Machine
end

