-- ==== Sys2Proof/Machine/Plan.lean ====
section
/-! DEFINITION. What each kind of turn runs: threads, roustabouts (R259, R263), calliopes (R385, R386), the part's own
steps, and the clocks (R342, R374); and what follows a turn. -/

namespace Sys2Proof.Machine

/-- The default loader's next move (R281); a trap waits for the context's boundary (R108). -/
def runLoader (s : State) : State :=
  match loaderTurn s with
  | .ok _ s' => s'
  | .error (.trap t) s' => raiseFor s'.slot { t with party := 2 } s'
  | .error .wait s' => s'

/-- What a roustabout does at its turn: nothing while its context is stopped, halts or is parked at its segment (R368), or while
it is idle (R263); a fetch outside the instruction store traps (R259), and so does what is no instruction (R72): DETAIL0 is then
the word and DETAIL1 the party's code (notes/assumptions/14.md). The default loader has no instructions: it makes its next
move (R281). -/
def planRoustabout (storer : Bool) (s : State) : Plan :=
  match (s.coreAt s.core).slot with
  | none => .done s
  | some slot =>
    let c := s.ctxAt slot
    let r := roustOf c storer
    if c.h.run = 0 || c.trap.isSome || c.halt.isSome || c.segPark.isSome || r.idle then .done s
    else if r.dflt.isSome && !storer then .done (runLoader (withFirstAcq s))
    else
      let s := withFirstAcq s
      let party := if storer then 3 else 2
      let w : Word32 := BitVec.ofNat 32 (wordAtPc r)
      let trap (cause : BitVec 16) (d0 d1 : Word) : Plan :=
        .done (raiseFor slot { cause := cause, party := party, detail0 := d0, detail1 := d1, poisonPc := 0 } s)
      if r.pc.toNat % 2 ≠ 0 || 0x4000 ≤ r.pc.toNat || (r.pc == 0x3FFE && field w 0 2 = 3) then
        trap cRaddr r.pc (Config.freeWord s.fresh)
      else
        match decodeRoustabout w with
        | some i => (match xReady i s with
          | some s' => .run i s'
          | none => .done s)
        | none => trap cIllegal (w.setWidth 64) (BitVec.ofNat 64 party)

/-- The instruction that a calliope runs (R386). -/
def planCalliope (f : Nat) (s : State) : Plan :=
  match (s.feAt f).run with
  | none => .done s
  | some r =>
    match (((lookupKey r.queue (s.feAt f).progs).getD [])[r.index]?).bind decodeLysyo with
    | some i => .run i s
    | none => .done s

/-- Is a row an instruction that some agent fetches, rather than a step of the part? -/
def fetched (i : Instr) : Bool := (toFields i).isSome || (encodeOther i).isSome

/-- One clock counted by a troupe that counts; a nonzero time-out reached closes it (R342). -/
def countTroupe (x : Troupe) : Troupe :=
  let x := { x with counted := x.counted + 1 }
  if x.tstat = 0 && x.timeout != 0 && decide (x.timeout ≤ x.counted) then closeTroupe x false else x

/-- One clock of a cluster: the troupes homed there that count toward their time-out count it (R342). -/
def clusterTick (c : Nat) (s : State) : State :=
  let s := s.modCluster c (fun x => { x with clock := x.clock + 1 })
  { s with troupes := s.troupes.map (fun p =>
      if p.2.home = c && p.2.counting && !p.2.held then (p.1, countTroupe p.2) else p) }

/-- A line leaves the instruction cache of a core, and what its thread has fetched ahead (R70, notes/assumptions/74.md). -/
def dropFetchedLine (s : State) (k l : Nat) : State :=
  s.modCore k (fun c => { c with icache := eraseKey l c.icache, ahead := eraseKey l c.ahead })

/-- What a turn runs. -/
def planTurn (t : Turn) (s : State) : Plan :=
  match t with
  | .thread k => if corePresent s k then planThread { s with core := k, party := .control } else .absent .noSuchCore
  | .roustabout k st =>
    if corePresent s k then planRoustabout st { s with core := k, party := if st then .storer else .loader }
    else .absent .noSuchCore
  | .calliope f => if f < 8 then planCalliope f { s with fe := f } else .absent .noSuchFrontEnd
  | .event i => if fetched i then .done s else .run i s
  | .dropFetched k l => .done (if corePresent s k then dropFetchedLine s k l else s)
  | .fetchAhead k l => .done (if corePresent s k then fetchAhead s k l else s)
  | .earlyLoad k pc => .done (if corePresent s k then earlyLoad s k pc else s)
  | .tileGranule k i => .done (match (s.coreAt k).slot with
    | some slot => if corePresent s k then tileGranule s slot i else s
    | none => s)
  | .evictSide l => .done (evictSide s l)
  | .lineError l => .done (lineError s l)
  | .engineError n => .done (engineError s n)
  | .clusterClock c => .done (clusterTick c s)
  | .frontEndClock f =>
    if f < 8 then .done (s.modFe f (fun x => { x with time := x.time + 1 })) else .absent .noSuchFrontEnd

/-- The turn that comes next: the first of the agenda, or the control thread of the acting core. -/
def nextTurn (s : State) : Turn × State :=
  match s.agenda with
  | [] => (.thread s.core, s)
  | t :: rest => (t, { s with agenda := rest })

/-- What follows the run of a row in a turn, from the state before it. -/
def afterTurn (t : Turn) (before : State) (i : Instr) (s : State) : State :=
  match t with
  | .thread _ =>
    if fetched i then afterThread before.slot before.cur.h.pc before.cur.h.run i s else s
  | _ => s

/-- What follows every turn: the threads that watch a word of control space which the turn changed wake (R111), staged writes that
have completed end (R421), and so do the stores that await a halt (R101). -/
def finishTurn (before after : State) : State :=
  hostAnswer (settleHalts (settleStaging (wakeWatchers before after)))

end Sys2Proof.Machine
end

