-- ==== Sys2Proof/Machine/Step.lean ====
section
/-! DEFINITION. One step of the machine: the next turn runs. -/

namespace Sys2Proof.Machine

/-- The run of a turn. -/
def stepTurn (t : Turn) (s : State) : Host.Outcome State Fault Refusal :=
  match planTurn t s with
  | .done s' => .next (finishTurn s s')
  | .absent f => .fault f
  | .run i s' =>
    match exec i s' with
    | .next s'' => .next (finishTurn s (afterTurn t s' i s''))
    | .fault f => .fault f
    | .refused r => .refused r

/-- One step: the next turn of the agenda, or of the acting core's control thread (notes/assumptions/1.md). -/
def step (s : State) : Host.Outcome State Fault Refusal := stepTurn (nextTurn s).1 (nextTurn s).2

/-- The state with an instruction of the opcode table standing where the next step takes its instruction from
(notes/assumptions/9.md). -/
def State.withFetchWord (s : State) (nbits w : Nat) : State :=
  match decodeTableWord nbits w with
  | none => placeNymzin s (tableWords (w % 2 ^ nbits))
  | some i =>
    if (toFields i).isSome then placeNymzin s (tableWords (w % 2 ^ nbits))
    else
      match i with
      | .qePush _ | .qePop _ | .qeStat _ | .qeWait _ | .qaPush _ | .qaStat _ | .qbPush _ | .qbStat _ | .qdPop _
      | .qdStat _ | .qsStrip _ | .qsScale _ | .qsEnd _ | .qvFence _ | .qvEvent _ | .qvWait _
      | .roustaboutFence _ | .roustaboutAmo _ | .roustaboutInstruction _ =>
        placeRoust s (storerOnly i) (BitVec.ofNat 32 w)
      | _ => placeLysyo s (BitVec.ofNat 32 w)

end Sys2Proof.Machine
end

