-- ==== Sys2Proof/WellFormed.lean ====
section
/-! DEFINITION. The terms of the syntax that are instructions: what the encodings admit (R49 to R66 and the encoding table
of each family), check by check. -/

namespace Sys2Proof

open Sys2Proof.Machine

/-- Without word 1 an instruction has the default guards and no carousel flags (R53). -/
def modsOk (m : Mods) : Bool :=
  m.form.isExt || (m.pg1 == 0 && !m.ng1 && m.pg2 == 0 && !m.ng2 && !m.first && !m.last)

/-- Forms of one or three words without a literal. -/
def plainOk (m : Mods) : Bool := modsOk m && m.form.plain
/-- The extended form alone. -/
def extOk (m : Mods) : Bool := m.form == .ext

/-- A literal stands exactly in the literal forms, and then operand b is g0 (R56). -/
def litOk (m : Mods) (lit : Option Word) (b : GReg) : Bool :=
  lit.isSome == m.form.hasLit && (lit.isNone || b == 0)

/-- Without word 2 the type is .i64 and nothing saturates (R54). -/
def word2Ok (m : Mods) (ty : Ty) (sat : Bool) : Bool := m.form.isExt || (ty == .i64 && !sat)
/-- Without word 2 the immediate is zero (R54). -/
def immOk (m : Mods) (i : Imm) : Bool := m.form.isExt || i == 0

/-- Does the low part of an immediate of `n` bits give all of it by sign extension? -/
def signedIn {w : Nat} (n : Nat) (x : BitVec w) : Bool := (x.setWidth n).signExtend w == x

/-- SALU of two sources; `sats` where .sat is accepted (R144). -/
def saluOk (sats : Bool) (x : SaluArgs) : Bool :=
  modsOk x.m && x.ty.isInt8to64 && word2Ok x.m x.ty x.sat && (sats || !x.sat) && litOk x.m x.lit x.b
/-- CLZ, CTZ, POPC (R144). -/
def saluUnOk (x : SaluUnArgs) : Bool := plainOk x.m && x.ty.isInt8to64 && word2Ok x.m x.ty false
/-- B and CALL (R152). -/
def bOk (x : BArgs) : Bool := plainOk x.m && (x.m.form == .base || signedIn 21 x.off)
/-- LD and ST (R159). -/
def ldOk (x : LdArgs) : Bool :=
  plainOk x.m && x.ty.isInt8to64 && word2Ok x.m x.ty false &&
    (x.m.form.isExt || (x.scope == .dflt && x.hint == 0 && x.c == 0 && signedIn 12 x.imm))
/-- LDC and STC: the base form's immediate is a multiple of 16 (R52, R85). -/
def ldcOk (x : LdcArgs) : Bool :=
  plainOk x.m && (x.m.form.isExt || (x.scope == .dflt && x.hint == 0 && signedIn 10 x.imm && x.imm.extractLsb' 0 4 == 0))
/-- CWB and IINV (R169). -/
def cwbOk (sys : Bool) (x : CwbArgs) : Bool := plainOk x.m && immOk x.m x.imm && (sys || x.scope != .sys)
/-- VIALU of two sources (R194). -/
def vbinOk (maxw : Nat) (sats : Bool) (x : VBinArgs) : Bool :=
  extOk x.m && x.ty.widInt maxw x.wid && (sats || !x.sat)
/-- VABS and VNEG (R194). -/
def vunOk (x : VUnArgs) : Bool := extOk x.m && x.ty.isInt8to64
/-- VFALU of two sources (R195). -/
def vfbinOk (wide : Bool) (x : VfBinArgs) : Bool := extOk x.m && x.ty.widFp x.wid && (wide || x.wid == 0)
/-- A floating-point type without rounding (R195). -/
def vfTyOk (m : Mods) (ty : Ty) : Bool := extOk m && ty.isFp
/-- VFMA (R195). -/
def vfmaOk (x : VfmaArgs) : Bool := extOk x.m && x.ty.widFp x.wid
/-- A permute's type is no scale type (R200, R206). -/
def permOk (m : Mods) (ty : Ty) : Bool := extOk m && !ty.isScale
/-- VSHLW and its relatives (R205). -/
def wshOk (m : Mods) (ty : Ty) : Bool := extOk m && ty.isInt8to64
/-- VRED and VSCAN (R202). -/
def redOk (m : Mods) (k : RedKind) (ty : Ty) (rm : Rm) (sat : Bool) (wid : BitVec 2) : Bool :=
  extOk m && k.accepts ty wid && (k.rounds || rm == .rn) && (k.sats || !sat)
/-- A vector store has no zeroing form (R55). -/
def zfOk (load zf : Bool) : Bool := load || !zf
/-- VLDSEG and VSTSEG (R211). -/
def vsegOk (load : Bool) (x : VSegArgs) : Bool := extOk x.m && x.ty.isMxOf x.fine && zfOk load x.zf
/-- Stochastic rounding alone names a seed and an offset (R229). -/
def srOk (rm : Rm) (b : GReg) (off : BitVec 20) : Bool := rm == .sr || (b == 0 && off == 0)
/-- MLDT (R240). -/
def mldtOk (x : MldtArgs) : Bool := extOk x.m && x.ty.isTile && x.kind.allows x.ty
/-- MROW and MROWA (R240). -/
def mrowOk (acc : Bool) (x : MrowArgs) : Bool :=
  extOk x.m && x.ty.isTile && x.sk.kind.allows x.ty && (x.sk.usesVs || x.c == 0) &&
    (!x.sat || (acc && x.ty.isInt && x.sk == .none))
/-- A destination in a range of g registers. -/
def dIn (d : GReg) (lo hi : Nat) : Bool := decide (lo ≤ d.val) && decide (d.val ≤ hi)

/-- The shift amounts of RV64I immediates: 6 or 5 bits (R259). -/
def rvOk : RvOp → Bool
  | .jal _ off => off.getLsbD 0 == false
  | .branch _ _ _ off => off.getLsbD 0 == false
  | .opImm k _ _ imm =>
    match k with
    | .sll | .srl | .sra => decide (imm.toNat < 64)
    | .sub => false
    | _ => true
  | .opImmW k _ _ imm =>
    match k with
    | .addw => true
    | .subw => false
    | .sllw | .srlw | .sraw => decide (imm.toNat < 32)
  | _ => true

/-- Is a term an instruction that some word encodes? A step of the part is well formed as it stands. -/
def wellFormed : Instr → Bool
  | .add x | .sub x | .mul x | .div x | .shl x => saluOk true x
  | .mulh x | .rem x | .and x | .or x | .xor x | .andn x | .shr x | .sar x | .rot x | .min x | .max x
  | .bext x | .bdep x => saluOk false x
  | .clz x | .ctz x | .popc x => saluUnOk x
  | .sel x => modsOk x.m && x.m.form.isExt && x.ty.isInt8to64 && litOk x.m x.lit x.b
  | .addi x => plainOk x.m && x.ty.isInt8to64 && word2Ok x.m x.ty x.sat && (x.m.form.isExt || signedIn 12 x.imm)
  | .cmp x => modsOk x.m && x.ty.isInt8to64 && word2Ok x.m x.ty false && litOk x.m x.lit x.b
  | .li x => modsOk x.m && litOk x.m x.lit 0 && (match x.m.form with
    | .base => signedIn 18 x.imm
    | .ext => true
    | .lit | .extLit => x.imm == 0)
  | .b x | .call x => bOk x
  | .bc x => plainOk x.m && (x.m.form.isExt || signedIn 12 x.off)
  | .jmp x | .jmpCall x => plainOk x.m
  | .ret x => plainOk x.m && (x.m.form.isExt || x.k == 0)
  | .callq x => plainOk x.m
  | .park x => plainOk x.m && immOk x.m x.imm
  | .halt x | .yieldCore x | .ifence x => plainOk x.m
  | .ld x | .st x => ldOk x
  | .ldc x | .stc x => ldcOk x
  | .amo x => plainOk x.m && x.ty.isAmo && word2Ok x.m x.ty false && immOk x.m x.imm &&
      (x.m.form.isExt || (x.scope == .dflt && x.hint == 0 && x.c == 0)) && (x.kind == .cas || x.c == 0)
  | .fenceSv x | .fenceVs x | .fenceVv x | .fenceAll x => plainOk x.m
  | .tfence x => plainOk x.m && (x.m.form.isExt || x.kind == .all) && (x.kind.usesA || x.a == 0) &&
      (x.kind.usesB || x.b == 0)
  | .cwb x => cwbOk true x
  | .iinv x => cwbOk false x
  | .cbound x | .cnarrow x | .caddr x => plainOk x.m
  | .cinc x => plainOk x.m && immOk x.m x.imm
  | .cget x => plainOk x.m && (x.m.form.isExt || x.kind == .cursor)
  | .ctest x => plainOk x.m && (x.m.form.isExt || !x.eq)
  | .cmov x => plainOk x.m
  | .vmode x => extOk x.m
  | .setvl x => extOk x.m && !x.ty.isScale
  | .vadd x | .vsub x | .vmul x => vbinOk 1 true x
  | .vshl x => vbinOk 0 true x
  | .vmulh x | .vand x | .vor x | .vxor x | .vandn x | .vshr x | .vsar x | .vmin x | .vmax x => vbinOk 0 false x
  | .vabs x | .vneg x => vunOk x
  | .vmacc x => extOk x.m && (x.ty.widInt 3 x.wid || (x.ty == .i4 && x.wid == 3))
  | .vsat x => extOk x.m && x.ty.isInt8to64 && decide (1 ≤ x.k.toNat) && decide (x.k.toNat ≤ x.ty.width)
  | .vsel x => extOk x.m && x.ty.isInt8to64
  | .vfadd x | .vfsub x | .vfmul x => vfbinOk true x
  | .vfdiv x => vfbinOk false x
  | .vfmin x | .vfmax x => vfTyOk x.m x.ty
  | .vfabs x | .vfneg x => vfTyOk x.m x.ty
  | .vfsqrt x => vfTyOk x.m x.ty
  | .vfrsq x | .vfexp2 x => extOk x.m && x.ty == .f32
  | .vfma x | .vfms x | .vfnma x | .vfnms x => vfmaOk x
  | .vcmp x => extOk x.m && x.ty.isInt8to64
  | .vfcmp x => extOk x.m && x.ty.isFp
  | .pand x | .por x | .pxor x => extOk x.m
  | .pnot x | .pfirst x | .vexit x => extOk x.m
  | .pcount x => extOk x.m
  | .vperm x | .vzip x => permOk x.m x.ty
  | .vslideUp x | .vslideDn x => permOk x.m x.ty
  | .vbcast x => permOk x.m x.ty
  | .vcompress x | .vexpand x => permOk x.m x.ty
  | .vunzip x => permOk x.m x.ty
  | .vred x => redOk x.m x.kind x.ty x.rm x.sat x.wid
  | .vscan x => redOk x.m x.kind x.ty x.rm x.sat x.wid
  | .vshlw x | .vshrw x => wshOk x.m x.ty
  | .vfshlw x | .vfshrw x => wshOk x.m x.ty
  | .vld x | .vlds x | .vldff x => permOk x.m x.ty
  | .vldx x => permOk x.m x.ty
  | .vldseg x => vsegOk true x
  | .vst x | .vsts x => permOk x.m x.ty && zfOk false x.zf
  | .vstx x => permOk x.m x.ty && zfOk false x.zf
  | .vstseg x => vsegOk false x
  | .vcvt x => extOk x.m && cvtPair x.dt x.st && srOk x.rm x.b x.off && (x.rm == .rn || !(x.dt.isInt && x.st.isInt))
  | .vquant x => extOk x.m && x.dt.isMxOf x.fine && (x.st == .f32 || x.st == .bf16) && srOk x.rm x.b x.off && !x.sat
  | .vdequant x => extOk x.m && x.st.isMxOf x.fine && (x.dt == .f32 || x.dt == .bf16) && srOk x.rm x.b x.off
  | .vbind x => extOk x.m
  | .vunbind x => extOk x.m
  | .mldt x | .mldtT x => mldtOk x
  | .mrow x => mrowOk false x
  | .mrowa x => mrowOk true x
  | .mzero x => extOk x.m
  | .mswap x => extOk x.m
  | .mchain x => x.m.form.isExt && litOk x.m x.lit x.b
  | .mtbl x => extOk x.m
  | .mdrain x => extOk x.m && x.ty.isDrain
  | .epush x => modsOk x.m && immOk x.m x.stride && (x.m.form.isExt || x.c == 0) && litOk x.m x.lit x.b
  | .epop x | .epopNw x => plainOk x.m && popPort x.port
  | .eqstat x => plainOk x.m && statPort x.port
  | .evpop x | .evpopNw x => plainOk x.m && dIn x.d 1 60
  | .dpush x => plainOk x.m && immOk x.m x.k
  | .dpop x => plainOk x.m && dIn x.d 1 61
  | .dsteal x => plainOk x.m && dIn x.d 1 61
  | .lpatch x => modsOk x.m && immOk x.m x.k && litOk x.m x.lit x.b
  | .larmPlace x | .larmArm x | .larmDisarm x => plainOk x.m && immOk x.m x.k
  | .tfork x => extOk x.m && dIn x.d 1 61
  | .treward x => plainOk x.m
  | .tbar x => plainOk x.m && dIn x.d 1 62
  | .tcancel x => plainOk x.m
  | .tadv x => plainOk x.m && dIn x.d 1 62
  | .tadvNw x => extOk x.m && dIn x.d 1 62
  | .sspawn x => extOk x.m && dIn x.d 1 61
  | .sresolve x => plainOk x.m
  | .sresolveFree x => extOk x.m
  | .slk x => plainOk x.m
  | .slkSeg x => plainOk x.m
  | .slkCond x => plainOk x.m
  | .clset x => modsOk x.m && litOk x.m x.lit x.b && (x.m.form.isExt || (x.level == 0 && x.cnt == 0 && x.str == 0)) &&
      (!x.m.form.hasLit || x.str == 0)
  | .clrun x => plainOk x.m && decide (1 ≤ x.n.toNat) && decide (x.n.toNat ≤ 128)
  | .vdefer x => extOk x.m && !x.ty.isScale
  | .vdrain x => extOk x.m && !x.ty.isScale
  | .qePush x | .qePop x | .qeStat x => x.rs2 == 0
  | .qeWait x | .qaPush x | .qbPush x | .qsEnd x | .qvFence x => x.rs2 == 0 && x.rd == 0
  | .qaStat x | .qbStat x | .qdPop x | .qdStat x => x.rs2 == 0 && x.rs1 == 0
  | .qsStrip x | .qsScale x | .qvEvent x => x.rd == 0
  | .qvWait x => x.rs2 == 0
  | .roustaboutAmo x => x.op != .lr || x.rs2 == 0
  | .roustaboutInstruction x => rvOk x.op
  | .lysyoEnd x => x.rd == 0 && x.ra == 0 && decide (x.imm.toNat ≤ 2)
  | .lysyoLi x | .lysyoLih x => x.ra == 0
  | .lysyoLoop x => x.rd == 0 && x.ra == 0
  | .time x => x.ra == 0 && x.imm == 0
  | .qinfo x => x.ra == 0 && decide (x.imm.toNat ≤ 3)
  | _ => true

end Sys2Proof
end

