-- ==== Sys2Proof/Safety.lean ====
section
/-! DEFINITION. The words that claims use: what a step answers, guards, operands as numbers of a type's width, and the
state that an instruction leaves. -/

namespace Sys2Proof

open Sys2Proof.Machine

/-! ### Steps -/

/-- The step answers a next state. -/
def steps (s : State) : Prop := ∃ t, step s = .next t

/-- The memory of the state is in canonical form. -/
def memoryCanonical (s : State) : Prop := Memory.wf s.mem = true

/-- The control thread of core `k` is at an instruction boundary with nothing but its next instruction to do: it runs, and
no trap, halt, commit request, park, acquire or carousel run stands before it, nor does its segment wait. -/
def atBoundary (s : State) (k : Nat) : Bool :=
  match (s.coreAt k).slot with
  | none => false
  | some slot =>
    let c := s.ctxAt slot
    corePresent s k && c.h.run != 0 && c.trap.isNone && c.halt.isNone && !commitPending c && c.parked.isNone &&
      c.firstAcq.isNone && c.segPark.isNone && c.car.cln == 0 && field c.h.pc 0 2 == 0

/-! ### What a step runs -/

/-- The base form under guards that always pass. -/
def baseMods : Mods := { form := .base, pg1 := 0, ng1 := false, pg2 := 0, ng2 := false, first := false, last := false }

/-- The answer of a turn other than a control thread's that runs a row. -/
def stepInstr (before : State) (i : Instr) (s : State) : Host.Outcome State Fault Refusal :=
  match exec i s with
  | .next t => .next (finishTurn before t)
  | .fault f => .fault f
  | .refused r => .refused r

/-- Does some access stand in the queues of a party (R114)? -/
def anyWaiting (q : PartyQ) : Bool := !q.issue.isEmpty || !q.pending.isEmpty || !q.stores.isEmpty

/-- Must waiting accesses of the acting party come before an access to bytes of some ranges (R118): those that meet the bytes,
and AMOs (notes/assumptions/4.md)? -/
def meetsOwn (s : State) (rs : List (Nat × Nat)) : Bool :=
  let q := pqOf s s.core s.party
  (q.stores ++ q.pending ++ q.issue).any (fun a => isAmo a || (accRanges a).any (fun r => rs.any (rangeMeets r)))

/-- No load of the acting core's thread has been performed before its instruction (R118, notes/assumptions/82.md). -/
def noneEarly (s : State) : Prop := (s.coreAt s.core).early = []

/-- The state in which an access has joined the issue queue of the acting party (R114): loads performed early from its bytes stand
no longer. -/
def joinsQueue (s : State) (a : Access) : State :=
  dropEarly (modPq s s.core s.party (fun q => { q with issue := q.issue ++ [{ a with code := s.code }] })) (accRanges a)

/-- A load's access as it joins a queue. -/
def loadAccess (kind : AccKind) (pa size : Nat) (sc : Scope) (hint : Nat) : Access :=
  { n := 0, kind := kind, pa := pa, size := size, scope := sc, hint := hint, code := 0 }

/-- The answer of a control store that the acting thread of `r` makes and that leaves `u` (R101): the thread goes on, or holds its
place until the store is complete, where the store neither completes at once nor stops the thread itself. -/
def ctlStored (r : State) (pa : Nat) (v : Word) (u : State) : Out :=
  let halts := haltTargets u pa v
  let awaits := storeAwaits u pa v
  .next (if ownRun r r.slot pa = false ∧ ¬ (halts = [] ∧ storeDone u awaits pa v = true) ∧ (u.ctx? r.slot).isSome = true ∧
      (u.ctxAt r.slot).h.run ≠ 0
    then u.modCtx r.slot (fun c => { setPc c r.cur.h.pc with halting := true, awaits := awaits, awaitHalts := halts })
    else u)

/-- No access of the agents of a context's core waits (R114). -/
def quietAgents (s : State) (slot : Nat) : Bool :=
  match (s.ctxAt slot).core with
  | some k => [Party.control, .vector, .loader, .storer].all (fun p => (waitingOf s k p).isEmpty)
  | none => true

/-- The translations that a TFENCE selects dropped, and the accesses that went through them performed (R403). -/
def translationsDropped (s : State) (sc : Scope) (kind : TfKind) (a b : Word) : State :=
  (s.cores.map (·.1)).foldl (fun u k =>
    if (droppedAt s sc kind a b k).isEmpty then u else settleDropped u k (droppedAt s sc kind a b k))
    (tlbDrop s s.core sc kind a b)

/-- The word at a roustabout's pc in its instruction store. -/
def roustCode (r : Roustabout) : Word32 := BitVec.ofNat 32 (wordAtPc r)

/-- A roustabout has an instruction to run: its context runs and nothing halts it, it is not idle nor the default loader, and
its pc names a place of its instruction store (R259, R263). -/
def roustReady (s : State) (slot : Nat) (storer : Bool) : Bool :=
  let c := s.ctxAt slot
  let r := roustOf c storer
  c.h.run != 0 && c.trap.isNone && c.halt.isNone && c.segPark.isNone && c.firstAcq.isNone && !r.idle && !(r.dflt.isSome && !storer) && r.pc.toNat % 2 == 0 &&
    decide (r.pc.toNat < 0x4000) && !(r.pc == 0x3FFE && field (roustCode r) 0 2 == 3)

/-- A fetch at an address that nothing turns away, in bare mode: the program capability covers it, it lies in memory outside
every window, no page of it migrates, no session protects it, no error lies in it, neither the instruction cache, nor
the words fetched ahead (R171), nor the die's level two holds its line, and none has left the memory side. -/
def fetchClear (s : State) (va : Word) : Bool :=
  let c := s.cur
  let pa := va.toNat
  field c.h.atp 60 4 == 0 &&
    (match capCheck c.h.pcap (uint va - uint (capCursor c.h.pcap)) 4 .exec with
     | .ok a => a == pa
     | .error _ => false) &&
    (windowPa s (ctxXer s) pa).isNone && inMemory s pa && !inCtl pa && !migrating s pa && !inPewter pa && !inPeer pa &&
    !refusedTo s c.h.region pa && !memErrAt s s.core .core pa 4 && pa % 4 == 0 &&
    (lookupKey (lineOf pa) (s.coreAt s.core).icache).isNone &&
    (lookupKey (lineOf pa) (s.coreAt s.core).ahead).isNone && (s.l2Line (dieOf s.core) (lineOf pa)).isNone &&
    s.side.isEmpty

/-! ### The control thread -/

/-- Does the guard of a scalar instruction pass (R32)? -/
def passes (m : Mods) (s : State) : Bool := active m s.cur 0

/-- The answer of an instruction that changes the acting context alone. -/
def changes (s : State) (f : Ctx → Ctx) : Out := .next (s.modCur f)

/-- The low bits of a register at a type's width. -/
def tyBits (t : Ty) (w : Word) : BitVec t.width := w.setWidth t.width

/-- Bits of a type's width as a register holds them: sign-extended for a signed type, zero-extended otherwise (R145). -/
def widen (t : Ty) (b : BitVec t.width) : Word := if t.signed then b.signExtend 64 else b.setWidth 64

/-- Operand b of a context, or the literal that replaces it (R56). -/
def srcB (c : Ctx) (b : GReg) (lit : Option Word) : Word := lit.getD (gVal c b)

/-- Is operand b poisoned? A literal never is (R144). -/
def srcBPoison (c : Ctx) (b : GReg) (lit : Option Word) : Bool := lit.isNone && gPoison c b

/-- The origin that a result inherits: that of the first poisoned source (R141). -/
def originOf2 (c : Ctx) (a b : GReg) (lit : Option Word) : Word × BitVec 16 :=
  if gPoison c a then gOrigin c a else if srcBPoison c b lit then gOrigin c b else (0, 0)

/-- A SALU instruction's destination and pc (R145): the value with the poison and origin of its sources. -/
def saluLeaves (m : Mods) (d a b : GReg) (lit : Option Word) (v : Word) (c : Ctx) : Ctx :=
  setPc (writeGq c d v (gPoison c a || srcBPoison c b lit) (originOf2 c a b lit)) (nextPc c m)

/-- The number of 1 bits of a pattern below bit `i`. -/
def onesBelow {n : Nat} (x : BitVec n) : Nat → Nat
  | 0 => 0
  | i + 1 => onesBelow x i + (if x.getLsbD i then 1 else 0)

/-- An integer clamped to a range. -/
def clamp (lo hi z : Int) : Int := max lo (min hi z)

/-- Operations of SALU on patterns of `n` bits (R145 to R147); the Bool says whether the type is signed. -/
abbrev BitsOp := (n : Nat) → Bool → BitVec n → BitVec n → BitVec n

/-- SALU instructions of two sources, with what each makes of the patterns of its operands. -/
def saluTable : List ((SaluArgs → Instr) × BitsOp) :=
  [(.add, fun _ _ a b => a + b),
   (.sub, fun _ _ a b => a - b),
   (.mul, fun _ _ a b => a * b),
   (.mulh, fun n g a b =>
     if g then ((a.signExtend (2 * n) * b.signExtend (2 * n)) >>> n).setWidth n
     else ((a.setWidth (2 * n) * b.setWidth (2 * n)) >>> n).setWidth n),
   (.div, fun n g a b => if b = 0 then BitVec.allOnes n else if g then a.sdiv b else a / b),
   (.rem, fun _ g a b => if g then a.srem b else a % b),
   (.and, fun _ _ a b => a &&& b),
   (.or, fun _ _ a b => a ||| b),
   (.xor, fun _ _ a b => a ^^^ b),
   (.andn, fun _ _ a b => a &&& ~~~b),
   (.shl, fun n _ a b => a <<< (b.toNat % n)),
   (.shr, fun n _ a b => a >>> (b.toNat % n)),
   (.sar, fun n _ a b => a.sshiftRight (b.toNat % n)),
   (.rot, fun n _ a b => a.rotateLeft (b.toNat % n)),
   (.min, fun _ g a b => if (if g then b.slt a else b.ult a) then b else a),
   (.max, fun _ g a b => if (if g then a.slt b else a.ult b) then b else a),
   (.bext, fun n _ a b => BitVec.ofBoolListLE ((List.range n).map (fun j =>
     (List.range n).any (fun i => b.getLsbD i && onesBelow b i == j && a.getLsbD i))) |>.setWidth n),
   (.bdep, fun n _ a b => BitVec.ofBoolListLE ((List.range n).map (fun i =>
     b.getLsbD i && a.getLsbD (onesBelow b i))) |>.setWidth n)]

/-- The exact value of the SALU instructions that saturate, from the values of their operands (R145, R146); `s` is the
shift amount, and `lo` and `hi` bound the type. -/
def satTable : List ((SaluArgs → Instr) × (Int → Int → Nat → Int → Int → Int)) :=
  [(.add, fun x y _ _ _ => x + y),
   (.sub, fun x y _ _ _ => x - y),
   (.mul, fun x y _ _ _ => x * y),
   (.div, fun x y _ lo hi => if y = 0 then (if 0 ≤ x then hi else lo) else Int.tdiv x y),
   (.shl, fun x _ s _ _ => x * 2 ^ s)]

/-- The value of a pattern at a type. -/
def valueOf (t : Ty) (b : BitVec t.width) : Int := if t.signed then b.toInt else b.toNat

/-- SALU instructions of one source, with the number that each makes of a pattern. -/
def saluUnTable : List ((SaluUnArgs → Instr) × ((n : Nat) → BitVec n → Nat)) :=
  [(.clz, fun n a => ((List.range n).find? (fun k => a.getLsbD (n - 1 - k))).getD n),
   (.ctz, fun n a => ((List.range n).find? (fun k => a.getLsbD k)).getD n),
   (.popc, fun n a => onesBelow a n)]

/-- The guards and form of the instructions that only a failing guard keeps from their effect (R32). -/
def scalarMods : Instr → Option Mods
  | .add x | .sub x | .mul x | .mulh x | .div x | .rem x | .and x | .or x | .xor x | .andn x | .shl x | .shr x | .sar x
  | .rot x | .min x | .max x | .bext x | .bdep x => some x.m
  | .clz x | .ctz x | .popc x => some x.m
  | .sel x => some x.m
  | .addi x => some x.m
  | .cmp x => some x.m
  | .li x => some x.m
  | .b x | .call x => some x.m
  | .bc x => some x.m
  | .jmp x | .jmpCall x => some x.m
  | .ret x => some x.m
  | .callq x => some x.m
  | .park x => some x.m
  | .halt x | .yieldCore x => some x.m
  | .ld x | .st x => some x.m
  | .ldc x | .stc x => some x.m
  | .amo x => some x.m
  | .tfence x => some x.m
  | .cbound x | .cnarrow x | .caddr x => some x.m
  | .cinc x => some x.m
  | .cget x => some x.m
  | .ctest x => some x.m
  | .cmov x => some x.m
  | .fenceVs x | .fenceAll x => some x.m
  | .cwb x | .iinv x => some x.m
  | .ifence x => some x.m
  | .epush x => some x.m
  | .epop x | .epopNw x | .eqstat x => some x.m
  | .evpop x | .evpopNw x | .dpop x | .tbar x | .slk x => some x.m
  | .dpush x => some x.m
  | .dsteal x | .treward x | .slkSeg x => some x.m
  | .lpatch x => some x.m
  | .larmPlace x | .larmArm x | .larmDisarm x => some x.m
  | .tfork x => some x.m
  | .tcancel x | .tadv x | .tadvNw x => some x.m
  | .sspawn x => some x.m
  | .sresolve x => some x.m
  | .sresolveFree x | .slkCond x => some x.m
  | .clset x => some x.m
  | _ => none

/-- The destination of the instructions that compute one general register from others. -/
def scalarDest : Instr → Option GReg
  | .add x | .sub x | .mul x | .mulh x | .div x | .rem x | .and x | .or x | .xor x | .andn x | .shl x | .shr x | .sar x
  | .rot x | .min x | .max x | .bext x | .bdep x => some x.d
  | .clz x | .ctz x | .popc x => some x.d
  | .sel x => some x.d
  | .addi x => some x.d
  | .cmp x => some x.d
  | .li x => some x.d
  | _ => none

/-- The word offset of a branch as a byte offset. -/
def byteOffset {n : Nat} (off : BitVec n) : Word := off.signExtend 64 <<< 2

/-- Is a capability operand one that derivations take: untagged or unsealed (R79, R81)? -/
def isUnsealed (c : Ctx) (a : CReg) : Bool := !((readC c a).tag && capOtype (readC c a) != 0)

/-- The answer of the control thread's synchronous trap (R106). -/
def traps (s : State) (cause : BitVec 16) (detail0 detail1 poisonPc : Word) : Out :=
  .next (takeTrap s.slot { cause := cause, party := 0, detail0 := detail0, detail1 := detail1, poisonPc := poisonPc } s)

/-- A branch that is taken, with its target (R152, R153). -/
def takenBranch (i : Instr) (s : State) : Option (Mods × Word) :=
  match i with
  | .b x => some (x.m, s.cur.h.pc + byteOffset x.off)
  | .bc x =>
    if !gPoison s.cur x.a && condHolds x.cond (gVal s.cur x.a).toInt 0 then
      some (x.m, s.cur.h.pc + byteOffset x.off)
    else none
  | _ => none

/-- A call with its target, where it does not trap (R153). -/
def calls (i : Instr) (s : State) : Option (Mods × Word) :=
  match i with
  | .call x => some (x.m, s.cur.h.pc + byteOffset x.off)
  | .jmpCall x =>
    if !gPoison s.cur x.a && field (gVal s.cur x.a) 0 2 == 0 then some (x.m, gVal s.cur x.a) else none
  | _ => none

/-- The instructions whose first act is to consume one general register (R142). -/
def consumesFirst : Instr → Option (Mods × GReg)
  | .bc x => some (x.m, x.a)
  | .jmp x | .jmpCall x => some (x.m, x.a)
  | .cbound x | .cnarrow x | .caddr x => some (x.m, x.b)
  | .cinc x => some (x.m, x.b)
  | .clset x => some (x.m, x.a)
  | _ => none

/-- What an AMO writes, on patterns of its type's width (R125). -/
def amoResult (k : AmoKind) (t : Ty) (old b c : BitVec t.width) : BitVec t.width :=
  match k with
  | .swap => b
  | .add => old + b
  | .and => old &&& b
  | .or => old ||| b
  | .xor => old ^^^ b
  | .min => if valueOf t b < valueOf t old then b else old
  | .max => if valueOf t old < valueOf t b then b else old
  | .cas => if old = c then b else old

/-- What an AMO of core `k` leaves (R125 to R127): the thread's stores released at its scope, the line's bytes at narrower points
brought in, the old value, the new value stored, gD the old value, an acquire. -/
def amoLeaves (s : State) (k pa size : Nat) (sc : Scope) (hint : Nat) (kind : AmoKind) (ty : Ty) (d : GReg) (b c : Word) : State :=
  let g := gatherLine (release s k sc) k (lineOf pa) sc
  let ld := ctxLoad g k pa size sc hint
  let old := loadValue ty ld.2
  let new := amoResult kind ty (tyBits ty old) (tyBits ty b) (tyBits ty c)
  let st := ctxStore ld.1 k pa (bytesOfNat size new.toNat) sc hint
  acquire (st.modCur (fun x => writeG x d old)) k sc

/-- The byte that a load of core `k` at .core finds at an address of memory: its line's, or what a fill would bring. -/
def seenBy (s : State) (k a : Nat) : Byte :=
  (((s.l1Line k (lineOf a)).getD (fillLine s k (lineOf a)).1).data).extractLsb' (8 * (a % 64)) 8

/-- Does a line stand apart for core `k`: no snapshot is in progress, no line is tied to another, none has left the memory side,
and no sibling holds a copy of it? -/
def quietLine (s : State) (k l : Nat) : Bool :=
  (List.range 4).all (fun d => !(s.snapAt d).cut) && s.ties.isEmpty && s.side.isEmpty &&
    (siblings s k).all (fun j => (lookupKey l (s.coreAt j).l1).isNone)

/-! ### The vector agent -/

/-- The vector agent has an entry in hand, under guards that can pass (R32, R59). -/
def vecActs (m : Mods) (s : State) : Bool := s.party == .vector && !neverPasses m

/-- The strips that operands have read leave their queues (R280). -/
def stripsTaken (regs : List VReg) (s : State) : State :=
  ((regs.filterMap (boundOf s.cur)).map bindQueue).dedup.foldl (fun s q => dropStrip q s) s

/-- The vector queue with an instruction at its end, with what it captures (R163). -/
def queued (i : Instr) (capC : Cap) (capG : Word) (c : Ctx) : Ctx :=
  { c with vq := vqEntries c ++ [{ words := vqWords (encode i), addr := c.h.pc, capC := capC, capG := capG }]
           vqn := c.vqn + 1 }

/-- A vector instruction that commits: elements written, the strips of its sources taken, its entry executed. -/
def commitsWith (s : State) (d : VReg) (w : Nat) (ws : List (Nat × Elem)) (regs : List VReg) : Out :=
  .next (passEntry (stripsTaken regs (s.modCur (fun c => { c with vr := putElems d w ws c.vr }))))

/-- A source operand's elements, read. -/
def reads (n : VReg) (t : Ty) (s : State) (xs : List Elem) : Prop := readV n t s = .ok xs s

/-- A destination group that fits and is not bound. -/
def destFits (d : VReg) (w : Nat) (s : State) : Prop := checkDest d w s = .ok () s

/-- The element of `n` bits that an exact integer leaves under a type's signedness, clamped where asked (R194). -/
def intBits (signed : Bool) (n : Nat) (sat : Bool) (z : Int) : Nat :=
  (BitVec.ofInt n (if sat then
    (if signed then clamp (-(2 ^ (n - 1))) (2 ^ (n - 1) - 1) z else clamp 0 (2 ^ n - 1) z) else z)).toNat

/-- The number that an element of an integer type holds. -/
def numOf (t : Ty) (x : Elem) : Int := valueOf t (BitVec.ofNat t.width x.val)

/-- VIALU instructions of two sources, with the exact value that each makes of two elements (R194). -/
def vintTable : List ((VBinArgs → Instr) × (Ty → Elem → Elem → Int)) :=
  [(.vadd, fun t a b => numOf t a + numOf t b),
   (.vsub, fun t a b => numOf t a - numOf t b),
   (.vmul, fun t a b => numOf t a * numOf t b),
   (.vmulh, fun t a b => numOf t a * numOf t b / 2 ^ t.width),
   (.vand, fun _ a b => Int.ofNat (a.val &&& b.val)),
   (.vor, fun _ a b => Int.ofNat (a.val ||| b.val)),
   (.vxor, fun _ a b => Int.ofNat (a.val ^^^ b.val)),
   (.vandn, fun _ a b => Int.ofNat (a.val ^^^ (a.val &&& b.val))),
   (.vshl, fun t a b => numOf t a * 2 ^ (b.val % t.width)),
   (.vshr, fun t a b => Int.ofNat (a.val / 2 ^ (b.val % t.width))),
   (.vsar, fun t a b => (BitVec.ofNat t.width a.val).toInt / 2 ^ (b.val % t.width)),
   (.vmin, fun t a b => if numOf t b < numOf t a then numOf t b else numOf t a),
   (.vmax, fun t a b => if numOf t a < numOf t b then numOf t b else numOf t a)]

/-- VFALU instructions of two sources that round, with the exact operation of each (R195, R196). -/
def vfTable : List ((VfBinArgs → Instr) × (Rm → Val → Val → Val)) :=
  [(.vfadd, fun r a b => a.add b (r == .rm)),
   (.vfsub, fun r a b => a.add b.negate (r == .rm)),
   (.vfmul, fun _ a b => a.mul b),
   (.vfdiv, fun _ a b => a.div b)]

/-- The four fused multiply-adds: whether the product, and whether the addend, is negated (R195). -/
def vfmaTable : List ((VfmaArgs → Instr) × Bool × Bool) :=
  [(.vfma, false, false), (.vfms, false, true), (.vfnma, true, false), (.vfnms, true, true)]

/-- Instructions of one source on codes (R197, R226, R227). -/
def vfOneTable : List ((VOneArgs → Instr) × (Ty → Nat → Nat)) :=
  [(.vfabs, fun t a => a % 2 ^ (t.width - 1)),
   (.vfneg, fun t a => a ^^^ 2 ^ (t.width - 1)),
   (.vfrsq, fun _ a => rsqFn a),
   (.vfexp2, fun _ a => exp2Fn a)]

/-- A value negated, or not. -/
def negIf (b : Bool) (v : Val) : Val := if b then v.negate else v

/-- Results written where given, under guards: an inactive element is zeroed or stays, and one not given stays (R189). -/
def permElems (m : Mods) (zf : Bool) (c : Ctx) (f : Nat → Option Elem) : List (Nat × Elem) :=
  (List.range c.vr.vl.toNat).filterMap (fun e =>
    if active m c e then (f e).map (fun x => (e, x)) else if zf then some (e, Elem.zero) else none)

/-- A predicate instruction that commits: bits of pD where given, the others as they are, the tail zero (R175, R189). -/
def commitsPred (s : State) (d : PReg) (bits : Nat → Option Bool) (regs : List VReg) : Out :=
  .next (passEntry (stripsTaken regs (s.modCur (fun c =>
    if d = 0 then c
    else { c with vr := { c.vr with p := c.vr.p.set d ((BitVec.ofBoolListLE ((List.range 1024).map (fun e =>
      decide (e < c.vr.vl.toNat) && (bits e).getD (c.vr.p[d].getLsbD e)))).setWidth 1024) } }))))

/-- The bit that guards leave of a result: none where it stays (R189). -/
def guardBit (m : Mods) (zf : Bool) (c : Ctx) (e : Nat) (b : Bool) : Option Bool :=
  if active m c e then some b else if zf then some false else none

/-- The accesses of elements that passed their checks, each alone. -/
def passed (got : List (Nat × Except AccFault ElemLoad)) : List (List ElemLoad) :=
  got.filterMap (fun x => x.2.toOption.map (fun y => [y]))

/-- What the elements of a load become at first (R207, R415): a poisoned zero where the access faults, the instruction's address
and the fault's cause its origin, and a zero where it is still to come. -/
def faulted (origin : Word) (got : List (Nat × Except AccFault ElemLoad)) : List (Nat × Elem) :=
  got.map (fun x => (x.1, match x.2 with
    | .error f => { val := 0, q := some (origin, f.cause) }
    | .ok _ => Elem.zero))

/-- The places that the elements of VLD and VST, or VLDS and VSTS, lie at (R206). -/
def strided (strides : Bool) (x : VMemArgs) (g : Word) (e : Nat) : Place :=
  if strides then { off := g.toInt + e * x.imm.toInt, high := false } else placeSeq (memOff g x.imm) x.ty.width e

/-- The inactive elements that the zeroing form writes (R189). -/
def zeroedElems (m : Mods) (zf : Bool) (c : Ctx) (n : Nat) : List (Nat × Elem) :=
  if zf then ((List.range n).filter (fun e => !active m c e)).map (fun e => (e, Elem.zero)) else []

/-- What the control thread captures when it pushes an instruction (R163): its guards, and the general and the capability
register that it reads. -/
def captures : Instr → Option (Mods × Option GReg × Option CReg)
  | .vmode x => some (x.m, none, none)
  | .setvl x => some (x.m, some x.a, none)
  | .vadd x | .vsub x | .vmul x | .vmulh x | .vand x | .vor x | .vxor x | .vandn x | .vshl x | .vshr x | .vsar x
  | .vmin x | .vmax x | .vmacc x => some (x.m, none, none)
  | .vabs x | .vneg x => some (x.m, none, none)
  | .vsat x => some (x.m, none, none)
  | .vsel x => some (x.m, none, none)
  | .vfadd x | .vfsub x | .vfmul x | .vfdiv x => some (x.m, none, none)
  | .vfmin x | .vfmax x | .vperm x | .vzip x => some (x.m, none, none)
  | .vfabs x | .vfneg x | .vfrsq x | .vfexp2 x | .vcompress x | .vexpand x => some (x.m, none, none)
  | .vfsqrt x => some (x.m, none, none)
  | .vfma x | .vfms x | .vfnma x | .vfnms x => some (x.m, none, none)
  | .vcmp x => some (x.m, none, none)
  | .vfcmp x => some (x.m, none, none)
  | .pand x | .por x | .pxor x => some (x.m, none, none)
  | .pnot x | .pfirst x | .vexit x => some (x.m, none, none)
  | .pcount x => some (x.m, none, none)
  | .vslideUp x | .vslideDn x | .vshlw x | .vshrw x => some (x.m, some x.g, none)
  | .vbcast x => some (x.m, some x.g, none)
  | .vunzip x => some (x.m, none, none)
  | .vred x => some (x.m, none, none)
  | .vscan x => some (x.m, none, none)
  | .vfshlw x | .vfshrw x => some (x.m, some x.g, none)
  | .vld x | .vlds x | .vldff x | .vst x | .vsts x => some (x.m, some x.b, some x.a)
  | .vldx x | .vstx x => some (x.m, none, some x.a)
  | .vldseg x | .vstseg x => some (x.m, some x.b, some x.a)
  | .vcvt x => some (x.m, some x.b, none)
  | .vquant x | .vdequant x => some (x.m, some x.b, none)
  | .mldt x | .mldtT x => some (x.m, some x.b, some x.a)
  | .mrow x | .mrowa x => some (x.m, none, none)
  | .mzero x => some (x.m, none, none)
  | .mswap x => some (x.m, none, none)
  | .mchain x => some (x.m, if x.lit.isSome then none else some x.b, none)
  | .mtbl x => some (x.m, some x.b, some x.a)
  | .mdrain x => some (x.m, some x.b, none)
  | .vbind x => some (x.m, some x.b, some x.a)
  | .vunbind x => some (x.m, none, none)
  | .vdefer x => some (x.m, some x.b, none)
  | .vdrain x => some (x.m, none, none)
  | _ => none

/-- The destination register of the vector instructions that read and write registers alone. -/
def vecDest : Instr → Option VReg
  | .vadd x | .vsub x | .vmul x | .vmulh x | .vand x | .vor x | .vxor x | .vandn x | .vshl x | .vshr x | .vsar x
  | .vmin x | .vmax x | .vmacc x => some x.d
  | .vabs x | .vneg x => some x.d
  | .vsat x => some x.d
  | .vsel x => some x.d
  | .vfadd x | .vfsub x | .vfmul x | .vfdiv x => some x.d
  | .vfmin x | .vfmax x | .vperm x | .vzip x => some x.d
  | .vfabs x | .vfneg x | .vfrsq x | .vfexp2 x | .vcompress x | .vexpand x => some x.d
  | .vfsqrt x => some x.d
  | .vfma x | .vfms x | .vfnma x | .vfnms x => some x.d
  | .vslideUp x | .vslideDn x | .vshlw x | .vshrw x => some x.d
  | .vbcast x => some x.d
  | .vunzip x => some x.d
  | .vred x => some x.d
  | .vscan x => some x.d
  | .vfshlw x | .vfshrw x => some x.d
  | .vcvt x => some x.d
  | .vdequant x => some x.d
  | _ => none

/-- The zeroing form of the instructions with a vector destination (R53, R189). -/
def zeroing : Instr → Bool
  | .vadd x | .vsub x | .vmul x | .vmulh x | .vand x | .vor x | .vxor x | .vandn x | .vshl x | .vshr x | .vsar x
  | .vmin x | .vmax x | .vmacc x => x.zf
  | .vabs x | .vneg x => x.zf
  | .vsat x => x.zf
  | .vsel x => x.zf
  | .vfadd x | .vfsub x | .vfmul x | .vfdiv x => x.zf
  | .vfmin x | .vfmax x | .vperm x | .vzip x => x.zf
  | .vfabs x | .vfneg x | .vfrsq x | .vfexp2 x | .vcompress x | .vexpand x => x.zf
  | .vfsqrt x => x.zf
  | .vfma x | .vfms x | .vfnma x | .vfnms x => x.zf
  | .vslideUp x | .vslideDn x | .vshlw x | .vshrw x => x.zf
  | .vbcast x => x.zf
  | .vunzip x => x.zf
  | .vscan x => x.zf
  | .vfshlw x | .vfshrw x => x.zf
  | _ => false

/-! ### Deques and records -/

/-- The answer of a DPOP or DSTEAL that took an entry (R319): OK, the handle and the argument. -/
def tookOut (m : Mods) (d : GReg) (r : State × (Nat × Nat × Word)) : Out :=
  .next (r.1.modCur (fun c => setPc (writeG (writeG (writeG c d 0) (d + 1)
    (BitVec.ofNat 64 (r.2.1 <<< 32 ||| r.2.2.1))) (d + 2) r.2.2.2) (nextPc c m)))

/-- The forms of LARM with what each does to a record (R325). -/
def armTable : List ((LarmArgs → Instr) × ArmFn) := [(.larmPlace, placeFn), (.larmArm, armFn), (.larmDisarm, disarmFn)]

/-- The answer of LPATCH and LARM once they have reached a record's words: the acquire at .sys (R128), the status in gD, the pc past the
instruction. -/
def recordDone (m : Mods) (d : GReg) (st : Word) (s : State) : Out :=
  .next ((acquire (forgetEarly s) s.core .sys).modCur (fun c => setPc (writeG c d st) (nextPc c m)))

/-- The answer of TBAR and TADV that deliver (R344): the advantage and the status word under an acquire at .pkg, the lanes asked
for again (R181). -/
def handedOver (m : Mods) (d : GReg) (r : Word × Word) (s : State) : Out :=
  let t := s.modCur (fun c => { writeG (writeG c d r.1) (d + 1) r.2 with awaitClose := none, delivered := none })
  let u := (acquire t t.core .pkg).modCur (fun c => setPc c (nextPc c m))
  .next (laneRegrant u u.slot)

/-! ### Roustabouts -/

/-- The roustabout that acts. -/
def roustIn (s : State) : Roustabout := roustOf s.cur (s.party == .storer)

/-- The answer of a roustabout's instruction that changes that roustabout alone. -/
def roustRuns (s : State) (f : Roustabout → Roustabout) : Out :=
  .next (s.modCur (fun c => modRoust c (s.party == .storer) f))

/-- An x register set; x0 discards what is written (R259). -/
def setXr (r : Roustabout) (n : XReg) (v : Word) : Roustabout := if n = 0 then r else { r with x := r.x.set n v }

/-- The answer of an extension instruction (R286): the context's queues changed, rd written where it is, the pc past it. -/
def roustQueues (s : State) (f : Queues → Queues) (rd : Option (XReg × Word)) : Out :=
  .next (s.modCur (fun c => modRoust { c with q := f c.q } (s.party == .storer) (fun r =>
    let r := match rd with
      | some (n, v) => setXr r n v
      | none => r
    { r with pc := r.pc + 4 })))

/-! ### Calliopes and front ends -/

/-- The answer of a Lysyo instruction that goes on with its run in a state. -/
def lyGoes (f : Nat) (r : LyRun) (t : State) : Out := .next (t.modFe f (fun x => { x with run := some r }))

/-- The run that counts one more step (R386). -/
def lyTick (r : LyRun) : LyRun := { r with steps := r.steps + 1 }

/-- The Lysyo instructions. -/
def lysyoOps (x : LyIArgs) (y : LyRArgs) : List Instr :=
  [.lysyoEnd x, .lysyoLi x, .lysyoLih x, .lysyoAddi x, .lysyoAdd y, .lysyoSub y, .lysyoAnd y, .lysyoOr y, .lysyoXor y,
    .lysyoShl y, .lysyoShr y, .lysyoMinu y, .lysyoMaxu y, .ldpk x, .stpk x, .ldrg x, .ldwn x, .stwn x, .beq x, .bne x,
    .bltu x, .lysyoLoop x, .time x, .qinfo x]

/-- Lysyo instructions of two sources with what each writes (R385). -/
def lyTable : List ((LyRArgs → Instr) × (Word → Word → Word)) :=
  [(.lysyoAdd, fun a b => a + b), (.lysyoSub, fun a b => a - b), (.lysyoAnd, fun a b => a &&& b),
   (.lysyoOr, fun a b => a ||| b), (.lysyoXor, fun a b => a ^^^ b), (.lysyoShl, fun a b => a <<< (b.toNat % 64)),
   (.lysyoShr, fun a b => a >>> (b.toNat % 64)), (.lysyoMinu, fun a b => if b.toNat < a.toNat then b else a),
   (.lysyoMaxu, fun a b => if a.toNat < b.toNat then b else a)]

/-- Lysyo branches with the comparison of each (R385). -/
def lyBranches : List ((LyIArgs → Instr) × (Word → Word → Prop)) :=
  [(.beq, fun a b => a = b), (.bne, fun a b => a ≠ b), (.bltu, fun a b => a.toNat < b.toNat)]

/-- The offset that a Lysyo memory instruction computes. -/
def lyOff (r : LyRun) (x : LyIArgs) : Nat := (lget r x.ra + x.imm.signExtend 64).toNat

/-! ### Control stores -/

/-- A store of an agent to a control word that nothing turns away (R420, R446). -/
def unlocked (s : State) (w : Who) (pa : Nat) (v : Word) : Prop :=
  notYet s pa = false ∧ lockAgainst s (regionOfWho s w) pa v = none

/-- The answer of a store of a value to a control word, performed, that leaves a state: its line is seen written (R111); the host is
answered (R89) where the store completes at once, and once it does otherwise (R101). -/
def stored (w : Who) (pa : Nat) (v : Word) (t : State) : Out :=
  let u := touch t (lineOf pa)
  let halts := haltTargets u pa v
  .next (match w with
    | .thread _ => u
    | .host =>
      if halts = [] ∧ storeDone u (storeAwaits u pa v) pa v = true then { u with answer := (false, 0) }
      else { u with hostStore := some (pa, v, halts) })

/-- A context in which a halt that a store of a value to RUN asks for is noted with the storer, where it still runs (R101); the host
is the storer `noSlot`. -/
def haltAsked (s : State) (w : Who) (slot : Nat) (v : BitVec 2) (t : State) : State :=
  if (t.ctxAt slot).h.run = 0 then t
  else t.modCtx slot (fun c => { c with askers := (match w with
    | .thread me => if (s.ctxAt slot).h.run = 0 then noSlot else me
    | .host => noSlot, v) :: c.askers })

/-- The commands of SCMD: the store, the number and what it does (R419, R423, R428, R429). -/
def scmdOf : Instr → Option (CmdArgs × Nat × (State → Nat → CmdRes))
  | .openSession x => some (x, 1, cmdOpen)
  | .report x => some (x, 2, cmdReport)
  | .close x => some (x, 3, cmdClose)
  | .kload x => some (x, 4, cmdKload)
  | .hprep x => some (x, 5, cmdHprep)
  | .hoffer x => some (x, 6, cmdHoffer)
  | .erase x => some (x, 7, cmdErase)
  | .haccept x => some (x, 8, cmdHaccept)
  | _ => none

/-- The commands of TCMD: the store, the number and what it does (R334). -/
def tcmdOf : Instr → Option (CmdArgs × Nat × (State → Nat → State))
  | .hold x => some (x, 1, holdTroupe)
  | .resume x => some (x, 2, resumeTroupe)
  | .release x => some (x, 3, releaseTroupe)
  | .cancel x => some (x, 4, cancelTroupe)
  | _ => none

/-- The requests of COMMIT: the store and the bits of its value (R97). -/
def commitOf : Instr → Option (CmdArgs × BitVec 3)
  | .commitRootcap x => some (x, 1)
  | .commitVlcap x => some (x, 2)
  | .commitAtp x => some (x, 4)
  | _ => none

end Sys2Proof
end

