-- ==== Sys2Proof/Certificates/Slice0/Obligations.lean ====
section
/-! DEFINITION. The statements for the provers. -/

open Sys2Proof Sys2Proof.Machine

/-! ### Encodings -/

/-- Words written out from the encodings of R56, R71, R85, R145, R149, R152, R240 and R385 read as the instructions that the
spec names there. -/
def Obligations.WordsReadAsNamed : Prop :=
  decodeWords [0x00204304#32] =
      some (.add { m := baseMods, ty := .i64, sat := false, d := 3, a := 1, b := 2, lit := none }) ∧
  decodeWords [0x00124908#32] = some (.addi { m := baseMods, ty := .i64, sat := false, d := 9, a := 9, imm := 1 }) ∧
  decodeWords [0x0000401C#32] = some (.call { m := baseMods, off := 64 }) ∧
  decodeWords [0x04000020#32] = some (.ret { m := baseMods, k := 0 }) ∧
  decodeWords [0x00130020#32] = some (.jmpCall { m := baseMods, a := 12 }) ∧
  decodeWords [0x0C000A7C#32] = some (.evpop { m := baseMods, d := 10 }) ∧
  decodeWords [0x14000079#32, 0#32, 0#32] = some (.mswap { m := { baseMods with form := .ext } }) ∧
  decodeLysyo 0x50800020#32 = some (.ldpk { rd := 2, ra := 0, imm := 32 }) ∧
  decodeLysyo 0x54C00028#32 = some (.stpk { rd := 3, ra := 0, imm := 40 }) ∧
  decodeQ 0x0405102B#32 = some (.qvWait { rd := 0, rs1 := 10, rs2 := 0 })

/-- Every Nymzin instruction that is well formed reads back from its words, whatever words follow them. -/
def Obligations.NymzinRoundTrip : Prop :=
  ∀ (i : Instr) (f : Fields) (after : List Word32),
    wellFormed i = true → toFields i = some f → decodeWords (encode i ++ after) = some i

/-- No bit of a Nymzin word is dropped: an instruction that words read as is well formed, and its own words are the ones that
were read. -/
def Obligations.NymzinWordsAreUnique : Prop :=
  ∀ (ws : List Word32) (i : Instr), decodeWords ws = some i →
    wellFormed i = true ∧ (encode i).isPrefixOf ws = true

/-- The same both ways for the roustabout extension and for Lysyo, whose instructions have one word; every RV64IMAC
instruction of 32 bits that is well formed reads back from its word. -/
def Obligations.OneWordRoundTrips : Prop :=
  (∀ (w : Word32) (i : Instr), decodeQ w = some i → wellFormed i = true ∧ encode i = [w]) ∧
  (∀ (w : Word32) (i : Instr), decodeLysyo w = some i → wellFormed i = true ∧ encode i = [w]) ∧
  (∀ (x : QArgs) (i : Instr),
    i ∈ [.qePush x, .qePop x, .qeStat x, .qeWait x, .qaPush x, .qaStat x, .qbPush x, .qbStat x, .qdPop x, .qdStat x,
      .qsStrip x, .qsScale x, .qsEnd x, .qvFence x, .qvEvent x, .qvWait x] →
    wellFormed i = true → (encode i).map decodeQ = [some i]) ∧
  (∀ (x : LyIArgs) (y : LyRArgs) (i : Instr),
    i ∈ [.lysyoEnd x, .lysyoLi x, .lysyoLih x, .lysyoAddi x, .lysyoAdd y, .lysyoSub y, .lysyoAnd y, .lysyoOr y,
      .lysyoXor y, .lysyoShl y, .lysyoShr y, .lysyoMinu y, .lysyoMaxu y, .ldpk x, .stpk x, .ldrg x, .ldwn x, .stwn x,
      .beq x, .bne x, .bltu x, .lysyoLoop x, .time x, .qinfo x] →
    wellFormed i = true → (encode i).map decodeLysyo = [some i]) ∧
  (∀ x : RvArgs, x.compressed = false → wellFormed (.roustaboutInstruction x) = true →
    (encode (.roustaboutInstruction x)).map decodeRoustabout = [some (.roustaboutInstruction x)]) ∧
  (∀ x : RvAmoArgs, wellFormed (.roustaboutAmo x) = true →
    (encode (.roustaboutAmo x)).map decodeRoustabout = [some (.roustaboutAmo x)]) ∧
  (∀ x : RvFenceArgs, (encode (.roustaboutFence x)).map decodeRoustabout = [some (.roustaboutFence x)])

/-! ### A step runs what is decoded -/

/-- A core's control thread at a boundary, and the words that its fetch reads there decode to an instruction: the step runs
it, once the loads that its registers await have performed (R118), and what follows a thread's instruction follows; where no
access waits nothing need perform. The other turns: a roustabout runs the instruction at its pc in its
instruction store, a calliope that at its program's index, and a step of the part that the agenda names runs as it stands.
The agenda that orders the turns is the model's (notes/assumptions/1.md). -/
def Obligations.StepRunsTheDecodedInstruction : Prop :=
  (∀ (s s' : State) (k : Nat) (ws : List Word32) (i : Instr),
    (nextTurn s).1 = .thread k → atBoundary (nextTurn s).2 k = true →
    fetchInstr ({ (nextTurn s).2 with core := k, party := .control }).cur.h.pc
      { (nextTurn s).2 with core := k, party := .control } = .ok ws s' →
    decodeWords ws = some i →
    (∀ u : State, ready i s' = some u →
      step s = match exec i u with
        | .next t => .next (finishTurn (nextTurn s).2 (afterTurn (.thread k) u i t))
        | .fault f => .fault f
        | .refused r => .refused r) ∧
    (anyWaiting (pqOf s' s'.core .control) = false → ready i s' = some s')) ∧
  (∀ (s : State) (k slot : Nat) (st : Bool) (i : Instr),
    (nextTurn s).1 = .roustabout k st → corePresent (nextTurn s).2 k = true →
    ((nextTurn s).2.coreAt k).slot = some slot → roustReady (nextTurn s).2 slot st = true →
    decodeRoustabout (roustCode (roustOf ((nextTurn s).2.ctxAt slot) st)) = some i →
    anyWaiting (pqOf (nextTurn s).2 k (if st then .storer else .loader)) = false →
    step s = stepInstr (nextTurn s).2 i
      { (nextTurn s).2 with core := k, party := if st then .storer else .loader }) ∧
  (∀ (s : State) (f : Nat) (r : LyRun) (i : Instr),
    (nextTurn s).1 = .calliope f → f < 8 → ((nextTurn s).2.feAt f).run = some r →
    ((((lookupKey r.queue ((nextTurn s).2.feAt f).progs).getD [])[r.index]?).bind decodeLysyo) = some i →
    step s = stepInstr (nextTurn s).2 i { (nextTurn s).2 with fe := f }) ∧
  (∀ (s : State) (i : Instr),
    (nextTurn s).1 = .event i → fetched i = false → step s = stepInstr (nextTurn s).2 i (nextTurn s).2)

/-- A fetch in bare mode, past its checks and with neither an instruction-cache line nor a level-two line there and the line
held by the memory side, reads the
four bytes of memory at the address, least significant first. -/
def Obligations.FetchReadsMemory : Prop :=
  ∀ (s : State) (va : Word),
    fetchClear s va = true →
    ∃ t, fetchWord va s = .ok (BitVec.ofNat 32 (natOfBytes (memRead s.mem va.toNat 4))) t ∧ t.mem = s.mem

/-! ### Memory -/

/-- No step of the machine leaves memory out of its canonical form. The form is the model's: what an unlisted address reads as
is notes/assumptions/2.md. -/
def Obligations.EveryStepKeepsMemoryCanonical : Prop :=
  ∀ s t : State, memoryCanonical s → step s = .next t → memoryCanonical t

/-- Memory at reset is in canonical form. The form is the model's (notes/assumptions/2.md). -/
def Obligations.MemoryIsCanonicalAtReset : Prop := memoryCanonical State.reset

/-- A byte of memory reads as last written: the bytes written where they were written, every other byte as before, and the
canonical form is kept. -/
def Obligations.MemoryReadsWhatWasWritten : Prop :=
  ∀ (m : Bytes) (a : Nat) (bs : List Byte), Memory.wf m = true →
    Memory.wf (memWrite m a bs) = true ∧
    (∀ i : Nat, i < bs.length → memGet (memWrite m a bs) (a + i) = bs.getD i 0) ∧
    (∀ b : Nat, (b < a ∨ a + bs.length ≤ b) → memGet (memWrite m a bs) b = memGet m b)

/-- What reset leaves: slot 0 is the link context, stopped and bare, with every permission over the whole space and region 0
(R89); region 0 is valid with the self-authority grant and the limits of the part in hand (R309, R441); FETIME is 0
(R374); the power limit is 4,600 at point 1 (R435); every core serves region 0 and has no deque (R45, R316). A region that
was never written is all zero, where the spec gives a word no reset value too (notes/assumptions/10.md). -/
def Obligations.ResetValues : Prop :=
  let s := State.reset
  let c := s.ctxAt 0
  c.h.run = 0 ∧ field c.h.atp 60 4 = 0 ∧ c.h.rootcap.tag = true ∧ capPerms c.h.rootcap = BitVec.allOnes 6 ∧
  capOtype c.h.rootcap = 0 ∧ capBounds c.h.rootcap = (0, 2 ^ 56) ∧ c.h.region = 0 ∧
  (s.regionAt 0).valid = true ∧ (s.regionAt 0).prio = 0 ∧ (s.regionAt 0).selfauth = true ∧
  (s.regionAt 0).limit = #v[4 * nclu s, 64 * nclu s, 1024 * 4 * nclu s, 0xFFFFFFFF, 0xFFFFFFFF, 0xFFFFFFFF] ∧
  (∀ r : Nat, r ≠ 0 → s.regionAt r = Region.zero) ∧
  (∀ f : Nat, (s.feAt f).time = 0) ∧
  s.arb.plimit = 4600 ∧ s.arb.point = 1 ∧
  (∀ k : Nat, (s.coreAt k).region = 0 ∧ (s.coreAt k).dqcfg = 0)

/-! ### The scalar instructions -/

/-- Under a guard that fails, a scalar instruction only moves the pc past itself (R32, R145). -/
def Obligations.FailingGuardOnlyAdvances : Prop :=
  ∀ (i : Instr) (m : Mods) (s : State),
    scalarMods i = some m → passes m s = false → exec i s = changes s (fun c => setPc c (nextPc c m))

/-- The SALU instructions (R145 to R147). Under a guard that fails they only move the pc past themselves. Without .sat gD takes the
operation on the low bits of the sources, in the type's signedness, with their poison and origin; with .sat the exact value is
clamped to the range of the type; CLZ, CTZ and POPC count in their one source; SEL takes the operand that its condition chooses, where
only that operand's poison flows, with the condition's. The pc moves on, and nothing else of the state changes. -/
def Obligations.SaluResults : Prop :=
  (∀ p ∈ saluTable, ∀ (x : SaluArgs) (s : State),
    x.sat = false → passes x.m s = true →
    exec (p.1 x) s = changes s (fun c => saluLeaves x.m x.d x.a x.b x.lit
      (widen x.ty (p.2 x.ty.width x.ty.signed (tyBits x.ty (gVal c x.a)) (tyBits x.ty (srcB c x.b x.lit)))) c)) ∧
  (∀ p ∈ satTable, ∀ (x : SaluArgs) (s : State),
    x.sat = true → passes x.m s = true →
    exec (p.1 x) s = changes s (fun c =>
      let a := tyBits x.ty (gVal c x.a)
      let b := tyBits x.ty (srcB c x.b x.lit)
      saluLeaves x.m x.d x.a x.b x.lit
        (widen x.ty (BitVec.ofInt x.ty.width (clamp (tyMin x.ty) (tyMax x.ty)
          (p.2 (valueOf x.ty a) (valueOf x.ty b) (b.toNat % x.ty.width) (tyMin x.ty) (tyMax x.ty))))) c)) ∧
  (∀ p ∈ saluUnTable, ∀ (x : SaluUnArgs) (s : State), passes x.m s = true →
    exec (p.1 x) s = changes s (fun c => saluLeaves x.m x.d x.a 0 (some 0)
      (widen x.ty (BitVec.ofNat x.ty.width (p.2 x.ty.width (tyBits x.ty (gVal c x.a))))) c)) ∧
  (∀ (x : SelArgs) (s : State), passes x.m s = true →
    exec (.sel x) s = changes s (fun c =>
      if gPoison c x.c then setPc (writeGq c x.d 0 true (gOrigin c x.c)) (nextPc c x.m)
      else if gVal c x.c ≠ 0 then
        saluLeaves x.m x.d x.a 0 (some 0) (widen x.ty (tyBits x.ty (gVal c x.a))) c
      else
        setPc (writeGq c x.d (widen x.ty (tyBits x.ty (srcB c x.b x.lit))) (srcBPoison c x.b x.lit)
          (if srcBPoison c x.b x.lit then gOrigin c x.b else (0, 0))) (nextPc c x.m))) ∧
  (∀ (m : Mods) (s : State), passes m s = false →
    let past : Out := changes s (fun c => setPc c (nextPc c m))
    (∀ p ∈ saluTable, ∀ x : SaluArgs, x.m = m → exec (p.1 x) s = past) ∧
    (∀ p ∈ saluUnTable, ∀ x : SaluUnArgs, x.m = m → exec (p.1 x) s = past) ∧
    (∀ x : SelArgs, x.m = m → exec (.sel x) s = past))

/-- ADDI, whose immediate is not first wrapped (R149); LI (R150); CMP (R151). -/
def Obligations.OtherScalarResults : Prop :=
  (∀ (x : AddiArgs) (s : State), passes x.m s = true →
    exec (.addi x) s = changes s (fun c =>
      let z := valueOf x.ty (tyBits x.ty (gVal c x.a)) + x.imm.toInt
      saluLeaves x.m x.d x.a 0 (some 0)
        (widen x.ty (BitVec.ofInt x.ty.width (if x.sat then clamp (tyMin x.ty) (tyMax x.ty) z else z))) c)) ∧
  (∀ (x : LiArgs) (s : State), passes x.m s = true →
    exec (.li x) s = changes s (fun c => setPc (writeG c x.d (x.lit.getD (x.imm.signExtend 64))) (nextPc c x.m))) ∧
  (∀ (x : CmpArgs) (s : State), passes x.m s = true →
    exec (.cmp x) s = changes s (fun c => saluLeaves x.m x.d x.a x.b x.lit
      (if condHolds x.cond (valueOf x.ty (tyBits x.ty (gVal c x.a))) (valueOf x.ty (tyBits x.ty (srcB c x.b x.lit)))
        then 1 else 0) c))

/-- The frame of SALU, ADDI, LI, CMP and SEL: beyond gD, its poison and origin, and the pc, the acting context is as it was, and
so is every other part of the state; no byte of memory changes. -/
def Obligations.ScalarFrame : Prop :=
  ∀ (i : Instr) (d : GReg) (s t : State),
    scalarDest i = some d → exec i s = .next t →
    t = s.setCtx s.slot t.cur ∧ t.slot = s.slot ∧
    t.cur = { s.cur with h := { s.cur.h with pc := t.cur.h.pc }, r := t.cur.r } ∧
    t.cur.r.c = s.cur.r.c ∧
    (∀ n : GReg, n ≠ d ∨ n = 0 → t.cur.r.g[n] = s.cur.r.g[n] ∧ t.cur.r.oaddr[n] = s.cur.r.oaddr[n] ∧
      t.cur.r.ocause[n] = s.cur.r.ocause[n] ∧ t.cur.r.gp.getLsbD n = s.cur.r.gp.getLsbD n) ∧
    (∀ a : Nat, memGet t.mem a = memGet s.mem a)

/-! ### Control flow -/

/-- B, and BC on a condition that holds (R152, R153): a forward branch only moves the pc; a taken backward one is counted by
the spin detector (R299), and moves the pc; at the 64th qualifying iteration the last load is made again, and where it reads
as before the thread parks on its line (R300). BC on a condition that fails moves past itself (R153). The loads of an iteration
that may qualify perform before the detector compares them (notes/assumptions/63.md). -/
def Obligations.BranchesMovePc : Prop :=
  (∀ (i : Instr) (m : Mods) (target : Word) (s : State), takenBranch i s = some (m, target) → passes m s = true →
    let a := s.cur.h.pc
    (a.toNat < target.toNat → exec i s = changes s (fun c => setPc c target)) ∧
    (¬ a.toNat < target.toNat → ∀ u : State,
      (if (spinLast s.cur target).isSome then drainParty .control s = .ok () u else u = s) →
      let sp := spinAfter u.cur a target
      (sp.count < 64 → exec i s = changes u (fun c => setPc { c with spin := sp } target)) ∧
      (64 ≤ sp.count → ∀ (l : SpinLoad) (v : BitVec 128) (g : Bool) (t : State),
        spinLast u.cur target = some l → spinReload l u = .ok (v, g) t →
        let w := t.modCur (fun c => setPc { c with spin := { sp with count := 0 } } target)
        exec i s = .next (if v = l.value ∧ g = l.tag then
            let p := w.modCur (fun c =>
              { c with parked := some (lineOf l.pa), hit := false, h := { c.h with spinpark := c.h.spinpark + 1 } })
            restLanes p p.slot
          else w)))) ∧
  (∀ (i : Instr) (m : Mods) (target : Word) (s : State), takenBranch i s = some (m, target) → passes m s = true →
    ¬ s.cur.h.pc.toNat < target.toNat → anyWaiting (pqOf s s.core .control) = false →
    let sp := spinAfter s.cur s.cur.h.pc target
    sp.count < 64 → exec i s = changes s (fun c => setPc { c with spin := sp } target)) ∧
  (∀ (x : BcArgs) (s : State), passes x.m s = true → gPoison s.cur x.a = false →
    condHolds x.cond (gVal s.cur x.a).toInt 0 = false →
    exec (.bc x) s = changes s (fun c => setPc c (nextPc c x.m)))

/-- CALL and JMP.call push the address after them and jump; JMP jumps; RET k drops k entries and returns to the next
(R153, R154). Where the store holds 16 entries the oldest spills to memory first, and RET reads what has spilled. -/
def Obligations.CallsAndReturns : Prop :=
  (∀ (i : Instr) (m : Mods) (target : Word) (s : State), calls i s = some (m, target) → passes m s = true →
    s.cur.rasN < 16 →
    exec i s = changes s (fun c => setPc { c with ras := vset c.ras c.rasN (nextPc c m), rasN := c.rasN + 1 } target)) ∧
  (∀ (i : Instr) (m : Mods) (target : Word) (s t u : State) (pa : Nat), calls i s = some (m, target) → passes m s = true →
    16 ≤ s.cur.rasN → s.cur.h.rasSpill.toNat + 8 ≤ s.cur.h.rasEnd.toNat →
    spillCheck s.cur.h.rasSpill .store .write s = .ok pa t →
    issueStore s.cur.ras[0] pa 8 .core 0 t = .ok () u →
    exec i s = .next (u.modCur (fun c => setPc { c with
      h := { c.h with rasSpill := c.h.rasSpill + 8 }
      ras := #v[c.ras[1], c.ras[2], c.ras[3], c.ras[4], c.ras[5], c.ras[6], c.ras[7], c.ras[8], c.ras[9], c.ras[10],
        c.ras[11], c.ras[12], c.ras[13], c.ras[14], c.ras[15], nextPc s.cur m] } target))) ∧
  (∀ (x : MaArgs) (s : State), passes x.m s = true → gPoison s.cur x.a = false →
    field (gVal s.cur x.a) 0 2 = 0 → exec (.jmp x) s = changes s (fun c => setPc c (gVal c x.a))) ∧
  (∀ (x : RetArgs) (s : State), passes x.m s = true → x.k.toNat < s.cur.rasN →
    let ra := s.cur.ras.toList.getD (s.cur.rasN - 1 - x.k.toNat) 0
    field ra 0 2 = 0 →
    exec (.ret x) s = changes s (fun c => setPc { c with rasN := c.rasN - 1 - x.k.toNat } ra)) ∧
  (∀ (x : RetArgs) (s t u : State) (pa : Nat) (bs : List Byte), passes x.m s = true →
    s.cur.rasN ≤ x.k.toNat →
    s.cur.h.rasBase.toNat + 8 * (x.k.toNat - s.cur.rasN) < s.cur.h.rasSpill.toNat →
    let spill := s.cur.h.rasSpill - BitVec.ofNat 64 (8 * (x.k.toNat - s.cur.rasN + 1))
    spillCheck spill .load .read s = .ok pa t → loadMem pa 8 .core 0 t = .ok bs u →
    field (wordOfBytes bs) 0 2 = 0 →
    exec (.ret x) s = .next (u.modCur (fun c =>
      setPc { c with rasN := 0, h := { c.h with rasSpill := spill } } (wordOfBytes bs))))

/-! ### Loads and stores of the control thread -/

/-- LD (R159, R160): past its guard and with the address in hand, the bytes of memory at the load's scope, extended as the type
says, go to gD, with the thread's own stores to those bytes performed before (R118); or, where the ordering machine lets the load
wait (R116), it joins the issue queue; or the value that the thread read early stands (R118, notes/assumptions/82.md). Of a control
word (R90 to R92, R128): the older accesses are released at .sys, gD takes the word, and an acquire at .sys follows; a load not of
eight aligned bytes traps CTLALIGN, and one of the thread's own authority words without the grant SELFAUTH. LD does not trap on a
poisoned index, on a fault of its access or on a misaligned address of memory (R160): gD is poisoned with the index's origin, or
with the load's address and the cause, and the thread goes on. When an access waits is notes/assumptions/4.md; details that the
rules do not state, and POISONPC 0, are notes/assumptions/14.md and 16.md. -/
def Obligations.LoadsOfMemory : Prop :=
  (∀ (x : LdArgs) (s t : State) (pa : Nat), passes x.m s = true →
    let size := x.ty.width / 8
    let sc := scopeGet x.scope .core
    let hint := x.hint.toNat
    let noted (v : BitVec 128) : Ctx → Ctx := lastNoted (some { pa := pa, size := size, scope := sc, value := v, tag := false })
    let got (bs : List Byte) (u : State) : Out := .next (u.modCur (fun c =>
      setPc (writeG (noted (BitVec.ofNat 128 (natOfBytes bs)) c) x.d (loadValue x.ty bs)) (nextPc c x.m)))
    gPoison s.cur x.c = false →
    ctlCheck (readC s.cur x.a) (memOff (gVal s.cur x.c) x.imm) size .load .read sc s = .ok (.ok pa) t →
    (inCtl pa = false → pa % size = 0 →
      (∀ (e : EarlyLoad) (u : State), takeEarly x.a x.c pa size sc t = .ok (some e) u →
        exec (.ld x) s = got (bytesOfNat size e.value.toNat) u) ∧
      (∀ n : State, takeEarly x.a x.c pa size sc t = .ok none n →
        let held := mayHold n && !stepsNext n.cur x.d
        (held = false → ∀ (bs : List Byte) (u : State), loadMem pa size sc hint n = .ok bs u → exec (.ld x) s = got bs u) ∧
        (held = true → exec (.ld x) s = .next ((joinsQueue (n.modCur (noted 0))
          (loadAccess (.loadG x.ty x.d) pa size sc hint)).modCur (fun c => setPc c (nextPc c x.m))))) ∧
      ((mayHold t && !stepsNext t.cur x.d) = false → noneEarly t → meetsOwn t [(pa, size)] = false →
        let r := ctxLoad t t.core pa size sc hint
        exec (.ld x) s = got r.2 r.1)) ∧
    (inCtl pa = true →
      let va := capCursor (readC s.cur x.a) + wordOf (memOff (gVal s.cur x.c) x.imm)
      let no : Word := BitVec.ofNat 64 x.a
      (size ≠ 8 ∨ pa % 8 ≠ 0 → exec (.ld x) s = traps t 0x30 va no 0) ∧
      (size = 8 → pa % 8 = 0 → needsSelfAuth t pa = true → exec (.ld x) s = traps t 0x33 va no 0) ∧
      (size = 8 → pa % 8 = 0 → needsSelfAuth t pa = false → ∀ r : State, releaseOwn .sys t = .ok () r →
        exec (.ld x) s = got (wordBytes 8 (ctlRead r (.thread r.slot) pa)) (acquire (forgetEarly r) r.core .sys)))) ∧
  (∀ (x : LdArgs) (s t : State), passes x.m s = true →
    let size := x.ty.width / 8
    let check := ctlCheck (readC s.cur x.a) (memOff (gVal s.cur x.c) x.imm) size .load .read (scopeGet x.scope .core) s
    let leaves (v : State) (o : Word × BitVec 16) : Out := .next (v.modCur (fun c =>
      setPc (writeGq (lastNoted none c) x.d 0 true o) (nextPc c x.m)))
    (gPoison s.cur x.c = true → exec (.ld x) s = leaves s (gOrigin s.cur x.c)) ∧
    (∀ f : AccFault, gPoison s.cur x.c = false → check = .ok (.error f) t →
      exec (.ld x) s = leaves t (s.cur.h.pc, f.cause)) ∧
    (∀ pa : Nat, gPoison s.cur x.c = false → check = .ok (.ok pa) t → inCtl pa = false → pa % size ≠ 0 →
      exec (.ld x) s = leaves t (s.cur.h.pc, cAlign)))

/-- ST (R161): to memory, the low bytes of gD, at the store's scope, to the address of its operands, the thread's waiting accesses
to those bytes performed before (R118); or the store joins the issue queue (R116). To a control word (R90 to R92, R98, R128): the
older accesses are released at .sys and the word's store performs, the pc past the instruction; the thread goes on once the store
is complete (R101). A store not of eight aligned bytes traps CTLALIGN, one to the thread's own authority words without the grant
SELFAUTH, one to a busy image BUSYIMAGE (R98), one to a locked word LOCKED (R420, R434). When an access waits is
notes/assumptions/4.md; the details that the rules do not state, and POISONPC 0, are notes/assumptions/14.md and 16.md. -/
def Obligations.StoresToMemory : Prop :=
  ∀ (x : LdArgs) (s t : State) (pa : Nat), passes x.m s = true →
    let size := x.ty.width / 8
    let sc := scopeGet x.scope .core
    let hint := x.hint.toNat
    let v := gVal s.cur x.d
    gPoison s.cur x.c = false → gPoison s.cur x.d = false →
    ctlCheck (readC s.cur x.a) (memOff (gVal s.cur x.c) x.imm) size .store .write .core s = .ok (.ok pa) t →
    (inCtl pa = false → pa % size = 0 →
      (mayHold t = false → t.cur.spec = false → noneEarly t → meetsOwn t [(pa, size)] = false →
        exec (.st x) s = .next ((storeBytes t t.core none pa ((wordBytes 8 v).take size) sc hint).modCur
          (fun c => setPc c (nextPc c x.m)))) ∧
      (mayHold t = false → ∀ w : State, storeMem pa ((wordBytes 8 v).take size) sc hint t = .ok () w →
        exec (.st x) s = .next (w.modCur (fun c => setPc c (nextPc c x.m)))) ∧
      (mayHold t = true → needRoom pa size t = .ok () t →
        exec (.st x) s = .next ((joinsQueue t (loadAccess (.store v) pa size sc hint)).modCur
          (fun c => setPc c (nextPc c x.m))))) ∧
    (inCtl pa = true →
      let va := capCursor (readC s.cur x.a) + wordOf (memOff (gVal s.cur x.c) x.imm)
      let no : Word := BitVec.ofNat 64 x.a
      (size ≠ 8 ∨ pa % 8 ≠ 0 → exec (.st x) s = traps t 0x30 va no 0) ∧
      (size = 8 → pa % 8 = 0 → t.cur.spec = false →
        (needsSelfAuth t pa = true → exec (.st x) s = traps t 0x33 va no 0) ∧
        (needsSelfAuth t pa = false → t.cur.halting = false → ∀ r : State, releaseOwn .sys t = .ok () r →
          match ctlStore (r.modCur (fun c => setPc c (nextPc c x.m))) (.thread r.slot) pa v with
          | .ok u => exec (.st x) s = ctlStored r pa v u
          | .error .busy => exec (.st x) s = traps r 0x32 va no 0
          | .error (.locked j) => exec (.st x) s = traps r 0xA00 (BitVec.ofNat 64 pa) (BitVec.ofNat 64 j) 0) ∧
        (needsSelfAuth t pa = false → t.cur.halting = true →
          exec (.st x) s = .next (if t.cur.awaitHalts = [] ∧ storeDone t t.cur.awaits pa v = true
            then t.modCur (fun c => setPc { c with halting := false } (nextPc c x.m)) else t))))

/-- A core that stores within one line of memory then sees its bytes at their addresses, whatever the scope and the hint of the
store (R60, R114, R116), and no register of any context changes. A store that stays in level one leaves every other byte as the
core saw it: with no snapshot in progress, no line tied to another, none off the memory side and no copy in a sibling. A load at
.core or .clu reads the bytes that its core sees, and leaves memory, the contexts and what the core sees as they were. -/
def Obligations.StoreSeenByItsCore : Prop :=
  (∀ (s : State) (k pa : Nat) (bs : List Byte) (sc : Scope) (hint : Nat),
    pa % 64 + bs.length ≤ 64 → inMemory s pa = true → isRstate s pa = false → quietLine s k (lineOf pa) = true →
    let t := storeBytes s k none pa bs sc hint
    (∀ a : Nat, pa ≤ a → a < pa + bs.length → seenBy t k a = bs.getD (a - pa) 0) ∧
    (hint ≠ 1 → hint ≠ 4 → ∀ a : Nat, (a < pa ∨ pa + bs.length ≤ a) → seenBy t k a = seenBy s k a) ∧
    (∀ slot : Nat, (t.ctxAt slot).r = (s.ctxAt slot).r ∧ (t.ctxAt slot).h = (s.ctxAt slot).h ∧
      (t.ctxAt slot).vr = (s.ctxAt slot).vr ∧ (t.ctxAt slot).mx = (s.ctxAt slot).mx)) ∧
  (∀ (s : State) (k pa n : Nat) (sc : Scope) (hint : Nat), sc = .core ∨ sc = .clu →
    pa % 64 + n ≤ 64 → inMemory s pa = true → isRstate s pa = false → quietLine s k (lineOf pa) = true →
    let r := loadBytes s k [] pa n sc hint
    r.2 = (List.range n).map (fun i => seenBy s k (pa + i)) ∧ r.1.mem = s.mem ∧ r.1.ctxs = s.ctxs ∧
    (∀ a : Nat, seenBy r.1 k a = seenBy s k a))

/-- LDC and STC (R85): sixteen bytes with their tag, at a scope, between memory and a capability register, or the access joins
the issue queue (R116; when it waits is notes/assumptions/4.md), or the value that the thread read early stands (R118,
notes/assumptions/82.md). Of a capability word of control space (R85, R90, R128) they release at .sys and read it, with an acquire,
or store it; CTLALIGN, CTLACCESS of a word that is none, SELFAUTH, BUSYIMAGE and LOCKED trap (R85, R90, R98, R420; that CTLACCESS
comes before SELFAUTH is notes/assumptions/22.md). AMO (R125 to R127): it joins the issue queue, or the accesses of the thread are
performed and released at its scope, the line's bytes at narrower points brought in, the old value, the new value stored at that
scope, gD the old value, an acquire; a control address traps CTLACCESS and a misaligned one ALIGN (R126). Details that the rules do
not state, and POISONPC 0, are notes/assumptions/14.md and 16.md. -/
def Obligations.CapabilityAccessesAndAtomics : Prop :=
  (∀ (x : LdcArgs) (s t : State) (pa : Nat), passes x.m s = true →
    let a := readC s.cur x.a
    let sc := scopeGet x.scope .core
    ctlCheck a x.imm.toInt 16 .load .read sc s = .ok (.ok pa) t → capHas a .lcap = true →
    let noted (bits : BitVec 128) (tag : Bool) : Ctx → Ctx :=
      lastNoted (some { pa := pa, size := 16, scope := sc, value := bits, tag := tag })
    let got (v : Cap) (u : State) : Out :=
      .next (u.modCur (fun c => setPc (writeC (noted v.bits v.tag c) x.d v) (nextPc c x.m)))
    (inCtl pa = false → pa % 16 = 0 →
      (∀ (e : EarlyLoad) (u : State), takeEarly x.a 0 pa 16 sc t = .ok (some e) u →
        exec (.ldc x) s = got { bits := e.value, tag := e.tag } u) ∧
      (∀ n : State, takeEarly x.a 0 pa 16 sc t = .ok none n →
        (∀ (v : Cap) (u : State), mayHold n = false → loadCapMem pa sc x.hint.toNat n = .ok v u → exec (.ldc x) s = got v u) ∧
        (mayHold n = true → exec (.ldc x) s = .next ((joinsQueue (n.modCur (noted 0 false))
          (loadAccess (.loadC x.d) pa 16 sc x.hint.toNat)).modCur (fun c => setPc c (nextPc c x.m)))))) ∧
    (inCtl pa = true →
      let va := capCursor a + x.imm.signExtend 64
      let no : Word := BitVec.ofNat 64 x.a
      (pa % 16 ≠ 0 → exec (.ldc x) s = traps t 0x30 va no 0) ∧
      (pa % 16 = 0 → ctlCapWord pa = none → exec (.ldc x) s = traps t 0x31 va no 0) ∧
      (pa % 16 = 0 → (ctlCapWord pa).isSome = true → needsSelfAuth t pa = true → exec (.ldc x) s = traps t 0x33 va no 0) ∧
      (pa % 16 = 0 → (ctlCapWord pa).isSome = true → needsSelfAuth t pa = false → ∀ r : State, releaseOwn .sys t = .ok () r →
        let u := acquire (forgetEarly r) r.core .sys
        exec (.ldc x) s = got (ctlCapRead u (.thread u.slot) pa) u))) ∧
  (∀ (x : LdcArgs) (s t : State) (pa : Nat), passes x.m s = true →
    let a := readC s.cur x.a
    let v := readC s.cur x.d
    let sc := scopeGet x.scope .core
    ctlCheck a x.imm.toInt 16 .store .write .core s = .ok (.ok pa) t → (v.tag = true → capHas a .scap = true) →
    (inCtl pa = false → pa % 16 = 0 →
      (∀ u : State, storeCapMem pa v sc x.hint.toNat t = .ok () u →
        exec (.stc x) s = .next (u.modCur (fun c => setPc c (nextPc c x.m)))) ∧
      (mayHold t = true → needRoom pa 16 t = .ok () t →
        exec (.stc x) s = .next ((joinsQueue t (loadAccess (.storeC v) pa 16 sc x.hint.toNat)).modCur
          (fun c => setPc c (nextPc c x.m)))) ∧
      (mayHold t = false → t.cur.spec = false → noneEarly t → meetsOwn t [(pa, 16)] = false →
        exec (.stc x) s = .next ((storePiece t t.core none pa (capBytes v)
          (if v.tag then maskAt 4 (pa % 64 / 16) 1 else 0) sc x.hint.toNat).modCur (fun c => setPc c (nextPc c x.m))))) ∧
    (inCtl pa = true →
      let va := capCursor a + x.imm.signExtend 64
      let no : Word := BitVec.ofNat 64 x.a
      (pa % 16 ≠ 0 → exec (.stc x) s = traps t 0x30 va no 0) ∧
      (pa % 16 = 0 → ctlCapWord pa = none → exec (.stc x) s = traps t 0x31 va no 0) ∧
      (pa % 16 = 0 → (ctlCapWord pa).isSome = true → t.cur.spec = false →
        (needsSelfAuth t pa = true → exec (.stc x) s = traps t 0x33 va no 0) ∧
        (needsSelfAuth t pa = false → ∀ r : State, releaseOwn .sys t = .ok () r →
          match capCtlStore r (.thread r.slot) pa v with
          | .ok u => exec (.stc x) s = .next (u.modCur (fun c => setPc c (nextPc c x.m)))
          | .error .busy => exec (.stc x) s = traps r 0x32 va no 0
          | .error (.locked j) => exec (.stc x) s = traps r 0xA00 (BitVec.ofNat 64 pa) (BitVec.ofNat 64 j) 0)))) ∧
  (∀ (x : AmoArgs) (s t : State) (pa : Nat), passes x.m s = true → s.cur.spec = false →
    gPoison s.cur x.b = false → (x.kind = .cas → gPoison s.cur x.c = false) →
    let cap := readC s.cur x.a
    let size := x.ty.width / 8
    let sc := scopeGet x.scope .sys
    capAccess cap x.imm.toInt size .load .both sc s = .ok (.ok pa) t → capHas cap .store = true →
    let va := capCursor cap + x.imm.signExtend 64
    let no : Word := BitVec.ofNat 64 x.a
    (inCtl pa = true → exec (.amo x) s = traps t 0x31 va no 0) ∧
    (inCtl pa = false → pa % size ≠ 0 → exec (.amo x) s = traps t 0x24 va no 0) ∧
    (inCtl pa = false → pa % size = 0 →
      let held := mayHold t && !stepsNext t.cur x.d
      (held = true →
        exec (.amo x) s = .next ((joinsQueue t (loadAccess (.amoG x.kind x.ty x.d (gVal s.cur x.b)
          (if x.kind = .cas then gVal s.cur x.c else 0)) pa size sc x.hint.toNat)).modCur (fun c => setPc c (nextPc c x.m)))) ∧
      (held = false → ∀ d : State, drainParty .control t = .ok () d →
        exec (.amo x) s = .next ((amoLeaves d d.core pa size sc x.hint.toNat x.kind x.ty x.d (gVal s.cur x.b)
          (gVal s.cur x.c)).modCur (fun c => setPc c (nextPc c x.m))))))

/-- The fences (R122, R123): FENCE.VS and FENCE.ALL wait until the vector agent has committed and its accesses, the reads of a tile
among them (R121, R242) and with FENCE.ALL the thread's own too, have performed, then release and acquire at their scope; FENCE.SV
and FENCE.VV do so as entries of the vector queue, FENCE.SV once the older accesses of the control thread have performed. TFENCE
releases at .pkg, drops the held translations that its kind selects and completes when what went through them has performed (R403);
CWB carries a line to its scope and IINV drops it from instruction caches (R170); IFENCE discards the words fetched ahead (R170,
R171) and moves on. -/
def Obligations.FencesOrder : Prop :=
  (∀ (x : FenceArgs) (s d : State), passes x.m s = true →
    let leaves : Out := .next ((acquire (release d d.core (scopeGet x.scope .sys)) d.core (scopeGet x.scope .sys)).modCur
      (fun c => setPc c (nextPc c x.m)))
    ((do waitVector; drainParty .vector; tileRead : M Unit) s = .ok () d → exec (.fenceVs x) s = leaves) ∧
    ((do waitVector; drainParty .vector; tileRead; drainParty .control : M Unit) s = .ok () d →
      exec (.fenceAll x) s = leaves)) ∧
  (∀ (x : FenceArgs) (s d : State), s.party = .vector →
    let sc := scopeGet x.scope .sys
    let leaves : Out := .next (passEntry (acquire (release d d.core sc) d.core sc))
    ((if 0 < s.cur.vlive then (do drainParty .vector; olderScalar : M Unit) else olderScalar) s = .ok () d →
      exec (.fenceSv x) s = leaves) ∧
    ((do drainParty .vector; tileRead : M Unit) s = .ok () d → exec (.fenceVv x) s = leaves)) ∧
  (∀ (x : TfenceArgs) (s r : State), passes x.m s = true → s.cur.spec = false →
    ((tfReads x.kind).1 = true → gPoison s.cur x.a = false) →
    ((tfReads x.kind).2 = true → gPoison s.cur x.b = false) → releaseOwn .pkg s = .ok () r →
    let sc := scopeGet x.scope .pkg
    let u := translationsDropped r sc x.kind (if (tfReads x.kind).1 then gVal s.cur x.a else 0)
      (if (tfReads x.kind).2 then gVal s.cur x.b else 0)
    u.cores.any (fun p => tfenceCovers u.core sc p.1 && coreStalls u p.1) = false →
    exec (.tfence x) s = .next (u.modCur (fun c => setPc c (nextPc c x.m)))) ∧
  (∀ (x : CwbArgs) (s t u : State) (pa : Nat), passes x.m s = true → lineCheck x false s = .ok pa t →
    ownFirst (alignDown pa 64) 64 t = .ok () u →
    exec (.cwb x) s = .next ((propagate u u.core (lineOf pa) (scopeGet x.scope .die)).modCur
      (fun c => setPc c (nextPc c x.m)))) ∧
  (∀ (x : CwbArgs) (s t : State) (pa : Nat), passes x.m s = true → s.cur.spec = false →
    lineCheck x true s = .ok pa t →
    exec (.iinv x) s = .next ((dropCode t (coresWithin t.core (scopeGet x.scope .core)) (lineOf pa)).modCur
      (fun c => setPc c (nextPc c x.m)))) ∧
  (∀ (x : MArgs) (s : State), passes x.m s = true →
    let u := if (s.coreAt s.core).ahead.isEmpty then s else s.modCore s.core (fun c => { c with ahead := [] })
    exec (.ifence x) s = .next (u.modCur (fun c => setPc c (nextPc c x.m))))

/-! ### Capabilities -/

/-- CGET (R82) writes a field of its operand, tagged or not, CTEST (R83) the answer of its comparison, both unpoisoned, and CMOV (R84)
the capability with its tag; each moves on. -/
def Obligations.CapabilityInstructions : Prop :=
  (∀ (x : CgetArgs) (s : State), passes x.m s = true →
    exec (.cget x) s = changes s (fun c => setPc (writeG c x.d (cgetValue x.kind (readC c x.a))) (nextPc c x.m))) ∧
  (∀ (x : CtestArgs) (s : State), passes x.m s = true →
    exec (.ctest x) s = changes s (fun c => setPc (writeG c x.d
      (if x.eq then (if readC c x.a = readC c x.b then 1 else 0)
       else if capSub (readC c x.a) (readC c x.b) then 1 else 0)) (nextPc c x.m))) ∧
  (∀ (x : CmovArgs) (s : State), passes x.m s = true →
    exec (.cmov x) s = changes s (fun c => setPc (writeC c x.d (readC c x.a)) (nextPc c x.m))) ∧
  (∀ a b : Cap,
    cgetValue .cursor a = capCursor a ∧ cgetValue .base a = BitVec.ofNat 64 (capBounds a).1 ∧
    cgetValue .top a = BitVec.ofNat 64 (capBounds a).2 ∧
    cgetValue .len a = BitVec.ofNat 64 ((capBounds a).2 - (capBounds a).1) ∧ cgetValue .perm a = (capPerms a).setWidth 64 ∧
    cgetValue .otype a = (capOtype a).setWidth 64 ∧ cgetValue .tag a = (if a.tag then 1 else 0) ∧
    cgetValue .exp a = BitVec.ofNat 64 (capE a) ∧
    (capSub a b = true ↔ a.tag = true ∧ b.tag = true ∧ capOtype a = capOtype b ∧
      (∀ p : CapPerm, capHas a p = true → capHas b p = true) ∧
      (capBounds b).1 ≤ (capBounds a).1 ∧ (capBounds a).2 ≤ (capBounds b).2))

/-- CBOUND, CNARROW, CADDR and CINC (R78 to R81), the trapping operands aside, write what they derive from their operand and move on;
CNARROW that seals to type 1 what sealQueue makes of the queue head page (R80; notes/assumptions/73.md). No derivation gains (R77): what
they make of an operand is tagged only where the operand is, carries no permission that it does not, and, where tagged, lies
within its bounds, sealing to a type other than 1 included; sealing leaves permissions and bounds alone. What CNARROW seals to type
1 (R80) is tagged only where the operand is and carries ctl; its permissions are those asked for, and its bounds those of a queue
head page: R77's one exception. -/
def Obligations.DerivationsNeverGain : Prop :=
  (∀ (x : CapArgs) (s : State), passes x.m s = true → gPoison s.cur x.b = false → isUnsealed s.cur x.a = true →
    let v := gVal s.cur x.b
    let a := readC s.cur x.a
    exec (.cbound x) s = changes s (fun c => setPc (writeC c x.d (boundCap a v)) (nextPc c x.m)) ∧
    exec (.caddr x) s = changes s (fun c => setPc (writeC c x.d (setCursor a v)) (nextPc c x.m)) ∧
    (field v 8 8 = 0 →
      exec (.cnarrow x) s = changes s (fun c => setPc (writeC c x.d (maskPerms a (v.setWidth 6))) (nextPc c x.m))) ∧
    (field v 8 8 ≠ 0 → field v 8 8 ≠ 1 →
      exec (.cnarrow x) s = changes s (fun c =>
        setPc (writeC c x.d (withOtype (maskPerms a (v.setWidth 6)) (BitVec.ofNat 8 (field v 8 8)))) (nextPc c x.m))) ∧
    (∀ (r : Cap) (t : State), field v 8 8 = 1 →
      sealQueue a (withOtype (maskPerms a (v.setWidth 6)) 1) s = .ok r t →
      t = s ∧ exec (.cnarrow x) s = changes s (fun c => setPc (writeC c x.d r) (nextPc c x.m)))) ∧
  (∀ (x : CincArgs) (s : State), passes x.m s = true → gPoison s.cur x.b = false → isUnsealed s.cur x.a = true →
    exec (.cinc x) s = changes s (fun c => setPc (writeC c x.d
      (setCursor (readC c x.a) (capCursor (readC c x.a) + gVal c x.b + x.imm.signExtend 64))) (nextPc c x.m))) ∧
  (∀ (c : Cap) (v : Word) (mask : BitVec 6) (ty : BitVec 8) (r : Cap),
    r ∈ [boundCap c v, maskPerms c mask, withOtype (maskPerms c mask) ty, setCursor c v] → r.tag = true →
    c.tag = true ∧ (∀ p : CapPerm, capHas r p = true → capHas c p = true) ∧
    (capBounds c).1 ≤ (capBounds r).1 ∧ (capBounds r).2 ≤ (capBounds c).2) ∧
  (∀ (c : Cap) (mask : BitVec 6) (ty : BitVec 8),
    let n := maskPerms c mask
    capOtype (withOtype n ty) = ty ∧ capPerms (withOtype n ty) = capPerms n ∧ capBounds (withOtype n ty) = capBounds n) ∧
  (∀ (c : Cap) (mask : BitVec 6) (s t : State) (r : Cap),
    sealQueue c (withOtype (maskPerms c mask) 1) s = .ok r t → r.tag = true →
    t = s ∧ c.tag = true ∧ capHas c .ctl = true ∧ capPerms r = capPerms c &&& mask ∧ capOtype r = 1 ∧
    (queueOfPage (capBounds r).1).isSome = true ∧ (capBounds r).2 = (capBounds r).1 + 4096)

/-! ### Services, parks, halts, traps -/

/-- CALLQ (R110): with a queue sealed for services that takes a record, and once the accesses of the context's agents have
performed, the context halts with cause CALLQ past the instruction, its sequence number stepped, and the record is posted. PARK
of a word of memory or of control space (R111, R128): the thread moves past the instruction, and parks on the word's line where the
word reads as gV, its lanes resting (R176); a word in a register image traps CTLACCESS, one of the thread's own authority words
without the grant SELFAUTH (R90). HALT (R112): once the vector queue is empty and the accesses have performed, the halt with cause HALT
past the instruction. YIELD (R158): a pre-emption is requested where a context of the region waits for a core. -/
def Obligations.CallqParkHaltYield : Prop :=
  (∀ (x : CallqArgs) (s d : State) (q : Nat), passes x.m s = true → s.cur.spec = false →
    let cap := readC s.cur x.c
    cap.tag = true → capOtype cap = 1 → (∀ n ∈ [x.g, 1, 2, 3, 4], gPoison s.cur n = false) →
    (do waitVector; quiet : M Unit) s = .ok () d →
    let r := release d d.core .sys
    serviceQueue r (capBounds cap).1 = some q →
    let u := r.modCur (fun c => { c with h := { c.h with trapseq := c.h.trapseq + 1 } })
    let rec_ := callqRecord u.slot u.cur (gVal u.cur x.g) (capCursor cap - BitVec.ofNat 64 (capBounds cap).1)
    let v := u.modCur (fun c => setPc c (nextPc c x.m))
    exec (.callq x) s = .next (postRecord (haltWith v.slot cCallq v) q rec_)) ∧
  (∀ (x : ParkArgs) (s t : State) (pa : Nat), passes x.m s = true →
    let c := s.cur
    ctlCheck (readC c x.c) (memOff (gVal c x.x) x.imm) 8 .load .read .sys s = .ok (.ok pa) t → pa % 8 = 0 →
    gPoison t.cur x.x = false → gPoison t.cur x.v = false →
    let leaves (v : Word) (r : State) : Out :=
      let u := r.modCur (fun c => setPc c (nextPc c x.m))
      let p := u.modCur (fun c => { c with parked := some (lineOf pa), hit := false })
      .next (if v = gVal c x.v then restLanes p p.slot else u)
    let va := capCursor (readC c x.c) + wordOf (memOff (gVal c x.x) x.imm)
    let no : Word := BitVec.ofNat 64 x.c
    (∀ (bs : List Byte) (r : State), inCtl pa = false → loadMem pa 8 .sys 0 t = .ok bs r →
      exec (.park x) s = leaves (wordOfBytes bs) r) ∧
    (inCtl pa = true → inImage pa = true → exec (.park x) s = traps t 0x31 va no 0) ∧
    (inCtl pa = true → inImage pa = false → needsSelfAuth t pa = true → exec (.park x) s = traps t 0x33 va no 0) ∧
    (∀ r : State, inCtl pa = true → inImage pa = false → needsSelfAuth t pa = false → releaseOwn .sys t = .ok () r →
      exec (.park x) s = leaves (ctlRead r (.thread r.slot) pa) (acquire (forgetEarly r) r.core .sys))) ∧
  (∀ (x : MArgs) (s d : State), passes x.m s = true → (do waitVector; quiet : M Unit) s = .ok () d →
    let u := d.modCur (fun c => setPc c (nextPc c x.m))
    exec (.halt x) s = .next (haltWith u.slot cHalt u)) ∧
  (∀ (x : MArgs) (s : State), passes x.m s = true →
    let u := s.modCur (fun c => setPc c (nextPc c x.m))
    exec (.yieldCore x) s = .next (if waitingContext u u.cur.h.region u.slot then requestPreempt u u.slot else u))

/-- Taking a trap (R106) where no access that stalls keeps the halt back: the context stops with the cause, party and details of
the trap, its sequence number stepped, the pc as it stands, the vector point on the oldest uncommitted entry (R165), no lane
held (R180), and nothing left to halt it; a speculative segment keeps the record for its commit (R369). A halt (R101, R129)
leaves RUN 0 and the cause. Where no access of the context's agents waits, registers and queue stand too. -/
def Obligations.TrapAndHaltEntry : Prop :=
  (∀ (slot : Nat) (t : Trap) (s : State), haltWaits s slot = false →
    let c := s.ctxAt slot
    let d := (takeTrap slot t s).ctxAt slot
    d.h.run = 0 ∧ d.h.cause = t.cause ∧ d.h.party = BitVec.ofNat 4 t.party ∧ d.h.detail0 = t.detail0 ∧
    d.h.detail1 = t.detail1 ∧ d.h.poisonPc = t.poisonPc ∧ d.h.trapseq = c.h.trapseq + 1 ∧ d.h.pc = c.h.pc ∧
    d.h.vcp = vcpOf d ∧ d.halt = none ∧ d.trap = (if c.spec then some t else none) ∧ d.core = c.core ∧ d.vr.held = 0 ∧
    (quietAgents s slot = true → d.r.c = c.r.c ∧ d.r.g = c.r.g ∧ d.vqn = c.vqn ∧ d.vq = c.vq)) ∧
  (∀ (slot : Nat) (cause : BitVec 16) (s : State),
    let c := s.ctxAt slot
    let d := (haltWith slot cause s).ctxAt slot
    d.h.run = 0 ∧ d.h.cause = cause ∧ d.h.party = 0 ∧ d.h.pc = c.h.pc ∧ d.h.vcp = vcpOf d ∧ d.h.trapseq = c.h.trapseq ∧
    d.halt = none ∧ d.trap = none ∧ d.parked = none ∧ d.vr.held = 0 ∧
    (quietAgents s slot = true → d.r.c = c.r.c ∧ d.r.g = c.r.g ∧ d.vq = c.vq ∧ d.vqn = c.vqn))

/-- A resume (R101): RUN as asked, CAUSE 0, pc, registers and the uncommitted entries of the vector queue as the frame holds
them; nothing pending, parked or halting, and an acquire at .sys to come before the first instruction (R110). That a context which a prune
has stopped for good does not resume is the model's reading (notes/assumptions/27.md). -/
def Obligations.ResumeOfAContext : Prop :=
  (∀ (slot : Nat) (run : BitVec 2) (s : State), (s.ctxAt slot).ending = false →
    (vqEntries (s.ctxAt slot)).all (fun e => !entryBad e) = true →
    let c := s.ctxAt slot
    let d := (resumeCtx slot run s).ctxAt slot
    d.h.run = run ∧ d.h.cause = 0 ∧ d.h.pend = false ∧ d.h.pc = c.h.pc ∧ d.r = c.r ∧ d.vqn = c.vqn ∧ d.vq = c.vq ∧
    d.trap = none ∧ d.halt = none ∧ d.parked = none ∧ d.firstAcq = some .sys) ∧
  (∀ (slot : Nat) (run : BitVec 2) (s : State), (s.ctxAt slot).ending = true → resumeCtx slot run s = s)

/-- Control-thread instructions that consume a poisoned register, an unaligned target or a capability that is not one trap
with the cause and details of R105, R142, R50, R79 and R81, pc on the instruction. Words that are no instruction trap with
cause ILLEGAL, the first word and the length in DETAIL0 and DETAIL1 (R67); the trap that waits for the boundary is taken
there (R106). The details that a rule does not state alone are notes/assumptions/14.md, DETAIL1 of FETCHALIGN notes/assumptions/69.md,
and POISONPC 0 where no poison is consumed notes/assumptions/16.md. -/
def Obligations.ControlThreadTraps : Prop :=
  (∀ (i : Instr) (m : Mods) (n : GReg) (s : State), consumesFirst i = some (m, n) → passes m s = true →
    gPoison s.cur n = true →
    exec i s = traps s 0x40 (BitVec.ofNat 64 n) ((s.cur.r.ocause[n]).setWidth 64) (s.cur.r.oaddr[n])) ∧
  (∀ (x : MaArgs) (i : Instr) (s : State), i = .jmp x ∨ i = .jmpCall x → passes x.m s = true →
    gPoison s.cur x.a = false → field (gVal s.cur x.a) 0 2 ≠ 0 →
    exec i s = traps s 0x11 (gVal s.cur x.a) 0 0) ∧
  (∀ (x : CapArgs) (i : Instr) (s : State), i = .cbound x ∨ i = .cnarrow x ∨ i = .caddr x → passes x.m s = true →
    gPoison s.cur x.b = false → isUnsealed s.cur x.a = false →
    exec i s = traps s 0x23 (BitVec.ofNat 64 x.a) 0 0) ∧
  (∀ (x : LdArgs) (s t : State) (f : AccFault), active x.m s.cur 0 = true →
    gPoison s.cur x.c = false → gPoison s.cur x.d = false →
    ctlCheck (readC s.cur x.a) (memOff (gVal s.cur x.c) x.imm) (x.ty.width / 8) .store .write .core s = .ok (.error f) t →
    exec (.st x) s = traps t f.cause f.va (f.det.getD (f.hi ||| BitVec.ofNat 64 x.a)) 0) ∧
  (∀ (k : Nat) (s t : State) (ws : List Word32), boundaryWords (acting s k .control) = some (ws, t) →
    decodeWords ws = none →
    exec (.illegalInstruction k) s =
      traps t 0x10 ((ws.headD 0).setWidth 64) (BitVec.ofNat 64 (instrLength (ws.headD 0))) 0) ∧
  (∀ (slot : Nat) (c : Ctx) (t : Trap) (s : State), s.ctx? slot = some c → c.trap = some t → c.h.run ≠ 0 →
    exec (.trap slot) s = .next (takeTrap slot t s))

/-! ### The steps of the ordering machine and of instruction boundaries -/

/-- ISSUE, PERFORM_LOAD and PERFORM_STORE of the access at a place of its queue (R116), where no older access must come before it
(R118), its pages do not migrate, and, for an element store, its instruction has committed (R119): the access moves to the
pending loads or the store buffer; the load writes its register from memory with the buffered stores' bytes over it (a load of a
record's RSTATE word has no such store before it, R314); an AMO, which is ordered with every access of its party, loads and stores
in one step (R126); the store goes to memory at its scope. EVICT1 and EVICT2 (R116): of a line that stands apart, the line leaves
the level; its dirty bytes are at the next point, and every other line of that level stays. What waits in the queues is
notes/assumptions/4.md. -/
def Obligations.DeferredAccessesAndEvictions : Prop :=
  (∀ (x : AccArgs) (a : Access) (s : State), (pqOf s x.core x.party).issue[x.idx]? = some a →
    olderMeets (pqOf s x.core x.party).issue x.idx a = false →
    (isStore a = true → (pqOf s x.core x.party).pending.any (keepOrder a) = false) →
    (isStore a = false → (pqOf s x.core x.party).pending.any isAmo = false) →
    (isAmo a = true → (pqOf s x.core x.party).pending = [] ∧ (pqOf s x.core x.party).stores = []) → accStalls s a = false →
    ∃ t, exec (.issue x) s = .next t ∧
      (pqOf t x.core x.party).issue = (pqOf s x.core x.party).issue.eraseIdx x.idx ∧
      (pqOf t x.core x.party).pending = (pqOf s x.core x.party).pending ++ (if isStore a then [] else [a]) ∧
      (pqOf t x.core x.party).stores = (pqOf s x.core x.party).stores ++ (if isStore a then [a] else []) ∧
      t.mem = s.mem ∧ t.ctxs = s.ctxs) ∧
  (∀ (x : AccArgs) (a : Access) (s : State), (pqOf s x.core x.party).pending[x.idx]? = some a →
    olderMeets (pqOf s x.core x.party).pending x.idx a = false → accStalls s a = false →
    behindRstate s (pqOf s x.core x.party).stores (accRanges a) = false →
    let u := modPq (acting s x.core x.party) x.core x.party (fun q => { q with pending := q.pending.eraseIdx x.idx })
    let stores := (pqOf s x.core x.party).stores
    let v := { u with code := a.code }
    let r := ctxLoad v x.core a.pa a.size a.scope a.hint
    let bs := forwarded stores a.pa r.2
    (x.party ≠ .vector → exec (.performLoad x) s = .next (performAccess u x.core stores a)) ∧
    (x.party = .vector → exec (.performLoad x) s = .next
      (let t := retire x.core 64 (performAccess u x.core stores a)
      restAfter t t.slot)) ∧
    (∀ (ty : Ty) (d : GReg), a.kind = .loadG ty d → performAccess u x.core stores a = r.1.modCur (fun c =>
      spinSeen (writeG c d (loadValue ty bs)) a.pa a.size (BitVec.ofNat 128 (natOfBytes bs)) false)) ∧
    (∀ (kind : AmoKind) (ty : Ty) (d : GReg) (b c : Word), a.kind = .amoG kind ty d b c → a.size = ty.width / 8 →
      performAccess u x.core stores a = amoLeaves v x.core a.pa a.size a.scope a.hint kind ty d b c)) ∧
  (∀ (x : AccArgs) (a : Access) (s : State), (pqOf s x.core x.party).stores[x.idx]? = some a →
    olderMeets (pqOf s x.core x.party).stores x.idx a = false → accStalls s a = false → (x.party = .vector → a.n = 0) →
    let u := modPq (acting s x.core x.party) x.core x.party (fun q => { q with stores := q.stores.eraseIdx x.idx })
    exec (.performStore x) s = .next (performAccess u x.core [] a) ∧
    (∀ v : Word, a.kind = .store v → performAccess u x.core [] a =
      ctxStore { u with code := a.code } x.core a.pa ((wordBytes 8 v).take a.size) a.scope a.hint)) ∧
  (∀ (k l : Nat) (x : L1Line) (s : State), s.l1Line k l = some x → quietLine s k l = true →
    ∃ t, exec (.evict1 k l) s = .next t ∧ t.l1Line k l = none ∧ t.mem = s.mem ∧
      (∀ n : Nat, n ≠ l → t.l1Line k n = s.l1Line k n) ∧
      (x.dirty = 0 → t.l2 = s.l2) ∧
      (x.dirty ≠ 0 → narrower x.scope .die = true → t.l2Line (dieOf k) l = some
        (let y := (s.l2Line (dieOf k) l).getD
          { data := pkgData s l, dirty := 0, tags := pkgTags s l, writers := [], owner := 0, code := 0 }
        { data := mergeData y.data x.data x.dirty, dirty := y.dirty ||| x.dirty, tags := mergeTags y.tags x.tags x.dirty,
          writers := x.writers.foldl (fun ks j => insertNat j ks) y.writers, owner := x.owner, code := x.code }))) ∧
  (∀ (d l : Nat) (x : L2Line) (s : State), s.l2Line d l = some x → (∀ e : Nat, (s.snapAt e).cut = false) → s.ties = [] →
    s.side = [] →
    ∃ t, exec (.evict2 d l) s = .next t ∧ t.l2Line d l = none ∧
      (∀ n : Nat, n ≠ l → t.l2Line d n = s.l2Line d n) ∧
      (x.dirty ≠ 0 → ∀ e : Nat, e < 4 → t.l2Line e l = none) ∧
      ((∀ e : Nat, e ≠ d → s.l2Line e l = none) → pkgData t l = mergeData (pkgData s l) x.data x.dirty) ∧
      (∀ a : Nat, a / 64 ≠ l → memGet t.mem a = memGet s.mem a))

/-- COMMIT runs the vector instruction of the oldest entry that its agent has not executed, once the loads into its registers
have performed (R116, R118, R119), and a context that waits lets its lanes rest (R176). VECTOR_PUSH runs the control thread's
part of the vector instruction that its next words encode (R163). What a boundary does before the next instruction: HALT_STEP
ends a stop or a single step (R101, R129), COMMIT_APPLY makes the requested copies once what was issued under the old words has
performed, its stores at .sys (R97, R129, R410), PARK_WAKE wakes a thread whose line
was written (R111). -/
def Obligations.QueueEntriesAndBoundaries : Prop :=
  (∀ (k slot : Nat) (i : Instr) (s r : State), (s.coreAt k).slot = some slot →
    mayCommit (acting s k .vector).cur = true → entryInstr (vqHead (acting s k .vector).cur) = some i →
    vecReady i (acting s k .vector) = some r → (vecDispatch i r).isSome = true →
    ∃ t, exec i r = .next t ∧ exec (.commit k) s = .next (restAfter t slot)) ∧
  (∀ (k : Nat) (ws : List Word32) (i : Instr) (s t r : State), boundaryWords (acting s k .control) = some (ws, t) →
    decodeWords ws = some i → ready i t = some r → (vecDispatch i r).isSome = true →
    ∃ u, exec i r = .next u ∧ exec (.vectorPush k) s = .next (afterThread t.slot t.cur.h.pc t.cur.h.run i u)) ∧
  (∀ (slot : Nat) (c : Ctx) (s : State), s.ctx? slot = some c → c.h.run ≠ 0 → haltWaits s slot = false →
    (c.halt = some .stop → exec (.haltStep slot) s = .next (haltWith slot cStop s)) ∧
    (c.halt = some .step → c.vqn ≤ c.vlive → exec (.haltStep slot) s = .next (haltWith slot cStep s))) ∧
  (∀ (slot : Nat) (c : Ctx) (s : State), s.ctx? slot = some c → commitPending c = true → haltWaits s slot = false →
    ∃ t, exec (.commitApply slot) s = .next t ∧
      (t.ctxAt slot).h.rootcap = (if c.h.reqRoot then c.h.shRootcap else c.h.rootcap) ∧
      (t.ctxAt slot).h.vlcap = (if c.h.reqVl then c.h.shVlcap else c.h.vlcap) ∧
      (t.ctxAt slot).h.atp = (if c.h.reqAtp then c.h.shAtp else c.h.atp) ∧
      commitPending (t.ctxAt slot) = false ∧
      (quietAgents s slot = true → (t.ctxAt slot).r = c.r ∧ t.mem = (match c.core with
        | some k => release s k .sys
        | none => s).mem)) ∧
  (∀ (slot : Nat) (c : Ctx) (s : State), s.ctx? slot = some c → c.parked.isSome = true → c.hit = true →
    ∃ t, exec (.parkWake slot) s = .next t ∧ (t.ctxAt slot).parked = none ∧ (t.ctxAt slot).hit = false ∧
      (t.ctxAt slot).h = c.h ∧ (t.ctxAt slot).r = c.r ∧ t.mem = s.mem)

/-- TRAP_RECORD_POST (R107, R444): the queue with room takes the trap record or the LAUNCH record that waits for it, that of the
lowest slot first, and a report where no such record waits (how LAUNCH records wait, and their order, is
notes/assumptions/26.md). A record
posted to a queue with room (R377): its eight words stand at the tail, the tail steps, and the queue's other words stay. -/
def Obligations.RecordsArePosted : Prop :=
  (∀ (q : Nat) (s : State), queueFull (s.queueAt q) = false →
    let named (r : Nat) : Bool := faultQueue s treeFuel r == some q
    let trap := s.ctxs.find? (fun p => p.2.h.pend && named p.2.h.region)
    (∀ p : Nat × Ctx, trap = some p → (∀ r ∈ s.launchRecs, named r.region = true → p.1 < r.slot) →
      exec (.trapRecordPost q) s = .next (postTrap s p.1)) ∧
    (∀ r ∈ s.launchRecs, named r.region = true → r.slot < 0x10000 →
      (∀ x ∈ s.launchRecs, named x.region = true → r.slot ≤ x.slot ∧ (x.slot = r.slot → x = r)) →
      (∀ p : Nat × Ctx, trap = some p → r.slot ≤ p.1) →
      exec (.trapRecordPost q) s = .next (postRecord { s with launchRecs := s.launchRecs.erase r } q r.words)) ∧
    (∀ r : Report, trap = none → (∀ x ∈ s.launchRecs, named x.region = false) →
      s.reports.find? (fun r => named r.region) = some r →
      exec (.trapRecordPost q) s = .next (postRecord { s with reports := s.reports.erase r } q (reportWords r)))) ∧
  (∀ (s : State) (q : Nat) (ws : List Word), ws.length = 8 →
    let h := s.queueAt q
    let a := h.ringbase.toNat + 64 * (h.tail.toNat % 2 ^ h.lg)
    a % 64 = 0 → inMemory s a = true → isRstate s a = false → (∀ d : Nat, (s.snapAt d).cut = false) →
    let t := postRecord s q ws
    memRead t.mem a 64 = (ws.map (wordBytes 8)).flatten ∧ (t.queueAt q).tail = h.tail + 1 ∧
    (t.queueAt q).head = h.head ∧ (t.queueAt q).lg = h.lg ∧ (t.queueAt q).ringbase = h.ringbase)

/-! ### The vector agent -/

/-- The control thread does not execute a vector instruction: with an entry free and no captured register poisoned, it appends
the words, the address and the captured operands to the vector queue and moves on (R163, R164); a FENCE.SV also marks the
accesses that stand before it (R123). Under a guard that never passes an entry does what no guard keeps from it and passes
(R59): PCOUNT counts 0 (R199), VRED leaves the empty value (R203), the other merging forms nothing; what such an entry does is the
reading of notes/assumptions/19.md. -/
def Obligations.VectorInstructionsAreQueued : Prop :=
  (∀ (i : Instr) (m : Mods) (g : Option GReg) (k : Option CReg) (s : State),
    captures i = some (m, g, k) → s.party = .control →
    (neverPasses m = false → ∀ n ∈ g, gPoison s.cur n = false) → s.cur.vqn < 64 →
    exec i s = .next (s.modCur (fun c => setPc (queued i
      (if neverPasses m then Cap.zero else (k.map (readC c)).getD Cap.zero)
      (if neverPasses m then 0 else (g.map (gVal c)).getD 0) c) (nextPc c m)))) ∧
  (∀ (i : Instr) (x : FenceArgs) (s : State), s.party = .control → active x.m s.cur 0 = true → s.cur.vqn < 64 →
    let t := s.modCur (fun c => setPc (queued i Cap.zero 0 c) (nextPc c x.m))
    (i = .fenceSv x → exec i s = .next (markOlder t)) ∧ (i = .fenceVv x → exec i s = .next t)) ∧
  (∀ (i : Instr) (m : Mods) (g : Option GReg) (k : Option CReg) (d : VReg) (s : State),
    captures i = some (m, g, k) → s.party = .vector → neverPasses m = true → zeroing i = false → vecDest i = some d →
    (∀ x : VRedArgs, i ≠ .vred x) → exec i s = .next (passEntry s)) ∧
  (∀ (x : VRedArgs) (s : State), s.party = .vector → neverPasses x.m = true →
    let w := redWidth x.kind x.ty x.wid
    destOk s.cur x.d s.cur.vr.vl.toNat w = true →
    exec (.vred x) s = commitsWith s x.d w [(0, { val := redEmpty x.kind x.ty, q := none })] []) ∧
  (∀ (x : PcountArgs) (s : State), s.party = .vector → neverPasses x.m = true →
    exec (.pcount x) s = .next (passEntry (s.modCur (fun c => writeG c x.d 0))))

/-- VIALU (R194): where the sources read and the destination group fits, each active element becomes the wrapped or clamped
value of the operation on its elements, with the poison of the first poisoned source; inactive elements stay, or become 0 in
the zeroing form (R189). -/
def Obligations.IntegerVectors : Prop :=
  (∀ p ∈ vintTable, ∀ (x : VBinArgs) (s : State) (xs ys : List Elem), vecActs x.m s = true →
    reads x.a x.ty s xs → reads x.b x.ty s ys →
    let nd := x.ty.width * 2 ^ x.wid.toNat
    destFits x.d nd s →
    exec (p.1 x) s = commitsWith s x.d nd (guardElems x.m x.zf s.cur (List.zipWith (fun a b =>
      { val := intBits x.ty.signed nd x.sat (p.2 x.ty a b), q := a.q.or b.q }) xs ys)) [x.a, x.b]) ∧
  (∀ (x : VBinArgs) (s : State) (xs ys : List Elem), vecActs x.m s = true →
    reads x.a x.ty s xs → reads x.b x.ty s ys →
    let nd := x.ty.width * 2 ^ x.wid.toNat
    destFits x.d nd s →
    exec (.vmacc x) s = commitsWith s x.d nd (guardElems x.m x.zf s.cur (List.zipWith (fun a p =>
      { val := intBits x.ty.signed nd x.sat ((if x.ty.signed then (BitVec.ofNat nd p.2.val).toInt else p.2.val) +
          numOf x.ty a * numOf x.ty p.1), q := (a.q.or p.1.q).or p.2.q })
        xs (ys.zip (groupElems s.cur.vr x.d nd)))) [x.a, x.b]) ∧
  (∀ (x : VUnArgs) (s : State) (xs : List Elem), vecActs x.m s = true → reads x.a x.ty s xs →
    destFits x.d x.ty.width s →
    (exec (.vabs x) s = commitsWith s x.d x.ty.width (guardElems x.m x.zf s.cur (xs.map (fun a =>
      { val := intBits x.ty.signed x.ty.width x.sat (if numOf x.ty a < 0 then - numOf x.ty a else numOf x.ty a),
        q := a.q }))) [x.a]) ∧
    (exec (.vneg x) s = commitsWith s x.d x.ty.width (guardElems x.m x.zf s.cur (xs.map (fun a =>
      { val := intBits x.ty.signed x.ty.width x.sat (- numOf x.ty a), q := a.q }))) [x.a])) ∧
  (∀ (x : VSatArgs) (s : State) (xs : List Elem), vecActs x.m s = true → reads x.a x.ty s xs →
    destFits x.d x.ty.width s →
    exec (.vsat x) s = commitsWith s x.d x.ty.width (guardElems x.m x.zf s.cur (xs.map (fun a =>
      { val := intBits x.ty.signed x.ty.width false
          (if x.ty.signed then clamp (-(2 ^ (x.k.toNat - 1))) (2 ^ (x.k.toNat - 1) - 1) (numOf x.ty a)
           else clamp 0 (2 ^ x.k.toNat - 1) (numOf x.ty a)), q := a.q }))) [x.a]) ∧
  (∀ (x : VSelArgs) (s : State) (xs ys : List Elem), vecActs x.m s = true →
    reads x.a x.ty s xs → reads x.b x.ty s ys → destFits x.d x.ty.width s →
    exec (.vsel x) s = commitsWith s x.d x.ty.width (guardElems x.m x.zf s.cur ((xs.zip ys).mapIdx (fun e p =>
      if predBit s.cur x.c e then p.1 else p.2))) [x.a, x.b])

/-- VFALU, VFMA and the conversions (R195 to R197, R226 to R231): each active element is the exact result of the operation,
rounded once in the rounding of its index; fused forms round once; VQUANT and VDEQUANT work by blocks. -/
def Obligations.FloatVectors : Prop :=
  (∀ p ∈ vfTable, ∀ (x : VfBinArgs) (s : State) (xs ys : List Elem), vecActs x.m s = true →
    reads x.a x.ty s xs → reads x.b x.ty s ys →
    let td := if x.wid = 0 then x.ty else .f32
    destFits x.d td.width s →
    exec (p.1 x) s = commitsWith s x.d td.width (guardElems x.m x.zf s.cur ((xs.zip ys).mapIdx (fun e z =>
      { val := fpResult td (rmAt s.cur x.rm (BitVec.ofNat 64 e)) x.sat
          (p.2 x.rm (decodeFp x.ty z.1.val) (decodeFp x.ty z.2.val)), q := z.1.q.or z.2.q }))) [x.a, x.b]) ∧
  (∀ p ∈ vfmaTable, ∀ (x : VfmaArgs) (s : State) (xs ys zs : List Elem), vecActs x.m s = true →
    let td := if x.wid = 0 then x.ty else .f32
    reads x.a x.ty s xs → reads x.b x.ty s ys → reads x.c td s zs → destFits x.d td.width s →
    exec (p.1 x) s = commitsWith s x.d td.width (guardElems x.m x.zf s.cur ((xs.zip (ys.zip zs)).mapIdx (fun e z =>
      { val := fpResult td (rmAt s.cur x.rm (BitVec.ofNat 64 e)) x.sat
          ((negIf p.2.1 ((decodeFp x.ty z.1.val).mul (decodeFp x.ty z.2.1.val))).add
            (negIf p.2.2 (decodeFp td z.2.2.val)) (x.rm == .rm)),
        q := (z.1.q.or z.2.1.q).or z.2.2.q }))) [x.a, x.b, x.c]) ∧
  (∀ p ∈ vfOneTable, ∀ (x : VOneArgs) (s : State) (xs : List Elem), vecActs x.m s = true → reads x.a x.ty s xs →
    destFits x.d x.ty.width s →
    exec (p.1 x) s = commitsWith s x.d x.ty.width (guardElems x.m x.zf s.cur
      (xs.map (fun a => { val := p.2 x.ty a.val, q := a.q }))) [x.a]) ∧
  (∀ (x : VTwoArgs) (s : State) (xs ys : List Elem), vecActs x.m s = true →
    reads x.a x.ty s xs → reads x.b x.ty s ys → destFits x.d x.ty.width s →
    let leaves (most : Bool) : Out := commitsWith s x.d x.ty.width (guardElems x.m x.zf s.cur (List.zipWith (fun a b =>
      { val := fpPick x.ty most a.val b.val, q := a.q.or b.q }) xs ys)) [x.a, x.b]
    exec (.vfmin x) s = leaves false ∧ exec (.vfmax x) s = leaves true) ∧
  (∀ (x : VfUnArgs) (s : State) (xs : List Elem), vecActs x.m s = true → reads x.a x.ty s xs →
    destFits x.d x.ty.width s →
    exec (.vfsqrt x) s = commitsWith s x.d x.ty.width (guardElems x.m x.zf s.cur (xs.mapIdx (fun e a =>
      { val := fpResult x.ty (rmAt s.cur x.rm (BitVec.ofNat 64 e)) x.sat (decodeFp x.ty a.val).sqrt, q := a.q })))
        [x.a]) ∧
  (∀ (x : VcvtArgs) (s : State) (xs : List Elem), vecActs x.m s = true → reads x.a x.st s xs →
    destFits x.d x.dt.width s →
    let o := (vqHead s.cur).capG + x.off.setWidth 64
    exec (.vcvt x) s = commitsWith s x.d x.dt.width (guardElems x.m false s.cur (xs.mapIdx (fun e a =>
      { val := convert x.dt x.st (rmAt s.cur x.rm (o + BitVec.ofNat 64 e)) x.sat a.val, q := a.q }))) [x.a]) ∧
  (∀ (x : VquantArgs) (s : State) (xs : List Elem), vecActs x.m s = true → reads x.a x.st s xs →
    let n := if x.fine then 16 else 32
    let o := (vqHead s.cur).capG + x.off.setWidth 64
    destFits x.d x.dt.width s → checkDestN x.c (ceilDiv s.cur.vr.vl.toNat n) 8 s = .ok () s →
    let blocks := (blocksOf n (s.cur.vr.vl.toNat + 1) xs).zipIdx.filterMap (fun p =>
      if active x.m s.cur (p.2 * n) then some (p.2, quantBlock x.fine x.dt x.st
        (fun j => rmAt s.cur x.rm (o + BitVec.ofNat 64 j)) (p.2 * n) p.1) else none)
    let put (v : Vregs) : Vregs := blocks.foldl (fun v b => putElems x.d x.dt.width
      (b.2.1.zipIdx.map (fun p => (b.1 * n + p.2, p.1))) (putElem x.c 8 [] v (b.1, b.2.2))) v
    exec (.vquant x) s = .next (passEntry (stripsTaken [x.a] (s.modCur (fun c => { c with vr := put c.vr }))))) ∧
  (∀ (x : VquantArgs) (s : State) (xs scales : List Elem), vecActs x.m s = true → reads x.a x.st s xs →
    let n := if x.fine then 16 else 32
    let o := (vqHead s.cur).capG + x.off.setWidth 64
    readN x.c .z8 (ceilDiv s.cur.vr.vl.toNat n) s = .ok scales s → destFits x.d x.dt.width s →
    exec (.vdequant x) s = commitsWith s x.d x.dt.width (guardElems x.m false s.cur (xs.mapIdx (fun e a =>
      { val := dequantElem x.fine x.dt x.st (rmAt s.cur x.rm (o + BitVec.ofNat 64 e)) x.sat a.val
          (scales.getD (e / n) Elem.zero).val,
        q := a.q.or (scales.getD (e / n) Elem.zero).q }))) [x.a, x.c])

/-- Compares and predicates (R198, R199): bits of active elements, the others as they are or zeroed, the tail zero (R175,
R189); PCOUNT writes a general register, VEXIT clears from the first set element on. -/
def Obligations.ComparesAndPredicates : Prop :=
  (∀ (x : VcmpArgs) (s : State) (xs ys : List Elem), vecActs x.m s = true →
    reads x.a x.ty s xs → reads x.b x.ty s ys →
    consumeV x.m [(x.a, x.ty.width, xs), (x.b, x.ty.width, ys)] s = .ok () s →
    exec (.vcmp x) s = commitsPred s x.d (fun e => guardBit x.m x.zf s.cur e
      (condHolds x.cond (numOf x.ty (xs.getD e Elem.zero)) (numOf x.ty (ys.getD e Elem.zero)))) [x.a, x.b]) ∧
  (∀ (x : VfcmpArgs) (s : State) (xs ys : List Elem), vecActs x.m s = true →
    reads x.a x.ty s xs → reads x.b x.ty s ys →
    consumeV x.m [(x.a, x.ty.width, xs), (x.b, x.ty.width, ys)] s = .ok () s →
    exec (.vfcmp x) s = commitsPred s x.d (fun e => guardBit x.m x.zf s.cur e
      (fcondHolds x.cond (decodeFp x.ty (xs.getD e Elem.zero).val) (decodeFp x.ty (ys.getD e Elem.zero).val)))
        [x.a, x.b]) ∧
  (∀ (x : PTwoArgs) (s : State), vecActs x.m s = true →
    let leaves (f : Bool → Bool → Bool) : Out := commitsPred s x.d (fun e =>
      guardBit x.m x.zf s.cur e (f (predBit s.cur x.a e) (predBit s.cur x.b e))) []
    exec (.pand x) s = leaves (· && ·) ∧ exec (.por x) s = leaves (· || ·) ∧ exec (.pxor x) s = leaves (· != ·)) ∧
  (∀ (x : POneArgs) (s : State), vecActs x.m s = true →
    exec (.pnot x) s = commitsPred s x.d (fun e => guardBit x.m x.zf s.cur e (!predBit s.cur x.a e)) [] ∧
    exec (.pfirst x) s = commitsPred s x.d (fun e => some (firstSet x.m s.cur x.a == some e)) [] ∧
    (∀ f : Nat, (firstSet x.m s.cur x.a).getD s.cur.vr.vl.toNat = f →
      exec (.vexit x) s = commitsPred s x.d (fun e => if f ≤ e then some false else none) [])) ∧
  (∀ (x : PcountArgs) (s : State), vecActs x.m s = true →
    exec (.pcount x) s = .next (passEntry (s.modCur (fun c => writeG c x.d (BitVec.ofNat 64 ((List.range c.vr.vl.toNat).countP
      (fun e => active x.m c e && predBit c x.a e)))))))

/-- Permutes, reductions, scans and whole-register shifts (R200 to R205). -/
def Obligations.PermutesAndReductions : Prop :=
  (∀ (x : VTwoArgs) (s : State) (xs ys : List Elem), vecActs x.m s = true →
    reads x.a x.ty s xs → reads x.b x.ty s ys → destFits x.d x.ty.width s →
    (consumeV x.m [(x.b, x.ty.width, ys)] s = .ok () s →
      exec (.vperm x) s = commitsWith s x.d x.ty.width (permElems x.m x.zf s.cur (fun e =>
        some (xs.getD (ys.getD e Elem.zero).val Elem.zero))) [x.a, x.b]) ∧
    exec (.vzip x) s = commitsWith s x.d x.ty.width (permElems x.m x.zf s.cur (fun e =>
      some ((if e % 2 = 0 then xs else ys).getD (e / 2) Elem.zero))) [x.a, x.b]) ∧
  (∀ (x : VUnzipArgs) (s : State) (xs ys : List Elem), vecActs x.m s = true →
    reads x.a x.ty s xs → reads x.b x.ty s ys → destFits x.d x.ty.width s →
    exec (.vunzip x) s = commitsWith s x.d x.ty.width (permElems x.m x.zf s.cur (fun e =>
      some ((xs ++ ys).getD (2 * e + (if x.k then 1 else 0)) Elem.zero))) [x.a, x.b]) ∧
  (∀ (x : VSlideArgs) (s : State) (xs : List Elem), vecActs x.m s = true → reads x.a x.ty s xs →
    destFits x.d x.ty.width s →
    let n := (vqHead s.cur).capG.toNat + x.k.toNat
    exec (.vslideUp x) s = commitsWith s x.d x.ty.width (permElems x.m x.zf s.cur (fun e =>
      if n ≤ e then some (xs.getD (e - n) Elem.zero) else none)) [x.a] ∧
    exec (.vslideDn x) s = commitsWith s x.d x.ty.width (permElems x.m x.zf s.cur (fun e =>
      some (xs.getD (e + n) Elem.zero))) [x.a]) ∧
  (∀ (x : VBcastArgs) (s : State), vecActs x.m s = true → destFits x.d x.ty.width s →
    exec (.vbcast x) s = commitsWith s x.d x.ty.width (permElems x.m x.zf s.cur (fun _ =>
      some { val := (vqHead s.cur).capG.toNat % 2 ^ x.ty.width, q := none })) []) ∧
  (∀ (x : VOneArgs) (s : State) (xs : List Elem), vecActs x.m s = true → reads x.a x.ty s xs →
    destFits x.d x.ty.width s →
    let kept := (xs.zipIdx.filter (fun p => active x.m s.cur p.2)).map (·.1)
    exec (.vcompress x) s = commitsWith s x.d x.ty.width
      (((kept ++ if x.zf then List.replicate (xs.length - kept.length) Elem.zero else []).zipIdx).map
        (fun p => (p.2, p.1))) [x.a] ∧
    exec (.vexpand x) s = commitsWith s x.d x.ty.width (permElems x.m x.zf s.cur (fun e =>
      some (xs.getD ((List.range e).countP (fun i => active x.m s.cur i)) Elem.zero))) [x.a]) ∧
  (∀ (x : VRedArgs) (s : State) (xs : List Elem), vecActs x.m s = true → reads x.a x.ty s xs →
    let w := redWidth x.kind x.ty x.wid
    destFits x.d w s →
    let act := xs.zipIdx.filter (fun p => active x.m s.cur p.2)
    let comb (a b : Nat × Nat) : Nat × Nat :=
      (a.1, redCombine x.kind x.ty x.wid x.sat (rmAt s.cur x.rm (BitVec.ofNat 64 b.1)) a.2 b.2)
    let out := treeOf comb (0, redEmpty x.kind x.ty) (act.map (fun p => (p.2, redWiden x.kind x.ty x.wid p.1.val)))
    exec (.vred x) s = commitsWith s x.d w
      [(0, { val := quietCode x.kind x.ty x.wid out.2, q := firstQ (act.map (·.1)) })] [x.a]) ∧
  (∀ (x : VScanArgs) (s : State) (xs : List Elem), vecActs x.m s = true → reads x.a x.ty s xs →
    let w := redWidth x.kind x.ty x.wid
    destFits x.d w s →
    exec (.vscan x) s = commitsWith s x.d w (xs.zipIdx.foldl (scanStep x s.cur)
      (if x.carry && decide (0 < s.cur.vr.vl.toNat) then getElem_ s.cur.vr x.d w (s.cur.vr.vl.toNat - 1)
        else { val := redEmpty x.kind x.ty, q := none }, [])).2 [x.a]) ∧
  (∀ (x : VSlideArgs) (s t : State) (xs : List Elem), vecActs x.m s = true → reads x.a x.ty s xs →
    destFits x.d x.ty.width s →
    let n := xs.length * x.ty.width
    let k := min ((vqHead s.cur).capG.toNat + x.k.toNat) n
    let a := stringOf s.cur.vr x.a (boundOf s.cur x.a).isSome x.ty.width xs
    let z := WString.zeros (n / 8)
    (shiftWrite x.m x.zf x.d x.ty.width a z (n - k) s = .ok () t →
      exec (.vshlw x) s = .next (passEntry (stripsTaken [x.a] t))) ∧
    (shiftWrite x.m x.zf x.d x.ty.width z a k s = .ok () t →
      exec (.vshrw x) s = .next (passEntry (stripsTaken [x.a] t)))) ∧
  (∀ (x : VFshArgs) (s t : State) (xs ys : List Elem), vecActs x.m s = true → reads x.a x.ty s xs →
    reads x.b x.ty s ys → destFits x.d x.ty.width s →
    let n := xs.length * x.ty.width
    let k := min ((vqHead s.cur).capG.toNat + x.k.toNat) n
    let a := stringOf s.cur.vr x.a (boundOf s.cur x.a).isSome x.ty.width xs
    let b := stringOf s.cur.vr x.b (boundOf s.cur x.b).isSome x.ty.width ys
    (shiftWrite x.m x.zf x.d x.ty.width a b (n - k) s = .ok () t →
      exec (.vfshlw x) s = .next (passEntry (stripsTaken [x.a, x.b] t))) ∧
    (shiftWrite x.m x.zf x.d x.ty.width a b k s = .ok () t →
      exec (.vfshrw x) s = .next (passEntry (stripsTaken [x.a, x.b] t))))

/-- Vector loads and stores (R206 to R211): a load writes what lies at each element's place, with poison where its access
faults, the fault's cause its origin (R415); VLDFF shortens vl at the first fault after its first active element and traps at one of
its first (R208, with the details of R208, R258 and R289; POISONPC 0 is notes/assumptions/16.md); a store checks every element
before the first one performs. The accesses that pass their checks perform in index order, or join the issue queue, those of a
segment together (R119, R133); when they wait is notes/assumptions/4.md. The scales of VLDSEG and VSTSEG are a group of vl divided by
the block's length, the reading of notes/assumptions/20.md. -/
def Obligations.VectorMemory : Prop :=
  (∀ (x : VMemArgs) (strides : Bool) (s t u : State) (got : List (Nat × Except AccFault ElemLoad)), vecActs x.m s = true →
    destFits x.d x.ty.width s →
    let e0 := vqHead s.cur
    let sc := scopeGet x.scope .core
    ((activeElems x.m s.cur).mapM (fun e => do
      return (e, ← loadCheck e0.capC x.a sc x.d x.ty.width e e (strided strides x e0.capG e))) : M (List _)) s = .ok got t →
    let first := faulted e0.addr got ++ zeroedElems x.m x.zf s.cur s.cur.vr.vl.toNat
    issueLoads (passed got) sc x.hint.toNat (t.modCur (fun c => { c with vr := putElems x.d x.ty.width first c.vr })) =
      .ok () u →
    exec (if strides then .vlds x else .vld x) s = .next (passEntry u)) ∧
  (∀ (x : VMemXArgs) (s t u : State) (idx : List Elem) (got : List (Nat × Except AccFault ElemLoad)),
    vecActs x.m s = true → reads x.b .i32 s idx → destFits x.d x.ty.width s →
    let e0 := vqHead s.cur
    let sc := scopeGet x.scope .core
    ((activeElems x.m s.cur).mapM (fun e => do
      return (e, ← loadCheck e0.capC x.a sc x.d x.ty.width e e (← placeIdx x.b idx e))) : M (List _)) s = .ok got t →
    let first := faulted e0.addr got ++ zeroedElems x.m x.zf s.cur s.cur.vr.vl.toNat
    issueLoads (passed got) sc x.hint.toNat (t.modCur (fun c => { c with vr := putElems x.d x.ty.width first c.vr })) =
      .ok () u →
    exec (.vldx x) s = .next (passEntry (stripsTaken [x.b] u))) ∧
  (∀ (x : VMemArgs) (s t u : State) (got : List ElemLoad) (f : Option (Nat × AccFault)), vecActs x.m s = true →
    destFits x.d x.ty.width s →
    let e0 := vqHead s.cur
    let sc := scopeGet x.scope .core
    checkFirst x.ty x.d x.a e0.capC sc (memOff e0.capG x.imm) (activeElems x.m s.cur) s = .ok (got, f) t →
    (f.isSome = true → got ≠ []) →
    let n := (f.map (·.1)).getD s.cur.vr.vl.toNat
    issueLoads (got.map (fun y => [y])) sc x.hint.toNat (t.modCur (fun c => { c with vr := { putElems x.d x.ty.width
      (got.map (fun y => (y.e, Elem.zero)) ++ zeroedElems x.m x.zf s.cur n) c.vr with vl := BitVec.ofNat 13 n } }))
        = .ok () u →
    exec (.vldff x) s = .next (passEntry u)) ∧
  (∀ (x : VMemArgs) (s t : State) (e : Nat) (f : AccFault), vecActs x.m s = true → destFits x.d x.ty.width s →
    let e0 := vqHead s.cur
    checkFirst x.ty x.d x.a e0.capC (scopeGet x.scope .core) (memOff e0.capG x.imm) (activeElems x.m s.cur) s =
      .ok ([], some (e, f)) t →
    let place : Word := f.hi ||| BitVec.ofNat 64 (e % 2 ^ 16 ||| x.a.val <<< 16)
    let detail1 : Word := if f.cause = 0x900 ∨ f.cause = 0x407 then BitVec.ofNat 64 x.a else f.det.getD place
    exec (.vldff x) s =
      .next (raiseFor t.slot { cause := f.cause, party := 1, detail0 := f.va, detail1 := detail1, poisonPc := 0 } t)) ∧
  (∀ (x : VMemArgs) (strides : Bool) (s t u : State) (xs : List Elem) (out : List ElemStore), vecActs x.m s = true →
    reads x.d x.ty s xs →
    let e0 := vqHead s.cur
    let sc := scopeGet x.scope .core
    (activeElems x.m s.cur).mapM (fun e =>
      storeCheck e0.capC x.a sc x.d x.ty.width e e (strided strides x e0.capG e) (xs.getD e Elem.zero)) s = .ok out t →
    issueStores (out.map (fun y => [y])) sc x.hint.toNat t = .ok () u →
    exec (if strides then .vsts x else .vst x) s = .next (passEntry (stripsTaken [x.d] u))) ∧
  (∀ (x : VMemXArgs) (s t u : State) (idx xs : List Elem) (out : List ElemStore), vecActs x.m s = true →
    reads x.b .i32 s idx → reads x.d x.ty s xs →
    let e0 := vqHead s.cur
    let sc := scopeGet x.scope .core
    ((activeElems x.m s.cur).mapM (fun e => do
      storeCheck e0.capC x.a sc x.d x.ty.width e e (← placeIdx x.b idx e) (xs.getD e Elem.zero)) : M (List _)) s = .ok out t →
    issueStores (out.map (fun y => [y])) sc x.hint.toNat t = .ok () u →
    exec (.vstx x) s = .next (passEntry (stripsTaken [x.d, x.b] u))) ∧
  (∀ (x : VSegArgs) (s t u : State) (nb : Nat) (o : Int) (xs scales : List Elem) (out : List (List ElemStore)),
    vecActs x.m s = true → segCheck x s = .ok (nb, o) s → reads x.d x.ty s xs →
    readN x.c .z8 (s.cur.vr.vl.toNat / blockLen x.fine) s = .ok scales s →
    (activeSegs x s.cur).mapM (segStores x (vqHead s.cur).capC nb o xs scales) s = .ok out t →
    issueStores out (scopeGet x.scope .core) x.hint.toNat t = .ok () u →
    exec (.vstseg x) s = .next (passEntry (stripsTaken [x.d, x.c] u))) ∧
  (∀ (x : VSegArgs) (s t u : State) (nb : Nat) (o : Int) (got : List (Nat × Except AccFault (List ElemLoad))),
    vecActs x.m s = true → segCheck x s = .ok (nb, o) s → destFits x.d x.ty.width s →
    let n := blockLen x.fine
    let segs := s.cur.vr.vl.toNat / n
    checkDestN x.c segs 8 s = .ok () s →
    ((activeSegs x s.cur).mapM (fun k => do return (k, ← segLoads x (vqHead s.cur).capC nb o k)) : M (List _)) s =
      .ok got t →
    let idle := if x.zf then (List.range segs).filter (fun k => !active x.m s.cur (k * n)) else []
    let each := got.map (fun g => (g.1, (match g.2 with
      | .error f => { val := 0, q := some ((vqHead s.cur).addr, f.cause) }
      | .ok _ => Elem.zero : Elem))) ++ idle.map (fun k => (k, Elem.zero))
    let data := each.flatMap (fun b => (List.range n).map (fun j => (b.1 * n + j, b.2)))
    issueLoads (got.filterMap (fun g => g.2.toOption)) (scopeGet x.scope .core) x.hint.toNat (t.modCur (fun c =>
      { c with vr := putElems x.c 8 each (putElems x.d x.ty.width data c.vr) })) = .ok () u →
    exec (.vldseg x) s = .next (passEntry u)) ∧
  (∀ (gs : List (List ElemLoad)) (sc : Scope) (hint : Nat) (s : State),
    (mayHold s = false → noneEarly s → meetsOwn s (gs.flatten.map (fun y => (y.pa, placeSize y.w))) = false →
      issueLoads gs sc hint s = .ok () (gs.foldl (fun s g => loadElems s s.core [] sc hint g) s)) ∧
    (mayHold s = true → ∃ t, issueLoads gs sc hint s = .ok () t ∧ t.mem = s.mem ∧ t.ctxs = s.ctxs ∧
      (pqOf t s.core s.party).issue.map (·.kind) =
        (pqOf s s.core s.party).issue.map (·.kind) ++ gs.map (fun g => .loadV g))) ∧
  (∀ (gs : List (List ElemStore)) (sc : Scope) (hint : Nat) (s : State), s.cur.spec = false → s.cur.mx.load = none →
    (mayHold s = false → waitingOf s s.core s.party = [] →
      issueStores gs sc hint s = .ok () (gs.foldl (fun s g => storeElems s s.core sc hint g) s)) ∧
    (mayHold s = true → ∃ t, issueStores gs sc hint s = .ok () t ∧ t.mem = s.mem ∧ t.ctxs = s.ctxs ∧
      (pqOf t s.core s.party).issue.map (·.kind) =
        (pqOf s s.core s.party).issue.map (·.kind) ++ gs.map (fun g => .storeV g))) ∧
  (∀ (s : State) (k : Nat) (sc : Scope) (hint : Nat) (x : ElemLoad),
    let r := ctxLoad { s with code := x.code } k x.pa (placeSize x.w) sc hint
    loadElems s k [] sc hint [x] = r.1.modCur (fun c =>
      { c with vr := setElemBits c.vr x.d x.w x.e (elemBits x.w x.high r.2) }))

/-- The frame of the vector instructions that read and write registers alone: however they end, with no access of the vector
agent waiting, memory, general and capability registers, the pc, predicates and every vector register outside the eight from
the destination on are as before. -/
def Obligations.VectorFrame : Prop :=
  ∀ (i : Instr) (d : VReg) (s t : State), vecDest i = some d → s.party = .vector → waitingOf s s.core .vector = [] →
    exec i s = .next t →
    t.mem = s.mem ∧ t.tags = s.tags ∧ t.cur.r = s.cur.r ∧ t.cur.h = s.cur.h ∧ t.cur.vr.p = s.cur.vr.p ∧
    t.cur.vr.vl = s.cur.vr.vl ∧ t.cur.mx = s.cur.mx ∧
    (∀ n : VReg, (n.val < d.val ∨ d.val + 8 ≤ n.val) → t.cur.vr.v[n] = s.cur.vr.v[n] ∧ t.cur.vr.vp[n] = s.cur.vr.vp[n])

/-- A written element reads back, and every other element of its width stays (R174): in registers of a length that lanes give,
at every place of the file. -/
def Obligations.ElementsReadWhatWasWritten : Prop :=
  ∀ (v : Vregs) (n : VReg) (w e f : Nat) (x : Elem), w ∈ [4, 8, 16, 32, 64] → lbits v ∈ [256, 512, 1024, 2048, 4096] →
    n.val + w * e / lbits v < 32 → n.val + w * f / lbits v < 32 → x.val < 2 ^ w →
    (getElem_ (putElem n w [] v (e, x)) n w f).val = if f = e then x.val else (getElem_ v n w f).val

/-- SETVL (R187): in short mode, and in long mode once the lanes are granted, vl becomes the least of the request and what the
registers hold, gD takes it, and the element width is kept. VMODE (R186): the mode changes, long mode starting with no
length and zeroed registers, short mode giving every lane back. Where the registers change their length, the element loads of
older entries have performed before (R118). -/
def Obligations.VectorLengths : Prop :=
  (∀ (x : SetvlArgs) (s : State), s.party = .vector → active x.m s.cur 0 = true →
    let req := min 8191 ((vqHead s.cur).capG.toNat + x.n.toNat)
    let leaves (vl : Nat) (t : State) : Out := .next (passEntry (t.modCur (fun c => writeG { c with vr := { c.vr with
      vl := BitVec.ofNat 13 vl, wlog := Nat.log2 x.ty.width } } x.d (BitVec.ofNat 64 vl))))
    (s.cur.vr.long = false → exec (.setvl x) s = leaves (min req (256 / x.ty.width)) s) ∧
    (∀ t u : State, s.cur.vr.long = true → req = 0 → (if s.cur.vr.lanes ≠ 0 then settleLoads s = .ok () t else t = s) →
      takeLanes 0 t = .ok () u → exec (.setvl x) s = leaves 0 u) ∧
    (∀ (g : Nat) (t u v : State), s.cur.vr.long = true → req ≠ 0 → 8 ≤ effLimit s 1 s.cur.h.region →
      let wanted := lanesWanted req x.ty.width (laneCap s s.cur)
      (if wanted ≠ s.cur.vr.lanes then settleLoads s = .ok () t else t = s) →
      grantSetvl wanted t = .ok g u → takeLanes g u = .ok () v →
      exec (.setvl x) s = leaves (min req (64 * g / x.ty.width)) v)) ∧
  (∀ (x : VmodeArgs) (s r : State), s.party = .vector → active x.m s.cur 0 = true → x.long = true → s.cur.vr.long = false →
    settleLoads s = .ok () r →
    ∃ t, exec (.vmode x) s = .next t ∧ t.cur.vr.long = true ∧ t.cur.vr.vl = 0 ∧ t.cur.vr.lanes = 0 ∧
      (∀ n : VReg, t.cur.vr.v[n] = 0 ∧ t.cur.vr.vp[n] = 0) ∧ (∀ n : PReg, t.cur.vr.p[n] = 0) ∧
      (r.cur.vlive = 0 → waitingOf r r.core .vector = [] → t.cur.vqn = r.cur.vqn - 1) ∧ t.mem = r.mem ∧ t.cur.r = r.cur.r) ∧
  (∀ (x : VmodeArgs) (s r : State), s.party = .vector → active x.m s.cur 0 = true → x.long = false → s.cur.vr.long = true →
    settleLoads s = .ok () r →
    ∃ t, exec (.vmode x) s = .next t ∧ t.cur.vr.long = false ∧ t.cur.vr.held = 0 ∧ t.cur.vr.lanes = 0 ∧
      t.cur.vr.vl.toNat = min s.cur.vr.vl.toNat (256 / 2 ^ s.cur.vr.wlog) ∧
      (r.cur.vlive = 0 → waitingOf r r.core .vector = [] → t.cur.vqn = r.cur.vqn - 1) ∧
      t.mem = r.mem ∧ t.cur.r = r.cur.r) ∧
  (∀ s : State, (waitingOf s s.core .vector).all isStore = true → settleLoads s = .ok () s)

/-! ### The matrix array -/

/-- MROW and MROWA (R243 to R245), MZERO (R246), MSWAP (R247), MLDT and MLDT.t up to their load in flight (R241, R242), MCHAIN,
MTBL and MDRAIN (R249 to R252), the end of a load in flight and the reload of a tile (R242, R255). -/
def Obligations.MatrixInstructions : Prop :=
  (∀ (x : MrowArgs) (acc int : Bool) (s : State) (row : ARow), vecActs x.m s = true → active x.m s.cur 0 = true →
    let m := s.cur.mx
    let t := activeTile m
    let k := scKind x.sk
    t.valid = true → t.pend = false → t.kind = k → rowKind x.ty t.ty k = some int →
    (acc = true → m.accInt.getLsbD x.d = int) → readRow x s = .ok row s →
    let leaves : BitVec 8192 := BitVec.ofNat 8192 ((List.range 256).foldl (fun z n =>
      z ||| rowElem acc x.sat int t x.ty k row (rowVals k x.ty row) n (field m.acc[x.d] (32 * n) 32) <<< (32 * n)) 0)
    exec (if acc then .mrowa x else .mrow x) s = .next (passEntry (stripsTaken
      (x.a :: (if x.sk = .mx ∨ x.sk = .fine then [x.c] else [])) (s.modCur (fun c => { c with mx := { c.mx with
        acc := c.mx.acc.set x.d leaves
        accInt := if int then c.mx.accInt ||| maskAt 8 x.d 1 else c.mx.accInt &&& ~~~ (maskAt 8 x.d 1) } }))))) ∧
  (∀ (x : MzeroArgs) (s : State), vecActs x.m s = true → active x.m s.cur 0 = true →
    ∃ t, exec (.mzero x) s = .next (passEntry t) ∧ t = s.modCur (fun c => { c with mx := t.cur.mx }) ∧
      t.cur.mx = { s.cur.mx with acc := t.cur.mx.acc, accInt := t.cur.mx.accInt } ∧
      (∀ j : AReg, t.cur.mx.acc[j] = (if x.mask.getLsbD j then 0 else s.cur.mx.acc[j]) ∧
        t.cur.mx.accInt.getLsbD j = (if x.mask.getLsbD j then x.int else s.cur.mx.accInt.getLsbD j))) ∧
  (∀ (x : MArgs) (s : State), vecActs x.m s = true → active x.m s.cur 0 = true → s.cur.mx.load = none →
    ((shadowTile s.cur.mx).valid && (shadowTile s.cur.mx).pend) = false →
    exec (.mswap x) s = .next (passEntry (s.modCur (fun c => { c with mx := { c.mx with act := !c.mx.act } })))) ∧
  (∀ (x : MldtArgs) (tr : Bool) (s t u : State) (pa : Nat), vecActs x.m s = true → active x.m s.cur 0 = true →
    let e0 := vqHead s.cur
    let ext := 32768 + tileScales x.kind (tileK x.ty)
    tileAccess x.a e0.capC (memOff e0.capG x.imm) ext s = .ok pa t →
    let pew : Bool := decide (pewterOf t.core ≤ pa ∧ pa + ext ≤ pewterOf t.core + 6 * 2 ^ 20)
    let spad : Bool := decide (spadOf t.core ≤ pa ∧ pa + ext ≤ spadOf t.core + 2 ^ 20)
    (pew || spad) = true → (pew = true → badUnit t s.cur.h.region pa ext = none) → t.cur.mx.load = none →
    ((shadowTile t.cur.mx).valid && (shadowTile t.cur.mx).pend) = false → ownFirst pa ext t = .ok () u →
    exec (if tr then .mldtT x else .mldt x) s = .next (passEntry (u.modCur (fun c => { c with mx := { c.mx with
      load := some { Tile.invalid with scratch := !pew, tr := tr, kind := x.kind, ty := x.ty,
                                       offset := if pew then pa - pewterOf t.core else pa - spadOf t.core }
      got := [] } })))) ∧
  (∀ (x : MchainArgs) (s : State), vecActs x.m s = true → active x.m s.cur 0 = true →
    let w := x.lit.getD (vqHead s.cur).capG
    chainBad w = false →
    exec (.mchain x) s = .next (passEntry (s.modCur (fun c => { c with mx := { c.mx with chain := w } })))) ∧
  (∀ (x : MtblArgs) (s t u : State) (pa : Nat) (bs : List Byte), vecActs x.m s = true → active x.m s.cur 0 = true →
    let e0 := vqHead s.cur
    capAccess e0.capC (memOff e0.capG x.imm) 1024 .load .read .core s = .ok (.ok pa) t → inCtl pa = false → pa % 64 = 0 →
    loadMem pa 1024 .core 0 t = .ok bs u →
    exec (.mtbl x) s = .next (passEntry (u.modCur (fun c => { c with mx := match x.which with
      | .act => { c.mx with tblAct := BitVec.ofNat 8192 (natOfBytes bs) }
      | .bias => { c.mx with tblBias := BitVec.ofNat 8192 (natOfBytes bs) }
      | .scale => { c.mx with tblScale := BitVec.ofNat 8192 (natOfBytes bs) } })))) ∧
  (∀ (x : MdrainArgs) (s : State), vecActs x.m s = true →
    let g := (vqHead s.cur).capG
    let c0 := field g 0 8
    c0 + s.cur.vr.vl.toNat ≤ 256 → destFits x.d x.ty.width s →
    exec (.mdrain x) s = commitsWith s x.d x.ty.width (guardElems x.m x.zf s.cur
      ((List.range s.cur.vr.vl.toNat).map (fun e =>
        { val := convVal x.ty (rmAt s.cur x.rm (g + BitVec.ofNat 64 e)) x.sat
            (chainVal s.cur.mx (s.cur.mx.accInt.getLsbD x.a) (field s.cur.mx.acc[x.a] (32 * (c0 + e)) 32) (c0 + e)),
          q := none }))) []) ∧
  (∀ (k slot : Nat) (s : State), (s.coreAt k).slot = some slot →
    exec (.mldtReadDone k) s = .next (finishTile s slot) ∧
    (∀ tile : Nat, exec (.tileReload k tile) s = .next (s.modCtx slot (fun c => { c with mx :=
      if tile = 0 then { c.mx with slot0 := reloadTile s k c.h.region c.mx.slot0 }
      else { c.mx with slot1 := reloadTile s k c.h.region c.mx.slot1 } }))))

/-! ### Engines, queues, bindings -/

/-- The queue instructions of the control thread (R285): EPUSH joins an engine's FIFO with its captured operands and sequence
number, or QD; EPOP takes the head of a result FIFO, of QA or of QB; EVPOP takes an event record; their .nw forms give zeros
from an empty queue; EQSTAT reads. VBIND and VUNBIND bind and unbind a register (R283); VBIND's hint qualifies its read (R60). In
the trap EPORT (R289) POISONPC 0 is notes/assumptions/16.md. -/
def Obligations.QueueInstructions : Prop :=
  (∀ (x : EpushArgs) (s r : State), passes x.m s = true → (x.lit = none → gPoison s.cur x.b = false) →
    let w := x.lit.getD (gVal s.cur x.b)
    (cmdPort w = 18 → s.cur.q.qd.length < 16 → releaseOwn .core s = .ok () r →
      exec (.epush x) s = changes r (fun c => setPc { c with q := { c.q with qd := c.q.qd ++ [w] } } (nextPc c x.m))) ∧
    (∀ n : Nat, cmdPort w ≠ 18 → liveEngine s s.core (cmdPort w) = some n → pushRoom s n (cmdPort w) = true →
      let cmd := newCmd s .control w (readC s.cur x.a) (readC s.cur x.d) (readC s.cur x.c) x.stride.toInt
      (s.cur.spec = true → destsInside s n cmd = true) → releaseOwn (homeScope n) s = .ok () r →
      exec (.epush x) s = .next ((joinEngine r n cmd).modCur
        (fun c => setPc c (nextPc c x.m)))) ∧
    (cmdPort w ≠ 18 → liveEngine s s.core (cmdPort w) = none →
      exec (.epush x) s = traps s 0x400 w 0 0)) ∧
  (∀ (x : EpopArgs) (i : Instr) (s : State), i = .epop x ∨ i = .epopNw x → passes x.m s = true →
    (∀ (w : Word) (rest : List Word), x.port.val = 16 → s.cur.q.qa = w :: rest →
      exec i s = changes s (fun c => setPc (writeG { c with q := { c.q with qa := rest } } x.d w) (nextPc c x.m))) ∧
    (∀ (w : Word) (rest : List Word), x.port.val = 17 → s.cur.q.qb = w :: rest →
      exec i s = changes s (fun c => setPc (writeG { c with q := { c.q with qb := rest } } x.d w) (nextPc c x.m))) ∧
    (∀ (r : ResElem) (rest : List ResElem), x.port.val ≠ 16 → x.port.val ≠ 17 →
      (isEnginePort x.port = true → (liveEngine s s.core x.port).isSome = true) →
      resFifo s.cur x.port .control = r :: rest →
      let u := s.modCur (fun c => setResFifo c x.port .control rest)
      exec i s = .next ((popAcquire u u.core r.ranges).modCur (fun c => setPc (writeG c x.d r.w0) (nextPc c x.m))))) ∧
  (∀ (x : EpopArgs) (s : State), passes x.m s = true →
    (x.port.val = 16 → s.cur.q.qa = []) → (x.port.val = 17 → s.cur.q.qb = []) →
    (x.port.val ≠ 16 → x.port.val ≠ 17 → resFifo s.cur x.port .control = []) →
    (isEnginePort x.port = true → (liveEngine s s.core x.port).isSome = true) →
    exec (.epopNw x) s = changes s (fun c => setPc (writeG c x.d 0) (nextPc c x.m))) ∧
  (∀ (x : EpopArgs) (s : State), passes x.m s = true →
    exec (.eqstat x) s = changes s (fun c => setPc (writeG c x.d (eqstatWord s .control x.port)) (nextPc c x.m))) ∧
  (∀ (x : MdArgs) (i : Instr) (s : State) (r : EvRec) (rest : List EvRec), i = .evpop x ∨ i = .evpopNw x →
    passes x.m s = true → s.cur.q.events = r :: rest →
    let u := s.modCur (fun c => { c with q := lateJoin { c.q with events := rest } })
    exec i s = .next ((popAcquire u u.core r.ranges).modCur (fun c =>
      setPc (write4 c x.d [r.w0, r.w1, r.w2, r.w3]) (nextPc c x.m)))) ∧
  (∀ (x : MdArgs) (s : State), passes x.m s = true → s.cur.q.events = [] →
    exec (.evpopNw x) s = changes s (fun c => setPc (write4 c x.d [0, 0, 0, 0]) (nextPc c x.m))) ∧
  (∀ (x : VbindArgs) (s t u : State) (pa : Nat), vecActs x.m s = true → active x.m s.cur 0 = true →
    let e0 := vqHead s.cur
    capAccess e0.capC (memOff e0.capG x.imm) 64 .load .read .core s = .ok (.ok pa) t → capHas e0.capC .lcap = true →
    inCtl pa = false → pa % 64 = 0 → ownFirst pa 64 t = .ok () u →
    let l := loadPiece u u.core (ctxWsets u u.cur) pa 64 .core x.hint.toNat
    let word (i : Nat) : Word := wordOfBytes ((l.2.1.drop (8 * i)).take 8)
    let capw (i : Nat) : Cap := { bits := BitVec.ofNat 128 (natOfBytes ((l.2.1.drop (16 * i)).take 16)), tag := l.2.2.getLsbD i }
    bindBad (word 0) = false →
    let b : Binding := { word0 := word 0, stride := word 1, base := capw 1, scale := capw 2, sstride := word 6, bound := true }
    exec (.vbind x) s =
      .next (passEntry (l.1.modCur (fun c => { c with q := { c.q with binds := c.q.binds.set x.d b } })))) ∧
  (∀ (x : VunbindArgs) (s : State), vecActs x.m s = true → active x.m s.cur 0 = true →
    ∃ t, exec (.vunbind x) s = .next t ∧ t.cur.q.binds[x.d] = { s.cur.q.binds[x.d] with bound := false } ∧
      (∀ n : Fin 8, n ≠ x.d → t.cur.q.binds[n] = s.cur.q.binds[n]) ∧
      t.cur.q.strips[bindQueue s.cur.q.binds[x.d]] = dropMarks s.cur.q.strips[bindQueue s.cur.q.binds[x.d]] ∧
      (∀ q : Fin 8, q ≠ bindQueue s.cur.q.binds[x.d] → t.cur.q.strips[q] = s.cur.q.strips[q]) ∧
      t.mem = s.mem ∧ t.cur.r = s.cur.r ∧ t.cur.vr = s.cur.vr)

/-! ### Tasks -/

/-- Deques and records (R319, R325): DPUSH of an armed record by a core with a deque that has room; DPOP and DSTEAL of an
entry; LPATCH of an idle record, as a release and an acquire at .sys (R128); LARM by the status of the record, with the same; and
the status where a check fails: of the handle, of the slot (BADSLOT), of the record's state (STATE). A DPUSH and then a
DPOP (R316, R319) give back the entry pushed, where the core's deque has room: the owner's end is last in, first out. -/
def Obligations.TaskInstructions : Prop :=
  (∀ (x : DpushArgs) (s u : State), passes x.m s = true → s.cur.spec = false →
    gPoison s.cur x.a = false → gPoison s.cur x.b = false → drainParty .control s = .ok () u →
    let region := u.cur.h.region
    (∀ st : Nat, handleCheck u region (gVal s.cur x.a + x.k.setWidth 64) false = .error st →
      exec (.dpush x) s = changes u (fun c => setPc (writeG c x.d (BitVec.ofNat 64 st)) (nextPc c x.m))) ∧
    (∀ i : Nat, handleCheck u region (gVal s.cur x.a + x.k.setWidth 64) false = .ok i →
      let r := u.recAt (recordAt u region i)
      let c := u.coreAt u.core
      let cap := (dqArea c.dqcfg).1
      (r.state = 1 ∧ r.inq = false ∧ cap ≠ 0 ∧ (c.bottom - c.top).toNat ≠ cap →
        exec (.dpush x) s = .next ((dqPush u u.core region i (gVal s.cur x.b)).modCur
          (fun c => setPc (writeG c x.d 0) (nextPc c x.m)))) ∧
      (r.state ≠ 1 ∨ r.inq = true →
        exec (.dpush x) s = changes u (fun c => setPc (writeG c x.d 6) (nextPc c x.m))) ∧
      (r.state = 1 → r.inq = false → cap = 0 ∨ (c.bottom - c.top).toNat = cap →
        exec (.dpush x) s = changes u (fun c => setPc (writeG c x.d 2) (nextPc c x.m))))) ∧
  (∀ (x : MdArgs) (s : State), passes x.m s = true → s.cur.spec = false →
    let c := s.coreAt s.core
    ((dqArea c.dqcfg).1 = 0 ∨ c.top = c.bottom →
      exec (.dpop x) s = changes s (fun c => setPc (writeG c x.d 1) (nextPc c x.m))) ∧
    (∀ u : State, (dqArea c.dqcfg).1 ≠ 0 → c.top ≠ c.bottom →
      ownFirst (dqEntryAt s s.core (c.bottom - 1)) 16 s = .ok () u →
      exec (.dpop x) s = tookOut x.m x.d (dqPop u u.core))) ∧
  (∀ (x : MdaArgs) (s : State), passes x.m s = true → s.cur.spec = false → gPoison s.cur x.a = false →
    let k := (gVal s.cur x.a).toNat
    (corePresent s k = false →
      exec (.dsteal x) s = changes s (fun c => setPc (writeG c x.d 5) (nextPc c x.m))) ∧
    (∀ (u : State) (st : Nat), corePresent s k = true → ownFirst (dqEntryAt s k (s.coreAt k).top) 16 s = .ok () u →
      stealCheck u k u.core u.cur.h.region = some st →
      exec (.dsteal x) s = changes u (fun c => setPc (writeG c x.d (BitVec.ofNat 64 st)) (nextPc c x.m))) ∧
    (∀ u : State, corePresent s k = true → ownFirst (dqEntryAt s k (s.coreAt k).top) 16 s = .ok () u →
      stealCheck u k u.core u.cur.h.region = none →
      exec (.dsteal x) s = tookOut x.m x.d (dqSteal u k u.core))) ∧
  (∀ (x : LpatchArgs) (s : State), passes x.m s = true → s.cur.spec = false →
    gPoison s.cur x.a = false → (x.lit = none → gPoison s.cur x.b = false) →
    let h := gVal s.cur x.a + x.k.setWidth 64
    let v := x.lit.getD (gVal s.cur x.b)
    (∀ st : Nat, handleCheck s s.cur.h.region h true = .error st →
      exec (.lpatch x) s = changes s (fun c => setPc (writeG c x.d (BitVec.ofNat 64 st)) (nextPc c x.m))) ∧
    (∀ i : Nat, handleCheck s s.cur.h.region h true = .ok i →
      let pa := recordAt s s.cur.h.region i
      (8 < field h 16 4 → exec (.lpatch x) s = changes s (fun c => setPc (writeG c x.d 9) (nextPc c x.m))) ∧
      (∀ r : State, field h 16 4 ≤ 8 → releaseOwn .sys s = .ok () r →
        ((r.recAt pa).state = 0 → exec (.lpatch x) s = recordDone x.m x.d 0 (patchRecord r pa (field h 16 4) v)) ∧
        ((r.recAt pa).state ≠ 0 → exec (.lpatch x) s = recordDone x.m x.d 6 r)))) ∧
  (∀ p ∈ armTable, ∀ (x : LarmArgs) (s : State), passes x.m s = true → s.cur.spec = false → gPoison s.cur x.a = false →
    (∀ st : Nat, handleCheck s s.cur.h.region (gVal s.cur x.a + x.k.setWidth 64) false = .error st →
      exec (p.1 x) s = changes s (fun c => setPc (writeG c x.d (BitVec.ofNat 64 st)) (nextPc c x.m))) ∧
    (∀ (i : Nat) (r : State), handleCheck s s.cur.h.region (gVal s.cur x.a + x.k.setWidth 64) false = .ok i →
      releaseOwn .sys s = .ok () r →
      let w := p.2 r s.cur.h.region i
      exec (p.1 x) s = recordDone x.m x.d (BitVec.ofNat 64 w.1) w.2)) ∧
  (∀ (s : State) (k region i : Nat) (arg : Word), k < 144 → 0 < (dqArea (s.coreAt k).dqcfg).1 →
    (dqArea (s.coreAt k).dqcfg).2.1 % 16 = 0 → region < 4096 → i < 65536 →
    (∀ p ∈ s.regions, p.2.pool.toNat + 256 * p.2.pooln ≤ spadBase ∨ spadBase + 144 * 2 ^ 20 ≤ p.2.pool.toNat) →
    let t := dqPush s k region i arg
    (dqPop t k).2 = (region, i, arg) ∧ (t.coreAt k).bottom = (s.coreAt k).bottom + 1 ∧
    (t.coreAt k).top = (s.coreAt k).top ∧ ((dqPop t k).1.coreAt k).bottom = (s.coreAt k).bottom)

/-! ### The carousel and the sideshow -/

/-- CLSET sets a level (R292); CLRUN reads its body and begins the run at its first instruction, or passes over the body under a
guard that fails (R293); VDEFER appends entries to a path and VDRAIN takes them (R304, R305), each in the order of its agent's
accesses (R118). -/
def Obligations.LoopsAndDeferral : Prop :=
  (∀ (x : ClsetArgs) (s : State), passes x.m s = true → gPoison s.cur x.a = false →
    (x.lit = none → gPoison s.cur x.b = false) → (gVal s.cur x.a).toNat + x.cnt.toNat < 2 ^ 32 →
    let level : Level := { count := BitVec.ofNat 32 ((gVal s.cur x.a).toNat + x.cnt.toNat), index := 0,
                           stride := x.lit.getD (gVal s.cur x.b) + x.str.signExtend 64, reg := x.d }
    exec (.clset x) s = changes s (fun c =>
      setPc { c with car := { c.car with levels := c.car.levels.set x.level level } } (nextPc c x.m))) ∧
  (∀ (x : ClrunArgs) (s t : State) (body : List (List Word32)), passes x.m s = true →
    let va := nextPc s.cur x.m
    fetchBody va x.n.toNat s = .ok body t → barredAt va body = none → poisonedLevel s.cur = none →
    exec (.clrun x) s = .next (t.modCur (fun c => setPc { c with car := { c.car with
      levels := c.car.levels.map (fun l => { l with index := 0 })
      body := va, cln := x.n.toNat, pos := 0, buffer := body, runAt := c.h.pc } } va))) ∧
  (∀ (x : ClrunArgs) (s t : State) (e : Word), passes x.m s = false →
    skipBody (nextPc s.cur x.m) x.n.toNat s = .ok e t →
    exec (.clrun x) s = .next (t.modCur (fun c => setPc c e))) ∧
  (∀ (x : VdeferArgs) (s r : State) (regs : List VReg) (ops : List (VReg × List Elem)), vecActs x.m s = true →
    let p := x.p.toNat
    let g := (vqHead s.cur).capG
    let n := s.cur.ss.counts.toList.getD p 0
    let hd := s.cur.ss.heads.toList.getD p 0
    let act := activeElems x.m s.cur
    pathOk s.cur.ss p = true → valueRegs x.a x.ty x.k s = .ok regs s → ops.map (·.1) = regs →
    (∀ o ∈ ops, reads o.1 x.ty s o.2) → (∀ o ∈ ops, ∀ y ∈ o.2, y.q = none) → n + act.length ≤ s.cur.ss.slots →
    let slots := act.zipIdx.map (fun q => (spadOf s.core + slotOff s.cur.ss p ((hd + n + q.2) % s.cur.ss.slots), 64))
    (do ownRanges slots; settleTile slots : M Unit) s = .ok () r →
    let t := act.zipIdx.foldl (fun (u : State) q => pkgStoreAll u (spadOf u.core + slotOff s.cur.ss p ((hd + n + q.2) %
      s.cur.ss.slots)) (sideEntry (g.toNat + q.1) (ops.map (fun o => (o.2.getD q.1 Elem.zero).val)) x.ty x.k)) r
    exec (.vdefer x) s = .next (passEntry (stripsTaken regs (t.modCur (fun c => { c with
      ss := { c.ss with counts := vset c.ss.counts p (n + act.length) } }))))) ∧
  (∀ (x : VdrainArgs) (s r : State) (regs : List VReg) (ents : List (List Byte)), vecActs x.m s = true → active x.m s.cur 0 = true →
    let p := x.p.toNat
    let vl := s.cur.vr.vl.toNat
    let n := s.cur.ss.counts.toList.getD p 0
    let hd := s.cur.ss.heads.toList.getD p 0
    let k := min n vl
    let word (e i : Nat) : Nat := natOfBytes (((ents.getD e []).drop (8 * i)).take 8)
    let elems (i w : Nat) : List (Nat × Elem) := (List.range k).map (fun e => (e, { val := word e i % 2 ^ w, q := none }))
    pathOk s.cur.ss p = true → valueRegs x.b x.ty x.k s = .ok regs s → destFits x.a 32 s →
    (∀ n ∈ regs, destFits n x.ty.width s) →
    firstOverlap ((x.a, groupRegs s.cur.vr x.a vl 32) :: regs.map (fun n => (n, groupRegs s.cur.vr n vl x.ty.width))) = none →
    (List.range k).mapM (fun e => readSpad (slotOff s.cur.ss p ((hd + e) % s.cur.ss.slots)) 64 p) s = .ok ents r →
    let out (v : Vregs) : Vregs := regs.zipIdx.foldl (fun v r => putElems r.1 x.ty.width (elems (1 + r.2) x.ty.width) v)
      (putElems x.a 32 (elems 0 32) v)
    exec (.vdrain x) s = .next (passEntry ((r.modCur (fun c => { c with vr := out c.vr })).modCur
        (fun c => writeG { c with
          ss := { c.ss with heads := vset c.ss.heads p ((hd + k) % c.ss.slots), counts := vset c.ss.counts p (n - k) }
          vr := { c.vr with vl := BitVec.ofNat 13 k } } x.d (BitVec.ofNat 64 k)))))

/-! ### Troupes -/

/-- Troupe instructions (R338, R341, R344): TFORK with a good template and room makes a troupe; TREWARD posts a sibling's
reward under a release; TBAR and TADV deliver from a closed troupe under an acquire, TADV.nw does not wait; TCANCEL makes
its troupe step and, with every target ended, answers. A reward is posted once (R341, R342): an accepted post of a sibling
that had none notes the reward, and starts the count at the first; a second post, and a post after the close, change
nothing; and the troupe closes with the last. The order of the checks is notes/assumptions/22.md. -/
def Obligations.TroupeInstructions : Prop :=
  (∀ (x : TforkArgs) (s t u : State) (pa : Nat) (bs : List Byte), passes x.m s = true → gPoison s.cur x.a = false →
    let n := gVal s.cur x.a
    capAccess (readC s.cur x.b) 0 16 .load .read .core s = .ok (.ok pa) t → inCtl pa = false → pa % 16 = 0 →
    loadMem pa 16 .core 0 t = .ok bs u →
    let w0 := wordOfBytes (bs.take 8)
    let w1 := wordOfBytes (bs.drop 8)
    (n.toNat < 2 ∨ 64 < n.toNat →
      exec (.tfork x) s = .next (u.modCur (fun c => setPc (writeG c x.d 5) (nextPc c x.m)))) ∧
    (2 ≤ n.toNat → n.toNat ≤ 64 → templateOk w0 w1 n.toNat = false →
      exec (.tfork x) s = .next (u.modCur (fun c => setPc (writeG c x.d 6) (nextPc c x.m)))) ∧
    (2 ≤ n.toNat → n.toNat ≤ 64 → templateOk w0 w1 n.toNat = true → forkRoom u u.cur n.toNat = false →
      exec (.tfork x) s = .next (u.modCur (fun c => setPc (writeG c x.d 7) (nextPc c x.m)))) ∧
    (∀ r : State, 2 ≤ n.toNat → n.toNat ≤ 64 → templateOk w0 w1 n.toNat = true → forkRoom u u.cur n.toNat = true →
      (do waitVector; drainParty .vector; releaseOwn .pkg : M Unit) u = .ok () r →
      let f := forkStep r r.cur x.d (r.cur.h.pc + byteOffset x.off) w0 w1 n.toNat
      exec (.tfork x) s = .next (f.1.modCur (fun c =>
        setPc (writeG (writeG (writeG c x.d 0) (x.d + 1) (BitVec.ofNat 64 f.2)) (x.d + 2) n) (nextPc c x.m))))) ∧
  (∀ (x : MdaArgs) (s : State), passes x.m s = true → gPoison s.cur x.a = false → s.cur.spec = false →
    (s.cur.member = none →
      exec (.treward x) s = changes s (fun c => setPc (writeG c x.d 3) (nextPc c x.m))) ∧
    (∀ (t i : Nat) (y : Troupe) (r : State), s.cur.member = some (t, i) → releaseOwn .pkg s = .ok () r →
      troupe? r t = some y →
      let p := postReward y i ((gVal s.cur x.a).setWidth 32)
      exec (.treward x) s = .next ((setTroupe r t p.2).modCur (fun c =>
        setPc (writeG c x.d (BitVec.ofNat 64 p.1)) (nextPc c x.m))))) ∧
  (∀ (x : MdArgs) (s : State), passes x.m s = true →
    (s.cur.member = none → exec (.tbar x) s = changes s (fun c =>
      setPc (writeG (writeG c x.d 0) (x.d + 1) 3) (nextPc c x.m))) ∧
    (∀ (t i : Nat) (y : Troupe), s.cur.member = some (t, i) → troupe? s t = some y → y.tstat ≠ 0 →
      exec (.tbar x) s = handedOver x.m x.d (delivery y i) s)) ∧
  (∀ (x : MdabArgs) (i : Instr) (s : State), i = .tadv x ∨ i = .tadvNw x → passes x.m s = true →
    gPoison s.cur x.a = false → gPoison s.cur x.b = false →
    (∀ r : Word × Word, s.cur.delivered = some r → exec i s = handedOver x.m x.d r s) ∧
    (∀ e : Nat × Word, s.cur.delivered = none →
      troupeCheck s (gVal s.cur x.a) (gVal s.cur x.b) false = .error e →
      exec i s = changes s (fun c => setPc (writeG (writeG c x.d 0) (x.d + 1) e.2) (nextPc c x.m))) ∧
    (∀ y : Troupe, s.cur.delivered = none → troupeCheck s (gVal s.cur x.a) (gVal s.cur x.b) false = .ok y →
      (y.tstat ≠ 0 → exec i s = handedOver x.m x.d (delivery y (gVal s.cur x.b).toNat) s) ∧
      (y.tstat = 0 → exec (.tadvNw x) s = changes s (fun c =>
        setPc (writeG (writeG c x.d 0) (x.d + 1) (troupeWord y (gVal s.cur x.b).toNat 11)) (nextPc c x.m))))) ∧
  (∀ (x : MdabArgs) (s : State), passes x.m s = true → gPoison s.cur x.a = false → gPoison s.cur x.b = false →
    let h := gVal s.cur x.a
    let i := gVal s.cur x.b
    let ended (st : Nat) (u : State) : State :=
      u.modCur (fun c => setPc (writeG { c with cancelled := none } x.d (BitVec.ofNat 64 st)) (nextPc c x.m))
    (∀ st : Nat, s.cur.cancelled = some st → exec (.tcancel x) s =
      .next (if s.cur.awaits = [] then ended st s else s.modCur (fun c => { c with cancelled := some st }))) ∧
    (∀ e : Nat × Word, s.cur.cancelled = none → s.cur.spec = false → troupeCheck s h i true = .error e →
      exec (.tcancel x) s = changes s (fun c => setPc (writeG c x.d (BitVec.ofNat 64 e.1)) (nextPc c x.m))) ∧
    (∀ (y : Troupe) (t : State), s.cur.cancelled = none → s.cur.spec = false → troupeCheck s h i true = .ok y →
      (if (targetsLeft s h.toNat i.toNat).contains s.slot then quiet else pure () : M Unit) s = .ok () t →
      let k := cancelStep t h.toNat y i.toNat
      ((k.2.ctx? s.slot).isNone = true ∨ (k.2.coreAt k.2.core).slot ≠ some s.slot → exec (.tcancel x) s = .next k.2) ∧
      ((k.2.ctx? s.slot).isSome = true → (k.2.coreAt k.2.core).slot = some s.slot →
        let u := k.2.modCur (fun c => { c with awaits := targetsLeft k.2 h.toNat i.toNat })
        exec (.tcancel x) s =
          .next (if u.cur.awaits = [] then ended k.1 u else u.modCur (fun c => { c with cancelled := some k.1 }))))) ∧
  (∀ (x : Troupe) (i : Nat) (w : Word32) (b : Sib), x.sibs[i]? = some b →
    let p := postReward x i w
    (x.tstat ≠ 0 → p = (1, x)) ∧
    (x.tstat = 0 → b.posted = true → p = (2, x)) ∧
    (x.tstat = 0 → b.posted = false → p.1 = 0 ∧
      (∃ c, p.2.sibs[i]? = some c ∧ c.posted = true ∧ c.reward = w) ∧
      (∀ (j : Nat) (y : Sib), j ≠ i → x.sibs[j]? = some y → y.posted = false → y.sstat ≠ 2 →
        p.2.tstat = 0 ∧ p.2.counting = (x.counting || !x.sibs.any (·.posted))) ∧
      ((∀ (j : Nat) (y : Sib), j ≠ i → x.sibs[j]? = some y → y.posted = true ∨ y.sstat = 2) → p.2.tstat ≠ 0)))

/-! ### Speculation -/

/-- Speculation (R360, R363, R371): SSPAWN past its checks enters a descriptor; SRESOLVE of an open condition resolves it and ends
once every pruned segment has; SRESOLVE.free frees a settled condition; the SLK forms read; and the status where a check
fails. -/
def Obligations.SpeculationInstructions : Prop :=
  (∀ (x : SspawnArgs) (s r : State), passes x.m s = true → gPoison s.cur x.b = false →
    (do waitVector; drainParty .vector; releaseOwn .die : M Unit) s = .ok () r →
    let side := if x.side then 1 else 0
    (∀ st : Nat, spawnCheck r r.cur x.cond.val side (gVal s.cur x.b) = .error st →
      exec (.sspawn x) s = .next (r.modCur (fun c => setPc (writeG c x.d (BitVec.ofNat 64 st)) (nextPc c x.m)))) ∧
    (∀ (ch : List Term) (dp : Nat), spawnCheck r r.cur x.cond.val side (gVal s.cur x.b) = .ok (ch, dp) →
      let p := spawnStep r r.cur x.cond.val (r.cur.h.pc + byteOffset x.off) x.d ch dp
      exec (.sspawn x) s = .next (p.1.modCur (fun c => setPc (writeG (writeG (writeG c x.d 0) (x.d + 1)
        (BitVec.ofNat 64 p.2.1)) (x.d + 2) (BitVec.ofNat 64 p.2.2)) (nextPc c x.m))))) ∧
  (∀ (x : SresolveArgs) (s : State), passes x.m s = true → gPoison s.cur x.b = false →
    let o := (gVal s.cur x.b).toNat
    let ended (st : Nat) (u : State) : State := (acquire u u.core .die).modCur (fun c =>
      setPc (writeG { c with cancelled := none } x.d (BitVec.ofNat 64 st)) (nextPc c x.m))
    let waitsFor (st : Nat) (u : State) : Out :=
      .next (if u.cur.awaits = [] then ended st u else u.modCur (fun c => { c with cancelled := some st }))
    (∀ st : Nat, s.cur.cancelled = some st → exec (.sresolve x) s = waitsFor st s) ∧
    (∀ r : State, s.cur.cancelled = none → s.cur.spec = false → releaseOwn .die s = .ok () r →
      let region := r.cur.h.region
      (1 < o → exec (.sresolve x) s = .next (ended 8 r)) ∧
      (o ≤ 1 → condState r region x.cond.val = 2 + o → exec (.sresolve x) s = .next (ended 5 r)) ∧
      (o ≤ 1 → condState r region x.cond.val = 3 - o → exec (.sresolve x) s = .next (ended 6 r)) ∧
      (o ≤ 1 → condState r region x.cond.val < 2 →
        let p := resolveStep r region x.cond.val o
        exec (.sresolve x) s = waitsFor 0 (p.1.modCur (fun c => { c with awaits := p.2 }))))) ∧
  (∀ (x : SCondArgs) (s r : State), passes x.m s = true → s.cur.spec = false → releaseOwn .die s = .ok () r →
    let w := condWord r r.cur.h.region x.cond.val
    let ended (st : Word) (u : State) : Out := .next ((acquire u u.core .die).modCur (fun c =>
      setPc (writeG { c with cancelled := none } x.d st) (nextPc c x.m)))
    (field w 0 2 = 1 → exec (.sresolveFree x) s = ended 7 r) ∧
    (field w 0 2 ≠ 1 → exec (.sresolveFree x) s =
      ended 0 (pkgPut r (condAt r r.cur.h.region x.cond.val) (setField (setField w 0 2 0) 26 1 0)))) ∧
  (∀ (x : MdArgs) (s : State), passes x.m s = true →
    exec (.slk x) s = changes s (fun c => setPc (writeG c x.d (BitVec.ofNat 64 (c.lk.toNat ||| c.depth <<< 16 |||
      (if c.spec then 1 else 0) <<< 20 ||| (if c.seg then 1 else 0) <<< 21 ||| c.segId <<< 24))) (nextPc c x.m))) ∧
  (∀ (x : MdaArgs) (s : State), passes x.m s = true → gPoison s.cur x.a = false →
    exec (.slkSeg x) s = changes s (fun c => setPc (writeG c x.d (if field (gVal c x.a) 8 56 ≠ 0 then 0
      else dstate s c.h.region (field (gVal c x.a) 0 8))) (nextPc c x.m))) ∧
  (∀ (x : SCondArgs) (s : State), passes x.m s = true →
    exec (.slkCond x) s = changes s (fun c =>
      setPc (writeG c x.d (condWord s c.h.region x.cond.val)) (nextPc c x.m)))

/-- The part's own steps for troupes and segments: time-out and release of a troupe (R342, R347), the end of a sibling (R340) and
of a pruned segment (R364), and the park of a segment before an instruction that it may not run (R368). -/
def Obligations.TroupeAndSegmentSteps : Prop :=
  (∀ (t : Nat) (x : Troupe) (s : State), troupe? s t = some x →
    (x.tstat = 0 → x.timeout ≠ 0 → x.counting = true → x.held = false → x.timeout ≤ x.counted →
      exec (.troupeTimeout t) s = .next (setTroupe s t (closeTroupe x false))) ∧
    (x.tstat ≠ 0 → (∀ b ∈ x.sibs, b.ended = true) → x.relreq = true ∨ x.ownerEnded = true →
      ∃ u, exec (.troupeRelease t) s = .next u ∧ troupe? u t = none ∧
        (∀ n : Nat, n ≠ t → troupe? u n = troupe? s n) ∧ u.mem = s.mem ∧
        (∀ (slot : Nat) (c : Ctx), s.ctx? slot = some c → ∃ v, u.ctx? slot = some { c with delivered := v } ∧
          (c.delivered.isSome = true → v = c.delivered) ∧
          (∀ i : Nat, c.awaitClose = some (t, i) → c.delivered = none → v = some (delivery x i))))) ∧
  (∀ (slot : Nat) (c : Ctx) (s : State), s.ctx? slot = some c →
    (c.member.isSome = true → c.h.run = 0 → c.pruned = false → c.ending = true ∨ (c.h.cause = 3 ∧ c.trap = none) →
      exec (.siblingEnd slot) s = .next (endSingle s slot)) ∧
    (c.pruned = true → (∀ e ∈ s.engines, ∀ m ∈ e.2.cmds, m.slot ≠ slot) →
      exec (.prunedSegmentEnd slot) s = .next (endSingle s slot))) ∧
  (∀ (k slot : Nat) (ws : List Word32) (i : Instr) (s t : State), (s.coreAt k).slot = some slot →
    (s.ctxAt slot).spec = true → (s.ctxAt slot).h.run ≠ 0 → (s.ctxAt slot).segPark = none →
    nextWords { s with core := k, party := .control } = .ok (some ws) t → decodeWords ws = some i → parksSegment i = true →
    ((toFields i).map (fun f => active f.mods (s.ctxAt slot) 0)).getD true = true →
    exec (.segmentPark k) s = .next (restLanes (s.modCtx slot (fun c => { c with segPark := some .control })) slot))

/-! ### Roustabouts -/

/-- RV64IMC on a roustabout (R259): the operation's result in rd (x0 discards it) and the pc past the instruction; jumps and
taken branches move the pc, and a jump to itself makes the roustabout idle (R263); a load reads and a store writes where
the address map says, or joins the issue queue (R116; when it waits is notes/assumptions/4.md). FENCE releases and acquires at .sys
where both of its sets hold a member (R136); an AMO of the data store is one step there, with LR, which reaches the load-only ranges
too, and SC under a reservation; one of context memory is one step at .sys, with LR and SC as accesses at .core (R136), or it joins
the issue queue (R260). Their corners are notes/assumptions/30.md and 83.md. -/
def Obligations.RoustaboutInstructions : Prop :=
  (∀ (z : Bool) (s : State), s.party = .loader ∨ s.party = .storer →
    let r := roustIn s
    let len : Word := if z then 2 else 4
    let run (op : RvOp) : Out := exec (.roustaboutInstruction { compressed := z, op := op }) s
    let sets (rd : XReg) (v : Word) : Out := roustRuns s (fun r => { setXr r rd v with pc := r.pc + len })
    (∀ (rd : XReg) (imm : BitVec 20), run (.lui rd imm) = sets rd ((imm ++ (0 : BitVec 12)).signExtend 64) ∧
      run (.auipc rd imm) = sets rd (r.pc + (imm ++ (0 : BitVec 12)).signExtend 64)) ∧
    (∀ (k : RvAlu) (rd a b : XReg) (imm : BitVec 12), run (.op k rd a b) = sets rd (rvAlu k (xVal r a) (xVal r b)) ∧
      run (.opImm k rd a imm) = sets rd (rvAlu k (xVal r a) (imm.signExtend 64))) ∧
    (∀ (k : RvAluW) (rd a b : XReg) (imm : BitVec 12), run (.opW k rd a b) = sets rd (rvAluW k (xVal r a) (xVal r b)) ∧
      run (.opImmW k rd a imm) = sets rd (rvAluW k (xVal r a) (imm.signExtend 64))) ∧
    (∀ (k : RvMul) (rd a b : XReg), run (.mul k rd a b) = sets rd (rvMul k (xVal r a) (xVal r b))) ∧
    (∀ (k : RvMulW) (rd a b : XReg), run (.mulW k rd a b) = sets rd (rvMulW k (xVal r a) (xVal r b))) ∧
    (run .fenceI = roustRuns s (fun r => { r with pc := r.pc + len })) ∧
    (∀ (rd : XReg) (off : BitVec 21), run (.jal rd off) = roustRuns s (fun r => { setXr r rd (r.pc + len) with
      pc := r.pc + off.signExtend 64, idle := rd == 0 && off == 0 })) ∧
    (∀ (rd a : XReg) (imm : BitVec 12), run (.jalr rd a imm) = roustRuns s (fun r => { setXr r rd (r.pc + len) with
      pc := (xVal r a + imm.signExtend 64) &&& ~~~ 1#64, idle := false })) ∧
    (∀ (k : RvCond) (a b : XReg) (off : BitVec 13),
      (rvCond k (xVal r a) (xVal r b) = true →
        run (.branch k a b off) = roustRuns s (fun r => { r with pc := r.pc + off.signExtend 64, idle := false })) ∧
      (rvCond k (xVal r a) (xVal r b) = false →
        run (.branch k a b off) = roustRuns s (fun r => { r with pc := r.pc + len }))) ∧
    (∀ (k : RvLoad) (rd a : XReg) (imm : BitVec 12),
      let at_ := xVal r a + imm.signExtend 64
      let n := (rvLoadKind k).1
      let g := (rvLoadKind k).2
      let got (bs : List Byte) (t : State) : Out := .next (t.modCur (fun c => modRoust c (t.party == .storer) (fun r =>
        { setXr r rd (wordOf (if g then signExt (natOfBytes bs) (8 * bs.length) else natOfBytes bs)) with pc := r.pc + len })))
      (∀ (bs : List Byte) (t : State), at_.toNat < 0x10000 → localLoad at_ n s = .ok bs t →
        run (.load k rd a imm) = got bs t) ∧
      (∀ (pa : Nat) (t u : State), 0x10000 ≤ at_.toNat → roustAccess at_ n .load .read s = .ok pa t →
        (∀ bs : List Byte, mayHold t = false → loadMem pa n .core 0 t = .ok bs u → run (.load k rd a imm) = got bs u) ∧
        (mayHold t = true →
          enqueue { n := 0, kind := .loadX g rd, pa := pa, size := n, scope := .core, hint := 0, code := 0 } t = .ok () u →
          run (.load k rd a imm) = .next (u.modCur (fun c => modRoust c (u.party == .storer) (fun r =>
            { r with pc := r.pc + len })))))) ∧
    (∀ (k : RvStore) (a b : XReg) (imm : BitVec 12),
      let at_ := xVal r a + imm.signExtend 64
      let n := rvStoreSize k
      let past (t : State) : Out := .next (t.modCur (fun c => modRoust c (t.party == .storer) (fun r =>
        { r with pc := r.pc + len })))
      (∀ t : State, 0x4000 ≤ at_.toNat → at_.toNat + n ≤ 0x8000 →
        dstorePut at_.toNat ((wordBytes 8 (xVal r b)).take n) s = .ok () t → run (.store k a b imm) = past t) ∧
      (∀ (pa : Nat) (t u : State), 0x10000 ≤ at_.toNat → roustAccess at_ n .store .write s = .ok pa t →
        issueStore (xVal r b) pa n .core 0 t = .ok () u → run (.store k a b imm) = past u))) ∧
  (∀ (x : RvFenceArgs) (s t : State), s.party = .loader ∨ s.party = .storer →
    (if x.pred ≠ 0 ∧ x.succ ≠ 0 then (do releaseOwn .sys; modify (fun s => acquire s s.core .sys)) else pure () : M Unit) s =
      .ok () t →
    exec (.roustaboutFence x) s = .next (t.modCur (fun c => modRoust c (t.party == .storer) (fun r =>
      { r with pc := r.pc + 4 })))) ∧
  (∀ (x : RvAmoArgs) (s : State) (a b : Word),
    let r := roustIn s
    let n := if x.dbl then 8 else 4
    let old := wordOfBytes (memRead r.dstore (a.toNat - 0x4000) n)
    let widened := wordOf (signExt (uint old) (8 * n))
    let leaves (v : Word) (f : Roustabout → Roustabout) : Prop :=
      dstoreAmo x a n b s = .ok v (s.modCur (fun c => modRoust c (s.party == .storer) f))
    a.toNat % n = 0 →
    (∀ bs : List Byte, x.op = .lr → localLoad a n s = .ok bs s →
      leaves (roustValue true bs) (fun r => { r with reserved := some (dstoreLine a.toNat) })) ∧
    (0x4000 ≤ a.toNat → a.toNat + n ≤ 0x8000 →
    (x.op = .lr → leaves widened (fun r => { r with reserved := some (dstoreLine a.toNat) })) ∧
    (x.op = .sc → r.reserved ≠ some (dstoreLine a.toNat) → leaves 1 (fun r => { r with reserved := none })) ∧
    (x.op = .sc → r.reserved = some (dstoreLine a.toNat) → leaves 0 (fun r =>
      { r with dstore := memWrite r.dstore (a.toNat - 0x4000) ((wordBytes 8 b).take n), reserved := none })) ∧
    (x.op ≠ .lr → x.op ≠ .sc → leaves widened (fun r => { r with
      dstore := memWrite r.dstore (a.toNat - 0x4000) ((wordBytes 8 (rvAmoNew x.op (8 * n) old b)).take n)
      reserved := if r.reserved = some (dstoreLine a.toNat) ∨ r.reserved = some (dstoreLine (a.toNat + n - 1)) then none
        else r.reserved })))) ∧
  (∀ (x : RvAmoArgs) (s u : State), s.party = .loader ∨ s.party = .storer → s.cur.spec = false ∨ x.op = .lr →
    let a := xVal (roustIn s) x.rs1
    let b := xVal (roustIn s) x.rs2
    let n := if x.dbl then 8 else 4
    let past (y : State) : Out := .next (y.modCur (fun c => modRoust c (y.party == .storer) (fun r => { r with pc := r.pc + 4 })))
    (if x.rl then releaseOwn .sys else pure () : M Unit) s = .ok () u →
    (∀ (v : Word) (t : State), a.toNat < 0x10000 → dstoreAmo x a n b u = .ok v t →
      let w := t.modCur (fun c => modRoust c (t.party == .storer) (fun r => setXr r x.rd v))
      exec (.roustaboutAmo x) s = past (if x.aq then acquire w w.core .sys else w)) ∧
    (∀ t : State, 0x10000 ≤ a.toNat → memAmo x a n b u = .ok () t → exec (.roustaboutAmo x) s = past t)) ∧
  (∀ (x : RvAmoArgs) (a b : Word) (n pa : Nat) (s t : State),
    (match x.op with
      | .lr => roustAccess a n .load .read
      | .sc => roustAccess a n .store .both
      | _ => roustPlace a n .load .both true : M Nat) s = .ok pa t →
    let acc := loadAccess (.amoX x.op x.aq x.rd b) pa n (if x.op = .lr ∨ x.op = .sc then .core else .sys) 0
    (mayHold t = true → memAmo x a n b s = .ok () (joinsQueue t acc)) ∧
    (∀ d : State, mayHold t = false → drainParty t.party t = .ok () d →
      memAmo x a n b s = .ok () (performAmoX d d.core acc x.op x.aq x.rd b))) ∧
  (∀ (s : State) (k : Nat) (a : Access) (op : RvAmoOp) (aq : Bool) (d : XReg) (b : Word),
    let mine (t : State) (f : Roustabout → Roustabout) : State := t.modCur (fun c => modRoust c (t.party == .storer) f)
    let acquires (t : State) : State := if aq then acquire t k .sys else t
    let r := roustIn s
    let ld := ctxLoad s k a.pa a.size a.scope a.hint
    (op = .lr → performAmoX s k a op aq d b =
      acquires (mine ld.1 (fun r => { setXr r d (roustValue true ld.2) with reserved := some (lineOf a.pa) }))) ∧
    (op = .sc → r.reserved = some (lineOf a.pa) → performAmoX s k a op aq d b =
      acquires (mine (ctxStore s k a.pa ((wordBytes 8 b).take a.size) a.scope a.hint)
        (fun r => { setXr r d 0 with reserved := none }))) ∧
    (op = .sc → r.reserved ≠ some (lineOf a.pa) → performAmoX s k a op aq d b =
      acquires (mine s (fun r => { setXr r d 1 with reserved := none }))) ∧
    (op ≠ .lr → op ≠ .sc →
      let g := gatherLine (release s k a.scope) k (lineOf a.pa) a.scope
      let ld := ctxLoad g k a.pa a.size a.scope a.hint
      let st := ctxStore ld.1 k a.pa ((wordBytes 8 (rvAmoNew op (8 * a.size) (wordOfBytes ld.2) b)).take a.size) a.scope a.hint
      performAmoX s k a op aq d b = acquire (mine st (fun r => setXr r d (roustValue true ld.2))) k .sys))

/-- The roustabout extension (R286): pushes, pops and waits on the engine ports, the words QA and QB for the control thread, each
push a Release at .core or at the engine's scope (R266), QD from it, strips with their scales and end marks, fences, events and
stage waits. A push captures its capabilities as CINC makes them, a sealed one trapping CAPSEAL (R286, R81); an instruction of the
other roustabout is none for the one that meets it (R71, R72). The corners and details of the traps are notes/assumptions/14.md and
30.md, and their POISONPC 0 is notes/assumptions/16.md. -/
def Obligations.RoustaboutExtension : Prop :=
  (∀ (x : QArgs) (s : State), s.party = .loader →
    let v := xVal (roustIn s) x.rs1
    let q := s.cur.q
    (∀ u : State, q.qa.length < 16 → releaseOwn .core s = .ok () u →
      exec (.qaPush x) s = roustQueues u (fun q => { q with qa := q.qa ++ [v] }) none) ∧
    (∀ u : State, q.qb.length < 16 → releaseOwn .core s = .ok () u →
      exec (.qbPush x) s = roustQueues u (fun q => { q with qb := q.qb ++ [v] }) none) ∧
    exec (.qaStat x) s = roustQueues s id (some (x.rd, BitVec.ofNat 64 (16 - q.qa.length))) ∧
    exec (.qbStat x) s = roustQueues s id (some (x.rd, BitVec.ofNat 64 (16 - q.qb.length))) ∧
    (∀ (f : Fin 8) (st : Fin 16) (n off : Nat), stripDesc v = some (f, st, n) → 0 < n → n ≤ 4096 →
      ownSpad s (xVal (roustIn s) x.rs2) n = some off → (q.strips[f]).length < 8 →
      exec (.qsStrip x) s = roustQueues s (fun q => pendStage { q with
        strips := q.strips.set f (q.strips[f] ++ [.strip st n off none]) } st) none) ∧
    (∀ (f : Fin 8) (st : Fin 16) (n off : Nat) (l : List StripEntry), stripDesc v = some (f, st, n) → 0 < n → n ≤ 256 →
      ownSpad s (xVal (roustIn s) x.rs2) n = some off → attachScale (st, n, off) q.strips[f] = some l →
      exec (.qsScale x) s = roustQueues s (fun q => pendStage { q with strips := q.strips.set f l } st) none) ∧
    (∀ f : Fin 8, f.val = field v 0 3 → (q.strips[f]).length < 8 → exec (.qsEnd x) s = roustQueues s (fun q =>
      { q with strips := q.strips.set f (q.strips[f] ++ [.endMark]) }) none)) ∧
  (∀ (x : QArgs) (s : State), s.party = .storer →
    (∀ (w : Word) (rest : List Word), s.cur.q.qd = w :: rest →
      exec (.qdPop x) s = roustQueues s (fun q => { q with qd := rest }) (some (x.rd, w))) ∧
    exec (.qdStat x) s = roustQueues s id (some (x.rd, BitVec.ofNat 64 s.cur.q.qd.length))) ∧
  (∀ (x : QArgs) (s : State), s.party = .loader ∨ s.party = .storer →
    let r := roustIn s
    let v := xVal r x.rs1
    let p := field v 0 6
    (∀ (n : Nat) (src dst idx : Cap) (u : State), v.toNat % 8 = 0 → 0x4000 ≤ v.toNat → v.toNat + 32 ≤ 0x8000 →
      let word (i : Nat) : Word := wordOfBytes (memRead r.dstore (v.toNat - 0x4000 + 8 * i) 8)
      let k := word 3
      liveEngine s s.core (cmdPort (word 0)) = some n → pushRoom s n (cmdPort (word 0)) = true →
      pushCap r (field k 0 4) (word 1) s = .ok src s → pushCap r (field k 4 4) (word 2) s = .ok dst s →
      pushCap r (field k 8 4) 0 s = .ok idx s →
      let cmd := newCmd s s.party (word 0) src dst idx (k.extractLsb' 32 32).toInt
      (s.cur.spec = true → destsInside s n cmd = true) → releaseOwn (homeScope n) s = .ok () u →
      exec (.qePush x) s = roustQueues (joinEngine u n cmd) id
        (some (x.rd, BitVec.ofNat 64 cmd.seq))) ∧
    (∀ (e : ResElem) (rest : List ResElem), (liveEngine s s.core p).isSome = true → resFifo s.cur p s.party = e :: rest →
      exec (.qePop x) s = roustQueues (popAcquire (s.modCur (fun c => setResFifo c p s.party rest)) s.core e.ranges) id
        (some (x.rd, e.w0))) ∧
    (isEnginePort p = true ∨ p ∈ [16, 17, 18, 63] →
      exec (.qeStat x) s = roustQueues s id (some (x.rd, eqstatWord s s.party p))) ∧
    (∀ n : Nat, liveEngine s s.core p = some n → (∀ c ∈ ownCmds s s.slot p, c.party ≠ s.party) →
      exec (.qeWait x) s = roustQueues s id none) ∧
    (∀ u : State, releaseOwn (scopeOfCode (field v 0 3) .sys) s = .ok () u →
      exec (.qvFence x) s = roustQueues (acquire u u.core (scopeOfCode (field v 0 3) .sys)) id none) ∧
    (s.cur.q.events.length < 64 → exec (.qvEvent x) s = roustQueues s (fun q => { q with events := q.events ++
      [{ w0 := setField (setField (setField v 58 6 62) 50 1 1) 48 2 (pusherCode s.party), w1 := 0, w2 := 0,
         w3 := xVal r x.rs2, ranges := [] }] }) none) ∧
    (∀ st : Fin 16, st.val = field v 0 4 → s.cur.q.stages[st].pending = 0 →
      exec (.qvWait x) s = roustQueues s id (some (x.rd, (s.cur.q.stages[st].credit).setWidth 64)))) ∧
  (∀ (r : Roustabout) (n : Nat) (off : Word) (s : State),
    (r.kc.toList[n]? = none → pushCap r n off s = .ok Cap.zero s) ∧
    (∀ c : Cap, r.kc.toList[n]? = some c →
      (c.tag = false ∨ capOtype c = 0 → pushCap r n off s = .ok (setCursor c (capCursor c + off)) s) ∧
      (c.tag = true → capOtype c ≠ 0 →
        let trap : Trap := { cause := 0x23, party := 0, detail0 := BitVec.ofNat 64 n, detail1 := 0, poisonPc := 0 }
        pushCap r n off s = .error (.trap trap) s))) ∧
  (∀ (x : QArgs) (i : Instr) (s t : State) (w : Word), roustWord s = .ok w t →
    (s.party = .storer ∧ i ∈ [.qaPush x, .qaStat x, .qbPush x, .qbStat x, .qsStrip x, .qsScale x, .qsEnd x]) ∨
      (s.party = .loader ∧ i ∈ [.qdPop x, .qdStat x]) →
    let trap : Trap := { cause := 0x10, party := if s.party == .storer then 3 else 2, detail0 := w,
                         detail1 := if s.party == .storer then 3 else 2, poisonPc := 0 }
    exec i s = .next (raiseFor s.slot trap s))

/-! ### Calliopes and front ends -/

/-- Lysyo within its 512 steps (R385, R386): registers written from registers, immediates, the packet, the ring, the windows,
FETIME and the queue's counters; l0 reads as zero and discards; stores to the calliope's copy and through a window;
branches from their own index; a LOOP opens its body. How a run ends (R382, R386): END 0 asks for a hold, END 1 and any
other verdict complete the packet as OK and as LYFAIL; the 513th step completes it as BUDGET and has no other effect; an
offset or an address that an access may not use completes it as LYFAULT. -/
def Obligations.LysyoInstructions : Prop :=
  (∀ (s : State) (run : LyRun), (s.feAt s.fe).run = some run → run.steps < 512 →
    let r := lyTick run
    let h := s.queueAt r.queue
    let sets (d : LReg) (v : Word) : Out := lyGoes s.fe (lyPast (lset r d v)) s
    (∀ p ∈ lyTable, ∀ x : LyRArgs, exec (p.1 x) s = sets x.rd (p.2 (lget r x.ra) (lget r x.rb))) ∧
    (∀ x : LyIArgs,
      exec (.lysyoLi x) s = sets x.rd (x.imm.signExtend 64) ∧
      exec (.lysyoLih x) s = sets x.rd ((lget r x.rd <<< 16) + x.imm.setWidth 64) ∧
      exec (.lysyoAddi x) s = sets x.rd (lget r x.ra + x.imm.signExtend 64) ∧
      exec (.time x) s = sets x.rd ((s.feAt s.fe).time.setWidth 64) ∧
      (x.imm = 0 → exec (.qinfo x) s = sets x.rd (h.head.setWidth 64)) ∧
      (∀ k : Pkt, x.imm = 1 → (underway h).head? = some k → exec (.qinfo x) s = sets x.rd (k.index.setWidth 64)) ∧
      (x.imm = 2 → exec (.qinfo x) s = sets x.rd (h.inflight.setWidth 64)) ∧
      (x.imm = 3 → exec (.qinfo x) s = sets x.rd h.misscnt)) ∧
    (∀ x : LyIArgs, lyOff r x % 8 = 0 → lyOff r x < 64 →
      exec (.ldpk x) s = sets x.rd (pktWord (lyPacket s r) (lyOff r x / 8)) ∧
      (16 ≤ lyOff r x → exec (.stpk x) s = lyGoes s.fe (lyPast r)
        (modUnderway s r.queue (fun k => { k with copy := vset k.copy (lyOff r x / 8) (lget r x.rd) })))) ∧
    (∀ x : LyIArgs, lyOff r x % 8 = 0 → lyOff r x < 64 * 2 ^ h.lg → busReach s (h.ringbase.toNat + lyOff r x) 8 = true →
      exec (.ldrg x) s = sets x.rd (pkgWord s (h.ringbase.toNat + lyOff r x))) ∧
    (∀ (x : LyIArgs) (a : Nat), windowAddr s r x = some a →
      exec (.ldwn x) s = sets x.rd (pkgWord s a) ∧
      exec (.stwn x) s = lyGoes s.fe (lyPast r) (pkgPut s a (lget r x.rd))) ∧
    (∀ p ∈ lyBranches, ∀ x : LyIArgs,
      (p.2 (lget r x.rd) (lget r x.ra) →
        exec (p.1 x) s = lyGoes s.fe { r with index := r.index + x.imm.toNat } s) ∧
      (¬ p.2 (lget r x.rd) (lget r x.ra) → exec (p.1 x) s = lyGoes s.fe (lyPast r) s)) ∧
    (∀ x : LyIArgs, exec (.lysyoLoop x) s = lyGoes s.fe { r with
      loops := (r.index + 1, r.index + field x.imm 0 8, field x.imm 8 8) :: r.loops
      index := r.index + 1 } s)) ∧
  (∀ (s : State) (r : LyRun), (s.feAt s.fe).run = some r →
    (∀ x : LyIArgs, r.steps < 512 →
      (x.imm = 0 → exec (.lysyoEnd x) s = .next (settleUnmaps (toHold (endRun s s.fe) s.fe r.queue) s.fe)) ∧
      (x.imm = 1 → exec (.lysyoEnd x) s = .next (runEnds s s.fe r.queue 0)) ∧
      (2 ≤ x.imm.toNat → exec (.lysyoEnd x) s = .next (runEnds s s.fe r.queue 6))) ∧
    (∀ (x : LyIArgs) (y : LyRArgs), 512 ≤ r.steps → ∀ i ∈ lysyoOps x y, exec i s = .next (runEnds s s.fe r.queue 2)) ∧
    (∀ x : LyIArgs, r.steps < 512 →
      (lyOff r x % 8 ≠ 0 ∨ 64 ≤ lyOff r x → exec (.ldpk x) s = .next (runEnds s s.fe r.queue 7)) ∧
      (lyOff r x % 8 ≠ 0 ∨ 64 ≤ lyOff r x ∨ lyOff r x < 16 → exec (.stpk x) s = .next (runEnds s s.fe r.queue 7)) ∧
      (windowAddr s r x = none → exec (.ldwn x) s = .next (runEnds s s.fe r.queue 7) ∧
        exec (.stwn x) s = .next (runEnds s s.fe r.queue 7)) ∧
      (let h := s.queueAt r.queue
       lyOff r x % 8 ≠ 0 ∨ 64 * 2 ^ h.lg ≤ lyOff r x ∨ busReach s (h.ringbase.toNat + lyOff r x) 8 = false →
        exec (.ldrg x) s = .next (runEnds s s.fe r.queue 7))))

/-- The steps of a packet in its front end (R380 to R384, R431): scan, wait signal, arbitration, the two ends of a hold,
launch, completion, and the cut of a snapshot engine. A front end selects (R381) a candidate of one of its mapped queues
such that no candidate with a deadline has an earlier one. Their corners are notes/assumptions/50.md to 53.md. -/
def Obligations.FrontEndSteps : Prop :=
  (∀ (fe q : Nat) (i : BitVec 32) (v : Vector Word 8) (s : State), fe < 8 → feFree s fe = true →
    selected s fe = some (q, i, v) →
    exec (.arbitrationStep fe) s = .next (firstStages (takePacket s q i v) fe q i v)) ∧
  (∀ (fe q : Nat) (k : Pkt) (t : BitVec 48) (s : State), heldPacket s fe q = some (k, t) →
    (s.arb.point ≤ classOf (pktWord k.copy 0) →
      exec (.holdRelease fe q) s = .next (modUnderway s q (fun k => { k with stage := .launch }))) ∧
    (40000 ≤ ((s.feAt fe).time - t).toNat →
      exec (.holdTimeout fe q) s = .next (modUnderway s q (fun k => { k with stage := .launch })))) ∧
  (∀ (fe j q : Nat) (k : Pkt) (s : State), (s.queueAt q).mapped = some (fe, j) → pktUnderway s q = some k →
    k.stage = .launch →
    let late := isLate (pktWord k.copy 0) (s.feAt fe).time
    let ends (t : State) (st : Nat) : Out := .next (settleUnmaps (endPacket t q st) fe)
    (packetOk s k.copy = false → exec (.launchStep fe q) s = ends s 3) ∧
    (packetOk s k.copy = true → late = true → (s.queueAt q).drop = true → exec (.launchStep fe q) s = ends s 1) ∧
    (packetOk s k.copy = true → (late = true → (s.queueAt q).drop = false) →
      let t := if late then s.modQueue q (fun h => { h with misscnt := h.misscnt + 1 }) else s
      (pktType (pktWord k.copy 0) = 0 → exec (.launchStep fe q) s = ends t 0) ∧
      (pktType (pktWord k.copy 0) = 1 → exec (.launchStep fe q) s = .next (settleUnmaps (dispatchPacket t q k) fe)))) ∧
  (∀ (q n : Nat) (k : Pkt) (s : State), (s.queueAt q).taken.find? (fun k => k.index.toNat == n) = some k →
    (k.stage = .completed → (∀ c ∈ allCmds s, c.owes ≠ some (q, n)) →
      exec (.packetCompletion q n) s = .next (completionStatus s q k)) ∧
    (k.stage = .written → ∃ t, exec (.packetCompletion q n) s = .next t ∧ t = completionHead s q k ∧
      (t.queueAt q).inflight = (if k.launched then (s.queueAt q).inflight - 1 else (s.queueAt q).inflight) ∧
      (t.queueAt q).dropcnt = (if k.status = 1 then (s.queueAt q).dropcnt + 1 else (s.queueAt q).dropcnt) ∧
      (t.queueAt q).tail = (s.queueAt q).tail ∧ t.mem = s.mem) ∧
    (k.stage = .counted → exec (.packetCompletion q n) s = .next (completionSignal s q k))) ∧
  (∀ (q : Nat) (s : State),
    ((s.queueAt q).wake = true → (liveSlot s (s.queueAt q)).isSome = true →
      exec (.queueScan q) s = .next (scanQueue s q)) ∧
    ((s.queueAt q).sigHit = true → (liveSlot s (s.queueAt q)).isSome = true →
      exec (.waitSignalWake q) s = .next (readSignal s q)) ∧
    ((s.queueAt q).sigHit = true → liveSlot s (s.queueAt q) = none →
      ∃ t, exec (.waitSignalWake q) s = .next t ∧ (t.queueAt q).pwake = (s.queueAt q).pwake ||| 2 ∧
        (t.queueAt q).sigHit = false ∧ t.mem = s.mem)) ∧
  (∀ (mask : BitVec 4) (d : Nat) (s : State), d < 4 → mask.toNat = 2 ^ d → cutBad s d = false →
    ∃ t, exec (.snapcut mask) s = .next t ∧ t.snapAt d = { s.snapAt d with
      seq := (s.snapAt d).seq + 1, complete := false, copied := 0, cut := true, pages := [] }) ∧
  (∀ (s : State) (f q : Nat) (i : BitVec 32) (v : Vector Word 8), selected s f = some (q, i, v) →
    (∃ j, (j, q) ∈ (s.feAt f).qmap) ∧ candidate s (s.queueAt q) = some (i, v) ∧
    (∀ p ∈ (s.feAt f).qmap, ∀ (k : BitVec 32) (w : Vector Word 8), candidate s (s.queueAt p.2) = some (k, w) →
      hasDeadline (pktWord w 0) = true →
      hasDeadline (pktWord v 0) = true ∧
        (deadlineOf (pktWord v 0) - (s.feAt f).time).toInt ≤ (deadlineOf (pktWord w 0) - (s.feAt f).time).toInt))

/-! ### Control stores -/

/-- Stores to the words of a context's frame (R97, R101, R301) that nothing turns away: RUN := 0 halts, RUN := 1 and 2 resume
a stopped context, RUN := 2 ends a running one after one instruction, a halt that is still to come being noted with its storer;
COMMIT notes its request, or takes it at once in a stopped context; SSCFG lays out the sideshow where its area and its budget
hold it. That the halt is asked within the store is notes/assumptions/24.md, the withdrawal of a halting storer's request is
78.md, RUN := 2 of a parked thread that stays parked is the model's choice, 69.md, and that a resume of an ending context changes
nothing is 27.md. -/
def Obligations.StoresToContextFrames : Prop :=
  (∀ (x : CmdArgs) (s : State) (c : Ctx), x.num < 16384 → s.ctx? x.num = some c →
    let pa := frameWord x.num 0
    (unlocked s x.by_ pa 0 → c.h.run ≠ 0 → c.halt ≠ some .away → c.core.isSome = true →
      exec (.runStop x) s = stored x.by_ pa 0 (haltAsked s x.by_ x.num 0
        (if haltWaits s x.num then s.modCtx x.num (fun c => { c with halt := some .stop }) else haltWith x.num cStop s))) ∧
    (∀ v : BitVec 2, v = 1 ∨ v = 2 → unlocked s x.by_ pa (v.setWidth 64) → x.num ≠ 0 → runBarred s c.h.region = false →
      let i := if v = 1 then Instr.runRun x else Instr.runStep x
      let noted (t : State) : State := if v = 2 then haltAsked s x.by_ x.num 2 t else t
      (c.h.run = 0 → c.ending = true → exec i s = stored x.by_ pa (v.setWidth 64) s) ∧
      (c.h.run = 0 → c.ending = false → exec i s = stored x.by_ pa (v.setWidth 64) (noted (awaitCore (resumeCtx x.num v
        (if c.saved then s.setCtx x.num { imagesIn s x.num c with saved := true } else s)) x.num))) ∧
      (c.h.run ≠ 0 → exec i s = stored x.by_ pa (v.setWidth 64)
        (noted (if v = 2 then s.modCtx x.num (fun c => { c with h := { c.h with run := 2 } }) else s))))) ∧
  (∀ (i : Instr) (x : CmdArgs) (b : BitVec 3) (s : State) (c : Ctx), commitOf i = some (x, b) → x.num < 16384 →
    s.ctx? x.num = some c → commitPending c = false → unlocked s x.by_ (frameWord x.num 0xC0) (b.setWidth 64) →
    let t := s.modCtx x.num (fun c => { c with h := { c.h with
      reqRoot := b.getLsbD 0, reqVl := b.getLsbD 1, reqAtp := b.getLsbD 2 } })
    exec i s = stored x.by_ (frameWord x.num 0xC0) (b.setWidth 64) (if c.h.run = 0 then applyCommit t x.num else t)) ∧
  (∀ (x : StoreArgs) (s : State) (c : Ctx), x.num < 16384 → s.ctx? x.num = some c → c.h.run = 0 →
    unlocked s x.by_ (frameWord x.num 0x9F80) x.value →
    let base := field x.value 0 20
    let slots := field x.value 20 12
    let lp := field x.value 32 2
    let back := budgetGive s c.h.region 3 (c.ss.slots * 2 ^ c.ss.lp)
    let ss : Sideshow :=
      { base := base, slots := slots, lp := lp, heads := Vector.replicate 8 0, counts := Vector.replicate 8 0 }
    base + 64 * (slots * 2 ^ lp) ≤ 2 ^ 20 → budgetRoom back c.h.region 3 (slots * 2 ^ lp) = true →
    exec (.sscfgStore x) s = stored x.by_ (frameWord x.num 0x9F80) x.value
      ((budgetTake back c.h.region 3 (slots * 2 ^ lp)).modCtx x.num (fun c => { c with ss := ss })))

/-- Stores to engine, queue, root and front-end pages that nothing turns away (R275, R377, R380, R388, R407, R409): an engine
pauses and goes on; NOTIFY sets the tail and wakes; HEAD moves by no more than the records held, of a trap or service queue
within its scope; PRQHEAD likewise; PRREPLY answers an outstanding request; MAP and UNMAP of a queue. -/
def Obligations.StoresToQueuesAndRoots : Prop :=
  (∀ (x : CmdArgs) (s : State), x.num < 76 → enginePresent s x.num = true →
    let pa := engineWord x.num 8
    (unlocked s x.by_ pa 1 →
      exec (.enginePause x) s = stored x.by_ pa 1 (s.modEngine x.num (fun e => { e with pause := true }))) ∧
    (unlocked s x.by_ pa 0 →
      exec (.engineUnpause x) s = stored x.by_ pa 0 (s.modEngine x.num (fun e => { e with pause := false })))) ∧
  (∀ (x : StoreArgs) (s : State), x.num < 65536 →
    let h := s.queueAt x.num
    let n : BitVec 32 := x.value.setWidth 32
    (unlocked s x.by_ (queuePage x.num + 0x20) x.value → h.valid = true → h.kind = 0 →
      exec (.notify x) s = stored x.by_ (queuePage x.num + 0x20) x.value
        (wakeQueue (s.modQueue x.num (fun h => { h with tail := n })) x.num 0)) ∧
    (unlocked s x.by_ (queuePage x.num + 0x10) x.value → h.kind ≠ 0 → insideScope s h x.by_ = true →
      exec (.head x) s = stored x.by_ (queuePage x.num + 0x10) x.value
        (if (n - h.head).toNat ≤ (h.tail - h.head).toNat then s.modQueue x.num (fun h => { h with head := n }) else s))) ∧
  (∀ (x : StoreArgs) (s : State), x.num < 16384 →
    let r := s.rootAt x.num
    let n : BitVec 32 := x.value.setWidth 32
    (unlocked s x.by_ (rootWord x.num 0x28) x.value →
      exec (.prqhead x) s = stored x.by_ (rootWord x.num 0x28) x.value
        (if (n - r.prqhead).toNat ≤ (r.prqtail - r.prqhead).toNat then s.modRoot x.num (fun r => { r with prqhead := n })
         else s)) ∧
    (∀ q : Request, unlocked s x.by_ (rootWord x.num 0x38) x.value → field x.value 62 2 ∈ [1, 2] →
      field x.value 32 30 = 0 → s.requests.find? (fun (y : Request) => y.part == x.num && y.id == n) = some q →
      exec (.prreply x) s = stored x.by_ (rootWord x.num 0x38) x.value (q.waiters.foldl
        (fun t w => postReply t n (field x.value 62 2 == 1) w)
        { s with requests := s.requests.filter (fun (y : Request) => !(y.part == x.num && y.id == n)) }))) ∧
  (∀ (x : MapArgs) (s : State), x.fe < 8 → x.slot < 128 → x.queue < 65536 → x.slot ∉ (s.feAt x.fe).busy →
    let pa := frontEndWord x.fe (8 * x.slot)
    (unlocked s x.by_ pa (BitVec.ofNat 64 (1 <<< 63 ||| x.queue)) →
      exec (.map x) s = stored x.by_ pa (BitVec.ofNat 64 (1 <<< 63 ||| x.queue)) (mapSlot s x.fe x.slot x.queue)) ∧
    (unlocked s x.by_ pa (BitVec.ofNat 64 x.queue) →
      exec (.unmap x) s = stored x.by_ pa (BitVec.ofNat 64 x.queue) (unmapSlot s x.fe x.slot)))

/-- Commands of control words that nothing turns away (R334, R419, R421, R445, R447): SCMD runs its command whole and shows
its result; TCMD of a troupe; TGO of a staged write; FERESTART of a halted front end; IMGGO in recovery. A staged write
(R421): with a bad address TGO answers 4, with another token 3, and nothing else changes; with the session's token the
inner store is made, SGEN steps, the measurement takes in the write, and TGO answers 0. That a command runs within its
store, and the corners, are notes/assumptions/33.md to 37.md. -/
def Obligations.StoresOfCommands : Prop :=
  (∀ (i : Instr) (x : CmdArgs) (n : Nat) (cmd : State → Nat → CmdRes) (s : State), scmdOf i = some (x, n, cmd) →
    x.num < 16 → unlocked s x.by_ (sessionWord x.num 0x10) (BitVec.ofNat 64 n) →
    exec i s = stored x.by_ (sessionWord x.num 0x10) (BitVec.ofNat 64 n)
      ((cmd s x.num).2.modSession x.num (fun y => { y with done := true, res := BitVec.ofNat 8 (cmd s x.num).1 }))) ∧
  (∀ (i : Instr) (x : CmdArgs) (n : Nat) (cmd : State → Nat → State) (s : State), tcmdOf i = some (x, n, cmd) →
    x.num < 4096 → unlocked s x.by_ (troupePage x.num + 0x20) (BitVec.ofNat 64 n) →
    exec i s = stored x.by_ (troupePage x.num + 0x20) (BitVec.ofNat 64 n) (cmd s x.num)) ∧
  (∀ (x : CmdArgs) (s : State), x.num < 16 → unlocked s x.by_ (sessionWord x.num 0x48) 0 →
    exec (.tgo x) s = stored x.by_ (sessionWord x.num 0x48) 0 (tgoStore s x.num)) ∧
  (∀ (x : CmdArgs) (s : State), x.num < 8 → unlocked s x.by_ (arbiterWord (0x200 + 8 * x.num)) 1 →
    exec (.ferestart x) s = stored x.by_ (arbiterWord (0x200 + 8 * x.num)) 1 (feRestart s x.num)) ∧
  (∀ (x : CmdArgs) (s : State), unlocked s x.by_ (arbiterWord 0x118) 0 →
    exec (.imggo x) s = stored x.by_ (arbiterWord 0x118) 0 (imgGo s)) ∧
  (∀ (x : StoreArgs) (s t : State), inCtl x.num = true → x.num % 8 = 0 → unlocked s x.by_ x.num x.value →
    openStore s x.by_ x.num x.value = .ok t → exec (.controlStore x) s = stored x.by_ x.num x.value t) ∧
  (∀ (s : State) (j : Nat),
    let x := s.sessionAt j
    let pa := x.taddr.toNat
    let answers (t : State) (r : BitVec 8) : State := t.modSession j (fun y => { y with done := true, res := r })
    (inCtl pa = false ∨ pa % 8 ≠ 0 ∨ lockedWord s j pa x.tval = false → tgoStore s j = answers s 4) ∧
    (inCtl pa = true → pa % 8 = 0 → lockedWord s j pa x.tval = true →
      (x.tok0, x.tok1) ≠ tokenOf s j x.taddr x.tval → tgoStore s j = answers s 3) ∧
    (∀ t : State, inCtl pa = true → pa % 8 = 0 → lockedWord s j pa x.tval = true →
      (x.tok0, x.tok1) = tokenOf s j x.taddr x.tval →
      (∀ k : Nat, lockAgainst s (some x.region) pa x.tval = some k → k = j) → innerStore s pa x.tval = .ok t →
      let u := tgoStore s j
      (u.sessionAt j).sgen = x.sgen + 1 ∧ (u.sessionAt j).smeas = nextMeas x x.taddr x.tval ∧
      (u.sessionAt j).done = true ∧ (u.sessionAt j).res = 0 ∧ u.mem = t.mem))

/-- Host and peer accesses (R89, R137): to the part's memory where the range is reachable and no page of it migrates, at .sys
with an answer for the host; to a control word that slot 0's root capability covers, the answer to a store coming once the store
is complete (R101) and the next access to control space waiting for it (R92); the error completion otherwise. What a peer's memory
holds is not asked. -/
def Obligations.AccessesOverLinks : Prop :=
  ∀ (x : BusArgs) (s : State),
    (inCtl x.addr = false → 0 < x.size → x.size ≤ 8 → linkReach s x.addr x.size x.write = true →
      migrating s x.addr = false → migrating s (x.addr + x.size - 1) = false →
      let w := pkgStoreAll s x.addr (wordBytes x.size x.value)
      let v := wordOfBytes (((pieces x.addr x.size 2).map (fun p => pkgLoad s p.1 p.2)).flatten)
      exec (.hostAccess x) s =
        .next (if x.write then { w with answer := (false, 0) } else { s with answer := (false, v) }) ∧
      (bit s.fuses.ports x.port = true → bit s.links16 x.port = true →
        exec (.peerPortAccess x) s = .next (if x.write then w else s))) ∧
    (inCtl x.addr = false → x.size = 0 ∨ 8 < x.size ∨ linkReach s x.addr x.size x.write = false →
      exec (.hostAccess x) s = .next { s with answer := (true, 0) }) ∧
    (inCtl x.addr = true → s.hostStore.isSome = true → exec (.hostAccess x) s = .next s) ∧
    (inCtl x.addr = true → s.hostStore = none → x.size = 8 → x.addr % 8 = 0 → hostMay s x.addr x.write = true → hostSelf s x.addr = false →
      (x.write = false → exec (.hostAccess x) s = .next { s with answer := (false, ctlRead s .host x.addr) }) ∧
      (∀ t : State, x.write = true → ctlStore s .host x.addr x.value = .ok t →
        let halts := haltTargets t x.addr x.value
        exec (.hostAccess x) s = .next (
          if halts = [] ∧ storeDone t (storeAwaits t x.addr x.value) x.addr x.value = true then { t with answer := (false, 0) }
          else { t with hostStore := some (x.addr, x.value, halts) }))) ∧
    (inCtl x.addr = true → s.hostStore = none → x.size ≠ 8 ∨ x.addr % 8 ≠ 0 ∨ hostMay s x.addr x.write = false ∨ hostSelf s x.addr = true →
      exec (.hostAccess x) s = .next { s with answer := (true, 0) })

/-! ### Engines -/

/-- The steps of an engine's commands (R269 to R277, R327, R328, R425, R431): the refusal of a command not begun; one granule
of a copy, with those that a segment ties to it (R133), one element of a gather, of a replay, one granule of a sealing, or a cut; the report of a miss; the record of a
completed command, which leaves the engine, those of a pruned context dropped (R364); the start and the pause of a link command; the start and the end of a sealing.
That any command may perform next is notes/assumptions/28.md; corners are 29.md. -/
def Obligations.EngineSteps : Prop :=
  (∀ (x : EngArgs) (s : State) (c : Cmd) (cause : BitVec 16), cmdAt? s x = some c → c.started = false → c.status = none →
    (s.engineAt x.eng).pause = false → heldBack s c = false → refusal s x.eng c = some cause →
    exec (.engineRefuse x) s = .next (endCmd s x.eng x.idx { c with fault := some (cause, 0) } 3)) ∧
  (∀ (x : EngArgs) (s : State) (c : Cmd), cmdAt? s x = some c → mayPerform s x.eng c = true →
    (∀ m : XFault × Nat × Bool, c.miss = some m → exec (.enginePerform x) s = .next (reportStep s x.eng x.idx c m)) ∧
    (c.miss = none → isGather c.word = true → exec (.enginePerform x) s = .next (gatherStep s x.eng x.idx c)) ∧
    (c.miss = none → cmdOp c.word = 7 → exec (.enginePerform x) s = .next (replayStep s x.eng x.idx c)) ∧
    (c.miss = none → cmdOp c.word = 10 →
      exec (.enginePerform x) s = .next (endCmd (takeCut s (x.eng - 76)) x.eng x.idx { c with started := true } 0)) ∧
    (c.miss = none → isSealing c.word = true → c.buf ≠ [] →
      exec (.enginePerform x) s = .next (sealGranule s x.eng x.idx c)) ∧
    (c.miss = none → cmdOp c.word ∈ [0, 1, 2, 5, 6] →
      exec (.enginePerform x) s = .next (copyStep s x.eng x.idx c) ∧
      (s.segs = [] → copyStep s x.eng x.idx c = copyGranule s x.eng x.idx c)) ∧
    (c.miss = none → cmdOp c.word = 8 → c.buf = [] → exec (.pseal x) s = .next (sealStart s x.eng x.idx c)) ∧
    (c.miss = none → cmdOp c.word = 8 → c.buf ≠ [] → c.buf.length ≤ c.pos →
      exec (.pseal x) s = .next (sealFinish s x.eng x.idx c)) ∧
    (c.miss = none → cmdOp c.word = 9 → c.buf = [] → exec (.punseal x) s = .next (unsealStart s x.eng x.idx c))) ∧
  (∀ (x : EngArgs) (s t : State) (c : Cmd) (src dst : List Piece), cmdAt? s x = some c →
    let k := granuleLen c (cmdLen c.word)
    copyAccess s x.eng c k = (t, .ok (src, dst)) → peerDown t (src ++ dst) = false →
    ∃ d, cmdAt? (copyGranule s x.eng x.idx c) x = some d ∧ d.pos = c.pos + k ∧ d.done = c.done + k ∧
      d.status = (if c.pos + k = cmdLen c.word * cmdRows c.word then some 0 else c.status)) ∧
  (∀ (x : EngArgs) (s : State) (c : Cmd) (st : BitVec 3), cmdAt? s x = some c → c.status = some st →
    (s.engineAt x.eng).pause = false →
    let t := s.modEngine x.eng (fun e => { e with cmds := e.cmds.eraseIdx x.idx })
    let k := if st = 0 then c else { c with ranges := c.ranges ++ livePages s x.eng c (extentsOf s x.eng c).2 }
    (∀ y : Ctx, c.packet = none → s.ctx? c.slot = some y →
      (y.pruned = false → postRoom y c = true →
        exec (.enginePost x) s = .next (t.modCtx c.slot (fun y => postCtx y k))) ∧
      (y.pruned = true → exec (.enginePost x) s = .next t)) ∧
    (∀ p : Nat × Nat, c.packet = some p → exec (.enginePost x) s = .next (packetEnds t (some p) (if st = 0 then 0 else 3)))) ∧
  (∀ (x : EngArgs) (s : State) (c : Cmd) (l : Link) (g : Gang), cmdAt? s x = some c → linkFor s x.eng c = some (l, g) →
    c.started = false → c.status = none → (s.engineAt x.eng).pause = false → heldBack s c = false →
    leaving s c.slot = false → leaving s (consumerSlot l g) = false → refusal s x.eng c = none →
    cmdLen c.word ≤ (stageIn s c.slot l.pstage).credit.toNat →
    exec (.linkCommandStart x) s = .next (setCmd (creditStage s c.slot l.pstage (fun y =>
      { y with credit := y.credit - BitVec.ofNat 24 (cmdLen c.word) })) x.eng x.idx { c with started := true })) ∧
  (∀ (x : EngArgs) (s : State) (c : Cmd) (l : Link) (g : Gang), cmdAt? s x = some c → linkFor s x.eng c = some (l, g) →
    c.started = true → c.status = none → leaving s c.slot = true ∨ leaving s (consumerSlot l g) = true →
    exec (.linkCommandPause x) s = .next (setCmd s x.eng x.idx { c with paused := true }))

/-! ### Placement -/

/-- The steps of placement (R46 to R48, R179, R321 to R324, R412 to R414, R427): a placer aims a gang at cores, a placement
withdraws, a gang starts, waits for its grants or fails, and ends; a pre-emption is requested and halts; a core is
scrubbed; a lane queue's head is granted; a free core accepts what is aimed at it, or searches. That a step whose
condition does not hold does nothing is notes/assumptions/13.md. -/
def Obligations.PlacementSteps : Prop :=
  (∀ (die region g : Nat) (x : Gang) (cores : List Nat) (s : State),
    ((placeHeads s).filter (fun h => h.2.cores.isEmpty && (diesOf h.2.anydie h.2.die).contains die)).find?
      (fun h => (gangPlace s h.2).isSome) = some (g, x) → x.region = region → gangPlace s x = some cores →
    ∃ t, exec (.placementAim die region) s = .next t ∧ gang? t g = some { x with cores := cores } ∧ t.mem = s.mem ∧
      t.ctxs = s.ctxs ∧ (∀ k ∈ cores, g ∈ (t.coreAt k).aims ∧ (t.coreAt k).accepted = (s.coreAt k).accepted ∧
        (∀ h : Nat, h ≠ g → (h ∈ (t.coreAt k).aims ↔ h ∈ (s.coreAt k).aims))) ∧
      (∀ k : Nat, k ∉ cores → t.coreAt k = s.coreAt k)) ∧
  (∀ (g : Nat) (x : Gang) (s : State), g ∈ (s.regionAt x.region).placeq →
    let t := withdraw s g x
    (t.regionAt x.region).placeq.head? = some g ∧ gang? t g = some { x with cores := [] } ∧ t.mem = s.mem ∧ t.ctxs = s.ctxs ∧
      (∀ k : Nat, g ∉ (t.coreAt k).aims ∧ (t.coreAt k).accepted ≠ some g)) ∧
  (∀ (g : Nat) (x : Gang) (s : State), gang? s g = some x → x.running = false →
    ((∃ k ∈ x.cores, g ∉ (s.coreAt k).aims ∨ coreFree s k = false ∨ ∃ h, (s.coreAt k).accepted = some h ∧ h ≠ g) →
      exec (.placementWithdraw g) s = .next (withdraw s g x)) ∧
    (allAccepted s g x = true → runBarred s x.region = false → x.cores.any (fun k => mustScrub s k x.region) = false →
      (∀ l : List Nat, x.kind = .contexts l → canStart s x x.cores = true →
        exec (.gangStart g) s = .next (startGang s g x)) ∧
      (∀ pa : Nat, x.kind = .record pa → recFault s x.region pa = none → recValid s x.region pa = true →
        canStart s x x.cores = true → exec (.gangStart g) s = .next (startGang s g x)) ∧
      (∀ (pa : Nat) (f : BitVec 16), x.kind = .record pa → recFault s x.region pa = some f →
        exec (.gangStart g) s = .next (failLaunch s g x pa f)) ∧
      (∀ pa : Nat, x.kind = .record pa → recFault s x.region pa = none → recValid s x.region pa = false →
        exec (.gangStart g) s = .next (failLaunch s g x pa 0)) ∧
      (∀ pa : Nat, x.kind = .record pa → recFault s x.region pa = none → recValid s x.region pa = true →
        canStart s x x.cores = false → exec (.gangStart g) s = .next (withdraw s g x)) ∧
      (∀ l : List Nat, x.kind = .contexts l → canStart s x x.cores = false →
        exec (.gangStart g) s = .next (withdraw s g x)))) ∧
  (∀ (g pa : Nat) (x : Gang) (s : State), gang? s g = some x → x.running = true → gangHalted s x = true →
    x.kind = .record pa →
    let t := x.slots.foldl endCtx (oweTo s x.slots x.packet)
    exec (.gangEnd g) s =
      .next (packetEnds (dropGang (putRec (stepDone t (tabAddr (recW t pa 20))) pa 0 false) g) x.packet 0)) ∧
  (∀ (die region g : Nat) (x : Gang) (cores : List Nat) (s : State), (s.regionAt region).placeq.head? = some g →
    gang? s g = some x → x.cores = [] → (diesOf x.anydie x.die).contains die = true → gangPlace s x = none →
    let prio := effPrio s region
    let out (cores : List Nat) : List Nat := (cores.filter (displaceable s prio)).filterMap (fun k => (s.coreAt k).slot)
    (freeShapes (fun k => coreFree s k || (corePresent s k && displaceable s prio k)) (diesOf x.anydie x.die) x.n).find?
      (fun cores => decide (out cores ≠ []) &&
        let after := clearCores (((out cores).map (preemptSet s)).flatten.dedup.foldl leaveCore s) cores
        roomAll after x.region (gangNeeds after x)) = some cores →
    exec (.preemptRequest die region) s = .next ((out cores).foldl requestPreempt s)) ∧
  (∀ (slot : Nat) (c : Ctx) (s : State), s.ctx? slot = some c → c.halt = some .preempt → c.h.run ≠ 0 →
    c.core.isSome = true → haltWaits s slot = false →
    let t := (haltStep s slot).modCtx slot (fun c =>
      { c with halt := some .away, parked := none, hit := false, car := { c.car with buffer := [] } })
    exec (.preemptHalt slot) s = .next (leaveAway t slot) ∧
    ((∀ y : Gang, gang? (haltStep s slot) c.gang = some y → y.cosched = false) →
      exec (.preemptHalt slot) s = .next (leavePreempted t [slot] c.h.region false))) ∧
  (∀ (slot : Nat) (c : Ctx) (s : State), s.ctx? slot = some c → c.halt = some .away → c.h.run ≠ 0 →
    c.core.isSome = true → exec (.preemptHalt slot) s = .next (leaveAway s slot)) ∧
  (∀ (k g : Nat) (x : Gang) (s : State), (s.coreAt k).accepted = some g → coreFree s k = true →
    (gang? s g = some x → mustScrub s k x.region = true →
      exec (.scrub k) s = .next (scrubCore (clearCores s [k]) k)) ∧
    ((s.coreAt k).aims ≠ [] → exec (.idleSearch k) s = .next s)) ∧
  (∀ (k g : Nat) (rest : List Nat) (s : State), (s.coreAt k).aims = g :: rest → (s.coreAt k).accepted = none →
    coreFree s k = true →
    let t := s.modCore k (fun c => { c with accepted := some g, idle := false })
    exec (.idleSearch k) s = .next t ∧
    ((s.coreAt k).idle = true → (s.coreAt k).searched + 4096 ≤ (s.clusterAt (clusterOf k)).clock →
      exec (.idleSearchTimeout k) s = .next t)) ∧
  (∀ (k : Nat) (s : State), (s.coreAt k).aims = [] → (s.coreAt k).accepted = none → coreFree s k = true →
    ((s.coreAt k).idle = false → exec (.idleSearch k) s = .next (searchCore s k)) ∧
    ((s.coreAt k).idle = true → (s.coreAt k).searched + 4096 ≤ (s.clusterAt (clusterOf k)).clock →
      exec (.idleSearchTimeout k) s = .next (searchCore s k))) ∧
  (∀ (cl : Nat) (r : LaneReq) (rest : List LaneReq) (s : State), (s.clusterAt cl).lanes = r :: rest →
    (r.regrant = true → clusterOf r.core = cl → r.want ≤ 64 - lanesHeld s cl →
      budgetRoom s (s.ctxAt r.slot).h.region 1 r.want = true →
      exec (.laneGrant cl) s = .next (((budgetTake s (s.ctxAt r.slot).h.region 1 r.want).modCtx r.slot (fun c =>
        { vecIn s c with regrant := false, vr := setLanes (vecIn s c).vr r.want })).modCluster cl (fun y => { y with lanes := y.lanes.drop 1 }))) ∧
    (∀ x : SetvlArgs, r.regrant = false → entryInstr (vqHead ({ s with core := r.core }).cur) = some (.setvl x) →
      exec (.laneGrant cl) s = .next (restAfter (commitEntry (setvlEff x) { s with core := r.core, party := .vector }) r.slot)))

/-! ### The part's own steps -/

/-- Migration of a page (R135, R404): the stall, which names the page whose accesses wait; the drain; the copy, after which the
new frame holds the page's bytes, the part's own fields of a record's RSTATE as loads show them (R314); the switch, which names the
new frame, drops every translation of the page or of the old frame and translates the waiting accesses again; the release. The
details are the model's reading (notes/assumptions/57.md); a write set not yet committed is 84.md. -/
def Obligations.MigrationSteps : Prop :=
  (∀ (x : MigArgs) (s : State), migOk s x = true →
    exec (.migrateStall x) s = .next { s with migs := s.migs ++ [Migration.mk x.old x.new x.size x.leaf x.va x.code 1] }) ∧
  (∀ (m : Migration) (s : State), migAt s m.old 1 = some m →
    exec (.migrateDrain m.old) s = .next (setPhase (dropLines (flushRange s m.old m.size) m.old m.size) m 2)) ∧
  (∀ (m : Migration) (s : State), migAt s m.old 2 = some m → Memory.wf s.mem = true →
    m.old + m.size ≤ m.new ∨ m.new + m.size ≤ m.old → m.new % 64 = 0 → m.size % 64 = 0 → s.ties = [] → s.side = [] →
    (∀ d : Nat, (s.snapAt d).cut = false) →
    ∃ t, exec (.migrateCopy m.old) s = .next t ∧
      (heldWords s m.new m.size = [] → ∀ i : Nat, i < m.size →
        memGet t.mem (m.new + i) = memGet (bulkRead s m.old m.size) i ∧
        ((∀ r ∈ s.recs, rangeMeets (r.1, 8) (m.old, m.size) = false) → memGet t.mem (m.new + i) = memGet s.mem (m.old + i))) ∧
      (∀ a : Nat, a < m.new ∨ m.new + m.size ≤ a → memGet t.mem a = memGet s.mem a) ∧
      t.migs = s.migs.map (fun y => if y = m then { y with phase := 3 } else y)) ∧
  (∀ (m : Migration) (s : State), migAt s m.old 3 = some m →
    ∃ t, exec (.migrateSwitch m.old) s = .next t ∧ t.mem = (renameLeaf s m).mem ∧
      t.cores = (renameLeaf s m).cores.map (fun p => (p.1, movedQueues (renameLeaf s m) m p.2)) ∧
      (∀ p ∈ t.tlbs, ∀ y ∈ p.2, rangeMeets (y.frame, y.size) (m.old, m.size) = false ∧
        rangeMeets (y.va, y.size) (m.va, m.size) = false)) ∧
  (∀ (m : Migration) (s : State), migAt s m.old 4 = some m →
    exec (.migrateRelease m.old) s = .next { s with migs := s.migs.filter (fun y => y != m) })

/-- Requests, replies, periods and background work (R407, R409, R432, R436, R437, R439): a page request's record joins its
ring where the ring has room; late records join the event queue; at the end of a period POINT moves one class, PERIODS
steps and the budgets are repaid; a unit of background work runs where its budget lets it; a snapshot's page is copied.
What was measured and what work there was are given with the rows (notes/assumptions/13.md, 61.md). -/
def Obligations.PeriodicSteps : Prop :=
  (∀ (part : Nat) (r : Request) (s : State),
    let rt := s.rootAt part
    let lg := field rt.prqctl 0 5
    (rt.prqtail - rt.prqhead).toNat < 2 ^ lg →
    s.requests.find? (fun (r : Request) => decide (r.part = part) && !r.posted) = some r →
    let a := rt.prqbase.toNat + 64 * (rt.prqtail.toNat % 2 ^ lg)
    ∃ t, exec (.pageRequestPost part) s = .next t ∧
      t.mem = (pkgStoreAll s a (r.record.map (wordBytes 8)).flatten).mem ∧
      (t.rootAt part).prqtail = rt.prqtail + 1 ∧ (t.rootAt part).prqhead = rt.prqhead) ∧
  (∀ (slot : Nat) (c : Ctx) (s : State), s.ctx? slot = some c →
    exec (.replyRecordJoin slot) s = .next (s.setCtx slot { c with q := { c.q with
      events := c.q.events ++ c.q.late.take (64 - c.q.events.length), late := c.q.late.drop (64 - c.q.events.length) } })) ∧
  (∀ (w : BitVec 13) (s : State), ∃ t, exec (.periodEnd w) s = .next t ∧ t.arb = { s.arb with
      pmeas := w, periods := s.arb.periods + 1, limitNow := s.arb.plimit
      point := if s.arb.limitNow.toNat < w.toNat then min 4 (s.arb.point + 1)
        else if targetClass s < s.arb.point then s.arb.point - 1
        else if s.arb.point < targetClass s then s.arb.point + 1 else s.arb.point } ∧
    (∀ a : Fin 6, (t.budgets[a]).limit = (s.budgets[a]).limit ∧
      (t.budgets[a]).used.toNat = min (s.budgets[a]).debt.toNat (s.budgets[a]).limit.toNat ∧
      (t.budgets[a]).debt.toNat = (s.budgets[a]).debt.toNat - (s.budgets[a]).limit.toNat) ∧ t.mem = s.mem) ∧
  (∀ (a : Fin 6) (n : Nat) (s : State), (s.budgets[a]).used.toNat ≤ (s.budgets[a]).limit.toNat → (s.budgets[a]).debt = 0 →
    n < 2 ^ 63 →
    let t := chargeWork s a n
    t = { s with budgets := t.budgets } ∧
      (t.budgets[a]).used.toNat = min ((s.budgets[a]).used.toNat + n) (s.budgets[a]).limit.toNat ∧
      (t.budgets[a]).debt.toNat = (s.budgets[a]).used.toNat + n - (t.budgets[a]).used.toNat ∧
      (∀ b : Fin 6, b ≠ a → t.budgets[b] = s.budgets[b])) ∧
  (∀ (unit : Nat) (s : State),
    exec (.backgroundUnit 0 unit) s = .next (snapBackground s unit) ∧
    exec (.backgroundUnit 1 unit) s = .next (powerUpUnit (zeroUnit s unit) (.core unit)) ∧
    exec (.backgroundUnit 5 unit) s = .next (patrolLine s unit false) ∧
    (∀ (x : EngArgs) (c : Cmd) (a : Fin 6), readyCmd s unit = some (x, c) → cmdActivity unit c = some a → a = 2 ∨ a = 4 →
      exec (.backgroundUnit a.val unit) s = .next (performCmd s x c))) ∧
  (∀ (d : Nat) (s : State), (s.snapAt d).cut = true → (s.snapAt d).complete = false →
    (∀ i : Nat, snapLeft (s.snapAt d) i = true → snapBit s (s.snapAt d) i = true →
      exec (.snapForcedCopy d i) s = .next (snapCopy s d i)) ∧
    (∀ i : Nat, workReady s 0 = true → snapNext s d = some i →
      exec (.snapBackgroundCopy d) s = .next (snapCopy s d i)) ∧
    (workReady s 0 = true → snapNext s d = none → exec (.snapBackgroundCopy d) s = .next (snapEmpty s d)))

/-- Errors (R442 to R445): an uncorrectable line with pending bytes leaves its cache, no level two keeps a copy of it, its home is
poisoned, after the page of a snapshot that needs it has been copied, and the line's owner's region gets a report, and one without
is only dropped; the patrol poisons an uncorrectable line of memory; a table error loses nothing; a calliope's first failure halts
its front end and its second takes it offline. What a patrol finds is given with the row, and the level of its report is a free
value (notes/assumptions/58.md); what the patrol charges is 61.md, and that a table error changes no state is 56.md. -/
def Obligations.ErrorSteps : Prop :=
  (∀ (k l : Nat) (x : L1Line) (s : State), lookupKey l (s.coreAt k).l1 = some x →
    let t := s.modCore k (fun c => { c with l1 := eraseKey l c.l1 })
    let u := (siblings t k).foldl (fun t j => carry1 t j l) t
    let v := rawSettle (snapBefore u l) l
    exec (.uncorrectableEviction 1 k l) s = .next (if x.dirty = 0 then t
      else postReport { v with poison := insertNat l v.poison } { region := x.owner, line := l, level := 1 })) ∧
  (∀ (d l : Nat) (x : L2Line) (s : State), s.l2Line d l = some x →
    let t := s.l2Del d l
    let v := rawSettle (snapBefore t l) l
    exec (.uncorrectableEviction 2 d l) s = .next (if x.dirty = 0 then t
      else postReport { v with poison := insertNat l v.poison } { region := x.owner, line := l, level := 2 })) ∧
  (∀ (l : Nat) (s : State), workReady s 5 = true → inHbm s (64 * l) = true ∨ inSecond (64 * l) = true →
    exec (.eccPatrol l false) s = .next (chargeWork s 5 64) ∧
    (∀ q : Nat, faultQueue (chargeWork s 5 64) treeFuel 0 = some q → queueFull (s.queueAt q) = true →
      s.reports.length < 4096 →
      ∃ t, exec (.eccPatrol l true) s = .next t ∧ t.poison = insertNat l s.poison ∧
        t.reports = s.reports ++ [{ region := 0, line := l, level := field (Config.freeWord s.fresh) 0 2 }] ∧
        t.mem = s.mem ∧ t.fresh = s.fresh + 1)) ∧
  (∀ (f : Nat) (s : State), exec (.frontEndTableError f) s = .next s) ∧
  (∀ (f : Nat) (s : State), f < 8 → (s.feAt f).state ≠ 2 →
    ∃ t, exec (.calliopeFailure f) s = .next t ∧
      (t.feAt f).state = (if (s.feAt f).fails = 0 then 1 else 2) ∧ (t.feAt f).fails = (s.feAt f).fails + 1 ∧
      (t.feAt f).run = none ∧ t.notes = s.notes ++ [.frontEndFailed f (festat (t.feAt f))] ∧ t.mem = s.mem ∧
      (∀ p ∈ (s.feAt f).qmap, (t.queueAt p.2).failed = true))

/-- Start-up, links and power (R275, R427, R446): a power-up leaves every present unit to its write pass, each charged to scrubbing
within its budget (R438, R439), and after the last one the part runs a good image of the flash, or waits in recovery; a present
port's link goes up or down; a quiet unit loses its power and keeps nothing, and is zeroed when it regains it. Whether the flash
reads is given with the row (notes/assumptions/39.md); gating is 59.md, and what a unit's write pass covers is 71.md. -/
def Obligations.PowerSteps : Prop :=
  (∀ (why : BitVec 8) (s : State), ∃ t, exec (.powerUp why) s = .next t ∧ t.ctxs = State.reset.ctxs ∧ t.cores = [] ∧
    t.queues = [] ∧ t.sessions = [] ∧ t.fuses = s.fuses ∧
    t.arb.flash = s.arb.flash ∧ t.arb.plimit = 4600 ∧ t.arb.boot = 0 ∧
    t.arb.unzeroed = (List.range 144).filter (corePresent s) ∧ t.arb.flashBad = (why == 2) ∧
    (∀ a : Nat, inHost s a = false → memGet t.mem a = 0)) ∧
  (∀ (k : Nat) (s : State), k ∈ s.arb.unzeroed → workReady s 1 = true → Unit_.core k ∉ s.gated →
    ∃ t, exec (.unitPowerUp (.core k)) s = .next t ∧ t.budgets = (chargeWork s 1 scrubBytes).budgets ∧
      t.arb.unzeroed = s.arb.unzeroed.filter (fun j => j != k) ∧ t.mem = s.mem ∧ t.cores = s.cores ∧
      t.arb.boot = (if ∃ j ∈ s.arb.unzeroed, j ≠ k then s.arb.boot
        else if s.arb.flashBad = false ∧ imageWhole s.arb.flash = true ∧ imageVerified s.arb.flash = true then 1 else 2)) ∧
  (∀ (port : Nat) (up : Bool) (s : State), port < 16 → s.fuses.ports.getLsbD port = true →
    ∃ t, exec (.peerLinkChange port up) s = .next t ∧ t = { s with links16 := t.links16 } ∧
      (∀ i : Nat, i < 16 → t.links16.getLsbD i = if i = port then up else s.links16.getLsbD i)) ∧
  (∀ (u : Unit_) (s : State), u ∉ s.gated → (unitCores u).all (coreQuiet s) = true →
    ∃ t, exec (.unitPowerGate u) s = .next t ∧ t.gated = s.gated ++ [u] ∧
      (∀ k ∈ unitCores u, (t.coreAt k).icache = [] ∧ (t.coreAt k).traces = none)) ∧
  (∀ (u : Unit_) (s : State), u ∈ s.gated → workReady s 1 = true → (∀ k ∈ unitCores u, k ∉ s.arb.unzeroed) →
    ∃ t, exec (.unitPowerUp u) s = .next t ∧ t.gated = s.gated.filter (fun y => y != u) ∧
      (∀ k ∈ unitCores u, (t.coreAt k).icache = [] ∧ (t.coreAt k).traces = none))
end

