-- ==== Sys2Proof/Laws/State.lean ====
section
/-! SUPPORT. The fields of the state, and of a context, after each update: what an update leaves as it was. -/

set_option Elab.async false

namespace Sys2Proof.Machine

/-! ### State.setCtx -/

@[simp] theorem State.setCtx_core (s : State) (n : Nat) (c : Ctx) : (s.setCtx n c).core = s.core := rfl
@[simp] theorem State.setCtx_party (s : State) (n : Nat) (c : Ctx) : (s.setCtx n c).party = s.party := rfl
@[simp] theorem State.setCtx_fe (s : State) (n : Nat) (c : Ctx) : (s.setCtx n c).fe = s.fe := rfl
@[simp] theorem State.setCtx_agenda (s : State) (n : Nat) (c : Ctx) : (s.setCtx n c).agenda = s.agenda := rfl
@[simp] theorem State.setCtx_hold (s : State) (n : Nat) (c : Ctx) : (s.setCtx n c).hold = s.hold := rfl
@[simp] theorem State.setCtx_fresh (s : State) (n : Nat) (c : Ctx) : (s.setCtx n c).fresh = s.fresh := rfl
@[simp] theorem State.setCtx_fuses (s : State) (n : Nat) (c : Ctx) : (s.setCtx n c).fuses = s.fuses := rfl
@[simp] theorem State.setCtx_mem (s : State) (n : Nat) (c : Ctx) : (s.setCtx n c).mem = s.mem := rfl
@[simp] theorem State.setCtx_tags (s : State) (n : Nat) (c : Ctx) : (s.setCtx n c).tags = s.tags := rfl
@[simp] theorem State.setCtx_poison (s : State) (n : Nat) (c : Ctx) : (s.setCtx n c).poison = s.poison := rfl
@[simp] theorem State.setCtx_attrs (s : State) (n : Nat) (c : Ctx) : (s.setCtx n c).attrs = s.attrs := rfl
@[simp] theorem State.setCtx_cores (s : State) (n : Nat) (c : Ctx) : (s.setCtx n c).cores = s.cores := rfl
@[simp] theorem State.setCtx_clusters (s : State) (n : Nat) (c : Ctx) : (s.setCtx n c).clusters = s.clusters := rfl
@[simp] theorem State.setCtx_l2 (s : State) (n : Nat) (c : Ctx) : (s.setCtx n c).l2 = s.l2 := rfl
@[simp] theorem State.setCtx_side (s : State) (n : Nat) (c : Ctx) : (s.setCtx n c).side = s.side := rfl
@[simp] theorem State.setCtx_ties (s : State) (n : Nat) (c : Ctx) : (s.setCtx n c).ties = s.ties := rfl
@[simp] theorem State.setCtx_segs (s : State) (n : Nat) (c : Ctx) : (s.setCtx n c).segs = s.segs := rfl
@[simp] theorem State.setCtx_code (s : State) (n : Nat) (c : Ctx) : (s.setCtx n c).code = s.code := rfl
@[simp] theorem State.setCtx_wsets (s : State) (n : Nat) (c : Ctx) : (s.setCtx n c).wsets = s.wsets := rfl
@[simp] theorem State.setCtx_engines (s : State) (n : Nat) (c : Ctx) : (s.setCtx n c).engines = s.engines := rfl
@[simp] theorem State.setCtx_snaps (s : State) (n : Nat) (c : Ctx) : (s.setCtx n c).snaps = s.snaps := rfl
@[simp] theorem State.setCtx_regions (s : State) (n : Nat) (c : Ctx) : (s.setCtx n c).regions = s.regions := rfl
@[simp] theorem State.setCtx_recs (s : State) (n : Nat) (c : Ctx) : (s.setCtx n c).recs = s.recs := rfl
@[simp] theorem State.setCtx_gangs (s : State) (n : Nat) (c : Ctx) : (s.setCtx n c).gangs = s.gangs := rfl
@[simp] theorem State.setCtx_gangNext (s : State) (n : Nat) (c : Ctx) : (s.setCtx n c).gangNext = s.gangNext := rfl
@[simp] theorem State.setCtx_links (s : State) (n : Nat) (c : Ctx) : (s.setCtx n c).links = s.links := rfl
@[simp] theorem State.setCtx_troupes (s : State) (n : Nat) (c : Ctx) : (s.setCtx n c).troupes = s.troupes := rfl
@[simp] theorem State.setCtx_queues (s : State) (n : Nat) (c : Ctx) : (s.setCtx n c).queues = s.queues := rfl
@[simp] theorem State.setCtx_fes (s : State) (n : Nat) (c : Ctx) : (s.setCtx n c).fes = s.fes := rfl
@[simp] theorem State.setCtx_roots (s : State) (n : Nat) (c : Ctx) : (s.setCtx n c).roots = s.roots := rfl
@[simp] theorem State.setCtx_requests (s : State) (n : Nat) (c : Ctx) : (s.setCtx n c).requests = s.requests := rfl
@[simp] theorem State.setCtx_tlbs (s : State) (n : Nat) (c : Ctx) : (s.setCtx n c).tlbs = s.tlbs := rfl
@[simp] theorem State.setCtx_migs (s : State) (n : Nat) (c : Ctx) : (s.setCtx n c).migs = s.migs := rfl
@[simp] theorem State.setCtx_sessions (s : State) (n : Nat) (c : Ctx) : (s.setCtx n c).sessions = s.sessions := rfl
@[simp] theorem State.setCtx_keys (s : State) (n : Nat) (c : Ctx) : (s.setCtx n c).keys = s.keys := rfl
@[simp] theorem State.setCtx_arb (s : State) (n : Nat) (c : Ctx) : (s.setCtx n c).arb = s.arb := rfl
@[simp] theorem State.setCtx_budgets (s : State) (n : Nat) (c : Ctx) : (s.setCtx n c).budgets = s.budgets := rfl
@[simp] theorem State.setCtx_reports (s : State) (n : Nat) (c : Ctx) : (s.setCtx n c).reports = s.reports := rfl
@[simp] theorem State.setCtx_launchRecs (s : State) (n : Nat) (c : Ctx) : (s.setCtx n c).launchRecs = s.launchRecs := rfl
@[simp] theorem State.setCtx_links16 (s : State) (n : Nat) (c : Ctx) : (s.setCtx n c).links16 = s.links16 := rfl
@[simp] theorem State.setCtx_notes (s : State) (n : Nat) (c : Ctx) : (s.setCtx n c).notes = s.notes := rfl
@[simp] theorem State.setCtx_gated (s : State) (n : Nat) (c : Ctx) : (s.setCtx n c).gated = s.gated := rfl
@[simp] theorem State.setCtx_answer (s : State) (n : Nat) (c : Ctx) : (s.setCtx n c).answer = s.answer := rfl
@[simp] theorem State.setCtx_hostStore (s : State) (n : Nat) (c : Ctx) : (s.setCtx n c).hostStore = s.hostStore := rfl
@[simp] theorem State.setCtx_draws (s : State) (n : Nat) (c : Ctx) : (s.setCtx n c).draws = s.draws := rfl

/-! ### State.modCtx -/

@[simp] theorem State.modCtx_core (s : State) (n : Nat) (f : Ctx → Ctx) : (s.modCtx n f).core = s.core := rfl
@[simp] theorem State.modCtx_party (s : State) (n : Nat) (f : Ctx → Ctx) : (s.modCtx n f).party = s.party := rfl
@[simp] theorem State.modCtx_fe (s : State) (n : Nat) (f : Ctx → Ctx) : (s.modCtx n f).fe = s.fe := rfl
@[simp] theorem State.modCtx_agenda (s : State) (n : Nat) (f : Ctx → Ctx) : (s.modCtx n f).agenda = s.agenda := rfl
@[simp] theorem State.modCtx_hold (s : State) (n : Nat) (f : Ctx → Ctx) : (s.modCtx n f).hold = s.hold := rfl
@[simp] theorem State.modCtx_fresh (s : State) (n : Nat) (f : Ctx → Ctx) : (s.modCtx n f).fresh = s.fresh := rfl
@[simp] theorem State.modCtx_fuses (s : State) (n : Nat) (f : Ctx → Ctx) : (s.modCtx n f).fuses = s.fuses := rfl
@[simp] theorem State.modCtx_mem (s : State) (n : Nat) (f : Ctx → Ctx) : (s.modCtx n f).mem = s.mem := rfl
@[simp] theorem State.modCtx_tags (s : State) (n : Nat) (f : Ctx → Ctx) : (s.modCtx n f).tags = s.tags := rfl
@[simp] theorem State.modCtx_poison (s : State) (n : Nat) (f : Ctx → Ctx) : (s.modCtx n f).poison = s.poison := rfl
@[simp] theorem State.modCtx_attrs (s : State) (n : Nat) (f : Ctx → Ctx) : (s.modCtx n f).attrs = s.attrs := rfl
@[simp] theorem State.modCtx_cores (s : State) (n : Nat) (f : Ctx → Ctx) : (s.modCtx n f).cores = s.cores := rfl
@[simp] theorem State.modCtx_clusters (s : State) (n : Nat) (f : Ctx → Ctx) : (s.modCtx n f).clusters = s.clusters := rfl
@[simp] theorem State.modCtx_l2 (s : State) (n : Nat) (f : Ctx → Ctx) : (s.modCtx n f).l2 = s.l2 := rfl
@[simp] theorem State.modCtx_side (s : State) (n : Nat) (f : Ctx → Ctx) : (s.modCtx n f).side = s.side := rfl
@[simp] theorem State.modCtx_ties (s : State) (n : Nat) (f : Ctx → Ctx) : (s.modCtx n f).ties = s.ties := rfl
@[simp] theorem State.modCtx_segs (s : State) (n : Nat) (f : Ctx → Ctx) : (s.modCtx n f).segs = s.segs := rfl
@[simp] theorem State.modCtx_code (s : State) (n : Nat) (f : Ctx → Ctx) : (s.modCtx n f).code = s.code := rfl
@[simp] theorem State.modCtx_wsets (s : State) (n : Nat) (f : Ctx → Ctx) : (s.modCtx n f).wsets = s.wsets := rfl
@[simp] theorem State.modCtx_engines (s : State) (n : Nat) (f : Ctx → Ctx) : (s.modCtx n f).engines = s.engines := rfl
@[simp] theorem State.modCtx_snaps (s : State) (n : Nat) (f : Ctx → Ctx) : (s.modCtx n f).snaps = s.snaps := rfl
@[simp] theorem State.modCtx_regions (s : State) (n : Nat) (f : Ctx → Ctx) : (s.modCtx n f).regions = s.regions := rfl
@[simp] theorem State.modCtx_recs (s : State) (n : Nat) (f : Ctx → Ctx) : (s.modCtx n f).recs = s.recs := rfl
@[simp] theorem State.modCtx_gangs (s : State) (n : Nat) (f : Ctx → Ctx) : (s.modCtx n f).gangs = s.gangs := rfl
@[simp] theorem State.modCtx_gangNext (s : State) (n : Nat) (f : Ctx → Ctx) : (s.modCtx n f).gangNext = s.gangNext := rfl
@[simp] theorem State.modCtx_links (s : State) (n : Nat) (f : Ctx → Ctx) : (s.modCtx n f).links = s.links := rfl
@[simp] theorem State.modCtx_troupes (s : State) (n : Nat) (f : Ctx → Ctx) : (s.modCtx n f).troupes = s.troupes := rfl
@[simp] theorem State.modCtx_queues (s : State) (n : Nat) (f : Ctx → Ctx) : (s.modCtx n f).queues = s.queues := rfl
@[simp] theorem State.modCtx_fes (s : State) (n : Nat) (f : Ctx → Ctx) : (s.modCtx n f).fes = s.fes := rfl
@[simp] theorem State.modCtx_roots (s : State) (n : Nat) (f : Ctx → Ctx) : (s.modCtx n f).roots = s.roots := rfl
@[simp] theorem State.modCtx_requests (s : State) (n : Nat) (f : Ctx → Ctx) : (s.modCtx n f).requests = s.requests := rfl
@[simp] theorem State.modCtx_tlbs (s : State) (n : Nat) (f : Ctx → Ctx) : (s.modCtx n f).tlbs = s.tlbs := rfl
@[simp] theorem State.modCtx_migs (s : State) (n : Nat) (f : Ctx → Ctx) : (s.modCtx n f).migs = s.migs := rfl
@[simp] theorem State.modCtx_sessions (s : State) (n : Nat) (f : Ctx → Ctx) : (s.modCtx n f).sessions = s.sessions := rfl
@[simp] theorem State.modCtx_keys (s : State) (n : Nat) (f : Ctx → Ctx) : (s.modCtx n f).keys = s.keys := rfl
@[simp] theorem State.modCtx_arb (s : State) (n : Nat) (f : Ctx → Ctx) : (s.modCtx n f).arb = s.arb := rfl
@[simp] theorem State.modCtx_budgets (s : State) (n : Nat) (f : Ctx → Ctx) : (s.modCtx n f).budgets = s.budgets := rfl
@[simp] theorem State.modCtx_reports (s : State) (n : Nat) (f : Ctx → Ctx) : (s.modCtx n f).reports = s.reports := rfl
@[simp] theorem State.modCtx_launchRecs (s : State) (n : Nat) (f : Ctx → Ctx) : (s.modCtx n f).launchRecs = s.launchRecs := rfl
@[simp] theorem State.modCtx_links16 (s : State) (n : Nat) (f : Ctx → Ctx) : (s.modCtx n f).links16 = s.links16 := rfl
@[simp] theorem State.modCtx_notes (s : State) (n : Nat) (f : Ctx → Ctx) : (s.modCtx n f).notes = s.notes := rfl
@[simp] theorem State.modCtx_gated (s : State) (n : Nat) (f : Ctx → Ctx) : (s.modCtx n f).gated = s.gated := rfl
@[simp] theorem State.modCtx_answer (s : State) (n : Nat) (f : Ctx → Ctx) : (s.modCtx n f).answer = s.answer := rfl
@[simp] theorem State.modCtx_hostStore (s : State) (n : Nat) (f : Ctx → Ctx) : (s.modCtx n f).hostStore = s.hostStore := rfl
@[simp] theorem State.modCtx_draws (s : State) (n : Nat) (f : Ctx → Ctx) : (s.modCtx n f).draws = s.draws := rfl

/-! ### State.modCur -/

@[simp] theorem State.modCur_core (s : State) (f : Ctx → Ctx) : (s.modCur f).core = s.core := rfl
@[simp] theorem State.modCur_party (s : State) (f : Ctx → Ctx) : (s.modCur f).party = s.party := rfl
@[simp] theorem State.modCur_fe (s : State) (f : Ctx → Ctx) : (s.modCur f).fe = s.fe := rfl
@[simp] theorem State.modCur_agenda (s : State) (f : Ctx → Ctx) : (s.modCur f).agenda = s.agenda := rfl
@[simp] theorem State.modCur_hold (s : State) (f : Ctx → Ctx) : (s.modCur f).hold = s.hold := rfl
@[simp] theorem State.modCur_fresh (s : State) (f : Ctx → Ctx) : (s.modCur f).fresh = s.fresh := rfl
@[simp] theorem State.modCur_fuses (s : State) (f : Ctx → Ctx) : (s.modCur f).fuses = s.fuses := rfl
@[simp] theorem State.modCur_mem (s : State) (f : Ctx → Ctx) : (s.modCur f).mem = s.mem := rfl
@[simp] theorem State.modCur_tags (s : State) (f : Ctx → Ctx) : (s.modCur f).tags = s.tags := rfl
@[simp] theorem State.modCur_poison (s : State) (f : Ctx → Ctx) : (s.modCur f).poison = s.poison := rfl
@[simp] theorem State.modCur_attrs (s : State) (f : Ctx → Ctx) : (s.modCur f).attrs = s.attrs := rfl
@[simp] theorem State.modCur_cores (s : State) (f : Ctx → Ctx) : (s.modCur f).cores = s.cores := rfl
@[simp] theorem State.modCur_clusters (s : State) (f : Ctx → Ctx) : (s.modCur f).clusters = s.clusters := rfl
@[simp] theorem State.modCur_l2 (s : State) (f : Ctx → Ctx) : (s.modCur f).l2 = s.l2 := rfl
@[simp] theorem State.modCur_side (s : State) (f : Ctx → Ctx) : (s.modCur f).side = s.side := rfl
@[simp] theorem State.modCur_ties (s : State) (f : Ctx → Ctx) : (s.modCur f).ties = s.ties := rfl
@[simp] theorem State.modCur_segs (s : State) (f : Ctx → Ctx) : (s.modCur f).segs = s.segs := rfl
@[simp] theorem State.modCur_code (s : State) (f : Ctx → Ctx) : (s.modCur f).code = s.code := rfl
@[simp] theorem State.modCur_wsets (s : State) (f : Ctx → Ctx) : (s.modCur f).wsets = s.wsets := rfl
@[simp] theorem State.modCur_engines (s : State) (f : Ctx → Ctx) : (s.modCur f).engines = s.engines := rfl
@[simp] theorem State.modCur_snaps (s : State) (f : Ctx → Ctx) : (s.modCur f).snaps = s.snaps := rfl
@[simp] theorem State.modCur_regions (s : State) (f : Ctx → Ctx) : (s.modCur f).regions = s.regions := rfl
@[simp] theorem State.modCur_recs (s : State) (f : Ctx → Ctx) : (s.modCur f).recs = s.recs := rfl
@[simp] theorem State.modCur_gangs (s : State) (f : Ctx → Ctx) : (s.modCur f).gangs = s.gangs := rfl
@[simp] theorem State.modCur_gangNext (s : State) (f : Ctx → Ctx) : (s.modCur f).gangNext = s.gangNext := rfl
@[simp] theorem State.modCur_links (s : State) (f : Ctx → Ctx) : (s.modCur f).links = s.links := rfl
@[simp] theorem State.modCur_troupes (s : State) (f : Ctx → Ctx) : (s.modCur f).troupes = s.troupes := rfl
@[simp] theorem State.modCur_queues (s : State) (f : Ctx → Ctx) : (s.modCur f).queues = s.queues := rfl
@[simp] theorem State.modCur_fes (s : State) (f : Ctx → Ctx) : (s.modCur f).fes = s.fes := rfl
@[simp] theorem State.modCur_roots (s : State) (f : Ctx → Ctx) : (s.modCur f).roots = s.roots := rfl
@[simp] theorem State.modCur_requests (s : State) (f : Ctx → Ctx) : (s.modCur f).requests = s.requests := rfl
@[simp] theorem State.modCur_tlbs (s : State) (f : Ctx → Ctx) : (s.modCur f).tlbs = s.tlbs := rfl
@[simp] theorem State.modCur_migs (s : State) (f : Ctx → Ctx) : (s.modCur f).migs = s.migs := rfl
@[simp] theorem State.modCur_sessions (s : State) (f : Ctx → Ctx) : (s.modCur f).sessions = s.sessions := rfl
@[simp] theorem State.modCur_keys (s : State) (f : Ctx → Ctx) : (s.modCur f).keys = s.keys := rfl
@[simp] theorem State.modCur_arb (s : State) (f : Ctx → Ctx) : (s.modCur f).arb = s.arb := rfl
@[simp] theorem State.modCur_budgets (s : State) (f : Ctx → Ctx) : (s.modCur f).budgets = s.budgets := rfl
@[simp] theorem State.modCur_reports (s : State) (f : Ctx → Ctx) : (s.modCur f).reports = s.reports := rfl
@[simp] theorem State.modCur_launchRecs (s : State) (f : Ctx → Ctx) : (s.modCur f).launchRecs = s.launchRecs := rfl
@[simp] theorem State.modCur_links16 (s : State) (f : Ctx → Ctx) : (s.modCur f).links16 = s.links16 := rfl
@[simp] theorem State.modCur_notes (s : State) (f : Ctx → Ctx) : (s.modCur f).notes = s.notes := rfl
@[simp] theorem State.modCur_gated (s : State) (f : Ctx → Ctx) : (s.modCur f).gated = s.gated := rfl
@[simp] theorem State.modCur_answer (s : State) (f : Ctx → Ctx) : (s.modCur f).answer = s.answer := rfl
@[simp] theorem State.modCur_hostStore (s : State) (f : Ctx → Ctx) : (s.modCur f).hostStore = s.hostStore := rfl
@[simp] theorem State.modCur_draws (s : State) (f : Ctx → Ctx) : (s.modCur f).draws = s.draws := rfl

/-! ### State.mapCtxs -/

@[simp] theorem State.mapCtxs_core (s : State) (f : Nat → Ctx → Ctx) : (s.mapCtxs f).core = s.core := rfl
@[simp] theorem State.mapCtxs_party (s : State) (f : Nat → Ctx → Ctx) : (s.mapCtxs f).party = s.party := rfl
@[simp] theorem State.mapCtxs_fe (s : State) (f : Nat → Ctx → Ctx) : (s.mapCtxs f).fe = s.fe := rfl
@[simp] theorem State.mapCtxs_agenda (s : State) (f : Nat → Ctx → Ctx) : (s.mapCtxs f).agenda = s.agenda := rfl
@[simp] theorem State.mapCtxs_hold (s : State) (f : Nat → Ctx → Ctx) : (s.mapCtxs f).hold = s.hold := rfl
@[simp] theorem State.mapCtxs_fresh (s : State) (f : Nat → Ctx → Ctx) : (s.mapCtxs f).fresh = s.fresh := rfl
@[simp] theorem State.mapCtxs_fuses (s : State) (f : Nat → Ctx → Ctx) : (s.mapCtxs f).fuses = s.fuses := rfl
@[simp] theorem State.mapCtxs_mem (s : State) (f : Nat → Ctx → Ctx) : (s.mapCtxs f).mem = s.mem := rfl
@[simp] theorem State.mapCtxs_tags (s : State) (f : Nat → Ctx → Ctx) : (s.mapCtxs f).tags = s.tags := rfl
@[simp] theorem State.mapCtxs_poison (s : State) (f : Nat → Ctx → Ctx) : (s.mapCtxs f).poison = s.poison := rfl
@[simp] theorem State.mapCtxs_attrs (s : State) (f : Nat → Ctx → Ctx) : (s.mapCtxs f).attrs = s.attrs := rfl
@[simp] theorem State.mapCtxs_cores (s : State) (f : Nat → Ctx → Ctx) : (s.mapCtxs f).cores = s.cores := rfl
@[simp] theorem State.mapCtxs_clusters (s : State) (f : Nat → Ctx → Ctx) : (s.mapCtxs f).clusters = s.clusters := rfl
@[simp] theorem State.mapCtxs_l2 (s : State) (f : Nat → Ctx → Ctx) : (s.mapCtxs f).l2 = s.l2 := rfl
@[simp] theorem State.mapCtxs_side (s : State) (f : Nat → Ctx → Ctx) : (s.mapCtxs f).side = s.side := rfl
@[simp] theorem State.mapCtxs_ties (s : State) (f : Nat → Ctx → Ctx) : (s.mapCtxs f).ties = s.ties := rfl
@[simp] theorem State.mapCtxs_segs (s : State) (f : Nat → Ctx → Ctx) : (s.mapCtxs f).segs = s.segs := rfl
@[simp] theorem State.mapCtxs_code (s : State) (f : Nat → Ctx → Ctx) : (s.mapCtxs f).code = s.code := rfl
@[simp] theorem State.mapCtxs_wsets (s : State) (f : Nat → Ctx → Ctx) : (s.mapCtxs f).wsets = s.wsets := rfl
@[simp] theorem State.mapCtxs_engines (s : State) (f : Nat → Ctx → Ctx) : (s.mapCtxs f).engines = s.engines := rfl
@[simp] theorem State.mapCtxs_snaps (s : State) (f : Nat → Ctx → Ctx) : (s.mapCtxs f).snaps = s.snaps := rfl
@[simp] theorem State.mapCtxs_regions (s : State) (f : Nat → Ctx → Ctx) : (s.mapCtxs f).regions = s.regions := rfl
@[simp] theorem State.mapCtxs_recs (s : State) (f : Nat → Ctx → Ctx) : (s.mapCtxs f).recs = s.recs := rfl
@[simp] theorem State.mapCtxs_gangs (s : State) (f : Nat → Ctx → Ctx) : (s.mapCtxs f).gangs = s.gangs := rfl
@[simp] theorem State.mapCtxs_gangNext (s : State) (f : Nat → Ctx → Ctx) : (s.mapCtxs f).gangNext = s.gangNext := rfl
@[simp] theorem State.mapCtxs_links (s : State) (f : Nat → Ctx → Ctx) : (s.mapCtxs f).links = s.links := rfl
@[simp] theorem State.mapCtxs_troupes (s : State) (f : Nat → Ctx → Ctx) : (s.mapCtxs f).troupes = s.troupes := rfl
@[simp] theorem State.mapCtxs_queues (s : State) (f : Nat → Ctx → Ctx) : (s.mapCtxs f).queues = s.queues := rfl
@[simp] theorem State.mapCtxs_fes (s : State) (f : Nat → Ctx → Ctx) : (s.mapCtxs f).fes = s.fes := rfl
@[simp] theorem State.mapCtxs_roots (s : State) (f : Nat → Ctx → Ctx) : (s.mapCtxs f).roots = s.roots := rfl
@[simp] theorem State.mapCtxs_requests (s : State) (f : Nat → Ctx → Ctx) : (s.mapCtxs f).requests = s.requests := rfl
@[simp] theorem State.mapCtxs_tlbs (s : State) (f : Nat → Ctx → Ctx) : (s.mapCtxs f).tlbs = s.tlbs := rfl
@[simp] theorem State.mapCtxs_migs (s : State) (f : Nat → Ctx → Ctx) : (s.mapCtxs f).migs = s.migs := rfl
@[simp] theorem State.mapCtxs_sessions (s : State) (f : Nat → Ctx → Ctx) : (s.mapCtxs f).sessions = s.sessions := rfl
@[simp] theorem State.mapCtxs_keys (s : State) (f : Nat → Ctx → Ctx) : (s.mapCtxs f).keys = s.keys := rfl
@[simp] theorem State.mapCtxs_arb (s : State) (f : Nat → Ctx → Ctx) : (s.mapCtxs f).arb = s.arb := rfl
@[simp] theorem State.mapCtxs_budgets (s : State) (f : Nat → Ctx → Ctx) : (s.mapCtxs f).budgets = s.budgets := rfl
@[simp] theorem State.mapCtxs_reports (s : State) (f : Nat → Ctx → Ctx) : (s.mapCtxs f).reports = s.reports := rfl
@[simp] theorem State.mapCtxs_launchRecs (s : State) (f : Nat → Ctx → Ctx) : (s.mapCtxs f).launchRecs = s.launchRecs := rfl
@[simp] theorem State.mapCtxs_links16 (s : State) (f : Nat → Ctx → Ctx) : (s.mapCtxs f).links16 = s.links16 := rfl
@[simp] theorem State.mapCtxs_notes (s : State) (f : Nat → Ctx → Ctx) : (s.mapCtxs f).notes = s.notes := rfl
@[simp] theorem State.mapCtxs_gated (s : State) (f : Nat → Ctx → Ctx) : (s.mapCtxs f).gated = s.gated := rfl
@[simp] theorem State.mapCtxs_answer (s : State) (f : Nat → Ctx → Ctx) : (s.mapCtxs f).answer = s.answer := rfl
@[simp] theorem State.mapCtxs_hostStore (s : State) (f : Nat → Ctx → Ctx) : (s.mapCtxs f).hostStore = s.hostStore := rfl
@[simp] theorem State.mapCtxs_draws (s : State) (f : Nat → Ctx → Ctx) : (s.mapCtxs f).draws = s.draws := rfl

/-! ### State.modCore -/

@[simp] theorem State.modCore_core (s : State) (n : Nat) (f : Core → Core) : (s.modCore n f).core = s.core := rfl
@[simp] theorem State.modCore_party (s : State) (n : Nat) (f : Core → Core) : (s.modCore n f).party = s.party := rfl
@[simp] theorem State.modCore_fe (s : State) (n : Nat) (f : Core → Core) : (s.modCore n f).fe = s.fe := rfl
@[simp] theorem State.modCore_agenda (s : State) (n : Nat) (f : Core → Core) : (s.modCore n f).agenda = s.agenda := rfl
@[simp] theorem State.modCore_hold (s : State) (n : Nat) (f : Core → Core) : (s.modCore n f).hold = s.hold := rfl
@[simp] theorem State.modCore_fresh (s : State) (n : Nat) (f : Core → Core) : (s.modCore n f).fresh = s.fresh := rfl
@[simp] theorem State.modCore_fuses (s : State) (n : Nat) (f : Core → Core) : (s.modCore n f).fuses = s.fuses := rfl
@[simp] theorem State.modCore_mem (s : State) (n : Nat) (f : Core → Core) : (s.modCore n f).mem = s.mem := rfl
@[simp] theorem State.modCore_tags (s : State) (n : Nat) (f : Core → Core) : (s.modCore n f).tags = s.tags := rfl
@[simp] theorem State.modCore_poison (s : State) (n : Nat) (f : Core → Core) : (s.modCore n f).poison = s.poison := rfl
@[simp] theorem State.modCore_attrs (s : State) (n : Nat) (f : Core → Core) : (s.modCore n f).attrs = s.attrs := rfl
@[simp] theorem State.modCore_ctxs (s : State) (n : Nat) (f : Core → Core) : (s.modCore n f).ctxs = s.ctxs := rfl
@[simp] theorem State.modCore_clusters (s : State) (n : Nat) (f : Core → Core) : (s.modCore n f).clusters = s.clusters := rfl
@[simp] theorem State.modCore_l2 (s : State) (n : Nat) (f : Core → Core) : (s.modCore n f).l2 = s.l2 := rfl
@[simp] theorem State.modCore_side (s : State) (n : Nat) (f : Core → Core) : (s.modCore n f).side = s.side := rfl
@[simp] theorem State.modCore_ties (s : State) (n : Nat) (f : Core → Core) : (s.modCore n f).ties = s.ties := rfl
@[simp] theorem State.modCore_segs (s : State) (n : Nat) (f : Core → Core) : (s.modCore n f).segs = s.segs := rfl
@[simp] theorem State.modCore_code (s : State) (n : Nat) (f : Core → Core) : (s.modCore n f).code = s.code := rfl
@[simp] theorem State.modCore_wsets (s : State) (n : Nat) (f : Core → Core) : (s.modCore n f).wsets = s.wsets := rfl
@[simp] theorem State.modCore_engines (s : State) (n : Nat) (f : Core → Core) : (s.modCore n f).engines = s.engines := rfl
@[simp] theorem State.modCore_snaps (s : State) (n : Nat) (f : Core → Core) : (s.modCore n f).snaps = s.snaps := rfl
@[simp] theorem State.modCore_regions (s : State) (n : Nat) (f : Core → Core) : (s.modCore n f).regions = s.regions := rfl
@[simp] theorem State.modCore_recs (s : State) (n : Nat) (f : Core → Core) : (s.modCore n f).recs = s.recs := rfl
@[simp] theorem State.modCore_gangs (s : State) (n : Nat) (f : Core → Core) : (s.modCore n f).gangs = s.gangs := rfl
@[simp] theorem State.modCore_gangNext (s : State) (n : Nat) (f : Core → Core) : (s.modCore n f).gangNext = s.gangNext := rfl
@[simp] theorem State.modCore_links (s : State) (n : Nat) (f : Core → Core) : (s.modCore n f).links = s.links := rfl
@[simp] theorem State.modCore_troupes (s : State) (n : Nat) (f : Core → Core) : (s.modCore n f).troupes = s.troupes := rfl
@[simp] theorem State.modCore_queues (s : State) (n : Nat) (f : Core → Core) : (s.modCore n f).queues = s.queues := rfl
@[simp] theorem State.modCore_fes (s : State) (n : Nat) (f : Core → Core) : (s.modCore n f).fes = s.fes := rfl
@[simp] theorem State.modCore_roots (s : State) (n : Nat) (f : Core → Core) : (s.modCore n f).roots = s.roots := rfl
@[simp] theorem State.modCore_requests (s : State) (n : Nat) (f : Core → Core) : (s.modCore n f).requests = s.requests := rfl
@[simp] theorem State.modCore_tlbs (s : State) (n : Nat) (f : Core → Core) : (s.modCore n f).tlbs = s.tlbs := rfl
@[simp] theorem State.modCore_migs (s : State) (n : Nat) (f : Core → Core) : (s.modCore n f).migs = s.migs := rfl
@[simp] theorem State.modCore_sessions (s : State) (n : Nat) (f : Core → Core) : (s.modCore n f).sessions = s.sessions := rfl
@[simp] theorem State.modCore_keys (s : State) (n : Nat) (f : Core → Core) : (s.modCore n f).keys = s.keys := rfl
@[simp] theorem State.modCore_arb (s : State) (n : Nat) (f : Core → Core) : (s.modCore n f).arb = s.arb := rfl
@[simp] theorem State.modCore_budgets (s : State) (n : Nat) (f : Core → Core) : (s.modCore n f).budgets = s.budgets := rfl
@[simp] theorem State.modCore_reports (s : State) (n : Nat) (f : Core → Core) : (s.modCore n f).reports = s.reports := rfl
@[simp] theorem State.modCore_launchRecs (s : State) (n : Nat) (f : Core → Core) : (s.modCore n f).launchRecs = s.launchRecs := rfl
@[simp] theorem State.modCore_links16 (s : State) (n : Nat) (f : Core → Core) : (s.modCore n f).links16 = s.links16 := rfl
@[simp] theorem State.modCore_notes (s : State) (n : Nat) (f : Core → Core) : (s.modCore n f).notes = s.notes := rfl
@[simp] theorem State.modCore_gated (s : State) (n : Nat) (f : Core → Core) : (s.modCore n f).gated = s.gated := rfl
@[simp] theorem State.modCore_answer (s : State) (n : Nat) (f : Core → Core) : (s.modCore n f).answer = s.answer := rfl
@[simp] theorem State.modCore_hostStore (s : State) (n : Nat) (f : Core → Core) : (s.modCore n f).hostStore = s.hostStore := rfl
@[simp] theorem State.modCore_draws (s : State) (n : Nat) (f : Core → Core) : (s.modCore n f).draws = s.draws := rfl

/-! ### State.modCluster -/

@[simp] theorem State.modCluster_core (s : State) (n : Nat) (f : Cluster → Cluster) : (s.modCluster n f).core = s.core := rfl
@[simp] theorem State.modCluster_party (s : State) (n : Nat) (f : Cluster → Cluster) : (s.modCluster n f).party = s.party := rfl
@[simp] theorem State.modCluster_fe (s : State) (n : Nat) (f : Cluster → Cluster) : (s.modCluster n f).fe = s.fe := rfl
@[simp] theorem State.modCluster_agenda (s : State) (n : Nat) (f : Cluster → Cluster) : (s.modCluster n f).agenda = s.agenda := rfl
@[simp] theorem State.modCluster_hold (s : State) (n : Nat) (f : Cluster → Cluster) : (s.modCluster n f).hold = s.hold := rfl
@[simp] theorem State.modCluster_fresh (s : State) (n : Nat) (f : Cluster → Cluster) : (s.modCluster n f).fresh = s.fresh := rfl
@[simp] theorem State.modCluster_fuses (s : State) (n : Nat) (f : Cluster → Cluster) : (s.modCluster n f).fuses = s.fuses := rfl
@[simp] theorem State.modCluster_mem (s : State) (n : Nat) (f : Cluster → Cluster) : (s.modCluster n f).mem = s.mem := rfl
@[simp] theorem State.modCluster_tags (s : State) (n : Nat) (f : Cluster → Cluster) : (s.modCluster n f).tags = s.tags := rfl
@[simp] theorem State.modCluster_poison (s : State) (n : Nat) (f : Cluster → Cluster) : (s.modCluster n f).poison = s.poison := rfl
@[simp] theorem State.modCluster_attrs (s : State) (n : Nat) (f : Cluster → Cluster) : (s.modCluster n f).attrs = s.attrs := rfl
@[simp] theorem State.modCluster_ctxs (s : State) (n : Nat) (f : Cluster → Cluster) : (s.modCluster n f).ctxs = s.ctxs := rfl
@[simp] theorem State.modCluster_cores (s : State) (n : Nat) (f : Cluster → Cluster) : (s.modCluster n f).cores = s.cores := rfl
@[simp] theorem State.modCluster_l2 (s : State) (n : Nat) (f : Cluster → Cluster) : (s.modCluster n f).l2 = s.l2 := rfl
@[simp] theorem State.modCluster_side (s : State) (n : Nat) (f : Cluster → Cluster) : (s.modCluster n f).side = s.side := rfl
@[simp] theorem State.modCluster_ties (s : State) (n : Nat) (f : Cluster → Cluster) : (s.modCluster n f).ties = s.ties := rfl
@[simp] theorem State.modCluster_segs (s : State) (n : Nat) (f : Cluster → Cluster) : (s.modCluster n f).segs = s.segs := rfl
@[simp] theorem State.modCluster_code (s : State) (n : Nat) (f : Cluster → Cluster) : (s.modCluster n f).code = s.code := rfl
@[simp] theorem State.modCluster_wsets (s : State) (n : Nat) (f : Cluster → Cluster) : (s.modCluster n f).wsets = s.wsets := rfl
@[simp] theorem State.modCluster_engines (s : State) (n : Nat) (f : Cluster → Cluster) : (s.modCluster n f).engines = s.engines := rfl
@[simp] theorem State.modCluster_snaps (s : State) (n : Nat) (f : Cluster → Cluster) : (s.modCluster n f).snaps = s.snaps := rfl
@[simp] theorem State.modCluster_regions (s : State) (n : Nat) (f : Cluster → Cluster) : (s.modCluster n f).regions = s.regions := rfl
@[simp] theorem State.modCluster_recs (s : State) (n : Nat) (f : Cluster → Cluster) : (s.modCluster n f).recs = s.recs := rfl
@[simp] theorem State.modCluster_gangs (s : State) (n : Nat) (f : Cluster → Cluster) : (s.modCluster n f).gangs = s.gangs := rfl
@[simp] theorem State.modCluster_gangNext (s : State) (n : Nat) (f : Cluster → Cluster) : (s.modCluster n f).gangNext = s.gangNext := rfl
@[simp] theorem State.modCluster_links (s : State) (n : Nat) (f : Cluster → Cluster) : (s.modCluster n f).links = s.links := rfl
@[simp] theorem State.modCluster_troupes (s : State) (n : Nat) (f : Cluster → Cluster) : (s.modCluster n f).troupes = s.troupes := rfl
@[simp] theorem State.modCluster_queues (s : State) (n : Nat) (f : Cluster → Cluster) : (s.modCluster n f).queues = s.queues := rfl
@[simp] theorem State.modCluster_fes (s : State) (n : Nat) (f : Cluster → Cluster) : (s.modCluster n f).fes = s.fes := rfl
@[simp] theorem State.modCluster_roots (s : State) (n : Nat) (f : Cluster → Cluster) : (s.modCluster n f).roots = s.roots := rfl
@[simp] theorem State.modCluster_requests (s : State) (n : Nat) (f : Cluster → Cluster) : (s.modCluster n f).requests = s.requests := rfl
@[simp] theorem State.modCluster_tlbs (s : State) (n : Nat) (f : Cluster → Cluster) : (s.modCluster n f).tlbs = s.tlbs := rfl
@[simp] theorem State.modCluster_migs (s : State) (n : Nat) (f : Cluster → Cluster) : (s.modCluster n f).migs = s.migs := rfl
@[simp] theorem State.modCluster_sessions (s : State) (n : Nat) (f : Cluster → Cluster) : (s.modCluster n f).sessions = s.sessions := rfl
@[simp] theorem State.modCluster_keys (s : State) (n : Nat) (f : Cluster → Cluster) : (s.modCluster n f).keys = s.keys := rfl
@[simp] theorem State.modCluster_arb (s : State) (n : Nat) (f : Cluster → Cluster) : (s.modCluster n f).arb = s.arb := rfl
@[simp] theorem State.modCluster_budgets (s : State) (n : Nat) (f : Cluster → Cluster) : (s.modCluster n f).budgets = s.budgets := rfl
@[simp] theorem State.modCluster_reports (s : State) (n : Nat) (f : Cluster → Cluster) : (s.modCluster n f).reports = s.reports := rfl
@[simp] theorem State.modCluster_launchRecs (s : State) (n : Nat) (f : Cluster → Cluster) : (s.modCluster n f).launchRecs = s.launchRecs := rfl
@[simp] theorem State.modCluster_links16 (s : State) (n : Nat) (f : Cluster → Cluster) : (s.modCluster n f).links16 = s.links16 := rfl
@[simp] theorem State.modCluster_notes (s : State) (n : Nat) (f : Cluster → Cluster) : (s.modCluster n f).notes = s.notes := rfl
@[simp] theorem State.modCluster_gated (s : State) (n : Nat) (f : Cluster → Cluster) : (s.modCluster n f).gated = s.gated := rfl
@[simp] theorem State.modCluster_answer (s : State) (n : Nat) (f : Cluster → Cluster) : (s.modCluster n f).answer = s.answer := rfl
@[simp] theorem State.modCluster_hostStore (s : State) (n : Nat) (f : Cluster → Cluster) : (s.modCluster n f).hostStore = s.hostStore := rfl
@[simp] theorem State.modCluster_draws (s : State) (n : Nat) (f : Cluster → Cluster) : (s.modCluster n f).draws = s.draws := rfl

/-! ### State.modRegion -/

@[simp] theorem State.modRegion_core (s : State) (n : Nat) (f : Region → Region) : (s.modRegion n f).core = s.core := rfl
@[simp] theorem State.modRegion_party (s : State) (n : Nat) (f : Region → Region) : (s.modRegion n f).party = s.party := rfl
@[simp] theorem State.modRegion_fe (s : State) (n : Nat) (f : Region → Region) : (s.modRegion n f).fe = s.fe := rfl
@[simp] theorem State.modRegion_agenda (s : State) (n : Nat) (f : Region → Region) : (s.modRegion n f).agenda = s.agenda := rfl
@[simp] theorem State.modRegion_hold (s : State) (n : Nat) (f : Region → Region) : (s.modRegion n f).hold = s.hold := rfl
@[simp] theorem State.modRegion_fresh (s : State) (n : Nat) (f : Region → Region) : (s.modRegion n f).fresh = s.fresh := rfl
@[simp] theorem State.modRegion_fuses (s : State) (n : Nat) (f : Region → Region) : (s.modRegion n f).fuses = s.fuses := rfl
@[simp] theorem State.modRegion_mem (s : State) (n : Nat) (f : Region → Region) : (s.modRegion n f).mem = s.mem := rfl
@[simp] theorem State.modRegion_tags (s : State) (n : Nat) (f : Region → Region) : (s.modRegion n f).tags = s.tags := rfl
@[simp] theorem State.modRegion_poison (s : State) (n : Nat) (f : Region → Region) : (s.modRegion n f).poison = s.poison := rfl
@[simp] theorem State.modRegion_attrs (s : State) (n : Nat) (f : Region → Region) : (s.modRegion n f).attrs = s.attrs := rfl
@[simp] theorem State.modRegion_ctxs (s : State) (n : Nat) (f : Region → Region) : (s.modRegion n f).ctxs = s.ctxs := rfl
@[simp] theorem State.modRegion_cores (s : State) (n : Nat) (f : Region → Region) : (s.modRegion n f).cores = s.cores := rfl
@[simp] theorem State.modRegion_clusters (s : State) (n : Nat) (f : Region → Region) : (s.modRegion n f).clusters = s.clusters := rfl
@[simp] theorem State.modRegion_l2 (s : State) (n : Nat) (f : Region → Region) : (s.modRegion n f).l2 = s.l2 := rfl
@[simp] theorem State.modRegion_side (s : State) (n : Nat) (f : Region → Region) : (s.modRegion n f).side = s.side := rfl
@[simp] theorem State.modRegion_ties (s : State) (n : Nat) (f : Region → Region) : (s.modRegion n f).ties = s.ties := rfl
@[simp] theorem State.modRegion_segs (s : State) (n : Nat) (f : Region → Region) : (s.modRegion n f).segs = s.segs := rfl
@[simp] theorem State.modRegion_code (s : State) (n : Nat) (f : Region → Region) : (s.modRegion n f).code = s.code := rfl
@[simp] theorem State.modRegion_wsets (s : State) (n : Nat) (f : Region → Region) : (s.modRegion n f).wsets = s.wsets := rfl
@[simp] theorem State.modRegion_engines (s : State) (n : Nat) (f : Region → Region) : (s.modRegion n f).engines = s.engines := rfl
@[simp] theorem State.modRegion_snaps (s : State) (n : Nat) (f : Region → Region) : (s.modRegion n f).snaps = s.snaps := rfl
@[simp] theorem State.modRegion_recs (s : State) (n : Nat) (f : Region → Region) : (s.modRegion n f).recs = s.recs := rfl
@[simp] theorem State.modRegion_gangs (s : State) (n : Nat) (f : Region → Region) : (s.modRegion n f).gangs = s.gangs := rfl
@[simp] theorem State.modRegion_gangNext (s : State) (n : Nat) (f : Region → Region) : (s.modRegion n f).gangNext = s.gangNext := rfl
@[simp] theorem State.modRegion_links (s : State) (n : Nat) (f : Region → Region) : (s.modRegion n f).links = s.links := rfl
@[simp] theorem State.modRegion_troupes (s : State) (n : Nat) (f : Region → Region) : (s.modRegion n f).troupes = s.troupes := rfl
@[simp] theorem State.modRegion_queues (s : State) (n : Nat) (f : Region → Region) : (s.modRegion n f).queues = s.queues := rfl
@[simp] theorem State.modRegion_fes (s : State) (n : Nat) (f : Region → Region) : (s.modRegion n f).fes = s.fes := rfl
@[simp] theorem State.modRegion_roots (s : State) (n : Nat) (f : Region → Region) : (s.modRegion n f).roots = s.roots := rfl
@[simp] theorem State.modRegion_requests (s : State) (n : Nat) (f : Region → Region) : (s.modRegion n f).requests = s.requests := rfl
@[simp] theorem State.modRegion_tlbs (s : State) (n : Nat) (f : Region → Region) : (s.modRegion n f).tlbs = s.tlbs := rfl
@[simp] theorem State.modRegion_migs (s : State) (n : Nat) (f : Region → Region) : (s.modRegion n f).migs = s.migs := rfl
@[simp] theorem State.modRegion_sessions (s : State) (n : Nat) (f : Region → Region) : (s.modRegion n f).sessions = s.sessions := rfl
@[simp] theorem State.modRegion_keys (s : State) (n : Nat) (f : Region → Region) : (s.modRegion n f).keys = s.keys := rfl
@[simp] theorem State.modRegion_arb (s : State) (n : Nat) (f : Region → Region) : (s.modRegion n f).arb = s.arb := rfl
@[simp] theorem State.modRegion_budgets (s : State) (n : Nat) (f : Region → Region) : (s.modRegion n f).budgets = s.budgets := rfl
@[simp] theorem State.modRegion_reports (s : State) (n : Nat) (f : Region → Region) : (s.modRegion n f).reports = s.reports := rfl
@[simp] theorem State.modRegion_launchRecs (s : State) (n : Nat) (f : Region → Region) : (s.modRegion n f).launchRecs = s.launchRecs := rfl
@[simp] theorem State.modRegion_links16 (s : State) (n : Nat) (f : Region → Region) : (s.modRegion n f).links16 = s.links16 := rfl
@[simp] theorem State.modRegion_notes (s : State) (n : Nat) (f : Region → Region) : (s.modRegion n f).notes = s.notes := rfl
@[simp] theorem State.modRegion_gated (s : State) (n : Nat) (f : Region → Region) : (s.modRegion n f).gated = s.gated := rfl
@[simp] theorem State.modRegion_answer (s : State) (n : Nat) (f : Region → Region) : (s.modRegion n f).answer = s.answer := rfl
@[simp] theorem State.modRegion_hostStore (s : State) (n : Nat) (f : Region → Region) : (s.modRegion n f).hostStore = s.hostStore := rfl
@[simp] theorem State.modRegion_draws (s : State) (n : Nat) (f : Region → Region) : (s.modRegion n f).draws = s.draws := rfl

/-! ### State.modQueue -/

@[simp] theorem State.modQueue_core (s : State) (n : Nat) (f : Queue → Queue) : (s.modQueue n f).core = s.core := rfl
@[simp] theorem State.modQueue_party (s : State) (n : Nat) (f : Queue → Queue) : (s.modQueue n f).party = s.party := rfl
@[simp] theorem State.modQueue_fe (s : State) (n : Nat) (f : Queue → Queue) : (s.modQueue n f).fe = s.fe := rfl
@[simp] theorem State.modQueue_agenda (s : State) (n : Nat) (f : Queue → Queue) : (s.modQueue n f).agenda = s.agenda := rfl
@[simp] theorem State.modQueue_hold (s : State) (n : Nat) (f : Queue → Queue) : (s.modQueue n f).hold = s.hold := rfl
@[simp] theorem State.modQueue_fresh (s : State) (n : Nat) (f : Queue → Queue) : (s.modQueue n f).fresh = s.fresh := rfl
@[simp] theorem State.modQueue_fuses (s : State) (n : Nat) (f : Queue → Queue) : (s.modQueue n f).fuses = s.fuses := rfl
@[simp] theorem State.modQueue_mem (s : State) (n : Nat) (f : Queue → Queue) : (s.modQueue n f).mem = s.mem := rfl
@[simp] theorem State.modQueue_tags (s : State) (n : Nat) (f : Queue → Queue) : (s.modQueue n f).tags = s.tags := rfl
@[simp] theorem State.modQueue_poison (s : State) (n : Nat) (f : Queue → Queue) : (s.modQueue n f).poison = s.poison := rfl
@[simp] theorem State.modQueue_attrs (s : State) (n : Nat) (f : Queue → Queue) : (s.modQueue n f).attrs = s.attrs := rfl
@[simp] theorem State.modQueue_ctxs (s : State) (n : Nat) (f : Queue → Queue) : (s.modQueue n f).ctxs = s.ctxs := rfl
@[simp] theorem State.modQueue_cores (s : State) (n : Nat) (f : Queue → Queue) : (s.modQueue n f).cores = s.cores := rfl
@[simp] theorem State.modQueue_clusters (s : State) (n : Nat) (f : Queue → Queue) : (s.modQueue n f).clusters = s.clusters := rfl
@[simp] theorem State.modQueue_l2 (s : State) (n : Nat) (f : Queue → Queue) : (s.modQueue n f).l2 = s.l2 := rfl
@[simp] theorem State.modQueue_side (s : State) (n : Nat) (f : Queue → Queue) : (s.modQueue n f).side = s.side := rfl
@[simp] theorem State.modQueue_ties (s : State) (n : Nat) (f : Queue → Queue) : (s.modQueue n f).ties = s.ties := rfl
@[simp] theorem State.modQueue_segs (s : State) (n : Nat) (f : Queue → Queue) : (s.modQueue n f).segs = s.segs := rfl
@[simp] theorem State.modQueue_code (s : State) (n : Nat) (f : Queue → Queue) : (s.modQueue n f).code = s.code := rfl
@[simp] theorem State.modQueue_wsets (s : State) (n : Nat) (f : Queue → Queue) : (s.modQueue n f).wsets = s.wsets := rfl
@[simp] theorem State.modQueue_engines (s : State) (n : Nat) (f : Queue → Queue) : (s.modQueue n f).engines = s.engines := rfl
@[simp] theorem State.modQueue_snaps (s : State) (n : Nat) (f : Queue → Queue) : (s.modQueue n f).snaps = s.snaps := rfl
@[simp] theorem State.modQueue_regions (s : State) (n : Nat) (f : Queue → Queue) : (s.modQueue n f).regions = s.regions := rfl
@[simp] theorem State.modQueue_recs (s : State) (n : Nat) (f : Queue → Queue) : (s.modQueue n f).recs = s.recs := rfl
@[simp] theorem State.modQueue_gangs (s : State) (n : Nat) (f : Queue → Queue) : (s.modQueue n f).gangs = s.gangs := rfl
@[simp] theorem State.modQueue_gangNext (s : State) (n : Nat) (f : Queue → Queue) : (s.modQueue n f).gangNext = s.gangNext := rfl
@[simp] theorem State.modQueue_links (s : State) (n : Nat) (f : Queue → Queue) : (s.modQueue n f).links = s.links := rfl
@[simp] theorem State.modQueue_troupes (s : State) (n : Nat) (f : Queue → Queue) : (s.modQueue n f).troupes = s.troupes := rfl
@[simp] theorem State.modQueue_fes (s : State) (n : Nat) (f : Queue → Queue) : (s.modQueue n f).fes = s.fes := rfl
@[simp] theorem State.modQueue_roots (s : State) (n : Nat) (f : Queue → Queue) : (s.modQueue n f).roots = s.roots := rfl
@[simp] theorem State.modQueue_requests (s : State) (n : Nat) (f : Queue → Queue) : (s.modQueue n f).requests = s.requests := rfl
@[simp] theorem State.modQueue_tlbs (s : State) (n : Nat) (f : Queue → Queue) : (s.modQueue n f).tlbs = s.tlbs := rfl
@[simp] theorem State.modQueue_migs (s : State) (n : Nat) (f : Queue → Queue) : (s.modQueue n f).migs = s.migs := rfl
@[simp] theorem State.modQueue_sessions (s : State) (n : Nat) (f : Queue → Queue) : (s.modQueue n f).sessions = s.sessions := rfl
@[simp] theorem State.modQueue_keys (s : State) (n : Nat) (f : Queue → Queue) : (s.modQueue n f).keys = s.keys := rfl
@[simp] theorem State.modQueue_arb (s : State) (n : Nat) (f : Queue → Queue) : (s.modQueue n f).arb = s.arb := rfl
@[simp] theorem State.modQueue_budgets (s : State) (n : Nat) (f : Queue → Queue) : (s.modQueue n f).budgets = s.budgets := rfl
@[simp] theorem State.modQueue_reports (s : State) (n : Nat) (f : Queue → Queue) : (s.modQueue n f).reports = s.reports := rfl
@[simp] theorem State.modQueue_launchRecs (s : State) (n : Nat) (f : Queue → Queue) : (s.modQueue n f).launchRecs = s.launchRecs := rfl
@[simp] theorem State.modQueue_links16 (s : State) (n : Nat) (f : Queue → Queue) : (s.modQueue n f).links16 = s.links16 := rfl
@[simp] theorem State.modQueue_notes (s : State) (n : Nat) (f : Queue → Queue) : (s.modQueue n f).notes = s.notes := rfl
@[simp] theorem State.modQueue_gated (s : State) (n : Nat) (f : Queue → Queue) : (s.modQueue n f).gated = s.gated := rfl
@[simp] theorem State.modQueue_answer (s : State) (n : Nat) (f : Queue → Queue) : (s.modQueue n f).answer = s.answer := rfl
@[simp] theorem State.modQueue_hostStore (s : State) (n : Nat) (f : Queue → Queue) : (s.modQueue n f).hostStore = s.hostStore := rfl
@[simp] theorem State.modQueue_draws (s : State) (n : Nat) (f : Queue → Queue) : (s.modQueue n f).draws = s.draws := rfl

/-! ### State.modEngine -/

@[simp] theorem State.modEngine_core (s : State) (n : Nat) (f : Engine → Engine) : (s.modEngine n f).core = s.core := rfl
@[simp] theorem State.modEngine_party (s : State) (n : Nat) (f : Engine → Engine) : (s.modEngine n f).party = s.party := rfl
@[simp] theorem State.modEngine_fe (s : State) (n : Nat) (f : Engine → Engine) : (s.modEngine n f).fe = s.fe := rfl
@[simp] theorem State.modEngine_agenda (s : State) (n : Nat) (f : Engine → Engine) : (s.modEngine n f).agenda = s.agenda := rfl
@[simp] theorem State.modEngine_hold (s : State) (n : Nat) (f : Engine → Engine) : (s.modEngine n f).hold = s.hold := rfl
@[simp] theorem State.modEngine_fresh (s : State) (n : Nat) (f : Engine → Engine) : (s.modEngine n f).fresh = s.fresh := rfl
@[simp] theorem State.modEngine_fuses (s : State) (n : Nat) (f : Engine → Engine) : (s.modEngine n f).fuses = s.fuses := rfl
@[simp] theorem State.modEngine_mem (s : State) (n : Nat) (f : Engine → Engine) : (s.modEngine n f).mem = s.mem := rfl
@[simp] theorem State.modEngine_tags (s : State) (n : Nat) (f : Engine → Engine) : (s.modEngine n f).tags = s.tags := rfl
@[simp] theorem State.modEngine_poison (s : State) (n : Nat) (f : Engine → Engine) : (s.modEngine n f).poison = s.poison := rfl
@[simp] theorem State.modEngine_attrs (s : State) (n : Nat) (f : Engine → Engine) : (s.modEngine n f).attrs = s.attrs := rfl
@[simp] theorem State.modEngine_ctxs (s : State) (n : Nat) (f : Engine → Engine) : (s.modEngine n f).ctxs = s.ctxs := rfl
@[simp] theorem State.modEngine_cores (s : State) (n : Nat) (f : Engine → Engine) : (s.modEngine n f).cores = s.cores := rfl
@[simp] theorem State.modEngine_clusters (s : State) (n : Nat) (f : Engine → Engine) : (s.modEngine n f).clusters = s.clusters := rfl
@[simp] theorem State.modEngine_l2 (s : State) (n : Nat) (f : Engine → Engine) : (s.modEngine n f).l2 = s.l2 := rfl
@[simp] theorem State.modEngine_side (s : State) (n : Nat) (f : Engine → Engine) : (s.modEngine n f).side = s.side := rfl
@[simp] theorem State.modEngine_ties (s : State) (n : Nat) (f : Engine → Engine) : (s.modEngine n f).ties = s.ties := rfl
@[simp] theorem State.modEngine_segs (s : State) (n : Nat) (f : Engine → Engine) : (s.modEngine n f).segs = s.segs := rfl
@[simp] theorem State.modEngine_code (s : State) (n : Nat) (f : Engine → Engine) : (s.modEngine n f).code = s.code := rfl
@[simp] theorem State.modEngine_wsets (s : State) (n : Nat) (f : Engine → Engine) : (s.modEngine n f).wsets = s.wsets := rfl
@[simp] theorem State.modEngine_snaps (s : State) (n : Nat) (f : Engine → Engine) : (s.modEngine n f).snaps = s.snaps := rfl
@[simp] theorem State.modEngine_regions (s : State) (n : Nat) (f : Engine → Engine) : (s.modEngine n f).regions = s.regions := rfl
@[simp] theorem State.modEngine_recs (s : State) (n : Nat) (f : Engine → Engine) : (s.modEngine n f).recs = s.recs := rfl
@[simp] theorem State.modEngine_gangs (s : State) (n : Nat) (f : Engine → Engine) : (s.modEngine n f).gangs = s.gangs := rfl
@[simp] theorem State.modEngine_gangNext (s : State) (n : Nat) (f : Engine → Engine) : (s.modEngine n f).gangNext = s.gangNext := rfl
@[simp] theorem State.modEngine_links (s : State) (n : Nat) (f : Engine → Engine) : (s.modEngine n f).links = s.links := rfl
@[simp] theorem State.modEngine_troupes (s : State) (n : Nat) (f : Engine → Engine) : (s.modEngine n f).troupes = s.troupes := rfl
@[simp] theorem State.modEngine_queues (s : State) (n : Nat) (f : Engine → Engine) : (s.modEngine n f).queues = s.queues := rfl
@[simp] theorem State.modEngine_fes (s : State) (n : Nat) (f : Engine → Engine) : (s.modEngine n f).fes = s.fes := rfl
@[simp] theorem State.modEngine_roots (s : State) (n : Nat) (f : Engine → Engine) : (s.modEngine n f).roots = s.roots := rfl
@[simp] theorem State.modEngine_requests (s : State) (n : Nat) (f : Engine → Engine) : (s.modEngine n f).requests = s.requests := rfl
@[simp] theorem State.modEngine_tlbs (s : State) (n : Nat) (f : Engine → Engine) : (s.modEngine n f).tlbs = s.tlbs := rfl
@[simp] theorem State.modEngine_migs (s : State) (n : Nat) (f : Engine → Engine) : (s.modEngine n f).migs = s.migs := rfl
@[simp] theorem State.modEngine_sessions (s : State) (n : Nat) (f : Engine → Engine) : (s.modEngine n f).sessions = s.sessions := rfl
@[simp] theorem State.modEngine_keys (s : State) (n : Nat) (f : Engine → Engine) : (s.modEngine n f).keys = s.keys := rfl
@[simp] theorem State.modEngine_arb (s : State) (n : Nat) (f : Engine → Engine) : (s.modEngine n f).arb = s.arb := rfl
@[simp] theorem State.modEngine_budgets (s : State) (n : Nat) (f : Engine → Engine) : (s.modEngine n f).budgets = s.budgets := rfl
@[simp] theorem State.modEngine_reports (s : State) (n : Nat) (f : Engine → Engine) : (s.modEngine n f).reports = s.reports := rfl
@[simp] theorem State.modEngine_launchRecs (s : State) (n : Nat) (f : Engine → Engine) : (s.modEngine n f).launchRecs = s.launchRecs := rfl
@[simp] theorem State.modEngine_links16 (s : State) (n : Nat) (f : Engine → Engine) : (s.modEngine n f).links16 = s.links16 := rfl
@[simp] theorem State.modEngine_notes (s : State) (n : Nat) (f : Engine → Engine) : (s.modEngine n f).notes = s.notes := rfl
@[simp] theorem State.modEngine_gated (s : State) (n : Nat) (f : Engine → Engine) : (s.modEngine n f).gated = s.gated := rfl
@[simp] theorem State.modEngine_answer (s : State) (n : Nat) (f : Engine → Engine) : (s.modEngine n f).answer = s.answer := rfl
@[simp] theorem State.modEngine_hostStore (s : State) (n : Nat) (f : Engine → Engine) : (s.modEngine n f).hostStore = s.hostStore := rfl
@[simp] theorem State.modEngine_draws (s : State) (n : Nat) (f : Engine → Engine) : (s.modEngine n f).draws = s.draws := rfl

/-! ### State.modSnap -/

@[simp] theorem State.modSnap_core (s : State) (n : Nat) (f : Snap → Snap) : (s.modSnap n f).core = s.core := rfl
@[simp] theorem State.modSnap_party (s : State) (n : Nat) (f : Snap → Snap) : (s.modSnap n f).party = s.party := rfl
@[simp] theorem State.modSnap_fe (s : State) (n : Nat) (f : Snap → Snap) : (s.modSnap n f).fe = s.fe := rfl
@[simp] theorem State.modSnap_agenda (s : State) (n : Nat) (f : Snap → Snap) : (s.modSnap n f).agenda = s.agenda := rfl
@[simp] theorem State.modSnap_hold (s : State) (n : Nat) (f : Snap → Snap) : (s.modSnap n f).hold = s.hold := rfl
@[simp] theorem State.modSnap_fresh (s : State) (n : Nat) (f : Snap → Snap) : (s.modSnap n f).fresh = s.fresh := rfl
@[simp] theorem State.modSnap_fuses (s : State) (n : Nat) (f : Snap → Snap) : (s.modSnap n f).fuses = s.fuses := rfl
@[simp] theorem State.modSnap_mem (s : State) (n : Nat) (f : Snap → Snap) : (s.modSnap n f).mem = s.mem := rfl
@[simp] theorem State.modSnap_tags (s : State) (n : Nat) (f : Snap → Snap) : (s.modSnap n f).tags = s.tags := rfl
@[simp] theorem State.modSnap_poison (s : State) (n : Nat) (f : Snap → Snap) : (s.modSnap n f).poison = s.poison := rfl
@[simp] theorem State.modSnap_attrs (s : State) (n : Nat) (f : Snap → Snap) : (s.modSnap n f).attrs = s.attrs := rfl
@[simp] theorem State.modSnap_ctxs (s : State) (n : Nat) (f : Snap → Snap) : (s.modSnap n f).ctxs = s.ctxs := rfl
@[simp] theorem State.modSnap_cores (s : State) (n : Nat) (f : Snap → Snap) : (s.modSnap n f).cores = s.cores := rfl
@[simp] theorem State.modSnap_clusters (s : State) (n : Nat) (f : Snap → Snap) : (s.modSnap n f).clusters = s.clusters := rfl
@[simp] theorem State.modSnap_l2 (s : State) (n : Nat) (f : Snap → Snap) : (s.modSnap n f).l2 = s.l2 := rfl
@[simp] theorem State.modSnap_side (s : State) (n : Nat) (f : Snap → Snap) : (s.modSnap n f).side = s.side := rfl
@[simp] theorem State.modSnap_ties (s : State) (n : Nat) (f : Snap → Snap) : (s.modSnap n f).ties = s.ties := rfl
@[simp] theorem State.modSnap_segs (s : State) (n : Nat) (f : Snap → Snap) : (s.modSnap n f).segs = s.segs := rfl
@[simp] theorem State.modSnap_code (s : State) (n : Nat) (f : Snap → Snap) : (s.modSnap n f).code = s.code := rfl
@[simp] theorem State.modSnap_wsets (s : State) (n : Nat) (f : Snap → Snap) : (s.modSnap n f).wsets = s.wsets := rfl
@[simp] theorem State.modSnap_engines (s : State) (n : Nat) (f : Snap → Snap) : (s.modSnap n f).engines = s.engines := rfl
@[simp] theorem State.modSnap_regions (s : State) (n : Nat) (f : Snap → Snap) : (s.modSnap n f).regions = s.regions := rfl
@[simp] theorem State.modSnap_recs (s : State) (n : Nat) (f : Snap → Snap) : (s.modSnap n f).recs = s.recs := rfl
@[simp] theorem State.modSnap_gangs (s : State) (n : Nat) (f : Snap → Snap) : (s.modSnap n f).gangs = s.gangs := rfl
@[simp] theorem State.modSnap_gangNext (s : State) (n : Nat) (f : Snap → Snap) : (s.modSnap n f).gangNext = s.gangNext := rfl
@[simp] theorem State.modSnap_links (s : State) (n : Nat) (f : Snap → Snap) : (s.modSnap n f).links = s.links := rfl
@[simp] theorem State.modSnap_troupes (s : State) (n : Nat) (f : Snap → Snap) : (s.modSnap n f).troupes = s.troupes := rfl
@[simp] theorem State.modSnap_queues (s : State) (n : Nat) (f : Snap → Snap) : (s.modSnap n f).queues = s.queues := rfl
@[simp] theorem State.modSnap_fes (s : State) (n : Nat) (f : Snap → Snap) : (s.modSnap n f).fes = s.fes := rfl
@[simp] theorem State.modSnap_roots (s : State) (n : Nat) (f : Snap → Snap) : (s.modSnap n f).roots = s.roots := rfl
@[simp] theorem State.modSnap_requests (s : State) (n : Nat) (f : Snap → Snap) : (s.modSnap n f).requests = s.requests := rfl
@[simp] theorem State.modSnap_tlbs (s : State) (n : Nat) (f : Snap → Snap) : (s.modSnap n f).tlbs = s.tlbs := rfl
@[simp] theorem State.modSnap_migs (s : State) (n : Nat) (f : Snap → Snap) : (s.modSnap n f).migs = s.migs := rfl
@[simp] theorem State.modSnap_sessions (s : State) (n : Nat) (f : Snap → Snap) : (s.modSnap n f).sessions = s.sessions := rfl
@[simp] theorem State.modSnap_keys (s : State) (n : Nat) (f : Snap → Snap) : (s.modSnap n f).keys = s.keys := rfl
@[simp] theorem State.modSnap_arb (s : State) (n : Nat) (f : Snap → Snap) : (s.modSnap n f).arb = s.arb := rfl
@[simp] theorem State.modSnap_budgets (s : State) (n : Nat) (f : Snap → Snap) : (s.modSnap n f).budgets = s.budgets := rfl
@[simp] theorem State.modSnap_reports (s : State) (n : Nat) (f : Snap → Snap) : (s.modSnap n f).reports = s.reports := rfl
@[simp] theorem State.modSnap_launchRecs (s : State) (n : Nat) (f : Snap → Snap) : (s.modSnap n f).launchRecs = s.launchRecs := rfl
@[simp] theorem State.modSnap_links16 (s : State) (n : Nat) (f : Snap → Snap) : (s.modSnap n f).links16 = s.links16 := rfl
@[simp] theorem State.modSnap_notes (s : State) (n : Nat) (f : Snap → Snap) : (s.modSnap n f).notes = s.notes := rfl
@[simp] theorem State.modSnap_gated (s : State) (n : Nat) (f : Snap → Snap) : (s.modSnap n f).gated = s.gated := rfl
@[simp] theorem State.modSnap_answer (s : State) (n : Nat) (f : Snap → Snap) : (s.modSnap n f).answer = s.answer := rfl
@[simp] theorem State.modSnap_hostStore (s : State) (n : Nat) (f : Snap → Snap) : (s.modSnap n f).hostStore = s.hostStore := rfl
@[simp] theorem State.modSnap_draws (s : State) (n : Nat) (f : Snap → Snap) : (s.modSnap n f).draws = s.draws := rfl

/-! ### State.modFe -/

@[simp] theorem State.modFe_core (s : State) (n : Nat) (f : FrontEnd → FrontEnd) : (s.modFe n f).core = s.core := rfl
@[simp] theorem State.modFe_party (s : State) (n : Nat) (f : FrontEnd → FrontEnd) : (s.modFe n f).party = s.party := rfl
@[simp] theorem State.modFe_fe (s : State) (n : Nat) (f : FrontEnd → FrontEnd) : (s.modFe n f).fe = s.fe := rfl
@[simp] theorem State.modFe_agenda (s : State) (n : Nat) (f : FrontEnd → FrontEnd) : (s.modFe n f).agenda = s.agenda := rfl
@[simp] theorem State.modFe_hold (s : State) (n : Nat) (f : FrontEnd → FrontEnd) : (s.modFe n f).hold = s.hold := rfl
@[simp] theorem State.modFe_fresh (s : State) (n : Nat) (f : FrontEnd → FrontEnd) : (s.modFe n f).fresh = s.fresh := rfl
@[simp] theorem State.modFe_fuses (s : State) (n : Nat) (f : FrontEnd → FrontEnd) : (s.modFe n f).fuses = s.fuses := rfl
@[simp] theorem State.modFe_mem (s : State) (n : Nat) (f : FrontEnd → FrontEnd) : (s.modFe n f).mem = s.mem := rfl
@[simp] theorem State.modFe_tags (s : State) (n : Nat) (f : FrontEnd → FrontEnd) : (s.modFe n f).tags = s.tags := rfl
@[simp] theorem State.modFe_poison (s : State) (n : Nat) (f : FrontEnd → FrontEnd) : (s.modFe n f).poison = s.poison := rfl
@[simp] theorem State.modFe_attrs (s : State) (n : Nat) (f : FrontEnd → FrontEnd) : (s.modFe n f).attrs = s.attrs := rfl
@[simp] theorem State.modFe_ctxs (s : State) (n : Nat) (f : FrontEnd → FrontEnd) : (s.modFe n f).ctxs = s.ctxs := rfl
@[simp] theorem State.modFe_cores (s : State) (n : Nat) (f : FrontEnd → FrontEnd) : (s.modFe n f).cores = s.cores := rfl
@[simp] theorem State.modFe_clusters (s : State) (n : Nat) (f : FrontEnd → FrontEnd) : (s.modFe n f).clusters = s.clusters := rfl
@[simp] theorem State.modFe_l2 (s : State) (n : Nat) (f : FrontEnd → FrontEnd) : (s.modFe n f).l2 = s.l2 := rfl
@[simp] theorem State.modFe_side (s : State) (n : Nat) (f : FrontEnd → FrontEnd) : (s.modFe n f).side = s.side := rfl
@[simp] theorem State.modFe_ties (s : State) (n : Nat) (f : FrontEnd → FrontEnd) : (s.modFe n f).ties = s.ties := rfl
@[simp] theorem State.modFe_segs (s : State) (n : Nat) (f : FrontEnd → FrontEnd) : (s.modFe n f).segs = s.segs := rfl
@[simp] theorem State.modFe_code (s : State) (n : Nat) (f : FrontEnd → FrontEnd) : (s.modFe n f).code = s.code := rfl
@[simp] theorem State.modFe_wsets (s : State) (n : Nat) (f : FrontEnd → FrontEnd) : (s.modFe n f).wsets = s.wsets := rfl
@[simp] theorem State.modFe_engines (s : State) (n : Nat) (f : FrontEnd → FrontEnd) : (s.modFe n f).engines = s.engines := rfl
@[simp] theorem State.modFe_snaps (s : State) (n : Nat) (f : FrontEnd → FrontEnd) : (s.modFe n f).snaps = s.snaps := rfl
@[simp] theorem State.modFe_regions (s : State) (n : Nat) (f : FrontEnd → FrontEnd) : (s.modFe n f).regions = s.regions := rfl
@[simp] theorem State.modFe_recs (s : State) (n : Nat) (f : FrontEnd → FrontEnd) : (s.modFe n f).recs = s.recs := rfl
@[simp] theorem State.modFe_gangs (s : State) (n : Nat) (f : FrontEnd → FrontEnd) : (s.modFe n f).gangs = s.gangs := rfl
@[simp] theorem State.modFe_gangNext (s : State) (n : Nat) (f : FrontEnd → FrontEnd) : (s.modFe n f).gangNext = s.gangNext := rfl
@[simp] theorem State.modFe_links (s : State) (n : Nat) (f : FrontEnd → FrontEnd) : (s.modFe n f).links = s.links := rfl
@[simp] theorem State.modFe_troupes (s : State) (n : Nat) (f : FrontEnd → FrontEnd) : (s.modFe n f).troupes = s.troupes := rfl
@[simp] theorem State.modFe_queues (s : State) (n : Nat) (f : FrontEnd → FrontEnd) : (s.modFe n f).queues = s.queues := rfl
@[simp] theorem State.modFe_roots (s : State) (n : Nat) (f : FrontEnd → FrontEnd) : (s.modFe n f).roots = s.roots := rfl
@[simp] theorem State.modFe_requests (s : State) (n : Nat) (f : FrontEnd → FrontEnd) : (s.modFe n f).requests = s.requests := rfl
@[simp] theorem State.modFe_tlbs (s : State) (n : Nat) (f : FrontEnd → FrontEnd) : (s.modFe n f).tlbs = s.tlbs := rfl
@[simp] theorem State.modFe_migs (s : State) (n : Nat) (f : FrontEnd → FrontEnd) : (s.modFe n f).migs = s.migs := rfl
@[simp] theorem State.modFe_sessions (s : State) (n : Nat) (f : FrontEnd → FrontEnd) : (s.modFe n f).sessions = s.sessions := rfl
@[simp] theorem State.modFe_keys (s : State) (n : Nat) (f : FrontEnd → FrontEnd) : (s.modFe n f).keys = s.keys := rfl
@[simp] theorem State.modFe_arb (s : State) (n : Nat) (f : FrontEnd → FrontEnd) : (s.modFe n f).arb = s.arb := rfl
@[simp] theorem State.modFe_budgets (s : State) (n : Nat) (f : FrontEnd → FrontEnd) : (s.modFe n f).budgets = s.budgets := rfl
@[simp] theorem State.modFe_reports (s : State) (n : Nat) (f : FrontEnd → FrontEnd) : (s.modFe n f).reports = s.reports := rfl
@[simp] theorem State.modFe_launchRecs (s : State) (n : Nat) (f : FrontEnd → FrontEnd) : (s.modFe n f).launchRecs = s.launchRecs := rfl
@[simp] theorem State.modFe_links16 (s : State) (n : Nat) (f : FrontEnd → FrontEnd) : (s.modFe n f).links16 = s.links16 := rfl
@[simp] theorem State.modFe_notes (s : State) (n : Nat) (f : FrontEnd → FrontEnd) : (s.modFe n f).notes = s.notes := rfl
@[simp] theorem State.modFe_gated (s : State) (n : Nat) (f : FrontEnd → FrontEnd) : (s.modFe n f).gated = s.gated := rfl
@[simp] theorem State.modFe_answer (s : State) (n : Nat) (f : FrontEnd → FrontEnd) : (s.modFe n f).answer = s.answer := rfl
@[simp] theorem State.modFe_hostStore (s : State) (n : Nat) (f : FrontEnd → FrontEnd) : (s.modFe n f).hostStore = s.hostStore := rfl
@[simp] theorem State.modFe_draws (s : State) (n : Nat) (f : FrontEnd → FrontEnd) : (s.modFe n f).draws = s.draws := rfl

/-! ### State.modRoot -/

@[simp] theorem State.modRoot_core (s : State) (n : Nat) (f : Root → Root) : (s.modRoot n f).core = s.core := rfl
@[simp] theorem State.modRoot_party (s : State) (n : Nat) (f : Root → Root) : (s.modRoot n f).party = s.party := rfl
@[simp] theorem State.modRoot_fe (s : State) (n : Nat) (f : Root → Root) : (s.modRoot n f).fe = s.fe := rfl
@[simp] theorem State.modRoot_agenda (s : State) (n : Nat) (f : Root → Root) : (s.modRoot n f).agenda = s.agenda := rfl
@[simp] theorem State.modRoot_hold (s : State) (n : Nat) (f : Root → Root) : (s.modRoot n f).hold = s.hold := rfl
@[simp] theorem State.modRoot_fresh (s : State) (n : Nat) (f : Root → Root) : (s.modRoot n f).fresh = s.fresh := rfl
@[simp] theorem State.modRoot_fuses (s : State) (n : Nat) (f : Root → Root) : (s.modRoot n f).fuses = s.fuses := rfl
@[simp] theorem State.modRoot_mem (s : State) (n : Nat) (f : Root → Root) : (s.modRoot n f).mem = s.mem := rfl
@[simp] theorem State.modRoot_tags (s : State) (n : Nat) (f : Root → Root) : (s.modRoot n f).tags = s.tags := rfl
@[simp] theorem State.modRoot_poison (s : State) (n : Nat) (f : Root → Root) : (s.modRoot n f).poison = s.poison := rfl
@[simp] theorem State.modRoot_attrs (s : State) (n : Nat) (f : Root → Root) : (s.modRoot n f).attrs = s.attrs := rfl
@[simp] theorem State.modRoot_ctxs (s : State) (n : Nat) (f : Root → Root) : (s.modRoot n f).ctxs = s.ctxs := rfl
@[simp] theorem State.modRoot_cores (s : State) (n : Nat) (f : Root → Root) : (s.modRoot n f).cores = s.cores := rfl
@[simp] theorem State.modRoot_clusters (s : State) (n : Nat) (f : Root → Root) : (s.modRoot n f).clusters = s.clusters := rfl
@[simp] theorem State.modRoot_l2 (s : State) (n : Nat) (f : Root → Root) : (s.modRoot n f).l2 = s.l2 := rfl
@[simp] theorem State.modRoot_side (s : State) (n : Nat) (f : Root → Root) : (s.modRoot n f).side = s.side := rfl
@[simp] theorem State.modRoot_ties (s : State) (n : Nat) (f : Root → Root) : (s.modRoot n f).ties = s.ties := rfl
@[simp] theorem State.modRoot_segs (s : State) (n : Nat) (f : Root → Root) : (s.modRoot n f).segs = s.segs := rfl
@[simp] theorem State.modRoot_code (s : State) (n : Nat) (f : Root → Root) : (s.modRoot n f).code = s.code := rfl
@[simp] theorem State.modRoot_wsets (s : State) (n : Nat) (f : Root → Root) : (s.modRoot n f).wsets = s.wsets := rfl
@[simp] theorem State.modRoot_engines (s : State) (n : Nat) (f : Root → Root) : (s.modRoot n f).engines = s.engines := rfl
@[simp] theorem State.modRoot_snaps (s : State) (n : Nat) (f : Root → Root) : (s.modRoot n f).snaps = s.snaps := rfl
@[simp] theorem State.modRoot_regions (s : State) (n : Nat) (f : Root → Root) : (s.modRoot n f).regions = s.regions := rfl
@[simp] theorem State.modRoot_recs (s : State) (n : Nat) (f : Root → Root) : (s.modRoot n f).recs = s.recs := rfl
@[simp] theorem State.modRoot_gangs (s : State) (n : Nat) (f : Root → Root) : (s.modRoot n f).gangs = s.gangs := rfl
@[simp] theorem State.modRoot_gangNext (s : State) (n : Nat) (f : Root → Root) : (s.modRoot n f).gangNext = s.gangNext := rfl
@[simp] theorem State.modRoot_links (s : State) (n : Nat) (f : Root → Root) : (s.modRoot n f).links = s.links := rfl
@[simp] theorem State.modRoot_troupes (s : State) (n : Nat) (f : Root → Root) : (s.modRoot n f).troupes = s.troupes := rfl
@[simp] theorem State.modRoot_queues (s : State) (n : Nat) (f : Root → Root) : (s.modRoot n f).queues = s.queues := rfl
@[simp] theorem State.modRoot_fes (s : State) (n : Nat) (f : Root → Root) : (s.modRoot n f).fes = s.fes := rfl
@[simp] theorem State.modRoot_requests (s : State) (n : Nat) (f : Root → Root) : (s.modRoot n f).requests = s.requests := rfl
@[simp] theorem State.modRoot_tlbs (s : State) (n : Nat) (f : Root → Root) : (s.modRoot n f).tlbs = s.tlbs := rfl
@[simp] theorem State.modRoot_migs (s : State) (n : Nat) (f : Root → Root) : (s.modRoot n f).migs = s.migs := rfl
@[simp] theorem State.modRoot_sessions (s : State) (n : Nat) (f : Root → Root) : (s.modRoot n f).sessions = s.sessions := rfl
@[simp] theorem State.modRoot_keys (s : State) (n : Nat) (f : Root → Root) : (s.modRoot n f).keys = s.keys := rfl
@[simp] theorem State.modRoot_arb (s : State) (n : Nat) (f : Root → Root) : (s.modRoot n f).arb = s.arb := rfl
@[simp] theorem State.modRoot_budgets (s : State) (n : Nat) (f : Root → Root) : (s.modRoot n f).budgets = s.budgets := rfl
@[simp] theorem State.modRoot_reports (s : State) (n : Nat) (f : Root → Root) : (s.modRoot n f).reports = s.reports := rfl
@[simp] theorem State.modRoot_launchRecs (s : State) (n : Nat) (f : Root → Root) : (s.modRoot n f).launchRecs = s.launchRecs := rfl
@[simp] theorem State.modRoot_links16 (s : State) (n : Nat) (f : Root → Root) : (s.modRoot n f).links16 = s.links16 := rfl
@[simp] theorem State.modRoot_notes (s : State) (n : Nat) (f : Root → Root) : (s.modRoot n f).notes = s.notes := rfl
@[simp] theorem State.modRoot_gated (s : State) (n : Nat) (f : Root → Root) : (s.modRoot n f).gated = s.gated := rfl
@[simp] theorem State.modRoot_answer (s : State) (n : Nat) (f : Root → Root) : (s.modRoot n f).answer = s.answer := rfl
@[simp] theorem State.modRoot_hostStore (s : State) (n : Nat) (f : Root → Root) : (s.modRoot n f).hostStore = s.hostStore := rfl
@[simp] theorem State.modRoot_draws (s : State) (n : Nat) (f : Root → Root) : (s.modRoot n f).draws = s.draws := rfl

/-! ### State.modSession -/

@[simp] theorem State.modSession_core (s : State) (n : Nat) (f : Session → Session) : (s.modSession n f).core = s.core := rfl
@[simp] theorem State.modSession_party (s : State) (n : Nat) (f : Session → Session) : (s.modSession n f).party = s.party := rfl
@[simp] theorem State.modSession_fe (s : State) (n : Nat) (f : Session → Session) : (s.modSession n f).fe = s.fe := rfl
@[simp] theorem State.modSession_agenda (s : State) (n : Nat) (f : Session → Session) : (s.modSession n f).agenda = s.agenda := rfl
@[simp] theorem State.modSession_hold (s : State) (n : Nat) (f : Session → Session) : (s.modSession n f).hold = s.hold := rfl
@[simp] theorem State.modSession_fresh (s : State) (n : Nat) (f : Session → Session) : (s.modSession n f).fresh = s.fresh := rfl
@[simp] theorem State.modSession_fuses (s : State) (n : Nat) (f : Session → Session) : (s.modSession n f).fuses = s.fuses := rfl
@[simp] theorem State.modSession_mem (s : State) (n : Nat) (f : Session → Session) : (s.modSession n f).mem = s.mem := rfl
@[simp] theorem State.modSession_tags (s : State) (n : Nat) (f : Session → Session) : (s.modSession n f).tags = s.tags := rfl
@[simp] theorem State.modSession_poison (s : State) (n : Nat) (f : Session → Session) : (s.modSession n f).poison = s.poison := rfl
@[simp] theorem State.modSession_attrs (s : State) (n : Nat) (f : Session → Session) : (s.modSession n f).attrs = s.attrs := rfl
@[simp] theorem State.modSession_ctxs (s : State) (n : Nat) (f : Session → Session) : (s.modSession n f).ctxs = s.ctxs := rfl
@[simp] theorem State.modSession_cores (s : State) (n : Nat) (f : Session → Session) : (s.modSession n f).cores = s.cores := rfl
@[simp] theorem State.modSession_clusters (s : State) (n : Nat) (f : Session → Session) : (s.modSession n f).clusters = s.clusters := rfl
@[simp] theorem State.modSession_l2 (s : State) (n : Nat) (f : Session → Session) : (s.modSession n f).l2 = s.l2 := rfl
@[simp] theorem State.modSession_side (s : State) (n : Nat) (f : Session → Session) : (s.modSession n f).side = s.side := rfl
@[simp] theorem State.modSession_ties (s : State) (n : Nat) (f : Session → Session) : (s.modSession n f).ties = s.ties := rfl
@[simp] theorem State.modSession_segs (s : State) (n : Nat) (f : Session → Session) : (s.modSession n f).segs = s.segs := rfl
@[simp] theorem State.modSession_code (s : State) (n : Nat) (f : Session → Session) : (s.modSession n f).code = s.code := rfl
@[simp] theorem State.modSession_wsets (s : State) (n : Nat) (f : Session → Session) : (s.modSession n f).wsets = s.wsets := rfl
@[simp] theorem State.modSession_engines (s : State) (n : Nat) (f : Session → Session) : (s.modSession n f).engines = s.engines := rfl
@[simp] theorem State.modSession_snaps (s : State) (n : Nat) (f : Session → Session) : (s.modSession n f).snaps = s.snaps := rfl
@[simp] theorem State.modSession_regions (s : State) (n : Nat) (f : Session → Session) : (s.modSession n f).regions = s.regions := rfl
@[simp] theorem State.modSession_recs (s : State) (n : Nat) (f : Session → Session) : (s.modSession n f).recs = s.recs := rfl
@[simp] theorem State.modSession_gangs (s : State) (n : Nat) (f : Session → Session) : (s.modSession n f).gangs = s.gangs := rfl
@[simp] theorem State.modSession_gangNext (s : State) (n : Nat) (f : Session → Session) : (s.modSession n f).gangNext = s.gangNext := rfl
@[simp] theorem State.modSession_links (s : State) (n : Nat) (f : Session → Session) : (s.modSession n f).links = s.links := rfl
@[simp] theorem State.modSession_troupes (s : State) (n : Nat) (f : Session → Session) : (s.modSession n f).troupes = s.troupes := rfl
@[simp] theorem State.modSession_queues (s : State) (n : Nat) (f : Session → Session) : (s.modSession n f).queues = s.queues := rfl
@[simp] theorem State.modSession_fes (s : State) (n : Nat) (f : Session → Session) : (s.modSession n f).fes = s.fes := rfl
@[simp] theorem State.modSession_roots (s : State) (n : Nat) (f : Session → Session) : (s.modSession n f).roots = s.roots := rfl
@[simp] theorem State.modSession_requests (s : State) (n : Nat) (f : Session → Session) : (s.modSession n f).requests = s.requests := rfl
@[simp] theorem State.modSession_tlbs (s : State) (n : Nat) (f : Session → Session) : (s.modSession n f).tlbs = s.tlbs := rfl
@[simp] theorem State.modSession_migs (s : State) (n : Nat) (f : Session → Session) : (s.modSession n f).migs = s.migs := rfl
@[simp] theorem State.modSession_keys (s : State) (n : Nat) (f : Session → Session) : (s.modSession n f).keys = s.keys := rfl
@[simp] theorem State.modSession_arb (s : State) (n : Nat) (f : Session → Session) : (s.modSession n f).arb = s.arb := rfl
@[simp] theorem State.modSession_budgets (s : State) (n : Nat) (f : Session → Session) : (s.modSession n f).budgets = s.budgets := rfl
@[simp] theorem State.modSession_reports (s : State) (n : Nat) (f : Session → Session) : (s.modSession n f).reports = s.reports := rfl
@[simp] theorem State.modSession_launchRecs (s : State) (n : Nat) (f : Session → Session) : (s.modSession n f).launchRecs = s.launchRecs := rfl
@[simp] theorem State.modSession_links16 (s : State) (n : Nat) (f : Session → Session) : (s.modSession n f).links16 = s.links16 := rfl
@[simp] theorem State.modSession_notes (s : State) (n : Nat) (f : Session → Session) : (s.modSession n f).notes = s.notes := rfl
@[simp] theorem State.modSession_gated (s : State) (n : Nat) (f : Session → Session) : (s.modSession n f).gated = s.gated := rfl
@[simp] theorem State.modSession_answer (s : State) (n : Nat) (f : Session → Session) : (s.modSession n f).answer = s.answer := rfl
@[simp] theorem State.modSession_hostStore (s : State) (n : Nat) (f : Session → Session) : (s.modSession n f).hostStore = s.hostStore := rfl
@[simp] theorem State.modSession_draws (s : State) (n : Nat) (f : Session → Session) : (s.modSession n f).draws = s.draws := rfl

/-! ### State.l2Put -/

@[simp] theorem State.l2Put_core (s : State) (d l : Nat) (x : L2Line) : (s.l2Put d l x).core = s.core := rfl
@[simp] theorem State.l2Put_party (s : State) (d l : Nat) (x : L2Line) : (s.l2Put d l x).party = s.party := rfl
@[simp] theorem State.l2Put_fe (s : State) (d l : Nat) (x : L2Line) : (s.l2Put d l x).fe = s.fe := rfl
@[simp] theorem State.l2Put_agenda (s : State) (d l : Nat) (x : L2Line) : (s.l2Put d l x).agenda = s.agenda := rfl
@[simp] theorem State.l2Put_hold (s : State) (d l : Nat) (x : L2Line) : (s.l2Put d l x).hold = s.hold := rfl
@[simp] theorem State.l2Put_fresh (s : State) (d l : Nat) (x : L2Line) : (s.l2Put d l x).fresh = s.fresh := rfl
@[simp] theorem State.l2Put_fuses (s : State) (d l : Nat) (x : L2Line) : (s.l2Put d l x).fuses = s.fuses := rfl
@[simp] theorem State.l2Put_mem (s : State) (d l : Nat) (x : L2Line) : (s.l2Put d l x).mem = s.mem := rfl
@[simp] theorem State.l2Put_tags (s : State) (d l : Nat) (x : L2Line) : (s.l2Put d l x).tags = s.tags := rfl
@[simp] theorem State.l2Put_poison (s : State) (d l : Nat) (x : L2Line) : (s.l2Put d l x).poison = s.poison := rfl
@[simp] theorem State.l2Put_attrs (s : State) (d l : Nat) (x : L2Line) : (s.l2Put d l x).attrs = s.attrs := rfl
@[simp] theorem State.l2Put_ctxs (s : State) (d l : Nat) (x : L2Line) : (s.l2Put d l x).ctxs = s.ctxs := rfl
@[simp] theorem State.l2Put_cores (s : State) (d l : Nat) (x : L2Line) : (s.l2Put d l x).cores = s.cores := rfl
@[simp] theorem State.l2Put_clusters (s : State) (d l : Nat) (x : L2Line) : (s.l2Put d l x).clusters = s.clusters := rfl
@[simp] theorem State.l2Put_side (s : State) (d l : Nat) (x : L2Line) : (s.l2Put d l x).side = s.side := rfl
@[simp] theorem State.l2Put_ties (s : State) (d l : Nat) (x : L2Line) : (s.l2Put d l x).ties = s.ties := rfl
@[simp] theorem State.l2Put_segs (s : State) (d l : Nat) (x : L2Line) : (s.l2Put d l x).segs = s.segs := rfl
@[simp] theorem State.l2Put_code (s : State) (d l : Nat) (x : L2Line) : (s.l2Put d l x).code = s.code := rfl
@[simp] theorem State.l2Put_wsets (s : State) (d l : Nat) (x : L2Line) : (s.l2Put d l x).wsets = s.wsets := rfl
@[simp] theorem State.l2Put_engines (s : State) (d l : Nat) (x : L2Line) : (s.l2Put d l x).engines = s.engines := rfl
@[simp] theorem State.l2Put_snaps (s : State) (d l : Nat) (x : L2Line) : (s.l2Put d l x).snaps = s.snaps := rfl
@[simp] theorem State.l2Put_regions (s : State) (d l : Nat) (x : L2Line) : (s.l2Put d l x).regions = s.regions := rfl
@[simp] theorem State.l2Put_recs (s : State) (d l : Nat) (x : L2Line) : (s.l2Put d l x).recs = s.recs := rfl
@[simp] theorem State.l2Put_gangs (s : State) (d l : Nat) (x : L2Line) : (s.l2Put d l x).gangs = s.gangs := rfl
@[simp] theorem State.l2Put_gangNext (s : State) (d l : Nat) (x : L2Line) : (s.l2Put d l x).gangNext = s.gangNext := rfl
@[simp] theorem State.l2Put_links (s : State) (d l : Nat) (x : L2Line) : (s.l2Put d l x).links = s.links := rfl
@[simp] theorem State.l2Put_troupes (s : State) (d l : Nat) (x : L2Line) : (s.l2Put d l x).troupes = s.troupes := rfl
@[simp] theorem State.l2Put_queues (s : State) (d l : Nat) (x : L2Line) : (s.l2Put d l x).queues = s.queues := rfl
@[simp] theorem State.l2Put_fes (s : State) (d l : Nat) (x : L2Line) : (s.l2Put d l x).fes = s.fes := rfl
@[simp] theorem State.l2Put_roots (s : State) (d l : Nat) (x : L2Line) : (s.l2Put d l x).roots = s.roots := rfl
@[simp] theorem State.l2Put_requests (s : State) (d l : Nat) (x : L2Line) : (s.l2Put d l x).requests = s.requests := rfl
@[simp] theorem State.l2Put_tlbs (s : State) (d l : Nat) (x : L2Line) : (s.l2Put d l x).tlbs = s.tlbs := rfl
@[simp] theorem State.l2Put_migs (s : State) (d l : Nat) (x : L2Line) : (s.l2Put d l x).migs = s.migs := rfl
@[simp] theorem State.l2Put_sessions (s : State) (d l : Nat) (x : L2Line) : (s.l2Put d l x).sessions = s.sessions := rfl
@[simp] theorem State.l2Put_keys (s : State) (d l : Nat) (x : L2Line) : (s.l2Put d l x).keys = s.keys := rfl
@[simp] theorem State.l2Put_arb (s : State) (d l : Nat) (x : L2Line) : (s.l2Put d l x).arb = s.arb := rfl
@[simp] theorem State.l2Put_budgets (s : State) (d l : Nat) (x : L2Line) : (s.l2Put d l x).budgets = s.budgets := rfl
@[simp] theorem State.l2Put_reports (s : State) (d l : Nat) (x : L2Line) : (s.l2Put d l x).reports = s.reports := rfl
@[simp] theorem State.l2Put_launchRecs (s : State) (d l : Nat) (x : L2Line) : (s.l2Put d l x).launchRecs = s.launchRecs := rfl
@[simp] theorem State.l2Put_links16 (s : State) (d l : Nat) (x : L2Line) : (s.l2Put d l x).links16 = s.links16 := rfl
@[simp] theorem State.l2Put_notes (s : State) (d l : Nat) (x : L2Line) : (s.l2Put d l x).notes = s.notes := rfl
@[simp] theorem State.l2Put_gated (s : State) (d l : Nat) (x : L2Line) : (s.l2Put d l x).gated = s.gated := rfl
@[simp] theorem State.l2Put_answer (s : State) (d l : Nat) (x : L2Line) : (s.l2Put d l x).answer = s.answer := rfl
@[simp] theorem State.l2Put_hostStore (s : State) (d l : Nat) (x : L2Line) : (s.l2Put d l x).hostStore = s.hostStore := rfl
@[simp] theorem State.l2Put_draws (s : State) (d l : Nat) (x : L2Line) : (s.l2Put d l x).draws = s.draws := rfl

/-! ### State.l2Del -/

@[simp] theorem State.l2Del_core (s : State) (d l : Nat) : (s.l2Del d l).core = s.core := rfl
@[simp] theorem State.l2Del_party (s : State) (d l : Nat) : (s.l2Del d l).party = s.party := rfl
@[simp] theorem State.l2Del_fe (s : State) (d l : Nat) : (s.l2Del d l).fe = s.fe := rfl
@[simp] theorem State.l2Del_agenda (s : State) (d l : Nat) : (s.l2Del d l).agenda = s.agenda := rfl
@[simp] theorem State.l2Del_hold (s : State) (d l : Nat) : (s.l2Del d l).hold = s.hold := rfl
@[simp] theorem State.l2Del_fresh (s : State) (d l : Nat) : (s.l2Del d l).fresh = s.fresh := rfl
@[simp] theorem State.l2Del_fuses (s : State) (d l : Nat) : (s.l2Del d l).fuses = s.fuses := rfl
@[simp] theorem State.l2Del_mem (s : State) (d l : Nat) : (s.l2Del d l).mem = s.mem := rfl
@[simp] theorem State.l2Del_tags (s : State) (d l : Nat) : (s.l2Del d l).tags = s.tags := rfl
@[simp] theorem State.l2Del_poison (s : State) (d l : Nat) : (s.l2Del d l).poison = s.poison := rfl
@[simp] theorem State.l2Del_attrs (s : State) (d l : Nat) : (s.l2Del d l).attrs = s.attrs := rfl
@[simp] theorem State.l2Del_ctxs (s : State) (d l : Nat) : (s.l2Del d l).ctxs = s.ctxs := rfl
@[simp] theorem State.l2Del_cores (s : State) (d l : Nat) : (s.l2Del d l).cores = s.cores := rfl
@[simp] theorem State.l2Del_clusters (s : State) (d l : Nat) : (s.l2Del d l).clusters = s.clusters := rfl
@[simp] theorem State.l2Del_side (s : State) (d l : Nat) : (s.l2Del d l).side = s.side := rfl
@[simp] theorem State.l2Del_ties (s : State) (d l : Nat) : (s.l2Del d l).ties = s.ties := rfl
@[simp] theorem State.l2Del_segs (s : State) (d l : Nat) : (s.l2Del d l).segs = s.segs := rfl
@[simp] theorem State.l2Del_code (s : State) (d l : Nat) : (s.l2Del d l).code = s.code := rfl
@[simp] theorem State.l2Del_wsets (s : State) (d l : Nat) : (s.l2Del d l).wsets = s.wsets := rfl
@[simp] theorem State.l2Del_engines (s : State) (d l : Nat) : (s.l2Del d l).engines = s.engines := rfl
@[simp] theorem State.l2Del_snaps (s : State) (d l : Nat) : (s.l2Del d l).snaps = s.snaps := rfl
@[simp] theorem State.l2Del_regions (s : State) (d l : Nat) : (s.l2Del d l).regions = s.regions := rfl
@[simp] theorem State.l2Del_recs (s : State) (d l : Nat) : (s.l2Del d l).recs = s.recs := rfl
@[simp] theorem State.l2Del_gangs (s : State) (d l : Nat) : (s.l2Del d l).gangs = s.gangs := rfl
@[simp] theorem State.l2Del_gangNext (s : State) (d l : Nat) : (s.l2Del d l).gangNext = s.gangNext := rfl
@[simp] theorem State.l2Del_links (s : State) (d l : Nat) : (s.l2Del d l).links = s.links := rfl
@[simp] theorem State.l2Del_troupes (s : State) (d l : Nat) : (s.l2Del d l).troupes = s.troupes := rfl
@[simp] theorem State.l2Del_queues (s : State) (d l : Nat) : (s.l2Del d l).queues = s.queues := rfl
@[simp] theorem State.l2Del_fes (s : State) (d l : Nat) : (s.l2Del d l).fes = s.fes := rfl
@[simp] theorem State.l2Del_roots (s : State) (d l : Nat) : (s.l2Del d l).roots = s.roots := rfl
@[simp] theorem State.l2Del_requests (s : State) (d l : Nat) : (s.l2Del d l).requests = s.requests := rfl
@[simp] theorem State.l2Del_tlbs (s : State) (d l : Nat) : (s.l2Del d l).tlbs = s.tlbs := rfl
@[simp] theorem State.l2Del_migs (s : State) (d l : Nat) : (s.l2Del d l).migs = s.migs := rfl
@[simp] theorem State.l2Del_sessions (s : State) (d l : Nat) : (s.l2Del d l).sessions = s.sessions := rfl
@[simp] theorem State.l2Del_keys (s : State) (d l : Nat) : (s.l2Del d l).keys = s.keys := rfl
@[simp] theorem State.l2Del_arb (s : State) (d l : Nat) : (s.l2Del d l).arb = s.arb := rfl
@[simp] theorem State.l2Del_budgets (s : State) (d l : Nat) : (s.l2Del d l).budgets = s.budgets := rfl
@[simp] theorem State.l2Del_reports (s : State) (d l : Nat) : (s.l2Del d l).reports = s.reports := rfl
@[simp] theorem State.l2Del_launchRecs (s : State) (d l : Nat) : (s.l2Del d l).launchRecs = s.launchRecs := rfl
@[simp] theorem State.l2Del_links16 (s : State) (d l : Nat) : (s.l2Del d l).links16 = s.links16 := rfl
@[simp] theorem State.l2Del_notes (s : State) (d l : Nat) : (s.l2Del d l).notes = s.notes := rfl
@[simp] theorem State.l2Del_gated (s : State) (d l : Nat) : (s.l2Del d l).gated = s.gated := rfl
@[simp] theorem State.l2Del_answer (s : State) (d l : Nat) : (s.l2Del d l).answer = s.answer := rfl
@[simp] theorem State.l2Del_hostStore (s : State) (d l : Nat) : (s.l2Del d l).hostStore = s.hostStore := rfl
@[simp] theorem State.l2Del_draws (s : State) (d l : Nat) : (s.l2Del d l).draws = s.draws := rfl

/-! ### State.l1Put -/

@[simp] theorem State.l1Put_core (s : State) (k l : Nat) (x : L1Line) : (s.l1Put k l x).core = s.core := rfl
@[simp] theorem State.l1Put_party (s : State) (k l : Nat) (x : L1Line) : (s.l1Put k l x).party = s.party := rfl
@[simp] theorem State.l1Put_fe (s : State) (k l : Nat) (x : L1Line) : (s.l1Put k l x).fe = s.fe := rfl
@[simp] theorem State.l1Put_agenda (s : State) (k l : Nat) (x : L1Line) : (s.l1Put k l x).agenda = s.agenda := rfl
@[simp] theorem State.l1Put_hold (s : State) (k l : Nat) (x : L1Line) : (s.l1Put k l x).hold = s.hold := rfl
@[simp] theorem State.l1Put_fresh (s : State) (k l : Nat) (x : L1Line) : (s.l1Put k l x).fresh = s.fresh := rfl
@[simp] theorem State.l1Put_fuses (s : State) (k l : Nat) (x : L1Line) : (s.l1Put k l x).fuses = s.fuses := rfl
@[simp] theorem State.l1Put_mem (s : State) (k l : Nat) (x : L1Line) : (s.l1Put k l x).mem = s.mem := rfl
@[simp] theorem State.l1Put_tags (s : State) (k l : Nat) (x : L1Line) : (s.l1Put k l x).tags = s.tags := rfl
@[simp] theorem State.l1Put_poison (s : State) (k l : Nat) (x : L1Line) : (s.l1Put k l x).poison = s.poison := rfl
@[simp] theorem State.l1Put_attrs (s : State) (k l : Nat) (x : L1Line) : (s.l1Put k l x).attrs = s.attrs := rfl
@[simp] theorem State.l1Put_ctxs (s : State) (k l : Nat) (x : L1Line) : (s.l1Put k l x).ctxs = s.ctxs := rfl
@[simp] theorem State.l1Put_clusters (s : State) (k l : Nat) (x : L1Line) : (s.l1Put k l x).clusters = s.clusters := rfl
@[simp] theorem State.l1Put_l2 (s : State) (k l : Nat) (x : L1Line) : (s.l1Put k l x).l2 = s.l2 := rfl
@[simp] theorem State.l1Put_side (s : State) (k l : Nat) (x : L1Line) : (s.l1Put k l x).side = s.side := rfl
@[simp] theorem State.l1Put_ties (s : State) (k l : Nat) (x : L1Line) : (s.l1Put k l x).ties = s.ties := rfl
@[simp] theorem State.l1Put_segs (s : State) (k l : Nat) (x : L1Line) : (s.l1Put k l x).segs = s.segs := rfl
@[simp] theorem State.l1Put_code (s : State) (k l : Nat) (x : L1Line) : (s.l1Put k l x).code = s.code := rfl
@[simp] theorem State.l1Put_wsets (s : State) (k l : Nat) (x : L1Line) : (s.l1Put k l x).wsets = s.wsets := rfl
@[simp] theorem State.l1Put_engines (s : State) (k l : Nat) (x : L1Line) : (s.l1Put k l x).engines = s.engines := rfl
@[simp] theorem State.l1Put_snaps (s : State) (k l : Nat) (x : L1Line) : (s.l1Put k l x).snaps = s.snaps := rfl
@[simp] theorem State.l1Put_regions (s : State) (k l : Nat) (x : L1Line) : (s.l1Put k l x).regions = s.regions := rfl
@[simp] theorem State.l1Put_recs (s : State) (k l : Nat) (x : L1Line) : (s.l1Put k l x).recs = s.recs := rfl
@[simp] theorem State.l1Put_gangs (s : State) (k l : Nat) (x : L1Line) : (s.l1Put k l x).gangs = s.gangs := rfl
@[simp] theorem State.l1Put_gangNext (s : State) (k l : Nat) (x : L1Line) : (s.l1Put k l x).gangNext = s.gangNext := rfl
@[simp] theorem State.l1Put_links (s : State) (k l : Nat) (x : L1Line) : (s.l1Put k l x).links = s.links := rfl
@[simp] theorem State.l1Put_troupes (s : State) (k l : Nat) (x : L1Line) : (s.l1Put k l x).troupes = s.troupes := rfl
@[simp] theorem State.l1Put_queues (s : State) (k l : Nat) (x : L1Line) : (s.l1Put k l x).queues = s.queues := rfl
@[simp] theorem State.l1Put_fes (s : State) (k l : Nat) (x : L1Line) : (s.l1Put k l x).fes = s.fes := rfl
@[simp] theorem State.l1Put_roots (s : State) (k l : Nat) (x : L1Line) : (s.l1Put k l x).roots = s.roots := rfl
@[simp] theorem State.l1Put_requests (s : State) (k l : Nat) (x : L1Line) : (s.l1Put k l x).requests = s.requests := rfl
@[simp] theorem State.l1Put_tlbs (s : State) (k l : Nat) (x : L1Line) : (s.l1Put k l x).tlbs = s.tlbs := rfl
@[simp] theorem State.l1Put_migs (s : State) (k l : Nat) (x : L1Line) : (s.l1Put k l x).migs = s.migs := rfl
@[simp] theorem State.l1Put_sessions (s : State) (k l : Nat) (x : L1Line) : (s.l1Put k l x).sessions = s.sessions := rfl
@[simp] theorem State.l1Put_keys (s : State) (k l : Nat) (x : L1Line) : (s.l1Put k l x).keys = s.keys := rfl
@[simp] theorem State.l1Put_arb (s : State) (k l : Nat) (x : L1Line) : (s.l1Put k l x).arb = s.arb := rfl
@[simp] theorem State.l1Put_budgets (s : State) (k l : Nat) (x : L1Line) : (s.l1Put k l x).budgets = s.budgets := rfl
@[simp] theorem State.l1Put_reports (s : State) (k l : Nat) (x : L1Line) : (s.l1Put k l x).reports = s.reports := rfl
@[simp] theorem State.l1Put_launchRecs (s : State) (k l : Nat) (x : L1Line) : (s.l1Put k l x).launchRecs = s.launchRecs := rfl
@[simp] theorem State.l1Put_links16 (s : State) (k l : Nat) (x : L1Line) : (s.l1Put k l x).links16 = s.links16 := rfl
@[simp] theorem State.l1Put_notes (s : State) (k l : Nat) (x : L1Line) : (s.l1Put k l x).notes = s.notes := rfl
@[simp] theorem State.l1Put_gated (s : State) (k l : Nat) (x : L1Line) : (s.l1Put k l x).gated = s.gated := rfl
@[simp] theorem State.l1Put_answer (s : State) (k l : Nat) (x : L1Line) : (s.l1Put k l x).answer = s.answer := rfl
@[simp] theorem State.l1Put_hostStore (s : State) (k l : Nat) (x : L1Line) : (s.l1Put k l x).hostStore = s.hostStore := rfl
@[simp] theorem State.l1Put_draws (s : State) (k l : Nat) (x : L1Line) : (s.l1Put k l x).draws = s.draws := rfl

/-! ### State.l1Del -/

@[simp] theorem State.l1Del_core (s : State) (k l : Nat) : (s.l1Del k l).core = s.core := rfl
@[simp] theorem State.l1Del_party (s : State) (k l : Nat) : (s.l1Del k l).party = s.party := rfl
@[simp] theorem State.l1Del_fe (s : State) (k l : Nat) : (s.l1Del k l).fe = s.fe := rfl
@[simp] theorem State.l1Del_agenda (s : State) (k l : Nat) : (s.l1Del k l).agenda = s.agenda := rfl
@[simp] theorem State.l1Del_hold (s : State) (k l : Nat) : (s.l1Del k l).hold = s.hold := rfl
@[simp] theorem State.l1Del_fresh (s : State) (k l : Nat) : (s.l1Del k l).fresh = s.fresh := rfl
@[simp] theorem State.l1Del_fuses (s : State) (k l : Nat) : (s.l1Del k l).fuses = s.fuses := rfl
@[simp] theorem State.l1Del_mem (s : State) (k l : Nat) : (s.l1Del k l).mem = s.mem := rfl
@[simp] theorem State.l1Del_tags (s : State) (k l : Nat) : (s.l1Del k l).tags = s.tags := rfl
@[simp] theorem State.l1Del_poison (s : State) (k l : Nat) : (s.l1Del k l).poison = s.poison := rfl
@[simp] theorem State.l1Del_attrs (s : State) (k l : Nat) : (s.l1Del k l).attrs = s.attrs := rfl
@[simp] theorem State.l1Del_ctxs (s : State) (k l : Nat) : (s.l1Del k l).ctxs = s.ctxs := rfl
@[simp] theorem State.l1Del_clusters (s : State) (k l : Nat) : (s.l1Del k l).clusters = s.clusters := rfl
@[simp] theorem State.l1Del_l2 (s : State) (k l : Nat) : (s.l1Del k l).l2 = s.l2 := rfl
@[simp] theorem State.l1Del_side (s : State) (k l : Nat) : (s.l1Del k l).side = s.side := rfl
@[simp] theorem State.l1Del_ties (s : State) (k l : Nat) : (s.l1Del k l).ties = s.ties := rfl
@[simp] theorem State.l1Del_segs (s : State) (k l : Nat) : (s.l1Del k l).segs = s.segs := rfl
@[simp] theorem State.l1Del_code (s : State) (k l : Nat) : (s.l1Del k l).code = s.code := rfl
@[simp] theorem State.l1Del_wsets (s : State) (k l : Nat) : (s.l1Del k l).wsets = s.wsets := rfl
@[simp] theorem State.l1Del_engines (s : State) (k l : Nat) : (s.l1Del k l).engines = s.engines := rfl
@[simp] theorem State.l1Del_snaps (s : State) (k l : Nat) : (s.l1Del k l).snaps = s.snaps := rfl
@[simp] theorem State.l1Del_regions (s : State) (k l : Nat) : (s.l1Del k l).regions = s.regions := rfl
@[simp] theorem State.l1Del_recs (s : State) (k l : Nat) : (s.l1Del k l).recs = s.recs := rfl
@[simp] theorem State.l1Del_gangs (s : State) (k l : Nat) : (s.l1Del k l).gangs = s.gangs := rfl
@[simp] theorem State.l1Del_gangNext (s : State) (k l : Nat) : (s.l1Del k l).gangNext = s.gangNext := rfl
@[simp] theorem State.l1Del_links (s : State) (k l : Nat) : (s.l1Del k l).links = s.links := rfl
@[simp] theorem State.l1Del_troupes (s : State) (k l : Nat) : (s.l1Del k l).troupes = s.troupes := rfl
@[simp] theorem State.l1Del_queues (s : State) (k l : Nat) : (s.l1Del k l).queues = s.queues := rfl
@[simp] theorem State.l1Del_fes (s : State) (k l : Nat) : (s.l1Del k l).fes = s.fes := rfl
@[simp] theorem State.l1Del_roots (s : State) (k l : Nat) : (s.l1Del k l).roots = s.roots := rfl
@[simp] theorem State.l1Del_requests (s : State) (k l : Nat) : (s.l1Del k l).requests = s.requests := rfl
@[simp] theorem State.l1Del_tlbs (s : State) (k l : Nat) : (s.l1Del k l).tlbs = s.tlbs := rfl
@[simp] theorem State.l1Del_migs (s : State) (k l : Nat) : (s.l1Del k l).migs = s.migs := rfl
@[simp] theorem State.l1Del_sessions (s : State) (k l : Nat) : (s.l1Del k l).sessions = s.sessions := rfl
@[simp] theorem State.l1Del_keys (s : State) (k l : Nat) : (s.l1Del k l).keys = s.keys := rfl
@[simp] theorem State.l1Del_arb (s : State) (k l : Nat) : (s.l1Del k l).arb = s.arb := rfl
@[simp] theorem State.l1Del_budgets (s : State) (k l : Nat) : (s.l1Del k l).budgets = s.budgets := rfl
@[simp] theorem State.l1Del_reports (s : State) (k l : Nat) : (s.l1Del k l).reports = s.reports := rfl
@[simp] theorem State.l1Del_launchRecs (s : State) (k l : Nat) : (s.l1Del k l).launchRecs = s.launchRecs := rfl
@[simp] theorem State.l1Del_links16 (s : State) (k l : Nat) : (s.l1Del k l).links16 = s.links16 := rfl
@[simp] theorem State.l1Del_notes (s : State) (k l : Nat) : (s.l1Del k l).notes = s.notes := rfl
@[simp] theorem State.l1Del_gated (s : State) (k l : Nat) : (s.l1Del k l).gated = s.gated := rfl
@[simp] theorem State.l1Del_answer (s : State) (k l : Nat) : (s.l1Del k l).answer = s.answer := rfl
@[simp] theorem State.l1Del_hostStore (s : State) (k l : Nat) : (s.l1Del k l).hostStore = s.hostStore := rfl
@[simp] theorem State.l1Del_draws (s : State) (k l : Nat) : (s.l1Del k l).draws = s.draws := rfl

/-! ### setPc -/

@[simp] theorem setPc_r (c : Ctx) (p : Word) : (setPc c p).r = c.r := rfl
@[simp] theorem setPc_vr (c : Ctx) (p : Word) : (setPc c p).vr = c.vr := rfl
@[simp] theorem setPc_lk (c : Ctx) (p : Word) : (setPc c p).lk = c.lk := rfl
@[simp] theorem setPc_tsib (c : Ctx) (p : Word) : (setPc c p).tsib = c.tsib := rfl
@[simp] theorem setPc_ras (c : Ctx) (p : Word) : (setPc c p).ras = c.ras := rfl
@[simp] theorem setPc_rasN (c : Ctx) (p : Word) : (setPc c p).rasN = c.rasN := rfl
@[simp] theorem setPc_vqn (c : Ctx) (p : Word) : (setPc c p).vqn = c.vqn := rfl
@[simp] theorem setPc_vq (c : Ctx) (p : Word) : (setPc c p).vq = c.vq := rfl
@[simp] theorem setPc_vlive (c : Ctx) (p : Word) : (setPc c p).vlive = c.vlive := rfl
@[simp] theorem setPc_mx (c : Ctx) (p : Word) : (setPc c p).mx = c.mx := rfl
@[simp] theorem setPc_car (c : Ctx) (p : Word) : (setPc c p).car = c.car := rfl
@[simp] theorem setPc_loader (c : Ctx) (p : Word) : (setPc c p).loader = c.loader := rfl
@[simp] theorem setPc_storer (c : Ctx) (p : Word) : (setPc c p).storer = c.storer := rfl
@[simp] theorem setPc_q (c : Ctx) (p : Word) : (setPc c p).q = c.q := rfl
@[simp] theorem setPc_ss (c : Ctx) (p : Word) : (setPc c p).ss = c.ss := rfl
@[simp] theorem setPc_member (c : Ctx) (p : Word) : (setPc c p).member = c.member := rfl
@[simp] theorem setPc_seg (c : Ctx) (p : Word) : (setPc c p).seg = c.seg := rfl
@[simp] theorem setPc_spec (c : Ctx) (p : Word) : (setPc c p).spec = c.spec := rfl
@[simp] theorem setPc_depth (c : Ctx) (p : Word) : (setPc c p).depth = c.depth := rfl
@[simp] theorem setPc_segId (c : Ctx) (p : Word) : (setPc c p).segId = c.segId := rfl
@[simp] theorem setPc_core (c : Ctx) (p : Word) : (setPc c p).core = c.core := rfl
@[simp] theorem setPc_gang (c : Ctx) (p : Word) : (setPc c p).gang = c.gang := rfl
@[simp] theorem setPc_home (c : Ctx) (p : Word) : (setPc c p).home = c.home := rfl
@[simp] theorem setPc_spsize (c : Ctx) (p : Word) : (setPc c p).spsize = c.spsize := rfl
@[simp] theorem setPc_allot (c : Ctx) (p : Word) : (setPc c p).allot = c.allot := rfl
@[simp] theorem setPc_allotTags (c : Ctx) (p : Word) : (setPc c p).allotTags = c.allotTags := rfl
@[simp] theorem setPc_saved (c : Ctx) (p : Word) : (setPc c p).saved = c.saved := rfl
@[simp] theorem setPc_vsaved (c : Ctx) (p : Word) : (setPc c p).vsaved = c.vsaved := rfl
@[simp] theorem setPc_parked (c : Ctx) (p : Word) : (setPc c p).parked = c.parked := rfl
@[simp] theorem setPc_hit (c : Ctx) (p : Word) : (setPc c p).hit = c.hit := rfl
@[simp] theorem setPc_regrant (c : Ctx) (p : Word) : (setPc c p).regrant = c.regrant := rfl
@[simp] theorem setPc_spin (c : Ctx) (p : Word) : (setPc c p).spin = c.spin := rfl
@[simp] theorem setPc_trap (c : Ctx) (p : Word) : (setPc c p).trap = c.trap := rfl
@[simp] theorem setPc_halt (c : Ctx) (p : Word) : (setPc c p).halt = c.halt := rfl
@[simp] theorem setPc_halting (c : Ctx) (p : Word) : (setPc c p).halting = c.halting := rfl
@[simp] theorem setPc_cancelled (c : Ctx) (p : Word) : (setPc c p).cancelled = c.cancelled := rfl
@[simp] theorem setPc_awaits (c : Ctx) (p : Word) : (setPc c p).awaits = c.awaits := rfl
@[simp] theorem setPc_awaitHalts (c : Ctx) (p : Word) : (setPc c p).awaitHalts = c.awaitHalts := rfl
@[simp] theorem setPc_askers (c : Ctx) (p : Word) : (setPc c p).askers = c.askers := rfl
@[simp] theorem setPc_awaitClose (c : Ctx) (p : Word) : (setPc c p).awaitClose = c.awaitClose := rfl
@[simp] theorem setPc_delivered (c : Ctx) (p : Word) : (setPc c p).delivered = c.delivered := rfl
@[simp] theorem setPc_firstAcq (c : Ctx) (p : Word) : (setPc c p).firstAcq = c.firstAcq := rfl
@[simp] theorem setPc_segPark (c : Ctx) (p : Word) : (setPc c p).segPark = c.segPark := rfl
@[simp] theorem setPc_ending (c : Ctx) (p : Word) : (setPc c p).ending = c.ending := rfl
@[simp] theorem setPc_pruned (c : Ctx) (p : Word) : (setPc c p).pruned = c.pruned := rfl

/-! ### writeC -/

@[simp] theorem writeC_h (c : Ctx) (n : CReg) (x : Cap) : (writeC c n x).h = c.h := rfl
@[simp] theorem writeC_vr (c : Ctx) (n : CReg) (x : Cap) : (writeC c n x).vr = c.vr := rfl
@[simp] theorem writeC_lk (c : Ctx) (n : CReg) (x : Cap) : (writeC c n x).lk = c.lk := rfl
@[simp] theorem writeC_tsib (c : Ctx) (n : CReg) (x : Cap) : (writeC c n x).tsib = c.tsib := rfl
@[simp] theorem writeC_ras (c : Ctx) (n : CReg) (x : Cap) : (writeC c n x).ras = c.ras := rfl
@[simp] theorem writeC_rasN (c : Ctx) (n : CReg) (x : Cap) : (writeC c n x).rasN = c.rasN := rfl
@[simp] theorem writeC_vqn (c : Ctx) (n : CReg) (x : Cap) : (writeC c n x).vqn = c.vqn := rfl
@[simp] theorem writeC_vq (c : Ctx) (n : CReg) (x : Cap) : (writeC c n x).vq = c.vq := rfl
@[simp] theorem writeC_vlive (c : Ctx) (n : CReg) (x : Cap) : (writeC c n x).vlive = c.vlive := rfl
@[simp] theorem writeC_mx (c : Ctx) (n : CReg) (x : Cap) : (writeC c n x).mx = c.mx := rfl
@[simp] theorem writeC_car (c : Ctx) (n : CReg) (x : Cap) : (writeC c n x).car = c.car := rfl
@[simp] theorem writeC_loader (c : Ctx) (n : CReg) (x : Cap) : (writeC c n x).loader = c.loader := rfl
@[simp] theorem writeC_storer (c : Ctx) (n : CReg) (x : Cap) : (writeC c n x).storer = c.storer := rfl
@[simp] theorem writeC_q (c : Ctx) (n : CReg) (x : Cap) : (writeC c n x).q = c.q := rfl
@[simp] theorem writeC_ss (c : Ctx) (n : CReg) (x : Cap) : (writeC c n x).ss = c.ss := rfl
@[simp] theorem writeC_member (c : Ctx) (n : CReg) (x : Cap) : (writeC c n x).member = c.member := rfl
@[simp] theorem writeC_seg (c : Ctx) (n : CReg) (x : Cap) : (writeC c n x).seg = c.seg := rfl
@[simp] theorem writeC_spec (c : Ctx) (n : CReg) (x : Cap) : (writeC c n x).spec = c.spec := rfl
@[simp] theorem writeC_depth (c : Ctx) (n : CReg) (x : Cap) : (writeC c n x).depth = c.depth := rfl
@[simp] theorem writeC_segId (c : Ctx) (n : CReg) (x : Cap) : (writeC c n x).segId = c.segId := rfl
@[simp] theorem writeC_core (c : Ctx) (n : CReg) (x : Cap) : (writeC c n x).core = c.core := rfl
@[simp] theorem writeC_gang (c : Ctx) (n : CReg) (x : Cap) : (writeC c n x).gang = c.gang := rfl
@[simp] theorem writeC_home (c : Ctx) (n : CReg) (x : Cap) : (writeC c n x).home = c.home := rfl
@[simp] theorem writeC_spsize (c : Ctx) (n : CReg) (x : Cap) : (writeC c n x).spsize = c.spsize := rfl
@[simp] theorem writeC_allot (c : Ctx) (n : CReg) (x : Cap) : (writeC c n x).allot = c.allot := rfl
@[simp] theorem writeC_allotTags (c : Ctx) (n : CReg) (x : Cap) : (writeC c n x).allotTags = c.allotTags := rfl
@[simp] theorem writeC_saved (c : Ctx) (n : CReg) (x : Cap) : (writeC c n x).saved = c.saved := rfl
@[simp] theorem writeC_vsaved (c : Ctx) (n : CReg) (x : Cap) : (writeC c n x).vsaved = c.vsaved := rfl
@[simp] theorem writeC_parked (c : Ctx) (n : CReg) (x : Cap) : (writeC c n x).parked = c.parked := rfl
@[simp] theorem writeC_hit (c : Ctx) (n : CReg) (x : Cap) : (writeC c n x).hit = c.hit := rfl
@[simp] theorem writeC_regrant (c : Ctx) (n : CReg) (x : Cap) : (writeC c n x).regrant = c.regrant := rfl
@[simp] theorem writeC_spin (c : Ctx) (n : CReg) (x : Cap) : (writeC c n x).spin = c.spin := rfl
@[simp] theorem writeC_trap (c : Ctx) (n : CReg) (x : Cap) : (writeC c n x).trap = c.trap := rfl
@[simp] theorem writeC_halt (c : Ctx) (n : CReg) (x : Cap) : (writeC c n x).halt = c.halt := rfl
@[simp] theorem writeC_halting (c : Ctx) (n : CReg) (x : Cap) : (writeC c n x).halting = c.halting := rfl
@[simp] theorem writeC_cancelled (c : Ctx) (n : CReg) (x : Cap) : (writeC c n x).cancelled = c.cancelled := rfl
@[simp] theorem writeC_awaits (c : Ctx) (n : CReg) (x : Cap) : (writeC c n x).awaits = c.awaits := rfl
@[simp] theorem writeC_awaitHalts (c : Ctx) (n : CReg) (x : Cap) : (writeC c n x).awaitHalts = c.awaitHalts := rfl
@[simp] theorem writeC_askers (c : Ctx) (n : CReg) (x : Cap) : (writeC c n x).askers = c.askers := rfl
@[simp] theorem writeC_awaitClose (c : Ctx) (n : CReg) (x : Cap) : (writeC c n x).awaitClose = c.awaitClose := rfl
@[simp] theorem writeC_delivered (c : Ctx) (n : CReg) (x : Cap) : (writeC c n x).delivered = c.delivered := rfl
@[simp] theorem writeC_firstAcq (c : Ctx) (n : CReg) (x : Cap) : (writeC c n x).firstAcq = c.firstAcq := rfl
@[simp] theorem writeC_segPark (c : Ctx) (n : CReg) (x : Cap) : (writeC c n x).segPark = c.segPark := rfl
@[simp] theorem writeC_ending (c : Ctx) (n : CReg) (x : Cap) : (writeC c n x).ending = c.ending := rfl
@[simp] theorem writeC_pruned (c : Ctx) (n : CReg) (x : Cap) : (writeC c n x).pruned = c.pruned := rfl

/-! ### writeGq -/

@[simp] theorem writeGq_h (c : Ctx) (n : GReg) (v : Word) (q : Bool) (o : Word × BitVec 16) : (writeGq c n v q o).h = c.h := by unfold writeGq; split <;> rfl
@[simp] theorem writeGq_vr (c : Ctx) (n : GReg) (v : Word) (q : Bool) (o : Word × BitVec 16) : (writeGq c n v q o).vr = c.vr := by unfold writeGq; split <;> rfl
@[simp] theorem writeGq_lk (c : Ctx) (n : GReg) (v : Word) (q : Bool) (o : Word × BitVec 16) : (writeGq c n v q o).lk = c.lk := by unfold writeGq; split <;> rfl
@[simp] theorem writeGq_tsib (c : Ctx) (n : GReg) (v : Word) (q : Bool) (o : Word × BitVec 16) : (writeGq c n v q o).tsib = c.tsib := by unfold writeGq; split <;> rfl
@[simp] theorem writeGq_ras (c : Ctx) (n : GReg) (v : Word) (q : Bool) (o : Word × BitVec 16) : (writeGq c n v q o).ras = c.ras := by unfold writeGq; split <;> rfl
@[simp] theorem writeGq_rasN (c : Ctx) (n : GReg) (v : Word) (q : Bool) (o : Word × BitVec 16) : (writeGq c n v q o).rasN = c.rasN := by unfold writeGq; split <;> rfl
@[simp] theorem writeGq_vqn (c : Ctx) (n : GReg) (v : Word) (q : Bool) (o : Word × BitVec 16) : (writeGq c n v q o).vqn = c.vqn := by unfold writeGq; split <;> rfl
@[simp] theorem writeGq_vq (c : Ctx) (n : GReg) (v : Word) (q : Bool) (o : Word × BitVec 16) : (writeGq c n v q o).vq = c.vq := by unfold writeGq; split <;> rfl
@[simp] theorem writeGq_vlive (c : Ctx) (n : GReg) (v : Word) (q : Bool) (o : Word × BitVec 16) : (writeGq c n v q o).vlive = c.vlive := by unfold writeGq; split <;> rfl
@[simp] theorem writeGq_mx (c : Ctx) (n : GReg) (v : Word) (q : Bool) (o : Word × BitVec 16) : (writeGq c n v q o).mx = c.mx := by unfold writeGq; split <;> rfl
@[simp] theorem writeGq_car (c : Ctx) (n : GReg) (v : Word) (q : Bool) (o : Word × BitVec 16) : (writeGq c n v q o).car = c.car := by unfold writeGq; split <;> rfl
@[simp] theorem writeGq_loader (c : Ctx) (n : GReg) (v : Word) (q : Bool) (o : Word × BitVec 16) : (writeGq c n v q o).loader = c.loader := by unfold writeGq; split <;> rfl
@[simp] theorem writeGq_storer (c : Ctx) (n : GReg) (v : Word) (q : Bool) (o : Word × BitVec 16) : (writeGq c n v q o).storer = c.storer := by unfold writeGq; split <;> rfl
@[simp] theorem writeGq_q (c : Ctx) (n : GReg) (v : Word) (q : Bool) (o : Word × BitVec 16) : (writeGq c n v q o).q = c.q := by unfold writeGq; split <;> rfl
@[simp] theorem writeGq_ss (c : Ctx) (n : GReg) (v : Word) (q : Bool) (o : Word × BitVec 16) : (writeGq c n v q o).ss = c.ss := by unfold writeGq; split <;> rfl
@[simp] theorem writeGq_member (c : Ctx) (n : GReg) (v : Word) (q : Bool) (o : Word × BitVec 16) : (writeGq c n v q o).member = c.member := by unfold writeGq; split <;> rfl
@[simp] theorem writeGq_seg (c : Ctx) (n : GReg) (v : Word) (q : Bool) (o : Word × BitVec 16) : (writeGq c n v q o).seg = c.seg := by unfold writeGq; split <;> rfl
@[simp] theorem writeGq_spec (c : Ctx) (n : GReg) (v : Word) (q : Bool) (o : Word × BitVec 16) : (writeGq c n v q o).spec = c.spec := by unfold writeGq; split <;> rfl
@[simp] theorem writeGq_depth (c : Ctx) (n : GReg) (v : Word) (q : Bool) (o : Word × BitVec 16) : (writeGq c n v q o).depth = c.depth := by unfold writeGq; split <;> rfl
@[simp] theorem writeGq_segId (c : Ctx) (n : GReg) (v : Word) (q : Bool) (o : Word × BitVec 16) : (writeGq c n v q o).segId = c.segId := by unfold writeGq; split <;> rfl
@[simp] theorem writeGq_core (c : Ctx) (n : GReg) (v : Word) (q : Bool) (o : Word × BitVec 16) : (writeGq c n v q o).core = c.core := by unfold writeGq; split <;> rfl
@[simp] theorem writeGq_gang (c : Ctx) (n : GReg) (v : Word) (q : Bool) (o : Word × BitVec 16) : (writeGq c n v q o).gang = c.gang := by unfold writeGq; split <;> rfl
@[simp] theorem writeGq_home (c : Ctx) (n : GReg) (v : Word) (q : Bool) (o : Word × BitVec 16) : (writeGq c n v q o).home = c.home := by unfold writeGq; split <;> rfl
@[simp] theorem writeGq_spsize (c : Ctx) (n : GReg) (v : Word) (q : Bool) (o : Word × BitVec 16) : (writeGq c n v q o).spsize = c.spsize := by unfold writeGq; split <;> rfl
@[simp] theorem writeGq_allot (c : Ctx) (n : GReg) (v : Word) (q : Bool) (o : Word × BitVec 16) : (writeGq c n v q o).allot = c.allot := by unfold writeGq; split <;> rfl
@[simp] theorem writeGq_allotTags (c : Ctx) (n : GReg) (v : Word) (q : Bool) (o : Word × BitVec 16) : (writeGq c n v q o).allotTags = c.allotTags := by unfold writeGq; split <;> rfl
@[simp] theorem writeGq_saved (c : Ctx) (n : GReg) (v : Word) (q : Bool) (o : Word × BitVec 16) : (writeGq c n v q o).saved = c.saved := by unfold writeGq; split <;> rfl
@[simp] theorem writeGq_vsaved (c : Ctx) (n : GReg) (v : Word) (q : Bool) (o : Word × BitVec 16) : (writeGq c n v q o).vsaved = c.vsaved := by unfold writeGq; split <;> rfl
@[simp] theorem writeGq_parked (c : Ctx) (n : GReg) (v : Word) (q : Bool) (o : Word × BitVec 16) : (writeGq c n v q o).parked = c.parked := by unfold writeGq; split <;> rfl
@[simp] theorem writeGq_hit (c : Ctx) (n : GReg) (v : Word) (q : Bool) (o : Word × BitVec 16) : (writeGq c n v q o).hit = c.hit := by unfold writeGq; split <;> rfl
@[simp] theorem writeGq_regrant (c : Ctx) (n : GReg) (v : Word) (q : Bool) (o : Word × BitVec 16) : (writeGq c n v q o).regrant = c.regrant := by unfold writeGq; split <;> rfl
@[simp] theorem writeGq_spin (c : Ctx) (n : GReg) (v : Word) (q : Bool) (o : Word × BitVec 16) : (writeGq c n v q o).spin = c.spin := by unfold writeGq; split <;> rfl
@[simp] theorem writeGq_trap (c : Ctx) (n : GReg) (v : Word) (q : Bool) (o : Word × BitVec 16) : (writeGq c n v q o).trap = c.trap := by unfold writeGq; split <;> rfl
@[simp] theorem writeGq_halt (c : Ctx) (n : GReg) (v : Word) (q : Bool) (o : Word × BitVec 16) : (writeGq c n v q o).halt = c.halt := by unfold writeGq; split <;> rfl
@[simp] theorem writeGq_halting (c : Ctx) (n : GReg) (v : Word) (q : Bool) (o : Word × BitVec 16) : (writeGq c n v q o).halting = c.halting := by unfold writeGq; split <;> rfl
@[simp] theorem writeGq_cancelled (c : Ctx) (n : GReg) (v : Word) (q : Bool) (o : Word × BitVec 16) : (writeGq c n v q o).cancelled = c.cancelled := by unfold writeGq; split <;> rfl
@[simp] theorem writeGq_awaits (c : Ctx) (n : GReg) (v : Word) (q : Bool) (o : Word × BitVec 16) : (writeGq c n v q o).awaits = c.awaits := by unfold writeGq; split <;> rfl
@[simp] theorem writeGq_awaitHalts (c : Ctx) (n : GReg) (v : Word) (q : Bool) (o : Word × BitVec 16) : (writeGq c n v q o).awaitHalts = c.awaitHalts := by unfold writeGq; split <;> rfl
@[simp] theorem writeGq_askers (c : Ctx) (n : GReg) (v : Word) (q : Bool) (o : Word × BitVec 16) : (writeGq c n v q o).askers = c.askers := by unfold writeGq; split <;> rfl
@[simp] theorem writeGq_awaitClose (c : Ctx) (n : GReg) (v : Word) (q : Bool) (o : Word × BitVec 16) : (writeGq c n v q o).awaitClose = c.awaitClose := by unfold writeGq; split <;> rfl
@[simp] theorem writeGq_delivered (c : Ctx) (n : GReg) (v : Word) (q : Bool) (o : Word × BitVec 16) : (writeGq c n v q o).delivered = c.delivered := by unfold writeGq; split <;> rfl
@[simp] theorem writeGq_firstAcq (c : Ctx) (n : GReg) (v : Word) (q : Bool) (o : Word × BitVec 16) : (writeGq c n v q o).firstAcq = c.firstAcq := by unfold writeGq; split <;> rfl
@[simp] theorem writeGq_segPark (c : Ctx) (n : GReg) (v : Word) (q : Bool) (o : Word × BitVec 16) : (writeGq c n v q o).segPark = c.segPark := by unfold writeGq; split <;> rfl
@[simp] theorem writeGq_ending (c : Ctx) (n : GReg) (v : Word) (q : Bool) (o : Word × BitVec 16) : (writeGq c n v q o).ending = c.ending := by unfold writeGq; split <;> rfl
@[simp] theorem writeGq_pruned (c : Ctx) (n : GReg) (v : Word) (q : Bool) (o : Word × BitVec 16) : (writeGq c n v q o).pruned = c.pruned := by unfold writeGq; split <;> rfl

/-! ### writeG -/

@[simp] theorem writeG_h (c : Ctx) (n : GReg) (v : Word) : (writeG c n v).h = c.h := by unfold writeG writeGq; split <;> rfl
@[simp] theorem writeG_vr (c : Ctx) (n : GReg) (v : Word) : (writeG c n v).vr = c.vr := by unfold writeG writeGq; split <;> rfl
@[simp] theorem writeG_lk (c : Ctx) (n : GReg) (v : Word) : (writeG c n v).lk = c.lk := by unfold writeG writeGq; split <;> rfl
@[simp] theorem writeG_tsib (c : Ctx) (n : GReg) (v : Word) : (writeG c n v).tsib = c.tsib := by unfold writeG writeGq; split <;> rfl
@[simp] theorem writeG_ras (c : Ctx) (n : GReg) (v : Word) : (writeG c n v).ras = c.ras := by unfold writeG writeGq; split <;> rfl
@[simp] theorem writeG_rasN (c : Ctx) (n : GReg) (v : Word) : (writeG c n v).rasN = c.rasN := by unfold writeG writeGq; split <;> rfl
@[simp] theorem writeG_vqn (c : Ctx) (n : GReg) (v : Word) : (writeG c n v).vqn = c.vqn := by unfold writeG writeGq; split <;> rfl
@[simp] theorem writeG_vq (c : Ctx) (n : GReg) (v : Word) : (writeG c n v).vq = c.vq := by unfold writeG writeGq; split <;> rfl
@[simp] theorem writeG_vlive (c : Ctx) (n : GReg) (v : Word) : (writeG c n v).vlive = c.vlive := by unfold writeG writeGq; split <;> rfl
@[simp] theorem writeG_mx (c : Ctx) (n : GReg) (v : Word) : (writeG c n v).mx = c.mx := by unfold writeG writeGq; split <;> rfl
@[simp] theorem writeG_car (c : Ctx) (n : GReg) (v : Word) : (writeG c n v).car = c.car := by unfold writeG writeGq; split <;> rfl
@[simp] theorem writeG_loader (c : Ctx) (n : GReg) (v : Word) : (writeG c n v).loader = c.loader := by unfold writeG writeGq; split <;> rfl
@[simp] theorem writeG_storer (c : Ctx) (n : GReg) (v : Word) : (writeG c n v).storer = c.storer := by unfold writeG writeGq; split <;> rfl
@[simp] theorem writeG_q (c : Ctx) (n : GReg) (v : Word) : (writeG c n v).q = c.q := by unfold writeG writeGq; split <;> rfl
@[simp] theorem writeG_ss (c : Ctx) (n : GReg) (v : Word) : (writeG c n v).ss = c.ss := by unfold writeG writeGq; split <;> rfl
@[simp] theorem writeG_member (c : Ctx) (n : GReg) (v : Word) : (writeG c n v).member = c.member := by unfold writeG writeGq; split <;> rfl
@[simp] theorem writeG_seg (c : Ctx) (n : GReg) (v : Word) : (writeG c n v).seg = c.seg := by unfold writeG writeGq; split <;> rfl
@[simp] theorem writeG_spec (c : Ctx) (n : GReg) (v : Word) : (writeG c n v).spec = c.spec := by unfold writeG writeGq; split <;> rfl
@[simp] theorem writeG_depth (c : Ctx) (n : GReg) (v : Word) : (writeG c n v).depth = c.depth := by unfold writeG writeGq; split <;> rfl
@[simp] theorem writeG_segId (c : Ctx) (n : GReg) (v : Word) : (writeG c n v).segId = c.segId := by unfold writeG writeGq; split <;> rfl
@[simp] theorem writeG_core (c : Ctx) (n : GReg) (v : Word) : (writeG c n v).core = c.core := by unfold writeG writeGq; split <;> rfl
@[simp] theorem writeG_gang (c : Ctx) (n : GReg) (v : Word) : (writeG c n v).gang = c.gang := by unfold writeG writeGq; split <;> rfl
@[simp] theorem writeG_home (c : Ctx) (n : GReg) (v : Word) : (writeG c n v).home = c.home := by unfold writeG writeGq; split <;> rfl
@[simp] theorem writeG_spsize (c : Ctx) (n : GReg) (v : Word) : (writeG c n v).spsize = c.spsize := by unfold writeG writeGq; split <;> rfl
@[simp] theorem writeG_allot (c : Ctx) (n : GReg) (v : Word) : (writeG c n v).allot = c.allot := by unfold writeG writeGq; split <;> rfl
@[simp] theorem writeG_allotTags (c : Ctx) (n : GReg) (v : Word) : (writeG c n v).allotTags = c.allotTags := by unfold writeG writeGq; split <;> rfl
@[simp] theorem writeG_saved (c : Ctx) (n : GReg) (v : Word) : (writeG c n v).saved = c.saved := by unfold writeG writeGq; split <;> rfl
@[simp] theorem writeG_vsaved (c : Ctx) (n : GReg) (v : Word) : (writeG c n v).vsaved = c.vsaved := by unfold writeG writeGq; split <;> rfl
@[simp] theorem writeG_parked (c : Ctx) (n : GReg) (v : Word) : (writeG c n v).parked = c.parked := by unfold writeG writeGq; split <;> rfl
@[simp] theorem writeG_hit (c : Ctx) (n : GReg) (v : Word) : (writeG c n v).hit = c.hit := by unfold writeG writeGq; split <;> rfl
@[simp] theorem writeG_regrant (c : Ctx) (n : GReg) (v : Word) : (writeG c n v).regrant = c.regrant := by unfold writeG writeGq; split <;> rfl
@[simp] theorem writeG_spin (c : Ctx) (n : GReg) (v : Word) : (writeG c n v).spin = c.spin := by unfold writeG writeGq; split <;> rfl
@[simp] theorem writeG_trap (c : Ctx) (n : GReg) (v : Word) : (writeG c n v).trap = c.trap := by unfold writeG writeGq; split <;> rfl
@[simp] theorem writeG_halt (c : Ctx) (n : GReg) (v : Word) : (writeG c n v).halt = c.halt := by unfold writeG writeGq; split <;> rfl
@[simp] theorem writeG_halting (c : Ctx) (n : GReg) (v : Word) : (writeG c n v).halting = c.halting := by unfold writeG writeGq; split <;> rfl
@[simp] theorem writeG_cancelled (c : Ctx) (n : GReg) (v : Word) : (writeG c n v).cancelled = c.cancelled := by unfold writeG writeGq; split <;> rfl
@[simp] theorem writeG_awaits (c : Ctx) (n : GReg) (v : Word) : (writeG c n v).awaits = c.awaits := by unfold writeG writeGq; split <;> rfl
@[simp] theorem writeG_awaitHalts (c : Ctx) (n : GReg) (v : Word) : (writeG c n v).awaitHalts = c.awaitHalts := by unfold writeG writeGq; split <;> rfl
@[simp] theorem writeG_askers (c : Ctx) (n : GReg) (v : Word) : (writeG c n v).askers = c.askers := by unfold writeG writeGq; split <;> rfl
@[simp] theorem writeG_awaitClose (c : Ctx) (n : GReg) (v : Word) : (writeG c n v).awaitClose = c.awaitClose := by unfold writeG writeGq; split <;> rfl
@[simp] theorem writeG_delivered (c : Ctx) (n : GReg) (v : Word) : (writeG c n v).delivered = c.delivered := by unfold writeG writeGq; split <;> rfl
@[simp] theorem writeG_firstAcq (c : Ctx) (n : GReg) (v : Word) : (writeG c n v).firstAcq = c.firstAcq := by unfold writeG writeGq; split <;> rfl
@[simp] theorem writeG_segPark (c : Ctx) (n : GReg) (v : Word) : (writeG c n v).segPark = c.segPark := by unfold writeG writeGq; split <;> rfl
@[simp] theorem writeG_ending (c : Ctx) (n : GReg) (v : Word) : (writeG c n v).ending = c.ending := by unfold writeG writeGq; split <;> rfl
@[simp] theorem writeG_pruned (c : Ctx) (n : GReg) (v : Word) : (writeG c n v).pruned = c.pruned := by unfold writeG writeGq; split <;> rfl

/-! ### modRoust -/

@[simp] theorem modRoust_h (c : Ctx) (b : Bool) (f : Roustabout → Roustabout) : (modRoust c b f).h = c.h := by unfold modRoust; split <;> rfl
@[simp] theorem modRoust_r (c : Ctx) (b : Bool) (f : Roustabout → Roustabout) : (modRoust c b f).r = c.r := by unfold modRoust; split <;> rfl
@[simp] theorem modRoust_vr (c : Ctx) (b : Bool) (f : Roustabout → Roustabout) : (modRoust c b f).vr = c.vr := by unfold modRoust; split <;> rfl
@[simp] theorem modRoust_lk (c : Ctx) (b : Bool) (f : Roustabout → Roustabout) : (modRoust c b f).lk = c.lk := by unfold modRoust; split <;> rfl
@[simp] theorem modRoust_tsib (c : Ctx) (b : Bool) (f : Roustabout → Roustabout) : (modRoust c b f).tsib = c.tsib := by unfold modRoust; split <;> rfl
@[simp] theorem modRoust_ras (c : Ctx) (b : Bool) (f : Roustabout → Roustabout) : (modRoust c b f).ras = c.ras := by unfold modRoust; split <;> rfl
@[simp] theorem modRoust_rasN (c : Ctx) (b : Bool) (f : Roustabout → Roustabout) : (modRoust c b f).rasN = c.rasN := by unfold modRoust; split <;> rfl
@[simp] theorem modRoust_vqn (c : Ctx) (b : Bool) (f : Roustabout → Roustabout) : (modRoust c b f).vqn = c.vqn := by unfold modRoust; split <;> rfl
@[simp] theorem modRoust_vq (c : Ctx) (b : Bool) (f : Roustabout → Roustabout) : (modRoust c b f).vq = c.vq := by unfold modRoust; split <;> rfl
@[simp] theorem modRoust_vlive (c : Ctx) (b : Bool) (f : Roustabout → Roustabout) : (modRoust c b f).vlive = c.vlive := by unfold modRoust; split <;> rfl
@[simp] theorem modRoust_mx (c : Ctx) (b : Bool) (f : Roustabout → Roustabout) : (modRoust c b f).mx = c.mx := by unfold modRoust; split <;> rfl
@[simp] theorem modRoust_car (c : Ctx) (b : Bool) (f : Roustabout → Roustabout) : (modRoust c b f).car = c.car := by unfold modRoust; split <;> rfl
@[simp] theorem modRoust_q (c : Ctx) (b : Bool) (f : Roustabout → Roustabout) : (modRoust c b f).q = c.q := by unfold modRoust; split <;> rfl
@[simp] theorem modRoust_ss (c : Ctx) (b : Bool) (f : Roustabout → Roustabout) : (modRoust c b f).ss = c.ss := by unfold modRoust; split <;> rfl
@[simp] theorem modRoust_member (c : Ctx) (b : Bool) (f : Roustabout → Roustabout) : (modRoust c b f).member = c.member := by unfold modRoust; split <;> rfl
@[simp] theorem modRoust_seg (c : Ctx) (b : Bool) (f : Roustabout → Roustabout) : (modRoust c b f).seg = c.seg := by unfold modRoust; split <;> rfl
@[simp] theorem modRoust_spec (c : Ctx) (b : Bool) (f : Roustabout → Roustabout) : (modRoust c b f).spec = c.spec := by unfold modRoust; split <;> rfl
@[simp] theorem modRoust_depth (c : Ctx) (b : Bool) (f : Roustabout → Roustabout) : (modRoust c b f).depth = c.depth := by unfold modRoust; split <;> rfl
@[simp] theorem modRoust_segId (c : Ctx) (b : Bool) (f : Roustabout → Roustabout) : (modRoust c b f).segId = c.segId := by unfold modRoust; split <;> rfl
@[simp] theorem modRoust_core (c : Ctx) (b : Bool) (f : Roustabout → Roustabout) : (modRoust c b f).core = c.core := by unfold modRoust; split <;> rfl
@[simp] theorem modRoust_gang (c : Ctx) (b : Bool) (f : Roustabout → Roustabout) : (modRoust c b f).gang = c.gang := by unfold modRoust; split <;> rfl
@[simp] theorem modRoust_home (c : Ctx) (b : Bool) (f : Roustabout → Roustabout) : (modRoust c b f).home = c.home := by unfold modRoust; split <;> rfl
@[simp] theorem modRoust_spsize (c : Ctx) (b : Bool) (f : Roustabout → Roustabout) : (modRoust c b f).spsize = c.spsize := by unfold modRoust; split <;> rfl
@[simp] theorem modRoust_allot (c : Ctx) (b : Bool) (f : Roustabout → Roustabout) : (modRoust c b f).allot = c.allot := by unfold modRoust; split <;> rfl
@[simp] theorem modRoust_allotTags (c : Ctx) (b : Bool) (f : Roustabout → Roustabout) : (modRoust c b f).allotTags = c.allotTags := by unfold modRoust; split <;> rfl
@[simp] theorem modRoust_saved (c : Ctx) (b : Bool) (f : Roustabout → Roustabout) : (modRoust c b f).saved = c.saved := by unfold modRoust; split <;> rfl
@[simp] theorem modRoust_vsaved (c : Ctx) (b : Bool) (f : Roustabout → Roustabout) : (modRoust c b f).vsaved = c.vsaved := by unfold modRoust; split <;> rfl
@[simp] theorem modRoust_parked (c : Ctx) (b : Bool) (f : Roustabout → Roustabout) : (modRoust c b f).parked = c.parked := by unfold modRoust; split <;> rfl
@[simp] theorem modRoust_hit (c : Ctx) (b : Bool) (f : Roustabout → Roustabout) : (modRoust c b f).hit = c.hit := by unfold modRoust; split <;> rfl
@[simp] theorem modRoust_regrant (c : Ctx) (b : Bool) (f : Roustabout → Roustabout) : (modRoust c b f).regrant = c.regrant := by unfold modRoust; split <;> rfl
@[simp] theorem modRoust_spin (c : Ctx) (b : Bool) (f : Roustabout → Roustabout) : (modRoust c b f).spin = c.spin := by unfold modRoust; split <;> rfl
@[simp] theorem modRoust_trap (c : Ctx) (b : Bool) (f : Roustabout → Roustabout) : (modRoust c b f).trap = c.trap := by unfold modRoust; split <;> rfl
@[simp] theorem modRoust_halt (c : Ctx) (b : Bool) (f : Roustabout → Roustabout) : (modRoust c b f).halt = c.halt := by unfold modRoust; split <;> rfl
@[simp] theorem modRoust_halting (c : Ctx) (b : Bool) (f : Roustabout → Roustabout) : (modRoust c b f).halting = c.halting := by unfold modRoust; split <;> rfl
@[simp] theorem modRoust_cancelled (c : Ctx) (b : Bool) (f : Roustabout → Roustabout) : (modRoust c b f).cancelled = c.cancelled := by unfold modRoust; split <;> rfl
@[simp] theorem modRoust_awaits (c : Ctx) (b : Bool) (f : Roustabout → Roustabout) : (modRoust c b f).awaits = c.awaits := by unfold modRoust; split <;> rfl
@[simp] theorem modRoust_awaitHalts (c : Ctx) (b : Bool) (f : Roustabout → Roustabout) : (modRoust c b f).awaitHalts = c.awaitHalts := by unfold modRoust; split <;> rfl
@[simp] theorem modRoust_askers (c : Ctx) (b : Bool) (f : Roustabout → Roustabout) : (modRoust c b f).askers = c.askers := by unfold modRoust; split <;> rfl
@[simp] theorem modRoust_awaitClose (c : Ctx) (b : Bool) (f : Roustabout → Roustabout) : (modRoust c b f).awaitClose = c.awaitClose := by unfold modRoust; split <;> rfl
@[simp] theorem modRoust_delivered (c : Ctx) (b : Bool) (f : Roustabout → Roustabout) : (modRoust c b f).delivered = c.delivered := by unfold modRoust; split <;> rfl
@[simp] theorem modRoust_firstAcq (c : Ctx) (b : Bool) (f : Roustabout → Roustabout) : (modRoust c b f).firstAcq = c.firstAcq := by unfold modRoust; split <;> rfl
@[simp] theorem modRoust_segPark (c : Ctx) (b : Bool) (f : Roustabout → Roustabout) : (modRoust c b f).segPark = c.segPark := by unfold modRoust; split <;> rfl
@[simp] theorem modRoust_ending (c : Ctx) (b : Bool) (f : Roustabout → Roustabout) : (modRoust c b f).ending = c.ending := by unfold modRoust; split <;> rfl
@[simp] theorem modRoust_pruned (c : Ctx) (b : Bool) (f : Roustabout → Roustabout) : (modRoust c b f).pruned = c.pruned := by unfold modRoust; split <;> rfl

end Sys2Proof.Machine
end

