-- ==== Sys2Proof/Laws/Tables.lean ====
section
/-! SUPPORT. Sparse tables, and the parts of the state by number: an entry reads as last set, and others as before. -/

set_option Elab.async false

namespace Sys2Proof.Machine

/-! ### Tables -/

@[simp] theorem lookupKey_insertKey_self {α : Type} (k : Nat) (v : α) (l : List (Nat × α)) :
    lookupKey k (insertKey k v l) = some v := by
  induction l with
  | nil => simp [insertKey, lookupKey]
  | cons p rest ih =>
    obtain ⟨k', v'⟩ := p
    simp only [insertKey]
    split
    · simp [lookupKey]
    · split
      · simp [lookupKey]
      · simp_all [lookupKey]

theorem lookupKey_insertKey_ne {α : Type} {j k : Nat} (h : j ≠ k) (v : α) (l : List (Nat × α)) :
    lookupKey j (insertKey k v l) = lookupKey j l := by
  induction l with
  | nil => simp [insertKey, lookupKey, h]
  | cons p rest ih =>
    obtain ⟨k', v'⟩ := p
    simp only [insertKey]
    split
    · simp [lookupKey, h]
    · split
      · simp_all [lookupKey]
      · simp [lookupKey, ih]

theorem lookupKey_insertKey {α : Type} (j k : Nat) (v : α) (l : List (Nat × α)) :
    lookupKey j (insertKey k v l) = if j = k then some v else lookupKey j l := by
  split
  · subst_vars; simp
  · exact lookupKey_insertKey_ne ‹_› v l

@[simp] theorem insertKey_insertKey_self {α : Type} (k : Nat) (v w : α) (l : List (Nat × α)) :
    insertKey k v (insertKey k w l) = insertKey k v l := by
  induction l with
  | nil => simp [insertKey]
  | cons p rest ih =>
    obtain ⟨k', v'⟩ := p
    simp only [insertKey]
    split
    · simp [insertKey]
    · split
      · simp [insertKey]
      · simp_all [insertKey]

@[simp] theorem lookupKey_eraseKey_self {α : Type} (k : Nat) (l : List (Nat × α)) : lookupKey k (eraseKey k l) = none := by
  induction l with
  | nil => rfl
  | cons p rest ih =>
    obtain ⟨k', v'⟩ := p
    by_cases h : k' = k
    · simpa [eraseKey, h] using ih
    · simpa [eraseKey, h, lookupKey, Ne.symm h] using ih

theorem lookupKey_eraseKey_ne {α : Type} {j k : Nat} (h : j ≠ k) (l : List (Nat × α)) :
    lookupKey j (eraseKey k l) = lookupKey j l := by
  induction l with
  | nil => rfl
  | cons p rest ih =>
    obtain ⟨k', v'⟩ := p
    by_cases hk : k' = k
    · subst hk; simpa [eraseKey, lookupKey, h] using ih
    · simp only [eraseKey] at ih
      simp [eraseKey, hk, lookupKey, ih]

theorem lookupKey_eraseKey {α : Type} (j k : Nat) (l : List (Nat × α)) :
    lookupKey j (eraseKey k l) = if j = k then none else lookupKey j l := by
  split
  · subst_vars; simp
  · exact lookupKey_eraseKey_ne ‹_› l

/-! ### Contexts -/

@[simp] theorem State.ctxQ_setCtx_self (s : State) (n : Nat) (c : Ctx) : (s.setCtx n c).ctx? n = some c :=
  lookupKey_insertKey_self n c s.ctxs

theorem State.ctxQ_setCtx_ne (s : State) {m n : Nat} (h : m ≠ n) (c : Ctx) : (s.setCtx n c).ctx? m = s.ctx? m :=
  lookupKey_insertKey_ne h c s.ctxs

@[simp] theorem State.ctxAt_setCtx_self (s : State) (n : Nat) (c : Ctx) : (s.setCtx n c).ctxAt n = c := by
  simp [State.ctxAt]

theorem State.ctxAt_setCtx_ne (s : State) {m n : Nat} (h : m ≠ n) (c : Ctx) : (s.setCtx n c).ctxAt m = s.ctxAt m := by
  simp [State.ctxAt, State.ctxQ_setCtx_ne s h]

@[simp] theorem State.ctxAt_modCtx_self (s : State) (n : Nat) (f : Ctx → Ctx) : (s.modCtx n f).ctxAt n = f (s.ctxAt n) := by
  simp [State.modCtx]

theorem State.ctxAt_modCtx_ne (s : State) {m n : Nat} (h : m ≠ n) (f : Ctx → Ctx) :
    (s.modCtx n f).ctxAt m = s.ctxAt m := s.ctxAt_setCtx_ne h _

@[simp] theorem State.setCtx_setCtx_self (s : State) (n : Nat) (c d : Ctx) :
    (s.setCtx n c).setCtx n d = s.setCtx n d := by
  simp [State.setCtx]

@[simp] theorem State.modCtx_modCtx_self (s : State) (n : Nat) (f g : Ctx → Ctx) :
    (s.modCtx n f).modCtx n g = s.modCtx n (fun c => g (f c)) := by
  simp [State.modCtx]

@[simp] theorem State.slot_modCtx (s : State) (n : Nat) (f : Ctx → Ctx) : (s.modCtx n f).slot = s.slot := rfl

@[simp] theorem State.slot_modCur (s : State) (f : Ctx → Ctx) : (s.modCur f).slot = s.slot := rfl

@[simp] theorem State.slot_setCtx (s : State) (n : Nat) (c : Ctx) : (s.setCtx n c).slot = s.slot := rfl

@[simp] theorem State.cur_modCur (s : State) (f : Ctx → Ctx) : (s.modCur f).cur = f s.cur := by
  simp only [State.cur, State.slot_modCur]
  simp [State.modCur]

@[simp] theorem State.cur_setCtx_slot (s : State) (c : Ctx) : (s.setCtx s.slot c).cur = c := by
  simp [State.cur]

@[simp] theorem State.modCur_modCur (s : State) (f g : Ctx → Ctx) :
    (s.modCur f).modCur g = s.modCur (fun c => g (f c)) := by
  simp only [State.modCur, State.slot_modCtx, State.modCtx_modCtx_self]

theorem State.modCur_eq_setCtx (s : State) (f : Ctx → Ctx) : s.modCur f = s.setCtx s.slot (f s.cur) := rfl

/-! ### The other parts by number -/

@[simp] theorem State.coreAt_modCore_self (s : State) (k : Nat) (f : Core → Core) :
    (s.modCore k f).coreAt k = f (s.coreAt k) := by
  simp [State.modCore, State.coreAt]

theorem State.coreAt_modCore_ne (s : State) {j k : Nat} (h : j ≠ k) (f : Core → Core) :
    (s.modCore k f).coreAt j = s.coreAt j := by
  simp [State.modCore, State.coreAt, lookupKey_insertKey_ne h]

@[simp] theorem State.clusterAt_modCluster_self (s : State) (k : Nat) (f : Cluster → Cluster) :
    (s.modCluster k f).clusterAt k = f (s.clusterAt k) := by
  simp [State.modCluster, State.clusterAt]

@[simp] theorem State.regionAt_modRegion_self (s : State) (k : Nat) (f : Region → Region) :
    (s.modRegion k f).regionAt k = f (s.regionAt k) := by
  simp [State.modRegion, State.regionAt]

theorem State.regionAt_modRegion_ne (s : State) {j k : Nat} (h : j ≠ k) (f : Region → Region) :
    (s.modRegion k f).regionAt j = s.regionAt j := by
  simp [State.modRegion, State.regionAt, lookupKey_insertKey_ne h]

@[simp] theorem State.queueAt_modQueue_self (s : State) (k : Nat) (f : Queue → Queue) :
    (s.modQueue k f).queueAt k = f (s.queueAt k) := by
  simp [State.modQueue, State.queueAt]

theorem State.queueAt_modQueue_ne (s : State) {j k : Nat} (h : j ≠ k) (f : Queue → Queue) :
    (s.modQueue k f).queueAt j = s.queueAt j := by
  simp [State.modQueue, State.queueAt, lookupKey_insertKey_ne h]

@[simp] theorem State.engineAt_modEngine_self (s : State) (k : Nat) (f : Engine → Engine) :
    (s.modEngine k f).engineAt k = f (s.engineAt k) := by
  simp [State.modEngine, State.engineAt]

@[simp] theorem State.snapAt_modSnap_self (s : State) (k : Nat) (f : Snap → Snap) :
    (s.modSnap k f).snapAt k = f (s.snapAt k) := by
  simp [State.modSnap, State.snapAt]

@[simp] theorem State.feAt_modFe_self (s : State) (k : Nat) (f : FrontEnd → FrontEnd) :
    (s.modFe k f).feAt k = f (s.feAt k) := by
  simp [State.modFe, State.feAt]

theorem State.feAt_modFe_ne (s : State) {j k : Nat} (h : j ≠ k) (f : FrontEnd → FrontEnd) :
    (s.modFe k f).feAt j = s.feAt j := by
  simp [State.modFe, State.feAt, lookupKey_insertKey_ne h]

@[simp] theorem State.sessionAt_modSession_self (s : State) (k : Nat) (f : Session → Session) :
    (s.modSession k f).sessionAt k = f (s.sessionAt k) := by
  simp [State.modSession, State.sessionAt]

/-! ### Lines -/

@[simp] theorem State.l2Line_l2Put_self (s : State) (d l : Nat) (x : L2Line) : (s.l2Put d l x).l2Line d l = some x := by
  simp [State.l2Put, State.l2Line, State.l2Of]

theorem State.l2Line_l2Put_ne (s : State) {d l m : Nat} (h : m ≠ l) (x : L2Line) :
    (s.l2Put d l x).l2Line d m = s.l2Line d m := by
  simp [State.l2Put, State.l2Line, State.l2Of, lookupKey_insertKey_ne h]

@[simp] theorem State.l2Line_l2Del_self (s : State) (d l : Nat) : (s.l2Del d l).l2Line d l = none := by
  simp [State.l2Del, State.l2Line, State.l2Of]

theorem State.l2Line_l2Del_ne (s : State) {d l m : Nat} (h : m ≠ l) : (s.l2Del d l).l2Line d m = s.l2Line d m := by
  simp [State.l2Del, State.l2Line, State.l2Of, lookupKey_eraseKey_ne h]

@[simp] theorem l1Home_l1Put (s : State) (k l : Nat) (x : L1Line) (j m : Nat) :
    l1Home (s.l1Put k l x) j m = l1Home s j m := rfl

@[simp] theorem l1Home_l1Del (s : State) (k l j m : Nat) : l1Home (s.l1Del k l) j m = l1Home s j m := rfl

@[simp] theorem State.l1Line_l1Put_self (s : State) (k l : Nat) (x : L1Line) : (s.l1Put k l x).l1Line k l = some x := by
  simp [State.l1Line, State.l1Put, l1Home, State.clusterAt, State.modCore, State.coreAt]

@[simp] theorem State.l1Line_l1Del_self (s : State) (k l : Nat) : (s.l1Del k l).l1Line k l = none := by
  simp [State.l1Line, State.l1Del, l1Home, State.clusterAt, State.modCore, State.coreAt]

end Sys2Proof.Machine
end

