-- ==== Sys2Proof/Laws/Memory.lean ====
section
/-! SUPPORT. Memory: every operation keeps the canonical form, a byte written reads back, and other bytes stay. -/

set_option Elab.async false

namespace Sys2Proof.Machine

/-! ### The canonical form -/

theorem memWfFrom_mono {lo hi : Nat} (h : lo ≤ hi) {m : Bytes} (w : memWfFrom hi m = true) : memWfFrom lo m = true := by
  cases m with
  | nil => rfl
  | cons p rest =>
    obtain ⟨a, b⟩ := p
    simp only [memWfFrom, Bool.and_eq_true, decide_eq_true_eq] at w ⊢
    exact ⟨⟨by omega, w.1.2⟩, w.2⟩

theorem memWfFrom_insertKey {lo a : Nat} {b : Byte} {m : Bytes} (hb : b ≠ 0) (ha : lo ≤ a) (w : memWfFrom lo m = true) :
    memWfFrom lo (insertKey a b m) = true := by
  induction m generalizing lo with
  | nil => simpa [insertKey, memWfFrom, ha] using hb
  | cons p rest ih =>
    obtain ⟨k, v⟩ := p
    simp only [memWfFrom, Bool.and_eq_true, decide_eq_true_eq] at w
    simp only [insertKey]
    split
    · simp only [memWfFrom, Bool.and_eq_true, decide_eq_true_eq]
      exact ⟨⟨ha, hb⟩, ⟨by omega, w.1.2⟩, w.2⟩
    · split
      · subst_vars
        simp only [memWfFrom, Bool.and_eq_true, decide_eq_true_eq]
        exact ⟨⟨ha, hb⟩, w.2⟩
      · simp only [memWfFrom, Bool.and_eq_true, decide_eq_true_eq]
        exact ⟨⟨w.1.1, w.1.2⟩, ih (by omega) w.2⟩

theorem memWfFrom_filter {lo : Nat} (p : Host.Cell → Bool) {m : Bytes} (w : memWfFrom lo m = true) :
    memWfFrom lo (m.filter p) = true := by
  induction m generalizing lo with
  | nil => rfl
  | cons c rest ih =>
    obtain ⟨a, b⟩ := c
    simp only [memWfFrom, Bool.and_eq_true, decide_eq_true_eq] at w
    by_cases hp : p (a, b) = true
    · simp only [List.filter_cons, hp, if_true, memWfFrom, Bool.and_eq_true, decide_eq_true_eq]
      exact ⟨⟨w.1.1, w.1.2⟩, ih w.2⟩
    · simp only [List.filter_cons, hp]
      exact ih (memWfFrom_mono (by omega) w.2)

/-- A byte written keeps the canonical form. -/
theorem memPut_wf {m : Bytes} (a : Nat) (b : Byte) (w : Memory.wf m = true) : Memory.wf (memPut m a b) = true := by
  unfold memPut
  split
  · exact memWfFrom_filter _ w
  · exact memWfFrom_insertKey ‹_› (Nat.zero_le _) w

/-- Bytes written keep the canonical form. -/
theorem memWrite_wf {m : Bytes} (a : Nat) (bs : List Byte) (w : Memory.wf m = true) : Memory.wf (memWrite m a bs) = true := by
  induction bs generalizing m a with
  | nil => exact w
  | cons b rest ih => exact ih (a + 1) (memPut_wf a b w)

/-- Bytes erased keep the canonical form. -/
theorem memErase_wf {m : Bytes} (lo n : Nat) (w : Memory.wf m = true) : Memory.wf (memErase m lo n) = true :=
  memWfFrom_filter _ w

/-- Cells written one after another keep the canonical form. -/
theorem memPut_foldl_wf {α : Type} (f : α → Nat) (g : α → Byte) (l : List α) {m : Bytes} (w : Memory.wf m = true) :
    Memory.wf (l.foldl (fun acc c => memPut acc (f c) (g c)) m) = true := by
  induction l generalizing m with
  | nil => exact w
  | cons c rest ih => exact ih (memPut_wf _ _ w)

/-- Memory at reset has the canonical form. -/
theorem reset_memory_wf : Memory.wf State.reset.mem = true := rfl

/-! ### Read after write -/

@[simp] theorem memGet_memPut_self (m : Bytes) (a : Nat) (b : Byte) : memGet (memPut m a b) a = b := by
  unfold memGet memPut
  split <;> simp_all

theorem memGet_memPut_ne {a x : Nat} (h : x ≠ a) (m : Bytes) (b : Byte) : memGet (memPut m a b) x = memGet m x := by
  unfold memGet memPut
  split
  · rw [lookupKey_eraseKey_ne h]
  · rw [lookupKey_insertKey_ne h]

/-- A write leaves every other byte as it was. -/
theorem memGet_memWrite_outside (m : Bytes) (a x : Nat) (bs : List Byte) (h : x < a ∨ a + bs.length ≤ x) :
    memGet (memWrite m a bs) x = memGet m x := by
  induction bs generalizing m a with
  | nil => rfl
  | cons b rest ih =>
    simp only [List.length_cons] at h
    simp only [memWrite]
    rw [ih _ _ (by omega), memGet_memPut_ne (by omega)]

@[simp] theorem memRead_length (m : Bytes) (a n : Nat) : (memRead m a n).length = n := by
  induction n generalizing a with
  | zero => rfl
  | succ n ih => simp [memRead, ih]

/-! ### Operations that leave memory as it was -/

@[simp] theorem spread_mem (s : State) (l : Nat) : (spread s l).mem = s.mem := rfl

@[simp] theorem touch_mem (s : State) (l : Nat) : (touch s l).mem = s.mem := rfl

@[simp] theorem setSide_mem (s : State) (l : Nat) (x : SideLine) : (s.setSide l x).mem = s.mem := rfl

@[simp] theorem chargeWork_mem (s : State) (a : Fin 6) (n : Nat) : (chargeWork s a n).mem = s.mem := rfl

@[simp] theorem sideMark_mem (s : State) (l : Nat) (code : BitVec 2) : (sideMark s l code).mem = s.mem := by
  unfold sideMark
  split <;> rfl

/-- What every step of a fold keeps, the fold keeps. -/
theorem foldl_keeps {σ α : Type} (P : σ → Prop) (f : σ → α → σ) (hf : ∀ s a, P s → P (f s a)) (l : List α) (s : σ) (h : P s) :
    P (l.foldl f s) := by
  induction l generalizing s with
  | nil => exact h
  | cons a rest ih => exact ih _ (hf s a h)

theorem foldl_mem {α : Type} (f : State → α → State) (hf : ∀ s a, (f s a).mem = s.mem) (l : List α) (s : State) :
    (l.foldl f s).mem = s.mem :=
  foldl_keeps (fun t => t.mem = s.mem) f (fun t a h => (hf t a).trans h) l s rfl

@[simp] theorem budgetMod_mem (s : State) (r : Nat) (b : Fin 6) (f : Nat → Nat) : (budgetMod s r b f).mem = s.mem := by
  unfold budgetMod
  exact foldl_mem _ (by intros; rfl) _ _

@[simp] theorem budgetTake_mem (s : State) (r : Nat) (b : Fin 6) (n : Nat) : (budgetTake s r b n).mem = s.mem :=
  budgetMod_mem ..

@[simp] theorem budgetGive_mem (s : State) (r : Nat) (b : Fin 6) (n : Nat) : (budgetGive s r b n).mem = s.mem :=
  budgetMod_mem ..

@[simp] theorem laneWithdraw_mem (s : State) (slot : Nat) : (laneWithdraw s slot).mem = s.mem := by
  unfold laneWithdraw
  split <;> rfl

@[simp] theorem laneRegrant_mem (s : State) (slot : Nat) : (laneRegrant s slot).mem = s.mem := by
  unfold laneRegrant
  dsimp only
  repeat' split
  all_goals rfl

@[simp] theorem touchAll_mem (ls : List Nat) (s : State) : (ls.foldl touch s).mem = s.mem := foldl_mem _ touch_mem _ _

theorem applyCommit_mem (s : State) (slot : Nat) : (applyCommit s slot).mem = s.mem := by
  unfold applyCommit
  dsimp only
  rw [apply_ite State.mem]
  simp only [State.modCtx_mem, budgetGive_mem, touchAll_mem, ite_self]

/-! ### The package point keeps the canonical form -/

/-- The memory of a state has the canonical form. -/
abbrev State.memOk (s : State) : Prop := Memory.wf s.mem = true

theorem memOk_of_eq {s t : State} (h : t.mem = s.mem) (w : s.memOk) : t.memOk := by
  rw [State.memOk, h]
  exact w

theorem foldl_wf {α : Type} (f : State → α → State) (hf : ∀ s a, s.memOk → (f s a).memOk) (l : List α) (s : State)
    (w : s.memOk) : (l.foldl f s).memOk :=
  foldl_keeps State.memOk f hf l s w

theorem pkgSet_wf (s : State) (l : Nat) (d : BitVec 512) (t : BitVec 4) (w : s.memOk) : (pkgSet s l d t).memOk :=
  memWrite_wf _ _ w

theorem sideFill_wf (s : State) (l : Nat) (code : BitVec 2) (w : s.memOk) : (sideFill s l code).memOk := by
  unfold sideFill
  dsimp only
  split
  · exact w
  · rw [State.memOk, setSide_mem]
    exact pkgSet_wf _ _ _ _ w

theorem rawMerge_wf (s : State) (l : Nat) (d : BitVec 512) (m : BitVec 64) (t : BitVec 4) (code : BitVec 2) (w : s.memOk) :
    (rawMerge s l d m t code).memOk := by
  have h := sideFill_wf s l code w
  unfold rawMerge
  split
  · exact w
  · dsimp only
    rw [State.memOk, spread_mem, sideMark_mem]
    refine pkgSet_wf _ _ _ _ ?_
    split <;> exact h

theorem rawSettle_wf (s : State) (l : Nat) (w : s.memOk) : (rawSettle s l).memOk := by
  refine foldl_wf _ (fun s d w => ?_) _ _ w
  split
  · exact w
  · exact rawMerge_wf _ _ _ _ _ _ w

theorem sideFill2_wf (s : State) (k l : Nat) (code : BitVec 2) (w : s.memOk) : (sideFill (sideFill s k code) l code).memOk :=
  sideFill_wf _ _ _ (sideFill_wf _ _ _ w)

@[simp] theorem spreadAll_mem (ls : List Nat) (s : State) : (ls.foldl spread s).mem = s.mem := foldl_mem _ spread_mem _ _

theorem memWrites_wf (f : Nat → List Byte) (as : List Nat) {m : Bytes} (w : Memory.wf m = true) :
    Memory.wf (as.foldl (fun m a => memWrite m a (f a)) m) = true :=
  foldl_keeps (fun m : Bytes => Memory.wf m = true) _ (fun _ _ w => memWrite_wf _ _ w) _ _ w

theorem bulkMem_wf (s : State) (lo n : Nat) (bs : Bytes) (w : s.memOk) : Memory.wf (bulkMem s lo n bs) = true :=
  memWrites_wf (fun a => memRead s.mem a 8) _
    (memPut_foldl_wf (fun c : Nat × Byte => c.1) (fun c => c.2) bs (memErase_wf lo n w))

@[simp] theorem bulkSeen_mem (s : State) (lo n : Nat) : (bulkSeen s lo n).mem = s.mem := spreadAll_mem _ _

@[simp] theorem bulkPlace_mem (s : State) (lo n : Nat) (bs : Bytes) : (bulkPlace s lo n bs).mem = bulkMem s lo n bs :=
  bulkSeen_mem _ _ _

theorem bulkSet_wf (s : State) (lo n : Nat) (bs : Bytes) (w : s.memOk) : (bulkSet s lo n bs).memOk := by
  unfold bulkSet
  rw [State.memOk, bulkPlace_mem]
  exact bulkMem_wf _ _ _ _ (sideFill2_wf _ _ _ _ (rawSettle_wf _ _ (rawSettle_wf _ _ w)))

@[simp] theorem spoilLines_mem (s : State) (ls : List Nat) : (spoilLines s ls).mem = s.mem := rfl

theorem snapOut_wf (s : State) (d i : Nat) (w : s.memOk) : (snapOut s d i).memOk := by
  have g : ∀ (js : List Nat) (l : Nat → Nat),
      (js.foldl (fun s j => if (lookupKey (l j) s.side).isSome then sideFill s (l j) 0 else s) s).memOk := fun js l =>
    foldl_wf _ (fun s j w => by split <;> first | exact sideFill_wf _ _ _ w | exact w) _ _ w
  have hs := g (List.range 1024) (fun j => ((s.snapAt d).base.toNat + 65536 * i) / 64 + j)
  unfold snapOut
  simp only []
  generalize (List.range 1024).foldl _ s = t at hs ⊢
  split
  · exact hs
  · split
    · rw [State.memOk, spoilLines_mem]
      exact bulkSet_wf t _ _ _ hs
    · split
      · rw [State.memOk, spoilLines_mem]
        exact bulkSet_wf _ _ _ _ (bulkSet_wf t _ _ _ hs)
      · exact hs

theorem snapClear_wf (s : State) (sn : Snap) (i : Nat) (w : s.memOk) : (snapClear s sn i).memOk := by
  unfold snapClear
  exact bulkSet_wf _ _ _ _ (rawSettle_wf _ _ w)

theorem signalStep_wf (s : State) (a : Nat) (w : s.memOk) : (signalStep s a).memOk := by
  unfold signalStep
  dsimp only
  rw [State.memOk, touch_mem]
  exact bulkSet_wf _ _ _ _ (rawSettle_wf _ _ w)

theorem snapCopyN_wf (n : Nat) : ∀ (s : State) (d i : Nat), s.memOk → (snapCopyN n s d i).memOk := by
  induction n with
  | zero => exact fun s d i w => w
  | succ n ih =>
    intro s d i w
    have first : ∀ (s : State) (a : Nat), s.memOk → ((List.range 4).foldl (fun s e =>
        if e = d then s else match snapPage s e (lineOf a) with
          | some j => snapCopyN n s e j
          | none => s) s).memOk := fun s a w =>
      foldl_wf _ (fun s e w => by
        split
        · exact w
        · split
          · exact ih _ _ _ w
          · exact w) _ _ w
    have cut : ∀ (t : State) (sn : Snap), t.memOk → (snapClear (chargeWork (snapOut t d i) 0 65536) sn i).memOk := fun t sn w =>
      snapClear_wf _ _ _ (memOk_of_eq (chargeWork_mem _ _ _) (snapOut_wf _ _ _ w))
    unfold snapCopyN
    dsimp only
    split
    · rw [State.memOk, State.modSnap_mem]
      exact cut _ _ (foldl_wf _ (fun s a w => first s a w) _ _ w)
    · split
      · rw [State.memOk, State.modSnap_mem, State.modSnap_mem]
        exact cut _ _ (foldl_wf _ (fun s a w => first s a w) _ _ w)
      · refine signalStep_wf _ _ (first _ _ ?_)
        rw [State.memOk, State.modSnap_mem, State.modSnap_mem]
        exact cut _ _ (foldl_wf _ (fun s a w => first s a w) _ _ w)

theorem snapCopy_wf (s : State) (d i : Nat) (w : s.memOk) : (snapCopy s d i).memOk := snapCopyN_wf 4 s d i w

theorem snapBefore_wf (s : State) (l : Nat) (w : s.memOk) : (snapBefore s l).memOk := by
  refine foldl_wf _ (fun s d w => ?_) _ _ w
  split
  · exact snapCopy_wf _ _ _ w
  · exact w

theorem pkgMerge_wf (s : State) (l : Nat) (d : BitVec 512) (m : BitVec 64) (t : BitVec 4) (code : BitVec 2) (w : s.memOk) :
    (pkgMerge s l d m t code).memOk := by
  unfold pkgMerge
  split
  · exact w
  · exact rawMerge_wf _ _ _ _ _ _ (snapBefore_wf _ _ w)

/-! ### The steps of the caches keep it (R116, R121, R462) -/

theorem evict2One_wf (s : State) (d l : Nat) (w : s.memOk) : (evict2One s d l).memOk := by
  unfold evict2One
  split
  · exact w
  · split
    · exact w
    · refine pkgMerge_wf _ _ _ _ _ _ (foldl_wf _ (fun s e w => ?_) _ _ w)
      split
      · exact w
      · exact pkgMerge_wf _ _ _ _ _ _ w

theorem l2Merge_wf (s : State) (d l : Nat) (y : L1Line) (w : s.memOk) : (l2Merge s d l y).memOk := by
  unfold l2Merge
  split
  · exact w
  · dsimp only
    split
    · exact w
    · exact sideFill_wf _ _ _ w

theorem carry1_wf (s : State) (j l : Nat) (w : s.memOk) : (carry1 s j l).memOk := by
  unfold carry1
  split
  · exact w
  · exact l2Merge_wf _ _ _ _ w

theorem claimLine_wf (s : State) (k l : Nat) (x : L1Line) (w : s.memOk) : (claimLine s k l x).1.memOk := by
  refine foldl_keeps (fun acc : State × L1Line => acc.1.memOk) _ (fun acc j w => ?_) _ _ w
  split
  · exact w
  · exact carry1_wf _ _ _ w

theorem propagateOne_wf (s : State) (k l : Nat) (sc : Scope) (w : s.memOk) : (propagateOne s k l sc).memOk := by
  unfold propagateOne
  split
  · exact w
  · rename_i x _
    split
    · have h := claimLine_wf s k l x w
      have h2 := fun (ds : List Nat) => foldl_wf _ (fun s d w => evict2One_wf s d l w) ds _ h
      dsimp only
      split
      · exact h
      · exact h
      · exact l2Merge_wf _ _ _ _ h
      · exact pkgMerge_wf _ _ _ _ _ _ (evict2One_wf _ _ _ (h2 _))
      · exact pkgMerge_wf _ _ _ _ _ _ (evict2One_wf _ _ _ (h2 _))
    · exact w

theorem evict1One_wf (s : State) (k l : Nat) (w : s.memOk) : (evict1One s k l).memOk := by
  unfold evict1One
  split
  · exact w
  · rw [State.memOk, State.l1Del_mem]
    split
    · exact w
    · exact propagateOne_wf _ _ _ _ w

theorem evict2_wf (s : State) (d l : Nat) (w : s.memOk) : (evict2 s d l).memOk :=
  foldl_wf _ (fun s l w => evict2One_wf s d l w) _ _ w

theorem followOne_wf (s : State) (k l : Nat) (sc : Scope) (w : s.memOk) : (followOne s k l sc).memOk := by
  have h := foldl_wf _ (fun s j w => carry1_wf s j l w) (siblings s k) s w
  unfold followOne
  generalize (siblings s k).foldl _ s = t at h
  have h2 : (match t.l1Line k l with
      | some x => (if x.dirty = 0 then t else l2Merge t (dieOf k) l x).l1Del k l
      | none => t).memOk := by
    split
    · rw [State.memOk, State.l1Del_mem]
      split
      · exact h
      · exact l2Merge_wf _ _ _ _ h
    · exact h
  have h3 : ∀ u : State, u.memOk → (match sc with
      | .pkg | .sys => evict2One u (dieOf k) l
      | _ => u).memOk := fun u w => by
    split
    · exact evict2One_wf _ _ _ w
    · exact evict2One_wf _ _ _ w
    · exact w
  dsimp only
  split
  · exact propagateOne_wf _ _ _ _ w
  · exact h3 _ h2

theorem propagate_wf (s : State) (k l : Nat) (sc : Scope) (w : s.memOk) : (propagate s k l sc).memOk := by
  unfold propagate
  split
  · exact foldl_wf _ (fun s t w => followOne_wf s k t sc w) _ _ (propagateOne_wf _ _ _ _ w)
  · exact w

theorem evict1_wf (s : State) (k l : Nat) (w : s.memOk) : (evict1 s k l).memOk :=
  foldl_wf _ (fun s l w => evict1One_wf s k l w) _ _ w

theorem readySide_wf (s : State) (k l : Nat) (w : s.memOk) : (readySide s k l).memOk := by
  unfold readySide
  split
  · exact sideFill_wf _ _ _ w
  · exact w

theorem withFill_wf (s : State) (k l hint : Nat) (w : s.memOk) : (withFill s k l hint).1.memOk := by
  have h := readySide_wf s k l w
  unfold withFill
  split
  · exact w
  · dsimp only
    split <;> split <;> exact h

theorem l1Write_wf (s : State) (k l : Nat) (d : BitVec 512) (m : BitVec 64) (t : BitVec 4) (sc : Scope) (hint : Nat)
    (w : s.memOk) : (l1Write s k l d m t sc hint).memOk := by
  have h : ∀ x, (touch (propagate ((withFill s k l hint).1.l1Put k l x) k l sc) l).memOk := fun x => by
    rw [State.memOk, touch_mem]
    exact propagate_wf _ _ _ _ (withFill_wf _ _ _ _ w)
  unfold l1Write
  dsimp only
  split <;> split
  · exact h _
  · exact evict1_wf _ _ _ (h _)
  · exact evict2_wf _ _ _ (h _)
  · exact evict2_wf _ _ _ (evict1_wf _ _ _ (h _))

theorem scopedDrop_wf (s : State) (k l : Nat) (sc : Scope) (w : s.memOk) : (scopedDrop s k l sc).memOk := by
  have h := evict1_wf _ k l (propagate_wf s k l sc w)
  unfold scopedDrop
  dsimp only
  repeat' split
  all_goals first | exact h | exact evict2_wf _ _ _ h

theorem gatherLine_wf (s : State) (k l : Nat) (sc : Scope) (w : s.memOk) : (gatherLine s k l sc).memOk := by
  have h := evict1_wf _ k l (foldl_wf _ (fun s j w => evict1_wf s j l w) (siblings s k) s w)
  unfold gatherLine
  dsimp only
  split <;> split
  · exact evict2_wf _ _ _ h
  · exact evict2_wf _ _ _ w
  · exact h
  · exact w

theorem l1Load_wf (s : State) (k l : Nat) (sc : Scope) (hint : Nat) (w : s.memOk) : (l1Load s k l sc hint).1.memOk := by
  unfold l1Load
  split
  · exact withFill_wf _ _ _ _ w
  · exact withFill_wf _ _ _ _ w
  · dsimp only
    split
    · exact scopedDrop_wf _ _ _ _ w
    · exact sideFill_wf _ _ _ (scopedDrop_wf _ _ _ _ w)
  · exact sideFill_wf _ _ _ (scopedDrop_wf _ _ _ _ w)
  · exact sideFill_wf _ _ _ (scopedDrop_wf _ _ _ _ w)

theorem release_wf (s : State) (k : Nat) (sc : Scope) (w : s.memOk) : (release s k sc).memOk := by
  have h : ∀ ls : List Nat, (ls.foldl (fun s l => propagate s k l sc) s).memOk :=
    fun ls => foldl_wf _ (fun s l w => propagate_wf s k l sc w) _ _ w
  unfold release
  dsimp only
  split
  all_goals first
    | exact foldl_wf _ (fun s l w => evict2_wf s _ l w) _ _ (h _)
    | exact h _

theorem acquire_wf (s : State) (k : Nat) (sc : Scope) (w : s.memOk) : (acquire s k sc).memOk := by
  unfold acquire
  split
  · exact w
  · exact w
  · refine foldl_wf _ (fun s j w => ?_) _ _ (foldl_wf _ (fun s l w => propagate_wf s k l sc w) _ _ w)
    exact w

/-! ### Bytes moved by the part keep it -/

theorem flushRange_wf (s : State) (lo n : Nat) (w : s.memOk) : (flushRange s lo n).memOk := by
  refine foldl_wf _ (fun s d w => foldl_wf _ (fun s l w => evict2_wf s _ l w) _ _ w) _ _ ?_
  exact foldl_wf _ (fun s k w => foldl_wf _ (fun s l w => foldl_wf _ (fun s l w => carry1_wf s _ l w) _ _ w) _ _ w) _ _ w

theorem snapRange_wf (s : State) (lo n : Nat) (w : s.memOk) : (snapRange s lo n).memOk := by
  refine foldl_wf _ (fun s d w => foldl_wf _ (fun s i w => ?_) _ _ w) _ _ w
  split
  · exact snapCopy_wf _ _ _ w
  · exact w

theorem bulkStore_wf (s : State) (lo n : Nat) (bs : Bytes) (w : s.memOk) : (bulkStore s lo n bs).memOk := by
  unfold bulkStore
  split
  · exact w
  · exact bulkSet_wf _ _ _ _ (flushRange_wf _ _ _ (snapRange_wf _ _ _ w))

theorem copyBulk_wf (s : State) (src dst n : Nat) (code dcode : BitVec 2) (w : s.memOk) :
    (copyBulk s src dst n code dcode).memOk := by
  have h : ∀ (ls : List Nat) (bs : Bytes), (bulkStore (ls.foldl (fun s l => sideFill s l code) s) dst n bs).memOk :=
    fun ls bs => bulkStore_wf _ _ _ _ (foldl_wf _ (fun s l w => sideFill_wf s l code w) _ _ w)
  unfold copyBulk
  dsimp only
  split
  · exact h _ _
  · refine memOk_of_eq (foldl_mem _ (fun s i => sideMark_mem s _ dcode) _ _) ?_
    exact h _ _

theorem rstateStore_wf (s : State) (pa : Nat) (bs : List Byte) (w : s.memOk) : (rstateStore s pa bs).memOk := by
  have h := sideFill_wf _ (lineOf pa) 0 (snapBefore_wf s (lineOf pa) w)
  unfold rstateStore
  generalize sideFill (snapBefore s (lineOf pa)) (lineOf pa) 0 = t at h
  dsimp only
  split
  · rw [State.memOk, touch_mem]
    have h2 : Memory.wf (sideMark t (lineOf pa) 0).mem = true := by
      rw [sideMark_mem]
      exact h
    exact memWrite_wf _ _ h2
  · exact w

theorem lineStore_wf (s : State) (pa : Nat) (bs : List Byte) (t : BitVec 4) (code : BitVec 2) (w : s.memOk) :
    (lineStore s pa bs t code).memOk := by
  unfold lineStore
  dsimp only
  split
  · exact pkgMerge_wf _ _ _ _ _ _ (foldl_wf _ (fun s d w => evict2_wf s d _ w) _ _ w)
  · exact memWrite_wf _ _ w

theorem codeStore_wf (s : State) (code : BitVec 2) (pa : Nat) (bs : List Byte) (t : BitVec 4) (w : s.memOk) :
    (codeStore s code pa bs t).memOk := by
  unfold codeStore
  dsimp only
  split
  · exact lineStore_wf _ _ _ _ _ w
  · split
    · exact rstateStore_wf _ _ _ w
    · exact lineStore_wf _ _ _ _ _ (rstateStore_wf _ _ _ w)

theorem pkgStore_wf (s : State) (pa : Nat) (bs : List Byte) (t : BitVec 4) (w : s.memOk) : (pkgStore s pa bs t).memOk :=
  codeStore_wf _ _ _ _ _ w

theorem pkgStoreAll_wf (s : State) (pa : Nat) (bs : List Byte) (w : s.memOk) : (pkgStoreAll s pa bs).memOk :=
  foldl_keeps (fun acc : State × List Byte => acc.1.memOk) _ (fun _ _ w => pkgStore_wf _ _ _ _ w) _ _ w

/-! ### Accesses of a context keep it -/

theorem plainPiece_wf (s : State) (k : Nat) (ws : List Nat) (pa n : Nat) (sc : Scope) (hint : Nat) (w : s.memOk) :
    (plainPiece s k ws pa n sc hint).1.memOk := by
  unfold plainPiece
  split
  · exact l1Load_wf _ _ _ _ _ w
  · exact w

theorem loadPiece_wf (s : State) (k : Nat) (ws : List Nat) (pa n : Nat) (sc : Scope) (hint : Nat) (w : s.memOk) :
    (loadPiece s k ws pa n sc hint).1.memOk := by
  unfold loadPiece
  dsimp only
  split
  · exact plainPiece_wf _ _ _ _ _ _ _ w
  · split
    · exact w
    · exact plainPiece_wf _ _ _ _ _ _ _ w

theorem loadBytes_wf (s : State) (k : Nat) (ws : List Nat) (pa n : Nat) (sc : Scope) (hint : Nat) (w : s.memOk) :
    (loadBytes s k ws pa n sc hint).1.memOk :=
  foldl_keeps (fun acc : State × List Byte => acc.1.memOk) _ (fun _ _ w => loadPiece_wf _ _ _ _ _ _ _ w) _ _ w

theorem plainPut_wf (s : State) (k pa : Nat) (bs : List Byte) (t : BitVec 4) (sc : Scope) (hint : Nat) (w : s.memOk) :
    (plainPut s k pa bs t sc hint).memOk := by
  unfold plainPut
  split
  · exact l1Write_wf _ _ _ _ _ _ _ _ w
  · exact lineStore_wf _ _ _ _ _ w

@[simp] theorem wsetStore_mem (s : State) (key l : Nat) (d : BitVec 512) (m : BitVec 64) (t : BitVec 4) :
    (wsetStore s key l d m t).mem = s.mem := rfl

theorem storePiece_wf (s : State) (k : Nat) (wk : Option Nat) (pa : Nat) (bs : List Byte) (t : BitVec 4) (sc : Scope) (hint : Nat)
    (w : s.memOk) : (storePiece s k wk pa bs t sc hint).memOk := by
  unfold storePiece
  dsimp only
  split
  · rw [State.memOk, wsetStore_mem]
    exact w
  · split
    · exact plainPut_wf _ _ _ _ _ _ _ w
    · split
      · exact rstateStore_wf _ _ _ w
      · exact plainPut_wf _ _ _ _ _ _ _ (rstateStore_wf _ _ _ w)

theorem storeBytes_wf (s : State) (k : Nat) (wk : Option Nat) (pa : Nat) (bs : List Byte) (sc : Scope) (hint : Nat)
    (w : s.memOk) : (storeBytes s k wk pa bs sc hint).memOk :=
  foldl_keeps (fun acc : State × List Byte => acc.1.memOk) _ (fun _ _ w => storePiece_wf _ _ _ _ _ _ _ _ w) _ _ w

theorem ctxLoad_wf (s : State) (k pa n : Nat) (sc : Scope) (hint : Nat) (w : s.memOk) : (ctxLoad s k pa n sc hint).1.memOk :=
  loadBytes_wf _ _ _ _ _ _ _ w

theorem ctxStore_wf (s : State) (k pa : Nat) (bs : List Byte) (sc : Scope) (hint : Nat) (w : s.memOk) :
    (ctxStore s k pa bs sc hint).memOk :=
  storeBytes_wf _ _ _ _ _ _ _ w

theorem capPut_wf (s : State) (k pa : Nat) (c : Cap) (sc : Scope) (hint : Nat) (w : s.memOk) : (capPut s k pa c sc hint).memOk :=
  storePiece_wf _ _ _ _ _ _ _ _ w

theorem storeElem_wf (s : State) (k : Nat) (sc : Scope) (hint : Nat) (x : ElemStore) (w : s.memOk) :
    (storeElem s k sc hint x).memOk := by
  unfold storeElem
  dsimp only
  split
  · exact ctxStore_wf _ _ _ _ _ _ (ctxLoad_wf _ _ _ _ _ _ w)
  · exact ctxStore_wf _ _ _ _ _ _ w

@[simp] theorem tieLines_mem (s : State) (ls : List Nat) : (tieLines s ls).mem = s.mem := by
  unfold tieLines
  dsimp only
  split <;> rfl

theorem storeElems_wf (s : State) (k : Nat) (sc : Scope) (hint : Nat) (xs : List ElemStore) (w : s.memOk) :
    (storeElems s k sc hint xs).memOk := by
  have h := foldl_wf _ (fun s x w => storeElem_wf s k sc hint x w) xs s w
  unfold storeElems
  dsimp only
  split
  · exact memOk_of_eq (tieLines_mem _ _) h
  · exact h

theorem readElem_wf (s : State) (k : Nat) (st : List Access) (sc : Scope) (hint : Nat) (x : ElemLoad) (w : s.memOk) :
    (readElem s k st sc hint x).1.memOk :=
  ctxLoad_wf { s with code := x.code } _ _ _ _ _ w

theorem freshLines_wf (s : State) (k : Nat) (xs : List ElemLoad) (w : s.memOk) : (freshLines s k xs).memOk := by
  unfold freshLines
  dsimp only
  split
  · exact w
  · exact foldl_wf _ (fun s j w => foldl_wf _ (fun s l w => evict1_wf s j l w) _ _ w) _ _ w

theorem loadElems_wf (s : State) (k : Nat) (st : List Access) (sc : Scope) (hint : Nat) (xs : List ElemLoad) (w : s.memOk) :
    (loadElems s k st sc hint xs).memOk := by
  refine foldl_wf _ (fun s x w => ?_) _ _ (freshLines_wf _ _ _ w)
  exact readElem_wf s k st sc hint x w

theorem amoStep_wf (s : State) (k : Nat) (a : Access) (new : List Byte → Word) (w : s.memOk) : (amoStep s k a new).1.memOk :=
  ctxStore_wf _ _ _ _ _ _ (ctxLoad_wf _ _ _ _ _ _ (gatherLine_wf _ _ _ _ (release_wf _ _ _ w)))

theorem performAmo_wf (s : State) (k : Nat) (a : Access) (kind : AmoKind) (ty : Ty) (d : GReg) (b c : Word) (w : s.memOk) :
    (performAmo s k a kind ty d b c).memOk := by
  unfold performAmo
  refine acquire_wf _ _ _ ?_
  rw [State.memOk, State.modCur_mem]
  exact amoStep_wf s k a (fun bs => amoNew kind ty (loadValue ty bs) b c) w

theorem performAmoX_wf (s : State) (k : Nat) (a : Access) (op : RvAmoOp) (aq : Bool) (d : XReg) (b : Word) (w : s.memOk) :
    (performAmoX s k a op aq d b).memOk := by
  have hl := ctxLoad_wf s k a.pa a.size a.scope a.hint w
  have hs := ctxStore_wf s k a.pa ((wordBytes 8 b).take a.size) a.scope a.hint w
  have aq_wf : ∀ (t : State) (f : Ctx → Ctx), t.memOk → (if aq then acquire (t.modCur f) k .sys else t.modCur f).memOk := by
    intro t f w
    have v : (t.modCur f).memOk := by
      rw [State.memOk, State.modCur_mem]
      exact w
    split
    · exact acquire_wf _ _ _ v
    · exact v
  unfold performAmoX
  dsimp only
  split
  · exact aq_wf _ _ hl
  · refine aq_wf _ _ ?_
    split
    · exact hs
    · exact w
  · refine acquire_wf _ _ _ ?_
    rw [State.memOk, State.modCur_mem]
    exact amoStep_wf s k a _ w

/-- What an access performs keeps the canonical form. -/
theorem performAccess_wf (s : State) (k : Nat) (st : List Access) (a : Access) (w : s.memOk) :
    (performAccess s k st a).memOk := by
  have w' : ({ s with code := a.code } : State).memOk := w
  unfold performAccess
  dsimp only
  split
  · exact ctxStore_wf _ _ _ _ _ _ w'
  · exact capPut_wf _ _ _ _ _ _ w'
  · exact storeElems_wf _ _ _ _ _ w'
  · exact ctxLoad_wf _ _ _ _ _ _ w'
  · exact loadPiece_wf _ _ _ _ _ _ _ w'
  · exact ctxLoad_wf _ _ _ _ _ _ w'
  · exact loadElems_wf _ _ _ _ _ _ w'
  · exact performAmo_wf _ _ _ _ _ _ _ _ w'
  · exact performAmoX_wf _ _ _ _ _ _ _ w'

@[simp] theorem modPq_mem (s : State) (k : Nat) (p : Party) (f : PartyQ → PartyQ) : (modPq s k p f).mem = s.mem := rfl

@[simp] theorem retire_mem (k n : Nat) (s : State) : (retire k n s).mem = s.mem := by
  induction n generalizing s with
  | zero => rfl
  | succ n ih =>
    unfold retire
    dsimp only
    split
    · rfl
    · exact ih _

theorem drainSome_wf (s : State) (k : Nat) (p : Party) (pick : Access → Bool) (w : s.memOk) : (drainSome s k p pick).memOk := by
  have h : ∀ (go : List Access) (t : State), t.memOk → (go.foldl (fun t a => performAccess t k [] a) t).memOk :=
    fun go t w => foldl_wf _ (fun t a w => performAccess_wf t k [] a w) _ _ w
  unfold drainSome
  dsimp only
  split
  · exact w
  · split
    · refine memOk_of_eq (retire_mem _ _ _) ?_
      exact h _ _ w
    · exact h _ _ w

/-- So do all that wait in a core's queues. -/
theorem drain_wf (s : State) (k : Nat) (p : Party) (w : s.memOk) : (drain s k p).memOk := drainSome_wf _ _ _ _ w

theorem drainCore_wf (s : State) (k : Nat) (w : s.memOk) : (drainCore s k).memOk :=
  foldl_wf _ (fun s p w => drain_wf s k p w) _ _ w

/-! ### Records, halts and traps -/

theorem postRecord_wf (s : State) (q : Nat) (ws : List Word) (w : s.memOk) : (postRecord s q ws).memOk := by
  unfold postRecord
  dsimp only
  rw [State.memOk, touch_mem]
  exact pkgStoreAll_wf _ _ _ w

theorem postTrap_wf (s : State) (slot : Nat) (w : s.memOk) : (postTrap s slot).memOk := by
  unfold postTrap
  dsimp only
  split
  · exact w
  · split
    · exact w
    · rw [State.memOk, State.modCtx_mem]
      exact postRecord_wf _ _ _ w

@[simp] theorem finishTile_mem (s : State) (slot : Nat) : (finishTile s slot).mem = s.mem := by
  unfold finishTile
  dsimp only
  split <;> rfl

@[simp] theorem laneGive_mem (s : State) (slot : Nat) : (laneGive s slot).mem = s.mem := by
  unfold laneGive
  dsimp only
  split <;> simp

theorem vecOut_wf (s : State) (slot : Nat) (w : s.memOk) : (vecOut s slot).memOk := by
  unfold vecOut
  extract_lets c b bs
  split
  · exact w
  · rw [State.memOk, State.modCtx_mem]
    exact bulkStore_wf _ _ _ _ (bulkStore_wf _ _ _ _ w)

theorem laneReturn_wf (s : State) (slot : Nat) (w : s.memOk) : (laneReturn s slot).memOk := by
  unfold laneReturn
  split
  · exact w
  · rw [State.memOk, laneGive_mem]
    exact vecOut_wf _ _ w

theorem restLanes_wf (s : State) (slot : Nat) (w : s.memOk) : (restLanes s slot).memOk := by
  unfold restLanes
  dsimp only
  split
  · exact laneReturn_wf _ _ (memOk_of_eq (laneWithdraw_mem s slot) w)
  · exact w

/-- So does a halt. -/
theorem haltStep_wf (s : State) (slot : Nat) (w : s.memOk) : (haltStep s slot).memOk := by
  have h : ∀ t : State, t.memOk → (laneReturn (laneWithdraw (applyCommit (finishTile t slot) slot) slot) slot).memOk :=
    fun t w => laneReturn_wf _ _ (memOk_of_eq (laneWithdraw_mem _ _)
      (memOk_of_eq (applyCommit_mem _ _) (memOk_of_eq (finishTile_mem _ _) w)))
  unfold haltStep
  dsimp only
  rw [State.memOk, State.modCtx_mem]
  split
  · refine h _ (memOk_of_eq (State.modCore_mem _ _ _) ?_)
    exact release_wf _ _ _ (drainCore_wf _ _ w)
  · exact h _ w

/-- And the taking of a trap. -/
theorem takeTrap_wf (slot : Nat) (x : Trap) (s : State) (w : s.memOk) : (takeTrap slot x s).memOk := by
  have h := haltStep_wf s slot w
  unfold takeTrap
  generalize haltStep s slot = t at h
  dsimp only
  split
  · exact w
  · split
    · exact h
    · exact postTrap_wf _ _ h

end Sys2Proof.Machine
end

