-- ==== Sys2Proof/Laws/Run.lean ====
section
/-! SUPPORT. Running a meaning: what each primitive answers, how two run one after the other, and what a guard leaves. -/

set_option Elab.async false

namespace Sys2Proof.Machine

/-! ### Sequencing -/

@[simp] theorem run_pure {α : Type} (a : α) (s : State) : (pure a : M α) s = .ok a s := rfl

@[simp] theorem run_get (s : State) : (get : M State) s = .ok s s := rfl

@[simp] theorem run_set (s t : State) : (set t : M PUnit) s = .ok ⟨⟩ t := rfl

@[simp] theorem run_modify (f : State → State) (s : State) : (modify f : M PUnit) s = .ok ⟨⟩ (f s) := rfl

@[simp] theorem run_throw {α : Type} (e : Stop) (s : State) : (throw e : M α) s = .error e s := rfl

theorem run_bind {α β : Type} (m : M α) (f : α → M β) (s : State) :
    (m >>= f) s = match m s with
      | .ok a t => f a t
      | .error e t => .error e t := by
  change EStateM.bind m f s = _
  unfold EStateM.bind
  cases m s <;> rfl

theorem run_bind_ok {α β : Type} {m : M α} {s t : State} {a : α} (h : m s = .ok a t) (f : α → M β) :
    (m >>= f) s = f a t := by
  rw [run_bind, h]

theorem run_bind_error {α β : Type} {m : M α} {s t : State} {e : Stop} (h : m s = .error e t) (f : α → M β) :
    (m >>= f) s = .error e t := by
  rw [run_bind, h]

/-! ### Primitives -/

@[simp] theorem run_getCur (s : State) : getCur s = .ok s.cur s := rfl

@[simp] theorem run_modifyCur (f : Ctx → Ctx) (s : State) : modifyCur f s = .ok () (s.modCur f) := rfl

@[simp] theorem run_waits {α : Type} (s : State) : (waits : M α) s = .error .wait s := rfl

@[simp] theorem run_advance (m : Mods) (s : State) : advance m s = .ok () (s.modCur (fun c => setPc c (nextPc c m))) := rfl

/-- A general register without poison is consumed and nothing changes (R142). -/
theorem consumeG_ok {n : GReg} {s : State} (h : gPoison s.cur n = false) : consumeG n s = .ok (gVal s.cur n) s := by
  simp [consumeG, run_bind, h]

/-- A poisoned one traps (R142). -/
theorem consumeG_trap {n : GReg} {s : State} (h : gPoison s.cur n = true) :
    consumeG n s = .error (.trap (poisonTrap s.cur n)) s := by
  simp [consumeG, run_bind, h]

/-- With no entry in the vector queue there is nothing to wait for. -/
theorem waitVector_ok {s : State} (h : s.cur.vqn = 0) : waitVector s = .ok () s := by
  simp [waitVector, run_bind, h]

/-- With an entry in the vector queue that its agent has not executed the instruction waits. -/
theorem waitVector_waits {s : State} (h : s.cur.vlive < s.cur.vqn) : waitVector s = .error .wait s := by
  have h0 : s.cur.vqn ≠ 0 := by omega
  simp [waitVector, run_bind, h, h0]

/-- A party none of whose accesses waits has nothing to perform. -/
theorem drainSome_empty {s : State} {k : Nat} {p : Party} (h : waitingOf s k p = []) (pick : Access → Bool) :
    drainSome s k p pick = s := by
  simp only [waitingOf, List.append_eq_nil_iff] at h
  simp [drainSome, h.1.1, h.1.2, h.2, splitGo]

/-- Such a party keeps nobody waiting. -/
theorem drainParty_ok {s : State} {p : Party} (h : waitingOf s s.core p = []) : drainParty p s = .ok () s := by
  simp [drainParty, run_bind, drain, drainSome_empty h, h]

/-- A core none of whose parties' accesses wait is quiet as it is (R129). -/
theorem quiet_ok {s : State} (h : ∀ p, waitingOf s s.core p = []) : quiet s = .ok () s := by
  simp [quiet, run_bind, drainParty_ok (h _)]

/-- The release of a party none of whose accesses waits (R121). -/
theorem releaseOwn_ok {s : State} (h : waitingOf s s.core s.party = []) (sc : Scope) :
    releaseOwn sc s = .ok () (release s s.core sc) := by
  simp [releaseOwn, run_bind, drainParty_ok h]

/-- Outside a speculative segment nothing parks (R368). -/
theorem parkIfSpec_ok {s : State} (h : s.cur.spec = false) : parkIfSpec s = .ok () s := by
  simp [parkIfSpec, run_bind, h]

/-! ### Guards -/

/-- Under a guard that passes a scalar instruction runs its body. -/
theorem scalarStep_passes {m : Mods} {s : State} (h : passes m s = true) (body : M Unit) :
    scalarStep m body s = runThread body s := by
  unfold passes at h
  simp [scalarStep, runThread, guarded, run_bind, h]

/-- Under a guard that fails it only moves on (R32). -/
theorem scalarStep_fails {m : Mods} {s : State} (h : passes m s = false) (body : M Unit) :
    scalarStep m body s = changes s (fun c => setPc c (nextPc c m)) := by
  unfold passes at h
  simp [scalarStep, runThread, guarded, run_bind, changes, h]

/-- What a body that completes leaves is the next state. -/
theorem runThread_ok {body : M Unit} {s t : State} (h : body s = .ok () t) : runThread body s = .next t := by
  simp [runThread, h]

/-- A body that traps takes its trap. -/
theorem runThread_trap {body : M Unit} {s t : State} {x : Trap} (h : body s = .error (.trap x) t) :
    runThread body s = .next (takeTrap t.slot x t) := by
  simp [runThread, h]

/-- A body that waits leaves what it has changed. -/
theorem runThread_wait {body : M Unit} {s t : State} (h : body s = .error .wait t) : runThread body s = .next t := by
  simp [runThread, h]

/-- No meaning of the control thread stops the machine. -/
theorem runThread_next (body : M Unit) (s : State) : ∃ t, runThread body s = .next t := by
  unfold runThread
  split <;> exact ⟨_, rfl⟩

/-! ### Registers -/

@[simp] theorem readG_zero (c : Ctx) : readG c 0 = (0, false) := rfl

@[simp] theorem writeGq_zero (c : Ctx) (v : Word) (q : Bool) (o : Word × BitVec 16) : writeGq c 0 v q o = c := rfl

@[simp] theorem writeG_zero (c : Ctx) (v : Word) : writeG c 0 v = c := rfl

/-- A general register other than g0 reads as written. -/
theorem gVal_writeGq_self (c : Ctx) {n : GReg} (h : n ≠ 0) (v : Word) (q : Bool) (o : Word × BitVec 16) :
    gVal (writeGq c n v q o) n = v := by
  simp [gVal, readG, writeGq, h]

/-- A write leaves the value of every other general register. -/
theorem gVal_writeGq_ne (c : Ctx) {m n : GReg} (h : m ≠ n) (v : Word) (q : Bool) (o : Word × BitVec 16) :
    gVal (writeGq c n v q o) m = gVal c m := by
  unfold gVal readG writeGq
  split
  · rfl
  · split
    · rfl
    · simp only [Fin.getElem_fin]
      exact Vector.getElem_set_ne _ _ (fun e => h (Fin.ext e.symm))

@[simp] theorem readC_writeC_self (c : Ctx) (n : CReg) (x : Cap) : readC (writeC c n x) n = x := by
  simp [readC, writeC]

theorem readC_writeC_ne (c : Ctx) {m n : CReg} (h : m ≠ n) (x : Cap) : readC (writeC c n x) m = readC c m := by
  simp only [readC, writeC, Fin.getElem_fin]
  exact Vector.getElem_set_ne _ _ (fun e => h (Fin.ext e.symm))

end Sys2Proof.Machine
end

