-- ==== Sys2Proof/Tests/Slice0.lean ====
section
/-! SUPPORT. Tests: words of the spec's encodings and what they read as, terms that are ill formed, single steps with
results from the spec's rules, and witnesses that the premises of the statements can be met. -/

set_option Elab.async false

namespace Sys2Proof.Tests

open Sys2Proof Sys2Proof.Machine

/-! ### Words of the spec's worked encodings

Each word is one that the spec prints beside its source line: L18, L24, L31 and L39 of the chapter of instruction words, the
listings of the programs, and the tables of R169, R283, R284, R291, R303, R318, R336, R358 and R402. -/

/-- The extended form under guards that always pass. -/
def extMods : Mods := { baseMods with form := .ext }

theorem test_words_control :
    decodeWords [0x00000410] = some (.li { m := baseMods, d := 4, imm := 0, lit := none }) ∧
    decodeWords [0x00000712, 0x3F000000, 0] =
      some (.li { m := { baseMods with form := .lit }, d := 7, imm := 0, lit := some 0x3F000000 }) ∧
    decodeWords [0x0000C929, 0x50, 0x28000008] =
      some (.st { m := extMods, ty := .z64, scope := .sys, hint := 0, d := 9, a := 3, c := 0, imm := 8 }) ∧
    decodeWords [0x0080C928] =
      some (.st { m := baseMods, ty := .i64, scope := .dflt, hint := 0, d := 9, a := 3, c := 0, imm := 8 }) ∧
    decodeWords [0x0C00C020] = some (.park { m := baseMods, c := 3, x := 0, v := 0, imm := 0 }) ∧
    decodeWords [0x03F1BC18] = some (.bc { m := baseMods, cond := .eq, a := 6, off := -4 }) ∧
    decodeWords [0x00010A25, 0, 0x10A0] =
      some (.ld { m := extMods, ty := .i64, scope := .dflt, hint := 0, d := 10, a := 4, c := 0, imm := 0x10A0 }) ∧
    decodeWords [0x08128B04] =
      some (.mul { m := baseMods, ty := .i64, sat := false, d := 11, a := 10, b := 1, lit := none }) ∧
    decodeWords [0x10000020] = some (.halt { m := baseMods }) := by decide +kernel

theorem test_words_fences :
    decodeWords [0x14610334] = some (.cwb { m := baseMods, scope := .die, a := 4, b := 6, imm := 0 }) ∧
    decodeWords [0x18610134] = some (.iinv { m := baseMods, scope := .core, a := 4, b := 6, imm := 0 }) ∧
    decodeWords [0x1C000034] = some (.ifence { m := baseMods }) ∧
    decodeWords [0x10000534] = some (.tfence { m := baseMods, scope := .sys, kind := .all, a := 0, b := 0 }) ∧
    decodeWords [0x1040C035, 0x30, 3] =
      some (.tfence { m := extMods, scope := .die, kind := .rpage, a := 3, b := 4 }) := by decide +kernel

theorem test_words_queues :
    decodeWords [0x0000D875, 0, 0] = some (.vbind { m := extMods, hint := 0, d := 0, a := 3, b := 0, imm := 0 }) ∧
    decodeWords [0x04001875, 0, 0] = some (.vunbind { m := extMods, d := 0 }) ∧
    decodeWords [0x0050427C] =
      some (.epush { m := baseMods, d := 2, a := 1, b := 5, c := 0, stride := 0, lit := none }) ∧
    decodeWords [0x0404077C] = some (.epop { m := baseMods, d := 7, port := 16 }) ∧
    decodeWords [0x0C000A7C] = some (.evpop { m := baseMods, d := 10 }) := by decide +kernel

theorem test_words_loops :
    decodeWords [0x0000048D, 0, 0x20002] =
      some (.clset { m := extMods, level := 0, d := 4, a := 0, b := 0, cnt := 2, str := 32, lit := none }) ∧
    decodeWords [0x0000048F, 0x100000, 3, 0x200, 0] =
      some (.clset { m := { baseMods with form := .extLit }, level := 1,
                     d := 4, a := 0, b := 0, cnt := 3, str := 0, lit := some 512 }) ∧
    decodeWords [0x0400078C] = some (.clrun { m := baseMods, n := 7 }) ∧
    decodeWords [0x00710091, 0x800, 0x48000001] =
      some (.vdefer { m := { extMods with pg1 := 2 }, ty := .f32, p := 0, k := 1, a := 4, b := 7 }) ∧
    decodeWords [0x04C28991, 0, 0x48000001] =
      some (.vdrain { m := extMods, ty := .f32, p := 0, k := 1, d := 9, a := 10, b := 12 }) := by decide +kernel

theorem test_words_tasks :
    decodeWords [0x00718580] = some (.dpush { m := baseMods, d := 5, a := 6, b := 7, k := 0 }) ∧
    decodeWords [0x04000A80] = some (.dpop { m := baseMods, d := 10 }) ∧
    decodeWords [0x08010A80] = some (.dsteal { m := baseMods, d := 10, a := 4 }) ∧
    decodeWords [0x0C718380] = some (.lpatch { m := baseMods, d := 3, a := 6, b := 7, k := 0, lit := none }) ∧
    decodeWords [0x10018380] = some (.larmPlace { m := baseMods, d := 3, a := 6, k := 0 }) ∧
    decodeWords [0x10118380] = some (.larmArm { m := baseMods, d := 3, a := 6, k := 0 }) ∧
    decodeWords [0x10218380] = some (.larmDisarm { m := baseMods, d := 3, a := 6, k := 0 }) := by decide +kernel

theorem test_words_troupes :
    decodeWords [0x00218585, 0, 0x10] = some (.tfork { m := extMods, d := 5, a := 6, b := 2, off := 16 }) ∧
    decodeWords [0x04050384] = some (.treward { m := baseMods, d := 3, a := 20 }) ∧
    decodeWords [0x08000484] = some (.tbar { m := baseMods, d := 4 }) ∧
    decodeWords [0x0CD30384] = some (.tcancel { m := baseMods, d := 3, a := 12, b := 13 }) ∧
    decodeWords [0x10D30485, 0, 1] = some (.tadvNw { m := extMods, d := 4, a := 12, b := 13 }) ∧
    decodeWords [0x10D30484] = some (.tadv { m := baseMods, d := 4, a := 12, b := 13 }) := by decide +kernel

theorem test_words_segments :
    decodeWords [0x0060C589, 0x100000, 0x10] =
      some (.sspawn { m := extMods, side := true, d := 5, cond := 3, b := 6, off := 16 }) ∧
    decodeWords [0x0490C388] = some (.sresolve { m := baseMods, d := 3, cond := 3, b := 9 }) ∧
    decodeWords [0x0400C389, 0, 1] = some (.sresolveFree { m := extMods, d := 3, cond := 3 }) ∧
    decodeWords [0x08000488] = some (.slk { m := baseMods, d := 4 }) ∧
    decodeWords [0x08118488] = some (.slkSeg { m := baseMods, d := 4, a := 6 }) ∧
    decodeWords [0x08214488] = some (.slkCond { m := baseMods, d := 4, cond := 5 }) := by decide +kernel

theorem test_words_vectors :
    decodeWords [0x00408245, 0x00090400, 0x48000000] =

      some (.vfadd { m := { extMods with pg1 := 1, pg2 := 2, ng2 := true }, zf := false, ty := .f32, rm := .rn,
                     sat := false, wid := 0, d := 2, a := 2, b := 4 }) := by decide +kernel

/-! ### Words formed from the field layouts

`w0` is the base word of R51 with its len; `w1` and `w2` are the words of R53 and R54. In every word d = 3, a = 1, b = 2, c = 4
unless the row of the instruction gives the field otherwise. -/

/-- Word 0 (R51). -/
def w0 (len major func b a d : Nat) : Word32 :=
  BitVec.ofNat 32 (func * 2 ^ 26 + b * 2 ^ 20 + a * 2 ^ 14 + d * 2 ^ 8 + major * 4 + len)
/-- Word 1 (R53): e or fx, c, hint, scope. -/
def w1 (e c hint scope : Nat) : Word32 := BitVec.ofNat 32 (e * 2 ^ 26 + c * 2 ^ 20 + hint * 2 ^ 7 + scope * 2 ^ 4)
/-- Word 2 (R54): type, rm, sat, wid, imm. -/
def w2 (ty rm sat wid imm : Nat) : Word32 :=
  BitVec.ofNat 32 (ty * 2 ^ 27 + rm * 2 ^ 24 + sat * 2 ^ 23 + wid * 2 ^ 21 + imm)

/-- What a row of a family reads as: the function values, each with its constructor. -/
def readsRows {α : Type} (rows : List (Nat × (α → Instr))) (words : Nat → List Word32) (x : α) : Bool :=
  rows.all (fun p => decide (decodeWords (words p.1) = some (p.2 x)))

theorem test_salu :
    readsRows [(0, .add), (1, .sub), (2, .mul), (4, .div), (10, .shl)] (fun f => [w0 1 1 f 2 1 3, 0, w2 8 0 1 0 0])
      ({ m := extMods, ty := .z8, sat := true, d := 3, a := 1, b := 2, lit := none } : SaluArgs) = true ∧
    readsRows [(3, .mulh), (5, .rem), (6, .and), (7, .or), (8, .xor), (9, .andn), (11, .shr), (12, .sar), (13, .rot),
        (14, .min), (15, .max), (19, .bext), (20, .bdep)] (fun f => [w0 3 1 f 0 1 3, 0, w2 1 0 0 0 0, 5, 6])

      ({ m := { baseMods with form := .extLit }, ty := .i32, sat := false, d := 3, a := 1, b := 0,
         lit := some 0x600000005 } : SaluArgs) = true ∧
    readsRows [(16, .clz), (17, .ctz), (18, .popc)] (fun f => [w0 0 1 f 0 1 3])
      ({ m := baseMods, ty := .i64, d := 3, a := 1 } : SaluUnArgs) = true ∧
    decodeWords [w0 1 1 21 2 1 3, w1 0 4 0 0, w2 2 0 0 0 0] =
      some (.sel { m := extMods, ty := .i16, d := 3, a := 1, b := 2, c := 4, lit := none }) := by decide +kernel

theorem test_scalar :
    decodeWords [w0 1 2 0 0 1 3, 0, w2 3 0 1 0 0x1FFFFF] =
      some (.addi { m := extMods, ty := .i8, sat := true, d := 3, a := 1, imm := -1 }) ∧
    decodeWords [w0 0 3 4 2 1 3] =
      some (.cmp { m := baseMods, cond := .gt, ty := .i64, d := 3, a := 1, b := 2, lit := none }) ∧
    decodeWords [w0 0 5 0 0 0 1] = some (.b { m := baseMods, off := 1 }) ∧
    decodeWords [w0 1 7 0 0 0 0, 0, w2 0 0 0 0 0x1FFFFF] = some (.call { m := extMods, off := -1 }) ∧
    decodeWords [w0 0 8 0 0 1 0] = some (.jmp { m := baseMods, a := 1 }) ∧
    decodeWords [w0 0 8 2 0 1 3] = some (.callq { m := baseMods, c := 1, g := 3 }) ∧
    decodeWords [w0 0 8 5 0 0 0] = some (.yieldCore { m := baseMods }) ∧
    decodeWords [w0 0 11 0 63 1 3] = some (.ldc { m := baseMods, scope := .dflt, hint := 0, d := 3, a := 1, imm := -16 }) ∧
    decodeWords [w0 1 11 1 0 1 3, w1 0 0 2 1, w2 0 0 0 0 16] =
      some (.stc { m := extMods, scope := .core, hint := 2, d := 3, a := 1, imm := 16 }) ∧
    decodeWords [w0 1 12 7 2 1 3, w1 0 4 0 5, w2 1 0 0 0 8] =
      some (.amo { m := extMods, kind := .cas, ty := .i32,
                   scope := .sys, hint := 0, d := 3, a := 1, b := 2, c := 4, imm := 8 }) ∧
    readsRows [(0, .fenceSv), (1, .fenceVs), (2, .fenceVv), (3, .fenceAll)] (fun f => [w0 0 13 f 0 0 4])
      ({ m := baseMods, scope := .pkg } : FenceArgs) = true := by decide +kernel

theorem test_capability :
    readsRows [(0, .cbound), (1, .cnarrow), (2, .caddr)] (fun f => [w0 0 14 f 2 1 3])
      ({ m := baseMods, d := 3, a := 1, b := 2 } : CapArgs) = true ∧
    decodeWords [w0 1 14 3 2 1 3, 0, w2 0 0 0 0 7] = some (.cinc { m := extMods, d := 3, a := 1, b := 2, imm := 7 }) ∧
    decodeWords [w0 1 14 4 0 1 3, 0, w2 0 0 0 0 1] = some (.cget { m := extMods, kind := .base, d := 3, a := 1 }) ∧
    decodeWords [w0 1 14 5 2 1 3, 0, w2 0 0 0 0 1] = some (.ctest { m := extMods, eq := true, d := 3, a := 1, b := 2 }) ∧
    decodeWords [w0 0 14 6 0 1 3] = some (.cmov { m := baseMods, d := 3, a := 1 }) := by decide +kernel

theorem test_integer_vectors :
    decodeWords [w0 1 15 0 0 0 0, 0, 1] = some (.vmode { m := extMods, long := true }) ∧
    decodeWords [w0 1 15 1 0 1 3, 0, w2 9 0 0 0 2097151] =
      some (.setvl { m := extMods, ty := .f32, d := 3, a := 1, n := 2097151 }) ∧
    readsRows [(0, .vadd), (1, .vsub), (2, .vmul), (15, .vmacc)] (fun f => [w0 1 16 f 2 1 3, w1 1 0 0 0, w2 3 0 1 1 0])
      ({ m := extMods, zf := true, ty := .i8, sat := true, wid := 1, d := 3, a := 1, b := 2 } : VBinArgs) = true ∧
    readsRows [(3, .vmulh), (4, .vand), (5, .vor), (6, .vxor), (7, .vandn), (8, .vshl), (9, .vshr), (10, .vsar), (11, .vmin),
        (12, .vmax)] (fun f => [w0 1 16 f 2 1 3, 0, w2 5 0 0 0 0])
      ({ m := extMods, zf := false, ty := .z64, sat := false, wid := 0, d := 3, a := 1, b := 2 } : VBinArgs) = true ∧
    readsRows [(13, .vabs), (14, .vneg)] (fun f => [w0 1 16 f 0 1 3, 0, w2 3 0 1 0 0])
      ({ m := extMods, zf := false, ty := .i8, sat := true, d := 3, a := 1 } : VUnArgs) = true ∧
    decodeWords [w0 1 16 16 0 1 3, 0, w2 2 0 0 0 16] =
      some (.vsat { m := extMods, zf := false, ty := .i16, d := 3, a := 1, k := 16 }) ∧
    decodeWords [w0 1 16 17 2 1 3, w1 0 4 0 0, w2 7 0 0 0 0] =
      some (.vsel { m := extMods, zf := false, ty := .z16, d := 3, a := 1, b := 2, c := 4 }) := by decide +kernel

theorem test_float_vectors :
    readsRows [(0, .vfadd), (1, .vfsub), (2, .vfmul)] (fun f => [w0 1 17 f 2 1 3, 0, w2 12 4 1 2 0])
      ({ m := extMods, zf := false, ty := .e4m3, rm := .sr, sat := true, wid := 2, d := 3, a := 1, b := 2 } : VfBinArgs) =
        true ∧
    decodeWords [w0 1 17 7 2 1 3, 0, w2 11 1 0 0 0] =
      some (.vfdiv { m := extMods, zf := false, ty := .f16, rm := .rz, sat := false, wid := 0, d := 3, a := 1, b := 2 }) ∧
    readsRows [(3, .vfmin), (4, .vfmax)] (fun f => [w0 1 17 f 2 1 3, 0, w2 10 0 0 0 0])
      ({ m := extMods, zf := false, ty := .bf16, d := 3, a := 1, b := 2 } : VTwoArgs) = true ∧
    readsRows [(5, .vfabs), (6, .vfneg), (9, .vfrsq), (10, .vfexp2)] (fun f => [w0 1 17 f 0 1 3, 0, w2 9 0 0 0 0])
      ({ m := extMods, zf := false, ty := .f32, d := 3, a := 1 } : VOneArgs) = true ∧
    decodeWords [w0 1 17 8 0 1 3, 0, w2 9 2 1 0 0] =
      some (.vfsqrt { m := extMods, zf := false, ty := .f32, rm := .rp, sat := true, d := 3, a := 1 }) ∧
    readsRows [(0, .vfma), (1, .vfms), (2, .vfnma), (3, .vfnms)] (fun f => [w0 1 18 f 2 1 3, w1 0 4 0 0, w2 15 3 0 3 0])
      ({ m := extMods, zf := false, ty := .e2m1, rm := .rm, sat := false, wid := 3, d := 3, a := 1, b := 2, c := 4 } :
        VfmaArgs) = true ∧
    decodeWords [w0 1 19 3 2 1 3, 0, w2 6 0 0 0 0] =
      some (.vcmp { m := extMods, zf := false, ty := .z32, cond := .le, d := 3, a := 1, b := 2 }) ∧
    decodeWords [w0 1 20 7 2 1 3, 0, w2 9 0 0 0 0] =
      some (.vfcmp { m := extMods, zf := false, ty := .f32, cond := .ord, d := 3, a := 1, b := 2 }) := by decide +kernel

theorem test_predicates_permutes :
    readsRows [(0, .pand), (1, .por), (2, .pxor)] (fun f => [w0 1 21 f 2 1 3, w1 1 0 0 0, 0])
      ({ m := extMods, zf := true, d := 3, a := 1, b := 2 } : PTwoArgs) = true ∧
    readsRows [(3, .pnot), (4, .pfirst), (6, .vexit)] (fun f => [w0 1 21 f 0 1 3, 0, 0])
      ({ m := extMods, zf := false, d := 3, a := 1 } : POneArgs) = true ∧
    decodeWords [w0 1 21 5 0 1 33, 0, 0] = some (.pcount { m := extMods, d := 33, a := 1 }) ∧
    readsRows [(0, .vperm), (6, .vzip)] (fun f => [w0 1 22 f 2 1 3, 0, w2 13 0 0 0 0])
      ({ m := extMods, zf := false, ty := .e5m2, d := 3, a := 1, b := 2 } : VTwoArgs) = true ∧
    readsRows [(1, .vslideUp), (2, .vslideDn)] (fun f => [w0 1 22 f 34 1 3, 0, w2 0 0 0 0 2097151])
      ({ m := extMods, zf := false, ty := .i64, d := 3, a := 1, g := 34, k := 2097151 } : VSlideArgs) = true ∧
    decodeWords [w0 1 22 3 0 35 3, 0, w2 14 0 0 0 0] = some (.vbcast { m := extMods, zf := false, ty := .fjt8, d := 3, g := 35 }) ∧
    readsRows [(4, .vcompress), (5, .vexpand)] (fun f => [w0 1 22 f 0 1 3, 0, w2 1 0 0 0 0])
      ({ m := extMods, zf := false, ty := .i32, d := 3, a := 1 } : VOneArgs) = true ∧
    decodeWords [w0 1 22 7 2 1 3, 0, w2 1 0 0 0 1] =
      some (.vunzip { m := extMods, zf := false, ty := .i32, d := 3, a := 1, b := 2, k := true }) ∧
    decodeWords [w0 1 23 1 0 1 3, 0, w2 12 0 0 2 0] =
      some (.vred { m := extMods, kind := .fadd, ty := .e4m3, rm := .rn, sat := false, wid := 2, d := 3, a := 1 }) ∧
    decodeWords [w0 1 24 0 0 1 3, 0, w2 3 0 1 1 3] = some (.vscan
      { m := extMods, zf := false, kind := .add, ty := .i8, rm := .rn, sat := true, wid := 1, d := 3, a := 1, excl := true,
        carry := true }) ∧
    readsRows [(0, .vshlw), (1, .vshrw)] (fun f => [w0 1 25 f 34 1 3, 0, w2 5 0 0 0 9])
      ({ m := extMods, zf := false, ty := .z64, d := 3, a := 1, g := 34, k := 9 } : VSlideArgs) = true ∧
    readsRows [(2, .vfshlw), (3, .vfshrw)] (fun f => [w0 1 25 f 2 1 3, w1 0 36 0 0, w2 5 0 0 0 9])
      ({ m := extMods, zf := false, ty := .z64, d := 3, a := 1, b := 2, g := 36, k := 9 } : VFshArgs) = true := by
  decide +kernel

theorem test_vector_memory :
    readsRows [(0, .vld), (1, .vlds), (3, .vldff)] (fun f => [w0 1 26 f 2 1 3, w1 1 0 1 3, w2 9 0 0 0 4])
      ({ m := extMods, zf := true, ty := .f32, scope := .die, hint := 1, d := 3, a := 1, b := 2, imm := 4 } : VMemArgs) =
        true ∧
    readsRows [(0, .vst), (1, .vsts)] (fun f => [w0 1 27 f 2 1 3, w1 0 0 1 3, w2 9 0 0 0 4])
      ({ m := extMods, zf := false, ty := .f32, scope := .die, hint := 1, d := 3, a := 1, b := 2, imm := 4 } : VMemArgs) =
        true ∧
    decodeWords [w0 1 26 2 2 1 3, 0, w2 1 0 0 0 0] =
      some (.vldx { m := extMods, zf := false, ty := .i32, scope := .dflt, hint := 0, d := 3, a := 1, b := 2 }) ∧
    decodeWords [w0 1 27 2 2 1 3, 0, w2 1 0 0 0 0] =
      some (.vstx { m := extMods, zf := false, ty := .i32, scope := .dflt, hint := 0, d := 3, a := 1, b := 2 }) ∧
    decodeWords [w0 1 26 4 2 1 3, w1 0 4 0 0, w2 12 0 0 0 0x1FFFFF] =
      some (.vldseg { m := extMods, zf := false, fine := true,
                      ty := .e4m3, scope := .dflt, hint := 0, d := 3, a := 1, b := 2, c := 4, dist := -1 }) ∧
    decodeWords [w0 1 27 3 2 1 3, w1 0 4 0 0, w2 3 0 0 0 16] =
      some (.vstseg { m := extMods, zf := false, fine := false,
                      ty := .i8, scope := .dflt, hint := 0, d := 3, a := 1, b := 2, c := 4, dist := 16 }) := by decide +kernel

theorem test_conversions_matrix :
    decodeWords [w0 1 28 0 2 1 3, w1 12 0 0 0, w2 9 4 1 0 5] =
      some (.vcvt { m := extMods, dt := .e4m3, st := .f32, rm := .sr, sat := true, d := 3, a := 1, b := 2, off := 5 }) ∧
    decodeWords [0x04010271, 0x3C600000, 0x48100000] = some (.vquant
      { m := extMods, fine := true, dt := .e2m1, st := .f32, rm := .rn, sat := false, d := 2, a := 4, b := 0, c := 6,
        off := 0 }) ∧
    decodeWords [w0 1 28 2 0 1 3, w1 9 4 0 0, w2 15 0 0 0 0] = some (.vdequant
      { m := extMods, fine := false, dt := .f32, st := .e2m1, rm := .rn, sat := false, d := 3, a := 1, b := 0, c := 4,
        off := 0 }) ∧
    readsRows [(0, .mldt), (1, .mldtT)] (fun f => [w0 1 30 f 2 1 1, 0, w2 12 0 0 0 64])
      ({ m := extMods, hint := 0, kind := .mx, ty := .e4m3, a := 1, b := 2, imm := 64 } : MldtArgs) = true ∧
    readsRows [(2, .mrow), (3, .mrowa)] (fun f => [w0 1 30 f 2 1 3, w1 0 4 0 0, w2 15 0 0 0 0])
      ({ m := extMods, ty := .e2m1, sat := false, sk := .fine, d := 3, a := 1, c := 4 } : MrowArgs) = true ∧
    decodeWords [w0 1 30 4 0 0 0, 0, w2 1 0 0 0 0x81] = some (.mzero { m := extMods, int := true, mask := 0x81 }) ∧
    decodeWords [w0 1 30 5 0 0 0, 0, 0] = some (.mswap { m := extMods }) ∧
    decodeWords [w0 3 30 6 0 0 0, 0, 0, 5, 0] =
      some (.mchain { m := { baseMods with form := .extLit }, b := 0, lit := some 5 }) ∧
    decodeWords [w0 1 30 7 2 1 2, 0, w2 0 0 0 0 8] = some (.mtbl { m := extMods, which := .scale, a := 1, b := 2, imm := 8 }) ∧
    decodeWords [w0 1 30 8 34 1 3, 0, w2 10 1 1 0 0] =
      some (.mdrain { m := extMods, zf := false, ty := .bf16, rm := .rz, sat := true, d := 3, a := 1, b := 34 }) ∧
    decodeWords [w0 0 31 1 1 16 3] = some (.epopNw { m := baseMods, d := 3, port := 16 }) ∧
    decodeWords [w0 0 31 2 0 5 3] = some (.eqstat { m := baseMods, d := 3, port := 5 }) ∧
    decodeWords [w0 0 31 3 1 0 60] = some (.evpopNw { m := baseMods, d := 60 }) := by decide +kernel

/-! ### The roustabout extension, RV64IMAC and Lysyo -/

/-- A word of R type (R71). -/
def rw (f7 rs2 rs1 f3 rd op : Nat) : Word32 :=
  BitVec.ofNat 32 (f7 * 2 ^ 25 + rs2 * 2 ^ 20 + rs1 * 2 ^ 15 + f3 * 2 ^ 12 + rd * 2 ^ 7 + op)

theorem test_extension :
    decodeQ (rw 0 0 5 0 3 0x0B) = some (.qePush { rd := 3, rs1 := 5, rs2 := 0 }) ∧
    decodeQ (rw 1 0 5 0 3 0x0B) = some (.qePop { rd := 3, rs1 := 5, rs2 := 0 }) ∧
    decodeQ (rw 2 0 5 0 3 0x0B) = some (.qeStat { rd := 3, rs1 := 5, rs2 := 0 }) ∧
    decodeQ (rw 3 0 5 0 0 0x0B) = some (.qeWait { rd := 0, rs1 := 5, rs2 := 0 }) ∧
    decodeQ (rw 0 0 5 1 0 0x0B) = some (.qaPush { rd := 0, rs1 := 5, rs2 := 0 }) ∧
    decodeQ (rw 1 0 0 1 3 0x0B) = some (.qaStat { rd := 3, rs1 := 0, rs2 := 0 }) ∧
    decodeQ (rw 0 0 5 2 0 0x0B) = some (.qbPush { rd := 0, rs1 := 5, rs2 := 0 }) ∧
    decodeQ (rw 1 0 0 2 3 0x0B) = some (.qbStat { rd := 3, rs1 := 0, rs2 := 0 }) ∧
    decodeQ (rw 0 0 0 3 3 0x0B) = some (.qdPop { rd := 3, rs1 := 0, rs2 := 0 }) ∧
    decodeQ (rw 1 0 0 3 3 0x0B) = some (.qdStat { rd := 3, rs1 := 0, rs2 := 0 }) ∧
    decodeQ (rw 0 6 5 0 0 0x2B) = some (.qsStrip { rd := 0, rs1 := 5, rs2 := 6 }) ∧
    decodeQ (rw 1 6 5 0 0 0x2B) = some (.qsScale { rd := 0, rs1 := 5, rs2 := 6 }) ∧
    decodeQ (rw 2 0 5 0 0 0x2B) = some (.qsEnd { rd := 0, rs1 := 5, rs2 := 0 }) ∧
    decodeQ (rw 0 0 5 1 0 0x2B) = some (.qvFence { rd := 0, rs1 := 5, rs2 := 0 }) ∧
    decodeQ (rw 1 6 5 1 0 0x2B) = some (.qvEvent { rd := 0, rs1 := 5, rs2 := 6 }) ∧
    decodeQ (rw 2 0 5 1 3 0x2B) = some (.qvWait { rd := 3, rs1 := 5, rs2 := 0 }) ∧
    decodeQ (rw 3 0 5 1 0 0x2B) = none ∧ decodeQ (rw 2 1 5 0 0 0x2B) = none := by decide +kernel

/-- addi x1, x2, -1; mulw x3, x4, x5; lr.w x6, (x7); fence rw, rw; c.addi x8, 1; ecall. -/
theorem test_rv64imac :
    decodeRoustabout 0xFFF10093 = some (.roustaboutInstruction { compressed := false, op := .opImm .add 1 2 (-1) }) ∧
    decodeRoustabout 0x025201BB = some (.roustaboutInstruction { compressed := false, op := .mulW .mulw 3 4 5 }) ∧
    decodeRoustabout 0x1003A32F =
      some (.roustaboutAmo { op := .lr, dbl := false, aq := false, rl := false, rd := 6, rs1 := 7, rs2 := 0 }) ∧
    decodeRoustabout 0x0330000F = some (.roustaboutFence { fm := 0, pred := 3, succ := 3, rd := 0, rs1 := 0 }) ∧
    decodeRoustabout 0x00000405 = some (.roustaboutInstruction { compressed := true, op := .opImm .add 8 8 1 }) ∧
    decodeRoustabout 0x00000073 = none := by decide +kernel

/-- A Lysyo word of I form (R385). -/
def li (op rd ra imm : Nat) : Word32 := BitVec.ofNat 32 (op * 2 ^ 26 + rd * 2 ^ 22 + ra * 2 ^ 18 + imm)

/-- What Lysyo rows read as. -/
def readsLy {α : Type} (rows : List (Nat × (α → Instr))) (word : Nat → Word32) (x : α) : Bool :=
  rows.all (fun p => decide (decodeLysyo (word p.1) = some (p.2 x)))

theorem test_lysyo :
    readsLy [(4, .lysyoAddi), (20, .ldpk), (21, .stpk), (22, .ldrg), (23, .ldwn), (24, .stwn), (28, .beq), (29, .bne),
        (30, .bltu)] (fun op => li op 2 1 0x8010) ({ rd := 2, ra := 1, imm := 0x8010 } : LyIArgs) = true ∧
    readsLy [(2, .lysyoLi), (3, .lysyoLih)] (fun op => li op 2 0 7) ({ rd := 2, ra := 0, imm := 7 } : LyIArgs) = true ∧
    decodeLysyo (li 1 0 0 2) = some (.lysyoEnd { rd := 0, ra := 0, imm := 2 }) ∧ decodeLysyo (li 1 0 0 3) = none ∧
    decodeLysyo (li 32 0 0 0x302) = some (.lysyoLoop { rd := 0, ra := 0, imm := 0x302 }) ∧
    readsLy [(8, .lysyoAdd), (9, .lysyoSub), (10, .lysyoAnd), (11, .lysyoOr), (12, .lysyoXor), (13, .lysyoShl),
        (14, .lysyoShr), (15, .lysyoMinu), (16, .lysyoMaxu)]
      (fun op => li op 2 1 (3 * 2 ^ 14)) ({ rd := 2, ra := 1, rb := 3 } : LyRArgs) = true ∧
    decodeLysyo (li 36 2 0 0) = some (.time { rd := 2, ra := 0, imm := 0 }) ∧
    decodeLysyo (li 37 2 0 3) = some (.qinfo { rd := 2, ra := 0, imm := 3 }) ∧
    decodeLysyo (li 37 2 0 4) = none ∧ decodeLysyo 0x5C800000 = some (.ldwn { rd := 2, ra := 0, imm := 0 }) := by
  decide +kernel

/-- The words of the obligation. -/
theorem test_words_read_as_named : Obligations.WordsReadAsNamed := by unfold Obligations.WordsReadAsNamed; decide +kernel

/-! ### What no decoder admits

One term for each check of WellFormed, which the check refuses, and the reading of the host's words. -/

/-- Rows of arguments that a check refuses. -/
def refuses {α : Type} (check : α → Bool) (xs : List α) : Bool := xs.all (fun x => !check x)

theorem test_ill_formed_terms :
    refuses modsOk [{ baseMods with ng1 := true }, { baseMods with first := true }] = true ∧
    refuses plainOk [{ baseMods with form := .lit }] = true ∧ refuses extOk [baseMods] = true ∧
    litOk baseMods (some 1) 0 = false ∧ litOk { baseMods with form := .lit } (some 1) 2 = false ∧
    word2Ok baseMods .i8 false = false ∧ word2Ok baseMods .i64 true = false ∧ immOk baseMods 1 = false ∧
    signedIn 12 (2048 : Imm) = false ∧
    saluOk false { m := extMods, ty := .i64, sat := true, d := 1, a := 1, b := 1, lit := none } = false ∧
    saluUnOk { m := extMods, ty := .f32, d := 1, a := 1 } = false ∧
    bOk { m := extMods, off := 0x100000 } = false ∧
    ldOk { m := extMods, ty := .i4, scope := .dflt, hint := 0, d := 1, a := 1, c := 0, imm := 0 } = false ∧
    ldcOk { m := baseMods, scope := .dflt, hint := 0, d := 1, a := 1, imm := 8 } = false ∧
    cwbOk false { m := baseMods, scope := .sys, a := 1, b := 0, imm := 0 } = false ∧
    vbinOk 1 true { m := extMods, zf := false, ty := .i32, sat := false, wid := 2, d := 1, a := 1, b := 1 } = false ∧
    vunOk { m := extMods, zf := false, ty := .i4, sat := false, d := 1, a := 1 } = false ∧
    vfbinOk false { m := extMods, zf := false, ty := .f16, rm := .rn, sat := false, wid := 1, d := 1, a := 1, b := 1 } =
      false ∧
    vfTyOk extMods .e4m3 = false ∧
    vfmaOk { m := extMods, zf := false, ty := .f32, rm := .rn, sat := false, wid := 1, d := 1, a := 1, b := 1, c := 1 } =
      false := by decide +kernel

theorem test_ill_formed_vectors_and_rows :
    permOk extMods .e8m0 = false ∧ wshOk extMods .f32 = false ∧ redOk extMods .min .i8 .rn true 0 = false ∧
    redOk extMods .add .i8 .rz false 0 = false ∧ zfOk false true = false ∧
    vsegOk true { m := extMods, zf := false, fine := true, ty := .i8, scope := .dflt, hint := 0, d := 1, a := 1, b := 1,
                  c := 1, dist := 0 } = false ∧
    srOk .rn 1 0 = false ∧ srOk .rz 0 1 = false ∧
    mldtOk { m := extMods, hint := 0, kind := .fine, ty := .i8, a := 1, b := 0, imm := 0 } = false ∧
    mrowOk false { m := extMods, ty := .i8, sat := true, sk := .none, d := 1, a := 1, c := 0 } = false ∧
    mrowOk true { m := extMods, ty := .e4m3, sat := false, sk := .none, d := 1, a := 1, c := 1 } = false ∧
    dIn 0 1 60 = false ∧ dIn 61 1 60 = false ∧
    refuses rvOk [.jal 1 3, .branch .eq 1 2 1, .opImm .sub 1 1 0, .opImm .sll 1 1 64, .opImmW .sraw 1 1 32] = true ∧
    refuses wellFormed [.setvl { m := extMods, ty := .s8f, d := 1, a := 0, n := 0 },
      .vsat { m := extMods, zf := false, ty := .i8, d := 1, a := 1, k := 9 },
      .vcvt { m := extMods, dt := .i8, st := .i16, rm := .rz, sat := false, d := 1, a := 1, b := 0, off := 0 },
      .clrun { m := baseMods, n := 129 }, .epop { m := baseMods, d := 1, port := 63 },
      .qaPush { rd := 1, rs1 := 1, rs2 := 0 }, .lysyoEnd { rd := 0, ra := 0, imm := 3 },
      .time { rd := 1, ra := 1, imm := 0 }] = true := by decide +kernel

/-- Words that are no instruction (R65, R66, R72): the zero word, a major beyond 36, a function value beyond its major's, a
reserved bit of word 1, a nonzero hint on ADD, a base form of a vector instruction, an unused field, a type of no code. -/
theorem test_words_of_no_instruction :
    decodeWords [0] = none ∧ decodeWords [w0 0 37 0 0 0 0] = none ∧ decodeWords [w0 0 1 22 0 0 0] = none ∧
    decodeWords [w0 1 1 0 2 1 3, 1, 0] = none ∧ decodeWords [w0 1 1 0 2 1 3, w1 0 0 1 0, 0] = none ∧
    decodeWords [w0 0 16 0 2 1 3] = none ∧ decodeWords [w0 0 8 4 0 0 1] = none ∧
    decodeWords [w0 1 1 0 2 1 3, 0, w2 18 0 0 0 0] = none ∧ decodeWords [w0 0 14 0 2 16 3] = none ∧
    decodeWords [w0 2 2 0 0 1 3, 0, 0] = none ∧ decodeWords [w0 1 1 0 2 1 3, w1 0 0 0 1, 0] = none := by decide +kernel

/-- The host's words: two rows of the table as it numbers their bits, and a word of a Lysyo row. -/
theorem test_table_words :
    decodeTableWord 32 0x00204304 =
      some (.add { m := baseMods, ty := .i64, sat := false, d := 3, a := 1, b := 2, lit := none }) ∧
    decodeTableWord 32 0x0000000B = some (.qePush { rd := 0, rs1 := 0, rs2 := 0 }) ∧
    decodeTableWord 32 0x90800000 = some (.time { rd := 2, ra := 0, imm := 0 }) := by decide +kernel

/-- The encoder writes the words that the spec prints. -/
theorem test_encode :
    encode (.vfadd { m := { extMods with pg1 := 1, pg2 := 2, ng2 := true }, zf := false, ty := .f32, rm := .rn,
                     sat := false, wid := 0, d := 2, a := 2, b := 4 }) = [0x00408245, 0x00090400, 0x48000000] ∧
    encode (.st { m := extMods, ty := .z64, scope := .sys, hint := 0, d := 9, a := 3, c := 0, imm := 8 }) =
      [0x0000C929, 0x50, 0x28000008] ∧
    encode (.li { m := { baseMods with form := .lit }, d := 7, imm := 0, lit := some 0x3F000000 }) =
      [0x00000712, 0x3F000000, 0] := by decide +kernel

/-! ### A small state

A context in slot 1 on core 0, running at 0x1000 in bare mode with the full capability as program capability and in c1, c2 a
capability of otype 1, g1 = 5, g2 = −3, g6 poisoned, and vl = 4. -/

/-- General registers of the small state: numbers and values. -/
def demoRegs : List (GReg × Word) := [(1, 5), (2, -3), (4, 0x2000), (5, 0x1003)]

/-- The context of the small state. -/
def demoCtx : Ctx :=
  { linkCtx with
    core := some 0
    h := { linkCtx.h with run := 1, pc := 0x1000, pcap := linkRootcap }
    r := { Gregs.zero with
           g := demoRegs.foldl (fun v p => v.set p.1 p.2) Gregs.zero.g
           gp := 64
           oaddr := Gregs.zero.oaddr.set 6 0x999
           ocause := Gregs.zero.ocause.set 6 0x22
           c := (Gregs.zero.c.set 1 linkRootcap).set 2 (withOtype linkRootcap 1) }
    vr := { Vregs.zero with vl := 4 } }

/-- The small state. -/
def demo : State := { State.reset with ctxs := [(1, demoCtx)], cores := [(0, { Core.empty with slot := some 1 })] }

/-- The small state with its context changed. -/
def demoWith (f : Ctx → Ctx) : State := { demo with ctxs := [(1, f demoCtx)] }

/-- The small state whose vector agent acts on a captured capability and value. -/
def vdemo (capC : Cap) (capG : Word) (f : Ctx → Ctx) : State :=
  { demoWith (fun c => f { c with vqn := 1, vq := [{ words := 0, addr := 0x800, capC := capC, capG := capG }] }) with
    party := .vector }

/-- What holds of the state that an instruction leaves. -/
def leaves (o : Out) (p : State → Bool) : Bool := match o with
  | .next t => p t
  | .fault _ => false
  | .refused _ => false

/-- Register gN of the acting context after an instruction. -/
def leavesG (o : Out) (n : GReg) (v : Word) : Bool := leaves o (fun t => t.cur.r.g[n] == v && !t.cur.r.gp.getLsbD n)

/-- What holds of the value and the state of an operation that answers. -/
def answers {α : Type} (r : EStateM.Result Stop State α) (p : α → State → Bool) : Bool := match r with
  | .ok v t => p v t
  | .error _ _ => false

/-- Arguments of a SALU instruction: g3 from g1 and g2. -/
def sa (ty : Ty) (sat : Bool) : SaluArgs := { m := extMods, ty := ty, sat := sat, d := 3, a := 1, b := 2, lit := none }

/-- 5 and −3: sums, products and quotients by the rules of R145 and R146, at 64 bits and at the width of a type. -/
theorem test_scalar_results :
    leavesG (exec (.add (sa .i64 false)) demo) 3 2 = true ∧ leavesG (exec (.sub (sa .i8 false)) demo) 3 8 = true ∧
    leavesG (exec (.mul (sa .z8 false)) demo) 3 241 = true ∧ leavesG (exec (.mul (sa .z8 true)) demo) 3 255 = true ∧
    leavesG (exec (.mulh (sa .i16 false)) demo) 3 (-1) = true ∧ leavesG (exec (.div (sa .i32 false)) demo) 3 (-1) = true ∧
    leavesG (exec (.rem (sa .i32 false)) demo) 3 2 = true ∧ leavesG (exec (.andn (sa .i64 false)) demo) 3 0 = true ∧
    leavesG (exec (.shl (sa .z8 false)) demo) 3 160 = true ∧ leavesG (exec (.rot (sa .z8 false)) demo) 3 160 = true ∧
    leavesG (exec (.min (sa .z64 false)) demo) 3 5 = true ∧ leavesG (exec (.max (sa .i64 false)) demo) 3 5 = true ∧
    leavesG (exec (.bext (sa .z8 false)) demo) 3 3 = true ∧ leavesG (exec (.bdep (sa .z8 false)) demo) 3 9 = true ∧
    leavesG (exec (.clz { m := extMods, ty := .i8, d := 3, a := 1 }) demo) 3 5 = true ∧
    leavesG (exec (.popc { m := extMods, ty := .i8, d := 3, a := 2 }) demo) 3 7 = true ∧
    leavesG (exec (.addi { m := extMods, ty := .i8, sat := true, d := 3, a := 1, imm := 200 }) demo) 3 127 = true ∧
    leavesG (exec (.cmp { m := extMods, cond := .lt, ty := .i64, d := 3, a := 1, b := 2, lit := none }) demo) 3 0 = true ∧
    leavesG (exec (.cmp { m := extMods, cond := .lt, ty := .z64, d := 3, a := 1, b := 2, lit := none }) demo) 3 1 = true := by
  decide +kernel

/-! ### Premises that can be met

For each statement with premises, states and operands that meet them, clause by clause. -/

theorem test_premises_encodings :
    wellFormed (.add (sa .i8 true)) = true ∧ (toFields (.add (sa .i8 true))).isSome = true ∧
    (decodeWords (encode (.add (sa .i8 true)))).isSome = true ∧ (decodeQ 0x0405102B).isSome = true ∧
    (decodeLysyo 0x50800020).isSome = true ∧ wellFormed (.qePush { rd := 31, rs1 := 31, rs2 := 0 }) = true ∧
    wellFormed (.lysyoLi { rd := 15, ra := 0, imm := 0xFFFF }) = true ∧
    wellFormed (.roustaboutInstruction { compressed := false, op := .opImm .sra 31 31 63 }) = true ∧
    wellFormed (.roustaboutAmo { op := .lr, dbl := true, aq := true, rl := true, rd := 31, rs1 := 31, rs2 := 0 }) = true := by
  decide +kernel

/-- A state whose next turn is core 0's control thread, with the words of ADD.i8.sat at its pc. -/
def fetchDemo : State :=
  { demo with agenda := [.thread 0]
              mem := memWrite [] 0x1000 ((encode (.add (sa .i8 true))).map (fun w => bytesOfNat 4 w.toNat)).flatten }

theorem test_premises_step :
    (nextTurn fetchDemo).1 = .thread 0 ∧ atBoundary (nextTurn fetchDemo).2 0 = true ∧
    (let s := { (nextTurn fetchDemo).2 with core := 0, party := .control }
     match fetchInstr s.cur.h.pc s with
     | .ok ws _ => decide (decodeWords ws = some (.add (sa .i8 true)))
     | .error _ _ => false) = true ∧
    leaves (step fetchDemo) (fun t => (t.ctxAt 1).r.g[3] == 2 && (t.ctxAt 1).h.pc == 0x100C) = true := by
  decide +kernel

/-- Core 0's loader at its first word, c.addi x8, 1; calliope 0 at the first word of queue 0's program, END 0; an event. -/
theorem test_premises_turns :
    (let s := { demoWith (fun c => { c with loader := { c.loader with istore := [(0, 0x05), (1, 0x04)] } }) with
                agenda := [.roustabout 0 false] }
     decide ((nextTurn s).1 = .roustabout 0 false) && corePresent (nextTurn s).2 0 &&
       decide (((nextTurn s).2.coreAt 0).slot = some 1) && roustReady (nextTurn s).2 1 false &&
       (decodeRoustabout (roustCode (roustOf ((nextTurn s).2.ctxAt 1) false))).isSome &&
       leaves (step s) (fun t => (t.ctxAt 1).loader.x[8] == 1)) = true ∧
    (let r : LyRun := { queue := 0, regs := Vector.replicate 16 0, index := 0, steps := 0, loops := [] }
     let s := { demo with agenda := [.calliope 0]
                          fes := [(0, { FrontEnd.zero with progs := [(0, [0x04000000])], run := some r })] }
     decide ((nextTurn s).1 = .calliope 0) && decide (((nextTurn s).2.feAt 0).run = some r) &&
       decide (((((lookupKey r.queue ((nextTurn s).2.feAt 0).progs).getD [])[r.index]?).bind decodeLysyo) =
         some (.lysyoEnd { rd := 0, ra := 0, imm := 0 }))) = true ∧
    (let s := { demo with agenda := [.event (.periodEnd 5)] }
     decide ((nextTurn s).1 = .event (.periodEnd 5)) && !fetched (.periodEnd 5)) = true := by
  decide +kernel

theorem test_premises_memory :
    fetchClear fetchDemo 0x1000 = true ∧ Memory.wf fetchDemo.mem = true ∧ leaves (step State.reset) (fun _ => true) = true ∧
    Memory.wf State.reset.mem = true := by decide +kernel


/-- A guard that fails, one that passes, and the poisoned g6 of the small state. -/
theorem test_premises_scalar :
    scalarMods (.add { sa .i64 false with m := { extMods with ng1 := true } }) = some { extMods with ng1 := true } ∧
    passes { extMods with ng1 := true } demo = false ∧ passes extMods demo = true ∧
    scalarDest (.add (sa .i64 false)) = some 3 ∧ leaves (exec (.add (sa .i64 false)) demo) (fun _ => true) = true ∧
    gPoison demo.cur 6 = true ∧ gPoison demo.cur 1 = false := by decide +kernel

/-- A loop from 0xFFC whose branch at 0x1000 has turned 63 times with the load of 0x2000 as its last. -/
def spinDemo : State :=
  let l : SpinLoad := { pa := 0x2000, size := 8, scope := .core, value := 0, tag := false }
  demoWith (fun c => { c with spin :=
    { branch := some 0x1000, count := 63, seen := [(0x1000, { g := c.r.g, gp := c.r.gp, caps := c.r.c, last := some l })]
      runs := [(0xFFC, some l)], noted := false } })

/-- Branches forward, backward and not taken; the backward turn that is the 64th to qualify, its load made again. -/
theorem test_premises_branches :
    takenBranch (.b { m := baseMods, off := 1 }) demo = some (baseMods, 0x1004) ∧
    takenBranch (.bc { m := baseMods, cond := .gt, a := 1, off := -1 }) demo = some (baseMods, 0xFFC) ∧
    (spinAfter demo.cur 0x1000 0xFFC).count < 64 ∧ anyWaiting (pqOf demo demo.core .control) = false ∧
    (spinLast spinDemo.cur 0xFFC).isSome = true ∧ spinLast demo.cur 0xFFC = none ∧
    64 ≤ (spinAfter spinDemo.cur 0x1000 0xFFC).count ∧
    answers (drainParty .control spinDemo) (fun _ u => match spinLast u.cur 0xFFC with
      | some l => answers (spinReload l u) (fun v _ => v.1 == l.value && v.2 == l.tag)
      | none => false) = true ∧
    leaves (exec (.b { m := baseMods, off := -1 }) spinDemo) (fun t => decide (t.cur.parked = some 0x80)) = true ∧
    condHolds .lt (gVal demo.cur 1).toInt 0 = false := by decide +kernel

/-- A context whose return-address store holds n entries, with a spill area at 0x3000 that holds one entry. -/
def rasDemo (n : Nat) (ptr : Word) : State :=
  demoWith (fun c => { c with ras := Vector.replicate 16 0x1000, rasN := n
                              h := { c.h with rasBase := 0x3000, rasSpill := ptr, rasEnd := 0x3008, rootcap := linkRootcap } })

theorem test_premises_calls :
    calls (.call { m := baseMods, off := 1 }) demo = some (baseMods, 0x1004) ∧ (rasDemo 15 0x3000).cur.rasN < 16 ∧
    (rasDemo 16 0x3000).cur.h.rasSpill.toNat + 8 ≤ (rasDemo 16 0x3000).cur.h.rasEnd.toNat ∧
    answers (spillCheck 0x3000 .store .write (rasDemo 16 0x3000))
      (fun pa t => answers (issueStore 0x1000 pa 8 .core 0 t) (fun _ _ => true)) = true ∧
    field (gVal demo.cur 4) 0 2 = 0 ∧ field (gVal demo.cur 5) 0 2 ≠ 0 ∧
    (rasDemo 0 0x3008).cur.h.rasBase.toNat < (rasDemo 0 0x3008).cur.h.rasSpill.toNat ∧
    answers (spillCheck 0x3000 .load .read (rasDemo 0 0x3008))
      (fun pa t => answers (loadMem pa 8 .core 0 t) (fun bs _ => field (wordOfBytes bs) 0 2 == 0)) = true := by
  decide +kernel

/-- LD and ST of 8 bytes at c1 + off. -/
def ldArgs (off : Imm) (c : GReg) : LdArgs :=
  { m := extMods, ty := .i64, scope := .dflt, hint := 0, d := 3, a := 1, c := c, imm := off }

/-- What the check of LD or ST answers. -/
def ldCheck (x : LdArgs) (p : CapPerm) (tp : Perm) (s : State) (ok : State → Nat → Bool) (bad : Bool) : Bool :=
  answers (ctlCheck (readC s.cur x.a) (memOff (gVal s.cur x.c) x.imm) 8 p tp .core s) (fun r t => match r with
    | .ok pa => ok t pa
    | .error _ => bad)

/-- The small state where accesses wait. -/
def heldDemo : State := { demo with hold := true }

theorem test_premises_loads_and_stores :
    ldCheck (ldArgs 0x2000 0) .load .read demo (fun t pa => pa == 0x2000 && !inCtl pa && !mayHold t && pa % 8 == 0 &&
      !meetsOwn t [(pa, 8)] && answers (loadMem pa 8 .core 0 t) (fun _ _ => true)) false = true ∧
    ldCheck (ldArgs 0x2000 0) .load .read heldDemo (fun t pa => pa % 8 == 0 && mayHold t && !stepsNext t.cur 3) false = true ∧
    ldCheck (ldArgs 0x2001 0) .load .read demo (fun _ pa => pa % 8 != 0 && !inCtl pa) false = true ∧
    ldCheck (ldArgs (-8) 0) .load .read demo (fun _ _ => false) true = true ∧ gPoison demo.cur 6 = true ∧
    ldCheck (ldArgs 0x2000 0) .store .write demo (fun t pa => !mayHold t && !t.cur.spec && !inCtl pa &&
      !meetsOwn t [(pa, 8)] && answers (storeMem pa (wordBytes 8 7) .core 0 t) (fun _ _ => true)) false = true ∧
    ldCheck (ldArgs 0x2008 0) .store .write heldDemo (fun t _ => mayHold t) false = true ∧
    ldCheck (ldArgs (-8) 0) .store .write demo (fun _ _ => false) true = true ∧ active extMods demo.cur 0 = true ∧
    inMemory demo 0x2038 = true ∧ 0x2038 % 64 + 8 ≤ 64 ∧ isRstate demo 0x2038 = false ∧ quietLine demo 0 (lineOf 0x2038) = true := by
  decide +kernel

theorem test_premises_capability_accesses :
    answers (ctlCheck (readC demo.cur 1) 16 16 .load .read .core demo) (fun r t => match r with
      | .ok pa => pa % 16 == 0 && !inCtl pa && capHas (readC demo.cur 1) .lcap && !mayHold t &&
          answers (loadCapMem pa .core 0 t) (fun _ _ => true)
      | .error _ => false) = true ∧
    answers (ctlCheck (readC demo.cur 1) 16 16 .store .write .core heldDemo) (fun r t => match r with
      | .ok pa => pa % 16 == 0 && mayHold t
      | .error _ => false) = true ∧
    answers (ctlCheck (readC demo.cur 1) 16 16 .store .write .core demo) (fun r t => match r with
      | .ok pa => pa % 16 == 0 && capHas (readC demo.cur 1) .scap && !t.cur.spec && !meetsOwn t [(pa, 16)] &&
          answers (storeCapMem pa (readC demo.cur 2) .core 0 t) (fun _ _ => true)
      | .error _ => false) = true ∧
    answers (capAccess (readC demo.cur 1) 0x2000 8 .load .both .sys demo) (fun r t => match r with
      | .ok pa => pa % 8 == 0 && !inCtl pa && capHas (readC demo.cur 1) .store && answers (releaseOwn .sys t) (fun _ _ => true)
      | .error _ => false) = true ∧
    demo.cur.spec = false := by decide +kernel

theorem test_premises_fences :
    answers ((do waitVector; drainParty .vector; drainParty .control : M Unit) demo) (fun _ _ => true) = true ∧
    (acting demo 0 .vector).party = .vector ∧ answers (olderScalar (acting demo 0 .vector)) (fun _ _ => true) = true ∧
    (let s := { demoWith (fun c => { c with vlive := 1, vqn := 2 }) with party := .vector }
     decide (0 < s.cur.vlive) && answers ((do drainParty .vector; olderScalar : M Unit) s) (fun _ _ => true)) = true ∧
    answers (releaseOwn .pkg demo) (fun _ r =>
      let u := translationsDropped r .pkg .all 0 0
      !u.cores.any (fun p => tfenceCovers u.core .pkg p.1 && coreStalls u p.1)) = true ∧
    answers (lineCheck { m := extMods, scope := .dflt, a := 1, b := 4, imm := 0 } false demo) (fun pa t =>
      answers (ownFirst (alignDown pa 64) 64 t) (fun _ _ => true)) = true ∧
    answers (lineCheck { m := extMods, scope := .dflt, a := 1, b := 4, imm := 0 } true demo) (fun _ _ => true) = true := by
  decide +kernel

theorem test_premises_capabilities :
    isUnsealed demo.cur 1 = true ∧ isUnsealed demo.cur 2 = false ∧ field (0x3F : Word) 8 8 = 0 ∧
    field (0x23F : Word) 8 8 ≠ 0 ∧ field (0x23F : Word) 8 8 ≠ 1 ∧
    (boundCap linkRootcap 64).tag = true ∧ (maskPerms linkRootcap 1).tag = true ∧ (setCursor linkRootcap 64).tag = true := by
  decide +kernel

/-- Queue 0, a service queue with room whose ring is at 0x4000; c2 names its head page, sealed; c3 the same, unsealed. -/
def serviceDemo : State :=
  let page := boundCap (setCursor linkRootcap (BitVec.ofNat 64 (queuePage 0))) 4096
  { demoWith (fun c => { c with r := { c.r with c := (c.r.c.set 2 (withOtype page 1)).set 3 page } }) with
    queues := [(0, { Queue.zero with valid := true, kind := 2, lg := 1, ringbase := 0x4000 })] }

theorem test_premises_services :
    (readC serviceDemo.cur 2).tag = true ∧ capOtype (readC serviceDemo.cur 2) = 1 ∧
    answers ((do waitVector; quiet : M Unit) serviceDemo) (fun _ d =>
      serviceQueue (release d d.core .sys) (capBounds (readC serviceDemo.cur 2)).1 == some 0) = true ∧
    ([1, 1, 2, 3, 4] : List GReg).all (fun n => !gPoison serviceDemo.cur n) = true ∧
    answers (sealQueue (readC serviceDemo.cur 3) (withOtype (maskPerms (readC serviceDemo.cur 3) 1) 1) serviceDemo)
      (fun r _ => r.tag) = true ∧
    queueFull (serviceDemo.queueAt 0) = false ∧
    0x4000 % 64 = 0 ∧ inMemory serviceDemo 0x4000 = true ∧ isRstate serviceDemo 0x4000 = false := by decide +kernel

theorem test_services_no_cut (d : Nat) : (serviceDemo.snapAt d).cut = false := rfl

theorem test_premises_waits :
    answers (ctlCheck (readC demo.cur 1) (memOff (gVal demo.cur 4) (0 : Imm)) 8 .load .read .sys demo) (fun r t => match r with
      | .ok pa => pa == 0x2000 && pa % 8 == 0 && !inCtl pa && answers (loadMem pa 8 .sys 0 t) (fun _ _ => true)
      | .error _ => false) = true ∧
    gPoison demo.cur 4 = false ∧ answers ((do waitVector; quiet : M Unit) demo) (fun _ _ => true) = true ∧
    haltWaits demo 1 = false ∧ quietAgents demo 1 = true ∧ (demo.ctxAt 1).spec = false ∧ (demo.ctxAt 1).ending = false ∧
    (vqEntries (demo.ctxAt 1)).all (fun e => !entryBad e) = true ∧
    ((demoWith (fun c => { c with ending := true })).ctxAt 1).ending = true := by decide +kernel

/-- The vector queue with VADD as its only entry. -/
def queueDemo : State :=
  demoWith (queued (.vadd { m := extMods, zf := false, ty := .i8, sat := false, wid := 0, d := 3, a := 1, b := 2 }) Cap.zero 0)

theorem test_premises_replay :
    (vqEntries (queueDemo.ctxAt 1)).all (fun e => !entryBad e) = true ∧ mayCommit (acting queueDemo 0 .vector).cur = true ∧
    (queueDemo.coreAt 0).slot = some 1 ∧
    (let i : Instr := .vadd { m := extMods, zf := false, ty := .i8, sat := false, wid := 0, d := 3, a := 1, b := 2 }
     decide (entryInstr (vqHead (acting queueDemo 0 .vector).cur) = some i) && match vecReady i (acting queueDemo 0 .vector) with
       | some r => (vecDispatch i r).isSome && leaves (exec i r) (fun _ => true)
       | none => false) = true ∧
    leaves (exec (.commit 0) queueDemo) (fun t => (t.ctxAt 1).vqn == 0) = true := by decide +kernel

/-- The traps: the poisoned g6, the unaligned g5, the sealed c2. -/
theorem test_premises_traps :
    consumesFirst (.jmp { m := extMods, a := 6 }) = some (extMods, 6) ∧ gPoison demo.cur 6 = true ∧
    gPoison demo.cur 5 = false ∧ field (gVal demo.cur 5) 0 2 ≠ 0 ∧ isUnsealed demo.cur 2 = false ∧
    (match boundaryWords (acting demo 0 .control) with
     | some (ws, _) => (decodeWords ws).isNone
     | none => false) = true ∧
    (let s := demoWith (fun c => { c with trap := some { cause := 1, party := 1, detail0 := 0, detail1 := 0, poisonPc := 0 } })
     (s.ctxAt 1).trap.isSome && (s.ctxAt 1).h.run != 0 && (s.ctx? 1).isSome) = true := by decide +kernel

/-- An access of 8 bytes. -/
def acc (k : AccKind) : Access := { n := 0, kind := k, pa := 0x2000, size := 8, scope := .core, hint := 0, code := 0 }

/-- The small state with the queues of a party of core 0 set. -/
def pqDemo (p : Party) (q : PartyQ) : State := modPq demo 0 p (fun _ => q)

/-- A load and a store of the same bytes in each of the three queues, and a store behind a load of other bytes. -/
theorem test_premises_deferred :
    (let a := acc (.loadG .i64 3)
     let b : Access := { acc (.store 7) with pa := 0x2008 }
     let s := pqDemo .control { issue := [a, b], pending := [], stores := [] }
     !olderMeets (pqOf s 0 .control).issue 0 a && !olderMeets (pqOf s 0 .control).issue 1 b && isStore b &&
       !(pqOf s 0 .control).pending.any (overlaps b) && !accStalls s b) = true ∧
    (let a := acc (.loadG .i64 3)
     let s := pqDemo .control { issue := [], pending := [a], stores := [acc (.store 7)] }
     !olderMeets (pqOf s 0 .control).pending 0 a && !behindRstate s (pqOf s 0 .control).stores (accRanges a) &&
       leaves (exec (.performLoad ⟨0, .control, 0⟩) s) (fun t =>
       t.cur.r.g[3] == 7)) = true ∧
    (let a := acc (.store 7)
     let s := pqDemo .control { issue := [], pending := [], stores := [a] }
     !olderMeets (pqOf s 0 .control).stores 0 a && leaves (exec (.performStore ⟨0, .control, 0⟩) s) (fun t =>
       seenBy t 0 0x2000 == 7)) = true ∧
    (let a : Access := { acc (.loadV [{ pa := 0x2000, w := 8, high := false, d := 3, e := 0, code := 0 }]) with n := 1 }
     let s := pqDemo .vector { issue := [], pending := [a], stores := [] }
     !olderMeets (pqOf s 0 .vector).pending 0 a && !accStalls s a && !behindRstate s [] (accRanges a) &&
       leaves (exec (.performLoad ⟨0, .vector, 0⟩) s) (fun _ => true)) = true := by decide +kernel

/-- A load of a record's RSTATE word waits for a buffered store to it, which gives it no bytes (R314). -/
theorem test_rstate_load_waits :
    (let a := acc (.loadG .i64 3)
     let s := (pqDemo .control { issue := [], pending := [a], stores := [acc (.store 7)] }).modRegion 3
       (fun r => { r with valid := true, pool := 0x2000, pooln := 1 })
     leaves (exec (.performLoad ⟨0, .control, 0⟩) s) (fun t => (pqOf t 0 .control).pending.length == 1) &&
       leaves (exec (.performStore ⟨0, .control, 0⟩) s) (fun t => rstateWord t 0x2000 == 0)) = true := by decide +kernel

/-- A dirty line of level one, a clean one, and a line of level two. -/
theorem test_premises_evictions :
    (let s := storeBytes demo 0 none 0x2000 [7] .core 0
     (match s.l1Line 0 0x80 with
      | some x => x.dirty != 0 && narrower x.scope .die
      | none => false) && quietLine s 0 0x80 && leaves (exec (.evict1 0 0x80) s) (fun t => (t.l2Line 0 0x80).isSome)) = true ∧
    (let s := (ctxLoad demo 0 0x2000 8 .core 0).1
     match s.l1Line 0 0x80 with
     | some x => x.dirty == 0
     | none => false) = true ∧
    (let s := storeBytes demo 0 none 0x2000 [7] .die 0
     (s.l2Line 0 0x80).isSome && s.ties.isEmpty && s.side.isEmpty && s.snaps.isEmpty &&
       leaves (exec (.evict2 0 0x80) s) (fun t => memGet t.mem 0x2000 == 7)) = true := by
  decide +kernel

/-- A vector instruction at the boundary, a stop, a step, a commit request and a park whose line was written. -/
theorem test_premises_boundaries :
    (let i : Instr := .pand { m := extMods, zf := false, d := 1, a := 2, b := 3 }
     let s := { demo with mem := memWrite [] 0x1000 ((encode i).map (fun w => bytesOfNat 4 w.toNat)).flatten }
     match boundaryWords (acting s 0 .control) with
     | some (ws, t) => decide (decodeWords ws = some i) && match ready i t with
       | some r => (vecDispatch i r).isSome && leaves (exec i r) (fun _ => true)
       | none => false
     | none => false) = true ∧
    (let s := demoWith (fun c => { c with halt := some .stop })
     (s.ctx? 1).isSome && (s.ctxAt 1).h.run != 0 && !haltWaits s 1 &&
       leaves (exec (.haltStep 1) s) (fun t => (t.ctxAt 1).h.run == 0)) = true ∧
    (let s := demoWith (fun c => { c with halt := some .step })
     decide ((s.ctxAt 1).vqn ≤ (s.ctxAt 1).vlive) && leaves (exec (.haltStep 1) s) (fun t => (t.ctxAt 1).h.run == 0)) = true ∧
    (let s := demoWith (fun c => { c with h := { c.h with reqVl := true, shVlcap := 16 } })
     commitPending (s.ctxAt 1) && !haltWaits s 1 && quietAgents s 1 &&
       leaves (exec (.commitApply 1) s) (fun t => (t.ctxAt 1).h.vlcap == 16)) = true ∧
    (let s := demoWith (fun c => { c with parked := some 0x80, hit := true })
     (s.ctxAt 1).hit && leaves (exec (.parkWake 1) s) (fun t => (t.ctxAt 1).parked.isNone)) = true := by decide +kernel

/-- A trap record and an error report that wait for the fault queue of region 0. -/
def reportDemo (pend : Bool) : State :=
  { demoWith (fun c => { c with h := { c.h with pend := pend } }) with
    regions := [(0, { rootRegion 36 with faultq := BitVec.ofNat 64 (queuePage 0) })]
    queues := [(0, { Queue.zero with valid := true, kind := 1, lg := 1, ringbase := 0x4000 })]
    reports := [{ region := 0, line := 1, level := 1 }] }

theorem test_premises_records :
    queueFull ((reportDemo true).queueAt 0) = false ∧
    ((reportDemo true).ctxs.find? (fun p => p.2.h.pend && faultQueue (reportDemo true) treeFuel p.2.h.region == some 0)).isSome =
      true ∧
    ((reportDemo false).ctxs.find? (fun p => p.2.h.pend && faultQueue (reportDemo false) treeFuel p.2.h.region == some 0)).isNone =
      true ∧
    ((reportDemo false).reports.find? (fun r => faultQueue (reportDemo false) treeFuel r.region == some 0)).isSome = true := by
  decide +kernel


/-- Does an operation answer and leave the state as it was? -/
def keeps {α : Type} (m : M α) (s : State) (p : α → Bool) : Bool := answers (m s) (fun v t => p v && decide (t = s))

/-- The small state whose vector agent acts, with capability c1's value and 0x2000 captured. -/
def vd : State := vdemo linkRootcap 0x2000 id

/-- The arguments of a VIALU instruction: v3 from v1 and v2. -/
def vb (ty : Ty) (wid : BitVec 2) : VBinArgs :=
  { m := extMods, zf := false, ty := ty, sat := false, wid := wid, d := 4, a := 1, b := 2 }

/-- The sources of the vector instructions read, the destination groups fit, guards pass and fail. -/
theorem test_premises_vectors :
    vecActs extMods vd = true ∧ active extMods vd.cur 0 = true ∧
    keeps (readV 1 .i8) vd (fun xs => xs.length == 4) = true ∧ keeps (readV 2 .f32) vd (fun xs => xs.length == 4) = true ∧
    keeps (checkDest 4 64) vd (fun _ => true) = true ∧
    keeps (checkDestN 4 1 8) vd (fun _ => true) = true ∧ keeps (readN 4 .z8 1) vd (fun xs => xs.length == 1) = true ∧
    keeps (consumeV extMods [(1, 8, [Elem.zero])]) vd (fun _ => true) = true ∧
    firstSet extMods vd.cur 0 = some 0 ∧ firstSet extMods vd.cur 1 = none ∧
    captures (.vld { m := extMods, zf := false, ty := .i8, scope := .dflt, hint := 0, d := 4, a := 1, b := 4, imm := 0 }) =
      some (extMods, some 4, some 1) ∧
    neverPasses extMods = false ∧ neverPasses { extMods with ng2 := true } = true ∧
    vecDest (.vadd (vb .i8 0)) = some 4 ∧ zeroing (.vadd (vb .i8 0)) = false ∧
    leaves (exec (.vadd (vb .i8 0)) demo) (fun t => t.cur.vqn == 1) = true ∧
    leaves (exec (.vadd (vb .i8 3)) vd) (fun t => t.cur.vqn == 0) = true := by decide +kernel

/-- A vector register holding 1, 255, 3, 128 in bytes, and a result of VADD, VMUL and VMULH of it with itself. -/
theorem test_integer_vector_results :
    (let s := vdemo Cap.zero 0 (fun c => { c with vr := { c.vr with v := (c.vr.v.set 1 0x8003FF01).set 2 0x8003FF01 } })
     leaves (exec (.vadd (vb .i8 0)) s) (fun t => t.cur.vr.v[4] == 0x0006FE02) &&
     leaves (exec (.vadd { vb .i8 0 with sat := true }) s) (fun t => t.cur.vr.v[4] == 0x8006FE02) &&
     leaves (exec (.vadd { vb .z8 0 with sat := true }) s) (fun t => t.cur.vr.v[4] == 0xFF06FF02) &&
     leaves (exec (.vmul (vb .i8 1)) s) (fun t => t.cur.vr.v[4] == 0x4000000900010001) &&
     leaves (exec (.vmulh (vb .z8 0)) s) (fun t => t.cur.vr.v[4] == 0x4000FE00)) = true := by decide +kernel

/-- 1.0, 2.0, 0.5, −1.0 in FP32: sums with themselves, and the comparison with 1. -/
theorem test_float_vector_results :
    (let s := vdemo Cap.zero 0 (fun c => { c with vr := { c.vr with
       v := (c.vr.v.set 1 0xBF8000003F000000400000003F800000).set 2 0xBF8000003F000000400000003F800000 } })
     let x : VfBinArgs := { m := extMods, zf := false, ty := .f32, rm := .rn, sat := false, wid := 0, d := 4, a := 1, b := 2 }
     leaves (exec (.vfadd x) s) (fun t => t.cur.vr.v[4] == 0xC00000003F8000004080000040000000) &&
     leaves (exec (.vfmul x) s) (fun t => t.cur.vr.v[4] == 0x3F8000003E800000408000003F800000) &&
     leaves (exec (.vfdiv x) s) (fun t => t.cur.vr.v[4] == 0x3F8000003F8000003F8000003F800000) &&
     leaves (exec (.vfcmp { m := extMods, zf := false, ty := .f32, cond := .eq, d := 1, a := 1, b := 2 }) s)
       (fun t => t.cur.vr.p[1] == 15)) = true := by decide +kernel


/-- Arguments of VLD and its relatives: v4 at c1 + the captured 0x2000. -/
def vm (imm : Imm) : VMemArgs :=
  { m := extMods, zf := false, ty := .i32, scope := .dflt, hint := 0, d := 4, a := 1, b := 4, imm := imm }

/-- Arguments of VLDX and VSTX: v4 at c1 + the elements of v2. -/
def vx : VMemXArgs := { m := extMods, zf := false, ty := .i32, scope := .dflt, hint := 0, d := 4, a := 1, b := 2 }

/-- Arguments of VLDSEG and VSTSEG: fine blocks of .e4m3, scales in v3. -/
def vs : VSegArgs :=
  { m := extMods, zf := false, fine := true, ty := .e4m3, scope := .dflt, hint := 0, d := 4, a := 1, b := 4, c := 3,
    dist := 0x100 }

/-- The small state at vl 16. -/
def vd16 : State := vdemo linkRootcap 0x2000 (fun c => { c with vr := { c.vr with vl := 16 } })

/-- Checked accesses that join the queue or perform. -/
def accesses {α : Type} (s : State) (check : M (List α)) (n : Nat) (go : List α → M Unit) : Bool :=
  answers (check s) (fun got t => got.length == n && answers (go got t) (fun _ _ => true))

theorem test_premises_vector_memory :
    accesses vd ((activeElems extMods vd.cur).mapM (fun e => do
      return (e, ← loadCheck linkRootcap 1 .core 4 32 e e (strided false (vm 0) 0x2000 e)))) 4
      (fun got => issueLoads (passed got) .core 0) = true ∧
    accesses vd ((activeElems extMods vd.cur).mapM (fun e => do
      return (e, ← loadCheck linkRootcap 1 .core 4 32 e e (strided true (vm (-0x2000)) 0x2000 e)))) 4
      (fun got => issueLoads (passed got) .core 0) = true ∧
    keeps (readV 2 .i32) vd (fun idx => accesses vd ((activeElems extMods vd.cur).mapM (fun e => do
      return (e, ← loadCheck linkRootcap 1 .core 4 32 e e (← placeIdx 2 idx e)))) 4
      (fun got => issueLoads (passed got) .core 0)) = true ∧
    answers (checkFirst .i32 4 1 linkRootcap .core (memOff 0x2000 (0 : Imm)) (activeElems extMods vd.cur) vd) (fun r _ =>
      r.1.length == 4 && r.2.isNone) = true ∧
    keeps (readV 4 .i32) vd (fun xs => accesses vd ((activeElems extMods vd.cur).mapM (fun e =>
      storeCheck linkRootcap 1 .core 4 32 e e (strided false (vm 0) 0x2000 e) (xs.getD e Elem.zero))) 4
      (fun out => issueStores (out.map (fun y => [y])) .core 0)) = true ∧
    keeps (readV 2 .i32) vd (fun idx => keeps (readV 4 .i32) vd (fun xs =>
      accesses vd ((activeElems extMods vd.cur).mapM (fun e => do
        storeCheck linkRootcap 1 .core 4 32 e e (← placeIdx 2 idx e) (xs.getD e Elem.zero))) 4
      (fun out => issueStores (out.map (fun y => [y])) .core 0))) = true ∧
    mayHold vd = false ∧ mayHold { vd with hold := true } = true ∧ vd.cur.spec = false ∧ vd.cur.mx.load = none ∧
    waitingOf vd vd.core vd.party = [] ∧ meetsOwn vd [(0x2000, 4)] = false := by decide +kernel

/-- VLDFF whose third element faults: bounds of 8 bytes at 0x2000. -/
theorem test_premises_first_fault :
    (let cap := boundCap (setCursor linkRootcap 0x2000) 8
     let s := vdemo cap 0 id
     answers (checkFirst .i32 4 1 cap .core (memOff 0 (0 : Imm)) (activeElems extMods s.cur) s) (fun r _ =>
       r.1.length == 2 && r.2.isSome) && leaves (exec (.vldff (vm 0)) s) (fun t => t.cur.vr.vl == 2)) = true := by
  decide +kernel

theorem test_premises_segments_of_memory :
    keeps (segCheck vs) vd16 (fun r => accesses vd16 ((activeSegs vs vd16.cur).mapM (fun k => do
      return (k, ← segLoads vs linkRootcap r.1 r.2 k))) 1
      (fun got => issueLoads (got.filterMap (fun g => g.2.toOption)) .core 0)) = true ∧
    keeps (readN 3 .z8 1) vd16 (fun scales => keeps (readV 4 .e4m3) vd16 (fun xs => keeps (segCheck vs) vd16 (fun r =>
      accesses vd16 ((activeSegs vs vd16.cur).mapM (segStores vs linkRootcap r.1 r.2 xs scales)) 1
        (fun out => issueStores out .core 0)))) = true ∧
    keeps (checkDest 4 8) vd16 (fun _ => true) = true ∧ keeps (checkDestN 3 1 8) vd16 (fun _ => true) = true := by
  decide +kernel

/-- A short and a long context, with no lanes and lanes to be had; elements at the ends of the register file. -/
theorem test_premises_vector_lengths :
    vd.cur.vr.long = false ∧
    (let s := vdemo Cap.zero 100 (fun c => { c with vr := { c.vr with long := true } })
     s.cur.vr.long && decide (8 ≤ effLimit s 1 s.cur.h.region) &&
       answers (grantSetvl (lanesWanted 100 32 (laneCap s s.cur)) s) (fun g t => g == 64 &&
         answers (takeLanes g t) (fun _ _ => true))) = true ∧
    (let s := vdemo Cap.zero 0 (fun c => { c with vr := { c.vr with long := true } })
     answers (takeLanes 0 s) (fun _ _ => true)) = true ∧
    lbits Vregs.zero ∈ [256, 512, 1024, 2048, 4096] ∧ 31 + 4 * 63 / lbits Vregs.zero < 32 ∧
    28 + 64 * 15 / lbits Vregs.zero < 32 := by decide +kernel

/-- Shifts of the string of four bytes. -/
theorem test_premises_string_shifts :
    keeps (readV 1 .i8) vd (fun xs =>
      answers (shiftWrite extMods false 4 8 (stringOf vd.cur.vr 1 false 8 xs) (WString.zeros 4) 24 vd) (fun _ _ => true) &&
      answers (shiftWrite extMods false 4 8 (WString.zeros 4) (stringOf vd.cur.vr 1 false 8 xs) 8 vd) (fun _ _ => true)) =
      true := by decide +kernel

/-- A valid tile in slot 0 and nothing in flight. -/
def tileDemo : State :=
  vdemo (setCursor linkRootcap (BitVec.ofNat 64 (spadOf 0))) 0 (fun c => { c with mx := { c.mx with
    slot0 := { Tile.invalid with valid := true, ty := .e4m3 } } })

theorem test_premises_matrix :
    (activeTile tileDemo.cur.mx).valid = true ∧ rowKind .e4m3 .e4m3 .none = some false ∧
    keeps (readRow { m := extMods, ty := .e4m3, sat := false, sk := .none, d := 0, a := 4, c := 0 }) tileDemo (fun _ => true) =
      true ∧
    tileDemo.cur.mx.load = none ∧ ((shadowTile tileDemo.cur.mx).valid && (shadowTile tileDemo.cur.mx).pend) = false ∧
    answers (tileAccess 1 (setCursor linkRootcap (BitVec.ofNat 64 (spadOf 0))) 0
      (32768 + tileScales .none (tileK .e4m3)) tileDemo) (fun pa _ => pa == spadOf 0) = true ∧
    answers (tileAccess 1 (setCursor linkRootcap (BitVec.ofNat 64 (pewterOf 0))) 0
      (32768 + tileScales .none (tileK .e4m3)) tileDemo) (fun pa t => pa == pewterOf 0 &&
        (badUnit t 0 pa (32768 + tileScales .none (tileK .e4m3))).isNone) = true ∧
    chainBad 0 = false ∧
    answers (capAccess linkRootcap 0x2000 1024 .load .read .core vd) (fun r t => match r with
      | .ok pa => pa % 64 == 0 && answers (loadMem pa 1024 .core 0 t) (fun _ _ => true)
      | .error _ => false) = true ∧
    field (0 : Word) 0 8 + vd.cur.vr.vl.toNat ≤ 256 ∧ field (252 : Word) 0 8 + vd.cur.vr.vl.toNat ≤ 256 ∧
    (tileDemo.coreAt 0).slot = some 1 := by decide +kernel


/-- The command word of a COPY of 64 bytes on port 0. -/
def copyWord : Word := 64

/-- The small state with values in queues: QA, QB, a result of port 0, an event. -/
def queuesDemo : State :=
  demoWith (fun c => { c with q := { c.q with
    qa := [1], qb := [2], results := [(0, [{ w0 := 3, w1 := 0, ranges := [] }])]
    events := [{ w0 := 4, w1 := 0, w2 := 0, w3 := 0, ranges := [] }] } })

theorem test_premises_queues :
    cmdPort (setField 0 58 6 18) = 18 ∧ demo.cur.q.qd.length < 16 ∧ cmdPort copyWord ≠ 18 ∧
    liveEngine demo 0 (cmdPort copyWord) = some 0 ∧ pushRoom demo 0 (cmdPort copyWord) = true ∧
    liveEngine demo 0 (cmdPort (setField 0 58 6 2)) ≠ liveEngine demo 0 3 ∧
    liveEngine demo 0 3 = none ∧
    queuesDemo.cur.q.qa = [1] ∧ queuesDemo.cur.q.qb = [2] ∧ isEnginePort 0 = true ∧
    (resFifo queuesDemo.cur 0 .control).length = 1 ∧ queuesDemo.cur.q.events.length = 1 ∧
    demo.cur.q.qa = [] ∧ demo.cur.q.qb = [] ∧ resFifo demo.cur 0 .control = [] ∧ demo.cur.q.events = [] ∧
    leavesG (exec (.epop { m := extMods, d := 3, port := 0 }) queuesDemo) 3 3 = true := by decide +kernel

/-- A binding record at 0x2000: one strip of 64 bytes of .i8. -/
theorem test_premises_bindings :
    (let s := { vd with mem := memWrite [] 0x2000 (bytesOfNat 8 (64 <<< 16 ||| 3)) }
     answers (capAccess linkRootcap 0x2000 64 .load .read .core s) (fun r t => match r with
       | .ok pa =>
         let l := loadPiece t t.core (ctxWsets t t.cur) pa 64 .core 0
         pa % 64 == 0 && capHas linkRootcap .lcap && !bindBad (wordOfBytes (l.2.1.take 8))
       | .error _ => false) &&
     leaves (exec (.vbind { m := extMods, hint := 0, d := 0, a := 1, b := 4, imm := 0 }) s)
       (fun t => t.cur.q.binds[0].bound)) = true := by decide +kernel

/-- A deque of 4 entries on core 0 and the records of region 0 at 0x8000, record 0 in a state. -/
def taskDemo (st : Nat) (inq : Bool) : State :=
  { demoWith (fun c => { c with r := { c.r with g := c.r.g.set 7 0 } }) with
    cores := [(0, { Core.empty with slot := some 1, dqcfg := BitVec.ofNat 64 (64 <<< 32) }), (1, Core.empty)]
    regions := [(0, { rootRegion 36 with pool := 0x8000, pooln := 2 })]
    recs := [(0x8000, { state := st, inq := inq })] }

theorem test_premises_tasks :
    handleCheck (taskDemo 1 false) 0 0 false = .ok 0 ∧ handleCheck (taskDemo 1 false) 0 2 false = .error 8 ∧
    handleCheck (taskDemo 1 false) 0 (BitVec.ofNat 64 (5 <<< 32)) false = .error 4 ∧
    ((taskDemo 1 false).recAt (recordAt (taskDemo 1 false) 0 0)).state = 1 ∧
    (dqArea ((taskDemo 1 false).coreAt 0).dqcfg).1 = 4 ∧
    leavesG (exec (.dpush { m := extMods, d := 3, a := 7, b := 1, k := 0 }) (taskDemo 1 false)) 3 0 = true ∧
    leavesG (exec (.dpush { m := extMods, d := 3, a := 7, b := 1, k := 0 }) (taskDemo 1 true)) 3 6 = true ∧
    leavesG (exec (.dpush { m := extMods, d := 3, a := 7, b := 1, k := 0 })
      { taskDemo 1 false with cores := [(0, { Core.empty with slot := some 1 })] }) 3 2 = true ∧
    leavesG (exec (.dpop { m := extMods, d := 3 }) (taskDemo 1 false)) 3 1 = true ∧
    leavesG (exec (.dpop { m := extMods, d := 3 }) (dqPush (taskDemo 1 false) 0 0 0 5)) 5 5 = true ∧
    corePresent demo 143 = true ∧ corePresent demo 144 = false ∧
    stealCheck (taskDemo 1 false) 0 0 0 = some 1 ∧ stealCheck (dqPush (taskDemo 1 false) 0 0 0 5) 0 0 0 = none ∧
    (dqArea (BitVec.ofNat 64 (64 <<< 32) : Word)).2.1 % 16 = 0 ∧
    handleCheck (taskDemo 0 false) 0 (BitVec.ofNat 64 (8 <<< 16)) true = .ok 0 ∧
    ((taskDemo 0 false).recAt (recordAt (taskDemo 0 false) 0 0)).state = 0 ∧
    leavesG (exec (.lpatch { m := extMods, d := 3, a := 7, b := 1, k := 0, lit := none }) (taskDemo 0 false)) 3 0 = true ∧
    armTable.length = 3 := by decide +kernel

/-- A level of the carousel; a body of one ADD at 0x100C; a path of the sideshow with one entry. -/
theorem test_premises_loops :
    (gVal demo.cur 1).toNat + (4095#12).toNat < 2 ^ 32 ∧
    (let s := { demo with
                mem := memWrite [] 0x1000 (([0x0400018C#32] ++ encode (.add (sa .i8 true))).map
                  (fun w => bytesOfNat 4 w.toNat)).flatten }
     answers (fetchBody 0x1004 1 s) (fun body _ => (barredAt 0x1004 body).isNone &&
       (poisonedLevel s.cur).isNone) &&
     answers (skipBody 0x1004 1 s) (fun e _ => e == 0x1010) &&
     leaves (exec (.clrun { m := baseMods, n := 1 }) s) (fun t => t.cur.car.cln == 1)) = true ∧
    (let s := vdemo Cap.zero 7 (fun c => { c with ss := { c.ss with slots := 4, lp := 1 } })
     pathOk s.cur.ss 1 && !pathOk s.cur.ss 2 && keeps (valueRegs 4 .i32 1) s (fun l => l == [4]) &&
       keeps (readV 4 .i32) s (fun xs => xs.all (·.q.isNone)) && decide ((activeElems extMods s.cur).length ≤ s.cur.ss.slots) &&
       leaves (exec (.vdefer { m := extMods, ty := .i32, p := 1, k := 1, a := 4, b := 1 }) s)
         (fun t => (t.cur.ss.counts)[1] == 4) &&
       keeps (checkDest 8 32) s (fun _ => true) &&
       (firstOverlap ((8, groupRegs s.cur.vr 8 4 32) :: [(4, groupRegs s.cur.vr 4 4 32)])).isNone) = true := by
  decide +kernel


/-! ### Troupes and speculation -/

/-- A template at 0x2000: epsilon 1.0, a quorum of 2, no time-out. -/
def templateBytes (w : Word) : List Byte := wordBytes 8 w ++ wordBytes 8 0

/-- The small state with a template and n siblings asked for in g8. -/
def forkDemo (n w : Word) : State :=
  { demoWith (fun c => { c with r := { c.r with g := c.r.g.set 8 n, c := c.r.c.set 3 (setCursor linkRootcap 0x2000) } }) with
    mem := memWrite [] 0x2000 (templateBytes w)
    regions := [(0, { rootRegion 36 with slot0 := 1, slotN := 65 })]
    cores := [(0, { Core.empty with slot := some 1 })] }

/-- TFORK of the tests. -/
def forkArgs : TforkArgs := { m := extMods, d := 9, a := 8, b := 3, off := 4 }

/-- The template is read at 0x2000, and its checks answer as said. -/
def forkReads (s : State) (p : Word → Word → State → Bool) : Bool :=
  answers (capAccess (readC s.cur 3) 0 16 .load .read .core s) (fun r t => match r with
    | .ok pa => !inCtl pa && pa % 16 == 0 && answers (loadMem pa 16 .core 0 t) (fun bs u =>
        p (wordOfBytes (bs.take 8)) (wordOfBytes (bs.drop 8)) u &&
          answers ((do waitVector; drainParty .vector; releaseOwn .pkg : M Unit) u) (fun _ _ => true))
    | .error _ => false)

/-- A troupe of two siblings, owner slot 1 and the acting context its sibling 0. -/
def troupeDemo (tstat : Nat) (post : Bool) : State :=
  let x : Troupe :=
    { owner := 1, region := 0, home := 0, eps := 0x3F800000, quorum := 2, timeout := 9, counted := 9, counting := true
      held := false, relreq := false, ownerEnded := false, tstat := tstat, m := 0, mu := 0, var := 0, sig := 0, theld := 0
      sibs := [{ slot := 1, desc := none, posted := post, reward := 0, sstat := 0, adv := 0, ended := false }
             , { slot := 2, desc := none, posted := false, reward := 0, sstat := 0, adv := 0, ended := true }] }
  { demoWith (fun c => { c with member := some (5, 0), r := { c.r with g := (c.r.g.set 8 5).set 7 1 } }) with
    troupes := [(5, x)] }

/-- The troupe of the tests. -/
def theTroupe (s : State) : Troupe := ((troupe? s 5).getD
  { owner := 0, region := 0, home := 0, eps := 0, quorum := 0, timeout := 0, counted := 0, counting := false, held := false
    relreq := false, ownerEnded := false, tstat := 0, m := 0, mu := 0, var := 0, sig := 0, theld := 0, sibs := [] })

theorem test_premises_tfork :
    forkReads (forkDemo 1 0x23F800000) (fun _ _ _ => true) = true ∧
    forkReads (forkDemo 2 0x33F800000) (fun a b _ => !templateOk a b 2) = true ∧
    forkReads (forkDemo 2 0x23F800000) (fun a b u => templateOk a b 2 && forkRoom u (forkDemo 2 0x23F800000).cur 2) = true ∧
    forkReads (forkDemo 64 0x4080000000) (fun a b u => templateOk a b 64 &&
      forkRoom u (forkDemo 64 0x4080000000).cur 64) = true ∧
    forkReads { forkDemo 2 0x23F800000 with regions := [] } (fun a b u => templateOk a b 2 &&
      !forkRoom u (forkDemo 2 0x23F800000).cur 2) = true ∧
    leavesG (exec (.tfork forkArgs) (forkDemo 1 0x23F800000)) 9 5 = true ∧
    leavesG (exec (.tfork forkArgs) (forkDemo 2 0x33F800000)) 9 6 = true ∧
    leavesG (exec (.tfork forkArgs) (forkDemo 2 0x23F800000)) 11 2 = true := by decide +kernel

theorem test_premises_troupes :
    demo.cur.member = none ∧ (troupeDemo 0 false).cur.member = some (5, 0) ∧
    answers (releaseOwn .pkg (troupeDemo 0 false)) (fun _ r => (troupe? r 5).isSome) = true ∧
    (postReward (theTroupe (troupeDemo 0 false)) 0 0x3F800000).1 = 0 ∧
    (postReward (theTroupe (troupeDemo 0 true)) 0 0x3F800000).1 = 2 ∧
    (postReward (theTroupe (troupeDemo 1 false)) 0 0x3F800000).1 = 1 ∧
    leavesG (exec (.treward { m := extMods, d := 3, a := 1 }) demo) 3 3 = true ∧
    leavesG (exec (.treward { m := extMods, d := 3, a := 1 }) (troupeDemo 0 true)) 3 2 = true ∧
    leavesG (exec (.tbar { m := extMods, d := 2 }) demo) 3 3 = true ∧
    leaves (exec (.tbar { m := extMods, d := 2 }) (troupeDemo 1 true)) (fun t => t.cur.h.pc == 0x100C) = true ∧
    (troupeCheck (troupeDemo 1 true) 5 1 false).isOk = true ∧ (troupeCheck (troupeDemo 1 true) 5 2 false).isOk = false ∧
    leaves (exec (.tadv { m := extMods, d := 2, a := 8, b := 4 }) (troupeDemo 1 true)) (fun t => field t.cur.r.g[3] 0 8 == 9) =
      true ∧
    leaves (exec (.tadv { m := extMods, d := 2, a := 8, b := 7 })
      (let s := troupeDemo 0 true; s.modCtx 1 (fun c => { c with delivered := some (4, 2) })))
      (fun t => t.cur.r.g[2] == 4 && t.cur.r.g[3] == 2) = true ∧
    leaves (exec (.tadv { m := extMods, d := 2, a := 8, b := 7 }) (troupeDemo 1 true)) (fun t => t.cur.h.pc == 0x100C) = true ∧
    leavesG (exec (.tadvNw { m := extMods, d := 2, a := 8, b := 7 }) (troupeDemo 0 true)) 3 11 = true := by decide +kernel

theorem test_premises_tcancel :
    (let s := troupeDemo 0 true
     let k := cancelStep s 5 (theTroupe s) 1
     (k.2.ctx? 1).isSome && (k.2.coreAt 0).slot == some 1 && s.cur.cancelled.isNone && (targetsLeft k.2 5 1).isEmpty &&
     !(targetsLeft s 5 1).contains s.slot && answers (quiet s) (fun _ _ => true) &&
     leavesG (exec (.tcancel { m := extMods, d := 3, a := 8, b := 7 }) s) 3 0 &&
     leavesG (exec (.tcancel { m := extMods, d := 3, a := 8, b := 4 }) s) 3 9) = true := by decide +kernel

theorem test_premises_troupe_steps :
    (let s := troupeDemo 0 true
     let x := theTroupe s
     x.tstat == 0 && x.timeout != 0 && x.counting && !x.held && decide (x.timeout ≤ x.counted) &&
     leaves (exec (.troupeTimeout 5) s) (fun t => (theTroupe t).tstat != 0)) = true ∧
    (let x := theTroupe (troupeDemo 1 true)
     let y := { x with relreq := true, sibs := x.sibs.map (fun b => { b with ended := true }) }
     y.sibs.all (·.ended) && leaves (exec (.troupeRelease 5) { troupeDemo 1 true with troupes := [(4, x), (5, y)] })
       (fun t => (troupe? t 5).isNone && (troupe? t 4).isSome)) = true ∧
    (let s := demoWith (fun c => { c with member := some (5, 0), ending := true, h := { c.h with run := 0 } })
     leaves (exec (.siblingEnd 1) s) (fun t => t.ctxs.isEmpty)) = true ∧
    (let s := demoWith (fun c => { c with seg := true, ending := true, pruned := true })
     s.engines.all (fun e => e.2.cmds.all (fun m => m.slot != 1)) &&
     leaves (exec (.prunedSegmentEnd 1) s) (fun t => t.ctxs.isEmpty)) = true ∧
    (let s := { demoWith (fun c => { c with seg := true, spec := true }) with
                mem := memWrite [] 0x1000 (bytesOfNat 4 0x00000020) }
     parksSegment (.dpop { m := extMods, d := 3 }) && answers (nextWords { s with core := 0, party := .control })
       (fun ws _ => ws == some [0x20])) = true ∧
    (let s := { demoWith (fun c => { c with seg := true, spec := true }) with
                mem := memWrite [] 0x1000 ((encode (.dpop { m := extMods, d := 3 })).map (fun w => bytesOfNat 4 w.toNat)).flatten }
     leaves (exec (.segmentPark 0) s) (fun t => t.cur.segPark == some .control)) = true := by decide +kernel

/-- A condition of region 0 in a state. -/
def condDemo (c : Fin 64) (w : Word) (f : Ctx → Ctx) : State :=
  let s := { demoWith (fun c => f { c with r := { c.r with g := (c.r.g.set 8 1).set 9 0xFF } }) with
             regions := [(0, rootRegion 36)] }
  pkgPut s (condAt s 0 c.val) w

theorem test_premises_speculation :
    (let s := condDemo 5 1 id
     answers (releaseOwn .die s) (fun _ r => (match spawnCheck r r.cur 5 1 0xFF with | .ok p => p.2 == 1 | .error _ => false) &&
       (match spawnCheck r r.cur 5 1 0 with | .ok _ => false | .error st => st == 3) && condState r 0 5 == 1)) = true ∧
    leavesG (exec (.sspawn { m := extMods, side := true, d := 3, cond := 5, b := 0, off := 4 }) (condDemo 5 1 id)) 3 3 = true ∧
    leavesG (exec (.sspawn { m := extMods, side := true, d := 10, cond := 5, b := 9, off := 4 }) (condDemo 5 1 id)) 10 0 = true ∧
    (resolveStep (condDemo 5 1 id) 0 5 1).2 = [] ∧
    answers ((do waitVector; drainParty .vector; releaseOwn .die : M Unit) (condDemo 5 1 id)) (fun _ _ => true) = true ∧
    leavesG (exec (.sresolve { m := extMods, d := 3, cond := 5, b := 8 }) (condDemo 5 1 id)) 3 0 = true ∧
    leavesG (exec (.sresolve { m := extMods, d := 3, cond := 5, b := 8 }) (condDemo 5 3 id)) 3 5 = true ∧
    leavesG (exec (.sresolve { m := extMods, d := 3, cond := 5, b := 8 }) (condDemo 5 2 id)) 3 6 = true ∧
    leavesG (exec (.sresolve { m := extMods, d := 3, cond := 5, b := 4 }) (condDemo 5 1 id)) 3 8 = true ∧
    leavesG (exec (.sresolve { m := extMods, d := 3, cond := 5, b := 8 })
      (condDemo 5 3 (fun c => { c with cancelled := some 0 }))) 3 0 = true ∧
    leavesG (exec (.sresolveFree { m := extMods, d := 3, cond := 63 }) (condDemo 63 1 id)) 3 7 = true ∧
    leavesG (exec (.sresolveFree { m := extMods, d := 3, cond := 63 }) (condDemo 63 2 id)) 3 0 = true ∧
    leavesG (exec (.slkCond { m := extMods, d := 3, cond := 63 }) (condDemo 63 2 id)) 3 2 = true ∧
    leavesG (exec (.slkSeg { m := extMods, d := 3, a := 4 }) (condDemo 63 2 id)) 3 0 = true ∧
    leavesG (exec (.slk { m := extMods, d := 3 })
      (demoWith (fun c => { c with seg := true, segId := 7, depth := 2 }))) 3 0x7220000 = true := by decide +kernel

/-! ### Roustabouts -/

/-- The loader of the small state: x1 = 5, x2 = −3, x3 = 0x4008, x4 = 0x100000, a data store, the full capability in kc0. -/
def roustDemo (p : Party) (f : Roustabout → Roustabout) (g : Queues → Queues) : State :=
  let r : Roustabout :=
    { Roustabout.zero with
      x := ((((Roustabout.zero.x.set 1 5).set 2 (-3)).set 3 0x4008).set 4 0x100000)
      kc := Roustabout.zero.kc.set 0 linkRootcap
      dstore := memWrite [] 8 (wordBytes 8 0xFFFFFFFF80000001) }
  { demoWith (fun c => { c with loader := f r, storer := f r, q := g c.q }) with party := p }

/-- The loader acting. -/
def loaderDemo : State := roustDemo .loader id id

/-- Register xN of the acting roustabout after an instruction, and the pc. -/
def leavesX (o : Out) (n : XReg) (v pc : Word) : Bool :=
  leaves o (fun t => (roustIn t).x[n] == v && (roustIn t).pc == pc)

/-- A roustabout instruction of 4 bytes. -/
def rv (op : RvOp) : Instr := .roustaboutInstruction { compressed := false, op := op }

theorem test_roustabout_results :
    leavesX (exec (rv (.lui 7 0x80000)) loaderDemo) 7 0xFFFFFFFF80000000 4 = true ∧
    leavesX (exec (rv (.opImm .add 0 1 1)) loaderDemo) 0 0 4 = true ∧
    leavesX (exec (rv (.op .sltu 7 1 2)) loaderDemo) 7 1 4 = true ∧
    leavesX (exec (rv (.opW .sraw 7 2 1)) loaderDemo) 7 (-1) 4 = true ∧
    leavesX (exec (rv (.mul .mulhu 7 2 1)) loaderDemo) 7 4 4 = true ∧
    leavesX (exec (rv (.mul .div 7 1 0)) loaderDemo) 7 (-1) 4 = true ∧
    leavesX (exec (rv (.mulW .remw 7 2 1)) loaderDemo) 7 (-3) 4 = true ∧
    leavesX (exec (.roustaboutInstruction { compressed := true, op := .jal 1 0x1FFFFE }) loaderDemo) 1 2 (-2) = true ∧
    leavesX (exec (rv (.jalr 3 3 1)) loaderDemo) 3 4 0x4008 = true ∧
    leavesX (exec (rv (.branch .lt 2 1 16)) loaderDemo) 1 5 16 = true ∧
    leavesX (exec (rv (.branch .ltu 2 1 16)) loaderDemo) 1 5 4 = true ∧
    leavesX (exec (rv (.load .lw 7 3 0)) loaderDemo) 7 0xFFFFFFFF80000001 4 = true ∧
    leavesX (exec (rv (.load .lwu 7 3 0)) loaderDemo) 7 0x80000001 4 = true ∧
    leaves (exec (rv (.store .sd 3 2 0)) loaderDemo) (fun t => memRead t.cur.loader.dstore 8 8 == wordBytes 8 (-3)) = true ∧
    leavesX (exec (rv (.load .lbu 7 4 0)) { loaderDemo with mem := memWrite [] 0x100000 [0x99] }) 7 0x99 4 = true ∧
    leaves (exec (rv (.jal 0 0)) loaderDemo) (fun t => t.cur.loader.idle) = true := by decide +kernel

/-- A fence of the test. -/
def rvFence (p q : BitVec 4) : Instr := .roustaboutFence { fm := 0, pred := p, succ := q, rd := 0, rs1 := 0 }

/-- An AMO of words on x3, or of another register, into x7. -/
def rvAmo (op : RvAmoOp) (a : XReg) : RvAmoArgs := { op := op, dbl := false, aq := false, rl := false, rd := 7, rs1 := a, rs2 := 1 }

theorem test_premises_roustabout :
    answers (localLoad 0x7FF8 8 loaderDemo) (fun l _ => l.length == 8) = true ∧
    answers (roustAccess 0x10000 8 .load .read loaderDemo) (fun pa t => !mayHold t &&
      answers (loadMem pa 8 .core 0 t) (fun l _ => l.length == 8)) = true ∧
    answers (roustAccess 0x10000 8 .load .read { loaderDemo with hold := true }) (fun _ t => mayHold t) = true ∧
    answers (dstorePut 0x7FF8 (wordBytes 8 1) loaderDemo) (fun _ _ => true) = true ∧
    answers (roustAccess 0x10000 8 .store .write loaderDemo) (fun pa t =>
      answers (issueStore 1 pa 8 .core 0 t) (fun _ _ => true)) = true ∧
    answers (releaseOwn .sys loaderDemo) (fun _ _ => true) = true ∧
    leaves (exec (rvFence 1 2) loaderDemo) (fun t => t.cur.loader.pc == 4) = true ∧
    leavesX (exec (.roustaboutAmo (rvAmo .lr 3)) loaderDemo) 7 0xFFFFFFFF80000001 4 = true ∧
    leavesX (exec (.roustaboutAmo (rvAmo .sc 3)) loaderDemo) 7 1 4 = true ∧
    leavesX (exec (.roustaboutAmo (rvAmo .sc 3)) (roustDemo .loader (fun r => { r with reserved := some (dstoreLine 0x4008) }) id))
      7 0 4 = true ∧
    leaves (exec (.roustaboutAmo (rvAmo .add 3)) loaderDemo)
      (fun t => memRead t.cur.loader.dstore 8 4 == bytesOfNat 4 0x80000006) = true ∧
    answers (memAmo (rvAmo .add 4) 0x100000 4 5 loaderDemo) (fun v t => v == 0 && natOfBytes (memRead t.mem 0x100000 4) == 0 ||
      decide (t.slot = loaderDemo.slot)) = true ∧
    leavesX (exec (.roustaboutAmo (rvAmo .lr 4)) { loaderDemo with mem := memWrite [] 0x100000 [0x99] }) 7 0x99 4 = true := by
  decide +kernel

/-- x1, x2 of an instruction of the extension; its result in x7. -/
def qx : QArgs := { rd := 7, rs1 := 1, rs2 := 2 }

/-- The loader with two registers and a stage with a credit. -/
def qDemo (p : Party) (a b : Word) (g : Queues → Queues) : State :=
  roustDemo p (fun r => { r with x := (r.x.set 1 a).set 2 b }) g

theorem test_premises_extension :
    leaves (exec (.qaPush qx) (qDemo .loader 9 0 id)) (fun t => t.cur.q.qa == [9]) = true ∧
    leaves (exec (.qbPush qx) (qDemo .loader 9 0 id)) (fun t => t.cur.q.qb == [9]) = true ∧
    leavesX (exec (.qaStat qx) (qDemo .loader 9 0 id)) 7 16 4 = true ∧
    leavesX (exec (.qbStat qx) (qDemo .loader 9 0 (fun q => { q with qb := List.replicate 16 0 }))) 7 0 4 = true ∧
    stripDesc 0x10000013 = some (3, 1, 0x1000) ∧ stripDesc (0x10000013 ||| 8) = none ∧
    ownSpad (qDemo .loader 0 0 id) (BitVec.ofNat 64 (spadOf 0)) 4096 = some 0 ∧
    ownSpad (qDemo .loader 0 0 id) (BitVec.ofNat 64 (spadOf 0 + 2 ^ 20 - 1)) 1 = some (2 ^ 20 - 1) ∧
    ownSpad (qDemo .loader 0 0 id) (BitVec.ofNat 64 (spadOf 0 + 2 ^ 20 - 1)) 2 = none ∧
    leaves (exec (.qsStrip qx) (qDemo .loader 0x10000013 (BitVec.ofNat 64 (spadOf 0)) id))
      (fun t => t.cur.q.strips[3] == [.strip 1 4096 0 none] && t.cur.q.stages[1].pending == 1) = true ∧
    leaves (exec (.qsScale qx) (qDemo .loader 0x1000013 (BitVec.ofNat 64 (spadOf 0))
      (fun q => { q with strips := q.strips.set 3 [.strip 1 4096 0 none] })))
      (fun t => t.cur.q.strips[3] == [.strip 1 4096 0 (some (1, 256, 0))]) = true ∧
    attachScale (1, 256, 0) [.strip 1 4096 0 none] = some [.strip 1 4096 0 (some (1, 256, 0))] ∧
    leaves (exec (.qsEnd qx) (qDemo .loader 7 0 id)) (fun t => t.cur.q.strips[7] == [.endMark]) = true ∧
    leavesX (exec (.qdPop qx) (qDemo .storer 0 0 (fun q => { q with qd := [8, 9] }))) 7 8 4 = true ∧
    leavesX (exec (.qdStat qx) (qDemo .storer 0 0 (fun q => { q with qd := [8, 9] }))) 7 2 4 = true := by decide +kernel

theorem test_premises_extension_ports :
    (let s := roustDemo .loader (fun r => { r with
                x := r.x.set 1 0x4020, kc := r.kc.set 1 linkRootcap
                dstore := memWrite [] 0x20 (wordBytes 8 64 ++ wordBytes 8 0 ++ wordBytes 8 0 ++ wordBytes 8 0x100000111) }) id
     liveEngine s s.core (cmdPort 64) == some 0 && !s.cur.spec && pushRoom s 0 (cmdPort 64) &&
       wordOfBytes (memRead (roustIn s).dstore 0x38 8) == 0x100000111 &&
       leaves (exec (.qePush qx) s) (fun t => (t.engineAt 0).cmds.length == 1)) = true ∧
    (let s := qDemo .loader 0 0 (fun q => { q with results := [(0, [{ w0 := 3, w1 := 0, ranges := [] }])] })
     (liveEngine s s.core 0).isSome && (resFifo s.cur 0 .loader).length ≤ 1 && fifoOf s 0 s.slot 0 == [] &&
       leaves (exec (.qeWait qx) s) (fun t => t.cur.loader.pc == 4) &&
       leaves (exec (.qePop qx) (s.modCur (fun c => setResFifo c 0 .loader [{ w0 := 3, w1 := 0, ranges := [] }])))
         (fun t => (roustIn t).x[7] == 3)) = true ∧
    leaves (exec (.qeStat qx) (qDemo .loader 63 0 id)) (fun t => t.cur.loader.pc == 4) = true ∧
    leaves (exec (.qvFence qx) (qDemo .storer 4 0 id)) (fun t => t.cur.storer.pc == 4) = true ∧
    leaves (exec (.qvEvent qx) (qDemo .storer 4 9 id))
      (fun t => t.cur.q.events.map (fun e => (e.w0, e.w3)) == [(0xF806000000000004, 9)]) = true ∧
    leavesX (exec (.qvWait qx) (qDemo .storer 15 9 (fun q => { q with stages := q.stages.set 15 { pending := 0, credit := 77 } })))
      7 77 4 = true ∧
    (let s := roustDemo .storer (fun r => { r with istore := memWrite [] 0 (bytesOfNat 4 0xB) }) id
     answers (roustWord s) (fun w t => w == 0xB && decide (t = s)) &&
       leaves (exec (.qaPush qx) s) (fun t => ((t.ctxAt 1).trap.map (·.cause)) == some 0x10)) = true := by decide +kernel

/-! ### Front ends and Lysyo -/

/-- A packet of eight words. -/
def packetOf (w0 w1 : Word) : Vector Word 8 := ((Vector.replicate 8 0).set 0 w0).set 1 w1

/-- A header word: a deadline of all ones, so none, and a type. -/
def headerOf (type : Word) : Word := 0xFFFFFFFFFFFF ||| (type <<< 58)

/-- A packet taken, at a stage. -/
def pktAt (st : PktStage) (w0 : Word) : Pkt := { index := 3, copy := packetOf w0 77, stage := st, status := 0, launched := false }

/-- Front end 0 with queue 9 in slot 0, its packet at a stage, and a run with l1 = 5 and l2 = −3 after `n` steps. -/
def feDemo (st : PktStage) (w0 : Word) (n : Nat) (f : LyRun → LyRun) : State :=
  { demo with
    arb := { demo.arb with boot := 1 }
    mem := memWrite [] 0x4000 (wordBytes 8 0xABCD)
    queues := [(9, { Queue.zero with
      valid := true, mapped := some (0, 0), lg := 6, ringbase := 0x4000, head := 2, tail := 4, next := 4, inflight := 1
      win := Queue.zero.win.set 1 0x4000, wlen := Queue.zero.wlen.set 1 8, taken := [pktAt st w0] })]
    fes := [(0, { FrontEnd.zero with
      qmap := [(0, 9)]
      run := some (f { queue := 9, regs := ((Vector.replicate 16 0).set 1 5).set 2 (-3), index := 4, steps := n, loops := [] }) })] }

/-- A run at its first step. -/
def lyDemo : State := feDemo .lysyo (headerOf 1) 0 id

/-- Register lN and the index of the run of front end 0. -/
def leavesL (o : Out) (n : LReg) (v : Word) (index : Nat) : Bool :=
  leaves o (fun t => match (t.feAt 0).run with
    | some r => r.regs[n] == v && r.index == index
    | none => false)

/-- The status of the packet of queue 9 that has ended, or its stage kept as 99. -/
def leavesP (o : Out) (st : Nat) : Bool :=
  leaves o (fun t => (t.queueAt 9).taken.any (fun k => k.stage == .done && k.status == st) || (t.queueAt 9).taken.any (fun k =>
    k.stage == .completed && k.status == st))

/-- Operands of a Lysyo instruction. -/
def lo (d a : LReg) (v : BitVec 16) : LyIArgs := { rd := d, ra := a, imm := v }

theorem test_lysyo_results :
    leavesL (exec (.lysyoAdd { rd := 3, ra := 1, rb := 2 }) lyDemo) 3 2 5 = true ∧
    leavesL (exec (.lysyoMinu { rd := 3, ra := 1, rb := 2 }) lyDemo) 3 5 5 = true ∧
    leavesL (exec (.lysyoShl { rd := 3, ra := 1, rb := 2 }) lyDemo) 3 (5 <<< 61) 5 = true ∧
    leavesL (exec (.lysyoLi (lo 3 0 0x8000)) lyDemo) 3 0xFFFFFFFFFFFF8000 5 = true ∧
    leavesL (exec (.lysyoLih (lo 1 0 0x8000)) lyDemo) 1 0x58000 5 = true ∧
    leavesL (exec (.lysyoAddi (lo 0 1 1)) lyDemo) 0 0 5 = true ∧ leavesL (exec (.qinfo (lo 3 0 1)) lyDemo) 3 3 5 = true ∧
    leavesL (exec (.qinfo (lo 3 0 0)) lyDemo) 3 2 5 = true ∧ leavesL (exec (.ldpk (lo 3 0 8)) lyDemo) 3 77 5 = true ∧
    leaves (exec (.stpk (lo 1 0 16)) lyDemo) (fun t => ((underway (t.queueAt 9)).map (fun k => k.copy[2])) == [5]) = true ∧
    leavesL (exec (.ldrg (lo 3 0 0)) lyDemo) 3 0xABCD 5 = true ∧ leavesL (exec (.ldwn (lo 3 0 0x4000)) lyDemo) 3 0xABCD 5 = true ∧
    leaves (exec (.stwn (lo 1 0 0x4000)) lyDemo) (fun t => memRead t.mem 0x4000 8 == wordBytes 8 5) = true ∧
    leavesL (exec (.bltu (lo 1 2 16)) lyDemo) 1 5 20 = true ∧ leavesL (exec (.beq (lo 1 2 16)) lyDemo) 1 5 5 = true ∧
    leavesL (exec (.lysyoLoop (lo 0 0 0x203)) lyDemo) 1 5 5 = true := by decide +kernel

theorem test_premises_lysyo :
    (let r := lyTick ({ queue := 9, regs := Vector.replicate 16 0, index := 4, steps := 511, loops := [] } : LyRun)
     lyOff r (lo 1 0 56) == 56 && lyOff r (lo 1 0 4088) == 4088 && busReach lyDemo (0x4000 + 4088) 8 &&
     windowAddr lyDemo r (lo 1 0 0x4000) == some 0x4000 && (windowAddr lyDemo r (lo 1 0 0x4008)).isNone &&
     (windowAddr lyDemo r (lo 1 0 0)).isNone) = true ∧
    leavesL (exec (.time (lo 3 0 0)) (feDemo .lysyo (headerOf 1) 511 id)) 3 0 5 = true ∧
    leavesP (exec (.time (lo 3 0 0)) (feDemo .lysyo (headerOf 1) 512 id)) 2 = true ∧
    leavesP (exec (.lysyoEnd (lo 0 0 1)) lyDemo) 0 = true ∧ leavesP (exec (.lysyoEnd (lo 0 0 2)) lyDemo) 6 = true ∧
    leavesP (exec (.stpk (lo 0 0 8)) lyDemo) 7 = true ∧ leavesP (exec (.ldpk (lo 0 0 64)) lyDemo) 7 = true ∧
    leavesP (exec (.stwn (lo 0 0 0)) lyDemo) 7 = true ∧
    leaves (exec (.lysyoEnd (lo 0 0 0)) lyDemo) (fun t => (heldPacket t 0 9).isSome || (pktUnderway t 9).isSome) = true := by
  decide +kernel

/-- The front end with no run and nothing taken, and a packet read. -/
def feIdle (w : Word) : State :=
  { feDemo .done (headerOf 1) 0 id with
    fes := [(0, { FrontEnd.zero with qmap := [(0, 9), (1, 8)] })]
    queues := [(8, { Queue.zero with mapped := some (0, 1), read := [(7, packetOf w 1)] }),
               (9, { Queue.zero with mapped := some (0, 0), read := [(5, packetOf 100 1)] })] }

theorem test_premises_front_ends :
    (feFree (feIdle 50) 0 && (selected (feIdle 50) 0).map (fun v => (v.1, v.2.1)) == some (8, 7) &&
     (selected (feIdle 200) 0).map (fun v => (v.1, v.2.1)) == some (9, 5) &&
     (selected (feIdle (headerOf 0)) 0).map (fun v => (v.1, v.2.1)) == some (9, 5) &&
     leaves (exec (.arbitrationStep 0) (feIdle 50)) (fun t => (t.queueAt 8).taken.length == 1)) = true ∧
    (let w := headerOf 0 ||| 0x2000000000000
     let s := feDemo (.held 0) w 0 id
     let u := { s with fes := [(0, { FrontEnd.zero with qmap := [(0, 9)], time := 40000 })] }
     (heldPacket s 0 9).isSome && decide (s.arb.point ≤ classOf (pktWord (packetOf w 77) 0)) &&
     leaves (exec (.holdRelease 0 9) s) (fun t => (pktUnderway t 9).map (·.stage) == some .launch) &&
     leaves (exec (.holdTimeout 0 9) u) (fun t => (pktUnderway t 9).map (·.stage) == some .launch)) = true ∧
    (let s := feDemo .launch (headerOf 6) 0 id
     !packetOk s (packetOf (headerOf 6) 77) && leavesP (exec (.launchStep 0 9) s) 3) = true ∧
    (let s := feDemo .launch (headerOf 0) 0 id
     packetOk s (packetOf (headerOf 0) 77) && !isLate (headerOf 0) 0 && leavesP (exec (.launchStep 0 9) s) 0) = true ∧
    (let s := feDemo .launch 0 0 id
     let u := { s with fes := [(0, { FrontEnd.zero with qmap := [(0, 9)], time := 1 })] }
     isLate 0 1 && leaves (exec (.launchStep 0 9) u) (fun t => (t.queueAt 9).misscnt == 1) &&
     leavesP (exec (.launchStep 0 9) (u.modQueue 9 (fun h => { h with drop := true }))) 1) = true ∧
    (let s := (feDemo .launch (headerOf 1) 0 id)
     packetOk s (packetOf (headerOf 1) 77) && pktType (headerOf 1) == 1) = true ∧
    (let s := feDemo .completed (headerOf 1) 0 id
     let at_ (st : PktStage) (t : State) : Bool := (t.queueAt 9).taken.any (fun k => k.index == 3 && k.stage == st)
     (allCmds s).isEmpty && leaves (exec (.packetCompletion 9 3) s) (fun t => (t.queueAt 9).tail == 4 && at_ .written t) &&
     leaves (exec (.packetCompletion 9 3) (feDemo .written (headerOf 1) 0 id)) (at_ .counted) &&
     leaves (exec (.packetCompletion 9 3) (feDemo .counted (headerOf 1) 0 id)) (fun t => !at_ .counted t)) = true ∧
    (let s := (feIdle 50).modQueue 9 (fun h => { h with wake := true, sigHit := true })
     (liveSlot s (s.queueAt 9)).isSome && leaves (exec (.queueScan 9) s) (fun t => !(t.queueAt 9).wake) &&
     leaves (exec (.waitSignalWake 9) s) (fun t => !(t.queueAt 9).sigHit) &&
     leaves (exec (.waitSignalWake 9) (s.modQueue 9 (fun h => { h with mapped := none })))
       (fun t => (t.queueAt 9).pwake == 2)) = true ∧
    (let s := { demo with snaps := [(3, { Snap.empty with ctl := 0x8000000000000000 })] }
     !cutBad s 3 && leaves (exec (.snapcut 8) s) (fun t => (t.snapAt 3).cut)) = true := by decide +kernel

/-! ### Control stores and links -/

/-- The small state with control space open, queue 9 and a context stopped or running. -/
def openDemo (f : Ctx → Ctx) : State := { feDemo .done (headerOf 1) 0 id with ctxs := [(1, f demoCtx)] }

/-- Does nothing turn a store of the host away? -/
def openTo (s : State) (pa : Nat) (v : Word) : Bool := !notYet s pa && lockAgainst s (regionOfWho s .host) pa v == none

/-- A store of the host that names an object. -/
def hs (n : Nat) (v : Word) : StoreArgs := { by_ := .host, num := n, value := v }

/-- A command store of the host. -/
def hc (n : Nat) : CmdArgs := { by_ := .host, num := n }

theorem test_premises_frame_stores :
    (let s := openDemo id
     openTo s (frameWord 1 0) 0 && openTo s (frameWord 1 0) 2 && !runBarred s 0 && demoCtx.h.run != 0 && demoCtx.core.isSome &&
     !haltWaits s 1 &&
     leaves (exec (.runStop (hc 1)) s) (fun t => (t.ctxAt 1).halt.isSome || (t.ctxAt 1).h.run == 0) &&
     leaves (exec (.runStep (hc 1)) s) (fun t => (t.ctxAt 1).h.run == 2) &&
     leaves (exec (.runRun (hc 1)) s) (fun t => (t.ctxAt 1).h.run == 1)) = true ∧
    (let stop (c : Ctx) : Ctx := { c with h := { c.h with run := 0 } }
     leaves (exec (.runRun (hc 1)) (openDemo stop)) (fun t => (t.ctxAt 1).h.run == 1) &&
     leaves (exec (.runRun (hc 1)) (openDemo (fun c => { stop c with ending := true }))) (fun t => (t.ctxAt 1).h.run == 0) &&
     leaves (exec (.runRun (hc 1)) (openDemo (fun c => { stop c with core := none }))) (fun t => t.gangs.length == 1) &&
     !commitPending demoCtx && openTo (openDemo id) (frameWord 1 0xC0) 4 &&
     leaves (exec (.commitAtp (hc 1)) (openDemo id)) (fun t => (t.ctxAt 1).h.reqAtp) &&
     openTo (openDemo stop) (frameWord 1 0x9F80) 0x200400000 &&
     budgetRoom (budgetGive (openDemo stop) 0 3 0) 0 3 16 &&
     leaves (exec (.sscfgStore (hs 1 0x200400000)) (openDemo stop))
       (fun t => (t.ctxAt 1).ss.slots == 4 && (t.ctxAt 1).ss.lp == 2)) = true := by decide +kernel

theorem test_premises_engine_queue_root_stores :
    (let s := openDemo id
     enginePresent s 0 && openTo s (engineWord 75 8) 1 &&
     leaves (exec (.enginePause (hc 75)) s) (fun t => (t.engineAt 75).pause) &&
     leaves (exec (.engineUnpause (hc 0)) s) (fun t => !(t.engineAt 0).pause) &&
     openTo s (queuePage 9 + 0x20) 6 && (s.queueAt 9).valid && (s.queueAt 9).kind == 0 &&
     leaves (exec (.notify (hs 9 6)) s) (fun t => (t.queueAt 9).tail == 6)) = true ∧
    (let s := (openDemo id).modQueue 9 (fun h => { h with kind := 1 })
     openTo s (queuePage 9 + 0x10) 4 && insideScope s (s.queueAt 9) .host &&
     leaves (exec (.head (hs 9 4)) s) (fun t => (t.queueAt 9).head == 4) &&
     leaves (exec (.head (hs 9 5)) s) (fun t => (t.queueAt 9).head == 2)) = true ∧
    (let s := { openDemo id with
                roots := [(7, { Root.zero with prqtail := 3 })]
                requests := [{ part := 7, id := 5, guest := false, space := 0, page := 0, record := [], posted := true, waiters := [] }] }
     openTo s (rootWord 7 0x28) 3 && openTo s (rootWord 7 0x38) 0x4000000000000005 &&
     leaves (exec (.prqhead (hs 7 3)) s) (fun t => (t.rootAt 7).prqhead == 3) &&
     leaves (exec (.prqhead (hs 7 4)) s) (fun t => (t.rootAt 7).prqhead == 0) &&
     leaves (exec (.prreply (hs 7 0x4000000000000005)) s) (fun t => t.requests.isEmpty)) = true ∧
    (let s := openDemo id
     openTo s (frontEndWord 7 (8 * 127)) 0x8000000000000009 && !(s.feAt 7).busy.contains 127 &&
     leaves (exec (.map { by_ := .host, fe := 0, slot := 1, queue := 9 }) s) (fun _ => true) &&
     leaves (exec (.unmap { by_ := .host, fe := 0, slot := 0, queue := 9 }) s) (fun _ => true)) = true := by decide +kernel

/-- Session 2 of region 0, active, with a staged write of `v` to the first word of queue 9's page. -/
def tokenDemo (v : Word) : State :=
  let s := { openDemo id with
    regions := [(0, rootRegion 36)]
    sessions := [(2, { Session.zero with state := 2, region := 0, taddr := BitVec.ofNat 64 (queuePage 9), tval := v })] }
  s.modSession 2 (fun y => { y with tok0 := (tokenOf s 2 y.taddr v).1, tok1 := (tokenOf s 2 y.taddr v).2 })

theorem test_premises_staged_writes :
    (let s := tokenDemo 0x8000000000000009
     let pa := queuePage 9
     lockedWord s 2 pa 0x8000000000000009 && inCtl pa && decide (pa % 8 = 0) &&
     (match innerStore s pa 0x8000000000000009 with | .ok _ => true | .error _ => false) &&
     lockAgainst s (some 0) pa 0x8000000000000009 == none &&
     !lockedWord s 3 pa 0) = true := by decide +kernel

theorem test_tokens_match (v : Word) :
    let x := (tokenDemo v).sessionAt 2
    (x.tok0, x.tok1) = tokenOf (tokenDemo v) 2 x.taddr v := by
  simp [tokenDemo, tokenOf, sessionKey]

/-- FIPS 197, C.3, and FIPS 180-4's "abc". -/
theorem test_published_vectors :
    aesEnc (roundKeys (List.range 32)) ((List.range 16).map (17 * ·)) =
      [0x8E, 0xA2, 0xB7, 0xCA, 0x51, 0x67, 0x45, 0xBF, 0xEA, 0xFC, 0x49, 0x90, 0x4B, 0x49, 0x60, 0x89] ∧
    bigEndian ((sha512Nat [0x61, 0x62, 0x63]).take 8) = 0xDDAF35A193617ABA := by decide +kernel

theorem test_premises_commands :
    (let s := openDemo id
     openTo s (sessionWord 15 0x10) 1 && openTo s (troupePage 4095 + 0x20) 1 && openTo s (sessionWord 15 0x48) 0 &&
     openTo s (arbiterWord 0x238) 1 && openTo s (arbiterWord 0x118) 0 &&
     (scmdOf (.close (hc 15))).isSome && (tcmdOf (.hold (hc 5))).isSome &&
     openTo s (arbiterWord 0x10) 3 && inCtl (arbiterWord 0x10) && decide (arbiterWord 0x10 % 8 = 0) &&
     (match openStore s .host (arbiterWord 0x10) 3 with | .ok _ => true | .error _ => false)) = true ∧
    leaves (exec (.hold (hc 5)) { openDemo id with troupes := (troupeDemo 0 false).troupes })
      (fun t => (theTroupe t).held) = true := by decide +kernel

/-- An access over the Agore link. -/
def bx (w : Bool) (a n : Nat) (v : Word) : BusArgs := { port := 3, write := w, addr := a, size := n, value := v }

theorem test_premises_links :
    (let s := { openDemo id with links16 := 0xFFFF, ctxs := [(0, { linkCtx with h := { linkCtx.h with rootcap := linkRootcap } })] }
     linkReach s 0x4000 8 false && linkReach s 0x4001 8 true && !migrating s 0x4000 && !linkReach s (2 ^ 50) 8 true &&
     inCtl (arbiterWord 0) && hostMay s (arbiterWord 0) true && arbiterWord 0 % 8 == 0 && !hostSelf s (arbiterWord 0) &&
     leaves (exec (.hostAccess (bx false 0x4000 8 0)) s) (fun t => t.answer == (false, 0xABCD)) &&
     leaves (exec (.hostAccess (bx true 0x4001 2 0xEE)) s) (fun t => memRead t.mem 0x4000 4 == [0xCD, 0xEE, 0, 0]) &&
     leaves (exec (.hostAccess (bx false 0x4000 9 0)) s) (fun t => t.answer == (true, 0)) &&
     leaves (exec (.hostAccess (bx false 0x4000 0 0)) s) (fun t => t.answer == (true, 0)) &&
     leaves (exec (.hostAccess (bx true (arbiterWord 0 + 4) 8 0)) s) (fun t => t.answer == (true, 0)) &&
     bit s.fuses.ports 3 && bit s.links16 3) = true := by decide +kernel

/-! ### Engines -/

/-- A command of the context in slot 1 with a word, source 0x4000 and destination 0x5000 by the full capability. -/
def cmdOf (w : Word) (f : Cmd → Cmd) : Cmd :=
  f { newCmd demo .control w (setCursor linkRootcap 0x4000) (setCursor linkRootcap 0x5000) Cap.zero 0 with started := true }

/-- The small state with one command on an engine. -/
def engDemo (e : Nat) (w : Word) (f : Cmd → Cmd) : State :=
  { openDemo id with engines := [(e, { Engine.empty with cmds := [cmdOf w f] })] }

/-- The place of that command. -/
def ea (e : Nat) : EngArgs := { eng := e, idx := 0 }

/-- A command word: an operation, a length. -/
def opWord (op len : Word) : Word := op <<< 54 ||| len

/-- The premises on the engine's command. -/
def performs (e : Nat) (w : Word) (f : Cmd → Cmd) : Bool :=
  (cmdAt? (engDemo e w f) (ea e)).isSome && mayPerform (engDemo e w f) e (cmdOf w f)

theorem test_premises_engine_refuse :
    (let f : Cmd → Cmd := fun c => { c with started := false }
     let s := engDemo 0 (opWord 15 64) f
     refusal s 0 (cmdOf (opWord 15 64) f) == some cERefuse && !heldBack s (cmdOf (opWord 15 64) f) &&
     leaves (exec (.engineRefuse (ea 0)) s) (fun t => (t.engineAt 0).cmds.map (·.status) == [some 3])) = true := by decide +kernel

theorem test_premises_engine_copy :
    (let s := engDemo 0 (opWord 0 64) id
     let c := cmdOf (opWord 0 64) id
     performs 0 (opWord 0 64) id && granuleLen c (cmdLen c.word) == 64 &&
     (match copyAccess s 0 c 64 with
       | (t, .ok (src, dst)) => !peerDown t (src ++ dst)
       | _ => false) && c.miss.isNone &&
     leaves (exec (.enginePerform (ea 0)) s) (fun t =>
       (ctxLoad t 0 0x5000 8 .die 0).2 == wordBytes 8 0xABCD && (t.engineAt 0).cmds.map (·.status) == [some 0])) = true := by
  decide +kernel

/-- A command that met a frame that is not there and has not reported it. -/
def missed (c : Cmd) : Cmd := { c with miss := some (XFault.mk cNoMem 0 false 0 0 0, 0x4000, false) }

theorem test_premises_engine_operations :
    (performs 0 (opWord 3 1) id && isGather (opWord 3 1)) = true ∧ performs 0 (opWord 7 64) id = true ∧
    performs 76 (opWord 10 0) id = true ∧
    leaves (exec (.enginePerform (ea 76)) (engDemo 76 (opWord 10 0) id))
      (fun t => (t.engineAt 76).cmds.map (·.status) == [some 0]) = true ∧
    performs 0 (opWord 0 64) missed = true ∧
    leaves (exec (.enginePerform (ea 0)) (engDemo 0 (opWord 0 64) missed))
      (fun t => (t.engineAt 0).cmds.map (fun c => (c.status, c.miss)) == [(some 2, none)]) = true ∧
    postRoom demoCtx (cmdOf (opWord 0 64) id) = true ∧
    leaves (exec (.enginePost (ea 0)) (engDemo 0 (opWord 0 64) (fun c => { c with status := some 0 })))
      (fun t => (t.engineAt 0).cmds.isEmpty) = true ∧
    leaves (exec (.enginePost (ea 0)) (engDemo 0 (opWord 0 64) (fun c => { c with status := some 3, packet := some (0, 0) })))
      (fun t => (t.engineAt 0).cmds.isEmpty) = true := by decide +kernel

/-- A sealing of the page 0x40000 to 0x50000, or back, not begun, with a session whose version table is at 0x60000. -/
def sealCmd (op : Word) (c : Cmd) : Cmd :=
  let a := if op = 8 then 0x40000 else 0x50000
  { c with src := setCursor linkRootcap a, dst := setCursor linkRootcap (0x90000 - a), started := false }

/-- The state of that command. -/
def sealDemo (op : Word) : State :=
  { engDemo 82 (opWord op 4096) (sealCmd op) with
    mem := memWrite [] 0x60000 (if op = 8 then [] else [1])
    sessions := [(0, { Session.zero with
      state := 2, region := 0, vtbase := 0x60000, vtlen := 1, ranges := Session.zero.ranges.set 3 (0x40000, 0x1000) })] }

theorem test_premises_seal :
    mayPerform (sealDemo 8) 82 (cmdOf (opWord 8 4096) (sealCmd 8)) = true ∧
    mayPerform (sealDemo 9) 82 (cmdOf (opWord 9 4096) (sealCmd 9)) = true ∧
    (let c := { cmdOf (opWord 8 4096) (sealCmd 8) with started := true, buf := [1, 2], pos := 0, ver := 1 }
     let s (c : Cmd) : State := { sealDemo 8 with engines := [(82, { Engine.empty with cmds := [c] })] }
     isSealing c.word && mayPerform (s c) 82 c && mayPerform (s { c with pos := 2 }) 82 { c with pos := 2 } &&
     leaves (exec (.enginePerform (ea 82)) (s c)) (fun t => memRead t.mem 0x50000 2 == [1, 2]) &&
     leaves (exec (.pseal (ea 82)) (s { c with pos := 2 })) (fun t => (t.engineAt 82).cmds.map (·.status) == [some 0] &&
       memRead t.mem 0x60000 1 == [3])) = true := by decide +kernel

/-- A gang of two with a link from thread 0 to thread 1; thread 0 copies 64 bytes of stage 0 through it. -/
def linkDemo (f : Cmd → Cmd) (g : Ctx → Ctx) : State :=
  let w := opWord 0 64 ||| 0x1000000000000
  let gang : Gang :=
    { kind := .contexts [1, 2], region := 0, n := 2, anydie := false, die := 0, cosched := false, fuse := false
      arg := none, packet := none, cores := [0, 1], slots := [1, 2], running := true }
  let c : Ctx := g { demoCtx with gang := 7, q := { demoCtx.q with
    stages := demoCtx.q.stages.set 0 { pending := 0, credit := 64 } } }
  { engDemo 0 w (fun k => f { k with dst := setCursor linkRootcap (BitVec.ofNat 64 linkWindow), started := false }) with
    ctxs := [(1, c), (2, { demoCtx with gang := 7, core := some 1 })]
    cores := [(0, { Core.empty with slot := some 1 }), (1, { Core.empty with slot := some 2 })]
    gangs := [(7, gang)]
    links := [(7, [{ producer := 0, consumer := 1, cstage := 2, pstage := 0, off := 0, size := 1024 }])] }

/-- That command. -/
def linkCmd (s : State) : Cmd := (cmdAt? s (ea 0)).getD (cmdOf 0 id)

theorem test_premises_links_of_gangs :
    (let s := linkDemo id id
     let c := linkCmd s
     (linkFor s 0 c).isSome && !heldBack s c && !leaving s 1 && !leaving s 2 && refusal s 0 c == none && cmdLen c.word == 64 &&
     (linkFor s 0 c).map (fun p => consumerSlot p.1 p.2) == some 2 && (stageIn s 1 0).credit == 64 &&
     leaves (exec (.linkCommandStart (ea 0)) s)
       (fun t => (linkCmd t).started && ((t.ctxAt 1).q.stages[0]).credit == 0)) = true ∧
    (let s := linkDemo (fun k => { k with started := true }) (fun c => { c with halt := some .preempt })
     (linkFor s 0 (linkCmd s)).isSome && leaving s 1 &&
     leaves (exec (.linkCommandPause (ea 0)) s) (fun t => (linkCmd t).paused)) = true := by decide +kernel

/-! ### Placement -/

/-- A gang of one context that waits for a core. -/
def waitingGang (k : GangKind) (cores : List Nat) : Gang :=
  { kind := k, region := 0, n := 1, anydie := false, die := 0, cosched := false, fuse := false, arg := none, packet := none
    cores := cores, slots := [], running := false }

/-- A launch record at 0x8000: one thread, any die, 64 KiB of scratchpad. -/
def recordBytes : List Byte := wordBytes 8 0x100100 ++ (List.replicate 88 0) ++ wordBytes 8 64

/-- Gang 7 at the head of region 0's queue, aimed at cores that have accepted it or not. -/
def placeDemo (k : GangKind) (cores : List Nat) (acc : Bool) : State :=
  { openDemo id with
    mem := memWrite [] 0x8000 recordBytes
    ctxs := [(1, demoCtx), (2, { demoCtx with core := none, h := { demoCtx.h with run := 1 } })]
    gangs := [(7, waitingGang k cores)]
    regions := [(0, { rootRegion 36 with placeq := [7], slot0 := 1, slotN := 8 })]
    cores := (0, { Core.empty with slot := some 1 }) :: cores.map (fun k =>
      (k, { Core.empty with aims := [7], accepted := if acc then some 7 else none })) }

theorem test_premises_placement_aim :
    (let s := placeDemo (.record 0x8000) [] false
     (gangPlace s (waitingGang (.record 0x8000) [])).isSome &&
     (((placeHeads s).filter (fun h => h.2.cores.isEmpty && (diesOf h.2.anydie h.2.die).contains 0)).find?
       (fun h => (gangPlace s h.2).isSome)).isSome &&
     leaves (exec (.placementAim 0 0) s) (fun t => (gang? t 7).map (·.cores) == some [1] && (t.coreAt 1).aims == [7])) = true ∧
    (let s := { placeDemo (.contexts [2]) [0] false with
                cores := [(0, { Core.empty with slot := some 1, aims := [7] })]
                regions := [(0, { rootRegion 36 with placeq := [9, 7], slot0 := 1, slotN := 8 })] }
     !coreFree s 0 && (s.regionAt 0).placeq.contains 7 &&
     leaves (exec (.placementWithdraw 7) s) (fun t => (gang? t 7).map (·.cores) == some [] &&
       (t.regionAt 0).placeq == [7, 9] && (t.coreAt 0).aims == [])) = true ∧
    (let s := { placeDemo (.contexts [2]) [1] false with cores := [(1, { Core.empty with aims := [9, 7], accepted := some 9 })] }
     coreFree s 1 && leaves (exec (.placementWithdraw 7) s) (fun t => (t.coreAt 1).aims == [9] && (t.coreAt 1).accepted == some 9))
      = true := by decide +kernel

theorem test_premises_gang_start :
    (let s := placeDemo (.contexts [2]) [1] true
     let x := waitingGang (.contexts [2]) [1]
     allAccepted s 7 x && !mustScrub s 1 0 && !runBarred s 0 && canStart s x [1] &&
     leaves (exec (.gangStart 7) s) (fun t => (t.ctxAt 2).core == some 1) &&
     (let none := { s with regions := [(0, { rootRegion 36 with placeq := [7], limit := Vector.replicate 6 0 })] }
      !canStart none x [1] && allAccepted none 7 x &&
      leaves (exec (.gangStart 7) none) (fun t => (gang? t 7).map (·.cores) == some [] && (t.coreAt 1).aims.isEmpty))) = true ∧
    (let s := placeDemo (.record 0x8000) [1] true
     let x := waitingGang (.record 0x8000) [1]
     recFault s 0 0x8000 == none && recValid s 0 0x8000 && canStart s x [1] && allAccepted s 7 x &&
     (let poor := { s with regions := [(0, { rootRegion 36 with placeq := [7], limit := Vector.replicate 6 0 })] }
      (recFault poor 0 0x8000).isNone && recValid poor 0 0x8000 && !canStart poor x [1] &&
      leaves (exec (.gangStart 7) poor) (fun t => (gang? t 7).map (·.cores) == some [])) &&
     leaves (exec (.gangStart 7) s) (fun t => (gang? t 7).map (·.running) == some true && (t.coreAt 1).slot.isSome)) = true ∧
    recFault (placeDemo (.record (2 ^ 50)) [1] true) 0 (2 ^ 50) = some cNoMem ∧
    (let s := { placeDemo (.record 0x8000) [1] true with mem := [] }
     recFault s 0 0x8000 == none && !recValid s 0 0x8000 &&
     leaves (exec (.gangStart 7) s) (fun t => (gang? t 7).isNone)) = true ∧
    (let x := { waitingGang (.record 0x8000) [1] with running := true, slots := [2] }
     let s := { placeDemo (.record 0x8000) [1] true with
                gangs := [(7, x)], ctxs := [(2, { demoCtx with h := { demoCtx.h with run := 0, cause := cHalt } })] }
     gangHalted s x && leaves (exec (.gangEnd 7) s) (fun t => (gang? t 7).isNone && t.ctxs.isEmpty)) = true := by decide +kernel

theorem test_premises_preempt :
    (let x := { waitingGang (.record 0x8000) [] with region := 4, n := 4 }
     let busy (k n : Nat) : Nat × Core := (k, { Core.empty with slot := some n })
     let s := { placeDemo (.record 0x8000) [] false with
                fuses := { demo.fuses with clumask := 1 }
                ctxs := [(1, demoCtx), (2, { demoCtx with core := some 1 }), (3, { demoCtx with core := some 6 }),
                         (4, { demoCtx with core := some 7 })]
                cores := [busy 0 1, busy 1 2, busy 6 3, busy 7 4]
                regions := [(0, rootRegion 36),
                            (4, { rootRegion 36 with placeq := [7], prio := 9, ovr := 1, slot0 := 8, slotN := 8 })]
                gangs := [(7, x)] }
     (gangPlace s x).isNone &&
       (freeShapes (fun k => coreFree s k || (corePresent s k && displaceable s (effPrio s 4) k)) [0] 4).head? ==
       some [0, 1, 6, 7] && roomAll (clearCores ([1, 2, 3, 4].foldl leaveCore s) [0, 1, 6, 7]) 4 (gangNeeds s x) &&
     leaves (exec (.preemptRequest 0 4) s) (fun t => (t.ctxAt 1).halt == some .preempt)) = true ∧
    (let s := demoWith (fun c => { c with halt := some .preempt })
     (gang? (haltStep s 1) 0).isNone && !haltWaits s 1 &&
     leaves (exec (.preemptHalt 1) s) (fun t => (t.ctxAt 1).core == none)) = true ∧
    leaves (exec (.preemptHalt 1) (demoWith (fun c => { c with halt := some .away }))) (fun t => (t.ctxAt 1).core == none)
      = true := by decide +kernel

theorem test_premises_cores :
    (let s := { placeDemo (.contexts [2]) [1] true with
                cores := [(1, { Core.empty with aims := [7], accepted := some 7, traces := some 3 })] }
     coreFree s 1 && mustScrub s 1 0 && leaves (exec (.idleSearch 1) s) (fun t => (t.coreAt 1).accepted == some 7) && leaves (exec (.scrub 1) s) (fun t => (t.coreAt 1).traces == none)) = true ∧
    (let s := placeDemo (.contexts [2]) [1] false
     coreFree s 1 && leaves (exec (.idleSearch 1) s) (fun t => (t.coreAt 1).accepted == some 7)) = true ∧
    (let s := { placeDemo (.contexts [2]) [1] false with
                cores := [(1, { Core.empty with idle := true, aims := [7] })], clusters := [(0, { Cluster.empty with clock := 4096 })] }
     coreFree s 1 && leaves (exec (.idleSearchTimeout 1) s) (fun t => (t.coreAt 1).accepted == some 7)) = true ∧
    (let s := { placeDemo (.contexts [2]) [] false with
                cores := [(1, { Core.empty with idle := true })], clusters := [(0, { Cluster.empty with clock := 4096 })] }
     coreFree s 1 && decide ((s.coreAt 1).searched + 4096 ≤ (s.clusterAt (clusterOf 1)).clock) &&
     leaves (exec (.idleSearchTimeout 1) s) (fun _ => true) && leaves (exec (.idleSearch 2) s) (fun _ => true)) = true ∧
    (let q (r : Bool) : LaneReq := { slot := 1, core := 0, prio := 0, want := 64, regrant := r }
     let s := { openDemo (fun c => { c with regrant := true, vr := { c.vr with held := 0 } }) with
                clusters := [(0, { Cluster.empty with lanes := [q true] })] }
     (q true).want ≤ 64 - lanesHeld s 0 && budgetRoom s 0 1 64 &&
     leaves (exec (.laneGrant 0) s) (fun t => (t.ctxAt 1).vr.held == 64 && (t.clusterAt 0).lanes.isEmpty)) = true ∧
    (let x : SetvlArgs := { m := extMods, ty := .f32, d := 3, a := 1, n := 16 }
     let s := { demoWith (fun c => { queued (.setvl x) Cap.zero 16 c with vr := { c.vr with long := true } }) with
                clusters := [(0, { Cluster.empty with lanes := [{ slot := 1, core := 0, prio := 0, want := 64, regrant := false }] })] }
     entryInstr (vqHead ({ s with core := 0 }).cur) == some (.setvl x) &&
     leaves (exec (.laneGrant 0) s) (fun t => (t.clusterAt 0).lanes.isEmpty)) = true := by decide +kernel

/-! ### The part's own steps -/

/-- A leaf entry at 0x9000 that names frame 0x10000, and a migration of its page to 0x20000 at a phase. -/
def migDemo (phase : Nat) : State :=
  { openDemo id with
    mem := memWrite (memWrite [] 0x9000 (wordBytes 8 0x4001)) 0x10000 [0x11, 0x22]
    migs := if phase = 0 then [] else [{ old := 0x10000, new := 0x20000, size := 0x1000, leaf := 0x9000, va := 0x70000, code := 0, phase := phase }] }

theorem test_premises_migration :
    migOk (migDemo 0) { old := 0x10000, new := 0x20000, size := 0x1000, leaf := 0x9000, va := 0x70000, code := 0 } = true ∧
    (migAt (migDemo 1) 0x10000 1).isSome = true ∧ (migAt (migDemo 4) 0x10000 4).isSome = true ∧
    Memory.wf (migDemo 2).mem = true ∧
    heldWords (migDemo 2) 0x20000 0x1000 = [] ∧ (migDemo 2).recs = [] ∧
    leaves (exec (.migrateStall { old := 0x10000, new := 0x20000, size := 0x1000, leaf := 0x9000, va := 0x70000, code := 0 })
      (migDemo 0))
      (fun t => t.migs.map (·.phase) == [1]) = true ∧
    leaves (execMigrateDrain 0x10000 (migDemo 1)) (fun t => t.migs.map (·.phase) == [2]) = true ∧
    leaves (execMigrateCopy 0x10000 (migDemo 2)) (fun t => memRead t.mem 0x20000 3 == [0x11, 0x22, 0]) = true ∧
    leaves (execMigrateSwitch 0x10000 (migDemo 3)) (fun t => natOfBytes (memRead t.mem 0x9000 8) == 0x8001) = true ∧
    leaves (execMigrateRelease 0x10000 (migDemo 4)) (fun t => t.migs.isEmpty) = true := by decide +kernel

theorem test_no_snapshot_cut (d : Nat) : ((migDemo 2).snapAt d).cut = false := rfl

theorem test_premises_periods :
    (let s := { openDemo id with
                roots := [(7, { Root.zero with prqctl := 1, prqbase := 0x6000, prqtail := 1 })]
                requests := [{ part := 7, id := 5, guest := false, space := 0, page := 0, record := List.replicate 8 9
                               posted := false, waiters := [] }] }
     decide (((s.rootAt 7).prqtail - (s.rootAt 7).prqhead).toNat < 2) &&
     leaves (execPageRequestPost 7 s) (fun t => natOfBytes (memRead t.mem 0x6040 8) == 9 && (t.rootAt 7).prqtail == 2)) = true ∧
    (let s := demoWith (fun c => { c with q := { c.q with late := List.replicate 66 { w0 := 1, w1 := 0, w2 := 0, w3 := 0, ranges := [] } } })
     leaves (execReplyRecordJoin 1 s) (fun t => (t.ctxAt 1).q.events.length == 64 && (t.ctxAt 1).q.late.length == 2)) = true ∧
    leaves (execPeriodEnd 0x1FFF demo) (fun t => t.arb.point == 2 && t.arb.periods == 1) = true ∧
    leaves (execPeriodEnd 0 demo) (fun t => t.arb.point == targetClass demo) = true ∧
    (let s := { demo with budgets := demo.budgets.set 5 { demo.budgets[5] with limit := 100, used := 99, debt := 0 } }
     decide ((s.budgets[5]).used.toNat ≤ 100) && (chargeWork s 5 64).budgets[5].debt == 63 && workReady s 5 &&
     leaves (exec (.backgroundUnit 5 64) s) (fun t => t.budgets[5].used == 100 && t.budgets[5].debt == 63)) = true ∧
    (cmdActivity 82 (cmdOf (opWord 8 4096) (sealCmd 8)) == some 2 && (readyCmd (sealDemo 8) 82).isSome) = true ∧
    (let s := { demo with
                snaps := [(1, { Snap.empty with ctl := 0x8000000000000000, len := 0x20000, base := 0x100000, dst := 0x200000
                                                map := 0x9000, cut := true })]
                mem := memWrite [] 0x9000 [2], budgets := demo.budgets.set 0 { demo.budgets[0] with limit := 1, used := 0, debt := 0 } }
     ceilDiv (s.snapAt 1).len.toNat 65536 == 2 && snapBit s (s.snapAt 1) 1 && !snapBit s (s.snapAt 1) 0 && workReady s 0 &&
     snapLeft (s.snapAt 1) 1 && snapNext s 1 == some 1) = true ∧
    (let s := { demo with
                snaps := [(1, { Snap.empty with ctl := 0x8000000000000000, len := 0x20000, base := 0x100000, dst := 0x200000
                                                map := 0x9000, cut := true, pages := [0, 1] })]
                budgets := demo.budgets.set 0 { demo.budgets[0] with limit := 1, used := 0, debt := 0 } }
     !(s.snapAt 1).complete && workReady s 0 && snapNext s 1 == none &&
     leaves (exec (.snapBackgroundCopy 1) s) (fun t => (t.snapAt 1).complete)) = true := by
  decide +kernel

theorem test_premises_errors :
    (let line (d : Nat) : L1Line := { data := 0, dirty := BitVec.ofNat 64 d, tags := 0, scope := .core, writers := [], owner := 0, code := 0 }
     let s (d : Nat) : State := { demo with cores := [(0, { Core.empty with l1 := [(5, line d)] })] }
     leaves (execUncorrectableEviction 1 0 5 (s 0)) (fun t => t.poison.isEmpty && ((t.coreAt 0).l1.isEmpty)) &&
     leaves (execUncorrectableEviction 1 0 5 (s 1)) (fun t => t.poison == [5] && ((t.coreAt 0).l1.isEmpty))) = true ∧
    (let s := { demo with l2 := [(1, [(5, { data := 0, dirty := 1, tags := 0, writers := [], owner := 0, code := 0 })])] }
     (s.l2Line 1 5).isSome && leaves (execUncorrectableEviction 2 1 5 s) (fun t => t.poison == [5] && (t.l2Line 1 5).isNone)) = true ∧
    (let s := { demo with budgets := demo.budgets.set 5 { demo.budgets[5] with limit := 100, used := 0, debt := 0 } }
     workReady s 5 && inHbm s (64 * 9) && leaves (execEccPatrol 9 true s) (fun t => t.poison == [9])) = true ∧
    (let q : Queue := { Queue.zero with valid := true, kind := 1, lg := 0, tail := 1 }
     let s := { demo with queues := [(3, q)], regions := [(0, { rootRegion 36 with faultq := BitVec.ofNat 64 (queuePage 3) })] }
     faultQueue (chargeWork s 5 64) treeFuel 0 == some 3 && queueFull (s.queueAt 3) && decide (s.reports.length < 4096)) = true ∧
    leaves (execCalliopeFailure 7 { demo with fes := [(7, { FrontEnd.zero with qmap := [(1, 5)] })] })
      (fun t => (t.feAt 7).state == 1 && (t.feAt 7).fails == 1 && (t.queueAt 5).failed) = true ∧
    leaves (execCalliopeFailure 7 { demo with fes := [(7, { FrontEnd.zero with fails := 1 })] })
      (fun t => (t.feAt 7).state == 2) = true := by decide +kernel

theorem test_premises_power :
    leaves (execPowerUp 1 demo) (fun t => t.ctxs == State.reset.ctxs && t.arb.plimit == 4600) = true ∧
    demo.fuses.ports.getLsbD 15 = true ∧ leaves (execPeerLinkChange 15 false demo) (fun t => t.links16 == 0x7FFF) = true ∧
    ((unitCores (.cluster 3)).all (coreQuiet demo) && !demo.gated.contains (.cluster 3) &&
     leaves (execUnitPowerGate (.cluster 3) demo) (fun t => t.gated == [.cluster 3]) &&
     workReady demo 1 &&
     leaves (execUnitPowerUp (.cluster 3) { demo with gated := [.core 1, .cluster 3] }) (fun t => t.gated == [.core 1])) = true := by
  decide +kernel

/-! ### Early loads and control words of a thread -/

/-- The small state where accesses wait and the load of 0x2000 at 0x1000 has been performed early. -/
def earlyDemo (cap : Bool) : State :=
  { heldDemo with cores := [(0, { Core.empty with slot := some 1, early := [
      { pc := 0x1000, a := 1, c := 0, pa := 0x2000, size := if cap then 16 else 8, scope := .core, value := 77, tag := cap }] })] }

theorem test_premises_early_loads :
    ldCheck (ldArgs 0x2000 0) .load .read (earlyDemo false) (fun t pa =>
      answers (takeEarly 1 0 pa 8 .core t) (fun r _ => r.isSome)) false = true ∧
    leavesG (exec (.ld (ldArgs 0x2000 0)) (earlyDemo false)) 3 77 = true ∧
    ldCheck (ldArgs 0x2008 0) .load .read (earlyDemo false) (fun t pa =>
      answers (takeEarly 1 0 pa 8 .core t) (fun r n => r.isNone && mayHold n && !stepsNext n.cur 3)) false = true ∧
    ldCheck (ldArgs 0x2000 0) .load .read demo (fun t pa =>
      (t.coreAt t.core).early.isEmpty && answers (takeEarly 1 0 pa 8 .core t) (fun r n =>
        r.isNone && !mayHold n && answers (loadMem pa 8 .core 0 n) (fun _ _ => true))) false = true ∧
    answers (ctlCheck (readC (earlyDemo true).cur 1) 0x2000 16 .load .read .core (earlyDemo true)) (fun r t => match r with
      | .ok pa => answers (takeEarly 1 0 pa 16 .core t) (fun r _ => r.isSome)
      | .error _ => false) = true ∧
    answers (ctlCheck (readC demo.cur 1) 0x2000 16 .load .read .core demo) (fun r t => match r with
      | .ok pa => answers (takeEarly 1 0 pa 16 .core t) (fun r n =>
          r.isNone && !mayHold n && answers (loadCapMem pa .core 0 n) (fun _ _ => true))
      | .error _ => false) = true := by decide +kernel

theorem test_premises_rooms :
    ldCheck (ldArgs 0x2008 0) .store .write heldDemo (fun t pa => answers (needRoom pa 8 t) (fun _ u => decide (u = t))) false =
      true ∧
    answers (ctlCheck (readC demo.cur 1) 0x2000 16 .store .write .core heldDemo) (fun r t => match r with
      | .ok pa => mayHold t && answers (needRoom pa 16 t) (fun _ u => decide (u = t))
      | .error _ => false) = true := by decide +kernel

/-- The small state with control space open, the grant of self-authority given or not, g8 a control address, g3 = 4; the context in
slot 2 is of region 5, which session 2 protects, and is stopped. -/
def ctlDemo (own : Bool) (pa : Nat) (f : Ctx → Ctx) : State :=
  let s := openDemo (fun c => f { c with r := { c.r with g := (c.r.g.set 8 (BitVec.ofNat 64 pa)).set 3 4 } })
  { s with
    ctxs := s.ctxs ++ [(2, { demoCtx with core := none, h := { demoCtx.h with run := 0, region := 5 } })]
    regions := [(0, { rootRegion 36 with selfauth := own }), (5, rootRegion 36)]
    sessions := [(2, { Session.zero with state := 2, region := 5 })] }

/-- LD or ST at c1 + g8. -/
def ctlArgs : LdArgs := ldArgs 0 8

/-- What the check of an access of 8 bytes at a control address answers, from c1 and g8. -/
def ctlReads (p : CapPerm) (tp : Perm) (s : State) (ok : State → Nat → Bool) : Bool :=
  answers (ctlCheck (readC s.cur 1) (memOff (gVal s.cur 8) (0 : Imm)) 8 p tp .core s) (fun r t => match r with
    | .ok pa => inCtl pa && ok t pa
    | .error _ => false)

/-- Does the context in slot 1 take a trap with a cause? -/
def leavesTrap (o : Out) (cause : BitVec 16) : Bool :=
  leaves o (fun t => (t.ctxAt 1).h.cause == cause && (t.ctxAt 1).h.run == 0)

/-- The word VLCAP of slot 1's frame, and the second half of one. -/
theorem test_premises_control_loads :
    ctlReads .load .read (ctlDemo false (frameWord 1 0x64) id) (fun _ pa => pa % 8 != 0) = true ∧
    leavesTrap (exec (.ld ctlArgs) (ctlDemo false (frameWord 1 0x64) id)) 0x30 = true ∧
    ctlReads .load .read (ctlDemo false (frameWord 1 0x60) id) (fun t pa => pa % 8 == 0 && needsSelfAuth t pa) = true ∧
    leavesTrap (exec (.ld ctlArgs) (ctlDemo false (frameWord 1 0x60) id)) 0x33 = true ∧
    ctlReads .load .read (ctlDemo true (frameWord 1 0x60) id) (fun t pa => pa % 8 == 0 && !needsSelfAuth t pa &&
      answers (releaseOwn .sys t) (fun _ _ => true)) = true ∧
    leavesG (exec (.ld ctlArgs) (ctlDemo true (frameWord 1 0xE0) (fun c => { c with h := { c.h with shVlcap := 16, shAtp := 16 } }))) 3 16 =
      true := by decide +kernel

theorem test_premises_control_stores :
    ctlReads .store .write (ctlDemo false (frameWord 1 0x64) id) (fun _ pa => pa % 8 != 0) = true ∧
    leavesTrap (exec (.st ctlArgs) (ctlDemo false (frameWord 1 0x64) id)) 0x30 = true ∧
    ctlReads .store .write (ctlDemo false (frameWord 1 0x60) id) (fun t pa => needsSelfAuth t pa && !t.cur.spec) = true ∧
    leavesTrap (exec (.st ctlArgs) (ctlDemo false (frameWord 1 0x60) id)) 0x33 = true ∧
    ctlReads .store .write (ctlDemo true (frameWord 1 0xE0) id) (fun t pa => !needsSelfAuth t pa && !t.cur.halting &&
      answers (releaseOwn .sys t) (fun _ _ => true)) = true ∧
    leaves (exec (.st ctlArgs) (ctlDemo true (frameWord 1 0xE0) id)) (fun t => t.cur.h.shVlcap == 4 || t.cur.h.shAtp == 4) = true ∧
    leavesTrap (exec (.st ctlArgs) (ctlDemo true (frameWord 1 0x8) id)) 0x32 = true ∧
    leavesTrap (exec (.st ctlArgs) (ctlDemo true (frameWord 2 0x80) id)) 0xA00 = true ∧
    ctlReads .store .write (ctlDemo true (frameWord 1 0xE0) (fun c => { c with halting := true })) (fun t pa =>
      !needsSelfAuth t pa && t.cur.halting && t.cur.awaitHalts.isEmpty) = true := by decide +kernel

/-- RUN := 0 of slot 2, stopped, and running on core 1 with an entry that its vector agent has executed. -/
theorem test_premises_waiting_stores :
    (let s := ctlDemo true (frameWord 2 0) (fun c => c)
     let t := s.modCtx 1 (fun c => { c with r := { c.r with g := c.r.g.set 3 0 } })
     let u := (t.modCtx 2 (fun c => { c with core := some 1, h := { c.h with run := 1 }, vqn := 1, vlive := 1 })).modCore 1
       (fun c => { c with slot := some 2 })
     leaves (exec (.st ctlArgs) t) (fun t => t.cur.h.pc == 0x100C && !t.cur.halting) &&
     leaves (exec (.st ctlArgs) u) (fun t => (t.ctxAt 2).halt.isSome || (t.ctxAt 2).h.run == 0)) = true := by decide +kernel

/-- LDC and STC of capability words of frames: c0 of slot 2, none, ROOTCAP of slot 1, a misaligned one. -/
def ctlCap (d : CReg) (off : Nat) : LdcArgs :=
  { m := extMods, scope := .dflt, hint := 0, d := d, a := 5, imm := BitVec.ofNat _ off }

/-- The control state with c5 at a control address. -/
def ctlCapDemo (own : Bool) (pa : Nat) : State :=
  ctlDemo own 0 (fun c => { c with r := { c.r with c := c.r.c.set 5 (setCursor linkRootcap (BitVec.ofNat 64 pa)) } })

/-- What the check of an access of 16 bytes at c5 answers. -/
def ctlCapReads (p : CapPerm) (tp : Perm) (s : State) (ok : State → Nat → Bool) : Bool :=
  answers (ctlCheck (readC s.cur 5) 0 16 p tp .core s) (fun r t => match r with
    | .ok pa => inCtl pa && ok t pa
    | .error _ => false)

theorem test_premises_control_capabilities :
    ctlCapReads .load .read (ctlCapDemo true (frameWord 1 0x48)) (fun _ pa => pa % 16 != 0) = true ∧
    leavesTrap (exec (.ldc (ctlCap 3 0)) (ctlCapDemo true (frameWord 1 0x48))) 0x30 = true ∧
    ctlCapReads .load .read (ctlCapDemo true (frameWord 1 0x60)) (fun _ pa => pa % 16 == 0 && (ctlCapWord pa).isNone) = true ∧
    leavesTrap (exec (.ldc (ctlCap 3 0)) (ctlCapDemo true (frameWord 1 0x60))) 0x31 = true ∧
    ctlCapReads .load .read (ctlCapDemo false (frameWord 1 0x50)) (fun t pa => pa % 16 == 0 && (ctlCapWord pa).isSome &&
      needsSelfAuth t pa) = true ∧
    leavesTrap (exec (.ldc (ctlCap 3 0)) (ctlCapDemo false (frameWord 1 0x50))) 0x33 = true ∧
    ctlCapReads .load .read (ctlCapDemo true (frameWord 1 0x50)) (fun t pa => (ctlCapWord pa).isSome && !needsSelfAuth t pa &&
      answers (releaseOwn .sys t) (fun _ _ => true)) = true ∧
    leaves (exec (.ldc (ctlCap 3 0)) (ctlCapDemo true (frameWord 1 0x50))) (fun t => t.cur.r.c[3] == t.cur.h.rootcap) = true ∧
    leavesTrap (exec (.stc (ctlCap 1 0)) (ctlCapDemo true (frameWord 1 0x48))) 0x30 = true ∧
    leavesTrap (exec (.stc (ctlCap 1 0)) (ctlCapDemo true (frameWord 1 0x60))) 0x31 = true ∧
    leavesTrap (exec (.stc (ctlCap 1 0)) (ctlCapDemo false (frameWord 1 0xD0))) 0x33 = true ∧
    leaves (exec (.stc (ctlCap 1 0)) (ctlCapDemo true (frameWord 1 0xD0))) (fun t => t.cur.h.shRootcap == t.cur.r.c[1]) = true ∧
    leavesTrap (exec (.stc (ctlCap 1 0)) (ctlCapDemo true (frameWord 1 0x50))) 0x32 = true ∧
    leavesTrap (exec (.stc (ctlCap 1 0)) (ctlCapDemo true (frameWord 2 0x50))) 0xA00 = true := by decide +kernel

/-- AMO of a control address, of a misaligned one, where accesses wait, and with its accesses performed. -/
theorem test_premises_atomics :
    (let a (s : State) (imm : Int) (ok : State → Nat → Bool) : Bool :=
       answers (capAccess (readC s.cur 1) imm 8 .load .both .sys s) (fun r t => match r with
         | .ok pa => capHas (readC s.cur 1) .store && ok t pa
         | .error _ => false)
     a demo (frameWord 1 0) (fun _ pa => inCtl pa) && a demo 0x2004 (fun _ pa => !inCtl pa && pa % 8 != 0) &&
     a heldDemo 0x2000 (fun t pa => pa % 8 == 0 && mayHold t && !stepsNext t.cur 3) &&
     a demo 0x2000 (fun t pa => pa % 8 == 0 && !mayHold t && answers (drainParty .control t) (fun _ _ => true))) = true := by
  decide +kernel

theorem test_premises_fences_of_tiles :
    answers ((do waitVector; drainParty .vector; tileRead : M Unit) demo) (fun _ _ => true) = true ∧
    answers ((do waitVector; drainParty .vector; tileRead; drainParty .control : M Unit) demo) (fun _ _ => true) = true ∧
    answers ((do drainParty .vector; tileRead : M Unit) (acting demo 0 .vector)) (fun _ _ => true) = true ∧
    (let s := { demo with cores := [(0, { Core.empty with slot := some 1, ahead := [(0x40, 7)] })] }
     !(s.coreAt s.core).ahead.isEmpty &&
     leaves (exec (.ifence { m := baseMods }) s) (fun t => (t.coreAt 0).ahead.isEmpty && t.cur.h.pc == 0x1004)) = true := by
  decide +kernel

theorem test_premises_sealing :
    (withOtype (maskPerms linkRootcap 1) 2).tag = true ∧ (readC serviceDemo.cur 3).tag = true ∧
    capHas (readC serviceDemo.cur 3) .ctl = true ∧
    answers (sealQueue (readC serviceDemo.cur 3) (withOtype (maskPerms (readC serviceDemo.cur 3) 1) 1) serviceDemo)
      (fun r _ => r.tag && capOtype r == 1) = true := by decide +kernel

/-- PARK of c1 + g8, on the value of g9. -/
def parkArgs : ParkArgs := { m := baseMods, c := 1, x := 8, v := 9, imm := 0 }

/-- PARK of a word of memory, of an image, of an authority word, and of a word that a thread may read. -/
theorem test_premises_parks :
    (let parks (s : State) (ok : State → Nat → Bool) : Bool :=
       answers (ctlCheck (readC s.cur 1) (memOff (gVal s.cur 8) (0 : Imm)) 8 .load .read .sys s) (fun r t => match r with
         | .ok pa => pa % 8 == 0 && ok t pa
         | .error _ => false)
     parks (ctlDemo true 0x2000 id) (fun t pa => !inCtl pa && answers (loadMem pa 8 .sys 0 t) (fun _ _ => true)) &&
     parks (ctlDemo true (frameWord 1 0x1000) id) (fun _ pa => inCtl pa && inImage pa) &&
     parks (ctlDemo false (frameWord 1 0x60) id) (fun t pa => inCtl pa && !inImage pa && needsSelfAuth t pa) &&
     parks (ctlDemo true (frameWord 1 0xE0) id) (fun t pa => inCtl pa && !inImage pa && !needsSelfAuth t pa &&
       answers (releaseOwn .sys t) (fun _ _ => true)) &&
     leavesTrap (exec (.park parkArgs) (ctlDemo true (frameWord 1 0x1000) id)) 0x31 &&
     leavesTrap (exec (.park parkArgs) (ctlDemo false (frameWord 1 0x60) id)) 0x33 &&
     leaves (exec (.park parkArgs) (ctlDemo true (frameWord 1 0xE0) id)) (fun t => t.cur.parked == some (lineOf (frameWord 1 0xE0))) &&
     leaves (exec (.park parkArgs) (ctlDemo true (frameWord 1 0xE0) (fun c => { c with h := { c.h with shVlcap := 1, shAtp := 1 } })))
       (fun t => t.cur.parked.isNone && t.cur.h.pc == 0x1004)) = true := by decide +kernel

/-- An AMO that waits, behind a store of other bytes that has performed, and alone. -/
theorem test_premises_deferred_atomics :
    (let a := acc (.amoG .add .i64 3 2 0)
     let s := pqDemo .control { issue := [a], pending := [], stores := [] }
     !olderMeets (pqOf s 0 .control).issue 0 a && !isStore a && isAmo a && !accStalls s a &&
       leaves (exec (.issue ⟨0, .control, 0⟩) s) (fun t => (pqOf t 0 .control).pending.length == 1)) = true ∧
    (let a := acc (.amoG .add .i64 3 2 0)
     let s := pqDemo .control { issue := [], pending := [a], stores := [] }
     !olderMeets (pqOf s 0 .control).pending 0 a && a.size == Ty.i64.width / 8 && !behindRstate s [] (accRanges a) &&
       leaves (exec (.performLoad ⟨0, .control, 0⟩) s) (fun t => t.cur.r.g[3] == 0 && seenBy t 0 0x2000 == 2)) = true ∧
    (let a := acc (.store 7)
     let b : Access := { acc (.loadG .i64 3) with pa := 0x2008 }
     let s := pqDemo .control { issue := [a], pending := [b], stores := [] }
     isStore a && !(pqOf s 0 .control).pending.any (keepOrder a)) = true := by decide +kernel

/-- VLDFF whose first element faults: bounds of no byte at 0x2000. -/
theorem test_premises_first_of_all_faults :
    (let cap := boundCap (setCursor linkRootcap 0x2000) 0
     let s := vdemo cap 0 id
     answers (checkFirst .i32 4 1 cap .core (memOff 0 (0 : Imm)) (activeElems extMods s.cur) s) (fun r _ =>
       r.1.isEmpty && r.2.isSome) &&
     leaves (exec (.vldff (vm 0)) s) (fun t => (t.ctxAt 1).trap.isSome || (t.ctxAt 1).h.run == 0)) = true ∧
    (vd.coreAt vd.core).early = [] := by decide +kernel

/-- Element loads that wait perform before the registers change their length; with none, or stores alone, nothing need. -/
theorem test_premises_settled_loads :
    (waitingOf vd vd.core .vector).all isStore = true ∧
    (let s := vdemo Cap.zero 100 (fun c => { c with vr := { c.vr with long := true } })
     answers (settleLoads s) (fun _ t => answers (grantSetvl (lanesWanted 100 32 (laneCap t t.cur)) t) (fun g u =>
       g == 64 && answers (takeLanes g u) (fun _ _ => true)))) = true ∧
    (let s := modPq vd 0 .vector (fun q => { q with issue := [acc (.storeV [])] })
     (waitingOf s s.core .vector).all isStore && answers (settleLoads s) (fun _ t => decide (t = s))) = true ∧
    (let s := modPq vd 0 .vector (fun q => { q with issue := [acc (.loadV [])] })
     !(waitingOf s s.core .vector).all isStore && answers (settleLoads s) (fun _ _ => true)) = true := by decide +kernel

/-- A tile and a binding record with nothing that waits on their bytes; VBIND under a hint. -/
theorem test_premises_own_first :
    answers (tileAccess 1 (setCursor linkRootcap (BitVec.ofNat 64 (spadOf 0))) 0 (32768 + tileScales .none (tileK .e4m3)) tileDemo)
      (fun pa t => answers (ownFirst pa (32768 + tileScales .none (tileK .e4m3)) t) (fun _ _ => true)) = true ∧
    (let s := { vd with mem := memWrite [] 0x2000 (bytesOfNat 8 (64 <<< 16 ||| 3)) }
     answers (ownFirst 0x2000 64 s) (fun _ _ => true) &&
     leaves (exec (.vbind { m := extMods, hint := 1, d := 0, a := 1, b := 4, imm := 0 }) s)
       (fun t => t.cur.q.binds[0].bound && (t.coreAt 0).l1.isEmpty)) = true := by decide +kernel

/-- A field beyond a record's eight slots, a record that is not idle, a handle that names none. -/
theorem test_premises_record_checks :
    (let at_ (h : Word) (st : Nat) : State := { taskDemo st false with
       ctxs := (taskDemo st false).ctxs.map (fun p => (p.1, { p.2 with r := { p.2.r with g := p.2.r.g.set 7 h } })) }
     let run (s : State) : Out := exec (.lpatch { m := extMods, d := 3, a := 7, b := 1, k := 0, lit := none }) s
     decide (handleCheck (at_ 0x90000 0) 0 0x90000 true = .ok 0) && decide (8 < field (0x90000 : Word) 16 4) && leavesG (run (at_ 0x90000 0)) 3 9 &&
     decide (((taskDemo 1 false).recAt (recordAt (taskDemo 1 false) 0 0)).state ≠ 0) && leavesG (run (at_ 0x80000 1)) 3 6 &&
     decide (field (0x80000 : Word) 16 4 ≤ 8) && answers (releaseOwn .sys (at_ 0x80000 1)) (fun _ _ => true) &&
     decide (handleCheck (at_ 2 0) 0 2 true = .error 8) && leavesG (run (at_ 2 0)) 3 8 &&
     decide (handleCheck (at_ 2 0) 0 2 false = .error 8) && leavesG (exec (.larmArm { m := extMods, d := 3, a := 7, k := 0 }) (at_ 2 0)) 3 8 &&
     answers (releaseOwn .sys (at_ 0 0)) (fun _ _ => true) && (handleCheck (at_ 0 0) 0 0 false).isOk) = true := by decide +kernel

theorem test_premises_deferral_order :
    (let s := vdemo Cap.zero 7 (fun c => { c with ss := { c.ss with slots := 4, lp := 1 } })
     let slots := (activeElems extMods s.cur).zipIdx.map (fun q => (spadOf s.core + slotOff s.cur.ss 1 (q.2 % s.cur.ss.slots), 64))
     answers ((do ownRanges slots; settleTile slots : M Unit) s) (fun _ _ => true) &&
     answers (((List.range 2).mapM (fun e => readSpad (slotOff s.cur.ss 1 (e % s.cur.ss.slots)) 64 1)) s) (fun l _ => l.length == 2))
      = true := by decide +kernel

/-- LR in the load-only ranges, and atomics of context memory, at once and as they wait. -/
theorem test_premises_roustabout_atomics :
    answers (localLoad 0x8000 4 loaderDemo) (fun l t => l.length == 4 && decide (t = loaderDemo)) = true ∧
    answers (dstoreAmo (rvAmo .lr 3) 0x8000 4 0 loaderDemo) (fun _ t => t.cur.loader.reserved.isSome) = true ∧
    answers (roustAccess 0x100000 4 .load .read loaderDemo) (fun pa t => pa == 0x100000 && !mayHold t &&
      answers (drainParty t.party t) (fun _ _ => true)) = true ∧
    answers (roustAccess 0x100000 4 .store .both loaderDemo) (fun _ t => !mayHold t) = true ∧
    answers (roustPlace 0x100000 4 .load .both true loaderDemo) (fun _ t => !mayHold t) = true ∧
    answers (roustPlace 0x100000 4 .load .both true { loaderDemo with hold := true }) (fun _ t => mayHold t) = true ∧
    (let a : Access := loadAccess (.amoX .sc false 7 9) 0x100000 4 .core 0
     let s (r : Option Nat) : State := roustDemo .loader (fun x => { x with reserved := r }) id
     (performAmoX (s (some (lineOf 0x100000))) 0 a .sc false 7 9).cur.loader.x[7] == 0 &&
     (performAmoX (s none) 0 a .sc false 7 9).cur.loader.x[7] == 1) = true := by decide +kernel

theorem test_premises_pushes :
    answers (releaseOwn .core (qDemo .loader 9 0 id)) (fun _ _ => true) = true ∧ (qDemo .loader 9 0 id).cur.q.qa.length < 16 ∧
    answers (releaseOwn .core demo) (fun _ _ => true) = true ∧ answers (releaseOwn (homeScope 0) demo) (fun _ _ => true) = true ∧
    (let r (c : Cap) : Roustabout := { Roustabout.zero with kc := Roustabout.zero.kc.set 0 c }
     answers (pushCap (r linkRootcap) 0 4 demo) (fun c _ => capCursor c == capCursor linkRootcap + 4) &&
     answers (pushCap (r Cap.zero) 0 4 demo) (fun c _ => !c.tag) && answers (pushCap (r linkRootcap) 9 4 demo) (fun c _ => decide (c = Cap.zero)) &&
     (match pushCap (r (withOtype linkRootcap 1)) 0 4 demo with
       | .error (.trap t) _ => t.cause == 0x23
       | _ => false)) = true := by decide +kernel

/-- The host's store of RUN := 0 to a context that an access holds back, and of one that stops at once. -/
theorem test_premises_host_stores :
    (let s (f : Ctx → Ctx) : State := { openDemo f with
       links16 := 0xFFFF
       ctxs := [(0, { linkCtx with h := { linkCtx.h with rootcap := linkRootcap } }), (1, f demoCtx)] }
     let b (v : Word) : BusArgs := bx true (frameWord 1 0) 8 v
     let off (c : Ctx) : Ctx := { c with h := { c.h with run := 0 } }
     (match ctlStore (s id) .host (frameWord 1 0) 2 with
       | .ok t => !(haltTargets t (frameWord 1 0) 2).isEmpty
       | .error _ => false) &&
     leaves (exec (.hostAccess (b 2)) (s id)) (fun t => t.hostStore == some (frameWord 1 0, 2, [1])) &&
     leaves (exec (.hostAccess (b 0)) (s id)) (fun t => t.answer == (false, 0) && t.hostStore.isNone) &&
     leaves (exec (.hostAccess (b 1)) (s off)) (fun t => t.answer == (false, 0)) &&
     leaves (exec (.hostAccess (b 1)) { s off with hostStore := some (frameWord 1 0, 2, [1]) }) (fun t => (t.ctxAt 1).h.run == 0) &&
     leaves (exec (.runStep (hc 1)) (s id)) (fun t => t.hostStore.isSome)) = true := by decide +kernel

/-- A completed command of a pruned context; a copy with no segment. -/
theorem test_premises_engine_records :
    (let s := engDemo 0 (opWord 0 64) (fun c => { c with status := some 0 })
     let p := s.modCtx 1 (fun c => { c with pruned := true })
     (p.ctxAt 1).pruned && leaves (exec (.enginePost (ea 0)) p) (fun t => (t.engineAt 0).cmds.isEmpty && decide (t.ctxs = p.ctxs)) &&
     (engDemo 0 (opWord 0 64) id).segs.isEmpty) = true := by decide +kernel

/-- Two units that the power-up left to their write pass: the first, and the last, after which the ROM looks at the flash. -/
theorem test_premises_write_passes :
    (let s (l : List Nat) : State := { demo with arb := { demo.arb with boot := 0, unzeroed := l } }
     workReady (s [3, 4]) 1 &&
     leaves (exec (.unitPowerUp (.core 3)) (s [3, 4])) (fun t => t.arb.boot == 0 && t.arb.unzeroed == [4]) &&
     leaves (exec (.unitPowerUp (.core 4)) (s [4])) (fun t => t.arb.boot != 0 && t.arb.unzeroed == []) &&
     (unitCores (.core 1)).all (fun k => !({ demo with gated := [.core 1] } : State).arb.unzeroed.contains k)) = true := by decide +kernel

end Sys2Proof.Tests
end

/-! The guard of the scalar instructions (R32, R145): each of them is a body run under its guard, so a guard that fails
leaves only the advance of the pc. -/

namespace Sys2Proof.Machine

/-- Every instruction of `scalarMods` is one guarded step, with the same body in every state (R32, R145). -/
theorem exec_eq_scalarStep {i : Instr} {m : Mods} (h : scalarMods i = some m) :
    ∃ body : M Unit, ∀ s : State, exec i s = scalarStep m body s := by
  unfold scalarMods at h
  split at h
  -- `cases h` fixes `m` in a listed form and rules out every other form, where `h` reads `none = some m`.
  all_goals cases h
  -- The meaning of a listed form is by definition a `scalarStep` under the modifiers of that form.
  all_goals exact ⟨_, fun _ => rfl⟩

/-- Settles O11: the instruction is a guarded step, and a guarded step whose guard fails only advances. -/
theorem failingGuardOnlyAdvances : Obligations.FailingGuardOnlyAdvances := by
  intro i m s hmods hguard
  obtain ⟨body, hexec⟩ := exec_eq_scalarStep hmods
  rw [hexec]
  exact scalarStep_fails hguard body

end Sys2Proof.Machine

/-! A withdrawal (R321), core by core: what `unaim` takes back from each core, and from which cores it takes nothing. -/

namespace Sys2Proof.Machine

theorem lookupKey_map {α β : Type} (f : α → β) (k : Nat) (l : List (Nat × α)) :
    lookupKey k (l.map (fun p => (p.1, f p.2))) = (lookupKey k l).map f := by
  induction l with
  | nil => rfl
  | cons p rest ih => simp only [List.map_cons, lookupKey, ih, apply_ite (Option.map f), Option.map_some]

/-- A core from which the aim of gang `g` is taken back; a core that `g` is not aimed at stays as it is. -/
def unaimCore (g : Nat) (c : Core) : Core :=
  if c.aims.contains g then
    { c with aims := c.aims.filter (fun h => h != g), accepted := if c.accepted = some g then none else c.accepted }
  else c

theorem unaim_cores (s : State) (g : Nat) : (unaim s g).cores = s.cores.map (fun p => (p.1, unaimCore g p.2)) := by
  refine List.map_congr_left fun p _ => ?_
  simp only [unaimCore, apply_ite (Prod.mk p.1)]

theorem coreAt_unaim (s : State) (g k : Nat) : (unaim s g).coreAt k = unaimCore g (s.coreAt k) := by
  rw [State.coreAt, unaim_cores, lookupKey_map, State.coreAt]
  cases lookupKey k s.cores <;> rfl

/-- Of a withdrawal's writes only that of `unaim` is to the cores. -/
theorem coreAt_withdraw (s : State) (g k : Nat) (x : Gang) : (withdraw s g x).coreAt k = unaimCore g (s.coreAt k) :=
  coreAt_unaim s g k

theorem unaimCore_accepted_iff (g : Nat) (c : Core) :
    (unaimCore g c).accepted = some g ↔ c.accepted = some g ∧ g ∉ c.aims := by
  by_cases haim : g ∈ c.aims <;> simp [unaimCore, haim]

/-- An acceptance outlives the withdrawal of its gang exactly on a core that the gang is not aimed at. -/
theorem withdraw_accepted_iff (s : State) (g k : Nat) (x : Gang) :
    ((withdraw s g x).coreAt k).accepted = some g ↔ (s.coreAt k).accepted = some g ∧ g ∉ (s.coreAt k).aims := by
  rw [coreAt_withdraw, unaimCore_accepted_iff]

/-- Refutes O56, by its clause on `withdraw`, which says of every state that no core has the gang as accepted afterwards. The
premise that a core accepts only what is aimed at it (R46, R321) is missing there: in the state below gang 7 stands in the placement
queue of region 0 and is aimed at no core, core 1 has accepted it, and the withdrawal leaves core 1 as it is. No run from reset is
claimed to reach that state; the clause does not ask for one. -/
theorem not_placementSteps : ¬ Obligations.PlacementSteps := by
  rintro ⟨-, hwithdraw, -⟩
  obtain ⟨-, -, -, -, hcores⟩ := hwithdraw 7 (contextGang [2] 0 0 false)
    { State.reset with
      gangs := [(7, contextGang [2] 0 0 false)]
      regions := [(0, { rootRegion 36 with placeq := [7] })]
      cores := [(1, { Core.empty with accepted := some 7 })] } (by decide)
  obtain ⟨-, hnotAccepted⟩ := hcores 1
  exact hnotAccepted ((withdraw_accepted_iff ..).mpr ⟨rfl, by decide⟩)

end Sys2Proof.Machine

/-! What a turn runs (R69, R104, R259, R386): the plan of each kind of turn once its words decode, and the step that follows. -/

namespace Sys2Proof.Machine

/-! ### Registers that await no access (R118) -/

theorem waitingOf_eq_nil {s : State} {k : Nat} {p : Party} (h : anyWaiting (pqOf s k p) = false) : waitingOf s k p = [] := by
  simp only [anyWaiting, Bool.or_eq_false_iff, Bool.not_eq_false', List.isEmpty_iff] at h
  obtain ⟨⟨hissue, hpending⟩, hstores⟩ := h
  simp only [waitingOf, hissue, hpending, hstores, List.append_nil]

theorem withRegs_of_none_waiting {s : State} (h : anyWaiting (pqOf s s.core .control) = false) (gs : List GReg)
    (cs : List CReg) : withRegs gs cs s = some s := by
  have hnone := waitingOf_eq_nil h
  simp only [waitingOf, List.append_eq_nil_iff] at hnone
  obtain ⟨⟨-, hpending⟩, hissue⟩ := hnone
  simp [withRegs, awaited, hissue, hpending]

theorem ready_of_none_waiting {s : State} (h : anyWaiting (pqOf s s.core .control) = false) (i : Instr) :
    ready i s = some s := by
  unfold ready
  split <;> exact withRegs_of_none_waiting h _ _

theorem xReady_of_none_waiting {s : State} (h : anyWaiting (pqOf s s.core s.party) = false) (i : Instr) :
    xReady i s = some s := by
  simp [xReady, drainFor, waitingOf_eq_nil h]

/-! ### The plan of a control thread's turn -/

theorem cur_eq_ctxAt {s : State} {slot : Nat} (h : (s.coreAt s.core).slot = some slot) : s.cur = s.ctxAt slot := by
  rw [State.cur, State.slot, h, Option.getD_some]

theorem withFirstAcq_of_none {s : State} (h : s.cur.firstAcq = none) : withFirstAcq s = s := by
  simp only [withFirstAcq, h]

/-- A control thread at a boundary has nothing to do but to fetch its next instruction, at an aligned pc and outside a carousel
run. -/
theorem planThread_of_atBoundary {s : State} (h : atBoundary s s.core = true) :
    corePresent s s.core = true ∧ s.cur.car.cln = 0 ∧ field s.cur.h.pc 0 2 = 0 ∧ planThread s = planFetch s := by
  unfold atBoundary at h
  split at h
  · cases h
  next slot hslot =>
    have hcur := cur_eq_ctxAt hslot
    simp only [Bool.and_eq_true, bne_iff_ne, ne_eq, Option.isNone_iff_eq_none, Bool.not_eq_true', beq_iff_eq, and_assoc,
      ← hcur] at h
    obtain ⟨hpresent, hrun, htrap, hhalt, hcommit, hparked, hacq, hseg, hcln, halign⟩ := h
    refine ⟨hpresent, hcln, halign, ?_⟩
    simp only [planThread, hslot, ← hcur, if_neg hrun, htrap, hhalt, hcommit, hparked, hseg, withFirstAcq_of_none hacq,
      Option.isSome_none, Bool.false_eq_true, reduceCtorEq, if_false]

/-- Outside a carousel run, the next words are those fetched at an aligned pc (R69). -/
theorem nextWords_of_fetch {s s' : State} {ws : List Word32} (hcln : s.cur.car.cln = 0) (halign : field s.cur.h.pc 0 2 = 0)
    (hfetch : fetchInstr s.cur.h.pc s = .ok ws s') : nextWords s = .ok (some ws) s' := by
  simp [nextWords, run_bind, hcln, halign, hfetch, -bind_pure_comp]

theorem planFetch_of_decoded {s s' u : State} {ws : List Word32} {i : Instr} (hwords : nextWords s = .ok (some ws) s')
    (hdecode : decodeWords ws = some i) (hready : ready i s' = some u) : planFetch s = .run i u := by
  simp only [planFetch, hwords, hdecode, hready]

theorem planTurn_thread_of_decoded {s s' u : State} {k : Nat} {ws : List Word32} {i : Instr} (hboundary : atBoundary s k = true)
    (hfetch : fetchInstr ({ s with core := k, party := .control }).cur.h.pc { s with core := k, party := .control } = .ok ws s')
    (hdecode : decodeWords ws = some i) (hready : ready i s' = some u) : planTurn (.thread k) s = .run i u := by
  have hacting : atBoundary { s with core := k, party := .control } k = true := hboundary
  obtain ⟨hpresent, hcln, halign, hplan⟩ := planThread_of_atBoundary hacting
  calc planTurn (.thread k) s
    _ = planThread { s with core := k, party := .control } := if_pos hpresent
    _ = planFetch { s with core := k, party := .control } := hplan
    _ = .run i u := planFetch_of_decoded (nextWords_of_fetch hcln halign hfetch) hdecode hready

/-! ### The plans of the other turns -/

theorem planRoustabout_of_decoded {s : State} {slot : Nat} {storer : Bool} {i : Instr}
    (hslot : (s.coreAt s.core).slot = some slot) (hturn : roustReady s slot storer = true)
    (hdecode : decodeRoustabout (roustCode (roustOf (s.ctxAt slot) storer)) = some i)
    (hready : xReady i s = some s) : planRoustabout storer s = .run i s := by
  simp only [roustReady, Bool.and_eq_true, bne_iff_ne, ne_eq, Option.isNone_iff_eq_none, Bool.not_eq_true',
    beq_iff_eq, decide_eq_true_eq, and_assoc] at hturn
  obtain ⟨hrun, htrap, hhalt, hseg, hacq, hidle, hdflt, heven, hstore, hlast⟩ := hturn
  rw [← cur_eq_ctxAt hslot] at hacq
  simp only [roustCode] at hlast hdecode
  have hfits : ((roustOf (s.ctxAt slot) storer).pc == 0x3FFE &&
      decide (field (BitVec.ofNat 32 (wordAtPc (roustOf (s.ctxAt slot) storer))) 0 2 = 3)) = false := hlast
  simp only [planRoustabout, hslot, withFirstAcq_of_none hacq, hdecode, hready, hrun, htrap, hhalt, hseg, hidle, hdflt, heven,
    Nat.not_le_of_lt hstore, hfits, Option.isSome_none, ne_eq, not_true_eq_false, decide_false, Bool.or_false,
    Bool.false_eq_true, if_false]

theorem planTurn_roustabout_of_decoded {s : State} {k slot : Nat} {storer : Bool} {i : Instr} (hpresent : corePresent s k = true)
    (hslot : (s.coreAt k).slot = some slot) (hturn : roustReady s slot storer = true)
    (hdecode : decodeRoustabout (roustCode (roustOf (s.ctxAt slot) storer)) = some i)
    (hnone : anyWaiting (pqOf s k (if storer then .storer else .loader)) = false) :
    planTurn (.roustabout k storer) s = .run i { s with core := k, party := if storer then .storer else .loader } := by
  rw [planTurn, if_pos hpresent]
  have hready := xReady_of_none_waiting (s := { s with core := k, party := if storer then .storer else .loader }) hnone i
  exact planRoustabout_of_decoded hslot hturn hdecode hready

theorem planCalliope_of_decoded {s : State} {f : Nat} {r : LyRun} {i : Instr} (hrun : (s.feAt f).run = some r)
    (hdecode : (((lookupKey r.queue (s.feAt f).progs).getD [])[r.index]?).bind decodeLysyo = some i) :
    planCalliope f s = .run i s := by
  simp only [planCalliope, hrun, hdecode]

theorem planTurn_calliope_of_decoded {s : State} {f : Nat} {r : LyRun} {i : Instr} (hfe : f < 8)
    (hrun : (s.feAt f).run = some r)
    (hdecode : (((lookupKey r.queue (s.feAt f).progs).getD [])[r.index]?).bind decodeLysyo = some i) :
    planTurn (.calliope f) s = .run i { s with fe := f } := by
  rw [planTurn, if_pos hfe]
  exact planCalliope_of_decoded hrun hdecode

theorem planTurn_event_of_part {s : State} {i : Instr} (hpart : fetched i = false) : planTurn (.event i) s = .run i s := by
  simp only [planTurn, hpart, Bool.false_eq_true, if_false]

/-! ### The step of a turn that runs a row -/

theorem stepTurn_of_run {t : Turn} {s u : State} {i : Instr} (h : planTurn t s = .run i u) :
    stepTurn t s = match exec i u with
      | .next v => .next (finishTurn s (afterTurn t u i v))
      | .fault f => .fault f
      | .refused r => .refused r := by
  cases hexec : exec i u <;> simp only [stepTurn, h, hexec]

/-- After a row that a control thread did not run there follows only what follows every turn. -/
theorem stepTurn_eq_stepInstr {t : Turn} {s u : State} {i : Instr} (hother : ∀ k, t ≠ .thread k)
    (h : planTurn t s = .run i u) : stepTurn t s = stepInstr s i u := by
  have hafter (v : State) : afterTurn t u i v = v := by
    cases t with
    | thread k => exact absurd rfl (hother k)
    | _ => rfl
  rw [stepTurn_of_run h, stepInstr]
  cases exec i u <;> simp only [hafter]

theorem step_of_run {s u : State} {t : Turn} {i : Instr} (hturn : (nextTurn s).1 = t) (hother : ∀ k, t ≠ .thread k)
    (hplan : planTurn t (nextTurn s).2 = .run i u) : step s = stepInstr (nextTurn s).2 i u := by
  rw [step, hturn, stepTurn_eq_stepInstr hother hplan]

/-- Settles O5: each kind of turn plans the run of the instruction decoded (for a control thread, once its registers are ready), and
a step is the run of the next turn's plan. -/
theorem stepRunsTheDecodedInstruction : Obligations.StepRunsTheDecodedInstruction := by
  refine ⟨fun s s' k ws i hturn hboundary hfetch hdecode => ⟨fun u hready => ?_, fun hnone => ready_of_none_waiting hnone i⟩,
    fun s k slot st i hturn hpresent hslot hready hdecode hnone => ?_, fun s f r i hturn hfe hrun hdecode => ?_,
    fun s i hturn hpart => ?_⟩
  · rw [step, hturn]
    exact stepTurn_of_run (planTurn_thread_of_decoded hboundary hfetch hdecode hready)
  · exact step_of_run hturn (by simp) (planTurn_roustabout_of_decoded hpresent hslot hready hdecode hnone)
  · exact step_of_run hturn (by simp) (planTurn_calliope_of_decoded hfe hrun hdecode)
  · exact step_of_run hturn (by simp) (planTurn_event_of_part hpart)

end Sys2Proof.Machine


/-! # The words of Nymzin instructions

The decoder and the encoder are tied in two halves. Forwards, what a decoder answers is well formed and has the fields
that were read (`decodeFields_encodes`); backwards, the fields of a well-formed instruction decode to it
(`readsBack`). Words and fields are tied once for all instructions (`Fields.ofWords_words_append`,
`Fields.words_of_ofWords`). -/

namespace Sys2Proof
open Sys2Proof.Machine

/-! ### Monadic checks -/

/-- A check of a decoder, then the rest of it. -/
theorem guard_bind {α : Type} {p : Prop} [Decidable p] (k : Unit → Option α) :
    (guard p : Option Unit).bind k = if p then k () else none := by
  by_cases h : p <;> simp [guard, h]

/-! ### Codes: a field holds a code exactly where it is the code of what it reads as (R58 to R65) -/

theorem Ty.ofCode_eq_some {c : BitVec 5} {t : Ty} : Ty.ofCode c = some t ↔ c = t.code := by
  constructor
  · intro h
    unfold Ty.ofCode at h
    split at h <;> cases h <;> exact BitVec.eq_of_toNat_eq ‹_›
  · rintro rfl; cases t <;> rfl

@[simp] theorem Ty.ofCode_code (t : Ty) : Ty.ofCode t.code = some t := Ty.ofCode_eq_some.mpr rfl

theorem ScopeQ.ofCode_eq_some {c : BitVec 3} {t : ScopeQ} : ScopeQ.ofCode c = some t ↔ c = t.code := by
  constructor
  · intro h
    unfold ScopeQ.ofCode at h
    split at h <;> cases h <;> exact BitVec.eq_of_toNat_eq ‹_›
  · rintro rfl; cases t <;> rfl

@[simp] theorem ScopeQ.ofCode_code (t : ScopeQ) : ScopeQ.ofCode t.code = some t := ScopeQ.ofCode_eq_some.mpr rfl

theorem Rm.ofCode_eq_some {c : BitVec 3} {t : Rm} : Rm.ofCode c = some t ↔ c = t.code := by
  constructor
  · intro h
    unfold Rm.ofCode at h
    split at h <;> cases h <;> exact BitVec.eq_of_toNat_eq ‹_›
  · rintro rfl; cases t <;> rfl

@[simp] theorem Rm.ofCode_code (t : Rm) : Rm.ofCode t.code = some t := Rm.ofCode_eq_some.mpr rfl

theorem Cond.ofCode_eq_some {c : BitVec 6} {t : Cond} : Cond.ofCode c = some t ↔ c = t.code := by
  constructor
  · intro h
    unfold Cond.ofCode at h
    split at h <;> cases h <;> exact BitVec.eq_of_toNat_eq ‹_›
  · rintro rfl; cases t <;> rfl

@[simp] theorem Cond.ofCode_code (t : Cond) : Cond.ofCode t.code = some t := Cond.ofCode_eq_some.mpr rfl

theorem FCond.ofCode_eq_some {c : BitVec 6} {t : FCond} : FCond.ofCode c = some t ↔ c = t.code := by
  constructor
  · intro h
    unfold FCond.ofCode at h
    split at h <;> cases h <;> exact BitVec.eq_of_toNat_eq ‹_›
  · rintro rfl; cases t <;> rfl

@[simp] theorem FCond.ofCode_code (t : FCond) : FCond.ofCode t.code = some t := FCond.ofCode_eq_some.mpr rfl

theorem AmoKind.ofCode_eq_some {c : BitVec 6} {t : AmoKind} : AmoKind.ofCode c = some t ↔ c = t.code := by
  constructor
  · intro h
    unfold AmoKind.ofCode at h
    split at h <;> cases h <;> exact BitVec.eq_of_toNat_eq ‹_›
  · rintro rfl; cases t <;> rfl

@[simp] theorem AmoKind.ofCode_code (t : AmoKind) : AmoKind.ofCode t.code = some t := AmoKind.ofCode_eq_some.mpr rfl

theorem RedKind.ofCode_eq_some {c : BitVec 6} {t : RedKind} : RedKind.ofCode c = some t ↔ c = t.code := by
  constructor
  · intro h
    unfold RedKind.ofCode at h
    split at h <;> cases h <;> exact BitVec.eq_of_toNat_eq ‹_›
  · rintro rfl; cases t <;> rfl

@[simp] theorem RedKind.ofCode_code (t : RedKind) : RedKind.ofCode t.code = some t := RedKind.ofCode_eq_some.mpr rfl

theorem CgetKind.ofCode_eq_some {c : BitVec 21} {t : CgetKind} : CgetKind.ofCode c = some t ↔ c = t.code := by
  constructor
  · intro h
    unfold CgetKind.ofCode at h
    split at h <;> cases h <;> exact BitVec.eq_of_toNat_eq ‹_›
  · rintro rfl; cases t <;> rfl

@[simp] theorem CgetKind.ofCode_code (t : CgetKind) : CgetKind.ofCode t.code = some t := CgetKind.ofCode_eq_some.mpr rfl

theorem TfKind.ofCode_eq_some {c : BitVec 21} {t : TfKind} : TfKind.ofCode c = some t ↔ c = t.code := by
  constructor
  · intro h
    unfold TfKind.ofCode at h
    split at h <;> cases h <;> exact BitVec.eq_of_toNat_eq ‹_›
  · rintro rfl; cases t <;> rfl

@[simp] theorem TfKind.ofCode_code (t : TfKind) : TfKind.ofCode t.code = some t := TfKind.ofCode_eq_some.mpr rfl

theorem MxKind.ofCode_eq_some {c : BitVec 6} {t : MxKind} : MxKind.ofCode c = some t ↔ c = t.code := by
  constructor
  · intro h
    unfold MxKind.ofCode at h
    split at h <;> cases h <;> exact BitVec.eq_of_toNat_eq ‹_›
  · rintro rfl; cases t <;> rfl

@[simp] theorem MxKind.ofCode_code (t : MxKind) : MxKind.ofCode t.code = some t := MxKind.ofCode_eq_some.mpr rfl

theorem ScaleCode.ofCode_eq_some {c : BitVec 6} {t : ScaleCode} : ScaleCode.ofCode c = some t ↔ c = t.code := by
  constructor
  · intro h
    unfold ScaleCode.ofCode at h
    split at h <;> cases h <;> exact BitVec.eq_of_toNat_eq ‹_›
  · rintro rfl; cases t <;> rfl

@[simp] theorem ScaleCode.ofCode_code (t : ScaleCode) : ScaleCode.ofCode t.code = some t :=
  ScaleCode.ofCode_eq_some.mpr rfl

theorem ChainVec.ofCode_eq_some {c : BitVec 6} {t : ChainVec} : ChainVec.ofCode c = some t ↔ c = t.code := by
  constructor
  · intro h
    unfold ChainVec.ofCode at h
    split at h <;> cases h <;> exact BitVec.eq_of_toNat_eq ‹_›
  · rintro rfl; cases t <;> rfl

@[simp] theorem ChainVec.ofCode_code (t : ChainVec) : ChainVec.ofCode t.code = some t := ChainVec.ofCode_eq_some.mpr rfl

theorem vReg?_eq_some {x : BitVec 6} {r : VReg} : vReg? x = some r ↔ x = regField r := by
  unfold vReg?
  have := r.isLt
  split <;> simp [Fin.ext_iff, regField, BitVec.toNat_eq] <;> omega

@[simp] theorem vReg?_regField (r : VReg) : vReg? (regField r) = some r := vReg?_eq_some.mpr rfl

theorem pReg?_eq_some {x : BitVec 6} {r : PReg} : pReg? x = some r ↔ x = regField r := by
  unfold pReg?
  have := r.isLt
  split <;> simp [Fin.ext_iff, regField, BitVec.toNat_eq] <;> omega

@[simp] theorem pReg?_regField (r : PReg) : pReg? (regField r) = some r := pReg?_eq_some.mpr rfl

theorem cReg?_eq_some {x : BitVec 6} {r : CReg} : cReg? x = some r ↔ x = regField r := by
  unfold cReg?
  have := r.isLt
  split <;> simp [Fin.ext_iff, regField, BitVec.toNat_eq] <;> omega

@[simp] theorem cReg?_regField (r : CReg) : cReg? (regField r) = some r := cReg?_eq_some.mpr rfl
@[simp] theorem cReg?_zero : cReg? 0#6 = some 0 := rfl

theorem aReg?_eq_some {x : BitVec 6} {r : AReg} : aReg? x = some r ↔ x = regField r := by
  unfold aReg?
  have := r.isLt
  split <;> simp [Fin.ext_iff, regField, BitVec.toNat_eq] <;> omega

@[simp] theorem aReg?_regField (r : AReg) : aReg? (regField r) = some r := aReg?_eq_some.mpr rfl

theorem bindReg?_eq_some {x : BitVec 6} {r : Fin 8} : bindReg? x = some r ↔ x = BitVec.ofNat 6 (r + 24) := by
  unfold bindReg?
  have := r.isLt
  split <;> simp [Fin.ext_iff, BitVec.toNat_eq] <;> omega

@[simp] theorem bindReg?_ofNat (r : Fin 8) : bindReg? (BitVec.ofNat 6 (r + 24)) = some r := bindReg?_eq_some.mpr rfl

@[simp] theorem regField_gReg (x : BitVec 6) : regField (gReg x) = x := by simp [regField, gReg]
@[simp] theorem regField_toFin (x : BitVec 6) : regField x.toFin = x := regField_gReg x
@[simp] theorem gReg_regField (x : GReg) : gReg (regField x) = x := by
  have := x.isLt
  simp [regField, gReg]
@[simp] theorem toFin_regField (x : Fin 64) : (regField x).toFin = x := gReg_regField x
@[simp] theorem toNat_regField (x : GReg) : (regField x).toNat = x.val := by
  rw [regField, BitVec.toNat_ofNat, Nat.mod_eq_of_lt x.isLt]
@[simp] theorem gReg_zero : gReg 0#6 = 0 := rfl
@[simp] theorem gReg_eq_zero {x : BitVec 6} : gReg x = 0 ↔ x = 0#6 := by revert x; decide
@[simp] theorem regField_zero {n : Nat} [NeZero n] : regField (0 : Fin n) = 0#6 := rfl
@[simp] theorem regField_eq_zero {n : Nat} [NeZero n] (hn : n ≤ 64) {x : Fin n} : regField x = 0#6 ↔ x = 0 := by
  have := x.isLt
  rw [regField, BitVec.toNat_eq, BitVec.toNat_ofNat, Nat.mod_eq_of_lt (by omega), Fin.ext_iff]
  rfl
@[simp] theorem val_gReg (x : BitVec 6) : (gReg x).val = x.toNat := rfl
@[simp] theorem ofBit_bitOf (x : BitVec 1) : ofBit (bitOf x) = x := by revert x; decide
@[simp] theorem bitOf_ofBit (x : Bool) : bitOf (ofBit x) = x := by cases x <;> rfl
@[simp] theorem ofBit_false : ofBit false = 0#1 := rfl
@[simp] theorem bitOf_zero : bitOf 0#1 = false := rfl
@[simp] theorem ofBit_eq_zero {x : Bool} : ofBit x = 0#1 ↔ x = false := by cases x <;> decide
@[simp] theorem bitOf_eq_false {x : BitVec 1} : bitOf x = false ↔ x = 0#1 := by revert x; decide

@[simp] theorem Ty.code_i64 : Ty.i64.code = 0#5 := rfl
@[simp] theorem Ty.ofCode_zero : Ty.ofCode 0#5 = some .i64 := rfl
@[simp] theorem Ty.isInt8to64_i64 : Ty.i64.isInt8to64 = true := rfl
@[simp] theorem Ty.code_eq_zero {t : Ty} : t.code = 0#5 ↔ t = .i64 := by cases t <;> decide
@[simp] theorem Ty.zero_eq_code {t : Ty} : 0#5 = t.code ↔ t = .i64 := eq_comm.trans Ty.code_eq_zero
@[simp] theorem ScopeQ.code_dflt : ScopeQ.dflt.code = 0#3 := rfl
@[simp] theorem ScopeQ.ofCode_zero : ScopeQ.ofCode 0#3 = some .dflt := rfl
@[simp] theorem ScopeQ.code_eq_zero {s : ScopeQ} : s.code = 0#3 ↔ s = .dflt := by cases s <;> decide
@[simp] theorem ScopeQ.zero_eq_code {s : ScopeQ} : 0#3 = s.code ↔ s = .dflt := eq_comm.trans ScopeQ.code_eq_zero
@[simp] theorem Rm.code_eq_zero {r : Rm} : r.code = 0#3 ↔ r = .rn := by cases r <;> decide
@[simp] theorem Rm.code_rn : Rm.rn.code = 0#3 := rfl
@[simp] theorem Rm.ofCode_zero : Rm.ofCode 0#3 = some .rn := rfl

@[simp] theorem TfKind.code_eq_zero {k : TfKind} : k.code = 0#21 ↔ k = .all := by cases k <;> decide
@[simp] theorem TfKind.code_all : TfKind.all.code = 0#21 := rfl
@[simp] theorem CgetKind.code_eq_zero {k : CgetKind} : k.code = 0#21 ↔ k = .cursor := by cases k <;> decide
@[simp] theorem CgetKind.code_cursor : CgetKind.cursor.code = 0#21 := rfl

@[simp] theorem TfKind.ofCode_zero : TfKind.ofCode 0#21 = some .all := rfl
@[simp] theorem TfKind.usesA_all : TfKind.all.usesA = false := rfl
@[simp] theorem TfKind.usesB_all : TfKind.all.usesB = false := rfl
@[simp] theorem CgetKind.ofCode_zero : CgetKind.ofCode 0#21 = some .cursor := rfl
@[simp] theorem Ty.isAmo_i64 : Ty.i64.isAmo = true := rfl

/-- A scope code in the d field of the base form (R61). -/
@[simp] theorem extractLsb'_scopeField_high (s : ScopeQ) : (s.code.setWidth 6).extractLsb' 3 3 = 0#3 :=
  by cases s <;> decide
@[simp] theorem extractLsb'_scopeField_low (s : ScopeQ) : (s.code.setWidth 6).extractLsb' 0 3 = s.code := by
  cases s <;> decide

theorem Ty.width_lt (t : Ty) : t.width < 2 ^ 7 := by cases t <;> decide

theorem Fields.zf_eq_some {f : Fields} {z : Bool} : f.zf = some z ↔ f.e = encZf z := by
  unfold Fields.zf encZf
  cases z <;> (split <;> simp_all)

/-- The zeroing form that an fx field names, read from the field alone. -/
def readZf (e : BitVec 6) : Option Bool := if e == 0 then some false else if e == 1 then some true else none

theorem Fields.zf_eq_readZf (f : Fields) : f.zf = readZf f.e := rfl

@[simp] theorem readZf_encZf (z : Bool) : readZf (encZf z) = some z := by cases z <;> rfl

@[simp] theorem readZf_zero : readZf 0#6 = some false := rfl

@[simp] theorem encZf_false : encZf false = 0#6 := rfl
@[simp] theorem encZf_eq_zero {z : Bool} : encZf z = 0#6 ↔ z = false := by cases z <;> decide

@[simp] theorem Form.isExt_base : Form.base.isExt = false := rfl
@[simp] theorem Form.isExt_ext : Form.ext.isExt = true := rfl
@[simp] theorem Form.isExt_lit : Form.lit.isExt = false := rfl
@[simp] theorem Form.isExt_extLit : Form.extLit.isExt = true := rfl
@[simp] theorem Form.hasLit_base : Form.base.hasLit = false := rfl
@[simp] theorem Form.hasLit_ext : Form.ext.hasLit = false := rfl
@[simp] theorem Form.hasLit_lit : Form.lit.hasLit = true := rfl
@[simp] theorem Form.hasLit_extLit : Form.extLit.hasLit = true := rfl
@[simp] theorem Form.plain_base : Form.base.plain = true := rfl
@[simp] theorem Form.plain_ext : Form.ext.plain = true := rfl
@[simp] theorem Form.plain_lit : Form.lit.plain = false := rfl
@[simp] theorem Form.plain_extLit : Form.extLit.plain = false := rfl

/-! ### Bit fields of immediates -/

/-- The fields of a base-form immediate of two, three and four fields (R52). -/
@[simp] theorem extractLsb'_append12_high (x y : BitVec 6) : (x ++ y).extractLsb' 6 6 = x :=
  BitVec.extractLsb'_append_eq_left
@[simp] theorem extractLsb'_append12_low (x y : BitVec 6) : (x ++ y).extractLsb' 0 6 = y :=
  BitVec.extractLsb'_append_eq_right
@[simp] theorem extractLsb'_append18_high (x : BitVec 12) (y : BitVec 6) :
    (x ++ y).extractLsb' 12 6 = x.extractLsb' 6 6 :=
  BitVec.extractLsb'_append_eq_of_le (by decide)
@[simp] theorem extractLsb'_append18_middle (x : BitVec 12) (y : BitVec 6) :
    (x ++ y).extractLsb' 6 6 = x.extractLsb' 0 6 :=
  BitVec.extractLsb'_append_eq_of_le (by decide)
@[simp] theorem extractLsb'_append18_low (x : BitVec 12) (y : BitVec 6) : (x ++ y).extractLsb' 0 6 = y :=
  BitVec.extractLsb'_append_eq_right
@[simp] theorem extractLsb'_append24_high (x : BitVec 18) (y : BitVec 6) :
    (x ++ y).extractLsb' 18 6 = x.extractLsb' 12 6 :=
  BitVec.extractLsb'_append_eq_of_le (by decide)
@[simp] theorem extractLsb'_append24_upper (x : BitVec 18) (y : BitVec 6) :
    (x ++ y).extractLsb' 12 6 = x.extractLsb' 6 6 :=
  BitVec.extractLsb'_append_eq_of_le (by decide)
@[simp] theorem extractLsb'_append24_middle (x : BitVec 18) (y : BitVec 6) :
    (x ++ y).extractLsb' 6 6 = x.extractLsb' 0 6 :=
  BitVec.extractLsb'_append_eq_of_le (by decide)
@[simp] theorem extractLsb'_append24_low (x : BitVec 18) (y : BitVec 6) : (x ++ y).extractLsb' 0 6 = y :=
  BitVec.extractLsb'_append_eq_right

/-- The base-form immediate of LDC and STC, a multiple of 16 (R52, R85). -/
@[simp] theorem extractLsb'_append_sixteen_high (x : BitVec 6) : (x ++ 0#4).extractLsb' 4 6 = x :=
  BitVec.extractLsb'_append_eq_left
@[simp] theorem extractLsb'_append_sixteen_low (x : BitVec 6) : (x ++ 0#4).extractLsb' 0 4 = 0#4 :=
  BitVec.extractLsb'_append_eq_right

theorem signedIn_signExtend {n w : Nat} (h : n ≤ w) (x : BitVec n) : signedIn n (x.signExtend w) = true := by
  have hlow : (x.signExtend w).setWidth n = x := by
    ext i hi
    simp [BitVec.getElem_signExtend, hi, show i < w by omega]
  simp [signedIn, hlow]

theorem toNat_setWidth_of_toNat_lt {n w : Nat} {x : BitVec w} (h : x.toNat < 2 ^ n) :
    (x.setWidth n).toNat = x.toNat := by
  rw [BitVec.toNat_setWidth, Nat.mod_eq_of_lt h]

/-- A number below `2 ^ n` is read back from its low `n` bits. -/
theorem setWidth_setWidth_of_toNat_lt {n w : Nat} {x : BitVec w} (h : x.toNat < 2 ^ n) :
    (x.setWidth n).setWidth w = x := by
  apply BitVec.eq_of_toNat_eq
  rw [BitVec.toNat_setWidth, BitVec.toNat_setWidth, Nat.mod_eq_of_lt h, Nat.mod_eq_of_lt x.isLt]

/-- A number below 2 is read back from whether it is 1. -/
theorem ite_one_eq_of_toNat_lt_two {w : Nat} {x : BitVec w} (h : x.toNat < 2) : (if x = 1#w then 1#w else 0#w) = x := by
  split
  · exact Eq.symm ‹_›
  · refine BitVec.eq_of_toNat_eq ?_
    have hne : x.toNat ≠ 1 := fun h1 => ‹x ≠ 1#w› (BitVec.eq_of_toNat_eq (by
      rw [h1, BitVec.toNat_ofNat, Nat.mod_eq_of_lt (h1 ▸ x.isLt)]))
    rw [BitVec.toNat_ofNat, Nat.zero_mod]
    omega

theorem ofBit_getLsbD {w : Nat} (x : BitVec w) (n : Nat) : ofBit (x.getLsbD n) = x.extractLsb' n 1 := by
  rw [BitVec.getLsbD_eq_extractLsb']
  exact ofBit_bitOf _

/-- The immediate of a block instruction: the block kind and 20 bits (R211, R230). -/
theorem ofBit_append_low (x : BitVec 21) : ofBit (x.getLsbD 20) ++ x.extractLsb' 0 20 = x := by
  rw [ofBit_getLsbD]
  exact BitVec.extractLsb'_append_extractLsb'

@[simp] theorem getElem_append_block (x : BitVec 1) (y : BitVec 20) : (x ++ y)[20] = bitOf x := by
  rw [BitVec.getElem_eq_extractLsb', BitVec.extractLsb'_append_eq_left]
  rfl

@[simp] theorem extractLsb'_append_block (x : BitVec 1) (y : BitVec 20) : (x ++ y).extractLsb' 0 20 = y :=
  BitVec.extractLsb'_append_eq_right

/-- The immediate of VSCAN: two flags (R202). -/
theorem twoFlags_append_of_toNat_lt {x : BitVec 21} (h : x.toNat < 4) :
    0#19 ++ ofBit (x.getLsbD 1) ++ ofBit (x.getLsbD 0) = x := by
  have hx : x = BitVec.ofNat 21 x.toNat := by simp
  rw [hx]
  generalize x.toNat = n at h
  interval_cases n <;> decide

theorem twoFlags_reads (x y : Bool) :
    (0#19 ++ ofBit x ++ ofBit y).toNat < 4 ∧ (0#19 ++ ofBit x ++ ofBit y).getLsbD 0 = y ∧
      (0#19 ++ ofBit x ++ ofBit y).getLsbD 1 = x := by
  cases x <;> cases y <;> decide

/-- A type code in a 6-bit field (R229). -/
@[simp] theorem extractLsb'_typeField (t : Ty) : (t.code.setWidth 6).extractLsb' 0 5 = t.code := by cases t <;> decide

theorem setWidth_low_of_high_clear {x : BitVec 6} (h : x.getLsbD 5 = false) : (x.extractLsb' 0 5).setWidth 6 = x := by
  revert x; decide

theorem extractLsb'_signExtend {n w lo len : Nat} (h : lo + len ≤ n) (hw : n ≤ w) (x : BitVec n) :
    (x.signExtend w).extractLsb' lo len = x.extractLsb' lo len := by
  ext i hi
  rw [BitVec.getElem_extractLsb', BitVec.getElem_extractLsb', BitVec.getLsbD_signExtend, decide_eq_true (by omega),
    Bool.true_and, if_pos (by omega)]

/-- An immediate that its low bits give is the sign extension of those bits. -/
theorem signExtend_extractLsb'_of_signedIn {n w : Nat} (hw : n ≤ w) {x : BitVec w} (h : signedIn n x = true) :
    (x.extractLsb' 0 n).signExtend w = x := by
  rw [← BitVec.setWidth_eq_extractLsb' hw]
  simpa [signedIn] using h

/-- The immediates of the base form, rebuilt from the fields that they are cut into (R52). -/
theorem append12_of_signedIn {x : Imm} (h : signedIn 12 x = true) :
    (x.extractLsb' 6 6 ++ x.extractLsb' 0 6).signExtend 21 = x := by
  simp +decide only [BitVec.extractLsb'_append_extractLsb'_eq_extractLsb']
  exact signExtend_extractLsb'_of_signedIn (by decide) h

theorem append18_of_signedIn {x : Imm} (h : signedIn 18 x = true) :
    (x.extractLsb' 12 6 ++ x.extractLsb' 6 6 ++ x.extractLsb' 0 6).signExtend 21 = x := by
  simp +decide only [BitVec.extractLsb'_append_extractLsb'_eq_extractLsb']
  exact signExtend_extractLsb'_of_signedIn (by decide) h

theorem append24 (x : BitVec 24) :
    x.extractLsb' 18 6 ++ x.extractLsb' 12 6 ++ x.extractLsb' 6 6 ++ x.extractLsb' 0 6 = x := by
  simp +decide only [BitVec.extractLsb'_append_extractLsb'_eq_extractLsb']
  exact BitVec.extractLsb'_eq_self

theorem appendSixteen_of_signedIn {x : Imm} (h : signedIn 10 x = true) (hlow : x.extractLsb' 0 4 = 0#4) :
    (x.extractLsb' 4 6 ++ 0#4).signExtend 21 = x := by
  rw [← hlow]
  simp +decide only [BitVec.extractLsb'_append_extractLsb'_eq_extractLsb']
  exact signExtend_extractLsb'_of_signedIn (by decide) h

/-! ### Fields of CLRUN, CLSET, VDEFER and VDRAIN (R291, R303) -/

theorem toNat_append12 (a d : BitVec 6) : (a ++ d).toNat = a.toNat * 64 + d.toNat := by
  rw [BitVec.toNat_append, ← Nat.shiftLeft_add_eq_or_of_lt d.isLt, Nat.shiftLeft_eq]

theorem clrunFields_of_le {a d : BitVec 6} (h : (a ++ d).toNat ≤ 128) :
    ((BitVec.ofNat 8 (a ++ d).toNat).extractLsb' 6 2).setWidth 6 = a ∧
      (BitVec.ofNat 8 (a ++ d).toNat).extractLsb' 0 6 = d := by
  rw [toNat_append12] at h ⊢
  have := d.isLt
  constructor <;> apply BitVec.eq_of_toNat_eq <;> simp [Nat.shiftRight_eq_div_pow] <;> omega

theorem toNat_append_clrunFields {n : BitVec 8} :
    ((n.extractLsb' 6 2).setWidth 6 ++ n.extractLsb' 0 6).toNat = n.toNat := by
  rw [toNat_append12]
  have := n.isLt
  simp [Nat.shiftRight_eq_div_pow]; omega

theorem encDefer_of_fields {x : BitVec 21} (hhigh : x.extractLsb' 6 15 = 0#15) (h : (x.extractLsb' 0 3).toNat < 5) :
    encDefer (x.extractLsb' 3 3) ⟨(x.extractLsb' 0 3).toNat, h⟩ = x := by
  rw [encDefer, BitVec.ofNat_toNat, BitVec.setWidth_eq, ← hhigh]
  simp +decide only [BitVec.extractLsb'_append_extractLsb'_eq_extractLsb']
  exact BitVec.extractLsb'_eq_self

theorem regField_mk_of_toNat_lt {c : BitVec 6} (h : c.toNat < 6) : regField (⟨c.toNat, h⟩ : Fin 6) = c :=
  by simp [regField]
theorem clsetFields_append (x : BitVec 21) : x.extractLsb' 12 9 ++ x.extractLsb' 0 12 = x :=
  BitVec.extractLsb'_append_extractLsb'
theorem clsetImm_fields (s : BitVec 9) (c : BitVec 12) :
    (s ++ c).extractLsb' 12 9 = s ∧ (s ++ c).extractLsb' 0 12 = c :=
  ⟨BitVec.extractLsb'_append_eq_left, BitVec.extractLsb'_append_eq_right⟩

theorem encDefer_fields (p : BitVec 3) (k : Fin 5) :
    (encDefer p k).extractLsb' 6 15 = 0#15 ∧ (encDefer p k).extractLsb' 3 3 = p ∧
   ((encDefer p k).extractLsb' 0 3).toNat = k.val := by
  have := k.isLt
  simp only [encDefer, BitVec.extractLsb'_append_eq_of_le, BitVec.extractLsb'_append_eq_of_add_le,
    BitVec.extractLsb'_eq_self, Nat.reduceLeDiff, Nat.reduceSub, le_refl, Nat.zero_add, BitVec.toNat_ofNat]
  exact ⟨trivial, trivial, Nat.mod_eq_of_lt (by omega)⟩

/-! ### Words and fields (R49, R51, R53, R54, R56) -/

theorem formOfLen_lenOfForm (f : Form) : formOfLen (lenOfForm f) = f := by cases f <;> rfl
theorem lenOfForm_formOfLen (l : BitVec 2) : lenOfForm (formOfLen l) = l := by revert l; decide

theorem Fields.read_words (f : Fields) : Fields.read f.word0 f.word1 f.word2 f.lit = f := by
  simp only [Fields.read, Fields.word0, Fields.word1, Fields.word2, BitVec.extractLsb'_append_eq_of_le,
    BitVec.extractLsb'_append_eq_of_add_le, BitVec.extractLsb'_eq_self, Nat.reduceLeDiff, Nat.reduceSub,
    formOfLen_lenOfForm, le_refl, Nat.zero_add]

theorem Fields.word0_read (w0 w1 w2 : Word32) (lit : Word) : (Fields.read w0 w1 w2 lit).word0 = w0 := by
  simp +decide only [Fields.read, Fields.word0, lenOfForm_formOfLen,
    BitVec.extractLsb'_append_extractLsb'_eq_extractLsb']
  exact BitVec.extractLsb'_eq_self

theorem Fields.word1_read (w0 w1 w2 : Word32) (lit : Word) : (Fields.read w0 w1 w2 lit).word1 = w1 := by
  simp +decide only [Fields.read, Fields.word1, BitVec.extractLsb'_append_extractLsb'_eq_extractLsb']
  exact BitVec.extractLsb'_eq_self

theorem Fields.word2_read (w0 w1 w2 : Word32) (lit : Word) : (Fields.read w0 w1 w2 lit).word2 = w2 := by
  simp +decide only [Fields.read, Fields.word2, BitVec.extractLsb'_append_extractLsb'_eq_extractLsb']
  exact BitVec.extractLsb'_eq_self

/-- The fields of the words that the form does not have are zero. -/
def Fields.absentZero (f : Fields) : Bool :=
  (f.form.isExt || (f.e == 0 && f.c == 0 && f.ng2 == 0 && f.pg2 == 0 && f.ng1 == 0 && f.pg1 == 0 && f.hint == 0 &&
    f.scope == 0 && f.first == 0 && f.last == 0 && f.r == 0 && f.ty == 0 && f.rm == 0 && f.sat == 0 && f.wid == 0 &&
    f.imm == 0)) && (f.form.hasLit || f.lit == 0)

theorem Fields.form_of_word0 (f : Fields) : formOfLen (f.word0.extractLsb' 0 2) = f.form :=
  congrArg Fields.form f.read_words

theorem Fields.word1_eq_zero {f : Fields} (hext : f.form.isExt = false) (habs : f.absentZero = true) :
    f.word1 = 0#32 := by
  simp_all [absentZero, word1]

theorem Fields.word2_eq_zero {f : Fields} (hext : f.form.isExt = false) (habs : f.absentZero = true) :
    f.word2 = 0#32 := by
  simp_all [absentZero, word2]

theorem Fields.lit_eq_zero {f : Fields} (hlit : f.form.hasLit = false) (habs : f.absentZero = true) : f.lit = 0#64 := by
  simp_all [absentZero]

theorem literal_halves (l : Word) : l.extractLsb' 32 32 ++ l.extractLsb' 0 32 = l :=
  BitVec.extractLsb'_append_extractLsb'

/-- The words of fields read as those fields, whatever follows them. -/
theorem Fields.ofWords_words_append {f : Fields} (habs : f.absentZero = true) (after : List Word32) :
    ofWords (f.words ++ after) = some f := by
  have hread := f.read_words
  have hform := f.form_of_word0
  cases hf : f.form with
  | base =>
    rw [word1_eq_zero (by simp [hf]) habs, word2_eq_zero (by simp [hf]) habs, lit_eq_zero (by simp [hf]) habs] at hread
    simp [words, ofWords, hform, hf, hread]
  | ext =>
    rw [lit_eq_zero (by simp [hf]) habs] at hread
    simp [words, ofWords, hform, hf, hread]
  | lit =>
    rw [word1_eq_zero (by simp [hf]) habs, word2_eq_zero (by simp [hf]) habs] at hread
    simp [words, ofWords, hform, hf, literal_halves, hread]
  | extLit => simp [words, ofWords, hform, hf, literal_halves, hread]

@[simp] theorem Fields.form_read (w0 w1 w2 : Word32) (lit : Word) :
    (Fields.read w0 w1 w2 lit).form = formOfLen (w0.extractLsb' 0 2) := rfl

@[simp] theorem Fields.lit_read (w0 w1 w2 : Word32) (lit : Word) : (Fields.read w0 w1 w2 lit).lit = lit := rfl

theorem halves_append (l0 l1 : Word32) :
    (l1 ++ l0 : Word).extractLsb' 0 32 = l0 ∧ (l1 ++ l0 : Word).extractLsb' 32 32 = l1 :=
  ⟨BitVec.extractLsb'_append_eq_right, BitVec.extractLsb'_append_eq_left⟩

/-- Fields that words read as have those words. -/
theorem Fields.words_of_ofWords {ws : List Word32} {f : Fields} (h : ofWords ws = some f) :
    f.absentZero = true ∧ f.words <+: ws := by
  unfold ofWords at h
  split at h
  · cases h
  next w0 rest =>
    split at h <;> cases h
    next hform =>
      exact ⟨by simp [absentZero, hform, read], by simp [words, hform, word0_read]⟩
    next hform =>
      exact ⟨by simp [absentZero, hform, read], by simp [words, hform, word0_read, word1_read, word2_read]⟩
    next l0 l1 rest hform =>
      obtain ⟨hlow, hhigh⟩ := halves_append l0 l1
      exact ⟨by simp [absentZero, hform, read], by simp [words, hform, word0_read, hlow, hhigh]⟩
    next w1 w2 l0 l1 rest hform =>
      obtain ⟨hlow, hhigh⟩ := halves_append l0 l1
      exact ⟨by simp [absentZero, hform, read],
        by simp [words, hform, word0_read, word1_read, word2_read, hlow, hhigh]⟩

/-! ### SALU, ADDI, CMP and LI -/

theorem encSalu_of_fields {f : Fields} {t : Ty} {sats : Bool} (hmajor : f.major = 1#6) (habs : f.absentZero = true)
    (hty : f.ty = t.code) (h8 : t.isInt8to64 = true) (hclear : (f.clear { ty := true, sat := sats } && f.litB) = true) :
    saluOk sats
      { m := f.mods, ty := t, sat := bitOf f.sat, d := gReg f.d, a := gReg f.a, b := gReg f.b, lit := f.literal } =
        true ∧
      encSalu f.func.toNat { m := f.mods, ty := t, sat := bitOf f.sat, d := gReg f.d, a := gReg f.a, b := gReg f.b,
                             lit := f.literal } = f := by
  obtain ⟨form⟩ := f
  cases form <;>
    simp_all [Fields.absentZero, Fields.clear, Fields.litB, Fields.literal, Fields.mods, saluOk, modsOk, word2Ok, litOk,
      encSalu, fieldsOf]

theorem encSaluUn_of_fields {f : Fields} {t : Ty} (hmajor : f.major = 1#6) (habs : f.absentZero = true)
    (hty : f.ty = t.code) (h8 : t.isInt8to64 = true) (hclear : (f.clear { ty := true, b := false } && f.form.plain) =
      true) :
    saluUnOk { m := f.mods, ty := t, d := gReg f.d, a := gReg f.a } = true ∧
      encSaluUn f.func.toNat { m := f.mods, ty := t, d := gReg f.d, a := gReg f.a } = f := by
  obtain ⟨form⟩ := f
  cases form <;>
    simp_all [Fields.absentZero, Fields.clear, Fields.mods, saluUnOk, plainOk, modsOk, word2Ok, encSaluUn, fieldsOf]

theorem decodeSalu_encodes {f : Fields} {i : Instr} (hmajor : f.major = 1#6) (habs : f.absentZero = true)
    (h : decodeSalu f = some i) : wellFormed i = true ∧ toFields i = some f := by
  simp only [decodeSalu, Option.bind_eq_bind, guard_bind, Option.bind_eq_some_iff, Option.ite_none_right_eq_some,
    Ty.ofCode_eq_some] at h
  obtain ⟨t, hty, h8, h⟩ := h
  split at h
  case h_23 => cases h
  case h_22 hfunc =>
    obtain ⟨hclear, rfl⟩ := Option.ite_some_none_eq_some.mp h
    show (_ && _ && _ && _) = true ∧ some _ = some _
    obtain ⟨form⟩ := f
    cases form <;>
      simp_all [Fields.absentZero, Fields.clear, Fields.litB, Fields.literal, Fields.mods, modsOk, litOk, fieldsOf,
        BitVec.toNat_eq_nat]
  case h_17 hfunc | h_18 hfunc | h_19 hfunc =>
    obtain ⟨hclear, rfl⟩ := Option.ite_some_none_eq_some.mp h
    obtain ⟨hok, henc⟩ := encSaluUn_of_fields hmajor habs hty h8 hclear
    rw [hfunc] at henc
    exact ⟨hok, congrArg some henc⟩
  all_goals
    rename_i hfunc
    obtain ⟨hclear, rfl⟩ := Option.ite_some_none_eq_some.mp h
    obtain ⟨hok, henc⟩ := encSalu_of_fields hmajor habs hty h8 hclear
    rw [hfunc] at henc
    exact ⟨hok, congrArg some henc⟩

theorem decodeAddi_encodes {f : Fields} {i : Instr} (hmajor : f.major = 2#6) (habs : f.absentZero = true)
    (h : decodeAddi f = some i) : wellFormed i = true ∧ toFields i = some f := by
  obtain ⟨form⟩ := f
  simp only [decodeAddi, Option.bind_eq_bind, guard_bind, Option.bind_eq_some_iff, Option.ite_none_right_eq_some,
    Ty.ofCode_eq_some] at h
  obtain ⟨t, rfl, h8, hplain, h⟩ := h
  cases form with
  | base =>
    cases h
    show (_ && _ && _ && _) = true ∧ some _ = some _
    simp_all [Fields.absentZero, Fields.mods, plainOk, modsOk, word2Ok, encImm12, fieldsOf,
      signedIn_signExtend, extractLsb'_signExtend]
  | ext =>
    obtain ⟨hclear, rfl⟩ := Option.ite_some_none_eq_some.mp h
    show (_ && _ && _ && _) = true ∧ some _ = some _
    simp_all [Fields.absentZero, Fields.clear, Fields.mods, plainOk, modsOk, word2Ok, encImm12, fieldsOf]
  | lit | extLit => cases hplain

theorem decodeCmp_encodes {f : Fields} {i : Instr} (hmajor : f.major = 3#6) (habs : f.absentZero = true)
    (h : decodeCmp f = some i) : wellFormed i = true ∧ toFields i = some f := by
  obtain ⟨form⟩ := f
  simp only [decodeCmp, Option.bind_eq_bind, guard_bind, Option.bind_eq_some_iff, Option.ite_none_right_eq_some,
    Ty.ofCode_eq_some, Cond.ofCode_eq_some] at h
  obtain ⟨t, rfl, h8, k, rfl, hclear, h⟩ := h
  cases h
  show (_ && _ && _ && _) = true ∧ some _ = some _
  cases form <;>
    simp_all [Fields.absentZero, Fields.clear, Fields.litB, Fields.literal, Fields.mods, modsOk, word2Ok, litOk,
      fieldsOf]

theorem wellFormed_li (x : LiArgs) : wellFormed (.li x) = (modsOk x.m && litOk x.m x.lit 0 && (match x.m.form with
    | .base => signedIn 18 x.imm
    | .ext => true
    | .lit | .extLit => x.imm == 0)) := rfl

theorem toFields_li (x : LiArgs) :
    toFields (.li x) = some (
      let f : Fields := { fieldsOf x.m 4 0 with d := regField x.d, lit := x.lit.getD 0 }
      match x.m.form with
      | .base => { f with func := x.imm.extractLsb' 12 6, b := x.imm.extractLsb' 6 6, a := x.imm.extractLsb' 0 6 }
      | .ext => { f with imm := x.imm }
      | .lit | .extLit => f) := rfl

theorem decodeLi_encodes {f : Fields} {i : Instr} (hmajor : f.major = 4#6) (habs : f.absentZero = true)
    (h : decodeLi f = some i) : wellFormed i = true ∧ toFields i = some f := by
  obtain ⟨form⟩ := f
  cases form with
  | base =>
    cases h
    simp_all [wellFormed_li, toFields_li, Fields.absentZero, Fields.mods, litOk, modsOk, Fields.literal,
      fieldsOf,
      signedIn_signExtend, extractLsb'_signExtend]
  | ext | lit | extLit =>
    obtain ⟨hclear, rfl⟩ := Option.ite_some_none_eq_some.mp h
    simp_all [wellFormed_li, toFields_li, Fields.absentZero, Fields.clear, Fields.mods, litOk, modsOk, Fields.literal,
      fieldsOf]

/-! ### Control flow -/

theorem decodeB_encodes {f : Fields} {x : BArgs} (habs : f.absentZero = true)
    (h : decodeB f = some x) : bOk x = true ∧ encB f.major.toNat x = f := by
  obtain ⟨form⟩ := f
  cases form with
  | base =>
    cases h
    simp_all [Fields.absentZero, Fields.mods, bOk, plainOk, modsOk, encB, fieldsOf]
  | ext =>
    obtain ⟨hclear, rfl⟩ := Option.ite_some_none_eq_some.mp h
    simp_all [Fields.absentZero, Fields.clear, Fields.mods, bOk, plainOk, modsOk, encB, fieldsOf,
      signedIn_signExtend, extractLsb'_signExtend]
  | lit | extLit => cases h

theorem wellFormed_bc (x : BcArgs) : wellFormed (.bc x) = (plainOk x.m && (x.m.form.isExt || signedIn 12 x.off)) := rfl

theorem toFields_bc (x : BcArgs) :
    toFields (.bc x) = some (
      let f : Fields := { fieldsOf x.m 6 x.cond.code.toNat with a := regField x.a }
      if x.m.form = .base then { f with b := x.off.extractLsb' 6 6, d := x.off.extractLsb' 0 6 } else
        { f with imm := x.off }) :=
  rfl

theorem decodeBc_encodes {f : Fields} {i : Instr} (hmajor : f.major = 6#6) (habs : f.absentZero = true)
    (h : decodeBc f = some i) : wellFormed i = true ∧ toFields i = some f := by
  obtain ⟨form⟩ := f
  simp only [decodeBc, Option.bind_eq_bind, Option.bind_eq_some_iff, Cond.ofCode_eq_some] at h
  obtain ⟨k, rfl, h⟩ := h
  cases form with
  | base =>
    cases h
    simp_all [wellFormed_bc, toFields_bc, Fields.absentZero, Fields.mods, plainOk, modsOk, fieldsOf,
      signedIn_signExtend, extractLsb'_signExtend]
  | ext =>
    obtain ⟨hclear, rfl⟩ := Option.ite_some_none_eq_some.mp h
    simp_all [wellFormed_bc, toFields_bc, Fields.absentZero, Fields.clear, Fields.mods, plainOk, modsOk, fieldsOf]
  | lit | extLit => cases h

theorem decodeCtl_encodes {f : Fields} {i : Instr} (hmajor : f.major = 8#6) (habs : f.absentZero = true)
    (h : decodeCtl f = some i) : wellFormed i = true ∧ toFields i = some f := by
  obtain ⟨form⟩ := f
  simp only [decodeCtl, Option.bind_eq_bind, guard_bind, Option.ite_none_right_eq_some] at h
  obtain ⟨hplain, h⟩ := h
  split at h
  case h_1 =>
    obtain ⟨hclear, h⟩ := Option.ite_none_right_eq_some.mp h
    split at h
    case h_3 => cases h
    all_goals
      cases h
      show plainOk _ = true ∧ some _ = some _
      cases form <;>
        simp_all [Fields.absentZero, Fields.clear, Fields.mods, plainOk, modsOk, fieldsOf, BitVec.toNat_eq_nat]
  case h_2 =>
    obtain ⟨hclear, h⟩ := Option.ite_some_none_eq_some.mp h
    cases h
    show (plainOk _ && _) = true ∧ some _ = some _
    have hk := setWidth_setWidth_of_toNat_lt (n := 10) (of_decide_eq_true (Bool.and_eq_true_iff.mp hclear).2)
    cases form <;>
      simp_all [Fields.absentZero, Fields.clear, Fields.mods, plainOk, modsOk, fieldsOf, BitVec.toNat_eq_nat]
  case h_3 =>
    simp only [Option.bind_eq_some_iff, cReg?_eq_some, Option.ite_none_right_eq_some] at h
    obtain ⟨c, rfl, hclear, h⟩ := h
    cases h
    show plainOk _ = true ∧ some _ = some _
    cases form <;>
      simp_all [Fields.absentZero, Fields.clear, Fields.mods, plainOk, modsOk, fieldsOf, BitVec.toNat_eq_nat]
  case h_4 =>
    simp only [Option.bind_eq_some_iff, cReg?_eq_some, Option.ite_none_right_eq_some] at h
    obtain ⟨c, rfl, hclear, h⟩ := h
    cases h
    show (plainOk _ && immOk _ _) = true ∧ some _ = some _
    cases form <;>
      simp_all [Fields.absentZero, Fields.clear, Fields.mods, plainOk, modsOk, fieldsOf, BitVec.toNat_eq_nat, immOk]
  case h_5 | h_6 =>
    obtain ⟨hclear, h⟩ := Option.ite_some_none_eq_some.mp h
    cases h
    show plainOk _ = true ∧ some _ = some _
    cases form <;>
      simp_all [Fields.absentZero, Fields.clear, Fields.mods, plainOk, modsOk, fieldsOf, BitVec.toNat_eq_nat]
  case h_7 => cases h

theorem decodeLd_encodes {f : Fields} {x : LdArgs} (habs : f.absentZero = true)
    (h : decodeLd f = some x) : ldOk x = true ∧ encLd f.major.toNat x = f := by
  obtain ⟨form⟩ := f
  simp only [decodeLd, Option.bind_eq_bind, guard_bind, Option.bind_eq_some_iff, Option.ite_none_right_eq_some,
    Ty.ofCode_eq_some, cReg?_eq_some, ScopeQ.ofCode_eq_some] at h
  obtain ⟨t, rfl, h8, a, rfl, s, rfl, h⟩ := h
  cases form with
  | base =>
    cases h
    simp_all [Fields.absentZero, Fields.mods, ldOk, plainOk, modsOk, word2Ok, encLd, encImm12, fieldsOf,
      signedIn_signExtend, extractLsb'_signExtend]
  | ext =>
    obtain ⟨hclear, rfl⟩ := Option.ite_some_none_eq_some.mp h
    simp_all [Fields.absentZero, Fields.clear, Fields.mods, ldOk, plainOk, modsOk, word2Ok, encLd, encImm12, fieldsOf]
  | lit | extLit => cases h

theorem decodeCapmem_encodes {f : Fields} {i : Instr} (hmajor : f.major = 11#6) (habs : f.absentZero = true)
    (h : decodeCapmem f = some i) : wellFormed i = true ∧ toFields i = some f := by
  obtain ⟨form⟩ := f
  simp only [decodeCapmem, Option.bind_eq_bind, Option.bind_eq_some_iff, cReg?_eq_some, ScopeQ.ofCode_eq_some] at h
  obtain ⟨d, rfl, a, rfl, s, rfl, h⟩ := h
  cases form with
  | base =>
    simp only [Option.bind_some] at h
    split at h
    case h_3 => cases h
    all_goals
      cases h
      show ldcOk _ = true ∧ some (encLdc _ _) = some _
      simp_all [Fields.absentZero, Fields.mods, ldcOk, plainOk, modsOk, encLdc, fieldsOf, signedIn_signExtend,
        extractLsb'_signExtend, BitVec.toNat_eq_nat]
  | ext =>
    simp only [Option.bind_some, Option.bind_none, Option.ite_none_right_eq_some] at h
    obtain ⟨hclear, h⟩ := h
    split at h
    case h_3 => cases h
    all_goals
      cases h
      show ldcOk _ = true ∧ some (encLdc _ _) = some _
      simp_all [Fields.absentZero, Fields.clear, Fields.mods, ldcOk, plainOk, modsOk, encLdc, fieldsOf,
        BitVec.toNat_eq_nat]
  | lit | extLit => cases h

theorem decodeAmo_encodes {f : Fields} {i : Instr} (hmajor : f.major = 12#6) (habs : f.absentZero = true)
    (h : decodeAmo f = some i) : wellFormed i = true ∧ toFields i = some f := by
  obtain ⟨form⟩ := f
  simp only [decodeAmo, Option.bind_eq_bind, guard_bind, Option.bind_eq_some_iff, Option.ite_none_right_eq_some,
    Ty.ofCode_eq_some, cReg?_eq_some, ScopeQ.ofCode_eq_some, AmoKind.ofCode_eq_some] at h
  obtain ⟨hplain, k, rfl, t, rfl, hamo, a, rfl, s, rfl, hclear, h⟩ := h
  cases h
  show (plainOk _ && _ && _ && _ && _ && _) = true ∧ some _ = some _
  cases form <;>
    simp_all [Fields.absentZero, Fields.clear, Fields.mods, plainOk, modsOk, fieldsOf, word2Ok, immOk]

theorem fenceScope_eq_some {f : Fields} {s : ScopeQ} (habs : f.absentZero = true) :
    fenceScope f = some s ↔ (f.form = .base ∧ f.d = s.code.setWidth 6) ∨ (f.form = .ext ∧ f.d = 0#6 ∧ f.scope =
      s.code) := by
  have hcode : ∀ d : BitVec 6, d = s.code.setWidth 6 ↔ d.extractLsb' 3 3 = 0#3 ∧ d.extractLsb' 0 3 = s.code := by
    cases s <;> decide
  unfold fenceScope
  split <;> simp_all [ScopeQ.ofCode_eq_some]

theorem fenceForm {f : Fields} {s : ScopeQ} (habs : f.absentZero = true) (h : fenceScope f = some s) {g : Fields}
    (hg : g = { f with d := 0, scope := 0 }) : f.form.plain = true ∧ encScope s g = f := by
  obtain ⟨form⟩ := f
  obtain ⟨hf, hd⟩ | ⟨hf, hd, hs⟩ := (fenceScope_eq_some habs).mp h <;>
    simp_all [Fields.absentZero, encScope]

theorem decodeFence_encodes {f : Fields} {i : Instr} (hmajor : f.major = 13#6) (habs : f.absentZero = true)
    (h : decodeFence f = some i) : wellFormed i = true ∧ toFields i = some f := by
  simp only [decodeFence, Option.bind_eq_bind, Option.bind_eq_some_iff, guard_bind] at h
  obtain ⟨s, hs, h⟩ := h
  have hscope := fenceForm habs hs rfl
  obtain ⟨form⟩ := f
  split at h
  case h_1 | h_2 | h_3 | h_4 =>
    obtain ⟨hclear, h⟩ := Option.ite_some_none_eq_some.mp h
    cases h
    show plainOk _ = true ∧ some (encScope _ _) = some _
    cases form <;>
    simp_all [Fields.absentZero, Fields.clear, Fields.mods, plainOk, modsOk, fieldsOf, BitVec.toNat_eq_nat]
  case h_5 =>
    simp only [Option.bind_eq_some_iff, TfKind.ofCode_eq_some, Option.ite_none_right_eq_some] at h
    obtain ⟨k, rfl, hclear, h⟩ := h
    cases h
    show (plainOk _ && _ && _ && _) = true ∧ some (encScope _ _) = some _
    cases form <;>
    simp_all [Fields.absentZero, Fields.clear, Fields.mods, plainOk, modsOk, fieldsOf, BitVec.toNat_eq_nat]
  case h_6 =>
    simp only [Option.bind_eq_some_iff, cReg?_eq_some, Option.ite_none_right_eq_some] at h
    obtain ⟨a, rfl, hclear, h⟩ := h
    cases h
    show cwbOk _ _ = true ∧ some (encCwb _ _) = some _
    cases form <;>
    simp_all [Fields.absentZero, Fields.clear, Fields.mods, plainOk, modsOk, fieldsOf, BitVec.toNat_eq_nat, cwbOk,
      encCwb, immOk]
  case h_7 =>
    simp only [Option.bind_eq_some_iff, cReg?_eq_some, Option.ite_none_right_eq_some] at h
    obtain ⟨a, rfl, hclear, h⟩ := h
    cases h
    show cwbOk _ _ = true ∧ some (encCwb _ _) = some _
    cases form <;>
    simp_all [Fields.absentZero, Fields.clear, Fields.mods, plainOk, modsOk, fieldsOf, BitVec.toNat_eq_nat, cwbOk,
      encCwb, immOk]
  case h_8 =>
    obtain ⟨hclear, h⟩ := Option.ite_some_none_eq_some.mp h
    cases h
    show plainOk _ = true ∧ some _ = some _
    cases form <;>
    simp_all [Fields.absentZero, Fields.clear, Fields.mods, plainOk, modsOk, fieldsOf, BitVec.toNat_eq_nat]
  case h_9 => cases h

theorem decodeCap_encodes {f : Fields} {i : Instr} (hmajor : f.major = 14#6) (habs : f.absentZero = true)
    (h : decodeCap f = some i) : wellFormed i = true ∧ toFields i = some f := by
  obtain ⟨form⟩ := f
  simp only [decodeCap, Option.bind_eq_bind, Option.bind_eq_some_iff, guard_bind, Option.ite_none_right_eq_some,
    cReg?_eq_some] at h
  obtain ⟨hplain, a, rfl, h⟩ := h
  split at h
  case h_1 | h_2 | h_3 =>
    simp only [Option.bind_eq_some_iff, cReg?_eq_some, Option.ite_none_right_eq_some] at h
    obtain ⟨d, rfl, hclear, h⟩ := h
    cases h
    show plainOk _ = true ∧ some (encCap _ _) = some _
    cases form <;>
      simp_all [Fields.absentZero, Fields.clear, Fields.mods, plainOk, modsOk, fieldsOf, BitVec.toNat_eq_nat, encCap]
  case h_4 =>
    simp only [Option.bind_eq_some_iff, cReg?_eq_some, Option.ite_none_right_eq_some] at h
    obtain ⟨d, rfl, hclear, h⟩ := h
    cases h
    show (plainOk _ && immOk _ _) = true ∧ some _ = some _
    cases form <;>
      simp_all [Fields.absentZero, Fields.clear, Fields.mods, plainOk, modsOk, fieldsOf, BitVec.toNat_eq_nat, immOk]
  case h_5 =>
    simp only [Option.bind_eq_some_iff, CgetKind.ofCode_eq_some, Option.ite_none_right_eq_some] at h
    obtain ⟨k, rfl, hclear, h⟩ := h
    cases h
    show (plainOk _ && _) = true ∧ some _ = some _
    cases form <;>
      simp_all [Fields.absentZero, Fields.clear, Fields.mods, plainOk, modsOk, fieldsOf, BitVec.toNat_eq_nat]
  case h_6 =>
    simp only [Option.bind_eq_some_iff, cReg?_eq_some, Option.ite_none_right_eq_some, Bool.and_eq_true,
      decide_eq_true_eq] at h
    obtain ⟨b, rfl, ⟨hclear, himm⟩, h⟩ := h
    cases h
    show (plainOk _ && _) = true ∧ some _ = some _
    have hbit := ite_one_eq_of_toNat_lt_two himm
    cases form <;>
      simp_all [Fields.absentZero, Fields.clear, Fields.mods, plainOk, modsOk, fieldsOf, BitVec.toNat_eq_nat]
  case h_7 =>
    simp only [Option.bind_eq_some_iff, cReg?_eq_some, Option.ite_none_right_eq_some] at h
    obtain ⟨d, rfl, hclear, h⟩ := h
    cases h
    show plainOk _ = true ∧ some _ = some _
    cases form <;>
      simp_all [Fields.absentZero, Fields.clear, Fields.mods, plainOk, modsOk, fieldsOf, BitVec.toNat_eq_nat]
  case h_8 => cases h

theorem decodeVcfg_encodes {f : Fields} {i : Instr} (hmajor : f.major = 15#6) (habs : f.absentZero = true)
    (h : decodeVcfg f = some i) : wellFormed i = true ∧ toFields i = some f := by
  obtain ⟨form⟩ := f
  simp only [decodeVcfg, Option.bind_eq_bind, guard_bind, Option.ite_none_right_eq_some, beq_iff_eq] at h
  obtain ⟨hform, h⟩ := h
  split at h
  case h_1 =>
    simp only [Option.ite_none_right_eq_some, Bool.and_eq_true, decide_eq_true_eq] at h
    obtain ⟨⟨hclear, himm⟩, h⟩ := h
    cases h
    show extOk _ = true ∧ some _ = some _
    have hbit := ite_one_eq_of_toNat_lt_two himm
    simp_all [Fields.absentZero, Fields.clear, Fields.mods, extOk, fieldsOf, BitVec.toNat_eq_nat]
  case h_2 =>
    simp only [Option.bind_eq_some_iff, Ty.ofCode_eq_some, Option.ite_none_right_eq_some] at h
    obtain ⟨t, rfl, hclear, h⟩ := h
    cases h
    show (extOk _ && _) = true ∧ some _ = some _
    simp_all [Fields.absentZero, Fields.clear, Fields.mods, extOk, fieldsOf, BitVec.toNat_eq_nat]
  case h_3 => cases h

/-! ### The vector-queue instructions -/

theorem decodeVialu_encodes {f : Fields} {i : Instr} (hmajor : f.major = 16#6) (habs : f.absentZero = true)
    (h : decodeVialu f = some i) : wellFormed i = true ∧ toFields i = some f := by
  obtain ⟨form⟩ := f
  simp only [decodeVialu, Option.bind_eq_bind, guard_bind, Option.bind_eq_some_iff, Option.ite_none_right_eq_some,
    Ty.ofCode_eq_some, Fields.zf_eq_some, vReg?_eq_some, beq_iff_eq] at h
  obtain ⟨hform, t, rfl, z, rfl, d, rfl, a, rfl, h⟩ := h
  split at h
  case h_14 | h_15 =>
    simp only [Option.map_eq_some_iff, Option.ite_none_right_eq_some, Option.some.injEq] at h
    obtain ⟨_, ⟨hclear, rfl⟩, rfl⟩ := h
    show vunOk _ = true ∧ some (encVUn _ _) = some _
    simp_all [Fields.absentZero, Fields.clear, Fields.mods, vunOk, extOk, encVUn, fieldsOf, BitVec.toNat_eq_nat]
  case h_16 =>
    simp only [Option.bind_eq_some_iff, vReg?_eq_some, Option.ite_none_right_eq_some] at h
    obtain ⟨b, rfl, hclear, h⟩ := h
    cases h
    show (extOk _ && _) = true ∧ some (encVBin _ _) = some _
    simp_all [Fields.absentZero, Fields.clear, Fields.mods, extOk, encVBin, fieldsOf, BitVec.toNat_eq_nat]
  case h_17 =>
    simp only [Option.ite_none_right_eq_some, Bool.and_eq_true, decide_eq_true_eq] at h
    obtain ⟨⟨⟨⟨hclear, h8⟩, hlow⟩, hhigh⟩, h⟩ := h
    cases h
    show (extOk _ && _ && _ && _) = true ∧ some _ = some _
    have hlt := lt_of_le_of_lt hhigh t.width_lt
    have hback := setWidth_setWidth_of_toNat_lt hlt
    rw [← toNat_setWidth_of_toNat_lt hlt] at hlow hhigh
    simp_all [Fields.absentZero, Fields.clear, Fields.mods, extOk, fieldsOf, BitVec.toNat_eq_nat]
  case h_18 =>
    simp only [Option.bind_eq_some_iff, vReg?_eq_some, pReg?_eq_some, Option.ite_none_right_eq_some] at h
    obtain ⟨b, rfl, c, rfl, hclear, h⟩ := h
    cases h
    show (extOk _ && _) = true ∧ some _ = some _
    simp_all [Fields.absentZero, Fields.clear, Fields.mods, extOk, fieldsOf, BitVec.toNat_eq_nat]
  case h_19 => cases h
  all_goals
    simp only [Option.map_eq_some_iff, Option.ite_none_right_eq_some, Option.some.injEq, Option.bind_eq_some_iff,
      vReg?_eq_some] at h
    obtain ⟨_, ⟨b, rfl, hclear, rfl⟩, rfl⟩ := h
    show vbinOk _ _ _ = true ∧ some (encVBin _ _) = some _
    simp_all [Fields.absentZero, Fields.clear, Fields.mods, extOk, encVBin, fieldsOf, vbinOk, BitVec.toNat_eq_nat]

theorem decodeVfalu_encodes {f : Fields} {i : Instr} (hmajor : f.major = 17#6) (habs : f.absentZero = true)
    (h : decodeVfalu f = some i) : wellFormed i = true ∧ toFields i = some f := by
  obtain ⟨form⟩ := f
  simp only [decodeVfalu, Option.bind_eq_bind, guard_bind, Option.bind_eq_some_iff, Option.ite_none_right_eq_some,
    Ty.ofCode_eq_some, Rm.ofCode_eq_some, Fields.zf_eq_some, vReg?_eq_some, beq_iff_eq] at h
  obtain ⟨hform, t, rfl, r, rfl, z, rfl, d, rfl, a, rfl, h⟩ := h
  split at h
  case h_1 | h_2 | h_3 | h_8 =>
    simp only [Option.map_eq_some_iff, Option.ite_none_right_eq_some, Option.some.injEq, Option.bind_eq_some_iff,
      vReg?_eq_some] at h
    obtain ⟨_, ⟨b, rfl, hclear, rfl⟩, rfl⟩ := h
    obtain ⟨hclear, hwid⟩ := Bool.and_eq_true_iff.mp hclear
    show vfbinOk _ _ = true ∧ some (encVfBin _ _) = some _
    simp_all [Fields.absentZero, Fields.clear, Fields.mods, extOk, encVfBin, fieldsOf, vfbinOk, BitVec.toNat_eq_nat]
  case h_4 | h_5 =>
    simp only [Option.map_eq_some_iff, Option.ite_none_right_eq_some, Option.some.injEq, Option.bind_eq_some_iff,
      vReg?_eq_some] at h
    obtain ⟨_, ⟨b, rfl, hclear, rfl⟩, rfl⟩ := h
    show vfTyOk _ _ = true ∧ some (encVTwo _ _ _) = some _
    simp_all [Fields.absentZero, Fields.clear, Fields.mods, extOk, encVTwo, fieldsOf, vfTyOk, BitVec.toNat_eq_nat]
  case h_6 | h_7 =>
    simp only [Option.map_eq_some_iff, Option.ite_none_right_eq_some, Option.some.injEq] at h
    obtain ⟨_, ⟨hclear, rfl⟩, rfl⟩ := h
    show vfTyOk _ _ = true ∧ some (encVOne _ _ _) = some _
    simp_all [Fields.absentZero, Fields.clear, Fields.mods, extOk, encVOne, fieldsOf, vfTyOk, BitVec.toNat_eq_nat]
  case h_9 =>
    obtain ⟨hclear, h⟩ := Option.ite_some_none_eq_some.mp h
    cases h
    show vfTyOk _ _ = true ∧ some _ = some _
    simp_all [Fields.absentZero, Fields.clear, Fields.mods, extOk, fieldsOf, vfTyOk, BitVec.toNat_eq_nat]
  case h_10 | h_11 =>
    simp only [Option.map_eq_some_iff, Option.ite_none_right_eq_some, Option.some.injEq] at h
    obtain ⟨_, ⟨hclear, rfl⟩, rfl⟩ := h
    show (extOk _ && _) = true ∧ some (encVOne _ _ _) = some _
    simp_all [Fields.absentZero, Fields.clear, Fields.mods, extOk, encVOne, fieldsOf, BitVec.toNat_eq_nat]
  case h_12 => cases h

theorem decodeVfma_encodes {f : Fields} {i : Instr} (hmajor : f.major = 18#6) (habs : f.absentZero = true)
    (h : decodeVfma f = some i) : wellFormed i = true ∧ toFields i = some f := by
  obtain ⟨form⟩ := f
  simp only [decodeVfma, Option.bind_eq_bind, guard_bind, Option.bind_eq_some_iff, Option.ite_none_right_eq_some,
    Ty.ofCode_eq_some, Rm.ofCode_eq_some, Fields.zf_eq_some, vReg?_eq_some, beq_iff_eq] at h
  obtain ⟨hform, t, rfl, r, rfl, z, rfl, d, rfl, a, rfl, b, rfl, c, rfl, hclear, h⟩ := h
  split at h
  case h_5 => cases h
  all_goals
    cases h
    show vfmaOk _ = true ∧ some (encVfma _ _) = some _
    simp_all [Fields.absentZero, Fields.clear, Fields.mods, extOk, encVfma, fieldsOf, vfmaOk, BitVec.toNat_eq_nat]

theorem decodeVcmp_encodes {f : Fields} {i : Instr} (hmajor : f.major = 19#6) (habs : f.absentZero = true)
    (h : decodeVcmp f = some i) : wellFormed i = true ∧ toFields i = some f := by
  obtain ⟨form⟩ := f
  simp only [decodeVcmp, Option.bind_eq_bind, guard_bind, Option.bind_eq_some_iff, Option.ite_none_right_eq_some,
    Ty.ofCode_eq_some, Cond.ofCode_eq_some, Fields.zf_eq_some, pReg?_eq_some, vReg?_eq_some, beq_iff_eq] at h
  obtain ⟨hform, t, rfl, k, rfl, z, rfl, d, rfl, a, rfl, b, rfl, hclear, h⟩ := h
  cases h
  show (extOk _ && _) = true ∧ some _ = some _
  simp_all [Fields.absentZero, Fields.clear, Fields.mods, extOk, fieldsOf]

theorem decodeVfcmp_encodes {f : Fields} {i : Instr} (hmajor : f.major = 20#6) (habs : f.absentZero = true)
    (h : decodeVfcmp f = some i) : wellFormed i = true ∧ toFields i = some f := by
  obtain ⟨form⟩ := f
  simp only [decodeVfcmp, Option.bind_eq_bind, guard_bind, Option.bind_eq_some_iff, Option.ite_none_right_eq_some,
    Ty.ofCode_eq_some, FCond.ofCode_eq_some, Fields.zf_eq_some, pReg?_eq_some, vReg?_eq_some, beq_iff_eq] at h
  obtain ⟨hform, t, rfl, k, rfl, z, rfl, d, rfl, a, rfl, b, rfl, hclear, h⟩ := h
  cases h
  show (extOk _ && _) = true ∧ some _ = some _
  simp_all [Fields.absentZero, Fields.clear, Fields.mods, extOk, fieldsOf]

theorem decodePred_encodes {f : Fields} {i : Instr} (hmajor : f.major = 21#6) (habs : f.absentZero = true)
    (h : decodePred f = some i) : wellFormed i = true ∧ toFields i = some f := by
  obtain ⟨form⟩ := f
  simp only [decodePred, Option.bind_eq_bind, guard_bind, Option.bind_eq_some_iff, Option.ite_none_right_eq_some,
    pReg?_eq_some, beq_iff_eq] at h
  obtain ⟨hform, a, rfl, h⟩ := h
  split at h
  case h_1 | h_2 | h_3 =>
    simp only [Option.map_eq_some_iff, Option.ite_none_right_eq_some, Option.some.injEq, Option.bind_eq_some_iff,
      Fields.zf_eq_some, pReg?_eq_some] at h
    obtain ⟨_, ⟨z, rfl, d, rfl, b, rfl, hclear, rfl⟩, rfl⟩ := h
    show extOk _ = true ∧ some (encPTwo _ _) = some _
    simp_all [Fields.absentZero, Fields.clear, Fields.mods, extOk, encPTwo, fieldsOf, BitVec.toNat_eq_nat]
  case h_4 | h_5 | h_7 =>
    simp only [Option.map_eq_some_iff, Option.ite_none_right_eq_some, Option.some.injEq, Option.bind_eq_some_iff,
      Fields.zf_eq_some, pReg?_eq_some] at h
    obtain ⟨_, ⟨z, rfl, d, rfl, hclear, rfl⟩, rfl⟩ := h
    show extOk _ = true ∧ some (encPOne _ _) = some _
    simp_all [Fields.absentZero, Fields.clear, Fields.mods, extOk, encPOne, fieldsOf, BitVec.toNat_eq_nat]
  case h_6 =>
    obtain ⟨hclear, h⟩ := Option.ite_some_none_eq_some.mp h
    cases h
    show extOk _ = true ∧ some _ = some _
    simp_all [Fields.absentZero, Fields.clear, Fields.mods, extOk, fieldsOf, BitVec.toNat_eq_nat]
  case h_8 => cases h

theorem decodePerm_encodes {f : Fields} {i : Instr} (hmajor : f.major = 22#6) (habs : f.absentZero = true)
    (h : decodePerm f = some i) : wellFormed i = true ∧ toFields i = some f := by
  obtain ⟨form⟩ := f
  simp only [decodePerm, Option.bind_eq_bind, guard_bind, Option.bind_eq_some_iff, Option.ite_none_right_eq_some,
    Ty.ofCode_eq_some, Fields.zf_eq_some, vReg?_eq_some, beq_iff_eq] at h
  obtain ⟨hform, t, rfl, hscale, z, rfl, d, rfl, h⟩ := h
  split at h
  case h_1 | h_7 =>
    simp only [Option.map_eq_some_iff, Option.ite_none_right_eq_some, Option.some.injEq, Option.bind_eq_some_iff,
      vReg?_eq_some] at h
    obtain ⟨_, ⟨a, rfl, b, rfl, hclear, rfl⟩, rfl⟩ := h
    show permOk _ _ = true ∧ some (encVTwo _ _ _) = some _
    simp_all [Fields.absentZero, Fields.clear, Fields.mods, permOk, extOk, encVTwo, fieldsOf, BitVec.toNat_eq_nat]
  case h_2 | h_3 =>
    simp only [Option.map_eq_some_iff, Option.ite_none_right_eq_some, Option.some.injEq, Option.bind_eq_some_iff,
      vReg?_eq_some] at h
    obtain ⟨_, ⟨a, rfl, hclear, rfl⟩, rfl⟩ := h
    show permOk _ _ = true ∧ some (encVSlide _ _ _) = some _
    simp_all [Fields.absentZero, Fields.clear, Fields.mods, permOk, extOk, encVSlide, fieldsOf, BitVec.toNat_eq_nat]
  case h_4 =>
    obtain ⟨hclear, h⟩ := Option.ite_some_none_eq_some.mp h
    cases h
    show permOk _ _ = true ∧ some _ = some _
    simp_all [Fields.absentZero, Fields.clear, Fields.mods, permOk, extOk, fieldsOf, BitVec.toNat_eq_nat]
  case h_5 | h_6 =>
    simp only [Option.map_eq_some_iff, Option.ite_none_right_eq_some, Option.some.injEq, Option.bind_eq_some_iff,
      vReg?_eq_some] at h
    obtain ⟨_, ⟨a, rfl, hclear, rfl⟩, rfl⟩ := h
    show permOk _ _ = true ∧ some (encVOne _ _ _) = some _
    simp_all [Fields.absentZero, Fields.clear, Fields.mods, permOk, extOk, encVOne, fieldsOf, BitVec.toNat_eq_nat]
  case h_8 =>
    simp only [Option.bind_eq_some_iff, vReg?_eq_some, Option.ite_none_right_eq_some, Bool.and_eq_true,
      decide_eq_true_eq] at h
    obtain ⟨a, rfl, b, rfl, ⟨hclear, himm⟩, h⟩ := h
    cases h
    show permOk _ _ = true ∧ some _ = some _
    have hbit := ite_one_eq_of_toNat_lt_two himm
    simp_all [Fields.absentZero, Fields.clear, Fields.mods, permOk, extOk, fieldsOf, BitVec.toNat_eq_nat]
  case h_9 => cases h

theorem decodeVred_encodes {f : Fields} {i : Instr} (hmajor : f.major = 23#6) (habs : f.absentZero = true)
    (h : decodeVred f = some i) : wellFormed i = true ∧ toFields i = some f := by
  obtain ⟨form⟩ := f
  simp only [decodeVred, Option.bind_eq_bind, guard_bind, Option.bind_eq_some_iff, Option.ite_none_right_eq_some,
    Ty.ofCode_eq_some, RedKind.ofCode_eq_some, Rm.ofCode_eq_some, vReg?_eq_some, beq_iff_eq] at h
  obtain ⟨hform, t, rfl, k, rfl, r, rfl, d, rfl, a, rfl, hclear, h⟩ := h
  cases h
  show redOk _ _ _ _ _ _ = true ∧ some _ = some _
  simp_all [Fields.absentZero, Fields.clear, Fields.mods, redOk, extOk, fieldsOf]

theorem decodeVscan_encodes {f : Fields} {i : Instr} (hmajor : f.major = 24#6) (habs : f.absentZero = true)
    (h : decodeVscan f = some i) : wellFormed i = true ∧ toFields i = some f := by
  obtain ⟨form⟩ := f
  simp only [decodeVscan, Option.bind_eq_bind, guard_bind, Option.bind_eq_some_iff, Option.ite_none_right_eq_some,
    Ty.ofCode_eq_some, RedKind.ofCode_eq_some, Rm.ofCode_eq_some, Fields.zf_eq_some, vReg?_eq_some, beq_iff_eq,
    Bool.and_eq_true, decide_eq_true_eq] at h
  obtain ⟨hform, t, rfl, k, rfl, r, rfl, z, rfl, d, rfl, a, rfl, ⟨⟨hclear, hacc⟩, himm⟩, h⟩ := h
  cases h
  show redOk _ _ _ _ _ _ = true ∧ some _ = some _
  have hbits := twoFlags_append_of_toNat_lt himm
  simp_all [Fields.absentZero, Fields.clear, Fields.mods, redOk, extOk, fieldsOf]

theorem decodeWshift_encodes {f : Fields} {i : Instr} (hmajor : f.major = 25#6) (habs : f.absentZero = true)
    (h : decodeWshift f = some i) : wellFormed i = true ∧ toFields i = some f := by
  obtain ⟨form⟩ := f
  simp only [decodeWshift, Option.bind_eq_bind, guard_bind, Option.bind_eq_some_iff, Option.ite_none_right_eq_some,
    Ty.ofCode_eq_some, Fields.zf_eq_some, vReg?_eq_some, beq_iff_eq] at h
  obtain ⟨hform, t, rfl, h8, z, rfl, d, rfl, a, rfl, h⟩ := h
  split at h
  case h_1 | h_2 =>
    simp only [Option.map_eq_some_iff, Option.ite_none_right_eq_some, Option.some.injEq] at h
    obtain ⟨_, ⟨hclear, rfl⟩, rfl⟩ := h
    show wshOk _ _ = true ∧ some (encVSlide _ _ _) = some _
    simp_all [Fields.absentZero, Fields.clear, Fields.mods, wshOk, extOk, encVSlide, fieldsOf, BitVec.toNat_eq_nat]
  case h_3 | h_4 =>
    simp only [Option.map_eq_some_iff, Option.ite_none_right_eq_some, Option.some.injEq, Option.bind_eq_some_iff,
      vReg?_eq_some] at h
    obtain ⟨_, ⟨b, rfl, hclear, rfl⟩, rfl⟩ := h
    show wshOk _ _ = true ∧ some (encVFsh _ _) = some _
    simp_all [Fields.absentZero, Fields.clear, Fields.mods, wshOk, extOk, encVFsh, fieldsOf, BitVec.toNat_eq_nat]
  case h_5 => cases h

theorem decodeVmem_encodes {f : Fields} {load : Bool} {x : VMemArgs} (hform : f.form = .ext) (habs : f.absentZero =
  true)
    (h : decodeVmem f load = some x) :
    (permOk x.m x.ty && zfOk load x.zf) = true ∧ encVMem f.major.toNat f.func.toNat x = f := by
  obtain ⟨form⟩ := f
  simp only [decodeVmem, Option.bind_eq_bind, guard_bind, Option.bind_eq_some_iff, Option.ite_none_right_eq_some,
    Ty.ofCode_eq_some, ScopeQ.ofCode_eq_some, Fields.zf_eq_some, vReg?_eq_some, cReg?_eq_some] at h
  obtain ⟨t, rfl, hscale, s, rfl, z, rfl, d, rfl, a, rfl, hclear, h⟩ := h
  cases h
  simp_all [Fields.absentZero, Fields.clear, Fields.mods, permOk, extOk, zfOk, encVMem, fieldsOf]

theorem decodeVmemX_encodes {f : Fields} {load : Bool} {x : VMemXArgs} (hform : f.form = .ext) (habs : f.absentZero =
  true)
    (h : decodeVmemX f load = some x) :
    (permOk x.m x.ty && zfOk load x.zf) = true ∧ encVMemX f.major.toNat f.func.toNat x = f := by
  obtain ⟨form⟩ := f
  simp only [decodeVmemX, Option.bind_eq_bind, guard_bind, Option.bind_eq_some_iff, Option.ite_none_right_eq_some,
    Ty.ofCode_eq_some, ScopeQ.ofCode_eq_some, Fields.zf_eq_some, vReg?_eq_some, cReg?_eq_some] at h
  obtain ⟨t, rfl, hscale, s, rfl, z, rfl, d, rfl, a, rfl, b, rfl, hclear, h⟩ := h
  cases h
  simp_all [Fields.absentZero, Fields.clear, Fields.mods, permOk, extOk, zfOk, encVMemX, fieldsOf]

theorem decodeVseg_encodes {f : Fields} {load : Bool} {x : VSegArgs} (hform : f.form = .ext) (habs : f.absentZero =
  true)
    (h : decodeVseg f load = some x) : vsegOk load x = true ∧ encVSeg f.major.toNat f.func.toNat x = f := by
  have himm := ofBit_append_low f.imm
  obtain ⟨form⟩ := f
  simp only [decodeVseg, Option.bind_eq_bind, guard_bind, Option.bind_eq_some_iff, Option.ite_none_right_eq_some,
    Ty.ofCode_eq_some, ScopeQ.ofCode_eq_some, Fields.zf_eq_some, vReg?_eq_some, cReg?_eq_some] at h
  obtain ⟨t, rfl, s, rfl, z, rfl, d, rfl, a, rfl, c, rfl, hclear, h⟩ := h
  cases h
  simp_all [Fields.absentZero, Fields.clear, Fields.mods, vsegOk, extOk, zfOk, encVSeg, fieldsOf]

theorem decodeVload_encodes {f : Fields} {i : Instr} (hmajor : f.major = 26#6) (habs : f.absentZero = true)
    (h : decodeVload f = some i) : wellFormed i = true ∧ toFields i = some f := by
  simp only [decodeVload, Option.bind_eq_bind, guard_bind, Option.ite_none_right_eq_some, beq_iff_eq] at h
  obtain ⟨hform, h⟩ := h
  split at h
  case h_1 hfunc | h_2 hfunc | h_4 hfunc =>
    obtain ⟨x, hx, rfl⟩ := Option.map_eq_some_iff.mp h
    obtain ⟨hok, henc⟩ := decodeVmem_encodes hform habs hx
    rw [hfunc, hmajor] at henc
    exact ⟨(Bool.and_eq_true_iff.mp hok).1, congrArg some henc⟩
  case h_3 hfunc =>
    obtain ⟨x, hx, rfl⟩ := Option.map_eq_some_iff.mp h
    obtain ⟨hok, henc⟩ := decodeVmemX_encodes hform habs hx
    rw [hfunc, hmajor] at henc
    exact ⟨(Bool.and_eq_true_iff.mp hok).1, congrArg some henc⟩
  case h_5 hfunc =>
    obtain ⟨x, hx, rfl⟩ := Option.map_eq_some_iff.mp h
    obtain ⟨hok, henc⟩ := decodeVseg_encodes hform habs hx
    rw [hfunc, hmajor] at henc
    exact ⟨hok, congrArg some henc⟩
  case h_6 => cases h

theorem decodeVstore_encodes {f : Fields} {i : Instr} (hmajor : f.major = 27#6) (habs : f.absentZero = true)
    (h : decodeVstore f = some i) : wellFormed i = true ∧ toFields i = some f := by
  simp only [decodeVstore, Option.bind_eq_bind, guard_bind, Option.ite_none_right_eq_some, beq_iff_eq] at h
  obtain ⟨hform, h⟩ := h
  split at h
  case h_1 hfunc | h_2 hfunc =>
    obtain ⟨x, hx, rfl⟩ := Option.map_eq_some_iff.mp h
    obtain ⟨hok, henc⟩ := decodeVmem_encodes hform habs hx
    rw [hfunc, hmajor] at henc
    exact ⟨hok, congrArg some henc⟩
  case h_3 hfunc =>
    obtain ⟨x, hx, rfl⟩ := Option.map_eq_some_iff.mp h
    obtain ⟨hok, henc⟩ := decodeVmemX_encodes hform habs hx
    rw [hfunc, hmajor] at henc
    exact ⟨hok, congrArg some henc⟩
  case h_4 hfunc =>
    obtain ⟨x, hx, rfl⟩ := Option.map_eq_some_iff.mp h
    obtain ⟨hok, henc⟩ := decodeVseg_encodes hform habs hx
    rw [hfunc, hmajor] at henc
    exact ⟨hok, congrArg some henc⟩
  case h_5 => cases h

theorem decodeVconv_encodes {f : Fields} {i : Instr} (hmajor : f.major = 28#6) (habs : f.absentZero = true)
    (h : decodeVconv f = some i) : wellFormed i = true ∧ toFields i = some f := by
  have himm := ofBit_append_low f.imm
  obtain ⟨form, func, b, a, d, major, e⟩ := f
  simp only [decodeVconv, Option.bind_eq_bind, guard_bind, Option.bind_eq_some_iff, Option.ite_none_right_eq_some,
    Ty.ofCode_eq_some, beq_iff_eq] at h
  obtain ⟨hform, t, rfl, h⟩ := h
  by_cases hhigh : e.getLsbD 5 = true
  · rw [if_pos hhigh] at h
    cases h
  rw [if_neg hhigh] at h
  simp only [Option.bind_eq_some_iff, Option.ite_none_right_eq_some, Ty.ofCode_eq_some, Rm.ofCode_eq_some,
    vReg?_eq_some] at h
  obtain ⟨dt, hlow, r, rfl, d, rfl, a, rfl, hsr, h⟩ := h
  have hdt := setWidth_low_of_high_clear (Bool.eq_false_iff.mpr hhigh)
  rw [hlow] at hdt
  split at h
  case h_1 =>
    simp only [Bool.and_eq_true, Option.ite_none_right_eq_some] at h
    obtain ⟨hclear, h⟩ := h
    cases h
    show (extOk _ && _ && _ && _) = true ∧ some _ = some _
    simp_all [Fields.absentZero, Fields.clear, Fields.mods, srOk, extOk, fieldsOf, BitVec.toNat_eq_nat]
  case h_2 =>
    simp only [Option.bind_eq_some_iff, vReg?_eq_some, Option.ite_none_right_eq_some] at h
    obtain ⟨c, rfl, hclear, h⟩ := h
    cases h
    show (extOk _ && _ && _ && _ && _) = true ∧ some (encVquant _ _) = some _
    simp_all [Fields.absentZero, Fields.clear, Fields.mods, srOk, extOk, fieldsOf, encVquant, BitVec.toNat_eq_nat]
  case h_3 =>
    simp only [Option.bind_eq_some_iff, vReg?_eq_some, Option.ite_none_right_eq_some] at h
    obtain ⟨c, rfl, hclear, h⟩ := h
    cases h
    show (extOk _ && _ && _ && _) = true ∧ some (encVquant _ _) = some _
    simp_all [Fields.absentZero, Fields.clear, Fields.mods, srOk, extOk, fieldsOf, encVquant, BitVec.toNat_eq_nat]
  case h_4 => cases h

theorem decodeStream_encodes {f : Fields} {i : Instr} (hmajor : f.major = 29#6) (habs : f.absentZero = true)
    (h : decodeStream f = some i) : wellFormed i = true ∧ toFields i = some f := by
  obtain ⟨form⟩ := f
  simp only [decodeStream, Option.bind_eq_bind, guard_bind, Option.bind_eq_some_iff, Option.ite_none_right_eq_some,
    bindReg?_eq_some, beq_iff_eq] at h
  obtain ⟨hform, d, rfl, h⟩ := h
  split at h
  case h_1 =>
    simp only [Option.bind_eq_some_iff, cReg?_eq_some, Option.ite_none_right_eq_some] at h
    obtain ⟨a, rfl, hclear, h⟩ := h
    cases h
    show extOk _ = true ∧ some _ = some _
    simp_all [Fields.absentZero, Fields.clear, Fields.mods, extOk, fieldsOf, BitVec.toNat_eq_nat]
  case h_2 =>
    obtain ⟨hclear, h⟩ := Option.ite_some_none_eq_some.mp h
    cases h
    show extOk _ = true ∧ some _ = some _
    simp_all [Fields.absentZero, Fields.clear, Fields.mods, extOk, fieldsOf, BitVec.toNat_eq_nat]
  case h_3 => cases h

theorem decodeMldt_encodes {f : Fields} {x : MldtArgs} (hmajor : f.major = 30#6) (habs : f.absentZero = true)
    (h : decodeMldt f = some x) : mldtOk x = true ∧ encMldt f.func.toNat x = f := by
  obtain ⟨form⟩ := f
  simp only [decodeMldt, Option.bind_eq_bind, guard_bind, Option.bind_eq_some_iff, Option.ite_none_right_eq_some,
    MxKind.ofCode_eq_some, Ty.ofCode_eq_some, cReg?_eq_some, beq_iff_eq] at h
  obtain ⟨hform, k, rfl, t, rfl, a, rfl, hclear, h⟩ := h
  cases h
  simp_all [Fields.absentZero, Fields.clear, Fields.mods, mldtOk, extOk, encMldt, fieldsOf]

theorem decodeMrow_encodes {f : Fields} {acc : Bool} {x : MrowArgs} (hmajor : f.major = 30#6) (habs : f.absentZero =
  true)
    (h : decodeMrow f acc = some x) : mrowOk acc x = true ∧ encMrow f.func.toNat x = f := by
  obtain ⟨form⟩ := f
  simp only [decodeMrow, Option.bind_eq_bind, guard_bind, Option.bind_eq_some_iff, Option.ite_none_right_eq_some,
    ScaleCode.ofCode_eq_some, Ty.ofCode_eq_some, aReg?_eq_some, vReg?_eq_some, beq_iff_eq] at h
  obtain ⟨hform, k, rfl, t, rfl, d, rfl, a, rfl, c, rfl, hclear, h⟩ := h
  cases h
  simp_all [Fields.absentZero, Fields.clear, Fields.mods, mrowOk, extOk, encMrow, fieldsOf, or_comm]

theorem decodeMatrix_encodes {f : Fields} {i : Instr} (hmajor : f.major = 30#6) (habs : f.absentZero = true)
    (h : decodeMatrix f = some i) : wellFormed i = true ∧ toFields i = some f := by
  simp only [decodeMatrix, Option.bind_eq_bind, guard_bind] at h
  split at h
  case h_1 hfunc | h_2 hfunc =>
    obtain ⟨x, hx, rfl⟩ := Option.map_eq_some_iff.mp h
    obtain ⟨hok, henc⟩ := decodeMldt_encodes hmajor habs hx
    rw [hfunc] at henc
    exact ⟨hok, congrArg some henc⟩
  case h_3 hfunc | h_4 hfunc =>
    obtain ⟨x, hx, rfl⟩ := Option.map_eq_some_iff.mp h
    obtain ⟨hok, henc⟩ := decodeMrow_encodes hmajor habs hx
    rw [hfunc] at henc
    exact ⟨hok, congrArg some henc⟩
  case h_5 =>
    obtain ⟨form⟩ := f
    simp only [Option.bind_eq_some_iff, Ty.ofCode_eq_some, Option.ite_none_right_eq_some, Bool.and_eq_true,
      Bool.or_eq_true,
      beq_iff_eq, decide_eq_true_eq] at h
    obtain ⟨t, rfl, ⟨⟨⟨hform, ht⟩, hclear⟩, hmask⟩, h⟩ := h
    cases h
    show extOk _ = true ∧ some _ = some _
    have hback := setWidth_setWidth_of_toNat_lt (n := 8) hmask
    obtain rfl | rfl := ht <;>
      simp_all [Fields.absentZero, Fields.clear, Fields.mods, extOk, fieldsOf, BitVec.toNat_eq_nat]
  case h_6 =>
    obtain ⟨hclear, h⟩ := Option.ite_some_none_eq_some.mp h
    cases h
    show extOk _ = true ∧ some _ = some _
    obtain ⟨form⟩ := f
    simp_all [Fields.absentZero, Fields.clear, Fields.mods, extOk, fieldsOf, BitVec.toNat_eq_nat]
  case h_7 =>
    obtain ⟨hclear, h⟩ := Option.ite_some_none_eq_some.mp h
    cases h
    show (_ && litOk _ _ _) = true ∧ some _ = some _
    obtain ⟨form⟩ := f
    cases form <;>
      simp_all [Fields.absentZero, Fields.clear, Fields.mods, Fields.litB, Fields.literal, litOk, fieldsOf,
        BitVec.toNat_eq_nat]
  case h_8 =>
    obtain ⟨form⟩ := f
    simp only [Option.bind_eq_some_iff, ChainVec.ofCode_eq_some, cReg?_eq_some, Option.ite_none_right_eq_some] at h
    obtain ⟨k, rfl, a, rfl, hclear, h⟩ := h
    cases h
    show extOk _ = true ∧ some _ = some _
    simp_all [Fields.absentZero, Fields.clear, Fields.mods, extOk, fieldsOf, BitVec.toNat_eq_nat]
  case h_9 =>
    obtain ⟨form⟩ := f
    simp only [Option.bind_eq_some_iff, Ty.ofCode_eq_some, Rm.ofCode_eq_some, Fields.zf_eq_some, vReg?_eq_some,
      aReg?_eq_some,
      Option.ite_none_right_eq_some] at h
    obtain ⟨t, rfl, r, rfl, z, rfl, d, rfl, a, rfl, hclear, h⟩ := h
    cases h
    show (extOk _ && _) = true ∧ some _ = some _
    simp_all [Fields.absentZero, Fields.clear, Fields.mods, extOk, fieldsOf, BitVec.toNat_eq_nat]
  case h_10 => cases h

/-! ### Engines, tasks, troupes, speculation, loops, deferral -/

theorem decodeEngine_encodes {f : Fields} {i : Instr} (hmajor : f.major = 31#6) (habs : f.absentZero = true)
    (h : decodeEngine f = some i) : wellFormed i = true ∧ toFields i = some f := by
  obtain ⟨form⟩ := f
  simp only [decodeEngine, Option.bind_eq_bind, guard_bind] at h
  split at h
  case h_1 =>
    simp only [Option.bind_eq_some_iff, cReg?_eq_some, Option.ite_none_right_eq_some] at h
    obtain ⟨d, rfl, a, rfl, c, rfl, hclear, h⟩ := h
    cases h
    show (modsOk _ && immOk _ _ && _ && litOk _ _ _) = true ∧ some _ = some _
    cases form <;>
      simp_all [Fields.absentZero, Fields.clear, Fields.mods, Fields.litB, Fields.literal, litOk, modsOk, immOk,
        fieldsOf,
        BitVec.toNat_eq_nat]
  case h_2 =>
    obtain ⟨hclear, h⟩ := Option.ite_none_right_eq_some.mp h
    split at h
    case h_3 => cases h
    all_goals
      cases h
      show (plainOk _ && _) = true ∧ some (encEpop _ _ _) = some _
      cases form <;>
        simp_all [Fields.absentZero, Fields.clear, Fields.mods, plainOk, modsOk, encEpop, fieldsOf, BitVec.toNat_eq_nat]
  case h_3 =>
    obtain ⟨hclear, h⟩ := Option.ite_some_none_eq_some.mp h
    cases h
    show (plainOk _ && _) = true ∧ some (encEpop _ _ _) = some _
    cases form <;>
      simp_all [Fields.absentZero, Fields.clear, Fields.mods, plainOk, modsOk, encEpop, fieldsOf, BitVec.toNat_eq_nat]
  case h_4 =>
    obtain ⟨hclear, h⟩ := Option.ite_none_right_eq_some.mp h
    split at h
    case h_3 => cases h
    all_goals
      cases h
      show (plainOk _ && dIn _ _ _) = true ∧ some (encMd _ _ _ _) = some _
      cases form <;>
        simp_all [Fields.absentZero, Fields.clear, Fields.mods, plainOk, modsOk, dIn, encMd, fieldsOf,
          BitVec.toNat_eq_nat]
  case h_5 => cases h

theorem decodeTask_encodes {f : Fields} {i : Instr} (hmajor : f.major = 32#6) (habs : f.absentZero = true)
    (h : decodeTask f = some i) : wellFormed i = true ∧ toFields i = some f := by
  obtain ⟨form⟩ := f
  simp only [decodeTask, Option.bind_eq_bind, guard_bind] at h
  split at h
  case h_1 =>
    obtain ⟨hclear, h⟩ := Option.ite_some_none_eq_some.mp h
    cases h
    show (plainOk _ && immOk _ _) = true ∧ some _ = some _
    cases form <;>
      simp_all [Fields.absentZero, Fields.clear, Fields.mods, plainOk, modsOk, immOk, fieldsOf, BitVec.toNat_eq_nat]
  case h_2 =>
    obtain ⟨hclear, h⟩ := Option.ite_some_none_eq_some.mp h
    cases h
    show (plainOk _ && dIn _ _ _) = true ∧ some (encMd _ _ _ _) = some _
    cases form <;>
      simp_all [Fields.absentZero, Fields.clear, Fields.mods, plainOk, modsOk, dIn, encMd, fieldsOf,
        BitVec.toNat_eq_nat]
  case h_3 =>
    obtain ⟨hclear, h⟩ := Option.ite_some_none_eq_some.mp h
    cases h
    show (plainOk _ && dIn _ _ _) = true ∧ some (encMda _ _ _ _) = some _
    cases form <;>
      simp_all [Fields.absentZero, Fields.clear, Fields.mods, plainOk, modsOk, dIn, encMda, fieldsOf,
        BitVec.toNat_eq_nat]
  case h_4 =>
    obtain ⟨hclear, h⟩ := Option.ite_some_none_eq_some.mp h
    cases h
    show (modsOk _ && immOk _ _ && litOk _ _ _) = true ∧ some _ = some _
    cases form <;>
      simp_all [Fields.absentZero, Fields.clear, Fields.mods, Fields.litB, Fields.literal, litOk, modsOk, immOk,
        fieldsOf,
        BitVec.toNat_eq_nat]
  case h_5 =>
    obtain ⟨hclear, h⟩ := Option.ite_none_right_eq_some.mp h
    split at h
    case h_4 => cases h
    all_goals
      cases h
      show (plainOk _ && immOk _ _) = true ∧ some (encLarm _ _) = some _
      cases form <;>
        simp_all [Fields.absentZero, Fields.clear, Fields.mods, plainOk, modsOk, immOk, encLarm, fieldsOf,
          BitVec.toNat_eq_nat]
  case h_6 => cases h

theorem decodeTroupe_encodes {f : Fields} {i : Instr} (hmajor : f.major = 33#6) (habs : f.absentZero = true)
    (h : decodeTroupe f = some i) : wellFormed i = true ∧ toFields i = some f := by
  obtain ⟨form⟩ := f
  simp only [decodeTroupe, Option.bind_eq_bind, guard_bind] at h
  split at h
  case h_1 =>
    simp only [Option.bind_eq_some_iff, cReg?_eq_some, Option.ite_none_right_eq_some] at h
    obtain ⟨b, rfl, hclear, h⟩ := h
    cases h
    show (extOk _ && dIn _ _ _) = true ∧ some _ = some _
    simp_all [Fields.absentZero, Fields.clear, Fields.mods, extOk, dIn, fieldsOf, BitVec.toNat_eq_nat]
  case h_2 =>
    obtain ⟨hclear, h⟩ := Option.ite_some_none_eq_some.mp h
    cases h
    show plainOk _ = true ∧ some (encMda _ _ _ _) = some _
    cases form <;>
      simp_all [Fields.absentZero, Fields.clear, Fields.mods, plainOk, modsOk, encMda, fieldsOf, BitVec.toNat_eq_nat]
  case h_3 =>
    obtain ⟨hclear, h⟩ := Option.ite_some_none_eq_some.mp h
    cases h
    show (plainOk _ && dIn _ _ _) = true ∧ some (encMd _ _ _ _) = some _
    cases form <;>
      simp_all [Fields.absentZero, Fields.clear, Fields.mods, plainOk, modsOk, dIn, encMd, fieldsOf,
        BitVec.toNat_eq_nat]
  case h_4 =>
    obtain ⟨hclear, h⟩ := Option.ite_some_none_eq_some.mp h
    cases h
    show plainOk _ = true ∧ some (encMdab _ _ _) = some _
    cases form <;>
      simp_all [Fields.absentZero, Fields.clear, Fields.mods, plainOk, modsOk, encMdab, fieldsOf, BitVec.toNat_eq_nat]
  case h_5 =>
    obtain ⟨hclear, h⟩ := Option.ite_none_right_eq_some.mp h
    split at h
    case h_1 =>
      cases h
      show (plainOk _ && dIn _ _ _) = true ∧ some (encMdab _ _ _) = some _
      cases form <;>
        simp_all [Fields.absentZero, Fields.clear, Fields.mods, plainOk, modsOk, dIn, encMdab, fieldsOf,
          BitVec.toNat_eq_nat]
    case h_2 =>
      cases h
      show (extOk _ && dIn _ _ _) = true ∧ some (encMdab _ _ _) = some _
      cases form <;>
        simp_all [Fields.absentZero, Fields.clear, Fields.mods, extOk, dIn, encMdab, fieldsOf, BitVec.toNat_eq_nat]
    case h_3 => cases h
  case h_6 => cases h

theorem decodeSpec_encodes {f : Fields} {i : Instr} (hmajor : f.major = 34#6) (habs : f.absentZero = true)
    (h : decodeSpec f = some i) : wellFormed i = true ∧ toFields i = some f := by
  obtain ⟨form⟩ := f
  simp only [decodeSpec, Option.bind_eq_bind, guard_bind] at h
  split at h
  case h_1 =>
    simp only [Option.ite_none_right_eq_some, Bool.and_eq_true, decide_eq_true_eq] at h
    obtain ⟨⟨hclear, hside⟩, h⟩ := h
    cases h
    show (extOk _ && dIn _ _ _) = true ∧ some _ = some _
    have hbit := ite_one_eq_of_toNat_lt_two hside
    simp_all [Fields.absentZero, Fields.clear, Fields.mods, extOk, dIn, fieldsOf, BitVec.toNat_eq_nat]
  case h_2 =>
    obtain ⟨hclear, h⟩ := Option.ite_none_right_eq_some.mp h
    split at h
    case h_1 =>
      cases h
      show plainOk _ = true ∧ some _ = some _
      cases form <;>
        simp_all [Fields.absentZero, Fields.clear, Fields.mods, plainOk, modsOk, fieldsOf, BitVec.toNat_eq_nat]
    case h_2 =>
      obtain ⟨hb, h⟩ := Option.ite_some_none_eq_some.mp h
      cases h
      show extOk _ = true ∧ some _ = some _
      cases form <;>
        simp_all [Fields.absentZero, Fields.clear, Fields.mods, extOk, fieldsOf, BitVec.toNat_eq_nat]
    case h_3 => cases h
  case h_3 =>
    obtain ⟨hclear, h⟩ := Option.ite_none_right_eq_some.mp h
    split at h
    case h_1 =>
      obtain ⟨ha, h⟩ := Option.ite_some_none_eq_some.mp h
      cases h
      show plainOk _ = true ∧ some (encMd _ _ _ _) = some _
      cases form <;>
        simp_all [Fields.absentZero, Fields.clear, Fields.mods, plainOk, modsOk, encMd, fieldsOf, BitVec.toNat_eq_nat]
    case h_2 =>
      cases h
      show plainOk _ = true ∧ some (encMda _ _ _ _) = some _
      cases form <;>
        simp_all [Fields.absentZero, Fields.clear, Fields.mods, plainOk, modsOk, encMda, fieldsOf, BitVec.toNat_eq_nat]
    case h_3 =>
      cases h
      show plainOk _ = true ∧ some _ = some _
      cases form <;>
        simp_all [Fields.absentZero, Fields.clear, Fields.mods, plainOk, modsOk, fieldsOf, BitVec.toNat_eq_nat]
    case h_4 => cases h
  case h_4 => cases h

theorem decodeLoop_encodes {f : Fields} {i : Instr} (hmajor : f.major = 35#6) (habs : f.absentZero = true)
    (h : decodeLoop f = some i) : wellFormed i = true ∧ toFields i = some f := by
  have himm := clsetFields_append f.imm
  obtain ⟨form, func, b, a, d, major, e, c⟩ := f
  simp only [decodeLoop, Option.bind_eq_bind, guard_bind] at h
  split at h
  case h_1 =>
    obtain ⟨hclear, h⟩ := Option.ite_none_right_eq_some.mp h
    by_cases hlevel : c.toNat < 6
    · rw [dif_pos hlevel] at h
      cases h
      show (modsOk _ && litOk _ _ _ && (_ || (_ == 0 && _ && _)) && _) = true ∧ some _ = some _
      have hc := regField_mk_of_toNat_lt hlevel
      cases form <;>
        simp_all [Fields.absentZero, Fields.clear, Fields.mods, Fields.litB, Fields.literal, litOk, modsOk, fieldsOf,
          BitVec.toNat_eq_nat]
    · rw [dif_neg hlevel] at h
      cases h
  case h_2 =>
    cases form with
    | base =>
      simp only [Option.bind_some, Option.bind_none, Option.ite_none_right_eq_some, Option.some.injEq] at h
      obtain ⟨hclear, ⟨hlow, hhigh⟩, rfl⟩ := h
      obtain ⟨ha, hd⟩ := clrunFields_of_le hhigh
      have hlt : (a ++ d).toNat < 256 := by omega
      show (plainOk _ && decide _ && decide _) = true ∧ some _ = some _
      simp_all [Nat.mod_eq_of_lt hlt, Fields.absentZero, Fields.clear, Fields.mods, plainOk, modsOk, fieldsOf,
        BitVec.toNat_eq_nat]
    | ext =>
      simp only [Option.bind_some, Option.bind_none, Option.ite_none_right_eq_some, Option.some.injEq] at h
      obtain ⟨hclear, ⟨hlow, hhigh⟩, rfl⟩ := h
      have hlt := lt_of_le_of_lt hhigh (show 128 < 256 by decide)
      have hback := setWidth_setWidth_of_toNat_lt (n := 8) hlt
      show (plainOk _ && decide _ && decide _) = true ∧ some _ = some _
      simp_all [Nat.mod_eq_of_lt hlt, Fields.absentZero, Fields.clear, Fields.mods, plainOk, modsOk, fieldsOf,
        BitVec.toNat_eq_nat]
    | lit | extLit => cases h
  case h_3 => cases h

theorem decodeDefer_encodes {f : Fields} {i : Instr} (hmajor : f.major = 36#6) (habs : f.absentZero = true)
    (h : decodeDefer f = some i) : wellFormed i = true ∧ toFields i = some f := by
  obtain ⟨form⟩ := f
  simp only [decodeDefer, Option.bind_eq_bind, guard_bind, Option.bind_eq_some_iff, Option.ite_none_right_eq_some,
    Ty.ofCode_eq_some, vReg?_eq_some, beq_iff_eq, Bool.and_eq_true] at h
  obtain ⟨hform, t, rfl, ⟨hscale, hhigh⟩, a, rfl, h⟩ := h
  split at h
  case isFalse => cases h
  case isTrue hk =>
    have himm := encDefer_of_fields hhigh hk
    simp only [Option.bind_some] at h
    split at h
    case h_1 =>
      obtain ⟨hclear, h⟩ := Option.ite_some_none_eq_some.mp h
      cases h
      show (extOk _ && _) = true ∧ some _ = some _
      simp_all [Fields.absentZero, Fields.clear, Fields.mods, extOk, fieldsOf, BitVec.toNat_eq_nat]
    case h_2 =>
      simp only [Option.bind_eq_some_iff, vReg?_eq_some, Option.ite_none_right_eq_some] at h
      obtain ⟨b, rfl, hclear, h⟩ := h
      cases h
      show (extOk _ && _) = true ∧ some _ = some _
      simp_all [Fields.absentZero, Fields.clear, Fields.mods, extOk, fieldsOf, BitVec.toNat_eq_nat]
    case h_3 => cases h

/-- Fields that decode are those of the instruction that they decode to, which is well formed. -/
theorem decodeFields_encodes {f : Fields} {i : Instr} (habs : f.absentZero = true) (h : decodeFields f = some i) :
    wellFormed i = true ∧ toFields i = some f := by
  unfold decodeFields at h
  split at h
  case h_1 hm => exact decodeSalu_encodes (BitVec.eq_of_toNat_eq hm) habs h
  case h_2 hm => exact decodeAddi_encodes (BitVec.eq_of_toNat_eq hm) habs h
  case h_3 hm => exact decodeCmp_encodes (BitVec.eq_of_toNat_eq hm) habs h
  case h_4 hm => exact decodeLi_encodes (BitVec.eq_of_toNat_eq hm) habs h
  case h_5 hm | h_7 hm =>
    obtain ⟨x, hx, rfl⟩ := Option.map_eq_some_iff.mp h
    obtain ⟨hok, henc⟩ := decodeB_encodes habs hx
    rw [hm] at henc
    exact ⟨hok, congrArg some henc⟩
  case h_6 hm => exact decodeBc_encodes (BitVec.eq_of_toNat_eq hm) habs h
  case h_8 hm => exact decodeCtl_encodes (BitVec.eq_of_toNat_eq hm) habs h
  case h_9 hm | h_10 hm =>
    obtain ⟨x, hx, rfl⟩ := Option.map_eq_some_iff.mp h
    obtain ⟨hok, henc⟩ := decodeLd_encodes habs hx
    rw [hm] at henc
    exact ⟨hok, congrArg some henc⟩
  case h_11 hm => exact decodeCapmem_encodes (BitVec.eq_of_toNat_eq hm) habs h
  case h_12 hm => exact decodeAmo_encodes (BitVec.eq_of_toNat_eq hm) habs h
  case h_13 hm => exact decodeFence_encodes (BitVec.eq_of_toNat_eq hm) habs h
  case h_14 hm => exact decodeCap_encodes (BitVec.eq_of_toNat_eq hm) habs h
  case h_15 hm => exact decodeVcfg_encodes (BitVec.eq_of_toNat_eq hm) habs h
  case h_16 hm => exact decodeVialu_encodes (BitVec.eq_of_toNat_eq hm) habs h
  case h_17 hm => exact decodeVfalu_encodes (BitVec.eq_of_toNat_eq hm) habs h
  case h_18 hm => exact decodeVfma_encodes (BitVec.eq_of_toNat_eq hm) habs h
  case h_19 hm => exact decodeVcmp_encodes (BitVec.eq_of_toNat_eq hm) habs h
  case h_20 hm => exact decodeVfcmp_encodes (BitVec.eq_of_toNat_eq hm) habs h
  case h_21 hm => exact decodePred_encodes (BitVec.eq_of_toNat_eq hm) habs h
  case h_22 hm => exact decodePerm_encodes (BitVec.eq_of_toNat_eq hm) habs h
  case h_23 hm => exact decodeVred_encodes (BitVec.eq_of_toNat_eq hm) habs h
  case h_24 hm => exact decodeVscan_encodes (BitVec.eq_of_toNat_eq hm) habs h
  case h_25 hm => exact decodeWshift_encodes (BitVec.eq_of_toNat_eq hm) habs h
  case h_26 hm => exact decodeVload_encodes (BitVec.eq_of_toNat_eq hm) habs h
  case h_27 hm => exact decodeVstore_encodes (BitVec.eq_of_toNat_eq hm) habs h
  case h_28 hm => exact decodeVconv_encodes (BitVec.eq_of_toNat_eq hm) habs h
  case h_29 hm => exact decodeStream_encodes (BitVec.eq_of_toNat_eq hm) habs h
  case h_30 hm => exact decodeMatrix_encodes (BitVec.eq_of_toNat_eq hm) habs h
  case h_31 hm => exact decodeEngine_encodes (BitVec.eq_of_toNat_eq hm) habs h
  case h_32 hm => exact decodeTask_encodes (BitVec.eq_of_toNat_eq hm) habs h
  case h_33 hm => exact decodeTroupe_encodes (BitVec.eq_of_toNat_eq hm) habs h
  case h_34 hm => exact decodeSpec_encodes (BitVec.eq_of_toNat_eq hm) habs h
  case h_35 hm => exact decodeLoop_encodes (BitVec.eq_of_toNat_eq hm) habs h
  case h_36 hm => exact decodeDefer_encodes (BitVec.eq_of_toNat_eq hm) habs h
  case h_37 => cases h

/-- Settles O3: the words read as fields whose words they begin with,
  and those fields are the ones of the instruction. -/
theorem nymzinWordsAreUnique : Obligations.NymzinWordsAreUnique := by
  intro ws i h
  unfold decodeWords at h
  split at h
  next f hf =>
    obtain ⟨habs, hprefix⟩ := Fields.words_of_ofWords hf
    obtain ⟨hok, henc⟩ := decodeFields_encodes habs h
    refine ⟨hok, ?_⟩
    rw [List.isPrefixOf_iff_prefix, encode, henc]
    exact hprefix
  · cases h

/-- A well-formed instruction reads back from its fields, and the fields of absent words are zero. -/
def ReadsBack (i : Instr) : Prop :=
  ∀ f, wellFormed i = true → toFields i = some f → decodeFields f = some i ∧ f.absentZero = true

theorem encSalu_reads {x : SaluArgs} {sats : Bool} (hok : saluOk sats x = true) (n : Nat) :
    let f := encSalu n x
    f.absentZero = true ∧ Ty.ofCode f.ty = some x.ty ∧ x.ty.isInt8to64 = true ∧
      (f.clear { ty := true, sat := sats } && f.litB) = true ∧
      { m := f.mods, ty := x.ty, sat := bitOf f.sat, d := gReg f.d, a := gReg f.a, b := gReg f.b, lit := f.literal }
        = x := by
  obtain ⟨⟨form⟩, ty, sat, d, a, b, lit⟩ := x
  simp only [saluOk, modsOk, word2Ok, litOk] at hok
  cases form <;> cases lit <;>
    simp_all [encSalu, fieldsOf, Fields.absentZero, Fields.clear, Fields.litB, Fields.literal, Fields.mods]

theorem readsBack_saluSat (x : SaluArgs) : ∀ i ∈ [Instr.add x, .sub x, .mul x, .div x, .shl x], ReadsBack i := by
  simp only [List.forall_mem_cons]
  refine ⟨?_, ?_, ?_, ?_, ?_, fun _ h => nomatch h⟩ <;>
  · intro f hwf henc
    cases henc
    obtain ⟨habs, hty, h8, hclear, hx⟩ := encSalu_reads (sats := true) hwf _
    refine ⟨?_, habs⟩
    show decodeSalu _ = _
    simp only [decodeSalu, Option.bind_eq_bind, guard_bind, hty, h8, hclear, hx, Option.bind_some, if_true]
    rfl

theorem readsBack_salu (x : SaluArgs) :
    ∀ i ∈ [Instr.mulh x, .rem x, .and x, .or x, .xor x, .andn x, .shr x, .sar x, .rot x, .min x, .max x, .bext x,
      .bdep x],
      ReadsBack i := by
  simp only [List.forall_mem_cons]
  refine ⟨?_, ?_, ?_, ?_, ?_, ?_, ?_, ?_, ?_, ?_, ?_, ?_, ?_, fun _ h => nomatch h⟩ <;>
  · intro f hwf henc
    cases henc
    obtain ⟨habs, hty, h8, hclear, hx⟩ := encSalu_reads (sats := false) hwf _
    refine ⟨?_, habs⟩
    show decodeSalu _ = _
    simp only [decodeSalu, Option.bind_eq_bind, guard_bind, hty, h8, hclear, hx, Option.bind_some, if_true]
    rfl

theorem readsBack_saluUn (x : SaluUnArgs) : ∀ i ∈ [Instr.clz x, .ctz x, .popc x], ReadsBack i := by
  simp only [List.forall_mem_cons]
  refine ⟨?_, ?_, ?_, fun _ h => nomatch h⟩ <;>
  · intro f hwf henc
    cases henc
    change saluUnOk _ = true at hwf
    show decodeSalu _ = _ ∧ _
    obtain ⟨⟨form⟩⟩ := x
    cases form <;>
      simp_all [decodeSalu, saluUnOk, plainOk, modsOk, word2Ok, encSaluUn, fieldsOf, Fields.absentZero, Fields.clear,
        Fields.mods, guard_bind]

theorem readsBack_sel (x : SelArgs) : ReadsBack (.sel x) := by
  intro f hwf henc
  cases henc
  change (modsOk _ && _ && _ && litOk _ _ _) = true at hwf
  show decodeSalu _ = _ ∧ _
  obtain ⟨⟨form⟩, ty, d, a, b, c, lit⟩ := x
  cases form <;> cases lit <;>
    simp_all [decodeSalu, modsOk, litOk, fieldsOf, Fields.absentZero, Fields.clear, Fields.litB, Fields.literal,
      Fields.mods, guard_bind]

theorem readsBack_addi (x : AddiArgs) : ReadsBack (.addi x) := by
  intro f hwf henc
  cases henc
  change (plainOk _ && _ && _ && _) = true at hwf
  obtain ⟨⟨form⟩⟩ := x
  cases form <;>
    show decodeAddi _ = _ ∧ _ <;>
    simp_all [decodeAddi, plainOk, modsOk, word2Ok, encImm12, fieldsOf, Fields.absentZero, Fields.clear, Fields.mods,
      guard_bind, append12_of_signedIn]

theorem readsBack_cmp (x : CmpArgs) : ReadsBack (.cmp x) := by
  intro f hwf henc
  cases henc
  change (modsOk _ && _ && _ && litOk _ _ _) = true at hwf
  show decodeCmp _ = _ ∧ _
  obtain ⟨⟨form⟩, cond, ty, d, a, b, lit⟩ := x
  cases form <;> cases lit <;>
    simp_all [decodeCmp, modsOk, word2Ok, litOk, fieldsOf, Fields.absentZero, Fields.clear, Fields.litB, Fields.literal,
      Fields.mods, guard_bind]

theorem readsBack_li (x : LiArgs) : ReadsBack (.li x) := by
  intro f hwf henc
  rw [wellFormed_li] at hwf
  cases (toFields_li x).symm.trans henc
  obtain ⟨⟨form⟩, d, imm, lit⟩ := x
  cases form <;> cases lit <;>
    simp_all [decodeFields, decodeLi, modsOk, litOk, fieldsOf, Fields.absentZero, Fields.clear, Fields.literal,
      Fields.mods, append18_of_signedIn]

theorem readsBack_b (x : BArgs) : ∀ i ∈ [Instr.b x, .call x], ReadsBack i := by
  simp only [List.forall_mem_cons]
  refine ⟨?_, ?_, fun _ h => nomatch h⟩ <;>
  · intro f hwf henc
    cases henc
    change bOk _ = true at hwf
    obtain ⟨⟨form⟩⟩ := x
    cases form <;>
      simp_all [decodeFields, decodeB, bOk, plainOk, modsOk, encB, fieldsOf, Fields.absentZero, Fields.clear,
        Fields.mods, append24,
        signExtend_extractLsb'_of_signedIn]

theorem readsBack_bc (x : BcArgs) : ReadsBack (.bc x) := by
  intro f hwf henc
  rw [wellFormed_bc] at hwf
  cases (toFields_bc x).symm.trans henc
  obtain ⟨⟨form⟩⟩ := x
  cases form <;>
    simp_all [decodeFields, decodeBc, plainOk, modsOk, fieldsOf, Fields.absentZero, Fields.clear, Fields.mods,
      append12_of_signedIn]

theorem readsBack_jmp (x : MaArgs) : ∀ i ∈ [Instr.jmp x, .jmpCall x], ReadsBack i := by
  simp only [List.forall_mem_cons]
  refine ⟨?_, ?_, fun _ h => nomatch h⟩ <;>
  · intro f hwf henc
    cases henc
    change plainOk _ = true at hwf
    show decodeCtl _ = _ ∧ _
    obtain ⟨⟨form⟩⟩ := x
    cases form <;>
      simp_all [decodeCtl, plainOk, modsOk, fieldsOf, Fields.absentZero, Fields.clear, Fields.mods]

theorem readsBack_ret (x : RetArgs) : ReadsBack (.ret x) := by
  intro f hwf henc
  cases henc
  change (plainOk _ && _) = true at hwf
  show decodeCtl _ = _ ∧ _
  have hlt : x.k.toNat % 2097152 < 1024 := lt_of_le_of_lt (Nat.mod_le ..) x.k.isLt
  obtain ⟨⟨form⟩⟩ := x
  cases form <;>
    simp_all [decodeCtl, plainOk, modsOk, fieldsOf, Fields.absentZero, Fields.clear, Fields.mods]

theorem readsBack_callq (x : CallqArgs) : ReadsBack (.callq x) := by
  intro f hwf henc
  cases henc
  change plainOk _ = true at hwf
  show decodeCtl _ = _ ∧ _
  obtain ⟨⟨form⟩⟩ := x
  cases form <;>
    simp_all [decodeCtl, plainOk, modsOk, fieldsOf, Fields.absentZero, Fields.clear, Fields.mods]

theorem readsBack_park (x : ParkArgs) : ReadsBack (.park x) := by
  intro f hwf henc
  cases henc
  change (plainOk _ && immOk _ _) = true at hwf
  show decodeCtl _ = _ ∧ _
  obtain ⟨⟨form⟩⟩ := x
  cases form <;>
    simp_all [decodeCtl, immOk, plainOk, modsOk, fieldsOf, Fields.absentZero, Fields.clear, Fields.mods]

theorem readsBack_halt (x : MArgs) : ∀ i ∈ [Instr.halt x, .yieldCore x], ReadsBack i := by
  simp only [List.forall_mem_cons]
  refine ⟨?_, ?_, fun _ h => nomatch h⟩ <;>
  · intro f hwf henc
    cases henc
    change plainOk _ = true at hwf
    show decodeCtl _ = _ ∧ _
    obtain ⟨⟨form⟩⟩ := x
    cases form <;>
      simp_all [decodeCtl, plainOk, modsOk, fieldsOf, Fields.absentZero, Fields.clear, Fields.mods]

/-! ### Scalar memory, fences, capabilities -/

theorem readsBack_ld (x : LdArgs) : ∀ i ∈ [Instr.ld x, .st x], ReadsBack i := by
  simp only [List.forall_mem_cons]
  refine ⟨?_, ?_, fun _ h => nomatch h⟩ <;>
  · intro f hwf henc
    cases henc
    change ldOk _ = true at hwf
    obtain ⟨⟨form⟩⟩ := x
    cases form <;>
      simp_all [decodeFields, decodeLd, ldOk, word2Ok, plainOk, modsOk, encLd, encImm12, append12_of_signedIn,
        fieldsOf, Fields.absentZero, Fields.clear, Fields.mods, guard_bind]

theorem readsBack_ldc (x : LdcArgs) : ∀ i ∈ [Instr.ldc x, .stc x], ReadsBack i := by
  simp only [List.forall_mem_cons]
  refine ⟨?_, ?_, fun _ h => nomatch h⟩ <;>
  · intro f hwf henc
    cases henc
    change ldcOk _ = true at hwf
    obtain ⟨⟨form⟩⟩ := x
    cases form <;>
      simp_all [decodeFields, decodeCapmem, ldcOk, plainOk, modsOk, encLdc, appendSixteen_of_signedIn, fieldsOf,
        Fields.absentZero, Fields.clear, Fields.mods]

theorem readsBack_amo (x : AmoArgs) : ReadsBack (.amo x) := by
  intro f hwf henc
  cases henc
  change (plainOk _ && _ && _ && _ && _ && _) = true at hwf
  show decodeAmo _ = _ ∧ _
  obtain ⟨⟨form⟩⟩ := x
  cases form <;>
    simp_all [decodeAmo, word2Ok, immOk, plainOk, modsOk, fieldsOf, Fields.absentZero, Fields.clear, Fields.mods,
      guard_bind]

theorem readsBack_fence (x : FenceArgs) :
    ∀ i ∈ [Instr.fenceSv x, .fenceVs x, .fenceVv x, .fenceAll x], ReadsBack i := by
  simp only [List.forall_mem_cons]
  refine ⟨?_, ?_, ?_, ?_, fun _ h => nomatch h⟩ <;>
  · intro f hwf henc
    cases henc
    change plainOk _ = true at hwf
    obtain ⟨⟨form⟩⟩ := x
    cases form <;>
      simp_all [decodeFields, decodeFence, fenceScope, encScope, plainOk, modsOk, fieldsOf, Fields.absentZero,
        Fields.clear, Fields.mods]

theorem readsBack_tfence (x : TfenceArgs) : ReadsBack (.tfence x) := by
  intro f hwf henc
  cases henc
  change (plainOk _ && _ && _ && _) = true at hwf
  simp only [Bool.and_eq_true] at hwf
  obtain ⟨⟨⟨hmods, hkind⟩, ha⟩, hb⟩ := hwf
  obtain ⟨⟨form⟩⟩ := x
  cases form <;>
    simp_all [decodeFields, decodeFence, fenceScope, encScope, plainOk, modsOk, fieldsOf, Fields.absentZero,
      Fields.clear, Fields.mods, guard_bind]

theorem readsBack_cwb (x : CwbArgs) : ReadsBack (.cwb x) := by
  intro f hwf henc
  cases henc
  change cwbOk _ _ = true at hwf
  obtain ⟨⟨form⟩⟩ := x
  cases form <;>
    simp_all [decodeFields, decodeFence, cwbOk, immOk, fenceScope, encCwb, encScope, plainOk, modsOk, fieldsOf,
      Fields.absentZero, Fields.clear, Fields.mods]

theorem readsBack_iinv (x : CwbArgs) : ReadsBack (.iinv x) := by
  intro f hwf henc
  cases henc
  change cwbOk _ _ = true at hwf
  obtain ⟨⟨form⟩⟩ := x
  cases form <;>
    simp_all [decodeFields, decodeFence, cwbOk, immOk, fenceScope, encCwb, encScope, plainOk, modsOk, fieldsOf,
      Fields.absentZero, Fields.clear, Fields.mods, guard_bind]

theorem readsBack_ifence (x : MArgs) : ReadsBack (.ifence x) := by
  intro f hwf henc
  cases henc
  change plainOk _ = true at hwf
  show decodeFence _ = _ ∧ _
  obtain ⟨⟨form⟩⟩ := x
  cases form <;>
    simp_all [decodeFence, fenceScope, plainOk, modsOk, fieldsOf, Fields.absentZero, Fields.clear, Fields.mods]

theorem readsBack_cap (x : CapArgs) : ∀ i ∈ [Instr.cbound x, .cnarrow x, .caddr x], ReadsBack i := by
  simp only [List.forall_mem_cons]
  refine ⟨?_, ?_, ?_, fun _ h => nomatch h⟩ <;>
  · intro f hwf henc
    cases henc
    change plainOk _ = true at hwf
    show decodeCap _ = _ ∧ _
    obtain ⟨⟨form⟩⟩ := x
    cases form <;>
      simp_all [decodeCap, encCap, plainOk, modsOk, fieldsOf, Fields.absentZero, Fields.clear, Fields.mods]

theorem readsBack_cinc (x : CincArgs) : ReadsBack (.cinc x) := by
  intro f hwf henc
  cases henc
  change (plainOk _ && immOk _ _) = true at hwf
  show decodeCap _ = _ ∧ _
  obtain ⟨⟨form⟩⟩ := x
  cases form <;>
    simp_all [decodeCap, immOk, plainOk, modsOk, fieldsOf, Fields.absentZero, Fields.clear, Fields.mods]

theorem readsBack_cget (x : CgetArgs) : ReadsBack (.cget x) := by
  intro f hwf henc
  cases henc
  change (plainOk _ && _) = true at hwf
  show decodeCap _ = _ ∧ _
  obtain ⟨⟨form⟩⟩ := x
  cases form <;>
    simp_all [decodeCap, plainOk, modsOk, fieldsOf, Fields.absentZero, Fields.clear, Fields.mods]

theorem readsBack_ctest (x : CtestArgs) : ReadsBack (.ctest x) := by
  intro f hwf henc
  cases henc
  change (plainOk _ && _) = true at hwf
  show decodeCap _ = _ ∧ _
  obtain ⟨⟨form⟩, eq⟩ := x
  cases form <;> cases eq <;>
    simp_all [decodeCap, plainOk, modsOk, fieldsOf, Fields.absentZero, Fields.clear, Fields.mods]

theorem readsBack_cmov (x : CmovArgs) : ReadsBack (.cmov x) := by
  intro f hwf henc
  cases henc
  change plainOk _ = true at hwf
  show decodeCap _ = _ ∧ _
  obtain ⟨⟨form⟩⟩ := x
  cases form <;>
    simp_all [decodeCap, plainOk, modsOk, fieldsOf, Fields.absentZero, Fields.clear, Fields.mods]

theorem readsBack_vmode (x : VmodeArgs) : ReadsBack (.vmode x) := by
  intro f hwf henc
  cases henc
  change extOk _ = true at hwf
  show decodeVcfg _ = _ ∧ _
  obtain ⟨⟨form⟩, long⟩ := x
  cases long <;>
    simp_all [decodeVcfg, extOk, fieldsOf, Fields.absentZero, Fields.clear, Fields.mods]

theorem readsBack_setvl (x : SetvlArgs) : ReadsBack (.setvl x) := by
  intro f hwf henc
  cases henc
  change (extOk _ && _) = true at hwf
  show decodeVcfg _ = _ ∧ _
  obtain ⟨⟨form⟩⟩ := x
  simp_all [decodeVcfg, extOk, fieldsOf, Fields.absentZero, Fields.clear, Fields.mods, guard_bind]

/-! ### The vector-queue instructions -/

theorem readsBack_vbinSat (x : VBinArgs) : ∀ i ∈ [Instr.vadd x, .vsub x, .vmul x, .vshl x], ReadsBack i := by
  simp only [List.forall_mem_cons]
  refine ⟨?_, ?_, ?_, ?_, fun _ h => nomatch h⟩ <;>
  · intro f hwf henc
    cases henc
    change vbinOk _ _ _ = true at hwf
    show decodeVialu (encVBin _ _) = _ ∧ _
    obtain ⟨⟨form⟩⟩ := x
    simp_all [decodeVialu, vbinOk, extOk, Fields.zf_eq_readZf, encVBin, fieldsOf, Fields.absentZero, Fields.clear,
      Fields.mods, guard_bind]

theorem readsBack_vbin (x : VBinArgs) :
    ∀ i ∈ [Instr.vmulh x, .vand x, .vor x, .vxor x, .vandn x, .vshr x, .vsar x, .vmin x, .vmax x], ReadsBack i := by
  simp only [List.forall_mem_cons]
  refine ⟨?_, ?_, ?_, ?_, ?_, ?_, ?_, ?_, ?_, fun _ h => nomatch h⟩ <;>
  · intro f hwf henc
    cases henc
    change vbinOk _ _ _ = true at hwf
    show decodeVialu (encVBin _ _) = _ ∧ _
    obtain ⟨⟨form⟩⟩ := x
    simp_all [decodeVialu, vbinOk, extOk, Fields.zf_eq_readZf, encVBin, fieldsOf, Fields.absentZero, Fields.clear,
      Fields.mods, guard_bind]

theorem readsBack_vun (x : VUnArgs) : ∀ i ∈ [Instr.vabs x, .vneg x], ReadsBack i := by
  simp only [List.forall_mem_cons]
  refine ⟨?_, ?_, fun _ h => nomatch h⟩ <;>
  · intro f hwf henc
    cases henc
    change vunOk _ = true at hwf
    show decodeVialu _ = _ ∧ _
    obtain ⟨⟨form⟩⟩ := x
    simp_all [decodeVialu, vunOk, extOk, Fields.zf_eq_readZf, encVUn, fieldsOf, Fields.absentZero, Fields.clear,
      Fields.mods, guard_bind]

theorem readsBack_vmacc (x : VBinArgs) : ReadsBack (.vmacc x) := by
  intro f hwf henc
  cases henc
  change (extOk _ && _) = true at hwf
  show decodeVialu _ = _ ∧ _
  obtain ⟨⟨form⟩⟩ := x
  simp_all [decodeVialu, extOk, Fields.zf_eq_readZf, encVBin, fieldsOf, Fields.absentZero, Fields.clear,
    Fields.mods, guard_bind]

theorem readsBack_vsat (x : VSatArgs) : ReadsBack (.vsat x) := by
  intro f hwf henc
  cases henc
  change (extOk _ && _ && _ && _) = true at hwf
  show decodeVialu _ = _ ∧ _
  obtain ⟨⟨form⟩, zf, ty, d, a, k⟩ := x
  have hlt : k.toNat < 2097152 := lt_trans k.isLt (by decide)
  simp_all [Nat.mod_eq_of_lt hlt, decodeVialu, extOk, Fields.zf_eq_readZf, fieldsOf, Fields.absentZero, Fields.clear,
    Fields.mods,
    guard_bind]

theorem readsBack_vsel (x : VSelArgs) : ReadsBack (.vsel x) := by
  intro f hwf henc
  cases henc
  change (extOk _ && _) = true at hwf
  show decodeVialu _ = _ ∧ _
  obtain ⟨⟨form⟩⟩ := x
  simp_all [decodeVialu, extOk, Fields.zf_eq_readZf, fieldsOf, Fields.absentZero, Fields.clear, Fields.mods,
    guard_bind]

theorem readsBack_vfbin (x : VfBinArgs) : ∀ i ∈ [Instr.vfadd x, .vfsub x, .vfmul x, .vfdiv x], ReadsBack i := by
  simp only [List.forall_mem_cons]
  refine ⟨?_, ?_, ?_, ?_, fun _ h => nomatch h⟩ <;>
  · intro f hwf henc
    cases henc
    change vfbinOk _ _ = true at hwf
    show decodeVfalu (encVfBin _ _) = _ ∧ _
    simp only [vfbinOk, Bool.and_eq_true] at hwf
    obtain ⟨⟨hext, hwid⟩, hwide⟩ := hwf
    obtain ⟨⟨form⟩⟩ := x
    simp_all [decodeVfalu, extOk, Fields.zf_eq_readZf, encVfBin, fieldsOf, Fields.absentZero, Fields.clear,
      Fields.mods, guard_bind]

theorem readsBack_vfTwo (x : VTwoArgs) : ∀ i ∈ [Instr.vfmin x, .vfmax x], ReadsBack i := by
  simp only [List.forall_mem_cons]
  refine ⟨?_, ?_, fun _ h => nomatch h⟩ <;>
  · intro f hwf henc
    cases henc
    change vfTyOk _ _ = true at hwf
    show decodeVfalu _ = _ ∧ _
    obtain ⟨⟨form⟩⟩ := x
    simp_all [decodeVfalu, vfTyOk, extOk, Fields.zf_eq_readZf, encVTwo, fieldsOf, Fields.absentZero, Fields.clear,
      Fields.mods, guard_bind]

theorem readsBack_vfOne (x : VOneArgs) : ∀ i ∈ [Instr.vfabs x, .vfneg x], ReadsBack i := by
  simp only [List.forall_mem_cons]
  refine ⟨?_, ?_, fun _ h => nomatch h⟩ <;>
  · intro f hwf henc
    cases henc
    change vfTyOk _ _ = true at hwf
    show decodeVfalu _ = _ ∧ _
    obtain ⟨⟨form⟩⟩ := x
    simp_all [decodeVfalu, vfTyOk, extOk, Fields.zf_eq_readZf, encVOne, fieldsOf, Fields.absentZero, Fields.clear,
      Fields.mods, guard_bind]

theorem readsBack_vfOne32 (x : VOneArgs) : ∀ i ∈ [Instr.vfrsq x, .vfexp2 x], ReadsBack i := by
  simp only [List.forall_mem_cons]
  refine ⟨?_, ?_, fun _ h => nomatch h⟩ <;>
  · intro f hwf henc
    cases henc
    change (extOk _ && _) = true at hwf
    show decodeVfalu _ = _ ∧ _
    obtain ⟨⟨form⟩⟩ := x
    simp_all [decodeVfalu, extOk, Fields.zf_eq_readZf, encVOne, Ty.isFp, fieldsOf, Fields.absentZero, Fields.clear,
      Fields.mods, guard_bind]

theorem readsBack_vfsqrt (x : VfUnArgs) : ReadsBack (.vfsqrt x) := by
  intro f hwf henc
  cases henc
  change vfTyOk _ _ = true at hwf
  show decodeVfalu _ = _ ∧ _
  obtain ⟨⟨form⟩⟩ := x
  simp_all [decodeVfalu, vfTyOk, extOk, Fields.zf_eq_readZf, fieldsOf, Fields.absentZero, Fields.clear, Fields.mods,
    guard_bind]

theorem readsBack_vfma (x : VfmaArgs) : ∀ i ∈ [Instr.vfma x, .vfms x, .vfnma x, .vfnms x], ReadsBack i := by
  simp only [List.forall_mem_cons]
  refine ⟨?_, ?_, ?_, ?_, fun _ h => nomatch h⟩ <;>
  · intro f hwf henc
    cases henc
    change vfmaOk _ = true at hwf
    show decodeVfma _ = _ ∧ _
    obtain ⟨⟨form⟩⟩ := x
    simp_all [decodeVfma, vfmaOk, extOk, Fields.zf_eq_readZf, encVfma, fieldsOf, Fields.absentZero, Fields.clear,
      Fields.mods, guard_bind]

theorem readsBack_vcmp (x : VcmpArgs) : ReadsBack (.vcmp x) := by
  intro f hwf henc
  cases henc
  change (extOk _ && _) = true at hwf
  show decodeVcmp _ = _ ∧ _
  obtain ⟨⟨form⟩⟩ := x
  simp_all [decodeVcmp, extOk, Fields.zf_eq_readZf, fieldsOf, Fields.absentZero, Fields.clear, Fields.mods,
    guard_bind]

theorem readsBack_vfcmp (x : VfcmpArgs) : ReadsBack (.vfcmp x) := by
  intro f hwf henc
  cases henc
  change (extOk _ && _) = true at hwf
  show decodeVfcmp _ = _ ∧ _
  obtain ⟨⟨form⟩⟩ := x
  simp_all [decodeVfcmp, extOk, Fields.zf_eq_readZf, fieldsOf, Fields.absentZero, Fields.clear, Fields.mods,
    guard_bind]

theorem readsBack_pTwo (x : PTwoArgs) : ∀ i ∈ [Instr.pand x, .por x, .pxor x], ReadsBack i := by
  simp only [List.forall_mem_cons]
  refine ⟨?_, ?_, ?_, fun _ h => nomatch h⟩ <;>
  · intro f hwf henc
    cases henc
    change extOk _ = true at hwf
    show decodePred _ = _ ∧ _
    obtain ⟨⟨form⟩⟩ := x
    simp_all [decodePred, extOk, Fields.zf_eq_readZf, encPTwo, fieldsOf, Fields.absentZero, Fields.clear,
      Fields.mods]

theorem readsBack_pOne (x : POneArgs) : ∀ i ∈ [Instr.pnot x, .pfirst x, .vexit x], ReadsBack i := by
  simp only [List.forall_mem_cons]
  refine ⟨?_, ?_, ?_, fun _ h => nomatch h⟩ <;>
  · intro f hwf henc
    cases henc
    change extOk _ = true at hwf
    show decodePred _ = _ ∧ _
    obtain ⟨⟨form⟩⟩ := x
    simp_all [decodePred, extOk, Fields.zf_eq_readZf, encPOne, fieldsOf, Fields.absentZero, Fields.clear,
      Fields.mods]

theorem readsBack_pcount (x : PcountArgs) : ReadsBack (.pcount x) := by
  intro f hwf henc
  cases henc
  change extOk _ = true at hwf
  show decodePred _ = _ ∧ _
  obtain ⟨⟨form⟩⟩ := x
  simp_all [decodePred, extOk, fieldsOf, Fields.absentZero, Fields.clear, Fields.mods]

theorem readsBack_permTwo (x : VTwoArgs) : ∀ i ∈ [Instr.vperm x, .vzip x], ReadsBack i := by
  simp only [List.forall_mem_cons]
  refine ⟨?_, ?_, fun _ h => nomatch h⟩ <;>
  · intro f hwf henc
    cases henc
    change permOk _ _ = true at hwf
    show decodePerm _ = _ ∧ _
    obtain ⟨⟨form⟩⟩ := x
    simp_all [decodePerm, permOk, extOk, Fields.zf_eq_readZf, encVTwo, fieldsOf, Fields.absentZero, Fields.clear,
      Fields.mods, guard_bind]

theorem readsBack_slide (x : VSlideArgs) : ∀ i ∈ [Instr.vslideUp x, .vslideDn x], ReadsBack i := by
  simp only [List.forall_mem_cons]
  refine ⟨?_, ?_, fun _ h => nomatch h⟩ <;>
  · intro f hwf henc
    cases henc
    change permOk _ _ = true at hwf
    show decodePerm _ = _ ∧ _
    obtain ⟨⟨form⟩⟩ := x
    simp_all [decodePerm, permOk, extOk, Fields.zf_eq_readZf, encVSlide, fieldsOf, Fields.absentZero, Fields.clear,
      Fields.mods, guard_bind]

theorem readsBack_vbcast (x : VBcastArgs) : ReadsBack (.vbcast x) := by
  intro f hwf henc
  cases henc
  change permOk _ _ = true at hwf
  show decodePerm _ = _ ∧ _
  obtain ⟨⟨form⟩⟩ := x
  simp_all [decodePerm, permOk, extOk, Fields.zf_eq_readZf, fieldsOf, Fields.absentZero, Fields.clear, Fields.mods,
    guard_bind]

theorem readsBack_permOne (x : VOneArgs) : ∀ i ∈ [Instr.vcompress x, .vexpand x], ReadsBack i := by
  simp only [List.forall_mem_cons]
  refine ⟨?_, ?_, fun _ h => nomatch h⟩ <;>
  · intro f hwf henc
    cases henc
    change permOk _ _ = true at hwf
    show decodePerm _ = _ ∧ _
    obtain ⟨⟨form⟩⟩ := x
    simp_all [decodePerm, permOk, extOk, Fields.zf_eq_readZf, encVOne, fieldsOf, Fields.absentZero, Fields.clear,
      Fields.mods, guard_bind]

theorem readsBack_vunzip (x : VUnzipArgs) : ReadsBack (.vunzip x) := by
  intro f hwf henc
  cases henc
  change permOk _ _ = true at hwf
  show decodePerm _ = _ ∧ _
  obtain ⟨⟨form⟩, zf, ty, d, a, b, k⟩ := x
  cases k <;>
    simp_all [decodePerm, permOk, extOk, Fields.zf_eq_readZf, fieldsOf, Fields.absentZero, Fields.clear, Fields.mods,
    guard_bind]

theorem readsBack_vred (x : VRedArgs) : ReadsBack (.vred x) := by
  intro f hwf henc
  cases henc
  change redOk _ _ _ _ _ _ = true at hwf
  show decodeVred _ = _ ∧ _
  obtain ⟨⟨form⟩⟩ := x
  simp_all [decodeVred, redOk, extOk, fieldsOf, Fields.absentZero, Fields.clear, Fields.mods, guard_bind]

theorem readsBack_vscan (x : VScanArgs) : ReadsBack (.vscan x) := by
  intro f hwf henc
  cases henc
  change redOk _ _ _ _ _ _ = true at hwf
  show decodeVscan _ = _ ∧ _
  have hflags := twoFlags_reads x.carry x.excl
  obtain ⟨⟨form⟩⟩ := x
  simp_all [decodeVscan, redOk, extOk, Fields.zf_eq_readZf, fieldsOf, Fields.absentZero, Fields.clear, Fields.mods,
    guard_bind]

theorem readsBack_wsh (x : VSlideArgs) : ∀ i ∈ [Instr.vshlw x, .vshrw x], ReadsBack i := by
  simp only [List.forall_mem_cons]
  refine ⟨?_, ?_, fun _ h => nomatch h⟩ <;>
  · intro f hwf henc
    cases henc
    change wshOk _ _ = true at hwf
    show decodeWshift _ = _ ∧ _
    obtain ⟨⟨form⟩⟩ := x
    simp_all [decodeWshift, wshOk, extOk, Fields.zf_eq_readZf, encVSlide, fieldsOf, Fields.absentZero, Fields.clear,
      Fields.mods, guard_bind]

theorem readsBack_vfsh (x : VFshArgs) : ∀ i ∈ [Instr.vfshlw x, .vfshrw x], ReadsBack i := by
  simp only [List.forall_mem_cons]
  refine ⟨?_, ?_, fun _ h => nomatch h⟩ <;>
  · intro f hwf henc
    cases henc
    change wshOk _ _ = true at hwf
    show decodeWshift _ = _ ∧ _
    obtain ⟨⟨form⟩⟩ := x
    simp_all [decodeWshift, wshOk, extOk, Fields.zf_eq_readZf, encVFsh, fieldsOf, Fields.absentZero, Fields.clear,
      Fields.mods, guard_bind]

theorem readsBack_vload (x : VMemArgs) : ∀ i ∈ [Instr.vld x, .vlds x, .vldff x], ReadsBack i := by
  simp only [List.forall_mem_cons]
  refine ⟨?_, ?_, ?_, fun _ h => nomatch h⟩ <;>
  · intro f hwf henc
    cases henc
    change permOk _ _ = true at hwf
    show decodeVload _ = _ ∧ _
    obtain ⟨⟨form⟩⟩ := x
    simp_all [decodeVload, decodeVmem, permOk, extOk, Fields.zf_eq_readZf, encVMem, fieldsOf, Fields.absentZero,
      Fields.clear, Fields.mods, guard_bind]

theorem readsBack_vldx (x : VMemXArgs) : ReadsBack (.vldx x) := by
  intro f hwf henc
  cases henc
  change permOk _ _ = true at hwf
  show decodeVload _ = _ ∧ _
  obtain ⟨⟨form⟩⟩ := x
  simp_all [decodeVload, decodeVmemX, permOk, extOk, Fields.zf_eq_readZf, encVMemX, fieldsOf, Fields.absentZero,
    Fields.clear, Fields.mods, guard_bind]

theorem readsBack_vldseg (x : VSegArgs) : ReadsBack (.vldseg x) := by
  intro f hwf henc
  cases henc
  change vsegOk _ _ = true at hwf
  show decodeVload _ = _ ∧ _
  obtain ⟨⟨form⟩⟩ := x
  simp_all [decodeVload, decodeVseg, vsegOk, extOk, Fields.zf_eq_readZf, encVSeg, fieldsOf, Fields.absentZero,
    Fields.clear, Fields.mods, guard_bind]

theorem readsBack_vstore (x : VMemArgs) : ∀ i ∈ [Instr.vst x, .vsts x], ReadsBack i := by
  simp only [List.forall_mem_cons]
  refine ⟨?_, ?_, fun _ h => nomatch h⟩ <;>
  · intro f hwf henc
    cases henc
    change (permOk _ _ && zfOk _ _) = true at hwf
    show decodeVstore _ = _ ∧ _
    obtain ⟨⟨form⟩⟩ := x
    simp_all [decodeVstore, decodeVmem, permOk, zfOk, extOk, Fields.zf_eq_readZf, encVMem, fieldsOf,
      Fields.absentZero, Fields.clear, Fields.mods, guard_bind]

theorem readsBack_vstx (x : VMemXArgs) : ReadsBack (.vstx x) := by
  intro f hwf henc
  cases henc
  change (permOk _ _ && zfOk _ _) = true at hwf
  show decodeVstore _ = _ ∧ _
  obtain ⟨⟨form⟩⟩ := x
  simp_all [decodeVstore, decodeVmemX, permOk, zfOk, extOk, Fields.zf_eq_readZf, encVMemX, fieldsOf,
    Fields.absentZero, Fields.clear, Fields.mods, guard_bind]

theorem readsBack_vstseg (x : VSegArgs) : ReadsBack (.vstseg x) := by
  intro f hwf henc
  cases henc
  change vsegOk _ _ = true at hwf
  show decodeVstore _ = _ ∧ _
  obtain ⟨⟨form⟩⟩ := x
  simp_all [decodeVstore, decodeVseg, vsegOk, zfOk, extOk, Fields.zf_eq_readZf, encVSeg, fieldsOf,
    Fields.absentZero, Fields.clear, Fields.mods, guard_bind]

theorem readsBack_vcvt (x : VcvtArgs) : ReadsBack (.vcvt x) := by
  intro f hwf henc
  cases henc
  change (extOk _ && _ && srOk _ _ _ && _) = true at hwf
  show decodeVconv _ = _ ∧ _
  obtain ⟨⟨form⟩⟩ := x
  simp_all [decodeVconv, srOk, extOk, fieldsOf, Fields.absentZero, Fields.clear, Fields.mods, guard_bind]

theorem readsBack_vquant (x : VquantArgs) : ReadsBack (.vquant x) := by
  intro f hwf henc
  cases henc
  change (extOk _ && _ && _ && srOk _ _ _ && _) = true at hwf
  show decodeVconv _ = _ ∧ _
  obtain ⟨⟨form⟩⟩ := x
  simp_all [decodeVconv, srOk, extOk, encVquant, fieldsOf, Fields.absentZero, Fields.clear, Fields.mods, guard_bind]

theorem readsBack_vdequant (x : VquantArgs) : ReadsBack (.vdequant x) := by
  intro f hwf henc
  cases henc
  change (extOk _ && _ && _ && srOk _ _ _) = true at hwf
  show decodeVconv _ = _ ∧ _
  obtain ⟨⟨form⟩⟩ := x
  simp_all [decodeVconv, srOk, extOk, encVquant, fieldsOf, Fields.absentZero, Fields.clear, Fields.mods, guard_bind]

theorem readsBack_vbind (x : VbindArgs) : ReadsBack (.vbind x) := by
  intro f hwf henc
  cases henc
  change extOk _ = true at hwf
  show decodeStream _ = _ ∧ _
  obtain ⟨⟨form⟩⟩ := x
  simp_all [decodeStream, extOk, fieldsOf, Fields.absentZero, Fields.clear, Fields.mods]

theorem readsBack_vunbind (x : VunbindArgs) : ReadsBack (.vunbind x) := by
  intro f hwf henc
  cases henc
  change extOk _ = true at hwf
  show decodeStream _ = _ ∧ _
  obtain ⟨⟨form⟩⟩ := x
  simp_all [decodeStream, extOk, fieldsOf, Fields.absentZero, Fields.clear, Fields.mods]

/-! ### Matrix instructions -/

theorem readsBack_mldt (x : MldtArgs) : ∀ i ∈ [Instr.mldt x, .mldtT x], ReadsBack i := by
  simp only [List.forall_mem_cons]
  refine ⟨?_, ?_, fun _ h => nomatch h⟩ <;>
  · intro f hwf henc
    cases henc
    change mldtOk _ = true at hwf
    obtain ⟨⟨form⟩⟩ := x
    simp_all [decodeFields, decodeMatrix, decodeMldt, mldtOk, extOk, encMldt, fieldsOf, Fields.absentZero, Fields.clear,
      Fields.mods, guard_bind]

theorem readsBack_mrow (x : MrowArgs) : ∀ i ∈ [Instr.mrow x, .mrowa x], ReadsBack i := by
  simp only [List.forall_mem_cons]
  refine ⟨?_, ?_, fun _ h => nomatch h⟩ <;>
  · intro f hwf henc
    cases henc
    change mrowOk _ _ = true at hwf
    obtain ⟨⟨form⟩⟩ := x
    simp_all [decodeFields, decodeMatrix, decodeMrow, mrowOk, extOk, encMrow, or_comm, fieldsOf, Fields.absentZero,
      Fields.clear,
      Fields.mods, guard_bind]

theorem readsBack_mzero (x : MzeroArgs) : ReadsBack (.mzero x) := by
  intro f hwf henc
  cases henc
  change extOk _ = true at hwf
  obtain ⟨⟨form⟩, int, mask⟩ := x
  have hlt : mask.toNat % 2097152 < 256 := lt_of_le_of_lt (Nat.mod_le ..) mask.isLt
  cases int <;>
    simp_all [decodeFields, decodeMatrix, extOk, fieldsOf, Fields.absentZero, Fields.clear, Fields.mods, guard_bind]

theorem readsBack_mswap (x : MArgs) : ReadsBack (.mswap x) := by
  intro f hwf henc
  cases henc
  change extOk _ = true at hwf
  obtain ⟨⟨form⟩⟩ := x
  simp_all [decodeFields, decodeMatrix, extOk, fieldsOf, Fields.absentZero, Fields.clear, Fields.mods]

theorem readsBack_mchain (x : MchainArgs) : ReadsBack (.mchain x) := by
  intro f hwf henc
  cases henc
  change (_ && litOk _ _ _) = true at hwf
  obtain ⟨⟨form⟩, b, lit⟩ := x
  cases form <;> cases lit <;>
    simp_all [decodeFields, decodeMatrix, litOk, Fields.litB, Fields.literal, fieldsOf, Fields.absentZero, Fields.clear,
      Fields.mods]

theorem readsBack_mtbl (x : MtblArgs) : ReadsBack (.mtbl x) := by
  intro f hwf henc
  cases henc
  change extOk _ = true at hwf
  obtain ⟨⟨form⟩⟩ := x
  simp_all [decodeFields, decodeMatrix, extOk, fieldsOf, Fields.absentZero, Fields.clear, Fields.mods]

theorem readsBack_mdrain (x : MdrainArgs) : ReadsBack (.mdrain x) := by
  intro f hwf henc
  cases henc
  change (extOk _ && _) = true at hwf
  obtain ⟨⟨form⟩⟩ := x
  simp_all [decodeFields, decodeMatrix, extOk, Fields.zf_eq_readZf, fieldsOf, Fields.absentZero, Fields.clear,
    Fields.mods,
    guard_bind]

/-! ### Engines, tasks, troupes, speculation, loops, deferral -/

theorem readsBack_epush (x : EpushArgs) : ReadsBack (.epush x) := by
  intro f hwf henc
  cases henc
  change (modsOk _ && immOk _ _ && _ && litOk _ _ _) = true at hwf
  obtain ⟨⟨form⟩, d, a, b, c, stride, lit⟩ := x
  cases form <;> cases lit <;>
    simp_all [decodeFields, decodeEngine, modsOk, immOk, litOk, Fields.litB, Fields.literal, fieldsOf,
      Fields.absentZero,
      Fields.clear, Fields.mods]

theorem readsBack_epop (x : EpopArgs) : ∀ i ∈ [Instr.epop x, .epopNw x, .eqstat x], ReadsBack i := by
  simp only [List.forall_mem_cons]
  refine ⟨?_, ?_, ?_, fun _ h => nomatch h⟩ <;>
  · intro f hwf henc
    cases henc
    change (plainOk _ && _) = true at hwf
    obtain ⟨⟨form⟩⟩ := x
    cases form <;>
      simp_all [decodeFields, decodeEngine, plainOk, modsOk, encEpop, fieldsOf, Fields.absentZero, Fields.clear,
        Fields.mods]

theorem readsBack_evpop (x : MdArgs) : ∀ i ∈ [Instr.evpop x, .evpopNw x], ReadsBack i := by
  simp only [List.forall_mem_cons]
  refine ⟨?_, ?_, fun _ h => nomatch h⟩ <;>
  · intro f hwf henc
    cases henc
    change (plainOk _ && dIn _ _ _) = true at hwf
    obtain ⟨⟨form⟩⟩ := x
    cases form <;>
      simp_all [decodeFields, decodeEngine, plainOk, modsOk, dIn, encMd, fieldsOf, Fields.absentZero, Fields.clear,
        Fields.mods]

theorem readsBack_dpush (x : DpushArgs) : ReadsBack (.dpush x) := by
  intro f hwf henc
  cases henc
  change (plainOk _ && immOk _ _) = true at hwf
  obtain ⟨⟨form⟩⟩ := x
  cases form <;>
    simp_all [decodeFields, decodeTask, plainOk, modsOk, immOk, fieldsOf, Fields.absentZero, Fields.clear, Fields.mods]

theorem readsBack_dpop (x : MdArgs) : ReadsBack (.dpop x) := by
  intro f hwf henc
  cases henc
  change (plainOk _ && dIn _ _ _) = true at hwf
  obtain ⟨⟨form⟩⟩ := x
  cases form <;>
    simp_all [decodeFields, decodeTask, plainOk, modsOk, dIn, encMd, fieldsOf, Fields.absentZero, Fields.clear,
      Fields.mods]

theorem readsBack_dsteal (x : MdaArgs) : ReadsBack (.dsteal x) := by
  intro f hwf henc
  cases henc
  change (plainOk _ && dIn _ _ _) = true at hwf
  obtain ⟨⟨form⟩⟩ := x
  cases form <;>
    simp_all [decodeFields, decodeTask, plainOk, modsOk, dIn, encMda, fieldsOf, Fields.absentZero, Fields.clear,
      Fields.mods]

theorem readsBack_lpatch (x : LpatchArgs) : ReadsBack (.lpatch x) := by
  intro f hwf henc
  cases henc
  change (modsOk _ && immOk _ _ && litOk _ _ _) = true at hwf
  obtain ⟨⟨form⟩, d, a, b, k, lit⟩ := x
  cases form <;> cases lit <;>
    simp_all [decodeFields, decodeTask, modsOk, immOk, litOk, Fields.litB, Fields.literal, fieldsOf, Fields.absentZero,
      Fields.clear, Fields.mods]

theorem readsBack_larm (x : LarmArgs) : ∀ i ∈ [Instr.larmPlace x, .larmArm x, .larmDisarm x], ReadsBack i := by
  simp only [List.forall_mem_cons]
  refine ⟨?_, ?_, ?_, fun _ h => nomatch h⟩ <;>
  · intro f hwf henc
    cases henc
    change (plainOk _ && immOk _ _) = true at hwf
    obtain ⟨⟨form⟩⟩ := x
    cases form <;>
      simp_all [decodeFields, decodeTask, plainOk, modsOk, immOk, encLarm, fieldsOf, Fields.absentZero, Fields.clear,
        Fields.mods]

theorem readsBack_tfork (x : TforkArgs) : ReadsBack (.tfork x) := by
  intro f hwf henc
  cases henc
  change (extOk _ && dIn _ _ _) = true at hwf
  obtain ⟨⟨form⟩⟩ := x
  simp_all [decodeFields, decodeTroupe, extOk, dIn, fieldsOf, Fields.absentZero, Fields.clear, Fields.mods]

theorem readsBack_treward (x : MdaArgs) : ReadsBack (.treward x) := by
  intro f hwf henc
  cases henc
  change plainOk _ = true at hwf
  obtain ⟨⟨form⟩⟩ := x
  cases form <;>
    simp_all [decodeFields, decodeTroupe, plainOk, modsOk, encMda, fieldsOf, Fields.absentZero, Fields.clear,
      Fields.mods]

theorem readsBack_tbar (x : MdArgs) : ReadsBack (.tbar x) := by
  intro f hwf henc
  cases henc
  change (plainOk _ && dIn _ _ _) = true at hwf
  obtain ⟨⟨form⟩⟩ := x
  cases form <;>
    simp_all [decodeFields, decodeTroupe, plainOk, modsOk, dIn, encMd, fieldsOf, Fields.absentZero, Fields.clear,
      Fields.mods]

theorem readsBack_tcancel (x : MdabArgs) : ReadsBack (.tcancel x) := by
  intro f hwf henc
  cases henc
  change plainOk _ = true at hwf
  obtain ⟨⟨form⟩⟩ := x
  cases form <;>
    simp_all [decodeFields, decodeTroupe, plainOk, modsOk, encMdab, fieldsOf, Fields.absentZero, Fields.clear,
      Fields.mods]

theorem readsBack_tadv (x : MdabArgs) : ReadsBack (.tadv x) := by
  intro f hwf henc
  cases henc
  change (plainOk _ && dIn _ _ _) = true at hwf
  obtain ⟨⟨form⟩⟩ := x
  cases form <;>
    simp_all [decodeFields, decodeTroupe, plainOk, modsOk, dIn, encMdab, fieldsOf, Fields.absentZero, Fields.clear,
      Fields.mods]

theorem readsBack_tadvNw (x : MdabArgs) : ReadsBack (.tadvNw x) := by
  intro f hwf henc
  cases henc
  change (extOk _ && dIn _ _ _) = true at hwf
  obtain ⟨⟨form⟩⟩ := x
  simp_all [decodeFields, decodeTroupe, extOk, dIn, encMdab, fieldsOf, Fields.absentZero, Fields.clear, Fields.mods]

theorem readsBack_sspawn (x : SspawnArgs) : ReadsBack (.sspawn x) := by
  intro f hwf henc
  cases henc
  change (extOk _ && dIn _ _ _) = true at hwf
  obtain ⟨⟨form⟩, side⟩ := x
  cases side <;>
    simp_all [decodeFields, decodeSpec, extOk, dIn, fieldsOf, Fields.absentZero, Fields.clear, Fields.mods]

theorem readsBack_sresolve (x : SresolveArgs) : ReadsBack (.sresolve x) := by
  intro f hwf henc
  cases henc
  change plainOk _ = true at hwf
  obtain ⟨⟨form⟩⟩ := x
  cases form <;>
    simp_all [decodeFields, decodeSpec, plainOk, modsOk, fieldsOf, Fields.absentZero, Fields.clear, Fields.mods]

theorem readsBack_sresolveFree (x : SCondArgs) : ReadsBack (.sresolveFree x) := by
  intro f hwf henc
  cases henc
  change extOk _ = true at hwf
  obtain ⟨⟨form⟩⟩ := x
  simp_all [decodeFields, decodeSpec, extOk, fieldsOf, Fields.absentZero, Fields.clear, Fields.mods]

theorem readsBack_slk (x : MdArgs) : ReadsBack (.slk x) := by
  intro f hwf henc
  cases henc
  change plainOk _ = true at hwf
  obtain ⟨⟨form⟩⟩ := x
  cases form <;>
    simp_all [decodeFields, decodeSpec, plainOk, modsOk, encMd, fieldsOf, Fields.absentZero, Fields.clear, Fields.mods]

theorem readsBack_slkSeg (x : MdaArgs) : ReadsBack (.slkSeg x) := by
  intro f hwf henc
  cases henc
  change plainOk _ = true at hwf
  obtain ⟨⟨form⟩⟩ := x
  cases form <;>
    simp_all [decodeFields, decodeSpec, plainOk, modsOk, encMda, fieldsOf, Fields.absentZero, Fields.clear, Fields.mods]

theorem readsBack_slkCond (x : SCondArgs) : ReadsBack (.slkCond x) := by
  intro f hwf henc
  cases henc
  change plainOk _ = true at hwf
  obtain ⟨⟨form⟩⟩ := x
  cases form <;>
    simp_all [decodeFields, decodeSpec, plainOk, modsOk, fieldsOf, Fields.absentZero, Fields.clear, Fields.mods]

theorem readsBack_clset (x : ClsetArgs) : ReadsBack (.clset x) := by
  intro f hwf henc
  cases henc
  change (modsOk _ && litOk _ _ _ && (_ || (_ == 0 && _ && _)) && _) = true at hwf
  obtain ⟨⟨form⟩, level, d, a, b, cnt, str, lit⟩ := x
  have hlevel : (regField level).toNat = level.val := Nat.mod_eq_of_lt (by omega)
  cases form <;> cases lit <;>
    simp_all [decodeFields, decodeLoop, modsOk, litOk, Fields.litB, Fields.literal, fieldsOf, Fields.absentZero,
      Fields.clear, Fields.mods, clsetImm_fields]

theorem readsBack_clrun (x : ClrunArgs) : ReadsBack (.clrun x) := by
  intro f hwf henc
  cases henc
  change (plainOk _ && decide _ && decide _) = true at hwf
  obtain ⟨⟨form⟩, n⟩ := x
  have hlt : n.toNat < 2097152 := lt_trans n.isLt (by decide)
  cases form <;>
    simp_all [decodeFields, decodeLoop, plainOk, modsOk, fieldsOf, Fields.absentZero, Fields.clear, Fields.mods,
      toNat_append_clrunFields, Nat.mod_eq_of_lt]

theorem readsBack_vdefer (x : VdeferArgs) : ReadsBack (.vdefer x) := by
  intro f hwf henc
  cases henc
  change (extOk _ && _) = true at hwf
  obtain ⟨⟨form⟩, ty, p, k, a, b⟩ := x
  obtain ⟨hhigh, hpoint, hkind⟩ := encDefer_fields p k
  simp_all [decodeFields, decodeDefer, extOk, fieldsOf, Fields.absentZero, Fields.clear, Fields.mods, guard_bind]

theorem readsBack_vdrain (x : VdrainArgs) : ReadsBack (.vdrain x) := by
  intro f hwf henc
  cases henc
  change (extOk _ && _) = true at hwf
  obtain ⟨⟨form⟩, ty, p, k, d, a, b⟩ := x
  obtain ⟨hhigh, hpoint, hkind⟩ := encDefer_fields p k
  simp_all [decodeFields, decodeDefer, extOk, fieldsOf, Fields.absentZero, Fields.clear, Fields.mods, guard_bind]

/-- Every instruction with fields reads back from them; the constructors that remain have no fields. -/
theorem readsBack (i : Instr) : ReadsBack i := by
  cases i with
  | add x | sub x | mul x | div x | shl x => exact readsBack_saluSat x _ (by simp)
  | mulh x | rem x | and x | or x | xor x | andn x | shr x | sar x | rot x | min x | max x | bext x | bdep x =>
    exact readsBack_salu x _ (by simp)
  | clz x | ctz x | popc x => exact readsBack_saluUn x _ (by simp)
  | b x | call x => exact readsBack_b x _ (by simp)
  | jmp x | jmpCall x => exact readsBack_jmp x _ (by simp)
  | halt x | yieldCore x => exact readsBack_halt x _ (by simp)
  | ld x | st x => exact readsBack_ld x _ (by simp)
  | ldc x | stc x => exact readsBack_ldc x _ (by simp)
  | fenceSv x | fenceVs x | fenceVv x | fenceAll x => exact readsBack_fence x _ (by simp)
  | cbound x | cnarrow x | caddr x => exact readsBack_cap x _ (by simp)
  | vadd x | vsub x | vmul x | vshl x => exact readsBack_vbinSat x _ (by simp)
  | vmulh x | vand x | vor x | vxor x | vandn x | vshr x | vsar x | vmin x | vmax x =>
    exact readsBack_vbin x _ (by simp)
  | vabs x | vneg x => exact readsBack_vun x _ (by simp)
  | vfadd x | vfsub x | vfmul x | vfdiv x => exact readsBack_vfbin x _ (by simp)
  | vfmin x | vfmax x => exact readsBack_vfTwo x _ (by simp)
  | vfabs x | vfneg x => exact readsBack_vfOne x _ (by simp)
  | vfrsq x | vfexp2 x => exact readsBack_vfOne32 x _ (by simp)
  | vfma x | vfms x | vfnma x | vfnms x => exact readsBack_vfma x _ (by simp)
  | pand x | por x | pxor x => exact readsBack_pTwo x _ (by simp)
  | pnot x | pfirst x | vexit x => exact readsBack_pOne x _ (by simp)
  | vperm x | vzip x => exact readsBack_permTwo x _ (by simp)
  | vslideUp x | vslideDn x => exact readsBack_slide x _ (by simp)
  | vcompress x | vexpand x => exact readsBack_permOne x _ (by simp)
  | vshlw x | vshrw x => exact readsBack_wsh x _ (by simp)
  | vfshlw x | vfshrw x => exact readsBack_vfsh x _ (by simp)
  | vld x | vlds x | vldff x => exact readsBack_vload x _ (by simp)
  | vst x | vsts x => exact readsBack_vstore x _ (by simp)
  | mldt x | mldtT x => exact readsBack_mldt x _ (by simp)
  | mrow x | mrowa x => exact readsBack_mrow x _ (by simp)
  | epop x | epopNw x | eqstat x => exact readsBack_epop x _ (by simp)
  | evpop x | evpopNw x => exact readsBack_evpop x _ (by simp)
  | larmPlace x | larmArm x | larmDisarm x => exact readsBack_larm x _ (by simp)
  | sel x => exact readsBack_sel x
  | addi x => exact readsBack_addi x
  | cmp x => exact readsBack_cmp x
  | li x => exact readsBack_li x
  | bc x => exact readsBack_bc x
  | ret x => exact readsBack_ret x
  | callq x => exact readsBack_callq x
  | park x => exact readsBack_park x
  | amo x => exact readsBack_amo x
  | tfence x => exact readsBack_tfence x
  | cwb x => exact readsBack_cwb x
  | iinv x => exact readsBack_iinv x
  | ifence x => exact readsBack_ifence x
  | cinc x => exact readsBack_cinc x
  | cget x => exact readsBack_cget x
  | ctest x => exact readsBack_ctest x
  | cmov x => exact readsBack_cmov x
  | vmode x => exact readsBack_vmode x
  | setvl x => exact readsBack_setvl x
  | vmacc x => exact readsBack_vmacc x
  | vsat x => exact readsBack_vsat x
  | vsel x => exact readsBack_vsel x
  | vfsqrt x => exact readsBack_vfsqrt x
  | vcmp x => exact readsBack_vcmp x
  | vfcmp x => exact readsBack_vfcmp x
  | pcount x => exact readsBack_pcount x
  | vbcast x => exact readsBack_vbcast x
  | vunzip x => exact readsBack_vunzip x
  | vred x => exact readsBack_vred x
  | vscan x => exact readsBack_vscan x
  | vldx x => exact readsBack_vldx x
  | vldseg x => exact readsBack_vldseg x
  | vstx x => exact readsBack_vstx x
  | vstseg x => exact readsBack_vstseg x
  | vcvt x => exact readsBack_vcvt x
  | vquant x => exact readsBack_vquant x
  | vdequant x => exact readsBack_vdequant x
  | vbind x => exact readsBack_vbind x
  | vunbind x => exact readsBack_vunbind x
  | mzero x => exact readsBack_mzero x
  | mswap x => exact readsBack_mswap x
  | mchain x => exact readsBack_mchain x
  | mtbl x => exact readsBack_mtbl x
  | mdrain x => exact readsBack_mdrain x
  | epush x => exact readsBack_epush x
  | dpush x => exact readsBack_dpush x
  | dpop x => exact readsBack_dpop x
  | dsteal x => exact readsBack_dsteal x
  | lpatch x => exact readsBack_lpatch x
  | tfork x => exact readsBack_tfork x
  | treward x => exact readsBack_treward x
  | tbar x => exact readsBack_tbar x
  | tcancel x => exact readsBack_tcancel x
  | tadv x => exact readsBack_tadv x
  | tadvNw x => exact readsBack_tadvNw x
  | sspawn x => exact readsBack_sspawn x
  | sresolve x => exact readsBack_sresolve x
  | sresolveFree x => exact readsBack_sresolveFree x
  | slk x => exact readsBack_slk x
  | slkSeg x => exact readsBack_slkSeg x
  | slkCond x => exact readsBack_slkCond x
  | clset x => exact readsBack_clset x
  | clrun x => exact readsBack_clrun x
  | vdefer x => exact readsBack_vdefer x
  | vdrain x => exact readsBack_vdrain x
  | _ => intro f _ henc; cases henc

theorem encode_of_toFields {i : Instr} {f : Fields} (h : toFields i = some f) : encode i = f.words := by
  rw [encode, h]

/-- Settles O2: the fields of the words are the instruction's fields, and those decode to the instruction. -/
theorem nymzinRoundTrip : Obligations.NymzinRoundTrip := by
  intro i f after hwf henc
  obtain ⟨hdec, habs⟩ := readsBack i f hwf henc
  rw [encode_of_toFields henc, decodeWords, Fields.ofWords_words_append habs]
  exact hdec

end Sys2Proof

/-! # Instructions of one word: the roustabout extension, Lysyo and RV64IMAC -/

namespace Sys2Proof
open Sys2Proof.Machine

/-- Settles O1: each decoder evaluated on the words written out. -/
theorem wordsReadAsNamed : Obligations.WordsReadAsNamed := by
  unfold Obligations.WordsReadAsNamed
  exact ⟨rfl, rfl, rfl, rfl, rfl, rfl, rfl, rfl, rfl, rfl⟩

/-! ### Words of the roustabout extension (R71, R72) -/

theorem encQ_op (op f3 f7 : Nat) (x : QArgs) : (encQ op f3 f7 x).extractLsb' 0 7 = BitVec.ofNat 7 op :=
  BitVec.extractLsb'_append_eq_right

theorem encQ_funct3 (op f3 f7 : Nat) (x : QArgs) : (encQ op f3 f7 x).extractLsb' 12 3 = BitVec.ofNat 3 f3 := by
  simp only [encQ, BitVec.extractLsb'_append_eq_of_le, BitVec.extractLsb'_append_eq_of_add_le,
    BitVec.extractLsb'_eq_self, Nat.reduceLeDiff, Nat.reduceSub, le_refl, Nat.zero_add]

theorem encQ_funct7 (op f3 f7 : Nat) (x : QArgs) : (encQ op f3 f7 x).extractLsb' 25 7 = BitVec.ofNat 7 f7 := by
  simp only [encQ, BitVec.extractLsb'_append_eq_of_le,
    BitVec.extractLsb'_eq_self, Nat.reduceLeDiff, Nat.reduceSub, le_refl]

theorem encQ_registers (op f3 f7 : Nat) (x : QArgs) :
    xReg (encQ op f3 f7 x) 7 = x.rd ∧ xReg (encQ op f3 f7 x) 15 = x.rs1 ∧ xReg (encQ op f3 f7 x) 20 = x.rs2 := by
  simp only [xReg, xField, encQ, BitVec.extractLsb'_append_eq_of_le, BitVec.extractLsb'_append_eq_of_add_le,
    BitVec.extractLsb'_eq_self, Nat.reduceLeDiff, Nat.reduceSub, le_refl, Nat.zero_add, and_self]

theorem xField_xReg (w : Word32) (lo : Nat) : xField (xReg w lo) = w.extractLsb' lo 5 := rfl

/-- A word whose op and functs are given is the word of its registers. -/
theorem encQ_of_fields {w : Word32} {op f3 f7 : Nat} (hop : w.extractLsb' 0 7 = BitVec.ofNat 7 op)
    (h3 : w.extractLsb' 12 3 = BitVec.ofNat 3 f3) (h7 : w.extractLsb' 25 7 = BitVec.ofNat 7 f7) :
    encQ op f3 f7 { rd := xReg w 7, rs1 := xReg w 15, rs2 := xReg w 20 } = w := by
  simp +decide only [encQ, xField_xReg, ← hop, ← h3, ← h7, BitVec.extractLsb'_append_extractLsb'_eq_extractLsb']
  exact BitVec.extractLsb'_eq_self

theorem decodeQ_encodes {w : Word32} {i : Instr} (h : decodeQ w = some i) :
    wellFormed i = true ∧ encode i = [w] := by
  simp only [decodeQ] at h
  split at h
  case h_17 => cases h
  all_goals
    next hop h3 h7 =>
    obtain ⟨hok, rfl⟩ := Option.ite_some_none_eq_some.mp h
    exact ⟨hok, congrArg (fun v => [v])
      (encQ_of_fields (BitVec.eq_of_toNat_eq hop) (BitVec.eq_of_toNat_eq h3) (BitVec.eq_of_toNat_eq h7))⟩

theorem encode_decodeQ (x : QArgs) :
    ∀ i ∈ [Instr.qePush x, .qePop x, .qeStat x, .qeWait x, .qaPush x, .qaStat x, .qbPush x, .qbStat x, .qdPop x,
      .qdStat x, .qsStrip x, .qsScale x, .qsEnd x, .qvFence x, .qvEvent x, .qvWait x],
    wellFormed i = true → (encode i).map decodeQ = [some i] := by
  simp only [List.forall_mem_cons]
  refine ⟨?_, ?_, ?_, ?_, ?_, ?_, ?_, ?_, ?_, ?_, ?_, ?_, ?_, ?_, ?_, ?_, fun _ h => nomatch h⟩ <;>
  · intro hwf
    show [decodeQ (encQ _ _ _ x)] = _
    simp only [decodeQ, encQ_op, encQ_funct3, encQ_funct7, encQ_registers]
    exact congrArg (fun o => [o]) (if_pos hwf)

/-! ### Words of Lysyo (R385) -/

theorem encLyI_fields (op : Nat) (x : LyIArgs) :
    (encLyI op x).extractLsb' 26 6 = BitVec.ofNat 6 op ∧ (encLyI op x).extractLsb' 22 4 = lField x.rd ∧
      (encLyI op x).extractLsb' 18 4 = lField x.ra ∧ (encLyI op x).extractLsb' 16 2 = 0#2 ∧
      (encLyI op x).extractLsb' 0 16 = x.imm := by
  simp only [encLyI, BitVec.extractLsb'_append_eq_of_le, BitVec.extractLsb'_append_eq_of_add_le,
    BitVec.extractLsb'_eq_self, Nat.reduceLeDiff, Nat.reduceSub, le_refl, Nat.zero_add, and_self]

theorem encLyR_fields (op : Nat) (x : LyRArgs) :
    (encLyR op x).extractLsb' 26 6 = BitVec.ofNat 6 op ∧ (encLyR op x).extractLsb' 22 4 = lField x.rd ∧
      (encLyR op x).extractLsb' 18 4 = lField x.ra ∧ (encLyR op x).extractLsb' 14 4 = lField x.rb ∧
      (encLyR op x).extractLsb' 0 14 = 0#14 := by
  simp only [encLyR, BitVec.extractLsb'_append_eq_of_le, BitVec.extractLsb'_append_eq_of_add_le,
    BitVec.extractLsb'_eq_self, Nat.reduceLeDiff, Nat.reduceSub, le_refl, Nat.zero_add, and_self]

theorem lField_toFin (x : BitVec 4) : lField x.toFin = x := rfl

/-- A word whose op is given and whose bits 17 and 16 are zero is the word of its fields. -/
theorem encLyI_of_fields {w : Word32} {op : Nat} (hop : w.extractLsb' 26 6 = BitVec.ofNat 6 op)
    (hzero : w.extractLsb' 16 2 = 0#2) :
    encLyI op { rd := (w.extractLsb' 22 4).toFin, ra := (w.extractLsb' 18 4).toFin, imm := w.extractLsb' 0 16 } = w
      := by
  simp +decide only [encLyI, lField_toFin, ← hop, ← hzero, BitVec.extractLsb'_append_extractLsb'_eq_extractLsb']
  exact BitVec.extractLsb'_eq_self

/-- A word whose op is given and whose low 14 bits are zero is the word of its registers. -/
theorem encLyR_of_fields {w : Word32} {op : Nat} (hop : w.extractLsb' 26 6 = BitVec.ofNat 6 op)
    (hzero : w.extractLsb' 0 14 = 0#14) :
    encLyR op { rd := (w.extractLsb' 22 4).toFin, ra := (w.extractLsb' 18 4).toFin,
                rb := (w.extractLsb' 14 4).toFin } = w := by
  simp +decide only [encLyR, lField_toFin, ← hop, ← hzero, BitVec.extractLsb'_append_extractLsb'_eq_extractLsb']
  exact BitVec.extractLsb'_eq_self

theorem decodeLysyo_encodes {w : Word32} {i : Instr} (h : decodeLysyo w = some i) :
    wellFormed i = true ∧ encode i = [w] := by
  simp only [decodeLysyo] at h
  split at h
  case h_25 => cases h
  case h_5 hop | h_6 hop | h_7 hop | h_8 hop | h_9 hop | h_10 hop | h_11 hop | h_12 hop | h_13 hop =>
    obtain ⟨hzero, rfl⟩ := Option.ite_some_none_eq_some.mp h
    exact ⟨rfl, congrArg (fun v => [v]) (encLyR_of_fields (BitVec.eq_of_toNat_eq hop) (eq_of_beq hzero))⟩
  case h_4 hop | h_14 hop | h_15 hop | h_16 hop | h_17 hop | h_18 hop | h_19 hop | h_20 hop | h_21 hop =>
    obtain ⟨hzero, rfl⟩ := Option.ite_some_none_eq_some.mp h
    exact ⟨rfl, congrArg (fun v => [v]) (encLyI_of_fields (BitVec.eq_of_toNat_eq hop) (eq_of_beq hzero))⟩
  case h_1 hop =>
    obtain ⟨hok, rfl⟩ := Option.ite_some_none_eq_some.mp h
    simp only [Bool.and_assoc] at hok
    obtain ⟨hzero, hargs⟩ := (Bool.and_eq_true _ _).mp hok
    exact ⟨(Bool.and_assoc ..).trans hargs,
      congrArg (fun v => [v]) (encLyI_of_fields (BitVec.eq_of_toNat_eq hop) (eq_of_beq hzero))⟩
  case h_2 hop | h_3 hop =>
    obtain ⟨hok, rfl⟩ := Option.ite_some_none_eq_some.mp h
    obtain ⟨hzero, hargs⟩ := (Bool.and_eq_true _ _).mp hok
    exact ⟨hargs, congrArg (fun v => [v]) (encLyI_of_fields (BitVec.eq_of_toNat_eq hop) (eq_of_beq hzero))⟩
  all_goals
    next hop =>
    obtain ⟨hok, rfl⟩ := Option.ite_some_none_eq_some.mp h
    simp only [Bool.and_assoc] at hok
    obtain ⟨hzero, hargs⟩ := (Bool.and_eq_true _ _).mp hok
    exact ⟨hargs, congrArg (fun v => [v]) (encLyI_of_fields (BitVec.eq_of_toNat_eq hop) (eq_of_beq hzero))⟩

theorem encode_decodeLysyo_immediate (x : LyIArgs) :
    ∀ i ∈ [Instr.lysyoEnd x, .lysyoLi x, .lysyoLih x, .lysyoAddi x, .ldpk x, .stpk x, .ldrg x, .ldwn x, .stwn x, .beq x,
      .bne x, .bltu x, .lysyoLoop x, .time x, .qinfo x],
    wellFormed i = true → (encode i).map decodeLysyo = [some i] := by
  simp only [List.forall_mem_cons]
  refine ⟨?_, ?_, ?_, ?_, ?_, ?_, ?_, ?_, ?_, ?_, ?_, ?_, ?_, ?_, ?_, fun _ h => nomatch h⟩ <;>
  · intro hwf
    show [decodeLysyo (encLyI _ x)] = _
    simp only [decodeLysyo, encLyI_fields]
    exact congrArg (fun o => [o]) (if_pos hwf)

theorem encode_decodeLysyo_register (x : LyRArgs) :
    ∀ i ∈ [Instr.lysyoAdd x, .lysyoSub x, .lysyoAnd x, .lysyoOr x, .lysyoXor x, .lysyoShl x, .lysyoShr x, .lysyoMinu x,
      .lysyoMaxu x], (encode i).map decodeLysyo = [some i] := by
  simp only [List.forall_mem_cons]
  refine ⟨?_, ?_, ?_, ?_, ?_, ?_, ?_, ?_, ?_, fun _ h => nomatch h⟩ <;>
  · show [decodeLysyo (encLyR _ x)] = _
    simp only [decodeLysyo, encLyR_fields]
    rfl

/-! ### 32-bit words of RV64IMAC (R259, R260) -/

theorem encRvI_fields (op f3 : Nat) (rd rs1 : XReg) (imm : BitVec 12) :
    let w := encRvI op f3 rd rs1 imm
    w.extractLsb' 0 7 = BitVec.ofNat 7 op ∧ xReg w 7 = rd ∧ w.extractLsb' 12 3 = BitVec.ofNat 3 f3 ∧ xReg w 15 = rs1 ∧
      w.extractLsb' 20 12 = imm := by
  simp only [encRvI, xReg, xField, BitVec.extractLsb'_append_eq_of_le, BitVec.extractLsb'_append_eq_of_add_le,
    BitVec.extractLsb'_eq_self, Nat.reduceLeDiff, Nat.reduceSub, le_refl, Nat.zero_add, and_self]

/-- The fields that a shift's immediate is cut into. -/
theorem encRvI_shiftFields (op f3 : Nat) (rd rs1 : XReg) (imm : BitVec 12) :
    let w := encRvI op f3 rd rs1 imm
    w.extractLsb' 26 6 = imm.extractLsb' 6 6 ∧ w.extractLsb' 20 6 = imm.extractLsb' 0 6 ∧
      w.extractLsb' 25 7 = imm.extractLsb' 5 7 ∧ w.extractLsb' 20 5 = imm.extractLsb' 0 5 := by
  simp only [encRvI, BitVec.extractLsb'_append_eq_of_le, Nat.reduceLeDiff, Nat.reduceSub, le_refl, and_self]

theorem encRvR_fields (op f3 f7 : Nat) (rd rs1 rs2 : XReg) :
    let w := encRvR op f3 f7 rd rs1 rs2
    w.extractLsb' 0 7 = BitVec.ofNat 7 op ∧ xReg w 7 = rd ∧ w.extractLsb' 12 3 = BitVec.ofNat 3 f3 ∧ xReg w 15 = rs1 ∧
      xReg w 20 = rs2 ∧ w.extractLsb' 25 7 = BitVec.ofNat 7 f7 := by
  simp only [encRvR, xReg, xField, BitVec.extractLsb'_append_eq_of_le, BitVec.extractLsb'_append_eq_of_add_le,
    BitVec.extractLsb'_eq_self, Nat.reduceLeDiff, Nat.reduceSub, le_refl, Nat.zero_add, and_self]

/-- A word whose two lowest bits are 11 is an instruction of 32 bits. -/
theorem decodeRoustabout_of_opcode {w : Word32} {op : BitVec 7} (hop : w.extractLsb' 0 7 = op)
    (hlow : op.extractLsb' 0 2 = 3#2) : decodeRoustabout w = decodeRv32 w := by
  have hw : w.extractLsb' 0 2 = 3#2 := by
    rw [← hlow, ← hop, BitVec.extractLsb'_extractLsb'_of_le (by decide)]
  rw [decodeRoustabout, hw]
  rfl

theorem jal_offset {off : BitVec 21} (h : off.getLsbD 0 = false) :
    off.extractLsb' 20 1 ++ off.extractLsb' 12 8 ++ off.extractLsb' 11 1 ++ off.extractLsb' 1 10 ++ 0#1 = off := by
  have hzero : 0#1 = off.extractLsb' 0 1 := by rw [← ofBit_getLsbD, h]; rfl
  rw [hzero]
  simp +decide only [BitVec.extractLsb'_append_extractLsb'_eq_extractLsb']
  exact BitVec.extractLsb'_eq_self

theorem branch_offset {off : BitVec 13} (h : off.getLsbD 0 = false) :
    off.extractLsb' 12 1 ++ off.extractLsb' 11 1 ++ off.extractLsb' 5 6 ++ off.extractLsb' 1 4 ++ 0#1 = off := by
  have hzero : 0#1 = off.extractLsb' 0 1 := by rw [← ofBit_getLsbD, h]; rfl
  rw [hzero]
  simp +decide only [BitVec.extractLsb'_append_extractLsb'_eq_extractLsb']
  exact BitVec.extractLsb'_eq_self

theorem store_offset (imm : BitVec 12) : imm.extractLsb' 5 7 ++ imm.extractLsb' 0 5 = imm :=
  BitVec.extractLsb'_append_extractLsb'

/-- The shift amount and the upper bits of a shift's immediate, with bit 10 for the arithmetic shift. -/
theorem shift_fields {imm : BitVec 12} (h : imm.toNat < 64) :
    imm.extractLsb' 6 6 = 0#6 ∧ (imm.extractLsb' 0 6).setWidth 12 = imm ∧
      (imm ||| 0x400#12).extractLsb' 6 6 = 16#6 ∧ ((imm ||| 0x400#12).extractLsb' 0 6).setWidth 12 = imm := by
  have hx : imm = BitVec.ofNat 12 imm.toNat := by simp
  rw [hx]
  generalize imm.toNat = n at h
  interval_cases n <;> decide

theorem shiftW_fields {imm : BitVec 12} (h : imm.toNat < 32) :
    imm.extractLsb' 5 7 = 0#7 ∧ (imm.extractLsb' 0 5).setWidth 12 = imm ∧
      (imm ||| 0x400#12).extractLsb' 5 7 = 32#7 ∧ ((imm ||| 0x400#12).extractLsb' 0 5).setWidth 12 = imm := by
  have hx : imm = BitVec.ofNat 12 imm.toNat := by simp
  rw [hx]
  generalize imm.toNat = n at h
  interval_cases n <;> decide

theorem lui_fields (op : BitVec 7) (rd : XReg) (imm : BitVec 20) :
    let w : Word32 := imm ++ xField rd ++ op
    w.extractLsb' 0 7 = op ∧ xReg w 7 = rd ∧ w.extractLsb' 12 20 = imm := by
  simp only [xReg, xField, BitVec.extractLsb'_append_eq_of_le, BitVec.extractLsb'_append_eq_of_add_le,
    BitVec.extractLsb'_eq_self, Nat.reduceLeDiff, Nat.reduceSub, le_refl, Nat.zero_add, and_self]

theorem jal_fields (rd : XReg) (off : BitVec 21) :
    let w := encRv (.jal rd off)
    w.extractLsb' 0 7 = 0b1101111#7 ∧ xReg w 7 = rd ∧ w.extractLsb' 31 1 = off.extractLsb' 20 1 ∧
      w.extractLsb' 21 10 = off.extractLsb' 1 10 ∧ w.extractLsb' 20 1 = off.extractLsb' 11 1 ∧
      w.extractLsb' 12 8 = off.extractLsb' 12 8 := by
  simp only [encRv, xReg, xField, BitVec.extractLsb'_append_eq_of_le, BitVec.extractLsb'_append_eq_of_add_le,
    BitVec.extractLsb'_eq_self, Nat.reduceLeDiff, Nat.reduceSub, le_refl, Nat.zero_add, and_self]

/-- The word of a branch of a given funct3. -/
def encBranch (f3 : BitVec 3) (rs1 rs2 : XReg) (off : BitVec 13) : Word32 :=
  off.extractLsb' 12 1 ++ off.extractLsb' 5 6 ++ xField rs2 ++ xField rs1 ++ f3 ++ off.extractLsb' 1 4 ++
    off.extractLsb' 11 1 ++ 0b1100011#7

theorem encBranch_fields (f3 : BitVec 3) (rs1 rs2 : XReg) (off : BitVec 13) :
    let w := encBranch f3 rs1 rs2 off
    w.extractLsb' 0 7 = 0b1100011#7 ∧ w.extractLsb' 12 3 = f3 ∧ xReg w 15 = rs1 ∧ xReg w 20 = rs2 ∧
      w.extractLsb' 31 1 = off.extractLsb' 12 1 ∧ w.extractLsb' 7 1 = off.extractLsb' 11 1 ∧
      w.extractLsb' 25 6 = off.extractLsb' 5 6 ∧ w.extractLsb' 8 4 = off.extractLsb' 1 4 := by
  simp only [encBranch, xReg, xField, BitVec.extractLsb'_append_eq_of_le, BitVec.extractLsb'_append_eq_of_add_le,
    BitVec.extractLsb'_eq_self, Nat.reduceLeDiff, Nat.reduceSub, le_refl, Nat.zero_add, and_self]

/-- The word of a store of a given funct3. -/
def encStore (f3 : BitVec 3) (rs1 rs2 : XReg) (imm : BitVec 12) : Word32 :=
  imm.extractLsb' 5 7 ++ xField rs2 ++ xField rs1 ++ f3 ++ imm.extractLsb' 0 5 ++ 0b0100011#7

theorem encStore_fields (f3 : BitVec 3) (rs1 rs2 : XReg) (imm : BitVec 12) :
    let w := encStore f3 rs1 rs2 imm
    w.extractLsb' 0 7 = 0b0100011#7 ∧ w.extractLsb' 12 3 = f3 ∧ xReg w 15 = rs1 ∧ xReg w 20 = rs2 ∧
      w.extractLsb' 25 7 = imm.extractLsb' 5 7 ∧ w.extractLsb' 7 5 = imm.extractLsb' 0 5 := by
  simp only [encStore, xReg, xField, BitVec.extractLsb'_append_eq_of_le, BitVec.extractLsb'_append_eq_of_add_le,
    BitVec.extractLsb'_eq_self, Nat.reduceLeDiff, Nat.reduceSub, le_refl, Nat.zero_add, and_self]

/-- Every operation of 32 bits that is well formed reads back from its word. -/
theorem decodeRv32_encRv {op : RvOp} (h : rvOk op = true) :
    decodeRv32 (encRv op) = some (.roustaboutInstruction { compressed := false, op := op }) := by
  cases op with
  | lui rd imm | auipc rd imm => simp [encRv, decodeRv32, lui_fields]
  | jal rd off => simp [decodeRv32, jal_fields, jal_offset (eq_of_beq h)]
  | jalr rd rs1 imm => simp [encRv, decodeRv32, encRvI_fields]
  | branch c rs1 rs2 off =>
    cases c <;>
    · change decodeRv32 (encBranch _ _ _ _) = _
      simp [decodeRv32, encBranch_fields, branch_offset (eq_of_beq h)]
  | load k rd rs1 imm => cases k <;> simp [encRv, decodeRv32, encRvI_fields]
  | store k rs1 rs2 imm =>
    cases k <;>
    · change decodeRv32 (encStore _ _ _ _) = _
      simp [decodeRv32, encStore_fields, store_offset]
  | opImm k rd rs1 imm =>
    cases k with
    | sub => cases h
    | sll | srl | sra =>
      obtain ⟨hhigh, hlow, hhigh', hlow'⟩ := shift_fields (of_decide_eq_true h)
      simp [encRv, decodeRv32, decodeOpImm, RvAlu.f3, encRvI_fields, encRvI_shiftFields, hhigh, hlow, hhigh', hlow']
    | _ => simp [encRv, decodeRv32, decodeOpImm, RvAlu.f3, encRvI_fields]
  | op k rd rs1 rs2 => cases k <;> simp [encRv, decodeRv32, decodeOp, RvAlu.f3, encRvR_fields]
  | opImmW k rd rs1 imm =>
    cases k with
    | subw => cases h
    | addw => simp [encRv, decodeRv32, decodeOpImmW, RvAluW.f3, encRvI_fields]
    | sllw | srlw | sraw =>
      obtain ⟨hhigh, hlow, hhigh', hlow'⟩ := shiftW_fields (of_decide_eq_true h)
      simp [encRv, decodeRv32, decodeOpImmW, RvAluW.f3, encRvI_fields, encRvI_shiftFields, hhigh, hlow, hhigh', hlow']
  | opW k rd rs1 rs2 => cases k <;> simp [encRv, decodeRv32, decodeOpW, RvAluW.f3, encRvR_fields]
  | mul k rd rs1 rs2 => cases k <;> simp [encRv, decodeRv32, decodeOp, encRvR_fields]
  | mulW k rd rs1 rs2 => cases k <;> simp [encRv, decodeRv32, decodeOpW, encRvR_fields]
  | fenceI => rfl

theorem opcode_encRv (op : RvOp) : ((encRv op).extractLsb' 0 7).extractLsb' 0 2 = 3#2 := by
  cases op with
  | fenceI => rfl
  | jalr | load | opImm | opImmW => simp [encRv, encRvI_fields]
  | op | opW | mul | mulW => simp [encRv, encRvR_fields]
  | jal => rw [(jal_fields _ _).1]; rfl
  | lui | auipc => rw [encRv, (lui_fields _ _ _).1]; rfl
  | branch c rs1 rs2 off => exact congrArg (fun x : BitVec 7 => x.extractLsb' 0 2) (encBranch_fields _ rs1 rs2 off).1
  | store k rs1 rs2 imm => exact congrArg (fun x : BitVec 7 => x.extractLsb' 0 2) (encStore_fields _ rs1 rs2 imm).1

theorem encode_decodeRoustabout_instruction {x : RvArgs} (hlen : x.compressed = false)
    (hwf : wellFormed (.roustaboutInstruction x) = true) :
    (encode (.roustaboutInstruction x)).map decodeRoustabout = [some (.roustaboutInstruction x)] := by
  obtain ⟨compressed, op⟩ := x
  cases hlen
  show [decodeRoustabout (encRv op)] = _
  rw [decodeRoustabout_of_opcode rfl (opcode_encRv op), decodeRv32_encRv hwf]

/-! ### Atomics and fences -/

/-- The word of an atomic operation. -/
def encRvAmo (x : RvAmoArgs) : Word32 :=
  x.op.f5 ++ ofBit x.aq ++ ofBit x.rl ++ xField x.rs2 ++ xField x.rs1 ++ (if x.dbl then 3#3 else 2#3) ++ xField x.rd ++
    0b0101111#7

theorem encRvAmo_fields (x : RvAmoArgs) :
    let w := encRvAmo x
    w.extractLsb' 0 7 = 0b0101111#7 ∧ xReg w 7 = x.rd ∧ w.extractLsb' 12 3 = (if x.dbl then 3#3 else 2#3) ∧
      xReg w 15 = x.rs1 ∧ xReg w 20 = x.rs2 ∧ w.extractLsb' 25 1 = ofBit x.rl ∧ w.extractLsb' 26 1 = ofBit x.aq ∧
      w.extractLsb' 27 5 = x.op.f5 := by
  simp only [encRvAmo, xReg, xField, BitVec.extractLsb'_append_eq_of_le, BitVec.extractLsb'_append_eq_of_add_le,
    BitVec.extractLsb'_eq_self, Nat.reduceLeDiff, Nat.reduceSub, le_refl, Nat.zero_add, and_self]

theorem encRvAmo_flags (x : RvAmoArgs) : (encRvAmo x)[26] = x.aq ∧ (encRvAmo x)[25] = x.rl := by
  simp only [BitVec.getElem_eq_extractLsb', encRvAmo_fields]
  exact ⟨bitOf_ofBit _, bitOf_ofBit _⟩

theorem decodeAmoRv_encRvAmo {x : RvAmoArgs} (hwf : wellFormed (.roustaboutAmo x) = true) :
    decodeAmoRv (encRvAmo x) = some (.roustaboutAmo x) := by
  change (x.op != .lr || x.rs2 == 0) = true at hwf
  obtain ⟨-, hrd, hwidth, hrs1, hrs2, -, -, hop⟩ := encRvAmo_fields x
  obtain ⟨haq, hrl⟩ := encRvAmo_flags x
  obtain ⟨op, dbl, aq, rl, rd, rs1, rs2⟩ := x
  cases op <;> cases dbl <;> simp_all [decodeAmoRv, RvAmoOp.f5]

theorem encode_decodeRoustabout_amo {x : RvAmoArgs} (hwf : wellFormed (.roustaboutAmo x) = true) :
    (encode (.roustaboutAmo x)).map decodeRoustabout = [some (.roustaboutAmo x)] := by
  have hop := (encRvAmo_fields x).1
  show [decodeRoustabout (encRvAmo x)] = _
  rw [decodeRoustabout_of_opcode hop rfl, ← decodeAmoRv_encRvAmo hwf]
  simp [decodeRv32, hop]

/-- The word of a fence. -/
def encRvFence (x : RvFenceArgs) : Word32 :=
  x.fm ++ x.pred ++ x.succ ++ xField x.rs1 ++ 0#3 ++ xField x.rd ++ 0b0001111#7

theorem encRvFence_fields (x : RvFenceArgs) :
    let w := encRvFence x
    w.extractLsb' 0 7 = 0b0001111#7 ∧ xReg w 7 = x.rd ∧ w.extractLsb' 12 3 = 0#3 ∧ xReg w 15 = x.rs1 ∧
      w.extractLsb' 20 4 = x.succ ∧ w.extractLsb' 24 4 = x.pred ∧ w.extractLsb' 28 4 = x.fm := by
  simp only [encRvFence, xReg, xField, BitVec.extractLsb'_append_eq_of_le, BitVec.extractLsb'_append_eq_of_add_le,
    BitVec.extractLsb'_eq_self, Nat.reduceLeDiff, Nat.reduceSub, le_refl, Nat.zero_add, and_self]

theorem encode_decodeRoustabout_fence (x : RvFenceArgs) :
    (encode (.roustaboutFence x)).map decodeRoustabout = [some (.roustaboutFence x)] := by
  show [decodeRoustabout (encRvFence x)] = _
  rw [decodeRoustabout_of_opcode (encRvFence_fields x).1 rfl]
  simp [decodeRv32, encRvFence_fields]

/-- Settles O4, for each decoder and its words. -/
theorem oneWordRoundTrips : Obligations.OneWordRoundTrips := by
  refine ⟨fun _ _ => decodeQ_encodes, fun _ _ => decodeLysyo_encodes, fun x i hi => encode_decodeQ x i hi,
    fun x y i hi hwf => ?_, fun _ => encode_decodeRoustabout_instruction, fun _ => encode_decodeRoustabout_amo,
    encode_decodeRoustabout_fence⟩
  have hsplit : i ∈ [Instr.lysyoEnd x, .lysyoLi x, .lysyoLih x, .lysyoAddi x, .ldpk x, .stpk x, .ldrg x, .ldwn x,
        .stwn x, .beq x, .bne x, .bltu x, .lysyoLoop x, .time x, .qinfo x] ∨
      i ∈ [Instr.lysyoAdd y, .lysyoSub y, .lysyoAnd y, .lysyoOr y, .lysyoXor y, .lysyoShl y, .lysyoShr y, .lysyoMinu y,
        .lysyoMaxu y] := by
    simp only [List.mem_cons, List.not_mem_nil, or_false] at hi ⊢
    tauto
  rcases hsplit with himm | hreg
  · exact encode_decodeLysyo_immediate x i himm hwf
  · exact encode_decodeLysyo_register y i hreg

end Sys2Proof

/-! # What the control thread and the vector agent do: the vector queue, traps, engine queues -/

namespace Sys2Proof.Machine

/-! ### The push of a vector instruction (R163, R164) -/

/-- An instruction that captures is one that the control thread pushes and the vector agent performs. -/
theorem exec_eq_vectorStep {i : Instr} {m : Mods} {g : Option GReg} {k : Option CReg} (h : captures i = some (m, g,
    k)) :
    ∃ eff : M Unit, ∀ s : State, exec i s = vectorStep i m g k eff s := by
  unfold captures at h
  split at h
  -- `h` names the operands of a listed form; every other form captures nothing.
  all_goals cases h
  all_goals exact ⟨_, fun _ => rfl⟩

/-- A push captures its operands, none under a guard that never passes, and moves on (R163). -/
theorem pushEntry_ok {i : Instr} {m : Mods} {g : Option GReg} {k : Option CReg} {s : State}
    (hpoison : neverPasses m = false → ∀ n ∈ g, gPoison s.cur n = false) (hroom : s.cur.vqn < 64) :
    pushEntry i m g k s = .ok () (s.modCur (fun c => setPc (queued i
      (if neverPasses m then Cap.zero else (k.map (readC c)).getD Cap.zero)
      (if neverPasses m then 0 else (g.map (gVal c)).getD 0) c) (nextPc c m))) := by
  have hfree : ¬ 64 ≤ s.cur.vqn := Nat.not_le.mpr hroom
  cases hnever : neverPasses m with
  | true => cases g <;> cases k <;> simp [pushEntry, run_bind, hnever, hfree] <;> rfl
  | false =>
    cases g with
    | none => cases k <;> simp [pushEntry, run_bind, hnever, hfree] <;> rfl
    | some n =>
      have hn := consumeG_ok (hpoison hnever n rfl)
      cases k <;> simp [pushEntry, run_bind, hnever, hfree, hn] <;> rfl

theorem vectorStep_control {s : State} (h : s.party = .control) (i : Instr) (m : Mods) (g : Option GReg) (k : Option
    CReg)
    (eff : M Unit) : vectorStep i m g k eff s = runThread (pushEntry i m g k) s := by
  rw [vectorStep, h]

theorem vectorStep_vector {s t : State} (h : s.party = .vector) (i : Instr) (m : Mods) (g : Option GReg) (k : Option
    CReg)
    {eff : M Unit} (heff : eff s = .ok () t) : vectorStep i m g k eff s = .next (passEntry t) := by
  rw [vectorStep, h, commitEntry, heff]

theorem exec_pushes {i : Instr} {m : Mods} {g : Option GReg} {k : Option CReg} {s : State}
    (hcap : captures i = some (m, g, k)) (hparty : s.party = .control)
    (hpoison : neverPasses m = false → ∀ n ∈ g, gPoison s.cur n = false) (hroom : s.cur.vqn < 64) :
    exec i s = .next (s.modCur (fun c => setPc (queued i
      (if neverPasses m then Cap.zero else (k.map (readC c)).getD Cap.zero)
      (if neverPasses m then 0 else (g.map (gVal c)).getD 0) c) (nextPc c m))) := by
  obtain ⟨eff, heff⟩ := exec_eq_vectorStep hcap
  rw [heff, vectorStep_control hparty, runThread_ok (pushEntry_ok hpoison hroom)]

/-! ### Fences that occupy an entry (R122, R123) -/

theorem fenceEntry_pushes {x : FenceArgs} {s : State} (hparty : s.party = .control) (hactive : active x.m s.cur 0 =
    true)
    (hroom : s.cur.vqn < 64) (i : Instr) (mark : State → State) (older : M Unit) :
    fenceEntry i x mark older s =
      .next (mark (s.modCur (fun c => setPc (queued i Cap.zero 0 c) (nextPc c x.m)))) := by
  have hpush := pushEntry_ok (i := i) (m := x.m) (g := none) (k := none) (s := s) (fun _ _ h => nomatch h) hroom
  simp only [Option.map_none, Option.getD_none, ite_self] at hpush
  rw [fenceEntry, hparty]
  dsimp only
  rw [scalarStep_passes (h := hactive), runThread_ok]
  rw [run_bind, hpush]
  rfl

/-! ### Entries under a guard that never passes (R59) -/

theorem zeroDest_merging {zf : Bool} (h : zf = false) (d : VReg) (w : Nat) (s : State) :
    zeroDest zf d w s = .ok () s := by
  rw [h]
  rfl

/-- A merging form under a guard that never passes has no effect. -/
theorem exec_never_passes {i : Instr} {m : Mods} {g : Option GReg} {k : Option CReg} {d : VReg} {s : State}
    (hcap : captures i = some (m, g, k)) (hmerge : zeroing i = false)
    (hdest : vecDest i = some d) (hred : ∀ x : VRedArgs, i ≠ .vred x) :
    ∃ never eff : M Unit, exec i s = vecStep i m g k never eff s ∧ never s = .ok () s := by
  cases i with
  | vadd x | vsub x | vmul x | vmulh x | vand x | vor x | vxor x | vandn x | vshl x | vshr x | vsar x
    | vmin x | vmax x | vmacc x | vabs x | vneg x | vsat x | vsel x | vfadd x | vfsub x | vfmul x | vfdiv x
    | vfmin x | vfmax x | vperm x | vzip x | vfabs x | vfneg x | vfrsq x | vfexp2 x | vcompress x | vexpand x
    | vfsqrt x | vfma x | vfms x | vfnma x | vfnms x | vslideUp x | vslideDn x | vshlw x | vshrw x | vbcast x
    | vunzip x | vscan x | vfshlw x | vfshrw x =>
    cases hcap
    exact ⟨_, _, rfl, zeroDest_merging hmerge ..⟩
  | vcvt x | vdequant x => cases hcap; exact ⟨_, _, rfl, rfl⟩
  | vred x => exact absurd rfl (hred x)
  | _ => cases hdest

theorem vecStep_never_passes {m : Mods} {s t : State} (hparty : s.party = .vector) (hnever : neverPasses m = true)
    (i : Instr) (g : Option GReg) (k : Option CReg) {never : M Unit} (h : never s = .ok () t) (eff : M Unit) :
    vecStep i m g k never eff s = .next (passEntry t) := by
  rw [vecStep, if_pos hnever, vectorStep_vector hparty i m g k h]

/-- Settles O31: what the control thread pushes, and what the vector agent does of an entry that no guard admits. -/
theorem vectorInstructionsAreQueued : Obligations.VectorInstructionsAreQueued := by
  refine ⟨fun i m g k s => exec_pushes, ?fences, ?merging, ?vred, ?pcount⟩
  case fences =>
    intro i x s hparty hactive hroom t
    constructor
    · rintro rfl
      exact fenceEntry_pushes hparty hactive hroom _ markOlder _
    · rintro rfl
      exact fenceEntry_pushes hparty hactive hroom _ id _
  case merging =>
    intro i m g k d s hcap hparty hnever hmerge hdest hred
    obtain ⟨never, eff, hexec, hnone⟩ := exec_never_passes (s := s) hcap hmerge hdest hred
    rw [hexec, vecStep_never_passes hparty hnever _ _ _ hnone]
  case vred =>
    intro x s hparty hnever w hdest
    refine vecStep_never_passes hparty hnever (.vred x) none none ?_ _
    rw [run_bind_ok (run_getCur s), if_pos hdest]
    rfl
  case pcount =>
    intro x s hparty hnever
    exact vecStep_never_passes hparty hnever (.pcount x) none none (run_modifyCur _ s) _

/-! ### Traps of a guarded step -/

/-- A scalar instruction whose body traps takes that trap. -/
theorem scalarStep_traps {m : Mods} {s t : State} {x : Trap} {body : M Unit} (hpass : passes m s = true)
    (h : body s = .error (.trap x) t) : scalarStep m body s = .next (takeTrap t.slot x t) := by
  rw [scalarStep_passes hpass, runThread_trap h]

theorem jumpTarget_poisoned {n : GReg} {s : State} (h : gPoison s.cur n = true) :
    jumpTarget n s = .error (.trap (poisonTrap s.cur n)) s :=
  run_bind_error (consumeG_trap h) _

/-- An instruction that consumes a g register first does nothing before,
  and traps where the register is poisoned (R142). -/
theorem exec_poisoned {i : Instr} {m : Mods} {n : GReg} {s : State} (hfirst : consumesFirst i = some (m, n))
    (hpass : passes m s = true) (hpoison : gPoison s.cur n = true) :
    exec i s = .next (takeTrap s.slot (poisonTrap s.cur n) s) := by
  cases i with
  | bc x | cbound x | cnarrow x | caddr x | cinc x | clset x =>
    cases hfirst
    exact scalarStep_traps hpass (run_bind_error (consumeG_trap hpoison) _)
  | jmp x | jmpCall x =>
    cases hfirst
    exact scalarStep_traps hpass (run_bind_error (jumpTarget_poisoned hpoison) _)
  | _ => cases hfirst

theorem jumpTarget_misaligned {n : GReg} {s : State} (hpoison : gPoison s.cur n = false)
    (halign : field (gVal s.cur n) 0 2 ≠ 0) :
    jumpTarget n s = .error (.trap
      { cause := 0x11, party := 0, detail0 := gVal s.cur n, detail1 := 0, poisonPc := 0 }) s := by
  rw [jumpTarget, run_bind_ok (consumeG_ok hpoison), if_pos halign]
  rfl

theorem unsealed_traps {n : CReg} {s : State} (h : isUnsealed s.cur n = false) :
    unsealed n s =
      .error (.trap { cause := 0x23, party := 0, detail0 := BitVec.ofNat 64 n, detail1 := 0, poisonPc := 0 }) s := by
  have hsealed : ((readC s.cur n).tag && capOtype (readC s.cur n) != 0) = true := by simpa [isUnsealed] using h
  rw [unsealed, run_bind_ok (run_getCur s), if_pos hsealed]
  rfl

/-- Settles O27. -/
theorem controlThreadTraps : Obligations.ControlThreadTraps := by
  refine ⟨?poison, ?target, ?sealed, ?store, ?illegal, ?waiting⟩
  case poison =>
    intro i m n s hfirst hpass hpoison
    exact exec_poisoned hfirst hpass hpoison
  case target =>
    intro x i s hi hpass hpoison halign
    have htrap := jumpTarget_misaligned hpoison halign
    rcases hi with rfl | rfl <;> exact scalarStep_traps hpass (run_bind_error htrap _)
  case sealed =>
    intro x i s hi hpass hpoison hsealed
    have htrap := unsealed_traps hsealed
    rcases hi with rfl | rfl | rfl <;>
      exact scalarStep_traps hpass ((run_bind_ok (consumeG_ok hpoison) _).trans (run_bind_error htrap _))
  case store =>
    intro x s t f hactive hindex hvalue hcheck
    refine scalarStep_traps hactive ?_
    rw [stBody, run_bind_ok (consumeG_ok hindex), run_bind_ok (consumeG_ok hvalue), run_bind_ok (run_getCur s),
      run_bind_ok hcheck]
    rfl
  case illegal =>
    intro k s t ws hwords hnone
    show execIllegalInstruction k s = _
    rw [execIllegalInstruction, hwords]
    simp only [hnone]
    rfl
  case waiting =>
    intro slot c t s hctx htrap hrun
    show execTrap slot s = _
    simp only [execTrap, hctx, htrap, if_neg hrun]

/-- A guarded step whose body completes. -/
theorem scalarStep_ok {m : Mods} {s t : State} {body : M Unit} (hpass : passes m s = true) (h : body s = .ok () t) :
    scalarStep m body s = .next t := by
  rw [scalarStep_passes hpass, runThread_ok h]

/-! ### Pushes (R264, R285) -/

/-- A push that has room joins the engine's FIFO after its release (R266). -/
theorem enginePush_ok {p : Party} {n : Nat} {w : Word} {src dst idx : Cap} {stride : Int} {s r : State}
    (hspec : s.cur.spec = true → destsInside s n (newCmd s p w src dst idx stride) = true)
    (hroom : pushRoom s n (cmdPort w) = true) (hrelease : releaseOwn (homeScope n) s = .ok () r) :
    enginePush p n w src dst idx stride s =
      .ok (newCmd s p w src dst idx stride).seq (joinEngine r n (newCmd s p w src dst idx stride)) := by
  have hstay : (s.cur.spec && !destsInside s n (newCmd s p w src dst idx stride)) = false := by
    cases h : s.cur.spec <;> simp [hspec, h]
  simp only [enginePush, run_bind, run_get, hstay, hroom, Bool.not_true, Bool.false_eq_true, if_false, hrelease,
    run_modify, run_pure]

theorem epushWord_ok {x : EpushArgs} {s : State} (h : x.lit = none → gPoison s.cur x.b = false) :
    epushWord x s = .ok (x.lit.getD (gVal s.cur x.b)) s := by
  cases hlit : x.lit with
  | some w => simp [epushWord, hlit]
  | none => simp [epushWord, hlit, consumeG_ok (h hlit)]

theorem exec_epush_outcomes {x : EpushArgs} {s r : State} (hpass : passes x.m s = true)
    (hpoison : x.lit = none → gPoison s.cur x.b = false) (hport : cmdPort (x.lit.getD (gVal s.cur x.b)) = 18)
    (hroom : s.cur.q.qd.length < 16) (hrelease : releaseOwn .core s = .ok () r) :
    exec (.epush x) s = changes r (fun c =>
      setPc { c with q := { c.q with qd := c.q.qd ++ [x.lit.getD (gVal s.cur x.b)] } } (nextPc c x.m)) := by
  refine scalarStep_ok hpass ?_
  rw [run_bind_ok (epushWord_ok hpoison)]
  simp only [run_bind, hport, if_true, run_getCur, Nat.not_le.mpr hroom, if_false, hrelease, run_modifyCur, run_advance,
    State.modCur_modCur]
  rfl

theorem exec_epush_engine {x : EpushArgs} {s r : State} {n : Nat} (hpass : passes x.m s = true)
    (hpoison : x.lit = none → gPoison s.cur x.b = false) (hport : cmdPort (x.lit.getD (gVal s.cur x.b)) ≠ 18)
    (hlive : liveEngine s s.core (cmdPort (x.lit.getD (gVal s.cur x.b))) = some n)
    (hroom : pushRoom s n (cmdPort (x.lit.getD (gVal s.cur x.b))) = true)
    (hspec : s.cur.spec = true → destsInside s n (newCmd s .control (x.lit.getD (gVal s.cur x.b)) (readC s.cur x.a)
      (readC s.cur x.d) (readC s.cur x.c) x.stride.toInt) = true)
    (hrelease : releaseOwn (homeScope n) s = .ok () r) :
    exec (.epush x) s = .next ((joinEngine r n (newCmd s .control (x.lit.getD (gVal s.cur x.b)) (readC s.cur x.a)
      (readC s.cur x.d) (readC s.cur x.c) x.stride.toInt)).modCur (fun c => setPc c (nextPc c x.m))) := by
  refine scalarStep_ok hpass ?_
  have hpush := enginePush_ok hspec hroom hrelease
  rw [run_bind_ok (epushWord_ok hpoison)]
  simp only [run_bind, hport, if_false, run_get, hlive, run_getCur, immInt, hpush, run_advance]

theorem exec_epush_absent {x : EpushArgs} {s : State} (hpass : passes x.m s = true)
    (hpoison : x.lit = none → gPoison s.cur x.b = false) (hport : cmdPort (x.lit.getD (gVal s.cur x.b)) ≠ 18)
    (hlive : liveEngine s s.core (cmdPort (x.lit.getD (gVal s.cur x.b))) = none) :
    exec (.epush x) s = traps s 0x400 (x.lit.getD (gVal s.cur x.b)) 0 0 := by
  refine scalarStep_traps hpass ?_
  rw [run_bind_ok (epushWord_ok hpoison)]
  simp only [run_bind, hport, if_false, run_get, hlive]
  rfl

/-! ### Pops of results and outcomes (R285) -/

theorem checkPort_ok {port : Nat} {s : State}
    (h : isEnginePort port = true → (liveEngine s s.core port).isSome = true) : checkPort port s = .ok () s := by
  have hpresent : (isEnginePort port && (liveEngine s s.core port).isNone) = false := by
    cases hport : isEnginePort port with
    | false => rfl
    | true => rw [← Option.not_isSome, h hport]; rfl
  simp only [checkPort, run_bind, run_get, hpresent, Bool.false_eq_true, if_false, run_pure]

theorem popPort_qa {s : State} {w : Word} {rest : List Word} (h : s.cur.q.qa = w :: rest) :
    popPort 16 s = .ok (some w) (s.modCur (fun c => { c with q := { c.q with qa := rest } })) := by
  simp only [popPort, run_bind, run_getCur, if_true, h, run_modifyCur, run_pure]

theorem popPort_qb {s : State} {w : Word} {rest : List Word} (h : s.cur.q.qb = w :: rest) :
    popPort 17 s = .ok (some w) (s.modCur (fun c => { c with q := { c.q with qb := rest } })) := by
  simp only [popPort, run_bind, run_getCur, show ¬ (17 = 16) by decide, if_false, if_true, h, run_modifyCur, run_pure]

theorem popResult_ok {p : Party} {port : Nat} {s : State} {r : ResElem} {rest : List ResElem}
    (h : resFifo s.cur port p = r :: rest) :
    let u := s.modCur (fun c => setResFifo c port p rest)
    popResult p port s = .ok r (popAcquire u u.core r.ranges) := by
  simp only [popResult, run_bind, run_get, h, run_modifyCur, run_modify, run_pure]

theorem popPort_result {port : Nat} {s : State} {r : ResElem} {rest : List ResElem} (hqa : port ≠ 16) (hqb : port ≠ 17)
    (h : resFifo s.cur port .control = r :: rest) :
    let u := s.modCur (fun c => setResFifo c port .control rest)
    popPort port s = .ok (some r.w0) (popAcquire u u.core r.ranges) := by
  simp only [popPort, run_bind, run_getCur, if_neg hqa, if_neg hqb, h, List.isEmpty_cons, Bool.false_eq_true, if_false,
    popResult_ok h, run_pure]

theorem popPort_empty {port : Nat} {s : State} (hqa : port = 16 → s.cur.q.qa = []) (hqb : port = 17 → s.cur.q.qb = [])
    (hres : port ≠ 16 → port ≠ 17 → resFifo s.cur port .control = []) : popPort port s = .ok none s := by
  by_cases h16 : port = 16
  · simp only [popPort, run_bind, run_getCur, h16, if_true, hqa h16, run_pure]
  by_cases h17 : port = 17
  · subst h17
    simp only [popPort, run_bind, run_getCur, if_neg h16, if_true, hqb rfl, run_pure]
  · simp only [popPort, run_bind, run_getCur, if_neg h16, if_neg h17, hres h16 h17, List.isEmpty_nil, if_true, run_pure]

@[simp] theorem nextPc_writeG (c : Ctx) (n : GReg) (v : Word) (m : Mods) : nextPc (writeG c n v) m = nextPc c m := by
  rw [nextPc, writeG_h, nextPc]

theorem write4_h (c : Ctx) (d : GReg) (ws : List (Word × Nat)) :
    (ws.foldl (fun c p => writeG c (Fin.ofNat 64 (d.val + p.2)) p.1) c).h = c.h := by
  induction ws generalizing c with
  | nil => rfl
  | cons w ws ih => rw [List.foldl_cons, ih, writeG_h]

@[simp] theorem nextPc_write4 (c : Ctx) (d : GReg) (ws : List Word) (m : Mods) :
    nextPc (write4 c d ws) m = nextPc c m := by
  rw [nextPc, write4, write4_h, nextPc]

/-- EPOP and EPOP.nw write what they pop. -/
theorem exec_epop_some {x : EpopArgs} {i : Instr} {s t : State} {w : Word} (hi : i = .epop x ∨ i = .epopNw x)
    (hpass : passes x.m s = true) (hport : checkPort x.port s = .ok () s) (hpop : popPort x.port s = .ok (some w) t) :
    exec i s = .next (t.modCur (fun c => setPc (writeG c x.d w) (nextPc c x.m))) := by
  rcases hi with rfl | rfl <;>
  · refine scalarStep_ok hpass ?_
    rw [run_bind_ok hport, run_bind_ok hpop]
    simp only [Option.getD_some, run_bind, run_modifyCur, run_advance, State.modCur_modCur, nextPc_writeG]

theorem exec_epopNw_none {x : EpopArgs} {s : State} (hpass : passes x.m s = true)
    (hport : checkPort x.port s = .ok () s) (hpop : popPort x.port s = .ok none s) :
    exec (.epopNw x) s = changes s (fun c => setPc (writeG c x.d 0) (nextPc c x.m)) := by
  refine scalarStep_ok hpass ?_
  rw [run_bind_ok hport, run_bind_ok hpop]
  simp only [Option.getD_none, run_bind, run_modifyCur, run_advance, State.modCur_modCur, nextPc_writeG]

theorem exec_eqstat {x : EpopArgs} {s : State} (hpass : passes x.m s = true) :
    exec (.eqstat x) s = changes s (fun c => setPc (writeG c x.d (eqstatWord s .control x.port)) (nextPc c x.m)) := by
  refine scalarStep_ok hpass ?_
  simp only [run_bind, run_modify, run_advance, State.modCur_modCur, nextPc_writeG]

/-! ### Pops of event records (R132, R277) -/

theorem popEvent_some {s : State} {r : EvRec} {rest : List EvRec} (h : s.cur.q.events = r :: rest) :
    let u := s.modCur (fun c => { c with q := lateJoin { c.q with events := rest } })
    popEvent s = .ok (some r) (popAcquire u u.core r.ranges) := by
  simp only [popEvent, run_bind, run_getCur, h, run_modifyCur, run_modify, run_pure]

theorem popEvent_none {s : State} (h : s.cur.q.events = []) : popEvent s = .ok none s := by
  simp only [popEvent, run_bind, run_getCur, h, run_pure]

/-- EVPOP and EVPOP.nw write the four words of the record that they pop. -/
theorem exec_evpop_some {x : MdArgs} {i : Instr} {s t : State} {r : EvRec} (hi : i = .evpop x ∨ i = .evpopNw x)
    (hpass : passes x.m s = true) (hpop : popEvent s = .ok (some r) t) :
    exec i s = .next (t.modCur (fun c => setPc (write4 c x.d [r.w0, r.w1, r.w2, r.w3]) (nextPc c x.m))) := by
  rcases hi with rfl | rfl <;>
  · refine scalarStep_ok hpass ?_
    rw [run_bind_ok hpop]
    simp only [run_bind, run_modifyCur, run_advance, State.modCur_modCur, nextPc_write4]

theorem exec_evpopNw_none {x : MdArgs} {s : State} (hpass : passes x.m s = true) (hpop : popEvent s = .ok none s) :
    exec (.evpopNw x) s = changes s (fun c => setPc (write4 c x.d [0, 0, 0, 0]) (nextPc c x.m)) := by
  refine scalarStep_ok hpass ?_
  rw [run_bind_ok hpop]
  simp only [run_bind, run_modifyCur, run_advance, State.modCur_modCur, nextPc_write4]

/-! ### Bindings of vector registers (R283) -/

theorem vecActs_iff {m : Mods} {s : State} : vecActs m s = true ↔ s.party = .vector ∧ neverPasses m = false := by
  simp [vecActs]

/-- The vector agent performs an entry whose guard can pass. -/
theorem vecStep_acts {m : Mods} {s t : State} (hacts : vecActs m s = true) (i : Instr) (g : Option GReg) (k : Option
    CReg)
    (never : M Unit) {eff : M Unit} (h : eff s = .ok () t) : vecStep i m g k never eff s = .next (passEntry t) := by
  obtain ⟨hparty, hnever⟩ := vecActs_iff.mp hacts
  rw [vecStep, hnever, if_neg Bool.false_ne_true, vectorStep_vector hparty i m g k h]

/-- The binding that the eight words and two capabilities of a record name. -/
theorem exec_vbind {x : VbindArgs} {s t u : State} {pa : Nat} (hacts : vecActs x.m s = true)
    (hactive : active x.m s.cur 0 = true)
    (haccess : capAccess (vqHead s.cur).capC (memOff (vqHead s.cur).capG x.imm) 64 .load .read .core s = .ok (.ok pa) t)
    (hlcap : capHas (vqHead s.cur).capC .lcap = true) (hctl : inCtl pa = false) (halign : pa % 64 = 0)
    (hown : ownFirst pa 64 t = .ok () u) :
    let l := loadPiece u u.core (ctxWsets u u.cur) pa 64 .core x.hint.toNat
    let word (i : Nat) : Word := wordOfBytes ((l.2.1.drop (8 * i)).take 8)
    let capw (i : Nat) : Cap :=
      { bits := BitVec.ofNat 128 (natOfBytes ((l.2.1.drop (16 * i)).take 16)), tag := l.2.2.getLsbD i }
    let b : Binding :=
      { word0 := word 0, stride := word 1, base := capw 1, scale := capw 2, sstride := word 6, bound := true }
    bindBad (word 0) = false →
    exec (.vbind x) s =
      .next (passEntry (l.1.modCur (fun c => { c with q := { c.q with binds := c.q.binds.set x.d b } }))) := by
  intro l word capw b hgood
  refine vecStep_acts hacts _ _ _ _ ?_
  dsimp only [word, l] at hgood
  simp only [capturedC, capturedG, run_bind, run_getCur, run_pure, hactive, Bool.not_true, Bool.false_eq_true, if_false,
    haccess, orTrap, hlcap, hctl, halign, ne_eq, not_true_eq_false, hown, run_get, run_set, hgood]
  rfl

theorem slot_modCore (s : State) (k : Nat) {f : Core → Core} (hf : ∀ c, (f c).slot = c.slot) :
    (s.modCore k f).slot = s.slot := by
  have hcore : (s.modCore k f).core = s.core := rfl
  rw [State.slot, State.slot, hcore]
  by_cases h : s.core = k
  · rw [h, State.coreAt_modCore_self, hf]
  · rw [State.coreAt_modCore_ne s h]

theorem cur_modCore (s : State) (k : Nat) {f : Core → Core} (hf : ∀ c, (f c).slot = c.slot) :
    (s.modCore k f).cur = s.cur := by
  rw [State.cur, slot_modCore s k hf]
  rfl

@[simp] theorem cur_modPq (s : State) (k : Nat) (p : Party) (f : PartyQ → PartyQ) : (modPq s k p f).cur = s.cur :=
  cur_modCore s k (fun _ => rfl)

/-- The state that the oldest executed entry of the acting core's queue leaves behind. -/
def retireOne (s : State) : State :=
  let down (a : Access) : Access := { a with n := a.n - 1 }
  modPq (s.modCur (fun c => popEntry { c with vlive := c.vlive - 1 })) s.core .vector (fun q =>
    { issue := q.issue.map down, pending := q.pending.map down, stores := q.stores.map down })

theorem retire_succ (fuel : Nat) (s : State) :
    retire s.core (fuel + 1) s = s ∨ retire s.core (fuel + 1) s = retire (retireOne s).core fuel (retireOne s) := by
  rw [retire]
  split
  · exact .inl rfl
  · exact .inr rfl

theorem retireOne_keeps (s : State) :
    (retireOne s).cur.q = s.cur.q ∧ (retireOne s).cur.r = s.cur.r ∧ (retireOne s).cur.vr = s.cur.vr := by
  rw [retireOne, cur_modPq, State.cur_modCur]
  exact ⟨rfl, rfl, rfl⟩

theorem retire_keeps (fuel : Nat) (s : State) :
    (retire s.core fuel s).cur.q = s.cur.q ∧ (retire s.core fuel s).cur.r = s.cur.r ∧
      (retire s.core fuel s).cur.vr = s.cur.vr := by
  induction fuel generalizing s with
  | zero => exact ⟨rfl, rfl, rfl⟩
  | succ fuel ih =>
    rcases retire_succ fuel s with h | h <;> rw [h]
    · exact ⟨rfl, rfl, rfl⟩
    · obtain ⟨hq, hr, hvr⟩ := ih (retireOne s)
      obtain ⟨hq', hr', hvr'⟩ := retireOne_keeps s
      exact ⟨hq.trans hq', hr.trans hr', hvr.trans hvr'⟩

/-- A pass changes the vector queue and leaves the other queues, the registers and memory. -/
theorem passEntry_keeps (s : State) :
    (passEntry s).cur.q = s.cur.q ∧ (passEntry s).cur.r = s.cur.r ∧ (passEntry s).cur.vr = s.cur.vr ∧
      (passEntry s).mem = s.mem := by
  unfold passEntry
  split
  · rw [State.cur_modCur]
    exact ⟨rfl, rfl, rfl, rfl⟩
  · obtain ⟨hq, hr, hvr⟩ := retire_keeps 64 (s.modCur (fun c => { c with vlive := c.vlive + 1 }))
    rw [State.modCur_core] at hq hr hvr
    rw [hq, hr, hvr, retire_mem, State.cur_modCur]
    exact ⟨rfl, rfl, rfl, rfl⟩

/-- The context that VUNBIND leaves of a context (R283). -/
def unbound (d : Fin 8) (c : Ctx) : Ctx :=
  let b := c.q.binds[d]
  { c with q := { c.q with
      binds := c.q.binds.set d { b with bound := false }
      strips := c.q.strips.set (bindQueue b) (dropMarks c.q.strips[bindQueue b]) } }

theorem exec_vunbind {x : VunbindArgs} {s : State} (hacts : vecActs x.m s = true) (hactive : active x.m s.cur 0 =
    true) :
    exec (.vunbind x) s = .next (passEntry (s.modCur (unbound x.d))) := by
  refine vecStep_acts hacts _ _ _ _ ?_
  simp only [run_bind, run_getCur, hactive, Bool.not_true, Bool.false_eq_true, if_false]
  rfl

/-- Settles O41. -/
theorem queueInstructions : Obligations.QueueInstructions := by
  refine ⟨?epush, ?epop, ?epopNw, fun x s => exec_eqstat, ?evpop, ?evpopNw, ?vbind, ?vunbind⟩
  case epush =>
    intro x s r hpass hpoison w
    exact ⟨exec_epush_outcomes hpass hpoison, fun n => exec_epush_engine hpass hpoison, exec_epush_absent hpass hpoison⟩
  case epop =>
    intro x i s hi hpass
    refine ⟨fun w rest hport hqa => ?_, fun w rest hport hqb => ?_, fun r rest h16 h17 hpresent hres => ?_⟩
    · have hpop := exec_epop_some hi hpass (checkPort_ok (by rw [hport]; exact nofun)) (hport ▸ popPort_qa hqa)
      rw [State.modCur_modCur] at hpop
      exact hpop
    · have hpop := exec_epop_some hi hpass (checkPort_ok (by rw [hport]; exact nofun)) (hport ▸ popPort_qb hqb)
      rw [State.modCur_modCur] at hpop
      exact hpop
    · exact exec_epop_some hi hpass (checkPort_ok hpresent) (popPort_result h16 h17 hres)
  case epopNw =>
    intro x s hpass hqa hqb hres hpresent
    exact exec_epopNw_none hpass (checkPort_ok hpresent) (popPort_empty hqa hqb hres)
  case evpop =>
    intro x i s r rest hi hpass hevents
    exact exec_evpop_some hi hpass (popEvent_some hevents)
  case evpopNw =>
    intro x s hpass hevents
    exact exec_evpopNw_none hpass (popEvent_none hevents)
  case vbind =>
    intro x s t u pa hacts hactive e0 haccess hlcap hctl halign hown l word capw hgood b
    exact exec_vbind hacts hactive haccess hlcap hctl halign hown hgood
  case vunbind =>
    intro x s hacts hactive
    refine ⟨_, exec_vunbind hacts hactive, ?_⟩
    obtain ⟨hq, hr, hvr, hmem⟩ := passEntry_keeps (s.modCur (unbound x.d))
    rw [hq, hr, hvr, hmem, State.cur_modCur]
    refine ⟨?_, fun n hn => ?_, ?_, fun q hother => ?_, rfl, rfl, rfl⟩
    · exact Vector.getElem_set_self _
    · exact Vector.getElem_set_ne x.d.isLt n.isLt (fun e => hn (Fin.ext e.symm))
    · exact Vector.getElem_set_self _
    · exact Vector.getElem_set_ne (bindQueue s.cur.q.binds[x.d]).isLt q.isLt (fun e => hother (Fin.ext e.symm))

end Sys2Proof.Machine

/-! # A fetch from memory -/

namespace Sys2Proof.Machine

/-! ### Numbers of byte lists -/

theorem memRead_append (m : Bytes) (a i j : Nat) : memRead m a (i + j) = memRead m a i ++ memRead m (a + i) j := by
  induction i generalizing a with
  | zero => simp [memRead]
  | succ i ih => rw [Nat.add_right_comm, memRead, ih, memRead, List.cons_append, Nat.add_assoc, Nat.add_comm 1]

theorem natOfBytes_append (xs ys : List Byte) :
    natOfBytes (xs ++ ys) = natOfBytes xs + 256 ^ xs.length * natOfBytes ys := by
  induction xs with
  | nil => simp [natOfBytes]
  | cons x xs ih => simp only [List.cons_append, natOfBytes, ih, List.length_cons, pow_succ]; ring

theorem natOfBytes_lt (xs : List Byte) : natOfBytes xs < 256 ^ xs.length := by
  induction xs with
  | nil => simp [natOfBytes]
  | cons x xs ih =>
    have hx := x.isLt
    simp only [natOfBytes, List.length_cons, pow_succ]
    omega

/-- The bytes of a range as the digits of the number of a range around it. -/
theorem natOfBytes_memRead_slice (m : Bytes) (a i n k : Nat) :
    natOfBytes (memRead m a (i + (n + k))) / 256 ^ i % 256 ^ n = natOfBytes (memRead m (a + i) n) := by
  have hlow := natOfBytes_lt (memRead m a i)
  have hmid := natOfBytes_lt (memRead m (a + i) n)
  rw [memRead_length] at hlow hmid
  rw [memRead_append, memRead_append, natOfBytes_append, natOfBytes_append, memRead_length, memRead_length,
    Nat.add_mul_div_left _ _ (by positivity), Nat.div_eq_of_lt hlow, Nat.zero_add, Nat.add_mul_mod_self_left,
    Nat.mod_eq_of_lt hmid]

/-- The bytes of a range as a field of the bits of a range around it. -/
theorem extractLsb'_ofNat_memRead (m : Bytes) (a : Nat) {i n size : Nat} (hfit : i + n ≤ size) :
    (BitVec.ofNat (8 * size) (natOfBytes (memRead m a size))).extractLsb' (8 * i) (8 * n) =
      BitVec.ofNat (8 * n) (natOfBytes (memRead m (a + i) n)) := by
  apply BitVec.eq_of_toNat_eq
  have hlt := natOfBytes_lt (memRead m a size)
  have hmid := natOfBytes_lt (memRead m (a + i) n)
  have hslice := natOfBytes_memRead_slice m a i n (size - (i + n))
  rw [memRead_length] at hlt hmid
  rw [show i + (n + (size - (i + n))) = size by omega] at hslice
  rw [BitVec.extractLsb'_toNat, BitVec.toNat_ofNat, BitVec.toNat_ofNat, Nat.shiftRight_eq_div_pow, pow_mul, pow_mul,
    pow_mul, show (2 : Nat) ^ 8 = 256 from rfl, Nat.mod_eq_of_lt hlt, Nat.mod_eq_of_lt hmid, hslice]

/-- Bytes of a line at the package point are the bytes of memory there. -/
theorem pkgData_extract (s : State) {pa n : Nat} (hfit : pa % 64 + n ≤ 64) :
    (pkgData s (lineOf pa)).extractLsb' (8 * (pa % 64)) (8 * n) = BitVec.ofNat (8 * n) (natOfBytes (memRead s.mem pa
      n)) := by
  have hslice := extractLsb'_ofNat_memRead s.mem (64 * lineOf pa) hfit
  rwa [show 64 * lineOf pa + pa % 64 = pa from Nat.div_add_mod pa 64] at hslice

/-! ### Translation in bare mode -/

theorem popCount_le (x n : Nat) : popCount x n ≤ n := by
  induction n with
  | zero => exact le_refl 0
  | succ n ih =>
    have hbit : natField x n 1 < 2 := Nat.mod_lt _ (by decide)
    rw [popCount]
    omega

theorem nstacks_le (s : State) : nstacks s ≤ 12 := popCount_le _ _

/-- Memory lies below 2 ^ 56 and outside the scratchpads. -/
theorem inMemory_bounds {s : State} {pa : Nat} (h : inMemory s pa = true) : pa < 2 ^ 56 ∧ inSpad pa = false := by
  have hstacks := nstacks_le s
  have hspad : spadBase = 0x00BE000000000000 := rfl
  have hsecond : secondBase = 0x0000100000000000 := rfl
  simp only [inMemory, inHbm, inSecond, inHost, Bool.or_eq_true, Bool.and_eq_true, decide_eq_true_eq] at h
  rw [inSpad, Bool.and_eq_false_iff, decide_eq_false_iff_not, decide_eq_false_iff_not]
  omega

theorem translate_bare {s : State} {x : Xer} {va : Nat} (p : Perm) (hbare : field x.atp 60 4 = 0)
    (hwin : windowPa s x va = none) (hmem : inMemory s va = true) :
    translate s x va p = ({ s with code := 0 }, .ok va) := by
  obtain ⟨hlt, hspad⟩ := inMemory_bounds hmem
  have hwin' : windowPa { s with code := 0 } x va = none := hwin
  have hmem' : inMemory { s with code := 0 } va = true := hmem
  simp only [translate, walkFor, hwin', hbare, if_true, if_neg (Nat.not_le.mpr hlt), phys, hspad, hmem', Bool.true_or]
  simp

/-! ### A fetch from memory -/

/-- Where a line of memory stands held by the memory side and no cache of the die holds it,
  a fetch reads memory and leaves
it. -/
theorem fetchLine_of_memory {s : State} {k l : Nat} (hcache : lookupKey l (s.coreAt k).icache = none)
    (hahead : lookupKey l (s.coreAt k).ahead = none) (hl2 : s.l2Line (dieOf k) l = none) (hside : s.side = []) :
    (fetchLine s k l).1.mem = s.mem ∧ (fetchLine s k l).2 = pkgData s l := by
  have hheld : s.sideAt l = SideLine.plain := by rw [State.sideAt, hside]; rfl
  have hfill : sideFill s l s.code = s := by rw [sideFill, hheld]; rfl
  simp [fetchLine, hcache, hahead, hl2, hfill]

theorem regionChain_congr {s t : State} (h : t.regions = s.regions) (fuel r : Nat) :
    regionChain t fuel r = regionChain s fuel r := by
  induction fuel generalizing r with
  | zero => rfl
  | succ fuel ih => simp only [regionChain, State.regionAt, h, ih]

/-- Whom the sessions refuse depends on the sessions and the regions alone. -/
theorem refusedTo_congr {s t : State} (hregions : t.regions = s.regions) (hsessions : t.sessions = s.sessions)
    (region pa : Nat) : refusedTo t region pa = refusedTo s region pa := by
  simp only [refusedTo, protectedBy, regionUnder, State.sessionAt, hsessions, regionChain_congr hregions]

theorem afterTranslate_ok {s : State} {pa size : Nat} (sc : Scope) (hmig : migrating s pa = false)
    (hpewter : inPewter pa = false) (hpeer : inPeer pa = false) (hrefused : refusedTo s s.cur.h.region pa = false)
    (herr : memErrAt s s.core sc pa size = false) (sources : Bool) : afterTranslate pa size sources sc s = .ok none s
      := by
  simp [afterTranslate, run_bind, hmig, hpewter, hpeer, hrefused, herr]

/-- Settles O6. -/
theorem fetchReadsMemory : Obligations.FetchReadsMemory := by
  intro s va hclear
  simp only [fetchClear, Bool.and_eq_true, Bool.not_eq_true', beq_iff_eq, Option.isNone_iff_eq_none,
    List.isEmpty_iff] at hclear
  obtain ⟨⟨⟨⟨⟨⟨⟨⟨⟨⟨⟨⟨⟨⟨hbare, hcap⟩, hwin⟩, hmem⟩, hctl⟩, hmig⟩, hpewter⟩, hpeer⟩, hrefused⟩, herr⟩, halign⟩, hcache⟩,
    hahead⟩, hl2⟩, hside⟩ := hclear
  split at hcap
  next a ha =>
    obtain rfl := eq_of_beq hcap
    have herr' : memErrAt { s with code := 0 } s.core .core va.toNat 4 = false := by
      unfold memErrAt at herr ⊢
      exact herr
    have hrefused' : refusedTo { s with code := 0 } s.cur.h.region va.toNat = false :=
      (refusedTo_congr (s := s) (t := { s with code := 0 }) rfl rfl s.cur.h.region va.toNat).trans hrefused
    have hafter := afterTranslate_ok (s := { s with code := 0 }) .core hmig hpewter hpeer hrefused' herr' false
    obtain ⟨hmemory, hdata⟩ := fetchLine_of_memory (s := { s with code := 0 }) hcache hahead hl2 hside
    refine ⟨(fetchLine { s with code := 0 } s.core (lineOf va.toNat)).1, ?_, hmemory⟩
    have hword := pkgData_extract { s with code := 0 } (pa := va.toNat) (n := 4) (by omega)
    have htrans := translate_bare (s := s) (x := ctxXer s) .exec hbare hwin hmem
    simp only [fetchWord, run_bind, run_get, ha, htrans, run_set, hctl, Bool.false_eq_true, if_false, hafter, run_pure]
    rw [hdata, hword]
  · cases hcap

end Sys2Proof.Machine

/-! # The roustabout extension -/

namespace Sys2Proof.Machine

/-! ### Running an instruction of the extension (R71, R72, R286) -/

@[simp] theorem run_getR (s : State) : getR s = .ok (roustIn s) s := rfl
@[simp] theorem run_getX (n : XReg) (s : State) : getX n s = .ok (xVal (roustIn s) n) s := rfl
@[simp] theorem run_actingParty (s : State) : actingParty s = .ok s.party s := rfl
@[simp] theorem run_modQ (f : Queues → Queues) (s : State) :
    modQ f s = .ok () (s.modCur (fun c => { c with q := f c.q })) := rfl

/-- The acting roustabout of a state with an x register written. -/
def writeX (rd : XReg) (v : Word) (s : State) : State :=
  s.modCur (fun c => modRoust c (s.party == .storer) (putX rd v))

@[simp] theorem run_setX (rd : XReg) (v : Word) (s : State) : setX rd v s = .ok () (writeX rd v s) := rfl

/-- The roustabout that runs an instruction of a column moves past it. -/
theorem extStep_ok {loader storer : Bool} {m : M Unit} {s t : State}
    (hcolumn : (if s.party == .storer then storer else loader) = true) (h : m s = .ok () t) :
    extStep loader storer m s = roustQueues t id none := by
  have hrun : (do
      let p ← actingParty
      let ok := if p == .storer then storer else loader
      if !ok then
        let w ← roustWord
        trapD cIllegal w (if p == .storer then 3 else 2)
      m
      roustNext 4 : M Unit) s = roustNext 4 t := by
    simp only [run_bind, run_actingParty, hcolumn, Bool.not_true, Bool.false_eq_true, if_false, h]
  rw [extStep, roustStep, hrun]
  rfl

theorem modRoust_modRoust (c : Ctx) (storer : Bool) (f g : Roustabout → Roustabout) :
    modRoust (modRoust c storer f) storer g = modRoust c storer (fun r => g (f r)) := by
  cases storer <;> rfl

/-- A queue changed, then the move past the instruction. -/
theorem roustQueues_modQ (s : State) (f : Queues → Queues) :
    roustQueues (s.modCur (fun c => { c with q := f c.q })) id none = roustQueues s f none := by
  simp only [roustQueues, State.modCur_modCur, State.modCur_party, id_eq]

theorem roustQueues_writeX (s : State) (rd : XReg) (v : Word) :
    roustQueues (writeX rd v s) id none = roustQueues s id (some (rd, v)) := by
  simp only [roustQueues, writeX, State.modCur_modCur, State.modCur_party]
  cases s.party == Party.storer <;> rfl

theorem roustQueues_writeX_modQ (s : State) (f : Queues → Queues) (rd : XReg) (v : Word) :
    roustQueues (writeX rd v (s.modCur (fun c => { c with q := f c.q }))) id none = roustQueues s f (some (rd, v)) := by
  rw [roustQueues_writeX]
  simp only [roustQueues, State.modCur_modCur, State.modCur_party, id_eq]

theorem column_loader {s : State} (h : s.party = .loader) (storer : Bool) :
    (if s.party == .storer then storer else true) = true := by
  rw [h]
  rfl

theorem column_storer {s : State} (h : s.party = .storer) (loader : Bool) :
    (if s.party == .storer then true else loader) = true := by
  rw [h]
  rfl

/-! ### The loader's words and strips (R279, R286) -/

theorem exec_qaPush {x : QArgs} {s u : State} (hparty : s.party = .loader) (hroom : s.cur.q.qa.length < 16)
    (hrelease : releaseOwn .core s = .ok () u) :
    exec (.qaPush x) s = roustQueues u (fun q => { q with qa := q.qa ++ [xVal (roustIn s) x.rs1] }) none := by
  refine (extStep_ok (column_loader hparty _) ?_).trans (roustQueues_modQ u _)
  simp only [run_bind, run_getX, run_getCur, if_neg (Nat.not_le.mpr hroom), hrelease, run_modQ]

theorem exec_qbPush {x : QArgs} {s u : State} (hparty : s.party = .loader) (hroom : s.cur.q.qb.length < 16)
    (hrelease : releaseOwn .core s = .ok () u) :
    exec (.qbPush x) s = roustQueues u (fun q => { q with qb := q.qb ++ [xVal (roustIn s) x.rs1] }) none := by
  refine (extStep_ok (column_loader hparty _) ?_).trans (roustQueues_modQ u _)
  simp only [run_bind, run_getX, run_getCur, if_neg (Nat.not_le.mpr hroom), hrelease, run_modQ]

theorem exec_qaStat {x : QArgs} {s : State} (hparty : s.party = .loader) :
    exec (.qaStat x) s = roustQueues s id (some (x.rd, BitVec.ofNat 64 (16 - s.cur.q.qa.length))) := by
  refine (extStep_ok (column_loader hparty _) ?_).trans (roustQueues_writeX s _ _)
  rfl

theorem exec_qbStat {x : QArgs} {s : State} (hparty : s.party = .loader) :
    exec (.qbStat x) s = roustQueues s id (some (x.rd, BitVec.ofNat 64 (16 - s.cur.q.qb.length))) := by
  refine (extStep_ok (column_loader hparty _) ?_).trans (roustQueues_writeX s _ _)
  rfl

/-- The sizes of a strip within its bound pass the check of an announcement. -/
theorem size_ok {n most : Nat} (hpos : 0 < n) (hmost : n ≤ most) : (decide (n = 0) || decide (most < n)) = false := by
  simp only [Bool.or_eq_false_iff, decide_eq_false_iff_not]
  omega

theorem exec_qsStrip {x : QArgs} {s : State} {f : Fin 8} {st : Fin 16} {n off : Nat} (hparty : s.party = .loader)
    (hdesc : stripDesc (xVal (roustIn s) x.rs1) = some (f, st, n)) (hpos : 0 < n) (hmost : n ≤ 4096)
    (hown : ownSpad s (xVal (roustIn s) x.rs2) n = some off) (hroom : (s.cur.q.strips[f]).length < 8) :
    exec (.qsStrip x) s = roustQueues s (fun q => pendStage { q with
      strips := q.strips.set f (q.strips[f] ++ [.strip st n off none]) } st) none := by
  refine (extStep_ok (column_loader hparty _) ?_).trans (roustQueues_modQ s _)
  simp only [run_bind, run_getX, hdesc, size_ok hpos hmost, Bool.false_eq_true, if_false, run_get, hown, announce,
    run_getCur, if_neg (Nat.not_le.mpr hroom), run_modQ]

theorem exec_qsScale {x : QArgs} {s : State} {f : Fin 8} {st : Fin 16} {n off : Nat} {l : List StripEntry}
    (hparty : s.party = .loader) (hdesc : stripDesc (xVal (roustIn s) x.rs1) = some (f, st, n)) (hpos : 0 < n)
    (hmost : n ≤ 256) (hown : ownSpad s (xVal (roustIn s) x.rs2) n = some off)
    (hattach : attachScale (st, n, off) s.cur.q.strips[f] = some l) :
    exec (.qsScale x) s = roustQueues s (fun q => pendStage { q with strips := q.strips.set f l } st) none := by
  refine (extStep_ok (column_loader hparty _) ?_).trans (roustQueues_modQ s _)
  simp only [run_bind, run_getX, hdesc, size_ok hpos hmost, Bool.false_eq_true, if_false, run_get, hown, run_getCur,
    hattach, run_modQ]

theorem exec_qsEnd {x : QArgs} {s : State} {f : Fin 8} (hparty : s.party = .loader)
    (hqueue : f.val = field (xVal (roustIn s) x.rs1) 0 3) (hroom : (s.cur.q.strips[f]).length < 8) :
    exec (.qsEnd x) s =
      roustQueues s (fun q => { q with strips := q.strips.set f (q.strips[f] ++ [.endMark]) }) none := by
  have hf : Fin.ofNat 8 (field (xVal (roustIn s) x.rs1) 0 3) = f := by
    rw [← hqueue]
    exact Fin.ext (Nat.mod_eq_of_lt f.isLt)
  refine (extStep_ok (column_loader hparty _) ?_).trans (roustQueues_modQ s _)
  simp only [run_bind, run_getX, run_getCur, hf, if_neg (Nat.not_le.mpr hroom), run_modQ]

/-! ### The storer's words (R286) -/

theorem exec_qdPop {x : QArgs} {s : State} {w : Word} {rest : List Word} (hparty : s.party = .storer)
    (hqd : s.cur.q.qd = w :: rest) :
    exec (.qdPop x) s = roustQueues s (fun q => { q with qd := rest }) (some (x.rd, w)) := by
  refine (extStep_ok (column_storer hparty _) ?_).trans (roustQueues_writeX_modQ s _ _ _)
  simp only [run_bind, run_getCur, hqd, run_modQ, run_setX]

theorem exec_qdStat {x : QArgs} {s : State} (hparty : s.party = .storer) :
    exec (.qdStat x) s = roustQueues s id (some (x.rd, BitVec.ofNat 64 s.cur.q.qd.length)) := by
  refine (extStep_ok (column_storer hparty _) ?_).trans (roustQueues_writeX s _ _)
  rfl

/-! ### Engine ports (R264, R266, R286) -/

theorem enginePt_ok {pt : Word} {s : State} (h : (liveEngine s s.core (field pt 0 6)).isSome = true) :
    enginePt pt s = .ok (field pt 0 6) s := by
  obtain ⟨n, hn⟩ := Option.isSome_iff_exists.mp h
  simp only [enginePt, run_bind, run_get, hn, run_pure]

theorem exec_qePop {x : QArgs} {s : State} {e : ResElem} {rest : List ResElem}
    (hlive : (liveEngine s s.core (field (xVal (roustIn s) x.rs1) 0 6)).isSome = true)
    (hres : resFifo s.cur (field (xVal (roustIn s) x.rs1) 0 6) s.party = e :: rest) :
    exec (.qePop x) s = roustQueues (popAcquire
      (s.modCur (fun c => setResFifo c (field (xVal (roustIn s) x.rs1) 0 6) s.party rest)) s.core e.ranges) id
        (some (x.rd, e.w0)) := by
  refine (extStep_ok (ite_self _) ?_).trans (roustQueues_writeX _ _ _)
  simp only [run_bind, run_getX, enginePt_ok hlive, run_actingParty, popResult_ok hres, run_setX]
  rfl

theorem exec_qeStat {x : QArgs} {s : State}
    (hport : isEnginePort (field (xVal (roustIn s) x.rs1) 0 6) = true ∨
      field (xVal (roustIn s) x.rs1) 0 6 ∈ [16, 17, 18, 63]) :
    exec (.qeStat x) s =
      roustQueues s id (some (x.rd, eqstatWord s s.party (field (xVal (roustIn s) x.rs1) 0 6))) := by
  have hlisted : (!(isEnginePort (field (xVal (roustIn s) x.rs1) 0 6) ||
      [16, 17, 18, 63].contains (field (xVal (roustIn s) x.rs1) 0 6))) = false := by
    rw [Bool.not_eq_false', Bool.or_eq_true, List.contains_iff_mem]
    exact hport
  refine (extStep_ok (ite_self _) ?_).trans (roustQueues_writeX _ _ _)
  simp only [run_bind, run_getX, hlisted, Bool.false_eq_true, if_false, run_get, run_actingParty, run_setX]

theorem exec_qeWait {x : QArgs} {s : State} {n : Nat}
    (hlive : liveEngine s s.core (field (xVal (roustIn s) x.rs1) 0 6) = some n)
    (hnone : ∀ c ∈ ownCmds s s.slot (field (xVal (roustIn s) x.rs1) 0 6), c.party ≠ s.party) :
    exec (.qeWait x) s = roustQueues s id none := by
  have hdone : (ownCmds s s.slot (field (xVal (roustIn s) x.rs1) 0 6)).any (fun c => c.party == s.party) = false := by
    rw [List.any_eq_false]
    exact fun c hc => by simpa using hnone c hc
  refine extStep_ok (ite_self _) ?_
  simp only [run_bind, run_getX, enginePt_ok (Option.isSome_of_eq_some hlive), run_actingParty, run_get, hdone,
    Bool.false_eq_true,
    if_false, run_pure]

/-- The upper half of a word as a signed number. -/
theorem signExt_field_high (w : Word) : signExt (field w 32 32 : Nat) 32 = (w.extractLsb' 32 32).toInt := by
  rw [BitVec.toInt_eq_toNat_bmod, BitVec.extractLsb'_toNat]
  rfl

theorem exec_qePush {x : QArgs} {s u : State} {n : Nat} {src dst idx : Cap}
    (halign : (xVal (roustIn s) x.rs1).toNat % 8 = 0)
    (hlow : 0x4000 ≤ (xVal (roustIn s) x.rs1).toNat) (hhigh : (xVal (roustIn s) x.rs1).toNat + 32 ≤ 0x8000) :
    let v := xVal (roustIn s) x.rs1
    let word (i : Nat) : Word := wordOfBytes (memRead (roustIn s).dstore (v.toNat - 0x4000 + 8 * i) 8)
    let cmd := newCmd s s.party (word 0) src dst idx ((word 3).extractLsb' 32 32).toInt
    liveEngine s s.core (cmdPort (word 0)) = some n → pushRoom s n (cmdPort (word 0)) = true →
    pushCap (roustIn s) (field (word 3) 0 4) (word 1) s = .ok src s →
    pushCap (roustIn s) (field (word 3) 4 4) (word 2) s = .ok dst s →
    pushCap (roustIn s) (field (word 3) 8 4) 0 s = .ok idx s →
    (s.cur.spec = true → destsInside s n cmd = true) → releaseOwn (homeScope n) s = .ok () u →
    exec (.qePush x) s = roustQueues (joinEngine u n cmd) id (some (x.rd, BitVec.ofNat 64 cmd.seq)) := by
  intro v word cmd hlive hroom hsrc hdst hidx hspec hrelease
  have hplace : (decide (v.toNat % 8 ≠ 0) || !inDstore v.toNat 32) = false := by
    simp only [inDstore, Bool.or_eq_false_iff, decide_eq_false_iff_not, not_not, Bool.not_eq_false', Bool.and_eq_true,
      decide_eq_true_eq]
    exact ⟨halign, hlow, hhigh⟩
  have hpush := enginePush_ok hspec hroom hrelease
  refine (extStep_ok (ite_self _) ?_).trans (roustQueues_writeX _ _ _)
  simp only [run_bind, run_getX, run_getR]
  rw [if_neg (ne_true_of_eq_false hplace)]
  dsimp only [word, v] at hlive hsrc hdst hidx hpush
  simp only [run_bind, run_get, hlive, run_actingParty, hsrc, hdst, hidx, signExt_field_high, hpush, run_setX]
  rfl

theorem exec_qvFence {x : QArgs} {s u : State}
    (hrelease : releaseOwn (scopeOfCode (field (xVal (roustIn s) x.rs1) 0 3) .sys) s = .ok () u) :
    exec (.qvFence x) s =
      roustQueues (acquire u u.core (scopeOfCode (field (xVal (roustIn s) x.rs1) 0 3) .sys)) id none := by
  refine extStep_ok (ite_self _) ?_
  simp only [run_bind, run_getX, hrelease, run_modify]

theorem exec_qvEvent {x : QArgs} {s : State} (hroom : s.cur.q.events.length < 64) :
    exec (.qvEvent x) s = roustQueues s (fun q => { q with events := q.events ++
      [{ w0 := setField (setField (setField (xVal (roustIn s) x.rs1) 58 6 62) 50 1 1) 48 2 (pusherCode s.party),
         w1 := 0, w2 := 0, w3 := xVal (roustIn s) x.rs2, ranges := [] }] }) none := by
  refine (extStep_ok (ite_self _) ?_).trans (roustQueues_modQ s _)
  simp only [run_bind, run_getX, run_getCur, if_neg (Nat.not_le.mpr hroom), run_actingParty, run_modQ]

theorem exec_qvWait {x : QArgs} {s : State} {st : Fin 16} (hstage : st.val = field (xVal (roustIn s) x.rs1) 0 4)
    (hnone : s.cur.q.stages[st].pending = 0) :
    exec (.qvWait x) s = roustQueues s id (some (x.rd, (s.cur.q.stages[st].credit).setWidth 64)) := by
  have hst : Fin.ofNat 16 (field (xVal (roustIn s) x.rs1) 0 4) = st := by
    rw [← hstage]
    exact Fin.ext (Nat.mod_eq_of_lt st.isLt)
  refine (extStep_ok (ite_self _) ?_).trans (roustQueues_writeX s _ _)
  simp only [run_bind, run_getX, run_getCur, hst, hnone, ne_eq, not_true_eq_false, if_false, run_setX]

/-! ### Captured capabilities (R81, R286) -/

theorem pushCap_none {r : Roustabout} {n : Nat} (h : r.kc.toList[n]? = none) (off : Word) (s : State) :
    pushCap r n off s = .ok Cap.zero s := by
  rw [pushCap, h]
  rfl

theorem pushCap_unsealed {r : Roustabout} {n : Nat} {c : Cap} (h : r.kc.toList[n]? = some c)
    (hunsealed : c.tag = false ∨ capOtype c = 0) (off : Word) (s : State) :
    pushCap r n off s = .ok (setCursor c (capCursor c + off)) s := by
  have hpass : (c.tag && capOtype c != 0) = false := by rcases hunsealed with h | h <;> simp [h]
  rw [pushCap, h]
  simp only [hpass, Bool.false_eq_true, if_false, run_pure]

theorem pushCap_sealed {r : Roustabout} {n : Nat} {c : Cap} (h : r.kc.toList[n]? = some c) (htag : c.tag = true)
    (hsealed : capOtype c ≠ 0) (off : Word) (s : State) :
    pushCap r n off s =
      .error (.trap { cause := 0x23, party := 0, detail0 := BitVec.ofNat 64 n, detail1 := 0, poisonPc := 0 }) s := by
  have htrap : (c.tag && capOtype c != 0) = true := by
    rw [htag, Bool.true_and, bne_iff_ne]
    exact hsealed
  rw [pushCap, h]
  simp only [htrap, if_true]
  rfl

/-! ### Instructions of the other roustabout (R71, R72) -/

/-- An instruction outside the acting roustabout's column traps ILLEGAL with its word. -/
theorem extStep_illegal {loader storer : Bool} {m : M Unit} {s : State}
    (hcolumn : (if s.party == .storer then storer else loader) = false) :
    extStep loader storer m s = .next (raiseFor s.slot
      { cause := 0x10, party := if s.party == .storer then 3 else 2, detail0 := BitVec.ofNat 64 (wordAtPc (roustIn s)),
        detail1 := if s.party == .storer then 3 else 2, poisonPc := 0 } s) := by
  rw [extStep, roustStep]
  simp only [run_bind, run_actingParty, hcolumn, Bool.not_false, if_true]
  rfl

/-- What the storer is no agent for, and what the loader is none for. -/
theorem exec_other_roustabout {x : QArgs} {i : Instr} {s : State}
    (hi :
      (s.party = .storer ∧ i ∈ [.qaPush x, .qaStat x, .qbPush x, .qbStat x, .qsStrip x, .qsScale x, .qsEnd x]) ∨
      (s.party = .loader ∧ i ∈ [.qdPop x, .qdStat x])) :
    ∃ (loader storer : Bool) (m : M Unit), exec i s = extStep loader storer m s ∧
      (if s.party == .storer then storer else loader) = false := by
  rcases hi with ⟨hparty, hi⟩ | ⟨hparty, hi⟩ <;> rw [hparty] <;> simp only [List.mem_cons, List.not_mem_nil,
    or_false] at hi
  · rcases hi with rfl | rfl | rfl | rfl | rfl | rfl | rfl <;> exact ⟨true, false, _, rfl, rfl⟩
  · rcases hi with rfl | rfl <;> exact ⟨false, true, _, rfl, rfl⟩

/-- Settles O48. -/
theorem roustaboutExtension : Obligations.RoustaboutExtension := by
  refine ⟨?loader, ?storer, ?both, ?capture, ?other⟩
  case loader =>
    intro x s hparty v q
    exact ⟨fun u => exec_qaPush hparty, fun u => exec_qbPush hparty, exec_qaStat hparty, exec_qbStat hparty,
      fun f st n off => exec_qsStrip hparty, fun f st n off l => exec_qsScale hparty, fun f => exec_qsEnd hparty⟩
  case storer =>
    intro x s hparty
    exact ⟨fun w rest => exec_qdPop hparty, exec_qdStat hparty⟩
  case both =>
    intro x s hparty r v p
    exact ⟨fun n src dst idx u => exec_qePush, fun e rest => exec_qePop, exec_qeStat, fun n => exec_qeWait,
      fun u => exec_qvFence, exec_qvEvent, fun st => exec_qvWait⟩
  case capture =>
    intro r n off s
    exact ⟨fun h => pushCap_none h off s, fun c h => ⟨fun hunsealed => pushCap_unsealed h hunsealed off s,
      fun htag hsealed => pushCap_sealed h htag hsealed off s⟩⟩
  case other =>
    intro x i s t w hword hi trap
    cases hword
    obtain ⟨loader, storer, m, hexec, hcolumn⟩ := exec_other_roustabout hi
    rw [hexec, extStep_illegal hcolumn]
    rfl

end Sys2Proof.Machine

/-! # A store and a load within one quiet line of memory -/

namespace Sys2Proof.Machine

/-! ### Bytes of lists and of memory -/

@[simp] theorem bytesOfNat_length (n x : Nat) : (bytesOfNat n x).length = n := by
  induction n generalizing x with
  | zero => rfl
  | succ n ih => simp [bytesOfNat, ih]

theorem bytesOfNat_getElem {n i : Nat} (x : Nat) (h : i < (bytesOfNat n x).length) :
    (bytesOfNat n x)[i] = BitVec.ofNat 8 (x >>> (8 * i)) := by
  induction n generalizing x i with
  | zero => simp [bytesOfNat] at h
  | succ n ih =>
    cases i with
    | zero => rfl
    | succ i => simp only [bytesOfNat, List.getElem_cons_succ, ih, ← Nat.shiftRight_add, Nat.mul_succ, Nat.add_comm]

/-- The number of the bytes of a number is what those bytes hold of it. -/
theorem natOfBytes_bytesOfNat (n x : Nat) : natOfBytes (bytesOfNat n x) = x % 256 ^ n := by
  induction n generalizing x with
  | zero => simp [bytesOfNat, natOfBytes, Nat.mod_one]
  | succ n ih =>
    rw [bytesOfNat, natOfBytes, ih, BitVec.toNat_ofNat, Nat.shiftRight_eq_div_pow, show (2 : Nat) ^ 8 = 256 from rfl, pow_succ',
      Nat.mod_mul]

/-- A byte of the number of a list of bytes. -/
theorem natOfBytes_byte {bs : List Byte} {i : Nat} (h : i < bs.length) :
    BitVec.ofNat 8 (natOfBytes bs >>> (8 * i)) = bs[i] := by
  induction bs generalizing i with
  | nil => simp at h
  | cons b bs ih =>
    cases i with
    | zero =>
      apply BitVec.eq_of_toNat_eq
      have hb := b.isLt
      simp only [natOfBytes, List.getElem_cons_zero, BitVec.toNat_ofNat, Nat.mul_zero, Nat.shiftRight_zero]
      omega
    | succ i =>
      have hb := b.isLt
      rw [List.getElem_cons_succ, ← ih (by simpa using h), natOfBytes, Nat.mul_succ, Nat.add_comm (8 * i),
        Nat.shiftRight_add, Nat.shiftRight_eq_div_pow _ 8, show (2 : Nat) ^ 8 = 256 from rfl,
        Nat.add_mul_div_left _ _ (by decide), Nat.div_eq_of_lt hb, Nat.zero_add]

theorem memRead_congr {m m' : Bytes} {a n : Nat} (h : ∀ x, a ≤ x → x < a + n → memGet m' x = memGet m x) :
    memRead m' a n = memRead m a n := by
  induction n generalizing a with
  | zero => rfl
  | succ n ih =>
    rw [memRead, memRead, h a (le_refl a) (by omega), ih (fun x hlow hhigh => h x (by omega) (by omega))]

theorem memRead_memWrite_self (m : Bytes) (a : Nat) (bs : List Byte) : memRead (memWrite m a bs) a bs.length = bs := by
  induction bs generalizing m a with
  | nil => rfl
  | cons b bs ih =>
    rw [memWrite, List.length_cons, memRead, ih, memGet_memWrite_outside _ _ _ _ (by omega), memGet_memPut_self]

/-! ### Bytes of a line -/

/-- The bits of a number that gains eight ones for each index of a list that a mask names. -/
theorem testBit_foldl_maskedByte (m : BitVec 64) (l : List Nat) (a j : Nat) :
    (l.foldl (fun acc i => if m.getLsbD i then acc ||| (255 <<< (8 * i)) else acc) a).testBit j =
      (a.testBit j || decide (j / 8 ∈ l) && m.getLsbD (j / 8)) := by
  induction l generalizing a with
  | nil => simp
  | cons i l ih =>
    have hbyte : (255 <<< (8 * i) : Nat).testBit j = decide (j / 8 = i) := by
      rw [Nat.testBit_shiftLeft, show 255 = 2 ^ 8 - 1 from rfl, Nat.testBit_two_pow_sub_one, ← Bool.decide_and]
      exact decide_eq_decide.mpr (by omega)
    rw [List.foldl_cons, ih]
    by_cases hi : j / 8 = i
    · subst hi
      cases m.getLsbD (j / 8) <;> simp [hbyte]
    · cases m.getLsbD i <;> simp [hbyte, hi]

/-- The mask of bytes of a line, bit by bit. -/
theorem expandMask_getLsbD (m : BitVec 64) {j : Nat} (hj : j < 512) : (expandMask m).getLsbD j = m.getLsbD (j / 8) := by
  rw [expandMask, BitVec.getLsbD_ofNat, testBit_foldl_maskedByte]
  simp [hj, show j / 8 < 64 by omega]

/-- A byte of a line of 64. -/
def lineByte (d : BitVec 512) (i : Nat) : Byte := d.extractLsb' (8 * i) 8

/-- A merged line has the new bytes where the mask stands and the old ones elsewhere. -/
theorem lineByte_mergeData (old new : BitVec 512) (m : BitVec 64) {i : Nat} (hi : i < 64) :
    lineByte (mergeData old new m) i = if m.getLsbD i then lineByte new i else lineByte old i := by
  apply BitVec.eq_of_getLsbD_eq
  intro j hj
  have hbit := expandMask_getLsbD m (j := 8 * i + j) (by omega)
  rw [show (8 * i + j) / 8 = i by omega] at hbit
  simp only [lineByte, mergeData, BitVec.getLsbD_extractLsb', BitVec.getLsbD_or, BitVec.getLsbD_and, BitVec.getLsbD_not, hbit,
    hj, show 8 * i + j < 512 by omega, decide_true, Bool.true_and]
  cases hm : m.getLsbD i <;> simp [hj]

theorem byteMask_getLsbD (lo n : Nat) {i : Nat} (hi : i < 64) :
    (byteMask lo n).getLsbD i = decide (lo ≤ i ∧ i < lo + n) := by
  rw [byteMask, maskAt, BitVec.getLsbD_ofNat, Nat.testBit_shiftLeft, Nat.testBit_two_pow_sub_one, decide_eq_true hi,
    Bool.true_and, ← Bool.decide_and]
  exact decide_eq_decide.mpr (by omega)

/-- The bytes that a store places in its line. -/
theorem lineByte_placed {bs : List Byte} {lo i : Nat} (hlow : lo ≤ i) (hhigh : i < lo + bs.length) (hi : i < 64) :
    lineByte (BitVec.ofNat 512 (natOfBytes bs <<< (8 * lo))) i = bs.getD (i - lo) 0 := by
  have hlt : i - lo < bs.length := by omega
  rw [List.getD_eq_getElem _ _ hlt, ← natOfBytes_byte hlt]
  apply BitVec.eq_of_getLsbD_eq
  intro j hj
  simp only [lineByte, BitVec.getLsbD_extractLsb', BitVec.getLsbD_ofNat, Nat.testBit_shiftLeft, Nat.testBit_shiftRight,
    show 8 * i + j < 512 by omega, show 8 * lo ≤ 8 * i + j by omega, hj, decide_true, Bool.true_and]
  congr 1
  omega

/-- The bytes that a load takes from its line. -/
theorem loadedBytes (d : BitVec 512) {lo n : Nat} (h : lo + n ≤ 64) :
    ((bytesOfNat 64 d.toNat).drop lo).take n = (List.range n).map (fun i => lineByte d (lo + i)) := by
  apply List.ext_getElem
  · simp; omega
  · intro i h1 h2
    simp only [List.getElem_take, List.getElem_drop, List.getElem_map, List.getElem_range, bytesOfNat_getElem]
    rfl

/-! ### What a step of one line of a core leaves apart (R115, R116) -/

/-- A line that stands apart for a core: a write of it at the package point copies no page, it moves no other line, the memory
side holds every line, and no sibling has a copy. -/
structure Quiet (k l : Nat) (s : State) : Prop where
  snaps : ∀ d < 4, (s.snapAt d).cut = false
  ties : s.ties = []
  held : ∀ m, (s.sideAt m).held = true
  siblings : ∀ j ∈ siblings s k, lookupKey l (s.coreAt j).l1 = none

theorem quiet_of_quietLine {k l : Nat} {s : State} (h : quietLine s k l = true) : Quiet k l s := by
  simp only [quietLine, Bool.and_eq_true, List.all_eq_true, List.mem_range, Bool.not_eq_true', List.isEmpty_iff,
    Option.isNone_iff_eq_none] at h
  obtain ⟨⟨⟨hsnaps, hties⟩, hside⟩, hsiblings⟩ := h
  refine ⟨hsnaps, hties, fun m => ?_, hsiblings⟩
  rw [State.sideAt, hside]
  rfl

/-- What a step of one line of a core leaves: the other lines at every point, the line in the other cores, and what
programs hold in their registers. -/
structure Apart (k l : Nat) (s t : State) : Prop where
  snaps : t.snaps = s.snaps
  ties : t.ties = s.ties
  clusters : t.clusters = s.clusters
  held : (∀ m, (s.sideAt m).held = true) → ∀ m, (t.sideAt m).held = true
  levelOne : ∀ j m, j ≠ l1Home s k l ∨ m ≠ l → lookupKey m (t.coreAt j).l1 = lookupKey m (s.coreAt j).l1
  levelTwo : ∀ d m, m ≠ l → t.l2Line d m = s.l2Line d m
  package : ∀ m, m ≠ l → pkgData t m = pkgData s m
  registers : ∀ slot, (t.ctxAt slot).r = (s.ctxAt slot).r ∧ (t.ctxAt slot).h = (s.ctxAt slot).h ∧
    (t.ctxAt slot).vr = (s.ctxAt slot).vr ∧ (t.ctxAt slot).mx = (s.ctxAt slot).mx

theorem l1Home_of_clusters {s t : State} (h : t.clusters = s.clusters) (k m : Nat) : l1Home t k m = l1Home s k m := by
  simp only [l1Home, State.clusterAt, h]

theorem siblings_of_clusters {s t : State} (h : t.clusters = s.clusters) (k : Nat) : siblings t k = siblings s k := by
  rw [siblings, siblings, State.clusterAt, State.clusterAt, h]

/-- The level one that a core uses is no sibling's. -/
theorem ne_l1Home_of_sibling {s : State} {k j : Nat} (h : j ∈ siblings s k) (l : Nat) : j ≠ l1Home s k l := by
  cases hfused : (s.clusterAt (clusterOf k)).fused with
  | some x => simp [siblings, hfused] at h
  | none =>
    simp only [siblings, hfused, Option.isSome_none, Bool.false_eq_true, if_false, List.mem_filter] at h
    simpa only [l1Home, hfused, bne_iff_ne] using h.2

namespace Apart

theorem refl (k l : Nat) (s : State) : Apart k l s s where
  snaps := rfl
  ties := rfl
  clusters := rfl
  held := id
  levelOne _ _ _ := rfl
  levelTwo _ _ _ := rfl
  package _ _ := rfl
  registers _ := ⟨rfl, rfl, rfl, rfl⟩

theorem trans {k l : Nat} {s t u : State} (h : Apart k l s t) (g : Apart k l t u) : Apart k l s u where
  snaps := g.snaps.trans h.snaps
  ties := g.ties.trans h.ties
  clusters := g.clusters.trans h.clusters
  held hs := g.held (h.held hs)
  levelOne j m hjm := (g.levelOne j m (by rwa [l1Home_of_clusters h.clusters])).trans (h.levelOne j m hjm)
  levelTwo d m hm := (g.levelTwo d m hm).trans (h.levelTwo d m hm)
  package m hm := (g.package m hm).trans (h.package m hm)
  registers slot := by
    obtain ⟨hr, hh, hvr, hmx⟩ := h.registers slot
    obtain ⟨gr, gh, gvr, gmx⟩ := g.registers slot
    exact ⟨gr.trans hr, gh.trans hh, gvr.trans hvr, gmx.trans hmx⟩

theorem l1Home {k l : Nat} {s t : State} (h : Apart k l s t) (m : Nat) : l1Home t k m = Machine.l1Home s k m :=
  l1Home_of_clusters h.clusters k m

/-- A line that stands apart still does after a step of it. -/
theorem quiet {k l : Nat} {s t : State} (h : Apart k l s t) (hq : Quiet k l s) : Quiet k l t where
  snaps d hd := by rw [State.snapAt, h.snaps]; exact hq.snaps d hd
  ties := h.ties.trans hq.ties
  held := h.held hq.held
  siblings j hj := by
    rw [siblings_of_clusters h.clusters] at hj
    exact (h.levelOne j l (.inl (ne_l1Home_of_sibling hj l))).trans (hq.siblings j hj)

/-- A core sees the other lines as before. -/
theorem seenBy_ne {k l : Nat} {s t : State} (h : Apart k l s t) {a : Nat} (ha : lineOf a ≠ l) :
    seenBy t k a = seenBy s k a := by
  have hlevel (j : Nat) : lookupKey (lineOf a) (t.coreAt j).l1 = lookupKey (lineOf a) (s.coreAt j).l1 :=
    h.levelOne j _ (.inr ha)
  have hline : t.l1Line k (lineOf a) = s.l1Line k (lineOf a) := by rw [State.l1Line, State.l1Line, h.l1Home, hlevel]
  have hsnooped : snooped t k (lineOf a) = snooped s k (lineOf a) := by
    simp only [snooped, siblings_of_clusters h.clusters, hlevel]
  have hfill : (fillLine t k (lineOf a)).1.data = (fillLine s k (lineOf a)).1.data := by
    simp only [fillLine, hsnooped, h.levelTwo _ _ ha, h.package _ ha]
    cases snooped s k (lineOf a) <;> cases s.l2Line (dieOf k) (lineOf a) <;> rfl
  rw [seenBy, seenBy, hline]
  cases s.l1Line k (lineOf a) with
  | none => rw [Option.getD_none, Option.getD_none, hfill]
  | some x => rfl

end Apart

/-! ### The operations on one line -/

/-- One core's level one with a line of it changed. -/
theorem apart_modCore {k l : Nat} {s : State} {f : Core → Core} (hf : ∀ c m, m ≠ l → lookupKey m (f c).l1 = lookupKey m c.l1) :
    Apart k l s (s.modCore (l1Home s k l) f) where
  snaps := rfl
  ties := rfl
  clusters := rfl
  held := id
  levelOne j m hjm := by
    by_cases hj : j = l1Home s k l
    · subst hj
      rw [State.coreAt_modCore_self]
      exact hf _ _ (hjm.resolve_left (fun h => h rfl))
    · rw [State.coreAt_modCore_ne s hj]
  levelTwo _ _ _ := rfl
  package _ _ := rfl
  registers _ := ⟨rfl, rfl, rfl, rfl⟩

theorem apart_l1Put (s : State) (k l : Nat) (x : L1Line) : Apart k l s (s.l1Put k l x) :=
  apart_modCore (fun c _ hm => lookupKey_insertKey_ne hm x c.l1)

theorem apart_l1Del (s : State) (k l : Nat) : Apart k l s (s.l1Del k l) :=
  apart_modCore (fun c _ hm => lookupKey_eraseKey_ne hm c.l1)

theorem State.l2Line_insertKey (s : State) (d e m : Nat) (ls : List (Nat × L2Line)) :
    State.l2Line { s with l2 := insertKey d ls s.l2 } e m = if e = d then lookupKey m ls else s.l2Line e m := by
  simp only [State.l2Line, State.l2Of, lookupKey_insertKey]
  split <;> rfl

/-- A die's level two with a line of it changed. -/
theorem apart_levelTwo {k l d : Nat} {s : State} {ls : List (Nat × L2Line)}
    (h : ∀ m, m ≠ l → lookupKey m ls = s.l2Line d m) : Apart k l s { s with l2 := insertKey d ls s.l2 } where
  snaps := rfl
  ties := rfl
  clusters := rfl
  held := id
  levelOne _ _ _ := rfl
  levelTwo e m hm := by
    rw [State.l2Line_insertKey]
    split
    · next he => rw [h m hm, he]
    · rfl
  package _ _ := rfl
  registers _ := ⟨rfl, rfl, rfl, rfl⟩

theorem apart_l2Put (s : State) (k d l : Nat) (x : L2Line) : Apart k l s (s.l2Put d l x) :=
  apart_levelTwo (fun _ hm => lookupKey_insertKey_ne hm x _)

theorem apart_l2Del (s : State) (k d l : Nat) : Apart k l s (s.l2Del d l) :=
  apart_levelTwo (fun _ hm => lookupKey_eraseKey_ne hm _)

theorem State.l2Line_l2Del_die (s : State) {d e : Nat} (h : e ≠ d) (l m : Nat) : (s.l2Del d l).l2Line e m = s.l2Line e m := by
  rw [State.l2Del, State.l2Line_insertKey, if_neg h]

/-- Contexts changed outside their registers. -/
theorem apart_mapCtxs {k l : Nat} {s : State} {f : Ctx → Ctx}
    (hf : ∀ c, (f c).r = c.r ∧ (f c).h = c.h ∧ (f c).vr = c.vr ∧ (f c).mx = c.mx) :
    Apart k l s (s.mapCtxs (fun _ => f)) where
  snaps := rfl
  ties := rfl
  clusters := rfl
  held := id
  levelOne _ _ _ := rfl
  levelTwo _ _ _ := rfl
  package _ _ := rfl
  registers slot := by
    simp only [State.ctxAt, State.ctx?, State.mapCtxs, lookupKey_map]
    cases lookupKey slot s.ctxs with
    | none => exact ⟨rfl, rfl, rfl, rfl⟩
    | some c => exact hf c

theorem apart_spread (s : State) (k l m : Nat) : Apart k l s (spread s m) := by
  have hparked : Apart k l s (s.mapCtxs (fun _ c => if c.parked = some m then { c with hit := true } else c)) :=
    apart_mapCtxs (fun c => by split <;> exact ⟨rfl, rfl, rfl, rfl⟩)
  exact { hparked with }

theorem apart_touch (s : State) (k l m : Nat) : Apart k l s (touch s m) := by
  have hreserved : Apart k l s (s.mapCtxs (fun _ c =>
      { c with loader := unreserve m c.loader, storer := unreserve m c.storer })) :=
    apart_mapCtxs (fun _ => ⟨rfl, rfl, rfl, rfl⟩)
  refine Apart.trans (t := { s.mapCtxs (fun _ c =>
    { c with loader := unreserve m c.loader, storer := unreserve m c.storer }) with
      segs := s.segs.filter (fun t => !t.contains m) }) { hreserved with } (apart_spread _ k l m)

/-! ### The package point under a quiet line -/

theorem snapBefore_quiet {k l : Nat} {s : State} (h : Quiet k l s) : snapBefore s l = s := by
  have hnone (d : Nat) (hd : d ∈ List.range 4) : snapPage s d l = none := by
    simp only [snapPage, snapLeft, h.snaps d (List.mem_range.mp hd), Bool.false_and, Bool.false_eq_true, if_false, ite_self]
  refine List.foldlRecOn (motive := (· = s)) _ _ rfl (fun b hb d hd => ?_)
  subst hb
  rw [hnone d hd]

theorem sideFill_quiet {k l : Nat} {s : State} (h : Quiet k l s) (m : Nat) (code : BitVec 2) : sideFill s m code = s := by
  rw [sideFill, h.held m, Bool.true_or, if_pos rfl]

theorem sideAt_setSide (s : State) (l m : Nat) (x : SideLine) : (s.setSide l x).sideAt m = if m = l then x else s.sideAt m := by
  by_cases hx : x = SideLine.plain <;> by_cases hm : m = l <;>
    simp [State.sideAt, State.setSide, hx, hm, lookupKey_insertKey, lookupKey_eraseKey]

theorem sideMark_held {s : State} (h : ∀ m, (s.sideAt m).held = true) (l : Nat) (code : BitVec 2) (m : Nat) :
    ((sideMark s l code).sideAt m).held = true := by
  rw [sideMark]
  split
  · rw [sideAt_setSide]
    split
    · exact h l
    · exact h m
  · exact h m

theorem pkgData_pkgSet_ne (s : State) {l m : Nat} (h : m ≠ l) (data : BitVec 512) (tags : BitVec 4) :
    pkgData (pkgSet s l data tags) m = pkgData s m := by
  rw [pkgData, pkgData]
  congr 2
  refine memRead_congr (fun x hlow hhigh => memGet_memWrite_outside _ _ _ _ ?_)
  rw [bytesOfNat_length]
  omega

theorem pkgData_pkgSet_self (s : State) (l : Nat) (data : BitVec 512) (tags : BitVec 4) :
    pkgData (pkgSet s l data tags) l = data := by
  have hread := memRead_memWrite_self s.mem (64 * l) (bytesOfNat 64 data.toNat)
  rw [bytesOfNat_length] at hread
  have hsize : (256 : Nat) ^ 64 = 2 ^ 512 := by rw [show (256 : Nat) = 2 ^ 8 from rfl, ← pow_mul]
  rw [pkgData, pkgSet, hread, natOfBytes_bytesOfNat, hsize, Nat.mod_eq_of_lt data.isLt, BitVec.ofNat_toNat, BitVec.setWidth_eq]

theorem apart_pkgSet (s : State) (k l : Nat) (data : BitVec 512) (tags : BitVec 4) : Apart k l s (pkgSet s l data tags) where
  snaps := rfl
  ties := rfl
  clusters := rfl
  held := id
  levelOne _ _ _ := rfl
  levelTwo _ _ _ := rfl
  package _ hm := pkgData_pkgSet_ne s hm data tags
  registers _ := ⟨rfl, rfl, rfl, rfl⟩

/-- What a mark on the memory side leaves: everything else. -/
theorem sideMark_eq (s : State) (l : Nat) (code : BitVec 2) : ∃ side, sideMark s l code = { s with side := side } := by
  rw [sideMark, State.setSide]
  split
  · exact ⟨_, rfl⟩
  · exact ⟨s.side, rfl⟩

theorem apart_sideMark (s : State) (k l m : Nat) (code : BitVec 2) : Apart k l s (sideMark s m code) := by
  obtain ⟨side, heq⟩ := sideMark_eq s m code
  have hheld := fun h => sideMark_held (s := s) h m code
  rw [heq] at hheld ⊢
  exact { Apart.refl k l s with held := hheld }

/-- Bytes merged at the package point under a quiet line: its level ones and level twos stand, and the package point has the
merged line. -/
theorem pkgMerge_quiet {k l : Nat} {s : State} (h : Quiet k l s) {m : BitVec 64} (hm : m ≠ 0) (data : BitVec 512)
    (tags : BitVec 4) (code : BitVec 2) :
    ∃ poison, pkgMerge s l data m tags code =
      spread (sideMark (pkgSet { s with poison := poison } l (mergeData (pkgData s l) data m) (mergeTags (pkgTags s l) tags m))
        l code) l := by
  rw [pkgMerge, if_neg hm, snapBefore_quiet h, rawMerge, if_neg hm, sideFill_quiet h]
  by_cases hall : m = BitVec.allOnes 64
  · simp only [if_pos hall]
    exact ⟨eraseNat l s.poison, rfl⟩
  · simp only [if_neg hall]
    exact ⟨s.poison, rfl⟩

theorem apart_pkgMerge {k l : Nat} {s : State} (h : Quiet k l s) (data : BitVec 512) (m : BitVec 64) (tags : BitVec 4)
    (code : BitVec 2) : Apart k l s (pkgMerge s l data m tags code) := by
  by_cases hm : m = 0
  · rw [pkgMerge, if_pos hm]
    exact Apart.refl k l s
  · obtain ⟨poison, heq⟩ := pkgMerge_quiet h hm data tags code
    rw [heq]
    have hpoison : Apart k l s { s with poison := poison } := { Apart.refl k l s with }
    exact ((hpoison.trans (apart_pkgSet _ k l _ _)).trans (apart_sideMark _ k l l code)).trans (apart_spread _ k l l)

@[simp] theorem sideMark_cores (s : State) (l : Nat) (code : BitVec 2) : (sideMark s l code).cores = s.cores := by
  obtain ⟨side, heq⟩ := sideMark_eq s l code
  rw [heq]

@[simp] theorem sideMark_l2 (s : State) (l : Nat) (code : BitVec 2) : (sideMark s l code).l2 = s.l2 := by
  obtain ⟨side, heq⟩ := sideMark_eq s l code
  rw [heq]

theorem pkgMerge_cores {k l : Nat} {s : State} (h : Quiet k l s) (data : BitVec 512) (m : BitVec 64) (tags : BitVec 4)
    (code : BitVec 2) : (pkgMerge s l data m tags code).cores = s.cores := by
  by_cases hm : m = 0
  · rw [pkgMerge, if_pos hm]
  · obtain ⟨poison, heq⟩ := pkgMerge_quiet h hm data tags code
    rw [heq]
    exact sideMark_cores _ _ _

theorem pkgMerge_l2 {k l : Nat} {s : State} (h : Quiet k l s) (data : BitVec 512) (m : BitVec 64) (tags : BitVec 4)
    (code : BitVec 2) : (pkgMerge s l data m tags code).l2 = s.l2 := by
  by_cases hm : m = 0
  · rw [pkgMerge, if_pos hm]
  · obtain ⟨poison, heq⟩ := pkgMerge_quiet h hm data tags code
    rw [heq]
    exact sideMark_l2 _ _ _

/-- The merged bytes stand at the package point. -/
theorem lineByte_pkgMerge {k l : Nat} {s : State} (h : Quiet k l s) (data : BitVec 512) {m : BitVec 64} (tags : BitVec 4)
    (code : BitVec 2) {i : Nat} (hi : i < 64) (hbit : m.getLsbD i = true) :
    lineByte (pkgData (pkgMerge s l data m tags code) l) i = lineByte data i := by
  have hm : m ≠ 0 := fun h0 => by simp [h0] at hbit
  obtain ⟨poison, heq⟩ := pkgMerge_quiet h hm data tags code
  have hdata : pkgData (pkgMerge s l data m tags code) l = mergeData (pkgData s l) data m := by
    rw [heq, pkgData, spread_mem, sideMark_mem]
    exact pkgData_pkgSet_self _ _ _ _
  rw [hdata, lineByte_mergeData _ _ _ hi, if_pos hbit]

theorem coreAt_of_cores {s t : State} (h : t.cores = s.cores) (j : Nat) : t.coreAt j = s.coreAt j := by
  rw [State.coreAt, State.coreAt, h]

theorem l1Line_of_cores {k l : Nat} {s t : State} (h : Apart k l s t) (hcores : t.cores = s.cores) (m : Nat) :
    t.l1Line k m = s.l1Line k m := by
  rw [State.l1Line, State.l1Line, h.l1Home, coreAt_of_cores hcores]

theorem l2Line_of_l2 {s t : State} (h : t.l2 = s.l2) (d m : Nat) : t.l2Line d m = s.l2Line d m := by
  rw [State.l2Line, State.l2Line, State.l2Of, State.l2Of, h]

/-! ### A fill -/

/-- A line as a load of a core at .core finds it: its own, or what a fill would bring. -/
def seenLine (s : State) (k l : Nat) : BitVec 512 := ((s.l1Line k l).getD (fillLine s k l).1).data

theorem seenBy_eq (s : State) (k a : Nat) : seenBy s k a = lineByte (seenLine s k (lineOf a)) (a % 64) := rfl

theorem seenLine_some {s : State} {k l : Nat} {x : L1Line} (h : s.l1Line k l = some x) : seenLine s k l = x.data := by
  rw [seenLine, h, Option.getD_some]

theorem snooped_quiet {k l : Nat} {s : State} (h : Quiet k l s) : snooped s k l = [] := by
  refine List.filterMap_eq_nil_iff.mpr (fun j hj => ?_)
  rw [h.siblings j hj, Option.bind_none]

/-- Of a quiet line that level one misses, a core sees what level two holds, or else the package point. -/
theorem seenLine_none {k l : Nat} {s : State} (h : Quiet k l s) (hmiss : s.l1Line k l = none) :
    seenLine s k l = match s.l2Line (dieOf k) l with
      | some x => x.data
      | none => pkgData s l := by
  rw [seenLine, hmiss, Option.getD_none, fillLine, snooped_quiet h]
  cases s.l2Line (dieOf k) l <;> rfl

theorem readySide_quiet {k l : Nat} {s : State} (h : Quiet k l s) : readySide s k l = s := by
  rw [readySide, sideFill_quiet h, ite_self]

/-- A fill of a quiet line brings the bytes that the core sees, and changes none of them. -/
structure Filled (k l : Nat) (s : State) (r : State × L1Line) : Prop where
  apart : Apart k l s r.1
  data : r.2.data = seenLine s k l
  seen : seenLine r.1 k l = seenLine s k l
  mem : r.1.mem = s.mem
  ctxs : r.1.ctxs = s.ctxs

/-- The line that a fill brings into level two, where it brings one. -/
def filledTwo (s : State) (k l hint : Nat) : State :=
  if (fillLine s k l).2 && (allocates hint).2 then
    s.l2Put (dieOf k) l
      { data := (fillLine s k l).1.data, dirty := 0, tags := (fillLine s k l).1.tags, writers := [], owner := 0,
        code := (fillLine s k l).1.code }
  else s

theorem withFill_hit {s : State} {k l : Nat} {x : L1Line} (h : s.l1Line k l = some x) (hint : Nat) :
    withFill s k l hint = (s, x) := by
  rw [withFill, h]

theorem withFill_miss {k l : Nat} {s : State} (h : Quiet k l s) (hmiss : s.l1Line k l = none) (hint : Nat) :
    withFill s k l hint = (if (allocates hint).1 then (filledTwo s k l hint).l1Put k l (fillLine s k l).1
      else filledTwo s k l hint, (fillLine s k l).1) := by
  rw [withFill, hmiss]
  simp only [readySide_quiet h, filledTwo]

theorem apart_filledTwo (s : State) (k l hint : Nat) : Apart k l s (filledTwo s k l hint) := by
  rw [filledTwo]
  split
  · exact apart_l2Put s k _ l _
  · exact Apart.refl k l s

theorem l1Line_filledTwo (s : State) (k l hint : Nat) : (filledTwo s k l hint).l1Line k l = s.l1Line k l := by
  rw [filledTwo]
  split <;> rfl

theorem fillLine_data {k l : Nat} {s : State} (hmiss : s.l1Line k l = none) :
    (fillLine s k l).1.data = seenLine s k l := by
  rw [seenLine, hmiss, Option.getD_none]

theorem seenLine_filledTwo {k l : Nat} {s : State} (h : Quiet k l s) (hmiss : s.l1Line k l = none) (hint : Nat) :
    seenLine (filledTwo s k l hint) k l = seenLine s k l := by
  rw [← fillLine_data hmiss, seenLine_none ((apart_filledTwo s k l hint).quiet h) ((l1Line_filledTwo s k l hint).trans hmiss)]
  by_cases hput : ((fillLine s k l).2 && (allocates hint).2) = true
  · rw [filledTwo, if_pos hput, State.l2Line_l2Put_self]
  · rw [filledTwo, if_neg hput, fillLine_data hmiss, seenLine_none h hmiss]

theorem filledTwo_mem (s : State) (k l hint : Nat) : (filledTwo s k l hint).mem = s.mem := by
  rw [filledTwo]
  split <;> rfl

theorem filledTwo_ctxs (s : State) (k l hint : Nat) : (filledTwo s k l hint).ctxs = s.ctxs := by
  rw [filledTwo]
  split <;> rfl

theorem withFill_filled {k l : Nat} {s : State} (h : Quiet k l s) (hint : Nat) : Filled k l s (withFill s k l hint) := by
  cases hline : s.l1Line k l with
  | some x =>
    rw [withFill_hit hline]
    exact ⟨Apart.refl k l s, (seenLine_some hline).symm, rfl, rfl, rfl⟩
  | none =>
    rw [withFill_miss h hline]
    split
    · exact ⟨(apart_filledTwo s k l hint).trans (apart_l1Put _ k l _), fillLine_data hline,
        (seenLine_some (State.l1Line_l1Put_self _ k l _)).trans (fillLine_data hline), filledTwo_mem s k l hint,
        filledTwo_ctxs s k l hint⟩
    · exact ⟨apart_filledTwo s k l hint, fillLine_data hline, seenLine_filledTwo h hline hint, filledTwo_mem s k l hint,
        filledTwo_ctxs s k l hint⟩

/-- A core sees every byte as before a fill. -/
theorem seenBy_of_filled {k l : Nat} {s : State} {r : State × L1Line} (h : Filled k l s r) (a : Nat) :
    seenBy r.1 k a = seenBy s k a := by
  by_cases ha : lineOf a = l
  · rw [seenBy_eq, seenBy_eq, ha, h.seen]
  · exact h.apart.seenBy_ne ha

/-! ### Where stored bytes stand -/

/-- The masked bytes of a line stand at a die or wider: level two holds them pending, or else the package point has them. -/
def Carried (k l : Nat) (data : BitVec 512) (m : BitVec 64) (s : State) : Prop :=
  ∀ i < 64, m.getLsbD i = true → match s.l2Line (dieOf k) l with
    | some x => x.dirty.getLsbD i = true ∧ lineByte x.data i = lineByte data i
    | none => lineByte (pkgData s l) i = lineByte data i

/-- A core's level one has the line with these bytes, those of the mask pending in it or carried out. -/
def Kept (k l : Nat) (data : BitVec 512) (m : BitVec 64) (s : State) : Prop :=
  ∃ y, s.l1Line k l = some y ∧ y.data = data ∧
    ((∀ i < 64, m.getLsbD i = true → y.dirty.getLsbD i = true) ∧ narrower y.scope .die = true ∨
      y.dirty = 0 ∧ Carried k l data m s)

theorem carried_congr {k l : Nat} {data : BitVec 512} {m : BitVec 64} {s t : State} (hl2 : t.l2 = s.l2)
    (hmem : t.mem = s.mem) (h : Carried k l data m s) : Carried k l data m t := by
  intro i hi hm
  have hc := h i hi hm
  rw [← l2Line_of_l2 hl2] at hc
  rwa [pkgData, hmem]

/-- A level-one line's pending bytes merged into level two stand there. -/
theorem carried_l2Merge {k l : Nat} (s : State) (y : L1Line) {m : BitVec 64}
    (hm : ∀ i < 64, m.getLsbD i = true → y.dirty.getLsbD i = true) : Carried k l y.data m (l2Merge s (dieOf k) l y) := by
  intro i hi hbit
  have hdirty := hm i hi hbit
  have hne : y.dirty ≠ 0 := fun h0 => by simp [h0] at hdirty
  have hmerged (old : BitVec 512) : lineByte (mergeData old y.data y.dirty) i = lineByte y.data i := by
    rw [lineByte_mergeData _ _ _ hi, if_pos hdirty]
  rw [l2Merge, if_neg hne]
  cases s.l2Line (dieOf k) l <;>
    simp only [State.l2Line_l2Put_self, hmerged, BitVec.getLsbD_or, hdirty, Bool.or_true, and_self]

theorem apart_l2Merge {k l : Nat} {s : State} (h : Quiet k l s) (d : Nat) (y : L1Line) : Apart k l s (l2Merge s d l y) := by
  rw [l2Merge]
  split
  · exact Apart.refl k l s
  · cases s.l2Line d l with
    | none =>
      simp only [sideFill_quiet h]
      exact apart_l2Put s k d l _
    | some x => exact apart_l2Put s k d l _

/-! ### A line leaves level two -/

/-- The copy of another die's level two, its pending bytes at the package point, dropped. -/
def farOut (l : Nat) (s : State) (e : Nat) : State := match s.l2Line e l with
  | none => s
  | some y => (pkgMerge s l y.data y.dirty y.tags y.code).l2Del e l

theorem apart_farOut {k l : Nat} {s : State} (h : Quiet k l s) (e : Nat) : Apart k l s (farOut l s e) := by
  rw [farOut]
  cases s.l2Line e l with
  | none => exact Apart.refl k l s
  | some y => exact (apart_pkgMerge h _ _ _ _).trans (apart_l2Del _ k e l)

theorem farOut_cores {k l : Nat} {s : State} (h : Quiet k l s) (e : Nat) : (farOut l s e).cores = s.cores := by
  rw [farOut]
  cases s.l2Line e l with
  | none => rfl
  | some y => exact pkgMerge_cores h _ _ _ _

theorem farOut_l2Line {k l d e : Nat} {s : State} (h : Quiet k l s) (hne : d ≠ e) :
    (farOut l s e).l2Line d l = s.l2Line d l := by
  rw [farOut]
  cases s.l2Line e l with
  | none => rfl
  | some y => exact (State.l2Line_l2Del_die _ hne l l).trans (l2Line_of_l2 (pkgMerge_l2 h _ _ _ _) d l)

/-- What a die's eviction leaves of the other dies, before its own. -/
structure FarOut (k l d : Nat) (s t : State) : Prop where
  apart : Apart k l s t
  cores : t.cores = s.cores
  own : t.l2Line d l = s.l2Line d l

theorem farOut_all {k l : Nat} {s : State} (h : Quiet k l s) (d : Nat) :
    FarOut k l d s (((List.range 4).filter (fun e => e != d)).foldl (farOut l) s) := by
  refine List.foldlRecOn (motive := FarOut k l d s) _ _ ⟨Apart.refl k l s, rfl, rfl⟩ (fun t ht e he => ?_)
  have hq := ht.apart.quiet h
  have hne : d ≠ e := fun heq => by simp [heq] at he
  exact ⟨ht.apart.trans (apart_farOut hq e), (farOut_cores hq e).trans ht.cores, (farOut_l2Line hq hne).trans ht.own⟩

theorem evict2One_none {s : State} {d l : Nat} (h : s.l2Line d l = none) : evict2One s d l = s := by
  rw [evict2One, h]

theorem evict2One_clean {s : State} {d l : Nat} {x : L2Line} (h : s.l2Line d l = some x) (hx : x.dirty = 0) :
    evict2One s d l = s.l2Del d l := by
  simp only [evict2One, h, if_pos hx]

theorem evict2One_dirty {s : State} {d l : Nat} {x : L2Line} (h : s.l2Line d l = some x) (hx : x.dirty ≠ 0) :
    evict2One s d l =
      (pkgMerge (((List.range 4).filter (fun e => e != d)).foldl (farOut l) s) l x.data x.dirty x.tags x.code).l2Del d l := by
  simp only [evict2One, h, if_neg hx]
  rfl

/-- An eviction from a die's level two. -/
structure Evicted2 (k l d : Nat) (s t : State) : Prop where
  apart : Apart k l s t
  cores : t.cores = s.cores
  gone : t.l2Line d l = none

theorem evict2One_evicted {k l : Nat} {s : State} (h : Quiet k l s) (d : Nat) : Evicted2 k l d s (evict2One s d l) := by
  cases hline : s.l2Line d l with
  | none =>
    rw [evict2One_none hline]
    exact ⟨Apart.refl k l s, rfl, hline⟩
  | some x =>
    by_cases hx : x.dirty = 0
    · rw [evict2One_clean hline hx]
      exact ⟨apart_l2Del s k d l, rfl, State.l2Line_l2Del_self s d l⟩
    · rw [evict2One_dirty hline hx]
      have hfar := farOut_all h d
      have hq := hfar.apart.quiet h
      exact ⟨(hfar.apart.trans (apart_pkgMerge hq _ _ _ _)).trans (apart_l2Del _ k d l),
        (pkgMerge_cores hq _ _ _ _).trans hfar.cores, State.l2Line_l2Del_self _ d l⟩

/-- Bytes that stand at a die or wider stand at the package point once the die's line has left. -/
theorem carried_evict2One {k l : Nat} {data : BitVec 512} {m : BitVec 64} {s : State} (h : Quiet k l s)
    (hc : Carried k l data m s) : Carried k l data m (evict2One s (dieOf k) l) := by
  cases hline : s.l2Line (dieOf k) l with
  | none => rwa [evict2One_none hline]
  | some x =>
    intro i hi hbit
    have hpending := hc i hi hbit
    rw [hline] at hpending
    obtain ⟨hdirty, hbyte⟩ := hpending
    have hx : x.dirty ≠ 0 := fun h0 => by simp [h0] at hdirty
    have hq := (farOut_all h (dieOf k)).apart.quiet h
    rw [evict2One_dirty hline hx, State.l2Line_l2Del_self]
    exact (lineByte_pkgMerge hq _ _ _ hi hdirty).trans hbyte

/-! ### A Propagate of a quiet line -/

theorem tied_quiet {k l : Nat} {s : State} (h : Quiet k l s) (m : Nat) : tied s m = [m] := by
  rw [tied, h.ties]
  rfl

theorem claimLine_quiet {k l : Nat} {s : State} (h : Quiet k l s) (x : L1Line) : claimLine s k l x = (s, x) := by
  refine List.foldlRecOn (motive := (· = (s, x))) _ _ rfl (fun acc hacc j hj => ?_)
  rw [h.siblings j hj, hacc]

theorem propagate_quiet {k l : Nat} {s : State} (h : Quiet k l s) {y : L1Line} (hline : s.l1Line k l = some y) (sc : Scope) :
    propagate s k l sc = if narrower y.scope sc then propagateOne s k l sc else s := by
  rw [propagate, propagates, hline, tied_quiet h]
  simp

theorem propagateOne_clu {k l : Nat} {s : State} (h : Quiet k l s) {y : L1Line} (hline : s.l1Line k l = some y)
    (hsc : narrower y.scope .clu = true) : propagateOne s k l .clu = s.l1Put k l { y with scope := .clu } := by
  rw [propagateOne, hline]
  simp only [hsc, if_true, claimLine_quiet h]

theorem propagateOne_die {k l : Nat} {s : State} (h : Quiet k l s) {y : L1Line} (hline : s.l1Line k l = some y)
    (hsc : narrower y.scope .die = true) :
    propagateOne s k l .die = (l2Merge s (dieOf k) l y).l1Put k l { y with dirty := 0, writers := [], scope := .die } := by
  rw [propagateOne, hline]
  simp only [hsc, if_true, claimLine_quiet h]

/-- Every level two's copy of a line out, the core's die's last. -/
def allOut (s : State) (k l : Nat) : State :=
  evict2One (((List.range 4).filter (fun d => d != dieOf k)).foldl (fun s d => evict2One s d l) s) (dieOf k) l

theorem propagateOne_wide {k l : Nat} {s : State} (h : Quiet k l s) {y : L1Line} (hline : s.l1Line k l = some y) {sc : Scope}
    (hwide : sc = .pkg ∨ sc = .sys) (hsc : narrower y.scope sc = true) :
    propagateOne s k l sc =
      (pkgMerge (allOut s k l) l y.data y.dirty y.tags y.code).l1Put k l { y with dirty := 0, writers := [], scope := sc } := by
  rw [propagateOne, hline]
  rcases hwide with rfl | rfl <;> simp only [hsc, if_true, claimLine_quiet h] <;> rfl

theorem allOut_evicted {k l : Nat} {s : State} (h : Quiet k l s) : Evicted2 k l (dieOf k) s (allOut s k l) := by
  have hfar : Apart k l s (((List.range 4).filter (fun d => d != dieOf k)).foldl (fun s d => evict2One s d l) s) ∧
      (((List.range 4).filter (fun d => d != dieOf k)).foldl (fun s d => evict2One s d l) s).cores = s.cores :=
    List.foldlRecOn (motive := fun t => Apart k l s t ∧ t.cores = s.cores) _ _ ⟨Apart.refl k l s, rfl⟩ (fun t ht d _ =>
      have hout := evict2One_evicted (ht.1.quiet h) d
      ⟨ht.1.trans hout.apart, hout.cores.trans ht.2⟩)
  obtain ⟨hapart, hcores⟩ := hfar
  have hown := evict2One_evicted (hapart.quiet h) (dieOf k)
  exact ⟨hapart.trans hown.apart, hown.cores.trans hcores, hown.gone⟩

theorem apart_propagateOne {k l : Nat} {s : State} (h : Quiet k l s) {y : L1Line} (hline : s.l1Line k l = some y) {sc : Scope}
    (hsc : narrower y.scope sc = true) : Apart k l s (propagateOne s k l sc) := by
  have hwide (hw : sc = .pkg ∨ sc = .sys) : Apart k l s (propagateOne s k l sc) := by
    rw [propagateOne_wide h hline hw hsc]
    have hout := (allOut_evicted h).apart
    exact (hout.trans (apart_pkgMerge (hout.quiet h) _ _ _ _)).trans (apart_l1Put _ k l _)
  cases sc with
  | core => simp [narrower, scopeRank] at hsc
  | clu =>
    rw [propagateOne_clu h hline hsc]
    exact apart_l1Put s k l _
  | die =>
    rw [propagateOne_die h hline hsc]
    exact (apart_l2Merge h _ y).trans (apart_l1Put _ k l _)
  | pkg => exact hwide (.inl rfl)
  | sys => exact hwide (.inr rfl)

/-- A line put into level one leaves where its bytes stand further out. -/
theorem carried_l1Put {k l : Nat} {data : BitVec 512} {m : BitVec 64} {s : State} (h : Carried k l data m s) (x : L1Line) :
    Carried k l data m (s.l1Put k l x) := carried_congr rfl rfl h

/-- The pending bytes of a level-one line stand where a Propagate takes them, and the line keeps its bytes. -/
theorem kept_propagateOne {k l : Nat} {s : State} (h : Quiet k l s) {y : L1Line} (hline : s.l1Line k l = some y) {m : BitVec 64}
    (hm : ∀ i < 64, m.getLsbD i = true → y.dirty.getLsbD i = true) {sc : Scope} (hsc : narrower y.scope sc = true) :
    Kept k l y.data m (propagateOne s k l sc) := by
  have hwide (hw : sc = .pkg ∨ sc = .sys) : Kept k l y.data m (propagateOne s k l sc) := by
    rw [propagateOne_wide h hline hw hsc]
    have hout := allOut_evicted h
    have hq := hout.apart.quiet h
    refine ⟨_, State.l1Line_l1Put_self _ k l _, rfl, .inr ⟨rfl, carried_l1Put (fun i hi hbit => ?_) _⟩⟩
    rw [l2Line_of_l2 (pkgMerge_l2 hq _ _ _ _), hout.gone]
    exact lineByte_pkgMerge hq _ _ _ hi (hm i hi hbit)
  cases sc with
  | core => simp [narrower, scopeRank] at hsc
  | clu =>
    rw [propagateOne_clu h hline hsc]
    exact ⟨_, State.l1Line_l1Put_self s k l _, rfl, .inl ⟨hm, rfl⟩⟩
  | die =>
    rw [propagateOne_die h hline hsc]
    exact ⟨_, State.l1Line_l1Put_self _ k l _, rfl, .inr ⟨rfl, carried_l1Put (carried_l2Merge s y hm) _⟩⟩
  | pkg => exact hwide (.inl rfl)
  | sys => exact hwide (.inr rfl)

theorem apart_propagate {k l : Nat} {s : State} (h : Quiet k l s) {y : L1Line} (hline : s.l1Line k l = some y) (sc : Scope) :
    Apart k l s (propagate s k l sc) := by
  rw [propagate_quiet h hline]
  split
  · next hsc => exact apart_propagateOne h hline hsc
  · exact Apart.refl k l s

/-- A line pending at .core keeps its bytes through a Propagate to any scope. -/
theorem kept_propagate {k l : Nat} {s : State} (h : Quiet k l s) {y : L1Line} (hline : s.l1Line k l = some y) {m : BitVec 64}
    (hm : ∀ i < 64, m.getLsbD i = true → y.dirty.getLsbD i = true) (hcore : y.scope = .core) (sc : Scope) :
    Kept k l y.data m (propagate s k l sc) := by
  rw [propagate_quiet h hline]
  split
  · next hsc => exact kept_propagateOne h hline hm hsc
  · exact ⟨y, hline, rfl, .inl ⟨hm, by rw [hcore]; rfl⟩⟩

theorem kept_touch {k l : Nat} {data : BitVec 512} {m : BitVec 64} {s : State} (h : Kept k l data m s) (n : Nat) :
    Kept k l data m (touch s n) := by
  obtain ⟨y, hline, hdata, hwhere⟩ := h
  exact ⟨y, hline, hdata, hwhere.imp_right (fun hc => ⟨hc.1, carried_congr rfl rfl hc.2⟩)⟩

/-! ### A line leaves level one -/

/-- A level one without the line, its bytes further out. -/
structure Evicted1 (k l : Nat) (data : BitVec 512) (m : BitVec 64) (s t : State) : Prop where
  apart : Apart k l s t
  gone : t.l1Line k l = none
  carried : Carried k l data m t

theorem evict1_evicted {k l : Nat} {data : BitVec 512} {m : BitVec 64} {s : State} (h : Quiet k l s) (hk : Kept k l data m s) :
    Evicted1 k l data m s (evict1 s k l) := by
  obtain ⟨y, hline, hdata, hwhere⟩ := hk
  have hdrop (t : State) (hapart : Apart k l s t) (hc : Carried k l data m t) : Evicted1 k l data m s (t.l1Del k l) :=
    ⟨hapart.trans (apart_l1Del t k l), State.l1Line_l1Del_self t k l, carried_congr rfl rfl hc⟩
  rw [evict1, tied_quiet h, List.foldl_cons, List.foldl_nil, evict1One, hline]
  by_cases hclean : y.dirty = 0
  · simp only [if_pos hclean]
    refine hdrop s (Apart.refl k l s) ?_
    rcases hwhere with ⟨hm, -⟩ | ⟨-, hc⟩
    · intro i hi hbit
      have hdirty := hm i hi hbit
      simp [hclean] at hdirty
    · exact hc
  · simp only [if_neg hclean]
    rcases hwhere with ⟨hm, hscope⟩ | ⟨hclean', -⟩
    · refine hdrop _ (apart_propagateOne h hline hscope) ?_
      rw [propagateOne_die h hline hscope, ← hdata]
      exact carried_l1Put (carried_l2Merge s y hm) _
    · exact absurd hclean' hclean

/-! ### A store into one line -/

/-- A level-one line with a store's bytes in it, pending at .core. -/
def storedLine (s : State) (k : Nat) (x : L1Line) (data : BitVec 512) (m : BitVec 64) (tags : BitVec 4) : L1Line :=
  { data := mergeData x.data data m
    dirty := x.dirty ||| m
    tags := mergeTags x.tags tags m
    scope := .core
    writers := insertNat k x.writers
    owner := ownerOf s k
    code := s.code }

/-- The state with a store's bytes in level one and propagated, before what its hint drops. -/
def placed (s : State) (k l : Nat) (data : BitVec 512) (m : BitVec 64) (tags : BitVec 4) (sc : Scope) (hint : Nat) : State :=
  let r := withFill s k l hint
  touch (propagate (r.1.l1Put k l (storedLine r.1 k r.2 data m tags)) k l sc) l

theorem l1Write_eq (s : State) (k l : Nat) (data : BitVec 512) (m : BitVec 64) (tags : BitVec 4) (sc : Scope) (hint : Nat) :
    l1Write s k l data m tags sc hint =
      let p := placed s k l data m tags sc hint
      let p := if (allocates hint).1 then p else evict1 p k l
      if (allocates hint).2 then p else evict2 p (dieOf k) l := rfl

theorem placed_spec {k l : Nat} {s : State} (h : Quiet k l s) (data : BitVec 512) (m : BitVec 64) (tags : BitVec 4) (sc : Scope)
    (hint : Nat) : Apart k l s (placed s k l data m tags sc hint) ∧
      Kept k l (mergeData (seenLine s k l) data m) m (placed s k l data m tags sc hint) := by
  have hfill := withFill_filled h hint
  obtain ⟨r, hr⟩ : ∃ r, withFill s k l hint = r := ⟨_, rfl⟩
  simp only [placed, hr] at hfill ⊢
  let y := storedLine r.1 k r.2 data m tags
  have hdata : y.data = mergeData (seenLine s k l) data m := by rw [← hfill.data]; rfl
  have hdirty (i : Nat) (_ : i < 64) (hbit : m.getLsbD i = true) : y.dirty.getLsbD i = true := by
    show (r.2.dirty ||| m).getLsbD i = true
    rw [BitVec.getLsbD_or, hbit, Bool.or_true]
  have hapart : Apart k l s (r.1.l1Put k l y) := hfill.apart.trans (apart_l1Put r.1 k l y)
  have hline := State.l1Line_l1Put_self r.1 k l y
  refine ⟨(hapart.trans (apart_propagate (hapart.quiet h) hline sc)).trans (apart_touch _ k l l), ?_⟩
  rw [← hdata]
  exact kept_touch (kept_propagate (hapart.quiet h) hline hdirty rfl sc) l

/-- What a store into a quiet line leaves: everything but the line, whose masked bytes its core sees. -/
structure Stored (k l : Nat) (data : BitVec 512) (m : BitVec 64) (s t : State) : Prop where
  apart : Apart k l s t
  seen : ∀ i < 64, m.getLsbD i = true → lineByte (seenLine t k l) i = lineByte data i

/-- Bytes that level one keeps are those that its core sees. -/
theorem seenLine_kept {k l : Nat} {data : BitVec 512} {m : BitVec 64} {s : State} (h : Kept k l data m s) :
    seenLine s k l = data := by
  obtain ⟨y, hline, hdata, -⟩ := h
  rw [seenLine_some hline, hdata]

/-- Bytes carried out of a level one that misses are those that its core sees. -/
theorem seen_carried {k l : Nat} {data : BitVec 512} {m : BitVec 64} {s : State} (h : Quiet k l s)
    (hmiss : s.l1Line k l = none) (hc : Carried k l data m s) {i : Nat} (hi : i < 64) (hbit : m.getLsbD i = true) :
    lineByte (seenLine s k l) i = lineByte data i := by
  have hbyte := hc i hi hbit
  rw [seenLine_none h hmiss]
  cases hline : s.l2Line (dieOf k) l with
  | none => rwa [hline] at hbyte
  | some x =>
    rw [hline] at hbyte
    exact hbyte.2

theorem l1Write_stored {k l : Nat} {s : State} (h : Quiet k l s) (data : BitVec 512) (m : BitVec 64) (tags : BitVec 4)
    (sc : Scope) (hint : Nat) :
    Stored k l (mergeData (seenLine s k l) data m) m s (l1Write s k l data m tags sc hint) := by
  obtain ⟨hplaced, hkept⟩ := placed_spec h data m tags sc hint
  have hout := evict1_evicted (hplaced.quiet h) hkept
  have hdropped := hplaced.trans hout.apart
  rw [l1Write_eq]
  by_cases hstream : hint = 1
  · subst hstream
    exact ⟨hdropped, fun i hi => seen_carried (hdropped.quiet h) hout.gone hout.carried hi⟩
  · by_cases hnone : hint = 4
    · subst hnone
      have hq := hdropped.quiet h
      have hout2 := evict2One_evicted hq (dieOf k)
      have hgone : (evict2One (evict1 (placed s k l data m tags sc 4) k l) (dieOf k) l).l1Line k l = none :=
        (l1Line_of_cores hout2.apart hout2.cores l).trans hout.gone
      show Stored k l _ m s (evict2 (evict1 (placed s k l data m tags sc 4) k l) (dieOf k) l)
      rw [evict2, tied_quiet hq, List.foldl_cons, List.foldl_nil]
      exact ⟨hdropped.trans hout2.apart, fun i hi =>
        seen_carried (hout2.apart.quiet hq) hgone (carried_evict2One hq hout.carried) hi⟩
    · simp only [allocates, if_neg hstream, if_neg hnone, if_true]
      exact ⟨hplaced, fun i _ _ => by rw [seenLine_kept hkept]⟩

/-- A store that stays in level one changes the masked bytes alone. -/
theorem seenLine_l1Write_stays {k l : Nat} {s : State} (h : Quiet k l s) (data : BitVec 512) (m : BitVec 64) (tags : BitVec 4)
    (sc : Scope) {hint : Nat} (hstream : hint ≠ 1) (hnone : hint ≠ 4) :
    seenLine (l1Write s k l data m tags sc hint) k l = mergeData (seenLine s k l) data m := by
  rw [l1Write_eq]
  simp only [allocates, if_neg hstream, if_neg hnone, if_true]
  exact seenLine_kept (placed_spec h data m tags sc hint).2

/-! ### Stores and loads within one line -/

theorem pieces_one {pa n : Nat} (hn : n ≠ 0) (hline : pa % 64 + n ≤ 64) (fuel : Nat) : pieces pa n (fuel + 2) = [(pa, n)] := by
  simp only [pieces, if_neg hn, Nat.min_eq_left (show n ≤ 64 - pa % 64 by omega), Nat.sub_self, if_true]

/-- Stored bytes within one line of memory are one write of that line. -/
theorem storeBytes_one {s : State} {pa : Nat} {bs : List Byte} (hbs : bs ≠ []) (hline : pa % 64 + bs.length ≤ 64)
    (hmem : inMemory s pa = true) (hrec : isRstate s pa = false) (k : Nat) (sc : Scope) (hint : Nat) :
    storeBytes s k none pa bs sc hint = l1Write s k (lineOf pa) (BitVec.ofNat 512 (natOfBytes bs <<< (8 * (pa % 64))))
      (byteMask (pa % 64) bs.length) 0 sc hint := by
  rw [storeBytes, pieces_one (by simpa using hbs) hline]
  simp only [List.foldl_cons, List.foldl_nil, List.take_length, storePiece, ite_self, rstateHead, hrec,
    Bool.false_eq_true, if_false, if_true, plainPut, hmem]

/-- Loaded bytes within one line of memory are those of a fill of it. -/
theorem loadBytes_one {s : State} {pa n : Nat} (hn : n ≠ 0) (hline : pa % 64 + n ≤ 64) (hmem : inMemory s pa = true)
    (hrec : isRstate s pa = false) (k : Nat) {sc : Scope} (hsc : sc = .core ∨ sc = .clu) (hint : Nat) :
    loadBytes s k [] pa n sc hint = ((withFill s k (lineOf pa) hint).1,
      ((bytesOfNat 64 (withFill s k (lineOf pa) hint).2.data.toNat).drop (pa % 64)).take n) := by
  rw [loadBytes, pieces_one hn hline]
  rcases hsc with rfl | rfl <;>
    simp only [List.foldl_cons, List.foldl_nil, loadPiece, rstateHead, hrec, Bool.false_eq_true, if_false, Nat.min_zero,
      if_true, plainPiece, hmem, l1Load, overlay, List.reverse_nil, List.nil_append]

theorem lineOf_add {pa i : Nat} (h : pa % 64 + i < 64) : lineOf (pa + i) = lineOf pa := by
  rw [lineOf, lineOf]
  omega

/-- After a store within one quiet line its core sees the stored bytes. -/
theorem seenBy_storeBytes {s : State} {k pa : Nat} {bs : List Byte} {sc : Scope} {hint : Nat}
    (hbs : bs ≠ []) (hline : pa % 64 + bs.length ≤ 64) (hmem : inMemory s pa = true) (hrec : isRstate s pa = false)
    (h : Quiet k (lineOf pa) s) {a : Nat} (hlow : pa ≤ a) (hhigh : a < pa + bs.length) :
    seenBy (storeBytes s k none pa bs sc hint) k a = bs.getD (a - pa) 0 := by
  have hi : a % 64 < 64 := Nat.mod_lt a (by decide)
  have hsame : lineOf a = lineOf pa ∧ pa % 64 ≤ a % 64 ∧ a % 64 < pa % 64 + bs.length ∧ a % 64 - pa % 64 = a - pa := by
    rw [lineOf, lineOf]
    omega
  obtain ⟨hlineOf, hfrom, hto, hdiff⟩ := hsame
  have hbit : (byteMask (pa % 64) bs.length).getLsbD (a % 64) = true := by
    rw [byteMask_getLsbD _ _ hi, decide_eq_true ⟨hfrom, hto⟩]
  rw [storeBytes_one hbs hline hmem hrec, seenBy_eq, hlineOf,
    (l1Write_stored h _ _ 0 sc hint).seen _ hi hbit,
    lineByte_mergeData _ _ _ hi, if_pos hbit, lineByte_placed hfrom hto hi, hdiff]

/-- After a store within one quiet line that stays in level one its core sees every other byte as before. -/
theorem seenBy_storeBytes_outside {s : State} {k pa : Nat} {bs : List Byte} {sc : Scope} {hint : Nat}
    (hbs : bs ≠ []) (hline : pa % 64 + bs.length ≤ 64) (hmem : inMemory s pa = true) (hrec : isRstate s pa = false)
    (h : Quiet k (lineOf pa) s) (hstream : hint ≠ 1) (hnone : hint ≠ 4) {a : Nat} (ha : a < pa ∨ pa + bs.length ≤ a) :
    seenBy (storeBytes s k none pa bs sc hint) k a = seenBy s k a := by
  have hi : a % 64 < 64 := Nat.mod_lt a (by decide)
  rw [storeBytes_one hbs hline hmem hrec]
  by_cases hsame : lineOf a = lineOf pa
  · have hout : ¬ (pa % 64 ≤ a % 64 ∧ a % 64 < pa % 64 + bs.length) := by
      rw [lineOf, lineOf] at hsame
      omega
    have hbit : (byteMask (pa % 64) bs.length).getLsbD (a % 64) = false := by
      rw [byteMask_getLsbD _ _ hi, decide_eq_false hout]
    rw [seenBy_eq, seenBy_eq, hsame, seenLine_l1Write_stays h _ _ 0 sc hstream hnone,
      lineByte_mergeData _ _ _ hi, hbit, if_neg Bool.false_ne_true]
  · exact (l1Write_stored h _ _ 0 sc hint).apart.seenBy_ne hsame

/-- A load of a quiet line at .core or .clu gives the bytes that its core sees, and changes nothing that is seen. -/
theorem loadBytes_seen {s : State} {k pa n : Nat} {sc : Scope} (hn : n ≠ 0) (hsc : sc = .core ∨ sc = .clu)
    (hline : pa % 64 + n ≤ 64) (hmem : inMemory s pa = true) (hrec : isRstate s pa = false) (h : Quiet k (lineOf pa) s)
    (hint : Nat) : let r := loadBytes s k [] pa n sc hint
    r.2 = (List.range n).map (fun i => seenBy s k (pa + i)) ∧ r.1.mem = s.mem ∧ r.1.ctxs = s.ctxs ∧
      (∀ a : Nat, seenBy r.1 k a = seenBy s k a) := by
  have hfill := withFill_filled h hint
  simp only [loadBytes_one hn hline hmem hrec k hsc hint, loadedBytes _ hline, hfill.data]
  refine ⟨List.map_congr_left (fun i hi => ?_), hfill.mem, hfill.ctxs, seenBy_of_filled hfill⟩
  have hi := List.mem_range.mp hi
  rw [seenBy_eq, lineOf_add (by omega), show (pa + i) % 64 = pa % 64 + i by omega]

/-- Settles O19: the stored bytes stand in the core's level one, or where a Propagate or an eviction has carried them. -/
theorem storeSeenByItsCore : Obligations.StoreSeenByItsCore := by
  refine ⟨?store, ?load⟩
  case store =>
    intro s k pa bs sc hint hline hmem hrec hquiet t
    have h := quiet_of_quietLine hquiet
    by_cases hbs : bs = []
    · have ht : t = s := by
        show storeBytes s k none pa bs sc hint = s
        rw [hbs]
        rfl
      rw [ht]
      refine ⟨fun a hlow hhigh => ?_, fun _ _ _ _ => rfl, fun _ => ⟨rfl, rfl, rfl, rfl⟩⟩
      rw [hbs, List.length_nil] at hhigh
      omega
    · refine ⟨fun a hlow hhigh => seenBy_storeBytes hbs hline hmem hrec h hlow hhigh, fun hstream hnone a ha =>
        seenBy_storeBytes_outside hbs hline hmem hrec h hstream hnone ha, fun slot => ?_⟩
      have ht : t = _ := storeBytes_one hbs hline hmem hrec k sc hint
      rw [ht]
      exact (l1Write_stored h _ _ 0 sc hint).apart.registers slot
  case load =>
    intro s k pa n sc hint hsc hline hmem hrec hquiet
    by_cases hn : n = 0
    · subst hn
      exact ⟨rfl, rfl, rfl, fun _ => rfl⟩
    · exact loadBytes_seen hn hsc hline hmem hrec (quiet_of_quietLine hquiet) hint

end Sys2Proof.Machine

/-! # Capabilities: what they read as, and what is derived from them -/

namespace Sys2Proof.Machine

/-! ### Bit fields set and read -/

theorem maskAt_getLsbD (n lo len : Nat) {i : Nat} (hi : i < n) :
    (maskAt n lo len).getLsbD i = decide (lo ≤ i ∧ i < lo + len) := by
  rw [maskAt, BitVec.getLsbD_ofNat, Nat.testBit_shiftLeft, Nat.testBit_two_pow_sub_one, decide_eq_true hi, Bool.true_and,
    ← Bool.decide_and]
  exact decide_eq_decide.mpr (by omega)

theorem setField_getLsbD {n : Nat} (w : BitVec n) (lo len v : Nat) {i : Nat} (hi : i < n) :
    (setField w lo len v).getLsbD i = if lo ≤ i ∧ i < lo + len then v.testBit (i - lo) else w.getLsbD i := by
  simp only [setField, BitVec.getLsbD_or, BitVec.getLsbD_and, BitVec.getLsbD_not, maskAt_getLsbD n lo len hi,
    BitVec.getLsbD_ofNat, Nat.testBit_shiftLeft, Nat.testBit_mod_two_pow, hi, decide_true, Bool.true_and]
  by_cases hlo : lo ≤ i
  · by_cases hhigh : i < lo + len
    · simp [hlo, hhigh, show i - lo < len by omega]
    · simp [hlo, hhigh, show ¬ i - lo < len by omega]
  · simp [hlo]

/-- A field reads as set. -/
theorem setField_extract_self {n : Nat} (w : BitVec n) {lo len : Nat} (v : Nat) (hfit : lo + len ≤ n) :
    (setField w lo len v).extractLsb' lo len = BitVec.ofNat len v := by
  apply BitVec.eq_of_getLsbD_eq
  intro j hj
  rw [BitVec.getLsbD_extractLsb', setField_getLsbD w lo len v (by omega), if_pos (by omega), BitVec.getLsbD_ofNat]
  simp

/-- A field apart from the one set reads as before. -/
theorem setField_extract_apart {n : Nat} (w : BitVec n) {lo len lo' len' : Nat} (v : Nat) (hfit : lo' + len' ≤ n)
    (hapart : lo' + len' ≤ lo ∨ lo + len ≤ lo') : (setField w lo len v).extractLsb' lo' len' = w.extractLsb' lo' len' := by
  apply BitVec.eq_of_getLsbD_eq
  intro j hj
  rw [BitVec.getLsbD_extractLsb', BitVec.getLsbD_extractLsb', setField_getLsbD w lo len v (by omega), if_neg (by omega)]

theorem field_eq_extract {n : Nat} (w : BitVec n) (lo len : Nat) : field w lo len = (w.extractLsb' lo len).toNat := by
  rw [field, natField, BitVec.extractLsb'_toNat]

theorem field_setField_self {n : Nat} (w : BitVec n) {lo len : Nat} (v : Nat) (hfit : lo + len ≤ n) :
    field (setField w lo len v) lo len = v % 2 ^ len := by
  rw [field_eq_extract, setField_extract_self w v hfit, BitVec.toNat_ofNat]

theorem field_setField_apart {n : Nat} (w : BitVec n) {lo len lo' len' : Nat} (v : Nat) (hfit : lo' + len' ≤ n)
    (hapart : lo' + len' ≤ lo ∨ lo + len ≤ lo') : field (setField w lo len v) lo' len' = field w lo' len' := by
  rw [field_eq_extract, setField_extract_apart w v hfit hapart, field_eq_extract]

/-! ### Guarded steps that change the acting context alone -/

@[simp] theorem nextPc_writeC (c : Ctx) (n : CReg) (v : Cap) (m : Mods) : nextPc (writeC c n v) m = nextPc c m := rfl

/-- A guarded step that writes the acting context and moves on. -/
theorem scalarStep_modifies {m : Mods} {s : State} (hpass : passes m s = true) {f : Ctx → Ctx}
    (hpc : ∀ c, nextPc (f c) m = nextPc c m) :
    scalarStep m (do modifyCur f; advance m) s = changes s (fun c => setPc (f c) (nextPc c m)) := by
  refine scalarStep_ok hpass ?_
  rw [run_bind_ok (run_modifyCur f s), run_advance, State.modCur_modCur]
  simp only [hpc]

/-! ### CGET, CTEST and CMOV (R82 to R84) -/

theorem exec_cget {x : CgetArgs} {s : State} (hpass : passes x.m s = true) :
    exec (.cget x) s = changes s (fun c => setPc (writeG c x.d (cgetValue x.kind (readC c x.a))) (nextPc c x.m)) :=
  scalarStep_modifies hpass (fun c => nextPc_writeG c _ _ _)

theorem exec_cmov {x : CmovArgs} {s : State} (hpass : passes x.m s = true) :
    exec (.cmov x) s = changes s (fun c => setPc (writeC c x.d (readC c x.a)) (nextPc c x.m)) :=
  scalarStep_modifies hpass (fun c => nextPc_writeC c _ _ _)

/-- The answer of CTEST (R83). -/
theorem ctest_answer (eq : Bool) (a b : Cap) :
    (if (if eq then a == b else capSub a b) then (1 : Word) else 0) =
      if eq then (if a = b then 1 else 0) else if capSub a b then 1 else 0 := by
  cases eq
  · rfl
  · simp only [if_true, beq_iff_eq]

theorem modCur_congr {s : State} {f g : Ctx → Ctx} (h : f s.cur = g s.cur) : s.modCur f = s.modCur g := by
  rw [State.modCur_eq_setCtx, State.modCur_eq_setCtx, h]

theorem exec_ctest {x : CtestArgs} {s : State} (hpass : passes x.m s = true) :
    exec (.ctest x) s = changes s (fun c => setPc (writeG c x.d
      (if x.eq then (if readC c x.a = readC c x.b then 1 else 0)
       else if capSub (readC c x.a) (readC c x.b) then 1 else 0)) (nextPc c x.m)) := by
  have hstep : exec (.ctest x) s = _ := scalarStep_ok hpass (t := s.modCur (fun c => setPc (writeG c x.d
      (if (if x.eq then readC s.cur x.a == readC s.cur x.b else capSub (readC s.cur x.a) (readC s.cur x.b)) then 1 else 0))
      (nextPc c x.m))) (by
    simp only [run_bind, run_getCur, run_modifyCur, run_advance, State.modCur_modCur, nextPc_writeG])
  rw [hstep, changes, modCur_congr]
  simp only [ctest_answer]

theorem forall_permission {P : Nat → Prop} : (∀ p : CapPerm, P (permBit p)) ↔ ∀ i, i < 6 → P i := by
  constructor
  · intro h i hi
    match i, hi with
    | 0, _ => exact h .load
    | 1, _ => exact h .store
    | 2, _ => exact h .lcap
    | 3, _ => exact h .scap
    | 4, _ => exact h .exec
    | 5, _ => exact h .ctl
  · intro h p
    exact h _ (by cases p <;> decide)

/-- One capability's permissions lie within another's where each that it carries stands there too. -/
theorem perms_within_iff (a b : Cap) :
    capPerms a &&& ~~~ capPerms b = 0 ↔ ∀ p : CapPerm, capHas a p = true → capHas b p = true := by
  refine Iff.trans ?_ (forall_permission (P := fun i => (capPerms a).getLsbD i = true → (capPerms b).getLsbD i = true)).symm
  constructor
  · intro h i hi ha
    have hbit := congrArg (BitVec.getLsbD · i) h
    simpa [ha, hi] using hbit
  · intro h
    apply BitVec.eq_of_getLsbD_eq
    intro i hi
    have hi' := h i hi
    cases ha : (capPerms a).getLsbD i <;> simp_all

theorem capSub_iff (a b : Cap) :
    capSub a b = true ↔ a.tag = true ∧ b.tag = true ∧ capOtype a = capOtype b ∧
      (∀ p : CapPerm, capHas a p = true → capHas b p = true) ∧
      (capBounds b).1 ≤ (capBounds a).1 ∧ (capBounds a).2 ≤ (capBounds b).2 := by
  simp only [capSub, Bool.and_eq_true, beq_iff_eq, decide_eq_true_eq, perms_within_iff, and_assoc]

/-- Settles O22. -/
theorem capabilityInstructions : Obligations.CapabilityInstructions :=
  ⟨fun _ _ => exec_cget, fun _ _ => exec_ctest, fun _ _ => exec_cmov,
    fun a b => ⟨rfl, rfl, rfl, rfl, rfl, rfl, rfl, rfl, capSub_iff a b⟩⟩


/-! ### CBOUND, CNARROW, CADDR and CINC (R78 to R81) -/

theorem unsealed_ok {n : CReg} {s : State} (h : isUnsealed s.cur n = true) : unsealed n s = .ok (readC s.cur n) s := by
  have hopen : ((readC s.cur n).tag && capOtype (readC s.cur n) != 0) = false := by rwa [isUnsealed, Bool.not_eq_true'] at h
  rw [unsealed, run_bind_ok (run_getCur s), hopen, if_neg Bool.false_ne_true]
  rfl

/-- A derivation whose operands do not trap, and that makes a capability of them, writes it and moves on. -/
theorem derivation_writes {m : Mods} {s : State} (hpass : passes m s = true) {a d : CReg} {b : GReg}
    (hpoison : gPoison s.cur b = false) (hopen : isUnsealed s.cur a = true) {derive : Word → Cap → M Cap} {r : Cap}
    (hderive : derive (gVal s.cur b) (readC s.cur a) s = .ok r s) :
    scalarStep m (do
      let v ← consumeG b
      let c ← unsealed a
      let r ← derive v c
      modifyCur (fun w => writeC w d r)
      advance m) s = changes s (fun c => setPc (writeC c d r) (nextPc c m)) := by
  refine scalarStep_ok hpass ?_
  rw [run_bind_ok (consumeG_ok hpoison), run_bind_ok (unsealed_ok hopen), run_bind_ok hderive,
    run_bind_ok (run_modifyCur _ s), run_advance, State.modCur_modCur]
  rfl

theorem exec_cbound {x : CapArgs} {s : State} (hpass : passes x.m s = true) (hpoison : gPoison s.cur x.b = false)
    (hopen : isUnsealed s.cur x.a = true) :
    exec (.cbound x) s = changes s (fun c =>
      setPc (writeC c x.d (boundCap (readC s.cur x.a) (gVal s.cur x.b))) (nextPc c x.m)) :=
  derivation_writes (derive := fun v c => pure (boundCap c v)) hpass hpoison hopen rfl

theorem exec_caddr {x : CapArgs} {s : State} (hpass : passes x.m s = true) (hpoison : gPoison s.cur x.b = false)
    (hopen : isUnsealed s.cur x.a = true) :
    exec (.caddr x) s = changes s (fun c =>
      setPc (writeC c x.d (setCursor (readC s.cur x.a) (gVal s.cur x.b))) (nextPc c x.m)) :=
  derivation_writes (derive := fun v c => pure (setCursor c v)) hpass hpoison hopen rfl

theorem exec_cinc {x : CincArgs} {s : State} (hpass : passes x.m s = true) (hpoison : gPoison s.cur x.b = false)
    (hopen : isUnsealed s.cur x.a = true) :
    exec (.cinc x) s = changes s (fun c => setPc (writeC c x.d
      (setCursor (readC c x.a) (capCursor (readC c x.a) + gVal c x.b + x.imm.signExtend 64))) (nextPc c x.m)) :=
  (derivation_writes (derive := fun v c => pure (setCursor c (capCursor c + v + wordOf (immInt x.imm)))) hpass hpoison hopen
    rfl).trans (congrArg Host.Outcome.next (modCur_congr rfl))

/-- What CNARROW makes of its operands (R80). -/
def narrowed (v : Word) (c : Cap) : M Cap :=
  let n := maskPerms c (v.extractLsb' 0 6)
  let ot : BitVec 8 := v.extractLsb' 8 8
  if ot = 0 then pure n else if ot = 1 then sealQueue c (withOtype n 1) else pure (withOtype n ot)

theorem exec_cnarrow {x : CapArgs} {s : State} (hpass : passes x.m s = true) (hpoison : gPoison s.cur x.b = false)
    (hopen : isUnsealed s.cur x.a = true) {r : Cap} (h : narrowed (gVal s.cur x.b) (readC s.cur x.a) s = .ok r s) :
    exec (.cnarrow x) s = changes s (fun c => setPc (writeC c x.d r) (nextPc c x.m)) := by
  refine Eq.trans ?_ (derivation_writes (derive := narrowed) (d := x.d) hpass hpoison hopen h)
  refine congrArg (fun body => scalarStep x.m body s) (congrArg _ (funext fun v => congrArg _ (funext fun c => ?_)))
  -- each way of narrowing goes on to the same write
  dsimp only [narrowed]
  split_ifs <;> rfl

theorem otype_eq_ofNat (v : Word) : v.extractLsb' 8 8 = BitVec.ofNat 8 (field v 8 8) := by
  rw [field_eq_extract, BitVec.ofNat_toNat, BitVec.setWidth_eq]

theorem otype_eq_iff {v : Word} {n : Nat} (hn : n < 256) : v.extractLsb' 8 8 = BitVec.ofNat 8 n ↔ field v 8 8 = n := by
  rw [field_eq_extract, ← BitVec.toNat_inj, BitVec.toNat_ofNat, Nat.mod_eq_of_lt hn]

theorem narrowed_plain {v : Word} (h : field v 8 8 = 0) (c : Cap) (s : State) :
    narrowed v c s = .ok (maskPerms c (v.setWidth 6)) s := by
  have hot : v.extractLsb' 8 8 = 0 := (otype_eq_iff (by decide)).mpr h
  simp only [narrowed, hot, if_true]
  rfl

theorem narrowed_typed {v : Word} (h0 : field v 8 8 ≠ 0) (h1 : field v 8 8 ≠ 1) (c : Cap) (s : State) :
    narrowed v c s = .ok (withOtype (maskPerms c (v.setWidth 6)) (BitVec.ofNat 8 (field v 8 8))) s := by
  have hot0 : ¬ v.extractLsb' 8 8 = 0 := mt (otype_eq_iff (by decide)).mp h0
  have hot1 : ¬ v.extractLsb' 8 8 = 1 := mt (otype_eq_iff (by decide)).mp h1
  rw [narrowed, if_neg hot0, if_neg hot1, otype_eq_ofNat]
  rfl

theorem narrowed_queue {v : Word} (h : field v 8 8 = 1) (c : Cap) :
    narrowed v c = sealQueue c (withOtype (maskPerms c (v.setWidth 6)) 1) := by
  have hot : v.extractLsb' 8 8 = 1 := (otype_eq_iff (by decide)).mpr h
  rw [narrowed, hot]
  rfl

/-- What sealing to type 1 answers: the state as it stands, and a capability that is tagged only where it is the queue
head page's, its source tagged and with ctl (R80). -/
theorem sealQueue_ok {c n r : Cap} {s t : State} (h : sealQueue c n s = .ok r t) :
    t = s ∧ (r.tag = true → c.tag = true ∧ capHas c .ctl = true ∧ ∃ page, (queueOfPage page).isSome = true ∧
      r.bits = (queueCap n c page).bits ∧ (queueCap n c page).tag = true) := by
  simp only [sealQueue, run_bind, run_get] at h
  generalize translate s (ctxXer s) ((capBounds c).1 % 2 ^ 64) .none = p at h
  obtain ⟨u, f | pa⟩ := p
  · cases h
    exact ⟨rfl, nofun⟩
  · by_cases hpage : (queueOfPage (alignDown pa 4096)).isSome
    · simp only [hpage, if_true, run_pure] at h
      cases h
      refine ⟨rfl, fun htag => ?_⟩
      simp only [Bool.and_eq_true] at htag
      obtain ⟨⟨⟨hq, hc⟩, hctl⟩, -⟩ := htag
      exact ⟨hc, hctl, _, hpage, rfl, hq⟩
    · simp only [hpage, Bool.false_eq_true, if_false, run_pure] at h
      cases h
      exact ⟨rfl, nofun⟩

/-! ### Fields of a capability that is derived (R73 to R75) -/

theorem capBounds_congr {c d : Cap} (h : ∀ lo len, lo + len ≤ 114 → d.bits.extractLsb' lo len = c.bits.extractLsb' lo len) :
    capBounds d = capBounds c := by
  have hfield : ∀ lo len, lo + len ≤ 114 → field d.bits lo len = field c.bits lo len := fun lo len hfit => by
    rw [field_eq_extract, field_eq_extract, h lo len hfit]
  have he : capE d = capE c := hfield 108 6 (by decide)
  have hm : capBm d = capBm c := hfield 86 22 (by decide)
  have hl : capLm d = capLm c := hfield 64 22 (by decide)
  have hcursor : capCursor d = capCursor c := h 0 64 (by decide)
  rw [capBounds, he, hm, hl, hcursor, capBounds]

@[simp] theorem capBounds_maskPerms (c : Cap) (mask : BitVec 6) : capBounds (maskPerms c mask) = capBounds c :=
  capBounds_congr (fun _ _ hfit => setField_extract_apart _ _ (by omega) (by omega))

@[simp] theorem capBounds_withOtype (c : Cap) (ty : BitVec 8) : capBounds (withOtype c ty) = capBounds c :=
  capBounds_congr (fun _ _ hfit => setField_extract_apart _ _ (by omega) (by omega))

@[simp] theorem capPerms_maskPerms (c : Cap) (mask : BitVec 6) : capPerms (maskPerms c mask) = capPerms c &&& mask := by
  rw [capPerms, maskPerms, setField_extract_self _ _ (by decide), BitVec.ofNat_toNat, BitVec.setWidth_eq]

@[simp] theorem capPerms_withOtype (c : Cap) (ty : BitVec 8) : capPerms (withOtype c ty) = capPerms c :=
  setField_extract_apart _ _ (by decide) (by decide)

@[simp] theorem capOtype_withOtype (c : Cap) (ty : BitVec 8) : capOtype (withOtype c ty) = ty := by
  rw [capOtype, withOtype, setField_extract_self _ _ (by decide), BitVec.ofNat_toNat, BitVec.setWidth_eq]

@[simp] theorem capPerms_setCursor (c : Cap) (v : Word) : capPerms (setCursor c v) = capPerms c :=
  setField_extract_apart _ _ (by decide) (by decide)

/-- A cursor that a capability keeps its tag with lies where the bounds stay (R75, R81). -/
theorem setCursor_tagged {c : Cap} {v : Word} (h : (setCursor c v).tag = true) :
    c.tag = true ∧ capBounds (setCursor c v) = capBounds c := by
  have htag : (c.tag && representable c v) = true := h
  rw [Bool.and_eq_true] at htag
  exact ⟨htag.1, eq_of_beq htag.2⟩

theorem capHas_of_perms {c r : Cap} (h : capPerms r = capPerms c) (p : CapPerm) (hp : capHas r p = true) :
    capHas c p = true := by
  rwa [capHas, ← h]

theorem capHas_of_mask {c r : Cap} {mask : BitVec 6} (h : capPerms r = capPerms c &&& mask) (p : CapPerm)
    (hp : capHas r p = true) : capHas c p = true := by
  rw [capHas, h, BitVec.getLsbD_and, Bool.and_eq_true] at hp
  exact hp.1

/-! ### The bounds that CBOUND gives (R75, R79) -/

/-- A capability whose mantissa is that of its cursor rounded down starts there. -/
theorem capBounds_of_cursor {c : Cap} (hm : capBm c = (capCursor c).toNat / 2 ^ capE c % 2 ^ 22) :
    capBounds c = ((capCursor c).toNat / 2 ^ capE c * 2 ^ capE c,
      (capCursor c).toNat / 2 ^ capE c * 2 ^ capE c + capLm c * 2 ^ capE c) := by
  have hnot : ¬ natField (capCursor c).toNat (capE c) 22 < capBm c := by
    rw [hm, natField, Nat.shiftRight_eq_div_pow]
    omega
  have hbase : (capCursor c).toNat >>> (capE c + 22) * 2 ^ (capE c + 22) + capBm c * 2 ^ capE c =
      (capCursor c).toNat / 2 ^ capE c * 2 ^ capE c := by
    rw [hm, Nat.shiftRight_eq_div_pow, pow_add, ← Nat.div_div_eq_div_mul, mul_comm (2 ^ capE c), ← mul_assoc, ← add_mul,
      Nat.div_add_mod']
  simp only [capBounds, if_neg hnot, hbase]

/-- The bits of a capability with another exponent and other mantissas (R73). -/
def boundBits (c : Cap) (e m l : Nat) : BitVec 128 :=
  setField (setField (setField c.bits 108 6 e) 86 22 m) 64 22 l

/-- A field apart from exponent and mantissas reads as before. -/
theorem boundBits_apart (c : Cap) (e m l : Nat) {lo len : Nat} (hfit : lo + len ≤ 128)
    (hapart : lo + len ≤ 64 ∨ 114 ≤ lo) :
    (boundBits c e m l).extractLsb' lo len = c.bits.extractLsb' lo len := by
  rw [boundBits, setField_extract_apart _ _ hfit (by omega), setField_extract_apart _ _ hfit (by omega),
    setField_extract_apart _ _ hfit (by omega)]

theorem capBounds_boundBits (c : Cap) {e l : Nat} (tag : Bool) (he : e < 64) (hl : l < 2 ^ 22) :
    let base := (capCursor c).toNat / 2 ^ e * 2 ^ e
    capBounds { bits := boundBits c e ((capCursor c).toNat / 2 ^ e % 2 ^ 22) l, tag := tag } = (base, base + l * 2 ^ e) := by
  intro base
  generalize hd : ({ bits := boundBits c e ((capCursor c).toNat / 2 ^ e % 2 ^ 22) l, tag := tag } : Cap) = d
  have hbits : d.bits = boundBits c e ((capCursor c).toNat / 2 ^ e % 2 ^ 22) l := hd ▸ rfl
  have hcursor : capCursor d = capCursor c := by rw [capCursor, hbits, boundBits_apart _ _ _ _ (by decide) (by decide), capCursor]
  have hexp : capE d = e := by
    rw [capE, hbits, boundBits, field_setField_apart _ _ (by decide) (by decide),
      field_setField_apart _ _ (by decide) (by decide), field_setField_self _ _ (by decide)]
    exact Nat.mod_eq_of_lt he
  have hlm : capLm d = l := by
    rw [capLm, hbits, boundBits, field_setField_self _ _ (by decide)]
    exact Nat.mod_eq_of_lt hl
  have hbm : capBm d = (capCursor d).toNat / 2 ^ capE d % 2 ^ 22 := by
    rw [capBm, hbits, boundBits, field_setField_apart _ _ (by decide) (by decide), field_setField_self _ _ (by decide),
      Nat.mod_mod, hcursor, hexp]
  rw [capBounds_of_cursor hbm, hcursor, hexp, hlm]

/-- What CBOUND answers (R79): no tag, or the cursor rounded down and the end rounded up to a multiple of a power of two, and
the tag only where that lies within the source. -/
theorem boundCap_cases (c : Cap) (len : Word) :
    (boundCap c len).tag = false ∨ ∃ e l, e < 64 ∧ l < 2 ^ 22 ∧
      (boundCap c len).bits = boundBits c e ((capCursor c).toNat / 2 ^ e % 2 ^ 22) l ∧
      ((boundCap c len).tag = true → c.tag = true ∧ (capBounds c).1 ≤ (capCursor c).toNat / 2 ^ e * 2 ^ e ∧
        (capCursor c).toNat / 2 ^ e * 2 ^ e + l * 2 ^ e ≤ (capBounds c).2) := by
  unfold boundCap
  dsimp only
  split
  · exact .inl rfl
  next e hfind =>
    right
    generalize htop : (capCursor c).toNat + len.toNat = top at *
    have hrange := List.mem_of_find?_eq_some hfind
    have hfits := List.find?_some hfind
    have hpos : 0 < 2 ^ e := by positivity
    have hmant : natField (alignDown (capCursor c).toNat (2 ^ e)) e 22 = (capCursor c).toNat / 2 ^ e % 2 ^ 22 := by
      rw [natField, alignDown, Nat.shiftRight_eq_div_pow, Nat.mul_div_cancel _ hpos]
    have hlen : (ceilDiv top (2 ^ e) * 2 ^ e - alignDown (capCursor c).toNat (2 ^ e)) / 2 ^ e =
        ceilDiv top (2 ^ e) - (capCursor c).toNat / 2 ^ e := by
      rw [alignDown, ← Nat.sub_mul, Nat.mul_div_cancel _ hpos]
    have hup : (capCursor c).toNat / 2 ^ e ≤ ceilDiv top (2 ^ e) := Nat.div_le_div_right (by omega)
    rw [List.mem_range] at hrange
    simp only [decide_eq_true_eq] at hfits
    refine ⟨e, ceilDiv top (2 ^ e) - (capCursor c).toNat / 2 ^ e, by omega, by omega, ?_, fun htag => ?_⟩
    · rw [hmant, hlen, boundBits]
    · simp only [Bool.and_eq_true, decide_eq_true_eq] at htag
      obtain ⟨hc, ⟨hbase, hend⟩, -⟩ := htag
      refine ⟨hc, hbase, ?_⟩
      rwa [← Nat.add_mul, Nat.add_sub_cancel' hup]

/-- CBOUND keeps permissions, and a result that keeps its tag lies within the source. -/
theorem boundCap_tagged {c : Cap} {len : Word} (h : (boundCap c len).tag = true) :
    c.tag = true ∧ capPerms (boundCap c len) = capPerms c ∧
      (capBounds c).1 ≤ (capBounds (boundCap c len)).1 ∧ (capBounds (boundCap c len)).2 ≤ (capBounds c).2 := by
  rcases boundCap_cases c len with hno | ⟨e, l, he, hl, hbits, hwithin⟩
  · rw [h] at hno
    cases hno
  · obtain ⟨hc, hbase, hend⟩ := hwithin h
    have hbounds := capBounds_boundBits c (boundCap c len).tag he hl
    rw [← hbits] at hbounds
    refine ⟨hc, ?_, ?_, ?_⟩
    · rw [capPerms, hbits, boundBits_apart _ _ _ _ (by decide) (by decide), capPerms]
    · rw [hbounds]; exact hbase
    · rw [hbounds]; exact hend

/-- A derivation gains nothing (R77). -/
theorem derivation_within {c r : Cap} {v : Word} {mask : BitVec 6} {ty : BitVec 8}
    (hr : r ∈ [boundCap c v, maskPerms c mask, withOtype (maskPerms c mask) ty, setCursor c v]) (htag : r.tag = true) :
    c.tag = true ∧ (∀ p : CapPerm, capHas r p = true → capHas c p = true) ∧
      (capBounds c).1 ≤ (capBounds r).1 ∧ (capBounds r).2 ≤ (capBounds c).2 := by
  simp only [List.mem_cons, List.not_mem_nil, or_false] at hr
  rcases hr with rfl | rfl | rfl | rfl
  · obtain ⟨hc, hperms, hbounds⟩ := boundCap_tagged htag
    exact ⟨hc, capHas_of_perms hperms, hbounds⟩
  · exact ⟨htag, capHas_of_mask (capPerms_maskPerms c mask), by simp⟩
  · exact ⟨htag, capHas_of_mask (by rw [capPerms_withOtype, capPerms_maskPerms]), by simp⟩
  · obtain ⟨hc, hbounds⟩ := setCursor_tagged htag
    exact ⟨hc, capHas_of_perms (capPerms_setCursor c v), by simp [hbounds]⟩

/-! ### Sealing to a queue (R80) -/

/-- Permissions and type of a queue's capability are those set before. -/
theorem queueCap_apart (n c : Cap) (page : Nat) {lo len : Nat} (hfit : lo + len ≤ 128) (hapart : 114 ≤ lo) :
    (queueCap n c page).bits.extractLsb' lo len = n.bits.extractLsb' lo len := by
  simp only [queueCap]
  rw [setField_extract_apart _ _ hfit (by omega), setField_extract_apart _ _ hfit (by omega),
    setField_extract_apart _ _ hfit (by omega), setField_extract_apart _ _ hfit (by omega)]

theorem queueCap_bounds {n c : Cap} {page : Nat} (h : (queueCap n c page).tag = true) :
    capBounds (queueCap n c page) = (page, page + 4096) := by
  exact eq_of_beq h

theorem capBounds_of_bits {c d : Cap} (h : d.bits = c.bits) : capBounds d = capBounds c :=
  capBounds_congr (fun _ _ _ => by rw [h])

/-- Settles O23: each derivation written by its instruction lies within its source, and sealing to type 1 gives the page of a
queue. -/
theorem derivationsNeverGain : Obligations.DerivationsNeverGain := by
  refine ⟨?instructions, fun x s hpass hpoison hopen => exec_cinc hpass hpoison hopen,
    fun c v mask ty r hr htag => derivation_within hr htag,
    fun c mask ty => ⟨capOtype_withOtype _ ty, capPerms_withOtype _ ty, capBounds_withOtype _ ty⟩, ?queue⟩
  case instructions =>
    intro x s hpass hpoison hopen v a
    refine ⟨exec_cbound hpass hpoison hopen, exec_caddr hpass hpoison hopen,
      fun h => exec_cnarrow hpass hpoison hopen (narrowed_plain h a s),
      fun h0 h1 => exec_cnarrow hpass hpoison hopen (narrowed_typed h0 h1 a s), fun r t h hseal => ?_⟩
    obtain ⟨ht, -⟩ := sealQueue_ok hseal
    subst ht
    exact ⟨rfl, exec_cnarrow hpass hpoison hopen ((congrFun (narrowed_queue h _) _).trans hseal)⟩
  case queue =>
    intro c mask s t r hseal htag
    obtain ⟨rfl, htagged⟩ := sealQueue_ok hseal
    obtain ⟨hc, hctl, page, hpage, hbits, hqueue⟩ := htagged htag
    have hbounds := (capBounds_of_bits hbits).trans (queueCap_bounds hqueue)
    refine ⟨rfl, hc, hctl, ?_, ?_, ?_, ?_⟩
    · rw [capPerms, hbits, queueCap_apart _ _ _ (by decide) (by decide)]
      exact (capPerms_withOtype _ _).trans (capPerms_maskPerms c mask)
    · rw [capOtype, hbits, queueCap_apart _ _ _ (by decide) (by decide)]
      exact capOtype_withOtype _ 1
    · rw [hbounds]; exact hpage
    · rw [hbounds]

end Sys2Proof.Machine

/-! # What the traffic of memory leaves of contexts, queues and cores -/

namespace Sys2Proof.Machine

/-! ### A step of memory traffic (R115, R116) -/

/-- A context but for what a write of a line takes from it: reservations (R260), and whether its parked line was written (R111). -/
def unwatched (c : Ctx) : Ctx :=
  { c with loader := { c.loader with reserved := none }, storer := { c.storer with reserved := none }, hit := false }

/-- A queue but for what the write of its wait signal notes (R381). -/
def unsignalled (q : Queue) : Queue := { q with sigHit := false }

/-- A core but for its level one. -/
def uncached (c : Core) : Core := { c with l1 := [] }

/-- The state without memory, caches, snapshots and background work, and without contexts, cores and queues. -/
def partRest (s : State) : State :=
  { s with mem := [], tags := [], poison := [], l2 := [], side := [], ties := [], segs := [], wsets := [], snaps := [],
           budgets := State.reset.budgets, code := 0, ctxs := [], cores := [], queues := [] }

/-- One state reached from another by traffic of memory alone. -/
structure MemStep (s t : State) : Prop where
  rest : partRest t = partRest s
  ctxs : ∀ slot, unwatched (t.ctxAt slot) = unwatched (s.ctxAt slot)
  cores : ∀ k, uncached (t.coreAt k) = uncached (s.coreAt k)
  queues : ∀ q, unsignalled (t.queueAt q) = unsignalled (s.queueAt q)

namespace MemStep

theorem refl (s : State) : MemStep s s := ⟨rfl, fun _ => rfl, fun _ => rfl, fun _ => rfl⟩

theorem trans {s t u : State} (h : MemStep s t) (g : MemStep t u) : MemStep s u :=
  ⟨g.rest.trans h.rest, fun n => (g.ctxs n).trans (h.ctxs n), fun k => (g.cores k).trans (h.cores k),
    fun q => (g.queues q).trans (h.queues q)⟩

/-- A change of memory, caches, snapshots or background work alone. -/
theorem of_tables {s t : State} (rest : partRest t = partRest s) (ctxs : t.ctxs = s.ctxs) (cores : t.cores = s.cores)
    (queues : t.queues = s.queues) : MemStep s t :=
  ⟨rest, fun _ => by rw [State.ctxAt, State.ctx?, ctxs]; rfl, fun _ => by rw [State.coreAt, cores]; rfl,
    fun _ => by rw [State.queueAt, queues]; rfl⟩

/-- A change of one core's level one. -/
theorem modCore {s : State} {k : Nat} {f : Core → Core} (hf : ∀ c, uncached (f c) = uncached c) : MemStep s (s.modCore k f) :=
  ⟨rfl, fun _ => rfl, fun j => by
    by_cases h : j = k
    · rw [h, State.coreAt_modCore_self, hf]
    · rw [State.coreAt_modCore_ne s h], fun _ => rfl⟩

theorem foldl {α : Type} {b : State} {f : State → α → State} (hf : ∀ s a, MemStep b s → MemStep b (f s a)) (l : List α)
    {s : State} (w : MemStep b s) : MemStep b (l.foldl f s) :=
  foldl_keeps (MemStep b) f hf l s w

end MemStep

/-- Segments are no longer known to be whole (R133). -/
theorem MemStep.setSegs {b s : State} (w : MemStep b s) (segs : List (List Nat)) : MemStep b { s with segs := segs } :=
  w.trans (.of_tables rfl rfl rfl rfl)

/-! ### What a changed table reads as -/

/-- A table whose entries keep their numbers and a view of them shows that view at each number as before. -/
theorem lookupKey_map_view {α β : Type} {view : α → β} {g : Nat × α → Nat × α}
    (hg : ∀ p, (g p).1 = p.1 ∧ view (g p).2 = view p.2) (k : Nat) (l : List (Nat × α)) :
    (lookupKey k (l.map g)).map view = (lookupKey k l).map view := by
  induction l with
  | nil => rfl
  | cons p rest ih =>
    obtain ⟨hkey, hview⟩ := hg p
    simp only [List.map_cons, lookupKey, hkey]
    split
    · simp only [Option.map_some, hview]
    · exact ih

theorem getD_view {α β : Type} {view : α → β} {x y : Option α} (h : x.map view = y.map view) (d : α) :
    view (x.getD d) = view (y.getD d) := by
  rw [← Option.getD_map view d x, h, Option.getD_map]

/-- Contexts that each keep all but what watches memory. -/
theorem MemStep.mapCtxs {s : State} {f : Nat → Ctx → Ctx} (hf : ∀ n c, unwatched (f n c) = unwatched c) :
    MemStep s (s.mapCtxs f) :=
  ⟨rfl, fun _ => getD_view (lookupKey_map_view (g := fun p => (p.1, f p.1 p.2)) (fun p => ⟨rfl, hf p.1 p.2⟩) _ _) _,
    fun _ => rfl, fun _ => rfl⟩

/-- Queues that each keep all but what the write of a wait signal notes. -/
theorem MemStep.mapQueues {s : State} {g : Nat × Queue → Nat × Queue}
    (hg : ∀ p, (g p).1 = p.1 ∧ unsignalled (g p).2 = unsignalled p.2) : MemStep s { s with queues := s.queues.map g } :=
  ⟨rfl, fun _ => rfl, fun _ => rfl, fun _ => getD_view (lookupKey_map_view hg _ _) _⟩

/-! ### Writes at the package point -/

section
variable {b : State}

theorem spread_memStep {s : State} (w : MemStep b s) (l : Nat) : MemStep b (spread s l) := by
  refine w.trans (.trans (.mapCtxs (fun _ c => ?_)) (.mapQueues (fun p => ?_)))
  · split <;> rfl
  · split <;> exact ⟨rfl, rfl⟩

/-- Roustabouts that lose reservations alone. -/
theorem unwatched_roustabouts {c : Ctx} {l s : Roustabout} (hl : { l with reserved := none } = { c.loader with reserved := none })
    (hs : { s with reserved := none } = { c.storer with reserved := none }) :
    unwatched { c with loader := l, storer := s } = unwatched c := by
  simp only [unwatched, hl, hs]

theorem unreserve_reservation (l : Nat) (r : Roustabout) :
    { unreserve l r with reserved := none } = { r with reserved := none } := by
  unfold unreserve
  split <;> rfl

theorem touch_memStep {s : State} (w : MemStep b s) (l : Nat) : MemStep b (touch s l) := by
  have hctxs : MemStep s (s.mapCtxs (fun _ c =>
      { c with loader := unreserve l c.loader, storer := unreserve l c.storer })) :=
    .mapCtxs (fun _ _ => unwatched_roustabouts (unreserve_reservation _ _) (unreserve_reservation _ _))
  exact spread_memStep ((w.trans hctxs).setSegs _) l

theorem pkgSet_memStep {s : State} (w : MemStep b s) (l : Nat) (d : BitVec 512) (t : BitVec 4) : MemStep b (pkgSet s l d t) :=
  w.trans (.of_tables rfl rfl rfl rfl)

theorem setSide_memStep {s : State} (w : MemStep b s) (l : Nat) (x : SideLine) : MemStep b (s.setSide l x) :=
  w.trans (.of_tables rfl rfl rfl rfl)

theorem sideFill_memStep {s : State} (w : MemStep b s) (l : Nat) (code : BitVec 2) : MemStep b (sideFill s l code) := by
  unfold sideFill
  dsimp only
  split
  · exact w
  · exact setSide_memStep (pkgSet_memStep w _ _ _) _ _

theorem sideMark_memStep {s : State} (w : MemStep b s) (l : Nat) (code : BitVec 2) : MemStep b (sideMark s l code) := by
  unfold sideMark
  split
  · exact setSide_memStep w _ _
  · exact w

theorem rawMerge_memStep {s : State} (w : MemStep b s) (l : Nat) (d : BitVec 512) (m : BitVec 64) (t : BitVec 4)
    (code : BitVec 2) : MemStep b (rawMerge s l d m t code) := by
  have hfill := sideFill_memStep w l code
  unfold rawMerge
  generalize sideFill s l code = u at hfill
  dsimp only
  split
  · exact w
  · refine spread_memStep (sideMark_memStep (pkgSet_memStep ?_ _ _ _) _ _) _
    split
    · exact hfill.trans (.of_tables rfl rfl rfl rfl)
    · exact hfill

theorem l2Del_memStep {s : State} (w : MemStep b s) (d l : Nat) : MemStep b (s.l2Del d l) :=
  w.trans (.of_tables rfl rfl rfl rfl)

theorem rawSettle_memStep {s : State} (w : MemStep b s) (l : Nat) : MemStep b (rawSettle s l) := by
  refine .foldl (fun s d w => ?_) _ w
  split
  · exact w
  · exact l2Del_memStep (rawMerge_memStep w _ _ _ _ _) _ _

theorem bulkSeen_memStep {s : State} (w : MemStep b s) (lo n : Nat) : MemStep b (bulkSeen s lo n) := by
  refine .foldl (fun s l w => spread_memStep w l) _ ((w.setSegs _).trans (.mapCtxs (fun _ c => ?_)))
  refine unwatched_roustabouts ?_ ?_
  all_goals
    dsimp only
    repeat' split
    all_goals rfl

theorem bulkPlace_memStep {s : State} (w : MemStep b s) (lo n : Nat) (bs : Bytes) : MemStep b (bulkPlace s lo n bs) := by
  refine bulkSeen_memStep ?_ lo n
  exact w.trans (.of_tables rfl rfl rfl rfl)

theorem bulkSet_memStep {s : State} (w : MemStep b s) (lo n : Nat) (bs : Bytes) : MemStep b (bulkSet s lo n bs) := by
  unfold bulkSet
  exact bulkPlace_memStep (sideFill_memStep (sideFill_memStep (rawSettle_memStep (rawSettle_memStep w _) _) _ _) _ _) _ _ _

/-! ### Snapshots (R432) -/

theorem spoilLines_memStep {s : State} (w : MemStep b s) (ls : List Nat) : MemStep b (spoilLines s ls) :=
  w.trans (.of_tables rfl rfl rfl rfl)

theorem chargeWork_memStep {s : State} (w : MemStep b s) (a : Fin 6) (n : Nat) : MemStep b (chargeWork s a n) :=
  w.trans (.of_tables rfl rfl rfl rfl)

theorem modSnap_memStep {s : State} (w : MemStep b s) (d : Nat) (f : Snap → Snap) : MemStep b (s.modSnap d f) :=
  w.trans (.of_tables rfl rfl rfl rfl)

theorem snapOut_memStep {s : State} (w : MemStep b s) (d i : Nat) : MemStep b (snapOut s d i) := by
  unfold snapOut
  extract_lets sn src dst tag u bad
  have hu : MemStep b u := by
    refine .foldl (fun s j w => ?_) _ w
    split
    · exact sideFill_memStep w _ _
    · exact w
  split
  · exact hu
  · split
    · exact spoilLines_memStep (bulkSet_memStep hu _ _ _) _
    · split
      · exact spoilLines_memStep (bulkSet_memStep (bulkSet_memStep hu _ _ _) _ _ _) _
      · exact hu

theorem snapClear_memStep {s : State} (w : MemStep b s) (sn : Snap) (i : Nat) : MemStep b (snapClear s sn i) := by
  unfold snapClear
  exact bulkSet_memStep (rawSettle_memStep w _) _ _ _

theorem signalStep_memStep {s : State} (w : MemStep b s) (a : Nat) : MemStep b (signalStep s a) := by
  unfold signalStep
  exact touch_memStep (bulkSet_memStep (rawSettle_memStep w _) _ _ _) _

theorem snapCopyN_memStep (n : Nat) {s : State} (w : MemStep b s) (d i : Nat) : MemStep b (snapCopyN n s d i) := by
  induction n generalizing s d i with
  | zero => exact w
  | succ n ih =>
    have hfirst : ∀ (s : State) (a : Nat), MemStep b s → MemStep b ((List.range 4).foldl (fun s e =>
        if e = d then s else match snapPage s e (lineOf a) with
          | some j => snapCopyN n s e j
          | none => s) s) := fun s a w => .foldl (fun s e w => by
        split
        · exact w
        · split
          · exact ih w _ _
          · exact w) _ w
    have hcut : ∀ (t : State) (sn : Snap), MemStep b t → MemStep b (snapClear (chargeWork (snapOut t d i) 0 65536) sn i) :=
      fun t sn w => snapClear_memStep (chargeWork_memStep (snapOut_memStep w _ _) _ _) _ _
    have hcopied (sn : Snap) (as : List Nat) (f : Snap → Snap) := modSnap_memStep (hcut _ sn (.foldl hfirst as w)) d f
    unfold snapCopyN
    dsimp only
    split
    · exact hcopied _ _ _
    · split
      · exact modSnap_memStep (hcopied _ _ _) _ _
      · exact signalStep_memStep (hfirst _ _ (modSnap_memStep (hcopied _ _ _) _ _)) _

theorem snapCopy_memStep {s : State} (w : MemStep b s) (d i : Nat) : MemStep b (snapCopy s d i) := snapCopyN_memStep 4 w d i

theorem snapBefore_memStep {s : State} (w : MemStep b s) (l : Nat) : MemStep b (snapBefore s l) := by
  refine .foldl (fun s d w => ?_) _ w
  split
  · exact snapCopy_memStep w _ _
  · exact w

theorem pkgMerge_memStep {s : State} (w : MemStep b s) (l : Nat) (d : BitVec 512) (m : BitVec 64) (t : BitVec 4)
    (code : BitVec 2) : MemStep b (pkgMerge s l d m t code) := by
  unfold pkgMerge
  split
  · exact w
  · exact rawMerge_memStep (snapBefore_memStep w _) _ _ _ _ _

/-! ### The steps of the caches (R116, R121, R462) -/

theorem l2Put_memStep {s : State} (w : MemStep b s) (d l : Nat) (x : L2Line) : MemStep b (s.l2Put d l x) :=
  w.trans (.of_tables rfl rfl rfl rfl)

theorem modCore_memStep {s : State} (w : MemStep b s) (k : Nat) {f : Core → Core} (hf : ∀ c, uncached (f c) = uncached c) :
    MemStep b (s.modCore k f) :=
  w.trans (.modCore hf)

theorem l1Put_memStep {s : State} (w : MemStep b s) (k l : Nat) (x : L1Line) : MemStep b (s.l1Put k l x) :=
  modCore_memStep w _ (fun _ => rfl)

theorem l1Del_memStep {s : State} (w : MemStep b s) (k l : Nat) : MemStep b (s.l1Del k l) :=
  modCore_memStep w _ (fun _ => rfl)

theorem evict2One_memStep {s : State} (w : MemStep b s) (d l : Nat) : MemStep b (evict2One s d l) := by
  unfold evict2One
  split
  · exact w
  · split
    · exact l2Del_memStep w _ _
    · refine l2Del_memStep (pkgMerge_memStep (.foldl (fun s e w => ?_) _ w) _ _ _ _ _) _ _
      split
      · exact w
      · exact l2Del_memStep (pkgMerge_memStep w _ _ _ _ _) _ _

theorem l2Merge_memStep {s : State} (w : MemStep b s) (d l : Nat) (y : L1Line) : MemStep b (l2Merge s d l y) := by
  unfold l2Merge
  split
  · exact w
  · dsimp only
    split
    · exact l2Put_memStep w _ _ _
    · exact l2Put_memStep (sideFill_memStep w _ _) _ _ _

theorem carry1_memStep {s : State} (w : MemStep b s) (j l : Nat) : MemStep b (carry1 s j l) := by
  unfold carry1
  split
  · exact w
  · exact modCore_memStep (l2Merge_memStep w _ _ _) _ (fun _ => rfl)

theorem claimLine_memStep {s : State} (w : MemStep b s) (k l : Nat) (x : L1Line) : MemStep b (claimLine s k l x).1 := by
  refine foldl_keeps (fun acc : State × L1Line => MemStep b acc.1) _ (fun acc j w => ?_) _ _ w
  split
  · exact w
  · exact carry1_memStep w _ _

theorem propagateOne_memStep {s : State} (w : MemStep b s) (k l : Nat) (sc : Scope) : MemStep b (propagateOne s k l sc) := by
  unfold propagateOne
  split
  · exact w
  next x _ =>
    split
    · have hclaim := claimLine_memStep w k l x
      have hfar (ds : List Nat) := MemStep.foldl (fun s d w => evict2One_memStep w d l) ds hclaim
      dsimp only
      cases sc with
      | core => exact hclaim
      | clu => exact l1Put_memStep hclaim _ _ _
      | die => exact l1Put_memStep (l2Merge_memStep hclaim _ _ _) _ _ _
      | pkg | sys => exact l1Put_memStep (pkgMerge_memStep (evict2One_memStep (hfar _) _ _) _ _ _ _ _) _ _ _
    · exact w

theorem evict1One_memStep {s : State} (w : MemStep b s) (k l : Nat) : MemStep b (evict1One s k l) := by
  unfold evict1One
  split
  · exact w
  · refine l1Del_memStep ?_ _ _
    split
    · exact w
    · exact propagateOne_memStep w _ _ _

theorem evict2_memStep {s : State} (w : MemStep b s) (d l : Nat) : MemStep b (evict2 s d l) :=
  .foldl (fun _ l w => evict2One_memStep w d l) _ w

theorem evict1_memStep {s : State} (w : MemStep b s) (k l : Nat) : MemStep b (evict1 s k l) :=
  .foldl (fun _ l w => evict1One_memStep w k l) _ w

theorem followOne_memStep {s : State} (w : MemStep b s) (k l : Nat) (sc : Scope) : MemStep b (followOne s k l sc) := by
  have hcarried := MemStep.foldl (fun s j w => carry1_memStep w j l) (siblings s k) w
  unfold followOne
  generalize (siblings s k).foldl _ s = t at hcarried
  have hown : MemStep b (match t.l1Line k l with
      | some x => (if x.dirty = 0 then t else l2Merge t (dieOf k) l x).l1Del k l
      | none => t) := by
    split
    · refine l1Del_memStep ?_ _ _
      split
      · exact hcarried
      · exact l2Merge_memStep hcarried _ _ _
    · exact hcarried
  dsimp only
  split
  · exact propagateOne_memStep w _ _ _
  · cases sc with
    | pkg | sys => exact evict2One_memStep hown _ _
    | _ => exact hown

theorem propagate_memStep {s : State} (w : MemStep b s) (k l : Nat) (sc : Scope) : MemStep b (propagate s k l sc) := by
  unfold propagate
  split
  · exact .foldl (fun _ t w => followOne_memStep w k t sc) _ (propagateOne_memStep w _ _ _)
  · exact w

theorem withFill_memStep {s : State} (w : MemStep b s) (k l hint : Nat) : MemStep b (withFill s k l hint).1 := by
  have hready : MemStep b (readySide s k l) := by
    unfold readySide
    split
    · exact sideFill_memStep w _ _
    · exact w
  unfold withFill
  split
  · exact w
  · dsimp only
    split <;> split
    · exact l1Put_memStep (l2Put_memStep hready _ _ _) _ _ _
    · exact l1Put_memStep hready _ _ _
    · exact l2Put_memStep hready _ _ _
    · exact hready

theorem l1Write_memStep {s : State} (w : MemStep b s) (k l : Nat) (d : BitVec 512) (m : BitVec 64) (t : BitVec 4) (sc : Scope)
    (hint : Nat) : MemStep b (l1Write s k l d m t sc hint) := by
  have hwritten (x : L1Line) := touch_memStep (propagate_memStep (l1Put_memStep (withFill_memStep w k l hint) k l x) k l sc) l
  unfold l1Write
  dsimp only
  split <;> split
  · exact hwritten _
  · exact evict1_memStep (hwritten _) _ _
  · exact evict2_memStep (hwritten _) _ _
  · exact evict2_memStep (evict1_memStep (hwritten _) _ _) _ _

theorem scopedDrop_memStep {s : State} (w : MemStep b s) (k l : Nat) (sc : Scope) : MemStep b (scopedDrop s k l sc) := by
  have hout := evict1_memStep (propagate_memStep w k l sc) k l
  unfold scopedDrop
  cases sc with
  | pkg | sys =>
    dsimp only
    split
    · split
      · exact evict2_memStep hout _ _
      · exact hout
    · exact hout
  | _ => exact hout

theorem gatherLine_memStep {s : State} (w : MemStep b s) (k l : Nat) (sc : Scope) : MemStep b (gatherLine s k l sc) := by
  have hnear : MemStep b (if narrower .core sc then evict1 ((siblings s k).foldl (fun s j => evict1 s j l) s) k l else s) := by
    split
    · exact evict1_memStep (.foldl (fun _ j w => evict1_memStep w j l) _ w) _ _
    · exact w
  unfold gatherLine
  dsimp only
  split
  · exact evict2_memStep hnear _ _
  · exact hnear

theorem l1Load_memStep {s : State} (w : MemStep b s) (k l : Nat) (sc : Scope) (hint : Nat) :
    MemStep b (l1Load s k l sc hint).1 := by
  unfold l1Load
  cases sc with
  | core | clu => exact withFill_memStep w _ _ _
  | die =>
    dsimp only
    split
    · exact scopedDrop_memStep w k l .die
    · exact sideFill_memStep (scopedDrop_memStep w k l .die) _ _
  | pkg | sys => exact sideFill_memStep (scopedDrop_memStep w _ _ _) _ _

theorem release_memStep {s : State} (w : MemStep b s) (k : Nat) (sc : Scope) : MemStep b (release s k sc) := by
  have hlines (ls : List Nat) := MemStep.foldl (fun s l w => propagate_memStep w k l sc) ls w
  unfold release
  cases sc with
  | pkg | sys => exact .foldl (fun _ l w => evict2_memStep w _ l) _ (hlines _)
  | _ => exact hlines _

theorem acquire_memStep {s : State} (w : MemStep b s) (k : Nat) (sc : Scope) : MemStep b (acquire s k sc) := by
  unfold acquire
  cases sc with
  | core | clu => exact w
  | _ =>
    refine .foldl (fun s j w => ?_) _ (.foldl (fun _ l w => propagate_memStep w k l _) _ w)
    exact modCore_memStep w j (fun _ => rfl)

/-! ### Bytes moved by the part -/

theorem flushRange_memStep {s : State} (w : MemStep b s) (lo n : Nat) : MemStep b (flushRange s lo n) := by
  refine .foldl (fun s d w => .foldl (fun s l w => evict2_memStep w _ l) _ w) _ ?_
  exact .foldl (fun s k w => .foldl (fun s l w => .foldl (fun s l w => carry1_memStep w _ l) _ w) _ w) _ w

theorem snapRange_memStep {s : State} (w : MemStep b s) (lo n : Nat) : MemStep b (snapRange s lo n) := by
  refine .foldl (fun s d w => .foldl (fun s i w => ?_) _ w) _ w
  split
  · exact snapCopy_memStep w _ _
  · exact w

theorem bulkStore_memStep {s : State} (w : MemStep b s) (lo n : Nat) (bs : Bytes) : MemStep b (bulkStore s lo n bs) := by
  unfold bulkStore
  split
  · exact w
  · exact bulkSet_memStep (flushRange_memStep (snapRange_memStep w _ _) _ _) _ _ _

theorem rstateStore_memStep {s : State} (w : MemStep b s) (pa : Nat) (bs : List Byte) : MemStep b (rstateStore s pa bs) := by
  have hready := sideMark_memStep (sideFill_memStep (snapBefore_memStep w (lineOf pa)) (lineOf pa) 0) (lineOf pa) 0
  unfold rstateStore
  dsimp only
  split
  · refine touch_memStep ?_ _
    exact hready.trans (.of_tables rfl rfl rfl rfl)
  · exact w

theorem lineStore_memStep {s : State} (w : MemStep b s) (pa : Nat) (bs : List Byte) (t : BitVec 4) (code : BitVec 2) :
    MemStep b (lineStore s pa bs t code) := by
  unfold lineStore
  dsimp only
  split
  · exact touch_memStep (pkgMerge_memStep (.foldl (fun _ d w => evict2_memStep w d _) _ w) _ _ _ _ _) _
  · refine touch_memStep ?_ _
    exact w.trans (.of_tables rfl rfl rfl rfl)

theorem codeStore_memStep {s : State} (w : MemStep b s) (code : BitVec 2) (pa : Nat) (bs : List Byte) (t : BitVec 4) :
    MemStep b (codeStore s code pa bs t) := by
  unfold codeStore
  dsimp only
  split
  · exact lineStore_memStep w _ _ _ _
  · split
    · exact rstateStore_memStep w _ _
    · exact lineStore_memStep (rstateStore_memStep w _ _) _ _ _ _

theorem pkgStoreAll_memStep {s : State} (w : MemStep b s) (pa : Nat) (bs : List Byte) : MemStep b (pkgStoreAll s pa bs) :=
  foldl_keeps (fun acc : State × List Byte => MemStep b acc.1) _ (fun _ _ w => codeStore_memStep w 0 _ _ _) _ _ w

/-! ### Accesses of a context (R116) -/

theorem plainPiece_memStep {s : State} (w : MemStep b s) (k : Nat) (ws : List Nat) (pa n : Nat) (sc : Scope) (hint : Nat) :
    MemStep b (plainPiece s k ws pa n sc hint).1 := by
  unfold plainPiece
  split
  · exact l1Load_memStep w _ _ _ _
  · exact w

theorem loadPiece_memStep {s : State} (w : MemStep b s) (k : Nat) (ws : List Nat) (pa n : Nat) (sc : Scope) (hint : Nat) :
    MemStep b (loadPiece s k ws pa n sc hint).1 := by
  unfold loadPiece
  dsimp only
  split
  · exact plainPiece_memStep w _ _ _ _ _ _
  · split
    · exact w
    · exact plainPiece_memStep w _ _ _ _ _ _

theorem loadBytes_memStep {s : State} (w : MemStep b s) (k : Nat) (ws : List Nat) (pa n : Nat) (sc : Scope) (hint : Nat) :
    MemStep b (loadBytes s k ws pa n sc hint).1 :=
  foldl_keeps (fun acc : State × List Byte => MemStep b acc.1) _ (fun _ _ w => loadPiece_memStep w _ _ _ _ _ _) _ _ w

theorem ctxLoad_memStep {s : State} (w : MemStep b s) (k pa n : Nat) (sc : Scope) (hint : Nat) :
    MemStep b (ctxLoad s k pa n sc hint).1 :=
  loadBytes_memStep w _ _ _ _ _ _

theorem plainPut_memStep {s : State} (w : MemStep b s) (k pa : Nat) (bs : List Byte) (t : BitVec 4) (sc : Scope) (hint : Nat) :
    MemStep b (plainPut s k pa bs t sc hint) := by
  unfold plainPut
  split
  · exact l1Write_memStep w _ _ _ _ _ _ _
  · exact lineStore_memStep w _ _ _ _

theorem MemStep.setWsets {s : State} (w : MemStep b s) (wsets : List (Nat × List (Nat × L1Line))) :
    MemStep b { s with wsets := wsets } :=
  w.trans (.of_tables rfl rfl rfl rfl)

theorem wsetStore_memStep {s : State} (w : MemStep b s) (key l : Nat) (d : BitVec 512) (m : BitVec 64) (t : BitVec 4) :
    MemStep b (wsetStore s key l d m t) := by
  unfold wsetStore
  dsimp only
  refine MemStep.trans (w.setWsets _) (.mapCtxs (fun _ c => ?_))
  split <;> rfl

theorem storePiece_memStep {s : State} (w : MemStep b s) (k : Nat) (wk : Option Nat) (pa : Nat) (bs : List Byte) (t : BitVec 4)
    (sc : Scope) (hint : Nat) : MemStep b (storePiece s k wk pa bs t sc hint) := by
  unfold storePiece
  dsimp only
  split
  · exact wsetStore_memStep w _ _ _ _ _
  · split
    · exact plainPut_memStep w _ _ _ _ _ _
    · split
      · exact rstateStore_memStep w _ _
      · exact plainPut_memStep (rstateStore_memStep w _ _) _ _ _ _ _ _

theorem storeBytes_memStep {s : State} (w : MemStep b s) (k : Nat) (wk : Option Nat) (pa : Nat) (bs : List Byte) (sc : Scope)
    (hint : Nat) : MemStep b (storeBytes s k wk pa bs sc hint) :=
  foldl_keeps (fun acc : State × List Byte => MemStep b acc.1) _ (fun _ _ w => storePiece_memStep w _ _ _ _ _ _ _) _ _ w

theorem ctxStore_memStep {s : State} (w : MemStep b s) (k pa : Nat) (bs : List Byte) (sc : Scope) (hint : Nat) :
    MemStep b (ctxStore s k pa bs sc hint) :=
  storeBytes_memStep w _ _ _ _ _ _

theorem setCode_memStep {s : State} (w : MemStep b s) (code : BitVec 2) : MemStep b { s with code := code } :=
  w.trans (.of_tables rfl rfl rfl rfl)

theorem storeElem_memStep {s : State} (w : MemStep b s) (k : Nat) (sc : Scope) (hint : Nat) (x : ElemStore) :
    MemStep b (storeElem s k sc hint x) := by
  have hcode := setCode_memStep w x.code
  unfold storeElem
  dsimp only
  split
  · exact ctxStore_memStep (ctxLoad_memStep hcode _ _ _ _ _) _ _ _ _ _
  · exact ctxStore_memStep hcode _ _ _ _ _

theorem tieLines_memStep {s : State} (w : MemStep b s) (ls : List Nat) : MemStep b (tieLines s ls) := by
  unfold tieLines
  dsimp only
  split
  · exact w.trans (.of_tables rfl rfl rfl rfl)
  · exact w.trans (.of_tables rfl rfl rfl rfl)

theorem storeElems_memStep {s : State} (w : MemStep b s) (k : Nat) (sc : Scope) (hint : Nat) (xs : List ElemStore) :
    MemStep b (storeElems s k sc hint xs) := by
  have hstored := MemStep.foldl (fun s x w => storeElem_memStep w k sc hint x) xs w
  unfold storeElems
  dsimp only
  split
  · exact tieLines_memStep hstored _
  · exact hstored

theorem readElem_memStep {s : State} (w : MemStep b s) (k : Nat) (st : List Access) (sc : Scope) (hint : Nat) (x : ElemLoad) :
    MemStep b (readElem s k st sc hint x).1 :=
  ctxLoad_memStep (setCode_memStep w x.code) _ _ _ _ _

theorem freshLines_memStep {s : State} (w : MemStep b s) (k : Nat) (xs : List ElemLoad) : MemStep b (freshLines s k xs) := by
  unfold freshLines
  dsimp only
  split
  · exact w
  · exact .foldl (fun s j w => .foldl (fun s l w => evict1_memStep w j l) _ w) _ w

theorem amoStep_memStep {s : State} (w : MemStep b s) (k : Nat) (a : Access) (new : List Byte → Word) :
    MemStep b (amoStep s k a new).1 :=
  ctxStore_memStep (ctxLoad_memStep (gatherLine_memStep (release_memStep w _ _) _ _ _) _ _ _ _ _) _ _ _ _ _

end


/-! ### What performed accesses leave of a context (R116) -/

/-- What of a context no access changes: its frame, its core, and whether it is speculative. -/
def headOf (c : Ctx) : Header × Option Nat × Bool := (c.h, c.core, c.spec)

/-- Every context keeps its head. -/
def KeepsHeads (s t : State) : Prop := ∀ slot, headOf (t.ctxAt slot) = headOf (s.ctxAt slot)

/-- What of a context does not speak of its reservations and its parked line. -/
theorem view_of_unwatched {α : Type} {c d : Ctx} (view : Ctx → α) (h : unwatched d = unwatched c)
    (hview : ∀ c, view (unwatched c) = view c := by exact fun _ => rfl) : view d = view c := by
  rw [← hview d, h, hview]

theorem MemStep.heads {s t : State} (h : MemStep s t) : KeepsHeads s t := fun slot => view_of_unwatched headOf (h.ctxs slot)

theorem KeepsHeads.trans {s t u : State} (h : KeepsHeads s t) (g : KeepsHeads t u) : KeepsHeads s u :=
  fun slot => (g slot).trans (h slot)

/-- A context's registers, roustabouts or queues changed. -/
theorem KeepsHeads.modCtx {b s : State} (w : KeepsHeads b s) (n : Nat) {f : Ctx → Ctx} (hf : ∀ c, headOf (f c) = headOf c) :
    KeepsHeads b (s.modCtx n f) := by
  refine w.trans (fun slot => ?_)
  by_cases h : slot = n
  · rw [h, State.ctxAt_modCtx_self, hf]
  · rw [State.ctxAt_modCtx_ne s h]

theorem KeepsHeads.modCur {b s : State} (w : KeepsHeads b s) {f : Ctx → Ctx} (hf : ∀ c, headOf (f c) = headOf c) :
    KeepsHeads b (s.modCur f) :=
  w.modCtx s.slot hf

theorem headOf_writeG (c : Ctx) (d : GReg) (v : Word) : headOf (writeG c d v) = headOf c := by
  simp only [headOf, writeG_h, writeG_core, writeG_spec]

theorem headOf_modRoust (c : Ctx) (storer : Bool) (f : Roustabout → Roustabout) :
    headOf (modRoust c storer f) = headOf c := by
  simp only [headOf, modRoust_h, modRoust_core, modRoust_spec]

section
variable {b : State}

theorem loadElems_keepsHeads {s : State} (w : KeepsHeads b s) (k : Nat) (st : List Access) (sc : Scope) (hint : Nat)
    (xs : List ElemLoad) : KeepsHeads b (loadElems s k st sc hint xs) := by
  refine foldl_keeps (KeepsHeads b) _ (fun s x w => ?_) _ _ (w.trans (freshLines_memStep (.refl s) _ _).heads)
  refine KeepsHeads.modCur (s := (readElem s k st sc hint x).1) ?_ (fun _ => rfl)
  exact w.trans (readElem_memStep (.refl s) k st sc hint x).heads

theorem performAmo_keepsHeads {s : State} (w : KeepsHeads b s) (k : Nat) (a : Access) (kind : AmoKind) (ty : Ty) (d : GReg)
    (x c : Word) : KeepsHeads b (performAmo s k a kind ty d x c) := by
  unfold performAmo
  refine KeepsHeads.trans (KeepsHeads.modCur ?_ (fun c => headOf_writeG c _ _)) (acquire_memStep (.refl _) _ _).heads
  exact w.trans (amoStep_memStep (.refl s) k a (fun bs => amoNew kind ty (loadValue ty bs) x c)).heads

/-- A roustabout of the acting context changed, and an acquire where one is asked. -/
theorem modRoust_acquire_keepsHeads {s : State} (w : KeepsHeads b s) (storer : Bool) (f : Roustabout → Roustabout) (aq : Bool)
    (k : Nat) :
    KeepsHeads b (if aq then acquire (s.modCur (fun c => modRoust c storer f)) k .sys
      else s.modCur (fun c => modRoust c storer f)) := by
  have hmod := w.modCur (fun c => headOf_modRoust c storer f)
  split
  · exact hmod.trans (acquire_memStep (.refl _) _ _).heads
  · exact hmod

theorem performAmoX_keepsHeads {s : State} (w : KeepsHeads b s) (k : Nat) (a : Access) (op : RvAmoOp) (aq : Bool) (d : XReg)
    (v : Word) : KeepsHeads b (performAmoX s k a op aq d v) := by
  unfold performAmoX
  dsimp only
  split
  · exact modRoust_acquire_keepsHeads (w.trans (ctxLoad_memStep (.refl s) _ _ _ _ _).heads) _ _ _ _
  · refine modRoust_acquire_keepsHeads ?_ _ _ _ _
    split
    · exact w.trans (ctxStore_memStep (.refl s) _ _ _ _ _).heads
    · exact w
  · refine KeepsHeads.trans (KeepsHeads.modCur ?_ (fun c => headOf_modRoust c _ _)) (acquire_memStep (.refl _) _ _).heads
    exact w.trans (amoStep_memStep (.refl s) k a _).heads

theorem performAccess_keepsHeads {s : State} (w : KeepsHeads b s) (k : Nat) (st : List Access) (a : Access) :
    KeepsHeads b (performAccess s k st a) := by
  have hcode : KeepsHeads b { s with code := a.code } := w
  unfold performAccess
  dsimp only
  split
  · exact hcode.trans (ctxStore_memStep (.refl _) _ _ _ _ _).heads
  · exact hcode.trans (storePiece_memStep (.refl _) _ _ _ _ _ _ _).heads
  · exact hcode.trans (storeElems_memStep (.refl _) _ _ _ _).heads
  · exact (hcode.trans (ctxLoad_memStep (.refl _) _ _ _ _ _).heads).modCur (fun c => headOf_writeG c _ _)
  · exact (hcode.trans (loadPiece_memStep (.refl _) _ _ _ _ _ _).heads).modCur (fun _ => rfl)
  · exact (hcode.trans (ctxLoad_memStep (.refl _) _ _ _ _ _).heads).modCur (fun c => headOf_modRoust c _ _)
  · exact loadElems_keepsHeads hcode _ _ _ _ _
  · exact performAmo_keepsHeads hcode _ _ _ _ _ _ _
  · exact performAmoX_keepsHeads hcode _ _ _ _ _ _

theorem retire_keepsHeads (k n : Nat) {s : State} (w : KeepsHeads b s) : KeepsHeads b (retire k n s) := by
  induction n generalizing s with
  | zero => exact w
  | succ n ih =>
    unfold retire
    dsimp only
    split
    · exact w
    · refine ih ?_
      exact KeepsHeads.modCur (s := { s with core := k }) (f := fun c => popEntry { c with vlive := c.vlive - 1 }) w
        (fun _ => rfl)

theorem drainSome_keepsHeads {s : State} (w : KeepsHeads b s) (k : Nat) (p : Party) (pick : Access → Bool) :
    KeepsHeads b (drainSome s k p pick) := by
  have hgo (go : List Access) (q : PartyQ) : KeepsHeads b (go.foldl (fun t a => performAccess t k [] a)
      (modPq { s with core := k, party := p } k p (fun _ => q))) :=
    foldl_keeps (KeepsHeads b) _ (fun _ a w => performAccess_keepsHeads w k [] a) _ _ w
  unfold drainSome
  dsimp only
  split
  · exact w
  · split
    · exact retire_keepsHeads k 64 (hgo _ _)
    · exact hgo _ _

theorem drainCore_keepsHeads {s : State} (w : KeepsHeads b s) (k : Nat) : KeepsHeads b (drainCore s k) :=
  foldl_keeps (KeepsHeads b) _ (fun _ p w => drainSome_keepsHeads w k p _) _ _ w

end

/-! ### Halting (R101, R129) -/

/-- A context with the frame, registers, vector queue and place of another. -/
structure SameFrame (c d : Ctx) : Prop where
  h : d.h = c.h
  r : d.r = c.r
  vqn : d.vqn = c.vqn
  vq : d.vq = c.vq
  core : d.core = c.core
  spec : d.spec = c.spec

theorem SameFrame.refl (c : Ctx) : SameFrame c c := ⟨rfl, rfl, rfl, rfl, rfl, rfl⟩

theorem SameFrame.trans {c d e : Ctx} (p : SameFrame c d) (q : SameFrame d e) : SameFrame c e :=
  ⟨q.h.trans p.h, q.r.trans p.r, q.vqn.trans p.vqn, q.vq.trans p.vq, q.core.trans p.core, q.spec.trans p.spec⟩

theorem MemStep.sameFrame {s t : State} (h : MemStep s t) (slot : Nat) : SameFrame (s.ctxAt slot) (t.ctxAt slot) := by
  have hctx := h.ctxs slot
  exact ⟨view_of_unwatched Ctx.h hctx, view_of_unwatched Ctx.r hctx, view_of_unwatched Ctx.vqn hctx,
    view_of_unwatched Ctx.vq hctx, view_of_unwatched Ctx.core hctx, view_of_unwatched Ctx.spec hctx⟩

theorem ctxAt_modCore (s : State) (k : Nat) (f : Core → Core) (slot : Nat) : (s.modCore k f).ctxAt slot = s.ctxAt slot := rfl

theorem ctxAt_modCluster (s : State) (k : Nat) (f : Cluster → Cluster) (slot : Nat) :
    (s.modCluster k f).ctxAt slot = s.ctxAt slot := rfl

theorem ctxAt_modQueue (s : State) (q : Nat) (f : Queue → Queue) (slot : Nat) :
    (s.modQueue q f).ctxAt slot = s.ctxAt slot := rfl

/-- A context changed apart from frame, registers, vector queue and place. -/
theorem SameFrame.modCtx {s : State} {slot : Nat} {f : Ctx → Ctx} (hf : ∀ c, SameFrame c (f c)) :
    SameFrame (s.ctxAt slot) ((s.modCtx slot f).ctxAt slot) := by
  rw [State.ctxAt_modCtx_self]
  exact hf _

theorem finishTile_sameFrame (s : State) (slot : Nat) : SameFrame (s.ctxAt slot) ((finishTile s slot).ctxAt slot) := by
  unfold finishTile
  dsimp only
  split
  · exact .modCtx (fun _ => ⟨rfl, rfl, rfl, rfl, rfl, rfl⟩)
  · exact .refl _

theorem laneWithdraw_sameFrame (s : State) (slot : Nat) : SameFrame (s.ctxAt slot) ((laneWithdraw s slot).ctxAt slot) := by
  unfold laneWithdraw
  split
  · exact .refl _
  · exact SameFrame.modCtx (s := s) (f := fun c => { c with regrant := false }) (fun _ => ⟨rfl, rfl, rfl, rfl, rfl, rfl⟩)

theorem budgetMod_ctxs (s : State) (r : Nat) (a : Fin 6) (f : Nat → Nat) : (budgetMod s r a f).ctxs = s.ctxs :=
  foldl_keeps (fun t : State => t.ctxs = s.ctxs) (fun s q => s.modRegion q _) (fun _ _ h => h) _ _ rfl

theorem budgetGive_ctxAt (s : State) (r : Nat) (a : Fin 6) (n slot : Nat) : (budgetGive s r a n).ctxAt slot = s.ctxAt slot := by
  rw [budgetGive, State.ctxAt, State.ctx?, budgetMod_ctxs, State.ctxAt, State.ctx?]

theorem laneGive_ctxAt (s : State) (slot : Nat) :
    (laneGive s slot).ctxAt slot = { s.ctxAt slot with vr := { (s.ctxAt slot).vr with held := 0 } } := by
  unfold laneGive
  dsimp only
  split
  next h => rw [← h]
  · rw [State.ctxAt_modCtx_self, budgetGive_ctxAt]

theorem vecOut_sameFrame (s : State) (slot : Nat) : SameFrame (s.ctxAt slot) ((vecOut s slot).ctxAt slot) := by
  unfold vecOut
  dsimp only
  split
  · exact .refl _
  · exact (MemStep.sameFrame (bulkStore_memStep (bulkStore_memStep (.refl s) _ _ _) _ _ _) slot).trans
      (.modCtx (fun _ => ⟨rfl, rfl, rfl, rfl, rfl, rfl⟩))

/-- A context that returns its lanes keeps its frame, and holds none afterwards (R180). -/
theorem laneReturn_ctxAt (s : State) (slot : Nat) :
    SameFrame (s.ctxAt slot) ((laneReturn s slot).ctxAt slot) ∧ ((laneReturn s slot).ctxAt slot).vr.held = 0 := by
  unfold laneReturn
  split
  next h => exact ⟨.refl _, h⟩
  · rw [laneGive_ctxAt]
    exact ⟨(vecOut_sameFrame s slot).trans ⟨rfl, rfl, rfl, rfl, rfl, rfl⟩, rfl⟩

/-- A frame whose requested copies have been made (R97). -/
def committed (h : Header) : Header :=
  { h with
    rootcap := if h.reqRoot then h.shRootcap else h.rootcap
    vlcap := if h.reqVl then h.shVlcap else h.vlcap
    atp := if h.reqAtp then h.shAtp else h.atp
    reqRoot := false, reqVl := false, reqAtp := false }

theorem applyCommit_sameFrame (s : State) (slot : Nat) :
    SameFrame { s.ctxAt slot with h := committed (s.ctxAt slot).h } ((applyCommit s slot).ctxAt slot) := by
  have hcopied (ls : List Nat) : SameFrame { s.ctxAt slot with h := committed (s.ctxAt slot).h }
      (((ls.foldl touch s).modCtx slot (fun c => { c with h := committed c.h })).ctxAt slot) := by
    obtain ⟨hh, hr, hvqn, hvq, hcore, hspec⟩ := (MemStep.foldl (fun _ l w => touch_memStep w l) ls (.refl s)).sameFrame slot
    rw [State.ctxAt_modCtx_self]
    exact ⟨congrArg committed hh, hr, hvqn, hvq, hcore, hspec⟩
  unfold applyCommit
  extract_lets c vl lines t u d n
  split
  · rw [State.ctxAt_modCtx_self, budgetGive_ctxAt]
    exact SameFrame.trans (hcopied _) ⟨rfl, rfl, rfl, rfl, rfl, rfl⟩
  · exact hcopied _

/-- The state once the accesses of a context's agents have performed that can (R129). -/
def drained (s : State) (slot : Nat) : State :=
  match (s.ctxAt slot).core with
  | some k => drainCore s k
  | none => s

theorem drained_heads (s : State) (slot : Nat) : KeepsHeads s (drained s slot) := by
  unfold drained
  split
  · exact drainCore_keepsHeads (fun _ => rfl) _
  · exact fun _ => rfl

theorem drainCore_quiet {s : State} {k : Nat} (h : ∀ p, waitingOf s k p = []) : drainCore s k = s := by
  simp only [drainCore, List.foldl_cons, List.foldl_nil, drain, drainSome_empty (h _)]

theorem drained_quiet {s : State} {slot : Nat} (h : quietAgents s slot = true) : drained s slot = s := by
  unfold quietAgents at h
  unfold drained
  split
  next k hk =>
    simp only [hk, List.all_cons, List.all_nil, Bool.and_true, Bool.and_eq_true, List.isEmpty_iff] at h
    obtain ⟨hcontrol, hvector, hloader, hstorer⟩ := h
    exact drainCore_quiet (fun p => by cases p <;> assumption)
  · rfl

/-- The state in which a context's accesses have performed, its stores released at .sys (R129). -/
def releasedFor (s : State) (slot : Nat) : State :=
  match (s.ctxAt slot).core with
  | some k => release (drainCore s k) k .sys
  | none => s

theorem releasedFor_sameFrame (s : State) (slot : Nat) :
    SameFrame ((drained s slot).ctxAt slot) ((releasedFor s slot).ctxAt slot) := by
  unfold drained releasedFor
  cases (s.ctxAt slot).core with
  | none => exact .refl _
  | some k => exact (release_memStep (.refl _) _ _).sameFrame slot

/-- The state in which the halt of a context makes its copies and returns its lanes: its core searches from here on, with no load
performed early and no words fetched ahead (R46, R129). -/
def settledFor (s : State) (slot : Nat) : State :=
  match (s.ctxAt slot).core with
  | some k => (releasedFor s slot).modCore k (fun x => { x with idle := false, early := [], ahead := [] })
  | none => s

theorem settledFor_sameFrame (s : State) (slot : Nat) :
    SameFrame ((drained s slot).ctxAt slot) ((settledFor s slot).ctxAt slot) := by
  have hreleased := releasedFor_sameFrame s slot
  unfold settledFor
  cases hcore : (s.ctxAt slot).core with
  | none =>
    unfold releasedFor at hreleased
    rwa [hcore] at hreleased
  | some k =>
    dsimp only
    rwa [ctxAt_modCore]

/-- The lanes and copies of a halt, in the state that its accesses leave. -/
theorem haltStep_eq (s : State) (slot : Nat) :
    haltStep s slot =
      (laneReturn (laneWithdraw (applyCommit (finishTile (settledFor s slot) slot) slot) slot) slot).modCtx slot (fun c =>
        { c with
          h := { c.h with vcp := vcpOf c }
          loader := { c.loader with reserved := none }
          storer := { c.storer with reserved := none }
          spin := { c.spin with count := 0 }
          segPark := none
          awaitClose := none, delivered := none }) := by
  rewrite [settledFor, releasedFor, haltStep]
  cases (s.ctxAt slot).core <;> rfl

theorem SameFrame.vcpOf {c d : Ctx} (h : SameFrame c d) : vcpOf d = Machine.vcpOf c := by
  rw [Machine.vcpOf, h.vqn, h.vq, h.h, Machine.vcpOf]

/-- What a halt leaves of the context (R129): frame, registers and queue as its performed accesses leave them, the requested
copies made, both points standing, no lane held. -/
theorem haltStep_ctxAt (s : State) (slot : Nat) :
    let c := (drained s slot).ctxAt slot
    let d := (haltStep s slot).ctxAt slot
    SameFrame { c with h := { committed c.h with vcp := vcpOf c } } d ∧ d.vr.held = 0 := by
  intro c d
  have htile := (settledFor_sameFrame s slot).trans (finishTile_sameFrame _ slot)
  have hcopied : SameFrame { c with h := committed c.h } ((applyCommit (finishTile (settledFor s slot) slot) slot).ctxAt slot) :=
    SameFrame.trans (d := { (finishTile (settledFor s slot) slot).ctxAt slot with
        h := committed ((finishTile (settledFor s slot) slot).ctxAt slot).h })
      ⟨congrArg committed htile.h, htile.r, htile.vqn, htile.vq, htile.core, htile.spec⟩ (applyCommit_sameFrame _ _)
  obtain ⟨hlanes, hheld⟩ := laneReturn_ctxAt (laneWithdraw (applyCommit (finishTile (settledFor s slot) slot) slot) slot) slot
  have hall := (hcopied.trans (laneWithdraw_sameFrame _ _)).trans hlanes
  have hd : d = _ := (congrArg (State.ctxAt · slot) (haltStep_eq s slot)).trans (State.ctxAt_modCtx_self _ _ _)
  rw [hd]
  refine ⟨⟨?_, hall.r, hall.vqn, hall.vq, hall.core, hall.spec⟩, hheld⟩
  simp only [hall.h, hall.vcpOf]
  rfl

/-! ### Taking a trap and taking a halt (R101, R106) -/

theorem postRecord_ctxAt (s : State) (q : Nat) (ws : List Word) (slot : Nat) :
    unwatched ((postRecord s q ws).ctxAt slot) = unwatched (s.ctxAt slot) := by
  rw [postRecord]
  refine ((touch_memStep (.refl _) _).ctxs slot).trans ?_
  rw [ctxAt_modQueue]
  exact (pkgStoreAll_memStep (.refl s) _ _).ctxs slot

/-- A context whose record waits for its queue, or does not (R107). -/
def withPend (pend : Bool) (c : Ctx) : Ctx := { c with h := { c.h with pend := pend } }

theorem unwatched_withPend (pend : Bool) (c : Ctx) : unwatched (withPend pend c) = withPend pend (unwatched c) := rfl

theorem withPend_self (c : Ctx) : withPend c.h.pend c = c := rfl

/-- The posting of a trap record leaves the context but for whether its record waits (R107). -/
theorem postTrap_ctxAt (s : State) (slot : Nat) :
    ∃ pend, unwatched ((postTrap s slot).ctxAt slot) = withPend pend (unwatched (s.ctxAt slot)) := by
  have hset (t : State) (pend : Bool) : unwatched ((t.modCtx slot (withPend pend)).ctxAt slot) =
      withPend pend (unwatched (t.ctxAt slot)) := by
    rw [State.ctxAt_modCtx_self, unwatched_withPend]
  unfold postTrap
  dsimp only
  split
  · exact ⟨true, hset s true⟩
  next q _ =>
    split
    · exact ⟨true, hset s true⟩
    · refine ⟨false, (hset _ false).trans ?_⟩
      rw [postRecord_ctxAt]

/-- The context that a trap leaves of one whose accesses have performed (R106). -/
def trapped (t : Trap) (c : Ctx) : Ctx :=
  { c with
    h := { c.h with run := 0, cause := t.cause, party := BitVec.ofNat 4 t.party, detail0 := t.detail0,
                    detail1 := t.detail1, poisonPc := t.poisonPc, trapseq := c.h.trapseq + 1 }
    halt := none
    trap := if c.spec then some t else none }

/-- A trap that nothing keeps back is the halt, and the trap noted in the frame. -/
theorem takeTrap_ctxAt {slot : Nat} {s : State} (hwaits : haltWaits s slot = false) (t : Trap) :
    ∃ pend, unwatched ((takeTrap slot t s).ctxAt slot) =
      withPend pend (unwatched (trapped t ((haltStep s slot).ctxAt slot))) := by
  have htrapped : ((haltStep s slot).modCtx slot (trapped t)).ctxAt slot = _ := State.ctxAt_modCtx_self _ _ _
  have heq : takeTrap slot t s =
      if (((haltStep s slot).modCtx slot (trapped t)).ctxAt slot).spec then (haltStep s slot).modCtx slot (trapped t)
      else postTrap ((haltStep s slot).modCtx slot (trapped t)) slot := by
    rw [takeTrap, if_neg (by rw [hwaits]; exact Bool.false_ne_true)]
    rfl
  rw [heq, ← htrapped]
  split
  · exact ⟨_, (withPend_self _).symm⟩
  · exact postTrap_ctxAt _ slot

/-- Where no access waits, a halt finds the context as it stands. -/
theorem haltStep_quiet {s : State} {slot : Nat} (h : quietAgents s slot = true) :
    ((haltStep s slot).ctxAt slot).r = (s.ctxAt slot).r ∧ ((haltStep s slot).ctxAt slot).vqn = (s.ctxAt slot).vqn ∧
      ((haltStep s slot).ctxAt slot).vq = (s.ctxAt slot).vq := by
  obtain ⟨hframe, -⟩ := haltStep_ctxAt s slot
  rw [drained_quiet h] at hframe
  exact ⟨hframe.r, hframe.vqn, hframe.vq⟩

/-- Whatever its accesses do, a halt leaves the pc, the sequence number and the place, both points standing and no lane held. -/
theorem haltStep_points (s : State) (slot : Nat) :
    let c := s.ctxAt slot
    let d := (haltStep s slot).ctxAt slot
    d.h.pc = c.h.pc ∧ d.h.trapseq = c.h.trapseq ∧ d.h.vcp = vcpOf d ∧ d.core = c.core ∧ d.spec = c.spec ∧ d.vr.held = 0 := by
  intro c d
  obtain ⟨hframe, hheld⟩ := haltStep_ctxAt s slot
  have hheads := drained_heads s slot slot
  simp only [headOf, Prod.mk.injEq] at hheads
  obtain ⟨hh, hcore, hspec⟩ := hheads
  have hpoint : d.h.vcp = vcpOf d := by rw [hframe.vcpOf, hframe.h]; rfl
  refine ⟨?_, ?_, hpoint, hframe.core.trans hcore, hframe.spec.trans hspec, hheld⟩
  · rw [hframe.h, ← hh]; rfl
  · rw [hframe.h, ← hh]; rfl

/-- What a trap leaves, by what the halt before it leaves. -/
theorem takeTrap_views {slot : Nat} {s : State} (hwaits : haltWaits s slot = false) (t : Trap) :
    let e := (haltStep s slot).ctxAt slot
    let d := (takeTrap slot t s).ctxAt slot
    (∃ pend, d.h = (withPend pend (trapped t e)).h) ∧ d.halt = none ∧ d.trap = (if e.spec then some t else none) ∧
      d.core = e.core ∧ d.vr = e.vr ∧ d.r = e.r ∧ d.vqn = e.vqn ∧ d.vq = e.vq := by
  obtain ⟨pend, hd⟩ := takeTrap_ctxAt hwaits t
  rw [← unwatched_withPend] at hd
  dsimp only
  generalize (haltStep s slot).ctxAt slot = e at *
  generalize (takeTrap slot t s).ctxAt slot = d at *
  have hview {α : Type} (view : Ctx → α) (hv : ∀ c, view (unwatched c) = view c) :
      view d = view (withPend pend (trapped t e)) := view_of_unwatched view hd hv
  exact ⟨⟨pend, hview Ctx.h fun _ => rfl⟩, hview Ctx.halt fun _ => rfl, hview Ctx.trap fun _ => rfl,
    hview Ctx.core fun _ => rfl, hview Ctx.vr fun _ => rfl, hview Ctx.r fun _ => rfl, hview Ctx.vqn fun _ => rfl,
    hview Ctx.vq fun _ => rfl⟩

/-- Settles O25: a trap and a halt note what they are in the frame of the context that a halt leaves. -/
theorem trapAndHaltEntry : Obligations.TrapAndHaltEntry := by
  refine ⟨fun slot t s hwaits => ?_, fun slot cause s => ?_⟩
  · intro c d
    obtain ⟨⟨pend, hh⟩, hhalt, htrap, hcore, hvr, hr, hvqn, hvq⟩ := takeTrap_views hwaits t
    obtain ⟨epc, eseq, evcp, ecore, espec, eheld⟩ := haltStep_points s slot
    have hquiet := haltStep_quiet (s := s) (slot := slot)
    generalize (haltStep s slot).ctxAt slot = e at *
    have hpoint : vcpOf d = vcpOf e := by rw [vcpOf, hvqn, hvq, hh, vcpOf]; rfl
    rw [hpoint, hh, hhalt, htrap, hcore, hvr, hr, hvqn, hvq, ← evcp]
    refine ⟨rfl, rfl, rfl, rfl, rfl, rfl, congrArg (· + 1) eseq, epc, rfl, rfl, ?_, ecore, eheld, fun hq => ?_⟩
    · rw [espec]
    · obtain ⟨er, evqn, evq⟩ := hquiet hq
      exact ⟨congrArg Gregs.c er, congrArg Gregs.g er, evqn, evq⟩
  · intro c d
    have hd : d = _ := State.ctxAt_modCtx_self _ _ _
    obtain ⟨epc, eseq, evcp, -, -, eheld⟩ := haltStep_points s slot
    have hquiet := haltStep_quiet (s := s) (slot := slot)
    rw [hd]
    generalize (haltStep s slot).ctxAt slot = e at *
    refine ⟨rfl, rfl, rfl, epc, evcp, eseq, rfl, rfl, rfl, eheld, fun hq => ?_⟩
    obtain ⟨er, evqn, evq⟩ := hquiet hq
    exact ⟨congrArg Gregs.c er, congrArg Gregs.g er, evq, evqn⟩

end Sys2Proof.Machine

/-! # Resumes of a context -/

namespace Sys2Proof.Machine

/-! ### Resuming and waking (R101, R111) -/

/-- A context but for its lanes, and whether they are asked for or stand in its save area (R180, R181). -/
def unlaned (c : Ctx) : Ctx := { c with vr := Vregs.zero, vsaved := false, regrant := false }

theorem unlaned_vecIn (s : State) (c : Ctx) : unlaned (vecIn s c) = unlaned c := by
  unfold vecIn
  split <;> rfl

/-- A context that asks for its lanes again keeps the rest (R181). -/
theorem laneRegrant_ctxAt (s : State) (slot : Nat) : unlaned ((laneRegrant s slot).ctxAt slot) = unlaned (s.ctxAt slot) := by
  unfold laneRegrant
  dsimp only
  split
  · rfl
  · split
    · split
      · rw [State.ctxAt_modCtx_self]
        exact unlaned_vecIn s _
      · rw [ctxAt_modCluster, State.ctxAt_modCtx_self]
        rfl
    · split
      · rfl
      · rw [State.ctxAt_modCtx_self, unlaned_vecIn]

/-- A queue whose entries all read as instructions of it is replayed from where the context stands (R101, R168). -/
theorem replayCheck_good {slot : Nat} {c : Ctx} (h : (vqEntries c).all (fun e => !entryBad e) = true) :
    replayCheck slot c = c := by
  have hnone : (vqEntries c).zipIdx.find? (fun p => entryBad p.1) = none := by
    rw [List.find?_eq_none]
    intro p hp
    have hgood := List.all_eq_true.mp h p.1 (List.fst_mem_of_mem_zipIdx hp)
    simpa using hgood
  unfold replayCheck
  unfold vqEntries at hnone
  simp only [hnone]

/-- The context that a resume starts (R101). -/
def resumed (run : BitVec 2) (c : Ctx) : Ctx :=
  { c with
    h := { c.h with run := run, cause := 0, party := 0, pend := false }
    car := { c.car with buffer := [] }
    trap := none, parked := none, hit := false
    halt := none
    firstAcq := some .sys }

theorem resumeCtx_ctxAt {slot : Nat} {s : State} (hending : (s.ctxAt slot).ending = false)
    (hgood : (vqEntries (s.ctxAt slot)).all (fun e => !entryBad e) = true) (run : BitVec 2) :
    unlaned ((resumeCtx slot run s).ctxAt slot) = unlaned (resumed run (s.ctxAt slot)) := by
  have heq : resumeCtx slot run s = laneRegrant (s.modCtx slot (fun c => replayCheck slot (resumed run c))) slot := by
    rw [resumeCtx, if_neg (by rw [hending]; exact Bool.false_ne_true)]
    rfl
  have hreplay : replayCheck slot (resumed run (s.ctxAt slot)) = resumed run (s.ctxAt slot) := replayCheck_good hgood
  rw [heq, laneRegrant_ctxAt, State.ctxAt_modCtx_self, hreplay]

/-- What of a context does not speak of its lanes. -/
theorem view_of_unlaned {α : Type} {c d : Ctx} (view : Ctx → α) (h : unlaned d = unlaned c)
    (hview : ∀ c, view (unlaned c) = view c := by exact fun _ => rfl) : view d = view c := by
  rw [← hview d, h, hview]

/-- Settles O26: a resume is the context as its frame holds it, started, but for its lanes. -/
theorem resumeOfAContext : Obligations.ResumeOfAContext := by
  refine ⟨fun slot run s hending hgood => ?_, fun slot run s hending => if_pos hending⟩
  have hd := resumeCtx_ctxAt hending hgood run
  dsimp only
  generalize (resumeCtx slot run s).ctxAt slot = d at *
  have hview {α : Type} (view : Ctx → α) (hv : ∀ c, view (unlaned c) = view c) :
      view d = view (resumed run (s.ctxAt slot)) := view_of_unlaned view hd hv
  have hh := hview Ctx.h fun _ => rfl
  rw [hh]
  exact ⟨rfl, rfl, rfl, rfl, hview Ctx.r fun _ => rfl, hview Ctx.vqn fun _ => rfl, hview Ctx.vq fun _ => rfl,
    hview Ctx.trap fun _ => rfl, hview Ctx.halt fun _ => rfl, hview Ctx.parked fun _ => rfl, hview Ctx.firstAcq fun _ => rfl⟩

end Sys2Proof.Machine

/-! # The entries of the vector queue, and boundaries -/

namespace Sys2Proof.Machine

/-! ### The instructions of the vector queue as its agents run them (R116, R163) -/

theorem vectorStep_next (i : Instr) (m : Mods) (g : Option GReg) (k : Option CReg) (eff : M Unit) (s : State) :
    ∃ t, vectorStep i m g k eff s = .next t := by
  unfold vectorStep
  split
  · exact ⟨_, rfl⟩
  · exact runThread_next _ s

theorem fenceEntry_next (i : Instr) (x : FenceArgs) (mark : State → State) (older : M Unit) (s : State) :
    ∃ t, fenceEntry i x mark older s = .next t := by
  unfold fenceEntry
  split
  · exact ⟨_, rfl⟩
  · exact runThread_next _ s

/-- What the control thread pushes has, as its meaning, a step that neither faults nor is refused. -/
theorem exec_of_vecDispatch {i : Instr} {s : State} {o : Out} (h : vecDispatch i s = some o) :
    exec i s = o ∧ ∃ t, o = .next t := by
  unfold vecDispatch at h
  split at h
  -- `h` reads `none = some o` for the last form; every other form gives its meaning by name
  case h_1 x => cases h; exact ⟨rfl, fenceEntry_next ..⟩
  case h_2 x => cases h; exact ⟨rfl, fenceEntry_next ..⟩
  all_goals cases h
  all_goals exact ⟨rfl, vectorStep_next ..⟩

theorem dispatched {i : Instr} {s : State} (h : (vecDispatch i s).isSome = true) :
    ∃ t, vecDispatch i s = some (.next t) ∧ exec i s = .next t := by
  obtain ⟨o, ho⟩ := Option.isSome_iff_exists.mp h
  obtain ⟨hexec, t, rfl⟩ := exec_of_vecDispatch ho
  exact ⟨t, ho, hexec⟩

theorem exec_commit {k slot : Nat} {i : Instr} {s r : State} (hslot : (s.coreAt k).slot = some slot)
    (hmay : mayCommit (acting s k .vector).cur = true) (hentry : entryInstr (vqHead (acting s k .vector).cur) = some i)
    (hready : vecReady i (acting s k .vector) = some r) (hvector : (vecDispatch i r).isSome = true) :
    ∃ t, exec i r = .next t ∧ exec (.commit k) s = .next (restAfter t slot) := by
  obtain ⟨t, hdispatch, hexec⟩ := dispatched hvector
  refine ⟨t, hexec, ?_⟩
  show execCommit k s = _
  simp only [execCommit, hslot, hmay, hentry, hready, hdispatch, Option.bind_some, Bool.not_true, Bool.false_eq_true, if_false]

theorem exec_vectorPush {k : Nat} {ws : List Word32} {i : Instr} {s t r : State}
    (hwords : boundaryWords (acting s k .control) = some (ws, t)) (hdecode : decodeWords ws = some i)
    (hready : ready i t = some r) (hvector : (vecDispatch i r).isSome = true) :
    ∃ u, exec i r = .next u ∧ exec (.vectorPush k) s = .next (afterThread t.slot t.cur.h.pc t.cur.h.run i u) := by
  obtain ⟨u, hdispatch, hexec⟩ := dispatched hvector
  refine ⟨u, hexec, ?_⟩
  show execVectorPush k s = _
  simp only [execVectorPush, hwords, hdecode, hready, hdispatch, Option.bind_some]

/-! ### What a boundary does before the next instruction (R101, R129) -/

theorem ctxAt_of_some {s : State} {slot : Nat} {c : Ctx} (h : s.ctx? slot = some c) : s.ctxAt slot = c := by
  rw [State.ctxAt, h, Option.getD_some]

theorem exec_haltStep {slot : Nat} {c : Ctx} {s : State} (hctx : s.ctx? slot = some c) (hrun : c.h.run ≠ 0)
    (hwaits : haltWaits s slot = false) :
    (c.halt = some .stop → exec (.haltStep slot) s = .next (haltWith slot cStop s)) ∧
    (c.halt = some .step → c.vqn ≤ c.vlive → exec (.haltStep slot) s = .next (haltWith slot cStep s)) := by
  have hgo : (decide (c.h.run = 0) || haltWaits s slot) = false := by rw [decide_eq_false hrun, hwaits]; rfl
  constructor
  · intro hhalt
    show execHaltStep slot s = _
    simp only [execHaltStep, hctx, hgo, hhalt, Bool.false_eq_true, if_false]
  · intro hhalt hlive
    show execHaltStep slot s = _
    simp only [execHaltStep, hctx, hgo, hhalt, if_pos hlive, Bool.false_eq_true, if_false]

theorem exec_commitApply {slot : Nat} {c : Ctx} {s : State} (hctx : s.ctx? slot = some c) (hpending : commitPending c = true)
    (hwaits : haltWaits s slot = false) :
    exec (.commitApply slot) s = .next (applyCommit (finishTile (releasedFor s slot) slot) slot) := by
  show execCommitApply slot s = _
  cases hcore : c.core <;>
    simp only [execCommitApply, releasedFor, hctx, hpending, hwaits, ctxAt_of_some hctx, hcore, Bool.not_true, Bool.or_self,
      Bool.false_eq_true, if_false]

/-- The frame that the copies leave is that of the context with them made. -/
theorem commitApply_frame (s : State) (slot : Nat) :
    let c := (drained s slot).ctxAt slot
    SameFrame { c with h := committed c.h } ((applyCommit (finishTile (releasedFor s slot) slot) slot).ctxAt slot) := by
  have htile := (releasedFor_sameFrame s slot).trans (finishTile_sameFrame _ slot)
  exact SameFrame.trans (d := { (finishTile (releasedFor s slot) slot).ctxAt slot with
      h := committed ((finishTile (releasedFor s slot) slot).ctxAt slot).h })
    ⟨congrArg committed htile.h, htile.r, htile.vqn, htile.vq, htile.core, htile.spec⟩ (applyCommit_sameFrame _ _)

theorem exec_parkWake {slot : Nat} {c : Ctx} {s : State} (hctx : s.ctx? slot = some c) (hparked : c.parked.isSome = true)
    (hhit : c.hit = true) : exec (.parkWake slot) s = .next (wakeCtx slot s) := by
  show execParkWake slot s = _
  simp only [execParkWake, hctx, hparked, hhit, Bool.and_self, if_true]

/-- A thread that wakes keeps all but its parking, and asks for its lanes (R111, R181). -/
theorem wakeCtx_ctxAt (slot : Nat) (s : State) :
    unlaned ((wakeCtx slot s).ctxAt slot) = unlaned { s.ctxAt slot with parked := none, hit := false } := by
  rw [wakeCtx, laneRegrant_ctxAt, State.ctxAt_modCtx_self]

/-- Settles O29: the agents' steps run the instruction that the queue or the thread's next words give, and a boundary's steps
leave the frame. -/
theorem queueEntriesAndBoundaries : Obligations.QueueEntriesAndBoundaries := by
  refine ⟨fun k slot i s r => exec_commit, fun k ws i s t r => exec_vectorPush, fun slot c s => exec_haltStep, ?commit, ?wake⟩
  case commit =>
    intro slot c s hctx hpending hwaits
    refine ⟨_, exec_commitApply hctx hpending hwaits, ?_⟩
    have hframe := commitApply_frame s slot
    have hheads := drained_heads s slot slot
    rw [ctxAt_of_some hctx] at hheads
    have hh : ((drained s slot).ctxAt slot).h = c.h := congrArg Prod.fst hheads
    have hcommitted : ((applyCommit (finishTile (releasedFor s slot) slot) slot).ctxAt slot).h = committed c.h :=
      hframe.h.trans (congrArg committed hh)
    rw [commitPending, hcommitted]
    refine ⟨rfl, rfl, rfl, rfl, fun hquiet => ⟨?_, ?_⟩⟩
    · rw [hframe.r, drained_quiet hquiet, ctxAt_of_some hctx]
    · rw [applyCommit_mem, finishTile_mem]
      have hsame := drained_quiet hquiet
      unfold drained at hsame
      unfold releasedFor
      rw [ctxAt_of_some hctx] at hsame ⊢
      cases hcore : c.core with
      | none => rfl
      | some k => rw [hcore] at hsame; dsimp only at hsame ⊢; rw [hsame]
  case wake =>
    intro slot c s hctx hparked hhit
    refine ⟨_, exec_parkWake hctx hparked hhit, ?_⟩
    have hd := wakeCtx_ctxAt slot s
    have hmem : (wakeCtx slot s).mem = s.mem := laneRegrant_mem _ _
    rw [ctxAt_of_some hctx] at hd
    generalize wakeCtx slot s = t at *
    have hview {α : Type} (view : Ctx → α) (hv : ∀ c, view (unlaned c) = view c) :
        view (t.ctxAt slot) = view { c with parked := none, hit := false } := view_of_unlaned view hd hv
    exact ⟨hview Ctx.parked fun _ => rfl, hview Ctx.hit fun _ => rfl, hview Ctx.h fun _ => rfl, hview Ctx.r fun _ => rfl, hmem⟩

end Sys2Proof.Machine

/-! # Records of traps, launches and errors -/

namespace Sys2Proof.Machine

/-! ### A record at the tail of a queue (R377) -/

theorem bytesOfNat_natOfBytes (bs : List Byte) : bytesOfNat bs.length (natOfBytes bs) = bs := by
  apply List.ext_getElem (bytesOfNat_length _ _)
  intro i h _
  rw [bytesOfNat_getElem, natOfBytes_byte]

/-- A list of bytes as a bit vector of its width. -/
theorem toNat_ofNat_natOfBytes {bs : List Byte} {w : Nat} (h : w = 8 * bs.length) :
    (BitVec.ofNat w (natOfBytes bs)).toNat = natOfBytes bs := by
  have hlt := natOfBytes_lt bs
  rw [show (256 : Nat) = 2 ^ 8 from rfl, ← pow_mul, ← h] at hlt
  rw [BitVec.toNat_ofNat, Nat.mod_eq_of_lt hlt]

theorem expandMask_allOnes : expandMask (BitVec.allOnes 64) = BitVec.allOnes 512 := by
  apply BitVec.eq_of_getLsbD_eq
  intro i hi
  rw [expandMask_getLsbD _ hi, BitVec.getLsbD_allOnes, BitVec.getLsbD_allOnes, decide_eq_true hi, decide_eq_true (by omega)]

/-- A whole line merged is the line merged in. -/
theorem mergeData_allOnes (old new : BitVec 512) : mergeData old new (BitVec.allOnes 64) = new := by
  simp only [mergeData, expandMask_allOnes, BitVec.not_allOnes, BitVec.and_zero, BitVec.and_allOnes, BitVec.zero_or]

/-- A whole line merged at the package point stands in memory, whatever stood there. -/
theorem rawMerge_line (s : State) (l : Nat) (data : BitVec 512) (tags : BitVec 4) (code : BitVec 2) :
    memRead (rawMerge s l data (BitVec.allOnes 64) tags code).mem (64 * l) 64 = bytesOfNat 64 data.toNat := by
  have hread (m : Bytes) := memRead_memWrite_self m (64 * l) (bytesOfNat 64 data.toNat)
  rw [bytesOfNat_length] at hread
  rw [rawMerge, if_neg (by decide)]
  simp only [if_true, spread_mem, sideMark_mem, mergeData_allOnes]
  exact hread _

/-- A line of memory written whole, outside every RSTATE word (R314). -/
theorem pkgStoreAll_line {s : State} {a : Nat} {bs : List Byte} (hlen : bs.length = 64) (halign : a % 64 = 0)
    (hmem : inMemory s a = true) (hrec : isRstate s a = false) : memRead (pkgStoreAll s a bs).mem a 64 = bs := by
  have hline : 64 * lineOf a = a := by rw [lineOf]; omega
  have hpieces : pieces a bs.length (bs.length / 64 + 2) = [(a, 64)] := by
    rw [hlen]
    exact pieces_one (by decide) (by omega) _
  have hbits : BitVec.ofNat 512 (natOfBytes bs <<< (8 * (a % 64))) = BitVec.ofNat 512 (natOfBytes bs) := by
    rw [halign]
    rfl
  have hvalue := toNat_ofNat_natOfBytes (w := 512) (bs := bs) (by rw [hlen])
  have hmask : byteMask (a % 64) bs.length = BitVec.allOnes 64 := by rw [halign, hlen]; rfl
  have hhead : rstateHead s a = 0 := by rw [rstateHead, hrec, if_neg Bool.false_ne_true]
  have htake : bs.take 64 = bs := List.take_of_length_le (by omega)
  rw [pkgStoreAll, hpieces]
  simp only [List.foldl_cons, List.foldl_nil, pkgStore, codeStore, hhead, if_true, htake, lineStore, hmem, hbits, hmask,
    touch_mem]
  rw [pkgMerge, if_neg (by decide)]
  have hmerged := rawMerge_line (snapBefore ((List.range 4).foldl (fun s d => evict2 s d (lineOf a)) s) (lineOf a)) (lineOf a)
    (BitVec.ofNat 512 (natOfBytes bs)) 0 0
  rw [hline] at hmerged
  rw [hmerged, hvalue, ← hlen, bytesOfNat_natOfBytes]

theorem recordBytes_length {ws : List Word} (h : ws.length = 8) : (ws.map (wordBytes 8)).flatten.length = 64 := by
  rw [List.length_flatten, List.map_map]
  have hword : (List.length ∘ wordBytes 8) = fun _ => 8 := funext fun w => bytesOfNat_length 8 _
  rw [hword, List.map_const', List.sum_replicate, h]
  rfl

/-- The place of the next record of a queue (R377). -/
def ringPlace (h : Queue) : Nat := h.ringbase.toNat + 64 * (h.tail.toNat % 2 ^ h.lg)

theorem postRecord_mem {s : State} {q : Nat} {ws : List Word} (hlen : ws.length = 8) (halign : ringPlace (s.queueAt q) % 64 = 0)
    (hmem : inMemory s (ringPlace (s.queueAt q)) = true) (hrec : isRstate s (ringPlace (s.queueAt q)) = false) :
    memRead (postRecord s q ws).mem (ringPlace (s.queueAt q)) 64 = (ws.map (wordBytes 8)).flatten := by
  rw [postRecord, touch_mem, State.modQueue_mem]
  exact pkgStoreAll_line (recordBytes_length hlen) halign hmem hrec

/-- The queue after a record: its tail stepped, and the rest as it was but for its wait signal. -/
theorem postRecord_queueAt (s : State) (q : Nat) (ws : List Word) :
    unsignalled ((postRecord s q ws).queueAt q) = unsignalled { s.queueAt q with tail := (s.queueAt q).tail + 1 } := by
  have hstored := (pkgStoreAll_memStep (.refl s) (ringPlace (s.queueAt q)) (ws.map (wordBytes 8)).flatten).queues q
  rw [postRecord]
  refine ((touch_memStep (.refl _) _).queues q).trans ?_
  rw [State.queueAt_modQueue_self]
  exact congrArg (fun h : Queue => { h with tail := h.tail + 1 }) hstored

/-! ### Which record is posted (R107, R444) -/

/-- Does the fault domain of a region name the queue (R107)? -/
def namesQueue (s : State) (q r : Nat) : Bool := faultQueue s treeFuel r == some q

/-- The least of a bound and the numbers of a list. -/
theorem foldl_min_eq {l : List Nat} {a b : Nat} (hmem : a ∈ l ∨ a = b) (hlow : ∀ x ∈ l, a ≤ x) (hb : a ≤ b) :
    l.foldl min b = a := by
  induction l generalizing b with
  | nil => simpa [eq_comm] using hmem
  | cons x l ih =>
    have hx := hlow x (by simp)
    refine ih ?_ (fun y hy => hlow y (by simp [hy])) (le_min hb hx)
    rcases hmem with hmem | rfl
    · rcases List.mem_cons.mp hmem with rfl | hl
      · exact .inr (min_eq_right hb).symm
      · exact .inl hl
    · exact .inr (min_eq_left hx).symm

section
variable {q : Nat} {s : State} (hroom : queueFull (s.queueAt q) = false)
include hroom

theorem exec_trapRecordPost_trap {p : Nat × Ctx}
    (htrap : s.ctxs.find? (fun p => p.2.h.pend && namesQueue s q p.2.h.region) = some p)
    (hlaunch : ∀ r ∈ s.launchRecs, namesQueue s q r.region = true → p.1 < r.slot) :
    exec (.trapRecordPost q) s = .next (postTrap s p.1) := by
  show execTrapRecordPost q s = _
  unfold namesQueue at htrap hlaunch
  simp only [execTrapRecordPost, hroom, Bool.false_eq_true, if_false, htrap]
  split
  next p' heq _ => rw [Option.some.inj heq]
  next p' r heq hfind =>
    have hr := List.mem_filter.mp (List.mem_of_find?_eq_some hfind)
    rw [← Option.some.inj heq, if_pos (hlaunch r hr.1 hr.2)]
  next heq _ => cases heq
  next heq _ => cases heq

theorem exec_trapRecordPost_launch {r : LaunchRec} (hr : r ∈ s.launchRecs) (hnamed : namesQueue s q r.region = true)
    (hslot : r.slot < 0x10000)
    (hlow : ∀ x ∈ s.launchRecs, namesQueue s q x.region = true → r.slot ≤ x.slot ∧ (x.slot = r.slot → x = r))
    (htrap : ∀ p : Nat × Ctx, s.ctxs.find? (fun p => p.2.h.pend && namesQueue s q p.2.h.region) = some p → r.slot ≤ p.1) :
    exec (.trapRecordPost q) s = .next (postRecord { s with launchRecs := s.launchRecs.erase r } q r.words) := by
  show execTrapRecordPost q s = _
  unfold namesQueue at hnamed hlow htrap
  have hmine : r ∈ s.launchRecs.filter (fun r => faultQueue s treeFuel r.region == some q) :=
    List.mem_filter.mpr ⟨hr, hnamed⟩
  have hleast : ((s.launchRecs.filter (fun r => faultQueue s treeFuel r.region == some q)).map (·.slot)).foldl min 0x10000 =
      r.slot := by
    refine foldl_min_eq (.inl (List.mem_map_of_mem hmine)) (fun x hx => ?_) hslot.le
    obtain ⟨y, hy, rfl⟩ := List.mem_map.mp hx
    obtain ⟨hmem, hnames⟩ := List.mem_filter.mp hy
    exact (hlow y hmem hnames).1
  have hfind : (s.launchRecs.filter (fun r => faultQueue s treeFuel r.region == some q)).find? (fun x => x.slot == r.slot) =
      some r := by
    have hsome := List.find?_isSome (p := fun x => x.slot == r.slot) |>.mpr ⟨r, hmine, beq_self_eq_true r.slot⟩
    obtain ⟨x, hx⟩ := Option.isSome_iff_exists.mp hsome
    obtain ⟨hmem, hnames⟩ := List.mem_filter.mp (List.mem_of_find?_eq_some hx)
    have hsame : x.slot = r.slot := by simpa using List.find?_some hx
    rw [hx, (hlow x hmem hnames).2 hsame]
  simp only [execTrapRecordPost, hroom, Bool.false_eq_true, if_false, hleast, hfind]
  split
  next heq => cases heq
  next p r' hp heq => rw [← Option.some.inj heq, if_neg (Nat.not_lt.mpr (htrap p hp))]
  next r' _ heq => rw [Option.some.inj heq]
  next heq => cases heq

theorem exec_trapRecordPost_report {r : Report}
    (htrap : s.ctxs.find? (fun p => p.2.h.pend && namesQueue s q p.2.h.region) = none)
    (hlaunch : ∀ x ∈ s.launchRecs, namesQueue s q x.region = false)
    (hreport : s.reports.find? (fun r => namesQueue s q r.region) = some r) :
    exec (.trapRecordPost q) s = .next (postRecord { s with reports := s.reports.erase r } q (reportWords r)) := by
  show execTrapRecordPost q s = _
  unfold namesQueue at htrap hlaunch hreport
  have hnone : s.launchRecs.filter (fun r => faultQueue s treeFuel r.region == some q) = [] :=
    List.filter_eq_nil_iff.mpr (fun x hx => by rw [hlaunch x hx]; exact Bool.false_ne_true)
  simp only [execTrapRecordPost, hroom, Bool.false_eq_true, if_false, htrap, hnone, List.find?_nil, hreport]

end

/-- Settles O30: which record goes to the queue, and where its words stand there. -/
theorem recordsArePosted : Obligations.RecordsArePosted := by
  refine ⟨fun q s hroom => ⟨fun p => exec_trapRecordPost_trap hroom, fun r => exec_trapRecordPost_launch hroom,
    fun r => exec_trapRecordPost_report hroom⟩, fun s q ws hlen => ?_⟩
  intro h a halign hmem hrec _ t
  have hqueue := postRecord_queueAt s q ws
  have hview {α : Type} (view : Queue → α) (hv : ∀ h, view (unsignalled h) = view h) :
      view (t.queueAt q) = view { h with tail := h.tail + 1 } := by
    rw [← hv (t.queueAt q), hqueue, hv]
  exact ⟨postRecord_mem hlen halign hmem hrec, hview Queue.tail fun _ => rfl, hview Queue.head fun _ => rfl,
    hview Queue.lg fun _ => rfl, hview Queue.ringbase fun _ => rfl⟩

end Sys2Proof.Machine

/-! # What reset leaves -/
namespace Sys2Proof.Machine

theorem reset_ctxAt_rootcap : (State.reset.ctxAt 0).h.rootcap = linkRootcap := rfl

theorem reset_regionAt_root : State.reset.regionAt 0 = rootRegion 36 := rfl

theorem reset_regionAt_of_ne {r : Nat} (hr : r ≠ 0) : State.reset.regionAt r = Region.zero := by
  have hnone : lookupKey r State.reset.regions = none := by simpa [State.reset, lookupKey] using hr
  rw [State.regionAt, hnone, Option.getD_none]

theorem nclu_reset : nclu State.reset = 36 := by decide

/-- Settles O10: what stands in the tables at reset, and the zeros of what does not. -/
theorem resetValues : Obligations.ResetValues := by
  unfold Obligations.ResetValues
  simp only [reset_ctxAt_rootcap, reset_regionAt_root, nclu_reset]
  refine ⟨rfl, ?atp, rfl, ?perms, ?otype, ?bounds, rfl, rfl, rfl, rfl, rfl, fun _ => reset_regionAt_of_ne, fun _ => rfl,
    rfl, rfl, fun _ => ⟨rfl, rfl⟩⟩
  all_goals decide

end Sys2Proof.Machine

/-! # Loads and stores of the control thread -/
namespace Sys2Proof.Machine

/-! ### The steps that the accesses share -/

@[simp] theorem run_trapD {α : Type} (cause : BitVec 16) (d0 d1 : Word) (s : State) :
    (trapD cause d0 d1 : M α) s =
      .error (.trap { cause := cause, party := 0, detail0 := d0, detail1 := d1, poisonPc := 0 }) s := rfl

@[simp] theorem run_noteSpin (l : SpinLoad) (s : State) : noteSpin l s = .ok () (s.modCur (lastNoted (some l))) := rfl

@[simp] theorem run_enqueue (a : Access) (s : State) : enqueue a s = .ok () (joinsQueue s a) := rfl

@[simp] theorem run_ctlAcquire (s : State) : ctlAcquire s = .ok () (acquire (forgetEarly s) s.core .sys) := rfl

@[simp] theorem run_orTrap_ok (pa capNo : Nat) (s : State) : orTrap (.ok pa) capNo s = .ok pa s := rfl

/-- A body past its guard that traps with two detail words. -/
theorem scalarStep_trapD {m : Mods} {s t : State} {body : M Unit} {cause : BitVec 16} {d0 d1 : Word}
    (hpass : passes m s = true) (h : body s = (trapD cause d0 d1 : M Unit) t) : scalarStep m body s = traps t cause d0 d1 0 :=
  scalarStep_traps hpass (h.trans (run_trapD cause d0 d1 t))

/-- A bind after a step that traps with two detail words. -/
theorem run_bind_trapD {α β : Type} {m : M α} {s t : State} {cause : BitVec 16} {d0 d1 : Word}
    (h : m s = (trapD cause d0 d1 : M α) t) (f : α → M β) : (m >>= f) s = (trapD cause d0 d1 : M β) t :=
  run_bind_error h f

theorem dropEarly_none {s : State} (h : noneEarly s) (rs : List (Nat × Nat)) : dropEarly s rs = s := by
  unfold noneEarly at h
  simp [dropEarly, h]

theorem takeEarly_none {s : State} (h : noneEarly s) (a : CReg) (c : GReg) (pa size : Nat) (sc : Scope) :
    takeEarly a c pa size sc s = .ok none s := by
  unfold noneEarly at h
  simp [takeEarly, run_bind, h]

/-- Where no waiting access is asked for none performs. -/
theorem drainFor_none {s : State} {k : Nat} {p : Party} {asked : Access → Bool} (h : (waitingOf s k p).any asked = false) :
    drainFor s k p asked = s := by
  have hseed : (waitingOf s k p).zipIdx.filter (fun x => asked x.1) = [] :=
    List.filter_eq_nil_iff.mpr (fun x hx => by
      have hmem : x.1 ∈ waitingOf s k p := List.fst_mem_of_mem_zipIdx hx
      exact Bool.not_eq_true _ ▸ List.any_eq_false.mp h x.1 hmem)
  simp [drainFor, hseed]

/-- An access whose bytes no waiting access of the party meets need not wait for one (R118). -/
theorem ownFirst_ok {s : State} {pa n : Nat} (hearly : noneEarly s) (hmeets : meetsOwn s [(pa, n)] = false) :
    ownFirst pa n s = .ok () s := by
  have hwaiting : (waitingOf s s.core s.party).any (mustPrecede [(pa, n)]) = false := hmeets
  simp [ownFirst, ownRanges, run_bind, drainFor_none hwaiting, dropEarly_none hearly, -List.any_eq_true, hwaiting]

/-- Outside a speculative segment a store needs no room in a write set (R366). -/
theorem needRoom_ok {s : State} (h : s.cur.spec = false) (pa n : Nat) : needRoom pa n s = .ok () s := by
  simp [needRoom, needRoomAll, run_bind, ctxWkey, h]

theorem loadMem_ok {s : State} {pa n : Nat} (hearly : noneEarly s) (hmeets : meetsOwn s [(pa, n)] = false) (sc : Scope)
    (hint : Nat) : loadMem pa n sc hint s = .ok (ctxLoad s s.core pa n sc hint).2 (ctxLoad s s.core pa n sc hint).1 := by
  rw [loadMem, run_bind_ok (ownFirst_ok hearly hmeets)]
  rfl

theorem storeMem_ok {s : State} {pa : Nat} {bs : List Byte} (hspec : s.cur.spec = false) (hearly : noneEarly s)
    (hmeets : meetsOwn s [(pa, bs.length)] = false) (sc : Scope) (hint : Nat) :
    storeMem pa bs sc hint s = .ok () (storeBytes s s.core none pa bs sc hint) := by
  rw [storeMem, run_bind_ok (needRoom_ok hspec pa _), run_bind_ok (ownFirst_ok hearly hmeets), run_modify, ctxStore, ctxWkey,
    hspec]
  rfl

/-! ### Loads (R160) -/

theorem nextPc_lastNoted (l : Option SpinLoad) (c : Ctx) (m : Mods) : nextPc (lastNoted l c) m = nextPc c m := rfl

theorem nextPc_writeGq (c : Ctx) (n : GReg) (v : Word) (p : Bool) (o : Word × BitVec 16) (m : Mods) :
    nextPc (writeGq c n v p o) m = nextPc c m := by
  unfold writeGq
  split <;> rfl

/-- The check of LD's address. -/
def ldCheck (x : LdArgs) (s : State) : EStateM.Result Stop State (Except AccFault Nat) :=
  ctlCheck (readC s.cur x.a) (memOff (gVal s.cur x.c) x.imm) (x.ty.width / 8) .load .read (scopeGet x.scope .core) s

/-- The virtual address of an access by an index register (R159). -/
def indexedVa (x : LdArgs) (c : Ctx) : Word := capCursor (readC c x.a) + wordOf (memOff (gVal c x.c) x.imm)

/-- What LD leaves when it has its bytes. -/
def ldGot (x : LdArgs) (pa : Nat) (bs : List Byte) (u : State) : Out :=
  let size := x.ty.width / 8
  let l : SpinLoad :=
    { pa := pa, size := size, scope := scopeGet x.scope .core, value := BitVec.ofNat 128 (natOfBytes bs), tag := false }
  .next (u.modCur (fun c => setPc (writeG (lastNoted (some l) c) x.d (loadValue x.ty bs)) (nextPc c x.m)))

/-- What LD leaves when its result is poison. -/
def ldPoisons (x : LdArgs) (v : State) (o : Word × BitVec 16) : Out :=
  .next (v.modCur (fun c => setPc (writeGq (lastNoted none c) x.d 0 true o) (nextPc c x.m)))

theorem poisonLoad_advance (x : LdArgs) (o : Word × BitVec 16) (v : State) :
    runThread (do poisonLoad x.d o; advance x.m) v = ldPoisons x v o := by
  refine (runThread_ok (t := ((v.modCur (lastNoted none)).modCur (fun c => writeGq c x.d 0 true o)).modCur
    (fun c => setPc c (nextPc c x.m))) rfl).trans ?_
  rw [State.modCur_modCur, State.modCur_modCur, ldPoisons]
  simp only [nextPc_writeGq, nextPc_lastNoted]

theorem gotBytes_advance (x : LdArgs) (pa : Nat) (bs : List Byte) (u : State) :
    runThread (do gotBytes x pa (x.ty.width / 8) (scopeGet x.scope .core) bs; advance x.m) u = ldGot x pa bs u := by
  refine (runThread_ok (t := ((u.modCur (lastNoted _)).modCur (fun c => writeG c x.d (loadValue x.ty bs))).modCur
    (fun c => setPc c (nextPc c x.m))) rfl).trans ?_
  rw [State.modCur_modCur, State.modCur_modCur, ldGot]
  simp only [nextPc_writeG, nextPc_lastNoted]

section
variable {x : LdArgs} {s t : State} {pa : Nat}

theorem ldBody_poisoned (hpoison : gPoison s.cur x.c = true) :
    ldBody x s = (do poisonLoad x.d (gOrigin s.cur x.c); advance x.m : M Unit) s := by
  simp only [ldBody, run_bind_ok (run_getCur s), hpoison, if_true]

theorem ldBody_fault {f : AccFault} (hpoison : gPoison s.cur x.c = false) (hcheck : ldCheck x s = .ok (.error f) t) :
    ldBody x s = (do poisonLoad x.d (s.cur.h.pc, f.cause); advance x.m : M Unit) t := by
  unfold ldCheck at hcheck
  simp only [ldBody, run_bind_ok (run_getCur s), hpoison, Bool.false_eq_true, if_false, run_bind_ok hcheck]

theorem ldBody_checked (hpoison : gPoison s.cur x.c = false) (hcheck : ldCheck x s = .ok (.ok pa) t) :
    ldBody x s = (do
      if inCtl pa && (x.ty.width / 8 != 8 || pa % 8 != 0) then trapD cCtlAlign (indexedVa x s.cur) (BitVec.ofNat 64 x.a)
      else if pa % (x.ty.width / 8) ≠ 0 then poisonLoad x.d (s.cur.h.pc, cAlign)
      else loadInto x pa (x.ty.width / 8) (indexedVa x s.cur) (scopeGet x.scope .core)
      advance x.m : M Unit) t := by
  unfold ldCheck at hcheck
  simp only [ldBody, run_bind_ok (run_getCur s), hpoison, Bool.false_eq_true, if_false, run_bind_ok hcheck, indexedVa]

variable {size : Nat} {va : Word} {sc : Scope}

theorem loadInto_early {e : EarlyLoad} {u : State} (hctl : inCtl pa = false)
    (hearly : takeEarly x.a x.c pa size sc t = .ok (some e) u) :
    loadInto x pa size va sc t = gotBytes x pa size sc (bytesOfNat size e.value.toNat) u := by
  simp only [loadInto, hctl, Bool.false_eq_true, if_false, run_bind_ok hearly]

theorem loadInto_now {n u : State} {bs : List Byte} (hctl : inCtl pa = false)
    (hearly : takeEarly x.a x.c pa size sc t = .ok none n) (hheld : (mayHold n && !stepsNext n.cur x.d) = false)
    (hload : loadMem pa size sc x.hint.toNat n = .ok bs u) :
    loadInto x pa size va sc t = gotBytes x pa size sc bs u := by
  simp only [loadInto, hctl, Bool.false_eq_true, if_false, run_bind_ok hearly, run_bind_ok (run_get n),
    run_bind_ok (run_getCur n), hheld, run_bind_ok hload]

theorem loadInto_waits {n : State} (hctl : inCtl pa = false)
    (hearly : takeEarly x.a x.c pa size sc t = .ok none n) (hheld : (mayHold n && !stepsNext n.cur x.d) = true) :
    loadInto x pa size va sc t =
      .ok () (joinsQueue (n.modCur (lastNoted (some { pa := pa, size := size, scope := sc, value := 0, tag := false })))
        (loadAccess (.loadG x.ty x.d) pa size sc x.hint.toNat)) := by
  simp only [loadInto, hctl, Bool.false_eq_true, if_false, run_bind_ok hearly, run_bind_ok (run_get n),
    run_bind_ok (run_getCur n), hheld, if_true, run_bind_ok (run_noteSpin _ n), run_enqueue, loadAccess]

theorem ctlLoad_selfAuth {capNo : Nat} (hself : needsSelfAuth t pa = true) :
    ctlLoad pa va capNo t = (trapD 0x33 va (BitVec.ofNat 64 capNo) : M Word) t := by
  simp only [ctlLoad, run_bind_ok (run_get t), hself, if_true]
  rfl

theorem ctlLoad_ok {capNo : Nat} {r : State} (hself : needsSelfAuth t pa = false) (hrelease : releaseOwn .sys t = .ok () r) :
    ctlLoad pa va capNo t = .ok (ctlRead r (.thread r.slot) pa) (acquire (forgetEarly r) r.core .sys) := by
  simp only [ctlLoad, run_bind_ok (run_get t), hself, Bool.false_eq_true, if_false, ctlRelease,
    run_bind_ok hrelease, run_bind_ok (run_get r), run_bind_ok (run_ctlAcquire r), run_pure]

theorem loadInto_selfAuth (hctl : inCtl pa = true) (hself : needsSelfAuth t pa = true) :
    loadInto x pa size va sc t = (trapD 0x33 va (BitVec.ofNat 64 x.a) : M Unit) t := by
  simp only [loadInto, hctl, if_true, run_bind_trapD (ctlLoad_selfAuth hself)]

theorem ofNat_natOfBytes_wordBytes (v : Word) : BitVec.ofNat 128 (natOfBytes (wordBytes 8 v)) = v.setWidth 128 := by
  have hlt : v.toNat < 256 ^ 8 := v.isLt
  rw [wordBytes, natOfBytes_bytesOfNat, Nat.mod_eq_of_lt hlt, BitVec.ofNat_toNat]

theorem loadInto_control {r : State} (hctl : inCtl pa = true) (hself : needsSelfAuth t pa = false)
    (hrelease : releaseOwn .sys t = .ok () r) :
    loadInto x pa size va sc t =
      gotBytes x pa size sc (wordBytes 8 (ctlRead r (.thread r.slot) pa)) (acquire (forgetEarly r) r.core .sys) := by
  simp only [loadInto, hctl, if_true, run_bind_ok (ctlLoad_ok hself hrelease), gotBytes, ofNat_natOfBytes_wordBytes]

end

section
variable {x : LdArgs} {s t : State} {pa : Nat} (hpass : passes x.m s = true)
include hpass

theorem exec_ld_poisoned (hpoison : gPoison s.cur x.c = true) : exec (.ld x) s = ldPoisons x s (gOrigin s.cur x.c) := by
  show scalarStep x.m (ldBody x) s = _
  rw [scalarStep_passes hpass, runThread, ldBody_poisoned hpoison]
  exact poisonLoad_advance x _ s

theorem exec_ld_fault {f : AccFault} (hpoison : gPoison s.cur x.c = false) (hcheck : ldCheck x s = .ok (.error f) t) :
    exec (.ld x) s = ldPoisons x t (s.cur.h.pc, f.cause) := by
  show scalarStep x.m (ldBody x) s = _
  rw [scalarStep_passes hpass, runThread, ldBody_fault hpoison hcheck]
  exact poisonLoad_advance x _ t

variable (hpoison : gPoison s.cur x.c = false) (hcheck : ldCheck x s = .ok (.ok pa) t)
include hpoison hcheck

theorem exec_ld_misaligned (hctl : inCtl pa = false) (halign : pa % (x.ty.width / 8) ≠ 0) :
    exec (.ld x) s = ldPoisons x t (s.cur.h.pc, cAlign) := by
  show scalarStep x.m (ldBody x) s = _
  rw [scalarStep_passes hpass, runThread, ldBody_checked hpoison hcheck]
  simp only [hctl, Bool.false_and, Bool.false_eq_true, if_false, if_pos halign]
  exact poisonLoad_advance x _ t

theorem exec_ld_ctlAlign (hctl : inCtl pa = true) (halign : x.ty.width / 8 ≠ 8 ∨ pa % 8 ≠ 0) :
    exec (.ld x) s = traps t 0x30 (indexedVa x s.cur) (BitVec.ofNat 64 x.a) 0 := by
  have hbad : (x.ty.width / 8 != 8 || pa % 8 != 0) = true := by simpa using halign
  refine scalarStep_trapD hpass ((ldBody_checked hpoison hcheck).trans ?_)
  simp only [hctl, hbad, Bool.and_self, if_true]
  exact run_bind_trapD rfl _

/-- Past its checks LD is its load and the advance. -/
theorem exec_ld_aligned (halign : pa % (x.ty.width / 8) = 0) (hctl : inCtl pa = true → x.ty.width / 8 = 8) :
    exec (.ld x) s = runThread (do
      loadInto x pa (x.ty.width / 8) (indexedVa x s.cur) (scopeGet x.scope .core)
      advance x.m) t := by
  have hgood : (inCtl pa && (x.ty.width / 8 != 8 || pa % 8 != 0)) = false := by
    cases hc : inCtl pa with
    | false => rfl
    | true =>
      have hsize := hctl hc
      rw [hsize] at halign
      simp [hsize, halign]
  show scalarStep x.m (ldBody x) s = _
  rw [scalarStep_passes hpass, runThread, ldBody_checked hpoison hcheck]
  simp only [hgood, Bool.false_eq_true, if_false, halign, ne_eq, not_true_eq_false]
  rfl

/-- A load whose bytes are at hand writes them. -/
theorem exec_ld_got {u : State} {bs : List Byte} (halign : pa % (x.ty.width / 8) = 0)
    (hctl : inCtl pa = true → x.ty.width / 8 = 8)
    (hload : loadInto x pa (x.ty.width / 8) (indexedVa x s.cur) (scopeGet x.scope .core) t =
      gotBytes x pa (x.ty.width / 8) (scopeGet x.scope .core) bs u) : exec (.ld x) s = ldGot x pa bs u := by
  rw [exec_ld_aligned hpass hpoison hcheck halign hctl, ← gotBytes_advance, runThread, runThread, run_bind, hload, ← run_bind]

/-- LD of memory (R160). -/
theorem exec_ld_memory (hctl : inCtl pa = false) (halign : pa % (x.ty.width / 8) = 0) :
    let size := x.ty.width / 8
    let sc := scopeGet x.scope .core
    let hint := x.hint.toNat
    let l : SpinLoad := { pa := pa, size := size, scope := sc, value := 0, tag := false }
    (∀ (e : EarlyLoad) (u : State), takeEarly x.a x.c pa size sc t = .ok (some e) u →
      exec (.ld x) s = ldGot x pa (bytesOfNat size e.value.toNat) u) ∧
    (∀ n : State, takeEarly x.a x.c pa size sc t = .ok none n →
      let held := mayHold n && !stepsNext n.cur x.d
      (held = false → ∀ (bs : List Byte) (u : State), loadMem pa size sc hint n = .ok bs u →
        exec (.ld x) s = ldGot x pa bs u) ∧
      (held = true → exec (.ld x) s = .next ((joinsQueue (n.modCur (lastNoted (some l)))
        (loadAccess (.loadG x.ty x.d) pa size sc hint)).modCur (fun c => setPc c (nextPc c x.m))))) ∧
    ((mayHold t && !stepsNext t.cur x.d) = false → noneEarly t → meetsOwn t [(pa, size)] = false →
      let r := ctxLoad t t.core pa size sc hint
      exec (.ld x) s = ldGot x pa r.2 r.1) := by
  have hword : inCtl pa = true → x.ty.width / 8 = 8 := fun h => absurd h (by rw [hctl]; exact Bool.false_ne_true)
  have hgot {u : State} {bs : List Byte} := exec_ld_got (u := u) (bs := bs) hpass hpoison hcheck halign hword
  refine ⟨fun e u hearly => hgot (loadInto_early hctl hearly), fun n hearly => ⟨?now, ?held⟩, ?free⟩
  case now => exact fun hheld bs u hload => hgot (loadInto_now hctl hearly hheld hload)
  case held =>
    intro hheld
    rw [exec_ld_aligned hpass hpoison hcheck halign hword]
    exact runThread_ok ((run_bind_ok (loadInto_waits hctl hearly hheld) _).trans (run_advance x.m _))
  case free =>
    intro hheld hnone hmeets
    exact hgot (loadInto_now hctl (takeEarly_none hnone _ _ _ _ _) hheld (loadMem_ok hnone hmeets _ _))

/-- LD of a control word (R90, R92, R128). -/
theorem exec_ld_control (hctl : inCtl pa = true) :
    let size := x.ty.width / 8
    let va := indexedVa x s.cur
    let no : Word := BitVec.ofNat 64 x.a
    (size ≠ 8 ∨ pa % 8 ≠ 0 → exec (.ld x) s = traps t 0x30 va no 0) ∧
    (size = 8 → pa % 8 = 0 → needsSelfAuth t pa = true → exec (.ld x) s = traps t 0x33 va no 0) ∧
    (size = 8 → pa % 8 = 0 → needsSelfAuth t pa = false → ∀ r : State, releaseOwn .sys t = .ok () r →
      exec (.ld x) s = ldGot x pa (wordBytes 8 (ctlRead r (.thread r.slot) pa)) (acquire (forgetEarly r) r.core .sys)) := by
  refine ⟨exec_ld_ctlAlign hpass hpoison hcheck hctl, fun hsize halign hself => ?selfAuth,
    fun hsize halign hself r hrelease => ?word⟩
  case selfAuth =>
    rw [exec_ld_aligned hpass hpoison hcheck ((congrArg (pa % ·) hsize).trans halign) (fun _ => hsize)]
    exact runThread_trap (run_bind_trapD (loadInto_selfAuth hctl hself) _)
  case word =>
    exact exec_ld_got hpass hpoison hcheck ((congrArg (pa % ·) hsize).trans halign) (fun _ => hsize)
      (loadInto_control hctl hself hrelease)

end

/-- Settles O17: the loads of memory, of control words, and the poisoned ones. -/
theorem loadsOfMemory : Obligations.LoadsOfMemory := by
  refine ⟨fun x s t pa hpass => ?_, fun x s t hpass => ?_⟩
  · exact fun hpoison hcheck => ⟨exec_ld_memory hpass hpoison hcheck, exec_ld_control hpass hpoison hcheck⟩
  · exact ⟨exec_ld_poisoned hpass, fun f => exec_ld_fault hpass, fun pa => exec_ld_misaligned hpass⟩

end Sys2Proof.Machine

/-! # Stores of the control thread -/
namespace Sys2Proof.Machine

theorem width_le (ty : Ty) : ty.width / 8 ≤ 8 := by cases ty <;> decide

theorem storedBytes_length (ty : Ty) (v : Word) : ((wordBytes 8 v).take (ty.width / 8)).length = ty.width / 8 := by
  rw [List.length_take, wordBytes, bytesOfNat_length, Nat.min_eq_left (width_le ty)]

/-! ### Stores to control words (R92, R101) -/

section
variable {md : Mods} {pa capNo : Nat} {va v : Word} {t : State} (hspec : t.cur.spec = false)
include hspec

theorem ctlStoreM_selfAuth (hself : needsSelfAuth t pa = true) :
    ctlStoreM md pa va capNo v t = (trapD 0x33 va (BitVec.ofNat 64 capNo) : M Unit) t := by
  rw [ctlStoreM, run_bind_ok (parkIfSpec_ok hspec), run_bind_ok (run_get t)]
  simp only [hself, if_true]
  rfl

variable (hself : needsSelfAuth t pa = false)
include hself

/-- A store that has performed and holds its thread: it ends once it is complete (R101). -/
theorem ctlStoreM_halting (hhalting : t.cur.halting = true) :
    ctlStoreM md pa va capNo v t = .ok () (if t.cur.awaitHalts = [] ∧ storeDone t t.cur.awaits pa v = true
      then t.modCur (fun c => setPc { c with halting := false } (nextPc c md)) else t) := by
  rw [ctlStoreM, run_bind_ok (parkIfSpec_ok hspec), run_bind_ok (run_get t)]
  simp only [hself, Bool.false_eq_true, if_false, hhalting, if_true]
  by_cases hdone : t.cur.awaitHalts = [] ∧ storeDone t t.cur.awaits pa v = true
  · have hall : (t.cur.awaitHalts.isEmpty && storeDone t t.cur.awaits pa v) = true := by simp [hdone]
    simp only [hall, if_true, if_pos hdone, run_bind_ok (run_modifyCur _ t), run_advance, State.modCur_modCur]
    rfl
  · have hnot : (t.cur.awaitHalts.isEmpty && storeDone t t.cur.awaits pa v) = false := by simpa using hdone
    simp only [hnot, Bool.false_eq_true, if_false, if_neg hdone, run_pure]

variable (hhalting : t.cur.halting = false) {r : State} (hrelease : releaseOwn .sys t = .ok () r)
include hhalting hrelease

/-- A store that is made, past the release. -/
theorem ctlStoreM_made :
    ctlStoreM md pa va capNo v t = match ctlStore (r.modCur (fun c => setPc c (nextPc c md))) (.thread r.slot) pa v with
      | .ok u => .ok () (if ownRun r r.slot pa = false ∧
          ¬ (haltTargets u pa v = [] ∧ storeDone u (storeAwaits u pa v) pa v = true) ∧ (u.ctx? r.slot).isSome = true ∧
          (u.ctxAt r.slot).h.run ≠ 0
        then u.modCtx r.slot (fun c =>
          { setPc c r.cur.h.pc with halting := true, awaits := storeAwaits u pa v, awaitHalts := haltTargets u pa v })
        else u)
      | .error e => (storeTrap e pa va capNo : M Unit) r := by
  rw [ctlStoreM, run_bind_ok (parkIfSpec_ok hspec), run_bind_ok (run_get t)]
  simp only [hself, Bool.false_eq_true, if_false, hhalting, ctlRelease, run_bind_ok hrelease, run_bind_ok (run_get r)]
  cases ctlStore (r.modCur (fun c => setPc c (nextPc c md))) (.thread r.slot) pa v with
  | error e => rfl
  | ok u =>
    have hiff : (!ownRun r r.slot pa &&
        !((haltTargets u pa v).isEmpty && storeDone u (storeAwaits u pa v) pa v) && (u.ctx? r.slot).isSome &&
          (u.ctxAt r.slot).h.run != 0) = true ↔
        ownRun r r.slot pa = false ∧ ¬ (haltTargets u pa v = [] ∧ storeDone u (storeAwaits u pa v) pa v = true) ∧
          (u.ctx? r.slot).isSome = true ∧ (u.ctxAt r.slot).h.run ≠ 0 := by
      simp [and_assoc, imp_iff_not_or]
    simp only [hiff]
    split_ifs <;> rfl

end

/-! ### Stores to memory (R161) -/

section
variable {v : Word} {pa size : Nat} {sc : Scope} {hint : Nat} {t : State}

theorem issueStore_now {w : State} (hheld : mayHold t = false)
    (hstore : storeMem pa ((wordBytes 8 v).take size) sc hint t = .ok () w) : issueStore v pa size sc hint t = .ok () w := by
  simp only [issueStore, run_bind_ok (run_get t), hheld, Bool.false_eq_true, if_false, hstore]

theorem issueStore_waits (hheld : mayHold t = true) (hroom : needRoom pa size t = .ok () t) :
    issueStore v pa size sc hint t = .ok () (joinsQueue t (loadAccess (.store v) pa size sc hint)) := by
  simp only [issueStore, run_bind_ok (run_get t), hheld, if_true, run_bind_ok hroom, run_enqueue, loadAccess]

end

/-! ### ST -/

section
variable {x : LdArgs} {s t : State} {pa : Nat}
  (hpass : passes x.m s = true) (hindex : gPoison s.cur x.c = false) (hvalue : gPoison s.cur x.d = false)
  (hcheck : ctlCheck (readC s.cur x.a) (memOff (gVal s.cur x.c) x.imm) (x.ty.width / 8) .store .write .core s = .ok (.ok pa) t)
include hindex hvalue hcheck

theorem stBody_checked :
    stBody x s = (do
      if inCtl pa && (x.ty.width / 8 != 8 || pa % 8 != 0) then trapD cCtlAlign (indexedVa x s.cur) (BitVec.ofNat 64 x.a)
      if pa % (x.ty.width / 8) ≠ 0 then trapD cAlign (indexedVa x s.cur) (BitVec.ofNat 64 x.a)
      if inCtl pa then ctlStoreM x.m pa (indexedVa x s.cur) x.a (gVal s.cur x.d)
      else
        issueStore (gVal s.cur x.d) pa (x.ty.width / 8) (scopeGet x.scope .core) x.hint.toNat
        advance x.m : M Unit) t := by
  rw [stBody, run_bind_ok (consumeG_ok hindex), run_bind_ok (consumeG_ok hvalue), run_bind_ok (run_getCur s),
    run_bind_ok hcheck, run_bind_ok (run_orTrap_ok pa x.a t)]
  rfl

/-- Past its checks ST to memory is its store and the advance. -/
theorem stBody_memory (hctl : inCtl pa = false) (halign : pa % (x.ty.width / 8) = 0) :
    stBody x s = (do
      issueStore (gVal s.cur x.d) pa (x.ty.width / 8) (scopeGet x.scope .core) x.hint.toNat
      advance x.m : M Unit) t := by
  rw [stBody_checked hindex hvalue hcheck]
  simp only [hctl, Bool.false_and, Bool.false_eq_true, if_false, halign, ne_eq, not_true_eq_false]

/-- Past its checks ST to control space is the store of its word. -/
theorem stBody_control (hctl : inCtl pa = true) (hsize : x.ty.width / 8 = 8) (halign : pa % 8 = 0) :
    stBody x s = ctlStoreM x.m pa (indexedVa x s.cur) x.a (gVal s.cur x.d) t := by
  rw [stBody_checked hindex hvalue hcheck]
  simp only [hctl, hsize, halign, bne_self_eq_false, Bool.or_self, Bool.and_false, Bool.false_eq_true, if_false, if_true, ne_eq,
    not_true_eq_false]

include hpass

theorem exec_st_stored {w : State} (hctl : inCtl pa = false) (halign : pa % (x.ty.width / 8) = 0)
    (hstore : issueStore (gVal s.cur x.d) pa (x.ty.width / 8) (scopeGet x.scope .core) x.hint.toNat t = .ok () w) :
    exec (.st x) s = .next (w.modCur (fun c => setPc c (nextPc c x.m))) :=
  scalarStep_ok hpass ((stBody_memory hindex hvalue hcheck hctl halign).trans
    ((run_bind_ok hstore _).trans (run_advance x.m w)))

theorem exec_st_memory (hctl : inCtl pa = false) (halign : pa % (x.ty.width / 8) = 0) :
    let size := x.ty.width / 8
    let sc := scopeGet x.scope .core
    let hint := x.hint.toNat
    let v := gVal s.cur x.d
    (mayHold t = false → t.cur.spec = false → noneEarly t → meetsOwn t [(pa, size)] = false →
      exec (.st x) s = .next ((storeBytes t t.core none pa ((wordBytes 8 v).take size) sc hint).modCur
        (fun c => setPc c (nextPc c x.m)))) ∧
    (mayHold t = false → ∀ w : State, storeMem pa ((wordBytes 8 v).take size) sc hint t = .ok () w →
      exec (.st x) s = .next (w.modCur (fun c => setPc c (nextPc c x.m)))) ∧
    (mayHold t = true → needRoom pa size t = .ok () t →
      exec (.st x) s = .next ((joinsQueue t (loadAccess (.store v) pa size sc hint)).modCur
        (fun c => setPc c (nextPc c x.m)))) := by
  have hstored {w : State} := exec_st_stored (w := w) hpass hindex hvalue hcheck hctl halign
  refine ⟨fun hheld hspec hearly hmeets => hstored (issueStore_now hheld (storeMem_ok hspec hearly ?_ _ _)),
    fun hheld w hstore => hstored (issueStore_now hheld hstore), fun hheld hroom => hstored (issueStore_waits hheld hroom)⟩
  rwa [storedBytes_length]

theorem exec_st_ctlAlign (hctl : inCtl pa = true) (halign : x.ty.width / 8 ≠ 8 ∨ pa % 8 ≠ 0) :
    exec (.st x) s = traps t 0x30 (indexedVa x s.cur) (BitVec.ofNat 64 x.a) 0 := by
  have hbad : (x.ty.width / 8 != 8 || pa % 8 != 0) = true := by simpa using halign
  refine scalarStep_trapD hpass ((stBody_checked hindex hvalue hcheck).trans ?_)
  simp only [hctl, hbad, Bool.and_self, if_true]
  exact run_bind_trapD rfl _

/-- ST to an aligned control word (R90, R98, R101, R420). -/
theorem exec_st_control (hctl : inCtl pa = true) (hsize : x.ty.width / 8 = 8) (halign : pa % 8 = 0)
    (hspec : t.cur.spec = false) :
    let va := indexedVa x s.cur
    let no : Word := BitVec.ofNat 64 x.a
    let v := gVal s.cur x.d
    (needsSelfAuth t pa = true → exec (.st x) s = traps t 0x33 va no 0) ∧
    (needsSelfAuth t pa = false → t.cur.halting = false → ∀ r : State, releaseOwn .sys t = .ok () r →
      match ctlStore (r.modCur (fun c => setPc c (nextPc c x.m))) (.thread r.slot) pa v with
      | .ok u => exec (.st x) s = ctlStored r pa v u
      | .error .busy => exec (.st x) s = traps r 0x32 va no 0
      | .error (.locked j) => exec (.st x) s = traps r 0xA00 (BitVec.ofNat 64 pa) (BitVec.ofNat 64 j) 0) ∧
    (needsSelfAuth t pa = false → t.cur.halting = true →
      exec (.st x) s = .next (if t.cur.awaitHalts = [] ∧ storeDone t t.cur.awaits pa v = true
        then t.modCur (fun c => setPc { c with halting := false } (nextPc c x.m)) else t)) := by
  have hbody := stBody_control hindex hvalue hcheck hctl hsize halign
  refine ⟨fun hself => ?selfAuth, fun hself hhalting r hrelease => ?made, fun hself hhalting => ?held⟩
  case selfAuth => exact scalarStep_trapD hpass (hbody.trans (ctlStoreM_selfAuth hspec hself))
  case made =>
    have hmade := hbody.trans (ctlStoreM_made hspec hself hhalting hrelease)
    cases hstore : ctlStore (r.modCur (fun c => setPc c (nextPc c x.m))) (.thread r.slot) pa (gVal s.cur x.d) with
    | ok u =>
      rw [hstore] at hmade
      exact scalarStep_ok hpass hmade
    | error e =>
      rw [hstore] at hmade
      cases e with
      | busy => exact scalarStep_trapD hpass hmade
      | locked j => exact scalarStep_trapD hpass hmade
  case held => exact scalarStep_ok hpass (hbody.trans (ctlStoreM_halting hspec hself hhalting))

end

/-- Settles O18: the stores to memory and to control words. -/
theorem storesToMemory : Obligations.StoresToMemory := by
  intro x s t pa hpass
  refine fun hindex hvalue hcheck => ⟨exec_st_memory hpass hindex hvalue hcheck, fun hctl => ⟨?_, ?_⟩⟩
  · exact exec_st_ctlAlign hpass hindex hvalue hcheck hctl
  · exact exec_st_control hpass hindex hvalue hcheck hctl

end Sys2Proof.Machine

/-! # Capability accesses and atomics of the control thread -/
namespace Sys2Proof.Machine

/-! ### Checks that LDC and STC share (R85) -/

section
variable {pa capNo : Nat} {va : Word} {t : State}

theorem capMemCheck_memory (hctl : inCtl pa = false) (halign : pa % 16 = 0) : capMemCheck pa va capNo t = .ok () t := by
  simp [capMemCheck, hctl, halign]

theorem capMemCheck_ctlAlign (hctl : inCtl pa = true) (halign : pa % 16 ≠ 0) :
    capMemCheck pa va capNo t = (trapD 0x30 va (BitVec.ofNat 64 capNo) : M Unit) t := by
  simp only [capMemCheck, if_pos halign, hctl, if_true]
  exact run_bind_trapD rfl _

theorem capMemCheck_none (hctl : inCtl pa = true) (halign : pa % 16 = 0) (hword : ctlCapWord pa = none) :
    capMemCheck pa va capNo t = (trapD 0x31 va (BitVec.ofNat 64 capNo) : M Unit) t := by
  simp only [capMemCheck, halign, ne_eq, not_true_eq_false, if_false, hctl, hword, Option.isNone_none, Bool.and_self, if_true]
  rfl

theorem capMemCheck_word (hctl : inCtl pa = true) (halign : pa % 16 = 0) (hword : (ctlCapWord pa).isSome = true) :
    capMemCheck pa va capNo t = .ok () t := by
  have hsome : (ctlCapWord pa).isNone = false := by rw [← Option.not_isSome, hword]; rfl
  simp [capMemCheck, hctl, halign, hsome]

end

/-! ### LDC -/

/-- What LDC leaves when it has its capability. -/
def ldcGot (x : LdcArgs) (pa : Nat) (v : Cap) (u : State) : Out :=
  let l : SpinLoad := { pa := pa, size := 16, scope := scopeGet x.scope .core, value := v.bits, tag := v.tag }
  .next (u.modCur (fun c => setPc (writeC (lastNoted (some l) c) x.d v) (nextPc c x.m)))

theorem gotCap_advance (x : LdcArgs) (pa : Nat) (v : Cap) (u : State) :
    runThread (do gotCap x.d pa (scopeGet x.scope .core) v; advance x.m) u = ldcGot x pa v u := by
  refine (runThread_ok (t := ((u.modCur (lastNoted _)).modCur (fun c => writeC c x.d v)).modCur
    (fun c => setPc c (nextPc c x.m))) rfl).trans ?_
  rw [State.modCur_modCur, State.modCur_modCur, ldcGot]
  simp only [nextPc_writeC, nextPc_lastNoted]

section
variable {x : LdcArgs} {s t : State} {pa : Nat} (hpass : passes x.m s = true)
  (hcheck : ctlCheck (readC s.cur x.a) (immInt x.imm) 16 .load .read (scopeGet x.scope .core) s = .ok (.ok pa) t)
  (hlcap : capHas (readC s.cur x.a) .lcap = true)
include hpass hcheck hlcap

theorem exec_ldc_memCheck {cause : BitVec 16} {d0 d1 : Word}
    (hbad : capMemCheck pa (capCursor (readC s.cur x.a) + wordOf (immInt x.imm)) x.a t = (trapD cause d0 d1 : M Unit) t) :
    exec (.ldc x) s = traps t cause d0 d1 0 := by
  rw [show exec (.ldc x) s = execLdc x s from rfl, execLdc, scalarStep_passes hpass, runThread]
  simp only [run_bind_ok (run_getCur s), run_bind_ok hcheck, run_bind_ok (run_orTrap_ok pa x.a t), hlcap, Bool.not_true,
    Bool.false_eq_true, if_false]
  rw [run_bind_error (hbad.trans (run_trapD _ _ _ _)), traps]

/-- LDC of a capability word of control space (R85, R128). -/
theorem exec_ldc_word (hctl : inCtl pa = true) (halign : pa % 16 = 0) (hword : (ctlCapWord pa).isSome = true) :
    (needsSelfAuth t pa = true →
      exec (.ldc x) s = traps t 0x33 (capCursor (readC s.cur x.a) + wordOf (immInt x.imm)) (BitVec.ofNat 64 x.a) 0) ∧
    (needsSelfAuth t pa = false → ∀ r u : State, releaseOwn .sys t = .ok () r → acquire (forgetEarly r) r.core .sys = u →
      exec (.ldc x) s = ldcGot x pa (ctlCapRead u (.thread u.slot) pa) u) := by
  rw [show exec (.ldc x) s = execLdc x s from rfl, execLdc, scalarStep_passes hpass, runThread]
  simp only [run_bind_ok (run_getCur s), run_bind_ok hcheck, run_bind_ok (run_orTrap_ok pa x.a t), hlcap, Bool.not_true,
    Bool.false_eq_true, if_false, run_bind_ok (capMemCheck_word hctl halign hword), hctl, if_true]
  refine ⟨fun hself => ?_, fun hself r u hrelease hacquire => ?_⟩
  · simp only [run_bind_ok (run_get t), hself, if_true]
    rw [run_bind_error (run_trapD _ _ _ _), traps, cSelfAuth]
  · simp only [run_bind_ok (run_get t), hself, Bool.false_eq_true, if_false]
    rw [run_bind_ok (show ctlRelease t = .ok () r from hrelease), run_bind_ok (run_ctlAcquire r), hacquire]
    exact gotCap_advance x pa _ u

/-- LDC of memory (R85, R116, R118). -/
theorem exec_ldc_memory (hctl : inCtl pa = false) (halign : pa % 16 = 0) :
    let sc := scopeGet x.scope .core
    let l : SpinLoad := { pa := pa, size := 16, scope := sc, value := 0, tag := false }
    (∀ (e : EarlyLoad) (u : State), takeEarly x.a 0 pa 16 sc t = .ok (some e) u →
      exec (.ldc x) s = ldcGot x pa { bits := e.value, tag := e.tag } u) ∧
    (∀ n : State, takeEarly x.a 0 pa 16 sc t = .ok none n →
      (∀ (v : Cap) (u : State), mayHold n = false → loadCapMem pa sc x.hint.toNat n = .ok v u →
        exec (.ldc x) s = ldcGot x pa v u) ∧
      (mayHold n = true → exec (.ldc x) s = .next ((joinsQueue (n.modCur (lastNoted (some l)))
        (loadAccess (.loadC x.d) pa 16 sc x.hint.toNat)).modCur (fun c => setPc c (nextPc c x.m))))) := by
  intro sc l
  rw [show exec (.ldc x) s = execLdc x s from rfl, execLdc, scalarStep_passes hpass, runThread]
  simp only [run_bind_ok (run_getCur s), run_bind_ok hcheck, run_bind_ok (run_orTrap_ok pa x.a t), hlcap, Bool.not_true,
    Bool.false_eq_true, if_false, run_bind_ok (capMemCheck_memory hctl halign), hctl]
  refine ⟨fun e u hearly => ?early, fun n hearly => ⟨fun v u hheld hload => ?now, fun hheld => ?waits⟩⟩
  case early =>
    simp only [sc, run_bind_ok hearly]
    exact gotCap_advance x pa _ u
  case now =>
    simp only [sc, run_bind_ok hearly, run_bind_ok (run_get n), hheld, Bool.false_eq_true, if_false, run_bind_ok hload]
    exact gotCap_advance x pa v u
  case waits =>
    simp only [sc, run_bind_ok hearly, run_bind_ok (run_get n), hheld, if_true, run_bind_ok (run_noteSpin _ n),
      run_bind_ok (run_enqueue _ _), run_advance]
    rfl

end

/-! ### STC -/

section
variable {x : LdcArgs} {s t : State} {pa : Nat} (hpass : passes x.m s = true)
  (hcheck : ctlCheck (readC s.cur x.a) (immInt x.imm) 16 .store .write .core s = .ok (.ok pa) t)
  (hscap : (readC s.cur x.d).tag = true → capHas (readC s.cur x.a) .scap = true)
include hpass hcheck hscap

theorem exec_stc_memCheck {cause : BitVec 16} {d0 d1 : Word}
    (hbad : capMemCheck pa (capCursor (readC s.cur x.a) + wordOf (immInt x.imm)) x.a t = (trapD cause d0 d1 : M Unit) t) :
    exec (.stc x) s = traps t cause d0 d1 0 := by
  have hmay : ((readC s.cur x.d).tag && !capHas (readC s.cur x.a) .scap) = false := by simpa using hscap
  rw [show exec (.stc x) s = execStc x s from rfl, execStc, scalarStep_passes hpass, runThread]
  simp only [run_bind_ok (run_getCur s), run_bind_ok hcheck, run_bind_ok (run_orTrap_ok pa x.a t), hmay, Bool.false_eq_true,
    if_false]
  rw [run_bind_error (hbad.trans (run_trapD _ _ _ _)), traps]

/-- STC to memory past its checks is its store and the advance. -/
theorem exec_stc_stored {u : State} (hctl : inCtl pa = false) (halign : pa % 16 = 0)
    (hstore : storeCapMem pa (readC s.cur x.d) (scopeGet x.scope .core) x.hint.toNat t = .ok () u) :
    exec (.stc x) s = .next (u.modCur (fun c => setPc c (nextPc c x.m))) := by
  have hmay : ((readC s.cur x.d).tag && !capHas (readC s.cur x.a) .scap) = false := by simpa using hscap
  rw [show exec (.stc x) s = execStc x s from rfl, execStc, scalarStep_passes hpass, runThread]
  simp only [run_bind_ok (run_getCur s), run_bind_ok hcheck, run_bind_ok (run_orTrap_ok pa x.a t), hmay, Bool.false_eq_true,
    if_false, run_bind_ok (capMemCheck_memory hctl halign), hctl]
  rw [run_bind_ok hstore, run_advance]

/-- STC to a capability word of control space (R85, R90, R98, R128, R420). -/
theorem exec_stc_word (hctl : inCtl pa = true) (halign : pa % 16 = 0) (hword : (ctlCapWord pa).isSome = true)
    (hspec : t.cur.spec = false) :
    let va := capCursor (readC s.cur x.a) + wordOf (immInt x.imm)
    let no : Word := BitVec.ofNat 64 x.a
    (needsSelfAuth t pa = true → exec (.stc x) s = traps t 0x33 va no 0) ∧
    (needsSelfAuth t pa = false → ∀ r : State, releaseOwn .sys t = .ok () r →
      match capCtlStore r (.thread r.slot) pa (readC s.cur x.d) with
      | .ok u => exec (.stc x) s = .next (u.modCur (fun c => setPc c (nextPc c x.m)))
      | .error .busy => exec (.stc x) s = traps r 0x32 va no 0
      | .error (.locked j) => exec (.stc x) s = traps r 0xA00 (BitVec.ofNat 64 pa) (BitVec.ofNat 64 j) 0) := by
  intro va no
  have hmay : ((readC s.cur x.d).tag && !capHas (readC s.cur x.a) .scap) = false := by simpa using hscap
  rw [show exec (.stc x) s = execStc x s from rfl, execStc, scalarStep_passes hpass, runThread]
  simp only [run_bind_ok (run_getCur s), run_bind_ok hcheck, run_bind_ok (run_orTrap_ok pa x.a t), hmay, Bool.false_eq_true,
    if_false, run_bind_ok (capMemCheck_word hctl halign hword), hctl, if_true]
  rw [run_bind_ok (parkIfSpec_ok hspec)]
  refine ⟨fun hself => ?selfAuth, fun hself r hrelease => ?made⟩
  case selfAuth =>
    simp only [run_bind_ok (run_get t), hself, if_true]
    rw [run_bind_error (run_trapD _ _ _ _), traps, cSelfAuth]
  case made =>
    simp only [run_bind_ok (run_get t), hself, Bool.false_eq_true, if_false]
    rw [run_bind_ok (show ctlRelease t = .ok () r from hrelease), run_bind_ok (run_get r)]
    cases capCtlStore r (.thread r.slot) pa (readC s.cur x.d) with
    | ok u => rfl
    | error e => cases e <;> rfl

end

theorem storeCapMem_ok {t : State} {pa : Nat} (hheld : mayHold t = false) (hspec : t.cur.spec = false) (hearly : noneEarly t)
    (hmeets : meetsOwn t [(pa, 16)] = false) (v : Cap) (sc : Scope) (hint : Nat) :
    storeCapMem pa v sc hint t =
      .ok () (storePiece t t.core none pa (capBytes v) (if v.tag then maskAt 4 (pa % 64 / 16) 1 else 0) sc hint) := by
  rw [storeCapMem, run_bind_ok (needRoom_ok hspec pa 16), run_bind_ok (run_get t)]
  simp only [hheld, Bool.false_eq_true, if_false, run_bind_ok (ownFirst_ok hearly hmeets), run_modify, capPut, ctxWkey, hspec]

theorem storeCapMem_waits {t : State} {pa : Nat} (hheld : mayHold t = true) (hroom : needRoom pa 16 t = .ok () t) (v : Cap)
    (sc : Scope) (hint : Nat) :
    storeCapMem pa v sc hint t = .ok () (joinsQueue t (loadAccess (.storeC v) pa 16 sc hint)) := by
  rw [storeCapMem, run_bind_ok hroom, run_bind_ok (run_get t)]
  simp only [hheld, if_true, run_enqueue, loadAccess]

end Sys2Proof.Machine

/-! # Atomics of the control thread -/
namespace Sys2Proof.Machine

/-! ### The value that an AMO writes (R125) -/

theorem valueOf_tyBits (ty : Ty) (w : Word) : valueOf ty (tyBits ty w) = amoInt ty w := by
  unfold valueOf amoInt extTy tyBits uint
  split
  · rw [BitVec.toInt_setWidth]; rfl
  · rw [BitVec.toNat_setWidth]; rfl

theorem width_le_word (ty : Ty) : ty.width ≤ 64 := by cases ty <;> decide

theorem valueOf_injective (ty : Ty) {a b : BitVec ty.width} (h : valueOf ty a = valueOf ty b) : a = b := by
  unfold valueOf at h
  split at h
  · exact BitVec.eq_of_toInt_eq h
  · exact BitVec.eq_of_toNat_eq (Int.ofNat.inj h)

theorem tyBits_amoNew (kind : AmoKind) (ty : Ty) (old b c : Word) :
    tyBits ty (amoNew kind ty old b c) = amoResult kind ty (tyBits ty old) (tyBits ty b) (tyBits ty c) := by
  have hcas : tyBits ty old = tyBits ty c ↔ amoInt ty old = amoInt ty c := by
    rw [← valueOf_tyBits ty old, ← valueOf_tyBits ty c]
    exact ⟨congrArg _, valueOf_injective ty⟩
  cases kind with
  | swap => rfl
  | add => exact BitVec.setWidth_add _ _ (width_le_word ty)
  | and => exact BitVec.setWidth_and
  | or => exact BitVec.setWidth_or
  | xor => exact BitVec.setWidth_xor
  | min => simp only [amoNew, amoResult, valueOf_tyBits, apply_ite (tyBits ty)]
  | max => simp only [amoNew, amoResult, valueOf_tyBits, apply_ite (tyBits ty)]
  | cas => simp only [amoNew, amoResult, hcas, apply_ite (tyBits ty)]

theorem take_bytesOfNat {m n : Nat} (h : m ≤ n) (x : Nat) : (bytesOfNat n x).take m = bytesOfNat m x := by
  induction n generalizing m x with
  | zero => rw [Nat.le_zero.mp h]; rfl
  | succ n ih => cases m with
    | zero => rfl
    | succ m => simp only [bytesOfNat, List.take_succ_cons, ih (Nat.le_of_succ_le_succ h)]

theorem bytesOfNat_mod {n w : Nat} (h : 8 * n ≤ w) (x : Nat) : bytesOfNat n (x % 2 ^ w) = bytesOfNat n x := by
  refine List.ext_getElem (by simp) (fun i hi _ => ?_)
  rw [bytesOfNat_length] at hi
  rw [bytesOfNat_getElem, bytesOfNat_getElem]
  refine BitVec.eq_of_getLsbD_eq (fun j hj => ?_)
  have hbit : 8 * i + j < w := by omega
  simp only [BitVec.getLsbD_ofNat, Nat.testBit_shiftRight, Nat.testBit_mod_two_pow, hbit, decide_true, Bool.true_and]

/-- The bytes that an AMO stores are those of its result at the type's width. -/
theorem amoNew_bytes (kind : AmoKind) (ty : Ty) (old b c : Word) :
    (wordBytes 8 (amoNew kind ty old b c)).take (ty.width / 8) =
      bytesOfNat (ty.width / 8) (amoResult kind ty (tyBits ty old) (tyBits ty b) (tyBits ty c)).toNat := by
  rw [wordBytes, take_bytesOfNat (width_le ty), ← tyBits_amoNew, tyBits, BitVec.toNat_setWidth,
    bytesOfNat_mod (Nat.mul_div_le _ _)]

/-- Only CAS reads its third operand. -/
theorem amoResult_third {kind : AmoKind} (h : kind ≠ .cas) (ty : Ty) (old b c d : BitVec ty.width) :
    amoResult kind ty old b c = amoResult kind ty old b d := by
  cases kind with
  | cas => exact absurd rfl h
  | _ => rfl

theorem performAmo_leaves (s : State) (k : Nat) (a : Access) (kind : AmoKind) (ty : Ty) (d : GReg) (b c : Word)
    (hsize : a.size = ty.width / 8) :
    performAmo s k a kind ty d b c = amoLeaves s k a.pa a.size a.scope a.hint kind ty d b c := by
  simp only [performAmo, amoStep, amoLeaves, hsize, amoNew_bytes]

/-- What an AMO takes of its third operand: CAS alone reads it (R126). -/
def amoThird (x : AmoArgs) (c : Ctx) : Word := if x.kind = .cas then gVal c x.c else 0

theorem amoLeaves_third (s : State) (k pa size : Nat) (sc : Scope) (hint : Nat) (x : AmoArgs) (d : GReg) (b : Word) (c : Ctx) :
    amoLeaves s k pa size sc hint x.kind x.ty d b (amoThird x c) =
      amoLeaves s k pa size sc hint x.kind x.ty d b (gVal c x.c) := by
  by_cases hkind : x.kind = .cas
  · rw [amoThird, if_pos hkind]
  · simp only [amoLeaves, amoResult_third hkind x.ty _ _ (tyBits x.ty (amoThird x c)) (tyBits x.ty (gVal c x.c))]

/-! ### AMO -/

/-- The access of an AMO as it joins the issue queue. -/
def amoAccess (x : AmoArgs) (pa : Nat) (c : Ctx) : Access :=
  loadAccess (.amoG x.kind x.ty x.d (gVal c x.b) (amoThird x c)) pa (x.ty.width / 8) (scopeGet x.scope .sys) x.hint.toNat

section
variable {x : AmoArgs} {s t : State} {pa : Nat} (hpass : passes x.m s = true) (hspec : s.cur.spec = false)
  (hb : gPoison s.cur x.b = false) (hc : x.kind = .cas → gPoison s.cur x.c = false)
  (hcheck : capAccess (readC s.cur x.a) (immInt x.imm) (x.ty.width / 8) .load .both (scopeGet x.scope .sys) s = .ok (.ok pa) t)
  (hstore : capHas (readC s.cur x.a) .store = true)
include hspec hb hc hcheck hstore

/-- AMO past its checks. -/
theorem amoBody_checked :
    amoBody x s = (do
      if inCtl pa then trapD cCtlAccess (capCursor (readC s.cur x.a) + wordOf (immInt x.imm)) (BitVec.ofNat 64 x.a)
      if pa % (x.ty.width / 8) ≠ 0 then
        trapD cAlign (capCursor (readC s.cur x.a) + wordOf (immInt x.imm)) (BitVec.ofNat 64 x.a)
      if mayHold (← get) && !stepsNext (← getCur) x.d then enqueue (amoAccess x pa s.cur)
      else
        drainParty .control
        modify (fun d => performAmo d d.core { amoAccess x pa s.cur with code := d.code } x.kind x.ty x.d (gVal s.cur x.b)
          (amoThird x s.cur))
      advance x.m : M Unit) t := by
  rw [amoBody, run_bind_ok (parkIfSpec_ok hspec), run_bind_ok (consumeG_ok hb)]
  cases hkind : x.kind with
  | cas =>
    have hthird : amoThird x s.cur = gVal s.cur x.c := if_pos hkind
    simp only [run_bind_ok (consumeG_ok (hc hkind)), run_bind_ok (run_getCur s), run_bind_ok hcheck,
      run_bind_ok (run_orTrap_ok pa x.a t), hstore, Bool.not_true, Bool.false_eq_true, if_false, amoAccess, loadAccess, hthird,
      hkind]
  | _ =>
    have hthird : amoThird x s.cur = 0 := if_neg (by simp [hkind])
    simp only [run_bind_ok (run_pure (0 : Word) s), run_bind_ok (run_getCur s), run_bind_ok hcheck,
      run_bind_ok (run_orTrap_ok pa x.a t), hstore, Bool.not_true, Bool.false_eq_true, if_false, amoAccess, loadAccess, hthird,
      hkind]

include hpass

theorem exec_amo_ctlAccess (hctl : inCtl pa = true) :
    exec (.amo x) s = traps t 0x31 (capCursor (readC s.cur x.a) + wordOf (immInt x.imm)) (BitVec.ofNat 64 x.a) 0 := by
  refine scalarStep_trapD hpass ((amoBody_checked hspec hb hc hcheck hstore).trans ?_)
  simp only [hctl, if_true]
  exact run_bind_trapD rfl _

theorem exec_amo_misaligned (hctl : inCtl pa = false) (halign : pa % (x.ty.width / 8) ≠ 0) :
    exec (.amo x) s = traps t 0x24 (capCursor (readC s.cur x.a) + wordOf (immInt x.imm)) (BitVec.ofNat 64 x.a) 0 := by
  refine scalarStep_trapD hpass ((amoBody_checked hspec hb hc hcheck hstore).trans ?_)
  simp only [hctl, Bool.false_eq_true, if_false, if_pos halign]
  exact run_bind_trapD rfl _

variable (hctl : inCtl pa = false) (halign : pa % (x.ty.width / 8) = 0)
include hctl halign

theorem exec_amo_waits (hheld : (mayHold t && !stepsNext t.cur x.d) = true) :
    exec (.amo x) s = .next ((joinsQueue t (amoAccess x pa s.cur)).modCur (fun c => setPc c (nextPc c x.m))) := by
  refine scalarStep_ok hpass ((amoBody_checked hspec hb hc hcheck hstore).trans ?_)
  simp only [hctl, Bool.false_eq_true, if_false, halign, ne_eq, not_true_eq_false, run_bind_ok (run_get t),
    run_bind_ok (run_getCur t), hheld, if_true, run_bind_ok (run_enqueue _ t), run_advance]

theorem exec_amo_performs (hheld : (mayHold t && !stepsNext t.cur x.d) = false) {d : State}
    (hdrain : drainParty .control t = .ok () d) :
    exec (.amo x) s = .next ((amoLeaves d d.core pa (x.ty.width / 8) (scopeGet x.scope .sys) x.hint.toNat x.kind x.ty x.d
      (gVal s.cur x.b) (gVal s.cur x.c)).modCur (fun c => setPc c (nextPc c x.m))) := by
  refine scalarStep_ok hpass ((amoBody_checked hspec hb hc hcheck hstore).trans ?_)
  simp only [hctl, Bool.false_eq_true, if_false, halign, ne_eq, not_true_eq_false, run_bind_ok (run_get t),
    run_bind_ok (run_getCur t), hheld, run_bind_ok hdrain, run_bind_ok (run_modify _ d), run_advance]
  rw [performAmo_leaves _ _ _ _ _ _ _ _ rfl, amoLeaves_third]
  rfl

end

/-- Settles O20: capabilities to and from memory and control space, and the atomics. -/
theorem capabilityAccessesAndAtomics : Obligations.CapabilityAccessesAndAtomics := by
  refine ⟨fun x s t pa hpass => ?ldc, fun x s t pa hpass => ?stc, fun x s t pa hpass hspec hb hc => ?amo⟩
  case ldc =>
    intro a sc hcheck hlcap noted got
    refine ⟨exec_ldc_memory hpass hcheck hlcap, fun hctl => ⟨fun halign => ?misaligned, fun halign hnone => ?noWord,
      fun halign hword => ?selfAuth, fun halign hword hself r hrelease => ?word⟩⟩
    case misaligned => exact exec_ldc_memCheck hpass hcheck hlcap (capMemCheck_ctlAlign hctl halign)
    case noWord => exact exec_ldc_memCheck hpass hcheck hlcap (capMemCheck_none hctl halign hnone)
    case selfAuth => exact (exec_ldc_word hpass hcheck hlcap hctl halign hword).1
    case word => exact (exec_ldc_word hpass hcheck hlcap hctl halign hword).2 hself r _ hrelease rfl
  case stc =>
    intro a v sc hcheck hscap
    refine ⟨fun hctl halign => ?memory, fun hctl => ⟨fun halign => ?misaligned, fun halign hnone => ?noWord,
      fun halign hword hspec => ?word⟩⟩
    case memory =>
      have hstored {u : State} := exec_stc_stored (u := u) hpass hcheck hscap hctl halign
      exact ⟨fun u => hstored, fun hheld hroom => hstored (storeCapMem_waits hheld hroom _ _ _),
        fun hheld hspec hearly hmeets => hstored (storeCapMem_ok hheld hspec hearly hmeets _ _ _)⟩
    case misaligned => exact exec_stc_memCheck hpass hcheck hscap (capMemCheck_ctlAlign hctl halign)
    case noWord => exact exec_stc_memCheck hpass hcheck hscap (capMemCheck_none hctl halign hnone)
    case word => exact exec_stc_word hpass hcheck hscap hctl halign hword hspec
  case amo =>
    intro cap size sc hcheck hstore va no
    refine ⟨exec_amo_ctlAccess hpass hspec hb hc hcheck hstore, exec_amo_misaligned hpass hspec hb hc hcheck hstore,
      fun hctl halign => ⟨fun hheld => ?waits, fun hheld d hdrain => ?performs⟩⟩
    case waits => exact exec_amo_waits hpass hspec hb hc hcheck hstore hctl halign hheld
    case performs => exact exec_amo_performs hpass hspec hb hc hcheck hstore hctl halign hheld hdrain

end Sys2Proof.Machine

/-! # CALLQ, PARK, HALT and YIELD -/
namespace Sys2Proof.Machine

/-- General registers without poison are all consumed. -/
theorem consumeAll_ok {ns : List GReg} {s : State} (h : ∀ n ∈ ns, gPoison s.cur n = false) : consumeAll ns s = .ok () s := by
  induction ns with
  | nil => rfl
  | cons n ns ih =>
    rw [consumeAll, run_bind_ok (consumeG_ok (h n List.mem_cons_self)), ih (fun m hm => h m (List.mem_cons_of_mem n hm))]

/-- Once the vector agent has committed and the accesses of the agents have performed. -/
theorem settled_split {s d : State} (h : (do waitVector; quiet : M Unit) s = .ok () d) :
    ∃ e : State, waitVector s = .ok () e ∧ quiet e = .ok () d := by
  rw [run_bind] at h
  cases hwait : waitVector s with
  | ok _ e =>
    rw [hwait] at h
    exact ⟨e, rfl, h⟩
  | error _ _ =>
    rw [hwait] at h
    cases h

theorem exec_halt {x : MArgs} {s d : State} (hpass : passes x.m s = true)
    (hsettled : (do waitVector; quiet : M Unit) s = .ok () d) :
    let u := d.modCur (fun c => setPc c (nextPc c x.m))
    exec (.halt x) s = .next (haltWith u.slot cHalt u) := by
  obtain ⟨e, hwait, hquiet⟩ := settled_split hsettled
  refine scalarStep_ok hpass ?_
  rw [run_bind_ok hwait, run_bind_ok hquiet, run_bind_ok (run_advance x.m d), run_modify]

theorem exec_callq {x : CallqArgs} {s d : State} {q : Nat} (hpass : passes x.m s = true) (hspec : s.cur.spec = false)
    (htag : (readC s.cur x.c).tag = true) (hseal : capOtype (readC s.cur x.c) = 1)
    (hpoison : ∀ n ∈ [x.g, 1, 2, 3, 4], gPoison s.cur n = false)
    (hsettled : (do waitVector; quiet : M Unit) s = .ok () d)
    (hqueue : serviceQueue (release d d.core .sys) (capBounds (readC s.cur x.c)).1 = some q) :
    let cap := readC s.cur x.c
    let r := release d d.core .sys
    let u := r.modCur (fun c => { c with h := { c.h with trapseq := c.h.trapseq + 1 } })
    let rec_ := callqRecord u.slot u.cur (gVal u.cur x.g) (capCursor cap - BitVec.ofNat 64 (capBounds cap).1)
    let v := u.modCur (fun c => setPc c (nextPc c x.m))
    exec (.callq x) s = .next (postRecord (haltWith v.slot cCallq v) q rec_) := by
  obtain ⟨e, hwait, hquiet⟩ := settled_split hsettled
  intro cap r u rec_ v
  refine scalarStep_ok hpass ?_
  rw [run_bind_ok (parkIfSpec_ok hspec), run_bind_ok (run_getCur s)]
  simp only [htag, hseal, Bool.not_true, Bool.false_eq_true, if_false, ne_eq, not_true_eq_false]
  rw [run_bind_ok (consumeAll_ok hpoison), run_bind_ok hwait, run_bind_ok hquiet, run_bind_ok (run_modify _ d),
    run_bind_ok (run_get _), hqueue]
  rfl

theorem exec_yieldCore {x : MArgs} {s : State} (hpass : passes x.m s = true) :
    let u := s.modCur (fun c => setPc c (nextPc c x.m))
    exec (.yieldCore x) s = .next (if waitingContext u u.cur.h.region u.slot then requestPreempt u u.slot else u) := by
  intro u
  refine scalarStep_ok hpass ?_
  rw [run_bind_ok (run_advance x.m s), run_bind_ok (run_get u)]
  cases waitingContext u u.cur.h.region u.slot <;> rfl

/-! ### PARK (R111) -/

/-- What PARK leaves, having read its word. -/
def parkLeaves (x : ParkArgs) (want v : Word) (pa : Nat) (r : State) : State :=
  let u := r.modCur (fun c => setPc c (nextPc c x.m))
  let p := u.modCur (fun c => { c with parked := some (lineOf pa), hit := false })
  if v = want then restLanes p p.slot else u

theorem run_parkLeaves (x : ParkArgs) (want v : Word) (pa : Nat) (r : State) :
    (do
      advance x.m
      if v = want then
        modifyCur (fun c => { c with parked := some (lineOf pa), hit := false })
        modify (fun s => restLanes s s.slot)
      else pure () : M Unit) r = .ok () (parkLeaves x want v pa r) := by
  rw [run_bind_ok (run_advance x.m r)]
  unfold parkLeaves
  split_ifs <;> rfl

section
variable {x : ParkArgs} {s t : State} {pa : Nat} (hpass : passes x.m s = true)
  (hcheck : ctlCheck (readC s.cur x.c) (memOff (gVal s.cur x.x) x.imm) 8 .load .read .sys s = .ok (.ok pa) t)
  (halign : pa % 8 = 0) (hindex : gPoison t.cur x.x = false) (hvalue : gPoison t.cur x.v = false)
include hpass hcheck halign hindex hvalue

theorem exec_park_memory {bs : List Byte} {r : State} (hctl : inCtl pa = false) (hload : loadMem pa 8 .sys 0 t = .ok bs r) :
    exec (.park x) s = .next (parkLeaves x (gVal s.cur x.v) (wordOfBytes bs) pa r) := by
  have hpoison : ∀ n ∈ [x.x, x.v], gPoison t.cur n = false := by simp [hindex, hvalue]
  rw [show exec (.park x) s = execPark x s from rfl, execPark]
  refine scalarStep_ok hpass ?_
  simp only [run_bind_ok (run_getCur s), run_bind_ok hcheck, run_bind_ok (run_orTrap_ok pa x.c t), halign, ne_eq,
    not_true_eq_false, if_false, run_bind_ok (consumeAll_ok hpoison), hctl, Bool.false_and, Bool.false_eq_true,
    pure_bind, run_bind_ok hload]
  exact run_parkLeaves x _ _ pa r

theorem exec_park_control (hctl : inCtl pa = true) :
    let va := capCursor (readC s.cur x.c) + wordOf (memOff (gVal s.cur x.x) x.imm)
    let no : Word := BitVec.ofNat 64 x.c
    (inImage pa = true → exec (.park x) s = traps t 0x31 va no 0) ∧
    (inImage pa = false → needsSelfAuth t pa = true → exec (.park x) s = traps t 0x33 va no 0) ∧
    (∀ r : State, inImage pa = false → needsSelfAuth t pa = false → releaseOwn .sys t = .ok () r →
      exec (.park x) s = .next (parkLeaves x (gVal s.cur x.v) (ctlRead r (.thread r.slot) pa) pa
        (acquire (forgetEarly r) r.core .sys))) := by
  have hpoison : ∀ n ∈ [x.x, x.v], gPoison t.cur n = false := by simp [hindex, hvalue]
  intro va no
  rw [show exec (.park x) s = execPark x s from rfl, execPark, scalarStep_passes hpass]
  simp only [runThread, run_bind_ok (run_getCur s), run_bind_ok hcheck, run_bind_ok (run_orTrap_ok pa x.c t), halign, ne_eq,
    not_true_eq_false, if_false, run_bind_ok (consumeAll_ok hpoison), hctl, Bool.true_and, if_true]
  refine ⟨fun himage => ?image, fun himage hself => ?self, fun r himage hself hrelease => ?word⟩
  case image =>
    simp only [himage, if_true]
    rw [run_bind_error (run_trapD _ _ _ _), traps, cCtlAccess]
  case self =>
    simp only [himage, Bool.false_eq_true, if_false]
    rw [run_bind_trapD (ctlLoad_selfAuth hself), run_trapD, traps]
  case word =>
    simp only [himage, Bool.false_eq_true, if_false]
    rw [run_bind_ok (ctlLoad_ok hself hrelease), run_parkLeaves]

end

/-- Settles O24: the four instructions that give up the core. -/
theorem callqParkHaltYield : Obligations.CallqParkHaltYield := by
  refine ⟨fun x s d q hpass hspec => ?callq, fun x s t pa hpass => ?park, fun x s d => exec_halt, fun x s => exec_yieldCore⟩
  case callq => exact fun htag hseal hpoison hsettled => exec_callq hpass hspec htag hseal hpoison hsettled
  case park =>
    intro c hcheck halign hindex hvalue leaves va no
    have hcontrol := exec_park_control hpass hcheck halign hindex hvalue
    refine ⟨fun bs r hctl hload => ?memory, fun hctl => ?image, fun hctl => ?self, fun r hctl => ?word⟩
    case memory => exact exec_park_memory hpass hcheck halign hindex hvalue hctl hload
    case image => exact (hcontrol hctl).1
    case self => exact (hcontrol hctl).2.1
    case word => exact (hcontrol hctl).2.2 r

end Sys2Proof.Machine

/-! # Accesses of the host and of the peers over the links -/
namespace Sys2Proof.Machine

section
variable {x : BusArgs} {s : State}

theorem exec_hostAccess_memory (hctl : inCtl x.addr = false) : exec (.hostAccess x) s = .next (linkMemory s x true) := by
  show execHostAccess x s = _
  rw [execHostAccess, hctl, if_neg Bool.false_ne_true]

theorem exec_hostAccess_control (hctl : inCtl x.addr = true) : exec (.hostAccess x) s = .next (hostControl s x) := by
  show execHostAccess x s = _
  rw [execHostAccess, if_pos hctl]

theorem exec_peerPortAccess (hctl : inCtl x.addr = false) (hport : bit s.fuses.ports x.port = true)
    (hlink : bit s.links16 x.port = true) : exec (.peerPortAccess x) s = .next (linkMemory s x false) := by
  show execPeerPortAccess x s = _
  simp only [execPeerPortAccess, hport, hlink, hctl, Bool.not_false, Bool.and_self, if_true]

/-- A range that the links reach is read or written (R137). -/
theorem linkMemory_reached (hpos : 0 < x.size) (hsize : x.size ≤ 8) (hreach : linkReach s x.addr x.size x.write = true)
    (hfirst : migrating s x.addr = false) (hlast : migrating s (x.addr + x.size - 1) = false) (host : Bool) :
    linkMemory s x host =
      let reply (s : State) (a : Bool × Word) : State := if host then { s with answer := a } else s
      if x.write then reply (pkgStoreAll s x.addr (wordBytes x.size x.value)) (false, 0)
      else reply s (false, wordOfBytes (((pieces x.addr x.size 2).map (fun p => pkgLoad s p.1 p.2)).flatten)) := by
  have hgood : (decide (x.size = 0) || decide (8 < x.size) || !linkReach s x.addr x.size x.write) = false := by
    simp only [hreach, Bool.not_true, Bool.or_false, Bool.or_eq_false_iff, decide_eq_false_iff_not]
    omega
  simp only [linkMemory, hgood, hfirst, hlast, Bool.or_self, Bool.false_eq_true, if_false]

/-- Any other is answered with the error completion. -/
theorem linkMemory_refused (hbad : x.size = 0 ∨ 8 < x.size ∨ linkReach s x.addr x.size x.write = false) :
    linkMemory s x true = { s with answer := (true, 0) } := by
  have hall : (decide (x.size = 0) || decide (8 < x.size) || !linkReach s x.addr x.size x.write) = true := by
    simpa [or_assoc] using hbad
  simp only [linkMemory, hall, if_true]

theorem hostControl_waits (hstore : s.hostStore.isSome = true) : hostControl s x = s := by
  rw [hostControl, if_pos hstore]

/-- A host access to a control word that passes its checks reads it, or stores to it as a row does. -/
theorem hostControl_passes (hstore : s.hostStore = none) (hsize : x.size = 8) (halign : x.addr % 8 = 0)
    (hmay : hostMay s x.addr x.write = true) (hself : hostSelf s x.addr = false) :
    hostControl s x = if x.write then performStoreRow s .host x.addr x.value
      else { s with answer := (false, ctlRead s .host x.addr) } := by
  simp only [hostControl, hstore, Option.isSome_none, Bool.false_eq_true, if_false, hsize, halign, hmay, hself, ne_eq,
    not_true_eq_false, decide_false, Bool.not_true, Bool.or_self]

theorem hostControl_refused (hstore : s.hostStore = none)
    (hbad : x.size ≠ 8 ∨ x.addr % 8 ≠ 0 ∨ hostMay s x.addr x.write = false ∨ hostSelf s x.addr = true) :
    hostControl s x = { s with answer := (true, 0) } := by
  have hall : (decide (x.size ≠ 8) || decide (x.addr % 8 ≠ 0) || !hostMay s x.addr x.write || hostSelf s x.addr) = true := by
    simp only [Bool.or_eq_true, decide_eq_true_iff, Bool.not_eq_true', or_assoc]
    exact hbad
  rw [hostControl, hstore, Option.isSome_none, if_neg Bool.false_ne_true, if_pos hall]

/-- The host's control store is answered once it is complete (R101). -/
theorem performStoreRow_host {pa : Nat} {v : Word} {t : State} (hstore : ctlStore s .host pa v = .ok t) :
    performStoreRow s .host pa v =
      if haltTargets t pa v = [] ∧ storeDone t (storeAwaits t pa v) pa v = true then { t with answer := (false, 0) }
      else { t with hostStore := some (pa, v, haltTargets t pa v) } := by
  have hdone : hostDone t pa v (haltTargets t pa v) = true ↔
      haltTargets t pa v = [] ∧ storeDone t (storeAwaits t pa v) pa v = true := by
    simp [hostDone]
  unfold performStoreRow
  rw [hstore]
  exact ite_congr (propext hdone) (fun _ => rfl) (fun _ => rfl)

end

/-- Settles O54: the accesses to memory and to control space, and those that are refused. -/
theorem accessesOverLinks : Obligations.AccessesOverLinks := by
  intro x s
  refine ⟨fun hctl hpos hsize hreach hfirst hlast => ⟨?host, fun hport hlink => ?peer⟩, fun hctl hbad => ?refused,
    fun hctl hstore => ?waits, fun hctl hstore hsize halign hmay hself => ⟨fun hread => ?read, fun t hwrite hmade => ?write⟩,
    fun hctl hstore hbad => ?error⟩
  case host => rw [exec_hostAccess_memory hctl, linkMemory_reached hpos hsize hreach hfirst hlast]; rfl
  case peer =>
    rw [exec_peerPortAccess hctl hport hlink, linkMemory_reached hpos hsize hreach hfirst hlast]
    rfl
  case refused => rw [exec_hostAccess_memory hctl, linkMemory_refused hbad]
  case waits => rw [exec_hostAccess_control hctl, hostControl_waits hstore]
  case read =>
    rw [exec_hostAccess_control hctl, hostControl_passes hstore hsize halign hmay hself, if_neg (ne_true_of_eq_false hread)]
  case write =>
    rw [exec_hostAccess_control hctl, hostControl_passes hstore hsize halign hmay hself, if_pos hwrite,
      performStoreRow_host hmade]
  case error => rw [exec_hostAccess_control hctl, hostControl_refused hstore hbad]

end Sys2Proof.Machine

/-! # Stores to the words of a context frame -/
namespace Sys2Proof.Machine

/-! ### A store that nothing turns away (R89, R101, R111) -/

theorem inWindow_past {o start size n : Nat} (h : start + size * n ≤ o) : inWindow o start size n = false := by
  rw [inWindow, decide_eq_false (Nat.not_lt.mpr h), Bool.and_false]

/-- The page of a word of a context frame (R86). -/
theorem ctlPage_frameWord {slot o : Nat} (hslot : slot < 16384) (ho : o < 0x10000) :
    ctlPage (frameWord slot o) = .frame slot o := by
  have hoff : frameWord slot o - ctlBase = 0x8000000000 + (0x10000 * slot + o) := by
    unfold frameWord framePage
    omega
  have hpast {start size n : Nat} (h : start + size * n ≤ 0x8000000000) :
      inWindow (0x8000000000 + (0x10000 * slot + o)) start size n = false := inWindow_past (Nat.le_add_right_of_le h)
  have hhere : inWindow (0x8000000000 + (0x10000 * slot + o)) 0x8000000000 0x10000 16384 = true := by
    rw [inWindow, Bool.and_eq_true, decide_eq_true_iff, decide_eq_true_iff]
    omega
  have hunits : ¬ 0x8000000000 + (0x10000 * slot + o) < 0x1000 := by omega
  have hslotOf : (0x8000000000 + (0x10000 * slot + o) - 0x8000000000) / 0x10000 = slot := by omega
  have hrest : (0x8000000000 + (0x10000 * slot + o)) % 0x10000 = o := by omega
  unfold ctlPage
  simp only [hoff, if_neg hunits, hhere, if_true, hslotOf, hrest]
  rw [hpast (by decide), hpast (by decide), hpast (by decide), hpast (by decide), hpast (by decide), hpast (by decide),
    hpast (by decide), hpast (by decide)]
  simp only [Bool.false_eq_true, if_false]

/-- A store past its locks is made, and its line is seen written. -/
theorem ctlStore_unlocked {s t : State} {w : Who} {pa : Nat} {v : Word} (hopen : unlocked s w pa v)
    (hstore : openStore s w pa v = .ok t) : ctlStore s w pa v = .ok (touch t (lineOf pa)) := by
  obtain ⟨hyet, hlock⟩ := hopen
  simp only [ctlStore, hyet, Bool.false_eq_true, if_false, hlock, hstore]
  rfl

theorem performStoreRow_thread {s t : State} {me pa : Nat} {v : Word} (hstore : ctlStore s (.thread me) pa v = .ok t) :
    performStoreRow s (.thread me) pa v = t := by
  unfold performStoreRow
  rw [hstore]

/-- A row of a store past its locks is the answer of the store performed. -/
theorem performStoreRow_stored {s t : State} {w : Who} {pa : Nat} {v : Word} (hopen : unlocked s w pa v)
    (hstore : openStore s w pa v = .ok t) : .next (performStoreRow s w pa v) = stored w pa v t := by
  have hmade := ctlStore_unlocked hopen hstore
  cases w with
  | thread me =>
    simp only [performStoreRow_thread hmade, stored]
  | host =>
    simp only [performStoreRow_host hmade, stored]

/-! The two stores below match on the page of an address that no evaluation reaches: their definitions are unfolded as
functions, and the page is rewritten before anything is evaluated. -/

theorem openStore_of_frame {s : State} {w : Who} {slot o pa : Nat} {v : Word} (hpage : ctlPage pa = .frame slot o) :
    openStore s w pa v = plainStore s w pa v := by
  obtain ⟨f, hf⟩ : ∃ f, openStore = f := ⟨_, rfl⟩
  rw [hf]
  delta openStore at hf
  subst hf
  beta_reduce
  rw [hpage]

theorem plainStore_of_frame {s : State} {w : Who} {slot o pa : Nat} {v : Word} (hpage : ctlPage pa = .frame slot o) :
    plainStore s w pa v = frameStore s w slot o v := by
  obtain ⟨f, hf⟩ : ∃ f, plainStore = f := ⟨_, rfl⟩
  rw [hf]
  delta plainStore at hf
  subst hf
  beta_reduce
  rw [hpage]

/-- A row of a store to a frame that holds a context, past its locks. -/
theorem performStoreRow_frame {s t : State} {w : Who} {slot o : Nat} {v : Word} (hslot : slot < 16384) (ho : o < 0x10000)
    (hopen : unlocked s w (frameWord slot o) v) (hstore : frameStore s w slot o v = .ok t) :
    .next (performStoreRow s w (frameWord slot o) v) = stored w (frameWord slot o) v t :=
  have hpage := ctlPage_frameWord hslot ho
  performStoreRow_stored hopen (((openStore_of_frame hpage).trans (plainStore_of_frame hpage)).trans hstore)

/-! ### RUN (R101) -/

section
variable {s : State} {w : Who} {slot : Nat} {c : Ctx} (hctx : s.ctx? slot = some c)

theorem runStore_stop (s : State) (w : Who) (slot : Nat) :
    runStore s w slot 0 = haltAsked s w slot 0 (stopRun s slot) := by
  cases w <;> rfl

theorem runStore_run (hslot : slot ≠ 0) (hbarred : runBarred s (s.ctxAt slot).h.region = false) :
    runStore s w slot 1 = goRun s slot 1 := by
  have hmay : (decide (slot = 0) || runBarred s (s.ctxAt slot).h.region) = false := by
    rw [hbarred, decide_eq_false hslot, Bool.or_self]
  have hfield : field (1 : Word) 0 2 = 1 := by decide
  simp only [runStore, hfield, hmay, Bool.false_eq_true, if_false, if_true, OfNat.one_ne_ofNat, one_ne_zero]

theorem runStore_step (hslot : slot ≠ 0) (hbarred : runBarred s (s.ctxAt slot).h.region = false) :
    runStore s w slot 2 = haltAsked s w slot 2 (goRun s slot 2) := by
  have hmay : (decide (slot = 0) || runBarred s (s.ctxAt slot).h.region) = false := by
    rw [hbarred, decide_eq_false hslot, Bool.or_self]
  have hfield : field (2 : Word) 0 2 = 2 := by decide
  simp only [runStore, hfield, hmay, Bool.false_eq_true, if_false, Nat.reduceEqDiff, haltAsked, askHalt]

include hctx

theorem frameStore_run (v : Word) : frameStore s w slot 0 v = .ok (runStore s w slot v) := by
  simp only [frameStore, hctx, if_true]

/-- RUN := 0 of a context on a core (R101). -/
theorem stopRun_of_core (hrun : c.h.run ≠ 0) (haway : c.halt ≠ some .away) (hcore : c.core.isSome = true) :
    stopRun s slot = if haltWaits s slot then s.modCtx slot (fun c => { c with halt := some .stop })
      else haltWith slot cStop s := by
  simp only [stopRun, ctxAt_of_some hctx, if_neg hrun, hcore, if_true]

/-- RUN := 1 and 2 of a stopped context (R101). -/
theorem goRun_of_stopped (hrun : c.h.run = 0) (hending : c.ending = false) (v : BitVec 2) :
    goRun s slot v = awaitCore (resumeCtx slot v (if c.saved then s.setCtx slot { imagesIn s slot c with saved := true } else s))
      slot := by
  simp only [goRun, ctxAt_of_some hctx, if_pos hrun, hending, Bool.false_eq_true, if_false]

theorem goRun_of_ending (hrun : c.h.run = 0) (hending : c.ending = true) (v : BitVec 2) : goRun s slot v = s := by
  simp only [goRun, ctxAt_of_some hctx, if_pos hrun, hending, if_true]

theorem goRun_of_running (hrun : c.h.run ≠ 0) (v : BitVec 2) :
    goRun s slot v = if v = 2 then s.modCtx slot (fun c => { c with h := { c.h with run := 2 } }) else s := by
  simp only [goRun, ctxAt_of_some hctx, if_neg hrun]

/-- A halt is noted of a context that still runs alone. -/
theorem haltAsked_of_stopped (hrun : c.h.run = 0) (v : BitVec 2) : haltAsked s w slot v s = s := by
  simp only [haltAsked, ctxAt_of_some hctx, if_pos hrun]

end

/-- RUN_STOP (R101). -/
theorem exec_runStop {x : CmdArgs} {s : State} {c : Ctx} (hslot : x.num < 16384) (hctx : s.ctx? x.num = some c)
    (hopen : unlocked s x.by_ (frameWord x.num 0) 0) (hrun : c.h.run ≠ 0) (haway : c.halt ≠ some .away)
    (hcore : c.core.isSome = true) :
    exec (.runStop x) s = stored x.by_ (frameWord x.num 0) 0 (haltAsked s x.by_ x.num 0
      (if haltWaits s x.num then s.modCtx x.num (fun c => { c with halt := some .stop }) else haltWith x.num cStop s)) := by
  have hstore := (frameStore_run (w := x.by_) hctx 0).trans (congrArg Except.ok (runStore_stop s x.by_ x.num))
  rw [stopRun_of_core hctx hrun haway hcore] at hstore
  exact performStoreRow_frame hslot (by decide) hopen hstore

/-- The row of a store of 1 or 2 to RUN. -/
def runRow (x : CmdArgs) (v : BitVec 2) : Instr := if v = 1 then .runRun x else .runStep x

/-- What a store of 1 or 2 to RUN leaves, a step being noted with its storer. -/
def runNoted (s : State) (w : Who) (slot : Nat) (v : BitVec 2) (t : State) : State :=
  if v = 2 then haltAsked s w slot 2 t else t

/-- RUN_RUN and RUN_STEP (R101). -/
theorem exec_runRow {x : CmdArgs} {s : State} {c : Ctx} {v : BitVec 2} (hv : v = 1 ∨ v = 2) (hnum : x.num < 16384)
    (hctx : s.ctx? x.num = some c) (hopen : unlocked s x.by_ (frameWord x.num 0) (v.setWidth 64)) (hslot : x.num ≠ 0)
    (hbarred : runBarred s c.h.region = false) :
    exec (runRow x v) s =
      stored x.by_ (frameWord x.num 0) (v.setWidth 64) (runNoted s x.by_ x.num v (goRun s x.num v)) := by
  rw [← ctxAt_of_some hctx] at hbarred
  have hrow {t : State} (hstore : runStore s x.by_ x.num (v.setWidth 64) = t) :
      .next (performStoreRow s x.by_ (frameWord x.num 0) (v.setWidth 64)) = stored x.by_ (frameWord x.num 0) (v.setWidth 64) t :=
    performStoreRow_frame hnum (by decide) hopen ((frameStore_run hctx _).trans (congrArg Except.ok hstore))
  rcases hv with rfl | rfl
  · exact hrow (runStore_run hslot hbarred)
  · exact hrow (runStore_step hslot hbarred)

/-! ### COMMIT (R97) -/

/-- A context with the requests of a store to COMMIT noted. -/
def commitNoted (b : BitVec 3) (c : Ctx) : Ctx :=
  { c with h := { c.h with reqRoot := b.getLsbD 0, reqVl := b.getLsbD 1, reqAtp := b.getLsbD 2 } }

theorem commitPending_commitNoted {b : BitVec 3} (hb : b ≠ 0) (c : Ctx) : commitPending (commitNoted b c) = true := by
  have hsome : ∀ b : BitVec 3, b ≠ 0 → (b.getLsbD 0 || b.getLsbD 1 || b.getLsbD 2) = true := by decide
  exact hsome b hb

theorem commitStore_eq {s : State} {slot : Nat} {c : Ctx} {b : BitVec 3} (hctx : s.ctx? slot = some c) (hb : b ≠ 0) :
    commitStore s slot (b.setWidth 64) =
      if c.h.run = 0 then applyCommit (s.modCtx slot (commitNoted b)) slot else s.modCtx slot (commitNoted b) := by
  have hbit {i : Nat} (h : i < 64) : bit (b.setWidth 64) i = b.getLsbD i := by
    rw [bit, BitVec.getLsbD_setWidth, decide_eq_true h, Bool.true_and]
  have hnoted : (fun c : Ctx => { c with h := { c.h with
      reqRoot := bit (b.setWidth 64) 0, reqVl := bit (b.setWidth 64) 1, reqAtp := bit (b.setWidth 64) 2 } }) =
      commitNoted b := by
    rw [hbit (by decide), hbit (by decide), hbit (by decide)]
    rfl
  have hrun : (commitNoted b c).h.run = c.h.run := rfl
  simp only [commitStore, hnoted, State.ctxAt_modCtx_self, ctxAt_of_some hctx, commitPending_commitNoted hb, hrun, Bool.and_true,
    decide_eq_true_iff]

theorem frameStore_commit {s : State} {w : Who} {slot : Nat} {c : Ctx} (hctx : s.ctx? slot = some c)
    (hpending : commitPending c = false) (v : Word) : frameStore s w slot 0xC0 v = .ok (commitStore s slot v) := by
  have hshadow : shadowOffset 0xC0 = true := by decide
  simp only [frameStore, hctx, hshadow, hpending, Bool.false_eq_true, if_false, if_true, OfNat.ofNat_ne_zero]

/-- The rows of COMMIT. -/
theorem exec_commitRow {x : CmdArgs} {s : State} {c : Ctx} {b : BitVec 3} (hnum : x.num < 16384) (hctx : s.ctx? x.num = some c)
    (hpending : commitPending c = false) (hb : b ≠ 0)
    (hopen : unlocked s x.by_ (frameWord x.num 0xC0) (b.setWidth 64)) :
    .next (performStoreRow s x.by_ (frameWord x.num 0xC0) (b.setWidth 64)) =
      stored x.by_ (frameWord x.num 0xC0) (b.setWidth 64) (if c.h.run = 0
        then applyCommit (s.modCtx x.num (commitNoted b)) x.num else s.modCtx x.num (commitNoted b)) :=
  performStoreRow_frame hnum (by decide) hopen
    ((frameStore_commit hctx hpending _).trans (congrArg Except.ok (commitStore_eq hctx hb)))

/-! ### SSCFG (R301) -/

theorem frameStore_sscfg {s : State} {w : Who} {slot : Nat} {c : Ctx} (hctx : s.ctx? slot = some c) (hrun : c.h.run = 0)
    (v : Word) : frameStore s w slot 0x9F80 v = .ok (sscfgPut s slot v) := by
  have hshadow : shadowOffset 0x9F80 = false := by decide
  have hbusy : (busyOffset 0x9F80 && c.h.run != 0) = false := by rw [hrun]; decide
  simp only [frameStore, hctx, hshadow, hbusy, Bool.false_eq_true, if_false, if_true, OfNat.ofNat_ne_zero]

/-- The sideshow that SSCFG lays out. -/
def sideshowOf (v : Word) : Sideshow :=
  { base := field v 0 20, slots := field v 20 12, lp := field v 32 2, heads := Vector.replicate 8 0
    counts := Vector.replicate 8 0 }

theorem sscfgPut_eq {s : State} {slot : Nat} {c : Ctx} {v : Word} (hctx : s.ctx? slot = some c) :
    let n := field v 20 12 * 2 ^ field v 32 2
    let back := budgetGive s c.h.region 3 (c.ss.slots * 2 ^ c.ss.lp)
    field v 0 20 + 64 * n ≤ 2 ^ 20 → budgetRoom back c.h.region 3 n = true →
      sscfgPut s slot v = (budgetTake back c.h.region 3 n).modCtx slot (fun c => { c with ss := sideshowOf v }) := by
  intro n back hfits hroom
  have hgood : (decide (2 ^ 20 < field v 0 20 + 64 * n) || !budgetRoom back c.h.region 3 n) = false := by
    rw [decide_eq_false (Nat.not_lt.mpr hfits), hroom, Bool.not_true, Bool.or_self]
  simp only [sscfgPut, ctxAt_of_some hctx]
  exact if_neg (ne_true_of_eq_false hgood)

/-- Settles O51: the stores to RUN, to COMMIT and to SSCFG. -/
theorem storesToContextFrames : Obligations.StoresToContextFrames := by
  refine ⟨fun x s c hnum hctx => ⟨?stop, ?run⟩, fun i x b s c hrow hnum hctx hpending hopen => ?commit,
    fun x s c hnum hctx hrun hopen => ?sscfg⟩
  case stop => exact exec_runStop hnum hctx
  case run =>
    intro v hv hopen hslot hbarred i noted
    have hexec : exec i s = stored x.by_ (frameWord x.num 0) (v.setWidth 64) (noted (goRun s x.num v)) :=
      exec_runRow hv hnum hctx hopen hslot hbarred
    refine ⟨fun hrun hending => ?ending, fun hrun hending => ?stopped, fun hrun => ?running⟩
    case ending =>
      have hnoted : noted s = s := by
        rcases hv with rfl | rfl
        · rfl
        · exact haltAsked_of_stopped hctx hrun 2
      rw [hexec, goRun_of_ending hctx hrun hending, hnoted]
    case stopped => rw [hexec, goRun_of_stopped hctx hrun hending]
    case running => rw [hexec, goRun_of_running hctx hrun]
  case commit =>
    cases i <;> cases hrow
    · exact exec_commitRow (b := 1) hnum hctx hpending (by decide) hopen
    · exact exec_commitRow (b := 2) hnum hctx hpending (by decide) hopen
    · exact exec_commitRow (b := 4) hnum hctx hpending (by decide) hopen
  case sscfg =>
    intro base slots lp back ss hfits hroom
    exact performStoreRow_frame hnum (by decide) hopen
      ((frameStore_sscfg hctx hrun _).trans (congrArg Except.ok (sscfgPut_eq hctx hfits hroom)))

end Sys2Proof.Machine

/-! # Memory reads what was last written -/

namespace Sys2Proof.Machine

theorem memGet_memWrite_inside (m : Bytes) (a : Nat) {i : Nat} {bs : List Byte} (hi : i < bs.length) :
    memGet (memWrite m a bs) (a + i) = bs.getD i 0 := by
  induction bs generalizing m a i with
  | nil => simp at hi
  | cons b bs ih =>
    rw [memWrite]
    cases i with
    | zero =>
      show memGet (memWrite (memPut m a b) (a + 1) bs) a = b
      rw [memGet_memWrite_outside _ _ _ _ (.inl (Nat.lt_add_one a)), memGet_memPut_self]
    | succ i =>
      rw [List.getD_cons_succ, ← ih (memPut m a b) (a + 1) (Nat.lt_of_succ_lt_succ hi), Nat.add_assoc, Nat.add_comm 1]

/-- Settles O9, by induction on the bytes written. -/
theorem memoryReadsWhatWasWritten : Obligations.MemoryReadsWhatWasWritten :=
  fun m a bs w => ⟨memWrite_wf a bs w, fun _ hi => memGet_memWrite_inside m a hi,
    fun b hb => memGet_memWrite_outside m a b bs hb⟩

end Sys2Proof.Machine

/-! # Every step keeps memory in its canonical form

Memory changes only where bytes are written, copied or erased, and those operations keep the form (Laws/Memory). What is left is
a walk over the functions that a step calls, in the order of the model: one lemma for each, named `_wf` for a function of states
and `_keeps` for a meaning, proved from the lemmas of what it calls. A branch, a `let` of a pair and a
fold each have a lemma of their own (`memOk_ite`, `memOk_of_fst`, `foldl_wf`), so most proofs name what is called and nothing
else. -/

namespace Sys2Proof.Machine

/-! ### Meanings, outcomes and the form -/

/-- The state that a run of a meaning leaves. -/
def endState {α : Type} (r : EStateM.Result Stop State α) : State := match r with
  | .ok _ s => s
  | .error _ s => s

/-- A meaning that keeps the canonical form of memory, whether it completes, traps or waits. -/
def Keeps {α : Type} (m : M α) : Prop := ∀ s, s.memOk → (endState (m s)).memOk

namespace Keeps

theorem pure {α : Type} (a : α) : Keeps (pure a : M α) := fun _ w => w

theorem throw {α : Type} (e : Stop) : Keeps (throw e : M α) := fun _ w => w

theorem waits {α : Type} : Keeps (waits : M α) := fun _ w => w

theorem trapD {α : Type} (cause : BitVec 16) (d0 d1 : Word) : Keeps (trapD cause d0 d1 : M α) := fun _ w => w

theorem getCur : Keeps getCur := fun _ w => w

theorem modifyCur (f : Ctx → Ctx) : Keeps (modifyCur f) := fun _ w => w

theorem set {t : State} (h : t.memOk) : Keeps (set t : M PUnit) := fun _ _ => h

theorem modify {f : State → State} (h : ∀ s, s.memOk → (f s).memOk) : Keeps (modify f : M PUnit) := fun s w => h s w

theorem bind {α β : Type} {m : M α} {f : α → M β} (h : Keeps m) (g : ∀ a, Keeps (f a)) : Keeps (m >>= f) := by
  intro s w
  have := h s w
  rw [run_bind]
  cases hm : m s with
  | ok a t => rw [hm] at this; exact g a t this
  | error e t => rw [hm] at this; exact this

theorem get_bind {β : Type} {f : State → M β} (g : ∀ s, s.memOk → Keeps (f s)) : Keeps (get >>= f) := fun s w => g s w s w

theorem ite {α : Type} {c : Prop} [Decidable c] {m n : M α} (hm : Keeps m) (hn : Keeps n) : Keeps (if c then m else n) := by
  split
  · exact hm
  · exact hn

theorem trapD_bind {α β : Type} (cause : BitVec 16) (d0 d1 : Word) (f : α → M β) : Keeps (Machine.trapD cause d0 d1 >>= f) :=
  fun _ w => w

theorem waits_bind {α β : Type} (f : α → M β) : Keeps (Machine.waits >>= f) := fun _ w => w

theorem throw_bind {α β : Type} (e : Stop) (f : α → M β) : Keeps (MonadExcept.throw e >>= f) := fun _ w => w

theorem mapM {α β : Type} {f : α → M β} (h : ∀ a, Keeps (f a)) (l : List α) : Keeps (l.mapM f) := by
  induction l with
  | nil => exact pure []
  | cons a l ih => rw [List.mapM_cons]; exact bind (h a) fun _ => bind ih fun _ => pure _

theorem forM {α : Type} {f : α → M PUnit} (h : ∀ a, Keeps (f a)) (l : List α) : Keeps (l.forM f) := by
  induction l with
  | nil => exact pure _
  | cons a l ih => exact bind (h a) fun _ => ih

end Keeps

theorem memOk_ite {c : Prop} [Decidable c] {s t : State} (hs : s.memOk) (ht : t.memOk) : (if c then s else t).memOk := by
  split
  · exact hs
  · exact ht

/-- What a step answers, where it is a state, has memory in the canonical form. -/
def NextOk (o : Out) : Prop := ∀ t, o = .next t → t.memOk

theorem nextOk_next {t : State} (w : t.memOk) : NextOk (.next t) := by
  intro u h; cases h; exact w

theorem nextOk_ite {c : Prop} [Decidable c] {a b : Out} (ha : NextOk a) (hb : NextOk b) : NextOk (if c then a else b) := by
  split
  · exact ha
  · exact hb

theorem snd_wf_ite {α : Type} {c : Prop} [Decidable c] {a b : α × State} (ha : a.2.memOk) (hb : b.2.memOk) :
    (if c then a else b).2.memOk := by
  split
  · exact ha
  · exact hb

theorem memOk_of_fst {β : Type} {p : State × β} {s : State} {b : β} (h : p = (s, b)) (w : p.1.memOk) : s.memOk := by
  rw [h] at w
  exact w

theorem memOk_of_snd {α : Type} {p : α × State} {a : α} {s : State} (h : p = (a, s)) (w : p.2.memOk) : s.memOk := by
  rw [h] at w
  exact w

theorem runThread_wf (m : M Unit) (s : State) (h : Keeps m) (hs : s.memOk) : NextOk (runThread m s) := by
  have := h s hs
  unfold runThread
  cases hm : m s with
  | ok a t => rw [hm] at this; exact nextOk_next this
  | error e t =>
    rw [hm] at this
    cases e with
    | trap x => exact nextOk_next (takeTrap_wf _ _ _ this)
    | wait => exact nextOk_next this

theorem guarded_keeps (md : Mods) (m : M Unit) (h : Keeps m) : Keeps (guarded md m) :=
  Keeps.bind Keeps.getCur fun _ => Keeps.ite h (Keeps.modifyCur _)

theorem scalarStep_wf (md : Mods) (m : M Unit) (s : State) (h : Keeps m) (hs : s.memOk) : NextOk (scalarStep md m s) :=
  runThread_wf _ _ (guarded_keeps md m h) hs
/-! ### Lines, caches and the package point (R114 to R116) -/

theorem setSide_wf (s : State) (l : Nat) (x : SideLine) (hs : s.memOk) : (State.setSide s l x).memOk := hs

theorem evictSide_wf (s : State) (l : Nat) (hs : s.memOk) : (evictSide s l).memOk := memOk_ite (setSide_wf _ _ _ hs) hs

theorem State.setRec_wf (s : State) (pa : Nat) (r : RecState) (hs : s.memOk) : (State.setRec s pa r).memOk := hs

theorem pkgPut_wf (s : State) (pa : Nat) (w : Word) (hs : s.memOk) : (pkgPut s pa w).memOk := pkgStore_wf _ _ _ _ hs

/-! ### Budgets -/

theorem chargeFor_wf (s : State) (a : Fin 6) (r n : Nat) (hs : s.memOk) : (chargeFor s a r n).memOk := hs

/-! ### Tile loads -/

theorem tileGranule_wf (s : State) (slot i : Nat) (hs : s.memOk) : (tileGranule s slot i).memOk := by
  unfold tileGranule
  dsimp only
  split
  · exact memOk_ite hs hs
  · exact hs

/-! ### Translation (R392 to R404) -/

theorem fst_wf_ite {β : Type} {c : Prop} [Decidable c] {a b : State × β} (ha : a.1.memOk) (hb : b.1.memOk) :
    (if c then a else b).1.memOk := by
  split
  · exact ha
  · exact hb

theorem evict2All_wf (ds : List Nat) (l : Nat) (s : State) (hs : s.memOk) : (ds.foldl (fun s d => evict2 s d l) s).memOk :=
  foldl_wf _ (fun s d w => evict2_wf s d l w) _ _ hs

theorem setAd_wf (s : State) (ea pte : Nat) (p : Perm) (hs : s.memOk) : (setAd s ea pte p).1.memOk := by
  unfold setAd
  split
  · exact hs
  · exact fst_wf_ite hs (memOk_of_eq (touch_mem _ _) (pkgMerge_wf _ _ _ _ _ _ (evict2All_wf _ _ s hs)))

theorem walk_wf {g : Bool} {root a wtop : Nat} {tbl : State → Nat → State × Except XFault Nat} {p : Perm}
    (ht : ∀ s a, s.memOk → (tbl s a).1.memOk) (lv : Nat) : ∀ (s : State) (t : Nat), s.memOk →
    (walk g root tbl a wtop p lv s t).1.memOk := by
  induction lv with
  | zero => exact fun s t w => w
  | succ lv ih =>
    intro s t w
    have hh := ht s (t + 8 * natField a (12 + 9 * lv) (if lv = 4 then wtop else 9)) w
    unfold walk
    dsimp only
    generalize tbl s _ = r at hh ⊢
    obtain ⟨s, f | ea⟩ := r
    · exact hh
    · exact fst_wf_ite hh (fst_wf_ite hh (fst_wf_ite hh (fst_wf_ite hh (fst_wf_ite hh (fst_wf_ite (fst_wf_ite hh (ih _ _ hh))
        (fst_wf_ite hh (fst_wf_ite hh (fst_wf_ite hh (fst_wf_ite hh (setAd_wf _ _ _ _ hh))))))))))

theorem tblPhys_wf (s : State) (a : Nat) (hs : s.memOk) : (tblPhys s a).1.memOk := hs

theorem gtrans_wf (root : Nat) (rt : Root) (p : Perm) (s : State) (gpa : Nat) (hs : s.memOk) :
    (gtrans root rt p s gpa).1.memOk := fst_wf_ite hs (walk_wf (fun _ _ w => tblPhys_wf _ _ w) _ _ _ hs)

theorem tblGuest_wf (root : Nat) (rt : Root) (s : State) (a : Nat) (hs : s.memOk) : (tblGuest root rt s a).1.memOk := by
  unfold tblGuest
  split
  · next h => exact memOk_of_fst h (gtrans_wf _ _ _ _ _ hs)
  · next h => exact memOk_of_fst h (gtrans_wf _ _ _ _ _ hs)

theorem tlbKeep_wf (s : State) (agent : Nat) (t : Tlb) (hs : s.memOk) : (tlbKeep s agent t).memOk := hs

theorem postRequests_wf (part n : Nat) (s : State) (hs : s.memOk) : (postRequests part n s).memOk := by
  induction n generalizing s with
  | zero => exact hs
  | succ n ih => grind [postRequests, pkgStoreAll_wf, touch_mem, State.modRoot_mem]

theorem makeRequest_wf (s : State) (x : Xer) (rt : Root) (va : Nat) (p : Perm) (f : XFault) (hs : s.memOk) :
    (makeRequest s x rt va p f).1.memOk := by
  unfold makeRequest
  dsimp only
  split
  · exact hs
  · exact fst_wf_ite hs (postRequests_wf _ _ _ hs)

theorem settleLeaf_wf (s : State) (x : Xer) (pa : Nat) (held : Tlb) (p : Perm) (hs : s.memOk) :
    (settleLeaf s x pa held p).1.memOk := by
  unfold settleLeaf
  split
  · exact hs
  · exact (memOk_ite hs hs : (if p = .none then s else { tlbKeep s x.agent held with code := held.skew }).memOk)

theorem walkFor_wf (s : State) (x : Xer) (va : Nat) (p : Perm) (hs : s.memOk) : (walkFor s x va p).1.memOk := by
  unfold walkFor
  dsimp only
  split
  · exact hs
  · refine fst_wf_ite (fst_wf_ite hs hs) ?_
    split
    · exact hs
    · refine fst_wf_ite hs (fst_wf_ite hs (fst_wf_ite ?_ ?_))
      · split
        · next h => exact memOk_of_fst h (walk_wf (fun _ _ w => tblGuest_wf _ _ _ _ w) _ _ _ hs)
        · next h =>
            split
            · next h' => exact memOk_of_fst h' (gtrans_wf _ _ _ _ _ (memOk_of_fst h (walk_wf (fun _ _ w =>
                tblGuest_wf _ _ _ _ w) _ _ _ hs)))
            · next h' => exact settleLeaf_wf _ _ _ _ _ (memOk_of_fst h' (gtrans_wf _ _ _ _ _ (memOk_of_fst h (walk_wf
                (fun _ _ w => tblGuest_wf _ _ _ _ w) _ _ _ hs))))
      · split
        · next h => exact memOk_of_fst h (walk_wf (fun _ _ w => tblPhys_wf _ _ w) _ _ _ hs)
        · next h => exact settleLeaf_wf _ _ _ _ _ (memOk_of_fst h (walk_wf (fun _ _ w => tblPhys_wf _ _ w) _ _ _ hs))

theorem reportMiss_wf (s : State) (x : Xer) (va : Nat) (p : Perm) (f : XFault) (hs : s.memOk) :
    (reportMiss s x va p f).1.memOk := by
  unfold reportMiss
  split
  · exact makeRequest_wf _ _ _ _ _ _ hs
  · exact hs

theorem translate_wf (s : State) (x : Xer) (va : Nat) (p : Perm) (hs : s.memOk) : (translate s x va p).1.memOk := by
  have walked := walkFor_wf s x va p hs
  unfold translate
  split
  · next h => exact reportMiss_wf _ _ _ _ _ (memOk_of_fst h walked)
  · exact walked

theorem tlbDrop_wf (s : State) (core : Nat) (sc : Scope) (k : TfKind) (a b : Word) (hs : s.memOk) :
    (tlbDrop s core sc k a b).memOk := hs

/-! ### Values and operands -/

theorem consumeG_keeps (n : GReg) : Keeps (consumeG n) :=
  Keeps.bind Keeps.getCur fun _ => Keeps.ite (Keeps.throw _) (Keeps.pure _)

theorem freeVal_keeps : Keeps freeVal := Keeps.get_bind fun _ w => Keeps.bind (Keeps.set w) fun _ => Keeps.pure _

theorem drainFor_wf (s : State) (k : Nat) (p : Party) (asked : Access → Bool) (hs : s.memOk) :
    (drainFor s k p asked).memOk := memOk_ite hs (drainSome_wf _ _ _ _ hs)

theorem haltWith_wf (slot : Nat) (cause : BitVec 16) (s : State) (hs : s.memOk) : (haltWith slot cause s).memOk :=
  memOk_of_eq (State.modCtx_mem _ _ _) (haltStep_wf _ _ hs)

theorem resumeCtx_wf (slot : Nat) (run : BitVec 2) (s : State) (hs : s.memOk) : (resumeCtx slot run s).memOk :=
  memOk_ite hs (memOk_of_eq (laneRegrant_mem _ _) hs)

theorem wakeCtx_wf (slot : Nat) (s : State) (hs : s.memOk) : (wakeCtx slot s).memOk := memOk_of_eq (laneRegrant_mem _ _) hs

theorem advance_keeps (md : Mods) : Keeps (advance md) := Keeps.modifyCur _

theorem afterTranslate_keeps (pa size : Nat) (sources : Bool) (sc : optParam Scope Scope.core) :
    Keeps (afterTranslate pa size sources sc) :=
  Keeps.get_bind fun _ _ => Keeps.ite Keeps.waits (Keeps.ite (Keeps.pure _) (Keeps.ite (Keeps.pure _) (Keeps.ite
    (Keeps.pure _) (Keeps.ite (Keeps.pure _) (Keeps.pure _)))))

theorem capAccessS_keeps (cap : Cap) (off : Int) (size : Nat) (p : CapPerm) (tp : Perm) (sources : Bool) (sc : Scope) :
    Keeps (capAccessS cap off size p tp sources sc) := by
  unfold capAccessS
  dsimp only
  split
  · exact Keeps.pure _
  · refine Keeps.get_bind fun s w => Keeps.bind (Keeps.set (translate_wf _ _ _ _ w)) fun _ => ?_
    split
    · exact Keeps.pure _
    · grind [afterTranslate_keeps, Keeps.bind, Keeps.pure]

theorem capAccess_keeps (cap : Cap) (off : Int) (size : Nat) (p : CapPerm) (tp : Perm) (sc : optParam Scope Scope.core) :
    Keeps (capAccess cap off size p tp sc) := capAccessS_keeps _ _ _ _ _ _ _

theorem ctlCheck_keeps (cap : Cap) (off : Int) (size : Nat) (p : CapPerm) (tp : Perm) (sc : optParam Scope Scope.core) :
    Keeps (ctlCheck cap off size p tp sc) := by
  refine Keeps.bind (capAccess_keeps _ _ _ _ _ _) fun _ => ?_
  split
  · exact Keeps.pure _
  · exact Keeps.ite (Keeps.pure _) (Keeps.pure _)

theorem accTrap_keeps {α : Type} (f : AccFault) (capNo : Nat) : Keeps (accTrap f capNo : M α) := Keeps.trapD _ _ _

theorem orTrap_keeps (r : Except AccFault Nat) (capNo : Nat) : Keeps (orTrap r capNo) := by
  unfold orTrap
  split
  · exact Keeps.pure _
  · exact accTrap_keeps _ _

theorem parkIfSpec_keeps : Keeps parkIfSpec :=
  Keeps.bind Keeps.getCur fun _ => Keeps.ite (Keeps.bind (Keeps.modify fun _ w => restLanes_wf _ _ (memOk_of_eq
    (State.modCur_mem _ _) w)) fun _ => Keeps.waits) (Keeps.pure _)

theorem drainParty_keeps (p : Party) : Keeps (drainParty p) :=
  Keeps.bind (Keeps.modify fun _ w => drain_wf _ _ _ w) fun _ => Keeps.get_bind fun _ _ => Keeps.ite
    (Keeps.pure _) Keeps.waits

theorem releaseOwn_keeps (sc : Scope) : Keeps (releaseOwn sc) :=
  Keeps.get_bind fun _ _ => Keeps.bind (drainParty_keeps _) fun _ => Keeps.modify fun _ w' => release_wf _ _ _ w'

theorem waitVector_keeps : Keeps waitVector :=
  Keeps.bind Keeps.getCur fun _ => Keeps.ite (Keeps.pure _) (Keeps.ite Keeps.waits (Keeps.bind
    (drainParty_keeps _) fun _ => Keeps.bind Keeps.getCur fun _ => Keeps.ite (Keeps.pure _) Keeps.waits))

theorem quiet_keeps : Keeps quiet :=
  Keeps.bind (drainParty_keeps _) fun _ => Keeps.bind (drainParty_keeps _) fun _ => Keeps.bind
    (drainParty_keeps _) fun _ => drainParty_keeps _

/-! ### Context frames -/

theorem frameStoreWord_wf (s : State) (slot : Nat) (c : Ctx) (o : Nat) (v : Word) (hs : s.memOk) :
    (frameStoreWord s slot c o v).memOk := by
  refine memOk_ite (pkgPut_wf _ _ _ (memOk_of_eq (State.setCtx_mem _ _ _) hs)) (memOk_ite (foldl_wf _ (fun _ _ w =>
    ?_) _ _ (memOk_of_eq (State.setCtx_mem _ _ _) hs)) (memOk_of_eq (State.setCtx_mem _ _ _) hs))
  split
  · exact memOk_ite (pkgStore_wf _ _ _ _ w) w
  · exact w

theorem frameStoreCap_wf (s : State) (slot : Nat) (c : Ctx) (o : Nat) (w : CapWord) (x : Cap) (hs : s.memOk) :
    (frameStoreCap s slot c o w x).memOk :=
  memOk_ite (pkgStore_wf _ _ _ _ (memOk_of_eq (State.setCtx_mem _ _ _) hs)) (memOk_of_eq (State.setCtx_mem _ _ _) hs)

theorem withTags_wf {s : State} (g : List Nat) (w : s.memOk) : ({ s with tags := g } : State).memOk := w

theorem imagesOut_wf (s : State) (slot : Nat) (hs : s.memOk) : (imagesOut s slot).memOk := by
  unfold imagesOut
  exact memOk_of_eq (State.setCtx_mem _ _ _) (withTags_wf _ (bulkStore_wf _ _ _ _ hs))

theorem imagesBorn_wf (s : State) (slot : Nat) (hs : s.memOk) : (imagesBorn s slot).memOk :=
  memOk_ite (bulkStore_wf _ _ _ _ (imagesOut_wf _ _ hs)) hs

/-! ### Fetching and boundaries -/

theorem fetchLine_wf (s : State) (k l : Nat) (hs : s.memOk) : (fetchLine s k l).1.memOk := by
  unfold fetchLine
  split
  · exact hs
  · exact memOk_of_eq (State.modCore_mem _ _ _) (memOk_ite hs (sideFill_wf _ _ _ hs))

theorem fetchAhead_wf (s : State) (k l : Nat) (hs : s.memOk) : (fetchAhead s k l).memOk := by
  unfold fetchAhead
  split
  · exact hs
  · exact hs

theorem fetchTrap_keeps {α : Type} (va : Word) (cause : BitVec 16) (hi : Word) : Keeps (fetchTrap va cause hi : M α) :=
  Keeps.trapD _ _ _

theorem fetchWord_keeps (va : Word) : Keeps (fetchWord va) := by
  unfold fetchWord
  refine Keeps.get_bind fun s w => ?_
  dsimp only
  split
  · exact fetchTrap_keeps _ _ _
  · refine Keeps.bind (Keeps.set (translate_wf _ _ _ _ w)) fun _ => ?_
    split
    · exact fetchTrap_keeps _ _ _
    · grind [afterTranslate_keeps, fetchTrap_keeps, fetchLine_wf, Keeps.bind, Keeps.get_bind, Keeps.set, Keeps.pure]

theorem fetchWords_keeps (n : Nat) : ∀ va : Word, Keeps (fetchWords va n) := by
  induction n with
  | zero => exact fun _ => Keeps.pure _
  | succ n ih => exact fun va => Keeps.bind (fetchWord_keeps va) fun _ => Keeps.bind (ih _) fun _ => Keeps.pure _

theorem fetchInstr_keeps (va : Word) : Keeps (fetchInstr va) :=
  Keeps.bind (fetchWord_keeps va) fun _ => Keeps.bind (fetchWords_keeps _ _) fun _ => Keeps.pure _

theorem namePc_keeps {α : Type} (va : Word) (m : M α) (h : Keeps m) : Keeps (namePc va m) := by
  intro s w
  have g := h s w
  unfold namePc
  split
  · next hm => rw [hm] at g; exact g
  · exact g

theorem fetchBody_keeps (n : Nat) : ∀ va : Word, Keeps (fetchBody va n) := by
  induction n with
  | zero => exact fun _ => Keeps.pure _
  | succ n ih =>
    intro va
    refine Keeps.bind (namePc_keeps _ _ ?_) fun ws => Keeps.bind (ih _) fun _ => Keeps.pure _
    grind [fetchInstr_keeps, Keeps.bind, Keeps.trapD, Keeps.pure]

theorem carouselReload_keeps : Keeps carouselReload := by
  refine Keeps.bind Keeps.getCur fun _ => Keeps.ite (Keeps.bind (fetchBody_keeps _ _) fun _ => ?_) (Keeps.pure _)
  split
  · exact namePc_keeps _ _ (Keeps.trapD _ _ _)
  · exact Keeps.modifyCur _

theorem withRegs_wf (gs : List GReg) (cs : List CReg) (s : State) (hs : s.memOk) : ∀ t ∈ (withRegs gs cs s), t.memOk := by
  intro t h
  have drained := drainFor_wf s s.core .control (destIn gs cs) hs
  unfold withRegs at h
  dsimp only at h
  split at h
  · split at h
    · cases h
    · cases h; exact drained
  · cases h; exact hs

theorem ready_wf (i : Instr) (s : State) (hs : s.memOk) : ∀ t ∈ (ready i s), t.memOk := by
  unfold ready
  split
  · exact withRegs_wf _ _ _ hs
  · exact withRegs_wf _ _ _ hs

theorem nextWords_keeps : Keeps nextWords := by
  have pick : ∀ u : Unit, Keeps ((fun _ => do
      let c ← getCur
      let ws := c.car.buffer.getD c.car.pos []
      if flagsAllow c.car ws then return some ws
      else
        modifyCur carouselNext
        return none : Unit → M (Option (List Word32))) u) := by
    grind [Keeps.bind, Keeps.getCur, Keeps.pure, Keeps.modifyCur]
  unfold nextWords
  refine Keeps.bind Keeps.getCur fun c => Keeps.ite ?_ ?_
  · refine Keeps.bind carouselReload_keeps fun _ => Keeps.bind Keeps.getCur fun c => Keeps.ite ?_ (pick ())
    refine Keeps.get_bind fun s w => ?_
    have h := withRegs_wf (nestRegs c) [] s w
    split
    · exact Keeps.bind (Keeps.set (h _ ‹_›)) pick
    · exact Keeps.waits_bind _
  · exact Keeps.ite (Keeps.trapD_bind _ _ _ _) (Keeps.bind (fetchInstr_keeps _) fun _ => Keeps.pure _)

theorem withFirstAcq_wf (s : State) (hs : s.memOk) : (withFirstAcq s).memOk := by
  unfold withFirstAcq
  split
  · exact memOk_of_eq (State.modCur_mem _ _) (acquire_wf _ _ _ hs)
  · exact hs

theorem modCtx_wf_ite {c : Prop} [Decidable c] {s : State} (slot : Nat) (f : Ctx → Ctx) (hs : s.memOk) :
    (if c then s.modCtx slot f else s).memOk := by
  split
  · exact hs
  · exact hs

theorem afterThread_wf (slot : Nat) (pc : Word) (wasRun : BitVec 2) (i : Instr) (s : State) (hs : s.memOk) :
    (afterThread slot pc wasRun i s).memOk := by
  refine modCtx_wf_ite _ _ (modCtx_wf_ite _ _ (modCtx_wf_ite _ _ ?_))
  grind [State.modCtx_mem, State.modCore_mem]

/-! ### Operands -/

theorem consumeAll_keeps (ns : List GReg) : Keeps (consumeAll ns) := by
  induction ns with
  | nil => exact Keeps.pure _
  | cons n ns ih => exact Keeps.bind (consumeG_keeps n) fun _ => ih

theorem consumeB_keeps (b : GReg) (lit : Option Word) : Keeps (consumeB b lit) := by
  unfold consumeB
  split
  · exact Keeps.pure _
  · exact consumeG_keeps b

/-! ### Accesses of a thread -/

theorem dropEarly_wf (s : State) (rs : List (Nat × Nat)) (hs : s.memOk) : (dropEarly s rs).memOk := memOk_ite hs hs

theorem enqueue_keeps (a : Access) : Keeps (enqueue a) :=
  Keeps.modify fun _ w => dropEarly_wf _ _ (memOk_of_eq (modPq_mem _ _ _ _) w)

theorem ownRanges_keeps (rs : List (Nat × Nat)) : Keeps (ownRanges rs) :=
  Keeps.bind (Keeps.modify fun _ w => dropEarly_wf _ _ (drainFor_wf _ _ _ _ w)) fun _ => Keeps.get_bind fun _ _ =>
    Keeps.ite Keeps.waits (Keeps.pure _)

theorem ownFirst_keeps (pa n : Nat) : Keeps (ownFirst pa n) := ownRanges_keeps _

theorem needRoomAll_keeps (rs : List (Nat × Nat)) : Keeps (needRoomAll rs) := by
  refine Keeps.get_bind fun _ w => ?_
  split
  · exact Keeps.ite parkIfSpec_keeps (Keeps.pure _)
  · exact Keeps.pure _

theorem needRoom_keeps (pa n : Nat) : Keeps (needRoom pa n) := needRoomAll_keeps _

theorem storeMem_keeps (pa : Nat) (bs : List Byte) (sc : Scope) (hint : Nat) : Keeps (storeMem pa bs sc hint) :=
  Keeps.bind (needRoom_keeps _ _) fun _ => Keeps.bind (ownFirst_keeps _ _) fun _ => Keeps.modify fun _ w =>
    ctxStore_wf _ _ _ _ _ _ w

theorem loadMem_keeps (pa n : Nat) (sc : Scope) (hint : Nat) : Keeps (loadMem pa n sc hint) :=
  Keeps.bind (ownFirst_keeps _ _) fun _ => Keeps.get_bind fun _ w => Keeps.bind (Keeps.set (ctxLoad_wf _ _ _ _ _ _ w))
    fun _ => Keeps.pure _

theorem issueStore_keeps (v : Word) (pa n : Nat) (sc : Scope) (hint : Nat) : Keeps (issueStore v pa n sc hint) :=
  Keeps.get_bind fun _ _ => Keeps.ite (Keeps.bind (needRoom_keeps _ _) fun _ => enqueue_keeps _) (storeMem_keeps _ _ _ _)

theorem ctlRelease_keeps : Keeps ctlRelease := releaseOwn_keeps _

theorem forgetEarly_wf (s : State) (hs : s.memOk) : (forgetEarly s).memOk := memOk_ite hs hs

theorem ctlAcquire_keeps : Keeps ctlAcquire := Keeps.modify fun _ w => acquire_wf _ _ _ (forgetEarly_wf _ w)

theorem ctlLoad_keeps (pa : Nat) (va : Word) (capNo : Nat) : Keeps (ctlLoad pa va capNo) := by
  refine Keeps.get_bind fun s _ => ?_
  have tail : Keeps (do
      ctlRelease
      let s ← get
      let v := ctlRead s (.thread s.slot) pa
      ctlAcquire
      return v : M Word) :=
    Keeps.bind ctlRelease_keeps fun _ => Keeps.get_bind fun _ _ => Keeps.bind ctlAcquire_keeps fun _ => Keeps.pure _
  split
  · exact Keeps.bind (Keeps.trapD _ _ _) fun _ => tail
  · exact tail

theorem spillCheck_keeps (va : Word) (p : CapPerm) (tp : Perm) : Keeps (spillCheck va p tp) := by
  refine Keeps.bind Keeps.getCur fun _ => Keeps.bind (capAccess_keeps _ _ _ _ _ _) fun _ => ?_
  split
  · exact Keeps.trapD _ _ _
  · exact Keeps.ite (Keeps.trapD _ _ _) (Keeps.ite (Keeps.trapD _ _ _) (Keeps.pure _))

theorem rasPush_keeps (ra : Word) : Keeps (rasPush ra) :=
  Keeps.bind Keeps.getCur fun _ => Keeps.ite (Keeps.modifyCur _) (Keeps.ite (Keeps.trapD_bind _ _ _ _) (Keeps.bind
    (spillCheck_keeps _ _ _) fun _ => Keeps.bind (issueStore_keeps _ _ _ _ _) fun _ => Keeps.modifyCur _))

theorem rasPopAfter_keeps (k : Nat) : Keeps (rasPopAfter k) := by
  refine Keeps.bind Keeps.getCur fun _ => ?_
  split
  · exact Keeps.trapD _ _ _
  · exact Keeps.pure _
  · exact Keeps.ite (Keeps.trapD_bind _ _ _ _) (Keeps.bind (spillCheck_keeps _ _ _) fun _ => Keeps.bind
      (loadMem_keeps _ _ _ _) fun _ => Keeps.pure _)

theorem noteLast_keeps (l : Option SpinLoad) : Keeps (noteLast l) := Keeps.modifyCur _

theorem noteSpin_keeps (l : SpinLoad) : Keeps (noteSpin l) := noteLast_keeps _

theorem noteSpinFault_keeps : Keeps noteSpinFault := noteLast_keeps _

theorem takeEarly_keeps (a : CReg) (c : GReg) (pa size : Nat) (sc : Scope) : Keeps (takeEarly a c pa size sc) := by
  refine Keeps.get_bind fun _ w => ?_
  dsimp only
  split
  · exact Keeps.pure _
  · exact Keeps.bind (Keeps.set (memOk_of_eq (State.modCore_mem _ _ _) w)) fun _ => Keeps.pure _

theorem loadCapMem_keeps (pa : Nat) (sc : Scope) (hint : Nat) : Keeps (loadCapMem pa sc hint) :=
  Keeps.bind (ownFirst_keeps _ _) fun _ => Keeps.get_bind fun _ w =>
    Keeps.bind (Keeps.set (loadPiece_wf _ _ _ _ _ _ _ w)) fun _ => Keeps.pure _

theorem storeCapMem_keeps (pa : Nat) (c : Cap) (sc : Scope) (hint : Nat) : Keeps (storeCapMem pa c sc hint) :=
  Keeps.bind (needRoom_keeps _ _) fun _ => Keeps.get_bind fun _ _ => Keeps.ite (enqueue_keeps _) (Keeps.bind
    (ownFirst_keeps _ _) fun _ => Keeps.modify fun _ w' => capPut_wf _ _ _ _ _ _ w')

/-! ### Turns -/

theorem raiseFor_wf (slot : Nat) (t : Trap) (s : State) (hs : s.memOk) : (raiseFor slot t s).memOk := hs

/-! ### The vector queue -/

theorem pushEntry_keeps (i : Instr) (md : Mods) (g : Option GReg) (cap : Option CReg) : Keeps (pushEntry i md g cap) := by
  refine Keeps.bind Keeps.getCur fun _ => ?_
  dsimp only
  split
  · exact Keeps.ite (Keeps.bind (Keeps.pure _) fun _ => Keeps.ite (Keeps.waits_bind _) (Keeps.modifyCur _)) (Keeps.bind
      (consumeG_keeps _) fun _ => Keeps.ite (Keeps.waits_bind _) (Keeps.modifyCur _))
  · exact Keeps.bind (Keeps.pure _) fun _ => Keeps.ite (Keeps.waits_bind _) (Keeps.modifyCur _)

theorem passEntry_wf (s : State) (hs : s.memOk) : (passEntry s).memOk := memOk_ite hs (memOk_of_eq (retire_mem _ _ _) hs)

theorem commitEntry_wf (eff : M Unit) (s : State) (h : Keeps eff) (hs : s.memOk) : (commitEntry eff s).memOk := by
  have g := h s hs
  unfold commitEntry
  split
  · next hm => rw [hm] at g; exact passEntry_wf _ g
  · next hm => rw [hm] at g; exact raiseFor_wf _ _ _ g
  · next hm => rw [hm] at g; exact g

theorem vectorStep_wf (i : Instr) (md : Mods) (g : Option GReg) (cap : Option CReg) (eff : M Unit) (s : State)
    (h : Keeps eff) (hs : s.memOk) : NextOk (vectorStep i md g cap eff s) := by
  unfold vectorStep
  split
  · exact nextOk_next (commitEntry_wf _ _ h hs)
  · exact runThread_wf _ _ (pushEntry_keeps _ _ _ _) hs

theorem capturedG_keeps : Keeps capturedG := Keeps.bind Keeps.getCur fun _ => Keeps.pure _

theorem capturedC_keeps : Keeps capturedC := Keeps.bind Keeps.getCur fun _ => Keeps.pure _

theorem entryAddr_keeps : Keeps entryAddr := Keeps.bind Keeps.getCur fun _ => Keeps.pure _

/-! ### Loads, stores and AMOs of the control thread -/

theorem gotBytes_keeps (x : LdArgs) (pa size : Nat) (sc : Scope) (bs : List Byte) : Keeps (gotBytes x pa size sc bs) :=
  Keeps.bind (noteSpin_keeps _) fun _ => Keeps.modifyCur _

theorem loadInto_keeps (x : LdArgs) (pa size : Nat) (va : Word) (sc : Scope) : Keeps (loadInto x pa size va sc) := by
  refine Keeps.ite (Keeps.bind (ctlLoad_keeps _ _ _) fun _ => Keeps.bind (noteSpin_keeps _) fun _ => Keeps.modifyCur _)
    (Keeps.bind (takeEarly_keeps _ _ _ _ _) fun _ => ?_)
  split
  · exact gotBytes_keeps _ _ _ _ _
  · exact Keeps.get_bind fun _ _ => Keeps.bind Keeps.getCur fun _ => Keeps.ite (Keeps.bind (noteSpin_keeps _) fun _ =>
      enqueue_keeps _) (Keeps.bind (loadMem_keeps _ _ _ _) fun _ => gotBytes_keeps _ _ _ _ _)

theorem poisonLoad_keeps (d : GReg) (o : Word × BitVec 16) : Keeps (poisonLoad d o) :=
  Keeps.bind noteSpinFault_keeps fun _ => Keeps.modifyCur _

theorem ldBody_keeps (x : LdArgs) : Keeps (ldBody x) := by
  refine Keeps.bind Keeps.getCur fun _ => Keeps.ite (Keeps.bind (poisonLoad_keeps _ _) fun _ => advance_keeps _)
    (Keeps.bind (ctlCheck_keeps _ _ _ _ _ _) fun _ => ?_)
  split
  · exact Keeps.bind (poisonLoad_keeps _ _) fun _ => advance_keeps _
  · exact Keeps.ite (Keeps.trapD_bind _ _ _ _) (Keeps.ite (Keeps.bind (poisonLoad_keeps _ _) fun _ => advance_keeps _)
      (Keeps.bind (loadInto_keeps _ _ _ _ _) fun _ => advance_keeps _))

theorem execLd_wf (x : LdArgs) (s : State) (hs : s.memOk) : NextOk (execLd x s) := scalarStep_wf _ _ _ (ldBody_keeps _) hs

theorem amoBody_keeps (x : AmoArgs) : Keeps (amoBody x) := by
  unfold amoBody
  dsimp only
  refine Keeps.bind parkIfSpec_keeps fun _ => Keeps.bind (consumeG_keeps _) fun b => ?_
  have perform (acc : State → Access) (cv : Word) :
      Keeps (modify (fun s => performAmo s s.core (acc s) x.kind x.ty x.d b cv) : M PUnit) :=
    Keeps.modify fun s w => performAmo_wf _ _ _ _ _ _ _ _ w
  split
  all_goals
    refine Keeps.bind (by grind [consumeG_keeps, Keeps.pure]) fun cv => Keeps.bind Keeps.getCur fun c =>
      Keeps.bind (capAccess_keeps _ _ _ _ _ _) fun r => Keeps.bind (orTrap_keeps _ _) fun pa => ?_
    refine Keeps.ite (Keeps.trapD_bind _ _ _ _) (Keeps.ite (Keeps.trapD_bind _ _ _ _) (Keeps.ite
      (Keeps.trapD_bind _ _ _ _) ?_))
    refine Keeps.get_bind fun s _ => Keeps.bind Keeps.getCur fun c => Keeps.ite ?_ ?_
    · exact Keeps.bind (enqueue_keeps _) fun _ => advance_keeps _
    · exact Keeps.bind (drainParty_keeps _) fun _ => Keeps.bind (perform _ _) fun _ => advance_keeps _

theorem execAmo_wf (x : AmoArgs) (s : State) (hs : s.memOk) : NextOk (execAmo x s) :=
  scalarStep_wf _ _ _ (amoBody_keeps _) hs

theorem syncAt_keeps (sc : Scope) : Keeps (syncAt sc) := Keeps.modify fun _ w => acquire_wf _ _ _ (release_wf _ _ _ w)

theorem tileRead_keeps : Keeps tileRead := Keeps.modify fun _ w => memOk_of_eq (finishTile_mem _ _) w

theorem fenceWait_wf (x : FenceArgs) (scalar : Bool) (s : State) (hs : s.memOk) : NextOk (fenceWait x scalar s) :=
  scalarStep_wf _ _ _ (Keeps.bind waitVector_keeps fun _ => Keeps.bind (drainParty_keeps _) fun _ =>
    Keeps.bind tileRead_keeps fun _ => Keeps.ite (Keeps.bind (drainParty_keeps _) fun _ => Keeps.bind
      (syncAt_keeps _) fun _ => advance_keeps _) (Keeps.bind (syncAt_keeps _) fun _ => advance_keeps _)) hs

theorem olderScalar_keeps : Keeps olderScalar :=
  Keeps.get_bind fun _ _ => Keeps.bind (Keeps.modify fun _ w' => drainFor_wf _ _ _ _ w') fun _ =>
    Keeps.get_bind fun _ _ => Keeps.ite Keeps.waits (Keeps.pure _)

theorem fenceEntry_wf (i : Instr) (x : FenceArgs) (mark : State → State) (older : M Unit) (s : State)
    (hm : ∀ s, s.memOk → (mark s).memOk) (ho : Keeps older) (hs : s.memOk) : NextOk (fenceEntry i x mark older s) := by
  unfold fenceEntry
  split
  · refine nextOk_next (commitEntry_wf _ _ ?_ hs)
    grind [drainParty_keeps, syncAt_keeps, Keeps.bind, Keeps.getCur, Keeps.pure]
  · refine scalarStep_wf _ _ _ ?_ hs
    exact Keeps.bind (pushEntry_keeps _ _ _ _) fun _ => Keeps.modify hm

theorem markOlder_wf (s : State) (hs : s.memOk) : (markOlder s).memOk := hs

theorem execFenceSv_wf (x : FenceArgs) (s : State) (hs : s.memOk) : NextOk (execFenceSv x s) :=
  fenceEntry_wf _ _ _ _ _ (fun _ w => markOlder_wf _ w) olderScalar_keeps hs

theorem execFenceVv_wf (x : FenceArgs) (s : State) (hs : s.memOk) : NextOk (execFenceVv x s) :=
  fenceEntry_wf _ _ _ _ _ (fun _ w => w) (Keeps.bind (drainParty_keeps _) fun _ => tileRead_keeps) hs

theorem settleTileRead_wf (s : State) (k : Nat) (ts : List Tlb) (hs : s.memOk) : (settleTileRead s k ts).memOk := by
  unfold settleTileRead
  split
  · exact hs
  · split
    · exact hs
    · exact memOk_ite (memOk_of_eq (finishTile_mem _ _) hs) hs

theorem settleDropped_wf (s : State) (k : Nat) (ts : List Tlb) (hs : s.memOk) : (settleDropped s k ts).memOk := by
  unfold settleDropped
  exact settleTileRead_wf _ _ _ (foldl_wf _ (fun _ _ w => drainFor_wf _ _ _ _ w) _ _ hs)

theorem execTfence_wf (x : TfenceArgs) (s : State) (hs : s.memOk) : NextOk (execTfence x s) := by
  refine scalarStep_wf _ _ _ ?_ hs
  have dropped (old : State → List (Nat × List Tlb)) (start : State → State) (h : ∀ s, s.memOk → (start s).memOk) :
      Keeps (modify (fun s => (old s).foldl (fun s o => if o.2.isEmpty then s else settleDropped s o.1 o.2) (start s)) :
        M PUnit) :=
    Keeps.modify fun s w => foldl_wf _ (fun s o w => by
      split
      · exact w
      · exact settleDropped_wf _ _ _ w) _ _ (h s w)
  refine Keeps.bind parkIfSpec_keeps fun _ => ?_
  dsimp only
  split <;> refine Keeps.bind (by grind [consumeG_keeps, Keeps.pure]) fun a => ?_
  all_goals
    split <;> refine Keeps.bind (by grind [consumeG_keeps, Keeps.pure]) fun b => ?_
    all_goals
      refine Keeps.bind (releaseOwn_keeps _) fun _ => Keeps.bind (dropped _ _ fun s w => tlbDrop_wf _ _ _ _ _ _ w) fun _ => ?_
      exact Keeps.get_bind fun _ _ => Keeps.ite (Keeps.waits_bind _) (advance_keeps _)

theorem lineCheck_keeps (x : CwbArgs) (code : Bool) : Keeps (lineCheck x code) := by
  have reach (r : Except AccFault Nat) (va no : Word) : Keeps (do
      let pa ← orTrap r x.a
      if inCtl pa then trapD cCtlAccess va no
      return pa : M Nat) :=
    Keeps.bind (orTrap_keeps _ _) fun pa => Keeps.ite (Keeps.trapD_bind _ _ _ _) (Keeps.pure _)
  unfold lineCheck
  refine Keeps.bind (consumeG_keeps _) fun g => Keeps.bind Keeps.getCur fun c => ?_
  dsimp only
  split <;> refine Keeps.bind (ctlCheck_keeps _ _ _ _ _ _) fun r => ?_
  all_goals
    split
    · exact Keeps.bind (Keeps.pure _) fun _ => reach _ _ _
    · refine Keeps.ite (Keeps.bind (ctlCheck_keeps _ _ _ _ _ _) fun r => ?_) (Keeps.bind (Keeps.pure _) fun _ => reach _ _ _)
      split <;> exact Keeps.bind (Keeps.pure _) fun _ => reach _ _ _

theorem execCwb_wf (x : CwbArgs) (s : State) (hs : s.memOk) : NextOk (execCwb x s) :=
  scalarStep_wf _ _ _ (Keeps.bind (lineCheck_keeps _ _) fun _ => Keeps.bind (ownFirst_keeps _ _) fun _ => Keeps.bind
    (Keeps.modify fun _ w => propagate_wf _ _ _ _ w) fun _ => advance_keeps _) hs

theorem dropCode_wf (s : State) (cores : List Nat) (l : Nat) (hs : s.memOk) : (dropCode s cores l).memOk := hs

theorem execIinv_wf (x : CwbArgs) (s : State) (hs : s.memOk) : NextOk (execIinv x s) :=
  scalarStep_wf _ _ _ (Keeps.bind parkIfSpec_keeps fun _ => Keeps.bind (lineCheck_keeps _ _) fun _ => Keeps.bind
    (Keeps.modify fun _ w => dropCode_wf _ _ _ w) fun _ => advance_keeps _) hs

theorem execIfence_wf (x : MArgs) (s : State) (hs : s.memOk) : NextOk (execIfence x s) :=
  scalarStep_wf _ _ _ (Keeps.bind (Keeps.modify fun _ w => memOk_ite w (memOk_of_eq (State.modCore_mem _ _ _) w)) fun _ =>
    advance_keeps _) hs

/-! ### Lanes (R186, R187) -/

theorem revealTo_keeps (new : Nat) : Keeps (revealTo new) :=
  Keeps.get_bind fun _ w => Keeps.ite (Keeps.pure _) (Keeps.bind (Keeps.set w) fun _ => Keeps.modifyCur _)

theorem settleLoads_keeps : Keeps settleLoads :=
  Keeps.bind (Keeps.modify fun _ w => drainFor_wf _ _ _ _ w) fun _ => Keeps.get_bind fun _ _ => Keeps.ite Keeps.waits
    (Keeps.pure _)

theorem takeLanes_keeps (g : Nat) : Keeps (takeLanes g) :=
  Keeps.bind (revealTo_keeps _) fun _ => Keeps.get_bind fun _ w => Keeps.set (memOk_of_eq (State.modCur_mem _ _)
    (memOk_ite (memOk_of_eq (budgetTake_mem _ _ _ _) w) (memOk_of_eq (budgetGive_mem _ _ _ _) w)))

theorem grantSetvl_keeps (n : Nat) : Keeps (grantSetvl n) := by
  refine Keeps.get_bind fun _ w => Keeps.ite (Keeps.pure _) (Keeps.ite (Keeps.pure _) ?_)
  dsimp only
  split
  · exact Keeps.bind (Keeps.modify fun _ w' => memOk_of_eq (State.modCluster_mem _ _ _) w') fun _ => Keeps.pure _
  · exact Keeps.ite Keeps.waits (Keeps.bind (Keeps.modify fun _ w' => memOk_of_eq
      (State.modCluster_mem _ _ _) w') fun _ => Keeps.waits)

theorem setvlEff_keeps (x : SetvlArgs) : Keeps (setvlEff x) := by
  unfold setvlEff
  refine Keeps.bind Keeps.getCur fun c => Keeps.ite (Keeps.pure _) (Keeps.bind capturedG_keeps fun g => ?_)
  refine Keeps.get_bind fun s _ => ?_
  have finish (vl : Nat) (f : Nat → Ctx → Ctx) : Keeps (Pure.pure vl >>= fun vl => modifyCur (f vl)) :=
    Keeps.bind (Keeps.pure _) fun _ => Keeps.modifyCur _
  refine Keeps.ite (finish _ _) (Keeps.ite ?_ (Keeps.ite (Keeps.trapD_bind _ _ _ _) ?_))
  · have zero : Keeps (takeLanes 0 >>= fun _ => pure 0 >>= fun vl => modifyCur (fun c => writeG { c with vr := { c.vr with
        vl := BitVec.ofNat 13 vl, wlog := Nat.log2 x.ty.width } } x.d (BitVec.ofNat 64 vl))) :=
      Keeps.bind (takeLanes_keeps _) fun _ => finish _ _
    exact Keeps.ite (Keeps.bind settleLoads_keeps fun _ => zero) zero
  · have granted (n : Nat) (vl : Nat → Nat) (f : Nat → Ctx → Ctx) : Keeps (do
        let g ← grantSetvl n
        takeLanes g
        let vl ← pure (vl g)
        modifyCur (f vl) : M Unit) :=
      Keeps.bind (grantSetvl_keeps _) fun _ => Keeps.bind (takeLanes_keeps _) fun _ => finish _ _
    exact Keeps.ite (Keeps.bind settleLoads_keeps fun _ => granted _ _ _) (granted _ _ _)

theorem execSetvl_wf (x : SetvlArgs) (s : State) (hs : s.memOk) : NextOk (execSetvl x s) :=
  vectorStep_wf _ _ _ _ _ _ (setvlEff_keeps _) hs

theorem vmodeEff_keeps (x : VmodeArgs) : Keeps (vmodeEff x) :=
  Keeps.bind Keeps.getCur fun _ => Keeps.ite (Keeps.pure _) (Keeps.bind settleLoads_keeps fun _ => Keeps.ite
    (Keeps.modifyCur _) (Keeps.bind (Keeps.modify fun _ w => memOk_of_eq (laneGive_mem _ _) w) fun _ => Keeps.bind
      (revealTo_keeps _) fun _ => Keeps.modifyCur _))

theorem execVmode_wf (x : VmodeArgs) (s : State) (hs : s.memOk) : NextOk (execVmode x s) :=
  vectorStep_wf _ _ _ _ _ _ (vmodeEff_keeps _) hs

theorem grantBack_wf (s : State) (r : LaneReq) (hs : s.memOk) : (grantBack s r).memOk :=
  memOk_ite (memOk_of_eq (State.modCluster_mem _ _ _) (memOk_of_eq (State.modCtx_mem _ _ _) (memOk_of_eq
    (budgetTake_mem _ _ _ _) hs))) hs

theorem restAfter_wf (s : State) (slot : Nat) (hs : s.memOk) : (restAfter s slot).memOk :=
  memOk_ite (restLanes_wf _ _ hs) hs

theorem execLaneGrant_wf (cluster : Nat) (s : State) (hs : s.memOk) : NextOk (execLaneGrant cluster s) := by
  unfold execLaneGrant
  dsimp only
  split
  · exact nextOk_next hs
  · refine nextOk_ite (nextOk_next (grantBack_wf _ _ hs)) ?_
    split
    · exact nextOk_next (restAfter_wf _ _ (commitEntry_wf _ _ (setvlEff_keeps _) hs))
    · exact nextOk_next hs

/-! ### Waits -/

theorem execCallq_wf (x : CallqArgs) (s : State) (hs : s.memOk) : NextOk (execCallq x s) := by
  refine scalarStep_wf _ _ _ ?_ hs
  refine Keeps.bind parkIfSpec_keeps fun _ => Keeps.bind Keeps.getCur fun c => ?_
  refine Keeps.ite (Keeps.trapD_bind _ _ _ _) (Keeps.ite (Keeps.trapD_bind _ _ _ _) ?_)
  refine Keeps.bind (consumeAll_keeps _) fun _ => Keeps.bind waitVector_keeps fun _ => Keeps.bind quiet_keeps fun _ =>
    Keeps.bind (Keeps.modify fun s w => release_wf _ _ _ w) fun _ => Keeps.get_bind fun s _ => ?_
  dsimp only
  split
  · exact Keeps.bind (Keeps.modify fun s w => restLanes_wf _ _ w) fun _ => Keeps.waits
  · exact Keeps.bind (Keeps.modifyCur _) fun _ => Keeps.bind Keeps.getCur fun c => Keeps.bind (Keeps.modifyCur _) fun _ =>
      Keeps.bind (Keeps.modify fun s w => haltWith_wf _ _ _ w) fun _ => Keeps.modify fun s w => postRecord_wf _ _ _ w

theorem execPark_wf (x : ParkArgs) (s : State) (hs : s.memOk) : NextOk (execPark x s) := by
  have watch (v u : Word) (l : Nat) : Keeps (do
      advance x.m
      if v = u then
        modifyCur (fun c => { c with parked := some l, hit := false })
        modify (fun s => restLanes s s.slot)
      else pure () : M Unit) :=
    Keeps.bind (advance_keeps _) fun _ => Keeps.ite
      (Keeps.bind (Keeps.modifyCur _) fun _ => Keeps.modify fun s w => restLanes_wf _ _ w) (Keeps.pure _)
  refine scalarStep_wf _ _ _ ?_ hs
  refine Keeps.bind Keeps.getCur fun c => Keeps.bind (ctlCheck_keeps _ _ _ _ _ _) fun r => Keeps.bind
    (orTrap_keeps _ _) fun pa => ?_
  refine Keeps.ite (Keeps.trapD_bind _ _ _ _) (Keeps.bind (consumeAll_keeps _) fun _ => ?_)
  refine Keeps.ite (Keeps.trapD_bind _ _ _ _) (Keeps.ite ?_ ?_)
  · exact Keeps.bind (ctlLoad_keeps _ _ _) fun v => watch _ _ _
  · exact Keeps.bind (loadMem_keeps _ _ _ _) fun bs => Keeps.bind (Keeps.pure _) fun v => watch _ _ _

theorem execHalt_wf (x : MArgs) (s : State) (hs : s.memOk) : NextOk (execHalt x s) :=
  scalarStep_wf _ _ _ (Keeps.bind waitVector_keeps fun _ => Keeps.bind quiet_keeps fun _ => Keeps.bind
    (advance_keeps _) fun _ => Keeps.modify fun _ w => haltWith_wf _ _ _ w) hs

theorem wakeWatchers_wf (before after : State) (hafter : after.memOk) : (wakeWatchers before after).memOk :=
  memOk_of_eq (State.mapCtxs_mem _ _) hafter

/-! ### Placement -/

theorem setGang_wf (s : State) (g : Nat) (x : Gang) (hs : s.memOk) : (setGang s g x).memOk := hs

theorem modGang_wf (s : State) (g : Nat) (f : Gang → Gang) (hs : s.memOk) : (modGang s g f).memOk := by
  unfold modGang
  split
  · exact setGang_wf _ _ _ hs
  · exact hs

theorem dropGang_wf (s : State) (g : Nat) (hs : s.memOk) : (dropGang s g).memOk := hs

theorem queueGang_wf (s : State) (x : Gang) (atHead : Bool) (hs : s.memOk) : (queueGang s x atHead).memOk := hs

theorem unqueueGang_wf (s : State) (g : Nat) (hs : s.memOk) : (unqueueGang s g).memOk := by
  unfold unqueueGang
  split
  · exact hs
  · exact hs

theorem unaim_wf (s : State) (g : Nat) (hs : s.memOk) : (unaim s g).memOk := hs

theorem leaveGang_wf (s : State) (slot : Nat) (hs : s.memOk) : (leaveGang s slot).memOk :=
  foldl_wf _ (fun _ _ w => modGang_wf _ _ _ (unaim_wf _ _ w)) _ _ hs

theorem unqueueCtx_wf (s : State) (slot : Nat) (hs : s.memOk) : (unqueueCtx s slot).memOk :=
  foldl_wf _ (fun _ _ w => memOk_ite (unqueueGang_wf _ _ (modGang_wf _ _ _ (unaim_wf _ _ w))) (dropGang_wf _ _
    (unqueueGang_wf _ _ (modGang_wf _ _ _ (unaim_wf _ _ w))))) _ _ (leaveGang_wf _ _ hs)

theorem putRec_wf (s : State) (pa state : Nat) (inq : Bool) (hs : s.memOk) : (putRec s pa state inq).memOk :=
  memOk_of_eq (touch_mem _ _) (State.setRec_wf _ _ _ (memOk_of_eq (sideMark_mem _ _ _) (sideFill_wf _ _ _
    (snapBefore_wf _ _ hs))))

theorem flushL1_wf (s : State) (cores : List Nat) (hs : s.memOk) : (flushL1 s cores).memOk :=
  foldl_wf _ (fun _ _ w => memOk_of_eq (State.modCore_mem _ _ _) (foldl_wf _ (fun _ _ w' => evict1_wf _ _ _ w') _ _ w)) _ _ hs

theorem setFused_wf (s : State) (cl : Nat) (g : Option Nat) (hs : s.memOk) : (setFused s cl g).memOk :=
  memOk_of_eq (State.modCluster_mem _ _ _) (flushL1_wf _ _ hs)

theorem unfuseIdle_wf (s : State) (cl : Nat) (hs : s.memOk) : (unfuseIdle s cl).memOk := by
  unfold unfuseIdle
  split
  · exact hs
  · exact memOk_ite hs (setFused_wf _ _ _ hs)

theorem pauseCmds_wf (s : State) (slot : Nat) (b : Bool) (hs : s.memOk) : (pauseCmds s slot b).memOk := hs

theorem departCore_wf (s : State) (slot : Nat) (hs : s.memOk) : (departCore s slot).memOk := by
  unfold departCore
  dsimp only
  split
  · exact hs
  · exact unfuseIdle_wf _ _ (memOk_of_eq (budgetGive_mem _ _ _ _) (memOk_of_eq (budgetGive_mem _ _ _ _) (memOk_of_eq
      (State.modCore_mem _ _ _) (memOk_of_eq (State.modCtx_mem _ _ _) (pauseCmds_wf _ _ _ hs)))))

theorem saveCtx_wf (s : State) (slot : Nat) (hs : s.memOk) : (saveCtx s slot).memOk := by
  unfold saveCtx
  dsimp only
  split
  · exact hs
  · exact memOk_ite (copyBulk_wf _ _ _ _ _ _ (imagesOut_wf _ _ hs)) hs

theorem leaveCore_wf (s : State) (slot : Nat) (hs : s.memOk) : (leaveCore s slot).memOk :=
  departCore_wf _ _ (saveCtx_wf _ _ hs)

theorem orphan_wf (s : State) (slot : Nat) (hs : s.memOk) : (orphan s slot).memOk := hs

theorem endCtx_wf (s : State) (slot : Nat) (hs : s.memOk) : (endCtx s slot).memOk := by
  have gone := departCore_wf _ slot (memOk_of_eq ((laneGive_mem _ slot).trans (laneWithdraw_mem s slot)) hs)
  exact memOk_of_eq (budgetGive_mem _ (s.ctxAt slot).h.region 3 ((s.ctxAt slot).ss.slots * 2 ^ (s.ctxAt slot).ss.lp)) gone

theorem takeAll_wf (s : State) (r : Nat) (needs : List (Fin 6 × Nat)) (hs : s.memOk) : (takeAll s r needs).memOk :=
  foldl_wf _ (fun _ _ w => memOk_of_eq (budgetTake_mem _ _ _ _) w) _ _ hs

theorem clearCores_wf (s : State) (cores : List Nat) (hs : s.memOk) : (clearCores s cores).memOk := by
  refine foldl_wf _ (fun _ _ w => ?_) _ _ hs
  split
  · exact leaveCore_wf _ _ w
  · exact w

theorem pushLines_wf (s : State) (k : Nat) (lines : List Nat) (sc : Scope) (hs : s.memOk) :
    (pushLines s k lines sc).memOk := by
  unfold pushLines
  refine foldl_wf _ (fun _ _ w => ?_) _ _ hs
  dsimp only
  split
  · split
    · exact memOk_ite (evict2_wf _ _ _ (propagate_wf _ _ _ _ w)) (propagate_wf _ _ _ _ w)
    · exact propagate_wf _ _ _ _ w
  · split
    · exact memOk_ite (evict2_wf _ _ _ (propagate_wf _ _ _ _ w)) (propagate_wf _ _ _ _ w)
    · exact propagate_wf _ _ _ _ w
  · exact propagate_wf _ _ _ _ w

theorem drainDeque_wf (k n : Nat) (s : State) (hs : s.memOk) : (drainDeque k n s).memOk := by
  induction n generalizing s with
  | zero => exact hs
  | succ n ih => grind [drainDeque, pushLines_wf, putRec_wf, queueGang_wf, State.modCore_mem]

theorem serveRegion_wf (s : State) (k region : Nat) (hs : s.memOk) : (serveRegion s k region).memOk :=
  memOk_ite hs (memOk_of_eq (State.modCore_mem _ _ _) (memOk_ite hs (drainDeque_wf _ _ _ hs)))

theorem zeroSpad_wf (s : State) (lo n : Nat) (hs : s.memOk) : (zeroSpad s lo n).memOk := memErase_wf lo n hs

theorem enterCore_wf (s : State) (k slot : Nat) (hs : s.memOk) : (enterCore s k slot).memOk := by
  have back (a : Nat) (c : Ctx) (t : State) (g : List Nat) (w : t.memOk) :
      ({ t with mem := c.allot.foldl (fun (m : Bytes) (x : Nat × Byte) => memPut m (a + x.1) x.2) t.mem, tags := g } :
        State).memOk :=
    memPut_foldl_wf (fun x : Nat × Byte => a + x.1) (fun x => x.2) _ w
  unfold enterCore
  rw [State.memOk, laneRegrant_mem, State.modCtx_mem]
  refine pauseCmds_wf _ _ _ (memOk_of_eq (State.modCore_mem _ _ _) ?_)
  have served := serveRegion_wf s k (s.ctxAt slot).h.region hs
  have zeroed : ∀ {c : Prop} [Decidable c] {lo n lo' n' lo'' n'' : Nat},
      (if c then zeroSpad (serveRegion s k (s.ctxAt slot).h.region) lo n
        else zeroSpad (zeroSpad (serveRegion s k (s.ctxAt slot).h.region) lo' n') lo'' n'').memOk :=
    memOk_ite (zeroSpad_wf _ _ _ served) (zeroSpad_wf _ _ _ (zeroSpad_wf _ _ _ served))
  exact memOk_ite (copyBulk_wf _ _ _ _ _ _ zeroed) (back _ _ _ _ zeroed)

theorem withdraw_wf (s : State) (g : Nat) (x : Gang) (hs : s.memOk) : (withdraw s g x).memOk := hs

theorem scrubCore_wf (s : State) (k : Nat) (hs : s.memOk) : (scrubCore s k).memOk :=
  memOk_of_eq (chargeWork_mem _ _ _) (memOk_of_eq (State.modCore_mem _ _ _) (zeroSpad_wf _ _ _ (flushL1_wf _ _
    (memOk_ite hs (drainDeque_wf _ _ _ hs)))))

theorem postLaunch_wf (s : State) (region : Nat) (slot : Nat) (pa : Nat) (inner : BitVec 16) (hs : s.memOk) :
    (postLaunch s region slot pa inner).memOk := by
  unfold postLaunch
  dsimp only
  split
  · split
    · exact hs
    · exact postRecord_wf _ _ _ hs
  · exact hs

theorem packetEnds_wf (s : State) (p : Option (Nat × Nat)) (status : Nat) (hs : s.memOk) : (packetEnds s p status).memOk := by
  unfold packetEnds
  split
  · exact hs
  · exact hs

theorem failLaunch_wf (s : State) (g : Nat) (x : Gang) (pa : Nat) (inner : BitVec 16) (hs : s.memOk) :
    (failLaunch s g x pa inner).memOk :=
  dropGang_wf _ _ (packetEnds_wf _ _ _ (postLaunch_wf _ _ _ _ _ (putRec_wf _ _ _ _ (unqueueGang_wf _ _ (unaim_wf _ _ hs)))))

theorem fuseWhole_wf (s : State) (g : Nat) (cores : List Nat) (hs : s.memOk) : (fuseWhole s g cores).memOk :=
  foldl_wf _ (fun _ _ w => memOk_ite (setFused_wf _ _ _ w) w) _ _ hs

theorem makeThreads_wf (s : State) (g : Nat) (x : Gang) (pa : Nat) (hs : s.memOk) : (makeThreads s g x pa).memOk :=
  putRec_wf _ _ _ _ (setGang_wf _ _ _ (foldl_wf _ (fun _ _ w => enterCore_wf _ _ _ (memOk_of_eq
    (State.setCtx_mem _ _ _) w)) _ _ hs))

theorem noteCores_wf (s : State) (cores slots : List Nat) (hs : s.memOk) : (noteCores s cores slots).memOk :=
  foldl_wf _ (fun _ _ w => modGang_wf _ _ _ w) _ _ hs

theorem startGang_wf (s : State) (g : Nat) (x : Gang) (hs : s.memOk) : (startGang s g x).memOk := by
  unfold startGang
  split
  · refine makeThreads_wf _ _ _ _ (memOk_ite (fuseWhole_wf _ _ _ ?_) ?_)
    · split
      · exact foldl_wf _ (fun _ _ w => acquire_wf _ _ _ w) _ _ (unqueueGang_wf _ _ (takeAll_wf _ _ _ (clearCores_wf _ _ hs)))
      · exact unqueueGang_wf _ _ (takeAll_wf _ _ _ (clearCores_wf _ _ hs))
    · split
      · exact foldl_wf _ (fun _ _ w => acquire_wf _ _ _ w) _ _ (unqueueGang_wf _ _ (takeAll_wf _ _ _ (clearCores_wf _ _ hs)))
      · exact unqueueGang_wf _ _ (takeAll_wf _ _ _ (clearCores_wf _ _ hs))
  · refine memOk_ite (setGang_wf _ _ _ (foldl_wf _ (fun _ _ w => enterCore_wf _ _ _ w) _ _ ?_)) (dropGang_wf _ _
      (noteCores_wf _ _ _ (foldl_wf _ (fun _ _ w => enterCore_wf _ _ _ w) _ _ ?_)))
    · split
      · refine memOk_ite (fuseWhole_wf _ _ _ ?_) ?_
        · split
          · exact foldl_wf _ (fun _ _ w => acquire_wf _ _ _ w) _ _ (unqueueGang_wf _ _ (takeAll_wf _ _ _
              (clearCores_wf _ _ hs)))
          · exact unqueueGang_wf _ _ (takeAll_wf _ _ _ (clearCores_wf _ _ hs))
        · split
          · exact foldl_wf _ (fun _ _ w => acquire_wf _ _ _ w) _ _ (unqueueGang_wf _ _ (takeAll_wf _ _ _
              (clearCores_wf _ _ hs)))
          · exact unqueueGang_wf _ _ (takeAll_wf _ _ _ (clearCores_wf _ _ hs))
      · split
        · exact foldl_wf _ (fun _ _ w => acquire_wf _ _ _ w) _ _ (unqueueGang_wf _ _ (takeAll_wf _ _ _
            (clearCores_wf _ _ hs)))
        · exact unqueueGang_wf _ _ (takeAll_wf _ _ _ (clearCores_wf _ _ hs))
    · split
      · refine memOk_ite (fuseWhole_wf _ _ _ ?_) ?_
        · split
          · exact foldl_wf _ (fun _ _ w => acquire_wf _ _ _ w) _ _ (unqueueGang_wf _ _ (takeAll_wf _ _ _
              (clearCores_wf _ _ hs)))
          · exact unqueueGang_wf _ _ (takeAll_wf _ _ _ (clearCores_wf _ _ hs))
        · split
          · exact foldl_wf _ (fun _ _ w => acquire_wf _ _ _ w) _ _ (unqueueGang_wf _ _ (takeAll_wf _ _ _
              (clearCores_wf _ _ hs)))
          · exact unqueueGang_wf _ _ (takeAll_wf _ _ _ (clearCores_wf _ _ hs))
      · split
        · exact foldl_wf _ (fun _ _ w => acquire_wf _ _ _ w) _ _ (unqueueGang_wf _ _ (takeAll_wf _ _ _
            (clearCores_wf _ _ hs)))
        · exact unqueueGang_wf _ _ (takeAll_wf _ _ _ (clearCores_wf _ _ hs))

theorem execGangStart_wf (gang : Nat) (s : State) (hs : s.memOk) : NextOk (execGangStart gang s) := by
  unfold execGangStart
  split
  · exact nextOk_next hs
  · refine nextOk_ite (nextOk_next hs) ?_
    split
    · split
      · exact nextOk_next (failLaunch_wf _ _ _ _ _ hs)
      · exact nextOk_ite (nextOk_next (failLaunch_wf _ _ _ _ _ hs)) (nextOk_ite (nextOk_next (startGang_wf _ _ _ hs))
          (nextOk_next (withdraw_wf _ _ _ hs)))
    · exact nextOk_ite (nextOk_next (startGang_wf _ _ _ hs)) (nextOk_next (withdraw_wf _ _ _ hs))

theorem execPlacementAim_wf (die region : Nat) (s : State) (hs : s.memOk) : NextOk (execPlacementAim die region s) := by
  unfold execPlacementAim
  dsimp only
  split
  · exact nextOk_next hs
  · refine nextOk_ite (nextOk_next hs) ?_
    split
    · exact nextOk_next hs
    · exact nextOk_next (foldl_wf _ (fun _ _ w => memOk_of_eq (State.modCore_mem _ _ _) w) _ _ (setGang_wf _ _ _ hs))

theorem execPlacementWithdraw_wf (gang : Nat) (s : State) (hs : s.memOk) : NextOk (execPlacementWithdraw gang s) := by
  unfold execPlacementWithdraw
  split
  · exact nextOk_next hs
  · exact nextOk_next (memOk_ite (withdraw_wf _ _ _ hs) hs)

theorem stepDone_wf (s : State) (a : Nat) (hs : s.memOk) : (stepDone s a).memOk := memOk_ite hs (pkgPut_wf _ _ _ hs)

theorem siblingEnded_wf (s : State) (c : Ctx) (hs : s.memOk) : (siblingEnded s c).memOk := by
  unfold siblingEnded
  split
  · exact hs
  · split
    · exact hs
    · exact memOk_of_eq (budgetGive_mem _ _ _ _) hs

theorem setDstate_wf (s : State) (r id st : Nat) (hs : s.memOk) : (setDstate s r id st).memOk := pkgPut_wf _ _ _ hs

theorem freeDesc_wf (s : State) (r id : Nat) (hs : s.memOk) : (freeDesc s r id).memOk :=
  memOk_of_eq (budgetGive_mem _ _ _ _) (setDstate_wf _ _ _ _ hs)

theorem endSingle_wf (s : State) (slot : Nat) (hs : s.memOk) : (endSingle s slot).memOk :=
  dropGang_wf _ _ (endCtx_wf _ _ (memOk_ite (memOk_ite (freeDesc_wf _ _ _ (siblingEnded_wf _ _ hs)) (setDstate_wf _ _ _ _
    (siblingEnded_wf _ _ hs))) (siblingEnded_wf _ _ hs)))

theorem oweTo_wf (s : State) (slots : List Nat) (p : Option (Nat × Nat)) (hs : s.memOk) : (oweTo s slots p).memOk := hs

theorem execGangEnd_wf (gang : Nat) (s : State) (hs : s.memOk) : NextOk (execGangEnd gang s) := by
  unfold execGangEnd
  split
  · exact nextOk_next hs
  · refine nextOk_ite (nextOk_next hs) ?_
    split
    · exact nextOk_next (packetEnds_wf _ _ _ (dropGang_wf _ _ (putRec_wf _ _ _ _ (stepDone_wf _ _ (foldl_wf _
        (fun _ _ w => endCtx_wf _ _ w) _ _ (oweTo_wf _ _ _ hs))))))
    · exact nextOk_next (foldl_wf _ (fun _ _ w => memOk_ite (endSingle_wf _ _ w) w) _ _ hs)

theorem execSiblingEnd_wf (slot : Nat) (s : State) (hs : s.memOk) : NextOk (execSiblingEnd slot s) := by
  unfold execSiblingEnd
  split
  · exact nextOk_next hs
  · exact nextOk_ite (nextOk_next (endSingle_wf _ _ hs)) (nextOk_next hs)

theorem requestPreempt_wf (s : State) (slot : Nat) (hs : s.memOk) : (requestPreempt s slot).memOk :=
  foldl_wf _ (fun _ _ w => memOk_of_eq (State.modCtx_mem _ _ _) w) _ _ hs

theorem execYieldCore_wf (x : MArgs) (s : State) (hs : s.memOk) : NextOk (execYieldCore x s) :=
  scalarStep_wf _ _ _ (Keeps.bind (advance_keeps _) fun _ => Keeps.get_bind fun _ _ => Keeps.ite (Keeps.modify fun _ w' =>
    requestPreempt_wf _ _ w') (Keeps.pure _)) hs

theorem leavePreempted_wf (s : State) (slots : List Nat) (region : Nat) (cosched : Bool) (hs : s.memOk) :
    (leavePreempted s slots region cosched).memOk :=
  queueGang_wf _ _ _ (foldl_wf _ (fun _ _ w => memOk_of_eq (State.modCtx_mem _ _ _) (leaveCore_wf _ _ w)) _ _ hs)

theorem leaveAway_wf (s : State) (slot : Nat) (hs : s.memOk) : (leaveAway s slot).memOk := by
  unfold leaveAway
  dsimp only
  split
  · exact memOk_ite (memOk_ite (leavePreempted_wf _ _ _ _ hs) hs) (leavePreempted_wf _ _ _ _ hs)
  · exact leavePreempted_wf _ _ _ _ hs

theorem execPreemptHalt_wf (slot : Nat) (s : State) (hs : s.memOk) : NextOk (execPreemptHalt slot s) := by
  unfold execPreemptHalt
  split
  · exact nextOk_next hs
  · refine nextOk_ite (nextOk_next hs) ?_
    split
    · exact nextOk_ite (nextOk_next hs) (nextOk_next (leaveAway_wf _ _ (memOk_of_eq (State.modCtx_mem _ _ _)
        (haltStep_wf _ _ hs))))
    · exact nextOk_next (leaveAway_wf _ _ hs)
    · exact nextOk_next hs

theorem execPreemptRequest_wf (die region : Nat) (s : State) (hs : s.memOk) : NextOk (execPreemptRequest die region s) := by
  unfold execPreemptRequest
  dsimp only
  split
  · exact nextOk_next hs
  · refine nextOk_ite (nextOk_next hs) ?_
    split
    · exact nextOk_next hs
    · exact nextOk_next (foldl_wf _ (fun _ _ w => requestPreempt_wf _ _ w) _ _ hs)

/-! ### The common step of the vector instructions -/

theorem checkGroup_keeps (n : VReg) (cnt w : Nat) : Keeps (checkGroup n cnt w) := by
  refine Keeps.bind Keeps.getCur fun _ => Keeps.ite (Keeps.pure _) ?_
  split
  · exact Keeps.bind (Keeps.pure _) fun _ => Keeps.trapD _ _ _
  · exact Keeps.bind freeVal_keeps fun _ => Keeps.trapD _ _ _

theorem headStrip_keeps (n : VReg) (b : Binding) (code : Nat) : Keeps (headStrip n b code) := by
  refine Keeps.bind Keeps.getCur fun _ => ?_
  split
  · exact Keeps.waits
  · exact Keeps.trapD _ _ _
  · exact Keeps.ite (Keeps.waits_bind _) (Keeps.ite (Keeps.trapD_bind _ _ _ _) (Keeps.pure _))

theorem readSpad_keeps (off n no : Nat) : Keeps (readSpad off n no) := by
  refine Keeps.get_bind fun _ w => Keeps.bind (ownFirst_keeps _ _) fun _ => Keeps.get_bind fun _ w' => ?_
  split
  · exact Keeps.trapD _ _ _
  · exact Keeps.pure _

theorem readN_keeps (n : VReg) (t : Ty) (cnt : Nat) : Keeps (readN n t cnt) := by
  refine Keeps.bind Keeps.getCur fun _ => ?_
  split
  · exact Keeps.bind (headStrip_keeps _ _ _) fun _ => Keeps.bind (readSpad_keeps _ _ _) fun _ => Keeps.pure _
  · exact Keeps.bind (checkGroup_keeps _ _ _) fun _ => Keeps.pure _

theorem readV_keeps (n : VReg) (t : Ty) : Keeps (readV n t) := Keeps.bind Keeps.getCur fun _ => readN_keeps _ _ _

theorem creditStage_wf (s : State) (slot : Nat) (st : Fin 16) (f : Stage → Stage) (hs : s.memOk) :
    (creditStage s slot st f).memOk := memOk_ite (frameStoreWord_wf _ _ _ _ _ hs) hs

theorem creditLinks_wf (s : State) (slot : Nat) (st : Fin 16) (n : Nat) (hs : s.memOk) : (creditLinks s slot st n).memOk := by
  unfold creditLinks
  dsimp only
  split
  · exact hs
  · exact foldl_wf _ (fun _ _ w => creditStage_wf _ _ _ _ w) _ _ hs

theorem dropStrip_wf (q : Fin 8) (s : State) (hs : s.memOk) : (dropStrip q s).memOk := by
  unfold dropStrip
  split
  · split
    · exact creditLinks_wf _ _ _ _ (creditLinks_wf _ _ _ _ hs)
    · exact creditLinks_wf _ _ _ _ hs
  · exact hs

theorem takeStrips_keeps (regs : List VReg) : Keeps (takeStrips regs) :=
  Keeps.bind Keeps.getCur fun _ => Keeps.modify fun _ w => foldl_wf _ (fun _ _ w' => dropStrip_wf _ _ w') _ _ w

theorem checkDestN_keeps (n : VReg) (cnt w : Nat) : Keeps (checkDestN n cnt w) := by
  refine Keeps.bind Keeps.getCur fun _ => Keeps.ite (Keeps.bind (checkGroup_keeps _ _ _) fun _ => ?_) ?_
  · split
    · exact Keeps.trapD _ _ _
    · exact Keeps.pure _
  · split
    · exact Keeps.trapD _ _ _
    · exact Keeps.pure _

theorem checkDest_keeps (n : VReg) (w : Nat) : Keeps (checkDest n w) :=
  Keeps.bind Keeps.getCur fun _ => checkDestN_keeps _ _ _

theorem writeV_keeps (n : VReg) (w : Nat) (ws : List (Nat × Elem)) : Keeps (writeV n w ws) := Keeps.modifyCur _

theorem writePred_keeps (d : PReg) (bits : List (Option Bool)) : Keeps (writePred d bits) := Keeps.modifyCur _

theorem zeroGroup_keeps (d : VReg) (cnt w : Nat) : Keeps (zeroGroup d cnt w) :=
  Keeps.bind Keeps.getCur fun _ => Keeps.ite (writeV_keeps _ _ _) (Keeps.pure _)

theorem zeroDest_keeps (zf : Bool) (d : VReg) (w : Nat) : Keeps (zeroDest zf d w) :=
  Keeps.ite (Keeps.bind Keeps.getCur fun _ => zeroGroup_keeps _ _ _) (Keeps.pure _)

theorem zeroPred_keeps (zf : Bool) (d : PReg) : Keeps (zeroPred zf d) :=
  Keeps.bind Keeps.getCur fun _ => writePred_keeps _ _

theorem vecStep_wf (i : Instr) (md : Mods) (g : Option GReg) (cap : Option CReg) (never eff : M Unit) (s : State)
    (hn : Keeps never) (he : Keeps eff) (hs : s.memOk) : NextOk (vecStep i md g cap never eff s) := by
  refine vectorStep_wf _ _ _ _ _ _ ?_ hs
  split
  · exact hn
  · exact he

theorem map1_keeps (md : Mods) (zf : Bool) (d : VReg) (wd : Nat) (a : VReg) (ta : Ty) (f : Nat → Elem → Elem) :
    Keeps (map1 md zf d wd a ta f) :=
  Keeps.bind (readV_keeps _ _) fun _ => Keeps.bind (checkDest_keeps _ _) fun _ => Keeps.bind Keeps.getCur fun _ =>
    Keeps.bind (writeV_keeps _ _ _) fun _ => takeStrips_keeps _

theorem map2_keeps (md : Mods) (zf : Bool) (d : VReg) (wd : Nat) (a b : VReg) (ta : Ty) (f : Nat → Elem → Elem → Elem) :
    Keeps (map2 md zf d wd a b ta f) :=
  Keeps.bind (readV_keeps _ _) fun _ => Keeps.bind (readV_keeps _ _) fun _ => Keeps.bind (checkDest_keeps _ _) fun _ =>
    Keeps.bind Keeps.getCur fun _ => Keeps.bind (writeV_keeps _ _ _) fun _ => takeStrips_keeps _

theorem map2acc_keeps (md : Mods) (zf : Bool) (d : VReg) (wd : Nat) (a b : VReg) (ta : Ty)
    (f : Nat → Elem → Elem → Elem → Elem) : Keeps (map2acc md zf d wd a b ta f) :=
  Keeps.bind (readV_keeps _ _) fun _ => Keeps.bind (readV_keeps _ _) fun _ => Keeps.bind (checkDest_keeps _ _) fun _ =>
    Keeps.bind Keeps.getCur fun _ => Keeps.bind (writeV_keeps _ _ _) fun _ => takeStrips_keeps _

theorem map3_keeps (md : Mods) (zf : Bool) (d : VReg) (wd : Nat) (a b z : VReg) (ta tz : Ty)
    (f : Nat → Elem → Elem → Elem → Elem) : Keeps (map3 md zf d wd a b z ta tz f) :=
  Keeps.bind (readV_keeps _ _) fun _ => Keeps.bind (readV_keeps _ _) fun _ => Keeps.bind (readV_keeps _ _) fun _ =>
    Keeps.bind (checkDest_keeps _ _) fun _ => Keeps.bind Keeps.getCur fun _ => Keeps.bind (writeV_keeps _ _ _) fun _ =>
      takeStrips_keeps _

theorem vpoison_keeps {α : Type} (n : VReg) (w e : Nat) : Keeps (vpoison n w e : M α) :=
  Keeps.bind Keeps.getCur fun _ => Keeps.throw _

theorem consumeV_keeps (md : Mods) (ops : List (VReg × Nat × List Elem)) : Keeps (consumeV md ops) := by
  refine Keeps.bind Keeps.getCur fun _ => ?_
  dsimp only
  split
  · exact vpoison_keeps _ _ _
  · exact Keeps.pure _

/-! ### Integer vector instructions -/

theorem vbin_wf (i : Instr) (x : VBinArgs) (f : IntFn) (s : State) (hs : s.memOk) : NextOk (vbin i x f s) :=
  vecStep_wf _ _ _ _ _ _ _ (zeroDest_keeps _ _ _) (map2_keeps _ _ _ _ _ _ _ _) hs

theorem vun_wf (i : Instr) (x : VUnArgs) (f : Int → Int) (s : State) (hs : s.memOk) : NextOk (vun i x f s) :=
  vecStep_wf _ _ _ _ _ _ _ (zeroDest_keeps _ _ _) (map1_keeps _ _ _ _ _ _ _) hs

theorem execVabs_wf (x : VUnArgs) (s : State) (hs : s.memOk) : NextOk (execVabs x s) := vun_wf _ _ _ _ hs

theorem execVneg_wf (x : VUnArgs) (s : State) (hs : s.memOk) : NextOk (execVneg x s) := vun_wf _ _ _ _ hs

theorem execVmacc_wf (x : VBinArgs) (s : State) (hs : s.memOk) : NextOk (execVmacc x s) :=
  vecStep_wf _ _ _ _ _ _ _ (zeroDest_keeps _ _ _) (map2acc_keeps _ _ _ _ _ _ _ _) hs

theorem execVsat_wf (x : VSatArgs) (s : State) (hs : s.memOk) : NextOk (execVsat x s) :=
  vecStep_wf _ _ _ _ _ _ _ (zeroDest_keeps _ _ _) (map1_keeps _ _ _ _ _ _ _) hs

theorem execVsel_wf (x : VSelArgs) (s : State) (hs : s.memOk) : NextOk (execVsel x s) :=
  vecStep_wf _ _ _ _ _ _ _ (zeroDest_keeps _ _ _) (Keeps.bind Keeps.getCur fun _ => map2_keeps _ _ _ _ _ _ _ _) hs

/-! ### Floating-point vector instructions -/

theorem vfbin_wf (i : Instr) (x : VfBinArgs) (f : Val → Val → Val) (s : State) (hs : s.memOk) : NextOk (vfbin i x f s) :=
  vecStep_wf _ _ _ _ _ _ _ (zeroDest_keeps _ _ _) (Keeps.bind Keeps.getCur fun _ => map2_keeps _ _ _ _ _ _ _ _) hs

theorem vfpick_wf (i : Instr) (x : VTwoArgs) (max_ : Bool) (s : State) (hs : s.memOk) : NextOk (vfpick i x max_ s) :=
  vecStep_wf _ _ _ _ _ _ _ (zeroDest_keeps _ _ _) (map2_keeps _ _ _ _ _ _ _ _) hs

theorem vfone_wf (i : Instr) (x : VOneArgs) (f : Nat → Nat) (s : State) (hs : s.memOk) : NextOk (vfone i x f s) :=
  vecStep_wf _ _ _ _ _ _ _ (zeroDest_keeps _ _ _) (map1_keeps _ _ _ _ _ _ _) hs

theorem execVfsqrt_wf (x : VfUnArgs) (s : State) (hs : s.memOk) : NextOk (execVfsqrt x s) :=
  vecStep_wf _ _ _ _ _ _ _ (zeroDest_keeps _ _ _) (Keeps.bind Keeps.getCur fun _ => map1_keeps _ _ _ _ _ _ _) hs

theorem vfma_wf (i : Instr) (x : VfmaArgs) (negProd negZ : Bool) (s : State) (hs : s.memOk) :
    NextOk (vfma i x negProd negZ s) :=
  vecStep_wf _ _ _ _ _ _ _ (zeroDest_keeps _ _ _) (Keeps.bind Keeps.getCur fun _ => map3_keeps _ _ _ _ _ _ _ _ _ _) hs

theorem execVcvt_wf (x : VcvtArgs) (s : State) (hs : s.memOk) : NextOk (execVcvt x s) :=
  vecStep_wf _ _ _ _ _ _ _ (Keeps.pure _) (Keeps.bind Keeps.getCur fun _ => Keeps.bind capturedG_keeps fun _ =>
    map1_keeps _ _ _ _ _ _ _) hs

theorem execVquant_wf (x : VquantArgs) (s : State) (hs : s.memOk) : NextOk (execVquant x s) :=
  vecStep_wf _ _ _ _ _ _ _ (Keeps.pure _) (Keeps.bind (readV_keeps _ _) fun _ => Keeps.bind Keeps.getCur fun _ =>
    Keeps.bind (checkDest_keeps _ _) fun _ => Keeps.bind (checkDestN_keeps _ _ _) fun _ =>
      Keeps.bind capturedG_keeps fun _ => Keeps.bind (Keeps.modifyCur _) fun _ => takeStrips_keeps _) hs

theorem execVdequant_wf (x : VquantArgs) (s : State) (hs : s.memOk) : NextOk (execVdequant x s) :=
  vecStep_wf _ _ _ _ _ _ _ (Keeps.pure _) (Keeps.bind (readV_keeps _ _) fun _ => Keeps.bind Keeps.getCur fun _ =>
    Keeps.bind (readN_keeps _ _ _) fun _ => Keeps.bind (checkDest_keeps _ _) fun _ => Keeps.bind capturedG_keeps fun _ =>
      Keeps.bind (writeV_keeps _ _ _) fun _ => takeStrips_keeps _) hs

/-! ### Vector loads and stores -/

theorem elemCheck_keeps (cap : Cap) (capNo : CReg) (p : CapPerm) (tp : Perm) (sc : Scope) (e : Nat) (pl : Place) (size : Nat)
    : Keeps (elemCheck cap capNo p tp sc e pl size) := by
  refine Keeps.bind (capAccess_keeps _ _ _ _ _ _) fun _ => ?_
  split
  · exact Keeps.pure _
  · exact Keeps.ite (Keeps.trapD _ _ _) (Keeps.ite (Keeps.pure _) (Keeps.pure _))

theorem elemTrap_keeps {α : Type} (f : AccFault) (e : Nat) (capNo : CReg) : Keeps (elemTrap f e capNo : M α) :=
  Keeps.ite (Keeps.trapD _ _ _) (Keeps.trapD _ _ _)

theorem issueLoads_keeps (gs : List (List ElemLoad)) (sc : Scope) (hint : Nat) : Keeps (issueLoads gs sc hint) :=
  Keeps.get_bind fun _ _ => Keeps.ite (Keeps.forM (fun _ => enqueue_keeps _) _) (Keeps.bind (ownRanges_keeps _) fun _ =>
    Keeps.modify fun _ w' => foldl_wf _ (fun _ _ w'' => loadElems_wf _ _ _ _ _ _ w'') _ _ w')

theorem loadCheck_keeps (cap : Cap) (a : CReg) (sc : Scope) (d : VReg) (w e at_ : Nat) (pl : Place) :
    Keeps (loadCheck cap a sc d w e at_ pl) := by
  refine Keeps.bind (elemCheck_keeps _ _ _ _ _ _ _ _) fun _ => ?_
  split
  · exact Keeps.pure _
  · exact Keeps.get_bind fun _ _ => Keeps.pure _

theorem vload_keeps (md : Mods) (zf : Bool) (t : Ty) (d : VReg) (a : CReg) (sc : Scope) (hint : Nat) (place : Nat → M Place)
    (h : ∀ e, Keeps (place e)) : Keeps (vload md zf t d a sc hint place) := by
  refine Keeps.bind (checkDest_keeps _ _) fun _ => Keeps.bind Keeps.getCur fun c => Keeps.bind capturedC_keeps fun cap =>
    Keeps.bind entryAddr_keeps fun o => Keeps.bind (Keeps.mapM (fun e => ?_) _) fun got =>
    Keeps.bind (writeV_keeps _ _ _) fun _ => issueLoads_keeps _ _ _
  exact Keeps.bind (h e) fun pl => Keeps.bind (loadCheck_keeps _ _ _ _ _ _ _ _) fun _ => Keeps.pure _

theorem execVld_wf (x : VMemArgs) (s : State) (hs : s.memOk) : NextOk (execVld x s) :=
  vecStep_wf _ _ _ _ _ _ _ (zeroDest_keeps _ _ _) (Keeps.bind capturedG_keeps fun _ =>
    vload_keeps _ _ _ _ _ _ _ _ fun _ => Keeps.pure _) hs

theorem execVlds_wf (x : VMemArgs) (s : State) (hs : s.memOk) : NextOk (execVlds x s) :=
  vecStep_wf _ _ _ _ _ _ _ (zeroDest_keeps _ _ _) (Keeps.bind capturedG_keeps fun _ =>
    vload_keeps _ _ _ _ _ _ _ _ fun _ => Keeps.pure _) hs

theorem placeIdx_keeps (b : VReg) (idx : List Elem) (e : Nat) : Keeps (placeIdx b idx e) :=
  Keeps.ite (vpoison_keeps _ _ _) (Keeps.pure _)

theorem execVldx_wf (x : VMemXArgs) (s : State) (hs : s.memOk) : NextOk (execVldx x s) :=
  vecStep_wf _ _ _ _ _ _ _ (zeroDest_keeps _ _ _) (Keeps.bind (readV_keeps _ _) fun _ => Keeps.bind
    (vload_keeps _ _ _ _ _ _ _ _ fun _ => placeIdx_keeps _ _ _) fun _ => takeStrips_keeps _) hs

theorem checkFirst_keeps (t : Ty) (d : VReg) (a : CReg) (cap : Cap) (sc : Scope) (off : Int) (es : List Nat) :
    Keeps (checkFirst t d a cap sc off es) := by
  induction es with
  | nil => exact Keeps.pure _
  | cons e es ih => grind [checkFirst, loadCheck_keeps, Keeps.bind, Keeps.pure]

theorem execVldff_wf (x : VMemArgs) (s : State) (hs : s.memOk) : NextOk (execVldff x s) := by
  refine vecStep_wf _ _ _ _ _ _ _ (zeroDest_keeps _ _ _) ?_ hs
  refine Keeps.bind (checkDest_keeps _ _) fun _ => Keeps.bind capturedG_keeps fun g => Keeps.bind capturedC_keeps fun cap =>
    Keeps.bind Keeps.getCur fun c => Keeps.bind (checkFirst_keeps _ _ _ _ _ _ _) fun got => ?_
  grind [elemTrap_keeps, writeV_keeps, issueLoads_keeps, Keeps.bind, Keeps.pure, Keeps.modifyCur]

theorem settleTile_keeps (rs : List (Nat × Nat)) : Keeps (settleTile rs) := by
  refine Keeps.get_bind fun _ w => ?_
  split
  · exact Keeps.ite (Keeps.set (memOk_of_eq (finishTile_mem _ _) w)) (Keeps.pure _)
  · exact Keeps.pure _

theorem issueStores_keeps (gs : List (List ElemStore)) (sc : Scope) (hint : Nat) : Keeps (issueStores gs sc hint) :=
  Keeps.bind (needRoomAll_keeps _) fun _ => Keeps.bind (settleTile_keeps _) fun _ => Keeps.get_bind fun _ _ => Keeps.ite
    (Keeps.forM (fun _ => enqueue_keeps _) _) (Keeps.ite (Keeps.modify fun _ w' => foldl_wf _ (fun _ _ w'' =>
      storeElems_wf _ _ _ _ _ w'') _ _ w') (Keeps.bind (drainParty_keeps _) fun _ => Keeps.modify fun _ w' => foldl_wf _
        (fun _ _ w'' => storeElems_wf _ _ _ _ _ w'') _ _ w'))

theorem storeCheck_keeps (cap : Cap) (a : CReg) (sc : Scope) (reg : VReg) (w e at_ : Nat) (pl : Place) (v : Elem) :
    Keeps (storeCheck cap a sc reg w e at_ pl v) := by
  refine Keeps.bind (elemCheck_keeps _ _ _ _ _ _ _ _) fun _ => ?_
  split
  · exact elemTrap_keeps _ _ _
  · exact Keeps.ite (vpoison_keeps _ _ _) (Keeps.get_bind fun _ _ => Keeps.pure _)

theorem vstore_keeps (md : Mods) (t : Ty) (d : VReg) (a : CReg) (sc : Scope) (hint : Nat) (streams : List VReg)
    (place : Nat → M Place) (h : ∀ e, Keeps (place e)) : Keeps (vstore md t d a sc hint streams place) := by
  refine Keeps.bind (readV_keeps _ _) fun xs => Keeps.bind Keeps.getCur fun c => Keeps.bind capturedC_keeps fun cap =>
    Keeps.bind (Keeps.mapM (fun e => ?_) _) fun out => Keeps.bind (issueStores_keeps _ _ _) fun _ => takeStrips_keeps _
  exact Keeps.bind (h e) fun pl => storeCheck_keeps _ _ _ _ _ _ _ _ _

theorem execVst_wf (x : VMemArgs) (s : State) (hs : s.memOk) : NextOk (execVst x s) :=
  vecStep_wf _ _ _ _ _ _ _ (Keeps.pure _) (Keeps.bind capturedG_keeps fun _ => vstore_keeps _ _ _ _ _ _ _ _ fun _ =>
    Keeps.pure _) hs

theorem execVsts_wf (x : VMemArgs) (s : State) (hs : s.memOk) : NextOk (execVsts x s) :=
  vecStep_wf _ _ _ _ _ _ _ (Keeps.pure _) (Keeps.bind capturedG_keeps fun _ => vstore_keeps _ _ _ _ _ _ _ _ fun _ =>
    Keeps.pure _) hs

theorem execVstx_wf (x : VMemXArgs) (s : State) (hs : s.memOk) : NextOk (execVstx x s) :=
  vecStep_wf _ _ _ _ _ _ _ (Keeps.pure _) (Keeps.bind (readV_keeps _ _) fun _ => vstore_keeps _ _ _ _ _ _ _ _ fun _ =>
    placeIdx_keeps _ _ _) hs

theorem segCheck_keeps (x : VSegArgs) : Keeps (segCheck x) :=
  Keeps.bind Keeps.getCur fun _ => Keeps.bind capturedG_keeps fun _ => Keeps.ite (Keeps.trapD_bind _ _ _ _) (Keeps.pure _)

theorem segLoads_keeps (x : VSegArgs) (cap : Cap) (nb : Nat) (o : Int) (k : Nat) : Keeps (segLoads x cap nb o k) :=
  Keeps.bind (Keeps.mapM (fun _ => loadCheck_keeps _ _ _ _ _ _ _ _) _) fun _ => Keeps.bind
    (loadCheck_keeps _ _ _ _ _ _ _ _) fun _ => Keeps.pure _

theorem zeroSeg_keeps (x : VSegArgs) : Keeps (zeroSeg x) :=
  Keeps.bind Keeps.getCur fun _ => Keeps.bind (zeroDest_keeps _ _ _) fun _ => Keeps.ite (zeroGroup_keeps _ _ _) (Keeps.pure _)

theorem execVldseg_wf (x : VSegArgs) (s : State) (hs : s.memOk) : NextOk (execVldseg x s) :=
  vecStep_wf _ _ _ _ _ _ _ (zeroSeg_keeps _)
    (Keeps.bind (segCheck_keeps _) fun _ => Keeps.bind (checkDest_keeps _ _) fun _ => Keeps.bind Keeps.getCur fun _ =>
      Keeps.bind (checkDestN_keeps _ _ _) fun _ => Keeps.bind capturedC_keeps fun _ => Keeps.bind entryAddr_keeps fun _ =>
      Keeps.bind (Keeps.mapM (fun _ => Keeps.bind (segLoads_keeps _ _ _ _ _) fun _ => Keeps.pure _) _) fun _ =>
      Keeps.bind (writeV_keeps _ _ _) fun _ => Keeps.bind (writeV_keeps _ _ _) fun _ => issueLoads_keeps _ _ _) hs

theorem segStores_keeps (x : VSegArgs) (cap : Cap) (nb : Nat) (o : Int) (xs ss : List Elem) (k : Nat) :
    Keeps (segStores x cap nb o xs ss k) :=
  Keeps.bind (Keeps.mapM (fun _ => storeCheck_keeps _ _ _ _ _ _ _ _ _) _) fun _ => Keeps.bind
    (storeCheck_keeps _ _ _ _ _ _ _ _ _) fun _ => Keeps.pure _

theorem execVstseg_wf (x : VSegArgs) (s : State) (hs : s.memOk) : NextOk (execVstseg x s) :=
  vecStep_wf _ _ _ _ _ _ _ (Keeps.pure _)
    (Keeps.bind (segCheck_keeps _) fun _ => Keeps.bind (readV_keeps _ _) fun _ => Keeps.bind Keeps.getCur fun _ =>
      Keeps.bind (readN_keeps _ _ _) fun _ => Keeps.bind capturedC_keeps fun _ =>
      Keeps.bind (Keeps.mapM (segStores_keeps _ _ _ _ _ _) _) fun _ =>
      Keeps.bind (issueStores_keeps _ _ _) fun _ => takeStrips_keeps _) hs

/-! ### Matrix instructions -/

theorem tileAccess_keeps (a : CReg) (cap : Cap) (off : Int) (ext : Nat) : Keeps (tileAccess a cap off ext) :=
  Keeps.bind (capAccessS_keeps _ _ _ _ _ _ _) fun _ => Keeps.bind (orTrap_keeps _ _) fun _ => Keeps.ite
    (Keeps.trapD_bind _ _ _ _) (Keeps.ite (Keeps.trapD_bind _ _ _ _) (Keeps.pure _))

theorem mldtEff_keeps (x : MldtArgs) (tr : Bool) : Keeps (mldtEff x tr) := by
  have load (pa ext : Nat) (f : Ctx → Ctx) (c : Ctx) : Keeps (do
      if c.mx.load.isSome || ((shadowTile c.mx).valid && (shadowTile c.mx).pend) then waits
      ownFirst pa ext
      modifyCur f : M Unit) :=
    Keeps.ite (Keeps.waits_bind _) (Keeps.bind (ownFirst_keeps _ _) fun _ => Keeps.modifyCur _)
  unfold mldtEff
  refine Keeps.bind Keeps.getCur fun c => Keeps.ite (Keeps.pure _) (Keeps.bind capturedC_keeps fun cap =>
    Keeps.bind capturedG_keeps fun g => Keeps.bind (tileAccess_keeps _ _ _ _) fun pa => Keeps.get_bind fun s _ => ?_)
  refine Keeps.ite (Keeps.trapD_bind _ _ _ _) (Keeps.ite ?_ (Keeps.bind Keeps.getCur fun _ => load _ _ _ _))
  split
  · exact Keeps.trapD_bind _ _ _ _
  · exact Keeps.bind Keeps.getCur fun _ => load _ _ _ _

theorem execMldt_wf (x : MldtArgs) (s : State) (hs : s.memOk) : NextOk (execMldt x s) :=
  vecStep_wf _ _ _ _ _ _ _ (Keeps.pure _) (mldtEff_keeps _ _) hs

theorem execMldtT_wf (x : MldtArgs) (s : State) (hs : s.memOk) : NextOk (execMldtT x s) :=
  vecStep_wf _ _ _ _ _ _ _ (Keeps.pure _) (mldtEff_keeps _ _) hs

theorem execMldtReadDone_wf (core : Nat) (s : State) (hs : s.memOk) : NextOk (execMldtReadDone core s) := by
  unfold execMldtReadDone
  split
  · exact nextOk_next (memOk_of_eq (finishTile_mem _ _) hs)
  · exact nextOk_next hs

theorem execTileReload_wf (core tile : Nat) (s : State) (hs : s.memOk) : NextOk (execTileReload core tile s) := by
  unfold execTileReload
  split
  · exact nextOk_next hs
  · exact nextOk_next hs

theorem rowScales_keeps (x : MrowArgs) : Keeps (rowScales x) := by
  unfold rowScales
  refine Keeps.bind Keeps.getCur fun _ => ?_
  dsimp only
  split
  · exact Keeps.bind (headStrip_keeps _ _ _) fun _ => Keeps.bind (readSpad_keeps _ _ _) fun _ => Keeps.pure _
  · split
    · exact vpoison_keeps _ _ _
    · exact Keeps.pure _

theorem rowStrip_keeps (x : MrowArgs) (b : Binding) : Keeps (rowStrip x b) := by
  unfold rowStrip
  refine Keeps.bind (headStrip_keeps _ _ _) fun st => Keeps.ite (Keeps.trapD_bind _ _ _ _) (Keeps.bind
    (readSpad_keeps _ _ _) fun bs => ?_)
  grind [rowScales_keeps, readSpad_keeps, Keeps.bind, Keeps.pure, Keeps.trapD]

theorem rowGroup_keeps (x : MrowArgs) : Keeps (rowGroup x) := by
  unfold rowGroup
  refine Keeps.bind Keeps.getCur fun c => Keeps.ite (Keeps.bind freeVal_keeps fun _ => Keeps.trapD_bind _ _ _ _)
    (Keeps.ite (Keeps.trapD_bind _ _ _ _) ?_)
  grind [rowScales_keeps, vpoison_keeps, Keeps.bind, Keeps.pure, Keeps.trapD]

theorem readRow_keeps (x : MrowArgs) : Keeps (readRow x) := by
  refine Keeps.bind Keeps.getCur fun _ => ?_
  split
  · exact rowStrip_keeps _ _
  · exact rowGroup_keeps _

theorem mrowEff_keeps (x : MrowArgs) (acc : Bool) : Keeps (mrowEff x acc) := by
  unfold mrowEff
  refine Keeps.bind Keeps.getCur fun c => Keeps.ite (Keeps.pure _) (Keeps.ite (Keeps.waits_bind _)
    (Keeps.ite (Keeps.trapD_bind _ _ _ _) ?_))
  dsimp only
  split
  · exact Keeps.trapD _ _ _
  · exact Keeps.ite (Keeps.trapD_bind _ _ _ _) (Keeps.bind (readRow_keeps _) fun _ => Keeps.bind (Keeps.modifyCur _) fun _ =>
      takeStrips_keeps _)

theorem execMrow_wf (x : MrowArgs) (s : State) (hs : s.memOk) : NextOk (execMrow x s) :=
  vecStep_wf _ _ _ _ _ _ _ (Keeps.pure _) (mrowEff_keeps _ _) hs

theorem execMrowa_wf (x : MrowArgs) (s : State) (hs : s.memOk) : NextOk (execMrowa x s) :=
  vecStep_wf _ _ _ _ _ _ _ (Keeps.pure _) (mrowEff_keeps _ _) hs

theorem execMzero_wf (x : MzeroArgs) (s : State) (hs : s.memOk) : NextOk (execMzero x s) :=
  vecStep_wf _ _ _ _ _ _ _ (Keeps.pure _) (Keeps.bind Keeps.getCur fun _ => Keeps.ite (Keeps.modifyCur _) (Keeps.pure _)) hs

theorem execMswap_wf (x : MArgs) (s : State) (hs : s.memOk) : NextOk (execMswap x s) :=
  vecStep_wf _ _ _ _ _ _ _ (Keeps.pure _) (Keeps.bind Keeps.getCur fun _ => Keeps.ite (Keeps.pure _) (Keeps.ite
    (Keeps.waits_bind _) (Keeps.modifyCur _))) hs

theorem execMchain_wf (x : MchainArgs) (s : State) (hs : s.memOk) : NextOk (execMchain x s) :=
  vecStep_wf _ _ _ _ _ _ _ (Keeps.pure _) (Keeps.bind Keeps.getCur fun _ => Keeps.ite (Keeps.pure _)
    (Keeps.bind capturedG_keeps fun _ => Keeps.ite (Keeps.trapD_bind _ _ _ _) (Keeps.modifyCur _))) hs

theorem execMtbl_wf (x : MtblArgs) (s : State) (hs : s.memOk) : NextOk (execMtbl x s) :=
  vecStep_wf _ _ _ _ _ _ _ (Keeps.pure _)
    (Keeps.bind Keeps.getCur fun _ => Keeps.ite (Keeps.pure _) (Keeps.bind capturedC_keeps fun _ =>
      Keeps.bind capturedG_keeps fun _ => Keeps.bind (capAccess_keeps _ _ _ _ _ _) fun _ => Keeps.bind
        (orTrap_keeps _ _) fun _ =>
      Keeps.ite (Keeps.trapD_bind _ _ _ _) (Keeps.ite (Keeps.trapD_bind _ _ _ _)
        (Keeps.bind (loadMem_keeps _ _ _ _) fun _ => Keeps.modifyCur _)))) hs

theorem execMdrain_wf (x : MdrainArgs) (s : State) (hs : s.memOk) : NextOk (execMdrain x s) :=
  vecStep_wf _ _ _ _ _ _ _ (zeroDest_keeps _ _ _) (Keeps.bind Keeps.getCur fun _ => Keeps.bind capturedG_keeps fun _ =>
    Keeps.ite (Keeps.trapD_bind _ _ _ _) (Keeps.bind (checkDest_keeps _ _) fun _ => writeV_keeps _ _ _)) hs

/-! ### Engine queues -/

theorem joinEngine_wf (s : State) (n : Nat) (c : Cmd) (hs : s.memOk) : (joinEngine s n c).memOk := hs

theorem enginePush_keeps (p : Party) (n : Nat) (w : Word) (src dst idx : Cap) (stride : Int) :
    Keeps (enginePush p n w src dst idx stride) :=
  Keeps.get_bind fun _ _ => Keeps.ite (Keeps.bind parkIfSpec_keeps fun _ => Keeps.ite (Keeps.waits_bind _) (Keeps.bind
    (releaseOwn_keeps _) fun _ => Keeps.bind (Keeps.modify fun _ w'' => joinEngine_wf _ _ _ w'') fun _ => Keeps.pure _))
      (Keeps.ite (Keeps.waits_bind _) (Keeps.bind (releaseOwn_keeps _) fun _ => Keeps.bind (Keeps.modify fun _ w'' =>
        joinEngine_wf _ _ _ w'') fun _ => Keeps.pure _))

theorem popAcquire_wf (s : State) (k : Nat) (ranges : List (Nat × Nat)) (hs : s.memOk) : (popAcquire s k ranges).memOk :=
  foldl_wf _ (fun _ _ w => evict1_wf _ _ _ w) _ _ hs

theorem popResult_keeps (p : Party) (port : Nat) : Keeps (popResult p port) := by
  refine Keeps.get_bind fun _ w => ?_
  split
  · exact Keeps.waits
  · exact Keeps.bind (Keeps.modifyCur _) fun _ => Keeps.bind (Keeps.modify fun _ w' => popAcquire_wf _ _ _ w') fun _ =>
      Keeps.pure _

theorem epushWord_keeps (x : EpushArgs) : Keeps (epushWord x) := by
  unfold epushWord
  split
  · exact Keeps.pure _
  · exact consumeG_keeps _

theorem execEpush_wf (x : EpushArgs) (s : State) (hs : s.memOk) : NextOk (execEpush x s) := by
  refine scalarStep_wf _ _ _ (Keeps.bind (epushWord_keeps _) fun _ => Keeps.ite (Keeps.bind Keeps.getCur fun _ =>
    Keeps.ite (Keeps.waits_bind _) (Keeps.bind (releaseOwn_keeps _) fun _ => Keeps.bind (Keeps.modifyCur _) fun _ =>
      advance_keeps _)) (Keeps.get_bind fun _ w => ?_)) hs
  split
  · exact Keeps.trapD_bind _ _ _ _
  · exact Keeps.bind Keeps.getCur fun _ => Keeps.bind (enginePush_keeps _ _ _ _ _ _ _) fun _ => advance_keeps _

theorem checkPort_keeps (port : Nat) : Keeps (checkPort port) :=
  Keeps.get_bind fun _ _ => Keeps.ite (Keeps.trapD _ _ _) (Keeps.pure _)

theorem popPort_keeps (port : Nat) : Keeps (popPort port) := by
  refine Keeps.bind Keeps.getCur fun _ => Keeps.ite ?_ (Keeps.ite ?_ (Keeps.ite (Keeps.pure _) (Keeps.bind
    (popResult_keeps _ _) fun _ => Keeps.pure _)))
  · split
    · exact Keeps.pure _
    · exact Keeps.bind (Keeps.modifyCur _) fun _ => Keeps.pure _
  · split
    · exact Keeps.pure _
    · exact Keeps.bind (Keeps.modifyCur _) fun _ => Keeps.pure _

theorem execEpop_wf (x : EpopArgs) (s : State) (hs : s.memOk) : NextOk (execEpop x s) := by
  refine scalarStep_wf _ _ _ (Keeps.bind (checkPort_keeps _) fun _ => Keeps.bind (popPort_keeps _) fun _ => ?_) hs
  split
  · exact Keeps.waits_bind _
  · exact Keeps.bind (Keeps.modifyCur _) fun _ => advance_keeps _

theorem execEpopNw_wf (x : EpopArgs) (s : State) (hs : s.memOk) : NextOk (execEpopNw x s) :=
  scalarStep_wf _ _ _ (Keeps.bind (checkPort_keeps _) fun _ => Keeps.bind (popPort_keeps _) fun _ => Keeps.bind
    (Keeps.modifyCur _) fun _ => advance_keeps _) hs

theorem execEqstat_wf (x : EpopArgs) (s : State) (hs : s.memOk) : NextOk (execEqstat x s) :=
  scalarStep_wf _ _ _ (Keeps.bind (Keeps.modify fun _ w => memOk_of_eq (State.modCur_mem _ _) w) fun _ => advance_keeps _) hs

theorem popEvent_keeps : Keeps popEvent := by
  refine Keeps.bind Keeps.getCur fun _ => ?_
  split
  · exact Keeps.pure _
  · exact Keeps.bind (Keeps.modifyCur _) fun _ => Keeps.bind (Keeps.modify fun _ w => popAcquire_wf _ _ _ w) fun _ =>
      Keeps.pure _

theorem execEvpop_wf (x : MdArgs) (s : State) (hs : s.memOk) : NextOk (execEvpop x s) := by
  refine scalarStep_wf _ _ _ (Keeps.bind popEvent_keeps fun _ => ?_) hs
  split
  · exact Keeps.waits_bind _
  · exact Keeps.bind (Keeps.modifyCur _) fun _ => advance_keeps _

theorem execEvpopNw_wf (x : MdArgs) (s : State) (hs : s.memOk) : NextOk (execEvpopNw x s) :=
  scalarStep_wf _ _ _ (Keeps.bind popEvent_keeps fun _ => Keeps.bind (Keeps.modifyCur _) fun _ => advance_keeps _) hs

theorem execVbind_wf (x : VbindArgs) (s : State) (hs : s.memOk) : NextOk (execVbind x s) :=
  vecStep_wf _ _ _ _ _ _ _ (Keeps.pure _)
    (Keeps.bind Keeps.getCur fun _ => Keeps.ite (Keeps.pure _) (Keeps.bind capturedC_keeps fun _ =>
      Keeps.bind capturedG_keeps fun _ => Keeps.bind (capAccess_keeps _ _ _ _ _ _) fun _ => Keeps.bind
        (orTrap_keeps _ _) fun _ =>
      Keeps.ite (Keeps.trapD_bind _ _ _ _) (Keeps.ite (Keeps.trapD_bind _ _ _ _) (Keeps.ite (Keeps.trapD_bind _ _ _ _)
        (Keeps.bind (ownFirst_keeps _ _) fun _ => Keeps.get_bind fun _ w =>
          Keeps.bind (Keeps.set (loadPiece_wf _ _ _ _ _ _ _ w)) fun _ =>
          Keeps.ite (Keeps.trapD_bind _ _ _ _) (Keeps.modifyCur _)))))) hs

theorem execVunbind_wf (x : VunbindArgs) (s : State) (hs : s.memOk) : NextOk (execVunbind x s) :=
  vecStep_wf _ _ _ _ _ _ _ (Keeps.pure _) (Keeps.bind Keeps.getCur fun _ => Keeps.ite (Keeps.pure _) (Keeps.modifyCur _)) hs

/-! ### The steps of an engine -/

theorem joinWaiter_wf (s : State) (c : Cmd) (f : XFault) (va : Nat) (hs : s.memOk) : (joinWaiter s c f va).memOk := hs

theorem xlatePages_wf (n : Nat) (c : Cmd) (write : Bool) (ps : List (Nat × Nat)) (s : State) (hs : s.memOk) :
    (xlatePages n c write ps s).1.memOk := by
  induction ps generalizing s with
  | nil => exact hs
  | cons p ps ih => grind [xlatePages, walkFor_wf]

theorem engAccess_wf (s : State) (n : Nat) (c : Cmd) (cap : Cap) (off : Int) (k : Nat) (write : Bool) (hs : s.memOk) :
    (engAccess s n c cap off k write).1.memOk := by
  have h := xlatePages_wf n c write (pagesOf (offVa cap off) k) s hs
  unfold engAccess
  dsimp only
  generalize xlatePages n c write (pagesOf (offVa cap off) k) s = r at h ⊢
  obtain ⟨t, e | l⟩ := r
  · split
    · exact hs
    · exact h
  · split
    · exact hs
    · dsimp only
      split
      · exact h
      · exact h

theorem diePut_wf (s : State) (d owner l : Nat) (code : BitVec 2) (data : BitVec 512) (m : BitVec 64) (tags : BitVec 4)
    (hs : s.memOk) : (diePut s d owner l code data m tags).memOk := by
  refine memOk_of_eq (touch_mem _ _) (memOk_of_eq (State.l2Put_mem _ _ _ _) ?_)
  split
  · exact hs
  · exact sideFill_wf _ _ _ hs

theorem engPut_wf (s : State) (n : Nat) (sc : Scope) (owner pa : Nat) (code : BitVec 2) (bs : List Byte) (tags : BitVec 4)
    (hs : s.memOk) : (engPut s n sc owner pa code bs tags).memOk :=
  memOk_ite hs (memOk_ite (diePut_wf _ _ _ _ _ _ _ _ (memOk_ite hs (rstateStore_wf _ _ _ hs))) (codeStore_wf _ _ _ _ _ hs))

theorem engWrite_wf (s : State) (n : Nat) (sc : Scope) (owner : Nat) (ps : List Piece) (bs : List Byte) (ts : List Bool)
    (hs : s.memOk) :
    (engWrite s n sc owner ps bs ts).memOk :=
  foldl_keeps (fun acc : State × List Byte × List Bool => acc.1.memOk) _ (fun _ _ w => engPut_wf _ _ _ _ _ _ _ _ w) _ _ hs

theorem setCmd_wf (s : State) (n i : Nat) (c : Cmd) (hs : s.memOk) : (setCmd s n i c).memOk := hs

theorem countGranule_wf (s : State) (n : Nat) (hs : s.memOk) : (countGranule s n).memOk := hs

theorem creditGranule_wf (s : State) (n : Nat) (c : Cmd) (k : Nat) (hs : s.memOk) : (creditGranule s n c k).memOk := by
  refine memOk_ite hs ?_
  split
  · exact memOk_ite hs (creditStage_wf _ _ _ _ hs)
  · exact memOk_ite hs (creditStage_wf _ _ _ _ hs)

theorem endCmd_wf (s : State) (n i : Nat) (c : Cmd) (st : BitVec 3) (hs : s.memOk) : (endCmd s n i c st).memOk := hs

theorem faultCmd_wf (s : State) (n i : Nat) (c : Cmd) (cause : BitVec 16) (va : Word) (hs : s.memOk) :
    (faultCmd s n i c cause va).memOk := hs

theorem setAttr_wf (s : State) (c : Cmd) (dst : List Piece) (hs : s.memOk) : (setAttr s c dst).memOk := by
  unfold setAttr
  split
  · exact hs
  · split
    · exact hs
    · exact hs

theorem holdMiss_wf (s : State) (n i : Nat) (c : Cmd) (m : XFault × Nat × Bool) (hs : s.memOk) :
    (holdMiss s n i c m).memOk :=
  hs

theorem copyAccess_wf (s : State) (n : Nat) (c : Cmd) (k : Nat) (hs : s.memOk) : (copyAccess s n c k).1.memOk := by
  unfold copyAccess
  dsimp only
  split
  · next h => exact memOk_of_fst h (fst_wf_ite hs (engAccess_wf _ _ _ _ _ _ _ hs))
  · next h =>
      split
      · next h' => exact memOk_of_fst h' (engAccess_wf _ _ _ _ _ _ _ (memOk_of_fst h (fst_wf_ite hs
          (engAccess_wf _ _ _ _ _ _ _ hs))))
      · next h' => exact memOk_of_fst h' (engAccess_wf _ _ _ _ _ _ _ (memOk_of_fst h (fst_wf_ite hs
          (engAccess_wf _ _ _ _ _ _ _ hs))))

theorem wroteGranule_wf (s : State) (n : Nat) (c : Cmd) (k r : Nat) (dst : List Piece) (bs : List Byte) (ts : List Bool)
    (hs : s.memOk) :
    (countGranule (creditGranule (setAttr (engWrite { s with fresh := s.fresh + 1 } n (cmdScope n c.word) r dst bs ts) c dst)
      n c k) n).memOk :=
  countGranule_wf _ _ (creditGranule_wf _ _ _ _ (setAttr_wf _ _ _ (engWrite_wf _ _ _ _ _ _ _ hs)))

theorem copyGranule_wf (s : State) (n i : Nat) (c : Cmd) (hs : s.memOk) : (copyGranule s n i c).memOk := by
  have moved := copyAccess_wf s n c (granuleLen c (cmdLen c.word)) hs
  unfold copyGranule
  dsimp only
  split
  · exact moved
  · exact holdMiss_wf _ _ _ _ _ moved
  · exact faultCmd_wf _ _ _ _ _ _ moved
  · refine memOk_ite (endCmd_wf _ _ _ _ _ moved) (memOk_ite (endCmd_wf _ _ _ _ _ ?_) (setCmd_wf _ _ _ _ ?_))
    · split
      · exact chargeFor_wf _ _ _ _ (wroteGranule_wf _ _ _ _ _ _ _ _ moved)
      · exact wroteGranule_wf _ _ _ _ _ _ _ _ moved
    · split
      · exact chargeFor_wf _ _ _ _ (wroteGranule_wf _ _ _ _ _ _ _ _ moved)
      · exact wroteGranule_wf _ _ _ _ _ _ _ _ moved

theorem tieCopied_wf (s : State) (n : Nat) (c : Cmd) (a b : Nat) (pl : List (Nat × Nat × Nat)) (ts : List (List Nat))
    (hs : s.memOk) :
    (tieCopied s n c a b pl ts).memOk :=
  foldl_wf _ (fun _ _ w => memOk_of_eq (tieLines_mem _ _) w) _ _ hs

theorem copyTied_wf (s : State) (n i : Nat) (c : Cmd) (goal fuel : Nat) (hs : s.memOk) :
    (copyTied s n i c goal fuel).memOk := by
  induction fuel generalizing s c goal with
  | zero => exact hs
  | succ fuel ih =>
    have h := copyGranule_wf s n i c hs
    unfold copyTied
    dsimp only
    split
    · exact h
    · split
      · exact h
      · exact ih _ _ _ h

theorem copyStep_wf (s : State) (n i : Nat) (c : Cmd) (hs : s.memOk) : (copyStep s n i c).memOk := by
  have h := copyTied_wf s n i c 0 (cmdLen c.word * cmdRows c.word + 1) hs
  unfold copyStep
  dsimp only
  split
  · exact copyGranule_wf _ _ _ _ hs
  · split
    · exact h
    · exact tieCopied_wf _ _ _ _ _ _ _ h

theorem keepMask_wf (s : State) (c : Cmd) (hs : s.memOk) : (keepMask s c).memOk := memOk_ite hs hs

theorem dropMask_wf (s : State) (slot seq : Nat) (hs : s.memOk) : (dropMask s slot seq).memOk := memOk_ite hs hs

theorem gatherElem_wf (s : State) (n : Nat) (c g : Cmd) (e : Nat) (hs : s.memOk) : (gatherElem s n c g e).1.memOk := by
  unfold gatherElem
  dsimp only
  split
  · next h => exact memOk_of_fst h (engAccess_wf _ _ _ _ _ _ _ hs)
  · next h =>
      split
      · next h' => exact memOk_of_fst h' (engAccess_wf _ _ _ _ _ _ _ (memOk_of_fst h (engAccess_wf _ _ _ _ _ _ _ hs)))
      · next h' =>
          split
          · next h'' => exact memOk_of_fst h'' (engAccess_wf _ _ _ _ _ _ _ (memOk_of_fst h' (engAccess_wf _ _ _ _ _ _ _
              (memOk_of_fst h (engAccess_wf _ _ _ _ _ _ _ hs)))))
          · next h'' => exact engWrite_wf _ _ _ _ _ _ _ (memOk_of_fst h'' (engAccess_wf _ _ _ _ _ _ _ (memOk_of_fst h'
              (engAccess_wf _ _ _ _ _ _ _ (memOk_of_fst h (engAccess_wf _ _ _ _ _ _ _ hs))))))

theorem endGather_wf (s : State) (n i : Nat) (c : Cmd) (hs : s.memOk) : (endGather s n i c).memOk :=
  memOk_ite (keepMask_wf _ _ (endCmd_wf _ _ _ _ _ hs)) (endCmd_wf _ _ _ _ _ hs)

theorem gatherFault_wf (s : State) (n i : Nat) (c : Cmd) (cause : BitVec 16) (va : Word) (hs : s.memOk) :
    (gatherFault s n i c cause va).memOk := memOk_ite (endGather_wf _ _ _ _ hs) (setCmd_wf _ _ _ _ hs)

theorem gatherStep_wf (s : State) (n i : Nat) (c : Cmd) (hs : s.memOk) : (gatherStep s n i c).memOk := by
  have moved := gatherElem_wf s n c c c.pos hs
  unfold gatherStep
  dsimp only
  split
  · exact moved
  · exact holdMiss_wf _ _ _ _ _ moved
  · exact gatherFault_wf _ _ _ _ _ _ moved
  · have counted := countGranule_wf _ n (creditGranule_wf _ n c (elemSize c.word) moved)
    exact memOk_ite (endGather_wf _ _ _ _ counted) (setCmd_wf _ _ _ _ counted)

theorem endReplay_wf (s : State) (n i : Nat) (c g : Cmd) (hs : s.memOk) : (endReplay s n i c g).memOk :=
  memOk_ite (endCmd_wf _ _ _ _ _ (dropMask_wf _ _ _ hs)) (keepMask_wf _ _ (endCmd_wf _ _ _ _ _ (dropMask_wf _ _ _ hs)))

theorem replayFault_wf (s : State) (n i : Nat) (c g : Cmd) (e : Nat) (cause : BitVec 16) (va : Word) (hs : s.memOk) :
    (replayFault s n i c g e cause va).memOk := memOk_ite (setCmd_wf _ _ _ _ hs) (endReplay_wf _ _ _ _ _ hs)

theorem replayStep_wf (s : State) (n i : Nat) (c : Cmd) (hs : s.memOk) : (replayStep s n i c).memOk := by
  unfold replayStep
  split
  · exact endCmd_wf _ _ _ _ _ hs
  · dsimp only
    split
    · exact endReplay_wf _ _ _ _ _ hs
    · have moved := gatherElem_wf s n c (by assumption : DoneMask).cmd (by assumption) hs
      split
      · exact moved
      · exact holdMiss_wf _ _ _ _ _ moved
      · exact replayFault_wf _ _ _ _ _ _ _ _ moved
      · have counted := countGranule_wf _ n (creditGranule_wf _ n c (elemSize (by assumption : DoneMask).cmd.word) moved)
        exact memOk_ite (setCmd_wf _ _ _ _ (memOk_of_eq (State.modCtx_mem _ _ _) counted))
          (endReplay_wf _ _ _ _ _ (memOk_of_eq (State.modCtx_mem _ _ _) counted))

theorem takeCut_wf (s : State) (d : Nat) (hs : s.memOk) : (takeCut s d).memOk := by
  unfold takeCut
  exact memOk_of_eq (State.modSnap_mem _ _ _)
    (bulkSet_wf _ _ _ _ (foldl_wf _ (fun _ _ w => snapBefore_wf _ _ w) _ _ (flushRange_wf _ _ _ hs)))

theorem sealStop_wf (s : State) (n i : Nat) (c : Cmd) (a : EngStop) (hs : s.memOk) : (sealStop s n i c a).memOk := by
  cases a with
  | stall => exact hs
  | miss f va write => exact holdMiss_wf _ _ _ _ _ hs
  | fault cause va => exact faultCmd_wf _ _ _ _ _ _ hs

theorem sealStart_wf (s : State) (n i : Nat) (c : Cmd) (hs : s.memOk) : (sealStart s n i c).memOk := by
  have read := engAccess_wf s n c c.src 0 (cmdLen c.word) false hs
  unfold sealStart
  dsimp only
  split
  · exact sealStop_wf _ _ _ _ _ read
  · exact memOk_ite read (setCmd_wf _ _ _ _ (foldl_wf _ (fun _ _ w => flushRange_wf _ _ _ w) _ _ read))

theorem unsealStart_wf (s : State) (n i : Nat) (c : Cmd) (hs : s.memOk) : (unsealStart s n i c).memOk := by
  have read := engAccess_wf s n c c.src 0 (cmdLen c.word + 16) false hs
  unfold unsealStart
  dsimp only
  split
  · exact sealStop_wf _ _ _ _ _ read
  · split
    · exact setCmd_wf _ _ _ _ read
    · exact endCmd_wf _ _ _ _ _ read

theorem sealFinish_wf (s : State) (n i : Nat) (c : Cmd) (hs : s.memOk) : (sealFinish s n i c).memOk :=
  endCmd_wf _ _ _ _ _ (pkgPut_wf _ _ _ (foldl_wf _ (fun _ _ w => bulkStore_wf _ _ _ _ w) _ _ hs))

theorem sealGranule_wf (s : State) (n i : Nat) (c : Cmd) (hs : s.memOk) : (sealGranule s n i c).memOk := by
  refine memOk_ite (memOk_ite (sealFinish_wf _ _ _ _ hs) (endCmd_wf _ _ _ _ _ hs)) ?_
  split
  · refine sealStop_wf _ _ _ _ _ ?_
    split
    · exact hs
    · split
      · next h => exact memOk_of_fst h (xlatePages_wf _ _ _ _ _ hs)
      · next h =>
          split
          · exact memOk_of_fst h (xlatePages_wf _ _ _ _ _ hs)
          · exact memOk_of_fst h (xlatePages_wf _ _ _ _ _ hs)
  · refine memOk_ite (setCmd_wf _ _ _ _ (chargeFor_wf _ _ _ _ (countGranule_wf _ _ (creditGranule_wf _ _ _ _
      (engWrite_wf _ _ _ _ _ _ _ ?_))))) (endCmd_wf _ _ _ _ _ (pkgPut_wf _ _ _ (chargeFor_wf _ _ _ _ (countGranule_wf _ _
        (creditGranule_wf _ _ _ _ (engWrite_wf _ _ _ _ _ _ _ ?_))))))
    · split
      · exact hs
      · split
        · next h => exact memOk_of_fst h (xlatePages_wf _ _ _ _ _ hs)
        · next h =>
            split
            · exact memOk_of_fst h (xlatePages_wf _ _ _ _ _ hs)
            · exact memOk_of_fst h (xlatePages_wf _ _ _ _ _ hs)
    · split
      · exact hs
      · split
        · next h => exact memOk_of_fst h (xlatePages_wf _ _ _ _ _ hs)
        · next h =>
            split
            · exact memOk_of_fst h (xlatePages_wf _ _ _ _ _ hs)
            · exact memOk_of_fst h (xlatePages_wf _ _ _ _ _ hs)

theorem reportStep_wf (s : State) (n i : Nat) (c : Cmd) (m : XFault × Nat × Bool) (hs : s.memOk) :
    (reportStep s n i c m).memOk := by
  have joined := joinWaiter_wf _ c (reportMiss s (cmdXer n c) m.2.1 (if m.2.2 then .write else .read) m.1).2 m.2.1
    (reportMiss_wf s (cmdXer n c) m.2.1 (if m.2.2 then .write else .read) m.1 hs)
  unfold reportStep
  dsimp only
  split
  · exact gatherFault_wf _ _ _ _ _ _ joined
  · split
    · split
      · exact endCmd_wf _ _ _ _ _ joined
      · split
        · exact replayFault_wf _ _ _ _ _ _ _ _ joined
        · exact endReplay_wf _ _ _ _ _ joined
    · exact faultCmd_wf _ _ _ _ _ _ joined

theorem execEngineRefuse_wf (x : EngArgs) (s : State) (hs : s.memOk) : NextOk (execEngineRefuse x s) := by
  unfold execEngineRefuse
  split
  · exact nextOk_next hs
  · refine nextOk_ite (nextOk_next hs) ?_
    split
    · exact nextOk_next (endCmd_wf _ _ _ _ _ hs)
    · exact nextOk_next hs

theorem performCmd_wf (s : State) (x : EngArgs) (c : Cmd) (hs : s.memOk) : (performCmd s x c).memOk := by
  unfold performCmd
  split
  · exact reportStep_wf _ _ _ _ _ hs
  · exact memOk_ite (gatherStep_wf _ _ _ _ hs) (memOk_ite (replayStep_wf _ _ _ _ hs) (memOk_ite (memOk_ite hs
      (sealGranule_wf _ _ _ _ hs)) (memOk_ite (endCmd_wf _ _ _ _ _ (takeCut_wf _ _ hs)) (copyStep_wf _ _ _ _ hs))))

theorem execEnginePerform_wf (x : EngArgs) (s : State) (hs : s.memOk) : NextOk (execEnginePerform x s) := by
  unfold execEnginePerform
  split
  · exact nextOk_next hs
  · exact nextOk_next (memOk_ite (performCmd_wf _ _ _ hs) hs)

theorem execPseal_wf (x : EngArgs) (s : State) (hs : s.memOk) : NextOk (execPseal x s) := by
  unfold execPseal
  split
  · exact nextOk_next hs
  · exact nextOk_ite (nextOk_next hs) (nextOk_ite (nextOk_next (memOk_ite (sealFinish_wf _ _ _ _ hs) hs)) (nextOk_next
      (sealStart_wf _ _ _ _ hs)))

theorem execPunseal_wf (x : EngArgs) (s : State) (hs : s.memOk) : NextOk (execPunseal x s) := by
  unfold execPunseal
  split
  · exact nextOk_next hs
  · exact nextOk_ite (nextOk_next hs) (nextOk_next (unsealStart_wf _ _ _ _ hs))

theorem execEnginePost_wf (x : EngArgs) (s : State) (hs : s.memOk) : NextOk (execEnginePost x s) := by
  unfold execEnginePost
  dsimp only
  split
  · exact nextOk_next hs
  · refine nextOk_ite (nextOk_next hs) ?_
    split
    · exact nextOk_next (packetEnds_wf _ _ _ hs)
    · split
      · exact nextOk_next hs
      · exact nextOk_next (memOk_ite hs (memOk_ite hs hs))

theorem execLinkCommandStart_wf (x : EngArgs) (s : State) (hs : s.memOk) : NextOk (execLinkCommandStart x s) := by
  unfold execLinkCommandStart
  split
  · exact nextOk_next hs
  · split
    · exact nextOk_next hs
    · exact nextOk_ite (nextOk_next hs) (nextOk_next (setCmd_wf _ _ _ _ (creditStage_wf _ _ _ _ hs)))

theorem execLinkCommandPause_wf (x : EngArgs) (s : State) (hs : s.memOk) : NextOk (execLinkCommandPause x s) := by
  unfold execLinkCommandPause
  split
  · exact nextOk_next hs
  · split
    · exact nextOk_next hs
    · exact nextOk_next (memOk_ite (setCmd_wf _ _ _ _ hs) hs)

/-! ### Loops and deferral -/

theorem execClset_wf (x : ClsetArgs) (s : State) (hs : s.memOk) : NextOk (execClset x s) := by
  refine scalarStep_wf _ _ _ (Keeps.bind (consumeG_keeps _) fun _ => ?_) hs
  split
  · exact Keeps.bind (Keeps.pure _) fun _ => Keeps.ite (Keeps.trapD_bind _ _ _ _) (Keeps.bind (Keeps.modifyCur _) fun _ =>
      advance_keeps _)
  · exact Keeps.bind (consumeG_keeps _) fun _ => Keeps.ite (Keeps.trapD_bind _ _ _ _) (Keeps.bind
      (Keeps.modifyCur _) fun _ => advance_keeps _)

theorem skipBody_keeps (n : Nat) : ∀ va : Word, Keeps (skipBody va n) := by
  induction n with
  | zero => exact fun _ => Keeps.pure _
  | succ n ih => exact fun va => Keeps.bind (namePc_keeps _ _ (fetchWord_keeps _)) fun _ => ih _

theorem execClrun_wf (x : ClrunArgs) (s : State) (hs : s.memOk) : NextOk (execClrun x s) := by
  refine runThread_wf _ _ (Keeps.bind Keeps.getCur fun c => Keeps.ite (Keeps.bind (fetchBody_keeps _ _) fun body => ?_)
    (Keeps.bind (skipBody_keeps _ _) fun _ => Keeps.modifyCur _)) hs
  dsimp only
  split
  · exact Keeps.trapD_bind _ _ _ _
  · split
    · exact Keeps.throw_bind _ _
    · exact Keeps.modifyCur _

theorem valueRegs_keeps (n : VReg) (t : Ty) (k : Nat) : Keeps (valueRegs n t k) :=
  Keeps.bind Keeps.getCur fun _ => Keeps.mapM (fun _ => Keeps.ite (Keeps.pure _) (Keeps.trapD _ _ _)) _

theorem checkPath_keeps (p : Nat) : Keeps (checkPath p) :=
  Keeps.bind Keeps.getCur fun _ => Keeps.ite (Keeps.trapD _ _ _) (Keeps.pure _)

theorem foldl_pkgStoreAll_wf {α : Type} (l : List α) (pa : State → α → Nat) (bs : α → List Byte) (s : State) (hs : s.memOk) :
    (l.foldl (fun s q => pkgStoreAll s (pa s q) (bs q)) s).memOk :=
  foldl_wf _ (fun _ _ w => pkgStoreAll_wf _ _ _ w) _ _ hs

theorem execVdefer_wf (x : VdeferArgs) (s : State) (hs : s.memOk) : NextOk (execVdefer x s) := by
  refine vecStep_wf _ _ _ _ _ _ _ (Keeps.pure _) ?_ hs
  refine Keeps.bind (checkPath_keeps _) fun _ => Keeps.bind capturedG_keeps fun g => Keeps.bind
    (valueRegs_keeps _ _ _) fun regs =>
    Keeps.bind (Keeps.mapM (fun n => Keeps.bind (readV_keeps _ _) fun _ => Keeps.pure _) _) fun ops =>
    Keeps.bind (consumeV_keeps _ _) fun _ => Keeps.bind Keeps.getCur fun c => Keeps.ite (Keeps.trapD_bind _ _ _ _) ?_
  refine Keeps.get_bind fun s _ => Keeps.bind (ownRanges_keeps _) fun _ => Keeps.bind (settleTile_keeps _) fun _ =>
    Keeps.bind (Keeps.modify fun s w => foldl_pkgStoreAll_wf _ _ _ _ w) fun _ =>
    Keeps.bind (Keeps.modifyCur _) fun _ => takeStrips_keeps _

theorem execVdrain_wf (x : VdrainArgs) (s : State) (hs : s.memOk) : NextOk (execVdrain x s) := by
  refine vecStep_wf _ _ _ _ _ _ _ (Keeps.pure _) ?_ hs
  refine Keeps.bind Keeps.getCur fun c => Keeps.ite (Keeps.pure _) (Keeps.bind (checkPath_keeps _) fun _ =>
    Keeps.bind (valueRegs_keeps _ _ _) fun regs => Keeps.bind (checkDest_keeps _ _) fun _ =>
    Keeps.bind (Keeps.forM (fun _ => checkDest_keeps _ _) _) fun _ => ?_)
  dsimp only
  split
  · exact Keeps.trapD_bind _ _ _ _
  · exact Keeps.bind (Keeps.mapM (fun _ => readSpad_keeps _ _ _) _) fun _ => Keeps.bind (writeV_keeps _ _ _) fun _ =>
      Keeps.bind (Keeps.forM (fun _ => writeV_keeps _ _ _) _) fun _ => Keeps.modifyCur _

/-! ### Permutes and reductions -/

theorem permWrite_keeps (md : Mods) (zf : Bool) (d : VReg) (w : Nat) (out : List (Option Elem)) :
    Keeps (permWrite md zf d w out) := Keeps.bind Keeps.getCur fun _ => writeV_keeps _ _ _

theorem execVperm_wf (x : VTwoArgs) (s : State) (hs : s.memOk) : NextOk (execVperm x s) :=
  vecStep_wf _ _ _ _ _ _ _ (zeroDest_keeps _ _ _) (Keeps.bind (readV_keeps _ _) fun _ => Keeps.bind
    (readV_keeps _ _) fun _ => Keeps.bind (checkDest_keeps _ _) fun _ => Keeps.bind (consumeV_keeps _ _) fun _ =>
      Keeps.bind (permWrite_keeps _ _ _ _ _) fun _ => takeStrips_keeps _) hs

theorem slideBy_keeps (k : Imm) : Keeps (slideBy k) := capturedG_keeps

theorem execVslideUp_wf (x : VSlideArgs) (s : State) (hs : s.memOk) : NextOk (execVslideUp x s) :=
  vecStep_wf _ _ _ _ _ _ _ (zeroDest_keeps _ _ _) (Keeps.bind (readV_keeps _ _) fun _ => Keeps.bind
    (checkDest_keeps _ _) fun _ => Keeps.bind (slideBy_keeps _) fun _ => Keeps.bind (permWrite_keeps _ _ _ _ _) fun _ =>
      takeStrips_keeps _) hs

theorem execVslideDn_wf (x : VSlideArgs) (s : State) (hs : s.memOk) : NextOk (execVslideDn x s) :=
  vecStep_wf _ _ _ _ _ _ _ (zeroDest_keeps _ _ _) (Keeps.bind (readV_keeps _ _) fun _ => Keeps.bind
    (checkDest_keeps _ _) fun _ => Keeps.bind (slideBy_keeps _) fun _ => Keeps.bind (permWrite_keeps _ _ _ _ _) fun _ =>
      takeStrips_keeps _) hs

theorem execVbcast_wf (x : VBcastArgs) (s : State) (hs : s.memOk) : NextOk (execVbcast x s) :=
  vecStep_wf _ _ _ _ _ _ _ (zeroDest_keeps _ _ _) (Keeps.bind (checkDest_keeps _ _) fun _ =>
    Keeps.bind capturedG_keeps fun _ => Keeps.bind Keeps.getCur fun _ => permWrite_keeps _ _ _ _ _) hs

theorem execVcompress_wf (x : VOneArgs) (s : State) (hs : s.memOk) : NextOk (execVcompress x s) :=
  vecStep_wf _ _ _ _ _ _ _ (zeroDest_keeps _ _ _) (Keeps.bind (readV_keeps _ _) fun _ => Keeps.bind
    (checkDest_keeps _ _) fun _ => Keeps.bind Keeps.getCur fun _ => Keeps.bind (writeV_keeps _ _ _) fun _ =>
      takeStrips_keeps _) hs

theorem execVexpand_wf (x : VOneArgs) (s : State) (hs : s.memOk) : NextOk (execVexpand x s) :=
  vecStep_wf _ _ _ _ _ _ _ (zeroDest_keeps _ _ _) (Keeps.bind (readV_keeps _ _) fun _ => Keeps.bind
    (checkDest_keeps _ _) fun _ => Keeps.bind Keeps.getCur fun _ => Keeps.bind (permWrite_keeps _ _ _ _ _) fun _ =>
      takeStrips_keeps _) hs

theorem execVzip_wf (x : VTwoArgs) (s : State) (hs : s.memOk) : NextOk (execVzip x s) :=
  vecStep_wf _ _ _ _ _ _ _ (zeroDest_keeps _ _ _) (Keeps.bind (readV_keeps _ _) fun _ => Keeps.bind
    (readV_keeps _ _) fun _ => Keeps.bind (checkDest_keeps _ _) fun _ => Keeps.bind (permWrite_keeps _ _ _ _ _) fun _ =>
      takeStrips_keeps _) hs

theorem execVunzip_wf (x : VUnzipArgs) (s : State) (hs : s.memOk) : NextOk (execVunzip x s) :=
  vecStep_wf _ _ _ _ _ _ _ (zeroDest_keeps _ _ _) (Keeps.bind (readV_keeps _ _) fun _ => Keeps.bind
    (readV_keeps _ _) fun _ => Keeps.bind (checkDest_keeps _ _) fun _ => Keeps.bind (permWrite_keeps _ _ _ _ _) fun _ =>
      takeStrips_keeps _) hs

theorem execVred_wf (x : VRedArgs) (s : State) (hs : s.memOk) : NextOk (execVred x s) :=
  vecStep_wf _ _ _ _ _ _ _ (Keeps.bind Keeps.getCur fun _ => Keeps.ite (writeV_keeps _ _ _) (Keeps.pure _)) (Keeps.bind
    (readV_keeps _ _) fun _ => Keeps.bind (checkDest_keeps _ _) fun _ => Keeps.bind Keeps.getCur fun _ => Keeps.bind
      (writeV_keeps _ _ _) fun _ => takeStrips_keeps _) hs

theorem execVscan_wf (x : VScanArgs) (s : State) (hs : s.memOk) : NextOk (execVscan x s) :=
  vecStep_wf _ _ _ _ _ _ _ (zeroDest_keeps _ _ _) (Keeps.bind (readV_keeps _ _) fun _ => Keeps.bind
    (checkDest_keeps _ _) fun _ => Keeps.bind Keeps.getCur fun _ => Keeps.bind (writeV_keeps _ _ _) fun _ =>
      takeStrips_keeps _) hs

theorem shiftWrite_keeps (md : Mods) (zf : Bool) (d : VReg) (w : Nat) (hi lo : WString) (k : Nat) :
    Keeps (shiftWrite md zf d w hi lo k) := Keeps.bind Keeps.getCur fun _ => Keeps.modifyCur _

theorem shiftOne_keeps (x : VSlideArgs) (left : Bool) : Keeps (shiftOne x left) :=
  Keeps.bind (readV_keeps _ _) fun _ => Keeps.bind (checkDest_keeps _ _) fun _ => Keeps.bind Keeps.getCur fun _ =>
    Keeps.bind capturedG_keeps fun _ => Keeps.ite (Keeps.bind (shiftWrite_keeps _ _ _ _ _ _ _) fun _ =>
      takeStrips_keeps _) (Keeps.bind (shiftWrite_keeps _ _ _ _ _ _ _) fun _ => takeStrips_keeps _)

theorem execVshlw_wf (x : VSlideArgs) (s : State) (hs : s.memOk) : NextOk (execVshlw x s) :=
  vecStep_wf _ _ _ _ _ _ _ (zeroDest_keeps _ _ _) (shiftOne_keeps _ _) hs

theorem execVshrw_wf (x : VSlideArgs) (s : State) (hs : s.memOk) : NextOk (execVshrw x s) :=
  vecStep_wf _ _ _ _ _ _ _ (zeroDest_keeps _ _ _) (shiftOne_keeps _ _) hs

theorem shiftTwo_keeps (x : VFshArgs) (left : Bool) : Keeps (shiftTwo x left) :=
  Keeps.bind (readV_keeps _ _) fun _ => Keeps.bind (readV_keeps _ _) fun _ => Keeps.bind (checkDest_keeps _ _) fun _ =>
    Keeps.bind Keeps.getCur fun _ => Keeps.bind capturedG_keeps fun _ => Keeps.bind
      (shiftWrite_keeps _ _ _ _ _ _ _) fun _ => takeStrips_keeps _

theorem execVfshlw_wf (x : VFshArgs) (s : State) (hs : s.memOk) : NextOk (execVfshlw x s) :=
  vecStep_wf _ _ _ _ _ _ _ (zeroDest_keeps _ _ _) (shiftTwo_keeps _ _) hs

theorem execVfshrw_wf (x : VFshArgs) (s : State) (hs : s.memOk) : NextOk (execVfshrw x s) :=
  vecStep_wf _ _ _ _ _ _ _ (zeroDest_keeps _ _ _) (shiftTwo_keeps _ _) hs

/-! ### Predicates -/

theorem vcompare_keeps (md : Mods) (zf : Bool) (d : PReg) (a b : VReg) (t : Ty) (f : Nat → Nat → Bool) :
    Keeps (vcompare md zf d a b t f) :=
  Keeps.bind (readV_keeps _ _) fun _ => Keeps.bind (readV_keeps _ _) fun _ => Keeps.bind (consumeV_keeps _ _) fun _ =>
    Keeps.bind Keeps.getCur fun _ => Keeps.bind (writePred_keeps _ _) fun _ => takeStrips_keeps _

theorem execVcmp_wf (x : VcmpArgs) (s : State) (hs : s.memOk) : NextOk (execVcmp x s) :=
  vecStep_wf _ _ _ _ _ _ _ (zeroPred_keeps _ _) (vcompare_keeps _ _ _ _ _ _ _) hs

theorem execVfcmp_wf (x : VfcmpArgs) (s : State) (hs : s.memOk) : NextOk (execVfcmp x s) :=
  vecStep_wf _ _ _ _ _ _ _ (zeroPred_keeps _ _) (vcompare_keeps _ _ _ _ _ _ _) hs

theorem ptwo_wf (i : Instr) (x : PTwoArgs) (f : Bool → Bool → Bool) (s : State) (hs : s.memOk) : NextOk (ptwo i x f s) :=
  vecStep_wf _ _ _ _ _ _ _ (zeroPred_keeps _ _) (Keeps.bind Keeps.getCur fun _ => writePred_keeps _ _) hs

theorem execPnot_wf (x : POneArgs) (s : State) (hs : s.memOk) : NextOk (execPnot x s) :=
  vecStep_wf _ _ _ _ _ _ _ (zeroPred_keeps _ _) (Keeps.bind Keeps.getCur fun _ => writePred_keeps _ _) hs

theorem execPfirst_wf (x : POneArgs) (s : State) (hs : s.memOk) : NextOk (execPfirst x s) :=
  vecStep_wf _ _ _ _ _ _ _ (zeroPred_keeps _ _) (Keeps.bind Keeps.getCur fun _ => writePred_keeps _ _) hs

theorem execPcount_wf (x : PcountArgs) (s : State) (hs : s.memOk) : NextOk (execPcount x s) :=
  vecStep_wf _ _ _ _ _ _ _ (Keeps.modifyCur _) (Keeps.bind Keeps.getCur fun _ => Keeps.modifyCur _) hs

theorem execVexit_wf (x : POneArgs) (s : State) (hs : s.memOk) : NextOk (execVexit x s) :=
  vecStep_wf _ _ _ _ _ _ _ (zeroPred_keeps _ _) (Keeps.bind Keeps.getCur fun _ => writePred_keeps _ _) hs

/-! ### Order: issue, performing, evictions and fences -/

theorem acting_wf (s : State) (k : Nat) (p : Party) (hs : s.memOk) : (acting s k p).memOk := hs

theorem execIssue_wf (x : AccArgs) (s : State) (hs : s.memOk) : NextOk (execIssue x s) := by
  unfold execIssue
  dsimp only
  split
  · exact nextOk_next hs
  · exact nextOk_ite (nextOk_next hs) (nextOk_next (memOk_of_eq (modPq_mem _ _ _ _) hs))

theorem execPerformLoad_wf (x : AccArgs) (s : State) (hs : s.memOk) : NextOk (execPerformLoad x s) := by
  unfold execPerformLoad
  dsimp only
  split
  · exact nextOk_next hs
  · exact nextOk_ite (nextOk_next hs) (nextOk_next (memOk_ite (restAfter_wf _ _ (memOk_of_eq (retire_mem _ _ _)
      (performAccess_wf _ _ _ _ (memOk_of_eq (modPq_mem _ _ _ _) (acting_wf _ _ _ hs))))) (performAccess_wf _ _ _ _
        (memOk_of_eq (modPq_mem _ _ _ _) (acting_wf _ _ _ hs)))))

theorem execPerformStore_wf (x : AccArgs) (s : State) (hs : s.memOk) : NextOk (execPerformStore x s) := by
  unfold execPerformStore
  dsimp only
  split
  · exact nextOk_next hs
  · exact nextOk_ite (nextOk_next hs) (nextOk_next (performAccess_wf _ _ _ _ (memOk_of_eq (modPq_mem _ _ _ _)
      (acting_wf _ _ _ hs))))

theorem vecDispatch_wf (i : Instr) (s : State) (hs : s.memOk) : ∀ o, vecDispatch i s = some o → NextOk o := by
  intro o h
  unfold vecDispatch at h
  split at h
  · cases h; exact execFenceSv_wf _ _ hs
  · cases h; exact execFenceVv_wf _ _ hs
  · cases h; exact execVmode_wf _ _ hs
  · cases h; exact execSetvl_wf _ _ hs
  · cases h; exact vbin_wf _ _ _ _ hs
  · cases h; exact vbin_wf _ _ _ _ hs
  · cases h; exact vbin_wf _ _ _ _ hs
  · cases h; exact vbin_wf _ _ _ _ hs
  · cases h; exact vbin_wf _ _ _ _ hs
  · cases h; exact vbin_wf _ _ _ _ hs
  · cases h; exact vbin_wf _ _ _ _ hs
  · cases h; exact vbin_wf _ _ _ _ hs
  · cases h; exact vbin_wf _ _ _ _ hs
  · cases h; exact vbin_wf _ _ _ _ hs
  · cases h; exact vbin_wf _ _ _ _ hs
  · cases h; exact vbin_wf _ _ _ _ hs
  · cases h; exact vbin_wf _ _ _ _ hs
  · cases h; exact execVabs_wf _ _ hs
  · cases h; exact execVneg_wf _ _ hs
  · cases h; exact execVmacc_wf _ _ hs
  · cases h; exact execVsat_wf _ _ hs
  · cases h; exact execVsel_wf _ _ hs
  · cases h; exact vfbin_wf _ _ _ _ hs
  · cases h; exact vfbin_wf _ _ _ _ hs
  · cases h; exact vfbin_wf _ _ _ _ hs
  · cases h; exact vfpick_wf _ _ _ _ hs
  · cases h; exact vfpick_wf _ _ _ _ hs
  · cases h; exact vfone_wf _ _ _ _ hs
  · cases h; exact vfone_wf _ _ _ _ hs
  · cases h; exact vfbin_wf _ _ _ _ hs
  · cases h; exact execVfsqrt_wf _ _ hs
  · cases h; exact vfone_wf _ _ _ _ hs
  · cases h; exact vfone_wf _ _ _ _ hs
  · cases h; exact vfma_wf _ _ _ _ _ hs
  · cases h; exact vfma_wf _ _ _ _ _ hs
  · cases h; exact vfma_wf _ _ _ _ _ hs
  · cases h; exact vfma_wf _ _ _ _ _ hs
  · cases h; exact execVcmp_wf _ _ hs
  · cases h; exact execVfcmp_wf _ _ hs
  · cases h; exact ptwo_wf _ _ _ _ hs
  · cases h; exact ptwo_wf _ _ _ _ hs
  · cases h; exact ptwo_wf _ _ _ _ hs
  · cases h; exact execPnot_wf _ _ hs
  · cases h; exact execPfirst_wf _ _ hs
  · cases h; exact execPcount_wf _ _ hs
  · cases h; exact execVexit_wf _ _ hs
  · cases h; exact execVperm_wf _ _ hs
  · cases h; exact execVslideUp_wf _ _ hs
  · cases h; exact execVslideDn_wf _ _ hs
  · cases h; exact execVbcast_wf _ _ hs
  · cases h; exact execVcompress_wf _ _ hs
  · cases h; exact execVexpand_wf _ _ hs
  · cases h; exact execVzip_wf _ _ hs
  · cases h; exact execVunzip_wf _ _ hs
  · cases h; exact execVred_wf _ _ hs
  · cases h; exact execVscan_wf _ _ hs
  · cases h; exact execVshlw_wf _ _ hs
  · cases h; exact execVshrw_wf _ _ hs
  · cases h; exact execVfshlw_wf _ _ hs
  · cases h; exact execVfshrw_wf _ _ hs
  · cases h; exact execVld_wf _ _ hs
  · cases h; exact execVlds_wf _ _ hs
  · cases h; exact execVldx_wf _ _ hs
  · cases h; exact execVldff_wf _ _ hs
  · cases h; exact execVldseg_wf _ _ hs
  · cases h; exact execVst_wf _ _ hs
  · cases h; exact execVsts_wf _ _ hs
  · cases h; exact execVstx_wf _ _ hs
  · cases h; exact execVstseg_wf _ _ hs
  · cases h; exact execVcvt_wf _ _ hs
  · cases h; exact execVquant_wf _ _ hs
  · cases h; exact execVdequant_wf _ _ hs
  · cases h; exact execVbind_wf _ _ hs
  · cases h; exact execVunbind_wf _ _ hs
  · cases h; exact execMldt_wf _ _ hs
  · cases h; exact execMldtT_wf _ _ hs
  · cases h; exact execMrow_wf _ _ hs
  · cases h; exact execMrowa_wf _ _ hs
  · cases h; exact execMzero_wf _ _ hs
  · cases h; exact execMswap_wf _ _ hs
  · cases h; exact execMchain_wf _ _ hs
  · cases h; exact execMtbl_wf _ _ hs
  · cases h; exact execMdrain_wf _ _ hs
  · cases h; exact execVdefer_wf _ _ hs
  · cases h; exact execVdrain_wf _ _ hs
  · cases h

theorem vecReady_wf (i : Instr) (s : State) (hs : s.memOk) : ∀ t ∈ (vecReady i s), t.memOk := by
  intro t h
  have drained := drainFor_wf s s.core .vector (feeds s.cur.vr i) hs
  unfold vecReady at h
  dsimp only at h
  split at h
  · cases h
  · cases h; exact drained

theorem nextOk_cases {o : Out} (h : NextOk o) (f : State → State) (hf : ∀ s, s.memOk → (f s).memOk) :
    NextOk (match o with | .next s => .next (f s) | r => r) := by
  cases o with
  | next s => exact nextOk_next (hf s (h s rfl))
  | fault r => exact h
  | refused r => exact h

theorem execCommit_wf (core : Nat) (s : State) (hs : s.memOk) : NextOk (execCommit core s) := by
  have run (i : Instr) (o : Out) (h : (vecReady i (acting s core .vector)).bind (vecDispatch i) = some o) : NextOk o := by
    obtain ⟨t, ht, ho⟩ := Option.bind_eq_some_iff.mp h
    exact vecDispatch_wf i t (vecReady_wf i (acting s core .vector) hs t ht) o ho
  unfold execCommit
  dsimp only
  split
  · exact nextOk_next hs
  · split
    · exact nextOk_next hs
    · split
      · exact nextOk_next hs
      · split
        · next h => exact nextOk_next (restAfter_wf _ _ (run _ _ h _ rfl))
        · next h => exact run _ _ h
        · exact nextOk_next hs

theorem boundaryWords_wf (s : State) (hs : s.memOk) : ∀ p, boundaryWords s = some p → p.2.memOk := by
  have h := nextWords_keeps s hs
  unfold boundaryWords
  generalize nextWords s = r at h ⊢
  grind [endState]

theorem execVectorPush_wf (core : Nat) (s : State) (hs : s.memOk) : NextOk (execVectorPush core s) := by
  have words := boundaryWords_wf (acting s core .control) hs
  unfold execVectorPush
  split
  · exact nextOk_next hs
  · next ws t hws =>
    have run (i : Instr) (o : Out) (h : (ready i t).bind (vecDispatch i) = some o) : NextOk o := by
      obtain ⟨u, hu, ho⟩ := Option.bind_eq_some_iff.mp h
      exact vecDispatch_wf i u (ready_wf i t (words _ hws) u hu) o ho
    split
    · exact nextOk_next hs
    · split
      · next h => exact nextOk_next (afterThread_wf _ _ _ _ _ (run _ _ h _ rfl))
      · next h => exact run _ _ h
      · exact nextOk_next hs

theorem execIllegalInstruction_wf (core : Nat) (s : State) (hs : s.memOk) : NextOk (execIllegalInstruction core s) := by
  have words := boundaryWords_wf (acting s core .control) hs
  unfold execIllegalInstruction
  split
  · exact nextOk_next hs
  · next hws =>
    split
    · exact nextOk_next hs
    · exact nextOk_next (takeTrap_wf _ _ _ (words _ hws))

/-! ### Stores to RUN -/

theorem stopRun_wf (s : State) (slot : Nat) (hs : s.memOk) : (stopRun s slot).memOk := by
  refine memOk_ite hs ?_
  split
  · exact hs
  · exact memOk_ite hs (memOk_ite (haltWith_wf _ _ _ hs) (unqueueCtx_wf _ _ (haltWith_wf _ _ _ hs)))

theorem awaitCore_wf (s : State) (slot : Nat) (hs : s.memOk) : (awaitCore s slot).memOk :=
  memOk_ite hs (queueGang_wf _ _ _ hs)

theorem goRun_wf (s : State) (slot : Nat) (run : BitVec 2) (hs : s.memOk) : (goRun s slot run).memOk :=
  memOk_ite (memOk_ite hs (awaitCore_wf _ _ (resumeCtx_wf _ _ _ (memOk_ite (memOk_of_eq
    (State.setCtx_mem _ _ _) hs) hs)))) (memOk_ite hs hs)

theorem askHalt_wf (s : State) (slot who : Nat) (v : BitVec 2) (hs : s.memOk) : (askHalt s slot who v).memOk :=
  memOk_ite hs hs

theorem withdrawStore_wf (s : State) (me : Nat) (hs : s.memOk) : (withdrawStore s me).memOk :=
  memOk_ite (memOk_ite hs (memOk_of_eq (State.modCtx_mem _ _ _) (foldl_wf _ (fun _ _ w => memOk_of_eq
    (State.modCtx_mem _ _ _) w) _ _ hs))) hs

theorem settleHalts_wf (s : State) (hs : s.memOk) : (settleHalts s).memOk :=
  memOk_ite (foldl_wf _ (fun _ _ w => withdrawStore_wf _ _ w) _ _ (memOk_of_eq (State.mapCtxs_mem _ _) hs)) hs

theorem execHaltStep_wf (slot : Nat) (s : State) (hs : s.memOk) : NextOk (execHaltStep slot s) := by
  unfold execHaltStep
  split
  · exact nextOk_next hs
  · refine nextOk_ite (nextOk_next hs) ?_
    split
    · exact nextOk_next (haltWith_wf _ _ _ hs)
    · exact nextOk_next (memOk_ite (haltWith_wf _ _ _ hs) hs)
    · exact nextOk_next hs

theorem execTrap_wf (slot : Nat) (s : State) (hs : s.memOk) : NextOk (execTrap slot s) := by
  unfold execTrap
  split
  · exact nextOk_next hs
  · split
    · exact nextOk_next (memOk_ite hs (takeTrap_wf _ _ _ hs))
    · exact nextOk_next hs

theorem postReport_wf (s : State) (r : Report) (hs : s.memOk) : (postReport s r).memOk := by
  have wait : (if s.reports.length < 4096 then { s with reports := s.reports ++ [r] }
      else { s with arb := { s.arb with memlost := s.arb.memlost + 1 } } : State).memOk := memOk_ite hs hs
  unfold postReport
  dsimp only
  split
  · exact memOk_ite wait (postRecord_wf _ _ _ hs)
  · exact wait

theorem execTrapRecordPost_wf (queue : Nat) (s : State) (hs : s.memOk) : NextOk (execTrapRecordPost queue s) := by
  unfold execTrapRecordPost
  dsimp only
  split
  · exact nextOk_next hs
  · split
    · exact nextOk_next (postTrap_wf _ _ hs)
    · exact nextOk_next (memOk_ite (postTrap_wf _ _ hs) (postRecord_wf _ _ _ hs))
    · exact nextOk_next (postRecord_wf _ _ _ hs)
    · split
      · exact nextOk_next (postRecord_wf _ _ _ hs)
      · exact nextOk_next hs

theorem execParkWake_wf (slot : Nat) (s : State) (hs : s.memOk) : NextOk (execParkWake slot s) := by
  unfold execParkWake
  split
  · exact nextOk_next hs
  · exact nextOk_next (memOk_ite (wakeCtx_wf _ _ hs) hs)

theorem execCommitApply_wf (slot : Nat) (s : State) (hs : s.memOk) : NextOk (execCommitApply slot s) := by
  unfold execCommitApply
  split
  · exact nextOk_next hs
  · refine nextOk_ite (nextOk_next hs) (nextOk_next (memOk_of_eq (applyCommit_mem _ _) (memOk_of_eq (finishTile_mem _ _) ?_)))
    split
    · exact release_wf _ _ _ (drainCore_wf _ _ hs)
    · exact hs

/-! ### Control flow -/

theorem spinReload_keeps (l : SpinLoad) : Keeps (spinReload l) :=
  Keeps.get_bind fun _ _ => Keeps.ite (Keeps.ite (Keeps.pure _) (Keeps.pure _)) (Keeps.ite (Keeps.bind
    (loadCapMem_keeps _ _ _) fun _ => Keeps.pure _) (Keeps.bind (loadMem_keeps _ _ _ _) fun _ => Keeps.pure _))

theorem takeBranch_keeps (a target : Word) : Keeps (takeBranch a target) := by
  have count (c : Ctx) : Keeps (do
      let sp := spinAfter c a target
      if sp.count < 64 then modifyCur (fun c => setPc { c with spin := sp } target)
      else
        match spinLast c target with
        | none => modifyCur (fun c => setPc { c with spin := { sp with count := 0 } } target)
        | some l =>
          let (v, t) ← spinReload l
          modifyCur (fun c => setPc { c with spin := { sp with count := 0 } } target)
          if v = l.value ∧ t = l.tag then
            modifyCur (fun c => { c with
              parked := some (lineOf l.pa)
              hit := false
              h := { c.h with spinpark := c.h.spinpark + 1 } })
            modify (fun s => restLanes s s.slot)
          else pure () : M Unit) := by
    refine Keeps.ite (Keeps.modifyCur _) ?_
    split
    · exact Keeps.modifyCur _
    · exact Keeps.bind (spinReload_keeps _) fun _ => Keeps.bind (Keeps.modifyCur _) fun _ => Keeps.ite
        (Keeps.bind (Keeps.modifyCur _) fun _ => Keeps.modify fun s w => restLanes_wf _ _ w) (Keeps.pure _)
  refine Keeps.ite (Keeps.modifyCur _) (Keeps.bind Keeps.getCur fun c => Keeps.ite ?_ ?_)
  · exact Keeps.bind (drainParty_keeps _) fun _ => Keeps.bind Keeps.getCur count
  · exact Keeps.bind Keeps.getCur count

theorem execB_wf (x : BArgs) (s : State) (hs : s.memOk) : NextOk (execB x s) :=
  scalarStep_wf _ _ _ (Keeps.bind Keeps.getCur fun _ => takeBranch_keeps _ _) hs

theorem execBc_wf (x : BcArgs) (s : State) (hs : s.memOk) : NextOk (execBc x s) :=
  scalarStep_wf _ _ _ (Keeps.bind (consumeG_keeps _) fun _ => Keeps.bind Keeps.getCur fun _ => Keeps.ite
    (takeBranch_keeps _ _) (advance_keeps _)) hs

theorem execCall_wf (x : BArgs) (s : State) (hs : s.memOk) : NextOk (execCall x s) :=
  scalarStep_wf _ _ _ (Keeps.bind Keeps.getCur fun _ => Keeps.bind (rasPush_keeps _) fun _ => Keeps.modifyCur _) hs

theorem jumpTarget_keeps (a : GReg) : Keeps (jumpTarget a) :=
  Keeps.bind (consumeG_keeps _) fun _ => Keeps.ite (Keeps.trapD_bind _ _ _ _) (Keeps.pure _)

theorem execJmp_wf (x : MaArgs) (s : State) (hs : s.memOk) : NextOk (execJmp x s) :=
  scalarStep_wf _ _ _ (Keeps.bind (jumpTarget_keeps _) fun _ => Keeps.modifyCur _) hs

theorem execJmpCall_wf (x : MaArgs) (s : State) (hs : s.memOk) : NextOk (execJmpCall x s) :=
  scalarStep_wf _ _ _ (Keeps.bind (jumpTarget_keeps _) fun _ => Keeps.bind Keeps.getCur fun _ => Keeps.bind
    (rasPush_keeps _) fun _ => Keeps.modifyCur _) hs

theorem execRet_wf (x : RetArgs) (s : State) (hs : s.memOk) : NextOk (execRet x s) :=
  scalarStep_wf _ _ _ (Keeps.bind (rasPopAfter_keeps _) fun _ => Keeps.ite (Keeps.trapD_bind _ _ _ _) (Keeps.modifyCur _)) hs

/-! ### Deques and launch records -/

theorem finish_keeps (md : Mods) (d : GReg) (status : Nat) : Keeps (finish md d status) :=
  Keeps.bind (Keeps.modifyCur _) fun _ => advance_keeps _

theorem wakeCluster_wf (s : State) (cl : Nat) (hs : s.memOk) : (wakeCluster s cl).memOk :=
  foldl_wf _ (fun _ _ w => memOk_ite (memOk_of_eq (State.modCore_mem _ _ _) w) w) _ _ hs

theorem dqPush_wf (s : State) (k region i : Nat) (arg : Word) (hs : s.memOk) : (dqPush s k region i arg).memOk :=
  wakeCluster_wf _ _ (putRec_wf _ _ _ _ (memOk_of_eq (State.modCore_mem _ _ _) (pkgStoreAll_wf _ _ _ hs)))

theorem dqPop_wf (s : State) (k : Nat) (hs : s.memOk) : (dqPop s k).1.memOk := putRec_wf _ _ _ _ hs

theorem dqSteal_wf (s : State) (k me : Nat) (hs : s.memOk) : (dqSteal s k me).1.memOk :=
  acquire_wf _ _ _ (pushLines_wf _ _ _ _ (putRec_wf _ _ _ _ hs))

theorem tookEntry_keeps (md : Mods) (d : GReg) (e : Nat × Nat × Word) : Keeps (tookEntry md d e) :=
  Keeps.bind (Keeps.modifyCur _) fun _ => advance_keeps _

theorem execDpush_wf (x : DpushArgs) (s : State) (hs : s.memOk) : NextOk (execDpush x s) := by
  refine scalarStep_wf _ _ _ ?_ hs
  refine Keeps.bind parkIfSpec_keeps fun _ => Keeps.bind (consumeG_keeps _) fun n => Keeps.bind (consumeG_keeps _) fun arg =>
    Keeps.bind (drainParty_keeps _) fun _ => Keeps.get_bind fun s w => ?_
  dsimp only
  split
  · exact finish_keeps _ _ _
  · exact Keeps.ite (finish_keeps _ _ _) (Keeps.ite (finish_keeps _ _ _)
      (Keeps.bind (Keeps.set (dqPush_wf _ _ _ _ _ w)) fun _ => finish_keeps _ _ _))

theorem execDpop_wf (x : MdArgs) (s : State) (hs : s.memOk) : NextOk (execDpop x s) :=
  scalarStep_wf _ _ _ (Keeps.bind parkIfSpec_keeps fun _ => Keeps.get_bind fun _ _ => Keeps.ite (finish_keeps _ _ _)
    (Keeps.bind (ownFirst_keeps _ _) fun _ => Keeps.get_bind fun _ w' => Keeps.bind (Keeps.set (putRec_wf _ _ _ _
      (memOk_of_eq (State.modCore_mem _ _ _) w'))) fun _ => tookEntry_keeps _ _ _)) hs

theorem execDsteal_wf (x : MdaArgs) (s : State) (hs : s.memOk) : NextOk (execDsteal x s) := by
  refine scalarStep_wf _ _ _ ?_ hs
  refine Keeps.bind parkIfSpec_keeps fun _ => Keeps.bind (consumeG_keeps _) fun v => Keeps.get_bind fun s w =>
    Keeps.ite (finish_keeps _ _ _) (Keeps.bind (ownFirst_keeps _ _) fun _ => Keeps.get_bind fun s w => ?_)
  split
  · exact finish_keeps _ _ _
  · exact Keeps.bind (Keeps.set (dqSteal_wf _ _ _ w)) fun _ => tookEntry_keeps _ _ _

theorem placeRecord_wf (s : State) (region i : Nat) (packet : Option (Nat × Nat)) (hs : s.memOk) :
    (placeRecord s region i packet).2.memOk :=
  snd_wf_ite hs (snd_wf_ite hs (snd_wf_ite hs (queueGang_wf _ _ _ (putRec_wf _ _ _ _ hs))))

theorem patchRecord_wf (s : State) (pa slot : Nat) (v : Word) (hs : s.memOk) : (patchRecord s pa slot v).memOk :=
  pkgPut_wf _ _ _ hs

theorem execLpatch_wf (x : LpatchArgs) (s : State) (hs : s.memOk) : NextOk (execLpatch x s) := by
  refine scalarStep_wf _ _ _ ?_ hs
  refine Keeps.bind parkIfSpec_keeps fun _ => Keeps.bind (consumeG_keeps _) fun n => Keeps.bind (consumeB_keeps _ _) fun v =>
    Keeps.get_bind fun s w => ?_
  dsimp only
  split
  · exact finish_keeps _ _ _
  · exact Keeps.ite (finish_keeps _ _ _) (Keeps.bind ctlRelease_keeps fun _ => Keeps.get_bind fun s w => Keeps.ite
      (Keeps.bind ctlAcquire_keeps fun _ => finish_keeps _ _ _)
      (Keeps.bind (Keeps.modify fun s w => patchRecord_wf _ _ _ _ w) fun _ => Keeps.bind ctlAcquire_keeps fun _ =>
        finish_keeps _ _ _))

theorem larmBody_keeps (x : LarmArgs) (f : ArmFn) (hf : ∀ s r i, s.memOk → (f s r i).2.memOk) : Keeps (larmBody x f) := by
  refine Keeps.bind parkIfSpec_keeps fun _ => Keeps.bind (consumeG_keeps _) fun n => Keeps.get_bind fun s w => ?_
  dsimp only
  split
  · exact finish_keeps _ _ _
  · exact Keeps.bind ctlRelease_keeps fun _ => Keeps.get_bind fun s w => Keeps.bind (Keeps.set (hf _ _ _ w)) fun _ =>
      Keeps.bind ctlAcquire_keeps fun _ => finish_keeps _ _ _

theorem armFn_wf (s : State) (r i : Nat) (hs : s.memOk) : (armFn s r i).2.memOk :=
  snd_wf_ite hs (snd_wf_ite hs (putRec_wf _ _ _ _ hs))

theorem disarmFn_wf (s : State) (r i : Nat) (hs : s.memOk) : (disarmFn s r i).2.memOk :=
  snd_wf_ite hs (putRec_wf _ _ _ _ hs)

theorem execLarmPlace_wf (x : LarmArgs) (s : State) (hs : s.memOk) : NextOk (execLarmPlace x s) :=
  scalarStep_wf _ _ _ (larmBody_keeps x placeFn fun s r i w => placeRecord_wf s r i none w) hs

theorem execLarmArm_wf (x : LarmArgs) (s : State) (hs : s.memOk) : NextOk (execLarmArm x s) :=
  scalarStep_wf _ _ _ (larmBody_keeps x armFn armFn_wf) hs

theorem disarm_wf (x : LarmArgs) (s : State) (hs : s.memOk) : NextOk (execLarmDisarm x s) :=
  scalarStep_wf _ _ _ (larmBody_keeps x disarmFn disarmFn_wf) hs

/-! ### Segments -/

theorem putChain_wf (s : State) (r id : Nat) (ch : List Term) (hs : s.memOk) : (putChain s r id ch).memOk :=
  foldl_wf _ (fun _ _ w => pkgPut_wf _ _ _ w) _ _ hs

theorem pkgPutCap_wf (s : State) (pa : Nat) (c : Cap) (hs : s.memOk) : (pkgPutCap s pa c).memOk := pkgStore_wf _ _ _ _ hs

theorem putSnapshot_wf (s : State) (a : Nat) (entry : Word) (c : Ctx) (hs : s.memOk) : (putSnapshot s a entry c).memOk :=
  pkgPut_wf _ _ _ (pkgPut_wf _ _ _ (pkgPut_wf _ _ _ (pkgPut_wf _ _ _ (pkgPut_wf _ _ _ (pkgPutCap_wf _ _ _
    (pkgPutCap_wf _ _ _ (pkgPut_wf _ _ _ (foldl_wf _ (fun _ _ w => pkgPutCap_wf _ _ _ w) _ _ (pkgPut_wf _ _ _ (foldl_wf _
      (fun _ _ w => pkgPut_wf _ _ _ w) _ _ (pkgPut_wf _ _ _ hs)))))))))))

theorem wakeRegion_wf (s : State) (r : Nat) (hs : s.memOk) : (wakeRegion s r).memOk := hs

theorem condTouch_wf (s : State) (r cond : Nat) (pc : Word) (hs : s.memOk) : (condTouch s r cond pc).memOk :=
  pkgPut_wf _ _ _ hs

theorem spawnStep_wf (s : State) (c : Ctx) (cond : Nat) (target : Word) (d : GReg) (ch : List Term) (dp : Nat) (hs : s.memOk)
    : (spawnStep s c cond target d ch dp).1.memOk :=
  wakeRegion_wf _ _ (pkgPut_wf _ _ _ (putChain_wf _ _ _ _ (putSnapshot_wf _ _ _ _ (pkgPut_wf _ _ _ (pkgPut_wf _ _ _
    (memOk_of_eq (budgetTake_mem _ _ _ _) (condTouch_wf _ _ _ _ hs)))))))

theorem execSspawn_wf (x : SspawnArgs) (s : State) (hs : s.memOk) : NextOk (execSspawn x s) := by
  refine scalarStep_wf _ _ _ ?_ hs
  refine Keeps.bind (consumeG_keeps _) fun v => Keeps.bind waitVector_keeps fun _ => Keeps.bind (drainParty_keeps _) fun _ =>
    Keeps.bind (releaseOwn_keeps _) fun _ => Keeps.get_bind fun s w => ?_
  dsimp only
  split
  · exact finish_keeps _ _ _
  · exact Keeps.bind (Keeps.set (spawnStep_wf _ _ _ _ _ _ _ w)) fun _ => Keeps.bind (Keeps.modifyCur _) fun _ =>
      advance_keeps _

theorem handOut_wf (s : State) (k id : Nat) (hs : s.memOk) : ∀ t ∈ (handOut s k id), t.memOk := by
  grind [handOut, clearCores_wf, takeAll_wf, scrubCore_wf, pkgPut_wf, freeDesc_wf, setGang_wf, enterCore_wf,
    State.setCtx_mem]

theorem wsDiscard_wf (s : State) (r id : Nat) (hs : s.memOk) : (wsDiscard s r id).memOk := hs

theorem foldl_rstateStore_wf (l : List Nat) (p : Nat → Bool) (pa : Nat → Nat) (bs : Nat → List Byte) (s : State) (hs :
    s.memOk) :
    (l.foldl (fun s i => if p i then rstateStore s (pa i) (bs i) else s) s).memOk :=
  foldl_wf _ (fun _ _ w => memOk_ite (rstateStore_wf _ _ _ w) w) _ _ hs

theorem commitLine_wf (s : State) (core : Option Nat) (die r l : Nat) (x : L1Line) (hs : s.memOk) :
    (commitLine s core die r l x).memOk := by
  have carried (l' : List Nat) : (l'.foldl (fun s j => carry1 s j l) s).memOk := foldl_wf _ (fun _ _ w =>
    carry1_wf _ _ _ w) _ _ hs
  unfold commitLine
  refine memOk_ite (memOk_of_eq (touch_mem _ _) (l2Merge_wf _ _ _ _ ?_)) (memOk_of_eq (touch_mem _ _) (pkgSet_wf _ _ _ _ hs))
  cases core with
  | none => exact memOk_ite (foldl_rstateStore_wf _ _ _ _ _ hs) hs
  | some k => exact memOk_ite (foldl_rstateStore_wf _ _ _ _ _ (carried _)) (carried _)

theorem wsCommit_wf (s : State) (r id : Nat) (hs : s.memOk) : (wsCommit s r id).memOk :=
  wsDiscard_wf _ _ _ (foldl_wf _ (fun _ _ w => commitLine_wf _ _ _ _ _ _ w) _ _ hs)

theorem pruneTroupe_wf (s : State) (r id : Nat) (hs : s.memOk) : (pruneTroupe s r id).memOk := hs

theorem stopForGood_wf (s : State) (slot : Nat) (hs : s.memOk) : (stopForGood s slot).memOk :=
  memOk_ite (memOk_of_eq (State.modCtx_mem _ _ _) (haltWith_wf _ _ _ hs)) (unqueueCtx_wf _ _ (memOk_of_eq
    (State.modCtx_mem _ _ _) (haltWith_wf _ _ _ hs)))

theorem pruneDesc_wf (s : State) (r id : Nat) (hs : s.memOk) : (pruneDesc s r id).memOk := by
  unfold pruneDesc
  dsimp only
  split
  · exact wsDiscard_wf _ _ _ (stopForGood_wf _ _ (pruneTroupe_wf _ _ _ hs))
  · exact memOk_ite (freeDesc_wf _ _ _ (wsDiscard_wf _ _ _ (pruneTroupe_wf _ _ _ hs))) (wsDiscard_wf _ _ _
      (pruneTroupe_wf _ _ _ hs))

theorem commitCtx_wf (s : State) (slot : Nat) (hs : s.memOk) : (commitCtx s slot).memOk :=
  memOk_ite (postTrap_wf _ _ hs) (memOk_ite (memOk_of_eq (laneRegrant_mem _ _) hs) hs)

theorem commitDesc_wf (s : State) (r id : Nat) (hs : s.memOk) : (commitDesc s r id).memOk := by
  refine memOk_ite hs ?_
  split
  · exact freeDesc_wf _ _ _ (wsCommit_wf _ _ _ hs)
  · exact commitCtx_wf _ _ (freeDesc_wf _ _ _ (wsCommit_wf _ _ _ hs))

theorem resolveStep_wf (s : State) (r cond o : Nat) (hs : s.memOk) : (resolveStep s r cond o).1.memOk := by
  refine foldl_wf _ (fun _ _ w => commitDesc_wf _ _ _ w) _ _ (foldl_wf _ (fun _ _ w => ?_) _ _ (foldl_wf _ (fun _ _ w =>
    pkgPut_wf _ _ _ (putChain_wf _ _ _ _ w)) _ _ (foldl_wf _ (fun _ _ w => pruneDesc_wf _ _ _ w) _ _ (pkgPut_wf _ _ _
      (memOk_ite (pkgStore_wf _ _ _ _ hs) hs)))))
  dsimp only
  split
  · exact memOk_of_eq (State.modCtx_mem _ _ _) (pkgPut_wf _ _ _ w)
  · exact pkgPut_wf _ _ _ w

theorem resolveEnd_keeps (md : Mods) (d : GReg) (st : Nat) : Keeps (resolveEnd md d st) :=
  Keeps.bind (Keeps.modify fun _ w => acquire_wf _ _ _ w) fun _ => Keeps.bind (Keeps.modifyCur _) fun _ => finish_keeps _ _ _

theorem whenEnded_keeps (k : Nat → M Unit) (st : Nat) (h : Keeps (k st)) : Keeps (whenEnded k st) :=
  Keeps.bind (Keeps.modifyCur _) fun _ => Keeps.bind Keeps.getCur fun _ => Keeps.ite h (Keeps.pure _)

theorem resolving_keeps (s : State) (r c o : Nat) (k : Nat → M Unit) (hs : s.memOk) (hk : ∀ st, Keeps (k st)) :
    Keeps (do
      let (s, ends) := resolveStep s r c o
      set s
      modifyCur (fun c => { c with awaits := ends })
      whenEnded k 0 : M Unit) := by
  have h := resolveStep_wf s r c o hs
  generalize resolveStep s r c o = p at h ⊢
  exact Keeps.bind (Keeps.set h) fun _ => Keeps.bind (Keeps.modifyCur _) fun _ => whenEnded_keeps _ _ (hk _)

theorem execSresolve_wf (x : SresolveArgs) (s : State) (hs : s.memOk) : NextOk (execSresolve x s) := by
  refine scalarStep_wf _ _ _ (Keeps.bind Keeps.getCur fun c => ?_) hs
  split
  · exact whenEnded_keeps _ _ (resolveEnd_keeps _ _ _)
  · refine Keeps.bind (consumeG_keeps _) fun o => Keeps.bind parkIfSpec_keeps fun _ => Keeps.bind
      (releaseOwn_keeps _) fun _ =>
      Keeps.get_bind fun s w => Keeps.ite (resolveEnd_keeps _ _ _) (Keeps.ite (resolveEnd_keeps _ _ _)
        (Keeps.ite (resolveEnd_keeps _ _ _) ?_))
    exact resolving_keeps _ _ _ _ _ w (fun _ => resolveEnd_keeps _ _ _)

theorem execSresolveFree_wf (x : SCondArgs) (s : State) (hs : s.memOk) : NextOk (execSresolveFree x s) :=
  scalarStep_wf _ _ _ (Keeps.bind parkIfSpec_keeps fun _ => Keeps.bind (releaseOwn_keeps _) fun _ =>
    Keeps.get_bind fun _ w => Keeps.ite (resolveEnd_keeps _ _ _) (Keeps.bind (Keeps.set (pkgPut_wf _ _ _ w)) fun _ =>
      resolveEnd_keeps _ _ _)) hs

theorem execPrunedSegmentEnd_wf (slot : Nat) (s : State) (hs : s.memOk) : NextOk (execPrunedSegmentEnd slot s) := by
  unfold execPrunedSegmentEnd
  split
  · exact nextOk_next hs
  · exact nextOk_ite (nextOk_next (endSingle_wf _ _ hs)) (nextOk_next hs)

theorem execSlk_wf (x : MdArgs) (s : State) (hs : s.memOk) : NextOk (execSlk x s) :=
  scalarStep_wf _ _ _ (Keeps.bind Keeps.getCur fun _ => Keeps.bind (Keeps.modifyCur _) fun _ => advance_keeps _) hs

theorem execSlkSeg_wf (x : MdaArgs) (s : State) (hs : s.memOk) : NextOk (execSlkSeg x s) :=
  scalarStep_wf _ _ _ (Keeps.bind (consumeG_keeps _) fun _ => Keeps.get_bind fun _ _ => Keeps.bind
    (Keeps.modifyCur _) fun _ => advance_keeps _) hs

theorem execSlkCond_wf (x : SCondArgs) (s : State) (hs : s.memOk) : NextOk (execSlkCond x s) :=
  scalarStep_wf _ _ _ (Keeps.get_bind fun _ _ => Keeps.bind (Keeps.modifyCur _) fun _ => advance_keeps _) hs

theorem execSegmentPark_wf (core : Nat) (s : State) (hs : s.memOk) : NextOk (execSegmentPark core s) := by
  unfold execSegmentPark
  split
  · exact nextOk_next hs
  · refine nextOk_ite (nextOk_next hs) ?_
    split
    · split
      · exact nextOk_ite (nextOk_next (restLanes_wf _ _ hs)) (nextOk_next hs)
      · exact nextOk_next hs
    · exact nextOk_next hs
    · exact nextOk_next hs

/-! ### Troupes -/

theorem setTroupe_wf (s : State) (t : Nat) (x : Troupe) (hs : s.memOk) : (setTroupe s t x).memOk := hs

theorem forkOne_wf (c : Ctx) (d : GReg) (target : Word) (t : Nat) (s : State) (i slot : Nat) (hs : s.memOk) :
    (forkOne c d target t s i slot).memOk := by
  grind [forkOne, budgetTake_mem, pkgPut_wf, putChain_wf, putSnapshot_wf, queueGang_wf, imagesBorn_wf, State.setCtx_mem]

theorem noteDesc_wf (s : State) (t i slot : Nat) (hs : s.memOk) : (noteDesc s t i slot).memOk := by
  unfold noteDesc
  split
  · exact memOk_ite (setTroupe_wf _ _ _ hs) hs
  · exact hs

theorem forkStep_wf (s : State) (c : Ctx) (d : GReg) (target w0 w1 : Word) (n : Nat) (hs : s.memOk) :
    (forkStep s c d target w0 w1 n).1.memOk :=
  foldl_wf _ (fun _ _ w => noteDesc_wf _ _ _ _ (forkOne_wf _ _ _ _ _ _ _ w)) _ _ (setTroupe_wf _ _ _ (memOk_of_eq
    (budgetTake_mem _ _ _ _) hs))

theorem execTfork_wf (x : TforkArgs) (s : State) (hs : s.memOk) : NextOk (execTfork x s) := by
  refine scalarStep_wf _ _ _ ?_ hs
  refine Keeps.bind (consumeG_keeps _) fun n => Keeps.bind Keeps.getCur fun c => Keeps.bind
    (capAccess_keeps _ _ _ _ _ _) fun r =>
    Keeps.bind (orTrap_keeps _ _) fun pa => Keeps.ite (Keeps.trapD_bind _ _ _ _) (Keeps.ite (Keeps.trapD_bind _ _ _ _) ?_)
  refine Keeps.bind (loadMem_keeps _ _ _ _) fun bs => Keeps.get_bind fun s w => Keeps.ite (finish_keeps _ _ _)
    (Keeps.ite (finish_keeps _ _ _) (Keeps.ite (finish_keeps _ _ _) ?_))
  exact Keeps.bind waitVector_keeps fun _ => Keeps.bind (drainParty_keeps _) fun _ => Keeps.bind (releaseOwn_keeps _) fun _ =>
    Keeps.get_bind fun s w => Keeps.bind (Keeps.set (forkStep_wf _ _ _ _ _ _ _ w)) fun _ => Keeps.bind
      (Keeps.modifyCur _) fun _ =>
    advance_keeps _

theorem execTreward_wf (x : MdaArgs) (s : State) (hs : s.memOk) : NextOk (execTreward x s) := by
  refine scalarStep_wf _ _ _ ?_ hs
  refine Keeps.bind (consumeG_keeps _) fun v => Keeps.bind parkIfSpec_keeps fun _ => Keeps.bind Keeps.getCur fun c => ?_
  split
  · exact finish_keeps _ _ _
  · refine Keeps.bind (releaseOwn_keeps _) fun _ => Keeps.get_bind fun s w => ?_
    split
    · exact finish_keeps _ _ _
    · exact Keeps.bind (Keeps.set (setTroupe_wf _ _ _ w)) fun _ => finish_keeps _ _ _

theorem noDelivery_keeps (md : Mods) (d : GReg) (w : Word) : Keeps (noDelivery md d w) :=
  Keeps.bind (Keeps.modifyCur _) fun _ => advance_keeps _

theorem deliver_keeps (md : Mods) (d : GReg) (r : Word × Word) : Keeps (deliver md d r) :=
  Keeps.bind (Keeps.modifyCur _) fun _ => Keeps.bind (Keeps.modify fun _ w => acquire_wf _ _ _ w) fun _ => Keeps.bind
    (advance_keeps _) fun _ => Keeps.modify fun _ w => memOk_of_eq (laneRegrant_mem _ _) w

theorem waitClose_keeps (t i : Nat) : Keeps (waitClose t i) :=
  Keeps.bind (Keeps.modify fun _ w => restLanes_wf _ _ (memOk_of_eq (State.modCur_mem _ _) w)) fun _ => Keeps.waits

theorem execTbar_wf (x : MdArgs) (s : State) (hs : s.memOk) : NextOk (execTbar x s) := by
  refine scalarStep_wf _ _ _ (Keeps.get_bind fun _ w => ?_) hs
  split
  · exact noDelivery_keeps _ _ _
  · split
    · exact noDelivery_keeps _ _ _
    · exact Keeps.ite (waitClose_keeps _ _) (deliver_keeps _ _ _)

theorem tadvBody_keeps (x : MdabArgs) (nw : Bool) : Keeps (tadvBody x nw) := by
  refine Keeps.bind (consumeG_keeps _) fun _ => Keeps.bind (consumeG_keeps _) fun _ => Keeps.get_bind fun _ w => ?_
  split
  · exact deliver_keeps _ _ _
  · split
    · exact noDelivery_keeps _ _ _
    · exact Keeps.ite (Keeps.ite (noDelivery_keeps _ _ _) (waitClose_keeps _ _)) (deliver_keeps _ _ _)

theorem execTadv_wf (x : MdabArgs) (s : State) (hs : s.memOk) : NextOk (execTadv x s) :=
  scalarStep_wf _ _ _ (tadvBody_keeps _ _) hs

theorem execTadvNw_wf (x : MdabArgs) (s : State) (hs : s.memOk) : NextOk (execTadvNw x s) :=
  scalarStep_wf _ _ _ (tadvBody_keeps _ _) hs

theorem endTarget_wf (s : State) (slot : Nat) (hs : s.memOk) : (endTarget s slot).memOk :=
  memOk_ite hs (memOk_ite (endSingle_wf _ _ (stopRun_wf _ _ hs)) hs)

theorem endTargets_wf (s : State) (x : Troupe) (i : Nat) (hs : s.memOk) : (endTargets s x i).memOk := by
  refine foldl_wf _ (fun _ _ w => ?_) _ _ hs
  split
  · exact memOk_ite w (endTarget_wf _ _ w)
  · exact w

theorem cancelStep_wf (s : State) (t : Nat) (x : Troupe) (i : Nat) (hs : s.memOk) : (cancelStep s t x i).2.memOk :=
  endTargets_wf _ _ _ (memOk_ite hs (setTroupe_wf _ _ _ hs))

theorem cancelEnd_keeps (md : Mods) (d : GReg) (st : Nat) : Keeps (cancelEnd md d st) :=
  Keeps.bind (Keeps.modifyCur _) fun _ => finish_keeps _ _ _

theorem execTcancel_wf (x : MdabArgs) (s : State) (hs : s.memOk) : NextOk (execTcancel x s) := by
  refine scalarStep_wf _ _ _ (Keeps.bind Keeps.getCur fun c => ?_) hs
  split
  · exact whenEnded_keeps _ _ (cancelEnd_keeps _ _ _)
  · refine Keeps.bind (consumeG_keeps _) fun h => Keeps.bind (consumeG_keeps _) fun i => Keeps.bind parkIfSpec_keeps fun _ =>
      Keeps.get_bind fun s w => ?_
    have go (s₀ : State) (y : Troupe) : Keeps (do
        let s ← get
        let (st, s) := cancelStep s h.toNat y i.toNat
        set s
        if (s.ctx? s₀.slot).isNone || (s.coreAt s.core).slot != some s₀.slot then return ()
        else
          modifyCur (fun c => { c with awaits := targetsLeft s h.toNat i.toNat })
          whenEnded (cancelEnd x.m x.d) st : M Unit) :=
      Keeps.get_bind fun s w => Keeps.bind (Keeps.set (cancelStep_wf _ _ _ _ w)) fun _ => Keeps.ite (Keeps.pure _)
        (Keeps.bind (Keeps.modifyCur _) fun _ => whenEnded_keeps _ _ (cancelEnd_keeps _ _ _))
    dsimp only
    split
    · exact finish_keeps _ _ _
    · exact Keeps.ite (Keeps.bind quiet_keeps fun _ => go _ _) (go _ _)

theorem holdTroupe_wf (s : State) (t : Nat) (hs : s.memOk) : (holdTroupe s t).memOk := by
  unfold holdTroupe
  split
  · exact hs
  · exact memOk_ite hs (foldl_wf _ (fun _ _ w => askHalt_wf _ _ _ _ (stopRun_wf _ _ w)) _ _ (setTroupe_wf _ _ _ hs))

theorem resumeTroupe_wf (s : State) (t : Nat) (hs : s.memOk) : (resumeTroupe s t).memOk := by
  unfold resumeTroupe
  split
  · exact hs
  · exact memOk_ite hs (foldl_wf _ (fun _ _ w => goRun_wf _ _ _ w) _ _ (setTroupe_wf _ _ _ hs))

theorem releaseTroupe_wf (s : State) (t : Nat) (hs : s.memOk) : (releaseTroupe s t).memOk := by
  unfold releaseTroupe
  split
  · exact hs
  · exact setTroupe_wf _ _ _ hs

theorem cancelTroupe_wf (s : State) (t : Nat) (hs : s.memOk) : (cancelTroupe s t).memOk := by
  unfold cancelTroupe
  split
  · exact hs
  · exact cancelStep_wf _ _ _ _ hs

theorem tcmdStore_wf (s : State) (t : Nat) (v : Word) (hs : s.memOk) : (tcmdStore s t v).memOk := by
  unfold tcmdStore
  split
  · exact holdTroupe_wf _ _ hs
  · exact resumeTroupe_wf _ _ hs
  · exact releaseTroupe_wf _ _ hs
  · exact cancelTroupe_wf _ _ hs
  · exact hs

theorem execTroupeTimeout_wf (t : Nat) (s : State) (hs : s.memOk) : NextOk (execTroupeTimeout t s) := by
  unfold execTroupeTimeout
  split
  · exact nextOk_next hs
  · exact nextOk_ite (nextOk_next (setTroupe_wf _ _ _ hs)) (nextOk_next hs)

theorem freeTroupe_wf (s : State) (t : Nat) (x : Troupe) (hs : s.memOk) : (freeTroupe s t x).memOk := hs

theorem execTroupeRelease_wf (t : Nat) (s : State) (hs : s.memOk) : NextOk (execTroupeRelease t s) := by
  unfold execTroupeRelease
  split
  · exact nextOk_next hs
  · exact nextOk_ite (nextOk_next (freeTroupe_wf _ _ _ hs)) (nextOk_next hs)

/-! ### Front ends -/

theorem modUnderway_wf (s : State) (q : Nat) (f : Pkt → Pkt) (hs : s.memOk) : (modUnderway s q f).memOk := hs

theorem wakeQueue_wf (s : State) (q b : Nat) (hs : s.memOk) : (wakeQueue s q b).memOk := by
  unfold wakeQueue
  dsimp only
  split
  · exact hs
  · exact hs

theorem readSignal_wf (s : State) (q : Nat) (hs : s.memOk) : (readSignal s q).memOk := hs

theorem scanQueue_wf (s : State) (q : Nat) (hs : s.memOk) : (scanQueue s q).memOk := hs

theorem execQueueScan_wf (queue : Nat) (s : State) (hs : s.memOk) : NextOk (execQueueScan queue s) :=
  nextOk_next (memOk_ite (scanQueue_wf _ _ hs) hs)

theorem execWaitSignalWake_wf (queue : Nat) (s : State) (hs : s.memOk) : NextOk (execWaitSignalWake queue s) :=
  nextOk_ite (nextOk_next hs) (nextOk_ite (nextOk_next (readSignal_wf _ _ hs)) (nextOk_next (memOk_of_eq
    (State.modQueue_mem _ _ _) (wakeQueue_wf _ _ _ hs))))

theorem takeProgram_wf (s : State) (f q : Nat) (hs : s.memOk) : (takeProgram s f q).memOk := hs

theorem settleUnmaps_wf (s : State) (f : Nat) (hs : s.memOk) : (settleUnmaps s f).memOk := by
  refine foldl_wf _ (fun _ _ w => ?_) _ _ hs
  split
  · exact memOk_ite (memOk_of_eq (State.modFe_mem _ _ _) (memOk_of_eq (State.modQueue_mem _ _ _) w)) w
  · exact memOk_of_eq (State.modFe_mem _ _ _) w

theorem unmapSlot_wf (s : State) (f j : Nat) (hs : s.memOk) : (unmapSlot s f j).memOk := by
  unfold unmapSlot
  split
  · exact hs
  · exact settleUnmaps_wf _ _ (modUnderway_wf _ _ _ (memOk_of_eq (State.modFe_mem _ _ _) (memOk_ite
      (scanQueue_wf _ _ hs) hs)))

theorem mapSlot_wf (s : State) (f j q : Nat) (hs : s.memOk) : (mapSlot s f j q).memOk :=
  memOk_ite hs (readSignal_wf _ _ (memOk_ite (scanQueue_wf _ _ (memOk_of_eq (State.modFe_mem _ _ _) (memOk_of_eq
    (State.modQueue_mem _ _ _) (takeProgram_wf _ _ _ hs)))) (memOk_of_eq (State.modFe_mem _ _ _) (memOk_of_eq
      (State.modQueue_mem _ _ _) (takeProgram_wf _ _ _ hs)))))

theorem qmapStore_wf (s : State) (f j : Nat) (v : Word) (hs : s.memOk) : (qmapStore s f j v).memOk :=
  memOk_ite hs (memOk_ite (mapSlot_wf _ _ _ _ hs) (unmapSlot_wf _ _ _ hs))

/-! ### Sessions -/

theorem dropLines_wf (s : State) (lo n : Nat) (hs : s.memOk) : (dropLines s lo n).memOk := hs

theorem zeroRange_wf (s : State) (lo n : Nat) (hs : s.memOk) : (zeroRange s lo n).memOk :=
  memOk_ite hs (bulkSet_wf _ _ _ _ (dropLines_wf _ _ _ (snapRange_wf _ _ _ hs)))

theorem setRange_wf (s : State) (j : Nat) (k : Fin 4) (b n : Word) (hs : s.memOk) : (setRange s j k b n).memOk :=
  memOk_of_eq (State.modSession_mem _ _ _) (foldl_wf _ (fun _ _ w => zeroRange_wf _ _ _ w) _ _ hs)

theorem scrubRanges_wf (s : State) (j : Nat) (hs : s.memOk) : (scrubRanges s j).memOk :=
  foldl_wf _ (fun _ _ w => zeroRange_wf _ _ _ w) _ _ hs

theorem trustStore_wf (s : State) (a : Word) (bs : List Byte) (hs : s.memOk) : ∀ t ∈ (trustStore s a bs), t.memOk := by
  intro t h
  unfold trustStore at h
  split at h
  · cases h; exact pkgStoreAll_wf _ _ _ hs
  · cases h

theorem finishTiles_wf (s : State) (hs : s.memOk) : (finishTiles s).memOk :=
  foldl_wf _ (fun _ _ w => memOk_of_eq (finishTile_mem _ _) w) _ _ hs

theorem freeKeys_wf (s : State) (j : Nat) (hs : s.memOk) : (freeKeys s j).memOk := finishTiles_wf _ hs

theorem strandTraces_wf (s : State) (j : Nat) (slots : List Nat) (hs : s.memOk) : (strandTraces s j slots).memOk := hs

theorem modSession_wf (s : State) (j : Nat) (f : Session → Session) (hs : s.memOk) : (s.modSession j f).memOk := hs

theorem cmdOpen_wf (s : State) (j : Nat) (hs : s.memOk) : (cmdOpen s j).2.memOk := by
  unfold cmdOpen
  dsimp only
  split
  · exact hs
  · split
    · exact hs
    · split
      · exact hs
      · next h => exact modSession_wf _ _ _ (trustStore_wf _ _ _ (by exact hs) _ h)

theorem cmdReport_wf (s : State) (j : Nat) (hs : s.memOk) : (cmdReport s j).2.memOk := by
  unfold cmdReport
  dsimp only
  split
  · exact hs
  · split
    · exact hs
    · next h => exact trustStore_wf _ _ _ hs _ h

theorem cmdClose_wf (s : State) (j : Nat) (hs : s.memOk) : (cmdClose s j).2.memOk :=
  snd_wf_ite hs (memOk_of_eq (State.modSession_mem _ _ _) (memOk_ite (scrubRanges_wf _ _ (freeKeys_wf _ _
    (strandTraces_wf _ _ _ (foldl_wf _ (fun _ _ w => stopRun_wf _ _ w) _ _ hs)))) (freeKeys_wf _ _ (strandTraces_wf _ _ _
      (foldl_wf _ (fun _ _ w => stopRun_wf _ _ w) _ _ hs)))))

theorem cmdKload_wf (s : State) (j : Nat) (hs : s.memOk) : (cmdKload s j).2.memOk := by
  unfold cmdKload
  dsimp only
  split
  · exact hs
  · split
    · exact hs
    · split
      · exact hs
      · split
        · exact hs
        · split
          · exact hs
          · exact hs

theorem cmdHprep_wf (s : State) (j : Nat) (hs : s.memOk) : (cmdHprep s j).2.memOk := by
  unfold cmdHprep
  dsimp only
  split
  · exact hs
  · split
    · exact hs
    · split
      · exact hs
      · split
        · exact hs
        · next h => exact modSession_wf _ _ _ (trustStore_wf _ _ _ (by exact hs) _ h)

theorem cmdHoffer_wf (s : State) (j : Nat) (hs : s.memOk) : (cmdHoffer s j).2.memOk := by
  unfold cmdHoffer
  dsimp only
  split
  · exact hs
  · split
    · exact hs
    · split
      · exact hs
      · next h => exact modSession_wf _ _ _ (trustStore_wf _ _ _ (by exact hs) _ h)

theorem cmdErase_wf (s : State) (j : Nat) (hs : s.memOk) : (cmdErase s j).2.memOk :=
  snd_wf_ite hs (memOk_of_eq (State.modSession_mem _ _ _) (scrubRanges_wf _ _ (freeKeys_wf _ _ (strandTraces_wf _ _ _ hs))))

theorem missedTry_wf (s : State) (j r : Nat) (hs : s.memOk) : (missedTry s j r).2.memOk := by
  unfold missedTry
  split
  · exact hs
  · exact hs

theorem cmdHaccept_wf (s : State) (j : Nat) (hs : s.memOk) : (cmdHaccept s j).2.memOk := by
  unfold cmdHaccept
  dsimp only
  split
  · exact hs
  · split
    · exact hs
    · split
      · exact missedTry_wf _ _ _ hs
      · split
        · exact missedTry_wf _ _ _ hs
        · exact modSession_wf _ _ _ (memOk_of_eq (by rfl) (pkgStoreAll_wf _ _ _ (foldl_wf _ (fun _ _ w =>
            setRange_wf _ _ _ _ _ w) _ _ hs)))

theorem runCmd_wf (s : State) (j c : Nat) (hs : s.memOk) : ∀ p, runCmd s j c = some p → p.2.memOk := by
  intro p h
  unfold runCmd at h
  split at h
  · cases h; exact cmdOpen_wf _ _ hs
  · cases h; exact cmdReport_wf _ _ hs
  · cases h; exact cmdClose_wf _ _ hs
  · cases h; exact cmdKload_wf _ _ hs
  · cases h; exact cmdHprep_wf _ _ hs
  · cases h; exact cmdHoffer_wf _ _ hs
  · cases h; exact cmdErase_wf _ _ hs
  · cases h; exact cmdHaccept_wf _ _ hs
  · cases h

theorem scmdStore_wf (s : State) (j : Nat) (c : Nat) (hs : s.memOk) : (scmdStore s j c).memOk := by
  unfold scmdStore
  split
  · exact hs
  · next h => exact runCmd_wf _ _ _ hs _ h

/-! ### Boot -/

theorem powerUpState_wf (s : State) (hs : s.memOk) : (powerUpState s).memOk :=
  memWfFrom_filter _ hs

theorem zeroUnit_wf (s : State) (k : Nat) (hs : s.memOk) : (zeroUnit s k).memOk := memOk_ite hs hs

theorem imgGo_wf (s : State) (hs : s.memOk) : (imgGo s).memOk :=
  memOk_ite hs (memOk_ite hs (memOk_ite hs (memOk_ite hs hs)))

theorem feRestart_wf (s : State) (f : Nat) (hs : s.memOk) : (feRestart s f).memOk :=
  memOk_ite hs (memOk_ite hs (foldl_wf _ (fun _ _ w => memOk_of_eq (State.modQueue_mem _ _ _)
    (takeProgram_wf _ _ _ w)) _ _ hs))

/-! ### Capability instructions -/

theorem capTrap_keeps {α : Type} (cause : BitVec 16) (a : Nat) : Keeps (capTrap cause a : M α) := Keeps.trapD _ _ _

theorem unsealed_keeps (a : CReg) : Keeps (unsealed a) :=
  Keeps.bind Keeps.getCur fun _ => Keeps.ite (Keeps.bind (capTrap_keeps _ _) fun _ => Keeps.pure _) (Keeps.pure _)

theorem execCbound_wf (x : CapArgs) (s : State) (hs : s.memOk) : NextOk (execCbound x s) :=
  scalarStep_wf _ _ _ (Keeps.bind (consumeG_keeps _) fun _ => Keeps.bind (unsealed_keeps _) fun _ => Keeps.bind
    (Keeps.modifyCur _) fun _ => advance_keeps _) hs

theorem sealQueue_keeps (src sealed : Cap) : Keeps (sealQueue src sealed) := by
  refine Keeps.get_bind fun _ w => ?_
  dsimp only
  split
  · exact Keeps.pure _
  · exact Keeps.ite (Keeps.pure _) (Keeps.pure _)

theorem execCnarrow_wf (x : CapArgs) (s : State) (hs : s.memOk) : NextOk (execCnarrow x s) :=
  scalarStep_wf _ _ _ (Keeps.bind (consumeG_keeps _) fun _ => Keeps.bind (unsealed_keeps _) fun _ => Keeps.ite (Keeps.bind
    (Keeps.pure _) fun _ => Keeps.bind (Keeps.modifyCur _) fun _ => advance_keeps _) (Keeps.ite (Keeps.bind
      (sealQueue_keeps _ _) fun _ => Keeps.bind (Keeps.modifyCur _) fun _ => advance_keeps _) (Keeps.bind
        (Keeps.pure _) fun _ => Keeps.bind (Keeps.modifyCur _) fun _ => advance_keeps _))) hs

theorem execCaddr_wf (x : CapArgs) (s : State) (hs : s.memOk) : NextOk (execCaddr x s) :=
  scalarStep_wf _ _ _ (Keeps.bind (consumeG_keeps _) fun _ => Keeps.bind (unsealed_keeps _) fun _ => Keeps.bind
    (Keeps.modifyCur _) fun _ => advance_keeps _) hs

theorem execCinc_wf (x : CincArgs) (s : State) (hs : s.memOk) : NextOk (execCinc x s) :=
  scalarStep_wf _ _ _ (Keeps.bind (consumeG_keeps _) fun _ => Keeps.bind (unsealed_keeps _) fun _ => Keeps.bind
    (Keeps.modifyCur _) fun _ => advance_keeps _) hs

theorem execCget_wf (x : CgetArgs) (s : State) (hs : s.memOk) : NextOk (execCget x s) :=
  scalarStep_wf _ _ _ (Keeps.bind (Keeps.modifyCur _) fun _ => advance_keeps _) hs

theorem execCtest_wf (x : CtestArgs) (s : State) (hs : s.memOk) : NextOk (execCtest x s) :=
  scalarStep_wf _ _ _ (Keeps.bind Keeps.getCur fun _ => Keeps.bind (Keeps.modifyCur _) fun _ => advance_keeps _) hs

theorem execCmov_wf (x : CmovArgs) (s : State) (hs : s.memOk) : NextOk (execCmov x s) :=
  scalarStep_wf _ _ _ (Keeps.bind (Keeps.modifyCur _) fun _ => advance_keeps _) hs

theorem capMemCheck_keeps (pa : Nat) (va : Word) (capNo : Nat) : Keeps (capMemCheck pa va capNo) :=
  Keeps.ite (Keeps.trapD_bind _ _ _ _) (Keeps.ite (Keeps.trapD _ _ _) (Keeps.pure _))

theorem gotCap_keeps (d : CReg) (pa : Nat) (sc : Scope) (v : Cap) : Keeps (gotCap d pa sc v) :=
  Keeps.bind (noteSpin_keeps _) fun _ => Keeps.modifyCur _

theorem execLdc_wf (x : LdcArgs) (s : State) (hs : s.memOk) : NextOk (execLdc x s) := by
  refine scalarStep_wf _ _ _ ?_ hs
  refine Keeps.bind Keeps.getCur fun c => Keeps.bind (ctlCheck_keeps _ _ _ _ _ _) fun r => Keeps.bind
    (orTrap_keeps _ _) fun pa =>
    Keeps.ite (Keeps.trapD_bind _ _ _ _) (Keeps.bind (capMemCheck_keeps _ _ _) fun _ => Keeps.ite (Keeps.get_bind fun s w =>
      Keeps.ite (Keeps.trapD_bind _ _ _ _) ?_) ?_)
  · exact Keeps.bind ctlRelease_keeps fun _ => Keeps.bind ctlAcquire_keeps fun _ => Keeps.get_bind fun s w =>
      Keeps.bind (gotCap_keeps _ _ _ _) fun _ => advance_keeps _
  · refine Keeps.bind (takeEarly_keeps _ _ _ _ _) fun e => ?_
    split
    · exact Keeps.bind (gotCap_keeps _ _ _ _) fun _ => advance_keeps _
    · exact Keeps.get_bind fun s w => Keeps.ite (Keeps.bind (noteSpin_keeps _) fun _ => Keeps.bind
        (enqueue_keeps _) fun _ => advance_keeps _)
        (Keeps.bind (loadCapMem_keeps _ _ _) fun _ => Keeps.bind (gotCap_keeps _ _ _ _) fun _ => advance_keeps _)

/-! ### Stores to control pages -/

theorem runStore_wf (s : State) (w : Who) (slot : Nat) (v : Word) (hs : s.memOk) : (runStore s w slot v).memOk :=
  memOk_ite hs (memOk_ite (askHalt_wf _ _ _ _ (stopRun_wf _ _ hs)) (memOk_ite hs (memOk_ite (goRun_wf _ _ _ hs)
    (askHalt_wf _ _ _ _ (goRun_wf _ _ _ hs)))))

theorem commitStore_wf (s : State) (slot : Nat) (v : Word) (hs : s.memOk) : (commitStore s slot v).memOk :=
  memOk_ite (memOk_of_eq (applyCommit_mem _ _) hs) hs

theorem sscfgPut_wf (s : State) (slot : Nat) (v : Word) (hs : s.memOk) : (sscfgPut s slot v).memOk :=
  memOk_ite hs (memOk_of_eq (State.modCtx_mem _ _ _) (memOk_of_eq (budgetTake_mem _ _ _ _) (memOk_of_eq
    (budgetGive_mem _ _ _ _) hs)))

theorem frameStore_wf (s : State) (w : Who) (slot o : Nat) (v : Word) (hs : s.memOk) :
    ∀ t, (frameStore s w slot o v) = .ok t → t.memOk := by
  grind [frameStore, runStore_wf, commitStore_wf, State.setCtx_mem, sscfgPut_wf, frameStoreWord_wf]

theorem rctlStore_wf (s : State) (r : Nat) (v : Word) (hs : s.memOk) : (rctlStore s r v).memOk := memOk_ite hs hs

theorem regionStore_wf (s : State) (r o : Nat) (v : Word) (hs : s.memOk) : (regionStore s r o v).memOk :=
  memOk_ite (rctlStore_wf _ _ _ hs) (memOk_ite hs (memOk_ite hs (memOk_ite hs (memOk_ite hs (memOk_ite hs (memOk_ite hs
    (memOk_ite hs (memOk_ite hs hs))))))))

theorem qctlStore_wf (s : State) (q : Nat) (v : Word) (hs : s.memOk) : (qctlStore s q v).memOk := memOk_ite hs hs

theorem headMove_wf (s : State) (q : Nat) (v : Word) (hs : s.memOk) : (headMove s q v).memOk := memOk_ite hs hs

theorem headStore_wf (s : State) (w : Who) (q : Nat) (v : Word) (hs : s.memOk) : (headStore s w q v).memOk :=
  memOk_ite hs (headMove_wf _ _ _ hs)

theorem notifyStore_wf (s : State) (q : Nat) (v : Word) (hs : s.memOk) : (notifyStore s q v).memOk :=
  memOk_ite (wakeQueue_wf _ _ _ hs) hs

theorem queueStore_wf (s : State) (w : Who) (q o : Nat) (v : Word) (hs : s.memOk) : (queueStore s w q o v).memOk := by
  refine memOk_ite (qctlStore_wf _ _ _ hs) (memOk_ite (memOk_ite hs hs) (memOk_ite (headStore_wf _ _ _ _ hs)
    (memOk_ite (notifyStore_wf _ _ _ hs) (memOk_ite hs (memOk_ite hs (memOk_ite hs (memOk_ite (memOk_ite hs hs)
      (memOk_ite ?_ ?_))))))))
  · exact memOk_ite hs (memOk_ite hs hs)
  · exact memOk_ite hs hs

theorem prqheadStore_wf (s : State) (r : Nat) (v : Word) (hs : s.memOk) : (prqheadStore s r v).memOk := memOk_ite hs hs

theorem postReply_wf (s : State) (id : BitVec 32) (ok : Bool) (w : Waiter) (hs : s.memOk) : (postReply s id ok w).memOk :=
  memOk_ite hs hs

theorem replyStore_wf (s : State) (part : Nat) (v : Word) (hs : s.memOk) : (replyStore s part v).memOk := by
  refine memOk_ite hs ?_
  split
  · exact hs
  · exact foldl_wf _ (fun _ _ w => postReply_wf _ _ _ _ w) _ _ hs

theorem rootStore_wf (s : State) (r o : Nat) (v : Word) (hs : s.memOk) : (rootStore s r o v).memOk :=
  memOk_ite (memOk_ite hs hs) (memOk_ite (memOk_ite hs hs) (memOk_ite (memOk_ite hs hs) (memOk_ite hs (memOk_ite
    (memOk_ite hs hs) (memOk_ite (prqheadStore_wf _ _ _ hs) (memOk_ite (replyStore_wf _ _ _ hs) hs))))))

theorem arbiterStore_wf (s : State) (o : Nat) (v : Word) (hs : s.memOk) : (arbiterStore s o v).memOk :=
  memOk_ite (memOk_ite hs hs) (memOk_ite hs (memOk_ite hs (memOk_ite (imgGo_wf _ hs) (memOk_ite (memOk_ite
    (feRestart_wf _ _ hs) hs) hs))))

theorem budgetStore_wf (s : State) (a o : Nat) (v : Word) (hs : s.memOk) : (budgetStore s a o v).memOk := by
  refine memOk_ite ?_ hs
  split
  · exact hs
  · exact hs

theorem frontEndStore_wf (s : State) (f o : Nat) (v : Word) (hs : s.memOk) : (frontEndStore s f o v).memOk :=
  memOk_ite (qmapStore_wf _ _ _ _ hs) (memOk_ite hs hs)

theorem snapStore_wf (s : State) (d o : Nat) (v : Word) (hs : s.memOk) : (snapStore s d o v).memOk :=
  memOk_ite hs (memOk_ite hs (memOk_ite hs (memOk_ite (memOk_ite hs hs) (memOk_ite (memOk_ite hs hs) (memOk_ite
    (memOk_ite hs hs) (memOk_ite (memOk_ite hs hs) (memOk_ite hs hs)))))))

theorem pauseStore_wf (s : State) (n : Nat) (b : Bool) (hs : s.memOk) : (pauseStore s n b).memOk := hs

theorem settleStaging_wf (s : State) (hs : s.memOk) : (settleStaging s).memOk := memOk_ite hs hs

theorem sstateStore_wf (s : State) (j : Nat) (v : Word) (hs : s.memOk) : (sstateStore s j v).memOk := hs

theorem rangeStore_wf (s : State) (j i : Nat) (v : Word) (hs : s.memOk) : (rangeStore s j i v).memOk :=
  memOk_ite (setRange_wf _ _ _ _ _ hs) hs

/-- The state that a store gives, where none turns it away, has memory in the canonical form. -/
def OkWf (r : Except StoreErr State) : Prop := ∀ t, r = .ok t → t.memOk

theorem okWf_ok {s : State} (hs : s.memOk) : OkWf (.ok s) := by
  intro t h
  cases h
  exact hs

theorem okWf_error (e : StoreErr) : OkWf (.error e) := by
  intro t h
  cases h

theorem okWf_ite {c : Prop} [Decidable c] {a b : Except StoreErr State} (ha : OkWf a) (hb : OkWf b) :
    OkWf (if c then a else b) := by
  split
  · exact ha
  · exact hb

theorem toOption_wf {r : Except StoreErr State} {s : State} (h : OkWf r) (hs : s.memOk) : (r.toOption.getD s).memOk := by
  cases r with
  | error e => exact hs
  | ok t => exact h t rfl

theorem blockStore_wf (s : State) (j b : Nat) (v : Word) (hs : s.memOk) : ∀ t, (blockStore s j b v) = .ok t → t.memOk := by
  have plain (f : Session → Session) : OkWf (.ok (s.modSession j f)) := okWf_ok hs
  have staged (f : Session → Session) : OkWf (if (s.sessionAt j).staging then .ok s else .ok (s.modSession j f)) :=
    okWf_ite (okWf_ok hs) (plain f)
  have checked (p : Bool) (f : Session → Session) : OkWf (if p then .ok (s.modSession j f) else .error .busy) :=
    okWf_ite (plain f) (okWf_error _)
  refine okWf_ite (okWf_ok (sstateStore_wf _ _ _ hs)) (okWf_ite (plain _) (okWf_ite (staged _) (okWf_ite (staged _)
    (okWf_ite (staged _)
    (okWf_ite (staged _) (okWf_ite (checked _ _) (okWf_ite (checked _ _) (okWf_ite (plain _) ?_))))))))
  exact okWf_ite (okWf_ok (rangeStore_wf _ _ _ _ hs)) (okWf_ok hs)

theorem plainStore_wf (s : State) (w : Who) (pa : Nat) (v : Word) (hs : s.memOk) :
    ∀ t, (plainStore s w pa v) = .ok t → t.memOk := by
  show OkWf _
  obtain ⟨f, hf⟩ : ∃ f, plainStore = f := ⟨_, rfl⟩
  rw [hf]
  delta plainStore at hf
  subst hf
  beta_reduce
  generalize ctlPage pa = p
  split
  · exact okWf_ok (arbiterStore_wf _ _ _ hs)
  · exact okWf_ok (budgetStore_wf _ _ _ _ hs)
  · exact okWf_ok (frontEndStore_wf _ _ _ _ hs)
  · exact okWf_ok (regionStore_wf _ _ _ _ hs)
  · exact okWf_ok (memOk_ite (tcmdStore_wf _ _ _ hs) hs)
  · exact okWf_ok (queueStore_wf _ _ _ _ _ hs)
  · exact okWf_ok (rootStore_wf _ _ _ _ hs)
  · exact frameStore_wf _ _ _ _ _ hs
  · refine okWf_ite (okWf_ok hs) (okWf_ite (okWf_ok (memOk_ite (pauseStore_wf _ _ _ hs) hs)) (okWf_ite (okWf_ok
      (snapStore_wf _ _ _ _ hs))
      (okWf_ite ?_ (okWf_ok hs))))
    split
    · exact blockStore_wf _ _ _ _ hs
    · exact okWf_ok hs
  · exact okWf_ok hs
  · exact okWf_ok hs

theorem tgoResult_wf (s : State) (j : Nat) (r : BitVec 8) (hs : s.memOk) : (tgoResult s j r).memOk := hs

theorem innerStore_wf (s : State) (pa : Nat) (v : Word) (hs : s.memOk) : ∀ t, (innerStore s pa v) = .ok t → t.memOk := by
  show OkWf _
  obtain ⟨f, hf⟩ : ∃ f, innerStore = f := ⟨_, rfl⟩
  rw [hf]
  delta innerStore at hf
  subst hf
  beta_reduce
  generalize ctlPage pa = p
  split
  · exact okWf_ok (headMove_wf _ _ _ hs)
  · exact plainStore_wf _ _ _ _ hs

theorem tgoStore_wf (s : State) (j : Nat) (hs : s.memOk) : (tgoStore s j).memOk := by
  unfold tgoStore
  dsimp only
  refine memOk_ite (tgoResult_wf _ _ _ hs) (memOk_ite (tgoResult_wf _ _ _ hs) (memOk_ite (tgoResult_wf _ _ _ hs) ?_))
  split
  · exact tgoResult_wf _ _ _ hs
  · next h => exact tgoResult_wf _ _ _ (modSession_wf _ _ _ (memOk_of_eq (touch_mem _ _) (innerStore_wf _ _ _ hs _ h)))

theorem openStore_wf (s : State) (w : Who) (pa : Nat) (v : Word) (hs : s.memOk) :
    ∀ t, (openStore s w pa v) = .ok t → t.memOk := by
  show OkWf _
  obtain ⟨f, hf⟩ : ∃ f, openStore = f := ⟨_, rfl⟩
  rw [hf]
  delta openStore at hf
  subst hf
  beta_reduce
  generalize ctlPage pa = p
  split
  · split
    · exact okWf_ite (okWf_ok (scmdStore_wf _ _ _ hs)) (okWf_ite (okWf_ok (tgoStore_wf _ _ hs))
        (okWf_ok (toOption_wf (blockStore_wf _ _ _ _ hs) hs)))
    · exact plainStore_wf _ _ _ _ hs
  · exact plainStore_wf _ _ _ _ hs

theorem ctlStore_wf (s : State) (w : Who) (pa : Nat) (v : Word) (hs : s.memOk) :
    ∀ t, (ctlStore s w pa v) = .ok t → t.memOk := by
  have h := openStore_wf s w pa v hs
  show OkWf _
  unfold ctlStore
  refine okWf_ite (okWf_ok hs) ?_
  split
  · exact okWf_error _
  · cases hr : openStore s w pa v with
    | error e => exact okWf_error e
    | ok t => exact okWf_ok (memOk_of_eq rfl (h t hr))

/-! ### Stores of a thread and of the host -/

theorem storeTrap_keeps {α : Type} (e : StoreErr) (pa : Nat) (va : Word) (capNo : Nat) :
    Keeps (storeTrap e pa va capNo : M α) := by
  cases e with
  | busy => exact Keeps.trapD _ _ _
  | locked j => exact Keeps.trapD _ _ _

theorem ctlStoreM_keeps (md : Mods) (pa : Nat) (va : Word) (capNo : Nat) (v : Word) : Keeps (ctlStoreM md pa va capNo v) := by
  refine Keeps.bind parkIfSpec_keeps fun _ => Keeps.get_bind fun s w => Keeps.ite (Keeps.trapD_bind _ _ _ _) (Keeps.ite
    (Keeps.ite (Keeps.bind (Keeps.modifyCur _) fun _ => advance_keeps _) (Keeps.pure _)) ?_)
  refine Keeps.bind ctlRelease_keeps fun _ => Keeps.get_bind fun s w => ?_
  dsimp only
  split
  · exact storeTrap_keeps _ _ _ _
  · next h =>
    have ht := ctlStore_wf _ _ _ _ (by exact w) _ h
    exact Keeps.ite (Keeps.set ht) (Keeps.set ht)

theorem stBody_keeps (x : LdArgs) : Keeps (stBody x) :=
  Keeps.bind (consumeG_keeps _) fun _ => Keeps.bind (consumeG_keeps _) fun _ => Keeps.bind Keeps.getCur fun _ =>
    Keeps.bind (ctlCheck_keeps _ _ _ _ _ _) fun _ => Keeps.bind (orTrap_keeps _ _) fun _ => Keeps.ite
      (Keeps.trapD_bind _ _ _ _)
    (Keeps.ite (Keeps.trapD_bind _ _ _ _) (Keeps.ite (ctlStoreM_keeps _ _ _ _ _) (Keeps.bind
      (issueStore_keeps _ _ _ _ _) fun _ =>
    advance_keeps _)))

theorem execSt_wf (x : LdArgs) (s : State) (hs : s.memOk) : NextOk (execSt x s) := scalarStep_wf _ _ _ (stBody_keeps _) hs

theorem capFrameStore_wf (s : State) (slot : Nat) (w : CapWord) (o : Nat) (x : Cap) (hs : s.memOk) :
    ∀ t, (capFrameStore s slot w o x) = .ok t → t.memOk := by
  grind [capFrameStore, frameStoreCap_wf]

theorem okWf_map {r : Except StoreErr State} (f : State → State) (hf : ∀ s, s.memOk → (f s).memOk) (h : OkWf r) :
    OkWf (r.map f) := by
  cases r with
  | error e => exact okWf_error e
  | ok t => exact okWf_ok (hf t (h t rfl))

theorem capCtlStore_wf (s : State) (w : Who) (pa : Nat) (x : Cap) (hs : s.memOk) :
    ∀ t, (capCtlStore s w pa x) = .ok t → t.memOk := by
  show OkWf _
  obtain ⟨f, hf⟩ : ∃ f, capCtlStore = f := ⟨_, rfl⟩
  rw [hf]
  delta capCtlStore at hf
  subst hf
  beta_reduce
  generalize ctlPage pa = p
  generalize ctlCapWord pa = q
  refine okWf_ite (okWf_ok hs) ?_
  generalize lockAgainst s (regionOfWho s w) pa (x.bits.setWidth 64) = r
  cases r with
  | some j => exact okWf_error _
  | none =>
    cases p with
    | frame a b =>
      cases q with
      | none => exact okWf_ok hs
      | some v => exact okWf_map _ (fun t w => memOk_of_eq (touch_mem _ _) w) (capFrameStore_wf _ _ _ _ _ hs)
    | _ => exact okWf_ok hs

theorem execStc_wf (x : LdcArgs) (s : State) (hs : s.memOk) : NextOk (execStc x s) := by
  refine scalarStep_wf _ _ _ ?_ hs
  refine Keeps.bind Keeps.getCur fun c => Keeps.bind (ctlCheck_keeps _ _ _ _ _ _) fun r => Keeps.bind
    (orTrap_keeps _ _) fun pa =>
    Keeps.ite (Keeps.trapD_bind _ _ _ _) (Keeps.bind (capMemCheck_keeps _ _ _) fun _ => Keeps.ite
      (Keeps.bind parkIfSpec_keeps fun _ =>
      Keeps.get_bind fun s w => Keeps.ite (Keeps.trapD_bind _ _ _ _) ?_) (Keeps.bind (storeCapMem_keeps _ _ _ _) fun _ =>
        advance_keeps _))
  refine Keeps.bind ctlRelease_keeps fun _ => Keeps.get_bind fun s w => ?_
  have kept := capCtlStore_wf s (.thread s.slot) pa (readC c x.d) w
  revert kept
  dsimp only
  generalize capCtlStore s (.thread s.slot) pa (readC c x.d) = r
  intro kept
  cases r with
  | error e => exact Keeps.bind (storeTrap_keeps _ _ _ _) fun _ => advance_keeps _
  | ok t => exact Keeps.bind (Keeps.set (kept t rfl)) fun _ => advance_keeps _

theorem hostAnswer_wf (s : State) (hs : s.memOk) : (hostAnswer s).memOk := by
  unfold hostAnswer
  split
  · exact hs
  · exact memOk_ite hs hs

theorem performStoreRow_wf (s : State) (w : Who) (pa : Nat) (v : Word) (hs : s.memOk) : (performStoreRow s w pa v).memOk := by
  have h := ctlStore_wf s w pa v hs
  revert h
  unfold performStoreRow
  generalize ctlStore s w pa v = r
  intro h
  cases w with
  | thread me => cases r with
    | error e => exact hs
    | ok t => exact h t rfl
  | host => cases r with
    | error e => exact hs
    | ok t => exact memOk_ite (h t rfl) (h t rfl)

theorem execControlStore_wf (x : StoreArgs) (s : State) (hs : s.memOk) : NextOk (execControlStore x s) :=
  nextOk_next (memOk_ite (performStoreRow_wf _ _ _ _ hs) hs)

theorem hostControl_wf (s : State) (x : BusArgs) (hs : s.memOk) : (hostControl s x).memOk :=
  memOk_ite hs (memOk_ite hs (memOk_ite (performStoreRow_wf _ _ _ _ hs) hs))

theorem linkMemory_wf (s : State) (x : BusArgs) (host : Bool) (hs : s.memOk) : (linkMemory s x host).memOk :=
  memOk_ite (memOk_ite hs hs) (memOk_ite hs (memOk_ite (memOk_ite (pkgStoreAll_wf _ _ _ hs) (pkgStoreAll_wf _ _ _ hs))
    (memOk_ite hs hs)))

theorem execHostAccess_wf (x : BusArgs) (s : State) (hs : s.memOk) : NextOk (execHostAccess x s) :=
  nextOk_next (memOk_ite (hostControl_wf _ _ hs) (linkMemory_wf _ _ _ hs))

theorem execPeerPortAccess_wf (x : BusArgs) (s : State) (hs : s.memOk) : NextOk (execPeerPortAccess x s) :=
  nextOk_next (memOk_ite (linkMemory_wf _ _ _ hs) hs)

/-! ### Lysyo and packets -/

theorem endPacket_wf (s : State) (q status : Nat) (hs : s.memOk) : (endPacket s q status).memOk := hs

theorem toHold_wf (s : State) (f q : Nat) (hs : s.memOk) : (toHold s f q).memOk := by
  unfold toHold
  split
  · exact hs
  · exact memOk_ite (modUnderway_wf _ _ _ hs) (modUnderway_wf _ _ _ hs)

theorem endRun_wf (s : State) (f : Nat) (hs : s.memOk) : (endRun s f).memOk := hs

theorem runEnds_wf (s : State) (f q status : Nat) (hs : s.memOk) : (runEnds s f q status).memOk :=
  settleUnmaps_wf _ _ (endPacket_wf _ _ _ (endRun_wf _ _ hs))

/-- The state with which a run of a calliope's program goes on has memory in the canonical form. -/
def LyOk (o : LyOut) : Prop := ∀ t r, o = .goes t r → t.memOk

theorem lyOk_goes {s : State} (hs : s.memOk) (r : LyRun) : LyOk (.goes s r) := by
  intro t q h
  cases h
  exact hs

theorem lyOk_fault : LyOk .fault := by
  intro t q h
  cases h

theorem lyOk_ite {c : Prop} [Decidable c] {a b : LyOut} (ha : LyOk a) (hb : LyOk b) : LyOk (if c then a else b) := by
  split
  · exact ha
  · exact hb

theorem lyStep_wf (m : State → LyRun → LyOut) (s : State) (hm : ∀ r, LyOk (m s r)) (hs : s.memOk) : NextOk (lyStep m s) := by
  unfold lyStep
  dsimp only
  split
  · exact nextOk_next hs
  · next r hr =>
    split
    · exact nextOk_next (runEnds_wf _ _ _ _ hs)
    · have h := hm { r with steps := r.steps + 1 }
      revert h
      generalize m s { r with steps := r.steps + 1 } = o
      intro h
      cases o with
      | goes t q => exact nextOk_next (h t q rfl)
      | fault => exact nextOk_next (runEnds_wf _ _ _ _ hs)
      | verdict v =>
        match v with
        | 0 => exact nextOk_next (settleUnmaps_wf _ _ (toHold_wf _ _ _ (endRun_wf _ _ hs)))
        | 1 => exact nextOk_next (runEnds_wf _ _ _ _ hs)
        | n + 2 => exact nextOk_next (runEnds_wf _ _ _ _ hs)

theorem lyWrite_wf (rd : LReg) (f : State → LyRun → Word) (s : State) (hs : s.memOk) : NextOk (lyWrite rd f s) :=
  lyStep_wf _ _ (fun _ => lyOk_goes hs _) hs

theorem lyAlu_wf (x : LyRArgs) (f : Word → Word → Word) (s : State) (hs : s.memOk) : NextOk (lyAlu x f s) :=
  lyWrite_wf _ _ _ hs

theorem execLysyoEnd_wf (x : LyIArgs) (s : State) (hs : s.memOk) : NextOk (execLysyoEnd x s) := by
  refine lyStep_wf _ _ (fun r t q h => ?_) hs
  cases h

theorem execLdpk_wf (x : LyIArgs) (s : State) (hs : s.memOk) : NextOk (execLdpk x s) :=
  lyStep_wf _ _ (fun _ => lyOk_ite lyOk_fault (lyOk_goes hs _)) hs

theorem execStpk_wf (x : LyIArgs) (s : State) (hs : s.memOk) : NextOk (execStpk x s) :=
  lyStep_wf _ _ (fun _ => lyOk_ite lyOk_fault (lyOk_goes (modUnderway_wf _ _ _ hs) _)) hs

theorem execLdrg_wf (x : LyIArgs) (s : State) (hs : s.memOk) : NextOk (execLdrg x s) :=
  lyStep_wf _ _ (fun _ => lyOk_ite lyOk_fault (lyOk_goes hs _)) hs

theorem execLdwn_wf (x : LyIArgs) (s : State) (hs : s.memOk) : NextOk (execLdwn x s) := by
  refine lyStep_wf _ _ (fun r => ?_) hs
  split
  · exact lyOk_goes hs _
  · exact lyOk_fault

theorem execStwn_wf (x : LyIArgs) (s : State) (hs : s.memOk) : NextOk (execStwn x s) := by
  refine lyStep_wf _ _ (fun r => ?_) hs
  split
  · exact lyOk_goes (pkgPut_wf _ _ _ hs) _
  · exact lyOk_fault

theorem lyBranch_wf (x : LyIArgs) (p : Word → Word → Bool) (s : State) (hs : s.memOk) : NextOk (lyBranch x p s) :=
  lyStep_wf _ _ (fun _ => lyOk_ite (lyOk_goes hs _) (lyOk_goes hs _)) hs

theorem execLysyoLoop_wf (x : LyIArgs) (s : State) (hs : s.memOk) : NextOk (execLysyoLoop x s) :=
  lyStep_wf _ _ (fun _ => lyOk_goes hs _) hs

theorem takePacket_wf (s : State) (q : Nat) (i : BitVec 32) (v : Vector Word 8) (hs : s.memOk) :
    (takePacket s q i v).memOk := hs

theorem firstStages_wf (s : State) (f q : Nat) (i : BitVec 32) (v : Vector Word 8) (hs : s.memOk) :
    (firstStages s f q i v).memOk :=
  memOk_ite (endPacket_wf _ _ _ hs) (memOk_ite (endPacket_wf _ _ _ hs) (memOk_ite (toHold_wf _ _ _ hs) hs))

theorem execArbitrationStep_wf (fe : Nat) (s : State) (hs : s.memOk) : NextOk (execArbitrationStep fe s) := by
  refine nextOk_ite (nextOk_next hs) ?_
  split
  · exact nextOk_next hs
  · exact nextOk_next (firstStages_wf _ _ _ _ _ (takePacket_wf _ _ _ _ hs))

theorem leaveHold_wf (s : State) (q : Nat) (hs : s.memOk) : (leaveHold s q).memOk := hs

theorem execHoldRelease_wf (fe queue : Nat) (s : State) (hs : s.memOk) : NextOk (execHoldRelease fe queue s) := by
  unfold execHoldRelease
  split
  · exact nextOk_next (memOk_ite (leaveHold_wf _ _ hs) hs)
  · exact nextOk_next hs

theorem execHoldTimeout_wf (fe queue : Nat) (s : State) (hs : s.memOk) : NextOk (execHoldTimeout fe queue s) := by
  unfold execHoldTimeout
  split
  · exact nextOk_next (memOk_ite (leaveHold_wf _ _ hs) hs)
  · exact nextOk_next hs

theorem launched_wf (s : State) (q : Nat) (n : Bool) (hs : s.memOk) : (launched s q n).memOk := hs

theorem dispatchPacket_wf (s : State) (q : Nat) (k : Pkt) (hs : s.memOk) : (dispatchPacket s q k).memOk := by
  grind [dispatchPacket, endPacket_wf, patchRecord_wf, placeRecord_wf, launched_wf, foldl_wf]

theorem sealPacket_wf (s : State) (q : Nat) (k : Pkt) (op : Nat) (hs : s.memOk) : (sealPacket s q k op).memOk := hs

theorem cutMask_wf (s : State) (mask : Nat) (hs : s.memOk) : (cutMask s mask).1.memOk :=
  foldl_wf _ (fun _ _ w => takeCut_wf _ _ w) _ _ hs

theorem scmdPacket_wf (s : State) (q : Nat) (k : Pkt) (hs : s.memOk) : (scmdPacket s q k).memOk :=
  memOk_ite (endPacket_wf _ _ _ hs) (endPacket_wf _ _ _ (scmdStore_wf _ _ _ hs))

theorem launchPacket_wf (s : State) (f q : Nat) (k : Pkt) (hs : s.memOk) : (launchPacket s f q k).memOk := by
  refine memOk_ite (endPacket_wf _ _ _ hs) (memOk_ite (endPacket_wf _ _ _ hs) ?_)
  dsimp only
  split
  · exact endPacket_wf _ _ _ (memOk_ite hs hs)
  · exact dispatchPacket_wf _ _ _ (memOk_ite hs hs)
  · exact sealPacket_wf _ _ _ _ (memOk_ite hs hs)
  · exact sealPacket_wf _ _ _ _ (memOk_ite hs hs)
  · exact endPacket_wf _ _ _ (foldl_wf _ (fun _ _ w => takeCut_wf _ _ w) _ _ (memOk_ite hs hs))
  · exact scmdPacket_wf _ _ _ (memOk_ite hs hs)

theorem execLaunchStep_wf (fe queue : Nat) (s : State) (hs : s.memOk) : NextOk (execLaunchStep fe queue s) := by
  unfold execLaunchStep
  split
  · exact nextOk_ite (nextOk_next hs) (nextOk_next (settleUnmaps_wf _ _ (launchPacket_wf _ _ _ _ hs)))
  · exact nextOk_next hs

theorem completionStatus_wf (s : State) (q : Nat) (k : Pkt) (hs : s.memOk) : (completionStatus s q k).memOk :=
  memOk_of_eq (State.modQueue_mem _ _ _) (memOk_ite (pkgStore_wf _ _ _ _ (pkgPut_wf _ _ _ hs)) hs)

theorem completionHead_wf (s : State) (q : Nat) (k : Pkt) (hs : s.memOk) : (completionHead s q k).memOk := hs

theorem completionSignal_wf (s : State) (q : Nat) (k : Pkt) (hs : s.memOk) : (completionSignal s q k).memOk :=
  memOk_ite (pkgPut_wf _ _ _ (memOk_ite hs hs)) (memOk_ite hs hs)

theorem execPacketCompletion_wf (queue index : Nat) (s : State) (hs : s.memOk) :
    NextOk (execPacketCompletion queue index s) := by
  unfold execPacketCompletion
  split
  · exact nextOk_next hs
  · split
    · exact nextOk_ite (nextOk_next hs) (nextOk_next (completionStatus_wf _ _ _ hs))
    · exact nextOk_next (completionHead_wf _ _ _ hs)
    · exact nextOk_next (completionSignal_wf _ _ _ hs)
    · exact nextOk_next hs

/-! ### The part's own steps -/

theorem setPhase_wf (s : State) (m : Migration) (phase : Nat) (hs : s.memOk) : (setPhase s m phase).memOk := hs

theorem execMigrateStall_wf (x : MigArgs) (s : State) (hs : s.memOk) : NextOk (execMigrateStall x s) :=
  nextOk_ite (nextOk_next hs) (nextOk_next hs)

theorem execMigrateDrain_wf (old : Nat) (s : State) (hs : s.memOk) : NextOk (execMigrateDrain old s) := by
  unfold execMigrateDrain
  split
  · exact nextOk_next hs
  · exact nextOk_next (setPhase_wf _ _ _ (dropLines_wf _ _ _ (flushRange_wf _ _ _ hs)))

theorem execMigrateCopy_wf (old : Nat) (s : State) (hs : s.memOk) : NextOk (execMigrateCopy old s) := by
  unfold execMigrateCopy
  split
  · exact nextOk_next hs
  · exact nextOk_next (setPhase_wf _ _ _ (memOk_of_eq (chargeWork_mem _ _ _) (dropLines_wf _ _ _
      (copyBulk_wf _ _ _ _ _ _ hs))))

theorem renameLeaf_wf (s : State) (m : Migration) (hs : s.memOk) : (renameLeaf s m).memOk :=
  memOk_ite (foldl_wf _ (fun _ _ w => pkgPut_wf _ _ _ w) _ _ hs) (pkgPut_wf _ _ _ hs)

theorem execMigrateSwitch_wf (old : Nat) (s : State) (hs : s.memOk) : NextOk (execMigrateSwitch old s) := by
  unfold execMigrateSwitch
  split
  · exact nextOk_next hs
  · exact nextOk_next (setPhase_wf _ _ _ (renameLeaf_wf _ _ hs))

theorem execMigrateRelease_wf (old : Nat) (s : State) (hs : s.memOk) : NextOk (execMigrateRelease old s) := by
  unfold execMigrateRelease
  split
  · exact nextOk_next hs
  · exact nextOk_next hs

theorem execReplyRecordJoin_wf (slot : Nat) (s : State) (hs : s.memOk) : NextOk (execReplyRecordJoin slot s) := by
  unfold execReplyRecordJoin
  split
  · exact nextOk_next hs
  · exact nextOk_next hs

theorem execPeriodEnd_wf (pmeas : BitVec 13) (s : State) (hs : s.memOk) : NextOk (execPeriodEnd pmeas s) := by
  refine nextOk_next ?_
  show (List.foldl _ s (List.range 8)).memOk
  refine foldl_wf _ (fun s f w => ?_) _ _ hs
  split
  · exact w
  · exact w

theorem execSnapForcedCopy_wf (die page : Nat) (s : State) (hs : s.memOk) : NextOk (execSnapForcedCopy die page s) :=
  nextOk_next (memOk_ite (snapCopy_wf _ _ _ hs) hs)

theorem snapEmpty_wf (s : State) (d : Nat) (hs : s.memOk) : (snapEmpty s d).memOk := memOk_ite hs (pkgPut_wf _ _ _ hs)

theorem snapBackground_wf (s : State) (die : Nat) (hs : s.memOk) : (snapBackground s die).memOk := by
  refine memOk_ite hs ?_
  split
  · exact snapCopy_wf _ _ _ hs
  · exact snapEmpty_wf _ _ hs

theorem poisonLine_wf (s : State) (l : Nat) (hs : s.memOk) : (poisonLine s l).memOk := hs

theorem lostLine_wf (s : State) (l owner level : Nat) (hs : s.memOk) : (lostLine s l owner level).memOk :=
  postReport_wf _ _ (poisonLine_wf _ _ (rawSettle_wf _ _ (snapBefore_wf _ _ hs)))

theorem execUncorrectableEviction_wf (level unit line : Nat) (s : State) (hs : s.memOk) :
    NextOk (execUncorrectableEviction level unit line s) := by
  refine nextOk_ite ?_ (nextOk_ite ?_ (nextOk_next hs))
  · split
    · exact nextOk_next hs
    · exact nextOk_next (memOk_ite hs (lostLine_wf _ _ _ _ (foldl_wf _ (fun _ _ w => carry1_wf _ _ _ w) _ _ hs)))
  · split
    · exact nextOk_next hs
    · exact nextOk_next (memOk_ite (memOk_of_eq (State.l2Del_mem _ _ _) hs) (lostLine_wf _ _ _ _ (memOk_of_eq
        (State.l2Del_mem _ _ _) hs)))

theorem patrolLine_wf (s : State) (line : Nat) (uncorrectable : Bool) (hs : s.memOk) :
    (patrolLine s line uncorrectable).memOk := memOk_ite hs (memOk_ite hs (postReport_wf _ _ hs))

theorem lineError_wf (s : State) (line : Nat) (hs : s.memOk) : (lineError s line).memOk :=
  memOk_ite (poisonLine_wf _ _ hs) hs

theorem engineError_wf (s : State) (n : Nat) (hs : s.memOk) : (engineError s n).memOk := memOk_ite hs hs

theorem execFrontEndTableError_wf (x : Nat) (s : State) (hs : s.memOk) : NextOk (execFrontEndTableError x s) :=
  nextOk_next hs

theorem failPackets_wf (s : State) (f : Nat) (hs : s.memOk) : (failPackets s f).memOk := by
  refine foldl_wf _ (fun _ _ w => ?_) _ _ hs
  split
  · split
    · exact endPacket_wf _ _ _ w
    · exact endPacket_wf _ _ _ w
    · exact w
  · exact w

theorem execCalliopeFailure_wf (fe : Nat) (s : State) (hs : s.memOk) : NextOk (execCalliopeFailure fe s) :=
  nextOk_ite (nextOk_next hs) (nextOk_next (settleUnmaps_wf _ _ (memOk_ite (foldl_wf _ (fun _ _ w =>
    unmapSlot_wf _ _ _ w) _ _ (foldl_wf _ (fun _ _ w => memOk_of_eq (State.modQueue_mem _ _ _) w) _ _ (memOk_of_eq
      (State.modFe_mem _ _ _) (failPackets_wf _ _ (endRun_wf _ _ hs))))) (foldl_wf _ (fun _ _ w => memOk_of_eq
        (State.modQueue_mem _ _ _) w) _ _ (memOk_of_eq (State.modFe_mem _ _ _) (failPackets_wf _ _ (endRun_wf _ _ hs)))))))

theorem execPeerLinkChange_wf (port : Nat) (up : Bool) (s : State) (hs : s.memOk) :
    NextOk (execPeerLinkChange port up s) := nextOk_next (memOk_ite hs hs)

theorem emptyCores_wf (s : State) (ks : List Nat) (hs : s.memOk) : (emptyCores s ks).memOk :=
  foldl_wf _ (fun _ _ w => memOk_of_eq (State.modCore_mem _ _ _) (zeroSpad_wf _ _ _ w)) _ _ (flushL1_wf _ _ hs)

theorem execUnitPowerGate_wf (u : Unit_) (s : State) (hs : s.memOk) : NextOk (execUnitPowerGate u s) :=
  nextOk_ite (nextOk_next hs) (nextOk_next (emptyCores_wf _ _ hs))

theorem powerUpUnit_wf (s : State) (u : Unit_) (hs : s.memOk) : (powerUpUnit s u).memOk :=
  memOk_ite (memOk_of_eq (chargeWork_mem _ _ _) (emptyCores_wf _ _ hs)) hs

theorem execUnitPowerUp_wf (u : Unit_) (s : State) (hs : s.memOk) : NextOk (execUnitPowerUp u s) :=
  nextOk_next (powerUpUnit_wf _ _ (foldl_wf _ (fun _ _ w => zeroUnit_wf _ _ w) _ _ hs))

theorem execBackgroundUnit_wf (activity unit : Nat) (s : State) (hs : s.memOk) :
    NextOk (execBackgroundUnit activity unit s) := by
  refine nextOk_next ?_
  split
  · exact snapBackground_wf _ _ hs
  · exact powerUpUnit_wf _ _ (zeroUnit_wf _ _ hs)
  · split
    · exact memOk_ite (performCmd_wf _ _ _ hs) hs
    · exact hs
  · split
    · exact memOk_ite (performCmd_wf _ _ _ hs) hs
    · exact hs
  · exact patrolLine_wf _ _ _ hs
  · exact hs

/-! ### Roustabouts -/

theorem roustStep_wf (m : M Unit) (s : State) (h : Keeps m) (hs : s.memOk) : NextOk (roustStep m s) := by
  have := h s hs
  unfold roustStep
  cases hm : m s with
  | ok a t => rw [hm] at this; exact nextOk_next this
  | error e t =>
    rw [hm] at this
    cases e with
    | trap x => exact nextOk_next (raiseFor_wf _ _ _ this)
    | wait => exact nextOk_next this

theorem getR_keeps : Keeps getR := Keeps.get_bind fun _ _ => Keeps.pure _

theorem modR_keeps (f : Roustabout → Roustabout) : Keeps (modR f) :=
  Keeps.modify fun _ w => memOk_of_eq (State.modCur_mem _ _) w

theorem getX_keeps (n : XReg) : Keeps (getX n) := getR_keeps

theorem setX_keeps (n : XReg) (v : Word) : Keeps (setX n v) := modR_keeps _

theorem roustWord_keeps : Keeps roustWord := getR_keeps

theorem raddr_keeps {α : Type} (a : Word) : Keeps (raddr a : M α) := roustWord_keeps

theorem roustPlace_keeps (a : Word) (n : Nat) (p : CapPerm) (tp : Perm) (amo : Bool) : Keeps (roustPlace a n p tp amo) :=
  Keeps.bind getR_keeps fun _ => Keeps.bind (capAccess_keeps _ _ _ _ _ _) fun _ => Keeps.bind (orTrap_keeps _ _) fun _ =>
    Keeps.ite (Keeps.trapD_bind _ _ _ _) (Keeps.ite (Keeps.trapD_bind _ _ _ _) (Keeps.ite (Keeps.trapD_bind _ _ _ _)
      (Keeps.pure _)))

theorem roustAccess_keeps (a : Word) (n : Nat) (p : CapPerm) (tp : Perm) : Keeps (roustAccess a n p tp) :=
  roustPlace_keeps _ _ _ _ _

theorem localLoad_keeps (a : Word) (n : Nat) : Keeps (localLoad a n) :=
  Keeps.get_bind fun _ _ => Keeps.bind getR_keeps fun _ => Keeps.ite (Keeps.pure _) (raddr_keeps _)

theorem roustLoad_keeps (rd : XReg) (a : Word) (n : Nat) (signed : Bool) : Keeps (roustLoad rd a n signed) :=
  Keeps.ite (Keeps.bind (roustAccess_keeps _ _ _ _) fun _ => Keeps.get_bind fun _ _ => Keeps.ite (enqueue_keeps _)
    (Keeps.bind (loadMem_keeps _ _ _ _) fun _ => setX_keeps _ _)) (Keeps.bind (localLoad_keeps _ _) fun _ => setX_keeps _ _)

theorem dstorePut_keeps (a : Nat) (bs : List Byte) : Keeps (dstorePut a bs) := modR_keeps _

theorem roustStore_keeps (a v : Word) (n : Nat) : Keeps (roustStore a v n) :=
  Keeps.ite (Keeps.bind (roustAccess_keeps _ _ _ _) fun _ => issueStore_keeps _ _ _ _ _) (Keeps.ite (dstorePut_keeps _ _)
    (raddr_keeps _))

theorem roustNext_keeps (len : Nat) : Keeps (roustNext len) := modR_keeps _

theorem roustJump_keeps (selfLoop : Bool) (target : Word) : Keeps (roustJump selfLoop target) := modR_keeps _

theorem rvOp_keeps (len : Nat) (op : RvOp) : Keeps (rvOp len op) := by
  refine Keeps.bind getR_keeps fun _ => ?_
  split
  · exact Keeps.bind (setX_keeps _ _) fun _ => roustNext_keeps _
  · exact Keeps.bind (setX_keeps _ _) fun _ => roustNext_keeps _
  · exact Keeps.bind (setX_keeps _ _) fun _ => roustJump_keeps _ _
  · exact Keeps.bind (setX_keeps _ _) fun _ => roustJump_keeps _ _
  · exact Keeps.ite (roustJump_keeps _ _) (roustNext_keeps _)
  · exact Keeps.bind (roustLoad_keeps _ _ _ _) fun _ => roustNext_keeps _
  · exact Keeps.bind (roustStore_keeps _ _ _) fun _ => roustNext_keeps _
  · exact Keeps.bind (setX_keeps _ _) fun _ => roustNext_keeps _
  · exact Keeps.bind (setX_keeps _ _) fun _ => roustNext_keeps _
  · exact Keeps.bind (setX_keeps _ _) fun _ => roustNext_keeps _
  · exact Keeps.bind (setX_keeps _ _) fun _ => roustNext_keeps _
  · exact Keeps.bind (setX_keeps _ _) fun _ => roustNext_keeps _
  · exact Keeps.bind (setX_keeps _ _) fun _ => roustNext_keeps _
  · exact roustNext_keeps _

theorem execRoustaboutInstruction_wf (x : RvArgs) (s : State) (hs : s.memOk) : NextOk (execRoustaboutInstruction x s) :=
  roustStep_wf _ _ (rvOp_keeps _ _) hs

theorem execRoustaboutFence_wf (x : RvFenceArgs) (s : State) (hs : s.memOk) : NextOk (execRoustaboutFence x s) :=
  roustStep_wf _ _ (Keeps.ite (Keeps.bind (releaseOwn_keeps _) fun _ => Keeps.bind (Keeps.modify fun _ w =>
    acquire_wf _ _ _ w) fun _ =>
    roustNext_keeps _) (roustNext_keeps _)) hs

theorem dstoreAmo_keeps (x : RvAmoArgs) (a : Word) (n : Nat) (b : Word) : Keeps (dstoreAmo x a n b) := by
  have put (v : Word) {β : Type} (k : PUnit → M β) (hk : ∀ u, Keeps (k u)) :
      Keeps (dstorePut a.toNat ((wordBytes 8 v).take n) >>= k) := Keeps.bind (dstorePut_keeps _ _) hk
  have perform (r : Roustabout) (bs : List Byte) : Keeps (do
      if a.toNat % n ≠ 0 then trapD cAlign a 0
      let old := wordOfBytes bs
      match x.op with
      | .lr =>
        modR (fun r => { r with reserved := some (dstoreLine a.toNat) })
        return roustValue true bs
      | .sc =>
        let ok := r.reserved == some (dstoreLine a.toNat)
        if ok then dstorePut a.toNat ((wordBytes 8 b).take n)
        modR (fun r => { r with reserved := none })
        return if ok then 0 else 1
      | op =>
        dstorePut a.toNat ((wordBytes 8 (rvAmoNew op (8 * n) old b)).take n)
        return roustValue true bs : M Word) := by
    refine Keeps.ite (Keeps.trapD_bind _ _ _ _) ?_
    dsimp only
    split
    · exact Keeps.bind (modR_keeps _) fun _ => Keeps.pure _
    · exact Keeps.ite (put _ _ fun _ => Keeps.bind (modR_keeps _) fun _ => Keeps.pure _)
        (Keeps.bind (modR_keeps _) fun _ => Keeps.pure _)
    · exact put _ _ fun _ => Keeps.pure _
  refine Keeps.bind getR_keeps fun r => Keeps.bind (localLoad_keeps _ _) fun bs => ?_
  dsimp only
  split
  · exact perform r bs
  · exact Keeps.ite (Keeps.bind (raddr_keeps _) fun _ => perform r bs) (perform r bs)

theorem memAmo_keeps (x : RvAmoArgs) (a : Word) (n : Nat) (b : Word) : Keeps (memAmo x a n b) := by
  unfold memAmo
  split
  · exact Keeps.bind (roustAccess_keeps _ _ _ _) fun _ => Keeps.get_bind fun _ _ => Keeps.ite (enqueue_keeps _)
      (Keeps.get_bind fun _ _ => Keeps.bind (drainParty_keeps _) fun _ => Keeps.modify fun _ w'' =>
        performAmoX_wf _ _ _ _ _ _ _ w'')
  · exact Keeps.bind (roustAccess_keeps _ _ _ _) fun _ => Keeps.get_bind fun _ _ => Keeps.ite (enqueue_keeps _)
      (Keeps.get_bind fun _ _ => Keeps.bind (drainParty_keeps _) fun _ => Keeps.modify fun _ w'' =>
        performAmoX_wf _ _ _ _ _ _ _ w'')
  · exact Keeps.bind (roustPlace_keeps _ _ _ _ _) fun _ => Keeps.get_bind fun _ _ => Keeps.ite (enqueue_keeps _)
      (Keeps.get_bind fun _ _ => Keeps.bind (drainParty_keeps _) fun _ => Keeps.modify fun _ w'' =>
        performAmoX_wf _ _ _ _ _ _ _ w'')

theorem execRoustaboutAmo_wf (x : RvAmoArgs) (s : State) (hs : s.memOk) : NextOk (execRoustaboutAmo x s) := by
  have reach (a b : Word) (n : Nat) : Keeps (do
      if 0x10000 ≤ a.toNat then memAmo x a n b
      else
        let v ← dstoreAmo x a n b
        setX x.rd v
        if x.aq then modify (fun s => acquire s s.core .sys)
      roustNext 4 : M Unit) :=
    Keeps.ite (Keeps.bind (memAmo_keeps _ _ _ _) fun _ => roustNext_keeps _)
      (Keeps.bind (dstoreAmo_keeps _ _ _ _) fun _ => Keeps.bind (setX_keeps _ _) fun _ => Keeps.ite
        (Keeps.bind (Keeps.modify fun s w => acquire_wf _ _ _ w) fun _ => roustNext_keeps _) (roustNext_keeps _))
  have released (a b : Word) (n : Nat) : Keeps (do
      if x.rl then releaseOwn .sys
      if 0x10000 ≤ a.toNat then memAmo x a n b
      else
        let v ← dstoreAmo x a n b
        setX x.rd v
        if x.aq then modify (fun s => acquire s s.core .sys)
      roustNext 4 : M Unit) := Keeps.ite (Keeps.bind (releaseOwn_keeps _) fun _ => reach a b n) (reach a b n)
  refine roustStep_wf _ _ (Keeps.bind (getX_keeps _) fun a => Keeps.bind (getX_keeps _) fun b => ?_) hs
  dsimp only
  split
  · exact released a b _
  · exact Keeps.bind parkIfSpec_keeps fun _ => released a b _

theorem actingParty_keeps : Keeps actingParty := Keeps.get_bind fun _ _ => Keeps.pure _

theorem extStep_wf (loader storer : Bool) (m : M Unit) (s : State) (h : Keeps m) (hs : s.memOk) :
    NextOk (extStep loader storer m s) :=
  roustStep_wf _ _ (Keeps.bind actingParty_keeps fun _ => Keeps.ite (Keeps.bind roustWord_keeps fun _ =>
    Keeps.trapD_bind _ _ _ _)
    (Keeps.bind h fun _ => roustNext_keeps _)) hs

theorem eport_keeps {α : Type} (p : Word) : Keeps (eport p : M α) := Keeps.trapD _ _ _

theorem pushCap_keeps (r : Roustabout) (n : Nat) (off : Word) : Keeps (pushCap r n off) := by
  unfold pushCap
  split
  · exact Keeps.pure _
  · exact Keeps.ite (Keeps.trapD_bind _ _ _ _) (Keeps.pure _)

theorem pushing_keeps (p : Party) (r : Roustabout) (n : Nat) (w k a b : Word) (rd : XReg) : Keeps (do
    let src ← pushCap r (field k 0 4) a
    let dst ← pushCap r (field k 4 4) b
    let idx ← pushCap r (field k 8 4) 0
    let seq ← enginePush p n w src dst idx (signExt (field k 32 32 : Nat) 32)
    setX rd (BitVec.ofNat 64 seq) : M Unit) :=
  Keeps.bind (pushCap_keeps _ _ _) fun _ => Keeps.bind (pushCap_keeps _ _ _) fun _ => Keeps.bind
    (pushCap_keeps _ _ _) fun _ =>
    Keeps.bind (enginePush_keeps _ _ _ _ _ _ _) fun _ => setX_keeps _ _

theorem execQePush_wf (x : QArgs) (s : State) (hs : s.memOk) : NextOk (execQePush x s) := by
  refine extStep_wf _ _ _ _ (Keeps.bind (getX_keeps _) fun a => Keeps.bind getR_keeps fun r => Keeps.ite
    (Keeps.bind (raddr_keeps _) fun _ => ?_) ?_) hs
  · refine Keeps.get_bind fun s w => ?_
    split
    · exact eport_keeps _
    · exact Keeps.bind actingParty_keeps fun p => pushing_keeps _ _ _ _ _ _ _ _
  · refine Keeps.get_bind fun s w => ?_
    split
    · exact eport_keeps _
    · exact Keeps.bind actingParty_keeps fun p => pushing_keeps _ _ _ _ _ _ _ _

theorem enginePt_keeps (pt : Word) : Keeps (enginePt pt) := by
  refine Keeps.get_bind fun _ w => ?_
  split
  · exact Keeps.pure _
  · exact eport_keeps _

theorem execQePop_wf (x : QArgs) (s : State) (hs : s.memOk) : NextOk (execQePop x s) :=
  extStep_wf _ _ _ _ (Keeps.bind (getX_keeps _) fun _ => Keeps.bind (enginePt_keeps _) fun _ =>
    Keeps.bind actingParty_keeps fun _ => Keeps.bind (popResult_keeps _ _) fun _ => setX_keeps _ _) hs

theorem execQeStat_wf (x : QArgs) (s : State) (hs : s.memOk) : NextOk (execQeStat x s) :=
  extStep_wf _ _ _ _ (Keeps.bind (getX_keeps _) fun _ => Keeps.ite (Keeps.bind (eport_keeps _) fun _ =>
    Keeps.get_bind fun _ _ =>
    Keeps.bind actingParty_keeps fun _ => setX_keeps _ _) (Keeps.get_bind fun _ _ => Keeps.bind actingParty_keeps fun _ =>
      setX_keeps _ _)) hs

theorem execQeWait_wf (x : QArgs) (s : State) (hs : s.memOk) : NextOk (execQeWait x s) :=
  extStep_wf _ _ _ _ (Keeps.bind (getX_keeps _) fun _ => Keeps.bind (enginePt_keeps _) fun _ =>
    Keeps.bind actingParty_keeps fun _ => Keeps.get_bind fun _ _ => Keeps.ite Keeps.waits (Keeps.pure _)) hs

theorem modQ_keeps (f : Queues → Queues) : Keeps (modQ f) := Keeps.modifyCur _

theorem execQaPush_wf (x : QArgs) (s : State) (hs : s.memOk) : NextOk (execQaPush x s) :=
  extStep_wf _ _ _ _ (Keeps.bind (getX_keeps _) fun _ => Keeps.bind Keeps.getCur fun _ => Keeps.ite (Keeps.waits_bind _)
    (Keeps.bind (releaseOwn_keeps _) fun _ => modQ_keeps _)) hs

theorem execQaStat_wf (x : QArgs) (s : State) (hs : s.memOk) : NextOk (execQaStat x s) :=
  extStep_wf _ _ _ _ (Keeps.bind Keeps.getCur fun _ => setX_keeps _ _) hs

theorem execQbPush_wf (x : QArgs) (s : State) (hs : s.memOk) : NextOk (execQbPush x s) :=
  extStep_wf _ _ _ _ (Keeps.bind (getX_keeps _) fun _ => Keeps.bind Keeps.getCur fun _ => Keeps.ite (Keeps.waits_bind _)
    (Keeps.bind (releaseOwn_keeps _) fun _ => modQ_keeps _)) hs

theorem execQbStat_wf (x : QArgs) (s : State) (hs : s.memOk) : NextOk (execQbStat x s) :=
  extStep_wf _ _ _ _ (Keeps.bind Keeps.getCur fun _ => setX_keeps _ _) hs

theorem execQdPop_wf (x : QArgs) (s : State) (hs : s.memOk) : NextOk (execQdPop x s) := by
  refine extStep_wf _ _ _ _ (Keeps.bind Keeps.getCur fun _ => ?_) hs
  split
  · exact Keeps.waits
  · exact Keeps.bind (modQ_keeps _) fun _ => setX_keeps _ _

theorem execQdStat_wf (x : QArgs) (s : State) (hs : s.memOk) : NextOk (execQdStat x s) :=
  extStep_wf _ _ _ _ (Keeps.bind Keeps.getCur fun _ => setX_keeps _ _) hs

theorem announce_keeps (q : Fin 8) (st : Fin 16) (n off : Nat) : Keeps (announce q st n off) :=
  Keeps.bind Keeps.getCur fun _ => Keeps.ite (Keeps.waits_bind _) (modQ_keeps _)

theorem execQsStrip_wf (x : QArgs) (s : State) (hs : s.memOk) : NextOk (execQsStrip x s) := by
  refine extStep_wf _ _ _ _ (Keeps.bind (getX_keeps _) fun w => Keeps.bind (getX_keeps _) fun a => ?_) hs
  split
  · exact Keeps.trapD _ _ _
  · refine Keeps.ite (Keeps.trapD_bind _ _ _ _) (Keeps.get_bind fun s _ => ?_)
    split
    · exact Keeps.trapD _ _ _
    · exact announce_keeps _ _ _ _

theorem execQsScale_wf (x : QArgs) (s : State) (hs : s.memOk) : NextOk (execQsScale x s) := by
  refine extStep_wf _ _ _ _ (Keeps.bind (getX_keeps _) fun w => Keeps.bind (getX_keeps _) fun a => ?_) hs
  split
  · exact Keeps.trapD _ _ _
  · refine Keeps.ite (Keeps.trapD_bind _ _ _ _) (Keeps.get_bind fun s _ => ?_)
    split
    · exact Keeps.trapD _ _ _
    · refine Keeps.bind Keeps.getCur fun c => ?_
      split
      · exact Keeps.trapD _ _ _
      · exact modQ_keeps _

theorem execQsEnd_wf (x : QArgs) (s : State) (hs : s.memOk) : NextOk (execQsEnd x s) :=
  extStep_wf _ _ _ _ (Keeps.bind (getX_keeps _) fun _ => Keeps.bind Keeps.getCur fun _ => Keeps.ite (Keeps.waits_bind _)
    (modQ_keeps _)) hs

theorem execQvFence_wf (x : QArgs) (s : State) (hs : s.memOk) : NextOk (execQvFence x s) :=
  extStep_wf _ _ _ _ (Keeps.bind (getX_keeps _) fun _ => Keeps.bind (releaseOwn_keeps _) fun _ => Keeps.modify fun _ w =>
    acquire_wf _ _ _ w) hs

theorem execQvEvent_wf (x : QArgs) (s : State) (hs : s.memOk) : NextOk (execQvEvent x s) :=
  extStep_wf _ _ _ _ (Keeps.bind (getX_keeps _) fun _ => Keeps.bind (getX_keeps _) fun _ =>
    Keeps.bind Keeps.getCur fun _ => Keeps.ite (Keeps.waits_bind _) (Keeps.bind actingParty_keeps fun _ => modQ_keeps _)) hs

theorem execQvWait_wf (x : QArgs) (s : State) (hs : s.memOk) : NextOk (execQvWait x s) :=
  extStep_wf _ _ _ _ (Keeps.bind Keeps.getCur fun _ => Keeps.bind (getX_keeps _) fun _ => Keeps.ite (Keeps.waits_bind _)
    (setX_keeps _ _)) hs

theorem modDflt_keeps (f : DefaultLoader → DefaultLoader) : Keeps (modDflt f) := Keeps.modifyCur _

theorem loaderResult_keeps (e : ResElem) : Keeps (loaderResult e) :=
  Keeps.bind (modDflt_keeps _) fun _ => Keeps.ite (Keeps.ite (modDflt_keeps _) (Keeps.bind freeVal_keeps fun _ =>
    Keeps.bind freeVal_keeps fun _ => Keeps.trapD _ _ _)) (Keeps.pure _)

theorem loaderServe_keeps (d : DefaultLoader) (b : Nat) : Keeps (loaderServe d b) := by
  refine Keeps.bind Keeps.getCur fun c => ?_
  refine Keeps.ite (Keeps.ite (Keeps.waits_bind _) (modDflt_keeps _)) ?_
  split
  · exact Keeps.get_bind fun s w => Keeps.bind (enginePush_keeps _ _ _ _ _ _ _) fun _ => modDflt_keeps _
  · refine Keeps.ite (Keeps.ite ?_ ?_) (Keeps.ite (Keeps.ite ?_ ?_) (Keeps.ite ?_ ?_))
    · exact Keeps.bind freeVal_keeps fun _ => Keeps.bind freeVal_keeps fun _ => Keeps.trapD_bind _ _ _ _
    · exact Keeps.bind (announce_keeps _ _ _ _) fun _ => modDflt_keeps _
    · exact Keeps.bind freeVal_keeps fun _ => Keeps.bind freeVal_keeps fun _ => Keeps.trapD_bind _ _ _ _
    · dsimp only
      split
      · exact modDflt_keeps _
      · exact Keeps.bind (modQ_keeps _) fun _ => modDflt_keeps _
    · exact Keeps.bind (popResult_keeps _ _) fun _ => loaderResult_keeps _
    · exact modDflt_keeps _

theorem loaderTurn_keeps : Keeps loaderTurn := by
  refine Keeps.bind Keeps.getCur fun c => ?_
  dsimp only
  split
  · exact Keeps.pure _
  · split
    · exact Keeps.modifyCur _
    · exact Keeps.ite (Keeps.waits_bind _) (Keeps.bind (modQ_keeps _) fun _ => modDflt_keeps _)
    · split
      · exact loaderServe_keeps _ _
      · exact Keeps.ite (modDflt_keeps _) (modDflt_keeps _)

theorem xReady_wf (i : Instr) (s : State) (hs : s.memOk) : ∀ t ∈ (xReady i s), t.memOk := by
  intro t h
  have drained := drainFor_wf s s.core s.party (feedsX (xRegs i)) hs
  unfold xReady at h
  dsimp only at h
  split at h
  · cases h
  · cases h; exact drained

/-! ### Scalar instructions -/

theorem saluStep_wf (f : SaluFn) (x : SaluArgs) (s : State) (hs : s.memOk) : NextOk (saluStep f x s) :=
  scalarStep_wf _ _ _ (Keeps.bind Keeps.getCur fun _ => Keeps.bind (Keeps.modifyCur _) fun _ => advance_keeps _) hs

theorem saluUnStep_wf (f : SaluFn) (x : SaluUnArgs) (s : State) (hs : s.memOk) : NextOk (saluUnStep f x s) :=
  scalarStep_wf _ _ _ (Keeps.bind Keeps.getCur fun _ => Keeps.bind (Keeps.modifyCur _) fun _ => advance_keeps _) hs

theorem execSel_wf (x : SelArgs) (s : State) (hs : s.memOk) : NextOk (execSel x s) :=
  scalarStep_wf _ _ _ (Keeps.bind Keeps.getCur fun _ => Keeps.bind (Keeps.modifyCur _) fun _ => advance_keeps _) hs

theorem execAddi_wf (x : AddiArgs) (s : State) (hs : s.memOk) : NextOk (execAddi x s) :=
  scalarStep_wf _ _ _ (Keeps.bind Keeps.getCur fun _ => Keeps.bind (Keeps.modifyCur _) fun _ => advance_keeps _) hs

theorem execCmp_wf (x : CmpArgs) (s : State) (hs : s.memOk) : NextOk (execCmp x s) :=
  scalarStep_wf _ _ _ (Keeps.bind Keeps.getCur fun _ => Keeps.bind (Keeps.modifyCur _) fun _ => advance_keeps _) hs

theorem execLi_wf (x : LiArgs) (s : State) (hs : s.memOk) : NextOk (execLi x s) :=
  scalarStep_wf _ _ _ (Keeps.bind (Keeps.modifyCur _) fun _ => advance_keeps _) hs

/-! ### The search for work -/

theorem placeTask_wf (s : State) (k : Nat) (e : Nat × Nat × Word) (hs : s.memOk) : (placeTask s k e).memOk :=
  memOk_ite (memOk_of_eq (State.modCore_mem _ _ _) (setGang_wf _ _ _ (queueGang_wf _ _ _ (putRec_wf _ _ _ _ hs))))
    (queueGang_wf _ _ _ (putRec_wf _ _ _ _ hs))

theorem searchSteal_wf (s : State) (k v : Nat) (hs : s.memOk) : ∀ t ∈ (searchSteal s k v), t.memOk := by
  intro t h
  have taken := dqSteal_wf s v k hs
  unfold searchSteal at h
  split at h
  · cases h
  · split at h
    · cases h
    · cases h; exact placeTask_wf _ _ _ taken

theorem searchOwn_wf (s : State) (k : Nat) (hs : s.memOk) : ∀ t ∈ (searchOwn s k), t.memOk := by
  intro t h
  have taken := dqPop_wf s k hs
  unfold searchOwn at h
  dsimp only at h
  split at h
  · cases h
  · split at h
    · cases h
    · cases h; exact placeTask_wf _ _ _ taken

theorem firstSteal_wf (s : State) (k : Nat) (a : List Nat) (hs : s.memOk) : ∀ t ∈ (firstSteal s k a), t.memOk := by
  induction a with
  | nil => intro t h; cases h
  | cons v rest ih =>
    intro t h
    unfold firstSteal at h
    split at h
    · next hv => cases h; exact searchSteal_wf _ _ _ hs _ hv
    · exact ih t h

theorem mem_or {α : Type} {p : α → Prop} {a b : Option α} (ha : ∀ t ∈ a, p t) (hb : ∀ t ∈ b, p t) : ∀ t ∈ a.or b, p t := by
  cases a with
  | none => exact hb
  | some x => exact ha

theorem searchCore_wf (s : State) (k : Nat) (hs : s.memOk) : (searchCore s k).memOk := by
  unfold searchCore
  dsimp only
  split
  · next t h =>
    refine mem_or (p := State.memOk) (searchOwn_wf _ _ ?_) (mem_or (firstSteal_wf _ _ _ ?_) (mem_or ?_ (mem_or
      (firstSteal_wf _ _ _ ?_)
      (firstSteal_wf _ _ _ ?_)))) _ h
    · exact hs
    · exact hs
    · intro t h
      obtain ⟨b, _, hb⟩ := Option.bind_eq_some_iff.mp h
      exact handOut_wf _ _ _ (by exact hs) _ hb
    · exact hs
    · exact hs
  · refine memOk_of_eq (State.modCore_mem _ _ _) ?_
    split
    · exact laneReturn_wf _ _ hs
    · exact hs

theorem searchAll_wf (s : State) (k : Nat) (hs : s.memOk) : (searchAll s k).memOk := by
  refine memOk_ite hs ?_
  split
  · exact hs
  · exact searchCore_wf _ _ hs

theorem execIdleSearch_wf (core : Nat) (s : State) (hs : s.memOk) : NextOk (execIdleSearch core s) :=
  nextOk_ite (nextOk_next hs) (nextOk_next (searchAll_wf _ _ hs))

theorem execIdleSearchTimeout_wf (core : Nat) (s : State) (hs : s.memOk) : NextOk (execIdleSearchTimeout core s) :=
  nextOk_ite (nextOk_next (searchAll_wf _ _ hs)) (nextOk_next hs)

theorem execScrub_wf (core : Nat) (s : State) (hs : s.memOk) : NextOk (execScrub core s) := by
  unfold execScrub
  split
  · exact nextOk_next hs
  · exact nextOk_ite (nextOk_next hs) (nextOk_next (scrubCore_wf _ _ (clearCores_wf _ _ hs)))

/-! ### Every instruction and every step -/

theorem exec_wf (i : Instr) (s : State) (hs : s.memOk) : NextOk (exec i s) := by
  cases i with
  | add x => exact (saluStep_wf _ _ _ hs : NextOk (execAdd x s))
  | sub x => exact (saluStep_wf _ _ _ hs : NextOk (execSub x s))
  | mul x => exact (saluStep_wf _ _ _ hs : NextOk (execMul x s))
  | mulh x => exact (saluStep_wf _ _ _ hs : NextOk (execMulh x s))
  | div x => exact (saluStep_wf _ _ _ hs : NextOk (execDiv x s))
  | rem x => exact (saluStep_wf _ _ _ hs : NextOk (execRem x s))
  | and x => exact (saluStep_wf _ _ _ hs : NextOk (execAnd x s))
  | or x => exact (saluStep_wf _ _ _ hs : NextOk (execOr x s))
  | xor x => exact (saluStep_wf _ _ _ hs : NextOk (execXor x s))
  | andn x => exact (saluStep_wf _ _ _ hs : NextOk (execAndn x s))
  | shl x => exact (saluStep_wf _ _ _ hs : NextOk (execShl x s))
  | shr x => exact (saluStep_wf _ _ _ hs : NextOk (execShr x s))
  | sar x => exact (saluStep_wf _ _ _ hs : NextOk (execSar x s))
  | rot x => exact (saluStep_wf _ _ _ hs : NextOk (execRot x s))
  | min x => exact (saluStep_wf _ _ _ hs : NextOk (execMin x s))
  | max x => exact (saluStep_wf _ _ _ hs : NextOk (execMax x s))
  | clz x => exact (saluUnStep_wf _ _ _ hs : NextOk (execClz x s))
  | ctz x => exact (saluUnStep_wf _ _ _ hs : NextOk (execCtz x s))
  | popc x => exact (saluUnStep_wf _ _ _ hs : NextOk (execPopc x s))
  | bext x => exact (saluStep_wf _ _ _ hs : NextOk (execBext x s))
  | bdep x => exact (saluStep_wf _ _ _ hs : NextOk (execBdep x s))
  | sel x => exact execSel_wf x s hs
  | addi x => exact execAddi_wf x s hs
  | cmp x => exact execCmp_wf x s hs
  | li x => exact execLi_wf x s hs
  | b x => exact execB_wf x s hs
  | bc x => exact execBc_wf x s hs
  | call x => exact execCall_wf x s hs
  | jmp x => exact execJmp_wf x s hs
  | jmpCall x => exact execJmpCall_wf x s hs
  | ret x => exact execRet_wf x s hs
  | callq x => exact execCallq_wf x s hs
  | park x => exact execPark_wf x s hs
  | halt x => exact execHalt_wf x s hs
  | yieldCore x => exact execYieldCore_wf x s hs
  | ld x => exact execLd_wf x s hs
  | st x => exact execSt_wf x s hs
  | ldc x => exact execLdc_wf x s hs
  | stc x => exact execStc_wf x s hs
  | amo x => exact execAmo_wf x s hs
  | fenceSv x => exact execFenceSv_wf x s hs
  | fenceVs x => exact (fenceWait_wf _ _ _ hs : NextOk (execFenceVs x s))
  | fenceVv x => exact execFenceVv_wf x s hs
  | fenceAll x => exact (fenceWait_wf _ _ _ hs : NextOk (execFenceAll x s))
  | tfence x => exact execTfence_wf x s hs
  | cwb x => exact execCwb_wf x s hs
  | iinv x => exact execIinv_wf x s hs
  | ifence x => exact execIfence_wf x s hs
  | cbound x => exact execCbound_wf x s hs
  | cnarrow x => exact execCnarrow_wf x s hs
  | caddr x => exact execCaddr_wf x s hs
  | cinc x => exact execCinc_wf x s hs
  | cget x => exact execCget_wf x s hs
  | ctest x => exact execCtest_wf x s hs
  | cmov x => exact execCmov_wf x s hs
  | vmode x => exact execVmode_wf x s hs
  | setvl x => exact execSetvl_wf x s hs
  | vadd x => exact (vbin_wf _ _ _ _ hs : NextOk (execVadd x s))
  | vsub x => exact (vbin_wf _ _ _ _ hs : NextOk (execVsub x s))
  | vmul x => exact (vbin_wf _ _ _ _ hs : NextOk (execVmul x s))
  | vmulh x => exact (vbin_wf _ _ _ _ hs : NextOk (execVmulh x s))
  | vand x => exact (vbin_wf _ _ _ _ hs : NextOk (execVand x s))
  | vor x => exact (vbin_wf _ _ _ _ hs : NextOk (execVor x s))
  | vxor x => exact (vbin_wf _ _ _ _ hs : NextOk (execVxor x s))
  | vandn x => exact (vbin_wf _ _ _ _ hs : NextOk (execVandn x s))
  | vshl x => exact (vbin_wf _ _ _ _ hs : NextOk (execVshl x s))
  | vshr x => exact (vbin_wf _ _ _ _ hs : NextOk (execVshr x s))
  | vsar x => exact (vbin_wf _ _ _ _ hs : NextOk (execVsar x s))
  | vmin x => exact (vbin_wf _ _ _ _ hs : NextOk (execVmin x s))
  | vmax x => exact (vbin_wf _ _ _ _ hs : NextOk (execVmax x s))
  | vabs x => exact execVabs_wf x s hs
  | vneg x => exact execVneg_wf x s hs
  | vmacc x => exact execVmacc_wf x s hs
  | vsat x => exact execVsat_wf x s hs
  | vsel x => exact execVsel_wf x s hs
  | vfadd x => exact (vfbin_wf _ _ _ _ hs : NextOk (execVfadd x s))
  | vfsub x => exact (vfbin_wf _ _ _ _ hs : NextOk (execVfsub x s))
  | vfmul x => exact (vfbin_wf _ _ _ _ hs : NextOk (execVfmul x s))
  | vfmin x => exact (vfpick_wf _ _ _ _ hs : NextOk (execVfmin x s))
  | vfmax x => exact (vfpick_wf _ _ _ _ hs : NextOk (execVfmax x s))
  | vfabs x => exact (vfone_wf _ _ _ _ hs : NextOk (execVfabs x s))
  | vfneg x => exact (vfone_wf _ _ _ _ hs : NextOk (execVfneg x s))
  | vfdiv x => exact (vfbin_wf _ _ _ _ hs : NextOk (execVfdiv x s))
  | vfsqrt x => exact execVfsqrt_wf x s hs
  | vfrsq x => exact (vfone_wf _ _ _ _ hs : NextOk (execVfrsq x s))
  | vfexp2 x => exact (vfone_wf _ _ _ _ hs : NextOk (execVfexp2 x s))
  | vfma x => exact (vfma_wf _ _ _ _ _ hs : NextOk (execVfma x s))
  | vfms x => exact (vfma_wf _ _ _ _ _ hs : NextOk (execVfms x s))
  | vfnma x => exact (vfma_wf _ _ _ _ _ hs : NextOk (execVfnma x s))
  | vfnms x => exact (vfma_wf _ _ _ _ _ hs : NextOk (execVfnms x s))
  | vcmp x => exact execVcmp_wf x s hs
  | vfcmp x => exact execVfcmp_wf x s hs
  | pand x => exact (ptwo_wf _ _ _ _ hs : NextOk (execPand x s))
  | por x => exact (ptwo_wf _ _ _ _ hs : NextOk (execPor x s))
  | pxor x => exact (ptwo_wf _ _ _ _ hs : NextOk (execPxor x s))
  | pnot x => exact execPnot_wf x s hs
  | pfirst x => exact execPfirst_wf x s hs
  | pcount x => exact execPcount_wf x s hs
  | vexit x => exact execVexit_wf x s hs
  | vperm x => exact execVperm_wf x s hs
  | vslideUp x => exact execVslideUp_wf x s hs
  | vslideDn x => exact execVslideDn_wf x s hs
  | vbcast x => exact execVbcast_wf x s hs
  | vcompress x => exact execVcompress_wf x s hs
  | vexpand x => exact execVexpand_wf x s hs
  | vzip x => exact execVzip_wf x s hs
  | vunzip x => exact execVunzip_wf x s hs
  | vred x => exact execVred_wf x s hs
  | vscan x => exact execVscan_wf x s hs
  | vshlw x => exact execVshlw_wf x s hs
  | vshrw x => exact execVshrw_wf x s hs
  | vfshlw x => exact execVfshlw_wf x s hs
  | vfshrw x => exact execVfshrw_wf x s hs
  | vld x => exact execVld_wf x s hs
  | vlds x => exact execVlds_wf x s hs
  | vldx x => exact execVldx_wf x s hs
  | vldff x => exact execVldff_wf x s hs
  | vldseg x => exact execVldseg_wf x s hs
  | vst x => exact execVst_wf x s hs
  | vsts x => exact execVsts_wf x s hs
  | vstx x => exact execVstx_wf x s hs
  | vstseg x => exact execVstseg_wf x s hs
  | vcvt x => exact execVcvt_wf x s hs
  | vquant x => exact execVquant_wf x s hs
  | vdequant x => exact execVdequant_wf x s hs
  | vbind x => exact execVbind_wf x s hs
  | vunbind x => exact execVunbind_wf x s hs
  | mldt x => exact execMldt_wf x s hs
  | mldtT x => exact execMldtT_wf x s hs
  | mrow x => exact execMrow_wf x s hs
  | mrowa x => exact execMrowa_wf x s hs
  | mzero x => exact execMzero_wf x s hs
  | mswap x => exact execMswap_wf x s hs
  | mchain x => exact execMchain_wf x s hs
  | mtbl x => exact execMtbl_wf x s hs
  | mdrain x => exact execMdrain_wf x s hs
  | epush x => exact execEpush_wf x s hs
  | epop x => exact execEpop_wf x s hs
  | epopNw x => exact execEpopNw_wf x s hs
  | eqstat x => exact execEqstat_wf x s hs
  | evpop x => exact execEvpop_wf x s hs
  | evpopNw x => exact execEvpopNw_wf x s hs
  | dpush x => exact execDpush_wf x s hs
  | dpop x => exact execDpop_wf x s hs
  | dsteal x => exact execDsteal_wf x s hs
  | lpatch x => exact execLpatch_wf x s hs
  | larmPlace x => exact execLarmPlace_wf x s hs
  | larmArm x => exact execLarmArm_wf x s hs
  | larmDisarm x => exact disarm_wf x s hs
  | tfork x => exact execTfork_wf x s hs
  | treward x => exact execTreward_wf x s hs
  | tbar x => exact execTbar_wf x s hs
  | tcancel x => exact execTcancel_wf x s hs
  | tadv x => exact execTadv_wf x s hs
  | tadvNw x => exact execTadvNw_wf x s hs
  | sspawn x => exact execSspawn_wf x s hs
  | sresolve x => exact execSresolve_wf x s hs
  | sresolveFree x => exact execSresolveFree_wf x s hs
  | slk x => exact execSlk_wf x s hs
  | slkSeg x => exact execSlkSeg_wf x s hs
  | slkCond x => exact execSlkCond_wf x s hs
  | clset x => exact execClset_wf x s hs
  | clrun x => exact execClrun_wf x s hs
  | vdefer x => exact execVdefer_wf x s hs
  | vdrain x => exact execVdrain_wf x s hs
  | qePush x => exact execQePush_wf x s hs
  | qePop x => exact execQePop_wf x s hs
  | qeStat x => exact execQeStat_wf x s hs
  | qeWait x => exact execQeWait_wf x s hs
  | qaPush x => exact execQaPush_wf x s hs
  | qaStat x => exact execQaStat_wf x s hs
  | qbPush x => exact execQbPush_wf x s hs
  | qbStat x => exact execQbStat_wf x s hs
  | qdPop x => exact execQdPop_wf x s hs
  | qdStat x => exact execQdStat_wf x s hs
  | qsStrip x => exact execQsStrip_wf x s hs
  | qsScale x => exact execQsScale_wf x s hs
  | qsEnd x => exact execQsEnd_wf x s hs
  | qvFence x => exact execQvFence_wf x s hs
  | qvEvent x => exact execQvEvent_wf x s hs
  | qvWait x => exact execQvWait_wf x s hs
  | roustaboutFence x => exact execRoustaboutFence_wf x s hs
  | roustaboutAmo x => exact execRoustaboutAmo_wf x s hs
  | roustaboutInstruction x => exact execRoustaboutInstruction_wf x s hs
  | lysyoEnd x => exact execLysyoEnd_wf x s hs
  | lysyoLi x => exact (lyWrite_wf _ _ _ hs : NextOk (execLysyoLi x s))
  | lysyoLih x => exact (lyWrite_wf _ _ _ hs : NextOk (execLysyoLih x s))
  | lysyoAddi x => exact (lyWrite_wf _ _ _ hs : NextOk (execLysyoAddi x s))
  | lysyoAdd x => exact (lyAlu_wf _ _ _ hs : NextOk (execLysyoAdd x s))
  | lysyoSub x => exact (lyAlu_wf _ _ _ hs : NextOk (execLysyoSub x s))
  | lysyoAnd x => exact (lyAlu_wf _ _ _ hs : NextOk (execLysyoAnd x s))
  | lysyoOr x => exact (lyAlu_wf _ _ _ hs : NextOk (execLysyoOr x s))
  | lysyoXor x => exact (lyAlu_wf _ _ _ hs : NextOk (execLysyoXor x s))
  | lysyoShl x => exact (lyAlu_wf _ _ _ hs : NextOk (execLysyoShl x s))
  | lysyoShr x => exact (lyAlu_wf _ _ _ hs : NextOk (execLysyoShr x s))
  | lysyoMinu x => exact (lyAlu_wf _ _ _ hs : NextOk (execLysyoMinu x s))
  | lysyoMaxu x => exact (lyAlu_wf _ _ _ hs : NextOk (execLysyoMaxu x s))
  | ldpk x => exact execLdpk_wf x s hs
  | stpk x => exact execStpk_wf x s hs
  | ldrg x => exact execLdrg_wf x s hs
  | ldwn x => exact execLdwn_wf x s hs
  | stwn x => exact execStwn_wf x s hs
  | beq x => exact (lyBranch_wf _ _ _ hs : NextOk (execBeq x s))
  | bne x => exact (lyBranch_wf _ _ _ hs : NextOk (execBne x s))
  | bltu x => exact (lyBranch_wf _ _ _ hs : NextOk (execBltu x s))
  | lysyoLoop x => exact execLysyoLoop_wf x s hs
  | time x => exact (lyWrite_wf _ _ _ hs : NextOk (execTime x s))
  | qinfo x => exact (lyWrite_wf _ _ _ hs : NextOk (execQinfo x s))
  | illegalInstruction core => exact execIllegalInstruction_wf core s hs
  | vectorPush core => exact execVectorPush_wf core s hs
  | issue x => exact execIssue_wf x s hs
  | performLoad x => exact execPerformLoad_wf x s hs
  | performStore x => exact execPerformStore_wf x s hs
  | evict1 core line => exact (nextOk_next (evict1_wf _ _ _ hs) : NextOk (execEvict1 core line s))
  | evict2 die line => exact (nextOk_next (evict2_wf _ _ _ hs) : NextOk (execEvict2 die line s))
  | commit core => exact execCommit_wf core s hs
  | haltStep slot => exact execHaltStep_wf slot s hs
  | trap slot => exact execTrap_wf slot s hs
  | trapRecordPost queue => exact execTrapRecordPost_wf queue s hs
  | parkWake slot => exact execParkWake_wf slot s hs
  | runStop x => exact (nextOk_next (performStoreRow_wf _ _ _ _ hs) : NextOk (execRunStop x s))
  | runRun x => exact (nextOk_next (performStoreRow_wf _ _ _ _ hs) : NextOk (execRunRun x s))
  | runStep x => exact (nextOk_next (performStoreRow_wf _ _ _ _ hs) : NextOk (execRunStep x s))
  | commitRootcap x => exact (nextOk_next (performStoreRow_wf _ _ _ _ hs) : NextOk (execCommitRootcap x s))
  | commitVlcap x => exact (nextOk_next (performStoreRow_wf _ _ _ _ hs) : NextOk (execCommitVlcap x s))
  | commitAtp x => exact (nextOk_next (performStoreRow_wf _ _ _ _ hs) : NextOk (execCommitAtp x s))
  | commitApply slot => exact execCommitApply_wf slot s hs
  | controlStore x => exact execControlStore_wf x s hs
  | sscfgStore x => exact (nextOk_next (performStoreRow_wf _ _ _ _ hs) : NextOk (execSscfgStore x s))
  | hostAccess x => exact execHostAccess_wf x s hs
  | engineRefuse x => exact execEngineRefuse_wf x s hs
  | enginePerform x => exact execEnginePerform_wf x s hs
  | enginePost x => exact execEnginePost_wf x s hs
  | linkCommandStart x => exact execLinkCommandStart_wf x s hs
  | linkCommandPause x => exact execLinkCommandPause_wf x s hs
  | enginePause x => exact (nextOk_next (performStoreRow_wf _ _ _ _ hs) : NextOk (execEnginePause x s))
  | engineUnpause x => exact (nextOk_next (performStoreRow_wf _ _ _ _ hs) : NextOk (execEngineUnpause x s))
  | mldtReadDone core => exact execMldtReadDone_wf core s hs
  | tileReload core tile => exact execTileReload_wf core tile s hs
  | laneGrant cluster => exact execLaneGrant_wf cluster s hs
  | idleSearch core => exact execIdleSearch_wf core s hs
  | idleSearchTimeout core => exact execIdleSearchTimeout_wf core s hs
  | placementAim die region => exact execPlacementAim_wf die region s hs
  | placementWithdraw gang => exact execPlacementWithdraw_wf gang s hs
  | gangStart gang => exact execGangStart_wf gang s hs
  | gangEnd gang => exact execGangEnd_wf gang s hs
  | preemptRequest die region => exact execPreemptRequest_wf die region s hs
  | preemptHalt slot => exact execPreemptHalt_wf slot s hs
  | scrub core => exact execScrub_wf core s hs
  | troupeTimeout t => exact execTroupeTimeout_wf t s hs
  | troupeRelease t => exact execTroupeRelease_wf t s hs
  | hold x => exact (nextOk_next (performStoreRow_wf _ _ _ _ hs) : NextOk (execHold x s))
  | resume x => exact (nextOk_next (performStoreRow_wf _ _ _ _ hs) : NextOk (execResume x s))
  | release x => exact (nextOk_next (performStoreRow_wf _ _ _ _ hs) : NextOk (execRelease x s))
  | cancel x => exact (nextOk_next (performStoreRow_wf _ _ _ _ hs) : NextOk (execCancel x s))
  | siblingEnd slot => exact execSiblingEnd_wf slot s hs
  | prunedSegmentEnd slot => exact execPrunedSegmentEnd_wf slot s hs
  | segmentPark core => exact execSegmentPark_wf core s hs
  | migrateStall x => exact execMigrateStall_wf x s hs
  | migrateDrain old => exact execMigrateDrain_wf old s hs
  | migrateCopy old => exact execMigrateCopy_wf old s hs
  | migrateSwitch old => exact execMigrateSwitch_wf old s hs
  | migrateRelease old => exact execMigrateRelease_wf old s hs
  | pageRequestPost part => exact (nextOk_next (postRequests_wf _ _ _ hs) : NextOk (execPageRequestPost part s))
  | prqhead x => exact (nextOk_next (performStoreRow_wf _ _ _ _ hs) : NextOk (execPrqhead x s))
  | prreply x => exact (nextOk_next (performStoreRow_wf _ _ _ _ hs) : NextOk (execPrreply x s))
  | replyRecordJoin slot => exact execReplyRecordJoin_wf slot s hs
  | notify x => exact (nextOk_next (performStoreRow_wf _ _ _ _ hs) : NextOk (execNotify x s))
  | head x => exact (nextOk_next (performStoreRow_wf _ _ _ _ hs) : NextOk (execHead x s))
  | queueScan queue => exact execQueueScan_wf queue s hs
  | waitSignalWake queue => exact execWaitSignalWake_wf queue s hs
  | arbitrationStep fe => exact execArbitrationStep_wf fe s hs
  | holdRelease fe queue => exact execHoldRelease_wf fe queue s hs
  | holdTimeout fe queue => exact execHoldTimeout_wf fe queue s hs
  | launchStep fe queue => exact execLaunchStep_wf fe queue s hs
  | packetCompletion queue index => exact execPacketCompletion_wf queue index s hs
  | map x => exact (nextOk_next (performStoreRow_wf _ _ _ _ hs) : NextOk (execMap x s))
  | unmap x => exact (nextOk_next (performStoreRow_wf _ _ _ _ hs) : NextOk (execUnmap x s))
  | periodEnd pmeas => exact execPeriodEnd_wf pmeas s hs
  | backgroundUnit activity unit => exact execBackgroundUnit_wf activity unit s hs
  | snapcut mask => exact (nextOk_next (cutMask_wf _ _ hs) : NextOk (execSnapcut mask s))
  | snapForcedCopy die page => exact execSnapForcedCopy_wf die page s hs
  | snapBackgroundCopy die => exact (nextOk_next (snapBackground_wf _ _ hs) : NextOk (execSnapBackgroundCopy die s))
  | pseal x => exact execPseal_wf x s hs
  | punseal x => exact execPunseal_wf x s hs
  | openSession x => exact (nextOk_next (performStoreRow_wf _ _ _ _ hs) : NextOk (execOpenSession x s))
  | report x => exact (nextOk_next (performStoreRow_wf _ _ _ _ hs) : NextOk (execReport x s))
  | close x => exact (nextOk_next (performStoreRow_wf _ _ _ _ hs) : NextOk (execClose x s))
  | kload x => exact (nextOk_next (performStoreRow_wf _ _ _ _ hs) : NextOk (execKload x s))
  | hprep x => exact (nextOk_next (performStoreRow_wf _ _ _ _ hs) : NextOk (execHprep x s))
  | hoffer x => exact (nextOk_next (performStoreRow_wf _ _ _ _ hs) : NextOk (execHoffer x s))
  | erase x => exact (nextOk_next (performStoreRow_wf _ _ _ _ hs) : NextOk (execErase x s))
  | haccept x => exact (nextOk_next (performStoreRow_wf _ _ _ _ hs) : NextOk (execHaccept x s))
  | tgo x => exact (nextOk_next (performStoreRow_wf _ _ _ _ hs) : NextOk (execTgo x s))
  | uncorrectableEviction level unit line => exact execUncorrectableEviction_wf level unit line s hs
  | eccPatrol line uncorrectable => exact (nextOk_next (patrolLine_wf _ _ _ hs) : NextOk (execEccPatrol line uncorrectable s))
  | frontEndTableError fe => exact execFrontEndTableError_wf fe s hs
  | calliopeFailure fe => exact execCalliopeFailure_wf fe s hs
  | ferestart x => exact (nextOk_next (performStoreRow_wf _ _ _ _ hs) : NextOk (execFerestart x s))
  | powerUp reason => exact (nextOk_next (powerUpState_wf _ hs) : NextOk (execPowerUp reason s))
  | imggo x => exact (nextOk_next (performStoreRow_wf _ _ _ _ hs) : NextOk (execImggo x s))
  | peerPortAccess x => exact execPeerPortAccess_wf x s hs
  | peerLinkChange port up => exact execPeerLinkChange_wf port up s hs
  | unitPowerGate u => exact execUnitPowerGate_wf u s hs
  | unitPowerUp u => exact execUnitPowerUp_wf u s hs

/-! ### Early loads -/

theorem earlyLoad_wf (s : State) (k : Nat) (pc : Word) (hs : s.memOk) : (earlyLoad s k pc).memOk := by
  unfold earlyLoad
  refine memOk_ite hs ?_
  dsimp only
  split
  · exact hs
  · exact fst_wf_ite (loadPiece_wf _ _ _ _ _ _ _ hs) (ctxLoad_wf _ _ _ _ _ _ hs)

/-! ### What a turn runs -/

theorem runLoader_wf (s : State) (hs : s.memOk) : (runLoader s).memOk := by
  have h := loaderTurn_keeps s hs
  unfold runLoader
  cases hr : loaderTurn s with
  | ok a t => rw [hr] at h; exact h
  | error e t =>
    rw [hr] at h
    cases e with
    | trap x => exact raiseFor_wf _ _ _ h
    | wait => exact h

theorem clusterTick_wf (c : Nat) (s : State) (hs : s.memOk) : (clusterTick c s).memOk := hs

theorem dropFetchedLine_wf (s : State) (k l : Nat) (hs : s.memOk) : (dropFetchedLine s k l).memOk := hs

theorem nextTurn_wf (s : State) (hs : s.memOk) : (nextTurn s).2.memOk := by
  unfold nextTurn
  split
  · exact hs
  · exact hs

theorem afterTurn_wf (t : Turn) (before : State) (i : Instr) (s : State) (hs : s.memOk) : (afterTurn t before i s).memOk := by
  cases t with
  | thread k => exact memOk_ite (afterThread_wf _ _ _ _ _ hs) hs
  | _ => exact hs

theorem finishTurn_wf (before after : State) (hafter : after.memOk) :
    (finishTurn before after).memOk := hostAnswer_wf _ (settleHalts_wf _ (settleStaging_wf _ (wakeWatchers_wf _ _ hafter)))

/-- The state that a plan of a turn goes on from has memory in the canonical form. -/
def PlanOk : Plan → Prop
  | .done s => s.memOk
  | .run _ s => s.memOk
  | .absent _ => True

theorem planOk_ite {c : Prop} [Decidable c] {a b : Plan} (ha : PlanOk a) (hb : PlanOk b) : PlanOk (if c then a else b) := by
  split
  · exact ha
  · exact hb

theorem planFetch_ok (s : State) (hs : s.memOk) : PlanOk (planFetch s) := by
  have h := nextWords_keeps s hs
  unfold planFetch
  cases hr : nextWords s with
  | error e t =>
    rw [hr] at h
    cases e with
    | trap x => exact takeTrap_wf _ _ _ h
    | wait => exact hs
  | ok ws t =>
    rw [hr] at h
    cases ws with
    | none => exact h
    | some ws =>
      dsimp only
      split
      · split
        · next hd => exact ready_wf _ _ h _ hd
        · exact hs
      · exact h

theorem planThread_ok (s : State) (hs : s.memOk) : PlanOk (planThread s) := by
  have run (i : Instr) : PlanOk (.run i s) := hs
  have done : PlanOk (.done s) := hs
  unfold planThread
  split
  · exact run _
  · exact planOk_ite (run _) (planOk_ite (run _) (planOk_ite (run _) (planOk_ite (run _) (planOk_ite (run _) (planOk_ite
      (run _)
      (planOk_ite done (planOk_ite (planOk_ite (run _) done) (planFetch_ok _ (withFirstAcq_wf _ hs)))))))))

theorem planRoustabout_ok (storer : Bool) (s : State) (hs : s.memOk) : PlanOk (planRoustabout storer s) := by
  have w := withFirstAcq_wf s hs
  have done : PlanOk (.done s) := hs
  unfold planRoustabout
  split
  · exact done
  · refine planOk_ite done (planOk_ite (runLoader_wf _ w) (planOk_ite (raiseFor_wf _ _ _ w) ?_))
    split
    · split
      · next h => exact xReady_wf _ _ w _ h
      · exact w
    · exact raiseFor_wf _ _ _ w

theorem planCalliope_ok (f : Nat) (s : State) (hs : s.memOk) : PlanOk (planCalliope f s) := by
  unfold planCalliope
  split
  · exact hs
  · split
    · exact hs
    · exact hs

theorem planTurn_ok (t : Turn) (s : State) (hs : s.memOk) : PlanOk (planTurn t s) := by
  cases t with
  | thread k => exact planOk_ite (planThread_ok _ hs) trivial
  | roustabout k st => exact planOk_ite (planRoustabout_ok _ _ hs) trivial
  | calliope f => exact planOk_ite (planCalliope_ok _ _ hs) trivial
  | event i => exact planOk_ite hs hs
  | dropFetched k l => exact memOk_ite (dropFetchedLine_wf _ _ _ hs) hs
  | fetchAhead k l => exact memOk_ite (fetchAhead_wf _ _ _ hs) hs
  | earlyLoad k pc => exact memOk_ite (earlyLoad_wf _ _ _ hs) hs
  | tileGranule k i =>
    unfold planTurn
    dsimp only
    split
    · exact memOk_ite (tileGranule_wf _ _ _ hs) hs
    · exact hs
  | evictSide l => exact evictSide_wf _ _ hs
  | lineError l => exact lineError_wf _ _ hs
  | engineError n => exact engineError_wf _ _ hs
  | clusterClock c => exact clusterTick_wf _ _ hs
  | frontEndClock f => exact planOk_ite hs trivial

/-! ### The step -/

theorem stepTurn_wf (t : Turn) (s : State) (hs : s.memOk) : NextOk (stepTurn t s) := by
  have hp := planTurn_ok t s hs
  unfold stepTurn
  generalize planTurn t s = p at hp ⊢
  cases p with
  | done u => exact nextOk_next (finishTurn_wf _ _ hp)
  | absent f => intro u h; cases h
  | run i u =>
    have hx := exec_wf i u hp
    dsimp only
    generalize exec i u = o at hx ⊢
    cases o with
    | next v => exact nextOk_next (finishTurn_wf _ _ (afterTurn_wf _ _ _ _ (hx v rfl)))
    | fault f => intro v h; cases h
    | refused r => intro v h; cases h

theorem step_wf (s : State) (hs : s.memOk) : NextOk (step s) :=
  stepTurn_wf _ _ (nextTurn_wf _ hs)

/-- Settles O7, by the walk above: a turn plans from a state in the form, runs a row, and its aftermath keeps the form. -/
theorem everyStepKeepsMemoryCanonical : Obligations.EveryStepKeepsMemoryCanonical :=
  fun s t hs ht => step_wf s hs t ht

end Sys2Proof.Machine

/-! # The fences order accesses -/

namespace Sys2Proof.Machine

/-! ### Waits of a fence (R121, R122) -/

@[simp] theorem run_syncAt (sc : Scope) (s : State) : syncAt sc s = .ok () (acquire (release s s.core sc) s.core sc) := rfl

@[simp] theorem run_tileRead (s : State) : tileRead s = .ok () (finishTile s s.slot) := rfl

theorem run_then {m : M Unit} {s d : State} (h : m s = .ok () d) (k : M Unit) : (m >>= fun _ => k) s = k d := run_bind_ok h _

theorem run_modify_then {β : Type} {f : State → State} {s t : State} (h : f s = t) (k : PUnit → M β) :
    ((modify f : M PUnit) >>= k) s = k ⟨⟩ t := by
  rw [run_bind_ok (run_modify f s), h]

/-- A run of two meanings that completes is a run of the first and then of the second. -/
theorem run_bind_eq_ok {α β : Type} {m : M α} {f : α → M β} {s t : State} {b : β} (h : (m >>= f) s = .ok b t) :
    ∃ a u, m s = .ok a u ∧ f a u = .ok b t := by
  rw [run_bind] at h
  cases hm : m s with
  | ok a u => rw [hm] at h; exact ⟨a, u, rfl, h⟩
  | error e u => rw [hm] at h; cases h

/-- A party that a drain did not hold back has no access left to wait for. -/
theorem waiting_of_drained {p : Party} {s t : State} (h : drainParty p s = .ok () t) : waitingOf t t.core p = [] := by
  obtain ⟨_, u, _, h⟩ := run_bind_eq_ok h
  obtain ⟨v, u', hget, h⟩ := run_bind_eq_ok h
  cases hget
  split at h
  · next hempty => cases h; exact List.isEmpty_iff.mp hempty
  · cases h

theorem commitEntry_ok {eff : M Unit} {s t : State} (h : eff s = .ok () t) : commitEntry eff s = passEntry t := by
  rw [commitEntry, h]

/-! ### Fences that hold the control thread -/

/-- What a fence leaves at its scope: it has released and then acquired. -/
theorem run_sync_advance (sc : Scope) (md : Mods) (d : State) :
    (do syncAt sc; advance md : M Unit) d =
      .ok () ((acquire (release d d.core sc) d.core sc).modCur (fun c => setPc c (nextPc c md))) := by
  rw [run_then (run_syncAt sc d), run_advance]

theorem exec_fenceVs {x : FenceArgs} {s d : State} (hpass : passes x.m s = true)
    (hwaits : (do waitVector; drainParty .vector; tileRead : M Unit) s = .ok () d) :
    exec (.fenceVs x) s = .next ((acquire (release d d.core (scopeGet x.scope .sys)) d.core (scopeGet x.scope .sys)).modCur
      (fun c => setPc c (nextPc c x.m))) := by
  have run := run_then hwaits (do syncAt (scopeGet x.scope .sys); advance x.m)
  simp only [bind_assoc] at run
  show fenceWait x false s = _
  rw [fenceWait, scalarStep_passes hpass]
  exact runThread_ok (run.trans (run_sync_advance _ _ _))

theorem exec_fenceAll {x : FenceArgs} {s d : State} (hpass : passes x.m s = true)
    (hwaits : (do waitVector; drainParty .vector; tileRead; drainParty .control : M Unit) s = .ok () d) :
    exec (.fenceAll x) s = .next ((acquire (release d d.core (scopeGet x.scope .sys)) d.core (scopeGet x.scope .sys)).modCur
      (fun c => setPc c (nextPc c x.m))) := by
  have run := run_then hwaits (do syncAt (scopeGet x.scope .sys); advance x.m)
  simp only [bind_assoc] at run
  show fenceWait x true s = _
  rw [fenceWait, scalarStep_passes hpass]
  exact runThread_ok (run.trans (run_sync_advance _ _ _))

/-! ### Fences that are entries of the vector queue -/

/-- An entry of a fence commits once its waits have completed. -/
theorem fenceEntry_waited {i : Instr} {x : FenceArgs} {mark : State → State} {older : M Unit} {s d : State}
    (hparty : s.party = .vector)
    (hwaits : (if 0 < s.cur.vlive then (do drainParty .vector; older : M Unit) else older) s = .ok () d) :
    fenceEntry i x mark older s =
      .next (passEntry (acquire (release d d.core (scopeGet x.scope .sys)) d.core (scopeGet x.scope .sys))) := by
  rw [fenceEntry, hparty]
  refine congrArg _ (commitEntry_ok ?_)
  rw [run_bind_ok (run_getCur s)]
  by_cases hlive : 0 < s.cur.vlive
  · rw [if_pos hlive] at hwaits ⊢
    have run := run_then hwaits (syncAt (scopeGet x.scope .sys))
    simp only [bind_assoc] at run
    exact run.trans (run_syncAt _ _)
  · rw [if_neg hlive] at hwaits ⊢
    exact (run_then hwaits _).trans (run_syncAt _ _)

/-- The waits of FENCE.VV perform the vector party's accesses once. -/
theorem drain_twice {s d : State} (h : (do drainParty .vector; tileRead : M Unit) s = .ok () d) :
    (do drainParty .vector; drainParty .vector; tileRead : M Unit) s = .ok () d := by
  obtain ⟨_, u, hdrain, h⟩ := run_bind_eq_ok h
  rw [run_then hdrain, run_then (drainParty_ok (waiting_of_drained hdrain)), h]

theorem exec_fenceVv {x : FenceArgs} {s d : State} (hparty : s.party = .vector)
    (hwaits : (do drainParty .vector; tileRead : M Unit) s = .ok () d) :
    exec (.fenceVv x) s =
      .next (passEntry (acquire (release d d.core (scopeGet x.scope .sys)) d.core (scopeGet x.scope .sys))) := by
  refine fenceEntry_waited hparty ?_
  split
  · exact drain_twice hwaits
  · exact hwaits

/-! ### TFENCE, CWB, IINV and IFENCE -/

/-- An operand that is read where a kind names it, and 0 elsewhere. -/
theorem run_readWhere {p : Bool} {n : GReg} {s : State} (h : p = true → gPoison s.cur n = false) (k : Word → M Unit) :
    (if p = true then consumeG n >>= k else pure 0 >>= k) s = k (if p = true then gVal s.cur n else 0) s := by
  cases p with
  | true => exact run_bind_ok (consumeG_ok (h rfl)) k
  | false => rfl

/-- The drop of a TFENCE, as its step makes it, is the one that names no list of what was dropped. -/
theorem translationsDropped_eq (s : State) (sc : Scope) (kind : TfKind) (a b : Word) :
    ((s.cores.map (·.1)).map (fun k => (k, droppedAt s sc kind a b k))).foldl
      (fun s o => if o.2.isEmpty then s else settleDropped s o.1 o.2) (tlbDrop s s.core sc kind a b) =
    translationsDropped s sc kind a b := by
  rw [translationsDropped, List.foldl_map]

theorem exec_tfence {x : TfenceArgs} {s r : State} (hpass : passes x.m s = true) (hspec : s.cur.spec = false)
    (ha : (tfReads x.kind).1 = true → gPoison s.cur x.a = false)
    (hb : (tfReads x.kind).2 = true → gPoison s.cur x.b = false) (hrel : releaseOwn .pkg s = .ok () r) :
    let sc := scopeGet x.scope .pkg
    let u := translationsDropped r sc x.kind (if (tfReads x.kind).1 then gVal s.cur x.a else 0)
      (if (tfReads x.kind).2 then gVal s.cur x.b else 0)
    u.cores.any (fun p => tfenceCovers u.core sc p.1 && coreStalls u p.1) = false →
    exec (.tfence x) s = .next (u.modCur (fun c => setPc c (nextPc c x.m))) := by
  intro sc u hidle
  show execTfence x s = _
  rw [execTfence, scalarStep_passes hpass]
  refine runThread_ok ?_
  rw [run_bind_ok (parkIfSpec_ok hspec), run_readWhere ha]
  refine (run_readWhere hb _).trans ?_
  refine (run_bind_ok hrel _).trans ?_
  refine (run_modify_then (translationsDropped_eq r sc x.kind _ _) _).trans ?_
  refine (run_bind_ok (run_get u) _).trans ?_
  exact (congrFun (if_neg (by rw [hidle]; exact Bool.false_ne_true)) u).trans (run_advance x.m u)

theorem exec_cwb {x : CwbArgs} {s t u : State} {pa : Nat} (hpass : passes x.m s = true)
    (hcheck : lineCheck x false s = .ok pa t)
    (hown : ownFirst (alignDown pa 64) 64 t = .ok () u) :
    exec (.cwb x) s = .next ((propagate u u.core (lineOf pa) (scopeGet x.scope .die)).modCur
      (fun c => setPc c (nextPc c x.m))) := by
  show execCwb x s = _
  rw [execCwb, scalarStep_passes hpass]
  refine runThread_ok ?_
  rw [run_bind_ok hcheck, run_bind_ok hown, run_bind_ok (run_modify _ _), run_advance]

theorem exec_iinv {x : CwbArgs} {s t : State} {pa : Nat} (hpass : passes x.m s = true) (hspec : s.cur.spec = false)
    (hcheck : lineCheck x true s = .ok pa t) :
    exec (.iinv x) s = .next ((dropCode t (coresWithin t.core (scopeGet x.scope .core)) (lineOf pa)).modCur
      (fun c => setPc c (nextPc c x.m))) := by
  show execIinv x s = _
  rw [execIinv, scalarStep_passes hpass]
  refine runThread_ok ?_
  rw [run_bind_ok (parkIfSpec_ok hspec), run_bind_ok hcheck, run_bind_ok (run_modify _ _), run_advance]

theorem exec_ifence {x : MArgs} {s : State} (hpass : passes x.m s = true) :
    let u := if (s.coreAt s.core).ahead.isEmpty then s else s.modCore s.core (fun c => { c with ahead := [] })
    exec (.ifence x) s = .next (u.modCur (fun c => setPc c (nextPc c x.m))) := by
  show execIfence x s = _
  rw [execIfence, scalarStep_passes hpass]
  exact runThread_ok rfl

/-- Settles O21, one instruction at a time: each runs its waits and then one change of the state. -/
theorem fencesOrder : Obligations.FencesOrder :=
  ⟨fun _ _ _ hpass => ⟨exec_fenceVs hpass, exec_fenceAll hpass⟩,
    fun _ _ _ hparty => ⟨fenceEntry_waited hparty, exec_fenceVv hparty⟩,
    fun _ _ _ hpass hspec ha hb hrel => exec_tfence hpass hspec ha hb hrel,
    fun _ _ _ _ _ hpass hcheck hown => exec_cwb hpass hcheck hown,
    fun _ _ _ _ hpass hspec hcheck => exec_iinv hpass hspec hcheck,
    fun _ _ hpass => exec_ifence hpass⟩

end Sys2Proof.Machine

/-! # The lengths of the vector registers -/

namespace Sys2Proof.Machine

/-! ### What performed accesses leave of a vector length (R118, R207) -/

/-- What of the vector registers no access changes: vl and the width of an element. -/
def lengthOf (v : Vregs) : BitVec 13 × Nat := (v.vl, v.wlog)

/-- Every context keeps its vector length, and every core its slot. -/
structure KeepsLengths (s t : State) : Prop where
  lengths : ∀ slot, lengthOf (t.ctxAt slot).vr = lengthOf (s.ctxAt slot).vr
  slots : ∀ k, (t.coreAt k).slot = (s.coreAt k).slot

theorem lengthOf_setElemBits (v : Vregs) (n : VReg) (w e val : Nat) : lengthOf (setElemBits v n w e val) = lengthOf v := by
  unfold setElemBits
  dsimp only
  split <;> rfl

theorem MemStep.keepsLengths {s t : State} (h : MemStep s t) : KeepsLengths s t :=
  ⟨fun slot => view_of_unwatched (fun c => lengthOf c.vr) (h.ctxs slot), fun k =>
    show (uncached (t.coreAt k)).slot = (uncached (s.coreAt k)).slot from congrArg _ (h.cores k)⟩

namespace KeepsLengths
variable {b s t : State}

theorem refl (s : State) : KeepsLengths s s := ⟨fun _ => rfl, fun _ => rfl⟩

theorem trans (h : KeepsLengths b s) (g : KeepsLengths s t) : KeepsLengths b t :=
  ⟨fun slot => (g.lengths slot).trans (h.lengths slot), fun k => (g.slots k).trans (h.slots k)⟩

theorem modCur (w : KeepsLengths b s) {f : Ctx → Ctx} (hf : ∀ c, lengthOf (f c).vr = lengthOf c.vr) :
    KeepsLengths b (s.modCur f) := by
  refine w.trans ⟨fun slot => ?_, fun _ => rfl⟩
  by_cases h : slot = s.slot
  · rw [h, State.modCur, State.ctxAt_modCtx_self, hf]
  · rw [State.modCur, State.ctxAt_modCtx_ne s h]

theorem modPq (w : KeepsLengths b s) (k : Nat) (p : Party) (f : PartyQ → PartyQ) : KeepsLengths b (modPq s k p f) := by
  refine w.trans ⟨fun _ => rfl, fun j => ?_⟩
  unfold Machine.modPq
  by_cases h : j = k
  · rw [h, State.coreAt_modCore_self]
  · rw [State.coreAt_modCore_ne s h]

theorem loadElems (w : KeepsLengths b s) (k : Nat) (st : List Access) (sc : Scope) (hint : Nat) (xs : List ElemLoad) :
    KeepsLengths b (loadElems s k st sc hint xs) := by
  refine foldl_keeps (KeepsLengths b) _ (fun s x w => ?_) _ _ (w.trans (freshLines_memStep (.refl s) _ _).keepsLengths)
  exact (w.trans (readElem_memStep (.refl s) k st sc hint x).keepsLengths).modCur (fun c => lengthOf_setElemBits ..)

theorem performAmo (w : KeepsLengths b s) (k : Nat) (a : Access) (kind : AmoKind) (ty : Ty) (d : GReg) (x c : Word) :
    KeepsLengths b (performAmo s k a kind ty d x c) := by
  have hstep := w.trans (amoStep_memStep (.refl s) k a (fun bs => amoNew kind ty (loadValue ty bs) x c)).keepsLengths
  exact (hstep.modCur (fun c => congrArg lengthOf (writeG_vr c _ _))).trans (acquire_memStep (.refl _) _ _).keepsLengths

theorem modRoust (w : KeepsLengths b s) (storer : Bool) (f : Roustabout → Roustabout) :
    KeepsLengths b (s.modCur (fun c => modRoust c storer f)) :=
  w.modCur (fun c => congrArg lengthOf (modRoust_vr c _ _))

theorem acquire_if (w : KeepsLengths b s) (aq : Bool) (k : Nat) : KeepsLengths b (if aq then acquire s k .sys else s) := by
  split
  · exact w.trans (acquire_memStep (.refl _) _ _).keepsLengths
  · exact w

theorem performAmoX (w : KeepsLengths b s) (k : Nat) (a : Access) (op : RvAmoOp) (aq : Bool) (d : XReg) (v : Word) :
    KeepsLengths b (performAmoX s k a op aq d v) := by
  unfold Machine.performAmoX
  dsimp only
  split
  · exact ((w.trans (ctxLoad_memStep (.refl s) _ _ _ _ _).keepsLengths).modRoust _ _).acquire_if _ _
  · refine (modRoust ?_ _ _).acquire_if _ _
    split
    · exact w.trans (ctxStore_memStep (.refl s) _ _ _ _ _).keepsLengths
    · exact w
  · exact ((w.trans (amoStep_memStep (.refl s) k a _).keepsLengths).modRoust _ _).trans
      (acquire_memStep (.refl _) _ _).keepsLengths

theorem performAccess (w : KeepsLengths b s) (k : Nat) (st : List Access) (a : Access) :
    KeepsLengths b (performAccess s k st a) := by
  have hcode : KeepsLengths b { s with code := a.code } := w.trans ⟨fun _ => rfl, fun _ => rfl⟩
  unfold Machine.performAccess
  dsimp only
  split
  · exact hcode.trans (ctxStore_memStep (.refl _) _ _ _ _ _).keepsLengths
  · exact hcode.trans (storePiece_memStep (.refl _) _ _ _ _ _ _ _).keepsLengths
  · exact hcode.trans (storeElems_memStep (.refl _) _ _ _ _).keepsLengths
  · exact (hcode.trans (ctxLoad_memStep (.refl _) _ _ _ _ _).keepsLengths).modCur
      (fun c => congrArg lengthOf (writeG_vr c _ _))
  · exact (hcode.trans (loadPiece_memStep (.refl _) _ _ _ _ _ _).keepsLengths).modCur (fun _ => rfl)
  · exact (hcode.trans (ctxLoad_memStep (.refl _) _ _ _ _ _).keepsLengths).modRoust _ _
  · exact hcode.loadElems _ _ _ _ _
  · exact hcode.performAmo _ _ _ _ _ _ _
  · exact hcode.performAmoX _ _ _ _ _ _

theorem retire (k n : Nat) (w : KeepsLengths b s) : KeepsLengths b (retire k n s) := by
  induction n generalizing s with
  | zero => exact w
  | succ n ih =>
    unfold Machine.retire
    dsimp only
    split
    · exact w
    · have hacting : KeepsLengths b { s with core := k } := ⟨w.lengths, w.slots⟩
      have hpop := hacting.modCur (f := fun c => popEntry { c with vlive := c.vlive - 1 }) (fun _ => rfl)
      refine ih (modPq ?_ _ _ _)
      exact ⟨hpop.lengths, hpop.slots⟩

theorem drainSome (w : KeepsLengths b s) (k : Nat) (p : Party) (pick : Access → Bool) :
    KeepsLengths b (drainSome s k p pick) := by
  have hacting : KeepsLengths b { s with core := k, party := p } := ⟨w.lengths, w.slots⟩
  have hgo (go : List Access) (q : PartyQ) : KeepsLengths b (go.foldl (fun t a => Machine.performAccess t k [] a)
      (Machine.modPq { s with core := k, party := p } k p (fun _ => q))) :=
    foldl_keeps (KeepsLengths b) _ (fun _ a w => w.performAccess k [] a) _ _ (hacting.modPq k p _)
  unfold Machine.drainSome
  dsimp only
  split
  · exact w
  · split
    · exact (retire k 64 (hgo _ _)).trans ⟨fun _ => rfl, fun _ => rfl⟩
    · exact (hgo _ _).trans ⟨fun _ => rfl, fun _ => rfl⟩

/-- The acting context keeps its length where the acting core stays. -/
theorem cur (h : KeepsLengths s t) (hcore : t.core = s.core) : lengthOf t.cur.vr = lengthOf s.cur.vr := by
  rw [State.cur, State.cur, State.slot, State.slot, h.slots, hcore]
  exact h.lengths _

end KeepsLengths

theorem drainSome_core (s : State) (k : Nat) (p : Party) (pick : Access → Bool) : (drainSome s k p pick).core = s.core := by
  unfold drainSome
  dsimp only
  split <;> rfl

/-- Loads that have performed before a change of length leave the length itself (R118). -/
theorem lengthOf_settled {s r : State} (h : settleLoads s = .ok () r) : lengthOf r.cur.vr = lengthOf s.cur.vr := by
  obtain ⟨_, u, hdrain, h⟩ := run_bind_eq_ok h
  obtain ⟨v, u', hget, h⟩ := run_bind_eq_ok h
  cases hdrain
  cases hget
  have hr : drainFor s s.core .vector (fun a => !isStore a) = r := by
    split at h
    · cases h
    · cases h; rfl
  rw [← hr, drainFor]
  split
  · rfl
  · exact ((KeepsLengths.refl s).drainSome _ _ _).cur (drainSome_core _ _ _ _)

/-- Where only stores wait, nothing need perform before a change of length. -/
theorem settleLoads_stores {s : State} (h : (waitingOf s s.core .vector).all isStore = true) : settleLoads s = .ok () s := by
  have hany : (waitingOf s s.core .vector).any (fun a => !isStore a) = false :=
    List.any_eq_false.mpr (fun a ha => by rw [List.all_eq_true.mp h a ha]; exact Bool.false_ne_true)
  refine (run_modify_then (drainFor_none hany) _).trans ?_
  rw [run_bind_ok (run_get s), hany]
  rfl

/-! ### SETVL (R187) -/

/-- What SETVL writes of a length: vl, the width and its register. -/
def lengthSet (x : SetvlArgs) (vl : Nat) (c : Ctx) : Ctx :=
  writeG { c with vr := { c.vr with vl := BitVec.ofNat 13 vl, wlog := Nat.log2 x.ty.width } } x.d (BitVec.ofNat 64 vl)

/-- What a SETVL asks for. -/
def lengthAsked (x : SetvlArgs) (s : State) : Nat := min 8191 ((vqHead s.cur).capG.toNat + x.n.toNat)

theorem exec_setvl {x : SetvlArgs} {s t : State} (hparty : s.party = .vector) (heff : setvlEff x s = .ok () t) :
    exec (.setvl x) s = .next (passEntry t) :=
  vectorStep_vector hparty _ _ _ _ heff

@[simp] theorem run_capturedG (s : State) : capturedG s = .ok (vqHead s.cur).capG s := rfl

theorem setvlEff_short {x : SetvlArgs} {s : State} (hactive : active x.m s.cur 0 = true) (hlong : s.cur.vr.long = false) :
    setvlEff x s = .ok () (s.modCur (lengthSet x (min (lengthAsked x s) (256 / x.ty.width)))) := by
  refine (run_bind_ok (run_getCur s) _).trans ?_
  rw [if_neg (by rw [hactive]; exact Bool.false_ne_true)]
  refine (run_bind_ok (run_capturedG s) _).trans ((run_bind_ok (run_get s) _).trans ?_)
  rw [if_pos (by rw [hlong]; rfl)]
  rfl

theorem setvlEff_none {x : SetvlArgs} {s t u : State} (hactive : active x.m s.cur 0 = true) (hlong : s.cur.vr.long = true)
    (hreq : lengthAsked x s = 0) (hsettle : if s.cur.vr.lanes ≠ 0 then settleLoads s = .ok () t else t = s)
    (htake : takeLanes 0 t = .ok () u) : setvlEff x s = .ok () (u.modCur (lengthSet x 0)) := by
  refine (run_bind_ok (run_getCur s) _).trans ?_
  rw [if_neg (by rw [hactive]; exact Bool.false_ne_true)]
  refine (run_bind_ok (run_capturedG s) _).trans ((run_bind_ok (run_get s) _).trans ?_)
  unfold lengthAsked at hreq
  rw [if_neg (by rw [hlong]; exact Bool.false_ne_true), if_pos hreq]
  split
  · next hlanes =>
    rw [if_pos hlanes] at hsettle
    exact (run_bind_ok hsettle _).trans (run_bind_ok htake _)
  · next hlanes =>
    rw [if_neg hlanes] at hsettle
    exact hsettle ▸ run_bind_ok htake _

theorem setvlEff_granted {x : SetvlArgs} {s t u v : State} {g : Nat} (hactive : active x.m s.cur 0 = true)
    (hlong : s.cur.vr.long = true) (hreq : lengthAsked x s ≠ 0) (hmax : 8 ≤ effLimit s 1 s.cur.h.region)
    (hsettle : if lanesWanted (lengthAsked x s) x.ty.width (laneCap s s.cur) ≠ s.cur.vr.lanes then settleLoads s = .ok () t
      else t = s)
    (hgrant : grantSetvl (lanesWanted (lengthAsked x s) x.ty.width (laneCap s s.cur)) t = .ok g u)
    (htake : takeLanes g u = .ok () v) :
    setvlEff x s = .ok () (v.modCur (lengthSet x (min (lengthAsked x s) (64 * g / x.ty.width)))) := by
  refine (run_bind_ok (run_getCur s) _).trans ?_
  rw [if_neg (by rw [hactive]; exact Bool.false_ne_true)]
  refine (run_bind_ok (run_capturedG s) _).trans ((run_bind_ok (run_get s) _).trans ?_)
  unfold lengthAsked at hreq hsettle hgrant
  rw [if_neg (by rw [hlong]; exact Bool.false_ne_true), if_neg hreq]
  dsimp only
  rw [if_neg (Nat.not_lt.mpr hmax)]
  split
  · next hlanes =>
    rw [if_pos hlanes] at hsettle
    exact (run_bind_ok hsettle _).trans ((run_bind_ok hgrant _).trans (run_bind_ok htake _))
  · next hlanes =>
    rw [if_neg hlanes] at hsettle
    subst hsettle
    exact (run_bind_ok hgrant _).trans (run_bind_ok htake _)

/-! ### VMODE (R186) -/

/-- Registers of long mode before a length is set. -/
def toLong (c : Ctx) : Ctx :=
  { c with vr := { c.vr with
    v := Vector.replicate 32 0, p := Vector.replicate 16 0, vp := Vector.replicate 32 0
    vl := 0, lanes := 0, held := 0, long := true, lost := 0 } }

/-- Registers cut to the length of short mode. -/
def toShort (c : Ctx) : Ctx :=
  let v := if 256 < lbits c.vr then shorten c.vr 256 else c.vr
  { c with vr := { v with
    vl := BitVec.ofNat 13 (min c.vr.vl.toNat (256 / 2 ^ c.vr.wlog)), lanes := 0, held := 0, long := false } }

/-- A state whose acting context differs from another's in its vector registers alone, and there not in its length; memory and
the cores stay. -/
structure RegistersOnly (s t : State) : Prop where
  core : t.core = s.core
  cores : t.cores = s.cores
  mem : t.mem = s.mem
  rest : { t.cur with vr := s.cur.vr } = s.cur
  length : lengthOf t.cur.vr = lengthOf s.cur.vr

theorem RegistersOnly.trans {s t u : State} (h : RegistersOnly s t) (g : RegistersOnly t u) : RegistersOnly s u :=
  ⟨g.core.trans h.core, g.cores.trans h.cores, g.mem.trans h.mem,
    (congrArg (fun c : Ctx => { c with vr := s.cur.vr }) g.rest).trans h.rest, g.length.trans h.length⟩

/-- What of a context is not its vector registers stays. -/
theorem RegistersOnly.view {s t : State} (h : RegistersOnly s t) {α : Type} (view : Ctx → α)
    (hview : ∀ c v, view { c with vr := v } = view c := by exact fun _ _ => rfl) : view t.cur = view s.cur := by
  rw [← hview t.cur s.cur.vr, h.rest]

theorem RegistersOnly.modCtx {s : State} {n : Nat} (hn : s.slot = n) {f : Ctx → Ctx}
    (hrest : { f s.cur with vr := s.cur.vr } = s.cur) (hlength : lengthOf (f s.cur).vr = lengthOf s.cur.vr) :
    RegistersOnly s (s.modCtx n f) := by
  subst hn
  exact ⟨rfl, rfl, rfl, (congrArg (fun c : Ctx => { c with vr := s.cur.vr }) (State.cur_modCur s f)).trans hrest,
    (congrArg (fun c : Ctx => lengthOf c.vr) (State.cur_modCur s f)).trans hlength⟩

theorem budgetMod_registersOnly (s : State) (r : Nat) (b : Fin 6) (f : Nat → Nat) : RegistersOnly s (budgetMod s r b f) := by
  unfold budgetMod
  refine foldl_keeps (RegistersOnly s) _ (fun u q w => w.trans ?_) _ _ ⟨rfl, rfl, rfl, rfl, rfl⟩
  exact ⟨rfl, rfl, rfl, rfl, rfl⟩

theorem budgetMod_slot (s : State) (r : Nat) (b : Fin 6) (f : Nat → Nat) : (budgetMod s r b f).slot = s.slot := by
  have h := budgetMod_registersOnly s r b f
  rw [State.slot, State.coreAt, h.cores, h.core]
  rfl

/-- Every lane held returned (R186). -/
theorem laneGive_registersOnly (s : State) : RegistersOnly s (laneGive s s.slot) := by
  unfold laneGive
  dsimp only
  split
  · exact ⟨rfl, rfl, rfl, rfl, rfl⟩
  · have hgive := budgetMod_registersOnly s (s.ctxAt s.slot).h.region 1 (· - (s.ctxAt s.slot).vr.held)
    have hslot := budgetMod_slot s (s.ctxAt s.slot).h.region 1 (· - (s.ctxAt s.slot).vr.held)
    exact hgive.trans (.modCtx hslot rfl rfl)

theorem run_revealTo (n : Nat) (s : State) : ∃ t, revealTo n s = .ok () t ∧ RegistersOnly s t := by
  unfold revealTo
  rw [run_bind_ok (run_get s)]
  split
  · exact ⟨s, rfl, rfl, rfl, rfl, rfl, rfl⟩
  · refine ⟨_, rfl, .trans (t := { s with fresh := s.fresh + 32 * 72 }) ⟨rfl, rfl, rfl, rfl, rfl⟩
      (.modCtx rfl rfl ?_)⟩
    unfold reveal
    dsimp only
    split <;> rfl

theorem vmodeEff_long {x : VmodeArgs} {s r : State} (hactive : active x.m s.cur 0 = true) (hx : x.long = true)
    (hlong : s.cur.vr.long = false) (hsettle : settleLoads s = .ok () r) :
    vmodeEff x s = .ok () (r.modCur toLong) := by
  refine (run_bind_ok (run_getCur s) _).trans ?_
  rw [if_neg (by rw [hactive, hx, hlong]; exact Bool.false_ne_true)]
  refine (run_bind_ok hsettle _).trans ?_
  rw [hx]
  rfl

theorem vmodeEff_short {x : VmodeArgs} {s r : State} (hactive : active x.m s.cur 0 = true) (hx : x.long = false)
    (hlong : s.cur.vr.long = true) (hsettle : settleLoads s = .ok () r) :
    ∃ t, RegistersOnly r t ∧ vmodeEff x s = .ok () (t.modCur toShort) := by
  obtain ⟨t, hreveal, ht⟩ := run_revealTo 256 (laneGive r r.slot)
  refine ⟨t, (laneGive_registersOnly r).trans ht, ?_⟩
  refine (run_bind_ok (run_getCur s) _).trans ?_
  rw [if_neg (by rw [hactive, hx, hlong]; exact Bool.false_ne_true)]
  refine (run_bind_ok hsettle _).trans ?_
  rw [if_neg (by rw [hx]; exact Bool.false_ne_true)]
  refine (run_bind_ok (run_modify _ r) _).trans ?_
  exact (run_bind_ok hreveal _).trans (run_modifyCur toShort t)

/-- An entry that nothing executed awaits leaves the queue as it passes (R116). -/
theorem passEntry_vqn {s : State} (hlive : s.cur.vlive = 0) (hwaiting : waitingOf s s.core .vector = []) :
    (passEntry s).cur.vqn = s.cur.vqn - 1 := by
  rw [passEntry, hlive, hwaiting]
  exact congrArg Ctx.vqn (State.cur_modCur s popEntry)

theorem toShort_vl (c : Ctx) : (toShort c).vr.vl.toNat = min c.vr.vl.toNat (256 / 2 ^ c.vr.wlog) :=
  Nat.mod_eq_of_lt (Nat.lt_of_le_of_lt (Nat.min_le_left _ _) c.vr.vl.isLt)

/-- Settles O39, SETVL by the mode and the grant, VMODE by what the registers of the mode left become. -/
theorem vectorLengths : Obligations.VectorLengths := by
  refine ⟨fun x s hparty hactive => ⟨fun hlong => ?short, fun t u hlong hreq hsettle htake => ?none,
    fun g t u v hlong hreq hmax hsettle hgrant htake => ?granted⟩, ?toLong, ?toShort, fun s => settleLoads_stores⟩
  case short => exact exec_setvl hparty (setvlEff_short hactive hlong)
  case none => exact exec_setvl hparty (setvlEff_none hactive hlong hreq hsettle htake)
  case granted => exact exec_setvl hparty (setvlEff_granted hactive hlong hreq hmax hsettle hgrant htake)
  case toLong =>
    intro x s r hparty hactive hx hlong hsettle
    refine ⟨_, vectorStep_vector hparty _ _ _ _ (vmodeEff_long hactive hx hlong hsettle), ?_⟩
    obtain ⟨-, hr, hvr, hmem⟩ := passEntry_keeps (r.modCur toLong)
    have hcur := State.cur_modCur r toLong
    rw [hcur] at hr hvr
    refine ⟨congrArg Vregs.long hvr, congrArg Vregs.vl hvr, congrArg Vregs.lanes hvr, fun n => ⟨?_, ?_⟩, fun n => ?_,
      fun hlive hwaiting => ?_, hmem, hr⟩
    · exact (congrArg (fun v : Vregs => v.v[n]) hvr).trans (Vector.getElem_replicate _)
    · exact (congrArg (fun v : Vregs => v.vp[n]) hvr).trans (Vector.getElem_replicate _)
    · exact (congrArg (fun v : Vregs => v.p[n]) hvr).trans (Vector.getElem_replicate _)
    · exact (passEntry_vqn ((congrArg Ctx.vlive hcur).trans hlive) hwaiting).trans (congrArg (fun c => c.vqn - 1) hcur)
  case toShort =>
    intro x s r hparty hactive hx hlong hsettle
    obtain ⟨t, ht, heff⟩ := vmodeEff_short hactive hx hlong hsettle
    refine ⟨_, vectorStep_vector hparty _ _ _ _ heff, ?_⟩
    obtain ⟨-, hr, hvr, hmem⟩ := passEntry_keeps (t.modCur toShort)
    have hcur := State.cur_modCur t toShort
    rw [hcur] at hr hvr
    refine ⟨congrArg Vregs.long hvr, congrArg Vregs.held hvr, congrArg Vregs.lanes hvr, ?_, fun hlive hwaiting => ?_,
      hmem.trans ht.mem, hr.trans (ht.view Ctx.r)⟩
    · have hlength := ht.length.trans (lengthOf_settled hsettle)
      calc _ = (toShort t.cur).vr.vl.toNat := congrArg (fun v : Vregs => v.vl.toNat) hvr
        _ = min (lengthOf t.cur.vr).1.toNat (256 / 2 ^ (lengthOf t.cur.vr).2) := toShort_vl t.cur
        _ = _ := congrArg (fun l => min l.1.toNat (256 / 2 ^ l.2)) hlength
    · have hnone : waitingOf t t.core .vector = [] := by
        rw [← hwaiting, waitingOf, waitingOf, pqOf, pqOf, State.coreAt, State.coreAt, ht.core, ht.cores]
      have hvlive := (congrArg Ctx.vlive hcur).trans ((ht.view Ctx.vlive).trans hlive)
      calc _ = (t.modCur toShort).cur.vqn - 1 := passEntry_vqn hvlive hnone
        _ = t.cur.vqn - 1 := congrArg (fun c => c.vqn - 1) hcur
        _ = _ := ht.view (fun c => c.vqn - 1)

end Sys2Proof.Machine

/-! # A deque in the destination of a snapshot -/

namespace Sys2Proof.Machine

/-! ### One page copied by a snapshot (R432) -/

theorem foldl_sideFill_of_noSide {s : State} (h : s.side = []) (a : Nat) (l : List Nat) :
    l.foldl (fun s j => if (lookupKey (a + j) s.side).isSome then sideFill s (a + j) 0 else s) s = s := by
  induction l with
  | nil => rfl
  | cons j l ih => rw [List.foldl_cons, h, lookupKey, Option.isSome_none, if_neg Bool.false_ne_true, ih]

theorem spoilLines_nil (s : State) : spoilLines s [] = s := rfl

/-- Of lines that the memory side holds, none poisoned and none in a protected range, a page is copied as it stands. -/
theorem snapOut_plain {s : State} {d i : Nat} (hside : s.side = []) (hpoison : s.poison = [])
    (hdst : protectorIn s ((s.snapAt d).dst.toNat + 65536 * i) 65536 = none)
    (hsrc : protectorIn s ((s.snapAt d).base.toNat + 65536 * i) 65536 = none) :
    snapOut s d i = bulkSet s ((s.snapAt d).dst.toNat + 65536 * i) 65536
      ((bulkRead s ((s.snapAt d).base.toNat + 65536 * i) 65536).map
        (fun c => ((s.snapAt d).dst.toNat + 65536 * i + c.1, c.2))) := by
  unfold snapOut
  extract_lets sn src dst tag t bad
  have ht : t = s := foldl_sideFill_of_noSide hside _ _
  have hbad : bad = [] := by
    have hnone : t.poison = [] := ht ▸ hpoison
    unfold bad
    rw [hnone]
    rfl
  rw [hbad, ht, show protectorIn s dst 65536 = none from hdst, show protectorIn s src 65536 = none from hsrc,
    if_neg (by exact Bool.false_ne_true)]
  exact spoilLines_nil _

theorem snapBefore_first {s : State} {l i : Nat} (h : snapPage s 0 l = some i) :
    snapBefore s l = [1, 2, 3].foldl (fun s d => match snapPage s d l with
      | some i => snapCopy s d i
      | none => s) (snapCopy s 0 i) := by
  rw [snapBefore, show List.range 4 = [0, 1, 2, 3] from rfl, List.foldl_cons, h] <;> rfl

/-! ### The deque -/

/-- A snapshot engine that has cut and has its one page, the first of HBM4E, still to copy; its destination is the scratchpad of
core 0, its bitmap stands at 0x20000 (R430). -/
def snapOverSpad : Snap :=
  { Snap.empty with len := 0x10000, dst := BitVec.ofNat 64 spadBase, map := 0x20000, cut := true }

/-- Core 0 has a deque of four entries at the start of its scratchpad; the records of region 0 stand in the page that the snapshot
has still to copy. -/
def dequeUnderSnap : State :=
  { State.reset with
    mem := memWrite [] 0x20000 [1]
    cores := [(0, { Core.empty with dqcfg := BitVec.ofNat 64 (64 <<< 32) })]
    regions := [(0, { Region.zero with pool := 0x8000, pooln := 2 })]
    snaps := [(0, snapOverSpad)] }

/-- The state once the entry of record 0 with argument 5 stands, before the record's own state is written. -/
def entryPushed : State :=
  (pkgStoreAll dequeUnderSnap spadBase (wordBytes 8 0 ++ wordBytes 8 5)).modCore 0 (fun c => { c with
    bottom := c.bottom + 1
    dirty := c.dirty ++ [{ place := c.bottom.toNat, lines := dirtySet dequeUnderSnap 0 }] })

theorem dqPush_dequeUnderSnap :
    dqPush dequeUnderSnap 0 0 0 5 = wakeCluster (putRec entryPushed 0x8000 1 true) (clusterOf 0) := rfl

/-- The push writes its entry, then its record's state: before that the snapshot copies the record's page over the entry (R432). -/
theorem dqPop_dqPush_dequeUnderSnap : (dqPop (dqPush dequeUnderSnap 0 0 0 5) 0).2 = (0, 0, 0) := by
  have hpage : snapPage entryPushed 0 (lineOf 0x8000) = some 0 := by decide +kernel
  rw [dqPush_dequeUnderSnap, putRec, snapBefore_first hpage, snapCopy, snapCopyN]
  dsimp only
  rw [snapOut_plain]
  all_goals decide +kernel

theorem dequeUnderSnap_room :
    0 < (dqArea (dequeUnderSnap.coreAt 0).dqcfg).1 ∧ (dqArea (dequeUnderSnap.coreAt 0).dqcfg).2.1 % 16 = 0 ∧
      ∀ p ∈ dequeUnderSnap.regions, p.2.pool.toNat + 256 * p.2.pooln ≤ spadBase ∨ spadBase + 144 * 2 ^ 20 ≤ p.2.pool.toNat := by
  decide +kernel

/-- Refutes O42, by its last clause: the page of the record has still to be copied by a snapshot whose destination is the
scratchpad of the deque, so the entry that DPUSH wrote is gone when DPOP reads it. -/
theorem not_taskInstructions : ¬ Obligations.TaskInstructions := by
  intro h
  obtain ⟨-, -, -, -, -, hlast⟩ := h
  obtain ⟨hcap, halign, hpools⟩ := dequeUnderSnap_room
  obtain ⟨hentry, -⟩ := hlast dequeUnderSnap 0 0 0 5 (by decide) hcap halign (by decide) (by decide) hpools
  rw [dqPop_dqPush_dequeUnderSnap] at hentry
  exact absurd hentry (by decide)

end Sys2Proof.Machine

/-! # Loops and deferral -/

namespace Sys2Proof.Machine

/-! ### The carousel (R292, R293) -/

/-- The level that CLSET sets. -/
def levelSet (x : ClsetArgs) (c : Ctx) (stride : Word) : Level :=
  { count := BitVec.ofNat 32 ((gVal c x.a).toNat + x.cnt.toNat), index := 0, stride := stride + x.str.signExtend 64, reg := x.d }

theorem exec_clset {x : ClsetArgs} {s : State} (hpass : passes x.m s = true) (ha : gPoison s.cur x.a = false)
    (hb : x.lit = none → gPoison s.cur x.b = false) (hcount : (gVal s.cur x.a).toNat + x.cnt.toNat < 2 ^ 32) :
    exec (.clset x) s = changes s (fun c => setPc { c with car := { c.car with
      levels := c.car.levels.set x.level (levelSet x s.cur (x.lit.getD (gVal s.cur x.b))) } } (nextPc c x.m)) := by
  show execClset x s = _
  rw [execClset, scalarStep_passes hpass]
  refine runThread_ok ((run_bind_ok (consumeG_ok ha) _).trans ?_)
  cases hlit : x.lit with
  | some v =>
    refine (run_bind_ok (run_pure v s) _).trans ?_
    dsimp only
    rw [if_neg (Nat.not_le.mpr hcount)]
    exact congrArg (EStateM.Result.ok ()) (State.modCur_modCur s _ _)
  | none =>
    refine (run_bind_ok (consumeG_ok (hb hlit)) _).trans ?_
    dsimp only
    rw [if_neg (Nat.not_le.mpr hcount)]
    exact congrArg (EStateM.Result.ok ()) (State.modCur_modCur s _ _)

theorem exec_clrun {x : ClrunArgs} {s t : State} {body : List (List Word32)} (hpass : passes x.m s = true)
    (hbody : fetchBody (nextPc s.cur x.m) x.n.toNat s = .ok body t) (hbarred : barredAt (nextPc s.cur x.m) body = none)
    (hpoison : poisonedLevel s.cur = none) :
    exec (.clrun x) s = .next (t.modCur (fun c => setPc { c with car := { c.car with
      levels := c.car.levels.map (fun l => { l with index := 0 })
      body := nextPc s.cur x.m, cln := x.n.toNat, pos := 0, buffer := body, runAt := c.h.pc } } (nextPc s.cur x.m))) := by
  refine runThread_ok ((run_bind_ok (run_getCur s) _).trans ?_)
  rw [if_pos (show active x.m s.cur 0 = true from hpass)]
  refine (run_bind_ok hbody _).trans ?_
  rw [hbarred, hpoison]
  rfl

theorem exec_clrun_skips {x : ClrunArgs} {s t : State} {e : Word} (hpass : passes x.m s = false)
    (hskip : skipBody (nextPc s.cur x.m) x.n.toNat s = .ok e t) :
    exec (.clrun x) s = .next (t.modCur (fun c => setPc c e)) := by
  refine runThread_ok ((run_bind_ok (run_getCur s) _).trans ?_)
  rw [if_neg (by rw [show active x.m s.cur 0 = false from hpass]; exact Bool.false_ne_true)]
  exact run_bind_ok hskip _

/-! ### What both sides of the sideshow read and write -/

/-- Registers that read give their elements, in order. -/
theorem run_mapM_readV {t : Ty} {s : State} {ops : List (VReg × List Elem)} (h : ∀ o ∈ ops, reads o.1 t s o.2) :
    (ops.map (·.1)).mapM (fun n => do
      let xs ← readV n t
      pure (n, xs) : VReg → M (VReg × List Elem)) s = .ok ops s := by
  induction ops with
  | nil => rfl
  | cons o ops ih =>
    obtain ⟨ho, hrest⟩ := List.forall_mem_cons.mp h
    rw [List.map_cons, List.mapM_cons]
    have hpair : (do
        let xs ← readV o.1 t
        pure (o.1, xs) : M (VReg × List Elem)) s = .ok o s := run_bind_ok ho _
    exact (run_bind_ok hpair _).trans (run_bind_ok (ih hrest) _)

/-- Elements without poison are consumed and nothing changes (R191). -/
theorem consumeV_ok {md : Mods} {ops : List (VReg × Nat × List Elem)} {s : State}
    (h : ∀ o ∈ ops, ∀ y ∈ o.2.2, y.q = none) : consumeV md ops s = .ok () s := by
  have hfind (e : Nat) : ops.find? (fun o => ((o.2.2[e]?).bind (·.q)).isSome) = none := by
    refine List.find?_eq_none.mpr (fun o ho => ?_)
    cases hy : o.2.2[e]? with
    | none => exact Bool.false_ne_true
    | some y => rw [Option.bind_some, h o ho y (List.mem_of_getElem? hy)]; exact Bool.false_ne_true
  have hbad : (List.range s.cur.vr.vl.toNat).findSome? (fun e =>
      if active md s.cur e then
        (ops.find? (fun o => ((o.2.2[e]?).bind (·.q)).isSome)).map (fun o => (o.1, o.2.1, e))
      else none) = none := by
    refine List.findSome?_eq_none_iff.mpr (fun e _ => ?_)
    rw [hfind]
    exact ite_self _
  refine (run_bind_ok (run_getCur s) _).trans ?_
  rw [hbad]
  rfl

theorem checkPath_ok {p : Nat} {s : State} (h : pathOk s.cur.ss p = true) : checkPath p s = .ok () s := by
  refine (run_bind_ok (run_getCur s) _).trans ?_
  rw [h]
  rfl

theorem run_forM_same {α : Type} {f : α → M Unit} {s : State} {l : List α} (h : ∀ a ∈ l, f a s = .ok () s) :
    l.forM f s = .ok () s := by
  induction l with
  | nil => rfl
  | cons a l ih =>
    obtain ⟨ha, hrest⟩ := List.forall_mem_cons.mp h
    exact (run_bind_ok ha _).trans (ih hrest)

theorem run_forM_modifyCur {α : Type} (g : α → Ctx → Ctx) (l : List α) (s : State) :
    l.forM (fun a => modifyCur (g a)) s = .ok () (l.foldl (fun s a => s.modCur (g a)) s) := by
  induction l generalizing s with
  | nil => rfl
  | cons a l ih => exact (run_bind_ok (run_modifyCur (g a) s) _).trans (ih _)

/-- Writes of vector registers, one after another, are one write of the context. -/
theorem foldl_modCur_vr {α : Type} (g : α → Vregs → Vregs) (l : List α) (s : State) (f : Vregs → Vregs) :
    l.foldl (fun s a => s.modCur (fun c => { c with vr := g a c.vr })) (s.modCur (fun c => { c with vr := f c.vr })) =
      s.modCur (fun c => { c with vr := l.foldl (fun v a => g a v) (f c.vr) }) := by
  induction l generalizing f with
  | nil => rfl
  | cons a l ih => rw [List.foldl_cons, State.modCur_modCur]; exact ih (fun v => g a (f v))

@[simp] theorem run_takeStrips (regs : List VReg) (s : State) : takeStrips regs s = .ok () (stripsTaken regs s) := rfl

/-! ### VDEFER (R304) -/

/-- The slots of a path's ring that the next entries take, one for each active element. -/
def deferSlots (ss : Sideshow) (k p : Nat) (act : List Nat) : List (Nat × Nat) :=
  act.zipIdx.map (fun q =>
    (spadOf k + slotOff ss p ((ss.heads.toList.getD p 0 + ss.counts.toList.getD p 0 + q.2) % ss.slots), 64))

/-- The entries of the active elements stored into those slots (R302). -/
def deferStores (ss : Sideshow) (p : Nat) (act : List Nat) (entry : Nat → List Byte) (s : State) : State :=
  act.zipIdx.foldl (fun (u : State) q => pkgStoreAll u (spadOf u.core + slotOff ss p ((ss.heads.toList.getD p 0 +
    ss.counts.toList.getD p 0 + q.2) % ss.slots)) (entry q.1)) s

/-- A path's count of entries. -/
def counted (p n : Nat) (c : Ctx) : Ctx := { c with ss := { c.ss with counts := vset c.ss.counts p n } }

theorem exec_vdefer {x : VdeferArgs} {s r : State} {regs : List VReg} {ops : List (VReg × List Elem)}
    (hacts : vecActs x.m s = true) (hpath : pathOk s.cur.ss x.p.toNat = true)
    (hregs : valueRegs x.a x.ty x.k s = .ok regs s) (hops : ops.map (·.1) = regs) (hreads : ∀ o ∈ ops, reads o.1 x.ty s o.2)
    (hclean : ∀ o ∈ ops, ∀ y ∈ o.2, y.q = none)
    (hroom : s.cur.ss.counts.toList.getD x.p.toNat 0 + (activeElems x.m s.cur).length ≤ s.cur.ss.slots)
    (hsettle : (do
      ownRanges (deferSlots s.cur.ss s.core x.p.toNat (activeElems x.m s.cur))
      settleTile (deferSlots s.cur.ss s.core x.p.toNat (activeElems x.m s.cur)) : M Unit) s = .ok () r) :
    exec (.vdefer x) s = .next (passEntry (stripsTaken regs ((deferStores s.cur.ss x.p.toNat (activeElems x.m s.cur)
      (fun e => sideEntry ((vqHead s.cur).capG.toNat + e) (ops.map (fun o => (o.2.getD e Elem.zero).val)) x.ty x.k) r).modCur
      (counted x.p.toNat (s.cur.ss.counts.toList.getD x.p.toNat 0 + (activeElems x.m s.cur).length))))) := by
  subst hops
  refine vecStep_acts hacts _ _ _ _ ?_
  refine (run_bind_ok (checkPath_ok hpath) _).trans ((run_bind_ok (run_capturedG s) _).trans ?_)
  refine (run_bind_ok hregs _).trans ((run_bind_ok (run_mapM_readV hreads) _).trans ?_)
  have hconsume : ∀ o ∈ ops.map (fun o => (o.1, x.ty.width, o.2)), ∀ y ∈ o.2.2, y.q = none := by
    intro o ho
    obtain ⟨o', ho', rfl⟩ := List.mem_map.mp ho
    exact hclean o' ho'
  refine (run_bind_ok (consumeV_ok hconsume) _).trans ((run_bind_ok (run_getCur s) _).trans ?_)
  rw [if_neg (Nat.not_lt.mpr hroom)]
  have run := run_then hsettle (do
    modify (deferStores s.cur.ss x.p.toNat (activeElems x.m s.cur)
      (fun e => sideEntry ((vqHead s.cur).capG.toNat + e) (ops.map (fun o => (o.2.getD e Elem.zero).val)) x.ty x.k))
    modifyCur (counted x.p.toNat (s.cur.ss.counts.toList.getD x.p.toNat 0 + (activeElems x.m s.cur).length))
    takeStrips (ops.map (·.1)))
  simp only [bind_assoc] at run
  exact (run_bind_ok (run_get s) _).trans run

/-! ### VDRAIN (R305) -/

/-- The elements that word `i` of entries of a path gives, at a width. -/
def drainElems (ents : List (List Byte)) (k i w : Nat) : List (Nat × Elem) :=
  (List.range k).map (fun e => (e, { val := natOfBytes (((ents.getD e []).drop (8 * i)).take 8) % 2 ^ w, q := none }))

theorem exec_vdrain {x : VdrainArgs} {s r : State} {regs : List VReg} {ents : List (List Byte)}
    (hacts : vecActs x.m s = true) (hactive : active x.m s.cur 0 = true) (hpath : pathOk s.cur.ss x.p.toNat = true)
    (hregs : valueRegs x.b x.ty x.k s = .ok regs s) (hindex : destFits x.a 32 s)
    (hvalues : ∀ n ∈ regs, destFits n x.ty.width s)
    (hoverlap : firstOverlap ((x.a, groupRegs s.cur.vr x.a s.cur.vr.vl.toNat 32) ::
      regs.map (fun n => (n, groupRegs s.cur.vr n s.cur.vr.vl.toNat x.ty.width))) = none)
    (hread : (List.range (min (s.cur.ss.counts.toList.getD x.p.toNat 0) s.cur.vr.vl.toNat)).mapM (fun e =>
      readSpad (slotOff s.cur.ss x.p.toNat ((s.cur.ss.heads.toList.getD x.p.toNat 0 + e) % s.cur.ss.slots)) 64 x.p.toNat) s =
        .ok ents r) :
    let k := min (s.cur.ss.counts.toList.getD x.p.toNat 0) s.cur.vr.vl.toNat
    let out (v : Vregs) : Vregs := regs.zipIdx.foldl (fun v q =>
      putElems q.1 x.ty.width (drainElems ents k (1 + q.2) x.ty.width) v) (putElems x.a 32 (drainElems ents k 0 32) v)
    exec (.vdrain x) s = .next (passEntry ((r.modCur (fun c => { c with vr := out c.vr })).modCur
      (fun c => writeG { c with
        ss := { c.ss with
          heads := vset c.ss.heads x.p.toNat ((s.cur.ss.heads.toList.getD x.p.toNat 0 + k) % c.ss.slots)
          counts := vset c.ss.counts x.p.toNat (s.cur.ss.counts.toList.getD x.p.toNat 0 - k) }
        vr := { c.vr with vl := BitVec.ofNat 13 k } } x.d (BitVec.ofNat 64 k)))) := by
  intro k out
  refine vecStep_acts hacts _ _ _ _ ?_
  refine (run_bind_ok (run_getCur s) _).trans ?_
  rw [if_neg (by rw [hactive]; exact Bool.false_ne_true)]
  refine (run_bind_ok (checkPath_ok hpath) _).trans ((run_bind_ok hregs _).trans ((run_bind_ok hindex _).trans ?_))
  refine (run_bind_ok (run_forM_same hvalues) _).trans ?_
  dsimp only
  rw [hoverlap]
  refine (run_bind_ok hread _).trans ((run_bind_ok (run_modifyCur _ r) _).trans ?_)
  refine (run_bind_ok (run_forM_modifyCur _ _ _) _).trans ((run_modifyCur _ _).trans ?_)
  exact congrArg (fun t => EStateM.Result.ok () (State.modCur t _)) (foldl_modCur_vr _ regs.zipIdx r _)

/-- Settles O43, by the run of each instruction past its checks. -/
theorem loopsAndDeferral : Obligations.LoopsAndDeferral := by
  refine ⟨fun _ _ hpass ha hb hcount => exec_clset hpass ha hb hcount, fun _ _ _ _ hpass => exec_clrun hpass,
    fun _ _ _ _ => exec_clrun_skips, ?vdefer, ?vdrain⟩
  case vdefer =>
    intro x s r regs ops hacts p g n hd act hpath hregs hops hreads hclean hroom slots hsettle t
    exact exec_vdefer hacts hpath hregs hops hreads hclean hroom hsettle
  case vdrain =>
    intro x s r regs ents hacts hactive p vl n hd k word elems hpath hregs hindex hvalues hoverlap hread out
    exact exec_vdrain hacts hactive hpath hregs hindex hvalues hoverlap hread

end Sys2Proof.Machine

/-! # Waiting accesses perform, and lines leave their level -/

namespace Sys2Proof.Machine

/-! ### The queues of a party (R116) -/

theorem pqOf_modPq (s : State) (k : Nat) (p : Party) (f : PartyQ → PartyQ) : pqOf (modPq s k p f) k p = f (pqOf s k p) := by
  rw [pqOf, modPq, State.coreAt_modCore_self]
  exact Vector.getElem_set_self _

/-- The queues of a party once an access has issued. -/
def issued (i : Nat) (a : Access) (q : PartyQ) : PartyQ :=
  let q := { q with issue := q.issue.eraseIdx i }
  if isStore a then { q with stores := q.stores ++ [a] } else { q with pending := q.pending ++ [a] }

theorem issued_eq (i : Nat) (a : Access) (q : PartyQ) :
    issued i a q = { issue := q.issue.eraseIdx i, pending := q.pending ++ (if isStore a then [] else [a]),
                     stores := q.stores ++ (if isStore a then [a] else []) } := by
  cases h : isStore a <;> simp [issued, h]

theorem exec_issue {x : AccArgs} {a : Access} {s : State} (ha : (pqOf s x.core x.party).issue[x.idx]? = some a)
    (holder : olderMeets (pqOf s x.core x.party).issue x.idx a = false)
    (hstore : isStore a = true → (pqOf s x.core x.party).pending.any (keepOrder a) = false)
    (hload : isStore a = false → (pqOf s x.core x.party).pending.any isAmo = false)
    (hamo : isAmo a = true → (pqOf s x.core x.party).pending = [] ∧ (pqOf s x.core x.party).stores = [])
    (hstall : accStalls s a = false) : exec (.issue x) s = .next (modPq s x.core x.party (issued x.idx a)) := by
  have hbehind : (if isStore a then (pqOf s x.core x.party).pending.any (keepOrder a)
      else (pqOf s x.core x.party).pending.any isAmo ||
        (isAmo a && !((pqOf s x.core x.party).pending ++ (pqOf s x.core x.party).stores).isEmpty)) = false := by
    split
    · next h => exact hstore h
    · next h =>
      rw [hload (Bool.not_eq_true _ ▸ h), Bool.false_or]
      cases hkind : isAmo a with
      | false => rfl
      | true =>
        obtain ⟨hpending, hstores⟩ := hamo hkind
        rw [hpending, hstores]
        rfl
  show execIssue x s = _
  unfold execIssue
  dsimp only
  rw [ha]
  dsimp only
  rw [holder, hbehind, hstall]
  rfl

/-! ### Loads and stores that perform (R116, R126) -/

theorem retire_slot (k fuel : Nat) (s : State) : (retire k fuel s).slot = s.slot := by
  induction fuel generalizing s with
  | zero => rfl
  | succ fuel ih =>
    rw [retire]
    split
    · rfl
    · exact (ih _).trans (slot_modCore _ _ (fun _ => rfl))

theorem exec_performLoad {x : AccArgs} {a : Access} {s : State} (ha : (pqOf s x.core x.party).pending[x.idx]? = some a)
    (holder : olderMeets (pqOf s x.core x.party).pending x.idx a = false) (hstall : accStalls s a = false)
    (hrstate : behindRstate s (pqOf s x.core x.party).stores (accRanges a) = false) :
    exec (.performLoad x) s = .next
      (let u := performAccess (modPq (acting s x.core x.party) x.core x.party
        (fun q => { q with pending := q.pending.eraseIdx x.idx })) x.core (pqOf s x.core x.party).stores a
      if x.party = .vector then restAfter (retire x.core 64 u) u.slot else u) := by
  show execPerformLoad x s = _
  unfold execPerformLoad
  dsimp only
  rw [ha]
  dsimp only
  rw [holder, hstall, hrstate]
  rfl

theorem exec_performStore {x : AccArgs} {a : Access} {s : State} (ha : (pqOf s x.core x.party).stores[x.idx]? = some a)
    (holder : olderMeets (pqOf s x.core x.party).stores x.idx a = false) (hstall : accStalls s a = false)
    (hcommitted : x.party = .vector → a.n = 0) :
    exec (.performStore x) s = .next (performAccess (modPq (acting s x.core x.party) x.core x.party
      (fun q => { q with stores := q.stores.eraseIdx x.idx })) x.core [] a) := by
  have hvector : (x.party == .vector && a.n != 0) = false := by
    cases hp : x.party == .vector with
    | false => rfl
    | true => rw [hcommitted (beq_iff_eq.mp hp)]; rfl
  show execPerformStore x s = _
  unfold execPerformStore
  dsimp only
  rw [ha]
  dsimp only
  rw [holder, hstall, hvector]
  rfl

theorem performAccess_loadG {a : Access} {ty : Ty} {d : GReg} (h : a.kind = .loadG ty d) (s : State) (k : Nat)
    (stores : List Access) :
    performAccess s k stores a =
      (let r := ctxLoad { s with code := a.code } k a.pa a.size a.scope a.hint
      let bs := forwarded stores a.pa r.2
      r.1.modCur (fun c =>
        spinSeen (writeG c d (loadValue ty bs)) a.pa a.size (BitVec.ofNat 128 (natOfBytes bs)) false)) := by
  rw [performAccess, h]

theorem performAccess_amoG {a : Access} {kind : AmoKind} {ty : Ty} {d : GReg} {b c : Word} (h : a.kind = .amoG kind ty d b c)
    (hsize : a.size = ty.width / 8) (s : State) (k : Nat) (stores : List Access) :
    performAccess s k stores a = amoLeaves { s with code := a.code } k a.pa a.size a.scope a.hint kind ty d b c := by
  rw [performAccess, h]
  exact performAmo_leaves _ k a kind ty d b c hsize

theorem performAccess_store {a : Access} {v : Word} (h : a.kind = .store v) (s : State) (k : Nat) (stores : List Access) :
    performAccess s k stores a =
      ctxStore { s with code := a.code } k a.pa ((wordBytes 8 v).take a.size) a.scope a.hint := by
  rw [performAccess, h]

/-! ### A line leaves level one (R116) -/

/-- The line of level two that a line of level one leaves its pending bytes in. -/
def mergedTwo (s : State) (d l : Nat) (x : L1Line) : L2Line :=
  let y := (s.l2Line d l).getD
    { data := pkgData s l, dirty := 0, tags := pkgTags s l, writers := [], owner := 0, code := 0 }
  { data := mergeData y.data x.data x.dirty, dirty := y.dirty ||| x.dirty, tags := mergeTags y.tags x.tags x.dirty,
    writers := x.writers.foldl (fun ks j => insertNat j ks) y.writers, owner := x.owner, code := x.code }

theorem l2Merge_quiet {k l : Nat} {s : State} (h : Quiet k l s) (d : Nat) {x : L1Line} (hx : x.dirty ≠ 0) :
    l2Merge s d l x = s.l2Put d l (mergedTwo s d l x) := by
  rw [l2Merge, if_neg hx, mergedTwo]
  cases s.l2Line d l with
  | none => rw [sideFill_quiet h]; rfl
  | some y => rfl

/-- A line that stands as wide as asked stays where it is. -/
theorem propagateOne_reached {k l : Nat} {s : State} {x : L1Line} (hline : s.l1Line k l = some x) {sc : Scope}
    (hsc : narrower x.scope sc = false) : propagateOne s k l sc = s := by
  rw [propagateOne, hline]
  exact if_neg (by rw [hsc]; exact Bool.false_ne_true)

theorem evict1_quiet {k l : Nat} {s : State} (h : Quiet k l s) {x : L1Line} (hline : s.l1Line k l = some x) :
    evict1 s k l = (if x.dirty = 0 then s else propagateOne s k l .die).l1Del k l := by
  rw [evict1, tied_quiet h, List.foldl_cons, List.foldl_nil, evict1One, hline]

/-- A line that level one carries out of a cluster: the rest of the level, memory, and where its pending bytes stand. -/
theorem exec_evict1 {k l : Nat} {x : L1Line} {s : State} (hline : s.l1Line k l = some x) (hquiet : quietLine s k l = true) :
    ∃ t, exec (.evict1 k l) s = .next t ∧ t.l1Line k l = none ∧ t.mem = s.mem ∧
      (∀ n : Nat, n ≠ l → t.l1Line k n = s.l1Line k n) ∧ (x.dirty = 0 → t.l2 = s.l2) ∧
      (x.dirty ≠ 0 → narrower x.scope .die = true → t.l2Line (dieOf k) l = some (mergedTwo s (dieOf k) l x)) := by
  have hq := quiet_of_quietLine hquiet
  have hothers {t : State} (h : Apart k l s t) (n : Nat) (hn : n ≠ l) : t.l1Line k n = s.l1Line k n := by
    rw [State.l1Line, State.l1Line, h.l1Home]
    exact h.levelOne _ n (.inr hn)
  refine ⟨_, rfl, ?_⟩
  rw [evict1_quiet hq hline]
  by_cases hx : x.dirty = 0
  · rw [if_pos hx]
    exact ⟨State.l1Line_l1Del_self s k l, rfl, hothers (apart_l1Del s k l), fun _ => rfl, fun hdirty => absurd hx hdirty⟩
  · rw [if_neg hx]
    refine ⟨State.l1Line_l1Del_self _ k l, ?_, ?_, fun hclean => absurd hclean hx, fun _ hsc => ?_⟩
    · cases hsc : narrower x.scope .die with
      | true => rw [propagateOne_die hq hline hsc, l2Merge_quiet hq _ hx]; rfl
      | false => rw [propagateOne_reached hline hsc]; rfl
    · cases hsc : narrower x.scope .die with
      | true => exact hothers ((apart_propagateOne hq hline hsc).trans (apart_l1Del _ k l))
      | false => rw [propagateOne_reached hline hsc]; exact hothers (apart_l1Del s k l)
    · rw [propagateOne_die hq hline hsc, l2Merge_quiet hq _ hx]
      exact State.l2Line_l2Put_self s (dieOf k) l _

/-! ### A line leaves level two (R116) -/

/-- A core number so high that the state lists no core of its cluster. -/
def farCore (s : State) : Nat := 36 * (s.cores.foldr (fun p n => p.1 + n) 0 + 1)

theorem lookupKey_of_gt {α : Type} {l : List (Nat × α)} {j : Nat} (h : l.foldr (fun p n => p.1 + n) 0 < j) :
    lookupKey j l = none := by
  induction l with
  | nil => rfl
  | cons p l ih =>
    rw [List.foldr_cons] at h
    rw [lookupKey, if_neg (by omega)]
    exact ih (by omega)

theorem clusterOf_first (n : Nat) : clusterOf (36 * n) = 9 * n := by
  have hdie : 36 * n / 36 = n := Nat.mul_div_cancel_left n (by decide)
  have hcol : 36 * n % 6 = 0 := Nat.mod_eq_zero_of_dvd ((show 6 ∣ 36 by decide).mul_right n)
  rw [clusterOf, dieOf, rowOf, colOf, hdie, Nat.mul_mod_right, hcol]
  rfl

theorem le_of_mem_coresOf {n j : Nat} (h : j ∈ coresOf (9 * n)) : 36 * n ≤ j := by
  have hdie : 9 * n / 9 = n := Nat.mul_div_cancel_left n (by decide)
  simp only [coresOf, hdie, List.mem_cons, List.not_mem_nil, or_false] at h
  omega

/-- To a core outside the machine every line stands apart, where no snapshot runs, no lines are tied and the memory side holds
every line. -/
theorem quiet_farCore {s : State} (hsnaps : ∀ e : Nat, (s.snapAt e).cut = false) (hties : s.ties = []) (hside : s.side = [])
    (l : Nat) : Quiet (farCore s) l s where
  snaps d _ := hsnaps d
  ties := hties
  held m := by rw [State.sideAt, hside]; rfl
  siblings j hj := by
    have hmem : j ∈ coresOf (clusterOf (farCore s)) := by
      unfold siblings at hj
      split at hj
      · cases hj
      · exact List.mem_of_mem_filter hj
    rw [farCore, clusterOf_first] at hmem
    have hlow := le_of_mem_coresOf hmem
    rw [State.coreAt, lookupKey_of_gt (l := s.cores) (by omega)]
    rfl

theorem mergeData_zero (old new : BitVec 512) : mergeData old new 0 = old := by
  have hmask : expandMask 0 = 0 := by decide +kernel
  show old &&& ~~~(expandMask 0) ||| new &&& expandMask 0 = old
  rw [hmask]
  refine BitVec.eq_of_getLsbD_eq (fun i hi => ?_)
  simp only [BitVec.getLsbD_or, BitVec.getLsbD_and, BitVec.getLsbD_not, BitVec.ofNat_eq_ofNat, BitVec.getLsbD_zero, hi,
    decide_true, Bool.not_false, Bool.and_true, Bool.and_false, Bool.or_false]

theorem pkgMerge_data {k l : Nat} {s : State} (h : Quiet k l s) (data : BitVec 512) {m : BitVec 64} (hm : m ≠ 0)
    (tags : BitVec 4) (code : BitVec 2) :
    pkgData (pkgMerge s l data m tags code) l = mergeData (pkgData s l) data m := by
  obtain ⟨poison, heq⟩ := pkgMerge_quiet h hm data tags code
  rw [heq, pkgData, spread_mem, sideMark_mem]
  exact pkgData_pkgSet_self _ _ _ _

theorem memGet_pkgMerge {k l : Nat} {s : State} (h : Quiet k l s) (data : BitVec 512) (m : BitVec 64) (tags : BitVec 4)
    (code : BitVec 2) {a : Nat} (ha : a / 64 ≠ l) : memGet (pkgMerge s l data m tags code).mem a = memGet s.mem a := by
  by_cases hm : m = 0
  · rw [pkgMerge, if_pos hm]
  · obtain ⟨poison, heq⟩ := pkgMerge_quiet h hm data tags code
    rw [heq, spread_mem, sideMark_mem]
    refine memGet_memWrite_outside _ _ _ _ ?_
    rw [bytesOfNat_length]
    omega

theorem memGet_farOut {k l : Nat} {s : State} (h : Quiet k l s) (e : Nat) {a : Nat} (ha : a / 64 ≠ l) :
    memGet (farOut l s e).mem a = memGet s.mem a := by
  rw [farOut]
  cases s.l2Line e l with
  | none => rfl
  | some y => exact memGet_pkgMerge h _ _ _ _ ha

theorem farOut_gone (l : Nat) (s : State) (e : Nat) : (farOut l s e).l2Line e l = none := by
  rw [farOut]
  cases hline : s.l2Line e l with
  | none => exact hline
  | some y => exact State.l2Line_l2Del_self _ e l

/-- The dies of a list, each rid of its copy. -/
structure DiesOut (k l : Nat) (es : List Nat) (s t : State) : Prop where
  apart : Apart k l s t
  gone : ∀ e ∈ es, t.l2Line e l = none
  mem : ∀ a, a / 64 ≠ l → memGet t.mem a = memGet s.mem a

theorem diesOut_foldl {k l : Nat} {s : State} (h : Quiet k l s) (es : List Nat) : DiesOut k l es s (es.foldl (farOut l) s) := by
  induction es using List.reverseRecOn with
  | nil => exact ⟨Apart.refl k l s, fun _ he => (List.not_mem_nil he).elim, fun _ _ => rfl⟩
  | append_singleton es e ih =>
    rw [List.foldl_append, List.foldl_cons, List.foldl_nil]
    have hq := ih.apart.quiet h
    refine ⟨ih.apart.trans (apart_farOut hq e), fun d hd => ?_, fun a ha => (memGet_farOut hq e ha).trans (ih.mem a ha)⟩
    by_cases heq : d = e
    · rw [heq]
      exact farOut_gone l _ e
    · rw [farOut_l2Line hq heq]
      exact ih.gone d ((List.mem_append.mp hd).resolve_right (fun h1 => heq (List.mem_singleton.mp h1)))

theorem foldl_farOut_none {l : Nat} {s : State} {es : List Nat} (h : ∀ e ∈ es, s.l2Line e l = none) :
    es.foldl (farOut l) s = s := by
  induction es with
  | nil => rfl
  | cons e es ih =>
    obtain ⟨he, hrest⟩ := List.forall_mem_cons.mp h
    rw [List.foldl_cons, farOut, he]
    exact ih hrest

/-- What the eviction of a line from a die's level two leaves at every point. -/
structure EvictedTwo (d l : Nat) (x : L2Line) (s t : State) : Prop where
  gone : t.l2Line d l = none
  others : ∀ n, n ≠ l → t.l2Line d n = s.l2Line d n
  dies : x.dirty ≠ 0 → ∀ e, e < 4 → t.l2Line e l = none
  data : (∀ e, e ≠ d → s.l2Line e l = none) → pkgData t l = mergeData (pkgData s l) x.data x.dirty
  mem : ∀ a, a / 64 ≠ l → memGet t.mem a = memGet s.mem a

theorem evict2One_evictedTwo {k d l : Nat} {x : L2Line} {s : State} (h : Quiet k l s) (hline : s.l2Line d l = some x) :
    EvictedTwo d l x s (evict2One s d l) := by
  have hev := evict2One_evicted h d
  by_cases hx : x.dirty = 0
  · refine ⟨hev.gone, fun n hn => hev.apart.levelTwo d n hn, fun hdirty => absurd hx hdirty, fun _ => ?_, fun _ _ => ?_⟩
    · rw [hx, mergeData_zero, evict2One_clean hline hx]
      rfl
    · rw [evict2One_clean hline hx]
      rfl
  · have hout := diesOut_foldl h ((List.range 4).filter (fun e => e != d))
    have hq := hout.apart.quiet h
    refine ⟨hev.gone, fun n hn => hev.apart.levelTwo d n hn, fun _ e he => ?_, fun hnone => ?_, fun a ha => ?_⟩
    · by_cases hed : e = d
      · rw [hed]
        exact hev.gone
      · rw [evict2One_dirty hline hx, State.l2Line_l2Del_die _ hed, l2Line_of_l2 (pkgMerge_l2 hq _ _ _ _)]
        exact hout.gone e (List.mem_filter.mpr ⟨List.mem_range.mpr he, bne_iff_ne.mpr hed⟩)
    · rw [evict2One_dirty hline hx, foldl_farOut_none (fun e he => hnone e (bne_iff_ne.mp (List.mem_filter.mp he).2))]
      exact pkgMerge_data h _ hx _ _
    · rw [evict2One_dirty hline hx]
      exact (memGet_pkgMerge hq _ _ _ _ ha).trans (hout.mem a ha)

/-- Settles O28: each access by the queue it leaves and what it performs, each eviction by the operations on one line. -/
theorem deferredAccessesAndEvictions : Obligations.DeferredAccessesAndEvictions := by
  refine ⟨?issue, ?load, ?store, fun k l x s => exec_evict1, ?evict2⟩
  case issue =>
    intro x a s ha holder hstore hload hamo hstall
    refine ⟨_, exec_issue ha holder hstore hload hamo hstall, ?_⟩
    rw [pqOf_modPq, issued_eq]
    exact ⟨rfl, rfl, rfl, rfl, rfl⟩
  case load =>
    intro x a s ha holder hstall hrstate u stores v r bs
    have hexec := exec_performLoad ha holder hstall hrstate
    refine ⟨fun hparty => ?_, fun hparty => ?_, fun ty d hkind => performAccess_loadG hkind u x.core stores,
      fun kind ty d b c hkind hsize => performAccess_amoG hkind hsize u x.core stores⟩
    · rw [hexec]
      dsimp only
      rw [if_neg hparty]
    · rw [hexec]
      dsimp only
      rw [if_pos hparty, retire_slot]
  case store =>
    intro x a s ha holder hstall hcommitted u
    exact ⟨exec_performStore ha holder hstall hcommitted, fun v hkind => performAccess_store hkind u x.core []⟩
  case evict2 =>
    intro d l x s hline hsnaps hties hside
    have hq := quiet_farCore hsnaps hties hside l
    have hev := evict2One_evictedTwo hq hline
    refine ⟨evict2 s d l, rfl, ?_⟩
    rw [evict2, tied_quiet hq, List.foldl_cons, List.foldl_nil]
    exact ⟨hev.gone, hev.others, hev.dies, hev.data, hev.mem⟩

end Sys2Proof.Machine

/-! # RV64IMAC on a roustabout -/

namespace Sys2Proof.Machine

/-! ### The acting roustabout changed (R259) -/

theorem roustStep_ok {m : M Unit} {s t : State} (h : m s = .ok () t) : roustStep m s = .next t := by
  rw [roustStep, h]

theorem modRoust_congr {c : Ctx} {storer : Bool} {f g : Roustabout → Roustabout}
    (h : f (roustOf c storer) = g (roustOf c storer)) : modRoust c storer f = modRoust c storer g := by
  cases storer
  · exact congrArg (fun r => { c with loader := r }) h
  · exact congrArg (fun r => { c with storer := r }) h

/-- The state with the acting roustabout changed. -/
def onRoust (s : State) (f : Roustabout → Roustabout) : State := s.modCur (fun c => modRoust c (s.party == .storer) f)

theorem onRoust_congr {s : State} {f g : Roustabout → Roustabout} (h : f (roustIn s) = g (roustIn s)) :
    onRoust s f = onRoust s g :=
  modCur_congr (modRoust_congr h)

theorem onRoust_onRoust (s : State) (f g : Roustabout → Roustabout) :
    onRoust (onRoust s f) g = onRoust s (fun r => g (f r)) := by
  unfold onRoust
  rw [State.modCur_modCur, State.modCur_party]
  exact congrArg s.modCur (funext fun c => modRoust_modRoust c _ f g)

theorem run_modR (f : Roustabout → Roustabout) (s : State) : modR f s = .ok () (onRoust s f) := rfl

theorem putX_pc (rd : XReg) (v : Word) (r : Roustabout) : (putX rd v r).pc = r.pc := by
  unfold putX
  split <;> rfl

/-- The length of an instruction, by whether it is compressed. -/
def rvLen (z : Bool) : Word := if z then 2 else 4

theorem ofNat_rvLen (z : Bool) : BitVec.ofNat 64 (if z then 2 else 4) = rvLen z := by
  cases z <;> rfl

/-- The acting roustabout past an instruction. -/
def pastRv (len : Word) (t : State) : State := onRoust t (fun r => { r with pc := r.pc + len })

theorem run_roustNext (z : Bool) (t : State) : roustNext (if z then 2 else 4) t = .ok () (pastRv (rvLen z) t) := by
  rw [← ofNat_rvLen]
  rfl

theorem pastRv_writeX (len : Word) (rd : XReg) (v : Word) (s : State) :
    pastRv len (writeX rd v s) = onRoust s (fun r => { setXr r rd v with pc := r.pc + len }) := by
  refine (onRoust_onRoust s (putX rd v) _).trans (onRoust_congr ?_)
  dsimp only
  rw [putX_pc]
  rfl

/-! ### Operations, jumps and branches (R259, R263) -/

section
variable {z : Bool} {op : RvOp} {s t u : State} {rd : XReg} {v : Word}

/-- What an operation that ends by moving past itself leaves. -/
theorem exec_rv_past {m : M Unit} (hop : rvOp (if z then 2 else 4) op s = (m >>= fun _ => roustNext (if z then 2 else 4)) s)
    (hm : m s = .ok () t) :
    exec (.roustaboutInstruction { compressed := z, op := op }) s = .next (pastRv (rvLen z) t) :=
  roustStep_ok (hop.trans ((run_then hm _).trans (run_roustNext z t)))

theorem exec_rv_sets (hop : rvOp (if z then 2 else 4) op s = (setX rd v >>= fun _ => roustNext (if z then 2 else 4)) s) :
    exec (.roustaboutInstruction { compressed := z, op := op }) s =
      roustRuns s (fun r => { setXr r rd v with pc := r.pc + rvLen z }) := by
  rw [exec_rv_past hop (run_setX rd v s), pastRv_writeX]
  rfl

theorem sext32_upper (imm : BitVec 20) :
    sext32 (BitVec.ofNat 64 (imm.toNat <<< 12)) = (imm ++ (0 : BitVec 12)).signExtend 64 := by
  have happend : (imm ++ (0 : BitVec 12)).toNat = imm.toNat <<< 12 := by
    rw [BitVec.toNat_append]
    exact Nat.or_zero _
  have hlt : imm.toNat <<< 12 < 2 ^ 64 := by
    have := imm.isLt
    rw [Nat.shiftLeft_eq]
    omega
  rw [sext32, BitVec.signExtend, BitVec.toInt_eq_toNat_bmod, happend, uint, BitVec.toNat_ofNat, Nat.mod_eq_of_lt hlt]
  rfl

/-- A jump to itself is one by an offset of zero. -/
theorem jumps_home (pc : Word) (off : BitVec 21) : (pc + off.signExtend 64 == pc) = (off == 0) := by
  have hzero : off.signExtend 64 = 0 ↔ off = 0 := by
    constructor
    · intro h
      have hint := BitVec.toInt_signExtend_of_le (x := off) (show 21 ≤ 64 by decide)
      rw [h] at hint
      exact BitVec.eq_of_toInt_eq hint.symm
    · rintro rfl
      rfl
  rw [Bool.eq_iff_iff, beq_iff_eq, beq_iff_eq, ← hzero]
  exact add_eq_left

theorem exec_rv_jal (off : BitVec 21) :
    exec (.roustaboutInstruction { compressed := z, op := .jal rd off }) s = roustRuns s (fun r =>
      { setXr r rd (r.pc + rvLen z) with pc := r.pc + off.signExtend 64, idle := rd == 0 && off == 0 }) := by
  have hrun : rvOp (if z then 2 else 4) (.jal rd off) s = .ok () (onRoust (writeX rd ((roustIn s).pc + rvLen z) s)
      (fun r => { r with pc := (roustIn s).pc + off.signExtend 64,
                         idle := rd == 0 && (roustIn s).pc + off.signExtend 64 == r.pc })) := by
    rw [← ofNat_rvLen]
    rfl
  refine (roustStep_ok hrun).trans (congrArg Host.Outcome.next ((onRoust_onRoust s (putX rd _) _).trans (onRoust_congr ?_)))
  dsimp only
  rw [putX_pc, jumps_home]
  rfl

theorem exec_rv_jalr (a : XReg) (imm : BitVec 12) :
    exec (.roustaboutInstruction { compressed := z, op := .jalr rd a imm }) s = roustRuns s (fun r =>
      { setXr r rd (r.pc + rvLen z) with
        pc := (xVal r a + imm.signExtend 64) &&& ~~~ 1#64, idle := false }) := by
  have hrun : rvOp (if z then 2 else 4) (.jalr rd a imm) s = .ok () (onRoust (writeX rd ((roustIn s).pc + rvLen z) s)
      (fun r => { r with pc := (xVal (roustIn s) a + imm.signExtend 64) &&& ~~~ 1#64, idle := false })) := by
    rw [← ofNat_rvLen]
    rfl
  refine (roustStep_ok hrun).trans (congrArg Host.Outcome.next ((onRoust_onRoust s (putX rd _) _).trans (onRoust_congr ?_)))
  rfl

theorem exec_rv_branch {k : RvCond} {a b : XReg} (off : BitVec 13) :
    (rvCond k (xVal (roustIn s) a) (xVal (roustIn s) b) = true →
      exec (.roustaboutInstruction { compressed := z, op := .branch k a b off }) s =
        roustRuns s (fun r => { r with pc := r.pc + off.signExtend 64, idle := false })) ∧
    (rvCond k (xVal (roustIn s) a) (xVal (roustIn s) b) = false →
      exec (.roustaboutInstruction { compressed := z, op := .branch k a b off }) s =
        roustRuns s (fun r => { r with pc := r.pc + rvLen z })) := by
  have hrun : rvOp (if z then 2 else 4) (.branch k a b off) s =
      (if rvCond k (xVal (roustIn s) a) (xVal (roustIn s) b) then roustJump false ((roustIn s).pc + off.signExtend 64)
        else roustNext (if z then 2 else 4)) s := rfl
  refine ⟨fun h => roustStep_ok (hrun.trans ?_), fun h => roustStep_ok (hrun.trans ?_)⟩
  · rw [if_pos h]
    exact congrArg (EStateM.Result.ok ()) (onRoust_congr rfl)
  · rw [if_neg (by rw [h]; exact Bool.false_ne_true)]
    exact run_roustNext z s

/-! ### Loads and stores (R259, R116) -/

theorem pastRv_loaded (len : Word) (rd : XReg) (signed : Bool) (bs : List Byte) (t : State) :
    pastRv len (writeX rd (roustValue signed bs) t) = t.modCur (fun c => modRoust c (t.party == .storer) (fun r =>
      { setXr r rd (wordOf (if signed then signExt (natOfBytes bs) (8 * bs.length) else natOfBytes bs)) with
        pc := r.pc + len })) := pastRv_writeX len rd _ t

theorem roustLoad_local {a : Word} {n : Nat} (signed : Bool) {bs : List Byte} (ha : a.toNat < 0x10000)
    (hload : localLoad a n s = .ok bs t) :
    roustLoad rd a n signed s = .ok () (writeX rd (roustValue signed bs) t) := by
  rw [roustLoad, if_neg (Nat.not_le.mpr ha)]
  exact run_bind_ok hload _

theorem roustLoad_now {a : Word} {n pa : Nat} (signed : Bool) {bs : List Byte} (ha : 0x10000 ≤ a.toNat)
    (hplace : roustAccess a n .load .read s = .ok pa t) (hheld : mayHold t = false)
    (hload : loadMem pa n .core 0 t = .ok bs u) :
    roustLoad rd a n signed s = .ok () (writeX rd (roustValue signed bs) u) := by
  rw [roustLoad, if_pos ha]
  refine (run_bind_ok hplace _).trans ((run_bind_ok (run_get t) _).trans ?_)
  rw [if_neg (by rw [hheld]; exact Bool.false_ne_true)]
  exact run_bind_ok hload _

theorem roustLoad_waits {a : Word} {n pa : Nat} (signed : Bool) (ha : 0x10000 ≤ a.toNat)
    (hplace : roustAccess a n .load .read s = .ok pa t) (hheld : mayHold t = true)
    (hjoins : enqueue { n := 0, kind := .loadX signed rd, pa := pa, size := n, scope := .core, hint := 0, code := 0 } t =
      .ok () u) : roustLoad rd a n signed s = .ok () u := by
  rw [roustLoad, if_pos ha]
  refine (run_bind_ok hplace _).trans ((run_bind_ok (run_get t) _).trans ?_)
  rw [if_pos hheld]
  exact hjoins

theorem roustStore_own {a : Word} {n : Nat} (hlow : 0x4000 ≤ a.toNat) (hhigh : a.toNat + n ≤ 0x8000)
    (hput : dstorePut a.toNat ((wordBytes 8 v).take n) s = .ok () t) : roustStore a v n s = .ok () t := by
  have hown : inDstore a.toNat n = true := by
    rw [inDstore, decide_eq_true hlow, decide_eq_true hhigh]
    rfl
  rw [roustStore, if_neg (by omega), if_pos hown]
  exact hput

theorem roustStore_memory {a : Word} {n pa : Nat} (ha : 0x10000 ≤ a.toNat)
    (hplace : roustAccess a n .store .write s = .ok pa t) (hstore : issueStore v pa n .core 0 t = .ok () u) :
    roustStore a v n s = .ok () u := by
  rw [roustStore, if_pos ha]
  exact (run_bind_ok hplace _).trans hstore

end

theorem exec_roustaboutFence {x : RvFenceArgs} {s t : State}
    (h : (if x.pred ≠ 0 ∧ x.succ ≠ 0 then (do releaseOwn .sys; modify (fun s => acquire s s.core .sys)) else pure () : M Unit) s =
      .ok () t) : exec (.roustaboutFence x) s = .next (pastRv 4 t) := by
  refine roustStep_ok ?_
  split at h
  · next hsets =>
    have run := run_then h (roustNext 4)
    simp only [bind_assoc] at run
    rw [if_pos hsets]
    exact run
  · next hsets =>
    rw [if_neg hsets]
    exact run_then h (roustNext 4)

/-! ### Atomics of the data store (R260) -/

theorem memRead_range (m : Bytes) (a n : Nat) : memRead m a n = (List.range n).map (fun i => memGet m (a + i)) := by
  induction n with
  | zero => rfl
  | succ n ih =>
    rw [memRead_append, ih, List.range_succ, List.map_append]
    rfl

/-- A load inside the data store reads it. -/
theorem localLoad_dstore {a : Word} {n : Nat} (s : State) (hlow : 0x4000 ≤ a.toNat) (hhigh : a.toNat + n ≤ 0x8000) :
    localLoad a n s = .ok (memRead (roustIn s).dstore (a.toNat - 0x4000) n) s := by
  have hbytes : (List.range n).map (fun i => localByte s.cur (roustIn s) (a.toNat + i)) =
      (memRead (roustIn s).dstore (a.toNat - 0x4000) n).map some := by
    rw [memRead_range, List.map_map]
    refine List.map_congr_left (fun i hi => ?_)
    have hlt := List.mem_range.mp hi
    rw [localByte, if_neg (by omega), if_pos (by omega), Nat.sub_add_comm hlow]
    rfl
  refine (run_bind_ok (run_get s) _).trans ((run_bind_ok (run_getR s) _).trans ?_)
  have hall : (memRead (roustIn s).dstore (a.toNat - 0x4000) n).all ((fun x => x.isSome) ∘ some) = true :=
    List.all_eq_true.mpr (fun _ _ => rfl)
  rw [hbytes, List.all_map, List.filterMap_map, if_pos hall]
  exact congrArg (EStateM.Result.ok · s) List.filterMap_some

/-- What a store to the data store leaves of a roustabout: a reservation of a line written ends. -/
def dstoreWritten (a : Nat) (bs : List Byte) (r : Roustabout) : Roustabout :=
  { r with
    dstore := memWrite r.dstore (a - 0x4000) bs
    reserved := if r.reserved = some (dstoreLine a) ∨ r.reserved = some (dstoreLine (a + bs.length - 1)) then none
      else r.reserved }

theorem run_dstorePut (a : Nat) (bs : List Byte) (s : State) :
    dstorePut a bs s = .ok () (onRoust s (dstoreWritten a bs)) := rfl

/-- The value of a load that sign-extends is that of the bytes as a word. -/
theorem roustValue_word {bs : List Byte} (h : bs.length ≤ 8) :
    roustValue true bs = wordOf (signExt (uint (wordOfBytes bs)) (8 * bs.length)) := by
  have hlt : natOfBytes bs < 2 ^ 64 := by
    refine Nat.lt_of_lt_of_le (natOfBytes_lt bs) ?_
    rw [show (256 : Nat) = 2 ^ 8 from rfl, ← pow_mul]
    exact Nat.pow_le_pow_right (by decide) (by omega)
  rw [uint, wordOfBytes, BitVec.toNat_ofNat, Nat.mod_eq_of_lt hlt]
  rfl

section
variable {x : RvAmoArgs} {s : State} {a b : Word} {n : Nat}

theorem dstoreAmo_lr {bs : List Byte} (hop : x.op = .lr) (halign : a.toNat % n = 0) (hload : localLoad a n s = .ok bs s) :
    dstoreAmo x a n b s =
      .ok (roustValue true bs) (onRoust s (fun r => { r with reserved := some (dstoreLine a.toNat) })) := by
  obtain ⟨op, dbl, aq, rl, rd, rs1, rs2⟩ := x
  cases hop
  refine (run_bind_ok (run_getR s) _).trans ((run_bind_ok hload _).trans ?_)
  exact (congrFun (if_neg (not_not.mpr halign)) s).trans rfl

theorem inDstore_of_le (hlow : 0x4000 ≤ a.toNat) (hhigh : a.toNat + n ≤ 0x8000) : ¬ (!inDstore a.toNat n) = true := by
  rw [inDstore, decide_eq_true hlow, decide_eq_true hhigh]
  exact Bool.false_ne_true

theorem dstoreAmo_sc (hop : x.op = .sc) (halign : a.toNat % n = 0) (hlow : 0x4000 ≤ a.toNat) (hhigh : a.toNat + n ≤ 0x8000) :
    dstoreAmo x a n b s = if (roustIn s).reserved = some (dstoreLine a.toNat)
      then .ok 0 (onRoust s (fun r =>
        { r with dstore := memWrite r.dstore (a.toNat - 0x4000) ((wordBytes 8 b).take n), reserved := none }))
      else .ok 1 (onRoust s (fun r => { r with reserved := none })) := by
  obtain ⟨op, dbl, aq, rl, rd, rs1, rs2⟩ := x
  cases hop
  refine (run_bind_ok (run_getR s) _).trans ((run_bind_ok (localLoad_dstore s hlow hhigh) _).trans ?_)
  dsimp only
  rw [if_neg (inDstore_of_le hlow hhigh), if_neg (not_not.mpr halign)]
  by_cases h : (roustIn s).reserved = some (dstoreLine a.toNat)
  · rw [if_pos h, beq_iff_eq.mpr h]
    refine (run_bind_ok (run_dstorePut _ _ s) _).trans ((run_bind_ok (run_modR _ _) _).trans ?_)
    exact congrArg (EStateM.Result.ok 0) (onRoust_onRoust s _ _)
  · rw [if_neg h, beq_false_of_ne h]
    exact run_bind_ok (run_modR _ s) _

/-- A read-modify-write of the data store, whatever it computes. -/
theorem dstoreAmo_rmw (hlr : x.op ≠ .lr) (hsc : x.op ≠ .sc) (halign : a.toNat % n = 0) (hlow : 0x4000 ≤ a.toNat)
    (hhigh : a.toNat + n ≤ 0x8000) :
    dstoreAmo x a n b s = .ok (roustValue true (memRead (roustIn s).dstore (a.toNat - 0x4000) n)) (onRoust s
      (dstoreWritten a.toNat ((wordBytes 8 (rvAmoNew x.op (8 * n)
        (wordOfBytes (memRead (roustIn s).dstore (a.toNat - 0x4000) n)) b)).take n))) := by
  have hrun (op : RvAmoOp) : (do
      if !inDstore a.toNat n then raddr a
      if a.toNat % n ≠ 0 then trapD cAlign a 0
      dstorePut a.toNat ((wordBytes 8 (rvAmoNew op (8 * n)
        (wordOfBytes (memRead (roustIn s).dstore (a.toNat - 0x4000) n)) b)).take n)
      return roustValue true (memRead (roustIn s).dstore (a.toNat - 0x4000) n) : M Word) s =
        .ok (roustValue true (memRead (roustIn s).dstore (a.toNat - 0x4000) n)) (onRoust s
          (dstoreWritten a.toNat ((wordBytes 8 (rvAmoNew op (8 * n)
            (wordOfBytes (memRead (roustIn s).dstore (a.toNat - 0x4000) n)) b)).take n))) := by
    rw [if_neg (inDstore_of_le hlow hhigh), if_neg (not_not.mpr halign)]
    exact run_bind_ok (run_dstorePut _ _ s) _
  obtain ⟨op, dbl, aq, rl, rd, rs1, rs2⟩ := x
  refine (run_bind_ok (run_getR s) _).trans ((run_bind_ok (localLoad_dstore s hlow hhigh) _).trans ?_)
  cases op with
  | lr => exact absurd rfl hlr
  | sc => exact absurd rfl hsc
  | _ => exact hrun _

end

/-! ### Atomics of context memory (R260, R136) -/

/-- What an atomic does where its address lies, in the data store or in context memory, and the move past it. -/
def amoAt (x : RvAmoArgs) (a b : Word) : M Unit := do
  if 0x10000 ≤ a.toNat then memAmo x a (if x.dbl then 8 else 4) b
  else
    let v ← dstoreAmo x a (if x.dbl then 8 else 4) b
    setX x.rd v
    if x.aq then modify (fun s => acquire s s.core .sys)
  roustNext 4

theorem amoAt_memory {x : RvAmoArgs} {a b : Word} {u t : State} (ha : 0x10000 ≤ a.toNat)
    (hamo : memAmo x a (if x.dbl then 8 else 4) b u = .ok () t) : amoAt x a b u = .ok () (pastRv 4 t) := by
  rw [amoAt, if_pos ha]
  exact run_then hamo _

theorem amoAt_own {x : RvAmoArgs} {a b v : Word} {u t : State} (ha : a.toNat < 0x10000)
    (hamo : dstoreAmo x a (if x.dbl then 8 else 4) b u = .ok v t) :
    amoAt x a b u = .ok () (pastRv 4
      (if x.aq then acquire (writeX x.rd v t) (writeX x.rd v t).core .sys else writeX x.rd v t)) := by
  rw [amoAt, if_neg (Nat.not_le.mpr ha)]
  refine (run_bind_ok hamo _).trans ((run_bind_ok (run_setX x.rd v t) _).trans ?_)
  cases x.aq <;> rfl

theorem exec_roustaboutAmo {x : RvAmoArgs} {s u t : State} (hspec : s.cur.spec = false ∨ x.op = .lr)
    (hrelease : (if x.rl then releaseOwn .sys else pure () : M Unit) s = .ok () u)
    (hamo : amoAt x (xVal (roustIn s) x.rs1) (xVal (roustIn s) x.rs2) u = .ok () (pastRv 4 t)) :
    exec (.roustaboutAmo x) s = .next (pastRv 4 t) := by
  have htail : (if x.rl then (do
      releaseOwn .sys
      amoAt x (xVal (roustIn s) x.rs1) (xVal (roustIn s) x.rs2))
    else amoAt x (xVal (roustIn s) x.rs1) (xVal (roustIn s) x.rs2) : M Unit) s = .ok () (pastRv 4 t) := by
    split at hrelease
    · next hrl => rw [if_pos hrl]; exact (run_then hrelease _).trans hamo
    · next hrl => cases hrelease; rw [if_neg hrl]; exact hamo
  have hpark (hop : x.op ≠ .lr) : parkIfSpec s = .ok () s := parkIfSpec_ok (hspec.resolve_right hop)
  refine roustStep_ok ((run_bind_ok (run_getX x.rs1 s) _).trans ((run_bind_ok (run_getX x.rs2 s) _).trans ?_))
  cases hop : x.op with
  | lr => exact htail
  | _ => exact (run_then (hpark (by rw [hop]; exact nofun)) _).trans htail

/-- The place of an atomic of context memory, checked (R126, R394). -/
def amoPlace (op : RvAmoOp) (a : Word) (n : Nat) : M Nat := match op with
  | .lr => roustAccess a n .load .read
  | .sc => roustAccess a n .store .both
  | _ => roustPlace a n .load .both true

/-- The access of an atomic of context memory; LR and SC are accesses at .core (R136). -/
def amoAccessX (x : RvAmoArgs) (b : Word) (pa n : Nat) : Access :=
  loadAccess (.amoX x.op x.aq x.rd b) pa n (if x.op = .lr ∨ x.op = .sc then .core else .sys) 0

/-- An atomic's access joins the issue queue or performs. -/
def amoGoes (x : RvAmoArgs) (b : Word) (acc : Access) : M Unit := do
  if mayHold (← get) then enqueue acc
  else
    drainParty (← get).party
    modify (fun s => performAmoX s s.core { acc with code := s.code } x.op x.aq x.rd b)

theorem memAmo_placed {x : RvAmoArgs} {a b : Word} {n pa : Nat} {s t : State} (hplace : amoPlace x.op a n s = .ok pa t) :
    memAmo x a n b s = amoGoes x b (amoAccessX x b pa n) t := by
  obtain ⟨op, dbl, aq, rl, rd, rs1, rs2⟩ := x
  cases op <;> exact run_bind_ok hplace _

theorem amoGoes_waits {t : State} (hheld : mayHold t = true) (x : RvAmoArgs) (b : Word) (acc : Access) :
    amoGoes x b acc t = .ok () (joinsQueue t acc) := by
  refine (run_bind_ok (run_get t) _).trans ?_
  rw [if_pos hheld]
  exact run_enqueue acc t

theorem amoGoes_performs {t d : State} (hheld : mayHold t = false) (hdrain : drainParty t.party t = .ok () d) (x : RvAmoArgs)
    (b : Word) (acc : Access) : amoGoes x b acc t = .ok () (performAmoX d d.core acc x.op x.aq x.rd b) := by
  refine (run_bind_ok (run_get t) _).trans ?_
  rw [if_neg (by rw [hheld]; exact Bool.false_ne_true)]
  exact (run_bind_ok (run_get t) _).trans (run_bind_ok hdrain _)

section
variable (s : State) (k : Nat) (a : Access) (aq : Bool) (d : XReg) (b : Word)

/-- An acquire at .sys where one is asked. -/
def acquires (k : Nat) (aq : Bool) (t : State) : State := if aq then acquire t k .sys else t

theorem performAmoX_lr :
    performAmoX s k a .lr aq d b = acquires k aq (onRoust (ctxLoad s k a.pa a.size a.scope a.hint).1 (fun r =>
      { setXr r d (roustValue true (ctxLoad s k a.pa a.size a.scope a.hint).2) with reserved := some (lineOf a.pa) })) := rfl

theorem performAmoX_sc_reserved (h : (roustIn s).reserved = some (lineOf a.pa)) :
    performAmoX s k a .sc aq d b =
      acquires k aq (onRoust (ctxStore s k a.pa ((wordBytes 8 b).take a.size) a.scope a.hint)
        (fun r => { setXr r d 0 with reserved := none })) := by
  have hok : ((roustOf s.cur (s.party == .storer)).reserved == some (lineOf a.pa)) = true := beq_iff_eq.mpr h
  unfold performAmoX
  dsimp only
  rw [hok]
  rfl

theorem performAmoX_sc_lost (h : (roustIn s).reserved ≠ some (lineOf a.pa)) :
    performAmoX s k a .sc aq d b = acquires k aq (onRoust s (fun r => { setXr r d 1 with reserved := none })) := by
  have hok : ((roustOf s.cur (s.party == .storer)).reserved == some (lineOf a.pa)) = false := beq_false_of_ne h
  unfold performAmoX
  dsimp only
  rw [hok]
  rfl

theorem performAmoX_rmw {op : RvAmoOp} (hlr : op ≠ .lr) (hsc : op ≠ .sc) :
    performAmoX s k a op aq d b =
      (let st := amoStep s k a (fun bs => rvAmoNew op (8 * a.size) (wordOfBytes bs) b)
      acquire (onRoust st.1 (fun r => setXr r d (roustValue true st.2))) k .sys) := by
  cases op with
  | lr => exact absurd rfl hlr
  | sc => exact absurd rfl hsc
  | _ => rfl

end

/-- Settles O47: each operation by the run of its meaning, atomics by where their address lies. -/
theorem roustaboutInstructions : Obligations.RoustaboutInstructions := by
  refine ⟨?run, fun x s t _ h => exec_roustaboutFence h, ?dstore, ?amo, ?memory, ?performs⟩
  case run =>
    intro z s _ r len run sets
    refine ⟨fun rd imm => ⟨?lui, ?auipc⟩, fun k rd a b imm => ⟨exec_rv_sets rfl, exec_rv_sets rfl⟩,
      fun k rd a b imm => ⟨exec_rv_sets rfl, exec_rv_sets rfl⟩, fun k rd a b => exec_rv_sets rfl,
      fun k rd a b => exec_rv_sets rfl, ?fenceI, fun rd off => exec_rv_jal off, fun rd a imm => exec_rv_jalr a imm,
      fun k a b off => exec_rv_branch off, ?load, ?store⟩
    case lui => exact sext32_upper imm ▸ exec_rv_sets rfl
    case auipc => exact sext32_upper imm ▸ exec_rv_sets rfl
    case fenceI => exact exec_rv_past (m := pure ()) rfl rfl
    case load =>
      intro k rd a imm at_ n g got
      refine ⟨fun bs t ha hload => ?_, fun pa t u ha hplace => ⟨fun bs hheld hload => ?_, fun hheld hjoins => ?_⟩⟩
      · exact (exec_rv_past rfl (roustLoad_local g ha hload)).trans (congrArg Host.Outcome.next (pastRv_loaded _ rd g bs t))
      · exact (exec_rv_past rfl (roustLoad_now g ha hplace hheld hload)).trans
          (congrArg Host.Outcome.next (pastRv_loaded _ rd g bs u))
      · exact exec_rv_past rfl (roustLoad_waits g ha hplace hheld hjoins)
    case store =>
      intro k a b imm at_ n past
      exact ⟨fun t hlow hhigh hput => exec_rv_past rfl (roustStore_own hlow hhigh hput),
        fun pa t u ha hplace hstore => exec_rv_past rfl (roustStore_memory ha hplace hstore)⟩
  case dstore =>
    intro x s a b r n old widened leaves halign
    have hn : n ≤ 8 := by
      dsimp only [n]
      split <;> decide
    have hwidened : roustValue true (memRead r.dstore (a.toNat - 0x4000) n) = widened := by
      rw [roustValue_word (by rw [memRead_length]; exact hn), memRead_length]
    refine ⟨fun bs hop hload => dstoreAmo_lr hop halign hload, fun hlow hhigh => ⟨fun hop => ?_, fun hop h => ?_,
      fun hop h => ?_, fun hlr hsc => ?_⟩⟩
    · exact hwidened ▸ dstoreAmo_lr hop halign (localLoad_dstore s hlow hhigh)
    · exact (dstoreAmo_sc hop halign hlow hhigh).trans (if_neg h)
    · exact (dstoreAmo_sc hop halign hlow hhigh).trans (if_pos h)
    · have hrun := dstoreAmo_rmw (b := b) (s := s) hlr hsc halign hlow hhigh
      have hlength : ((wordBytes 8 (rvAmoNew x.op (8 * n) old b)).take n).length = n := by
        rw [List.length_take, wordBytes, bytesOfNat_length]
        exact Nat.min_eq_left hn
      rw [hwidened] at hrun
      refine hrun.trans (congrArg (EStateM.Result.ok widened) ?_)
      unfold dstoreWritten
      rw [hlength]
      rfl
  case amo =>
    intro x s u _ hspec a b n past hrelease
    exact ⟨fun v t ha hamo => exec_roustaboutAmo hspec hrelease (amoAt_own ha hamo),
      fun t ha hamo => exec_roustaboutAmo hspec hrelease (amoAt_memory ha hamo)⟩
  case memory =>
    intro x a b n pa s t hplace acc
    have hplaced : amoPlace x.op a n s = .ok pa t := hplace
    exact ⟨fun hheld => (memAmo_placed hplaced).trans (amoGoes_waits hheld x b _),
      fun d hheld hdrain => (memAmo_placed hplaced).trans (amoGoes_performs hheld hdrain x b _)⟩
  case performs =>
    intro s k a op aq d b mine acquires' r ld
    refine ⟨?_, ?_, ?_, fun hlr hsc => performAmoX_rmw s k a aq d b hlr hsc⟩
    · rintro rfl
      exact performAmoX_lr s k a aq d b
    · rintro rfl h
      exact performAmoX_sc_reserved s k a aq d b h
    · rintro rfl h
      exact performAmoX_sc_lost s k a aq d b h

end Sys2Proof.Machine

/-! # The phases of the migration of a page -/

namespace Sys2Proof.Machine

/-! ### Bytes of a range (R431) -/

/-- Cells in the order of their addresses, none twice. -/
def Ascending (m : Bytes) : Prop := m.Pairwise (fun c d => c.1 < d.1)

theorem le_of_memWfFrom {lo : Nat} {m : Bytes} (w : memWfFrom lo m = true) {c : Host.Cell} (hc : c ∈ m) : lo ≤ c.1 := by
  induction m generalizing lo with
  | nil => cases hc
  | cons d rest ih =>
    simp only [memWfFrom, Bool.and_eq_true, decide_eq_true_eq] at w
    obtain ⟨⟨hlow, -⟩, hrest⟩ := w
    rcases List.mem_cons.mp hc with rfl | hmem
    · exact hlow
    · exact hlow.trans (Nat.le_of_succ_le (ih hrest hmem))

theorem ascending_of_memWfFrom {lo : Nat} {m : Bytes} (w : memWfFrom lo m = true) : Ascending m := by
  induction m generalizing lo with
  | nil => exact .nil
  | cons d rest ih =>
    simp only [memWfFrom, Bool.and_eq_true, decide_eq_true_eq] at w
    obtain ⟨-, hrest⟩ := w
    exact .cons (fun c hc => le_of_memWfFrom hrest hc) (ih hrest)

theorem ascending_memSlice {m : Bytes} (h : Ascending m) (lo n : Nat) : Ascending (memSlice m lo n) := by
  refine List.pairwise_map.mpr ((h.filter _).imp_of_mem (fun {c d} hc _ hlt => ?_))
  have hlow := (List.mem_filter.mp hc).2
  simp only [Bool.and_eq_true, decide_eq_true_eq] at hlow
  show c.1 - lo < d.1 - lo
  omega

/-- Cells moved up by a distance. -/
def shifted (dst : Nat) (m : Bytes) : Bytes := m.map (fun x => (dst + x.1, x.2))

theorem ascending_shifted {m : Bytes} (h : Ascending m) (dst : Nat) : Ascending (shifted dst m) :=
  List.pairwise_map.mpr (h.imp (fun hlt => Nat.add_lt_add_left hlt dst))

theorem memGet_cons (c : Host.Cell) (m : Bytes) (a : Nat) : memGet (c :: m) a = if a = c.1 then c.2 else memGet m a := by
  rw [memGet, lookupKey]
  split
  · rfl
  · rfl

theorem memGet_shifted (dst : Nat) (m : Bytes) (i : Nat) : memGet (shifted dst m) (dst + i) = memGet m i := by
  induction m with
  | nil => rfl
  | cons c m ih =>
    rw [memGet_cons, ← ih, shifted, List.map_cons, memGet_cons]
    exact if_congr (Nat.add_left_cancel_iff) rfl rfl

theorem memGet_memSlice (m : Bytes) (lo : Nat) {n i : Nat} (hi : i < n) : memGet (memSlice m lo n) i = memGet m (lo + i) := by
  induction m with
  | nil => rfl
  | cons c m ih =>
    rw [memGet_cons, ← ih, memSlice, List.filter_cons]
    split
    · next hin =>
      simp only [Bool.and_eq_true, decide_eq_true_eq] at hin
      rw [List.map_cons, memGet_cons]
      exact if_congr (by dsimp only; omega) rfl rfl
    · next hout =>
      simp only [Bool.and_eq_true, decide_eq_true_eq] at hout
      rw [if_neg (by omega)]
      rfl

theorem memGet_of_notMem {m : Bytes} {a : Nat} (h : ∀ c ∈ m, a ≠ c.1) : memGet m a = 0 := by
  induction m with
  | nil => rfl
  | cons c m ih =>
    obtain ⟨hc, hm⟩ := List.forall_mem_cons.mp h
    rw [memGet_cons, if_neg hc, ih hm]

theorem memGet_memErase_inside (m : Bytes) {lo n a : Nat} (hlow : lo ≤ a) (hhigh : a < lo + n) :
    memGet (memErase m lo n) a = 0 := by
  refine memGet_of_notMem (fun c hc => ?_)
  have hout := (List.mem_filter.mp hc).2
  simp only [Bool.or_eq_true, decide_eq_true_eq] at hout
  omega

theorem memGet_memErase_outside (m : Bytes) {lo n a : Nat} (ha : a < lo ∨ lo + n ≤ a) :
    memGet (memErase m lo n) a = memGet m a := by
  induction m with
  | nil => rfl
  | cons c m ih =>
    rw [memGet_cons, ← ih, memErase, List.filter_cons]
    split
    · exact memGet_cons _ _ _
    · next hin =>
      simp only [Bool.or_eq_true, decide_eq_true_eq] at hin
      rw [if_neg (by omega)]
      rfl

/-- Cells put into a memory one after another. -/
def putCells (m bs : Bytes) : Bytes := bs.foldl (fun (m : Bytes) (c : Nat × Byte) => memPut m c.1 c.2) m

theorem memGet_putCells_ne {bs : Bytes} {a : Nat} (h : ∀ c ∈ bs, a ≠ c.1) (m : Bytes) :
    memGet (putCells m bs) a = memGet m a := by
  induction bs generalizing m with
  | nil => rfl
  | cons c bs ih =>
    obtain ⟨hc, hbs⟩ := List.forall_mem_cons.mp h
    exact (ih hbs _).trans (memGet_memPut_ne hc _ _)

/-- Cells put where no byte stands read as they read among themselves. -/
theorem memGet_putCells {bs : Bytes} (hbs : Ascending bs) {m : Bytes} {a : Nat} (h0 : memGet m a = 0) :
    memGet (putCells m bs) a = memGet bs a := by
  induction bs generalizing m with
  | nil => exact h0
  | cons c bs ih =>
    obtain ⟨hc, hrest⟩ := List.pairwise_cons.mp hbs
    rw [memGet_cons]
    split
    · next heq =>
      subst heq
      exact (memGet_putCells_ne (fun d hd => Nat.ne_of_lt (hc d hd)) _).trans (memGet_memPut_self _ _ _)
    · next hne => exact ih hrest ((memGet_memPut_ne hne _ _).trans h0)

theorem bulkMem_eq (s : State) (lo n : Nat) (bs : Bytes) :
    bulkMem s lo n bs = (heldWords s lo n).foldl (fun (m : Bytes) a => memWrite m a (memRead s.mem a 8))
      (putCells (memErase s.mem lo n) bs) := rfl

theorem memGet_bulkMem_outside (s : State) {lo n a : Nat} {bs : Bytes} (hbs : ∀ c ∈ bs, lo ≤ c.1 ∧ c.1 < lo + n)
    (ha : a < lo ∨ lo + n ≤ a) : memGet (bulkMem s lo n bs) a = memGet s.mem a := by
  have hput : memGet (putCells (memErase s.mem lo n) bs) a = memGet s.mem a :=
    (memGet_putCells_ne (fun c hc => by have hin := hbs c hc; omega) _).trans (memGet_memErase_outside _ ha)
  rw [bulkMem_eq]
  refine List.foldlRecOn (motive := fun m => memGet m a = memGet s.mem a) _ _ hput (fun m hm w hw => ?_)
  obtain ⟨r, hr, rfl⟩ := List.mem_map.mp hw
  have hin := (List.mem_filter.mp hr).2
  simp only [Bool.and_eq_true, decide_eq_true_eq] at hin
  obtain ⟨⟨⟨-, hlow⟩, hhigh⟩, -⟩ := hin
  refine (memGet_memWrite_outside _ _ _ _ ?_).trans hm
  rw [memRead_length]
  omega

theorem memGet_bulkMem_inside {s : State} {lo n a : Nat} {bs : Bytes} (hheld : heldWords s lo n = []) (hbs : Ascending bs)
    (hlow : lo ≤ a) (hhigh : a < lo + n) : memGet (bulkMem s lo n bs) a = memGet bs a := by
  rw [bulkMem_eq, hheld]
  exact memGet_putCells hbs (memGet_memErase_inside _ hlow hhigh)

/-- The memory that a read of a range shows (R314): the part's own fields stand in the RSTATE words of the range. -/
def shownMem (s : State) (lo n : Nat) : Bytes :=
  s.recs.foldl (fun (m : Bytes) r =>
    if decide (lo < r.1 + 8) && decide (r.1 < lo + n) && isRstate s r.1 then
      memWrite m r.1 (bytesOfNat 8 (rstateWord s r.1).toNat)
    else m) s.mem

theorem bulkRead_eq (s : State) (lo n : Nat) : bulkRead s lo n = memSlice (shownMem s lo n) lo n := rfl

theorem shownMem_wf {s : State} (w : Memory.wf s.mem = true) (lo n : Nat) : Memory.wf (shownMem s lo n) = true := by
  refine foldl_keeps (fun m : Bytes => Memory.wf m = true) _ (fun m r hm => ?_) _ _ w
  split
  · exact memWrite_wf _ _ hm
  · exact hm

theorem shownMem_plain {s : State} {lo n : Nat} (h : ∀ r ∈ s.recs, rangeMeets (r.1, 8) (lo, n) = false) :
    shownMem s lo n = s.mem := by
  refine List.foldlRecOn (motive := (· = s.mem)) _ _ rfl (fun m hm r hr => ?_)
  have hfar := h r hr
  simp only [rangeMeets, Bool.and_eq_false_iff, decide_eq_false_iff_not] at hfar
  refine (if_neg ?_).trans hm
  simp only [Bool.and_eq_true, decide_eq_true_eq]
  omega

/-! ### A range brought to the package point, where every line stands apart (R116, R431) -/

/-- Every line stands apart for a core. -/
def AllQuiet (k : Nat) (s : State) : Prop := ∀ l, Quiet k l s

theorem Apart.allQuiet {k l : Nat} {s t : State} (h : Apart k l s t) (hq : AllQuiet k s) : AllQuiet k t := fun m =>
  { snaps := (h.quiet (hq l)).snaps
    ties := (h.quiet (hq l)).ties
    held := (h.quiet (hq l)).held
    siblings := fun j hj => by
      rw [siblings_of_clusters h.clusters] at hj
      exact (h.levelOne j m (.inl (ne_l1Home_of_sibling hj l))).trans ((hq m).siblings j hj) }

/-- A line dropped from a level one. -/
theorem AllQuiet.eraseL1 {k : Nat} {s : State} (hq : AllQuiet k s) (j l : Nat) :
    AllQuiet k (s.modCore j (fun c => { c with l1 := eraseKey l c.l1 })) := fun m =>
  { snaps := (hq m).snaps
    ties := (hq m).ties
    held := (hq m).held
    siblings := fun i hi => by
      have hnone := (hq m).siblings i hi
      by_cases hij : i = j
      · subst hij
        rw [State.coreAt_modCore_self, lookupKey_eraseKey, hnone, ite_self]
      · rw [State.coreAt_modCore_ne s hij, hnone] }

/-- A line lies wholly in a range. -/
def LineIn (lo n l : Nat) : Prop := lo ≤ 64 * l ∧ 64 * l + 64 ≤ lo + n

/-- What the traffic of lines of a range leaves: every byte outside the range, and all but memory and caches. -/
structure RangeStep (k lo n : Nat) (b t : State) : Prop where
  step : MemStep b t
  quiet : AllQuiet k t
  outside : ∀ a, a < lo ∨ lo + n ≤ a → memGet t.mem a = memGet b.mem a

section
variable {k lo n : Nat} {b : State}

/-- A step of one line of the range. -/
theorem RangeStep.line {l : Nat} {s t : State} (w : RangeStep k lo n b s) (hl : LineIn lo n l) (step : MemStep b t)
    (hapart : Apart k l s t) (hmem : ∀ a, a / 64 ≠ l → memGet t.mem a = memGet s.mem a) : RangeStep k lo n b t where
  step := step
  quiet := hapart.allQuiet w.quiet
  outside a ha := (hmem a (by obtain ⟨hlow, hhigh⟩ := hl; omega)).trans (w.outside a ha)

theorem l2Merge_mem {l : Nat} {s : State} (h : Quiet k l s) (d : Nat) (y : L1Line) : (l2Merge s d l y).mem = s.mem := by
  rw [l2Merge]
  split
  · rfl
  · cases s.l2Line d l with
    | none =>
      simp only [sideFill_quiet h]
      rfl
    | some x => rfl

theorem carry1_rangeStep {l : Nat} {s : State} (w : RangeStep k lo n b s) (hl : LineIn lo n l) (j : Nat) :
    RangeStep k lo n b (carry1 s j l) := by
  have hstep := carry1_memStep w.step j l
  unfold carry1 at hstep ⊢
  cases hline : lookupKey l (s.coreAt j).l1 with
  | none => exact w
  | some x =>
    rw [hline] at hstep
    have hmerged := w.line hl (l2Merge_memStep w.step (dieOf j) l x) (apart_l2Merge (w.quiet l) (dieOf j) x)
      (fun a _ => by rw [l2Merge_mem (w.quiet l)])
    exact ⟨hstep, hmerged.quiet.eraseL1 j l, hmerged.outside⟩

theorem evict2One_rangeStep {l : Nat} {s : State} (w : RangeStep k lo n b s) (hl : LineIn lo n l) (d : Nat) :
    RangeStep k lo n b (evict2One s d l) := by
  refine w.line hl (evict2One_memStep w.step d l) (evict2One_evicted (w.quiet l) d).apart (fun a ha => ?_)
  cases hline : s.l2Line d l with
  | none => rw [evict2One_none hline]
  | some x => exact (evict2One_evictedTwo (w.quiet l) hline).mem a ha

theorem rawMerge_quiet {l : Nat} {s : State} (h : Quiet k l s) (data : BitVec 512) (m : BitVec 64) (tags : BitVec 4)
    (code : BitVec 2) : rawMerge s l data m tags code = pkgMerge s l data m tags code := by
  by_cases hm : m = 0
  · rw [pkgMerge, rawMerge, if_pos hm, if_pos hm]
  · rw [pkgMerge, if_neg hm, snapBefore_quiet h]

theorem rawSettle_rangeStep {l : Nat} {s : State} (w : RangeStep k lo n b s) (hl : LineIn lo n l) :
    RangeStep k lo n b (rawSettle s l) := by
  refine foldl_keeps (RangeStep k lo n b) _ (fun s d w => ?_) _ _ w
  split
  · exact w
  · next x hline =>
    rw [rawMerge_quiet (w.quiet l)]
    exact w.line hl (l2Del_memStep (pkgMerge_memStep w.step _ _ _ _ _) _ _)
      ((apart_pkgMerge (w.quiet l) _ _ _ _).trans (apart_l2Del _ k d l)) (fun a ha => memGet_pkgMerge (w.quiet l) _ _ _ _ ha)

/-- The lines that meet a range of whole lines lie in it. -/
theorem lineIn_of_hit (hlo : lo % 64 = 0) (hn : n % 64 = 0) {l : Nat}
    (h : (decide (lo ≤ 64 * l + 63) && decide (64 * l < lo + n)) = true) : LineIn lo n l := by
  simp only [Bool.and_eq_true, decide_eq_true_eq] at h
  constructor <;> omega

theorem flushRange_rangeStep {s : State} (w : RangeStep k lo n b s) (hlo : lo % 64 = 0) (hn : n % 64 = 0) :
    RangeStep k lo n b (flushRange s lo n) := by
  refine foldl_keeps (RangeStep k lo n b) _ (fun s d w => ?_) _ _
    (foldl_keeps (RangeStep k lo n b) _ (fun s p w => ?_) _ _ w)
  · refine List.foldlRecOn (motive := RangeStep k lo n b) _ _ w (fun t ht l hl => ?_)
    rw [evict2, tied_quiet (ht.quiet l)]
    exact evict2One_rangeStep ht (lineIn_of_hit hlo hn (List.mem_filter.mp hl).2) _
  · refine List.foldlRecOn (motive := RangeStep k lo n b) _ _ w (fun t ht l hl => ?_)
    rw [tied_quiet (ht.quiet l)]
    exact carry1_rangeStep ht (lineIn_of_hit hlo hn (List.mem_filter.mp hl).2) _

theorem snapRange_quiet {s : State} (h : ∀ d : Nat, (s.snapAt d).cut = false) : snapRange s lo n = s := by
  refine List.foldlRecOn (motive := (· = s)) _ _ rfl (fun t ht d _ => ?_)
  subst ht
  refine List.foldlRecOn (motive := (· = t)) _ _ rfl (fun u hu i _ => ?_)
  subst hu
  rw [snapLeft, h d, Bool.false_and, Bool.false_and, Bool.false_and, if_neg Bool.false_ne_true]

end

/-- What a store of the part leaves where every line stands apart: the memory of a state that other traffic of the range's lines
has left. -/
theorem bulkStore_quiet {k lo n : Nat} {s : State} (hq : AllQuiet k s) (hcut : ∀ d : Nat, (s.snapAt d).cut = false)
    (hlo : lo % 64 = 0) (hn : n % 64 = 0) (hpos : n ≠ 0) (bs : Bytes) :
    ∃ u, RangeStep k lo n s u ∧ (bulkStore s lo n bs).mem = bulkMem u lo n bs := by
  have hflushed := flushRange_rangeStep (b := s) ⟨.refl s, hq, fun _ _ => rfl⟩ hlo hn
  have hfirst : LineIn lo n (lo / 64) := by constructor <;> omega
  have hlast : LineIn lo n ((lo + n - 1) / 64) := by constructor <;> omega
  have hsettled := rawSettle_rangeStep (rawSettle_rangeStep hflushed hfirst) hlast
  refine ⟨_, hsettled, ?_⟩
  rw [bulkStore, if_neg hpos, snapRange_quiet hcut, bulkSet, bulkPlace_mem,
    sideFill_quiet (hsettled.quiet 0), sideFill_quiet (hsettled.quiet 0)]

/-! ### The copy (R135, R314) -/

theorem copyBulk_memStep (s : State) (src dst n : Nat) (code dcode : BitVec 2) :
    MemStep s (copyBulk s src dst n code dcode) := by
  unfold copyBulk
  extract_lets near u tags now bad v w
  have hfilled : MemStep s u := .foldl (fun _ l w => sideFill_memStep w l code) _ (.refl s)
  have hstored : MemStep s v := spoilLines_memStep (bulkStore_memStep hfilled dst n _) _
  have htagged : MemStep s w := hstored.trans (.of_tables rfl rfl rfl rfl)
  split
  · exact htagged
  · exact .foldl (fun _ i w => sideMark_memStep w _ _) _ htagged

theorem copyBulk_mem {s : State} (hside : s.side = []) (src dst n : Nat) (code dcode : BitVec 2) :
    (copyBulk s src dst n code dcode).mem = (bulkStore s dst n (shifted dst (bulkRead s src n))).mem := by
  unfold copyBulk
  extract_lets near u tags now bad v w
  have hu : u = s := by
    unfold u
    rw [hside]
    rfl
  have hw : w.mem = (bulkStore s dst n (shifted dst (bulkRead s src n))).mem := by
    show (bulkStore u dst n (shifted dst (bulkRead u src n))).mem = _
    rw [hu]
  split
  · exact hw
  · exact (foldl_mem _ (fun _ _ => sideMark_mem _ _ _) _ _).trans hw

theorem heldWords_of_memStep {s t : State} (h : MemStep s t) (lo n : Nat) : heldWords t lo n = heldWords s lo n := by
  have hrecs : t.recs = s.recs := congrArg (fun r => r.recs) h.rest
  have hregions : t.regions = s.regions := congrArg (fun r => r.regions) h.rest
  simp only [heldWords, isRstate, hrecs, hregions]

theorem mem_shifted_slice {m : Bytes} {lo n dst : Nat} {c : Nat × Byte} (hc : c ∈ shifted dst (memSlice m lo n)) :
    dst ≤ c.1 ∧ c.1 < dst + n := by
  obtain ⟨d, hd, rfl⟩ := List.mem_map.mp hc
  obtain ⟨e, he, rfl⟩ := List.mem_map.mp hd
  have hin := (List.mem_filter.mp he).2
  simp only [Bool.and_eq_true, decide_eq_true_eq] at hin
  dsimp only
  omega

section
variable {s : State} {src dst n : Nat} (w : Memory.wf s.mem = true) (hdst : dst % 64 = 0) (hn : n % 64 = 0) (hties : s.ties = [])
  (hside : s.side = []) (hcut : ∀ d : Nat, (s.snapAt d).cut = false) (code dcode : BitVec 2)

include hdst hn hties hside hcut in
/-- The copy's memory: the bytes read, placed in the memory that other traffic of the destination's lines has left. -/
theorem copyBulk_quiet (hpos : n ≠ 0) : ∃ u, RangeStep (farCore s) dst n s u ∧
    (copyBulk s src dst n code dcode).mem = bulkMem u dst n (shifted dst (bulkRead s src n)) := by
  obtain ⟨u, hu, hmem⟩ := bulkStore_quiet (quiet_farCore hcut hties hside) hcut hdst hn hpos (shifted dst (bulkRead s src n))
  exact ⟨u, hu, (copyBulk_mem hside src dst n code dcode).trans hmem⟩

include hdst hn hties hside hcut in
theorem memGet_copyBulk_outside {a : Nat} (ha : a < dst ∨ dst + n ≤ a) :
    memGet (copyBulk s src dst n code dcode).mem a = memGet s.mem a := by
  by_cases hpos : n = 0
  · rw [copyBulk_mem hside, bulkStore, if_pos hpos]
  · obtain ⟨u, hu, hmem⟩ := copyBulk_quiet (src := src) hdst hn hties hside hcut code dcode hpos
    rw [hmem]
    exact (memGet_bulkMem_outside u (fun c hc => mem_shifted_slice hc) ha).trans (hu.outside a ha)

include w hdst hn hties hside hcut in
theorem memGet_copyBulk_inside (hheld : heldWords s dst n = []) {i : Nat} (hi : i < n) :
    memGet (copyBulk s src dst n code dcode).mem (dst + i) = memGet (bulkRead s src n) i := by
  obtain ⟨u, hu, hmem⟩ := copyBulk_quiet (src := src) hdst hn hties hside hcut code dcode (Nat.ne_zero_of_lt hi)
  have hread : Ascending (bulkRead s src n) := ascending_memSlice (ascending_of_memWfFrom (shownMem_wf w src n)) src n
  rw [hmem, memGet_bulkMem_inside ((heldWords_of_memStep hu.step dst n).trans hheld) (ascending_shifted hread dst)
    (Nat.le_add_right dst i) (Nat.add_lt_add_left hi dst), memGet_shifted]

end

theorem memGet_bulkRead_plain {s : State} {lo n : Nat} (h : ∀ r ∈ s.recs, rangeMeets (r.1, 8) (lo, n) = false) {i : Nat}
    (hi : i < n) : memGet (bulkRead s lo n) i = memGet s.mem (lo + i) := by
  rw [bulkRead_eq, memGet_memSlice _ _ hi, shownMem_plain h]

/-- What the Copy step leaves of its copy's state: the budgets and the copies in level one. -/
theorem exec_migrateCopy {m : Migration} {s : State} (h : migAt s m.old 2 = some m) :
    ∃ (code : BitVec 2) (t : State), exec (.migrateCopy m.old) s = .next t ∧
      t.mem = (copyBulk s m.old m.new m.size code m.code).mem ∧
      t.migs = (copyBulk s m.old m.new m.size code m.code).migs.map (fun y => if y = m then { y with phase := 3 } else y) := by
  refine ⟨BitVec.ofNat 2 (field (pkgWord s m.leaf) 8 2), ?_⟩
  show ∃ t, execMigrateCopy m.old s = .next t ∧ _
  rw [execMigrateCopy, h]
  exact ⟨_, rfl, rfl, rfl⟩

/-! ### The switch (R135, R404) -/

theorem exec_migrateSwitch {m : Migration} {s : State} (h : migAt s m.old 3 = some m) :
    ∃ t, exec (.migrateSwitch m.old) s = .next t ∧ t.mem = (renameLeaf s m).mem ∧
      t.cores = (renameLeaf s m).cores.map (fun p => (p.1, movedQueues (renameLeaf s m) m p.2)) ∧
      (∀ p ∈ t.tlbs, ∀ y ∈ p.2, rangeMeets (y.frame, y.size) (m.old, m.size) = false ∧
        rangeMeets (y.va, y.size) (m.va, m.size) = false) := by
  show ∃ t, execMigrateSwitch m.old s = .next t ∧ _
  rw [execMigrateSwitch, h]
  refine ⟨_, rfl, rfl, rfl, fun p hp y hy => ?_⟩
  obtain ⟨q, hq, rfl⟩ := List.mem_map.mp hp
  have hkept := (List.mem_filter.mp hy).2
  simp only [Bool.and_eq_true, Bool.not_eq_true'] at hkept
  obtain ⟨⟨hva, -⟩, hframe⟩ := hkept
  exact ⟨hframe, hva⟩

/-- Settles O57: the copy by what a store of the part leaves where every line stands apart, the other phases by their steps. -/
theorem migrationSteps : Obligations.MigrationSteps := by
  refine ⟨?stall, ?drain, ?copy, fun m s h => exec_migrateSwitch h, ?release⟩
  case stall =>
    intro x s hok
    show execMigrateStall x s = _
    rw [execMigrateStall, hok, Bool.not_true, if_neg Bool.false_ne_true]
  case drain =>
    intro m s h
    show execMigrateDrain m.old s = _
    rw [execMigrateDrain, h]
  case copy =>
    intro m s h w _ hnew hsize hties hside hcut
    obtain ⟨code, t, hexec, hmem, hmigs⟩ := exec_migrateCopy h
    refine ⟨t, hexec, fun hheld i hi => ?_, fun a ha => ?_, ?_⟩
    · have hcopied : memGet t.mem (m.new + i) = memGet (bulkRead s m.old m.size) i := by
        rw [hmem, memGet_copyBulk_inside w hnew hsize hties hside hcut code m.code hheld hi]
      exact ⟨hcopied, fun hfar => hcopied.trans (memGet_bulkRead_plain hfar hi)⟩
    · rw [hmem, memGet_copyBulk_outside hnew hsize hties hside hcut code m.code ha]
    · rw [hmigs, show (copyBulk s m.old m.new m.size code m.code).migs = s.migs from
        congrArg (fun r => r.migs) (copyBulk_memStep s m.old m.new m.size code m.code).rest]
  case release =>
    intro m s h
    show execMigrateRelease m.old s = _
    rw [execMigrateRelease, h]

end Sys2Proof.Machine

/-! # What the steps of an engine do with a command -/

namespace Sys2Proof.Machine

/-! ### What the accesses of an engine leave of the engines (R394, R271) -/

theorem MemStep.engines {s t : State} (h : MemStep s t) : t.engines = s.engines := congrArg (fun r => r.engines) h.rest

section
variable {es : List (Nat × Engine)}

theorem engines_ite {c : Prop} [Decidable c] {a b : State} (ha : a.engines = es) (hb : b.engines = es) :
    (if c then a else b).engines = es := by
  split
  · exact ha
  · exact hb

theorem fst_engines_ite {β : Type} {c : Prop} [Decidable c] {a b : State × β} (ha : a.1.engines = es) (hb : b.1.engines = es) :
    (if c then a else b).1.engines = es := by
  split
  · exact ha
  · exact hb

theorem engines_of_fst {β : Type} {p : State × β} {s : State} {b : β} (h : p = (s, b)) (w : p.1.engines = es) :
    s.engines = es := by
  rw [h] at w
  exact w

theorem setAd_engines {s : State} (hs : s.engines = es) (ea pte : Nat) (p : Perm) : (setAd s ea pte p).1.engines = es := by
  have hwritten (data : BitVec 512) (m : BitVec 64) := (touch_memStep (pkgMerge_memStep
    (.foldl (fun _ d w => evict2_memStep w d (lineOf ea)) (List.range 4) (.refl s)) (lineOf ea) data m 0 0) (lineOf ea)).engines
  unfold setAd
  split
  · exact hs
  · exact fst_engines_ite hs ((hwritten _ _).trans hs)

theorem walk_engines {g : Bool} {root a wtop : Nat} {tbl : State → Nat → State × Except XFault Nat} {p : Perm}
    (ht : ∀ s a, s.engines = es → (tbl s a).1.engines = es) (lv : Nat) : ∀ (s : State) (t : Nat), s.engines = es →
    (walk g root tbl a wtop p lv s t).1.engines = es := by
  induction lv with
  | zero => exact fun s t w => w
  | succ lv ih =>
    intro s t w
    have hh := ht s (t + 8 * natField a (12 + 9 * lv) (if lv = 4 then wtop else 9)) w
    rw [walk]
    dsimp only
    generalize tbl s _ = r at hh ⊢
    obtain ⟨s, f | ea⟩ := r
    · exact hh
    · refine fst_engines_ite hh (fst_engines_ite hh (fst_engines_ite hh (fst_engines_ite hh (fst_engines_ite hh
        (fst_engines_ite (fst_engines_ite hh (ih _ _ hh)) ?_)))))
      exact fst_engines_ite hh (fst_engines_ite hh (fst_engines_ite hh (fst_engines_ite hh
        (setAd_engines hh ea _ p))))

theorem gtrans_engines {s : State} (hs : s.engines = es) (root : Nat) (rt : Root) (p : Perm) (gpa : Nat) :
    (gtrans root rt p s gpa).1.engines = es :=
  fst_engines_ite hs (walk_engines (fun _ _ w => w) _ _ _ hs)

theorem tblGuest_engines {s : State} (hs : s.engines = es) (root : Nat) (rt : Root) (a : Nat) :
    (tblGuest root rt s a).1.engines = es := by
  have hwalked := gtrans_engines hs root rt .read a
  unfold tblGuest
  generalize gtrans root rt .read s a = r at hwalked ⊢
  obtain ⟨s, f | l⟩ := r
  · exact hwalked
  · exact hwalked

theorem settleLeaf_engines {s : State} (hs : s.engines = es) (x : Xer) (pa : Nat) (held : Tlb) (p : Perm) :
    (settleLeaf s x pa held p).1.engines = es := by
  unfold settleLeaf
  cases phys s pa with
  | error f => exact hs
  | ok pa => exact (engines_ite hs hs : (if p = .none then s else { tlbKeep s x.agent held with code := held.skew }).engines = es)

theorem walkFor_engines {s : State} (hs : s.engines = es) (x : Xer) (va : Nat) (p : Perm) :
    (walkFor s x va p).1.engines = es := by
  unfold walkFor
  extract_lets u root rt
  have hu : u.engines = es := hs
  clear_value u
  cases windowPa u x va with
  | some r => exact hu
  | none =>
    refine fst_engines_ite (fst_engines_ite hu hu) ?_
    cases tlbHit u x va p with
    | some t => exact hu
    | none =>
      refine fst_engines_ite hu (fst_engines_ite hu (fst_engines_ite ?guest ?single))
      case guest =>
        have hone := walk_engines (g := false) (root := root) (a := va) (wtop := 9) (p := p)
          (tbl := tblGuest root rt) (fun _ a w => tblGuest_engines w root rt a) 5 u (field rt.vsatp 0 44 * 4096) hu
        generalize walk false root (tblGuest root rt) va 9 p 5 u _ = r at hone ⊢
        obtain ⟨v, f | l1⟩ := r
        · exact hone
        · have htwo := gtrans_engines hone root rt p l1.pa
          dsimp only
          generalize gtrans root rt p v l1.pa = q at htwo ⊢
          obtain ⟨w, f | l2⟩ := q
          · exact htwo
          · exact settleLeaf_engines htwo _ _ _ _
      case single =>
        have hone := walk_engines (g := false) (root := root) (a := va) (wtop := 9) (p := p) (tbl := tblPhys)
          (fun _ _ w => w) 5 u (field rt.vsatp 0 44 * 4096) hu
        generalize walk false root tblPhys va 9 p 5 u _ = r at hone ⊢
        obtain ⟨v, f | l⟩ := r
        · exact hone
        · exact settleLeaf_engines hone _ _ _ _

theorem xlatePages_engines {s : State} (hs : s.engines = es) (n : Nat) (c : Cmd) (write : Bool) (ps : List (Nat × Nat)) :
    (xlatePages n c write ps s).1.engines = es := by
  induction ps generalizing s with
  | nil => exact hs
  | cons p rest ih =>
    obtain ⟨va, k⟩ := p
    have hwalked := walkFor_engines hs (cmdXer n c) va (if write then .write else .read)
    rw [xlatePages]
    dsimp only
    generalize walkFor s (cmdXer n c) va _ = r at hwalked ⊢
    obtain ⟨t, f | pa⟩ := r
    · exact hwalked
    · have hrest := ih hwalked
      dsimp only
      generalize xlatePages n c write rest t = q at hrest ⊢
      obtain ⟨u, e | l⟩ := q
      · exact hrest
      · exact hrest

theorem engAccess_engines {s : State} (hs : s.engines = es) (n : Nat) (c : Cmd) (cap : Cap) (off : Int) (k : Nat)
    (write : Bool) : (engAccess s n c cap off k write).1.engines = es := by
  unfold engAccess
  cases capCheck cap off k (if write then .store else .load) with
  | error cause => exact hs
  | ok v =>
    have hpages := xlatePages_engines hs n c write (pagesOf (offVa cap off) k)
    dsimp only
    generalize xlatePages n c write _ s = r at hpages ⊢
    obtain ⟨t, e | l⟩ := r
    · exact hpages
    · dsimp only
      split
      · exact hpages
      · exact hpages

theorem copyAccess_engines (s : State) (n : Nat) (c : Cmd) (k : Nat) : (copyAccess s n c k).1.engines = s.engines := by
  unfold copyAccess
  extract_lets len off
  have hsrc : (if cmdOp c.word = 2 then (s, .ok []) else engAccess s n c c.src off k false).1.engines = s.engines :=
    fst_engines_ite rfl (engAccess_engines rfl n c c.src off k false)
  generalize (if cmdOp c.word = 2 then (s, .ok []) else engAccess s n c c.src off k false) = r at hsrc ⊢
  obtain ⟨t, e | src⟩ := r
  · exact hsrc
  · have hdst := engAccess_engines hsrc n c c.dst c.pos k true
    dsimp only
    generalize engAccess t n c c.dst c.pos k true = q at hdst ⊢
    obtain ⟨u, e | dst⟩ := q
    · exact hdst
    · exact hdst

end

/-! ### What the writes of an engine leave of the engines (R130, R278) -/

theorem diePut_memStep {b s : State} (w : MemStep b s) (d owner l : Nat) (code : BitVec 2) (data : BitVec 512) (m : BitVec 64)
    (tags : BitVec 4) : MemStep b (diePut s d owner l code data m tags) := by
  unfold diePut
  cases s.l2Line d l with
  | some x => exact touch_memStep (l2Put_memStep w _ _ _) _
  | none => exact touch_memStep (l2Put_memStep (sideFill_memStep w _ _) _ _ _) _

theorem engPut_memStep {b s : State} (w : MemStep b s) (n : Nat) (sc : Scope) (owner pa : Nat) (code : BitVec 2)
    (bs : List Byte) (tags : BitVec 4) : MemStep b (engPut s n sc owner pa code bs tags) := by
  unfold engPut
  split
  · exact w
  · split
    · refine diePut_memStep ?_ _ _ _ _ _ _ _
      split
      · exact w
      · exact rstateStore_memStep w _ _
    · exact codeStore_memStep w _ _ _ _

theorem engWrite_memStep {b s : State} (w : MemStep b s) (n : Nat) (sc : Scope) (owner : Nat) (ps : List Piece)
    (bs : List Byte) (ts : List Bool) : MemStep b (engWrite s n sc owner ps bs ts) :=
  foldl_keeps (fun acc : State × List Byte × List Bool => MemStep b acc.1) _ (fun _ _ w => engPut_memStep w _ _ _ _ _ _ _) _ _ w

theorem frameStoreWord_engines (s : State) (slot : Nat) (c : Ctx) (o : Nat) (v : Word) :
    (frameStoreWord s slot c o v).engines = s.engines := by
  unfold frameStoreWord
  extract_lets old d b u
  refine engines_ite ((codeStore_memStep (.refl u) _ _ _ _).engines.trans rfl) (engines_ite ?_ rfl)
  refine foldl_keeps (fun t : State => t.engines = s.engines) _ (fun t a ht => ?_) _ u rfl
  cases capWordAt a with
  | none => exact ht
  | some w => exact engines_ite ((codeStore_memStep (.refl t) _ _ _ _).engines.trans ht) ht

theorem creditStage_engines (s : State) (slot : Nat) (st : Fin 16) (f : Stage → Stage) :
    (creditStage s slot st f).engines = s.engines :=
  engines_ite (frameStoreWord_engines _ _ _ _ _) rfl

theorem creditGranule_engines (s : State) (n : Nat) (c : Cmd) (k : Nat) : (creditGranule s n c k).engines = s.engines := by
  unfold creditGranule
  refine engines_ite rfl ?_
  cases linkFor s n c with
  | none => exact engines_ite rfl (creditStage_engines _ _ _ _)
  | some p => exact engines_ite rfl (creditStage_engines _ _ _ _)

theorem setAttr_engines (s : State) (c : Cmd) (dst : List Piece) : (setAttr s c dst).engines = s.engines := by
  unfold setAttr
  cases dst with
  | nil => rfl
  | cons p ps => exact engines_ite rfl rfl

/-! ### A granule of a copy (R269, R271) -/

/-- The state once a granule's bytes are written, credited, counted and charged. -/
def granuleServed (s : State) (n : Nat) (c : Cmd) (src dst : List Piece) (k : Nat) : State :=
  let d := granuleData s n c src dst k
  let s := engWrite { s with fresh := s.fresh + 1 } n (cmdScope n c.word) c.region dst d.1 d.2
  let s := countGranule (creditGranule (setAttr s c dst) n c k) n
  match cmdActivity n c with
  | some a => chargeFor s a c.region k
  | none => s

/-- A copy once a granule has been served. -/
def servedCmd (c : Cmd) (dst : List Piece) (k : Nat) : Cmd :=
  { c with started := true, pos := c.pos + k, done := c.done + k, ranges := c.ranges ++ pieceRanges dst }

theorem copyGranule_served {s t : State} {n : Nat} {c : Cmd} {src dst : List Piece}
    (haccess : copyAccess s n c (granuleLen c (cmdLen c.word)) = (t, .ok (src, dst))) (hup : peerDown t (src ++ dst) = false)
    (i : Nat) :
    copyGranule s n i c =
      if c.pos + granuleLen c (cmdLen c.word) = cmdLen c.word * cmdRows c.word then
        endCmd (granuleServed t n c src dst (granuleLen c (cmdLen c.word))) n i
          (servedCmd c dst (granuleLen c (cmdLen c.word))) 0
      else setCmd (granuleServed t n c src dst (granuleLen c (cmdLen c.word))) n i
        (servedCmd c dst (granuleLen c (cmdLen c.word))) := by
  unfold copyGranule
  dsimp only
  rw [haccess]
  dsimp only
  rw [if_neg (by rw [hup]; exact Bool.false_ne_true)]
  rfl

theorem granuleServed_cmds (s : State) (n : Nat) (c : Cmd) (src dst : List Piece) (k : Nat) :
    ((granuleServed s n c src dst k).engineAt n).cmds = (s.engineAt n).cmds := by
  unfold granuleServed
  extract_lets d written u
  have hwritten : (creditGranule (setAttr written c dst) n c k).engines = s.engines :=
    (creditGranule_engines _ _ _ _).trans ((setAttr_engines _ _ _).trans
      (engWrite_memStep (.refl { s with fresh := s.fresh + 1 }) _ _ _ _ _ _).engines)
  have hcounted : (u.engineAt n).cmds = (s.engineAt n).cmds := by
    unfold u
    rw [countGranule, State.engineAt_modEngine_self, State.engineAt, hwritten]
    rfl
  cases cmdActivity n c with
  | none => exact hcounted
  | some a => exact hcounted

theorem cmdAt?_setCmd {s : State} {x : EngArgs} (h : x.idx < (s.engineAt x.eng).cmds.length) (c : Cmd) :
    cmdAt? (setCmd s x.eng x.idx c) x = some c := by
  rw [cmdAt?, setCmd, State.engineAt_modEngine_self, List.getElem?_set_self h]

theorem cmdAt?_endCmd {s : State} {x : EngArgs} (h : x.idx < (s.engineAt x.eng).cmds.length) (c : Cmd) (st : BitVec 3) :
    cmdAt? (endCmd s x.eng x.idx c st) x = some { c with status := some st, stalls := [] } :=
  cmdAt?_setCmd h _

theorem copyGranule_cmdAt? {s t : State} {x : EngArgs} {c : Cmd} {src dst : List Piece} (hcmd : cmdAt? s x = some c)
    (haccess : copyAccess s x.eng c (granuleLen c (cmdLen c.word)) = (t, .ok (src, dst)))
    (hup : peerDown t (src ++ dst) = false) :
    ∃ d, cmdAt? (copyGranule s x.eng x.idx c) x = some d ∧ d.pos = c.pos + granuleLen c (cmdLen c.word) ∧
      d.done = c.done + granuleLen c (cmdLen c.word) ∧
      d.status = (if c.pos + granuleLen c (cmdLen c.word) = cmdLen c.word * cmdRows c.word then some 0 else c.status) := by
  have hengines : t.engines = s.engines := engines_of_fst haccess (copyAccess_engines _ _ _ _)
  have hplace : x.idx < ((granuleServed t x.eng c src dst (granuleLen c (cmdLen c.word))).engineAt x.eng).cmds.length := by
    rw [granuleServed_cmds, State.engineAt, hengines]
    exact (List.getElem?_eq_some_iff.mp hcmd).1
  rw [copyGranule_served haccess hup]
  split
  · exact ⟨_, cmdAt?_endCmd hplace _ _, rfl, rfl, rfl⟩
  · exact ⟨_, cmdAt?_setCmd hplace _, rfl, rfl, rfl⟩

/-! ### The rows of an engine's commands (R270 to R277, R327, R328, R425, R431) -/

section
variable {x : EngArgs} {s : State} {c : Cmd} (hcmd : cmdAt? s x = some c)

include hcmd

theorem exec_engineRefuse {cause : BitVec 16} (hstarted : c.started = false) (hstatus : c.status = none)
    (hpause : (s.engineAt x.eng).pause = false) (hheld : heldBack s c = false) (hrefuse : refusal s x.eng c = some cause) :
    exec (.engineRefuse x) s = .next (endCmd s x.eng x.idx { c with fault := some (cause, 0) } 3) := by
  show execEngineRefuse x s = _
  rw [execEngineRefuse, hcmd]
  dsimp only
  rw [hstarted, hstatus, hpause, hheld, hrefuse]
  exact if_neg Bool.false_ne_true

theorem exec_enginePerform (hmay : mayPerform s x.eng c = true) : exec (.enginePerform x) s = .next (performCmd s x c) := by
  show execEnginePerform x s = _
  rw [execEnginePerform, hcmd]
  dsimp only
  rw [if_pos hmay]

omit hcmd in
theorem performCmd_miss {m : XFault × Nat × Bool} (hmiss : c.miss = some m) :
    performCmd s x c = reportStep s x.eng x.idx c m := by
  rw [performCmd, hmiss]

omit hcmd in
/-- A command without a miss performs what its operation says. -/
theorem performCmd_noMiss (hmiss : c.miss = none) : performCmd s x c =
    if isGather c.word then gatherStep s x.eng x.idx c
    else if cmdOp c.word = 7 then replayStep s x.eng x.idx c
    else if isSealing c.word then (if c.buf.isEmpty then s else sealGranule s x.eng x.idx c)
    else if cmdOp c.word = 10 then endCmd (takeCut s (x.eng - 76)) x.eng x.idx { c with started := true } 0
    else copyStep s x.eng x.idx c := by
  rw [performCmd, hmiss]

theorem exec_pseal (hmay : mayPerform s x.eng c = true) (hmiss : c.miss = none) (hop : cmdOp c.word = 8) :
    exec (.pseal x) s = if !c.buf.isEmpty then .next (if c.buf.length ≤ c.pos then sealFinish s x.eng x.idx c else s)
      else .next (sealStart s x.eng x.idx c) := by
  show execPseal x s = _
  rw [execPseal, hcmd]
  dsimp only
  rw [if_neg (by simp [hmay, hmiss, hop])]

theorem exec_punseal (hmay : mayPerform s x.eng c = true) (hmiss : c.miss = none) (hop : cmdOp c.word = 9)
    (hbuf : c.buf = []) : exec (.punseal x) s = .next (unsealStart s x.eng x.idx c) := by
  show execPunseal x s = _
  rw [execPunseal, hcmd]
  dsimp only
  rw [if_neg (by simp [hmay, hmiss, hop, hbuf])]


omit hcmd in
/-- A completed command as it posts: one that ended early acquires the rest of its destination too (R132). -/
theorem posted_keeps {k : Cmd} {ranges : List (Nat × Nat)}
    (hk : k = if c.status = some 0 then c else { c with ranges := ranges }) :
    k.packet = c.packet ∧ k.slot = c.slot ∧ k.status = c.status ∧ ∀ y, postRoom y k = postRoom y c := by
  subst hk
  split
  · exact ⟨rfl, rfl, rfl, fun _ => rfl⟩
  · exact ⟨rfl, rfl, rfl, fun _ => rfl⟩

omit hcmd in
theorem posted_eq {st : BitVec 3} (hstatus : c.status = some st) (k : Cmd) :
    (if c.status = some 0 then c else k) = if st = 0 then c else k :=
  if_congr (by rw [hstatus, Option.some_inj]) rfl rfl

theorem exec_enginePost_context {st : BitVec 3} (hstatus : c.status = some st) (hpause : (s.engineAt x.eng).pause = false)
    (hpacket : c.packet = none) {y : Ctx} (hctx : s.ctx? c.slot = some y) :
    exec (.enginePost x) s =
      .next (if y.pruned then s.modEngine x.eng (fun e => { e with cmds := e.cmds.eraseIdx x.idx })
        else if postRoom y c then (s.modEngine x.eng (fun e => { e with cmds := e.cmds.eraseIdx x.idx })).modCtx c.slot (fun y =>
          postCtx y (if st = 0 then c else { c with ranges := c.ranges ++ livePages s x.eng c (extentsOf s x.eng c).2 }))
        else s) := by
  show execEnginePost x s = _
  unfold execEnginePost
  rw [hcmd]
  dsimp -zeta only
  rw [if_neg (by rw [hstatus, hpause]; exact Bool.false_ne_true), ← posted_eq hstatus]
  extract_lets k t
  have hk : (if c.status = some 0 then c else
    { c with ranges := c.ranges ++ livePages s x.eng c (extentsOf s x.eng c).2 }) = k := rfl
  obtain ⟨hpk, hslot, -, hroom⟩ := posted_keeps hk.symm
  rw [hk, hpk, hpacket]
  dsimp only
  rw [hslot, hctx]
  dsimp only
  rw [hroom]

theorem exec_enginePost_packet {st : BitVec 3} (hstatus : c.status = some st) (hpause : (s.engineAt x.eng).pause = false)
    {p : Nat × Nat} (hpacket : c.packet = some p) :
    exec (.enginePost x) s = .next (packetEnds (s.modEngine x.eng (fun e => { e with cmds := e.cmds.eraseIdx x.idx })) (some p)
      (if st = 0 then 0 else 3)) := by
  show execEnginePost x s = _
  unfold execEnginePost
  rw [hcmd]
  dsimp -zeta only
  rw [if_neg (by rw [hstatus, hpause]; exact Bool.false_ne_true)]
  extract_lets k t
  obtain ⟨hpk, -, hst, -⟩ := posted_keeps (show k = _ from rfl)
  rw [hpk, hpacket]
  dsimp only
  rw [hst, if_congr (show c.status = some 0 ↔ st = 0 by rw [hstatus, Option.some_inj]) rfl rfl]

theorem exec_linkCommandStart {l : Link} {g : Gang} (hlink : linkFor s x.eng c = some (l, g)) (hstarted : c.started = false)
    (hstatus : c.status = none) (hpause : (s.engineAt x.eng).pause = false) (hheld : heldBack s c = false)
    (hproducer : leaving s c.slot = false) (hconsumer : leaving s (consumerSlot l g) = false)
    (hrefuse : refusal s x.eng c = none) (hcredit : cmdLen c.word ≤ (stageIn s c.slot l.pstage).credit.toNat) :
    exec (.linkCommandStart x) s = .next (setCmd (creditStage s c.slot l.pstage (fun y =>
      { y with credit := y.credit - BitVec.ofNat 24 (cmdLen c.word) })) x.eng x.idx { c with started := true }) := by
  show execLinkCommandStart x s = _
  rw [execLinkCommandStart, hcmd]
  dsimp only
  rw [hlink]
  dsimp only
  rw [linkLeaves, hstarted, hstatus, hpause, hheld, hproducer, hconsumer, hrefuse, decide_eq_false (Nat.not_lt.mpr hcredit)]
  exact if_neg Bool.false_ne_true

theorem exec_linkCommandPause {l : Link} {g : Gang} (hlink : linkFor s x.eng c = some (l, g)) (hstarted : c.started = true)
    (hstatus : c.status = none) (hleaves : leaving s c.slot = true ∨ leaving s (consumerSlot l g) = true) :
    exec (.linkCommandPause x) s = .next (setCmd s x.eng x.idx { c with paused := true }) := by
  have hgone : linkLeaves s c l g = true := Bool.or_eq_true_iff.mpr hleaves
  show execLinkCommandPause x s = _
  rw [execLinkCommandPause, hcmd]
  dsimp only
  rw [hlink]
  dsimp only
  rw [hstarted, hstatus, hgone]
  rfl

end

theorem isGather_of_op {w : Word} {n : Nat} (h : cmdOp w = n) : isGather w = (n == 3 || n == 4) := by rw [isGather, h]

theorem isSealing_of_op {w : Word} {n : Nat} (h : cmdOp w = n) : isSealing w = (n == 8 || n == 9) := by rw [isSealing, h]

section
variable {x : EngArgs} {s : State} {c : Cmd} (hmiss : c.miss = none)

include hmiss

theorem performCmd_gather (hgather : isGather c.word = true) : performCmd s x c = gatherStep s x.eng x.idx c := by
  rw [performCmd_noMiss hmiss, if_pos hgather]

theorem performCmd_replay (hop : cmdOp c.word = 7) : performCmd s x c = replayStep s x.eng x.idx c := by
  rw [performCmd_noMiss hmiss, isGather_of_op hop, hop]
  rfl

theorem performCmd_cut (hop : cmdOp c.word = 10) :
    performCmd s x c = endCmd (takeCut s (x.eng - 76)) x.eng x.idx { c with started := true } 0 := by
  rw [performCmd_noMiss hmiss, isGather_of_op hop, isSealing_of_op hop, hop]
  rfl

theorem performCmd_sealing (hseal : isSealing c.word = true) (hbuf : c.buf ≠ []) :
    performCmd s x c = sealGranule s x.eng x.idx c := by
  have hop : cmdOp c.word = 8 ∨ cmdOp c.word = 9 := by
    simpa only [isSealing, Bool.or_eq_true, beq_iff_eq] using hseal
  rw [performCmd_noMiss hmiss, if_pos hseal, if_neg (fun h => hbuf (List.isEmpty_iff.mp h))]
  rcases hop with hop | hop
  · rw [isGather_of_op hop, hop]
    rfl
  · rw [isGather_of_op hop, hop]
    rfl

theorem performCmd_copy (hop : cmdOp c.word ∈ [0, 1, 2, 5, 6]) : performCmd s x c = copyStep s x.eng x.idx c := by
  have hother : ∀ n ∈ [0, 1, 2, 5, 6], (n == 3 || n == 4) = false ∧ n ≠ 7 ∧ (n == 8 || n == 9) = false ∧ n ≠ 10 := by decide
  obtain ⟨hgather, hreplay, hseal, hcut⟩ := hother _ hop
  rw [performCmd_noMiss hmiss, isGather, isSealing, hgather, hseal, if_neg Bool.false_ne_true, if_neg hreplay,
    if_neg Bool.false_ne_true, if_neg hcut]

end

/-- Settles O55: each row by the branch that its conditions name, a granule's count by what accesses and writes leave of engines. -/
theorem engineSteps : Obligations.EngineSteps := by
  refine ⟨fun x s c cause hcmd hstarted hstatus hpause hheld => exec_engineRefuse hcmd hstarted hstatus hpause hheld, ?perform,
    fun x s t c src dst hcmd haccess hup => copyGranule_cmdAt? hcmd haccess hup, ?post,
    fun x s c l g hcmd hlink hstarted hstatus hpause hheld => exec_linkCommandStart hcmd hlink hstarted hstatus hpause hheld,
    fun x s c l g hcmd hlink hstarted => exec_linkCommandPause hcmd hlink hstarted⟩
  case perform =>
    intro x s c hcmd hmay
    have hexec := exec_enginePerform hcmd hmay
    refine ⟨fun m hmiss => by rw [hexec, performCmd_miss hmiss], fun hmiss hgather => ?_, fun hmiss hop => ?_,
      fun hmiss hop => ?_, fun hmiss hseal hbuf => ?_, fun hmiss hop => ⟨?_, fun hsegs => ?_⟩, fun hmiss hop hbuf => ?_,
      fun hmiss hop hbuf hend => ?_, fun hmiss hop hbuf => exec_punseal hcmd hmay hmiss hop hbuf⟩
    · rw [hexec, performCmd_gather hmiss hgather]
    · rw [hexec, performCmd_replay hmiss hop]
    · rw [hexec, performCmd_cut hmiss hop]
    · rw [hexec, performCmd_sealing hmiss hseal hbuf]
    · rw [hexec, performCmd_copy hmiss hop]
    · rw [copyStep, hsegs]
      rfl
    · rw [exec_pseal hcmd hmay hmiss hop, hbuf]
      rfl
    · rw [exec_pseal hcmd hmay hmiss hop, if_pos (by simpa using hbuf), if_pos hend]
  case post =>
    intro x s c st hcmd hstatus hpause t k
    refine ⟨fun y hpacket hctx => ⟨fun hlive hroom => ?_, fun hpruned => ?_⟩,
      fun p hpacket => exec_enginePost_packet hcmd hstatus hpause hpacket⟩
    · rw [exec_enginePost_context hcmd hstatus hpause hpacket hctx, hlive, hroom, if_neg Bool.false_ne_true, if_pos rfl]
    · rw [exec_enginePost_context hcmd hstatus hpause hpacket hctx, hpruned, if_pos rfl]

end Sys2Proof.Machine
